-- ==== Sys2Proof/Word.lean ====
section
/-! DEFINITION. The word types of the package's registers, packets and memories (00 and 01 of the spec). -/

namespace Sys2Proof

/-- A byte of memory (R26: memory is little-endian bytes). -/
abbrev Byte := BitVec 8
/-- A register or packet word (R16: the control space is accessed in 32-bit words). -/
abbrev Word32 := BitVec 32
/-- A scalar register of a control core, a page-table entry, a 64-bit counter. -/
abbrev Word64 := BitVec 64

end Sys2Proof
end

