-- ==== Sys2Proof/Syntax.lean ====
section
/-! DEFINITION. The commands of the block: one constructor per row of spec/opcode_table.json, with the row's
operands. A packet command carries its path and its 64-byte packet (R526); an event carries the unit it
concerns and what the outside decides about it (a sensor's reading, an arriving packet, an error seen). -/

namespace Sys2Proof

/-- The four masters that can reach the package (16, R524); a fabric manager is known by its package. -/
inductive Master where
  | host0
  | host1
  | bmc
  | fm (pkg : Nat)
  deriving DecidableEq, Repr

/-- The paths of Table 16.1. Mailboxes are banked per host 0, host 1 and BMC (0, 1, 2); `plan` is the step
plan of a stage slot, whose packets firmware issues (R444). -/
inductive Path where
  | ring (r : Nat)
  | mailbox (m : Nat)
  | towpath (pkg : Nat)
  | plan (slot : Nat)
  deriving DecidableEq, Repr

/-- A 64-byte command packet (Table 16.2): header words and the twelve parameter words from offset 0x10. -/
structure Packet where
  word0 : Word32
  hdrC : Word32
  seq : Word32
  tag : Word32
  params : List Word32
  deriving DecidableEq, Repr

/-- The four engines of a core that take pushed commands (R96). -/
inductive Engine where
  | ax | vx | dx | qx
  deriving DecidableEq, Repr

/-- A fault of the main array in one try of an MMA (R82): the sum of product element `elem` (16 × row + column) is off
by n × 2^e. -/
structure ArrayErr where
  elem : Nat
  n : Int
  e : Int
  deriving DecidableEq, Repr

/-- What an engine meets while it runs one command: facts of the hardware that the command itself does not
decide. -/
structure Seen where
  /-- Uncorrectable data met in this access: memory lines by address / 64, pool words as 2^58 + pool key / 8,
  basin words as 2^59 + basin key / 8. -/
  ue : List Nat
  /-- Pool words corrected. -/
  ce : Nat
  /-- Basin words corrected: the reach of each. -/
  basinCe : List Nat
  /-- Beats that the array completes for the command, and how many of them the sentinel stretches (R87). -/
  beats : Nat
  stretches : Nat
  /-- Why the array freezes inside the command (R77): bit 0 a feeder, bit 1 the drain, bit 2 a checksum retry. -/
  freeze : Nat
  /-- Outcome of the checks after the checksums: 0 all pass, 2 the residue check of a VX lane fails twice (R566),
  3 parity error in the tile, 4 rounding units disagree (R84). -/
  check : Nat
  /-- Errors of the main array in the first try of an MMA and in its retry (R83). -/
  errs1 : List ArrayErr
  errs2 : List ArrayErr
  deriving DecidableEq, Repr

/-- A raised request at an arbitration point (R187 to R189). -/
structure GrantReq where
  /-- The requester's number at the arbiter, and its node. -/
  requester : Nat
  node : Nat
  part : Nat
  /-- The network virtual channel, bits 1:0 of NVC. -/
  nvc : Nat
  /-- The regulated resource that the request crosses (Table 15.7b); 5 for none. -/
  res : Nat
  /-- The requester holds every credit and buffer that its unit of grant needs (R189). -/
  credit : Bool
  /-- Raised after the arbiter has made its choice (Table 6.11, step 5). -/
  late : Bool
  deriving DecidableEq, Repr

/-- What holds a grant, by the kinds of Table 6.12; `other` is a requester that the table does not name. -/
inductive GrantHolder where
  | core (c : Nat) (e : Engine)
  /-- A reach stream, by slice and number. -/
  | stream (slice n : Nat)
  /-- A hub-die DMA engine, by the number of the command that it serves. -/
  | dma (cmd : Nat)
  | quay (e : Nat)
  /-- A quay engine that adds a contribution: the writer's partition, the address in the view, the bytes. -/
  | quayAdd (e part va n : Nat)
  | port (p : Nat)
  | keeper (k : Nat)
  | other
  deriving DecidableEq, Repr

/-- What start-up finds (Table 18.8): facts of the board and of the self-tests. -/
structure Boot where
  /-- The address straps, 2 × MADDR1 + MADDR0. -/
  maddr : Nat
  /-- Rails whose regulator does not answer, by their index in Table 21.1. -/
  missing : List Nat
  /-- MODULES_ACTIVE of each die-to-die pair after link-up. -/
  pairs : List Nat
  /-- Memory units that fail training or loop-back (R245). -/
  units : List Nat
  /-- Tier-1 frames that firmware takes for its own structures beside the translation cache's (R222). -/
  fwFrames : Nat
  /-- Physical cores whose array fails its test (R89): core, row of Table 3.1, pattern. -/
  cores : List (Nat × Nat × Nat)
  /-- Quay engines that fail their test, each with the opcode of the instruction that failed (R280). -/
  engines : List (Nat × Nat)
  /-- Milliseconds to READY. -/
  ms : Nat
  deriving DecidableEq, Repr

/-- What a register access finds outside the registers: lines uncorrectable in a memory transfer that it starts (R650),
whether host memory takes an event that it lets post, and the results of a loop-back that it stops (Table 7.12). -/
structure RegFacts where
  ue : List Nat
  ok : Bool
  status : Nat
  errs : Nat
  deriving DecidableEq, Repr
/-- The commands, in the order of the table. An operand that has a default says what does not happen in the ordinary course: no error
of the code, no poison, no uncorrectable line evicted, no retry, CLK not present. -/
inductive Instr where
  -- command packets
  /-- IDENTIFY (R529): Returns PKG_IDENT, PKG_LEVEL, PKG_ID and PKG_GEN in the result words and changes no state. -/
  | identify (path : Path) (pk : Packet)
  /-- NEGOTIATE_LEVEL (R553): Sets the running level when it is in range and no partition exists. -/
  | negotiateLevel (path : Path) (pk : Packet)
  /-- REG_ACCESS (R540): Reads or writes up to eight consecutive control-space registers, one 32-bit access each. -/
  | regAccess (path : Path) (pk : Packet) (x : RegFacts)
  /-- HAND_OVER (R551): Offers ownership to a target master, which has TIMEOUT_MS to accept. -/
  | handOver (path : Path) (pk : Packet)
  /-- SET_DOMAIN_TARGET (R613): Sets a domain's target to ON, AUTO, RETAIN or OFF, subject to its kind and its dependencies. -/
  | setDomainTarget (path : Path) (pk : Packet) (drained : Bool)
  /-- SET_DOMAIN_TRIM (R608): Sets a domain's speed trim from 0 to 40 mV. -/
  | setDomainTrim (path : Path) (pk : Packet)
  /-- SET_DOMAIN_POWER (R609): Sets CAP_W and the power mode NOMINAL, BOOST or FIXED. -/
  | setDomainPower (path : Path) (pk : Packet)
  /-- SET_DOMAIN_IDLE_TIME (R597): Sets the idle time after which AUTO domains enter RETAIN. -/
  | setDomainIdleTime (path : Path) (pk : Packet)
  /-- DIE_RESET (R616): Reroutes around a compute die, resets, retrains, tests and zeroes it, then restores the routes. -/
  | dieReset (path : Path) (pk : Packet) (mods : List Nat) (bad : List (Nat × Nat × Nat)) (ms : Nat)
  /-- SOFT_RESET (R614): Aborts every job and, 100 us after posting its completion, runs start-up. -/
  | softReset (path : Path) (pk : Packet) (boot : Boot)
  /-- PKG_SLEEP (R605): Puts the package in SLEEP, with reach groups OFF and memory domains in RETAIN. -/
  | pkgSleep (path : Path) (pk : Packet)
  /-- PKG_WAKE (R605): Returns the package from SLEEP, or from OFF by running start-up. -/
  | pkgWake (path : Path) (pk : Packet) (boot : Boot)
  /-- PKG_OFF (R605): Turns the lasers off and removes power from every domain except HOST. -/
  | pkgOff (path : Path) (pk : Packet)
  /-- FABRIC_CONFIG (R192): Sets the lengthsman limits and FW_CLASS. -/
  | fabricConfig (path : Path) (pk : Packet)
  /-- MEM_CONFIG (R244): Sets the tier reserves and a partition's cache way mask. -/
  | memConfig (path : Path) (pk : Packet)
  /-- ROUTE_LOAD (R341): Reads and checks a routing table and rebuilds both hub-die chambers with a flip. -/
  | routeLoad (path : Path) (pk : Packet) (host : Option (List Byte)) (ue : List Nat)
  /-- PORT_CTL (R356): Applies port settings (replay limit, sleep idle, UE limit, expected partner) with no action. -/
  | portCtl (path : Path) (pk : Packet)
  /-- PORT_ENABLE (R356): Enables the selected canal ports and starts their training. -/
  | portEnable (path : Path) (pk : Packet)
  /-- PORT_DISABLE (R356): Disables the selected canal ports. -/
  | portDisable (path : Path) (pk : Packet)
  /-- PORT_RETRAIN (R321): Forces a retrain of the selected ports. -/
  | portRetrain (path : Path) (pk : Packet)
  /-- PORT_PARK (R346): Sends PARK, waits for the reply, turns the lasers off and sets the port PARKED. -/
  | portPark (path : Path) (pk : Packet)
  /-- PORT_UNPARK (R346): Makes a parked port train again. -/
  | portUnpark (path : Path) (pk : Packet)
  /-- PART_CREATE (R506): Creates a partition with its slices, budgets, save area and empty page table, and sets it IDLE. -/
  | partCreate (path : Path) (pk : Packet) (frames : List Nat) (saveBase : Nat)
  /-- PART_DESTROY (R508): Ends the job, unbinds everything, zeroes and unmaps the partition, and sets the entry FREE. -/
  | partDestroy (path : Path) (pk : Packet)
  /-- PART_SET_SLICES (R507): Changes the partition's slice mask and resizes its save area. -/
  | partSetSlices (path : Path) (pk : Packet) (frames : List Nat) (saveBase : Nat)
  /-- PART_SET_PORTS (R507): Changes the partition's PORT_GRANT. -/
  | partSetPorts (path : Path) (pk : Packet)
  /-- PART_SET_BUDGETS (R507): Changes the partition's tier-1 and tier-2 page budgets. -/
  | partSetBudgets (path : Path) (pk : Packet)
  /-- PART_SET_REGULATOR (R516): Sets one regulator word of the partition, checking the fixed-share sum. -/
  | partSetRegulator (path : Path) (pk : Packet)
  /-- PART_SET_ARB (R507): Sets the partition's ARB_CLASS and FIX_LAT_NS. -/
  | partSetArb (path : Path) (pk : Packet)
  /-- PART_SET_DBG (R523): Sets DBG_PERM, up to DBG_MAX, from the partition's own ring or the control path. -/
  | partSetDbg (path : Path) (pk : Packet)
  /-- PART_SET_DBG_MAX (R507): Sets DBG_MAX and lowers DBG_PERM with it when needed. -/
  | partSetDbgMax (path : Path) (pk : Packet)
  /-- COMMON_BERTH_REGISTER (R518): Registers twin-backed partition-0 tier-1 pages as a common berth. -/
  | commonBerthRegister (path : Path) (pk : Packet)
  /-- COMMON_BERTH_RETIRE (R518): Retires a common berth and, with UNMAP, unmaps and frees it. -/
  | commonBerthRetire (path : Path) (pk : Packet)
  /-- JOB_START (R509): Starts a job in an IDLE partition and sets it RUNNING. -/
  | jobStart (path : Path) (pk : Packet)
  /-- JOB_RESUME (R509): Restores an evicted job onto its home slices and releases its held commands. -/
  | jobResume (path : Path) (pk : Packet) (ue : List Nat)
  /-- JOB_EVICT (R510): Saves and zeroes a running job's on-chip state and sets the partition EVICTED. -/
  | jobEvict (path : Path) (pk : Packet)
  /-- JOB_EVICT_DISCARD (R510): Ends a running job without saving its state and leaves the partition IDLE. -/
  | jobEvictDiscard (path : Path) (pk : Packet)
  /-- ABORT_COMMAND (R555): Aborts a target command, the outcome decided by the order of the ABORT against that command's commit. -/
  | abortCommand (path : Path) (pk : Packet)
  /-- ABORT_JOB (R557): Stops every command of a partition and ends its job, leaving the partition IDLE. -/
  | abortJob (path : Path) (pk : Packet)
  /-- COPY (R126): Host COPY run by a hub-die DMA engine, with the device end checked up front and element faults poisoned. -/
  | copy (path : Path) (pk : Packet) (ue : List Nat)
  /-- GATHER (R126): Host GATHER of up to 16 elements through an address table. -/
  | gather (path : Path) (pk : Packet) (ue : List Nat)
  /-- SCATTER (R126): Host SCATTER of up to 16 elements through an address table. -/
  | scatter (path : Path) (pk : Packet) (ue : List Nat)
  /-- MEM_MAP (R222): Maps FRESH frames, or shared or twin-backed pages, into a partition. -/
  | memMap (path : Path) (pk : Packet) (frames : List Nat)
  /-- MEM_UNMAP (R222): Unmaps pages, invalidates cached translations and queues the frames for zeroing. -/
  | memUnmap (path : Path) (pk : Packet)
  /-- MEM_APERTURE (R223): Binds or unbinds the partition's BAR2 aperture. -/
  | memAperture (path : Path) (pk : Packet)
  /-- LOAD_IMAGE (R158): Translates or takes from the cache an Aethol image and loads the target cores. -/
  | loadImage (path : Path) (pk : Packet) (host : Option (List Byte)) (ue : List Nat) (imFail : List (Nat × Nat))
  /-- RUN (R161): Starts the named cores at ENTRY, with STOP_AFTER, TRUNCATE and TIMEOUT_US. -/
  | run (path : Path) (pk : Packet)
  /-- RUN_RESUME (R161): Continues HALTED cores without resetting their state. -/
  | runResume (path : Path) (pk : Packet)
  /-- STAGE_BIND (R363): Reads a stage record and binds an active or spare stage. -/
  | stageBind (path : Path) (pk : Packet) (host : Option (List Byte)) (ue : List Nat)
  /-- STAGE_UNBIND (R363): Frees a stage slot and its slices. -/
  | stageUnbind (path : Path) (pk : Packet)
  /-- SCHEDULE_GENERATE (R382): Generates the schedule table of a kind for the stage and computes U_MAX. -/
  | scheduleGenerate (path : Path) (pk : Packet)
  /-- SCHEDULE_LOAD (R383): Reads and checks a schedule table supplied by software. -/
  | scheduleLoad (path : Path) (pk : Packet) (host : Option (List Byte)) (ue : List Nat)
  /-- BERTH_PUBLISH (R386): Publishes a berth version, mirrors it to the buddy and makes it READY or CURRENT. -/
  | berthPublish (path : Path) (pk : Packet) (ue : List Nat)
  /-- MAKE_CURRENT (R386): Makes a READY berth CURRENT and supersedes the old one. -/
  | makeCurrent (path : Path) (pk : Packet)
  /-- BERTH_RETIRE (R386): Retires a READY berth. -/
  | berthRetire (path : Path) (pk : Packet)
  /-- STEP_RUN (R394): Starts the stage's cores and issues work notices through the schedule table. -/
  | stepRun (path : Path) (pk : Packet)
  /-- STEP_PLAN_LOAD (R442): Reads and checks a step plan and a service record. -/
  | stepPlanLoad (path : Path) (pk : Packet) (ue : List Nat)
  /-- STEP_PLAN_START (R444): Starts running the plan for the given steps. -/
  | stepPlanStart (path : Path) (pk : Packet)
  /-- STEP_PLAN_STOP (R442): Stops the plan once the running step ends. -/
  | stepPlanStop (path : Path) (pk : Packet)
  /-- ALLREDUCE (R421): Full all-reduce of a tensor over a group under EXACT or ORDERED. -/
  | allreduce (path : Path) (pk : Packet) (ue : List Nat)
  /-- REDUCE_SCATTER (R421): Reduces each unit at its owning rank and writes the owned elements. -/
  | reduceScatter (path : Path) (pk : Packet) (ue : List Nat)
  /-- ALLGATHER (R421): Distributes each rank's owned elements and scales to every member. -/
  | allgather (path : Path) (pk : Packet) (ue : List Nat)
  /-- ALLTOALL_DISPATCH (R429): Sends token rows to the expert ranks and places them by expert and rank. -/
  | alltoallDispatch (path : Path) (pk : Packet) (ue : List Nat)
  /-- ALLTOALL_COMBINE (R430): Returns the rows along the reverse path of a dispatch. -/
  | alltoallCombine (path : Path) (pk : Packet) (ue : List Nat)
  /-- PERMUTE_RESHARD (R433): Moves each member's region to pi(M) in place, chunk by chunk. -/
  | permuteReshard (path : Path) (pk : Packet) (ue : List Nat)
  /-- GROUP_BIND (R410): Binds a group record in a slot and starts HELLO with the ring neighbours. -/
  | groupBind (path : Path) (pk : Packet) (host : Option (List Byte)) (ue : List Nat)
  /-- GROUP_UNBIND (R410): Frees a group slot. -/
  | groupUnbind (path : Path) (pk : Packet)
  /-- GROUP_STANDBY (R435): Binds a group record for a standby package that may rejoin later. -/
  | groupStandby (path : Path) (pk : Packet) (host : Option (List Byte)) (ue : List Nat)
  /-- CKPT_BUDDY_WRITE (R460): Checkpoints the stage's shards into its buddy region commit group by commit group. -/
  | ckptBuddyWrite (path : Path) (pk : Packet) (ue : List Nat)
  /-- CKPT_BUDDY_ACCEPT (R457): Registers an extent that a source package may write by CKPT packets. -/
  | ckptBuddyAccept (path : Path) (pk : Packet)
  /-- CKPT_BUDDY_REVOKE (R460): Frees an accept slot. -/
  | ckptBuddyRevoke (path : Path) (pk : Packet)
  /-- CKPT_DRAIN (R467): Drains the buddy checkpoint to host extents as a manifest image. -/
  | ckptDrain (path : Path) (pk : Packet) (host : Option (List Byte))
  /-- EXPORT_SHARDS (R469): Writes an image of the listed live shards. -/
  | exportShards (path : Path) (pk : Packet) (host : Option (List Byte)) (ue : List Nat)
  /-- RESTORE (R471): Restores a stage's shards from a manifest image, checking the digests. -/
  | restore (path : Path) (pk : Packet) (host : Option (List Byte)) (ue : List Nat)
  /-- AST_ADMIT (R479): Takes a FREE AST entry and a KV list and sets the entry PENDING. -/
  | astAdmit (path : Path) (pk : Packet)
  /-- AST_RETIRE (R480): Ends a sequence at once or at the running step's boundary. -/
  | astRetire (path : Path) (pk : Packet)
  /-- DEADLINE_SET (R491): Sets a deadline, committed when a predicted finish meets it. -/
  | deadlineSet (path : Path) (pk : Packet)
  /-- FALLBACK_BIND (R489): Binds or unbinds a fallback model with the same KV geometry. -/
  | fallbackBind (path : Path) (pk : Packet)
  /-- MODEL_BIND (R475): Binds a serving model and starts its cores. -/
  | modelBind (path : Path) (pk : Packet) (host : Option (List Byte)) (ue : List Nat)
  /-- MODEL_UNBIND (R475): Ends the model's sequences, halts its cores and frees the slot. -/
  | modelUnbind (path : Path) (pk : Packet)
  /-- QUAY_LOAD (R257): Checks an update program and loads it into a program slot of every engine. -/
  | quayLoad (path : Path) (pk : Packet) (host : Option (List Byte)) (ue : List Nat)
  /-- QUAY_RUN (R259): Accepts an update run over streams and queues it on its tier. -/
  | quayRun (path : Path) (pk : Packet) (ue : List Nat)
  /-- QUAY_ACC_OPEN (R269): Opens an accumulate-at-memory window, with optional clear. -/
  | quayAccOpen (path : Path) (pk : Packet)
  /-- QUAY_ACC_CLOSE (R273): Closes a window at a single instant. -/
  | quayAccClose (path : Path) (pk : Packet)
  /-- LOOPBACK_MEM (R654): Runs PHY_NEAR or FAR loop-back on a memory unit with its tier in TEST. -/
  | loopbackMem (path : Path) (pk : Packet)
  /-- LOOPBACK_PORT (R655): Runs NEAR or FIBRE PRBS31 loop-back on a canal port. -/
  | loopbackPort (path : Path) (pk : Packet)
  /-- TRAFFIC_GEN_ENTER (R653): Places every unit of a tier in TEST. -/
  | trafficGenEnter (path : Path) (pk : Packet)
  /-- TRAFFIC_GEN_EXIT (R653): Stops the tests and brings the tier back to service through training and zeroing. -/
  | trafficGenExit (path : Path) (pk : Packet) (bad : List Nat)
  -- Aethol instructions
  /-- ADD (R142): Scalar add with immediate. -/
  | add (core : Nat)
  /-- SUB (R142): Scalar subtract with immediate. -/
  | sub (core : Nat)
  /-- MUL (R142): Scalar multiply, low 64 bits. -/
  | mul (core : Nat)
  /-- AND (R142): Scalar bitwise AND. -/
  | andd (core : Nat)
  /-- OR (R142): Scalar bitwise OR. -/
  | orr (core : Nat)
  /-- XOR (R142): Scalar bitwise XOR. -/
  | xor (core : Nat)
  /-- SHL (R142): Scalar shift left. -/
  | shl (core : Nat)
  /-- SHR (R142): Scalar logical shift right. -/
  | shr (core : Nat)
  /-- SAR (R142): Scalar arithmetic shift right. -/
  | sar (core : Nat)
  /-- LI (R142): Loads a sign-extended immediate. -/
  | li (core : Nat)
  /-- LIH (R142): Replaces a 24-bit field of a register with the immediate. -/
  | lih (core : Nat)
  /-- SLT (R142): Signed set-less-than. -/
  | slt (core : Nat)
  /-- SLTU (R142): Unsigned set-less-than. -/
  | sltu (core : Nat)
  /-- FADD (R142): Scalar FP32 add under R37. -/
  | fadd (core : Nat)
  /-- FMUL (R142): Scalar FP32 multiply under R37. -/
  | fmul (core : Nat)
  /-- FFMA (R142): Scalar FP32 fused multiply-add under R37. -/
  | ffma (core : Nat)
  /-- LDS (R144): Loads a 64-bit pool word, waiting as a reader of its region. -/
  | lds (core : Nat) (ce : Nat) (ue : List Nat)
  /-- STS (R144): Stores a 64-bit pool word, waiting as a writer of its region. -/
  | sts (core : Nat)
  /-- STAT (R139): Reads a word of the core status page. -/
  | stat (core : Nat)
  /-- BR (R142): Conditional relative branch. -/
  | br (core : Nat)
  /-- FENCE (R142): Waits until every earlier push has completed. -/
  | fence (core : Nat)
  /-- WAITR (R142): Waits until a region has no outstanding writer. -/
  | waitr (core : Nat)
  /-- END (R142): Stops pushing; the core becomes IDLE when every push has completed. -/
  | endProgram (core : Nat)
  /-- MMA (R74): Forms one native block and commits it to an accumulator tile, draining it when FINAL is set. -/
  | mma (core : Nat) (now : Option Seen)
  /-- DRAIN (R39): Rounds an accumulator tile once to the output format and writes it. -/
  | drain (core : Nat) (now : Option Seen)
  /-- ACC_LOAD (R75): Loads an exported 16 x 16 tile into an accumulator tile. -/
  | accLoad (core : Nat) (now : Option Seen)
  /-- ACC_CLEAR (R75): Sets a tile's type to NONE. -/
  | accClear (core : Nat) (now : Option Seen)
  /-- VEW (R145): Vector elementwise operation over the destination descriptor. -/
  | vew (core : Nat) (now : Option Seen)
  /-- VRED (R113): Vector reduction along DIM0 in TREE32, SEQ58, MAX or MIN. -/
  | vred (core : Nat) (now : Option Seen)
  /-- VCVT (R114): Narrow or compressing conversion with row scales and statistics. -/
  | vcvt (core : Nat) (now : Option Seen)
  /-- REGION_CLEAR (R103): Clears a region's poison mark. -/
  | regionClear (core : Nat) (now : Option Seen)
  /-- LC_REBUILD (R53): Rebuilds the idle bank of a lock chamber and flips when asked. -/
  | lcRebuild (core : Nat) (now : Option Seen)
  /-- LC_FLIP (R53): Requests a flip of a lock chamber. -/
  | lcFlip (core : Nat) (now : Option Seen)
  /-- DX_COPY (R117): DMA copy between partition addresses, poisoning faulting source lines. -/
  | dxCopy (core : Nat) (now : Option Seen)
  /-- DX_GATHER (R121): DMA gather of up to 16 indexed rows per push. -/
  | dxGather (core : Nat) (now : Option Seen)
  /-- DX_SCATTER (R123): DMA scatter of up to 16 indexed rows per push. -/
  | dxScatter (core : Nat) (now : Option Seen)
  /-- STREAM_OPEN (R118): Opens a core or reach stream over a ring of slots. -/
  | streamOpen (core : Nat) (now : Option Seen)
  /-- STREAM_CLOSE (R120): Waits for every filled chunk to be released and frees the stream. -/
  | streamClose (core : Nat) (now : Option Seen)
  /-- CHUNK (R146): Prefix that makes the next instruction read an operand from a stream chunk. -/
  | chunk (core : Nat)
  /-- SEND (R193): Sends a message to an inbound queue, or a request to the pipe or serving controller. -/
  | send (core : Nat) (now : Option Seen)
  /-- JSEND (R205): Contributes a tensor to a junction queue. -/
  | jsend (core : Nat) (now : Option Seen)
  /-- RECV (R197): Receives the next message of an inbound queue set into a destination. -/
  | recv (core : Nat) (now : Option Seen)
  /-- SET_DESC (R105): Rewrites a descriptor slot from the pool, checked under R108. -/
  | setDesc (core : Nat) (ce : Nat) (ue : List Nat)
  /-- SET_BASE (R142): Sets the BASE of a descriptor slot. -/
  | setBase (core : Nat)
  /-- SET_DIM (R142): Sets one dimension of a descriptor slot. -/
  | setDim (core : Nat)
  -- core, array and junction events
  /-- COMMAND_BEGIN (R102): An engine begins a pushed command once the scoreboard conditions hold. -/
  | commandBegin (core : Nat) (engine : Engine) (seen : Seen)
  /-- ARRAY_RESUME (R77): A frozen array completes its stalled handshake once every freeze cause has cleared. -/
  | arrayResume (core : Nat)
  /-- ARRAY_FREEZE_LONG (R78): An array frozen continuously for 1 ms writes one logbook record. -/
  | arrayFreezeLong (core : Nat)
  /-- ARRAY_SENTINEL (R87): More than 16 sentinel stretches in 2^20 beats write a record, and firmware raises the trim. -/
  | arraySentinel (core : Nat)
  /-- CORE_MOVE (R133): Moves a failing or slow core's work to the reach spare and retires the old core. -/
  | coreMove (core : Nat) (slow : Bool) (shadowOk : Bool)
  /-- IM_BLOCK_RELOAD (R94): Reloads a 4 KiB instruction-memory block after a fetch parity error, then resumes. -/
  | imBlockReload (core : Nat)
  /-- LC_REBUILD_WRITE (R53): A waiting rebuild writes its entries once no command holds the idle bank. -/
  | lcRebuildWrite (core : Nat) (seen : Seen)
  /-- LC_CONSUMER_RESUME (R55): A consumer stalled on an invalid active bank latches the bank that the next flip makes active. -/
  | lcConsumerResume (core : Nat) (seen : Seen)
  /-- STREAM_FILL (R119): A stream fills the next chunk once the chunk SLOTS before it has been released. -/
  | streamFill (core : Nat) (n : Nat) (ue : List Nat)
  /-- MESSAGE_ARRIVE (R195): An inbound queue accepts or refuses an arriving message. -/
  | messageArrive (src : Option Nat) (core : Nat) (q : Nat)
  /-- SPACE_NOTICE (R195): A space notice makes a holding QX retry its message. -/
  | spaceNotice (core : Nat)
  /-- QX_RETRY_TIMER (R195): A holding QX retries its message after 1 us. -/
  | qxRetryTimer (core : Nat)
  /-- HANDLER_DISPATCH (R201): In handler-dispatch mode, the oldest message starts its handler once the previous one has ended. -/
  | handlerDispatch (core : Nat) (handler : Option Nat)
  /-- JUNCTION_ARM (R204): A write of ARM checks the junction descriptor and opens the junction. -/
  | junctionArm (reach : Nat) (jq : Nat)
  /-- JUNCTION_CONTRIBUTION (R207): A junction adds or stages an arriving contribution. -/
  | junctionContribution (src : Nat) (reach : Nat) (jq : Nat)
  -- fabric events
  /-- NETWORK_PACKET_RECEIVE (R175): A destination endpoint checks PART and serves or refuses a network packet. -/
  | networkPacketReceive (head : List Nat) (payload : List Byte) (len : Nat) (src : Nat) (ue : List Nat)
  /-- ARBITER_GRANT (R187): On the release of a grant, the arbiter hands the next grant by class and rotation. -/
  | arbiterGrant (row : Nat) (unit : Nat) (index : Nat) (raised : List GrantReq)
  /-- LENGTHSMAN (R191): A grant held past its limit is forced off and its requester reset. -/
  | lengthsman (row : Nat) (unit : Nat) (index : Nat) (holder : GrantHolder)
  /-- PLI_CAP_RECORD (R180): A partner's PLI capability record sets the pair's level and features. -/
  | pliCapRecord (pair : Nat) (mod : Nat) (words : List Nat)
  /-- PLI_CAP_TIMEOUT (R180): A module whose partner record has not arrived within 1 ms is disabled. -/
  | pliCapTimeout (pair : Nat) (mod : Nat)
  /-- MODULE_FAIL (R184): A failed die-to-die module is restriped around, or its pair goes DOWN. -/
  | moduleFail (pair : Nat) (mod : Nat)
  -- memory events
  /-- MEMORY_READ (R233): A controller reads a line, correcting it, poisoning it or reporting it uncorrectable. -/
  | memoryRead (part : Nat) (line : Nat) (errs : List (Nat × Nat) := []) (evictUe : Bool := false)
  /-- MEMORY_WRITE (R234): A controller writes a line, setting or clearing its poison mark. -/
  | memoryWrite (part : Nat) (addr : Nat) (data : List Byte) (poison : Bool := false) (evictUe : Bool := false)
  /-- FRESH_WRITE (R226): A write to a FRESH page is held while the frame is zeroed first. -/
  | freshWrite (part : Nat) (va : Nat) (data : List Byte) (poison : Bool)
  /-- FRESH_WRITE_RELEASE (R226): Once the frame is zero and FRESH is cleared, the held writes are released in order. -/
  | freshWriteRelease (part : Nat) (va : Nat)
  /-- ZERO_FRAME (R225): Background zeroing makes a queued frame free-and-zero. -/
  | zeroFrame
  /-- TWIN_RESTORE (R230): Restores a granule from its tier-2 twin after an uncorrectable read. -/
  | twinRestore (gran : Nat) (twinUe : Bool) (backUe : Bool) (us : Nat)
  /-- PATROL_SCRUB (R235): Scrubs lines on a 24 h period and repairs rows with repeated errors. -/
  | patrolScrub (line : Nat) (errs : List (Nat × Nat)) (row : Bool) (lane : Bool) (bad : Bool := false)
  /-- REFRESH_TEMP_POLL (R236): Reads the device temperature every 1 ms and sets the refresh multiplier. -/
  | refreshTempPoll (unit : Nat) (temp : Nat)
  /-- MEM_UNIT_LOST (R240): A lost stack or controller is relocated onto the survivors. -/
  | memUnitLost (unit : Nat) (cause : Nat) (moves : List (Nat × Nat))
  /-- HOST_BAR2_ACCESS (R223): A host read or write through a BAR2 aperture is translated and completed. -/
  | hostBar2Access (port : Nat) (addr : Nat) (len : Nat) (write : Bool) (data : List Byte) (ue : List Nat)
  /-- MEM_LB_START (R241): START of MEM_LB_CTRL clears the results and starts PRBS31 loop-back. -/
  | memLbStart (m : Master) (unit : Nat) (value : Nat)
  /-- MEM_LB_STOP (R241): STOP of MEM_LB_CTRL ends the loop-back run. -/
  | memLbStop (m : Master) (unit : Nat) (value : Nat) (status : Nat) (errs : Nat)
  /-- MEM_LB_DURATION_END (R241): A loop-back run ends when DURATION_US expires. -/
  | memLbDurationEnd (unit : Nat) (status : Nat) (errs : Nat) (mbits : Nat) (repaired : Bool)
  /-- TG_START (R243): START of TG_CTRL clears the results and starts the traffic generator. -/
  | tgStart (m : Master) (unit : Nat) (value : Nat)
  /-- TG_STOP (R243): STOP of TG_CTRL ends the run after the current request. -/
  | tgStop (m : Master) (unit : Nat) (value : Nat)
  /-- TG_DONE (R243): The generator completes its passes and sets DONE and ERR. -/
  | tgDone (unit : Nat) (lines : Nat) (flips : List (Nat × Nat))
  /-- TG_ERR_COUNT_READ (R242): A read of TG_ERR_COUNT returns the count and clears it. -/
  | tgErrCountRead (m : Master) (unit : Nat)
  -- quay engines
  /-- QUAY_RUN_START (R264): A queued run begins once every earlier run of its tier has completed. -/
  | quayRunStart (tier : Nat)
  /-- QUAY_WORK_UNIT (R262): An engine runs the program over one work unit, reading every input before writing. -/
  | quayWorkUnit (engine : Nat) (ue : List Nat) (retries : Nat) (dead : Option Nat)
  /-- LD (R250): Loads a stream element into a register. -/
  | quayLd (engine : Nat) (ue : List Nat)
  /-- ST (R253): Converts a register and stores it to an output stream. -/
  | quaySt (engine : Nat) (ue : List Nat)
  /-- LDP (R250): Loads a parameter into every lane. -/
  | quayLdp (engine : Nat) (ue : List Nat)
  /-- LDI (R250): Loads an FP32 immediate into every lane. -/
  | quayLdi (engine : Nat) (ue : List Nat)
  /-- RNDU (R255): Produces a uniform random FP32 value per lane. -/
  | quayRndu (engine : Nat) (ue : List Nat) (retries : Nat := 0) (dead : Bool := false)
  /-- QUAY_ADD (R250): Lane-wise add. -/
  | quayAdd (engine : Nat) (ue : List Nat) (retries : Nat := 0) (dead : Bool := false)
  /-- QUAY_SUB (R250): Lane-wise subtract. -/
  | quaySub (engine : Nat) (ue : List Nat) (retries : Nat := 0) (dead : Bool := false)
  /-- QUAY_MUL (R250): Lane-wise multiply. -/
  | quayMul (engine : Nat) (ue : List Nat) (retries : Nat := 0) (dead : Bool := false)
  /-- QUAY_FMA (R250): Lane-wise fused multiply-add. -/
  | quayFma (engine : Nat) (ue : List Nat) (retries : Nat := 0) (dead : Bool := false)
  /-- QUAY_MIN (R250): Lane-wise minimum. -/
  | quayMin (engine : Nat) (ue : List Nat) (retries : Nat := 0) (dead : Bool := false)
  /-- QUAY_MAX (R250): Lane-wise maximum. -/
  | quayMax (engine : Nat) (ue : List Nat) (retries : Nat := 0) (dead : Bool := false)
  /-- ABS (R250): Lane-wise absolute value. -/
  | quayAbs (engine : Nat) (ue : List Nat) (retries : Nat := 0) (dead : Bool := false)
  /-- NEG (R250): Lane-wise negation. -/
  | quayNeg (engine : Nat) (ue : List Nat) (retries : Nat := 0) (dead : Bool := false)
  /-- QUAY_CMPLT (R250): Lane-wise compare less-than. -/
  | quayCmplt (engine : Nat) (ue : List Nat) (retries : Nat := 0) (dead : Bool := false)
  /-- SEL (R250): Lane-wise select. -/
  | quaySel (engine : Nat) (ue : List Nat) (retries : Nat := 0) (dead : Bool := false)
  /-- CVT (R250): Converts lanes between FP32 and W58. -/
  | quayCvt (engine : Nat) (ue : List Nat) (retries : Nat := 0) (dead : Bool := false)
  /-- SQRT (R250): Correctly rounded lane-wise square root. -/
  | quaySqrt (engine : Nat) (ue : List Nat) (retries : Nat := 0) (dead : Bool := false)
  /-- RCP (R250): Correctly rounded lane-wise reciprocal. -/
  | quayRcp (engine : Nat) (ue : List Nat) (retries : Nat := 0) (dead : Bool := false)
  /-- BRED (R251): Block reduction into every lane. -/
  | quayBred (engine : Nat) (ue : List Nat) (retries : Nat := 0) (dead : Bool := false)
  /-- SCALE (R252): Sets the block scale from the block's amax. -/
  | quayScale (engine : Nat) (ue : List Nat) (retries : Nat := 0) (dead : Bool := false)
  /-- QUAY_END (R250): Ends the update program. -/
  | quayEnd (engine : Nat) (ue : List Nat)
  /-- WINDOW_CONTRIBUTION (R270): A write to a window's view is added into the accumulator at memory. -/
  | windowContribution (part : Nat) (va : Nat) (data : List Byte) (poison : Bool) (ue : List Nat)
  -- canal links and time
  /-- FLIT_RECEIVE (R307): A receiver takes a flit after FEC, or discards it on a bad CHK or codeword. -/
  | flitReceive (port : Nat) (flit : List Byte) (ue : Nat) (corrected : Nat)
  /-- FLIT_SEND (R331): At each flit boundary the sender chooses a control, towpath, data or IDLE flit. -/
  | flitSend (port : Nat)
  /-- CANAL_PACKET (R318): A receiver accepts an in-order canal packet, delivering it or forwarding it as transit. -/
  | canalPacket (port : Nat) (bytes : List Byte)
  /-- CONTROL_FLIT (R316): A control flit delivers acknowledgements, NACKs and credits. -/
  | controlFlit (port : Nat) (body : List Byte)
  /-- CONTROL_FLIT_DUE (R316): A control flit becomes due on a state change, or after 1 us at the latest. -/
  | controlFlitDue (port : Nat)
  /-- NACK_REPEAT (R318): A NACK is repeated when EXP_LSEQ has not arrived within two round trips. -/
  | nackRepeat (port : Nat)
  /-- CODEWORD_LIMIT (R320): More than UE_LIMIT uncorrectable codewords in 1 ms start a retrain. -/
  | codewordLimit (port : Nat)
  /-- RETRAIN_START (R321): A retrain moves waiting towpath messages, then sends the training pattern. -/
  | retrainStart (port : Nat) (cause : Nat)
  /-- RETRAIN_DONE (R321): A retrain completes, and the port is UP and replays. -/
  | retrainDone (port : Nat) (rtt : Nat) (credits : List Nat) (exp : Nat) (tpExp : Nat)
  /-- RETRAIN_ATTEMPT_FAIL (R323): An attempt not done in 1.5 ms re-sends the replay buffers elsewhere and may set the port DOWN. -/
  | retrainAttemptFail (port : Nat)
  /-- OVERLOAD_ASSERT (R325): The overload detector asserts and its lane's symbols become erasures. -/
  | overloadAssert (port : Nat) (lane : Nat)
  /-- OVERLOAD_DEASSERT (R326): When every detector has cleared, the receiver sends one NACK and one TP_NACK. -/
  | overloadDeassert (port : Nat) (lane : Nat)
  /-- OVERLOAD_TIMEOUT (R327): An overload of 10 us is taken as a loss of lock and retrains the port. -/
  | overloadTimeout (port : Nat)
  /-- TOWPATH_FLIT (R328): A towpath flit is received, acknowledged or replayed. -/
  | towpathFlit (port : Nat) (body : List Byte)
  /-- TOWPATH_MESSAGE (R333): A towpath message is consumed locally, forwarded or discarded. -/
  | towpathMessage (port : Nat)
  /-- HEARTBEAT_SEND (R342): A port sends a heartbeat every 4 us. -/
  | heartbeatSend (port : Nat)
  /-- HEARTBEAT (R343): A received heartbeat opens or closes the data channels. -/
  | heartbeat (port : Nat)
  /-- HEARTBEAT_TIMEOUT (R344): Three missed heartbeats declare the partner lost. -/
  | heartbeatTimeout (port : Nat)
  /-- LIGHT_LOSS (R344): Loss of light on all lanes declares the partner lost; on some lanes it starts a retrain. -/
  | lightLoss (port : Nat) (lanes : Nat)
  /-- LIGHT_RETURN (R345): Returning light makes the port train again. -/
  | lightReturn (port : Nat) (lanes : Nat)
  /-- PARK (R346): A received PARK is answered with PARK and sets the port PARKED. -/
  | park (port : Nat)
  /-- PARK_TIMEOUT (R346): After 10 us without a reply, a parking port turns its lasers off. -/
  | parkTimeout (port : Nat)
  /-- SLEEP_IDLE_TIMER (R347): After SLEEP_IDLE of quiet, the port sends SLEEP REQ. -/
  | sleepIdleTimer (port : Nat)
  /-- SLEEP (R347): A SLEEP message is answered or acted on, and the port enters sleep. -/
  | sleep (port : Nat) (code : Nat)
  /-- WAKE_BURST (R348): Queued traffic or a partner's burst starts a fast wake or a retrain. -/
  | wakeBurst (port : Nat) (heard : Bool)
  /-- TIME_SYNC_TIMER (R351): A child starts a time exchange with its parent every 125 us. -/
  | timeSyncTimer
  /-- TIME_SYNC (R353): A TIME_SYNC reply steers the child's time. -/
  | timeSync (port : Nat) (reply : Bool) (t1 : Int) (t2 : Int) (t3 : Int) (t4 : Int) (depth : Nat) (bound : Nat) (rate : Int)
  -- pipeline events
  /-- PEER_NOTICE (R434): A member learns of a lost rank from a PEER_NOTICE. -/
  | peerNotice
  /-- BARGE_DESC (R372): An arriving barge descriptor is judged and slotted, and the barge accepted when complete. -/
  | bargeDesc
  /-- BARGE_PACKET (R373): A BARGE canal packet is written into its slot, completing the barge when it is the last. -/
  | bargePacket
  /-- ACCEPT (R393): A sender records acceptance of a barge, or frees it when COMMITTED is set. -/
  | accept
  /-- COMMIT (R391): A sender frees the retained barges that a COMMIT names. -/
  | commit
  /-- PIPE_CREDIT (R376): A sender updates RELEASED and may resend payloads. -/
  | pipeCredit (ue : List Nat)
  /-- PIPE_LOST (R398): A LOST at the spare package claims a spare stage and starts the takeover. -/
  | pipeLost
  /-- TAKEOVER (R372): A neighbour adopts the new epoch, empties old slots and answers RESEND_FROM. -/
  | takeover (ue : List Nat)
  /-- RESEND_FROM (R398): The spare sets its counters from a neighbour's retained range. -/
  | resendFrom
  /-- MARK_ACK (R388): The buddy's acknowledgement completes a gradient mark. -/
  | markAck
  /-- BARGE_PROBE (R375): A descriptor without ACCEPT for 1 ms is sent again. -/
  | bargeProbe (slot : Nat)
  /-- WORK_NOTICE (R377): The pipe controller sends a work notice once the next entry is ready. -/
  | workNotice (slot : Nat)
  /-- PIPE_SEAL (R379): A SEAL request fills and seals an outbound barge and sends it. -/
  | pipeSeal (ue : List Nat)
  /-- PIPE_DONE (R380): A DONE request marks an entry done and releases its inbound slot. -/
  | pipeDone
  /-- MARK (R388): A MARK entry copies the mark image to the buddy once earlier entries are done. -/
  | mark (slot : Nat) (ue : List Nat)
  /-- MICROBATCH_COMMIT (R392): A micro-batch commits once its barges are accepted, its entries done and a mark acknowledged. -/
  | microbatchCommit (slot : Nat)
  /-- STEP_RUN_TIMEOUT (R395): When TIMEOUT_US expires, the stage's cores halt and notices stop. -/
  | stepRunTimeout (slot : Nat)
  /-- STEP_TIME (R453): The collector accepts or discards a stage's BUSY_US. -/
  | stepTime
  /-- LAG_CLOSE (R453): 10 ms after the first value, the collector closes a set's step and sends verdicts. -/
  | lagClose (set : Nat)
  /-- LAG_VERDICT (R454): A stage updates LAG_RUN and may write a LAGGARD record. -/
  | lagVerdict
  /-- STEP_RECORD_TIMEOUT (R451): 20 ms after a step ends, the stage writes its step record without a verdict. -/
  | stepRecordTimeout (slot : Nat)
  /-- PLAN_ENTRY_ISSUE (R444): Firmware issues the plan's next entry once the previous one has completed. -/
  | planEntryIssue (slot : Nat)
  -- collectives
  /-- COLL_PACKET (R416): A collective data packet is received, or discarded when stale or duplicate. -/
  | collPacket (ue : List Nat)
  /-- RMEM_WRITE (R418): A target accepts a remote write into group scratch. -/
  | rmemWrite (ue : List Nat)
  /-- RMEM_READ (R418): A target serves a remote read from scratch or a buddy region. -/
  | rmemRead (ue : List Nat)
  /-- RMEM_DATA (R418): Remote read data arrives at the collective engine. -/
  | rmemData (ue : List Nat)
  /-- RMEM_ACK (R433): An acknowledgement of a remote write arrives. -/
  | rmemAck (ue : List Nat)
  /-- HELLO (R412): A HELLO makes the group READY or MISMATCHED. -/
  | hello (ue : List Nat)
  /-- HELLO_REPEAT (R412): HELLO is repeated every 100 us until answered. -/
  | helloRepeat (slot : Nat)
  /-- COLL_START (R414): A neighbour's START is compared against the collective's parameter digest. -/
  | collStart
  /-- COLL_CREDIT (R417): A collective credit raises the sender's limit on a stream. -/
  | collCredit (ue : List Nat)
  /-- COLL_FAIL (R414): A FAIL completes the collective with refusal or abort. -/
  | collFail (ue : List Nat)
  /-- COLL_LOST (R434): A LOST makes the member hold the group's collectives. -/
  | collLost
  /-- REJOIN (R436): A survivor replaces the rank's entry and resends its streams. -/
  | rejoin (ue : List Nat)
  /-- COLL_STATE (R435): A standby sets its counter from the survivors' STATE. -/
  | collState
  /-- REJOIN_WAIT_EXPIRE (R434): Without a REJOIN within REJOIN_WAIT_US, held collectives complete PEER_LOST. -/
  | rejoinWaitExpire (slot : Nat)
  -- checkpoints
  /-- CKPT_DATA (R457): A buddy stores a checkpoint DATA packet in an accepted extent. -/
  | ckptData (srcPart : Nat) (mark : Option (Nat × Nat × Nat))
  /-- CKPT_DIR (R460): A buddy applies directory entries as one write. -/
  | ckptDir (srcPart : Nat)
  /-- CKPT_ACK (R460): A source records a stored DATA or DIR packet. -/
  | ckptAck (ue : List Nat)
  /-- CKPT_READ (R456): A buddy answers a read with READ_DATA. -/
  | ckptRead (srcPart : Nat) (ue : List Nat)
  /-- CKPT_READ_DATA (R456): Read bytes arrive at the requester. -/
  | ckptReadData (ue : List Nat)
  -- serving
  /-- SERV_DONE (R484): A SEND to 0x7FD reports a serving step done. -/
  | servDone
  /-- SERV_BOUNDARY (R481): At a boundary, the controller applies outputs, admits, checks deadlines and sends the work list. -/
  | servBoundary (slot : Nat) (ue : List Nat)
  /-- SERV_QUOTA_WRITE (R478): A quota write is applied, or ignored when it would break the limits. -/
  | servQuotaWrite (m : Master) (part : Nat) (value : Nat)
  -- regulators and meters
  /-- REGULATOR_REFILL (R515): Every 1 us each ordinary bucket adds RATE x 64 bytes up to its ceiling. -/
  | regulatorRefill
  /-- FIXED_SHARE_RELEASE (R516): A fixed-share bucket releases a request at constant spacing. -/
  | fixedShareRelease (part : Nat) (res : Nat) (bytes : Nat) (read : Bool) (latNs : Nat)
  /-- METER_SNAPSHOT (R521): Each minute the meters are copied to the snapshot. -/
  | meterSnapshot
  -- command paths
  /-- RING_ENABLE (R531): A write of ENABLE 1 checks a ring's configuration and puts it in service. -/
  | ringEnable (m : Master) (ring : Nat) (value : Nat)
  /-- RING_DISABLE (R531): A write of ENABLE 0 stops fetching and drains the ring. -/
  | ringDisable (m : Master) (ring : Nat) (value : Nat)
  /-- RING_SQ_TAIL (R532): An SQ doorbell announces new entries. -/
  | ringSqTail (m : Master) (ring : Nat) (value : Nat)
  /-- RING_CQ_HEAD (R533): A CQ doorbell frees completion entries. -/
  | ringCqHead (m : Master) (ring : Nat) (value : Nat) (ok : Bool)
  /-- RING_FETCH (R541): The package fetches an SQ entry once CQ room allows, checking SEQ and R527. -/
  | ringFetch (ring : Nat) (host : Option (List Byte)) (ue : List Nat)
  /-- COMPLETION_POST (R533): A committed completion is posted to its path. -/
  | completionPost (path : Path) (ok : Bool)
  /-- MBOX_DOORBELL (R537): A mailbox doorbell submits the mailbox command. -/
  | mboxDoorbell (m : Master)
  /-- MBOX_EVT_ACK (R537): Releases MBOX_EVT for the next event. -/
  | mboxEvtAck (m : Master)
  /-- I3C_ACCESS (R538): A BMC register transfer over I3C or SMBus, checked by PEC. -/
  | i3cAccess (bytes : List Byte) (x : RegFacts)
  /-- TOWPATH_COMMAND (R539): A fabric manager's command is accepted or deduplicated by its SEQ window. -/
  | towpathCommand
  /-- CONTROL_SPACE_WRITE (R525): A write to a register with no row of its own takes effect or is denied. -/
  | controlSpaceWrite (m : Master) (off : Nat) (size : Nat) (value : Nat) (x : RegFacts)
  -- identity, time, ownership
  /-- PKG_ID_WRITE (R21): A lock-keeper write to PKG_ID, guarded by ID_VALID. -/
  | pkgIdWrite (m : Master) (value : Nat)
  /-- TIME_CTRL_RESYNC (R353): RESYNC returns the package to FREE and reacquires time. -/
  | timeCtrlResync (m : Master) (value : Nat)
  /-- TIME_SET_HI_WRITE (R354): A write of TIME_SET_HI loads SET as the time while ENABLE is 0. -/
  | timeSetHiWrite (m : Master) (value : Nat)
  /-- TIME_NOW_LO_READ (R354): A read of NOW_LO latches NOW_HI. -/
  | timeNowLoRead (m : Master)
  /-- OWN_CLAIM (R547): A claim enters the election or is refused against a valid lease. -/
  | ownClaim (m : Master) (value : Nat)
  /-- OWN_RELEASE (R547): The lock-keeper releases ownership. -/
  | ownRelease (m : Master)
  /-- OWN_RENEW (R548): A renewal with the owner token restarts the lease. -/
  | ownRenew (m : Master) (token : Nat)
  /-- OWN_ACCEPT (R551): The offer target accepts the hand-over with the offer nonce. -/
  | ownAccept (m : Master) (nonce : Nat)
  /-- ELECT (R552): A fabric manager's ELECT message claims, renews, releases or accepts. -/
  | elect
  /-- CLAIM_WINDOW_CLOSE (R547): 10 ms after it opened, the window closes and the winner is installed. -/
  | claimWindowClose
  /-- LEASE_EXPIRE (R549): Ownership lapses when the lease reaches zero. -/
  | leaseExpire
  /-- OFFER_TIMEOUT (R551): An unaccepted offer is withdrawn and HAND_OVER declines. -/
  | offerTimeout
  -- watchdogs and logbook
  /-- KEEPER_WATCHDOG (R577): A keeper core that misses 10 ms of strobes is restarted. -/
  | keeperWatchdog (keeper : Nat)
  /-- FW_WATCHDOG (R578): 50 ms of silence from a hub die's keepers fences the package. -/
  | fwWatchdog (hd0 : Bool) (hd1 : Bool)
  /-- ISLAND_WATCHDOG (R578): A 100 ms bite restarts the island from ROM. -/
  | islandWatchdog
  /-- LOG_FLUSH (R587): Copies ring records to an MRAM generation slot. -/
  | logFlush (fail : Bool)
  /-- LOG_SUPPRESS_END (R586): At the end of a millisecond, one LOG_SUPPRESSED record counts the records suppressed. -/
  | logSuppressEnd
  /-- CLEAR_RING (R592): Empties the logbook ring. -/
  | clearRing (m : Master) (value : Nat)
  /-- CLEAR_MRAM (R592): Invalidates every MRAM generation. -/
  | clearMram (m : Master) (value : Nat)
  /-- LOG_FLUSH_REQUEST (R587): LOG_CTRL.FLUSH requests a flush. -/
  | logFlushRequest (m : Master) (value : Nat)
  /-- LOG_WINDOW_READ (R591): A read of a view's first word latches its 32 records for that master. -/
  | logWindowRead (m : Master) (view : Nat)
  -- power, reset and NOR
  /-- DOMAIN_IDLE (R599): An AUTO domain idle for the idle time closes its sluice and powers down. -/
  | domainIdle (dom : Nat) (quiet : Bool) (drained : Bool)
  /-- SLUICE_ARRIVAL (R601): A packet at a closed sluice is buffered, refused or starts a wake. -/
  | sluiceArrival (dom : Nat) (src : Nat) (ctl : Bool) (cmd : Option Nat)
  /-- DOMAIN_WAKE_DONE (R603): A woken domain opens its sluice, releases its buffer and sends wake notices. -/
  | domainWakeDone (dom : Nat)
  /-- POWERDOWN_DRAIN_TIMEOUT (R604): A drain not done in 2 us abandons the power-down and retries later. -/
  | powerdownDrainTimeout (dom : Nat)
  /-- SLUICE_HOLD_TIMEOUT (R602): A data packet held 100 us at an explicitly sleeping domain gets a final DOMAIN_ASLEEP. -/
  | sluiceHoldTimeout (dom : Nat)
  /-- CAP_LOOP (R609): Every 1 ms, input power moves the cap limit by 5 mV. -/
  | capLoop (watts : Nat)
  /-- ACTIVITY_LOOP (R609): Every 10 us, an estimate above 105% of the cap lowers the cap limit by 10 mV. -/
  | activityLoop (watts : Nat)
  /-- THERMAL_POLL (R610): Every 10 us, sensor readings adjust the thermal limit of each die. -/
  | thermalPoll (die : Nat) (temp : Nat) (sensor : Nat)
  /-- PWR_WARN_FALL (R621): PWR_WARN_N falls: the package flushes the log and stops fetching. -/
  | pwrWarnFall
  /-- PWR_WARN_RISE (R621): PWR_WARN_N rises with the rails intact: fetching resumes. -/
  | pwrWarnRise
  /-- PMB_ALERT (R660): The island reads STATUS_WORD of each regulator and handles rail faults. -/
  | pmbAlert (status : List (Nat × Nat))
  /-- REFCLK_LOSS (R663): REFCLK stopped for 10 us fences the package. -/
  | refclkLoss
  /-- COLD_RESET (R617): Power-up runs the start-up sequence up to READY. -/
  | coldReset (boot : Boot)
  /-- WARM_RESET (R614): RESET_N turns the lasers off and runs start-up when it rises. -/
  | warmReset
  /-- PERST_ASSERT (R615): PERST_N resets one PCIe port and stops its rings. -/
  | perstAssert (port : Nat) (high : Bool) (pclk : Bool := false)
  /-- NOR_ERASE (R620): Erases a 64 KiB sector of the slot not booted. -/
  | norErase (m : Master) (value : Nat)
  /-- NOR_PROGRAM (R620): Programs 4 KiB of the slot not booted from the window. -/
  | norProgram (m : Master) (value : Nat)
  /-- COMMIT_SEC (R620): Raises the fused minimum security version. -/
  | commitSec (m : Master) (value : Nat)
  /-- TAP_RESET (R637): Resets the TAP controller to Test-Logic-Reset with IDCODE selected. -/
  | tapReset
  -- debug port and later rows
  /-- DBG_KEY (R641): A key shifted in through the TAP unlocks the block or counts a failure. -/
  | dbgKey (value : Nat)
  /-- DBG_ACCESS (R640): Update-DR launches a 32-bit access to the DBG block. -/
  | dbgAccess (op : Nat) (off : Nat) (data : Nat) (ue : List Nat)
  /-- DBG_KEY_SET (R641): A nonzero key arms the block; zero locks it. -/
  | dbgKeySet (m : Master) (value : Nat)
  /-- DBG_UNLOCK_EXPIRE (R642): LEFT_S reaching zero locks the block. -/
  | dbgUnlockExpire
  /-- HALT (R645): Halts cores at a command boundary. -/
  | halt (src : Option Master) (value : Nat)
  /-- RESUME (R646): Resumes debug-halted cores that a command still holds. -/
  | resume (src : Option Master) (value : Nat)
  /-- STEP (R647): Lets a halted core make ARG more pushes. -/
  | step (src : Option Master) (value : Nat)
  /-- DBG_STEP_DONE (R647): Once a step's pushed commands complete, the core re-enters HALTED. -/
  | dbgStepDone (core : Nat)
  /-- SET_BP (R648): Sets a PUSH or PC breakpoint. -/
  | setBp (src : Option Master) (value : Nat)
  /-- CLEAR_BP (R648): Clears a breakpoint. -/
  | clearBp (src : Option Master) (value : Nat)
  /-- DBG_MEM_READ (R650): Reads lines of partition memory through its translation. -/
  | dbgMemRead (src : Option Master) (value : Nat) (ue : List Nat)
  /-- DBG_MEM_WRITE (R650): Writes lines of partition memory through its translation. -/
  | dbgMemWrite (src : Option Master) (value : Nat) (ue : List Nat)
  /-- RUN_TIMEOUT (R164): When TIMEOUT_US expires, the run's remaining cores halt at a command boundary. -/
  | runTimeout (cmd : Nat)
  /-- LOSS_OF_LOCK (R321): A receive lane loses codeword lock, and the port starts a retrain. -/
  | lossOfLock (port : Nat) (lanes : Nat)
  /-- FAST_WAKE_DONE (R348): A fast wake ends: with codeword alignment found in the guard the port is UP, and otherwise it falls back to a full retrain and LINK_WAKE_SLOW. -/
  | fastWakeDone (port : Nat) (aligned : Bool)
  /-- POWERDOWN_RETRY (R604): Every 100 us a domain whose target is RETAIN or OFF tries its abandoned power-down again, and after 10 attempts SET_DOMAIN fails BUSY. -/
  | powerdownRetry (dom : Nat) (drained : Bool)
  /-- RAIL_LOSS (R662): Board rails or the island supply fall, with or without warning; this loses all volatile state or cuts a flush short, or a compute-die rail leaves regulation and the die is retired. -/
  | railLoss (rails : List Nat)
  /-- REFCLK_RETURN (R663): REFCLK returns after a loss, and the lease counts on it again instead of on the island oscillator. -/
  | refclkReturn
  /-- RESET_RELEASE (R666): RESET_N rises, and start-up begins (after any flush in progress has completed). -/
  | resetRelease (boot : Boot)
  /-- CONTROL_SPACE_READ (R18): A 32-bit control-space read wakes a RETAIN domain before it completes, or returns zero and sets OFF_ACCESS for an OFF domain. -/
  | controlSpaceRead (m : Master) (off : Nat) (size : Nat)
  /-- NOR_OP_DONE (R620): A NOR erase or program ends, and NOR_BUSY clears with NOR_ERR showing failure. -/
  | norOpDone (ok : Bool)
  /-- PORT_LOOPBACK_END (R655): DURATION_US of a port loop-back expires, and the port is retired on a NEAR failure, returns to its earlier state and the command completes with its counts. -/
  | portLoopbackEnd (port : Nat) (lanes : Nat) (errs : Nat) (mbits : Nat)
  /-- HOST_READ_COMPLETION (R126): A PCIe completion (or its timeout) for a hub-die DMA host read arrives, delivering the data or faulting its element as SOURCE_UE or SOURCE_POISON. -/
  | hostReadCompletion (cmd : Nat) (elem : Nat) (off : Nat) (len : Nat) (data : List Byte) (cause : Nat) (ue : List Nat)
  /-- VOLTAGE_STEP (R606): Every 10 us the island moves a core-rail VOUT_COMMAND by at most 10 mV toward V_die, and the regulator settles. -/
  | voltageStep (die : Nat)
  /-- EXTEST (R651): An Update-DR under EXTEST or SAMPLE/PRELOAD loads the boundary register and, while RESET_N is low, drives THERMTRIP_N and the bus pins. -/
  | extest (value : Nat)
  /-- TAP_IR_SCAN (R638): An instruction-register scan selects the TAP instruction, which sets the data register and applies HIGHZ or CLAMP. -/
  | tapIrScan (code : Nat)
  deriving DecidableEq, Repr

end Sys2Proof
end

