-- ==== Sys2Proof/Machine/Bits.lean ====
section
/-! DEFINITION. Bit fields, byte order, saturating counters and the checks over words that the spec names:
complement pairs (R9), CRC-32 (R310), SMBus PEC (R538). -/

namespace Sys2Proof.Machine

/-- Bits `hi` to `lo` of a number read as a word. -/
def bits (w hi lo : Nat) : Nat := w / 2 ^ lo % 2 ^ (hi + 1 - lo)

/-- Bit `i` of a number read as a word. -/
def bit (w i : Nat) : Bool := w / 2 ^ i % 2 == 1

/-- A Boolean as a bit. -/
def b2n (b : Bool) : Nat := if b then 1 else 0

/-- `w` with bits `hi` to `lo` replaced by `v`. -/
def setBits (w hi lo v : Nat) : Nat :=
  w / 2 ^ (hi + 1) * 2 ^ (hi + 1) + v % 2 ^ (hi + 1 - lo) * 2 ^ lo + w % 2 ^ lo

/-- `w` with bit `i` set to `b`. -/
def setBit (w i : Nat) (b : Bool) : Nat := setBits w i i (b2n b)

/-- Wraps to 32 bits. -/
def wrap32 (n : Nat) : Nat := n % 2 ^ 32
/-- Wraps to 64 bits. -/
def wrap64 (n : Nat) : Nat := n % 2 ^ 64
/-- A 32-bit counter that saturates. -/
def sat32 (n : Nat) : Nat := min n (2 ^ 32 - 1)
/-- A 16-bit counter that saturates. -/
def sat16 (n : Nat) : Nat := min n (2 ^ 16 - 1)
/-- An 8-bit counter that saturates. -/
def sat8 (n : Nat) : Nat := min n 255
/-- A 64-bit counter that saturates. -/
def sat64 (n : Nat) : Nat := min n (2 ^ 64 - 1)

/-- The bitwise complement of a 32-bit word. -/
def compl32 (n : Nat) : Nat := 2 ^ 32 - 1 - n % 2 ^ 32
/-- The bitwise complement of a 64-bit word. -/
def compl64 (n : Nat) : Nat := 2 ^ 64 - 1 - n % 2 ^ 64

/-- A complement pair holds (R9). -/
def pair32 (w c : Nat) : Bool := c == compl32 w
/-- A 64-bit complement pair holds (R9). -/
def pair64 (w c : Nat) : Bool := c == compl64 w

/-- The low and the high word of a 64-bit value. -/
def lo32 (n : Nat) : Nat := n % 2 ^ 32
/-- The high word of a 64-bit value. -/
def hi32 (n : Nat) : Nat := n / 2 ^ 32 % 2 ^ 32

/-- The number of 1 bits among the low `n` bits. -/
def popCount (w : Nat) : Nat → Nat
  | 0 => 0
  | n + 1 => popCount w n + b2n (bit w n)

/-- The positions of the 1 bits among the low `n` bits, rising. -/
def bitsSet (w n : Nat) : List Nat := (List.range n).filter (bit w)

/-- A mask with the bits of `l` set. -/
def maskOf (l : List Nat) : Nat := l.foldl (fun m i => m ||| 2 ^ i) 0

/-- Bits of `a` that are not in `b`. -/
def andNot (a b : Nat) : Nat := a - (a &&& b)

/-- `n` bytes of a number, least significant first (R26). -/
def toBytes (w : Nat) : Nat → List Byte
  | 0 => []
  | n + 1 => BitVec.ofNat 8 w :: toBytes (w / 256) n

/-- The number that little-endian bytes spell (R26). -/
def ofBytes : List Byte → Nat
  | [] => 0
  | b :: t => b.toNat + 256 * ofBytes t

/-- Words to bytes, each little-endian. -/
def wordsToBytes (ws : List Nat) : List Byte := ws.flatMap (fun w => toBytes w 4)

/-- The 32-bit words that bytes spell; a trailing part of a word is dropped. -/
def bytesToWords : List Byte → List Nat
  | a :: b :: c :: d :: t => ofBytes [a, b, c, d] :: bytesToWords t
  | _ => []

/-- Cuts a list into pieces of `n`; `fuel` bounds the number of pieces. -/
def chunksOf {α : Type} (n : Nat) : Nat → List α → List (List α)
  | 0, _ => []
  | fuel + 1, l => if l.isEmpty then [] else l.take n :: chunksOf n fuel (l.drop n)

/-- Rounds up to a multiple of `a`. -/
def alignUp (n a : Nat) : Nat := (n + a - 1) / a * a

/-- The quotient rounded up. -/
def ceilDiv (n a : Nat) : Nat := (n + a - 1) / a

/-- log2 rounded up, by fuel. -/
def clog2 (n : Nat) : Nat := if n ≤ 1 then 0 else Nat.log2 (n - 1) + 1

/-- A number's least significant `w` bits read as a signed value. -/
def signed (w n : Nat) : Int :=
  if n % 2 ^ w < 2 ^ (w - 1) then (n % 2 ^ w : Nat) else (n % 2 ^ w : Nat) - (2 ^ w : Nat)

/-- A signed value as its `w`-bit two's complement. -/
def unsigned (w : Nat) (i : Int) : Nat := (i % (2 ^ w : Nat)).toNat

/-- One bit-serial step of a reflected CRC with polynomial `poly`. -/
def crcBit (poly c : Nat) : Nat := if c % 2 = 1 then (c / 2) ^^^ poly else c / 2

/-- One byte of a reflected CRC. -/
def crcByte (poly c : Nat) (b : Byte) : Nat :=
  let x := c ^^^ b.toNat
  crcBit poly (crcBit poly (crcBit poly (crcBit poly
    (crcBit poly (crcBit poly (crcBit poly (crcBit poly x)))))))

/-- The CRC-32 of R310. -/
def crc32 (bs : List Byte) : Nat :=
  (bs.foldl (crcByte 0xEDB88320) 0xFFFFFFFF) ^^^ 0xFFFFFFFF

/-- One bit-serial step of an unreflected 8-bit CRC. -/
def crc8Bit (c : Nat) : Nat := if c ≥ 128 then ((c * 2) % 256) ^^^ 7 else c * 2

/-- The SMBus packet error code of R538, polynomial x^8 + x^2 + x + 1. PRESUMED: the SMBus standard's. -/
def pec8 (bs : List Byte) : Nat :=
  bs.foldl (fun c b =>
    let x := c ^^^ b.toNat
    crc8Bit (crc8Bit (crc8Bit (crc8Bit (crc8Bit (crc8Bit (crc8Bit (crc8Bit x)))))))) 0

/-- `a` precedes `b` as 32-bit sequence numbers do (R367): the difference is in the lower half. -/
def seqLt (a b : Nat) : Bool := decide (0 < (b + 2 ^ 32 - a % 2 ^ 32) % 2 ^ 32) &&
  decide ((b + 2 ^ 32 - a % 2 ^ 32) % 2 ^ 32 < 2 ^ 31)

/-- The distance from `a` to `b` modulo 2^32. -/
def seqDist (a b : Nat) : Nat := (b % 2 ^ 32 + 2 ^ 32 - a % 2 ^ 32) % 2 ^ 32

/-- The first element that satisfies `p`. -/
def listFind {α : Type} (p : α → Bool) : List α → Option α
  | [] => none
  | a :: t => if p a then some a else listFind p t

/-- Replaces the first element that satisfies `p`. -/
def updFirst {α : Type} (p : α → Bool) (f : α → α) : List α → List α
  | [] => []
  | a :: t => if p a then f a :: t else a :: updFirst p f t

/-- Removes the first element that satisfies `p`. -/
def delFirst {α : Type} (p : α → Bool) : List α → List α
  | [] => []
  | a :: t => if p a then t else a :: delFirst p t

end Sys2Proof.Machine
end

