-- ==== Sys2Proof/Machine/Digest.lean ====
section
/-! DEFINITION. SHA-256, which images (R147), barges' shards and checkpoint manifests carry. The constants are the
hash function's own. -/

namespace Sys2Proof.Machine

/-- The largest `r` below 2^`n` above `r` whose `k`-th power stays within `x`: bits are tried from the highest down. -/
def rootFrom (k x : Nat) : Nat → Nat → Nat
  | 0, r => r
  | n + 1, r => rootFrom k x n (if (r + 2 ^ n) ^ k ≤ x then r + 2 ^ n else r)

/-- The first 32 bits of the fraction of the `k`-th root of `p`, for `p` below 2^12. -/
def rootWord (k p : Nat) : Nat := wrap32 (rootFrom k (p * 2 ^ (32 * k)) 38 0)

/-- The primes below `n`, ascending. -/
def primesBelow (n : Nat) : List Nat :=
  (List.range n).filter (fun p => decide (2 ≤ p) && ((List.range p).drop 2).all (fun d => p % d != 0))

/-- The round constants of SHA-256: cube roots of the 64 primes below 312. PRESUMED: the hash's own definition. -/
def shaK : List Nat := (primesBelow 312).map (rootWord 3)

/-- The initial hash value of SHA-256: square roots of the eight primes below 20. PRESUMED. -/
def shaInit : List Nat := (primesBelow 20).map (rootWord 2)

/-- Rotates a 32-bit word right. -/
def rotr32 (x n : Nat) : Nat := x / 2 ^ n + x % 2 ^ n * 2 ^ (32 - n)

/-- One round: the eight working words and the next sixteen schedule words. -/
def shaRound (st : List Nat × List Nat) (k : Nat) : List Nat × List Nat :=
  let v := fun i => st.1.getD i 0
  let w := fun i => st.2.getD i 0
  let (a, e) := (v 0, v 4)
  let ch := (e &&& v 5) ^^^ (compl32 e &&& v 6)
  let t1 := v 7 + (rotr32 e 6 ^^^ rotr32 e 11 ^^^ rotr32 e 25) + ch + k + w 0
  let t2 := (rotr32 a 2 ^^^ rotr32 a 13 ^^^ rotr32 a 22) + ((a &&& v 1) ^^^ (a &&& v 2) ^^^ (v 1 &&& v 2))
  let s0 := rotr32 (w 1) 7 ^^^ rotr32 (w 1) 18 ^^^ w 1 / 2 ^ 3
  let s1 := rotr32 (w 14) 17 ^^^ rotr32 (w 14) 19 ^^^ w 14 / 2 ^ 10
  ([wrap32 (t1 + t2), a, v 1, v 2, wrap32 (v 3 + t1), e, v 5, v 6], st.2.drop 1 ++ [wrap32 (w 0 + s0 + w 9 + s1)])

/-- A big-endian word of four bytes. -/
def beWord (b : List Byte) : Nat := b.foldl (fun n x => n * 256 + x.toNat) 0

/-- One 64-byte block. -/
def shaBlock (h : List Nat) (block : List Byte) : List Nat :=
  let w := (List.range 16).map (fun i => beWord ((block.drop (4 * i)).take 4))
  let r := (shaK.foldl shaRound (h, w)).1
  (List.range 8).map (fun i => wrap32 (h.getD i 0 + r.getD i 0))

/-- The padded message: 0x80, zeros, the length in bits as eight big-endian bytes. -/
def shaPad (m : List Byte) : List Byte :=
  m ++ [0x80] ++ List.replicate ((119 - m.length % 64) % 64) 0 ++ (toBytes (8 * m.length) 8).reverse

/-- SHA-256 of a message, as 32 bytes. -/
def sha256 (m : List Byte) : List Byte :=
  let p := shaPad m
  ((chunksOf 64 (p.length / 64) p).foldl shaBlock shaInit).flatMap (fun w => (toBytes w 4).reverse)

end Sys2Proof.Machine
end

