-- ==== Sys2Proof/Config.lean ====
section
/-! DEFINITION. What an implementation fixes and the spec leaves open: free values, opaque to every proof. -/

namespace Sys2Proof.Config

/-- The word that STAT reads at an offset that names no word of the core status page; the spec states none. -/
opaque statFree : Nat → Word32
/-- Bytes that the translation of an image occupies, by DIGEST: the native command set is not exposed (R150). -/
opaque translationBytes : Nat → Nat
/-- AETHOL_PC of a core that has made no push (Table 5.12); the spec states none. -/
opaque noPushPc : Nat → Nat
/-- ENGINE in the fault record of an LDS, STS or SET instruction, which runs on no engine (Table 4.9). -/
opaque controlEngine : Nat → Nat
/-- Cause that CORE_MOVED carries for a hard fault of the vector or control unit: Table 4.10 gives none. -/
opaque laneFaultCause : Nat → Nat

/-- Cause that CORE_MOVED carries for an instruction-memory reload failure: Table 4.10 gives none. -/
opaque imLoadCause : Nat → Nat
/-- CRC-32 that the translation cache keeps with a translation, by DIGEST: the native commands are not exposed. -/
opaque translationCrc : Nat → Nat
/-- The CRC-32 of a 4 KiB block of a translation, by the image's digest and the block (R156). -/
opaque blockCrc : Nat → Nat → Nat
/-- The loader version of a firmware image, by PKG_FW (R150, R156). -/
opaque loaderVersion : Nat → Nat
/-- FIRST_CORE, PUSH and AETHOL_PC of a RUN that names no core. -/
opaque noCoreWord : Nat → Nat
/-- Device physical address of a page table below the root, by the key of the entry that names it: firmware
chooses the frame (R222). -/
opaque tableAddr : Nat → Nat
/-- Way mask in word 1 of MEM_CONFIG's reply when PART names no partition and WAYMASK_SET is 0. -/
opaque noPartMask : Nat → Nat
/-- Bytes that a host read through BAR2 carries with the EP bit, by device address: the spec states no data. -/
opaque poisonedByte : Nat → Sys2Proof.Byte
/-- Payload words of a SLEEP message, by its meaning: 0 REQ, 1 ACK, 2 NAK; the spec gives no layout (R347). -/
opaque sleepWords : Nat → List Nat
/-- Payload words of a TIME_SYNC request (0) and of a reply, from t2, t3 and DEPTH; the spec gives no layout. -/
opaque timeSyncWords : Nat → Nat → Nat → Nat → List Nat
/-- ERR_BOUND of a root package; the spec states none. -/
opaque rootErrBound : Nat → Nat
/-- Byte `i` of the 64-byte header of a mark image, by the values that it carries: mark number, STEP, entry index,
the counters of the streams and the RNG state; the spec gives no layout (R388). -/
opaque markByte : List Nat → Nat → Sys2Proof.Byte
/-- Value `i` of those, read from a header. -/
opaque markField : List Sys2Proof.Byte → Nat → Nat
/-- Microseconds of the fixed steps in TAKEOVER_EST_US (R399): the sum of the bounds of Table 11.13 is not the 4 ms of
the example. -/
opaque takeoverFixedUs : Nat
/-- Nanoseconds that TAKEOVER_EST_US counts for a phase before a step record has measured it: 0 forward, 1 backward. -/
opaque unmeasuredNs : Nat → Nat
/-- The schedule table and INPUT_VA that a spare uses for the step that it takes over, by PIPE_ID, stage and STEP: no
rule says where it has them from (R398). -/
opaque spareTable : Nat → Nat → Nat → List Nat
opaque spareInput : Nat → Nat → Nat → Nat
/-- BERTH_VA of a berth of a stage that a spare takes over, by PIPE_ID, stage and berth. -/
opaque spareBerthVa : Nat → Nat → Nat → Nat

/-- FIRST_STEP and the steps left of a plan that a spare adopts, by PIPE_ID, stage and STEP: the control area does not
hold them. -/
opaque sparePlan : Nat → Nat → Nat → Nat × Option Nat
/-- Bytes of an EXPORT_SHARDS header whose values the spec does not state: SHAPE, SEED, BERTH_VERSION, CURRENT; by offset. -/
opaque exportByte : Nat → Sys2Proof.Byte
/-- Bytes of an ALLGATHER destination or a PERMUTE_RESHARD region after a PARAM_MISMATCH, by COLL_SEQ and address: not
defined (R414). -/
opaque mismatchByte : Nat → Nat → Sys2Proof.Byte

/-- KiB of context that an eviction saves or zeroes, by a free value: the spec bounds it by 192 per core (R512). -/
opaque contextKib : Nat → Nat
/-- Microseconds that an eviction takes, by a free value: the spec bounds it (R512). -/
opaque switchUs : Nat → Nat
/-- Device physical address of a partition's root page table / 8192: firmware chooses it (R506). -/
opaque rootFrame : Nat → Nat
/-- Offset in a partition's save area of a saved block, by partition and block: the spec gives no layout (R510). -/
opaque saveOffset : Nat → Nat → Nat
/-- Millijoules that a partition's activity is estimated at in the microsecond that ends at a time (R522). -/
opaque energyMj : Nat → Nat → Nat

/-- Random numbers of the island, by the number of values drawn before: tokens and offer nonces (R547, R551). -/
opaque islandRandom : Nat → Nat

/-- The serial number (0) and PKG_FW of the images that the NOR holds at first in slot A (1) and slot B (2): per part and per
image. -/
opaque partWord : Nat → Nat

/-- Result word 0 of a hub-die DMA command that the lengthsman ends, by command number: no rule gives its cause (R191). -/
opaque biteWord : Nat → Nat

/-- What the SHA-384 and ECDSA P-384 checks of R619 find: the public key against the fused hash and the signature, by a
slot's first 256 bytes; the digest, by the slot's bytes. -/
opaque norKey : List Sys2Proof.Byte → Bool
opaque norSig : List Sys2Proof.Byte → Bool
opaque norDigest : List (Nat × Sys2Proof.Byte) → Bool
/-- PKG_FW of an image that has been programmed, by the slot's bytes: Table 1.15 gives it per image, and Table 18.9 names no
place for it. -/
opaque norFw : List (Nat × Sys2Proof.Byte) → Nat

/-- Result words of a LOOPBACK that is aborted, by command number and word: how much was checked is the hardware's (R656). -/
opaque loopWord : Nat → Nat → Nat
/-- How long a debug command or a memory transfer of the debug port is BUSY, in nanoseconds, by a free value (R644). -/
opaque dbgBusyNs : Nat → Nat
/-- What a read returns that is not naturally aligned (R16), and the data of a refused I3C read (Table 16.6), by a free
value. -/
opaque busWord : Nat → Nat
/-- ENTRY_C word `off` of a partition-table entry whose pair check has failed (R504), by partition. -/
opaque badEntryC : Nat → Nat → Nat

/-- What firmware has fixed a unit number of a hub die to name, by die and unit (R172): a MEM page, or 32 plus a port. -/
opaque hubUnit : Nat → Nat → Option Nat
/-- The reach router that a stack's node is joined to, on the stack's edge of its die; no table gives it. -/
opaque stackUnit : Nat → Nat
/-- The reach router at a die's edge by which a packet passes to a neighbouring die, by both dies and the module. -/
opaque edgeUnit : Nat → Nat → Nat → Nat
/-- Flits that a network packet of so many bytes takes on a die-to-die pair, which the spec does not state. -/
opaque flits : Nat → Nat
/-- Flits that a pair's adapters resent for a packet, by pair and a free value. -/
opaque adapterRetries : Nat → Nat → Nat
/-- The way that a memory-side cache gives up when every way that a fill may take is in use, by a free value: R228 names no order
of replacement. -/
opaque cacheVictim : Nat → Nat
/-- Bytes that a loop-back run has moved through a memory unit's interface, by a free value (R242). -/
opaque loopBytes : Nat → Nat
/-- What a read of a line with six or more erroneous symbols gives: R232 states none. Whether it is uncorrectable, and the bytes
that it delivers when it is not. -/
opaque manySymbols : List (Nat × Nat) → Bool
opaque wrongByte : List (Nat × Nat) → Nat → Sys2Proof.Byte
/-- Lanes that lane repair replaced while a pair trained, by pair and a free value. -/
opaque lanesRepaired : Nat → Nat → Nat
/-- What the TAP's key register and the boundary cells of the bus pins capture, by a free value (R638, R651). -/
opaque tapCapture : Nat → Nat

end Sys2Proof.Config
end

