-- ==== Sys2Proof/Machine/Flags.lean ====
section
/-! DEFINITION. Command flags (Table 4.8) as masks. -/

namespace Sys2Proof.Machine

/-- Command flags of Table 4.8 as a mask. -/
def fNanDropped : Nat := 1
def fKscaleRange : Nat := 2
def fOverflow : Nat := 4
def fPoisonIn : Nat := 8
def fPoisonOut : Nat := 16
def fCbNan : Nat := 32

end Sys2Proof.Machine
end

