-- ==== Sys2Proof/Machine/Codes.lean ====
section
/-! DEFINITION. Status codes (Table 16.10), fault causes (Tables 4.6, 4.10, 5.13). -/

namespace Sys2Proof.Machine

def stDone : Nat := 0x0000
def stAborted : Nat := 0x0100
def stDoneAbortLate : Nat := 0x0101
def stPartialFault : Nat := 0x0200
def stNotOwner : Nat := 0x0300
def stReadOnly : Nat := 0x0301
def stHandoverDeclined : Nat := 0x0302
def stPairFault : Nat := 0x0400
def stDomainAsleep : Nat := 0x0500
def stLevelUnsupported : Nat := 0x0600
def stFieldReserved : Nat := 0x0601
def stOpcodeUnknown : Nat := 0x0602
def stSeqMismatch : Nat := 0x0603
def stPeerLost : Nat := 0x0800
def stRegulated : Nat := 0x0900
def stProgramRefused : Nat := 0x0A00
def stMemRefused : Nat := 0x0B00
def stQuayRefused : Nat := 0x0C00
def stLinkRefused : Nat := 0x0D00
def stPipeRefused : Nat := 0x0E00
def stCollRefused : Nat := 0x0F00
def stServiceRefused : Nat := 0x1000
def stServRefused : Nat := 0x1100
def stDeadlineFallback : Nat := 0x0700
def stPartRefused : Nat := 0x1200
def stPowerRefused : Nat := 0x1300
def stDebugRefused : Nat := 0x1400
/-- Status of a program fault in a fault record (Table 4.9). -/
def stProgramFault : Nat := 0xFFFF

def cTranslation : Nat := 0x01
def cNotOwner : Nat := 0x02
def cReadOnly : Nat := 0x03
def cSourceUe : Nat := 0x04
def cSourcePoison : Nat := 0x05
def cIndexRange : Nat := 0x06

def pfHandleReserved : Nat := 0x10
def pfDescInvalid : Nat := 0x11
def pfDescLevel : Nat := 0x12
def pfReadOnly : Nat := 0x13
def pfNotOwner : Nat := 0x14
def pfTileType : Nat := 0x15
def pfHeldEmpty : Nat := 0x16
def pfLcEmpty : Nat := 0x17
def pfStreamState : Nat := 0x18
def pfPosRange : Nat := 0x19
def pfCountMismatch : Nat := 0x1A
def pfPairing : Nat := 0x1B
def pfTranslation : Nat := 0x1C
def pfPoolUe : Nat := 0x20
def pfArrayHard : Nat := 0x21
def pfLengthsman : Nat := 0x22
def pfMsgType : Nat := 0x23
def pfJqState : Nat := 0x24
def pfJqMismatch : Nat := 0x25
def pfJqOrder : Nat := 0x26
def pfCbMismatch : Nat := 0x27
def pfCbCover : Nat := 0x28
def pfPipeMsg : Nat := 0x29
def pfPipeOrder : Nat := 0x2A
def pfServMsg : Nat := 0x2B
def pfLcMismatch : Nat := 0x2C

/-- The poison pattern's byte at an address (R124). -/
def poisonByte (addr : Nat) : Byte := BitVec.ofNat 8 (0x7FC0DEAD7FC0DEAD / 2 ^ (8 * (addr % 8)))

/-- The poison pattern over `n` bytes from an address. -/
def poisonBytes (addr : Nat) : Nat → List Byte
  | 0 => []
  | n + 1 => poisonByte addr :: poisonBytes (addr + 1) n

end Sys2Proof.Machine
end

