-- ==== Sys2Proof/Machine/Tab.lean ====
section
/-! DEFINITION. Sparse tables: memory and every numbered collection of units is a list of (key, value)
pairs in one canonical form: keys strictly rising, no entry equal to what an unlisted key reads as. -/

namespace Sys2Proof.Machine

/-- A sparse table from numbers to values. -/
abbrev Tab (α : Type) := List (Nat × α)

variable {α : Type}

/-- The value at key `k`; an unlisted key reads as `d`. -/
def Tab.get (d : α) : Tab α → Nat → α
  | [], _ => d
  | (j, v) :: t, k => if j = k then v else Tab.get d t k

/-- Removes key `k`. -/
def Tab.del (t : Tab α) (k : Nat) : Tab α := t.filter (fun e => e.1 != k)

/-- Inserts or replaces key `k`, keeping the keys rising. -/
def Tab.ins (v : α) : Tab α → Nat → Tab α
  | [], k => [(k, v)]
  | (j, w) :: t, k =>
    if k < j then (k, v) :: (j, w) :: t
    else if k = j then (k, v) :: t
    else (j, w) :: Tab.ins v t k

/-- Writes `v` at key `k`, in canonical form: writing what an unlisted key reads as removes the entry. -/
def Tab.put [DecidableEq α] (d : α) (t : Tab α) (k : Nat) (v : α) : Tab α :=
  if v = d then t.del k else t.ins v k

/-- Applies `f` to the value at key `k`. -/
def Tab.upd [DecidableEq α] (d : α) (t : Tab α) (k : Nat) (f : α → α) : Tab α :=
  t.put d k (f (t.get d k))

/-- Every key of `t` is above `k`. -/
def Tab.above (k : Nat) : Tab α → Bool
  | [] => true
  | (j, _) :: t => decide (k < j) && Tab.above k t

/-- The canonical form: keys strictly rising, no entry equal to the default `d`. -/
def Tab.wf [DecidableEq α] (d : α) : Tab α → Bool
  | [] => true
  | (j, v) :: t => decide (v ≠ d) && Tab.above j t && Tab.wf d t

/-- Keeps the entries whose key and value satisfy `p`. -/
def Tab.keep (p : Nat → α → Bool) (t : Tab α) : Tab α := t.filter (fun e => p e.1 e.2)

/-- The keys whose value satisfies `p`, in rising order. -/
def Tab.keysWhere (p : α → Bool) (t : Tab α) : List Nat :=
  (t.filter (fun e => p e.2)).map (·.1)

/-- Writes the values `vs` at the keys `k`, `k + 1`, … -/
def Tab.putAll [DecidableEq α] (d : α) (t : Tab α) (k : Nat) : List α → Tab α
  | [] => t
  | v :: vs => Tab.putAll d (t.put d k v) (k + 1) vs

/-- Writes every entry of `u` over `t`. -/
def Tab.merge [DecidableEq α] (d : α) (t u : Tab α) : Tab α := u.foldl (fun t e => t.put d e.1 e.2) t

/-- The `n` values at the keys `k`, `k + 1`, … -/
def Tab.getAll (d : α) (t : Tab α) (k : Nat) : Nat → List α
  | 0 => []
  | n + 1 => t.get d k :: Tab.getAll d t (k + 1) n

end Sys2Proof.Machine
end

