-- ==== Sys2Proof/Machine/StateColl.lean ====
section
/-! DEFINITION. State of groups and collectives (12). -/

namespace Sys2Proof.Machine

/-- What a collective is (Tables 12.4, 12.7, 12.8). -/
inductive CollOp where
  | allreduce | reduceScatter | allgather | dispatch | combine | permute
  deriving DecidableEq, Repr

/-- A stream that a member sends: PHASE, receiving rank, next INDEX, credit limit. -/
structure CollOut where
  phase : Nat
  peer : Nat
  next : Nat
  limit : Nat
  deriving DecidableEq, Repr

/-- A packet received: PHASE, SRC_RANK, INDEX, payload, poison. -/
structure CollGot where
  phase : Nat
  src : Nat
  index : Nat
  data : List Byte
  poison : Bool
  deriving DecidableEq, Repr

/-- A collective that a member has accepted (R413). -/
structure Coll where
  cmd : Nat
  seq : Nat
  op : CollOp
  opcode : Nat
  pk : Packet
  digest : Nat := 0
  started : Bool := false
  outs : List CollOut := []
  /-- Limits granted: PHASE, sending rank, limit. -/
  granted : List (Nat × Nat × Nat) := []
  got : List CollGot := []
  /-- Packets sent, with the receiving rank in `src`: what goes again after a rejoin equals them (R436). -/
  kept : List CollGot := []
  /-- Blocks, rows or chunks written at this member, and those written with poison. -/
  written : List Nat := []
  poisoned : List Nat := []
  /-- Owned blocks formed here, as they travel in RESULT. -/
  formed : List (Nat × List Byte) := []
  flags : Nat := 0
  exactRange : Bool := false
  rejoined : Bool := false
  /-- ALLTOALL: the counts that the member sends, and those received by rank. -/
  counts : List Nat := []
  sentRows : Nat := 0
  /-- PERMUTE_RESHARD: the permutation, chunks sent, chunks acknowledged, chunks staged here and the scratch offsets
  that have come of the next ones, chunks that π(M) has reported written. -/
  perm : List Nat := []
  sentChunks : Nat := 0
  acked : List Nat := []
  staged : Nat := 0
  stagedOffs : List Nat := []
  peerWritten : Nat := 0
  /-- Chunks that go to a rejoined rank again, from this one on; none when nothing is resent (R437). -/
  again : Option Nat := none
  /-- This member's region is being loaded from its buddy's copy (R437). -/
  loading : Bool := false
  deriving DecidableEq, Repr

/-- STATE of a group (R412). -/
inductive GroupState where
  | waiting | ready | mismatched
  deriving DecidableEq, Repr

/-- A group slot (R408 to R413). -/
structure Group where
  bound : Bool := false
  standby : Bool := false
  part : Nat := 0
  pipe : Nat := 0
  id : Nat := 0
  rank : Nat := 0
  /-- Entries: partition, package. -/
  members : List (Nat × Nat) := []
  rejoinUs : Nat := 0
  scratchVa : Nat := 0
  scratchBytes : Nat := 0
  tableVa : Nat := 0
  tableGen : Nat := 0
  digest : Nat := 0
  state : GroupState := .waiting
  /-- Ranks whose REPLY has come with the group's digest. -/
  replies : List Nat := []
  helloAt : Nat := 0
  /-- COLL_SEQ of the next collective. -/
  counter : Nat := 0
  colls : List Coll := []
  /-- Lost ranks and when the loss was learned. -/
  lost : List (Nat × Nat) := []
  /-- START and FAIL messages for collectives not yet issued here: rank, COLL_SEQ, value. -/
  starts : List (Nat × Nat × Nat) := []
  fails : List (Nat × Nat) := []
  /-- Credits for collectives not yet started here: rank, COLL_SEQ, PHASE, limit. -/
  credits : List (Nat × Nat × Nat × Nat) := []
  /-- Writes into the scratch for a PERMUTE_RESHARD not yet started here: COLL_SEQ mod 2^16, scratch offset. -/
  early : List (Nat × Nat) := []
  /-- A member that has rejoined: what each survivor's STATE held: rank, COLL_SEQ, VALUE2. -/
  states : List (Nat × Nat × Nat) := []
  /-- A member that has rejoined and has not yet started a PERMUTE_RESHARD. -/
  rejoining : Bool := false
  deriving DecidableEq, Repr

/-- An RMEM request of this package that waits for its answer: group slot, COLL_SEQ, target package, OBJECT, and what it
serves: 0 a staged chunk, 1 a region loaded at a rejoin, 2 a chunk read back to be sent again. -/
structure RmemSent where
  slot : Nat
  seq : Nat
  dst : Nat
  object : Nat
  what : Nat
  chunk : Nat
  va : Nat
  deriving DecidableEq, Repr

/-- Groups of this package (12). -/
structure Collectives where
  groups : Tab Group := []
  rmem : List RmemSent := []
  deriving DecidableEq, Repr

end Sys2Proof.Machine
end

