-- ==== Sys2Proof/Machine/StateControl.lean ====
section
/-! DEFINITION. State of the control plane: identity (01), command paths and ownership (16), logbook (17),
power, reset and NOR (18), debug port (20), board pins (21). -/

namespace Sys2Proof.Machine

/-- The PKG block (R20, Tables 1.11 to 1.19). The capability and unit registers are derived from the retired sets. -/
structure Pkg where
  /-- PKG_LEVEL.RUN_LEVEL. -/
  runLevel : Nat := 1
  /-- PKG_LEVEL.DIE_LEVEL_MIN. -/
  dieLevelMin : Nat := 1
  /-- PKG_ID.ID_VALID. -/
  idValid : Bool := false
  /-- PKG_ID.PACKAGE_ID, 14 bits. -/
  packageId : Nat := 0
  /-- PKG_STATE.OFF_ACCESS. -/
  offAccess : Bool := false
  /-- PKG_STATE.BOOT_SLOT. -/
  bootSlot : Bool := false
  /-- PKG_STATE.UNIT_RETIRED. -/
  unitRetired : Bool := false
  /-- PKG_STATE.READY. -/
  ready : Bool := false
  /-- PKG_GEN.CAP_GEN, 32 bits. -/
  capGen : Nat := 0
  /-- PKG_UNITS0.HS_OK, bit k set while HSk is usable. -/
  hsOk : Nat := 0xFFF
  /-- PKG_UNITS0.HD_OK. -/
  hdOk : Nat := 0b11
  /-- PKG_UNITS0.CD_OK. -/
  cdOk : Nat := 0x3F
  /-- PKG_UNITS1.BC_OK. -/
  bcOk : Nat := 0xFFFF
  /-- PKG_UNITS2.CP_OK. -/
  cpOk : Nat := 0xFFFFFF
  /-- Usable quay engines, bit q set while QEq is usable (PKG_CAP2.QUAY counts them). -/
  qeOk : Nat := 0xFFFFFFF
  deriving DecidableEq, Repr

/-- A claim entered in the election window (R547). -/
structure Claim where
  master : Master
  priority : Nat
  nonce : Nat
  deriving DecidableEq, Repr

/-- One master's bank of the OWN block (Table 16.7). -/
structure OwnBank where
  nonce : Nat := 0
  /-- OWN_RESULT.REFUSED. -/
  refused : Bool := false
  /-- OWN_RESULT.RESULT: 0 NONE, 1 PENDING, 2 WON, 3 LOST. -/
  result : Nat := 0
  deriving DecidableEq, Repr

/-- A pending hand-over offer (R551). -/
structure Offer where
  target : Master
  nonce : Nat
  /-- The HAND_OVER command's number. -/
  cmd : Nat
  /-- When TIMEOUT_MS elapses, on the model's clock. -/
  deadline : Nat
  deriving DecidableEq, Repr

/-- The OWN block (R546, Table 16.7). -/
structure Own where
  /-- The lock-keeper; none while VALID is 0. -/
  owner : Option Master := none
  /-- The owner code that OWN_STATE.OWNER shows, kept after a lapse. -/
  lastOwner : Nat := 0
  /-- Entered claims while the window is open; none when no window is open. -/
  window : Option (List Claim) := none
  /-- When the window opened. -/
  windowAt : Nat := 0
  offer : Option Offer := none
  /-- When the lease ends, on the model's clock. -/
  leaseEnd : Nat := 0
  /-- The lease length that a lapsed reference clock leaves counting (R663): true while on the island oscillator. -/
  leaseOnOsc : Bool := false
  gen : Nat := 0
  denied : Nat := 0
  token : Nat := 0
  tokenC : Nat := 0
  /-- Banks of host 0, host 1 and the BMC at keys 0, 1 and 2. -/
  banks : Tab OwnBank := []
  /-- NEXT_SEQ of the fabric-manager lock-keeper, and its commands that came ahead of their turn (R539). -/
  fmNextSeq : Nat := 0
  fmAhead : List Packet := []
  deriving DecidableEq, Repr

/-- One ring page (Table 16.4) with the ring's state (R531 to R536). -/
structure Ring where
  sqBase : Nat := 0
  cqBase : Nat := 0
  enable : Bool := false
  sqHost : Bool := false
  cqHost : Bool := false
  hostPort : Nat := 0
  dbPorts : Nat := 0
  sqLog2 : Nat := 4
  cqLog2 : Nat := 4
  irqEn : Bool := false
  vector : Nat := 0
  tail : Nat := 0
  head : Nat := 0
  sqHead : Nat := 0
  cqTail : Nat := 0
  /-- The completion ring's phase; 1 at enable. -/
  phase : Nat := 0
  fault : Bool := false
  /-- RING_FAULT.CAUSE. -/
  cause : Nat := 0
  draining : Bool := false
  enabled : Bool := false
  nextSeq : Nat := 0
  eventsLost : Nat := 0
  /-- Set while the ring must drain because its owner changed (R550). -/
  ownerChange : Bool := false
  deriving DecidableEq, Repr

/-- One mailbox bank (Table 16.5). -/
structure Mailbox where
  cmd : Tab Nat := []
  evtFull : Bool := false
  done : Bool := false
  busy : Bool := false
  sts : Tab Nat := []
  evt : Tab Nat := []
  deriving DecidableEq, Repr

/-- How far an accepted command has come (R542, R543, R555). -/
inductive Phase where
  /-- Accepted under R527 and not begun: held, or waiting for its turn. -/
  | accepted
  /-- Begun. -/
  | begun
  /-- Begun; an ABORT came first and it stops at its next stopping point. -/
  | aborting
  /-- Begun, with no stopping point: an ABORT found it committed as though at the instant it began (R556). -/
  | late
  deriving DecidableEq, Repr

/-- A command in flight. -/
structure Flight where
  /-- The model's number for the command, in order of acceptance. -/
  id : Nat
  path : Path
  pk : Packet
  phase : Phase
  /-- SQ_HEAD after the fetch (Table 16.3). -/
  sqHead : Nat
  /-- Master that sent it, for the rules that ask who the lock-keeper is. -/
  master : Option Master
  /-- The ABORT commands that wait for this one to end. -/
  aborts : List Nat
  /-- The instant the command begins counts from, on the model's clock. -/
  at_ : Nat
  deriving DecidableEq, Repr

/-- A committed completion that is not posted yet (R543). -/
structure Completion where
  id : Nat
  path : Path
  opcode : Nat
  status : Nat
  seq : Nat
  tag : Nat
  part : Nat
  sqHead : Nat
  irq : Bool
  res : List Nat
  deriving DecidableEq, Repr

/-- An event waiting to be posted (R544, R580). -/
structure EventRec where
  code : Nat
  sev : Nat
  /-- Recipient partition, 0 for the owner. -/
  part : Nat
  p : List Nat
  deriving DecidableEq, Repr

/-- A message-signalled interrupt vector (R534): table entry and pending bit. -/
structure Msix where
  addr : Nat := 0
  data : Nat := 0
  masked : Bool := true
  pending : Bool := false
  /-- Interrupts sent so far, for an observer outside the package. -/
  sent : Nat := 0
  deriving DecidableEq, Repr

/-- The command plane (16). -/
structure Cmd where
  rings : Tab Ring := []
  mailboxes : Tab Mailbox := []
  /-- Commands in flight, in order of acceptance. -/
  flights : List Flight := []
  /-- Committed completions that are not posted, in commit order. -/
  committed : List Completion := []
  /-- The next command number. -/
  nextId : Nat := 1
  /-- Events waiting for ring r (0 for the owner), oldest first. -/
  events : Tab (List EventRec) := []
  /-- MSI-X vectors, key port * 128 + vector. -/
  msix : Tab Msix := []
  /-- Status packets of the fabric-manager owner's last 16 commands, newest first, by SEQ. -/
  fmStored : List (Nat × List Nat) := []
  /-- Bytes that the package has written to host memory, key port * 2^64 + address. -/
  hostMem : Tab Byte := []
  /-- The last value returned by a register read, as the reading master sees it. -/
  readData : Word32 := 0
  /-- The upper register of a 64-bit read (R16). -/
  readHi : Word32 := 0
  /-- The result byte of the last I3C transfer (Table 16.6). -/
  i3cResult : Nat := 0
  /-- The PEC byte that closes it. -/
  i3cPec : Nat := 0
  /-- I3C in-band interrupts raised so far. -/
  i3cIrq : Nat := 0
  /-- Fetching from every ring and mailbox is stopped (R621). -/
  fetchStopped : Bool := false
  deriving DecidableEq, Repr

/-- A logbook record (Table 17.6). -/
structure LogRec where
  part : Nat
  island : Bool
  eventSent : Bool
  timeFree : Bool
  sev : Nat
  code : Nat
  srcKind : Nat
  srcIndex : Nat
  time : Nat
  p0 : Nat
  p1 : Nat
  p2 : Nat
  p3 : Nat
  deriving DecidableEq, Repr

/-- A generation slot of the MRAM (Table 17.9). -/
structure LogGen where
  magic : Nat := 0
  gen : Nat := 0
  genC : Nat := 0
  cause : Nat := 0
  count : Nat := 0
  first : Nat := 0
  lost : Nat := 0
  time : Nat := 0
  pkgId : Nat := 0
  pkgFw : Nat := 0
  crc : Nat := 0
  records : List LogRec := []
  deriving DecidableEq, Repr

/-- A flush in progress (R587 to R589). -/
structure FlushRun where
  cause : Nat
  /-- First record number copied. -/
  first : Nat
  /-- Record number after the last one copied. -/
  upto : Nat
  slot : Nat
  /-- LOST of the generation, and the records copied. -/
  lost : Nat
  records : List LogRec
  startTime : Nat
  startClk : Nat
  /-- When PWR_WARN_N fell during it (R588). -/
  fell : Option Nat
  deriving DecidableEq, Repr

/-- A recovery in progress (R560, R565). -/
structure Recovery where
  /-- HEAD number of the fault record. -/
  head : Nat
  level : Nat
  /-- When the fault was recorded, on the model's clock. -/
  start : Nat
  deriving DecidableEq, Repr

/-- The logbook (17). -/
structure Log where
  /-- Records held in the ring, key record number mod 2^32. -/
  ring : Tab (Option LogRec) := []
  head : Nat := 0
  oldest : Nat := 0
  flushed : Nat := 0
  lastCause : Nat := 0
  pwrFlushed : Bool := false
  mramFail : Bool := false
  genNext : Nat := 0
  mram : Tab LogGen := []
  lost : Nat := 0
  suppressed : Nat := 0
  sev0 : Nat := 0
  sev1 : Nat := 0
  sev2 : Nat := 0
  sev3 : Nat := 0
  selMram : Bool := false
  selSlot : Nat := 0
  cursor : Nat := 0
  recoveries : List Recovery := []
  /-- Records overwritten since the last generation began that were not flushed (R587). -/
  genLost : Nat := 0
  /-- The running millisecond of R586, by the model's clock. -/
  msIndex : Nat := 0
  /-- Records of each (CODE, SOURCE) in the running millisecond: code, source word, written, suppressed. -/
  perMs : List (Nat × Nat × Nat × Nat) := []
  /-- Latched views: master code plus four times its package, view (1 LOG_WINDOW, 2 LOG_TAIL), 32 records as words. -/
  latches : List (Nat × Nat × List Nat) := []
  flush : Option FlushRun := none
  /-- Waiting flush triggers by CAUSE, with the time each began to wait. -/
  waiting : List (Nat × Nat) := []
  /-- When the last flush served for severity 2 ended. -/
  lastSev2End : Option Nat := none
  deriving DecidableEq, Repr

/-- A domain's state (Table 18.10 PWR_DOM.STATE). -/
inductive DomState where
  | on | retain | off | changing
  deriving DecidableEq, Repr

/-- A domain's target (Table 18.5 TARGET). -/
inductive DomTarget where
  | on | auto | retain | off
  deriving DecidableEq, Repr

/-- What a boundary buffer entry is (R600, R601): who sent it and whether it starts a wake. -/
structure HeldPacket where
  src : Nat
  wakeClass : Bool
  /-- When it arrived. -/
  at_ : Nat
  /-- The command that made the request, if a hub-die command did. -/
  cmd : Option Nat
  deriving DecidableEq, Repr

/-- One switchable domain (R594 to R604). -/
structure Domain where
  state : DomState := .off
  /-- The target, when it is not the one of Table 18.2. -/
  target : Option DomTarget := none
  trim : Nat := 0
  wakes : Nat := 0
  closed : Bool := false
  /-- Boundary buffer, oldest first. -/
  held : List HeldPacket := []
  /-- Data packets refused since the sluice closed: their sources hold them (R601). -/
  refused : List HeldPacket := []
  /-- What a change in progress leads to. -/
  going : Option DomState := none
  /-- A wake in progress began from OFF. -/
  fromOff : Bool := false
  /-- When the change in progress, or the present idle period, began. -/
  since : Nat := 0
  /-- Abandoned power-down attempts (R604). -/
  attempts : Nat := 0
  /-- The target before the SET_DOMAIN in progress. -/
  before : DomTarget := .on
  /-- The SET_DOMAIN command that waits for this domain. -/
  cmd : Option Nat := none
  deriving DecidableEq, Repr

/-- The four package states (R605). -/
inductive PkgPower where
  | run | sleep | off
  deriving DecidableEq, Repr

/-- One die's voltage and temperature state (R606 to R610). -/
structure DiePwr where
  temp : Nat := 0
  /-- The rail's VOUT_COMMAND in mV, 0 while it is off. -/
  railMv : Nat := 0
  capLimit : Nat := 800
  thermLimit : Nat := 800
  /-- A THERM_THROTTLE episode is open (R610). -/
  throttling : Bool := false
  /-- The hottest sensor has reached 105 °C at the lowest voltage (R610). -/
  atLimit : Bool := false
  /-- When the thermal limit last moved down or up. -/
  stepAt : Nat := 0
  /-- The rail has been lost. -/
  railLost : Bool := false
  deriving DecidableEq, Repr

/-- The PWR block without NOR (18). -/
structure Pwr where
  domains : Tab Domain := []
  state : PkgPower := .run
  /-- Targets remembered over SLEEP. -/
  remembered : List DomTarget := []
  tempMax : Nat := 0
  warn : Bool := false
  warnAt : Nat := 0
  /-- 0 NOMINAL, 1 BOOST, 2 FIXED. -/
  mode : Nat := 0
  fixedMv : Nat := 700
  capW : Nat := 4200
  inputW : Nat := 0
  /-- Input powers of the last second, newest first. -/
  inputs : List Nat := []
  estMj : Nat := 0
  measMj : Nat := 0
  idleUs : Nat := 200
  dies : Tab DiePwr := []
  /-- THERMTRIP_N asserted (low). -/
  thermTrip : Bool := false
  /-- The package is fenced (R579). -/
  fenced : Bool := false
  /-- A SOFT_RESET, PKG_SLEEP, PKG_WAKE, PKG_OFF or DIE_RESET in progress: the command's number and its OP. -/
  pkgOp : Option (Nat × Nat) := none
  /-- When a posted SOFT_RESET or PKG_OFF acts (R613), and which. -/
  actAt : Option (Nat × Nat) := none
  deriving DecidableEq, Repr

/-- What a firmware slot of the NOR holds, as R619 judges it (the SHA-384 and ECDSA checks are the slot's facts). -/
structure NorSlot where
  magic : Bool := true
  keyOk : Bool := true
  sigOk : Bool := true
  digestOk : Bool := true
  version : Nat := 0
  secVersion : Nat := 0
  /-- PKG_FW of the image, once one has been programmed; none is the image that the part came with. -/
  fw : Option Nat := none
  deriving DecidableEq, Repr

/-- The NOR registers and contents (R618 to R620). -/
structure Nor where
  addr : Nat := 0
  err : Bool := false
  busy : Bool := false
  /-- Operation running: 1 erase, 2 program. -/
  op : Nat := 0
  window : Tab Byte := []
  /-- NOR bytes, erased cells read 0xFF. -/
  cells : Tab Byte := []
  slotA : NorSlot := {}
  slotB : NorSlot := {}
  fusedMin : Nat := 0
  deriving DecidableEq, Repr

/-- STATE of DBG_LOCK. -/
inductive DbgLock where
  | locked | armed | unlocked
  deriving DecidableEq, Repr

/-- A TAP instruction (Table 20.1). -/
inductive TapInstr where
  | extest | sample | idcode | highz | clamp | dbgKey | dbgAccess | bypass
  deriving DecidableEq, Repr

/-- The debug port (20): TAP, unlocking, DBG control page, memory window. -/
structure Dbg where
  tap : TapInstr := .idcode
  /-- Last code shifted into the instruction register. -/
  ir : Nat := 2
  /-- What Capture-IR loaded at the last instruction scan. -/
  irOut : Nat := 1
  /-- What Capture-DR loads under the selected instruction (R639). -/
  drOut : Nat := 0x0153694B
  /-- Outcome of the previous DBG_ACCESS: RESULT, offset, data. -/
  accResult : Nat := 0
  accOffset : Nat := 0
  accData : Nat := 0
  lock : DbgLock := .locked
  key : Nat := 0
  fails : Nat := 0
  life : Nat := 600
  /-- When the unlock ends, on the model's clock. -/
  leftEnd : Nat := 0
  arg : Nat := 0
  /-- DBG_CMD's BUSY reads 1 until then, on the model's clock. -/
  busyEnd : Nat := 0
  cores : Nat := 0
  rejected : Nat := 0
  result : Nat := 0
  memVa : Nat := 0
  memEnd : Nat := 0
  memResult : Nat := 0
  memPoison : Nat := 0
  window : Tab Byte := []
  /-- The boundary register's update stage (Table 20.6). -/
  boundary : Nat := 0
  deriving DecidableEq, Repr

/-- STATE of TIME_STATE (Table 10.16). -/
inductive TimeMode where
  | free | locked | holdover
  deriving DecidableEq, Repr

/-- The TIME block (R350 to R354). System time is the model's clock plus an offset, modulo 2^64. -/
structure Time where
  /-- System time minus the model's clock. -/
  base : Int := 0
  enable : Bool := false
  root : Bool := false
  parentPort : Nat := 0
  errBound : Nat := 0xFFFF
  depth : Nat := 0
  mode : TimeMode := .free
  /-- TIME_OFFSET, signed, 1/16 ns. -/
  offset : Int := 0
  /-- TIME_RATE, signed, parts per 10^9. -/
  rate : Int := 0
  setLo : Nat := 0
  setHi : Nat := 0
  /-- NOW_HI as latched. -/
  nowHi : Nat := 0
  /-- t1 of the exchange in progress (R351). -/
  t1 : Option Nat := none
  /-- When the last exchange began, on the model's clock. -/
  lastSync : Nat := 0
  /-- What the applied rate has moved the time by and `base` does not hold, in 10^-9 ns. -/
  frac : Int := 0
  /-- Up to when ERR_BOUND has grown in HOLDOVER (R353). -/
  holdAt : Nat := 0
  deriving DecidableEq, Repr

/-- The board's pins and rails (21). -/
structure Board where
  resetN : Bool := true
  perst0N : Bool := true
  perst1N : Bool := true
  pwrWarnN : Bool := true
  /-- PCIe port 0 and port 1 run in common-clock mode; otherwise with separate reference clocks, SRIS (R664). -/
  common0 : Bool := false
  common1 : Bool := false
  refclk : Bool := true
  /-- Address straps as read at step 1 of start-up (R538, R666). -/
  maddr : Nat := 0
  /-- Rails in fault, by the index of Table 21.1. -/
  faults : List Nat := []
  /-- Start-up is held at step 1 until RESET_N rises (R666). -/
  holdStart : Bool := false
  /-- Pins that boundary scan drives, with the level: 0 THERMTRIP_N, 1 I3C_SDA, 2 PMB_SCL, 3 PMB_SDA; and whether
  boundary scan has taken the pins over. -/
  scan : List (Nat × Bool) := []
  scanOn : Bool := false
  deriving DecidableEq, Repr

end Sys2Proof.Machine
end

