-- ==== Sys2Proof/Machine/Num.lean ====
section
/-! DEFINITION. Number formats, exact values, rounding on output, LA128 and W58 (02 of the spec). -/

namespace Sys2Proof.Machine

/-- An exact value: class of Table 2.5, or a signed dyadic n × 2^e with n positive. -/
inductive Num where
  | nan
  | inf (neg : Bool)
  | zero (neg : Bool)
  | fin (neg : Bool) (n : Nat) (e : Int)
  deriving DecidableEq, Repr

/-- A floating format: exponent bits, fraction bits, bias, and what its largest codes mean. -/
structure Fmt where
  eb : Nat
  fb : Nat
  bias : Nat
  /-- 0: every code finite; 1: IEEE infinities and NaNs; 2: E4M3. -/
  spec : Nat
  /-- The canonical NaN (R42), when the format has one. -/
  canon : Nat
  deriving DecidableEq, Repr

def fmtE4M3 : Fmt := ⟨4, 3, 7, 2, 0x7F⟩
def fmtE5M2 : Fmt := ⟨5, 2, 15, 1, 0x7F⟩
def fmtE3M2 : Fmt := ⟨3, 2, 3, 0, 0⟩
def fmtE2M3 : Fmt := ⟨2, 3, 1, 0, 0⟩
def fmtE2M1 : Fmt := ⟨2, 1, 1, 0, 0⟩
def fmtBF16 : Fmt := ⟨8, 7, 127, 1, 0x7FC0⟩
def fmtFP16 : Fmt := ⟨5, 10, 15, 1, 0x7E00⟩
def fmtFP32 : Fmt := ⟨8, 23, 127, 1, 0x7FC00000⟩
def fmtW58 : Fmt := ⟨10, 47, 511, 1, 0x01FFC00000000000⟩

/-- The floating format of a format code of Table 2.1. -/
def floatFmt : Nat → Option Fmt
  | 0 => some fmtE4M3
  | 1 => some fmtE5M2
  | 2 => some fmtE3M2
  | 3 => some fmtE2M3
  | 4 => some fmtE2M1
  | 6 => some fmtBF16
  | 7 => some fmtFP16
  | 8 => some fmtFP32
  | 9 => some fmtW58
  | _ => none

/-- Format codes of Table 2.1 that are not floating formats. -/
def fmtInt8 : Nat := 5
def fmtLa128 : Nat := 10
def fmtInt32 : Nat := 11

/-- Bits of an element in memory (Table 2.1; W58 in its 64-bit container). -/
def elemBits : Nat → Nat
  | 0 => 8 | 1 => 8 | 2 => 6 | 3 => 6 | 4 => 4 | 5 => 8 | 6 => 16 | 7 => 16
  | 8 => 32 | 9 => 64 | 10 => 128 | 11 => 32 | _ => 0

/-- The largest finite magnitude code. -/
def Fmt.maxCode (f : Fmt) : Nat :=
  if f.spec = 1 then (2 ^ f.eb - 1) * 2 ^ f.fb - 1
  else if f.spec = 2 then 2 ^ (f.eb + f.fb) - 2
  else 2 ^ (f.eb + f.fb) - 1

/-- The code of positive infinity in an IEEE format. -/
def Fmt.infCode (f : Fmt) : Nat := (2 ^ f.eb - 1) * 2 ^ f.fb

/-- The exponent of the smallest subnormal. -/
def Fmt.minExp (f : Fmt) : Int := 1 - (f.bias : Int) - f.fb

/-- The magnitude of a code without its sign bit, as n × 2^e (R27). -/
def Fmt.magnitude (f : Fmt) (c : Nat) : Nat × Int :=
  let ex := c / 2 ^ f.fb
  let fr := c % 2 ^ f.fb
  if ex = 0 then (fr, f.minExp) else (2 ^ f.fb + fr, f.minExp + (ex : Int) - 1)

/-- The value of a code (R27, R28). -/
def Fmt.decode (f : Fmt) (code : Nat) : Num :=
  let w := f.eb + f.fb
  let neg := bit code w
  let c := code % 2 ^ w
  if f.spec = 1 ∧ c ≥ f.infCode then
    if c = f.infCode then .inf neg else .nan
  else if f.spec = 2 ∧ c = 2 ^ w - 1 then .nan
  else
    let (n, e) := f.magnitude c
    if n = 0 then .zero neg else .fin neg n e

/-- The value of an element of format code `fc`; LA128 and reserved codes have no Num value. -/
def decodeElem (fc code : Nat) : Num :=
  match floatFmt fc with
  | some f => f.decode code
  | none =>
    let w := if fc = fmtInt8 then 8 else 32
    let i := signed w code
    if i = 0 then .zero false else .fin (decide (i < 0)) i.natAbs 0

/-- The sign of a value. -/
def Num.neg : Num → Bool
  | .nan => false
  | .inf s => s
  | .zero s => s
  | .fin s _ _ => s

def Num.isNan : Num → Bool
  | .nan => true
  | _ => false

def Num.isZero : Num → Bool
  | .zero _ => true
  | _ => false

def Num.isFinite : Num → Bool
  | .zero _ => true
  | .fin _ _ _ => true
  | _ => false

def Num.negate : Num → Num
  | .nan => .nan
  | .inf s => .inf (!s)
  | .zero s => .zero (!s)
  | .fin s n e => .fin (!s) n e

def Num.abs : Num → Num
  | .nan => .nan
  | .inf _ => .inf false
  | .zero _ => .zero false
  | .fin _ n e => .fin false n e

/-- A signed integer as a signed dyadic. -/
def Num.ofInt (m : Int) (e : Int) : Num :=
  if m = 0 then .zero false else .fin (decide (m < 0)) m.natAbs e

/-- The signed mantissa and exponent of a finite value. -/
def Num.dyadic : Num → Int × Int
  | .fin s n e => (if s then -(n : Int) else n, e)
  | _ => (0, 0)

/-- The mantissa of a finite value when written with exponent `e`, which is not above its own. -/
def Num.mantAt (v : Num) (e : Int) : Int :=
  let (m, ex) := v.dyadic
  m * 2 ^ (ex - e).toNat

/-- The exact product, with the class of Table 2.5. -/
def Num.mul : Num → Num → Num
  | .nan, _ => .nan
  | _, .nan => .nan
  | .inf _, .zero _ => .nan
  | .zero _, .inf _ => .nan
  | .inf s, b => .inf (s != b.neg)
  | a, .inf t => .inf (a.neg != t)
  | .zero s, b => .zero (s != b.neg)
  | a, .zero t => .zero (a.neg != t)
  | .fin s n e, .fin t m d => .fin (s != t) (n * m) (e + d)

/-- The exact sum (Table 2.6 for the classes; an exact zero of opposite signs is +0, R36). -/
def Num.add : Num → Num → Num
  | .nan, _ => .nan
  | _, .nan => .nan
  | .inf s, .inf t => if s = t then .inf s else .nan
  | .inf s, _ => .inf s
  | _, .inf t => .inf t
  | .zero s, .zero t => .zero (s && t)
  | .zero _, b => b
  | a, .zero _ => a
  | a@(.fin _ _ e), b@(.fin _ _ d) =>
    let g := min e d
    let m := a.mantAt g + b.mantAt g
    if m = 0 then .zero false else .fin (decide (m < 0)) m.natAbs g

/-- The exact sum of a list, from its first term on; an empty list sums to +0. -/
def Num.sum : List Num → Num
  | [] => .zero false
  | a :: t => t.foldl Num.add a

/-- The value times 2^k. -/
def Num.scale (k : Int) : Num → Num
  | .fin s n e => .fin s n (e + k)
  | v => v

/-- `a < b` under IEEE 754-2019: a NaN operand gives false, and the zeros are equal. -/
def Num.lt (a b : Num) : Bool :=
  match a, b with
  | .nan, _ => false
  | _, .nan => false
  | .inf s, .inf t => s && !t
  | .inf s, _ => s
  | _, .inf t => !t
  | a, b =>
    let e := min a.dyadic.2 b.dyadic.2
    decide (a.mantAt e < b.mantAt e)

/-- `a < b` with −0 below +0, as MIN and MAX order (R113). -/
def Num.ltZ (a b : Num) : Bool :=
  match a, b with
  | .zero s, .zero t => s && !t
  | a, b => a.lt b

/-- MIN and MAX of R113: a NaN operand gives NaN. -/
def Num.min2 (a b : Num) : Num :=
  if a.isNan || b.isNan then .nan else if b.ltZ a then b else a
def Num.max2 (a b : Num) : Num :=
  if a.isNan || b.isNan then .nan else if a.ltZ b then b else a

/-- Rounding modes of R38. -/
inductive Rnd where
  | rne
  /-- Stochastic, with the random word. -/
  | sr (u : Nat)
  | rtz
  deriving DecidableEq, Repr

/-- Truncates (n / d) × 2^e onto the integers: quotient, and twice the remainder against the divisor. -/
def truncQ (n d : Nat) (e : Int) : Nat × Nat × Nat :=
  let num := n * 2 ^ e.toNat
  let den := d * 2 ^ (-e).toNat
  (num / den, num % den, den)

/-- R40: rounds a quotient with remainder `r` of `den` under a mode; `sticky` says that a nonzero tail
below the remainder was cut off. -/
def roundUp (m : Rnd) (t r den : Nat) (sticky : Bool) : Bool :=
  match m with
  | .rtz => false
  | .rne => decide (2 * r > den) || (decide (2 * r = den) && (sticky || t % 2 == 1))
  | .sr u => decide (r * 2 ^ 32 / den > u)

/-- Floor of log2 of n / d, both positive. -/
def log2Q (n d : Nat) : Int :=
  let k : Int := (Nat.log2 n : Int) - Nat.log2 d
  -- n / d lies in (2^(k-1), 2^(k+1))
  if n * 2 ^ (-k).toNat < d * 2 ^ k.toNat then k - 1 else k

/-- The magnitude code nearest (n / d) × 2^e under R40, with no exponent limit above. -/
def Fmt.roundMag (f : Fmt) (m : Rnd) (n d : Nat) (e : Int) (sticky : Bool := false) : Nat :=
  let lg := log2Q n d + e
  let g := max (lg - f.fb) f.minExp
  let (t, r, den) := truncQ n d (e - g)
  (g - f.minExp).toNat * 2 ^ f.fb + t + b2n (roundUp m t r den sticky)

/-- What an output element is, and the flags it raises (R41, R42). -/
structure OutRes where
  code : Nat
  overflow : Bool := false
  nanDropped : Bool := false
  deriving DecidableEq, Repr

/-- The sign bit in place. -/
def Fmt.signed (f : Fmt) (neg : Bool) (c : Nat) : Nat := b2n neg * 2 ^ (f.eb + f.fb) + c

/-- R41: the result of an overflow. -/
def Fmt.overflow (f : Fmt) (m : Rnd) (saturate neg : Bool) : OutRes :=
  if saturate || m == .rtz || f.spec == 0 then ⟨f.signed neg f.maxCode, true, false⟩
  else if f.spec = 2 then ⟨f.canon, true, false⟩
  else ⟨f.signed neg f.infCode, true, false⟩

/-- Rounds a positive quotient, with its sign, once onto the format (R40, R41). -/
def Fmt.roundQ (f : Fmt) (m : Rnd) (saturate neg : Bool) (n d : Nat) (e : Int)
    (sticky : Bool := false) : OutRes :=
  let c := f.roundMag m n d e sticky
  if c > f.maxCode then f.overflow m saturate neg else ⟨f.signed neg c, false, false⟩

/-- Rounds an exact value once onto a floating format (R39 to R42). -/
def Fmt.round (f : Fmt) (m : Rnd) (saturate : Bool) : Num → OutRes
  | .nan => if f.spec = 0 then ⟨0, false, true⟩ else ⟨f.canon, false, false⟩
  | .inf s => if f.spec = 1 then ⟨f.signed s f.infCode, false, false⟩ else f.overflow m saturate s
  | .zero s => ⟨f.signed s 0, false, false⟩
  | .fin s n e => f.roundQ m saturate s n 1 e

/-- Rounds an exact value to INT8 or INT32, which saturate (R40, R41). DEDUCED: R41 compares the rounded magnitude with
the largest finite value, so −2^31 as INT32 raises OVERFLOW, with −2^31 as its result. -/
def roundInt (w : Nat) (m : Rnd) : Num → OutRes
  | .nan => ⟨0, false, true⟩
  | .inf s => ⟨unsigned w (if s then (if w = 8 then -127 else -(2 ^ 31)) else (2 ^ (w - 1) - 1 : Nat)), true, false⟩
  | .zero _ => ⟨0, false, false⟩
  | .fin s n e =>
    let (t, r, den) := truncQ n 1 e
    let a : Nat := t + b2n (roundUp m t r den false)
    let hi : Nat := 2 ^ (w - 1) - 1
    let lo : Nat := if w = 8 then 127 else 2 ^ 31
    if s then
      if a > hi then ⟨unsigned w (-(lo : Int)), true, false⟩ else ⟨unsigned w (-(a : Int)), false, false⟩
    else if a > hi then ⟨hi, true, false⟩ else ⟨a, false, false⟩

/-- Rounds an exact value once to the output format of code `fc`. -/
def roundOut (fc : Nat) (m : Rnd) (saturate : Bool) (v : Num) : OutRes :=
  match floatFmt fc with
  | some f => f.round m saturate v
  | none => roundInt (if fc = fmtInt8 then 8 else 32) m v

/-- Rounding to nearest with IEEE overflow, as FP32, W58 and the vector unit round (R36, R37). -/
def Fmt.rne (f : Fmt) (v : Num) : Nat := (f.round .rne false v).code

def addF (f : Fmt) (a b : Nat) : Nat := f.rne ((f.decode a).add (f.decode b))
def mulF (f : Fmt) (a b : Nat) : Nat := f.rne ((f.decode a).mul (f.decode b))
/-- a × b + c, rounded once. -/
def fmaF (f : Fmt) (a b c : Nat) : Nat := f.rne (((f.decode a).mul (f.decode b)).add (f.decode c))

/-! ### LA128 -/

/-- An LA128 value (Table 2.4): a class, or the integer M, taken modulo 2^124. -/
inductive La where
  | fin (m : Int)
  | posInf
  | negInf
  | nan
  deriving DecidableEq, Repr

/-- MAG as the two's complement of 124 bits. -/
def laWrap (m : Int) : Int := signed 124 (unsigned 124 m)

/-- R32: the sum of two LA128 values. -/
def La.add : La → La → La
  | .nan, _ => .nan
  | _, .nan => .nan
  | .posInf, .negInf => .nan
  | .negInf, .posInf => .nan
  | .posInf, _ => .posInf
  | _, .posInf => .posInf
  | .negInf, _ => .negInf
  | _, .negInf => .negInf
  | .fin a, .fin b => .fin (laWrap (a + b))

/-- The 128-bit layout of Table 2.4. -/
def La.encode : La → Nat
  | .fin m => unsigned 124 m
  | .posInf => 1 * 2 ^ 124
  | .negInf => 2 * 2 ^ 124
  | .nan => 3 * 2 ^ 124

/-- Reads the layout of Table 2.4; a reserved class reads as NAN (R34). -/
def La.decode (w : Nat) : La :=
  match w / 2 ^ 124 % 16 with
  | 0 => .fin (signed 124 w)
  | 1 => .posInf
  | 2 => .negInf
  | _ => .nan

/-- The CLASS field is reserved (R34). -/
def laReserved (w : Nat) : Bool := decide (w / 2 ^ 124 % 16 > 3)

/-- The value M × 2^-32, or the class. -/
def La.value : La → Num
  | .fin m => Num.ofInt m (-32)
  | .posInf => .inf false
  | .negInf => .inf true
  | .nan => .nan

/-- A product entered into LA128 (R31); with a K-axis exponent it is rounded to the 2^-32 grid (R72). -/
def La.ofProduct (p : Num) : La :=
  match p with
  | .nan => .nan
  | .inf s => if s then .negInf else .posInf
  | .zero _ => .fin 0
  | .fin s n e =>
    let (t, r, den) := truncQ n 1 (e + 32)
    let a : Int := (t + b2n (roundUp .rne t r den false) : Nat)
    .fin (laWrap (if s then -a else a))

/-! ### Random words (R57, R58) -/

def mulHi (a b : Nat) : Nat := a * b / 2 ^ 32 % 2 ^ 32
def mulLo (a b : Nat) : Nat := a * b % 2 ^ 32

/-- Philox-4x32 rounds. -/
def philoxRounds : Nat → Nat × Nat × Nat × Nat → Nat × Nat → Nat × Nat × Nat × Nat
  | 0, c, _ => c
  | n + 1, (c0, c1, c2, c3), (k0, k1) =>
    philoxRounds n
      (mulHi 0xCD9E8D57 c2 ^^^ c1 ^^^ k0, mulLo 0xCD9E8D57 c2,
       mulHi 0xD2511F53 c0 ^^^ c3 ^^^ k1, mulLo 0xD2511F53 c0)
      ((k0 + 0x9E3779B9) % 2 ^ 32, (k1 + 0xBB67AE85) % 2 ^ 32)

/-- An RNG context (Table 2.13). -/
structure RngCtx where
  seed : Nat
  step : Nat
  tensorId : Nat
  stream : Nat
  deriving DecidableEq, Repr

/-- Reads the 24 bytes of Table 2.13. -/
def RngCtx.ofBytes (b : List Byte) : RngCtx :=
  let w := Sys2Proof.Machine.ofBytes b
  { seed := bits w 63 0, step := bits w 95 64, tensorId := bits w 127 96, stream := bits w 143 128 }

/-- The random word of element index `i` (R57, Table 2.14). -/
def RngCtx.word (x : RngCtx) (i : Nat) : Nat :=
  let q := i / 4
  let (r0, r1, r2, r3) := philoxRounds 10
    (bits q 31 0, x.stream * 2 ^ 16 + bits q 47 32, x.tensorId, x.step)
    (bits x.seed 31 0, bits x.seed 63 32)
  match i % 4 with
  | 0 => r0 | 1 => r1 | 2 => r2 | _ => r3

/-! ### Packing of elements in a row or tile (R29) -/

/-- Bit offset of element `i` in a packed row of format `fc`. -/
def elemBitOff (fc i : Nat) : Nat := i * elemBits fc

/-- Bytes of a packed row of `n` elements: 4-bit rows end on a byte, 6-bit rows on a group of three bytes. -/
def rowBytes (fc n : Nat) : Nat :=
  match elemBits fc with
  | 4 => (n + 1) / 2
  | 6 => (n + 3) / 4 * 3
  | b => n * (b / 8)

/-- Reads element `i` of a packed row. -/
def unpackElem (fc : Nat) (row : List Byte) (i : Nat) : Nat :=
  let o := elemBitOff fc i
  ofBytes ((row.drop (o / 8)).take ((elemBits fc + 14) / 8)) / 2 ^ (o % 8) % 2 ^ elemBits fc

/-- Packs codes into a row, padding with zeros (R29). -/
def packRow (fc : Nat) (codes : List Nat) : List Byte :=
  let w := elemBits fc
  let n := codes.foldr (fun c acc => c % 2 ^ w + acc * 2 ^ w) 0
  toBytes n (rowBytes fc codes.length)

end Sys2Proof.Machine
end

