-- ==== Sys2Proof/Machine/StateCore.lean ====
section
/-! DEFINITION. State of the cores, their engines and their arrays (03, 04, 05 of the spec). -/

namespace Sys2Proof.Machine

/-- A tensor descriptor in a slot (Tables 4.3 and 4.4). A zeroed slot holds zero in every field (R105). -/
structure Desc where
  level : Nat := 0
  format : Nat := 0
  rankM1 : Nat := 0
  /-- 0 ROW_MAJOR, 1 TILED16. -/
  layout : Nat := 0
  /-- 0 uncompressed, 1 W4, 2 A8. -/
  comp : Nat := 0
  cls : Nat := 0
  rowscale : Bool := false
  region : Nat := 0
  regionEn : Bool := false
  readOnly : Bool := false
  dim0 : Nat := 0
  dim1 : Nat := 0
  dim2 : Nat := 0
  dim3 : Nat := 0
  stride1 : Nat := 0
  stride2 : Nat := 0
  stride3 : Nat := 0
  base : Nat := 0
  scaleAddr : Nat := 0
  chamberAddr : Nat := 0
  tag : Nat := 0
  deriving DecidableEq, Repr

/-- CORE_STATE (Table 4.2). -/
inductive CoreState where
  | idle | running | halted | faulted | moving
  deriving DecidableEq, Repr

/-- Type tag of an accumulator tile (R60). -/
inductive TileType where
  | none | la128 | w58
  deriving DecidableEq, Repr

/-- An accumulator tile: 256 elements of 128 bits, row-major; an empty list stands for zeros. -/
structure Tile where
  typ : TileType := .none
  els : List Nat := []
  poisoned : Bool := false
  deriving DecidableEq, Repr

/-- The B block that the stationary registers hold (R69): K × 16 values, n fastest, and K-axis exponents;
a `none` exponent is a scale byte of 0xFF. -/
structure HeldB where
  fmt : Nat
  k : Nat
  vals : List Num
  kexp : List (Option Int)
  poisoned : Bool
  /-- Tiles on which ACC_CLEAR has run since the block was latched, bit t for tile t. -/
  cleared : Nat := 0
  deriving DecidableEq, Repr

/-- ARRAY_STATE (Table 3.6). -/
inductive ArrayState where
  | idle | run | frozen | halted
  deriving DecidableEq, Repr

/-- The array counters (R91, Table 3.6) and its freeze (R77). -/
structure Array where
  state : ArrayState := .idle
  beats : Nat := 0
  instructions : Nat := 0
  freezeFeedNs : Nat := 0
  freezeDrainNs : Nat := 0
  freezes : Nat := 0
  longFreezes : Nat := 0
  checkRetry : Nat := 0
  checkHard : Nat := 0
  checkSkipped : Nat := 0
  sentinel : Nat := 0
  /-- Outstanding freeze causes of R77: 1 feed, 2 drain, 3 retry. -/
  causes : List Nat := []
  /-- When the running freeze began. -/
  frozenAt : Nat := 0
  /-- The running freeze has written its record (R78). -/
  longDone : Bool := false
  /-- Stretches within the last 2^20 beats, by beat number (R87). -/
  stretches : List Nat := []
  deriving DecidableEq, Repr

/-- What a CHUNK prefix names (R146). -/
structure ChunkUse where
  stream : Nat
  chunk : Nat
  operand : Nat
  release : Bool
  deriving DecidableEq, Repr

/-- Where a pushed command that has begun waits (R53, R55, R127, R120). -/
inductive Wait where
  /-- Not begun. -/
  | queued
  /-- Executing in a frozen array (R77), with what the array will find when the freeze ends. -/
  | frozen (seen : Seen)
  /-- A consumer stalled on an invalid active bank (R55): the header's address and its generation at the stall. -/
  | chamber (va gen : Nat)
  /-- A command that rebuilds a chamber and cannot write yet (R53): 0 another rebuild of the chamber runs, 1 its
  step 1 is done and a command holds the idle bank, 2 the header failed its pair check and a command holds a bank. -/
  | rebuild (stage : Nat)
  /-- QX holds a message or contribution (R127, R195): `since` is 1 more than the time of the first refusal, 0
  before one, `last` the time of the last try; `sent` while it is on its way. -/
  | message (since last : Nat) (sent : Bool)
  /-- A RECV or STREAM_CLOSE that has begun and waits. -/
  | other
  /-- A SEND to the pipe or serving controller that waits for its answer (R378, R484). -/
  | controller
  /-- A command that a hard core or array fault has stopped before it committed (R83, R84, R110, R566). With
  `true`, a FINAL MMA whose commit stands and whose drain is to be repeated. -/
  | broken (drainOnly : Bool)
  /-- Held at a read that met an uncorrectable pool or basin word (R110). -/
  | stuck
  deriving DecidableEq, Repr

/-- A queue entry: what the control core copies at a push (R97). -/
structure Push where
  num : Nat
  pc : Nat
  head : Nat
  ext : List Nat
  a : Nat
  b : Nat
  c : Nat
  /-- Copied descriptors, by the order of the handle fields of Table 5.5. -/
  descs : List Desc
  chunks : List ChunkUse
  rng : Option RngCtx
  /-- The RNG context was read from a poisoned line. -/
  rngPoison : Bool
  /-- Read regions and write region (R101). -/
  reads : List Nat
  write : Option Nat
  /-- The region of a VCVT's statistics descriptor, ordered and marked as its write region is. -/
  also : List Nat
  /-- Row group of a split GATHER or SCATTER (R151). -/
  group : Nat
  /-- A fault found at the push, the program-fault cause. -/
  fault : Option Nat
  wait : Wait
  deriving DecidableEq, Repr

/-- A fault record (Table 4.9). -/
structure FaultRec where
  flags : Nat
  region : Nat
  engine : Nat
  status : Nat
  push : Nat
  mask : Nat
  cause : Nat
  first : Nat
  tag : Nat
  /-- Word index of the instruction that made the push (the PC map); not part of Table 4.9. -/
  pc : Nat
  deriving DecidableEq, Repr

/-- A core stream or reach stream (R118 to R120). -/
structure Stream where
  isOpen : Bool := false
  src : Desc := {}
  ring : Desc := {}
  chunk64 : Nat := 0
  slots : Nat := 0
  consumers : Nat := 1
  /-- Chunks filled so far. -/
  filled : Nat := 0
  /-- Releases counted per unreleased chunk: chunk, count. -/
  counts : List (Nat × Nat) := []
  /-- Chunks released so far, a prefix. -/
  released : Nat := 0
  /-- Filled chunks that hold poison. -/
  poison : List Nat := []
  part : Nat := 0
  /-- The core that opened it. -/
  opener : Nat := 0
  /-- The source's codebook bank that the stream has latched (R294). -/
  srcBank : Nat := 0
  /-- Where it stands in the rebuild of a compressed ring's chamber (R53, R293): 3 before it. -/
  stage : Nat := 3
  /-- The bank that it rebuilds, and whether it restores a header that failed its pair check. -/
  bank : Option (Nat × Bool) := none
  deriving DecidableEq, Repr

/-- A loaded image (R158): its code, entry, digest. -/
structure Image where
  code : List Nat
  entry : Nat
  digest : Nat
  /-- Slots filled by the loader with their regions (R153). -/
  descs : List (Nat × Desc)
  /-- CONST sections: pool offset and bytes. -/
  consts : List (Nat × List Byte)
  deriving DecidableEq, Repr

/-- A breakpoint (Table 20.4). -/
structure Breakpoint where
  en : Bool := false
  /-- false PUSH, true PC. -/
  isPc : Bool := false
  all : Bool := false
  hit : Bool := false
  value : Nat := 0
  deriving DecidableEq, Repr

/-- Who holds a core (Table 20.4 HOLDER). -/
inductive Holder where
  | none
  /-- A RUN, with the command's number. -/
  | run (cmd : Nat)
  /-- A STEP_RUN of a stage slot. -/
  | stage (slot : Nat)
  /-- A serving model slot. -/
  | model (slot : Nat)
  deriving DecidableEq, Repr

/-- One logical core. -/
structure Core where
  state : CoreState := .idle
  image : Option Image := none
  pc : Nat := 0
  regs : Tab Word64 := []
  /-- Vector registers, 32 of 1 KiB; no Aethol instruction names them (Table 5.1). -/
  vregs : Tab Byte := []
  slots : Tab Desc := []
  ax : List Push := []
  vx : List Push := []
  dx : List Push := []
  qx : List Push := []
  pushCount : Nat := 0
  /-- Word index of the last push; none before the first. -/
  lastPc : Option Nat := none
  /-- REGION_POISON. -/
  poison : Nat := 0
  /-- FLAGS_STICKY. -/
  flags : Nat := 0
  faults : List FaultRec := []
  faultCount : Nat := 0
  faultLost : Nat := 0
  eccCorrected : Nat := 0
  qxStallNs : Nat := 0
  streams : Tab Stream := []
  tiles : Tab Tile := []
  /-- The two tile buffers of each operand port (R68): the blocks last read, newest first. -/
  portA : List (List Num) := []
  portB : List (List Num) := []
  held : Option HeldB := none
  array : Array := {}
  /-- CHUNK prefixes that wait for their instruction. -/
  prefixes : List ChunkUse := []
  /-- Next row group of a GATHER or SCATTER in progress. -/
  group : Nat := 0
  holder : Holder := .none
  stopAfter : Nat := 0
  truncate : Nat := 0xFFFFFFFF
  truncated : Bool := false
  /-- END executed: the core becomes IDLE when every push has completed. -/
  ended : Bool := false
  /-- A halt is asked for and takes effect at a command boundary; queued commands stay queued (R164, R645). -/
  halting : Bool := false
  /-- The halt does not wait for commands that wait on something outside the core (R164). -/
  forced : Bool := false
  /-- Why the debug port halts the core: 0 it does not, 1 HALT, 2 a breakpoint, 3 a STEP's end; the breakpoint. -/
  haltWhy : Nat := 0
  haltBp : Nat := 0
  /-- STOP_AFTER or a STEP has been reached: pushed commands run to completion, then the core halts (R162, R647). -/
  stopping : Bool := false
  bps : Tab Breakpoint := []
  stepping : Bool := false
  dbgHalt : Bool := false
  stepLeft : Nat := 0
  /-- No push of the running STEP has been made (R647). -/
  stepFirst : Bool := false
  /-- A move to the spare that waits for begun commands: its cause, and the state that it interrupted (Table 4.12). -/
  moveWhy : Option Nat := none
  movedFrom : CoreState := .idle
  /-- A fault whose record waits for the commands already begun (R130). -/
  faulting : Option FaultRec := none
  /-- Handler-dispatch mode (R200, R201): from reset until the core is given to a partition. -/
  handlerMode : Bool := true
  handlerBusy : Bool := false
  /-- The message that the running handler was given. -/
  handlerMsg : List Nat := []
  /-- SET_LOG2 of the inbound queues (R197). -/
  setLog2 : Nat := 0
  /-- POLICY of the queue sets (R197). -/
  policy : Nat := 0
  /-- Queue last received from, per set. -/
  lastQueue : Tab Nat := []
  deriving DecidableEq, Repr

/-- A RUN in progress (R160 to R166). -/
structure RunCmd where
  cmd : Nat
  part : Nat
  cores : List Nat
  /-- When TIMEOUT_US elapses; none for 0. -/
  deadline : Option Nat
  timedOut : Bool
  deriving DecidableEq, Repr

/-- A translation in the cache (R156). -/
structure CacheEntry where
  part : Nat
  digest : Nat
  level : Nat
  /-- The version of the loader that made it. -/
  loader : Nat
  image : Image
  /-- CRC-32 of the translation and of each 4 KiB block of it. -/
  crc : Nat
  blockCrcs : List Nat
  deriving DecidableEq, Repr

/-- A consumer or rebuild that holds a bank of a lock chamber (R52, R53). -/
structure Latch where
  /-- Physical place of the header: 0 pool, 1 basin, and its key. -/
  space : Nat
  key : Nat
  bank : Nat
  core : Nat
  push : Nat
  deriving DecidableEq, Repr

/-- One PCIe completion that a host read of a host COPY, GATHER or SCATTER has received (R126): the element that it
serves (16 for the table), the byte range within it, its data, or the cause that it faults with. -/
structure HostPart where
  elem : Nat
  off : Nat
  len : Nat
  data : List Byte
  cause : Nat
  deriving DecidableEq, Repr

/-- A host COPY, GATHER or SCATTER that waits for host reads: its command number and what has arrived. -/
structure HostJob where
  cmd : Nat
  parts : List HostPart
  deriving DecidableEq, Repr

/-- All cores and what firmware keeps about them. -/
structure Cores where
  cores : Tab Core := []
  /-- Physical index of logical core c (R132); none is the identity. -/
  remap : Tab (Option Nat) := []
  /-- Logical cores that are not mapped (R570). -/
  unmapped : Tab Bool := []
  /-- Retired physical cores, 17 × reach + index. -/
  retired : Tab Bool := []
  /-- Reach streams, key slice × 16 + number. -/
  reachStreams : Tab Stream := []
  runs : List RunCmd := []
  /-- Translation cache, most recently loaded first. -/
  cache : List CacheEntry := []
  latches : List Latch := []
  /-- Deferred flips: space and key of the header (R53). -/
  deferredFlips : List (Nat × Nat) := []
  /-- Host commands COPY, GATHER, SCATTER that wait for host reads. -/
  hostJobs : List HostJob := []
  deriving DecidableEq, Repr

end Sys2Proof.Machine
end

