-- ==== Sys2Proof/Machine/StateFab.lean ====
section
/-! DEFINITION. State of the on-package network, the messages and the junction queues (06). -/

namespace Sys2Proof.Machine

/-- A message or contribution on its way (R193, R205). -/
structure Flying where
  /-- The sending core; none for a junction release or firmware. -/
  src : Option Nat
  /-- The receiving core and inbound queue; for a contribution, the reach and junction. -/
  dst : Nat
  queue : Nat
  /-- The message's eight words; for a contribution, the element codes. -/
  words : List Nat
  poison : Bool
  /-- Refused once and waiting at its sender (R195, R208). -/
  refused : Bool := false
  /-- Of a contribution: the FORMAT of its source. -/
  fmt : Nat := 0
  /-- The node that it comes from, and its place among the packets sent on MSG (R178). -/
  node : Option Nat := none
  seq : Nat := 0
  deriving DecidableEq, Repr

/-- What a junction keeps beside its descriptor (R202 to R209). -/
structure Junction where
  /-- 0 IDLE, 1 OPEN, 2 RELEASING, 3 CLOSED. -/
  state : Nat := 0
  poisoned : Bool := false
  round : Nat := 0
  arrived : Nat := 0
  /-- Ordered modes: the next index to be added. -/
  next : Nat := 0
  /-- Ordered modes: staged contributions, index and slot. -/
  staged : List (Nat × Nat) := []
  /-- ARM has been written and is not acted on yet (R204). -/
  arm : Bool := false
  deriving DecidableEq, Repr

/-- Counters of a reach (Table 6.18). -/
structure Reach where
  routerPackets : Nat := 0
  basinCe : Nat := 0
  basinUe : Nat := 0
  bites : Nat := 0
  msgRefused : Nat := 0
  jqReleases : Nat := 0
  partMismatch : Nat := 0
  deriving DecidableEq, Repr

/-- A die-to-die pair (R180 to R184, Table 6.19). -/
structure Pair where
  /-- MODULES_ACTIVE. -/
  active : Nat := 0
  /-- Modules disabled under R180. -/
  disabled : Nat := 0
  negLevel : Nat := 0
  /-- The negotiated FEATURES word. -/
  features : Nat := 0
  lanesRepaired : Nat := 0
  retries : Nat := 0
  restripes : Nat := 0
  flitsSent : Nat := 0
  flitsReceived : Nat := 0
  deriving DecidableEq, Repr

/-- What an eviction saves of a job (Table 15.6): the contexts of its cores with what lies in their queues, and the dirty
blocks of its pools and basin halves, under the keys that they had. -/
structure SavedJob where
  part : Nat
  cores : Tab Core
  queues : Tab (List (List Nat))
  refused : Tab (List Nat)
  notices : List Nat
  flying : List Flying
  contribs : List Flying
  requests : List (Nat × Nat × Nat × List Nat)
  junctions : Tab Junction
  jqRefused : Tab (List Nat)
  reachStreams : Tab Stream
  flips : List (Nat × Nat)
  pool : Tab Byte
  basin : Tab Byte
  wordUe : Tab Bool
  dirtyPool : Tab Bool
  dirtyBasin : Tab Bool
  deriving DecidableEq, Repr

/-- An arbitration point of Table 6.10 (R187, R189). -/
structure Arbiter where
  /-- The request that holds the grant, since when, and the lengthsman limit that was in force then (R192). -/
  holder : Option GrantReq := none
  since : Nat := 0
  limit : Nat := 0
  /-- The requester last granted, plus 1, per class. -/
  last : Tab Nat := []
  /-- Requests that are raised and not granted yet (R189). -/
  raised : List GrantReq := []
  deriving DecidableEq, Repr

/-- What an endpoint answers a network request with (R174, R175). -/
structure NetReply where
  /-- The reply packet's header (Table 6.4); none where the request did not come as a packet. -/
  head : List Nat
  kind : Nat
  cause : Nat
  poison : Bool
  data : List Byte
  deriving DecidableEq, Repr

/-- The fabric (06). -/
structure Fabric where
  /-- Inbound queues, key core × 16 + queue, oldest first (R195). -/
  queues : Tab (List (List Nat)) := []
  /-- Refused senders of a queue that wait for a space notice, same key. -/
  refused : Tab (List Nat) := []
  /-- Cores to which a space notice is on its way. -/
  notices : List Nat := []
  /-- Messages on their way. -/
  flying : List Flying := []
  /-- Contributions on their way. -/
  contribs : List Flying := []
  /-- Requests to the pipe (0x7FE) and serving (0x7FD) controllers: core, destination, QUEUE, message. -/
  requests : List (Nat × Nat × Nat × List Nat) := []
  /-- Junctions, key reach × 32 + number. -/
  junctions : Tab Junction := []
  /-- Refused contributors of a junction, same key. -/
  jqRefused : Tab (List Nat) := []
  reaches : Tab Reach := []
  /-- Packets that have set out on MSG. -/
  sent : Nat := 0
  /-- Alternate die routes, key 8 × from + to; a route that is not listed is the primary one (R176, R177). -/
  routes : Tab (Option (List Nat)) := []
  /-- The PLI capability records that the dies have sent, key 16 × pair + 2 × module + side (R180). -/
  pliSent : Tab (List Nat) := []
  /-- Die-to-die pairs, in the order of the debug port's map (R643). -/
  pairs : Tab Pair := []
  /-- Arbiters, key 2^20 × row of Table 6.10 + 2^8 × unit + index. -/
  arbiters : Tab Arbiter := []
  /-- Saved states of evicted jobs (R510). -/
  saved : List SavedJob := []
  /-- The last answer of an endpoint to a network request. -/
  reply : Option NetReply := none
  /-- FABRIC_CONFIG (Table 6.13). -/
  fabLimit : Nat := 16000
  memLimit : Nat := 64000
  fwClass : Nat := 0
  deriving DecidableEq, Repr

end Sys2Proof.Machine
end

