-- ==== Sys2Proof/Machine/StateLink.lean ====
section
/-! DEFINITION. State of the canal links (10): packets, towpath messages, ports, the routing chambers. -/

namespace Sys2Proof.Machine

/-- A canal packet (Table 10.3), without its check words. -/
structure CPacket where
  poison : Bool := false
  dl : Bool := false
  resent : Bool := false
  vc : Nat := 0
  ovc : Nat := 0
  hops : Nat := 63
  arb : Nat := 0
  level : Nat := 1
  lseq : Nat := 0
  kind : Nat := 0
  tclass : Nat := 0
  srcPkg : Nat := 0
  dstPart : Nat := 0
  dstPkg : Nat := 0
  object : Nat := 0
  tag : Nat := 0
  payload : List Byte := []
  /-- The port whose receive buffer holds a transit packet, and its class there (R314); no part of the wire form. -/
  ingress : Option (Nat × Nat) := none
  deriving DecidableEq, Repr

/-- A towpath message (Table 10.9); the payload as 32-bit words. -/
structure TMsg where
  ttype : Nat
  pri : Nat
  hopsLeft : Nat
  level : Nat
  src : Nat
  dst : Nat
  msgId : Nat
  words : List Nat
  deriving DecidableEq, Repr

/-- STATE of LINK_STATE (Table 10.19). -/
inductive PortState where
  | disabled | training | up | retrain | sleep | parked | down
  deriving DecidableEq, Repr

/-- A port in this state comes UP by itself, or is UP: what waits at it may stay. -/
def PortState.trains : PortState → Bool
  | .training | .up | .retrain | .sleep => true
  | .disabled | .parked | .down => false

/-- What a port has put into the last flit that it sent (R306, R331). -/
inductive TxFlit where
  | idle
  /-- FIRST and the packet bytes of the body. -/
  | data (first : Nat) (bytes : List Byte)
  | towpath (bytes : List Byte)
  | control (bytes : List Byte)
  deriving DecidableEq, Repr

/-- The partner as its last valid heartbeat showed it. -/
structure Partner where
  valid : Bool
  level : Nat
  port : Nat
  pkg : Nat
  deriving DecidableEq, Repr

/-- One canal port (R303 to R349, Table 10.19). -/
structure Port where
  state : PortState := .disabled
  retrainFails : Nat := 0
  lanesLock : Nat := 0
  lanesLight : Nat := 0
  wiring : Bool := false
  peerLost : Bool := false
  dataOpen : Bool := false
  ueLimit : Nat := 16
  sleepIdle : Nat := 20
  replayLimit : Nat := 4
  partner : Option Partner := none
  expect : Nat := 0
  rttNs : Nat := 0
  fecCorrected : Nat := 0
  fecUncorrectable : Nat := 0
  crcErrors : Nat := 0
  replayed : Nat := 0
  retrains : Nat := 0
  overloads : Nat := 0
  hbMissed : Nat := 0
  tpRerouted : Nat := 0
  fastWakes : Nat := 0
  slowWakes : Nat := 0
  routeDrops : Nat := 0
  bytesTx : Nat := 0
  bytesRx : Nat := 0
  stomped : Nat := 0
  /-- Packets that wait to be sent, oldest first. -/
  txQueue : List CPacket := []
  /-- Packets of this package that wait at their source for the canal bucket of their partition (R515): the partition, since when. -/
  txHeld : List (Nat × Nat × CPacket) := []
  /-- Bytes of packets begun and not yet put into flits. -/
  txBytes : List Byte := []
  /-- Offset in `txBytes` of the first packet header in it, if any. -/
  txFirst : Option Nat := none
  /-- Transit packets in `txBytes`: where each ends, and the ingress port, class and credits of its buffer. -/
  txOwed : List (Nat × Nat × Nat × Nat) := []
  nextLseq : Nat := 0
  /-- The replay buffer: packets sent and not acknowledged (R317). -/
  replay : List CPacket := []
  /-- LSEQ from which a replay still has to send. -/
  resendFrom : Option Nat := none
  /-- Replays counted, and the LSEQ at which they began (R319). -/
  replays : Nat := 0
  replayAt : Nat := 0
  /-- Credits that the sender holds: VC0, VC1, VC2, VC3 DL 0, VC3 DL 1, shared (R314, R315). -/
  credits : List Nat := [64, 64, 64, 64, 64, 1216]
  /-- Credits taken by the partner and those freed since the last control flit. -/
  rxHeld : List Nat := [0, 0, 0, 0, 0, 0]
  rxFreed : List Nat := [0, 0, 0, 0, 0, 0]
  /-- Waiting towpath messages, PRI 0 first. -/
  tpQueue : List TMsg := []
  tpCredits : Nat := 16
  nextTseq : Nat := 0
  /-- Towpath flits sent and not acknowledged: TSEQ and messages (R328). -/
  tpReplay : List (Nat × List TMsg) := []
  tpResendFrom : Option Nat := none
  /-- Received towpath messages that wait in their slots, and slots freed since the last control flit. -/
  rxMsgs : List TMsg := []
  tpFreed : Nat := 0
  expLseq : Nat := 0
  tpExp : Nat := 0
  /-- A gap in LSEQ that a NACK has been sent for, and when (R318). -/
  gap : Bool := false
  tpGap : Bool := false
  nackAt : Nat := 0
  nackDue : Bool := false
  tpNackDue : Bool := false
  /-- A control flit is due, and when the last one was sent (R316). -/
  ctlDue : Bool := false
  lastCtl : Nat := 0
  resyncDue : Bool := false
  /-- Packet bytes are discarded up to the next FIRST (R307). -/
  discarding : Bool := false
  /-- When uncorrectable codewords came within the last millisecond (R320). -/
  ueTimes : List Nat := []
  /-- Lanes whose overload detector is asserted, and since when. -/
  overload : Nat := 0
  overloadAt : Nat := 0
  /-- When the running retrain attempt began, its cause, and the times of the retrains of the last second. -/
  attemptAt : Nat := 0
  retrainCause : Nat := 0
  retrainTimes : List Nat := []
  /-- The running retrain counts no failure (R349). -/
  noFail : Bool := false
  /-- The replay buffers were released since the port was last UP (R323). -/
  released : Bool := false
  /-- ROUTE_DROP has been written in this episode. -/
  dropLogged : Bool := false
  hbCount : Nat := 0
  hbSentAt : Nat := 0
  /-- ID_VALID and LEVEL of the port's own last heartbeat. -/
  ownHb : Option (Bool × Nat) := none
  lastHb : Nat := 0
  /-- A valid heartbeat has arrived since the port last trained. -/
  hbRx : Bool := false
  levelLogged : Bool := false
  /-- When PARK was sent (R346). -/
  parkAt : Option Nat := none
  /-- SLEEP REQ has been sent. -/
  sleepReq : Bool := false
  /-- The port sleeps once its ACK has gone out (R347). -/
  sleepAck : Bool := false
  tSleep : Nat := 0
  waking : Bool := false
  /-- When the port last sent or received anything but heartbeats and control flits. -/
  lastActive : Nat := 0
  /-- The partner takes its time from this package through this port (R347). -/
  timeChild : Bool := false
  lastTx : TxFlit := .idle
  /-- A LOOPBACK of the port in progress: command, mode, when it began, the state before it (R655). -/
  loop : Option (Nat × Nat × Nat × PortState) := none
  deriving DecidableEq, Repr

/-- A hub die's routing chamber (R335): GENERATION and the entries of both banks, word and complement. -/
structure RouteChamber where
  gen : Nat := 0
  active : Nat := 0
  bank0 : Tab (Nat × Nat) := []
  bank1 : Tab (Nat × Nat) := []
  /-- Firmware's own copy. -/
  copy : Tab Nat := []
  deriving DecidableEq, Repr

/-- The canal links (10). -/
structure Link where
  ports : Tab Port := []
  hub0 : RouteChamber := {}
  hub1 : RouteChamber := {}
  /-- Every laser is held off (R305, R579). -/
  lasersOff : Bool := true
  /-- MSG_ID of the next towpath message. -/
  msgId : Nat := 0
  /-- Canal packets delivered to this package and not yet taken by their owners, oldest first. -/
  inbox : List CPacket := []
  /-- Towpath messages delivered to this package: receiving port (24 for its own), message. -/
  msgs : List (Nat × TMsg) := []
  /-- PORT_CTL PARK commands that wait: command, ports. -/
  parks : List (Nat × List Nat) := []
  deriving DecidableEq, Repr

end Sys2Proof.Machine
end

