-- ==== Sys2Proof/Machine/StateMem.lean ====
section
/-! DEFINITION. State of the memory tiers (07), of the on-chip memories (04, 06) and of partitions (15). -/

namespace Sys2Proof.Machine

/-- A stored page-table entry and its complement (R218, Table 7.4). -/
structure Pte where
  word : Nat := 0
  comp : Nat := 2 ^ 64 - 1
  /-- Firmware's own copy of the mapping. -/
  copy : Nat := 0
  deriving DecidableEq, Repr

/-- Whose a frame is (R222, R225). -/
inductive FrameState where
  /-- Free and zero. -/
  | free
  /-- In the zero queue. -/
  | queued
  /-- Held by a partition. -/
  | owned (part : Nat)
  deriving DecidableEq, Repr

/-- A write held at the translation of a FRESH page (R226). -/
structure HeldWrite where
  part : Nat
  va : Nat
  data : List Byte
  poison : Bool
  /-- When it arrived. -/
  at_ : Nat
  /-- A host's write: the PCIe port, the aperture and the offset in it (R223). -/
  host : Option (Nat × Nat × Nat)
  deriving DecidableEq, Repr

/-- A line in a way of a memory-side cache (R227): device address / 128, and whether it has been written since it was filled. -/
structure CacheLine where
  way : Nat
  line : Nat
  dirty : Bool
  deriving DecidableEq, Repr

/-- A request that waits for the restore of its granule (Table 7.7): the address, and the bytes of a write. -/
structure HeldReq where
  addr : Nat
  data : Option (List Byte)
  poison : Bool
  deriving DecidableEq, Repr

/-- MEM_STATE.STATE (Table 7.13). -/
inductive UnitState where
  | training | service | relocated | lost | test
  deriving DecidableEq, Repr

/-- One controller's MEM page (Tables 7.12 to 7.15). -/
structure MemCtrl where
  state : UnitState := .training
  temp : Nat := 0
  /-- 0 is 1×, 1 is 2×, 2 is 4×. -/
  refresh : Nat := 0
  /-- Since when the temperature has stayed 3 °C below 95 °C, and below 85 °C (R236). -/
  cool95 : Option Nat := none
  cool85 : Option Nat := none
  ce : Nat := 0
  ue : Nat := 0
  rows : Nat := 0
  lanes : Nat := 0
  twinFailed : Nat := 0
  twinDone : Nat := 0
  bytesRd : Nat := 0
  bytesWr : Nat := 0
  /-- When the last uncorrectable lines came, at most 64 of them, newest first (R240). -/
  ueTimes : List Nat := []
  retrainFails : Nat := 0
  lbDuration : Nat := 0
  lbMode : Nat := 0
  lbRunning : Bool := false
  lbStart : Nat := 0
  lbStatus : Nat := 0
  lbErr : Nat := 0
  tgBurst : Nat := 0
  tgBypass : Bool := false
  tgPattern : Nat := 0
  tgOp : Nat := 0
  tgErr : Bool := false
  tgDone : Bool := false
  tgBusy : Bool := false
  /-- STOP written during the run (Table 7.15). -/
  tgStop : Bool := false
  tgBase : Nat := 0
  tgLen : Nat := 0
  tgSeed : Nat := 0x7FFFFFFF
  tgFixed : Nat := 0
  tgErrors : Nat := 0
  tgFerr : Nat := 0
  tgXor : Nat := 0
  tgLoops : Nat := 1
  tgLines : Nat := 0
  deriving DecidableEq, Repr

/-- The memory tiers (07). Memory is keyed by device physical address; an unlisted byte reads zero (R245). -/
structure Mem where
  bytes : Tab Byte := []
  /-- Poison marks by line (address / 64); `none` follows the unit: poisoned when the unit was lost (R240). -/
  marks : Tab (Option Bool) := []
  /-- Page-table entries of the three levels, keyed by partition, level and index prefix. -/
  pt : Tab Pte := []
  /-- Frames by frame number (address / 2^21). -/
  frames : Tab FrameState := []
  /-- Queued frames in the order the package zeroes them. -/
  zeroQueue : List Nat := []
  heldWrites : List HeldWrite := []
  /-- Way masks of partitions (R228). -/
  wayMask : Tab Nat := []
  /-- Twin table: tier-1 frame to tier-2 frame (R229). -/
  twins : Tab (Option Nat) := []
  /-- Granules (address / 4096) that have given an uncorrectable error before (R231). -/
  twinOnce : Tab Bool := []
  /-- Bound apertures j to APERTURE_VA (R223). -/
  apertures : Tab (Option Nat) := []
  stackReserve : Bool := false
  tier2Reserve : Bool := false
  /-- The lost logical unit of tier 1 and of tier 2 (R240). -/
  lost1 : Option Nat := none
  lost2 : Option Nat := none
  /-- The same, when the granules of the lost unit read as poisoned until they are written; a unit lost before READY leaves
  zeros (R245). -/
  dead1 : Option Nat := none
  dead2 : Option Nat := none
  /-- The memory-side caches (R227): the lines of a set, key 32,768 × hub die + set. Their data stand in `bytes`, which holds
  what a read returns. -/
  cache : Tab (List CacheLine) := []
  /-- Granules (address / 4096) under restore from the twin, with the requests that wait, oldest first (Table 7.7). -/
  heldGran : Tab (Option (List HeldReq)) := []
  /-- Tier-1 frames that hold firmware's own structures: the 2 GiB of the translation cache (R156) and the rest (R222). -/
  fwFrames : Nat := 1024
  ctrls : Tab MemCtrl := []
  /-- LOOPBACK and TRAFFIC_GEN commands acting on a unit or tier: command number, unit (100 + tier for a tier). -/
  tests : List (Nat × Nat) := []
  /-- Data and EP bit of the last BAR2 read, and whether it ended in a Completer Abort (R223). -/
  bar2Data : List Byte := []
  bar2Ep : Bool := false
  bar2Abort : Bool := false
  /-- PCIe ports that have recorded a Completer Abort under AER (R223). -/
  aer : Tab Bool := []
  /-- Pools, key core * 2^19 + offset (R109). -/
  pool : Tab Byte := []
  /-- Basins, key reach * 2^23 + offset (R169). -/
  basin : Tab Byte := []
  /-- Uncorrectable 64-bit pool words by key / 8 (R110). -/
  poolUe : Tab Bool := []
  /-- Dirty 4 KiB blocks of pools and basins by key / 4096 (R511). -/
  dirtyPool : Tab Bool := []
  dirtyBasin : Tab Bool := []
  deriving DecidableEq, Repr

/-- STATE of a partition-table entry (Table 15.2). -/
inductive PartState where
  | free | idle | running | evicting | evicted | resuming | destroying
  deriving DecidableEq, Repr

/-- A regulator word (Table 15.8). -/
structure Regulator where
  fixed : Bool := false
  rate : Nat := 0xFFFFFF
  burst : Nat := 64
  deriving DecidableEq, Repr

/-- A partition-table entry (Table 15.2). -/
structure Partition where
  state : PartState := .free
  dbgMax : Nat := 0
  dbgPerm : Nat := 0
  arbClass : Nat := 0
  jobId : Nat := 0
  /-- Bit k: slice k held. -/
  slices : Nat := 0
  home : Nat := 0
  portGrant : Nat := 0
  t1Budget : Nat := 0
  t2Budget : Nat := 0
  fixLatNs : Nat := 0
  ptRoot : Nat := 0
  saveBase : Nat := 0
  /-- Regulator words of resources 0 to 4. -/
  reg0 : Regulator := {}
  reg1 : Regulator := {}
  reg2 : Regulator := {}
  reg3 : Regulator := {}
  reg4 : Regulator := {}
  /-- The stored complement ENTRY_C no longer matches (R503). -/
  pairBad : Bool := false
  /-- Firmware's own copy in the MRAM is bad as well. -/
  copyBad : Bool := false
  deriving DecidableEq, Repr

/-- One bucket's live state (R515, R516, Table 15.9). -/
structure Bucket where
  tokens : Int := 0
  waitNs : Nat := 0
  /-- Bytes charged (Table 15.13). -/
  bytes : Nat := 0
  /-- Fixed-share mode: when the next slot opens. -/
  nextSlot : Nat := 0
  deriving DecidableEq, Repr

/-- A partition's meters and regulator page (R517, R521). -/
structure Meters where
  b0 : Bucket := {}
  b1 : Bucket := {}
  b2 : Bucket := {}
  b3 : Bucket := {}
  b4 : Bucket := {}
  fixLate : Nat := 0
  regulatedCmds : Nat := 0
  t1Frames : Nat := 0
  t2Frames : Nat := 0
  sliceUs : Nat := 0
  energyMj : Nat := 0
  /-- Snapshot of SLICE_US, the five byte counters and ENERGY_MJ. -/
  snap : List Nat := [0, 0, 0, 0, 0, 0, 0]
  minute : Nat := 0
  deriving DecidableEq, Repr

/-- STATE of a common berth (Table 15.11). -/
inductive BerthRec where
  | free | ready | degraded | retired
  deriving DecidableEq, Repr

/-- A common-berth record (Table 15.11). -/
structure CommonBerth where
  state : BerthRec := .free
  restores : Nat := 0
  pages : Nat := 0
  va : Nat := 0
  /-- Bit p - 1: partition p maps the berth. -/
  readers : Nat := 0
  poisoned : Nat := 0
  deriving DecidableEq, Repr

/-- Whose request waits: a command; the next command of a core's engine; chunk `k` of a stream as a core names it; unit `u` of a
quay run on an engine; a BAR2 access of a port; the debug port's transfer. -/
inductive Waiter where
  | cmd (id : Nat)
  | core (c : Nat) (e : Engine) (num : Nat)
  | stream (c n k : Nat)
  | quay (e cmd u : Nat)
  | bar2 (port addr : Nat) (write : Bool)
  | debug (va : Nat)
  deriving DecidableEq, Repr

/-- A request that cannot proceed waits at its source on the buckets that have no tokens (R515). -/
structure BucketWait where
  who : Waiter
  part : Nat
  res : List Nat
  /-- From when the wait is still to be counted. -/
  since : Nat
  deriving DecidableEq, Repr

/-- Partitions, regulators, meters and common berths (15). -/
structure Tenancy where
  parts : Tab Partition := []
  meters : Tab Meters := []
  berths : Tab CommonBerth := []
  /-- When the buckets were last refilled, on the model's clock (R515). -/
  refillAt : Nat := 0
  /-- Requests that wait on buckets. -/
  waits : List BucketWait := []
  deriving DecidableEq, Repr

end Sys2Proof.Machine
end

