-- ==== Sys2Proof/Machine/StateQuay.lean ====
section
/-! DEFINITION. State of the quay engines (08): program slots, run queues, units in progress, windows. -/

namespace Sys2Proof.Machine

/-- A program slot that a partition holds (R257). -/
structure QProg where
  part : Nat
  words : List Nat
  deriving DecidableEq, Repr

/-- One entry of the stream table (Table 8.6). -/
structure QStream where
  cls : Nat := 0
  scaleEn : Bool := false
  tiled : Bool := false
  enable : Bool := false
  fmt : Nat := 0
  dim0 : Nat := 0
  base : Nat := 0
  scaleAddr : Nat := 0
  deriving DecidableEq, Repr

/-- An accepted QUAY_RUN (R259 to R267). -/
structure QRun where
  cmd : Nat
  part : Nat
  /-- 0 tier 1, 1 tier 2: the home stream's tier. -/
  tier : Nat
  slot : Nat
  words : List Nat
  block : Bool
  /-- log2 of B in BLOCK mode. -/
  blog : Nat
  home : Nat
  elemBase : Nat
  count : Nat
  streams : List QStream
  params : List Nat
  rng : Option RngCtx
  began : Bool
  /-- Work units completed. -/
  done : List Nat
  /-- Units whose outputs hold poison; the lowest poisoned output element. -/
  poisoned : Nat
  first : Option Nat
  flags : Nat
  deriving DecidableEq, Repr

/-- A lane of an element register: its code and its poison bit. -/
structure Lane where
  code : Nat
  poison : Bool
  deriving DecidableEq, Repr

/-- A work unit in progress on an engine (R248, R262): what was read, and what the program has done. -/
structure QUnit where
  cmd : Nat
  unit : Nat
  /-- Elements of the unit: first local index and number. -/
  first : Nat
  n : Nat
  /-- The elements of each input, as read before any output is written. -/
  inputs : List (List Lane)
  /-- Index of the next instruction. -/
  pc : Nat
  /-- Registers v0 to v15: format tag (true W58) and lanes; none before the first write. -/
  regs : Tab (Option (Bool × List Lane))
  /-- Output elements to be stored: output, codes with poison, and whether the block scale applies. -/
  outs : List (Nat × List Lane)
  /-- Block scale: exponent, scale byte, poison, target format. -/
  scale : Option (Int × Nat × Bool × Nat)
  /-- Scale bytes to be stored: output, byte, poison. -/
  scales : List (Nat × Nat × Bool)
  flags : Nat
  deriving DecidableEq, Repr

/-- An engine page (Table 8.14) with the unit in progress. -/
structure QEngine where
  part : Nat := 0
  slot : Nat := 0
  /-- The engine is being reset by the lengthsman (R278). -/
  reset : Bool := false
  work : Option QUnit := none
  units : Nat := 0
  accAdds : Nat := 0
  beats : Nat := 0
  remoteBytes : Nat := 0
  checkRetry : Nat := 0
  bites : Nat := 0
  poisonUnits : Nat := 0
  deriving DecidableEq, Repr

/-- An open accumulate-at-memory window (R268, R269). -/
structure Window where
  part : Nat
  view : Nat
  acc : Nat
  count : Nat
  inFmt : Nat
  accFmt : Nat
  deriving DecidableEq, Repr

/-- The quay engines (08). -/
structure Quay where
  slots : Tab (Option QProg) := []
  /-- Accepted runs of both tiers, in order of acceptance. -/
  runs : List QRun := []
  engines : Tab QEngine := []
  windows : Tab (Option Window) := []
  deriving DecidableEq, Repr

end Sys2Proof.Machine
end

