-- ==== Sys2Proof/Machine/StateServ.lean ====
section
/-! DEFINITION. State of serving (14): models, the active sequence table, the SERV block. -/

namespace Sys2Proof.Machine

/-- A model record (Table 14.1). -/
structure ModelRec where
  modelId : Nat := 0
  noticeType : Nat := 0
  noticeQueue : Nat := 0
  leadCore : Nat := 0
  slices : Nat := 0
  maxStepTokens : Nat := 1
  maxPrefill : Nat := 0
  chunk : Nat := 1
  maxRows : Nat := 1
  wlVa : Nat := 0
  outVa : Nat := 0
  endVa : Nat := 0
  endLog2 : Nat := 0
  geometry : Nat := 0
  poolVa : Nat := 0
  listVa : Nat := 0
  blockBytes : Nat := 0
  blockTokens : Nat := 16
  listLen : Nat := 1
  blocks : Nat := 1
  maxSeqs : Nat := 1
  estUs : Nat := 0
  guardUs : Nat := 0
  deriving DecidableEq, Repr

/-- STATE of a model page (Table 14.12), but for UNBOUND. -/
inductive ModelState where
  | waiting | stepping | boundary
  deriving DecidableEq, Repr

/-- A row of a work list (Table 14.5). -/
structure ServRow where
  ast : Nat
  seqId : Nat
  fallback : Bool
  emit : Bool
  decode : Bool
  pos : Nat
  count : Nat
  kvList : Nat
  inVa : Nat
  deriving DecidableEq, Repr

/-- A model slot (R474 to R476, Table 14.12). -/
structure ModelSlot where
  bound : Bool := false
  part : Nat := 0
  slices : Nat := 0
  cfg : ModelRec := {}
  /-- The KV pool that the model draws on; models bound as primary and fallback share one (R489). -/
  pool : Nat := 0
  fallback : Option Nat := none
  state : ModelState := .waiting
  /-- STEP of the next work list; the running or last step is the one before it. -/
  next : Nat := 0
  rows : List ServRow := []
  noticeAt : Nat := 0
  /-- The last 16 step times in nanoseconds, newest first (R490). -/
  times : List Nat := []
  lastNs : Nat := 0
  steps : Nat := 0
  tokens : Nat := 0
  fbTokens : Nat := 0
  switches : Nat := 0
  missed : Nat := 0
  kvWaits : Nat := 0
  ends : Nat := 0
  faultSteps : Nat := 0
  /-- A core has ended FAULTED: the cause (R495). -/
  broken : Option Nat := none
  /-- The running step lost data and is to be replayed (R572). -/
  replay : Bool := false
  /-- The running step is a replay. -/
  replayed : Bool := false
  /-- The UNBIND that waits for the cores to halt. -/
  closing : Option Nat := none
  deriving DecidableEq, Repr

/-- STATE of an AST entry (Table 14.3), but for FREE. -/
inductive SeqState where
  | pending | prefill | decode | retiring
  deriving DecidableEq, Repr

/-- An AST entry that is not FREE (Table 14.3), with what the controller knows of its KV list. -/
structure AstEntry where
  seqId : Nat
  part : Nat
  slot : Nat
  missed : Bool := false
  atRisk : Bool := false
  committed : Bool := false
  fallback : Bool := false
  cls : Nat
  state : SeqState := .pending
  kvList : Nat
  modelId : Nat
  position : Nat := 0
  promptLen : Nat
  gen : Nat := 0
  maxNew : Nat
  targetGen : Nat := 0
  deadline : Nat := 0
  promptVa : Nat
  outVa : Nat
  admitSeq : Nat
  fbTokens : Nat := 0
  /-- GUARD_US of the primary model. -/
  guardUs : Nat
  /-- Blocks that the KV list names, by word. -/
  blocks : List Nat := []
  /-- Blocks reserved at admission that the list does not name yet (R482). -/
  reserved : Nat := 0
  /-- The AST_RETIRE that waits for the boundary. -/
  cmd : Option Nat := none
  deriving DecidableEq, Repr

/-- The serving controller and the SERV block (14). -/
structure Serv where
  models : Tab ModelSlot := []
  /-- AST entries; an unlisted one is FREE. -/
  ast : Tab (Option AstEntry) := []
  /-- Accepted AST_ADMIT commands. -/
  admits : Nat := 0
  quotas : Tab Nat := []
  quotaReject : Bool := false
  deriving DecidableEq, Repr

end Sys2Proof.Machine
end

