-- ==== Sys2Proof/Machine/StateStage.lean ====
section
/-! DEFINITION. State of pipeline stages (11) and of the training services (13): stage records, barges, berths,
steps, plans, laggard sets, checkpoints. -/

namespace Sys2Proof.Machine

/-- A ring entry of a stage record (Table 11.1). -/
structure RingEnt where
  va : Nat := 0
  slotBytes : Nat := 8192
  depth : Nat := 1
  deriving DecidableEq, Repr

/-- A stage record (Table 11.1). -/
structure StageRec where
  spare : Bool := false
  pipe : Nat := 0
  stage : Nat := 0
  /-- P and V. -/
  p : Nat := 1
  v : Nat := 1
  noticeType : Nat := 0
  noticeQueue : Nat := 0
  /-- NOTICE_AHEAD_M1 + 1. -/
  ahead : Nat := 1
  leadCore : Nat := 0
  markInterval : Nat := 0
  restorePorts : Nat := 1
  spareEn : Bool := false
  sparePkg : Nat := 0
  upPkg : Nat := 0
  downPkg : Nat := 0
  buddyPkg : Nat := 0xFFFFF
  sparePart : Nat := 0
  buddyPart : Nat := 0
  downPart : Nat := 0
  upPart : Nat := 0
  slices : Nat := 0
  inFwd : RingEnt := {}
  inBwd : RingEnt := {}
  retFwd : RingEnt := {}
  retBwd : RingEnt := {}
  gradVa : Nat := 0
  gradCount : Nat := 0
  berthBytes : Nat := 0
  buddyVa : Nat := 0
  deriving DecidableEq, Repr

/-- States of a berth (Table 11.8). -/
inductive BerthState where
  | free | loading | ready | current | live
  deriving DecidableEq, Repr

/-- One of a stage's eight berths (R385). -/
structure Berth where
  state : BerthState := .free
  version : Nat := 0
  /-- VERSION_C, which forms a pair with VERSION (R385, R9). -/
  versionC : Nat := 0xFFFFFFFF
  refs : Nat := 0
  va : Nat := 0
  currentOnDone : Bool := false
  /-- The PUBLISH that waits for the mirror. -/
  cmd : Option Nat := none
  /-- Poisoned, and being copied back from its mirror (R387). -/
  restoring : Bool := false
  deriving DecidableEq, Repr

/-- A barge in an inbound slot (R372, R373). -/
structure InBarge where
  bseq : Nat
  /-- The descriptor's 16 words; empty until it has come. -/
  desc : List Nat
  /-- Packet indices that have come. -/
  got : List Nat
  accepted : Bool
  deriving DecidableEq, Repr

/-- A stream as its receiver keeps it (R367, R369, R372). -/
structure InStream where
  /-- IN_NEXT. -/
  next : Nat := 0
  /-- RELEASED. -/
  released : Nat := 0
  /-- BSEQ of the next barge that an entry takes. -/
  used : Nat := 0
  barges : List InBarge := []
  /-- SEAL of each accepted barge, by BSEQ. -/
  seals : List (Nat × Nat) := []
  /-- BSEQs whose micro-batch has committed here. -/
  committed : List Nat := []
  deriving DecidableEq, Repr

/-- A sealed barge that its sender retains (R391). -/
structure OutBarge where
  bseq : Nat
  /-- Address of its retained slot. -/
  va : Nat
  desc : List Nat
  sent : Bool
  sentAt : Nat
  accepted : Bool
  /-- The step (command number) and micro-batch that it belongs to. -/
  step : Nat
  mb : Nat
  deriving DecidableEq, Repr

/-- A stream as its sender keeps it, by the chunk that it leaves. -/
structure OutStream where
  /-- OUT_NEXT. -/
  next : Nat := 0
  /-- The receiver's RELEASED. -/
  released : Nat := 0
  retained : List OutBarge := []
  deriving DecidableEq, Repr

/-- A micro-batch of a chunk, from its first notice to the end of its step (R384, R385, R392). -/
structure MbRec where
  step : Nat
  mb : Nat
  v : Nat
  eval : Bool
  tag : Nat
  berth : Nat
  /-- Barges received for it: in-stream key, BSEQ. -/
  recv : List (Nat × Nat)
  /-- Barges sealed for it: out-stream key, BSEQ. -/
  sent : List (Nat × Nat)
  fwdDone : Bool
  backDone : Bool
  /-- The mark that covers it. -/
  mark : Option Nat
  committed : Bool
  deriving DecidableEq, Repr

/-- A notified entry that is not DONE (R377). -/
structure Notice where
  entry : Nat
  /-- The inbound barge that it takes: in-stream key, BSEQ. -/
  inb : Option (Nat × Nat)
  /-- The barge that it sends: out-stream key, BSEQ, address of the slot. -/
  out : Option (Nat × Nat × Nat)
  isSealed : Bool
  deriving DecidableEq, Repr

/-- A STEP_RUN of a stage (R394, R395). -/
structure StepRun where
  /-- Number of the command; 0 for the step that a takeover runs. -/
  cmd : Nat
  eval : Bool
  step : Nat
  version : Nat
  deadline : Option Nat
  timeoutUs : Nat
  inputVa : Nat
  started : Bool
  /-- The next entry to be notified or performed. -/
  next : Nat := 0
  notices : List Notice := []
  /-- BERTH_MISSING has been written for the next entry. -/
  missing : Bool := false
  dups0 : Nat := 0
  takeovers : Nat := 0
  peerLost : Bool := false
  /-- A neighbour is lost and nothing replaces it (R397, R398). -/
  peerGone : Bool := false
  timedOut : Bool := false
  aborted : Bool := false
  /-- The step stops because its entries can go no further. -/
  stuck : Bool := false
  takenOver : Bool := false
  /-- Stream counters at the start: keys and values, in then out (R388, R396). -/
  start : List (Nat × Nat) := []
  nFwd : Nat := 0
  nBwdIn : Nat := 0
  nBwdW : Nat := 0
  committed : Nat := 0
  /-- Micro-batches (mb, chunk) that a takeover skips, and the entry of the mark that it resumes from. -/
  skip : List (Nat × Nat) := []
  coverEntry : Nat := 0
  deriving DecidableEq, Repr

/-- A takeover or restart in progress (Table 11.13, R571). -/
structure Takeover where
  lostPkg : Nat
  /-- When it began. -/
  since : Nat
  /-- 0 for a takeover; the record code of the cause for a restart. -/
  cause : Nat
  /-- Mark image bytes read back: address, bytes. -/
  image : List (Nat × List Byte) := []
  /-- Directory and control area bytes read back. -/
  control : List (Nat × List Byte) := []
  /-- RESEND_FROM values: in-stream key, lowest retained BSEQ, count, the neighbour's IN_NEXT. -/
  resent : List (Nat × Nat × Nat × Nat) := []
  stopped : Bool := false
  /-- The shards have been asked for (R463). -/
  shards : Bool := false
  /-- The steps of a stage that restarts (R571). -/
  kept : List StepRun := []
  deriving DecidableEq, Repr

/-- A service record (Table 13.1). -/
structure Svc where
  seed : Nat := 0
  /-- STEP as firmware last wrote it. -/
  step : Nat := 0
  va : Nat := 0
  listVa : Nat := 0
  listCount : Nat := 0
  recordLog2 : Nat := 1
  recordVa : Nat := 0
  lagSteps : Nat := 3
  lagSet : Nat := 0
  collector : Nat := 0
  lagEn : Bool := false
  lagThresh : Nat := 30
  slotBytes : Nat := 0
  /-- The record's own words. -/
  words : List Nat := []
  deriving DecidableEq, Repr

/-- PLAN_STATE (Table 13.5). -/
inductive PlanState where
  | none | loaded | running | stopped
  deriving DecidableEq, Repr

/-- A step plan (R442 to R445). -/
structure Plan where
  state : PlanState := .none
  /-- Entries of 32 words. -/
  entries : List (List Nat) := []
  firstStep : Nat := 0
  /-- Steps still to run after the running one; none without end. -/
  left : Option Nat := none
  /-- STOP has come. -/
  stopAsked : Bool := false
  step : Nat := 0
  /-- The next entry of the running step. -/
  next : Nat := 0
  /-- Entries in flight: entry, command number, step of issue. -/
  flying : List (Nat × Nat × Nat) := []
  /-- An entry ended with another status than DONE: entry, opcode, status. -/
  bad : Option (Nat × Nat × Nat) := none
  startNs : Nat := 0
  /-- Phase times, ACT and WT bytes at the step's beginning. -/
  phases0 : List Nat := []
  act0 : Nat := 0
  wt0 : Nat := 0
  evalRan : Bool := false
  takeovers : Nat := 0
  nFwd : Nat := 0
  nBwdIn : Nat := 0
  nBwdW : Nat := 0
  /-- COLL_SEQ taken by the collectives issued: entry, number. -/
  collSeqs : List (Nat × Nat) := []
  /-- The step is one that a spare took over (R463): the STEP of each checkpointed shard, by list index. -/
  resumed : Option (List (Nat × Nat)) := none
  deriving DecidableEq, Repr

/-- A step record that waits for its verdict (R451): its 32 words and when the step ended. -/
structure StepRecord where
  step : Nat
  words : List Nat
  endAt : Nat
  deriving DecidableEq, Repr

/-- What a CKPT packet in flight serves. -/
inductive CkptUse where
  /-- The mirror of berth `b` of a stage slot. -/
  | berth (slot b : Nat)
  /-- The mark image. -/
  | mark (slot n : Nat)
  /-- Plan and service record. -/
  | control (slot : Nat)
  /-- A CKPT_BUDDY WRITE: DATA of the running group, its DIR, or the header. -/
  | write (slot : Nat)
  /-- Reads: a berth copied back, a takeover's image and control area, a drain, a RESTORE. -/
  | berthBack (slot b va : Nat)
  | image (slot off : Nat)
  | area (slot off : Nat)
  | shard (slot va : Nat)
  | drain (cmd off : Nat)
  | restore (cmd off : Nat)
  deriving DecidableEq, Repr

/-- A CKPT packet that waits for its reply (R456). -/
structure CkptSent where
  tag : Nat
  object : Nat
  dst : Nat
  what : CkptUse
  deriving DecidableEq, Repr

/-- A CKPT_BUDDY WRITE in progress (Table 13.12). -/
structure CkptWrite where
  cmd : Nat
  part : Nat
  step : Nat
  header : List Byte
  /-- Groups still to be written: list indices. -/
  groups : List (List Nat)
  /-- The group in hand: list index, slot. -/
  cur : List (Nat × Nat)
  /-- 0 DATA, 1 DIR, 2 header. -/
  stage : Nat
  shards : Nat
  bytes : Nat
  deriving DecidableEq, Repr

/-- A CKPT_DRAIN or a RESTORE from the buddy in progress: bytes read so far by offset in the checkpoint region. -/
structure CkptJob where
  cmd : Nat
  slot : Nat
  drain : Bool
  path : Path
  part : Nat
  /-- 0 waits, 1 reads the control area, 2 reads the slots. -/
  stage : Nat
  /-- Host extents: bus address, length. -/
  extents : List (Nat × Nat)
  /-- What has come: offset, bytes, poison. -/
  data : List (Nat × List Byte × Bool)
  /-- Checkpoint slots that are still to be read. -/
  unread : List Nat
  deriving DecidableEq, Repr

/-- What firmware knows of a stage's checkpoint region (R458): the directory that it has written. -/
structure CkptDir where
  /-- Shard, slot, STEP, BYTES. -/
  entries : List (Nat × Nat × Nat × Nat) := []
  deriving DecidableEq, Repr

/-- A stage slot (R358 to R405, R441 to R471). -/
structure StageSlot where
  bound : Bool := false
  part : Nat := 0
  /-- The stage's slices, as in the record. -/
  slices : Nat := 0
  cfg : StageRec := {}
  spare : Bool := false
  epoch : Nat := 0
  /-- Epochs of the streams from the two neighbours. -/
  upEpoch : Nat := 0
  downEpoch : Nat := 0
  upLost : Bool := false
  downLost : Bool := false
  buddyGone : Bool := false
  berths : Tab Berth := []
  /-- The greatest VERSION published. -/
  maxVersion : Option Nat := none
  /-- Schedule table: entry words, U_MAX. -/
  table : Option (List Nat) := none
  uMax : Nat := 0
  /-- In-streams by 8 × DIR + VSTAGE; out-streams by 8 × DIR + the chunk that they leave. -/
  ins : Tab InStream := []
  outs : Tab OutStream := []
  mbs : List MbRec := []
  steps : List StepRun := []
  markNo : Nat := 0
  markAcked : Nat := 0
  dups : Nat := 0
  stale : Nat := 0
  diverged : Nat := 0
  probes : Nat := 0
  takeovers : Nat := 0
  sent : Nat := 0
  sentBytes : Nat := 0
  estUs : Nat := 0xFFFFFFFF
  takeover : Option Takeover := none
  /-- A restart that waits to begin: the record code of its cause (R569, R571). -/
  restart : Option Nat := none
  /-- A STEP_RUN has run since BIND. -/
  ran : Bool := false
  /-- Timer page: nanoseconds by phase code order of Table 13.5; ACT and WT bytes. -/
  phases : Tab Nat := []
  act : Nat := 0
  wt : Nat := 0
  svc : Option Svc := none
  plan : Plan := {}
  lagRun : Nat := 0
  medianUs : Nat := 0
  busyUs : Nat := 0
  records : List StepRecord := []
  /-- FWD time, entries, backward time, entries of the last step record (R399). -/
  times : Option (Nat × Nat × Nat × Nat) := none
  dir : CkptDir := {}
  write : Option CkptWrite := none
  deriving DecidableEq, Repr

/-- A set's step at the collector (R453): set, step, when its first value came, values: package, partition, PIPE_ID
and STAGE, BUSY_US; and whether it is closed. -/
structure LagStep where
  set : Nat
  step : Nat
  since : Nat
  vals : List (Nat × Nat × Nat × Nat × Nat)
  closed : Bool
  deriving DecidableEq, Repr

/-- An extent that CKPT_BUDDY ACCEPT registered (R457). -/
structure Accept where
  part : Nat
  va : Nat
  bytes : Nat
  srcPart : Nat
  srcPkg : Nat
  deriving DecidableEq, Repr

/-- The pipe controllers and training services (11, 13). -/
structure Pipe where
  slots : Tab StageSlot := []
  /-- Claims at this spare package: PIPE_ID, stage, slot (R398). -/
  claims : List (Nat × Nat × Nat) := []
  lags : List LagStep := []
  accepts : Tab (Option Accept) := []
  ckptTag : Nat := 0
  ckptSent : List CkptSent := []
  /-- What CKPT packets that found no route served. -/
  ckptFail : List CkptUse := []
  jobs : List CkptJob := []
  deriving DecidableEq, Repr

end Sys2Proof.Machine
end

