-- ==== Sys2Proof/Machine/State.lean ====
section
/-! DEFINITION. The machine's state: everything the spec gives the package, as plain data, and the state right
after reset. -/

namespace Sys2Proof.Machine

/-- Why a step stops with a fault. -/
inductive Fault where
  /-- Raised by every meaning whose command names a unit that the package does not have (a core above 1,535,
  a port above 23): such a command is no command of the table. Safe: the machine stops where the hardware has
  nothing to act on. -/
  | noSuchUnit
  deriving DecidableEq, Repr

/-- Why a command has no meaning. -/
inductive Refusal where
  /-- The arm of Dispatch.lean for a command without a meaning yet. Safe: nothing is claimed of it. -/
  | notModelled (mnemonic : String)
  deriving DecidableEq, Repr

/-- The state of the package. -/
structure State where
  pkg : Pkg := {}
  own : Own := {}
  cmd : Cmd := {}
  log : Log := {}
  pwr : Pwr := {}
  nor : Nor := {}
  dbg : Dbg := {}
  board : Board := {}
  time : Time := {}
  mem : Mem := {}
  ten : Tenancy := {}
  cpu : Cores := {}
  fab : Fabric := {}
  quay : Quay := {}
  link : Link := {}
  pipe : Pipe := {}
  coll : Collectives := {}
  serv : Serv := {}
  /-- Nanoseconds that the package has run, counted by idle steps. -/
  clk : Nat := 0
  /-- The number of the next free value (R547, R551). -/
  fresh : Nat := 0
  /-- Waiting commands, first in first out. -/
  pending : List Instr := []
  deriving DecidableEq, Repr

/-- What a meaning answers. -/
abbrev Out := Host.Outcome State Fault Refusal

/-- The machine right after cold reset, before start-up has run: every field at the value the spec states for
reset, or at the value of the assumption log. -/
def State.reset : State := {}

end Sys2Proof.Machine
end

