-- ==== Sys2Proof/Machine/Access.lean ====
section
/-! DEFINITION. Named accessors over partitions, page tables and memory: translation (R171, R217, R218), reads and
writes of extents with poison (R124, R224 to R226, R232 to R234), metering (R514, R515). -/

namespace Sys2Proof.Machine

/-! ### Accessors -/

def State.part (s : State) (p : Nat) : Partition := s.ten.parts.get {} p
def State.updPart (s : State) (p : Nat) (f : Partition → Partition) : State :=
  { s with ten := { s.ten with parts := s.ten.parts.upd {} p f } }
/-- Firmware found its own copy of a partition's entry bad as well, and has left the partition EVICTED with every slice free
(R503). -/
def Partition.lost (e : Partition) : Bool := e.pairBad && e.copyBad && e.state == .evicted && e.slices == 0 && e.home == 0
/-- A partition's entry fails its pair check and firmware has not rewritten it yet: every request and command whose check needs
it is held (R503). -/
def State.entryHeld (s : State) (p : Nat) : Bool := (s.part p).pairBad && !(s.part p).lost
/-- The partition's job is being saved, is saved, or is being restored: its cores do nothing (Table 15.5). -/
def State.held (s : State) (p : Nat) : Bool :=
  (s.part p).state == .evicting || (s.part p).state == .evicted || (s.part p).state == .resuming
def State.meter (s : State) (p : Nat) : Meters := s.ten.meters.get {} p
def State.updMeter (s : State) (p : Nat) (f : Meters → Meters) : State :=
  { s with ten := { s.ten with meters := s.ten.meters.upd {} p f } }
def State.core (s : State) (c : Nat) : Core := s.cpu.cores.get {} c
def State.setCore (s : State) (c : Nat) (k : Core) : State :=
  { s with cpu := { s.cpu with cores := s.cpu.cores.put {} c k } }
def State.updCore (s : State) (c : Nat) (f : Core → Core) : State := s.setCore c (f (s.core c))
def State.ctrl (s : State) (u : Nat) : MemCtrl := s.mem.ctrls.get {} u
def State.updCtrl (s : State) (u : Nat) (f : MemCtrl → MemCtrl) : State :=
  { s with mem := { s.mem with ctrls := s.mem.ctrls.upd {} u f } }

def State.reach (s : State) (r : Nat) : Reach := s.fab.reaches.get {} r
def State.updReach (s : State) (r : Nat) (f : Reach → Reach) : State :=
  { s with fab := { s.fab with reaches := s.fab.reaches.upd {} r f } }

/-- The physical index of logical core `c` in its reach (R132). -/
def State.physIndex (s : State) (c : Nat) : Nat := (s.cpu.remap.get none c).getD (c % 16)
/-- The physical core number, 17 × reach + index (R132). -/
def State.physCore (s : State) (c : Nat) : Nat := 17 * (c / 16) + s.physIndex c
/-- Logical core `c` is mapped (R570). -/
def State.mapped (s : State) (c : Nat) : Bool := !(s.cpu.unmapped.get false c)

/-- The partition that holds slice `k` (R501), or 0. -/
def State.sliceOwner (s : State) (k : Nat) : Nat :=
  match listFind (fun e => bit e.2.slices k) s.ten.parts with
  | some e => e.1
  | none => 0

/-- The partition of logical core `c`. -/
def State.coreOwner (s : State) (c : Nat) : Nat := s.sliceOwner (c / 8)

/-- The die of logical core `c`. -/
def coreDie (c : Nat) : Nat := c / 256

/-! ### Address map (R215, R185, R216) -/

def tier1Frames : Nat := 366192
def tier1Lower : Nat := 335676
def tier2Frames : Nat := 1048576
def tier2Lower : Nat := 983040
def tier2Base : Nat := 0x100000000000
def tier2Frame0 : Nat := tier2Base / 2 ^ 21

/-- The tier of a device physical address: 0 is tier 1, 1 is tier 2. -/
def tierOf (dpa : Nat) : Nat := if dpa ≥ tier2Base then 1 else 0

/-- A frame number (address / 2^21) names a frame of a tier. -/
def frameExists (f : Nat) : Bool :=
  decide (f < tier1Frames) || (decide (tier2Frame0 ≤ f) && decide (f < tier2Frame0 + tier2Frames))

/-- A frame lies in the upper band of its tier (Table 7.2). -/
def upperBand (f : Nat) : Bool :=
  if f < tier2Frame0 then decide (tier1Lower ≤ f) else decide (tier2Frame0 + tier2Lower ≤ f)

/-- The logical unit, as a MEM page number, that holds a device physical address (R185, R216). -/
def memUnit (dpa : Nat) : Nat :=
  if dpa ≥ tier2Base then 12 + (dpa - tier2Base) / 4096 % 16 else dpa / 4096 % 12

/-- The logical units of a tier of `n` but for `k`, ascending. -/
def survivors (n k : Nat) : List Nat := (List.range n).filter (· != k)

/-- The unit that physically holds a device address, and its row there in 4 KiB: after a loss, a granule of the lost unit lies on
a survivor (R240). -/
def Mem.placeOf (m : Mem) (dpa : Nat) : Nat × Nat :=
  let u := memUnit dpa
  if dpa ≥ tier2Base then
    let i := (dpa - tier2Base) / 65536
    if m.lost2 = some (u - 12) then (12 + (survivors 16 (u - 12)).getD (i % 15) 0, 31457280 + i / 15) else (u, i)
  else
    let i := dpa / 49152
    if m.lost1 = some u then ((survivors 12 u).getD (i % 11) 0, 14322176 + i / 11) else (u, i)

/-- The unit that physically holds a device address. -/
def Mem.unitOf (m : Mem) (dpa : Nat) : Nat := (m.placeOf dpa).1

/-- The die of a memory unit (R10). -/
def unitDie (u : Nat) : Nat := if u < 12 then u / 2 else if u < 20 then 6 else 7

/-! ### Page tables (R217, R218) -/

/-- Key of a page-table entry: partition, level 1 to 3, index prefix. -/
def pteKey (part level va : Nat) : Nat :=
  (part * 4 + level) * 2 ^ 27 + va / 2 ^ (48 - 9 * level)

/-- Builds an entry word (Table 7.4). -/
def pteWord (addr : Nat) (twin shared fresh write leaf : Bool) : Nat :=
  addr / 2 ^ 13 * 2 ^ 13 + b2n twin * 64 + b2n shared * 32 + b2n fresh * 16 + b2n write * 8 + b2n leaf * 4 + 1

def mkPte (w : Nat) : Pte := ⟨w, compl64 w, w⟩
def pteValid (w : Nat) : Bool := bit w 0
def pteLeaf (w : Nat) : Bool := bit w 2
def pteWrite (w : Nat) : Bool := bit w 3
def pteFresh (w : Nat) : Bool := bit w 4
def pteShared (w : Nat) : Bool := bit w 5
def pteTwin (w : Nat) : Bool := bit w 6
def pteFrame (w : Nat) : Nat := bits w 45 21
/-- Reserved bits of an entry at a level are zero. -/
def pteResvOk (w level : Nat) : Bool :=
  bits w 63 46 == 0 && bits w 12 7 == 0 && bits w 1 1 == 0 && (decide (level < 3) || bits w 20 13 == 0)

/-- What a walk finds. -/
inductive Walk where
  | leaf (word : Nat)
  | fail
  /-- An entry's pair does not hold, at a level. -/
  | pairFault (level : Nat)
  deriving DecidableEq, Repr

/-- One level of the walk. -/
def Mem.walkFrom (m : Mem) (part va : Nat) : Nat → Nat → Walk
  | 0, _ => .fail
  | fuel + 1, level =>
    let e := m.pt.get {} (pteKey part level va)
    if !pair64 e.word e.comp then .pairFault level
    else if !pteValid e.word || !pteResvOk e.word level || pteLeaf e.word != (level == 3) then .fail
    else if level = 3 then .leaf e.word
    else Mem.walkFrom m part va fuel (level + 1)

/-- The walk of R217. -/
def Mem.walk (m : Mem) (part va : Nat) : Walk := m.walkFrom part va 3 1

/-- Where an access lands, or the cause it fails with (Table 4.6). -/
inductive Place where
  | tier (dpa : Nat)
  /-- A FRESH page: reads as zero (R224). -/
  | fresh (dpa : Nat)
  | pool (core off : Nat)
  | basin (reach off : Nat)
  /-- The view of open window `w` at byte offset `off` (R269); only writes reach it. -/
  | view (w off : Nat)
  | fail (cause : Nat)
  deriving DecidableEq, Repr

/-- The open window of a partition whose view holds `va`. -/
def Quay.viewAt (q : Quay) (part va : Nat) : Option (Nat × Nat) :=
  match listFind (fun e => match e.2 with
      | some w => w.part == part && decide (w.view ≤ va) && decide (va < w.view + w.count * (elemBits w.inFmt / 8))
      | none => false) q.windows with
  | some (n, some w) => some (n, va - w.view)
  | _ => none

/-- Translates a partition virtual address for reading or writing (R171, R218). -/
def State.translate (s : State) (part va : Nat) (write : Bool) : Place :=
  if va ≥ 2 ^ 48 then .fail cTranslation
  else if va ≥ 0xFF8000000000 then
    let o := va - 0xFF8000000000
    let r := o / 0x800000
    if r ≥ 96 then .fail cTranslation
    else if bit (s.part part).slices (o / 0x400000) then .basin r (o % 0x800000)
    else .fail cNotOwner
  else if va ≥ 0xFF0000000000 then
    let o := va - 0xFF0000000000
    let c := o / 0x80000
    if c ≥ 1536 ∨ s.mapped c = false then .fail cTranslation
    else if bit (s.part part).slices (c / 8) then .pool c (o % 0x80000)
    else .fail cNotOwner
  else match s.mem.walk part va with
    | .leaf w =>
      if write && !pteWrite w then .fail cReadOnly
      else
        let dpa := pteFrame w * 2 ^ 21 + va % 2 ^ 21
        if pteFresh w then .fresh dpa else .tier dpa
    | _ => if !write then .fail cTranslation
      else match s.quay.viewAt part va with
        | some (w, o) => .view w o
        | none => .fail cTranslation

/-- Why a piece of `n` bytes cannot be accessed, if it cannot; a write that covers part of a view's element fails
(R270). -/
def State.pieceFault (s : State) (part va n : Nat) (write : Bool) : Option Nat :=
  match s.translate part va write with
  | .fail c => some c
  | .view w o => match s.quay.windows.get none w with
    | some x => if o % (elemBits x.inFmt / 8) = 0 ∧ n % (elemBits x.inFmt / 8) = 0 then none else some cTranslation
    | none => some cTranslation
  | _ => none

/-! ### Lines and their marks (R232 to R234, R240) -/

/-- A granule of a lost unit that reads as poisoned until it is written holds this address. -/
def Mem.onLost (m : Mem) (dpa : Nat) : Bool :=
  if dpa ≥ tier2Base then m.dead2 == some (memUnit dpa - 12) else m.dead1 == some (memUnit dpa)

/-- The line that holds `dpa` carries the poison mark. -/
def Mem.marked (m : Mem) (dpa : Nat) : Bool :=
  (m.marks.get none (dpa / 64)).getD (m.onLost dpa)

/-- Sets or clears a line's mark. -/
def Mem.mark (m : Mem) (dpa : Nat) (b : Bool) : Mem :=
  { m with marks := m.marks.put none (dpa / 64) (if b == m.onLost dpa then none else some b) }

/-- The frame that holds `dpa` has a twin, from which an uncorrectable line is restored (R230). -/
def Mem.twinned (m : Mem) (dpa : Nat) : Bool := (m.twins.get none (dpa / 2 ^ 21)).isSome

/-- The level-3 entries (partition, page address, word) of every page table. -/
def Mem.leaves (m : Mem) : List (Nat × Nat × Nat) :=
  m.pt.filterMap (fun e =>
    let level := e.1 / 2 ^ 27 % 4
    if level = 3 ∧ pteValid e.2.word then some (e.1 / 2 ^ 29, e.1 % 2 ^ 27 * 2 ^ 21, e.2.word) else none)

/-- The partitions that map frame `f`, partition 0 not counted. -/
def Mem.mappers (m : Mem) (f : Nat) : List Nat :=
  ((m.leaves.filter (fun e => e.1 != 0 && pteFrame e.2.2 == f)).map (·.1)).eraseDups

/-- Cuts an extent at 64-byte lines: pieces (address, length). -/
def linePieces : Nat → Nat → Nat → List (Nat × Nat)
  | 0, _, _ => []
  | fuel + 1, va, n =>
    if n = 0 then []
    else
      let k := min n (64 - va % 64)
      (va, k) :: linePieces fuel (va + k) (n - k)

/-- The pieces of an extent of `n` bytes. -/
def extent (va n : Nat) : List (Nat × Nat) := linePieces (n / 64 + 2) va n

/-- The first cause that makes an extent inaccessible, if any. -/
def State.extentFault (s : State) (part va n : Nat) (write : Bool) : Option Nat :=
  (extent va n).findSome? (fun p => s.pieceFault part p.1 p.2 write)

/-- What reading one line meets: `none` when delivered, or SOURCE_UE or SOURCE_POISON. `ue` lists the lines
(device address / 64, or 2^58 + pool word address / 8) that the code finds uncorrectable in this access. -/
def State.lineCause (s : State) (ue : List Nat) (p : Place) : Option Nat :=
  match p with
  | .tier d => if s.mem.marked d then some cSourcePoison
               else if ue.contains (d / 64) && !s.mem.twinned d then some cSourceUe else none
  | .fail c => some c
  | _ => none

/-- A basin offset lies among the junction descriptors (R202). -/
def inJunctions (o : Nat) : Bool := decide (o % 0x400000 ≥ 0x3FFC00)
/-- The junction whose descriptor holds a basin offset. -/
def junctionAt (o : Nat) : Nat := o / 0x400000 * 16 + (o % 0x400000 - 0x3FFC00) / 64
/-- The basin offset of junction `q`'s descriptor (R202). -/
def junctionOff (q : Nat) : Nat := q / 16 * 0x400000 + 0x3FFC00 + 64 * (q % 16)

def State.junction (s : State) (r q : Nat) : Junction := s.fab.junctions.get {} (r * 32 + q)
def State.updJunction (s : State) (r q : Nat) (f : Junction → Junction) : State :=
  { s with fab := { s.fab with junctions := s.fab.junctions.upd {} (r * 32 + q) f } }

/-- One byte of a basin: in a junction descriptor the fields marked RO come from the junction (Table 6.16). -/
def State.basinByte (s : State) (r o : Nat) : Byte :=
  let stored := s.mem.basin.get 0 (r * 2 ^ 23 + o)
  if !inJunctions o then stored
  else
    let j := s.junction r (junctionAt o)
    let i := o % 64
    if i = 3 then BitVec.ofNat 8 (stored.toNat / 16 * 16 + j.state * 4 + b2n j.poisoned * 2 + stored.toNat % 2)
    else if 0x28 ≤ i ∧ i < 0x2C then BitVec.ofNat 8 (j.round / 256 ^ (i - 0x28))
    else if 0x2C ≤ i ∧ i < 0x30 then BitVec.ofNat 8 (j.arrived / 256 ^ (i - 0x2C))
    else stored

/-- Bytes of one piece; a place that fails reads as nothing. -/
def State.placeBytes (s : State) (p : Place) (n : Nat) : List Byte :=
  match p with
  | .tier d => s.mem.bytes.getAll 0 d n
  | .fresh _ => List.replicate n 0
  | .pool c o => s.mem.pool.getAll 0 (c * 2 ^ 19 + o) n
  | .basin r o => (List.range n).map (fun i => s.basinByte r (o + i))
  | _ => List.replicate n 0

/-- The bytes of an extent. -/
def State.readVA (s : State) (part va n : Nat) : List Byte :=
  (extent va n).flatMap (fun p => s.placeBytes (s.translate part p.1 false) p.2)

/-- Some line of an extent is poisoned or uncorrectable. -/
def State.extentPoison (s : State) (ue : List Nat) (part va n : Nat) : Bool :=
  (extent va n).any (fun p => (s.lineCause ue (s.translate part p.1 false)).isSome)

/-- Keys of pool and basin words in lists of uncorrectable words. -/
def poolWord (c o : Nat) : Nat := 2 ^ 58 + (c * 2 ^ 19 + o) / 8
def basinWord (r o : Nat) : Nat := 2 ^ 59 + (r * 2 ^ 23 + o) / 8

/-- The uncorrectable pool or basin words (R110) that an access to one piece meets: those known, and those of
`ue`. -/
def State.pieceUe (s : State) (ue : List Nat) (p : Place) (n : Nat) : List Nat :=
  let bad := fun (k0 o : Nat) => (List.range ((o % 8 + n + 7) / 8)).filterMap (fun i =>
    if s.mem.poolUe.get false (k0 + i) || ue.contains (k0 + i) then some (k0 + i) else none)
  match p with
  | .pool c o => bad (poolWord c o) o
  | .basin r o => bad (basinWord r o) o
  | _ => []

/-- The first uncorrectable pool or basin word of an extent. -/
def State.extentUe (s : State) (ue : List Nat) (part va n : Nat) : Option Nat :=
  ((extent va n).flatMap (fun p => s.pieceUe ue (s.translate part p.1 false) p.2)).head?

/-- The number at an address, little-endian. -/
def State.readNat (s : State) (part va n : Nat) : Nat := ofBytes (s.readVA part va n)

/-- Lines of an extent in tier memory that `ue` names and that are not marked. -/
def State.ueLines (s : State) (ue : List Nat) (part va n : Nat) : List Nat :=
  ((extent va n).filterMap (fun p => match s.translate part p.1 false with
    | .tier d => if !s.mem.marked d && ue.contains (d / 64) && !s.mem.twinned d then some (d / 64) else none
    | _ => none)).eraseDups

/-! ### Writing -/

/-- The byte memories are in canonical form: addresses strictly rising, and no entry equal to the zero that an unlisted
address reads as. -/
def Mem.wf (m : Mem) : Bool := Tab.wf 0 m.bytes && Tab.wf 0 m.pool && Tab.wf 0 m.basin

/-- Removes every byte of a frame: it reads as zero, no line of it is marked, and none is left in a memory-side cache (R225). -/
def Mem.zeroFrame (m : Mem) (f : Nat) : Mem :=
  let m := { m with bytes := m.bytes.filter (fun e => decide (e.1 / 2 ^ 21 ≠ f)),
                    marks := m.marks.filter (fun e => decide (e.1 / 2 ^ 15 ≠ f)),
                    cache := (m.cache.map (fun e => (e.1, e.2.filter (fun l => l.line / 2 ^ 14 != f)))).filter (fun e => !e.2.isEmpty) }
  if (tierOf (f * 2 ^ 21) = 0 ∧ m.dead1 = none) ∨ (tierOf (f * 2 ^ 21) = 1 ∧ m.dead2 = none) then m
  else (List.range 32768).foldl (fun m i =>
    let a := f * 2 ^ 21 + i * 64
    if m.onLost a then m.mark a false else m) m

/-- Writes a piece in tier memory: a whole line clears its mark, a partial write keeps it (R234). -/
def Mem.writeTier (m : Mem) (d : Nat) (bs : List Byte) : Mem :=
  let m' := { m with bytes := m.bytes.putAll 0 d bs }
  if d % 64 = 0 ∧ bs.length = 64 then m'.mark d false else m'

/-- Forgets the uncorrectable words that a write of `n` bytes at word key offset replaces whole. -/
def Mem.healWords (m : Mem) (k0 o n : Nat) : Mem :=
  { m with poolUe := m.poolUe.filter (fun e =>
      decide (e.1 < k0 + (o % 8 + 7) / 8 ∨ k0 + (o % 8 + n) / 8 ≤ e.1)) }

/-- A write into a junction descriptor (R202, R204): ignored while the junction is OPEN or RELEASING; fields
marked RO keep nothing, and ARM is remembered for the junction to act on. -/
def State.writeJunction (s : State) (r o : Nat) (bs : List Byte) : State :=
  let q := junctionAt o
  let j := s.junction r q
  if j.state = 1 ∨ j.state = 2 then s
  else
    let put := fun (s : State) (e : Nat × Byte) =>
      let i := (o + e.1) % 64
      let k := r * 2 ^ 23 + o + e.1
      let v : Byte := if i = 2 then e.2 &&& 0xFE else if i = 3 then e.2 &&& 0xF1 else e.2
      let s := if i = 2 ∧ e.2.toNat % 2 = 1 then s.updJunction r q (fun j => { j with arm := true }) else s
      if 0x28 ≤ i ∧ i < 0x30 then s
      else { s with mem := { s.mem with basin := s.mem.basin.put 0 k v } }
    ((List.range bs.length).zip bs).foldl put s

/-- Clears FRESH of every entry that names frame `f`, in whatever partition it is mapped (R226 step 3). -/
def Mem.clearFresh (m : Mem) (f : Nat) : Mem :=
  let keys := (m.pt.filter (fun e => e.1 / 2 ^ 27 % 4 == 3 && pteValid e.2.word && pteFresh e.2.word &&
    pteFrame e.2.word == f)).map (·.1)
  { m with pt := keys.foldl (fun t k => t.put {} k (mkPte (setBit (t.get {} k).word 4 false))) m.pt }

/-- Writes bytes of one line in tier memory; poison marks the line (R234). -/
def Mem.writeLine (m : Mem) (d : Nat) (bs : List Byte) (poison : Bool) : Mem :=
  let m := m.writeTier d bs
  if poison then m.mark d true else m

/-- A free or fresh frame is zero already: it is not queued, and no unit of its tier has been lost. -/
def Mem.isZero (m : Mem) (f : Nat) : Bool :=
  !m.zeroQueue.contains f && (if tierOf (f * 2 ^ 21) = 0 then m.dead1.isNone else m.dead2.isNone)

/-- R226 steps 2 to 4 at a page: its frame is zeroed, FRESH is cleared, and held writes are released in order. -/
def Mem.openFresh (m : Mem) (part va : Nat) : Mem :=
  match m.walk part va with
  | .leaf w =>
    let f := pteFrame w
    let page := va / 2 ^ 21
    let m := if m.isZero f then m else m.zeroFrame f
    let mine := m.heldWrites.filter (fun h => h.part == part && h.va / 2 ^ 21 == page)
    let m := { (m.clearFresh f) with
      zeroQueue := m.zeroQueue.filter (· != f),
      heldWrites := m.heldWrites.filter (fun h => !(h.part == part && h.va / 2 ^ 21 == page)) }
    mine.foldl (fun m h => (extent h.va h.data.length).foldl (fun m p =>
      m.writeLine (f * 2 ^ 21 + p.1 % 2 ^ 21) ((h.data.drop (p.1 - h.va)).take p.2) h.poison) m) m
  | _ => m

/-- Bytes pass a unit's interface. -/
def State.unitRead (s : State) (u n : Nat) : State := s.updCtrl u (fun c => { c with bytesRd := sat64 (c.bytesRd + n) })
def State.unitWrote (s : State) (u n : Nat) : State := s.updCtrl u (fun c => { c with bytesWr := sat64 (c.bytesWr + n) })

/-- The bytes of a frame on unit `u`: 4 KiB for each of its granules there. -/
def Mem.frameBytes (m : Mem) (f u : Nat) : Nat :=
  4096 * ((List.range 512).filter (fun i => m.unitOf (f * 2 ^ 21 + i * 4096) == u)).length

/-- A frame has been zeroed: its lines passed the interfaces of its units (R242). -/
def State.countZeroing (s : State) (f : Nat) : State :=
  (List.range 28).foldl (fun s u => let n := s.mem.frameBytes f u
    if n = 0 then s else s.unitWrote u n) s

/-- The same on the package's state. -/
def State.openFresh (s : State) (part va : Nat) : State :=
  let s' : State := { s with mem := s.mem.openFresh part va }
  match s.mem.walk part va with
  | .leaf w => if s.mem.isZero (pteFrame w) then s' else s'.countZeroing (pteFrame w)
  | _ => s'

/-! ### Metering (R514 to R516, R521) -/

def Meters.bucket (m : Meters) : Nat → Bucket
  | 0 => m.b0 | 1 => m.b1 | 2 => m.b2 | 3 => m.b3 | _ => m.b4

def Meters.setBucket (m : Meters) (i : Nat) (b : Bucket) : Meters :=
  match i with
  | 0 => { m with b0 := b } | 1 => { m with b1 := b } | 2 => { m with b2 := b }
  | 3 => { m with b3 := b } | _ => { m with b4 := b }

def Partition.reg (p : Partition) : Nat → Regulator
  | 0 => p.reg0 | 1 => p.reg1 | 2 => p.reg2 | 3 => p.reg3 | _ => p.reg4

def Partition.setReg (p : Partition) (i : Nat) (r : Regulator) : Partition :=
  match i with
  | 0 => { p with reg0 := r } | 1 => { p with reg1 := r } | 2 => { p with reg2 := r }
  | 3 => { p with reg3 := r } | _ => { p with reg4 := r }

/-- A regulator leaves its resource unregulated (Table 15.8). -/
def Regulator.unregulated (r : Regulator) : Bool := !r.fixed && r.rate == 0xFFFFFF

/-- A request charged against resource `i` may proceed (R515), its partition's entry being sound (R503). A fixed-share bucket releases at
its slot (R516). -/
def State.mayProceed (s : State) (part i : Nat) : Bool :=
  let r := (s.part part).reg i
  if s.entryHeld part then false
  else if r.unregulated then true
  else if r.fixed then decide (r.rate ≠ 0) && decide (((s.meter part).bucket i).nextSlot ≤ s.clk)
  else decide (0 < ((s.meter part).bucket i).tokens)

/-- A request waits on the buckets of `rs` that do not let it proceed (R515). -/
def State.waitFor (s : State) (who : Waiter) (part : Nat) (rs : List Nat) : State :=
  if s.ten.waits.any (fun w => w.who == who) then s
  else { s with ten := { s.ten with
    waits := s.ten.waits ++ [⟨who, part, (rs.filter (fun i => !s.mayProceed part i)).eraseDups, s.clk⟩] } }

/-- Charges bytes against resource `i` and its meter (R515, R521). -/
def State.charge (s : State) (part i n : Nat) : State :=
  let r := (s.part part).reg i
  s.updMeter part (fun m =>
    let b := m.bucket i
    let b := { b with bytes := sat64 (b.bytes + n) }
    let b := if r.unregulated then b
      else if r.fixed then { b with nextSlot := s.clk + ceilDiv (n * 1000) (r.rate * 64) }
      else { b with tokens := b.tokens - n }
    m.setBucket i b)

/-! ### The memory-side caches (R227, R228) -/

/-- The set that holds a tier-2 line: the cache of the hub die whose controller holds it, indexed by device address. DEDUCED: by
the low 15 bits of the line's number; 64 MiB in 16 ways of 128 bytes make 32,768 sets. -/
def Mem.cacheKey (m : Mem) (d : Nat) : Nat := (unitDie (m.unitOf d) - 6) * 32768 + d / 128 % 32768

/-- A tier-2 line is in its cache. -/
def Mem.cached (m : Mem) (d : Nat) : Bool := (m.cache.get [] (m.cacheKey d)).any (fun l => l.line == d / 128)

/-- A line of the cache is written back; one that the cache's own code cannot correct takes the poison mark (R227). -/
def State.writeBack (s : State) (l : CacheLine) (ue : Bool) : State :=
  if !l.dirty then s
  else
    let s := s.unitWrote (s.mem.unitOf (l.line * 128)) 128
    if ue then { s with mem := (s.mem.mark (l.line * 128) true).mark (l.line * 128 + 64) true } else s

/-- A line is filled into a way of the partition's mask: an empty one, or the one that the cache gives up (R228). -/
def State.cacheFill (s : State) (part d : Nat) (write ue : Bool) : State :=
  let key := s.mem.cacheKey d
  let set := s.mem.cache.get [] key
  let ways := bitsSet (s.mem.wayMask.get 0xFFFF part) 16
  let s := s.unitRead (s.mem.unitOf d) 128
  match listFind (fun w => !set.any (fun l => l.way == w)) ways with
  | some w => { s with mem := { s.mem with cache := s.mem.cache.put [] key (set ++ [⟨w, d / 128, write⟩]) } }
  | none =>
    let w := ways.getD (Config.cacheVictim s.fresh % max 1 ways.length) 0
    let s := { s with fresh := s.fresh + 1 }
    let s := (set.filter (fun l => l.way == w)).foldl (fun s l => s.writeBack l ue) s
    { s with mem := { s.mem with cache := s.mem.cache.put [] key (set.filter (fun l => l.way != w) ++ [⟨w, d / 128, write⟩]) } }

/-- An access to a tier-2 line passes through its cache: a lookup hits in any way, a miss fills a way. -/
def State.cacheAccess (s : State) (part d : Nat) (write ue : Bool) : State :=
  if s.mem.cached d then
    if write then
      let key := s.mem.cacheKey d
      let set := (s.mem.cache.get [] key).map (fun l => if l.line = d / 128 then { l with dirty := true } else l)
      { s with mem := { s.mem with cache := s.mem.cache.put [] key set } }
    else s
  else s.cacheFill part d write ue

/-- `n` bytes of one line move between a requester and the memory: tier 2 by way of its cache (R227). -/
def State.lineTraffic (s : State) (part d n : Nat) (write : Bool) (ue : Bool := false) : State :=
  if tierOf d = 1 then s.cacheAccess part d write ue
  else if write then s.unitWrote (s.mem.unitOf d) n else s.unitRead (s.mem.unitOf d) n

/-! ### Accumulate-at-memory (R268 to R272) -/

/-- The sum of Table 8.9: an accumulator element and a contribution, as codes. -/
def windowSum (inFmt accFmt acc x : Nat) : Nat :=
  if accFmt = fmtLa128 then ((La.decode acc).add (La.decode x)).encode
  else
    let f := (floatFmt accFmt).getD fmtFP32
    f.rne ((f.decode (acc % 2 ^ (1 + f.eb + f.fb))).add (decodeElem inFmt (if inFmt = 9 then x % 2 ^ 58 else x)))

/-- The next usable engine of a tier from `e` in ascending number, wrapping (R277). -/
def State.usableEngine (s : State) (tier e : Nat) : Option Nat :=
  let lo := if tier = 0 then 0 else 12
  let n := if tier = 0 then 12 else 16
  (listFind (fun i => bit s.pkg.qeOk (lo + (e - lo + i) % n)) (List.range n)).map (fun i => lo + (e - lo + i) % n)

/-- Adds one contribution to accumulator element `k` (R270, R272); `ue` lists uncorrectable lines. The accumulator element is read
and written at its tier, for the window's partition. DEDUCED: where the unit's own engine is retired the next usable one of the tier
adds, as R277 says of work units. -/
def State.accumulate (s : State) (w : Window) (k x : Nat) (poison : Bool) (ue : List Nat := []) : State :=
  let n := elemBits w.accFmt / 8
  let va := w.acc + k * n
  let s := match s.translate w.part va true with
    | .fresh _ => s.openFresh w.part va
    | _ => s
  match s.translate w.part va true with
  | .tier d =>
    let bad := poison || s.mem.marked d || (ue.contains (d / 64) && !s.mem.twinned d)
    let acc := ofBytes (s.mem.bytes.getAll 0 d n)
    let bs := if bad then poisonBytes va n else toBytes (windowSum w.inFmt w.accFmt acc x) n
    let e := (s.usableEngine (tierOf d) (s.mem.unitOf d)).getD (s.mem.unitOf d)
    let s := ((s.charge w.part (tierOf d) (2 * n)).lineTraffic w.part d n false).lineTraffic w.part d n true
    { s with
      mem := s.mem.writeLine d bs bad,
      quay := { s.quay with engines := s.quay.engines.upd {} e (fun q => { q with accAdds := sat64 (q.accAdds + 1) }) } }
  | _ => s

/-- A write of whole elements to a view at byte offset `off`. -/
def State.contribute (s : State) (w off : Nat) (bs : List Byte) (poison : Bool) (ue : List Nat := []) : State :=
  match s.quay.windows.get none w with
  | some x =>
    let n := elemBits x.inFmt / 8
    (List.range (bs.length / n)).foldl (fun s i =>
      s.accumulate x (off / n + i) (ofBytes ((bs.drop (i * n)).take n)) poison ue) s
  | none => s

/-- Writes a piece at a place; pools and basins take dirty marks (R511). -/
def State.writePlace (s : State) (p : Place) (bs : List Byte) (poison : Bool) : State :=
  match p with
  | .tier d | .fresh d => { s with mem := s.mem.writeLine d bs poison }
  | .view w o => s.contribute w o bs poison
  | .pool c o =>
    let k := c * 2 ^ 19 + o
    { s with mem := { s.mem with
        pool := s.mem.pool.putAll 0 k bs,
        poolUe := (s.mem.healWords (poolWord c o) o bs.length).poolUe,
        dirtyPool := s.mem.dirtyPool.put false (k / 4096) true } }
  | .basin r o =>
    let k := r * 2 ^ 23 + o
    let s := if inJunctions o then s.writeJunction r o bs
      else { s with mem := { s.mem with basin := s.mem.basin.putAll 0 k bs } }
    { s with mem := { s.mem with
        poolUe := (s.mem.healWords (basinWord r o) o bs.length).poolUe,
        dirtyBasin := s.mem.dirtyBasin.put false (k / 4096) true } }
  | .fail _ => s

/-- Writes one piece through a partition's translation; a FRESH page is opened first (R226). -/
def State.writePiece (s : State) (part va : Nat) (bs : List Byte) (poison : Bool) : State :=
  match s.translate part va true with
  | .fresh d => (s.openFresh part va).writePlace (.tier d) bs poison
  | p => s.writePlace p bs poison

/-- Writes an extent; pieces that do not translate are not written. -/
def State.writeVA (s : State) (part va : Nat) (bs : List Byte) (poison : Bool := false) : State :=
  (extent va bs.length).foldl (fun s p => s.writePiece part p.1 ((bs.drop (p.1 - va)).take p.2) poison) s

/-- Marks the tier lines of an extent (R234). -/
def State.markVA (s : State) (part va n : Nat) : State :=
  (extent va n).foldl (fun s p => match s.translate part p.1 true with
    | .tier d | .fresh d => { s with mem := s.mem.mark d true }
    | _ => s) s

/-- Writes the poison pattern over an extent and marks its lines (R124, R234). -/
def State.poisonVA (s : State) (part va n : Nat) : State := s.writeVA part va (poisonBytes va n) true

/-- Writes a number of `n` bytes. -/
def State.writeNat (s : State) (part va v n : Nat) : State := s.writeVA part va (toBytes v n)

/-- Charges an extent's bytes to the tiers and dies that it reaches, for a requester on die `die`. A read of a FRESH page does
not reach memory (R224). -/
def State.chargeExtent (s : State) (part die va n : Nat) (write : Bool) : State :=
  (extent va n).foldl (fun s p =>
    match s.translate part p.1 write with
    | .tier d | .fresh d =>
      if !write && (match s.translate part p.1 write with
          | .fresh _ => true
          | _ => false) then s
      else
        let s := s.charge part (tierOf d) p.2
        let s := if unitDie (s.mem.unitOf d) = die then s else s.charge part 2 p.2
        s.lineTraffic part d p.2 write
    | .pool c _ => if coreDie c = die then s else s.charge part 2 p.2
    | .basin r _ => if r / 16 = die then s else s.charge part 2 p.2
    | .view _ _ => s.charge part 2 p.2
    | .fail _ => s) s

/-- A unit's bit of HS_OK or BC_OK is clear. -/
def Pkg.unitLost (k : Pkg) (u : Nat) : Bool := if u < 12 then !bit k.hsOk u else !bit k.bcOk (u - 12)

/-- Some controller of a tier is in TEST: the tier's requests complete with DOMAIN_ASLEEP (R241). -/
def State.tierInTest (s : State) (tier : Nat) : Bool :=
  s.mem.ctrls.any (fun e => (decide (e.1 < 12) == decide (tier = 0)) && e.2.state == .test)

/-- Some page of an extent lies in a tier that is in TEST (R241). -/
def State.extentAsleep (s : State) (part va n : Nat) : Bool :=
  (List.range ((va % 2 ^ 21 + n + 2 ^ 21 - 1) / 2 ^ 21)).any (fun i =>
    match s.translate part ((va / 2 ^ 21 + i) * 2 ^ 21) false with
    | .tier d | .fresh d => s.tierInTest (tierOf d)
    | _ => false)

/-- A granule is under restore from its twin: its requests are held (Table 7.7). -/
def Mem.granHeld (m : Mem) (dpa : Nat) : Bool := (m.heldGran.get none (dpa / 4096)).isSome

/-- The resources that a piece of an extent needs, for a requester on die `die` (Table 15.7b). -/
def State.pieceNeeds (s : State) (part die va : Nat) (write : Bool) : List Nat :=
  let far := fun (d : Nat) => if d = die then [] else [2]
  match s.translate part va false with
  | .tier d => tierOf d :: far (unitDie (s.mem.unitOf d))
  | .fresh d => if write then tierOf d :: far (unitDie (s.mem.unitOf d)) else []
  | .pool c _ => far (coreDie c)
  | .basin r _ => far (r / 16)
  | .view _ _ => [2]
  | .fail _ => []

/-- The resources that an extent needs. -/
def State.extentNeeds (s : State) (part die va n : Nat) (write : Bool) : List Nat :=
  ((extent va n).flatMap (fun p => s.pieceNeeds part die p.1 write)).eraseDups

/-- The resources that an extent needs hold tokens, no granule of it is held, and the entry of its partition is sound (R503). -/
def State.extentMayProceed (s : State) (part die va n : Nat) (write : Bool) : Bool :=
  !s.entryHeld part && (extent va n).all (fun p => (s.pieceNeeds part die p.1 write).all (s.mayProceed part) &&
    match s.translate part p.1 false with
    | .tier d => !s.mem.granHeld d
    | _ => true)

end Sys2Proof.Machine
end

