-- ==== Sys2Proof/Machine/LogOps.lean ====
section
/-! DEFINITION. Writing a logbook record and raising its events (R580 to R587), recoveries (R560, R562, R565). -/

namespace Sys2Proof.Machine

/-- What the applied rate has moved the time by since the last exchange (R353), in 10^-9 ns. -/
def State.slewed (s : State) : Int := s.time.frac + s.time.rate * ((s.clk - s.time.lastSync : Nat) : Int)

/-- System time in nanoseconds (R350). -/
def State.sysTime (s : State) : Nat := (((s.clk : Int) + s.time.base + s.slewed / 1000000000) % (2 ^ 64 : Int)).toNat

/-- A record as its eight words (Table 17.6). -/
def LogRec.words (r : LogRec) : List Nat :=
  [r.part * 2 ^ 24 + b2n r.island * 2 ^ 22 + b2n r.eventSent * 2 ^ 21 + b2n r.timeFree * 2 ^ 20 +
      r.sev * 2 ^ 16 + r.code,
   r.srcKind * 2 ^ 28 + r.srcIndex, lo32 r.time, hi32 r.time, r.p0, r.p1, r.p2, r.p3]

/-- SRC_KIND codes (Table 17.8). -/
def srcPackage : Nat := 0
def srcCore : Nat := 1
def srcReach : Nat := 2
def srcDie : Nat := 3
def srcPair : Nat := 4
def srcMem : Nat := 5
def srcQuay : Nat := 6
def srcPort : Nat := 7
def srcKeeper : Nat := 8
def srcStage : Nat := 9
def srcModel : Nat := 10
def srcGroup : Nat := 11
def srcRing : Nat := 12
def srcPart : Nat := 13
def srcIsland : Nat := 14

/-- Holds an event for a partition (0 for the owner); a 65th waiting event is discarded and counted (R544). -/
def State.holdEvent (s : State) (e : EventRec) : State :=
  let q := s.cmd.events.get [] e.part
  if q.length < 64 then
    { s with cmd := { s.cmd with events := s.cmd.events.put [] e.part (q ++ [e]) } }
  else
    let rings := s.cmd.rings.upd {} e.part (fun r => { r with eventsLost := sat32 (r.eventsLost + 1) })
    { s with cmd := { s.cmd with rings := rings } }

/-- The parameters of a list but those at the places of `l`, which read as zero. -/
def zeroAt (l : List Nat) (p : List Nat) : List Nat := p.mapIdx (fun i x => if l.contains i then 0 else x)

/-- The places of an event's parameters that name another partition than `q`, or its addresses (R581): the partitions of a
mismatch or of a bad entry, the aperture of another partition, the device address of a granule that `q` does not map. -/
def State.foreign (s : State) (code q : Nat) (p : List Nat) : List Nat :=
  let w := fun (i : Nat) => p.getD i 0
  let ours := fun (lo hi : Nat) => (s.mem.mappers ((w lo + 2 ^ 32 * w hi) / 2 ^ 21)).contains q
  match code with
  | 0x0301 => [0, 1].filter (fun i => w i != q)
  | 0x060A | 0x0B01 => [0].filter (fun i => w i != q)
  | 0x0406 => [1].filter (fun i => w i + 1 != q)
  | 0x0401 | 0x0402 | 0x0403 => if ours 0 1 then [] else [0, 1]
  | 0x0B03 | 0x0B04 => if ours 1 2 then [] else [1, 2]
  | _ => []

/-- Raises an event to each recipient (R580); what would name another partition to partition `q` reads as zero in its copy
(R581). -/
def State.raise (s : State) (code sev : Nat) (tos : List Nat) (p : List Nat) : State :=
  tos.foldl (fun s q => s.holdEvent ⟨code, sev, q, if q = 0 then p else zeroAt (s.foreign code q p) p⟩) s

/-- The entry of (CODE, SOURCE) in the running millisecond. -/
def Log.msCount (l : Log) (code src : Nat) : Nat × Nat :=
  match listFind (fun e => e.1 == code && e.2.1 == src) l.perMs with
  | some (_, _, w, x) => (w, x)
  | none => (0, 0)

def Log.setMs (l : Log) (code src w x : Nat) : Log :=
  { l with perMs := (code, src, w, x) :: l.perMs.filter (fun e => !(e.1 == code && e.2.1 == src)) }

/-- Adds a flush trigger unless one of its kind waits (R587). -/
def Log.trigger (l : Log) (cause now : Nat) : Log :=
  if l.waiting.any (fun e => e.1 == cause) then l else { l with waiting := l.waiting ++ [(cause, now)] }

/-- A record enters the ring (R585): it takes HEAD, may overwrite the oldest, counts by severity, and may
trigger a flush (R587). -/
def Log.enter (l : Log) (r : LogRec) (now : Nat) : Log :=
  let full := seqDist l.oldest l.head == 8192
  let lostOne := full && seqDist l.flushed l.head == 8192
  let l := { l with
    ring := ((if full then l.ring.del l.oldest else l.ring).put none l.head (some r)),
    lost := if lostOne then sat32 (l.lost + 1) else l.lost,
    genLost := if lostOne then sat32 (l.genLost + 1) else l.genLost,
    flushed := if lostOne then wrap32 (l.flushed + 1) else l.flushed,
    oldest := if full then wrap32 (l.oldest + 1) else l.oldest,
    head := wrap32 (l.head + 1) }
  match r.sev with
  | 0 => { l with sev0 := sat32 (l.sev0 + 1) }
  | 1 => { l with sev1 := sat32 (l.sev1 + 1) }
  | 2 => { l with sev2 := sat32 (l.sev2 + 1) }.trigger 1 now
  | _ => { l with sev3 := sat32 (l.sev3 + 1) }.trigger 2 now

/-- Writes a record of the running millisecond with its events (R584, R586). `part` is 0xFF for none; `tos` lists the
recipients of the event, 0 for the owner. -/
def State.recordNow (s : State) (code sev part srcKind srcIndex p0 p1 p2 p3 : Nat) (tos : List Nat := []) : State :=
  let src := srcKind * 2 ^ 28 + srcIndex
  let (w, x) := s.log.msCount code src
  if w ≥ 64 then
    { s with log := { (s.log.setMs code src w (x + 1)) with suppressed := sat32 (s.log.suppressed + 1) } }
  else
    let r : LogRec := {
      part := part, island := !s.pkg.ready, eventSent := !tos.isEmpty,
      timeFree := s.time.mode != .locked, sev := sev, code := code, srcKind := srcKind, srcIndex := srcIndex,
      time := s.sysTime, p0 := wrap32 p0, p1 := wrap32 p1, p2 := wrap32 p2, p3 := wrap32 p3 }
    let s := { s with log := (s.log.setMs code src (w + 1) x).enter r s.clk }
    s.raise code sev tos [wrap32 p0, wrap32 p1, wrap32 p2, wrap32 p3]

/-- A millisecond has ended (R586): one LOG_SUPPRESSED record gives the count of each pair whose records were suppressed in
it, and the counts start afresh. -/
def State.endMs (s : State) : State :=
  if s.clk / 1000000 = s.log.msIndex then s
  else
    let cut := s.log.perMs.reverse.filter (fun e => e.2.2.2 != 0)
    let s : State := { s with log := { s.log with perMs := [], msIndex := s.clk / 1000000 } }
    cut.foldl (fun s e => s.recordNow 0x0D06 1 0xFF srcPackage 0 e.1 e.2.1 e.2.2.2 0) s

/-- Writes a record with its events. DEDUCED: the first record after a millisecond's end finds that millisecond closed. -/
def State.record (s : State) (code sev part srcKind srcIndex p0 p1 p2 p3 : Nat) (tos : List Nat := []) : State :=
  s.endMs.recordNow code sev part srcKind srcIndex p0 p1 p2 p3 tos

/-- Line `line` gave an uncorrectable error (R233): it takes the mark, and is counted and logged. -/
def State.lineUe (s : State) (line : Nat) : State :=
  let u := s.mem.unitOf (line * 64)
  let s := { s with mem := { (s.mem.mark (line * 64) true) with
    ctrls := s.mem.ctrls.upd {} u (fun c =>
      { c with ue := sat32 (c.ue + 1), ueTimes := (s.clk :: c.ueTimes).take 64 }) } }
  s.record 0x0401 2 0xFF srcMem u (lo32 (line * 64)) (hi32 (line * 64)) 0 0 [0]

/-- A page-table entry on the way of an address fails its pair check: PT_PAIR_FAULT, and firmware rewrites it
(R218). -/
def State.notePairFault (s : State) (part va : Nat) : State :=
  match s.mem.walk part va with
  | .pairFault level =>
    let s := { s with mem := { s.mem with pt := s.mem.pt.upd {} (pteKey part level va) (fun e => mkPte e.copy) } }
    s.record 0x0405 2 part srcPackage 0 (lo32 va) (hi32 va) level 0 [0]
  | _ => s

/-- The same for every page that a list of extents walks to. -/
def State.notePairs (s : State) (part : Nat) (l : List (Nat × Nat)) : State :=
  l.foldl (fun s e => (List.range ((e.1 % 2 ^ 21 + e.2 + 2 ^ 21 - 1) / 2 ^ 21)).foldl (fun s i =>
    if e.1 / 2 ^ 21 + i < 0x7F80000 then s.notePairFault part ((e.1 / 2 ^ 21 + i) * 2 ^ 21) else s) s) s

/-- A fault that needs level 2 or above becomes active (R560, R562): `head` is its record's number. -/
def State.beginRecovery (s : State) (level part : Nat) : State :=
  let head := wrap32 (s.log.head + 2 ^ 32 - 1)
  let s' := { s with log := { s.log with recoveries := s.log.recoveries ++ [⟨head, level, s.clk⟩] } }
  match s.log.recoveries with
  | [] => s'
  | r :: _ =>
    s'.record 0x0D02 3 part srcPackage 0 r.head head 0 0 (if part = 0 ∨ part = 0xFF then [0] else [0, part])

/-- The recovery of the fault with record number `head` ends (R565). -/
def State.endRecovery (s : State) (head : Nat) : State :=
  match listFind (fun r => r.head == head) s.log.recoveries with
  | none => s
  | some r =>
    let s := { s with log := { s.log with recoveries := delFirst (fun r => r.head == head) s.log.recoveries } }
    s.record 0x0D01 1 0xFF srcPackage 0 r.level ((s.clk - r.start) / 1000) head 0 [0]

/-- The record number that the next record takes, and that a fault record just written took. -/
def State.lastRecord (s : State) : Nat := wrap32 (s.log.head + 2 ^ 32 - 1)

/-- The DBG block becomes LOCKED (R642), with its record: cause 1 lifetime, 2 owner, 3 owner change, 4 reset, 5 key
failures. -/
def State.lockDbg (s : State) (cause : Nat) : State :=
  if s.dbg.lock = .locked then s
  else ({ s with dbg := { s.dbg with lock := .locked, key := 0 } } : State).record 0x0F02 0 0xFF srcPackage 0 cause 0 0 0

/-- Recipients O and P: the owner, and the partition when it is a tenant. -/
def ownerAnd (part : Nat) : List Nat := if part = 0 ∨ part > 64 then [0] else [0, part]

/-- Recipient P. -/
def partOnly (part : Nat) : List Nat := if part > 64 then [] else [part]

end Sys2Proof.Machine
end

