-- ==== Sys2Proof/Machine/PowerOps.lean ====
section
/-! DEFINITION. The shared operations of the power domains (R594 to R605): kinds, targets, sluices, wakes, and the
zeroing of cores, pools and basins (R136, R596). -/

namespace Sys2Proof.Machine

/-- The REACH_GROUP domain of a core (Table 18.1). -/
def coreDomain (c : Nat) : Nat := 5 * (c / 256) + c / 64 % 4
/-- The REACH_GROUP domain of a slice. -/
def sliceDomain (k : Nat) : Nat := coreDomain (8 * k)
/-- The PORT_PAIR domain of a canal port. -/
def portDomain (p : Nat) : Nat := 30 + 11 * (p / 12) + p % 12 / 2
/-- The domain of a memory unit. -/
def unitDomain (u : Nat) : Nat := if u < 12 then 52 + u / 3 else 36 + 11 * ((u - 12) / 8) + (u - 12) % 8 / 4
/-- The domain of a quay engine. -/
def quayDomain (q : Nat) : Nat := if q < 12 then 52 + q / 3 else 38 + 11 * ((q - 12) / 8)

/-- The kind of a domain (Table 18.2). -/
def domainKind (d : Nat) : Nat :=
  if d < 30 then (if d % 5 = 4 then 2 else 1)
  else if d < 52 then
    let k := (d - 30) % 11
    if k < 6 then 3 else if k < 8 then 4 else if k = 8 then 5 else if k = 9 then 6 else 7
  else 8

/-- The target of a kind after start-up (Table 18.2). -/
def kindTarget (kind : Nat) : DomTarget :=
  if kind = 1 ∨ kind = 4 ∨ kind = 5 ∨ kind = 8 then .auto else .on

/-- A kind allows a target (Table 18.2). -/
def kindAllows (kind : Nat) : DomTarget → Bool
  | .on => true
  | .auto => kind == 1 || kind == 4 || kind == 5 || kind == 8
  | .retain => kind == 1 || kind == 4 || kind == 5
  | .off => kind == 1 || kind == 3 || kind == 6

def DomTarget.code : DomTarget → Nat
  | .on => 0 | .auto => 1 | .retain => 2 | .off => 3
def DomTarget.ofCode : Nat → DomTarget
  | 0 => .on | 1 => .auto | 2 => .retain | _ => .off
def DomState.code : DomState → Nat
  | .on => 0 | .retain => 1 | .off => 2 | .changing => 3

def State.domain (s : State) (d : Nat) : Domain := s.pwr.domains.get {} d
def State.updDomain (s : State) (d : Nat) (f : Domain → Domain) : State :=
  { s with pwr := { s.pwr with domains := s.pwr.domains.upd {} d f } }
def State.domTarget (s : State) (d : Nat) : DomTarget := (s.domain d).target.getD (kindTarget (domainKind d))
def State.setTarget (s : State) (d : Nat) (t : DomTarget) : State :=
  s.updDomain d (fun x => { x with target := if t = kindTarget (domainKind d) then none else some t })

/-- Domain `d` is ON with its sluice open. -/
def State.awake (s : State) (d : Nat) : Bool := (s.domain d).state == .on && !(s.domain d).closed

/-! ### Zeroing -/

/-- The counters of an array that is cleared otherwise (R91). -/
def Array.counters (a : Array) : Array := { a with state := .idle, causes := [], longDone := false, stretches := [] }

/-- A deferred flip's chamber lies in a pool of a core that `p` selects. -/
def flipOfCore (p : Nat → Bool) (k : Nat × Nat) : Bool := k.1 == 0 && p (k.2 / 2 ^ 19)
/-- A deferred flip's chamber lies in the basin half of a slice that `p` selects. -/
def flipOfSlice (p : Nat → Bool) (k : Nat × Nat) : Bool := k.1 == 1 && p (k.2 / 2 ^ 22)

/-- Zeroes the cores that `p` selects (R90, R136): pool, instruction memory, slots, registers, queues, streams,
tiles, counters, inbound queues. -/
def State.zeroCores (s : State) (p : Nat → Bool) : State :=
  let ofUe := fun (k : Nat) => decide (k < 2 ^ 58) || decide (2 ^ 59 ≤ k) || !p ((k - 2 ^ 58) / 65536)
  { s with
    cpu := { s.cpu with
      cores := s.cpu.cores.keep (fun c _ => !p c),
      latches := s.cpu.latches.filter (fun l => !p l.core),
      deferredFlips := s.cpu.deferredFlips.filter (fun k => !flipOfCore p k),
      reachStreams := s.cpu.reachStreams.keep (fun _ st => !p st.opener) },
    mem := { s.mem with
      pool := s.mem.pool.keep (fun k _ => !p (k / 2 ^ 19)),
      poolUe := s.mem.poolUe.keep (fun k _ => ofUe k),
      dirtyPool := s.mem.dirtyPool.keep (fun k _ => !p (k / 128)) },
    fab := { s.fab with
      queues := s.fab.queues.keep (fun k _ => !p (k / 16)),
      refused := (s.fab.refused.keep (fun k _ => !p (k / 16))),
      notices := s.fab.notices.filter (fun c => !p c),
      requests := s.fab.requests.filter (fun e => !p e.1),
      flying := s.fab.flying.filter (fun f => !p f.dst && !(f.src.any p)),
      contribs := s.fab.contribs.filter (fun f => !(f.src.any p)) } }

/-- The cores that `p` selects pass to a partition: they are zeroed and leave handler-dispatch mode (R136, R200). -/
def State.giveCores (s : State) (p : Nat → Bool) : State :=
  ((List.range 1536).filter p).foldl (fun s c => s.setCore c { handlerMode := false }) (s.zeroCores p)

/-- Junctions of the slices that `p` selects enter IDLE with ROUND zero; what they held is discarded (R211). A JSEND that
such a junction has refused is told to try again, and then meets the junction as it is. -/
def State.idleJunctions (s : State) (p : Nat → Bool) : State :=
  let ofKey := fun (k : Nat) => p (2 * (k / 32) + k % 32 / 16)
  { s with fab := { s.fab with
      junctions := s.fab.junctions.keep (fun k _ => !ofKey k),
      jqRefused := s.fab.jqRefused.keep (fun k _ => !ofKey k),
      notices := s.fab.notices ++ ((s.fab.jqRefused.filter (fun e => ofKey e.1)).flatMap (·.2)).filter (fun c => !p (c / 8)) } }

/-- Zeroes the basin halves of the slices that `p` selects. -/
def State.zeroBasins (s : State) (p : Nat → Bool) : State :=
  let ofKey := fun (k : Nat) => p (k / 2 ^ 22)
  let s := s.idleJunctions p
  { s with
    cpu := { s.cpu with deferredFlips := s.cpu.deferredFlips.filter (fun k => !flipOfSlice p k) },
    mem := { s.mem with
      basin := s.mem.basin.keep (fun k _ => !ofKey k),
      poolUe := s.mem.poolUe.keep (fun k _ => decide (k < 2 ^ 59) || !ofKey ((k - 2 ^ 59) * 8)),
      dirtyBasin := s.mem.dirtyBasin.keep (fun k _ => !ofKey (k * 4096)) } }

/-! ### Sluices and wakes -/

/-- The sluice of domain `d` opens (R603): the buffer is released in arrival order and wake notices go to the
refused sources. -/
def State.openSluice (s : State) (d : Nat) : State :=
  s.updDomain d (fun x => { x with closed := false, held := [], refused := [], going := none, fromOff := false })

/-- Zeroes the cores that `p` selects for the same owner: those in a partition's hands stay out of handler-dispatch
mode (R200). -/
def State.rezeroCores (s : State) (p : Nat → Bool) : State :=
  let given := (List.range 1536).filter (fun c => p c && !(s.core c).handlerMode)
  given.foldl (fun s c => s.setCore c { handlerMode := false }) (s.zeroCores p)

/-- Domain `d` reaches ON (R603). A REACH_GROUP that was OFF is zeroed before its sluice opens (R596), but for the array
counters, which R91 zeroes only under R89 and R90. -/
def State.domainOn (s : State) (d : Nat) : State :=
  let x := s.domain d
  let s := if x.fromOff && domainKind d == 1 then
      let t := (s.rezeroCores (fun c => coreDomain c == d)).zeroBasins (fun k => sliceDomain k == d)
      ((s.cpu.cores.filter (fun e => coreDomain e.1 == d)).foldl (fun t e =>
        t.updCore e.1 (fun k => { k with array := e.2.array.counters })) t)
    else s
  (s.updDomain d (fun x => { x with state := .on, since := s.clk })).openSluice d

/-- Something starts a wake of domain `d` (R600, R601, R603): a power-down that has not ended is abandoned, a
domain in RETAIN or OFF begins to wake. -/
def State.startWake (s : State) (d : Nat) : State :=
  let x := s.domain d
  match x.state, x.going with
  | .on, none => s
  | _, some .on => s
  | .retain, _ => s.updDomain d (fun x => { x with state := .changing, going := some .on, fromOff := false, since := s.clk })
  | .off, _ => s.updDomain d (fun x => { x with state := .changing, going := some .on, fromOff := true, since := s.clk })
  | _, _ => (s.updDomain d (fun x => { x with state := .on, since := s.clk })).openSluice d

/-- A wake-class command names domain `d` (R600): it wakes it and turns a RETAIN or OFF target into AUTO. A kind
without AUTO takes ON: DEDUCED. -/
def State.commandWake (s : State) (d : Nat) : State :=
  let t := s.domTarget d
  let s := if s.awake d || !(t == .retain || t == .off) then s
    else s.setTarget d (if kindAllows (domainKind d) .auto then .auto else .on)
  s.startWake d

/-- Scrub and background zeroing wake the memory domains in RETAIN among `ds` (R597); one without power has nothing to scrub. -/
def State.burstWake (s : State) (ds : List Nat) : State :=
  ds.foldl (fun s d => if (s.domain d).state == .off then s else s.startWake d) s

/-- Package SLEEP ends (R605): the remembered targets return, and the domains that they keep powered wake. -/
def State.leaveSleep (s : State) : State :=
  let old := s.pwr.remembered
  let s := { s with pwr := { s.pwr with remembered := [] } }
  ((List.range 56).zip old).foldl (fun s e =>
    let s := s.setTarget e.1 e.2
    if e.2 = .on ∨ e.2 = .auto then s.startWake e.1 else s) s

/-- Every domain that a return from SLEEP wakes is ON. -/
def State.sleepLeft (s : State) : Bool :=
  s.pwr.remembered.isEmpty && (List.range 56).all (fun d => (s.domain d).going != some .on)

end Sys2Proof.Machine
end

