-- ==== Sys2Proof/Machine/Ops.lean ====
section
/-! DEFINITION. The shared operations of the command plane: packets and their fields (R526), who the lock-keeper
is, commands in flight and their completions (R527, R541 to R544, R555), refusals. -/

namespace Sys2Proof

open Machine

/-! ### Packets -/

def Packet.w0 (p : Packet) : Nat := p.word0.toNat
/-- OPCODE, LEVEL, PART and the flags of word 0 (Table 16.2). -/
def Packet.opcode (p : Packet) : Nat := bits p.w0 11 0
def Packet.level (p : Packet) : Nat := bits p.w0 15 12
def Packet.part (p : Packet) : Nat := bits p.w0 31 24
def Packet.fence (p : Packet) : Bool := bit p.w0 16
def Packet.irq (p : Packet) : Bool := bit p.w0 17
/-- The 32-bit parameter word at packet offset `off` (0x10 to 0x3C). -/
def Packet.w (p : Packet) (off : Nat) : Nat := (p.params.getD ((off - 16) / 4) 0).toNat
/-- Bits `hi` to `lo` of the parameter word at `off`. -/
def Packet.f (p : Packet) (off hi lo : Nat) : Nat := bits (p.w off) hi lo
/-- One bit of the parameter word at `off`. -/
def Packet.b (p : Packet) (off i : Nat) : Bool := bit (p.w off) i
/-- The 64-bit parameter at `off`. -/
def Packet.d (p : Packet) (off : Nat) : Nat := p.w off + 2 ^ 32 * p.w (off + 4)
/-- A 192-bit slice mask at `off` (R501). -/
def Packet.mask192 (p : Packet) (off : Nat) : Nat :=
  p.d off + 2 ^ 64 * p.d (off + 8) + 2 ^ 128 * p.d (off + 16)
/-- HDR_C is the complement of word 0 (R527 check 1). -/
def Packet.pairOk (p : Packet) : Bool := pair32 p.w0 p.hdrC.toNat

/-- The partition whose entry a command of the control path names (R505 to R510). -/
def Packet.entryNamed (pk : Packet) : Nat :=
  match pk.opcode with
  | 0x101 | 0x102 | 0x110 | 0x111 => pk.f 0x10 7 0
  | 0x103 => pk.f 0x10 15 8
  | _ => 0

/-- A packet from its sixteen words. -/
def Packet.ofWords (ws : List Nat) : Packet :=
  let w := fun i => BitVec.ofNat 32 (ws.getD i 0)
  ⟨w 0, w 1, w 2, w 3, (List.range 12).map (fun i => w (i + 4))⟩

/-- A packet's sixteen words. -/
def Packet.words (p : Packet) : List Nat :=
  [p.w0, p.hdrC.toNat, p.seq.toNat, p.tag.toNat] ++ (List.range 12).map (fun i => p.w (16 + 4 * i))

/-! ### Masters and paths -/

/-- A master's OWNER code (Table 16.7). -/
def Master.code : Master → Nat
  | .host0 => 0 | .host1 => 1 | .bmc => 2 | .fm _ => 3

/-- The package of a fabric manager, 0 otherwise. -/
def Master.pkg : Master → Nat
  | .fm p => p
  | _ => 0

/-- The mailbox bank of a master. -/
def Master.bank (m : Master) : Nat := m.code

end Sys2Proof

namespace Sys2Proof.Machine

def State.isOwner (s : State) (m : Master) : Bool := s.own.owner == some m

/-- The master of a mailbox bank. -/
def mboxMaster : Nat → Master
  | 0 => .host0 | 1 => .host1 | _ => .bmc

/-- The partition a path's commands act for (R526): the ring's; a plan's is its stage's (R445); else 0. -/
def State.pathPart (s : State) : Path → Nat
  | .ring r => r
  | .plan n => (s.pipe.slots.get {} n).part
  | _ => 0

/-- A path of the control path: the control ring, or the lock-keeper's mailbox or towpath commands. -/
def State.controlPath (s : State) : Path → Bool
  | .ring r => r == 0
  | .mailbox m => s.isOwner (mboxMaster m)
  | .towpath p => s.isOwner (.fm p)
  | .plan _ => false

/-! ### Rings, mailboxes -/

def State.ring (s : State) (r : Nat) : Ring := s.cmd.rings.get {} r
def State.updRing (s : State) (r : Nat) (f : Ring → Ring) : State :=
  { s with cmd := { s.cmd with rings := s.cmd.rings.upd {} r f } }
def State.mbox (s : State) (m : Nat) : Mailbox := s.cmd.mailboxes.get {} m
def State.updMbox (s : State) (m : Nat) (f : Mailbox → Mailbox) : State :=
  { s with cmd := { s.cmd with mailboxes := s.cmd.mailboxes.upd {} m f } }

/-! ### Commands in flight -/

def State.flight (s : State) (id : Nat) : Option Flight := listFind (fun f => f.id == id) s.cmd.flights
def State.updFlight (s : State) (id : Nat) (g : Flight → Flight) : State :=
  { s with cmd := { s.cmd with flights := updFirst (fun f => f.id == id) g s.cmd.flights } }

/-- A command in flight has an ABORT before it. -/
def State.aborting (s : State) (cmd : Nat) : Bool := (s.flight cmd).any (fun f => f.phase == .aborting)

/-- Accepts a command: it takes the next number and waits to begin (R541). -/
def State.accept (s : State) (path : Path) (pk : Packet) (sqHead : Nat) (m : Option Master) : State :=
  { s with cmd := { s.cmd with
      flights := s.cmd.flights ++ [⟨s.cmd.nextId, path, pk, .accepted, sqHead, m, [], s.clk⟩],
      nextId := s.cmd.nextId + 1 } }

/-- Commits a completion that answers a packet on a path (R543). -/
def State.commitRaw (s : State) (id : Nat) (path : Path) (pk : Packet) (sqHead status : Nat) (res : List Nat) :
    State :=
  { s with cmd := { s.cmd with
      committed := s.cmd.committed ++
        [⟨id, path, pk.opcode, status, pk.seq.toNat, pk.tag.toNat, pk.part, sqHead, pk.irq, res⟩] } }

/-- The status that a command commits with under the ABORT that met it (R555). -/
def abortStatus (ph : Phase) (status : Nat) : Nat :=
  if ph = .aborting then stAborted else if ph = .late ∧ status = stDone then stDoneAbortLate else status

/-- Commits the completion of a command in flight: it leaves the commands in flight. The ABORT commands that wait for
it complete after it, with outcome ABORTED, or LATE when it had no stopping point (R555, R556); one with JOB scope, which
may wait for several, after the last, with JOB_ABORTED (R557). -/
def State.commit (s : State) (id status : Nat) (res : List Nat) : State :=
  match s.flight id with
  | none => s
  | some f =>
    let s := { s with cmd := { s.cmd with flights := delFirst (fun g => g.id == id) s.cmd.flights } }
    let s := s.commitRaw id f.path f.pk f.sqHead (abortStatus f.phase status) res
    f.aborts.foldl (fun s a => match s.flight a with
      | none => s
      | some g =>
        if s.cmd.flights.any (fun h => h.aborts.contains a) then s
        else
          let s := { s with cmd := { s.cmd with flights := delFirst (fun h => h.id == a) s.cmd.flights } }
          s.commitRaw a g.path g.pk g.sqHead stDone
            [if g.pk.f 0x10 1 0 = 2 then 3 else if f.phase = .late then 2 else 1]) s

/-- Completes with DONE and result words. -/
def State.done (s : State) (f : Flight) (res : List Nat := []) : State := s.commit f.id stDone res

/-- Completes with a status and no result. -/
def State.failWith (s : State) (f : Flight) (status : Nat) : State := s.commit f.id status []

/-- A refusal with a cause in bits 7:0 of result word 0 and 0xFFFF_FFFF in word 1, as the subject chapters
give it. -/
def State.refuse (s : State) (f : Flight) (status cause : Nat) : State :=
  s.commit f.id status [cause, 0xFFFFFFFF]

/-- A structure whose LEVEL is `l` is of another level than the running one: it is refused with LEVEL_UNSUPPORTED, and no
other field of it is interpreted (R14). -/
def State.otherLevel (s : State) (l : Nat) : Bool := l != s.pkg.runLevel

/-- The opcodes that are answered before READY and in every package state (R545, R605). -/
def alwaysServed (opc : Nat) : Bool := opc == 0x001 || opc == 0x003

/-- No earlier accepted command of the same path still waits to begin, and with FENCE every earlier command of
the path has completed (R542). -/
def State.mayBegin (s : State) (f : Flight) : Bool :=
  s.cmd.flights.all (fun g =>
    !(decide (g.id < f.id) && g.path == f.path) ||
      (g.phase != .accepted && !f.pk.fence))

/-- A free value is drawn. -/
def State.draw (s : State) : Nat × State := (s.fresh, { s with fresh := s.fresh + 1 })

/-- A command of a path may begin: it is first in its path's order, the package is READY or serves it always,
its partition does not hold it (R167, R536, R542, R545),
and the entries that its check needs are sound (R503). -/
def State.beginnable (s : State) (f : Flight) : Bool :=
  f.phase == .accepted && s.mayBegin f &&
    (s.pkg.ready || s.pwr.fenced || alwaysServed f.pk.opcode || (f.pk.opcode == 0x020 && s.pwr.state == .off)) &&
    !s.entryHeld f.pk.entryNamed &&
    (let r := s.pathPart f.path
     r == 0 || !s.entryHeld r && (!s.held r || ((s.part r).state == .evicted && f.pk.opcode == 0x001)))

/-- The command in flight that a row names. -/
def State.named (s : State) (path : Path) (pk : Packet) : Option Flight :=
  listFind (fun f => f.path == path && f.pk == pk && s.beginnable f) s.cmd.flights

/-- The commands that a package in SLEEP serves without leaving it for them first (R605): PKG_WAKE is itself the
return. -/
def servedAsleep (pk : Packet) : Bool := alwaysServed pk.opcode || (pk.opcode == 0x020 && pk.f 0x10 3 0 == 8)

/-- The commands that a fenced package serves (R579). DEDUCED: SOFT_RESET, which ends the fence, is one. -/
def servedFenced (pk : Packet) : Bool := pk.opcode == 0x001 || (pk.opcode == 0x020 && pk.f 0x10 3 0 == 6)

/-- What a command needs before it begins: the domains that it names (R600), the regulated resources that it
needs (R515), and whatever else holds it. -/
structure Gate where
  doms : State → List Nat := fun _ => []
  res : State → List Nat := fun _ => []
  ready : State → Bool := fun _ => true

/-- The partition that a command in flight acts for: its ring's; a plan's is its stage's partition (R444). -/
def State.actsFor (s : State) (f : Flight) : Nat := s.pathPart f.path

/-- Some resource of `rs` is blocked for a partition (R515). -/
def State.blocked (s : State) (part : Nat) (rs : List Nat) : Bool :=
  rs.any (fun i => ((s.part part).reg i).rate == 0)

/-- Opcodes that Table 15.5 accepts on an IDLE partition's ring. -/
def idleServes (pk : Packet) : Bool :=
  [0x210, 0x211, 0x212, 0x201, 0x202, 0x203, 0x801, 0x001].contains pk.opcode ||
    (pk.opcode == 0x103 && pk.f 0x10 3 0 == 6)

/-- What Table 15.5 answers instead of a command on a partition's ring: the status and result words, if any.
DEDUCED: a FREE entry answers as an IDLE one. -/
def State.ringGate (s : State) (f : Flight) : Option (Nat × List Nat) :=
  let r := s.pathPart f.path
  if r = 0 then none
  else match (s.part r).state with
    | .destroying => some (stAborted, [])
    | .idle | .free => if idleServes f.pk then none else some (stPartRefused, [7, 0xFFFFFFFF])
    | _ => none

/-- Completes a command at once with REGULATED (R515). -/
def State.regulated (s : State) (f : Flight) : State :=
  (s.updMeter (s.actsFor f) (fun m => { m with regulatedCmds := sat32 (m.regulatedCmds + 1) })).commit f.id
    stRegulated []

/-- Begins a command that nothing outside it stands in the way of. -/
def State.enterCmd (s : State) (f : Flight) (g : Gate) (body : Flight → State → State) : State :=
  match s.ringGate f with
  | some (st, ws) => s.commit f.id st ws
  | none =>
    if s.blocked (s.actsFor f) (g.res s) then s.regulated f
    else
      let ds := g.doms s
      if !ds.all s.awake then ds.foldl (fun s d => s.commandWake d) s
      else if !g.ready s then s
      else if !(g.res s).all (s.mayProceed (s.actsFor f)) then s.waitFor (.cmd f.id) (s.actsFor f) (g.res s)
      else body f (s.updFlight f.id (fun g => { g with phase := .begun, at_ := s.clk }))

/-- Begins the command that a row names, when it is in flight, may begin, and is of the row's kind; otherwise
the event does not occur and nothing changes. A fenced package completes it with ABORTED (R579); a package in
SLEEP first leaves it (R605); a domain that it names is woken first (R600). -/
def beginOn (path : Path) (pk : Packet) (isKind : Packet → Bool) (g : Gate) (s : State)
    (body : Flight → State → State) : Out :=
  match s.named path pk with
  | some f =>
    if isKind pk then
      .next (
        if s.pwr.fenced && !servedFenced pk then s.commit f.id stAborted []
        else if s.pwr.state == .sleep && !servedAsleep pk then
          (if s.sleepLeft then ({ s with pwr := { s.pwr with state := .run } } : State).enterCmd f g body
           else if s.pwr.remembered.isEmpty then s else s.leaveSleep)
        else s.enterCmd f g body)
    else .next s
  | none => .next s

/-- The same for a command that needs nothing first. -/
def beginCmd (path : Path) (pk : Packet) (isKind : Packet → Bool) (s : State)
    (body : Flight → State → State) : Out :=
  beginOn path pk isKind {} s body

/-- A packet of an opcode. -/
def ofOp (opc : Nat) (pk : Packet) : Bool := pk.opcode == opc

/-- A packet of an opcode whose field at `off` bits `hi:lo` holds `v`. -/
def ofOpField (opc off hi lo v : Nat) (pk : Packet) : Bool := pk.opcode == opc && pk.f off hi lo == v

/-- A unit of the package is named, or the command is no command of the table. -/
def onUnit (ok : Bool) (o : Out) : Out := if ok then o else .fault .noSuchUnit

end Sys2Proof.Machine
end

