-- ==== Sys2Proof/Machine/Operands.lean ====
section
/-! DEFINITION. Tensor descriptors: fields, checks (R108), element addresses (R107, R64), rows and segments, and
the reading and writing of elements through a partition's translation. -/

namespace Sys2Proof.Machine

/-- Reads the 64 bytes of Table 4.3, as their 16 words. -/
def Desc.ofWords (ws : List Nat) : Desc :=
  let w := fun i => ws.getD i 0
  let ctrl := w 0
  { level := bits ctrl 3 0, format := bits ctrl 7 4, rankM1 := bits ctrl 10 9, layout := bits ctrl 12 11,
    comp := bits ctrl 14 13, cls := bits ctrl 17 15, rowscale := bit ctrl 18, region := bits ctrl 24 19,
    regionEn := bit ctrl 25, readOnly := bit ctrl 26,
    dim0 := w 1, dim1 := w 2, dim2 := w 3, dim3 := w 4, stride1 := w 5, stride2 := w 6, stride3 := w 7,
    base := w 8 + 2 ^ 32 * bits (w 9) 15 0, scaleAddr := w 10 + 2 ^ 32 * bits (w 11) 15 0,
    chamberAddr := w 12 + 2 ^ 32 * bits (w 13) 15 0, tag := w 14 }

/-- A reserved field of the 64 bytes is nonzero (Tables 4.3, 4.4). -/
def descReserved (ws : List Nat) : Bool :=
  let w := fun i => ws.getD i 0
  bits (w 0) 31 27 != 0 || bit (w 0) 8 || bits (w 9) 31 16 != 0 || bits (w 11) 31 16 != 0 ||
    bits (w 13) 31 16 != 0 || w 15 != 0

/-- The number of elements. -/
def Desc.count (d : Desc) : Nat := d.dim0 * d.dim1 * d.dim2 * d.dim3
/-- The number of stored rows. -/
def Desc.rows (d : Desc) : Nat := d.dim1 * d.dim2 * d.dim3
def Desc.bitsPer (d : Desc) : Nat := elemBits d.format

/-- Bits of an element's code as stored: 4 in W4, 8 in A8 (R283). -/
def Desc.codeBits (d : Desc) : Nat := match d.comp with
  | 1 => 4
  | 2 => 8
  | _ => d.bitsPer
/-- TB of Table 4.5: the bytes of a 16 × 16 tile (R64, R284). -/
def Desc.tileBytes (d : Desc) : Nat := 32 * d.codeBits
/-- CB: bytes of a code block (R284). -/
def Desc.codeBlock (d : Desc) : Nat := if d.comp = 2 then 4096 else 128

/-- The conditions of R285. -/
def Desc.compInvalid (d : Desc) : Bool :=
  d.comp != 0 && (d.base % d.codeBlock != 0 || (d.comp == 2 && d.dim0 * d.dim1 / 256 % 16 != 0) ||
    (decide (d.dim2 > 1) && 64 * d.stride2 % d.codeBlock != 0) ||
    (decide (d.dim3 > 1) && 64 * d.stride3 % d.codeBlock != 0) || (d.rowscale && d.comp == 2))

/-- A format that carries row scales (R108). -/
def narrowFmt (f : Nat) : Bool := decide (f ≤ 5)

/-- The conditions of R108 other than LEVEL and reserved fields. -/
def Desc.invalid (d : Desc) : Bool :=
  d.format > 11 || d.layout > 1 || d.comp == 3 || d.cls == 7 ||
  d.dim0 == 0 || d.dim1 == 0 || d.dim2 == 0 || d.dim3 == 0 || d.dim0 > 1048576 || d.count > 2 ^ 50 ||
  (d.layout == 1 && (d.stride1 != 0 || d.dim0 % 16 != 0 || d.dim1 % 16 != 0)) ||
  (d.comp != 0 && d.layout != 1) ||
  (d.comp == 1 && !(d.format == 0 || d.format == 1 || d.format == 5)) ||
  (d.comp == 2 && !(d.format == 6 || d.format == 7)) ||
  (d.rowscale && !narrowFmt d.format) ||
  (d.rankM1 == 0 && d.dim1 != 1) || (d.rankM1 < 2 && d.dim2 != 1) || (d.rankM1 < 3 && d.dim3 != 1) ||
  (!d.rowscale && d.scaleAddr != 0) || (d.comp == 0 && d.chamberAddr != 0)

/-- R108, R285: the program-fault cause with which a descriptor is refused. -/
def Desc.check (d : Desc) (reserved : Bool) : Option Nat :=
  if d.level ≠ 1 then some pfDescLevel
  else if reserved || d.invalid || d.compInvalid then some pfDescInvalid else none

/-! ### Element addresses (R107) -/

/-- The coordinates (d3, d2, d1) of stored row `r`. -/
def Desc.rowCoord (d : Desc) (r : Nat) : Nat × Nat × Nat :=
  (r / d.dim1 / d.dim2, r / d.dim1 % d.dim2, r % d.dim1)

/-- The address of segment `j` of 16 elements of stored row `r`. -/
def Desc.segAddr (d : Desc) (r j : Nat) : Nat :=
  let (d3, d2, d1) := d.rowCoord r
  let plane := d.base + 64 * (d3 * d.stride3 + d2 * d.stride2)
  if d.layout = 0 then plane + d1 * d.stride1 + j * 2 * d.bitsPer
  else plane + (d1 / 16 * (d.dim0 / 16) + j) * d.tileBytes + d1 % 16 * (2 * d.codeBits)

/-- Elements of segment `j` of a row. -/
def Desc.segLen (d : Desc) (j : Nat) : Nat := min 16 (d.dim0 - 16 * j)
def Desc.segs (d : Desc) : Nat := ceilDiv d.dim0 16
/-- Bytes of segment `j`. -/
def Desc.segBytes (d : Desc) (j : Nat) : Nat :=
  if d.comp = 0 then rowBytes d.format (d.segLen j) else 2 * d.codeBits

/-- The segments (address, bytes) of stored row `r`. -/
def Desc.rowSegs (d : Desc) (r : Nat) : List (Nat × Nat) :=
  (List.range d.segs).map (fun j => (d.segAddr r j, d.segBytes j))

/-- Every segment of the tensor. -/
def Desc.allSegs (d : Desc) : List (Nat × Nat) := (List.range d.rows).flatMap d.rowSegs

/-- The lowest and the highest byte address that the descriptor addresses, scale bytes excluded (R153). -/
def Desc.span (d : Desc) : Nat × Nat :=
  let plane := d.base + 64 * ((d.dim3 - 1) * d.stride3 + (d.dim2 - 1) * d.stride2)
  let last := if d.layout = 0 then (d.dim1 - 1) * d.stride1 + rowBytes d.format d.dim0
    else ceilDiv d.dim1 16 * (d.dim0 / 16) * d.tileBytes
  (d.base, plane + last - 1)

/-- Reads the codes of stored row `r` of an uncompressed tensor. -/
def State.readRow (s : State) (part : Nat) (d : Desc) (r : Nat) : List Nat :=
  (List.range d.segs).flatMap (fun j =>
    let bs := s.readVA part (d.segAddr r j) (d.segBytes j)
    (List.range (d.segLen j)).map (unpackElem d.format bs))

/-- Writes the codes of stored row `r`. -/
def State.writeRow (s : State) (part : Nat) (d : Desc) (r : Nat) (codes : List Nat) : State :=
  (List.range d.segs).foldl (fun s j =>
    s.writeVA part (d.segAddr r j) (packRow d.format ((codes.drop (16 * j)).take (d.segLen j)))) s

/-- Writes bytes over the elements of a tensor, in stored order. -/
def State.writeDesc (s : State) (part : Nat) (d : Desc) (bs : List Byte) : State :=
  (d.allSegs.foldl (fun (a : State × List Byte) g => (a.1.writeVA part g.1 (a.2.take g.2), a.2.drop g.2)) (s, bs)).1

/-- Writes the poison pattern over stored row `r` (R124). -/
def State.poisonRow (s : State) (part : Nat) (d : Desc) (r : Nat) : State :=
  (d.rowSegs r).foldl (fun s p => s.poisonVA part p.1 p.2) s

/-- Poison over a whole tensor, its scale bytes included. -/
def State.poisonDesc (s : State) (part : Nat) (d : Desc) : State :=
  let s := (List.range d.rows).foldl (fun s r => s.poisonRow part d r) s
  if d.rowscale then s.poisonVA part d.scaleAddr d.rows else s

/-- The first cause that makes a list of segments inaccessible. -/
def State.segsFault (s : State) (part : Nat) (segs : List (Nat × Nat)) (write : Bool) : Option Nat :=
  segs.findSome? (fun p => s.extentFault part p.1 p.2 write)

/-- A translation cause as the program-fault cause of R677. -/
def pfOfCause (c : Nat) : Nat :=
  if c = cTranslation then pfTranslation else if c = cNotOwner then pfNotOwner else pfReadOnly

/-- R677: why an engine may not read a tensor. -/
def State.descReadFault (s : State) (part : Nat) (d : Desc) : Option Nat :=
  ((s.segsFault part d.allSegs false).map pfOfCause)

/-- R677: why an engine may not write a tensor; a READ_ONLY descriptor counts as a read-only page. -/
def State.descWriteFault (s : State) (part : Nat) (d : Desc) : Option Nat :=
  if d.readOnly then some pfReadOnly
  else match (s.segsFault part d.allSegs true).map pfOfCause with
    | some c => some c
    | none => if d.rowscale then (s.extentFault part d.scaleAddr d.rows true).map pfOfCause else none

/-- Some line of a tensor is poisoned or uncorrectable. -/
def State.descPoison (s : State) (ue : List Nat) (part : Nat) (d : Desc) : Bool :=
  d.allSegs.any (fun p => s.extentPoison ue part p.1 p.2) ||
    (d.rowscale && s.extentPoison ue part d.scaleAddr d.rows)

/-- The row of scale byte `r` (R45): its exponent, none for 0xFF. -/
def State.rowScale (s : State) (part : Nat) (d : Desc) (r : Nat) : Option Int :=
  let b := s.readNat part (d.scaleAddr + r) 1
  if b = 255 then none else some ((b : Int) - 127)

/-! ### Positions (R144, R65) -/

/-- Row and column of element index `p`. -/
def Desc.rowOf (d : Desc) (p : Nat) : Nat := p / d.dim0
def Desc.colOf (d : Desc) (p : Nat) : Nat := p % d.dim0

/-- A 16 × 16 tile at position `p` lies within the tensor and is aligned (R144). -/
def Desc.tileOk (d : Desc) (p : Nat) : Bool :=
  decide (p < d.count) && d.colOf p % 16 == 0 && (d.rowOf p % d.dim1) % 16 == 0 &&
    decide (d.colOf p + 16 ≤ d.dim0) && decide (d.rowOf p % d.dim1 + 16 ≤ d.dim1)

/-- A block of depth `k` at position `p`: 16 rows × k columns, or with `trans` k rows × 16 columns (R65). -/
def Desc.blockOk (d : Desc) (p k : Nat) (trans : Bool) : Bool :=
  let (nr, nc) := if trans then (k, 16) else (16, k)
  decide (p < d.count) && d.colOf p % nc == 0 && (d.rowOf p % d.dim1) % nr == 0 &&
    decide (d.colOf p + nc ≤ d.dim0) && decide (d.rowOf p % d.dim1 + nr ≤ d.dim1)

/-- The code of the element at stored row `r` and column `c` of an uncompressed tensor. -/
def State.elemAt (s : State) (part : Nat) (d : Desc) (r c : Nat) : Nat :=
  let bs := s.readVA part (d.segAddr r (c / 16)) (d.segBytes (c / 16))
  unpackElem d.format bs (c % 16)

/-- The codes of a rectangle of `nr` rows × `nc` columns at row `r` and column `c`, row-major. -/
def State.readRect (s : State) (part : Nat) (d : Desc) (r c nr nc : Nat) : List Nat :=
  (List.range nr).flatMap (fun i => (List.range nc).map (fun j => s.elemAt part d (r + i) (c + j)))

/-- The segments that a rectangle of 16-aligned columns touches. -/
def Desc.rectSegs (d : Desc) (r c nr nc : Nat) : List (Nat × Nat) :=
  (List.range nr).flatMap (fun i => (List.range (ceilDiv (c % 16 + nc) 16)).map (fun j =>
    (d.segAddr (r + i) (c / 16 + j), d.segBytes (c / 16 + j))))

/-- Writes a 16 × 16 tile at row `r` and column `c`, row-major codes (R64). -/
def State.writeTile (s : State) (part : Nat) (d : Desc) (r c : Nat) (codes : List Nat) : State :=
  (List.range 16).foldl (fun s i =>
    s.writeVA part (d.segAddr (r + i) (c / 16)) (packRow d.format ((codes.drop (16 * i)).take 16))) s

/-- Poison over a 16 × 16 tile. -/
def State.poisonTile (s : State) (part : Nat) (d : Desc) (r c : Nat) : State :=
  (List.range 16).foldl (fun s i => s.poisonVA part (d.segAddr (r + i) (c / 16)) (2 * d.bitsPer)) s

end Sys2Proof.Machine
end

