-- ==== Sys2Proof/Machine/CoreOps.lean ====
section
/-! DEFINITION. Shared operations of a core: registers and fetch (R139 to R142), pushes and queues (R96 to R99,
R151), the scoreboard (R101 to R103), streams (R118 to R120), flags and fault records (R128 to R130), how a core
stops (R162 to R165, R645 to R648), the status page (R131). -/

namespace Sys2Proof.Machine

/-! ### Registers and instruction words -/

/-- Scalar register `i`; s0 reads as zero (Table 5.1). -/
def Core.reg (k : Core) (i : Nat) : Nat := if i = 0 then 0 else (k.regs.get 0 i).toNat
/-- Writes scalar register `i`, modulo 2^64; writes to s0 are ignored. -/
def Core.setReg (k : Core) (i v : Nat) : Core :=
  if i = 0 then k else { k with regs := k.regs.put 0 i (BitVec.ofNat 64 v) }
def Core.slot (k : Core) (h : Nat) : Desc := k.slots.get {} h

/-- The fields of a head word (Table 5.2) with its extension words. -/
structure Op where
  opc : Nat
  fl : Nat
  a : Nat
  b : Nat
  c : Nat
  imm : Nat
  ext : List Nat
  head : Nat
  deriving DecidableEq, Repr

/-- Splits the head word at the front of a list of words. -/
def Op.ofWords (ws : List Nat) : Op :=
  let h := ws.headD 0
  { opc := bits h 11 0, fl := bits h 21 16, a := bits h 27 22, b := bits h 33 28, c := bits h 39 34,
    imm := bits h 63 40, ext := (ws.drop 1).take (bits h 15 13), head := h }

/-- IMM as a two's-complement value. -/
def Op.simm (o : Op) : Int := Sys2Proof.Machine.signed 24 o.imm
def Op.e (o : Op) (i : Nat) : Nat := o.ext.getD i 0
/-- Words of the instruction. -/
def Op.len (o : Op) : Nat := 1 + bits o.head 15 13

/-- The control core is fetching (Table 4.2): RUNNING and neither ended, nor halting, nor stopped by a fault. -/
def Core.fetching (k : Core) : Bool :=
  k.state == .running && !k.ended && !k.halting && !k.stopping && k.faulting.isNone && !k.handlerMode

/-- The instruction that the control core executes next. -/
def Core.fetch (k : Core) : Option Op :=
  match k.image with
  | some im => if k.fetching && decide (k.pc < im.code.length) then some (Op.ofWords (im.code.drop k.pc)) else none
  | none => none

/-! ### Queues and scoreboard -/

def Core.queue (k : Core) : Engine → List Push
  | .ax => k.ax | .vx => k.vx | .dx => k.dx | .qx => k.qx
def Core.setQueue (k : Core) (e : Engine) (q : List Push) : Core :=
  match e with
  | .ax => { k with ax := q } | .vx => { k with vx := q } | .dx => { k with dx := q } | .qx => { k with qx := q }
/-- The engine's number (Table 4.9). -/
def engineNum : Engine → Nat
  | .ax => 0 | .vx => 1 | .dx => 2 | .qx => 3
def Core.pushes (k : Core) : List Push := k.ax ++ k.vx ++ k.dx ++ k.qx
def Core.updPush (k : Core) (e : Engine) (num : Nat) (f : Push → Push) : Core :=
  k.setQueue e (updFirst (fun p => p.num == num) f (k.queue e))

/-- Some command has begun and not completed. -/
def Core.busy (k : Core) : Bool := k.pushes.any (fun p => p.wait != .queued)

/-- The regions that a command writes. -/
def Push.writes (p : Push) : List Nat := p.write.toList ++ p.also
/-- The regions that a command still reads: a SEND or JSEND that holds its data has made its last read (R102). -/
def Push.reading (p : Push) : List Nat :=
  match p.wait with
  | .message _ _ _ | .controller => []
  | _ => p.reads

/-- No command of the core is outstanding that writes region `r`. -/
def Core.noWriter (k : Core) (r : Nat) : Bool := k.pushes.all (fun p => !p.writes.contains r)
/-- No command of the core is outstanding that reads or writes region `r`. -/
def Core.noUser (k : Core) (r : Nat) : Bool := k.noWriter r && k.pushes.all (fun p => !p.reading.contains r)

/-- R102: no earlier push that is outstanding stands in the way. -/
def Core.scoreOk (k : Core) (p : Push) : Bool :=
  k.pushes.all (fun q => !decide (q.num < p.num) ||
    (q.writes.all (fun w => !p.reads.contains w && !p.writes.contains w) && p.writes.all (fun w => !q.reading.contains w)))

/-- R99: the first command of a queue that has not begun, when the engine may begin it. AX, VX and QX complete in
order, so nothing begins behind a command that waits; DX has at most 16 in flight. -/
def Core.nextToBegin (k : Core) (e : Engine) : Option Push :=
  match e with
  | .dx =>
    if (k.dx.filter (fun p => p.wait != .queued)).length < 16 then listFind (fun p => p.wait == .queued) k.dx
    else none
  | e => match k.queue e with
    | p :: _ => if p.wait == .queued then some p else none
    | [] => none

/-! ### Streams (R118 to R120) -/

/-- Stream `n` as core `c` names it: 0 to 7 its own, 8 to 23 those of its slice. -/
def State.stream (s : State) (c n : Nat) : Stream :=
  if n < 8 then (s.core c).streams.get {} n else s.cpu.reachStreams.get {} (c / 8 * 16 + (n - 8))
def State.setStream (s : State) (c n : Nat) (v : Stream) : State :=
  if n < 8 then s.updCore c (fun k => { k with streams := k.streams.put {} n v })
  else { s with cpu := { s.cpu with reachStreams := s.cpu.reachStreams.put {} (c / 8 * 16 + (n - 8)) v } }

/-- Chunks of the source tensor. -/
def Stream.total (st : Stream) : Nat :=
  let last := st.src.span.2 + 1 - st.src.base
  ceilDiv last (64 * st.chunk64)
def Stream.count (st : Stream) (ch : Nat) : Nat :=
  match listFind (fun e => e.1 == ch) st.counts with
  | some e => e.2
  | none => 0
/-- Chunk `ch` has been released by every consumer. -/
def Stream.done (st : Stream) (ch : Nat) : Bool := decide (ch < st.released) || decide (st.consumers ≤ st.count ch)
/-- Moves the released prefix over chunks that every consumer has released. -/
def Stream.advance : Nat → Stream → Stream
  | 0, st => st
  | n + 1, st =>
    if st.consumers ≤ st.count st.released then
      Stream.advance n { st with
        counts := st.counts.filter (fun e => e.1 != st.released)
        poison := st.poison.filter (· != st.released)
        released := st.released + 1 }
    else st
/-- One consumer releases chunk `ch`. -/
def Stream.release (st : Stream) (ch : Nat) : Stream :=
  let n := st.count ch + 1
  let st := { st with counts := (ch, n) :: st.counts.filter (fun e => e.1 != ch) }
  st.advance st.counts.length
/-- Every filled chunk has been released (R120). -/
def Stream.drained (st : Stream) : Bool := (List.range (st.filled - st.released)).all (fun i => st.done (st.released + i))
/-- Where chunk `ch` lies in the ring. -/
def Stream.chunkVa (st : Stream) (ch : Nat) : Nat := st.ring.base + ch % st.slots * (64 * st.chunk64)

/-- A chunk named by a prefix: STREAM_STATE (Table 4.10) when its stream is not open, or when the chunk is past
the source's end or already released. -/
def State.chunkFault (s : State) (c : Nat) (u : ChunkUse) : Bool :=
  let st := s.stream c u.stream
  !st.isOpen || decide (st.total ≤ u.chunk) || decide (u.chunk < st.released)
/-- The chunk is filled (R119). -/
def State.chunkReady (s : State) (c : Nat) (u : ChunkUse) : Bool := decide (u.chunk < (s.stream c u.stream).filled)
def State.chunkPoison (s : State) (c : Nat) (u : ChunkUse) : Bool := (s.stream c u.stream).poison.contains u.chunk

/-- The descriptor of operand `i` of a push: with a CHUNK prefix, its BASE is that of the chunk (R146). -/
def State.operand (s : State) (c : Nat) (p : Push) (i sel : Nat) : Desc :=
  let d := p.descs.getD i {}
  match listFind (fun u => u.operand == sel) p.chunks with
  | some u => { d with base := (s.stream c u.stream).chunkVa u.chunk }
  | none => d

/-- Closes the streams of a core whose program has ended (R120). -/
def State.closeStreams (s : State) (c : Nat) : State :=
  let s := s.updCore c (fun k => { k with streams := [] })
  { s with cpu := { s.cpu with
    reachStreams := s.cpu.reachStreams.filter (fun e => e.2.opener != c)
    latches := s.cpu.latches.filter (fun l => !(l.core == c && decide (2 ^ 32 ≤ l.push))) } }

/-- The number under which stream `n` latches a chamber; no push has it. -/
def streamLatch (n : Nat) : Nat := 2 ^ 32 + n

/-! ### Stopping (R162 to R165) -/

/-- STATUS of an ended core in Table 4.2: IDLE, HALTED or FAULTED. -/
def CoreState.ended : CoreState → Bool
  | .idle | .halted | .faulted => true
  | _ => false

/-- The core of Table 5.12: the first FAULTED, else the first HALTED, else the first. -/
def State.firstCore (s : State) (cores : List Nat) : Nat :=
  match listFind (fun c => (s.core c).state == .faulted) cores with
  | some c => c
  | none => match listFind (fun c => (s.core c).state == .halted) cores with
    | some c => c
    | none => cores.headD 0

/-- FIRST_CORE, CAUSE, PUSH and AETHOL_PC of a set of cores (Table 5.12). -/
def State.firstFault (s : State) (cores : List Nat) : Nat × Nat × Nat × Nat :=
  let c := s.firstCore cores
  let k := s.core c
  if cores.isEmpty then (Config.noCoreWord 0 % 2048, 0, wrap32 (Config.noCoreWord 1), wrap32 (Config.noCoreWord 2))
  else match k.state, k.faulting with
    | .faulted, some r => (c, r.cause, r.push, r.pc)
    | _, _ => (c, 0, k.pushCount, k.lastPc.getD (Config.noPushPc c))

/-- The result words of RUN (Table 5.12). -/
def State.runWords (s : State) (r : RunCmd) : List Nat :=
  let n := fun (t : CoreState) => (r.cores.filter (fun c => (s.core c).state == t)).length
  let (c, cause, push, pc) := s.firstFault r.cores
  let trunc := r.cores.any (fun c => (s.core c).truncated && (s.core c).state == .idle)
  let pend := (r.timedOut || s.aborting r.cmd) && r.cores.any (fun c => !(s.core c).pushes.isEmpty)
  [n .faulted * 2 ^ 16 + n .halted,
   b2n pend * 2 ^ 26 + b2n r.timedOut * 2 ^ 25 + b2n trunc * 2 ^ 24 + cause * 2 ^ 16 + c, push, pc]

/-- Completes a RUN whose cores have all ended (R165); their streams are closed (R120). -/
def State.finishRun (s : State) (r : RunCmd) : State :=
  if !s.held r.part && r.cores.all (fun c => (s.core c).state.ended) then
    let words := s.runWords r
    let bad := r.cores.any (fun c => (s.core c).state == .faulted)
    let s := r.cores.foldl (fun s c => (s.closeStreams c).updCore c (fun k => { k with holder := .none })) s
    let s := { s with cpu := { s.cpu with runs := s.cpu.runs.filter (fun q => q.cmd != r.cmd) } }
    s.commit r.cmd (if bad then stPartialFault else stDone) words
  else s

/-! ### Stages and their steps (R394, R395) -/

def State.stage (s : State) (n : Nat) : StageSlot := s.pipe.slots.get {} n
def State.updStage (s : State) (n : Nat) (f : StageSlot → StageSlot) : State :=
  { s with pipe := { s.pipe with slots := s.pipe.slots.upd {} n f } }

/-- The mapped cores of a set of slices. -/
def State.sliceCores (s : State) (slices : Nat) : List Nat :=
  ((bitsSet slices 192).flatMap (fun k => (List.range 8).map (fun c => 8 * k + c))).filter s.mapped

/-- Every entry of a step is DONE (R395). -/
def StageSlot.entriesDone (g : StageSlot) (r : StepRun) : Bool :=
  r.started && decide ((g.table.getD []).length ≤ r.next) && r.notices.isEmpty

/-- Every micro-batch of a step has committed. -/
def StageSlot.allCommitted (g : StageSlot) (r : StepRun) : Bool :=
  g.mbs.all (fun m => m.step != r.cmd || m.committed)

/-- Micro-batches of a step that have committed in every chunk of the stage. -/
def StageSlot.committedMbs (g : StageSlot) (r : StepRun) : Nat :=
  let mine := g.mbs.filter (fun m => m.step == r.cmd && m.committed)
  r.skip.length / g.cfg.v +
    ((mine.map (·.mb)).eraseDups.filter (fun i => (List.range g.cfg.v).all (fun v => mine.any (fun m => m.mb == i && m.v == v)))).length

/-- The result words of STEP_RUN (Table 11.12). -/
def State.stepWords (s : State) (g : StageSlot) (r : StepRun) (cores : List Nat) : List Nat :=
  let fault := cores.any (fun c => (s.core c).state == .faulted)
  let (c, cause, push, pc) := s.firstFault cores
  let trunc := cores.any (fun c => (s.core c).truncated && (s.core c).state == .idle)
  let pend := r.timedOut && cores.any (fun c => !(s.core c).pushes.isEmpty)
  [min (g.committedMbs r) 65535 * 2 ^ 16 + min r.takeovers 255 * 2 ^ 8 + b2n r.takenOver * 16 +
      b2n (g.dups != r.dups0) * 8 + b2n r.peerLost * 4 + b2n r.timedOut * 2 + b2n fault,
   b2n pend * 2 ^ 26 + b2n r.timedOut * 2 ^ 25 + b2n trunc * 2 ^ 24 + cause * 2 ^ 16 + c,
   if fault then push else 0, if fault then pc else 0]

/-- Completes the oldest STEP_RUN of a stage when it has ended (R395): its entries are DONE, its micro-batches have
committed and its cores have ended; or it timed out, was aborted or is stuck and its cores have ended. A step that a
takeover runs raises PIPE_STEP_DONE instead (R400). -/
def State.checkStep (s : State) (n : Nat) : State :=
  let g := s.stage n
  match g.steps with
  | [] => s
  | r :: rest =>
    let cores := s.sliceCores g.slices
    let stopped := r.timedOut || r.aborted || r.stuck
    let coresOk := rest.any (·.started) || cores.all (fun c => (s.core c).state.ended)
    if !s.held g.part && r.started && coresOk && (stopped || (g.entriesDone r && g.allCommitted r)) then
      let words := s.stepWords g r cores
      let bad := cores.any (fun c => (s.core c).state == .faulted)
      let s := if rest.isEmpty then cores.foldl (fun s c => s.updCore c (fun k =>
          if k.holder = .stage n then { k with holder := .none } else k)) s else s
      let s := s.updStage n (fun g => { g with
        steps := rest, mbs := g.mbs.filter (fun m => m.step != r.cmd),
        plan := { g.plan with evalRan := g.plan.evalRan || r.eval,
                              takeovers := if r.eval then g.plan.takeovers else min r.takeovers 255 } })
      if r.cmd = 0 then s.raise 0x0707 0 (partOnly g.part) words
      else s.commit r.cmd (if bad then stPartialFault else if r.peerGone then stPeerLost else stDone) words
    else s

/-! ### Models (R475, R495) -/

def State.model (s : State) (n : Nat) : ModelSlot := s.serv.models.get {} n
def State.updModel (s : State) (n : Nat) (f : ModelSlot → ModelSlot) : State :=
  { s with serv := { s.serv with models := s.serv.models.upd {} n f } }

/-- A core of a model has ended: an UNBIND completes with the last of them; a core that ended FAULTED ends the step
(R495), but for an uncorrectable pool word, whose step is replayed after the move (R572). -/
def State.checkModel (s : State) (n c : Nat) : State :=
  let m := s.model n
  let cores := s.sliceCores m.slices
  match m.closing with
  | some cmd =>
    if !s.held m.part && cores.all (fun c => (s.core c).state.ended) then
      let s := cores.foldl (fun s c => s.updCore c (fun k => { k with holder := .none })) s
      ({ s with serv := { s.serv with models := s.serv.models.put {} n {} } } : State).commit cmd stDone []
    else s
  | none =>
    let k := s.core c
    let cause := (k.faulting.map (·.cause)).getD 0
    if k.state = .faulted ∧ m.broken.isNone ∧ (cause ≠ pfPoolUe ∨ m.replayed) then
      s.updModel n (fun m => { m with broken := some cause })
    else s

/-- Completes the RUN or STEP_RUN that holds core `c` when all its cores have ended. -/
def State.checkRun (s : State) (c : Nat) : State :=
  match (s.core c).holder with
  | .run id => match listFind (fun r => r.cmd == id) s.cpu.runs with
    | some r => s.finishRun r
    | none => s
  | .stage n => s.checkStep n
  | .model n => s.checkModel n c
  | .none => s

/-- A fault record enters the status page (R129). -/
def Core.addRec (k : Core) (r : FaultRec) : Core :=
  let k := { k with faultCount := sat32 (k.faultCount + 1) }
  if k.faults.length < 8 then { k with faults := k.faults ++ [r] } else { k with faultLost := sat32 (k.faultLost + 1) }

/-- What a begun command waits for lies outside the core. -/
def Wait.outside : Wait → Bool
  | .chamber _ _ | .rebuild _ | .message _ _ _ | .other | .controller | .broken _ => true
  | _ => false

/-- A core leaves HALTED: no breakpoint has caused its next halt yet (Table 20.4 HIT). -/
def Core.clearHits (k : Core) : Core := { k with bps := k.bps.map (fun e => (e.1, { e.2 with hit := false })) }

/-- A core enters HALTED; a halt by the debug port is logged (DBG_HALT, severity 0). -/
def State.enterHalted (s : State) (c why : Nat) : State :=
  let k := s.core c
  let s := s.setCore c { k with
    state := .halted, halting := false, forced := false, stopping := false, stepping := false,
    dbgHalt := why != 0, haltWhy := 0 }
  let s := if why = 0 then s
    else s.record 0x0F04 0 (s.coreOwner c) srcCore (s.physCore c) c k.pushCount why k.haltBp (partOnly (s.coreOwner c))
  s.checkRun c

/-- A begun command keeps its core from stopping: not when an uncorrectable word holds it (R110), nor, when the stop is
forced, when what it waits for lies outside the core. -/
def Push.holds (p : Push) (forced : Bool) : Bool :=
  p.wait != .queued && p.wait != .stuck && !(forced && p.wait.outside)

/-- The core stops when what it waits for before stopping has come: a faulting core when the commands already
begun have run (R130), a halting core likewise (R164, R645), a core that reached STOP_AFTER or a STEP's end, or
executed END, when every push has completed (R162, R647, Table 5.3). -/
def State.settle (s : State) (c : Nat) : State :=
  let k := s.core c
  if k.state != .running then s.checkRun c
  else match k.faulting with
    | some r =>
      if k.pushes.any (fun p => p.num != r.push && p.holds k.forced) then s
      else ((s.setCore c { (k.addRec r) with state := .faulted, stepping := false }).closeStreams c).checkRun c
    | none =>
      if k.halting then
        if k.pushes.any (fun p => p.holds k.forced) then s
        else s.enterHalted c k.haltWhy
      else if k.stopping || (k.ended && k.stepping) then
        if !k.pushes.isEmpty then s else s.enterHalted c (if k.stepping then 3 else 0)
      else if k.ended then
        if !k.pushes.isEmpty then s else ((s.setCore c { k with state := .idle }).closeStreams c).checkRun c
      else s

/-- R79: at a command boundary that finds the array frozen, the AX commands that have not been issued are discarded. -/
def Core.dropUnissued (k : Core) : Core :=
  if k.array.state == .frozen then { k with ax := k.ax.filter (fun p => p.wait != .queued) } else k

/-- R79: on abort the instruction that a frozen array holds is discarded as well. -/
def State.dropFrozen (s : State) (c : Nat) : State :=
  s.updCore c (fun k =>
    if k.array.state == .frozen then
      { k with ax := k.ax.filter (fun p => match p.wait with
                 | .frozen _ => false
                 | _ => p.wait != .queued),
               array := { k.array with state := .idle, causes := [] } }
    else k)

/-- Halts a RUNNING core at a command boundary, one that is MOVING when its move has ended (R645): by the debug port (`why` 1 or 2, R645, R648), or at TIMEOUT_US and
ABORT (`why` 0, R164, R166), when commands that cannot complete stay as they are. -/
def State.haltCore (s : State) (c why bp : Nat) : State :=
  if (s.core c).state == .running || ((s.core c).state == .moving && (s.core c).movedFrom == .running) then
    (s.updCore c (fun k => { k.dropUnissued with
      halting := true, haltWhy := if why = 0 then k.haltWhy else why, haltBp := bp,
      forced := k.forced || why == 0 })).settle c
  else s

/-- Halts a set of cores of a partition, unless its job is saved (R164, R166, R395). -/
def State.haltCores (s : State) (part : Nat) (cores : List Nat) : State :=
  if s.held part then s else cores.foldl (fun s c => s.haltCore c 0 0) s

/-- Moves the program counter; at TRUNCATE, when an instruction stands there, the core acts as though it had executed
END (R163). -/
def State.goto (s : State) (c pc : Nat) : State :=
  (s.updCore c (fun k =>
    if pc = k.truncate ∧ pc < ((k.image.map (·.code.length)).getD 0) then { k with pc := pc, ended := true, truncated := true, prefixes := [] }
    else { k with pc := pc })).settle c

/-! ### The instruction wrapper -/

/-- Executes the instruction at the program counter of a core when it is the one that a row names; when the core
is not at such an instruction the event does not occur. -/
def onOp (c opc : Nat) (s : State) (body : Op → State → State) : Out :=
  onUnit (decide (c < 1536)) (.next (match (s.core c).fetch with
    | some o => if o.opc = opc then body o s else s
    | none => s))

/-- A scalar instruction: A ← f, and the program counter moves on. -/
def scalarOp (c opc : Nat) (s : State) (f : Op → Core → Nat) : Out :=
  onOp c opc s (fun o s => (s.updCore c (fun k => k.setReg o.a (f o k))).goto c ((s.core c).pc + o.len))

/-! ### Faults -/

/-- The write region of a push in a fault record. -/
def Push.region (p : Push) : Nat := p.write.getD 0

/-- The TAG of a push's destination descriptor, the first that it writes through. -/
def Push.tag (p : Push) : Nat :=
  match Op.ofWords [p.head] |>.opc with
  | 0x200 => (p.descs.getD 2 {}).tag
  | 0x202 => 0
  | 0x500 => 0
  | 0x501 => 0
  | 0x403 => (p.descs.getD 1 {}).tag
  | _ => (p.descs.getD 0 {}).tag

def Push.faultRec (p : Push) (e : Engine) (flags status mask cause first : Nat) : FaultRec :=
  ⟨flags, p.region, engineNum e, status, p.num, mask, cause, first, p.tag, p.pc⟩

/-- A command commits a program fault (R130): it is not executed, its core stops. -/
def State.programFault (s : State) (c : Nat) (e : Engine) (p : Push) (cause : Nat) : State :=
  (s.updCore c (fun k =>
    let k := k.setQueue e (delFirst (fun q => q.num == p.num) (k.queue e))
    if k.faulting.isSome then k.addRec (p.faultRec e 0 stProgramFault 0 cause 0xFF)
    else { k with faulting := some (p.faultRec e 0 stProgramFault 0 cause 0xFF) })).settle c

/-- An uncorrectable pool or basin word (R110): the command holds at that read and the core enters FAULTED. -/
def State.coreFault (s : State) (c : Nat) (e : Engine) (p : Push) (cause : Nat) : State :=
  (s.updCore c (fun k =>
    let k := k.updPush e p.num (fun q => { q with wait := .stuck })
    if k.faulting.isSome then k.addRec (p.faultRec e 0 stProgramFault 0 cause 0xFF)
    else { k with faulting := some (p.faultRec e 0 stProgramFault 0 cause 0xFF) })).settle c

/-- How a command that began ends. -/
structure Result where
  flags : Nat := 0
  status : Nat := stDone
  cause : Nat := 0
  first : Nat := 0xFF
  mask : Nat := 0
  /-- Its write region becomes poisoned. -/
  poison : Bool := false
  deriving DecidableEq, Repr

/-- PARTIAL_FAULT with poison in and out (R104). -/
def Result.poisoned : Result :=
  { flags := fPoisonIn + fPoisonOut, status := stPartialFault, poison := true }

/-- What beginning a command leads to. -/
inductive Act where
  /-- A program fault; nothing is written. -/
  | fault (cause : Nat)
  /-- An uncorrectable pool or basin word stands in the way (R110), by its key. -/
  | poolUe (key : Nat)
  /-- The command waits. -/
  | hold (w : Wait)
  /-- The array stops at a hard fault (R83, R84); the core goes on until CORE_MOVE (R165). -/
  | arrayHard (drainOnly : Bool)
  | done (r : Result)
  deriving DecidableEq, Repr

/-- A command leaves its queue: flags, region mark, fault record (R103, R128, R129). -/
def State.retire (s : State) (c : Nat) (e : Engine) (p : Push) (r : Result) : State :=
  (s.updCore c (fun k =>
    let k := k.setQueue e (delFirst (fun q => q.num == p.num) (k.queue e))
    let k := { k with flags := k.flags ||| (r.flags * 2 ^ (8 * engineNum e)) }
    let k := if r.poison || r.status == stPartialFault then
        { k with poison := p.writes.foldl (fun m w => setBit m w true) k.poison } else k
    if r.status = stDone then k
    else k.addRec (p.faultRec e r.flags r.status r.mask r.cause r.first))).settle c

/-- The STREAM_CLOSE commands of a core that wait and whose stream has drained free it and complete (R120). -/
def State.finishCloses (s : State) (c : Nat) : State :=
  ((s.core c).dx.filter (fun p => p.wait == .other)).foldl (fun s p =>
    let n := (Op.ofWords [p.head]).fl
    if (s.stream c n).drained then (s.setStream c n {}).retire c .dx p {} else s) s

/-- A command completes: it releases its chunks (R119) and leaves its queue. -/
def State.complete (s : State) (c : Nat) (e : Engine) (p : Push) (r : Result) : State :=
  let s := p.chunks.foldl (fun s u =>
    if u.release then s.setStream c u.stream ((s.stream c u.stream).release u.chunk) else s) s
  let s := s.retire c e p r
  if p.chunks.any (·.release) then
    (List.range 8).foldl (fun s i => s.finishCloses (c / 8 * 8 + i)) s
  else s

/-- Logs an uncorrectable pool word (R110): POOL_UE, severity 2, and the recovery that it begins. -/
def State.logPoolUe (s : State) (c key push : Nat) : State :=
  let off := if key ≥ 2 ^ 59 then (key - 2 ^ 59) * 8 % 2 ^ 23 else (key - 2 ^ 58) * 8 % 2 ^ 19
  let s := { s with mem := { s.mem with poolUe := s.mem.poolUe.put false key true } }
  let s := if key ≥ 2 ^ 59 then
      s.updReach ((key - 2 ^ 59) * 8 / 2 ^ 23) (fun r => { r with basinUe := sat32 (r.basinUe + 1) })
    else s
  (s.record 0x0203 2 (s.coreOwner c) srcCore (s.physCore c) off push 0 c [0]).beginRecovery 2 (s.coreOwner c)

/-- Acts on what beginning a command led to. -/
def State.conclude (s : State) (c : Nat) (e : Engine) (p : Push) : Act → State
  | .fault cause => s.programFault c e p cause
  | .poolUe key => (s.logPoolUe c key p.num).coreFault c e p pfPoolUe
  | .arrayHard d => s.updCore c (fun k => k.updPush e p.num (fun q => { q with wait := .broken d }))
  | .hold w => (s.updCore c (fun k => k.updPush e p.num (fun q => { q with wait := w }))).settle c
  | .done r => s.complete c e p r

/-- Lines of an extent found uncorrectable by this access are marked, counted and logged (R233). -/
def State.noteUes (s : State) (ue : List Nat) (part va n : Nat) : State :=
  (s.ueLines ue part va n).foldl (fun s l => s.lineUe l) s

/-- The same for a list of segments. -/
def State.noteSegs (s : State) (ue : List Nat) (part : Nat) (segs : List (Nat × Nat)) : State :=
  if ue.isEmpty then s else segs.foldl (fun s p => s.noteUes ue part p.1 p.2) s

/-- The first uncorrectable pool or basin word of a list of segments. -/
def State.segsUe (s : State) (ue : List Nat) (part : Nat) (segs : List (Nat × Nat)) : Option Nat :=
  if ue.isEmpty && s.mem.poolUe.isEmpty then none else segs.findSome? (fun p => s.extentUe ue part p.1 p.2)

/-- Some line of a list of segments is poisoned or uncorrectable. -/
def State.segsPoison (s : State) (ue : List Nat) (part : Nat) (segs : List (Nat × Nat)) : Bool :=
  segs.any (fun p => s.extentPoison ue part p.1 p.2)

/-- The command reads a poisoned region or chunk (R104, R120). -/
def State.readsPoison (s : State) (c : Nat) (p : Push) : Bool :=
  p.reads.any (bit (s.core c).poison) || p.chunks.any (s.chunkPoison c) || p.rngPoison

/-! ### Pushes (R97, R98, R151) -/

/-- How a descriptor takes part in the scoreboard (R101). -/
inductive Use where
  | read | write | other
  deriving DecidableEq, Repr

/-- The handles of a drain (Table 5.5) under its NCW: unused ones are `none`. -/
def drainUses (ncw w : Nat) : List (Option Nat × Use) :=
  [(some (bits w 11 0), .write), (if bit ncw 16 then some (bits w 23 12) else none, .read),
   (if bit ncw 17 then some (bits w 35 24) else none, .read),
   (if bit ncw 18 then some (bits w 47 36) else none, .read)]

/-- A VEW operation takes one, two or three sources (Table 5.4). -/
def vewArity (op : Nat) : Nat := if op ≥ 0x10 then 1 else if op = 3 ∨ op = 7 then 3 else 2

/-- The handles that an engine instruction names, in a fixed order, with their use. -/
def Op.handles (o : Op) : List (Option Nat × Use) :=
  let e0 := o.e 0
  match o.opc with
  | 0x200 => [(some (bits e0 43 32), .read), (if bit o.fl 3 then none else some (bits e0 55 44), .read)] ++
      (if bit o.fl 5 then drainUses (bits e0 31 0) (o.e 1) else [])
  | 0x201 => drainUses (bits e0 31 0) (o.e 1)
  | 0x202 => [(some (bits e0 11 0), .read)]
  | 0x300 =>
    let n := vewArity (bits o.imm 7 0)
    [(some (bits e0 11 0), .write), (some (bits e0 23 12), .read),
     (if n ≥ 2 && !bit o.fl 0 then some (bits e0 35 24) else none, .read),
     (if n ≥ 3 then some (bits e0 47 36) else none, .read)]
  | 0x301 => [(some (bits e0 11 0), .write), (some (bits e0 23 12), .read)]
  | 0x302 => [(some (bits e0 11 0), .write), (some (bits e0 23 12), .read), (some (bits e0 35 24), .other)]
  | 0x320 => [(some (bits e0 11 0), .write), (some (bits e0 23 12), .read)]
  | 0x321 => [(some (bits o.imm 11 0), .write)]
  | 0x400 => [(some (bits e0 11 0), .write), (some (bits e0 23 12), .read)]
  | 0x401 | 0x402 => [(some (bits e0 11 0), .write), (some (bits e0 23 12), .read), (some (bits e0 35 24), .read)]
  | 0x403 => [(some (bits e0 11 0), .read), (some (bits e0 23 12), .write)]
  | 0x500 => [(some (bits e0 11 0), .read)]
  | 0x501 => [(some (bits e0 11 0), .read)]
  | 0x502 => [(some (bits e0 11 0), .write)]
  | _ => []

/-- The RNG handle, when the NCW rounds stochastically. -/
def Op.rngHandle (o : Op) : Option Nat :=
  match o.opc with
  | 0x200 => if bit o.fl 5 && bit (o.e 0) 19 then some (bits (o.e 2) 11 0) else none
  | 0x201 => if bit (o.e 0) 19 then some (bits (o.e 2) 11 0) else none
  | 0x302 => if bit (o.e 1) 19 then some (bits (o.e 0) 47 36) else none
  | _ => none

/-- The queue of an engine instruction (Table 5.3). -/
def Op.engine (o : Op) : Engine :=
  if o.opc < 0x300 then .ax else if o.opc < 0x400 then .vx else if o.opc < 0x500 then .dx else .qx

/-- The fault that naming a handle is (R105): HANDLE_RESERVED, or DESC_LEVEL for a slot that is not usable. -/
def Core.handleFault (k : Core) (h : Nat) : Option Nat :=
  if h ≥ 0x100 then some pfHandleReserved else if (k.slot h).level ≠ 1 then some pfDescLevel else none

/-- Builds the queue entry of an instruction (R97). -/
def State.makePush (s : State) (c : Nat) (o : Op) (group : Nat) (release : Bool) : Push :=
  let k := s.core c
  let part := s.coreOwner c
  let hs := o.handles
  let descs := hs.map (fun h => match h.1 with
    | some i => k.slot i
    | none => {})
  let named := hs.filterMap (·.1)
  let rngVa := o.rngHandle.map (fun h => (k.slot h).base)
  let tag := fun (i : Nat) => if (k.slot i).regionEn then some (k.slot i).region else none
  let region := fun (u : Use) => hs.filterMap (fun h => if h.2 = u then h.1.bind tag else none)
  { num := k.pushCount, pc := k.pc, head := o.head, ext := o.ext,
    a := k.reg o.a, b := k.reg o.b, c := k.reg o.c, descs := descs,
    chunks := k.prefixes.map (fun u => { u with release := u.release && release }),
    rng := rngVa.map (fun va => RngCtx.ofBytes (s.readVA part va 24)),
    rngPoison := rngVa.any (fun va => s.extentPoison [] part va 24),
    reads := (region .read ++ (o.rngHandle.bind tag).toList).eraseDups,
    write := if o.opc = 0x310 then some o.fl else (region .write).head?,
    also := if o.opc = 0x302 then region .other else [],
    group := group,
    fault := match (named ++ o.rngHandle.toList).findSome? k.handleFault with
      | some f => some f
      | none => rngVa.bind (fun va => match s.extentFault part va 24 false with
        | some cause => some (pfOfCause cause)
        | none => (s.extentUe [] part va 24).map (fun _ => pfPoolUe)),
    wait := .queued }

/-- The uncorrectable word that a push meets when it copies its RNG context (R97, R110). -/
def State.rngUe (s : State) (c : Nat) (o : Op) : Option Nat :=
  o.rngHandle.bind (fun h => s.extentUe [] (s.coreOwner c) ((s.core c).slot h).base 24)

/-- A breakpoint that hits before the push that the core is about to make (R648): its number. -/
def Core.hitBp (k : Core) : Option Nat :=
  if k.stepFirst then none
  else listFind (fun b =>
    let p := k.bps.get {} b
    p.en && (if p.isPc then p.value == k.pc && k.group == 0 else p.value == k.pushCount)) [0, 1, 2, 3]

/-- Halts at a breakpoint; with ALL, every RUNNING core of the partition halts (R648). -/
def State.breakAt (s : State) (c b : Nat) : State :=
  let all := ((s.core c).bps.get {} b).all
  let part := s.coreOwner c
  let s := (s.updCore c (fun k => { k with bps := k.bps.upd {} b (fun p => { p with hit := true }) })).haltCore c 2 b
  if all then
    (s.cpu.cores.map (·.1)).foldl (fun s d => if s.coreOwner d = part then s.haltCore d 2 b else s) s
  else s

/-- Counts a push and stops at STOP_AFTER or at the end of a STEP (R98, R162, R647). -/
def Core.countPush (k : Core) : Core :=
  let n := wrap32 (k.pushCount + 1)
  let left := if k.stepping then k.stepLeft - 1 else k.stepLeft
  { k with
    pushCount := n, lastPc := some k.pc, stepFirst := false, stepLeft := left,
    stopping := k.stopping || (k.stopAfter != 0 && n == k.stopAfter) || (k.stepping && left == 0) }

/-- Pushes one command (R96, R97, R98): waits at a full queue, halts at a breakpoint. `last` is false for the
pushes of a split gather or scatter that another push follows (R151). -/
def State.pushOne (s : State) (c : Nat) (o : Op) (last : Bool) : State :=
  let k := s.core c
  if (k.queue o.engine).length ≥ 64 then s
  else match k.hitBp with
    | some b => s.breakAt c b
    | none =>
      let p := s.makePush c o k.group last
      let s := if p.fault = some pfPoolUe then s.logPoolUe c ((s.rngUe c o).getD 0) k.pushCount else s
      let s := s.updCore c (fun k =>
        let k := (k.setQueue o.engine (k.queue o.engine ++ [p])).countPush
        if last then { k with group := 0, prefixes := [] } else { k with group := k.group + 1 })
      if last then s.goto c (k.pc + o.len) else s.settle c

/-! ### The core status page (Table 4.11) -/

def CoreState.code : CoreState → Nat
  | .idle => 0 | .running => 1 | .halted => 2 | .faulted => 3 | .moving => 4
def ArrayState.code : ArrayState → Nat
  | .idle => 0 | .run => 1 | .frozen => 2 | .halted => 3

/-- Tiles that are poisoned, bit t for tile t. -/
def Core.tilePoison (k : Core) : Nat := maskOf ((List.range 8).filter (fun t => (k.tiles.get {} t).poisoned))

/-- The array counter page (Table 3.6). DESIGN CHOICE: the spec only names the codes of ARRAY_STATE; it reads RUN while
the AX queue holds a command, begun or not, and the array is neither frozen nor halted, and IDLE with an empty queue. -/
def Core.arrayWord (k : Core) (off : Nat) : Nat :=
  let a := k.array
  match off with
  | 0x00 => lo32 a.beats
  | 0x04 => hi32 a.beats
  | 0x08 => lo32 a.instructions
  | 0x0C => hi32 a.instructions
  | 0x10 => lo32 a.freezeFeedNs
  | 0x14 => hi32 a.freezeFeedNs
  | 0x18 => lo32 a.freezeDrainNs
  | 0x1C => hi32 a.freezeDrainNs
  | 0x20 => a.freezes
  | 0x24 => a.longFreezes
  | 0x28 => a.checkRetry
  | 0x2C => a.checkHard
  | 0x30 => a.checkSkipped
  | 0x34 => a.sentinel
  | 0x38 => k.tilePoison * 4 +
      (if a.state == .idle && !k.ax.isEmpty then ArrayState.run.code else a.state.code)
  | _ => 0

/-- A fault record's four words (Table 4.9). -/
def FaultRec.words (r : FaultRec) : List Nat :=
  [r.flags * 2 ^ 24 + r.region * 2 ^ 18 + r.engine * 2 ^ 16 + r.status, r.push,
   r.mask * 2 ^ 16 + r.cause * 2 ^ 8 + r.first, r.tag]

/-- How long QX has held its message or contribution for a full queue by the time `clk`. -/
def Core.stallNow (k : Core) (clk : Nat) : Nat :=
  match k.qx with
  | p :: _ => match p.wait with
    | .message since _ _ => if since = 0 then 0 else clk + 1 - since
    | _ => 0
  | [] => 0

/-- The word of the core status page at an offset, read at time `clk`. -/
def Core.statusWord (k : Core) (clk off : Nat) : Nat :=
  let busy := maskOf ((List.range 64).filter (fun r => !k.noWriter r))
  if off < 0x40 then k.arrayWord off
  else match off with
    | 0x40 => k.state.code
    | 0x44 => k.ax.length + k.vx.length * 2 ^ 8 + k.dx.length * 2 ^ 16 + k.qx.length * 2 ^ 24
    | 0x48 => k.flags
    | 0x4C => k.pushCount
    | 0x50 => lo32 k.poison
    | 0x54 => hi32 k.poison
    | 0x58 => lo32 busy
    | 0x5C => hi32 busy
    | 0x60 => k.eccCorrected
    | 0x64 => k.faultCount
    | 0x68 => k.faultLost
    | 0x6C => sat32 (k.qxStallNs + k.stallNow clk)
    | _ =>
      if off < 0x80 then 0
      else match k.faults[(off - 0x80) / 16]? with
        | some r => r.words.getD ((off - 0x80) / 4 % 4) 0
        | none => 0

end Sys2Proof.Machine
end

