-- ==== Sys2Proof/Machine/Chamber.lean ====
section
/-! DEFINITION. Lock chambers (R50 to R56): headers, latching, flips and rebuilds. -/

namespace Sys2Proof.Machine

/-- A lock-chamber header (Table 2.10). -/
structure Chamber where
  word : Nat
  wordC : Nat
  gen : Nat
  entriesM1 : Nat
  entryBytes : Nat
  bank0 : Nat
  bank1 : Nat
  deriving DecidableEq, Repr

def chRescale : Nat := 1
def chRouting : Nat := 2
def chCodebook : Nat := 3

/-- Reads the header at `va`. -/
def State.chamber (s : State) (part va : Nat) : Chamber :=
  let w := s.readNat part va 32
  { word := bits w 31 0, wordC := bits w 63 32, gen := bits w 95 64, entriesM1 := bits w 111 96,
    entryBytes := bits w 119 112, bank0 := bits w 191 128, bank1 := bits w 255 192 }

def Chamber.pairOk (h : Chamber) : Bool := pair32 h.word h.wordC
/-- R14: a header whose pair holds and whose LEVEL is not the running one is refused. DEDUCED: an engine refuses it as it
refuses a descriptor, with cause DESC_LEVEL. -/
def Chamber.levelFault (h : Chamber) : Option Nat := if h.pairOk && bits h.word 3 0 != 1 then some pfDescLevel else none
def Chamber.kind (h : Chamber) : Nat := bits h.word 7 4
def Chamber.active (h : Chamber) : Nat := bits h.word 8 8
def Chamber.idle (h : Chamber) : Nat := 1 - h.active
/-- VALID of a bank; a header that fails its pair check holds no valid bank (R56). -/
def Chamber.valid (h : Chamber) (b : Nat) : Bool := h.pairOk && bit h.word (9 + b)
def Chamber.rebuilding (h : Chamber) : Bool := h.pairOk && bit h.word 11
def Chamber.bank (h : Chamber) (b : Nat) : Nat := if b = 0 then h.bank0 else h.bank1
def Chamber.entries (h : Chamber) : Nat := h.entriesM1 + 1
def Chamber.bytes (h : Chamber) : Nat := h.entries * h.entryBytes

/-- Writes LC_WORD and its complement together. -/
def State.writeLcWord (s : State) (part va w : Nat) : State :=
  s.writeNat part va (w % 2 ^ 32 + compl32 w * 2 ^ 32) 8
def State.writeLcGen (s : State) (part va g : Nat) : State := s.writeNat part (va + 8) (wrap32 g) 4

/-- The physical place of a header, by which latches and deferred flips name its chamber. -/
def placeKey : Place → Nat × Nat
  | .pool c o => (0, c * 2 ^ 19 + o)
  | .basin r o => (1, r * 2 ^ 23 + o)
  | .tier d => (2, d)
  | .fresh d => (2, d)
  | .view w o => (4, w * 2 ^ 48 + o)
  | .fail c => (3, c)
def State.chamberKey (s : State) (part va : Nat) : Nat × Nat := placeKey (s.translate part va false)

/-- The record of a failed pair check (R56): LC_PAIR_FAULT, severity 2. -/
def State.logPairFault (s : State) (part c va entry : Nat) : State :=
  s.record 0x0206 2 part srcCore (s.physCore c) (lo32 va) (hi32 va) entry c (partOnly part)

/-- A flip (R53): the other bank becomes ACTIVE and GENERATION rises, when that bank is valid. -/
def State.flip (s : State) (part va : Nat) : State :=
  let h := s.chamber part va
  if h.valid h.idle then
    (s.writeLcWord part va (setBit h.word 8 (h.idle == 1))).writeLcGen part va (h.gen + 1)
  else s

/-- Runs the flips that were deferred to the end of a rebuild (R53). -/
def State.runDeferred (s : State) (part va : Nat) : State :=
  let key := s.chamberKey part va
  let n := (s.cpu.deferredFlips.filter (· == key)).length
  let s := { s with cpu := { s.cpu with deferredFlips := s.cpu.deferredFlips.filter (· != key) } }
  (List.range n).foldl (fun s _ => s.flip part va) s

/-- A flip request (R53): deferred while a rebuild runs, without effect when the idle bank is not valid. -/
def State.requestFlip (s : State) (part va : Nat) : State :=
  if (s.chamber part va).rebuilding then
    { s with cpu := { s.cpu with deferredFlips := s.cpu.deferredFlips ++ [s.chamberKey part va] } }
  else s.flip part va

/-- A running command has latched bank `b` of the chamber (either bank for `b` = 2). -/
def State.latched (s : State) (key : Nat × Nat) (b : Nat) : Bool :=
  s.cpu.latches.any (fun l => (l.space, l.key) == key && (b == 2 || l.bank == b))

/-- Forgets what a command has latched. -/
def State.unlatch (s : State) (c push : Nat) : State :=
  { s with cpu := { s.cpu with latches := s.cpu.latches.filter (fun l => !(l.core == c && l.push == push)) } }

/-- What a consumer meets at a chamber (R55). -/
inductive Latching where
  | bank (b : Nat)
  /-- The ACTIVE bank is not valid and a rebuild runs: wait for the flip after this generation. -/
  | stall (gen : Nat)
  | empty
  deriving DecidableEq, Repr

/-- Latches the ACTIVE bank for a command (R52, R54), unless the command has latched before. -/
def State.latch (s : State) (part c push va : Nat) : Latching :=
  let key := s.chamberKey part va
  match listFind (fun l => (l.space, l.key) == key && l.core == c && l.push == push) s.cpu.latches with
  | some l => .bank l.bank
  | none =>
    let h := s.chamber part va
    if h.valid h.active then .bank h.active
    else if h.rebuilding then .stall h.gen
    else .empty

/-- Records what a command has latched. -/
def State.addLatch (s : State) (part c push va b : Nat) : State :=
  let (sp, k) := s.chamberKey part va
  { s with cpu := { s.cpu with latches := ⟨sp, k, b, c, push⟩ :: s.cpu.latches } }

/-- The records that an empty chamber calls for (R55, R56): LC_PAIR_FAULT when its word fails, and LC_EMPTY. -/
def State.logEmpty (s : State) (part c push va : Nat) : State :=
  let s := if (s.chamber part va).pairOk then s else s.logPairFault part c va 0xFFFFFFFF
  s.record 0x0201 1 part srcCore (s.physCore c) (lo32 va) (hi32 va) push c (partOnly part)

/-- R53 step 1: the idle bank's VALID is cleared, REBUILDING and FLIP_ON_DONE are set in one write. -/
def State.startRebuild (s : State) (part va : Nat) (flipOnDone : Bool) : State :=
  let h := s.chamber part va
  s.writeLcWord part va (setBit (setBit (setBit h.word (9 + h.idle) false) 11 true) 12 flipOnDone)

/-- R53 steps 4 and 5: the idle bank becomes valid, REBUILDING clears, and the chamber flips when asked; then the
deferred flips run. -/
def State.endRebuild (s : State) (part va : Nat) : State :=
  let h := s.chamber part va
  let s := s.writeLcWord part va (setBit (setBit h.word (9 + h.idle) true) 11 false)
  (if bit h.word 12 then s.flip part va else s).runDeferred part va

/-- R56: the rebuild that restores a chamber whose word failed its pair check writes bank 0 and a new word. -/
def State.restoreWord (s : State) (part va kind : Nat) : State :=
  let h := s.chamber part va
  (s.writeLcWord part va (2 ^ 9 + kind * 16 + 1)).writeLcGen part va (h.gen + 1)

/-- The bytes of entry `j` of a bank. -/
def State.entry (s : State) (part : Nat) (h : Chamber) (b j : Nat) : List Byte :=
  s.readVA part (h.bank b + j * h.entryBytes) h.entryBytes

end Sys2Proof.Machine
end

