-- ==== Sys2Proof/Machine/Compress.lean ====
section
/-! DEFINITION. W4 and A8 compression (09): blocks, codebooks, encoding, expansion. -/

namespace Sys2Proof.Machine

/-- Elements of a block and codebook entries (Table 9.1). -/
def blockElems (comp : Nat) : Nat := if comp = 2 then 4096 else 256
def bookEntries (comp : Nat) : Nat := if comp = 2 then 256 else 16
/-- Bytes of a block's codebook. -/
def bookBytes (comp : Nat) : Nat := if comp = 2 then 512 else 16

/-- Exact comparison of two finite values, −0 equal to +0. -/
def leNum (a b : Num) : Bool := !(b.lt a)

/-- Inserts into a list sorted ascending. -/
def insertNum (x : Num × Nat) : List (Num × Nat) → List (Num × Nat)
  | [] => [x]
  | y :: t => if leNum x.1 y.1 then x :: y :: t else y :: insertNum x t

def sortNums : List (Num × Nat) → List (Num × Nat)
  | [] => []
  | x :: t => insertNum x (sortNums t)

/-- The block holds a NaN or an infinity (R288). -/
def blockNonFinite (fmt : Nat) (codes : List Nat) : Bool := codes.any (fun c => !(decodeElem fmt c).isFinite)

/-- R288, R290: the codebook of a block. -/
def buildBook (comp fmt : Nat) (codes : List Nat) : List Nat :=
  let n := bookEntries comp
  if blockNonFinite fmt codes then List.replicate n (((floatFmt fmt).map (·.canon)).getD 0)
  else
    let sorted := sortNums (codes.map (fun c => (decodeElem fmt c, c)))
    (List.range n).map (fun k =>
      let r := if comp = 2 then k * 4095 / 255 else 17 * k
      match sorted[r]? with
      | some (v, c) => if v.isZero then 0 else c
      | none => 0)

/-- The exact distance of two finite values as a magnitude. -/
def numDist (a b : Num) : Num := (a.add b.negate).abs

/-- The index of the entry nearest to `x`, the lower on a tie (R289). -/
def nearestFrom (x : Num) : List Num → Nat → Nat → Num → Nat
  | [], _, best, _ => best
  | e :: t, i, best, d =>
    let d' := numDist x e
    if d'.lt d then nearestFrom x t (i + 1) i d' else nearestFrom x t (i + 1) best d

def nearest (book : List Num) (x : Num) : Nat :=
  match book with
  | [] => 0
  | e :: t => nearestFrom x t 1 0 (numDist x e)

/-- R289, R290: the codes of a block. -/
def encodeBlock (fmt : Nat) (book codes : List Nat) : List Nat :=
  if blockNonFinite fmt codes then codes.map (fun _ => 0)
  else
    let b := book.map (decodeElem fmt)
    codes.map (fun c => nearest b (decodeElem fmt c))

/-- Entry bytes of a codebook (R287). -/
def bookToBytes (fmt : Nat) (book : List Nat) : List Byte := book.flatMap (fun e => toBytes e (elemBits fmt / 8))

/-- Code bytes of a block (R283). -/
def codeBytes (comp : Nat) (codes : List Nat) : List Byte :=
  if comp = 2 then codes.map (BitVec.ofNat 8) else packRow 4 codes

/-- Blocks of a compressed tensor: one per CB bytes of every plane. -/
def Desc.blocks (d : Desc) : Nat := d.count / blockElems d.comp

/-- The plane and position in it of logical block `b`, in block order. -/
def Desc.blockAddr (d : Desc) (b : Nat) : Nat :=
  let perPlane := d.dim0 * d.dim1 / blockElems d.comp
  let pl := b / perPlane
  d.base + 64 * (pl / d.dim2 * d.stride3 + pl % d.dim2 * d.stride2) + b % perPlane * d.codeBlock

/-- The block index of an address in the tensor (R284). -/
def Desc.blockIndex (d : Desc) (a : Nat) : Nat := (a - d.base) / d.codeBlock

/-- Codebook entries of a chamber that one block takes (R287). -/
def bookSlots (comp : Nat) : Nat := if comp = 2 then 8 else 1

/-- The element indices of block `b`, in block order: tiles of 16 × 16, row-major inside (R283). -/
def Desc.blockElemIdx (d : Desc) (b : Nat) : List Nat :=
  let perPlane := d.dim0 * d.dim1 / blockElems d.comp
  let pl := b / perPlane
  let tilesPer := blockElems d.comp / 256
  (List.range tilesPer).flatMap (fun t =>
    let tile := b % perPlane * tilesPer + t
    let r0 := tile / (d.dim0 / 16) * 16
    let c0 := tile % (d.dim0 / 16) * 16
    (List.range 256).map (fun i => (pl * d.dim1 + r0 + i / 16) * d.dim0 + c0 + i % 16))

/-- The codebook lives in a chamber when BASE lies in the on-chip window (R286). -/
def onChip (va : Nat) : Bool := decide (va ≥ 0xFF0000000000)

/-- The address of block `j`'s codebook: in bank `b` of the chamber, or in the array. -/
def Desc.bookVa (d : Desc) (h : Chamber) (b j : Nat) : Nat :=
  if onChip d.base then h.bank b + j * bookBytes d.comp else d.chamberAddr + j * bookBytes d.comp

/-- R297: the chamber does not fit the tensor. -/
def Desc.bookMismatch (d : Desc) (h : Chamber) (j : Nat) : Bool :=
  h.kind != chCodebook || h.entryBytes != (if d.comp = 2 then 64 else 16) ||
    decide (h.entries < bookSlots d.comp * (j + 1))

/-- Expands the element at stored row `r` and column `c` (R289, R296): its code selects an entry of its block's
codebook. -/
def State.expandAt (s : State) (part : Nat) (d : Desc) (h : Chamber) (b r c : Nat) : Nat :=
  let seg := d.segAddr r (c / 16)
  let code := unpackElem (if d.comp = 2 then fmtInt8 else 4) (s.readVA part seg (2 * d.codeBits)) (c % 16)
  let eb := elemBits d.format / 8
  s.readNat part (d.bookVa h b (d.blockIndex seg) + code * eb) eb

end Sys2Proof.Machine
end

