-- ==== Sys2Proof/Machine/Special.lean ====
section
/-! DEFINITION. The correctly rounded functions of R112 and the quotients of R49 and R250: exact integer
arithmetic for reciprocal, sqrt and rsqrt; fixed point with 200 bits below the leading bit for exp2, log2, tanh
and erf (UNVERIFIED that no FP32 argument lies closer to a rounding boundary than 2^-190 relative). -/

namespace Sys2Proof.Machine

/-- Integer square root, bit by bit from bit `k`. -/
def isqrtFrom (n : Nat) : Nat → Nat → Nat
  | 0, r => r
  | k + 1, r =>
    let c := r + 2 ^ k
    isqrtFrom n k (if c * c ≤ n then c else r)

/-- floor(sqrt n). -/
def isqrt (n : Nat) : Nat := isqrtFrom n (Nat.log2 n / 2 + 1) 0

/-- Correctly rounded square root (R112). -/
def Fmt.sqrt (f : Fmt) (v : Num) : Nat :=
  match v with
  | .nan => f.canon
  | .inf s => if s then f.canon else f.infCode
  | .zero s => f.signed s 0
  | .fin s n e =>
    if s then f.canon
    else
      -- scale so that the root has at least 2 fb + 8 bits, with an even exponent
      let k : Nat := 4 * f.fb + 16
      let k := if (e - k) % 2 = 0 then k else k + 1
      let m := n * 2 ^ k
      let r := isqrt m
      (f.roundQ .rne false false (2 * r + b2n (r * r != m)) 2 ((e - k) / 2)).code

/-- Correctly rounded reciprocal (R112). -/
def Fmt.recip (f : Fmt) (v : Num) : Nat :=
  match v with
  | .nan => f.canon
  | .inf s => f.signed s 0
  | .zero s => f.signed s f.infCode
  | .fin s n e => (f.roundQ .rne false s 1 n (-e)).code

/-- Correctly rounded reciprocal square root (R112). -/
def Fmt.rsqrt (f : Fmt) (v : Num) : Nat :=
  match v with
  | .nan => f.canon
  | .inf s => if s then f.canon else 0
  | .zero s => f.signed s f.infCode
  | .fin s n e =>
    if s then f.canon
    else
      let k : Nat := 2 * (Nat.log2 n + 2 * f.fb + 16)
      let (k, h) := if (e + k) % 2 = 0 then (k, (e + k) / 2) else (k + 1, (e + k + 1) / 2)
      -- 1 / sqrt(n 2^e) = sqrt(2^k / n) * 2^(-(e + k) / 2)
      let q := 2 ^ k / n
      let r := isqrt q
      (f.roundQ .rne false false (2 * r + b2n (r * r * n != 2 ^ k)) 2 (-h)).code

/-- Rounds the exact quotient (n / d) × 2^e of R49. -/
def Fmt.quotient (f : Fmt) (v : Num) (d : Nat) : Nat :=
  match v with
  | .fin s n e => (f.roundQ .rne false s n d e).code
  | w => f.rne w

/-- Working precision of the series, in bits. -/
def prec : Nat := 256

/-- The number one in the working precision. -/
def fxOne : Nat := 2 ^ prec

/-- Product of two fixed-point numbers. -/
def fxMul (a b : Nat) : Nat := a * b / fxOne

/-- Sum of z^(2k+1) / (2k+1), the series of atanh, from term `z`. -/
def atanhSeries (z2 : Nat) : Nat → Nat → Nat → Nat
  | 0, _, _ => 0
  | fuel + 1, k, t => t / (2 * k + 1) + atanhSeries z2 fuel (k + 1) (fxMul t z2)

/-- atanh of a fixed-point number not above 1/3. -/
def fxAtanh (z : Nat) : Nat := atanhSeries (fxMul z z) 90 0 z

/-- ln 2. -/
def fxLn2 : Nat := 2 * fxAtanh (fxOne / 3)

/-- ln of n / d in [1, 2), as 2 atanh((n - d) / (n + d)). -/
def fxLn (n d : Nat) : Nat := 2 * fxAtanh ((n - d) * fxOne / (n + d))

/-- Sum of t x^j / j! from term number `k`. -/
def expSeries (x : Nat) : Nat → Nat → Nat → Nat
  | 0, _, _ => 0
  | fuel + 1, k, t => t + expSeries x fuel (k + 1) (fxMul t x / (k + 1))

/-- e^x for a fixed-point x in [0, 1). -/
def fxExp (x : Nat) : Nat := expSeries x 70 0 fxOne

/-- 2^f for a fixed-point f in [0, 1). -/
def fxExp2 (f : Nat) : Nat := fxExp (fxMul f fxLn2)

/-- 2^x correctly rounded to FP32 (R112). -/
def exp2F (v : Num) : Nat :=
  let f := fmtFP32
  match v with
  | .nan => f.canon
  | .inf s => if s then 0 else f.infCode
  | .zero _ => f.rne (.fin false 1 0)
  | .fin s n e =>
    let lg := (Nat.log2 n : Int) + e
    if lg ≥ 9 then (if s then 0 else f.infCode)
    else if lg < -40 then f.rne (.fin false 1 0)
    else
      -- x = k + frac, frac in [0, 1) in fixed point
      let a : Int := (n * 2 ^ (prec + e).toNat : Nat)
      let m := if s then -a else a
      let k := m / (fxOne : Int)
      let fr := (m % (fxOne : Int)).toNat
      if fr = 0 then f.rne (.fin false 1 k)
      else (f.roundQ .rne false false (2 * fxExp2 fr + 1) 1 (k - prec - 1)).code

/-- log2 x correctly rounded to FP32 (R112). -/
def log2F (v : Num) : Nat :=
  let f := fmtFP32
  match v with
  | .nan => f.canon
  | .inf s => if s then f.canon else f.infCode
  | .zero _ => f.signed true f.infCode
  | .fin s n e =>
    if s then f.canon
    else
      let b := Nat.log2 n
      let k := (b : Int) + e
      let frac := fxLn n (2 ^ b) * fxOne / fxLn2
      let total : Int := k * (fxOne : Int) + frac
      if n = 2 ^ b then f.rne (Num.ofInt k 0)
      else (f.roundQ .rne false (decide (total < 0)) (2 * total.natAbs + 1) 1 (-(prec : Int) - 1)).code

/-- tanh x correctly rounded to FP32 (R112). -/
def tanhF (v : Num) : Nat :=
  let f := fmtFP32
  match v with
  | .nan => f.canon
  | .inf s => f.rne (.fin s 1 0)
  | .zero s => f.signed s 0
  | .fin s n e =>
    let lg := (Nat.log2 n : Int) + e
    if lg ≥ 5 then f.rne (.fin s 1 0)
    else if lg < -40 then f.rne (.fin s n e)
    else
      -- y = 2|x| log2(e), e^(2|x|) = 2^k * 2^fr
      let x2 := n * 2 ^ (prec + 1 + e).toNat
      let y := x2 * fxOne / fxLn2
      let k := y / fxOne
      let ex := fxExp2 (y % fxOne) * 2 ^ k
      (f.roundQ .rne false s (2 * (ex - fxOne) + 1) (2 * (ex + fxOne)) 0).code

/-- arctan series of 1 / x, alternating, for Machin's formula. -/
def atanInv (x2 : Nat) : Nat → Nat → Nat → Int
  | 0, _, _ => 0
  | fuel + 1, k, t => ((t / (2 * k + 1) : Nat) : Int) - atanInv x2 fuel (k + 1) (t / x2)

/-- pi. -/
def fxPi : Nat := (16 * atanInv 25 130 0 (fxOne / 5) - 4 * atanInv (239 * 239) 60 0 (fxOne / 239)).toNat

/-- The alternating series of erf times sqrt(pi) / 2: sum of (-1)^k x^(2k+1) / (k! (2k+1)). -/
def erfSeries (x2 : Nat) : Nat → Nat → Nat → Int
  | 0, _, _ => 0
  | fuel + 1, k, t => ((t / (2 * k + 1) : Nat) : Int) - erfSeries x2 fuel (k + 1) (fxMul t x2 / (k + 1))

/-- erf x correctly rounded to FP32 (R112). -/
def erfF (v : Num) : Nat :=
  let f := fmtFP32
  match v with
  | .nan => f.canon
  | .inf s => f.rne (.fin s 1 0)
  | .zero s => f.signed s 0
  | .fin s n e =>
    let lg := (Nat.log2 n : Int) + e
    let rootPi := isqrt (fxPi * fxOne)
    if lg ≥ 3 then f.rne (.fin s 1 0)
    else if lg < -40 then
      -- 2 x / sqrt(pi), the next term is far below the last bit
      (f.roundQ .rne false s (2 * n * fxOne) rootPi e).code
    else
      let x := n * 2 ^ (prec + e).toNat
      let sum := erfSeries (fxMul x x) 260 0 x
      (f.roundQ .rne false s (2 * sum.toNat) rootPi 0).code

end Sys2Proof.Machine
end

