-- ==== Sys2Proof/Machine/Arrays.lean ====
section
/-! DEFINITION. The matrix array (03): what MMA, DRAIN, ACC_LOAD and ACC_CLEAR do when AX executes them. -/

namespace Sys2Proof.Machine

/-! ### Pairings and operands -/

/-- Table 2.3: the accumulator and K of a pairing. -/
def pairing (fa fb : Nat) : Option (TileType × Nat) :=
  let wide := fun f => decide (f ≤ 1)
  let narrow := fun f => decide (2 ≤ f ∧ f ≤ 4)
  let half := fun f => decide (f = 6 ∨ f = 7)
  if narrow fa && narrow fb then some (.la128, 16)
  else if (wide fa && (wide fb || narrow fb)) || (narrow fa && wide fb) then some (.la128, 8)
  else if fa = fmtInt8 ∧ fb = fmtInt8 then some (.la128, 8)
  else if half fa && half fb then some (.w58, 4)
  else none

/-- The stored rows of a block, without scale bytes. -/
def Desc.blockRows (d : Desc) (p k : Nat) (trans : Bool) : List (Nat × Nat) :=
  d.rectSegs (d.rowOf p) (d.colOf p) (if trans then k else 16) (if trans then 16 else k)

/-- The segments that a block of operand `d` reads: its rows and, for rows along K, their scale bytes. -/
def Desc.blockSegs (d : Desc) (p k : Nat) (trans : Bool) : List (Nat × Nat) :=
  d.blockRows p k trans ++
    (if d.rowscale && trans then [(d.scaleAddr + d.rowOf p, k)] else [])

/-- The values of a block: element (i, j) with i along M or N and j along K (R65, R66). -/
def State.blockVals (s : State) (part : Nat) (d : Desc) (bank p k : Nat) (trans : Bool) : List Num :=
  let r := d.rowOf p
  let c := d.colOf p
  let h := if d.comp ≠ 0 ∧ onChip d.base then s.chamber part d.chamberAddr else ⟨0, 0, 0, 0, 0, 0, 0⟩
  let at_ := fun r c => if d.comp = 0 then s.elemAt part d r c else s.expandAt part d h bank r c
  (List.range 16).flatMap (fun i => (List.range k).map (fun j =>
    decodeElem d.format (if trans then at_ (r + j) (c + i) else at_ (r + i) (c + j))))

/-- The K-axis exponents of an operand (R72): zeros when its stored rows do not run along K. -/
def State.kExps (s : State) (part : Nat) (d : Desc) (p k : Nat) (trans : Bool) : List (Option Int) :=
  (List.range k).map (fun j => if d.rowscale && trans then s.rowScale part d (d.rowOf p + j) else some 0)

/-- The codebook chamber that an operand needs, when it is compressed and on chip. -/
def Desc.bookChamber (d : Desc) : Option Nat := if d.comp ≠ 0 ∧ onChip d.base then some d.chamberAddr else none

/-- The largest block index that a block read touches. -/
def Desc.maxBlock (d : Desc) (p k : Nat) (trans : Bool) : Nat :=
  ((d.blockRows p k trans).map (fun g => d.blockIndex g.1)).foldl max 0

/-- Segments of the codebooks that a block read fetches. -/
def State.bookSegs (s : State) (part : Nat) (d : Desc) (bank p k : Nat) (trans : Bool) : List (Nat × Nat) :=
  if d.comp = 0 then []
  else
    let h := if onChip d.base then s.chamber part d.chamberAddr else ⟨0, 0, 0, 0, 0, 0, 0⟩
    (((d.blockRows p k trans).map (fun g => d.blockIndex g.1)).eraseDups).map (fun j => (d.bookVa h bank j, bookBytes d.comp))

/-! ### Chambers that a command consumes -/

/-- What the chambers of a command lead to: the latched banks, or why the command cannot go on. -/
inductive Banks where
  | ok (s : State) (banks : List Nat)
  | act (s : State) (a : Act)

/-- Latches each chamber of a list for a command (R52, R55), checking its header's accessibility (R677). DESIGN CHOICE:
a command that stalls at a later chamber has not started; it lets go of the banks it latched before it and reads every
ACTIVE again when it resumes. The spec does not say which. -/
def State.latchAll (s : State) (part c push : Nat) : List Nat → Banks
  | [] => .ok s []
  | va :: t =>
    match ((s.extentFault part va 32 false).map pfOfCause).or (s.chamber part va).levelFault with
    | some f => .act s (.fault f)
    | none =>
      match s.latch part c push va with
      | .stall g => .act (s.unlatch c push) (.hold (.chamber va g))
      | .empty => .act (s.logEmpty part c push va) (.fault pfLcEmpty)
      | .bank b =>
        match (s.addLatch part c push va b).latchAll part c push t with
        | .ok s bs => .ok s (b :: bs)
        | .act s a => .act s a

/-! ### Checks and counters -/

def Core.tile (k : Core) (t : Nat) : Tile := k.tiles.get {} t
def Core.setTile (k : Core) (t : Nat) (v : Tile) : Core := { k with tiles := k.tiles.put {} t v }
/-- Element `i` of a tile. -/
def Tile.el (t : Tile) (i : Nat) : Nat := t.els.getD i 0

/-- The prime of the checksum arithmetic. -/
def checkPrime : Nat := 2 ^ 61 - 1

/-- ρ of R80, for a finite value. -/
def Num.residue (x : Num) : Nat :=
  let (n, j) := x.dyadic
  (n % (checkPrime : Int)).toNat * 2 ^ (j % 61).toNat % checkPrime

/-- The operands of one MMA: K, the values of A and of B (row or column × K), and c_k of R72 (`none`: out of the range of
R73). -/
structure MmaBlock where
  k : Nat
  a : List Num
  b : List Num
  ck : List (Option Int)
  deriving DecidableEq, Repr

def MmaBlock.av (x : MmaBlock) (m j : Nat) : Num := x.a.getD (m * x.k + j) .nan
def MmaBlock.bv (x : MmaBlock) (n j : Nat) : Num := x.b.getD (n * x.k + j) .nan
/-- Some K position lies out of the range of R73. -/
def MmaBlock.kBad (x : MmaBlock) : Bool := x.ck.any (·.isNone)

/-- The products of output element (m, n), in K order, after K-axis scaling (R72, R73). -/
def MmaBlock.products (x : MmaBlock) (m n : Nat) : List Num :=
  (List.range x.k).map (fun j => match x.ck.getD j (some 0) with
    | some e => ((x.av m j).mul (x.bv n j)).scale e
    | none => .nan)

/-- What faults of the array add to element `i`. -/
def errsOf (errs : List ArrayErr) (i : Nat) : List Num :=
  (errs.filter (fun e => e.elem == i)).map (fun e => Num.ofInt e.n e.e)

/-- ρ(P[m][n]) of R81, with the faults that the main array meets. -/
def MmaBlock.sumResidue (x : MmaBlock) (errs : List ArrayErr) (m n : Nat) : Nat :=
  (Num.sum (x.products m n ++ errsOf errs (16 * m + n))).residue

/-- R82: row check `m` runs, and column check `n`. -/
def MmaBlock.rowRuns (x : MmaBlock) (m : Nat) : Bool :=
  !x.kBad && x.b.all (·.isFinite) && (List.range x.k).all (fun j => (x.av m j).isFinite)
def MmaBlock.colRuns (x : MmaBlock) (n : Nat) : Bool :=
  !x.kBad && x.a.all (·.isFinite) && (List.range x.k).all (fun j => (x.bv n j).isFinite)

/-- The sum modulo q of `f` over the first `n` numbers. -/
def sumMod (n : Nat) (f : Nat → Nat) : Nat := (List.range n).foldl (fun t i => (t + f i) % checkPrime) 0

/-- The row check and the column check of R81. -/
def MmaBlock.rowCheck (x : MmaBlock) (m : Nat) : Nat :=
  sumMod x.k (fun j => (x.av m j).residue * sumMod 16 (fun n => (x.bv n j).residue) *
    2 ^ (((x.ck.getD j (some 0)).getD 0) % 61).toNat)
def MmaBlock.colCheck (x : MmaBlock) (n : Nat) : Nat :=
  sumMod x.k (fun j => sumMod 16 (fun m => (x.av m j).residue) * (x.bv n j).residue *
    2 ^ (((x.ck.getD j (some 0)).getD 0) % 61).toNat)

/-- The checks that mismatch (R81 to R83): row mask in bits 15:0, column mask in bits 31:16. -/
def MmaBlock.masks (x : MmaBlock) (errs : List ArrayErr) : Nat :=
  maskOf ((List.range 16).filter (fun m =>
      x.rowRuns m && x.rowCheck m != sumMod 16 (fun n => x.sumResidue errs m n))) +
    2 ^ 16 * maskOf ((List.range 16).filter (fun n =>
      x.colRuns n && x.colCheck n != sumMod 16 (fun m => x.sumResidue errs m n)))

/-- R82: how many checks an instruction omits. -/
def MmaBlock.skipped (x : MmaBlock) : Nat :=
  ((List.range 16).filter (fun m => !x.rowRuns m)).length + ((List.range 16).filter (fun n => !x.colRuns n)).length

/-- Beats and stretches of one command (R87, R91); the stretches of the last 2^20 beats are kept. -/
def Array.tick (a : Array) (seen : Seen) : Array :=
  let b := a.beats + seen.beats
  let st := a.stretches ++ List.replicate seen.stretches b
  { a with beats := sat64 b, sentinel := sat32 (a.sentinel + seen.stretches),
           stretches := st.filter (fun x => decide (b < x + 2 ^ 20)) }

/-- The array stops at a fault that its retry does not clear, or that parity or the duplicate rounding unit shows
(Table 3.5 step 3b, R84). -/
def State.arrayStop (s : State) (c : Nat) (code p0 p1 p2 : Nat) : State :=
  let s := s.updCore c (fun k => { k with array := { k.array with
    state := .halted, checkHard := sat32 (k.array.checkHard + 1), freezes := sat32 (k.array.freezes + 1) } })
  (s.record code 2 (s.coreOwner c) srcCore (s.physCore c) p0 p1 p2 c [0]).beginRecovery 2 (s.coreOwner c)

/-- A mismatch that the retry clears (Table 3.5 step 3a). The retry freezes the array for its 8 beats; `counted` says
that the freeze is part of one that FREEZES has counted (Table 3.7). -/
def State.arraySoft (s : State) (c masks push : Nat) (counted : Bool) : State :=
  let s := s.updCore c (fun k => { k with array := { k.array with
    checkRetry := sat32 (k.array.checkRetry + 1), freezes := sat32 (k.array.freezes + b2n (!counted)) } })
  s.record 0x0101 0 (s.coreOwner c) srcCore (s.physCore c) masks push 0 c

/-! ### Drains (R39 to R43, R63) -/

/-- What a drain needs to know. -/
structure Drain where
  ncw : Nat
  dst : Desc
  ms : Desc
  ns : Desc
  ch : Desc
  base : Nat
  pos : Nat
  deriving DecidableEq, Repr

def Drain.export (d : Drain) : Bool := bit d.ncw 12
def Drain.out (d : Drain) : Nat := bits d.ncw 7 4
def Drain.row0 (d : Drain) : Nat := d.dst.rowOf d.pos
def Drain.col0 (d : Drain) : Nat := d.dst.colOf d.pos

/-- A scale-vector descriptor is usable, and long enough (R63). -/
def scaleVecFault (v : Desc) (first : Nat) : Option Nat :=
  if v.layout ≠ 0 ∨ v.comp ≠ 0 ∨ v.format ≠ fmtInt8 ∨ v.rowscale then some pfDescInvalid
  else if first + 15 ≥ v.count then some pfPosRange else none

/-- The extents of scale bytes that a drain reads. -/
def Drain.scaleSegs (d : Drain) : List (Nat × Nat) :=
  (if bit d.ncw 16 then [(d.ms.base + d.row0, 16)] else []) ++
    (if bit d.ncw 17 then [(d.ns.base + d.col0, 16)] else [])

/-- The extent of rescale entries. -/
def Drain.entrySegs (d : Drain) (h : Chamber) (b : Nat) : List (Nat × Nat) := [(h.bank b + 8 * d.base, 128)]

/-- The program faults that a drain finds before it writes (R40, R51, R62, R63, R144, R677), except those of its
chamber's state. DESIGN CHOICE: the cause reported is the first that holds in this order, and a stochastic drain to W58,
which the loader refuses (R40), is PAIRING. -/
def State.drainFault (s : State) (part : Nat) (d : Drain) (t : TileType) : Option Nat :=
  if t = .none ∨ (d.export ∧ t ≠ .la128) then some pfTileType
  else if d.out = 9 ∧ bits d.ncw 11 10 = 1 then some pfPairing
  else if d.dst.format ≠ d.out then some pfDescInvalid
  else if d.dst.comp ≠ 0 then some pfCbMismatch
  else if !d.dst.tileOk d.pos then some pfPosRange
  else
    let sv := fun (on : Bool) v first => if on then scaleVecFault v first else none
    (sv (bit d.ncw 16) d.ms d.row0).or ((sv (bit d.ncw 17) d.ns d.col0).or
      (((s.segsFault part d.scaleSegs false).map pfOfCause).or
        (if d.dst.readOnly then some pfReadOnly
         else (s.segsFault part (d.dst.rectSegs d.row0 d.col0 16 16) true).map pfOfCause)))

/-- R51: the chamber does not fit the drain. -/
def Drain.chamberBad (d : Drain) (h : Chamber) : Bool :=
  h.kind != chRescale || h.entryBytes != 8 || decide (d.base + 15 > h.entriesM1)

/-- The rounding mode of an NCW for element index `i`. -/
def ncwRnd (ncw : Nat) (rng : Option RngCtx) (i : Nat) : Rnd :=
  match bits ncw 11 10, rng with
  | 1, some x => .sr (x.word i)
  | 2, _ => .rtz
  | _, _ => .rne

/-- The value of accumulator element `i` (Tables 2.4 and 2.7). -/
def Tile.value (t : Tile) (i : Nat) : Num :=
  match t.typ with
  | .la128 => (La.decode (t.el i)).value
  | _ => fmtW58.decode (t.el i % 2 ^ 58)

/-- 2^e as a value; a scale byte of 0xFF is a NaN factor (R39). -/
def pow2Num : Option Int → Num
  | some e => .fin false 1 e
  | none => .nan

/-- The codes and flags of a drained tile, row-major (R39 to R43). -/
def drainCodes (d : Drain) (t : Tile) (ea eb : List (Option Int)) (r : List Num) (rng : Option RngCtx) : List OutRes :=
  (List.range 256).map (fun i =>
    let m := i / 16
    let n := i % 16
    if d.export then ⟨(La.decode (t.el i)).encode, false, false⟩
    else
      let a := t.value i
      let v := ((a.mul (pow2Num (ea.getD m (some 0)))).mul (pow2Num (eb.getD n (some 0)))).mul (r.getD n (.fin false 1 0))
      let v := if t.typ = .la128 ∧ v.isZero then .zero false else v
      roundOut d.out (ncwRnd d.ncw rng (d.pos + m * d.dst.dim0 + n)) (bit d.ncw 15) v)

/-- The flags that output elements raise (Table 4.8). -/
def outFlags (os : List OutRes) : Nat :=
  (if os.any (·.nanDropped) then fNanDropped else 0) + (if os.any (·.overflow) then fOverflow else 0)

/-- The scale exponents at 16 bytes of a vector. -/
def State.scaleVec (s : State) (part : Nat) (on : Bool) (va : Nat) : List (Option Int) :=
  if on then (s.readVA part va 16).map (fun b => if b.toNat = 255 then none else some ((b.toNat : Int) - 127))
  else List.replicate 16 (some 0)

/-- Writes a drained tile: columns in `bad` take the pattern, and their lines the mark (R56, R124). -/
def State.writeDrain (s : State) (part : Nat) (d : Drain) (codes : List Nat) (bad : List Nat) : State :=
  let s := (List.range 16).foldl (fun s i =>
    let va := d.dst.segAddr (d.row0 + i) (d.col0 / 16)
    let pat := poisonBytes va (d.dst.segBytes (d.col0 / 16))
    let row := (List.range 16).map (fun n =>
      if bad.contains n then unpackElem d.dst.format pat n else codes.getD (16 * i + n) 0)
    s.writeVA part va (packRow d.dst.format row)) s
  bad.foldl (fun s n => (List.range 16).foldl (fun s i =>
    let va := d.dst.segAddr (d.row0 + i) (d.col0 / 16)
    s.markVA part (va + n * d.dst.bitsPer / 8) ((d.dst.bitsPer + 7) / 8)) s) s

/-- Runs a drain of tile `t` whose checks have passed; `bank` is the latched rescale bank. -/
def State.runDrain (s : State) (c part : Nat) (p : Push) (d : Drain) (t : Tile) (bank : Option Nat) (seen : Seen) :
    State × Act :=
  let h := s.chamber part d.ch.base
  let es := match bank with
    | some b => d.entrySegs h b
    | none => []
  let reads := d.scaleSegs ++ es
  match s.segsUe seen.ue part reads with
  | some key => (s, .poolUe key)
  | none =>
    let poison := t.poisoned || s.readsPoison c p || s.segsPoison seen.ue part reads
    let s := s.noteSegs seen.ue part reads
    if poison then
      let fl := if t.poisoned then fPoisonOut else fPoisonIn + fPoisonOut
      (s.poisonTile part d.dst d.row0 d.col0, .done { Result.poisoned with flags := fl })
    else
      let ents := match bank with
        | some b => (List.range 16).map (fun n => s.readNat part (h.bank b + 8 * (d.base + n)) 8)
        | none => []
      let bad := (List.range ents.length).filter (fun n => !pair32 (lo32 (ents.getD n 0)) (hi32 (ents.getD n 0)))
      let s := bad.foldl (fun s n => s.logPairFault part c d.ch.base (d.base + n)) s
      let r := if ents.isEmpty then List.replicate 16 (Num.fin false 1 0)
        else ents.map (fun e => fmtFP32.decode (lo32 e))
      let os := drainCodes d t (s.scaleVec part (bit d.ncw 16) (d.ms.base + d.row0))
        (s.scaleVec part (bit d.ncw 17) (d.ns.base + d.col0)) r p.rng
      let good := (List.range 256).filter (fun i => !bad.contains (i % 16))
      let fl := outFlags (good.map (fun i => os.getD i ⟨0, false, false⟩))
      let s := s.writeDrain part d (os.map (·.code)) bad
      if bad.isEmpty then (s, .done { flags := fl })
      else (s, .done { flags := fl ||| fPoisonOut, status := stPartialFault, poison := true })

/-- The fault of a latched rescale chamber: it does not fit the drain (R51), or its entries cannot be read (R677). -/
def State.entryFault (s : State) (part : Nat) (d : Drain) (bank : Option Nat) : Option Nat :=
  match bank with
  | none => none
  | some b =>
    let h := s.chamber part d.ch.base
    if d.chamberBad h then some pfLcMismatch else (s.segsFault part (d.entrySegs h b) false).map pfOfCause

/-- The rescale chamber of a drain, when its NCW uses one. -/
def Drain.chambers (d : Drain) : List Nat := if bit d.ncw 18 then [d.ch.base] else []

/-! ### The four instructions -/

/-- The drain fields of a DRAIN or FINAL MMA (Table 5.5), from descriptors at position `i` of the push. -/
def Push.drain (p : Push) (o : Op) (i : Nat) : Drain :=
  { ncw := bits (o.e 0) 31 0, dst := p.descs.getD i {}, ms := p.descs.getD (i + 1) {}, ns := p.descs.getD (i + 2) {},
    ch := p.descs.getD (i + 3) {}, base := bits (o.e 1) 63 48, pos := p.c }

/-- DRAIN (R39, R62, R63, R84). -/
def State.axDrain (s : State) (c : Nat) (p : Push) (o : Op) (seen : Seen) : State × Act :=
  let part := s.coreOwner c
  let n := bits (o.e 0) 34 32
  let t := (s.core c).tile n
  let d := p.drain o 0
  match s.drainFault part d t.typ with
  | some f => (s, .fault f)
  | none =>
    match s.latchAll part c p.num d.chambers with
    | .act s a => (s, a)
    | .ok s bs => match s.entryFault part d bs.head? with
      | some f => (s, .fault f)
      | none =>
      if seen.check = 3 then (s.arrayStop c 0x0103 n p.num 0, .arrayHard false)
      else if seen.check = 4 then (s.arrayStop c 0x0103 (n + 256) p.num 0, .arrayHard false)
      else
        let r := s.runDrain c part p d t bs.head? seen
        match r.2 with
        | .done x =>
          (if bit o.fl 0 then r.1.updCore c (fun k => k.setTile n { (k.tile n) with typ := .none }) else r.1, .done x)
        | a => (r.1, a)

/-- ACC_LOAD (R34, R62, R75, R88). -/
def State.axAccLoad (s : State) (c : Nat) (p : Push) (o : Op) (seen : Seen) : State × Act :=
  let part := s.coreOwner c
  let d := s.operand c p 0 0
  let n := bits (o.e 0) 14 12
  let la := !bit (o.e 0) 15
  let typ : TileType := if la then .la128 else .w58
  let segs := d.rectSegs (d.rowOf p.b) (d.colOf p.b) 16 16
  if d.format ≠ (if la then fmtLa128 else 9) then (s, .fault pfDescInvalid)
  else if !d.tileOk p.b then (s, .fault pfPosRange)
  else match s.segsFault part segs false with
    | some cause => (s, .fault (pfOfCause cause))
    | none =>
      match s.segsUe seen.ue part segs with
      | some key => (s, .poolUe key)
      | none =>
        let poison := s.readsPoison c p || s.segsPoison seen.ue part segs
        let s := s.noteSegs seen.ue part segs
        if poison then
          (s.updCore c (fun k => k.setTile n { typ := typ, els := [], poisoned := true }), .done { flags := fPoisonIn })
        else
          let vs := s.readRect part d (d.rowOf p.b) (d.colOf p.b) 16 16
          let s := if la then vs.foldl (fun s v =>
              if laReserved v then
                s.record 0x0107 1 part srcCore (s.physCore c) (bits v 127 96) p.num 0 c
              else s) s
            else s
          let els := vs.map (fun v => if la then (La.decode v).encode else v % 2 ^ 64)
          (s.updCore c (fun k => k.setTile n { typ := typ, els := els, poisoned := false }), .done {})

/-- ACC_CLEAR (R69, R75, R88): a held block goes when ACC_CLEAR has run on every tile since it was latched. -/
def State.axAccClear (s : State) (c : Nat) (o : Op) : State × Act :=
  let t := bits o.imm 2 0
  (s.updCore c (fun k => { k.setTile t {} with
    held := k.held.bind (fun h =>
      let m := setBit h.cleared t true
      if m = 0xFF then none else some { h with cleared := m }) }), .done {})

/-- The block of products of an MMA, added into a tile (R31, R32, R35, R72, R73); `errs` are the faults of the try that
commits. -/
def mmaTile (t : Tile) (acc : TileType) (x : MmaBlock) (errs : List ArrayErr) : Tile :=
  { typ := acc, poisoned := t.poisoned,
    els := (List.range 256).map (fun i =>
      let ps := x.products (i / 16) (i % 16) ++ errsOf errs i
      match acc with
      | .la128 => (ps.foldl (fun (v : La) p => v.add (La.ofProduct p)) (La.decode (t.el i))).encode
      | _ => fmtW58.rne (Num.sum (fmtW58.decode (t.el i % 2 ^ 58) :: ps))) }

/-- c_k of R72 for each K position: `none` when out of the range of R73 or when a scale byte is 0xFF. -/
def kSums (xs ys : List (Option Int)) : List (Option Int) :=
  (xs.zip ys).map (fun e => match e.1, e.2 with
    | some a, some b => if a + b < -64 ∨ a + b > 24 then none else some (a + b)
    | _, _ => none)

/-- What the drain part of a FINAL MMA does after its commit. -/
def State.mmaDrain (s : State) (c part : Nat) (p : Push) (o : Op) (bank : Option Nat) (flags : Nat) (seen : Seen) :
    State × Act :=
  let t := (s.core c).tile (bits (o.e 0) 58 56)
  let r := s.runDrain c part p (p.drain o 2) t bank seen
  match r.2 with
  | .done x => (r.1, .done { x with flags := x.flags ||| flags })
  | a => (r.1, a)

/-- The banks of an MMA's latched chambers: of A's codebook, of B's and of the drain. -/
structure MmaBanks where
  ba : Nat
  bb : Nat
  bd : Option Nat

/-- Operand B of an MMA is poisoned: its scoreboard region, its chunk or its data is marked (R88, R120). -/
def State.bPoisoned (s : State) (c : Nat) (p : Push) (seen : Seen) (b : Desc) (bank kd : Nat) (tb : Bool) : Bool :=
  let part := s.coreOwner c
  (b.regionEn && bit (s.core c).poison b.region) ||
    p.chunks.any (fun u => u.operand == 1 && s.chunkPoison c u) ||
    s.segsPoison seen.ue part (b.blockSegs p.b kd tb ++ s.bookSegs part b bank p.b kd tb)

/-- The multiplication and the drain of an MMA whose blocks `a` and `b` were found in range and whose chambers are
latched (R59 to R74, R81 to R84, R88, R296 to R298). -/
def State.mmaRun (s : State) (c : Nat) (p : Push) (o : Op) (seen : Seen) (a b : Desc) (segs : List (Nat × Nat))
    (fb kd : Nat) (acc : TileType) (banks : MmaBanks) : State × Act :=
  let part := s.coreOwner c
  let k := s.core c
  let n := bits (o.e 0) 58 56
  let ta := bit o.fl 0
  let tb := bit o.fl 1
  let held := bit o.fl 3
  let final := bit o.fl 5
  let t := k.tile n
  let ba := banks.ba
  let bb := banks.bb
  let bd := banks.bd
  let segs := segs ++ s.bookSegs part a ba p.a kd ta ++
    (if held then [] else s.bookSegs part b bb p.b kd tb)
  match s.segsUe seen.ue part segs with
  | some key => (s, .poolUe key)
  | none =>
    let poison := s.readsPoison c p || s.segsPoison seen.ue part segs
    let s := s.noteSegs seen.ue part segs
    let hb : HeldB := match held, (s.core c).held with
      | true, some h => h
      | _, _ =>
        let bad := s.bPoisoned c p seen b bb kd tb
        { fmt := fb, k := kd, vals := if bad then [] else s.blockVals part b bb p.b kd tb,
          kexp := s.kExps part b p.b kd tb, poisoned := bad }
    let setHeld := fun (k : Core) => if held then k
      else { k with held := if bit o.fl 2 then some hb else none, portB := (hb.vals :: k.portB).take 2 }
    if poison || hb.poisoned then
      let t' : Tile := if bit o.fl 4 then { typ := acc, els := [], poisoned := true }
        else { t with poisoned := true }
      let s := s.updCore c (fun k => setHeld (k.setTile n t'))
      if final then s.mmaDrain c part p o bd fPoisonIn seen
      else (s, .done { flags := fPoisonIn })
    else
      let av := s.blockVals part a ba p.a kd ta
      let x : MmaBlock := ⟨kd, av, hb.vals, kSums (s.kExps part a p.a kd ta) hb.kexp⟩
      let m1 := x.masks seen.errs1
      let m2 := if m1 = 0 then 0 else x.masks seen.errs2
      if m2 ≠ 0 then (s.arrayStop c 0x0102 m1 m2 p.num, .arrayHard false)
      else if seen.check = 3 then (s.arrayStop c 0x0103 n p.num 0, .arrayHard false)
      else
      let base : Tile := if bit o.fl 4 then { typ := acc } else t
      let s := if m1 ≠ 0 then s.arraySoft c m1 p.num (bit seen.freeze 2) else s
      let s := s.updCore c (fun k =>
        let k := setHeld (k.setTile n (mmaTile base acc x (if m1 = 0 then seen.errs1 else seen.errs2)))
        { k with portA := (av :: k.portA).take 2, array := { k.array with
            instructions := sat64 (k.array.instructions + 1),
            checkSkipped := sat32 (k.array.checkSkipped + x.skipped) } })
      let fl := if x.kBad then fKscaleRange else 0
      if !final then (s, .done { flags := fl })
      else if seen.check = 4 then
        ((s.updCore c (fun k => { k with flags := k.flags ||| fl })).arrayStop c 0x0103 (n + 256) p.num 0,
          .arrayHard true)
      else s.mmaDrain c part p o bd fl seen

/-- R68: operand B is read from the core's pool, operand A from that pool or from a basin of the core's reach. DESIGN
CHOICE: the cause of an operand that lies elsewhere is TRANSLATION; the spec names none. -/
def State.portFault (s : State) (c part : Nat) (basin : Bool) (segs : List (Nat × Nat)) : Option Nat :=
  if (segs.flatMap (fun g => extent g.1 g.2)).all (fun e => match s.translate part e.1 false with
      | .pool d _ => d == c
      | .basin r _ => basin && r == c / 16
      | _ => false) then none else some pfTranslation

/-- MMA (R59 to R74, R81 to R84, R88, R296 to R298). DESIGN CHOICE: of several faults that an MMA meets at run time, the
cause reported is the first in this order: PAIRING, HELD_EMPTY, TILE_TYPE, POS_RANGE, an operand's extent, the drain
part's faults, the chambers'. The spec gives no order. -/
def State.axMma (s : State) (c : Nat) (p : Push) (o : Op) (seen : Seen) : State × Act :=
  let part := s.coreOwner c
  let k := s.core c
  let ncw := bits (o.e 0) 31 0
  let n := bits (o.e 0) 58 56
  let ta := bit o.fl 0
  let tb := bit o.fl 1
  let held := bit o.fl 3
  let final := bit o.fl 5
  let a := s.operand c p 0 0
  let b := s.operand c p 1 1
  let t := k.tile n
  let fb := if held then ((k.held.map (·.fmt)).getD 0) else b.format
  if a.format ≠ bits ncw 3 0 then (s, .fault pfPairing)
  else if held ∧ k.held = none then (s, .fault pfHeldEmpty)
  else match pairing a.format fb with
  | none => (s, .fault pfPairing)
  | some (acc, kd) =>
    if held ∧ (k.held.map (·.k)) ≠ some kd then (s, .fault pfPairing)
    else if !bit o.fl 4 ∧ t.typ ≠ acc then (s, .fault pfTileType)
    else if !a.blockOk p.a kd ta ∨ (!held ∧ !b.blockOk p.b kd tb) then (s, .fault pfPosRange)
    else
      let segs := a.blockSegs p.a kd ta ++ (if held then [] else b.blockSegs p.b kd tb)
      let d := p.drain o 2
      match ((s.segsFault part segs false).map pfOfCause).or ((s.portFault c part true (a.blockRows p.a kd ta)).or
          ((if held then none else s.portFault c part false (b.blockRows p.b kd tb)).or
            (if final then s.drainFault part d acc else none))) with
      | some f => (s, .fault f)
      | none =>
        let ca := a.bookChamber.toList
        let cb := if held then [] else b.bookChamber.toList
        match s.latchAll part c p.num (ca ++ cb ++ (if final then d.chambers else [])) with
        | .act s act => (s, act)
        | .ok s bs =>
          let ba := bs.headD 0
          let bb := (bs.drop ca.length).headD 0
          let bd := (bs.drop (ca.length + cb.length)).head?
          let bad : Desc → Nat → Bool → Bool := fun x pos tr => match x.bookChamber with
            | some va => x.bookMismatch (s.chamber part va) (x.maxBlock pos kd tr)
            | none => false
          if bad a p.a ta || (!held && bad b p.b tb) then (s, .fault pfCbMismatch)
          else
            let books := s.bookSegs part a ba p.a kd ta ++ (if held then [] else s.bookSegs part b bb p.b kd tb)
            match (s.entryFault part d bd).or ((s.segsFault part books false).map pfOfCause) with
            | some f => (s, .fault f)
            | none => s.mmaRun c p o seen a b segs fb kd acc ⟨ba, bb, bd⟩

end Sys2Proof.Machine
end

