-- ==== Sys2Proof/Machine/Vector.lean ====
section
/-! DEFINITION. The vector unit: VEW, VRED, VCVT, REGION_CLEAR, LC_REBUILD and LC_FLIP as VX executes them (R44 to
R49, R53, R104, R111 to R114, R145, R288 to R293, R679). -/

namespace Sys2Proof.Machine

/-! ### Elements by index -/

/-- The codes of elements `start` to `start + n − 1`. -/
def State.elems (s : State) (part : Nat) (d : Desc) (start n : Nat) : List Nat :=
  (List.range n).map (fun i => s.elemAt part d (d.rowOf (start + i)) (d.colOf (start + i)))

/-- Every code of a tensor, in element order. -/
def State.allElems (s : State) (part : Nat) (d : Desc) : List Nat := s.elems part d 0 d.count

/-- Writes every element of a tensor. -/
def State.writeAll (s : State) (part : Nat) (d : Desc) (codes : List Nat) : State :=
  (List.range d.rows).foldl (fun s r => s.writeRow part d r ((codes.drop (r * d.dim0)).take d.dim0)) s

/-- Reads and checks the sources of a VX or DX command: what its data meets (R104, R110, R233). -/
def State.meet (s : State) (c part : Nat) (p : Push) (segs : List (Nat × Nat)) (seen : Seen)
    (clean : State → State × Act) (poisoned : State → State × Act) : State × Act :=
  match s.segsUe seen.ue part segs with
  | some key => (s, .poolUe key)
  | none =>
    let poison := s.readsPoison c p || s.segsPoison seen.ue part segs
    let s := s.noteSegs seen.ue part segs
    if poison then poisoned s else clean s

/-! ### VEW (R111, R112, R145, Table 5.4) -/

/-- A floating VEW operation. -/
def vewFloat (fc op s1 s2 s3 : Nat) : Nat :=
  let f := if fc = 9 then fmtW58 else fmtFP32
  let x := f.decode s1
  let y := f.decode s2
  let one := f.rne (.fin false 1 0)
  match op with
  | 0x01 => addF f s1 s2
  | 0x02 => mulF f s1 s2
  | 0x03 => fmaF f s1 s2 s3
  | 0x04 => f.rne (x.min2 y)
  | 0x05 => f.rne (x.max2 y)
  | 0x06 => if x.lt y then one else 0
  | 0x07 => f.rne (if x.isZero then f.decode s3 else y)
  | 0x10 => exp2F x
  | 0x11 => log2F x
  | 0x12 => f.recip x
  | 0x13 => f.sqrt x
  | 0x14 => f.rsqrt x
  | 0x15 => tanhF x
  | _ => erfF x

/-- An INT32 VEW operation (R37). -/
def vewInt (op s1 s2 s3 : Nat) : Nat :=
  let x := signed 32 s1
  let y := signed 32 s2
  match op with
  | 0x01 => wrap32 (s1 + s2)
  | 0x02 => wrap32 (s1 * s2)
  | 0x03 => wrap32 (s1 * s2 + s3)
  | 0x04 => if x ≤ y then s1 else s2
  | 0x05 => if x ≤ y then s2 else s1
  | 0x06 => b2n (decide (x < y))
  | _ => if s1 = 0 then s3 else s2

/-- The formats of a VEW destination that an operation accepts (R111, R112, R145). -/
def vewAccepts (op fc : Nat) : Bool :=
  if op ≥ 0x10 then fc == 8 || (fc == 9 && (op == 0x12 || op == 0x13)) else fc == 8 || fc == 9 || fc == fmtInt32

/-- A code as the arithmetic reads it: W58 in the low 58 bits of its container. -/
def laneCode (fc v : Nat) : Nat := if fc = 9 then v % 2 ^ 58 else v % 2 ^ elemBits fc

def State.vxVew (s : State) (c : Nat) (p : Push) (o : Op) (seen : Seen) : State × Act :=
  let part := s.coreOwner c
  let op := bits o.imm 7 0
  let dst := p.descs.getD 0 {}
  let s1 := s.operand c p 1 0
  let s2 := s.operand c p 2 2
  let s3 := p.descs.getD 3 {}
  let n := vewArity op
  let scalar := bit o.fl 0
  let srcs := [s1] ++ (if n ≥ 2 && !scalar then [s2] else []) ++ (if n ≥ 3 then [s3] else [])
  if dst.comp ≠ 0 ∨ srcs.any (fun d => d.comp != 0) then (s, .fault pfCbMismatch)
  else if !vewAccepts op dst.format || srcs.any (fun d => d.format != dst.format) then (s, .fault pfDescInvalid)
  else if srcs.any (fun d => d.count != dst.count) then (s, .fault pfCountMismatch)
  else match (srcs.findSome? (s.descReadFault part)).or (s.descWriteFault part dst) with
    | some f => (s, .fault f)
    | none =>
      s.meet c part p (srcs.flatMap (·.allSegs)) seen
        (fun s =>
          let cnt := dst.count
          let at_ := fun (use : Bool) (d : Desc) => if use then s.allElems part d else []
          let x1 := at_ true s1
          let x2 := if scalar then [] else at_ (n ≥ 2) s2
          let x3 := at_ (n ≥ 3) s3
          let fc := dst.format
          let codes := (List.range cnt).map (fun i =>
            let a := laneCode fc (x1.getD i 0)
            let b := laneCode fc (if scalar then p.c else x2.getD i 0)
            let d := laneCode fc (x3.getD i 0)
            if fc = fmtInt32 then vewInt op a b d else vewFloat fc op a b d)
          (s.writeAll part dst codes, .done {}))
        (fun s => (s.poisonDesc part dst, .done Result.poisoned))

/-! ### VRED (R113, Table 5.5a) -/

/-- One level of the TREE32 sum. -/
def treeLevel : List Nat → List Nat
  | a :: b :: t => addF fmtFP32 a b :: treeLevel t
  | l => l

/-- TREE32 over a power of two of FP32 values, by fuel. -/
def treeSum : Nat → List Nat → Nat
  | 0, l => l.headD 0
  | n + 1, l => match l with
    | [a] => a
    | l => treeSum n (treeLevel l)

/-- The TREE32 sum of a row, padded with +0 to a power of two; a NaN result is the canonical NaN (R37). -/
def tree32 (l : List Nat) : Nat :=
  let w := 2 ^ clog2 l.length
  fmtFP32.rne (fmtFP32.decode (treeSum (clog2 l.length + 1) (l ++ List.replicate (w - l.length) 0)))

/-- The SEQ58 sum of a row, rounded once to the output format. -/
def seq58 (fin fout : Nat) (l : List Nat) : Nat :=
  let sum := l.foldl (fun acc c => fmtW58.rne ((fmtW58.decode acc).add (decodeElem fin (laneCode fin c)))) 0
  ((floatFmt fout).getD fmtFP32).rne (fmtW58.decode sum)

/-- MAX or MIN of a row. -/
def extremum (mx : Bool) (fc : Nat) (l : List Nat) : Nat :=
  if fc = fmtInt32 then
    match l with
    | [] => 0
    | a :: t => t.foldl (fun x y => vewInt (if mx then 5 else 4) x y 0) a
  else
    match l with
    | [] => 0
    | a :: t =>
      let f := (floatFmt fc).getD fmtFP32
      t.foldl (fun x y => vewFloat fc (if mx then 5 else 4) x (laneCode fc y) 0) (f.rne (f.decode (laneCode fc a)))

/-- Table 5.5a. -/
def vredAccepts (mode fin fout : Nat) : Bool :=
  let seq := fun f => f == 6 || f == 7 || f == 8 || f == 9
  match mode with
  | 0 => fin == 8 && fout == 8
  | 1 => seq fin && seq fout
  | _ => fin == fout && (fin == 8 || fin == 9 || fin == fmtInt32)

def State.vxVred (s : State) (c : Nat) (p : Push) (o : Op) (seen : Seen) : State × Act :=
  let part := s.coreOwner c
  let mode := bits o.imm 1 0
  let dst := p.descs.getD 0 {}
  let src := s.operand c p 1 0
  if dst.comp ≠ 0 ∨ src.comp ≠ 0 then (s, .fault pfCbMismatch)
  else if !vredAccepts mode src.format dst.format then (s, .fault pfDescInvalid)
  else if dst.dim0 ≠ 1 ∨ dst.count ≠ src.rows then (s, .fault pfCountMismatch)
  else match (s.descReadFault part src).or (s.descWriteFault part dst) with
    | some f => (s, .fault f)
    | none =>
      s.meet c part p src.allSegs seen
        (fun s =>
          let codes := (List.range src.rows).map (fun r =>
            let row := s.readRow part src r
            match mode with
            | 0 => tree32 row
            | 1 => seq58 src.format dst.format row
            | 2 => extremum true src.format row
            | _ => extremum false src.format row)
          (s.writeAll part dst codes, .done {}))
        (fun s => (s.poisonDesc part dst, .done Result.poisoned))

/-! ### Chambers that a command rebuilds (R53, R56) -/

/-- Whether a rebuild may write now. -/
inductive Prep where
  /-- It may write this bank; with `true` it restores a header that failed its pair check (R56). -/
  | go (s : State) (bank : Nat) (whole : Bool)
  | wait (s : State) (stage : Nat)

/-- R53 steps 1 and 2, R56 step 1, for a rebuild that stands at `stage`. -/
def State.prepare (s : State) (part c va stage : Nat) (flip : Bool) : Prep :=
  let h := s.chamber part va
  let key := s.chamberKey part va
  if !h.pairOk then
    let s := if stage = 2 then s else s.logPairFault part c va 0xFFFFFFFF
    if s.latched key 2 then .wait s 2 else .go s 0 true
  else if stage ≠ 1 ∧ h.rebuilding then .wait s 0
  else
    let s := if stage = 1 then s else s.startRebuild part va flip
    if s.latched key h.idle then .wait s 1 else .go s h.idle false

/-- R53 steps 4 and 5, or R56 step 3. -/
def State.concludeBank (s : State) (part va kind : Nat) (whole : Bool) : State :=
  if whole then s.restoreWord part va kind else s.endRebuild part va

/-- The stage at which a push stands in a rebuild. -/
def Push.stage (p : Push) : Nat :=
  match p.wait with
  | .rebuild n => n
  | _ => 3

/-- R677, R14: why an engine may not write the chamber header that a CHAMBER descriptor names. -/
def State.headerWriteFault (s : State) (part : Nat) (d : Desc) : Option Nat :=
  if d.readOnly then some pfReadOnly
  else ((s.extentFault part d.base 32 true).map pfOfCause).or (s.chamber part d.base).levelFault

/-- LC_REBUILD (R53, R56, R104, R295): the entries are the bytes of the source, in entry order. -/
def State.vxLcRebuild (s : State) (c : Nat) (p : Push) (o : Op) (seen : Seen) : State × Act :=
  let part := s.coreOwner c
  let va := (p.descs.getD 0 {}).base
  let src := s.operand c p 1 0
  let h := s.chamber part va
  let kind := if h.pairOk then h.kind else bits o.fl 2 1
  match (s.headerWriteFault part (p.descs.getD 0 {})).or ((s.extentFault part src.base h.bytes false).map pfOfCause) with
  | some f => (s, .fault f)
  | none =>
    if src.comp ≠ 0 then (s, .fault pfCbMismatch)
    else if !h.pairOk && kind == 0 then (s.logEmpty part c p.num va, .fault pfLcEmpty)
    else match s.prepare part c va p.stage (bit o.fl 0) with
      | .wait s n => (s, .hold (.rebuild n))
      | .go s b whole =>
        let bank := h.bank b
        s.meet c part p [(src.base, h.bytes)] seen
          (fun s => ((s.writeVA part bank (s.readVA part src.base h.bytes)).concludeBank part va kind whole, .done {}))
          (fun s => ((s.poisonVA part bank h.bytes).concludeBank part va kind whole, .done Result.poisoned))

/-- LC_FLIP (R53); a header whose word fails its pair check is recorded and has no bank to flip to (R56). -/
def State.vxLcFlip (s : State) (c : Nat) (p : Push) : State × Act :=
  let part := s.coreOwner c
  let d := p.descs.getD 0 {}
  match s.headerWriteFault part d with
  | some f => (s, .fault f)
  | none =>
    let s := if (s.chamber part d.base).pairOk then s else s.logPairFault part c d.base 0xFFFFFFFF
    (s.requestFlip part d.base, .done {})

/-- REGION_CLEAR (R103). -/
def State.vxRegionClear (s : State) (c : Nat) (o : Op) : State × Act :=
  (s.updCore c (fun k => { k with poison := setBit k.poison o.fl false }), .done {})

/-! ### Narrow conversion (R44 to R49) -/

/-- FMT_MAX as mantissa and exponent. -/
def fmtMax (fc : Nat) : Num :=
  match floatFmt fc with
  | some f => f.decode f.maxCode
  | none => .fin false 127 0

/-- The row-scale exponent of R44 for a nonzero finite amax. -/
def rowExp (amax mx : Num) : Int :=
  match amax, mx with
  | .fin _ n e, .fin _ m d =>
    let k := log2Q n m + e - d
    let k := if ((Num.fin false m (d + k)).lt (.fin false n e)) then k + 1 else k
    max k (-127)
  | _, _ => 0

/-- The largest magnitude of a list of finite values. -/
def amaxOf (xs : List Num) : Num := xs.foldl (fun m x => if m.lt x.abs then x.abs else m) (.zero false)

/-- The mean squared error of R49. -/
def mseOf (pairs : List (Num × Num)) : Nat :=
  let s := pairs.foldl (fun acc e =>
    let d := e.1.add e.2.negate
    fmtW58.rne ((fmtW58.decode acc).add (fmtW58.decode (fmtW58.rne (d.mul d))))) 0
  fmtFP32.quotient (fmtW58.decode s) pairs.length

/-- A row's conversion: its codes with their flags, its scale byte, its statistics record (Table 2.9). -/
structure RowOut where
  outs : List OutRes
  scale : Nat
  stat : List Nat
  deriving DecidableEq, Repr

/-- The words of a statistics record. -/
def statWords (amax mse : Nat) (valid nonfinite zero : Bool) (scale len : Nat) : List Nat :=
  [amax, mse, b2n zero * 2 ^ 10 + b2n nonfinite * 2 ^ 9 + b2n valid * 2 ^ 8 + scale, len]

/-- Converts one row whose first element has index `i0` in the destination (R44 to R49, R58). -/
def convertRow (fin fout ncw : Nat) (rng : Option RngCtx) (i0 : Nat) (codes : List Nat) : RowOut :=
  let xs := codes.map (decodeElem fin)
  let n := xs.length
  if xs.any (fun x => !x.isFinite) then
    ⟨xs.map (fun _ => ⟨0, false, true⟩), 0xFF, statWords 0x7FC00000 0x7FC00000 true true false 0xFF n⟩
  else
    let amax := amaxOf xs
    let e := if amax.isZero then 0 else rowExp amax (fmtMax fout)
    let b := (e + 127).toNat
    let outs := (List.range n).map (fun i =>
      roundOut fout (ncwRnd ncw rng (i0 + i)) (bit ncw 15) ((xs.getD i (.zero false)).scale (-e)))
    let mse := if n ≤ 4096 then
      mseOf ((List.range n).map (fun i =>
        (xs.getD i (.zero false), (decodeElem fout (outs.getD i ⟨0, false, false⟩).code).scale e))) else 0
    ⟨outs, b, statWords (fmtFP32.rne amax) mse (decide (n ≤ 4096)) false amax.isZero b n⟩

/-- R679: the statistics destination does not fit. -/
def statFault (st : Desc) (n : Nat) : Option Nat :=
  if st.layout ≠ 0 ∨ st.comp ≠ 0 ∨ st.rowscale then some pfDescInvalid
  else if st.count * st.bitsPer < 128 * n then some pfCountMismatch else none

/-- A write of statistics records. -/
def State.statWriteFault (s : State) (part : Nat) (st : Desc) (n : Nat) : Option Nat :=
  if st.readOnly then some pfReadOnly else (s.extentFault part st.base (16 * n) true).map pfOfCause

/-- A narrow VCVT (R114). -/
def State.vxNarrow (s : State) (c : Nat) (p : Push) (ncw : Nat) (src dst st : Desc) (seen : Seen) : State × Act :=
  let part := s.coreOwner c
  if src.comp ≠ 0 then (s, .fault pfCbMismatch)
  else if src.format ≠ bits ncw 3 0 ∨ dst.format ≠ bits ncw 7 4 then (s, .fault pfDescInvalid)
  else if src.count ≠ dst.count ∨ src.dim0 ≠ dst.dim0 then (s, .fault pfCountMismatch)
  else match (statFault st src.rows).or ((s.descReadFault part src).or ((s.descWriteFault part dst).or
      (s.statWriteFault part st src.rows))) with
    | some f => (s, .fault f)
    | none =>
      s.meet c part p src.allSegs seen
        (fun s =>
          let rows := (List.range src.rows).map (fun r =>
            convertRow src.format dst.format ncw p.rng (r * dst.dim0) (s.readRow part src r))
          let s := (List.range src.rows).foldl (fun s r =>
            match rows[r]? with
            | some x =>
              let s := s.writeRow part dst r (x.outs.map (·.code))
              let s := if dst.rowscale then s.writeNat part (dst.scaleAddr + r) x.scale 1 else s
              s.writeVA part (st.base + 16 * r) (wordsToBytes x.stat)
            | none => s) s
          (s, .done { flags := outFlags (rows.flatMap (·.outs)) }))
        (fun s => ((s.poisonDesc part dst).poisonVA part st.base (16 * src.rows), .done Result.poisoned))

/-! ### Compressing conversion (R288 to R293) -/

/-- One compressed block: its codebook, its codes, its statistics record. -/
def compressBlock (comp fc : Nat) (codes : List Nat) : List Nat × List Nat × List Nat × Bool :=
  let book := buildBook comp fc codes
  let idx := encodeBlock fc book codes
  let n := codes.length
  if blockNonFinite fc codes then
    (book, idx, statWords 0x7FC00000 0x7FC00000 true true false 0xFF n, true)
  else
    let xs := codes.map (decodeElem fc)
    let hat := idx.map (fun k => decodeElem fc (book.getD k 0))
    let amax := amaxOf xs
    (book, idx, statWords (fmtFP32.rne amax) (mseOf (xs.zip hat)) true false amax.isZero 0x7F n, false)

/-- Where the codebooks of a compressed destination go (R293), once a rebuild may write. -/
inductive Books where
  | array
  | chamber (bank : Nat) (whole : Bool)
  deriving DecidableEq, Repr

/-- The largest block index of a compressed tensor. -/
def Desc.jmax (d : Desc) : Nat := ((List.range d.blocks).map (fun b => d.blockIndex (d.blockAddr b))).foldl max 0

/-- What forbids a command to write the codebooks of a compressed destination (R14, R297, R677). -/
def State.booksFault (s : State) (part : Nat) (d : Desc) : Option Nat :=
  if !onChip d.base then (s.extentFault part d.chamberAddr ((d.jmax + 1) * bookBytes d.comp) true).map pfOfCause
  else
    let h := s.chamber part d.chamberAddr
    ((s.extentFault part d.chamberAddr 32 true).map pfOfCause).or (h.levelFault.or
      (if d.bookMismatch { h with word := if h.pairOk then h.word else chCodebook * 16 } d.jmax then some pfCbMismatch else none))

/-- R293: prepares the codebook store of a compressed destination. -/
def State.prepareBooks (s : State) (c part : Nat) (p : Push) (d : Desc) : State × Books ⊕ State × Act :=
  match s.booksFault part d with
  | some f => .inr (s, .fault f)
  | none =>
    if !onChip d.base then .inl (s, .array)
    else match s.prepare part c d.chamberAddr p.stage true with
      | .wait s n => .inr (s, .hold (.rebuild n))
      | .go s b whole => .inl (s, .chamber b whole)

/-- The address of block `b`'s codebook under R293. -/
def State.bookOf (s : State) (part : Nat) (d : Desc) (k : Books) (b : Nat) : Nat :=
  let j := d.blockIndex (d.blockAddr b)
  match k with
  | .array => d.chamberAddr + j * bookBytes d.comp
  | .chamber bank _ => (s.chamber part d.chamberAddr).bank bank + j * bookBytes d.comp

/-- A piece of at most a line: its length and its bytes, none for poison. -/
abbrev Piece := Nat × Option (List Byte)

/-- Bytes as pieces of 64. -/
def piecesOf (bs : List Byte) : List Piece := (chunksOf 64 (bs.length / 64 + 1) bs).map (fun c => (c.length, some c))
/-- `n` bytes of poison as pieces of 64. -/
def poisonPieces (n : Nat) : List Piece := (List.range (ceilDiv n 64)).map (fun i => (min 64 (n - 64 * i), none))

/-- Writes pieces one after another. -/
def State.putPieces (s : State) (part : Nat) : Nat → List Piece → State
  | _, [] => s
  | va, (n, some bs) :: t => (s.writeVA part va bs).putPieces part (va + n) t
  | va, (n, none) :: t => (s.poisonVA part va n).putPieces part (va + n) t

/-- Writes the codebooks and codes of every block, the last code line after the flip (R293). `blocks` gives the
pieces of each block's codebook and of its codes. -/
def State.writeBlocks (s : State) (part : Nat) (d : Desc) (k : Books) (blocks : List (List Piece × List Piece)) :
    State :=
  let nb := blocks.length
  let s := (List.range nb).foldl (fun s b => s.putPieces part (s.bookOf part d k b) (blocks.getD b ([], [])).1) s
  let s := (List.range (nb - 1)).foldl (fun s b => s.putPieces part (d.blockAddr b) (blocks.getD b ([], [])).2) s
  let last := (blocks.getD (nb - 1) ([], [])).2
  let s := s.putPieces part (d.blockAddr (nb - 1)) last.dropLast
  let s := match k with
    | .array => s
    | .chamber _ whole => s.concludeBank part d.chamberAddr chCodebook whole
  s.putPieces part (d.blockAddr (nb - 1) + d.codeBlock - 64) (last.getLast?.toList)

/-- A block of poison. -/
def Desc.poisonBlock (d : Desc) : List Piece × List Piece := (poisonPieces (bookBytes d.comp), poisonPieces d.codeBlock)

/-- A compressing VCVT (R291 to R293). -/
def State.vxCompress (s : State) (c : Nat) (p : Push) (ncw : Nat) (src dst st : Desc) (seen : Seen) : State × Act :=
  let part := s.coreOwner c
  let f := dst.format
  if src.comp ≠ 0 ∨ src.format ≠ f ∨ ncw ≠ f + 16 * f then (s, .fault pfCbMismatch)
  else if onChip dst.base ∧ src.count < dst.count then (s, .fault pfCbCover)
  else if src.count ≠ dst.count then (s, .fault pfCountMismatch)
  else match (statFault st dst.blocks).or ((s.descReadFault part src).or ((s.descWriteFault part dst).or
      (s.statWriteFault part st dst.blocks))) with
    | some x => (s, .fault x)
    | none =>
      match s.prepareBooks c part p dst with
      | .inr r => r
      | .inl (s, k) =>
        s.meet c part p src.allSegs seen
          (fun s =>
            let bl := (List.range dst.blocks).map (fun b =>
              compressBlock dst.comp f ((dst.blockElemIdx b).map (fun i => s.elemAt part src (src.rowOf i) (src.colOf i))))
            let s := s.writeBlocks part dst k
              (bl.map (fun b => (piecesOf (bookToBytes f b.1), piecesOf (codeBytes dst.comp b.2.1))))
            let s := (List.range bl.length).foldl (fun s b =>
              s.writeVA part (st.base + 16 * b) (wordsToBytes (bl.getD b ([], [], [], false)).2.2.1)) s
            (s, .done { flags := if bl.any (·.2.2.2) then fCbNan else 0 }))
          (fun s =>
            ((s.writeBlocks part dst k (List.replicate dst.blocks dst.poisonBlock)).poisonVA part st.base (16 * dst.blocks),
              .done Result.poisoned))

/-- VCVT (R114): it compresses when its destination is compressed (R291). DESIGN CHOICE: a VCVT whose NCW has the
compressing form (IN_A = OUT) and whose destination is not compressed runs as a narrow conversion with that NCW; the
spec names no outcome for it. -/
def State.vxVcvt (s : State) (c : Nat) (p : Push) (o : Op) (seen : Seen) : State × Act :=
  let ncw := bits (o.e 1) 31 0
  let dst := p.descs.getD 0 {}
  let src := s.operand c p 1 0
  let st := p.descs.getD 2 {}
  if dst.comp = 0 then s.vxNarrow c p ncw src dst st seen else s.vxCompress c p ncw src dst st seen

end Sys2Proof.Machine
end

