-- ==== Sys2Proof/Machine/Dma.lean ====
section
/-! DEFINITION. The DMA engine: COPY, GATHER, SCATTER, streams, as DX executes them (R115 to R124, R294). -/

namespace Sys2Proof.Machine

/-- The address and length of an element's bytes. -/
def Desc.elemBytes (d : Desc) (r c : Nat) : Nat × Nat :=
  let o := c % 16 * d.codeBits
  (d.segAddr r (c / 16) + o / 8, (o % 8 + d.codeBits + 7) / 8)

/-- The causes that the lines of an extent give a reader (Table 4.6). -/
def State.readCauses (s : State) (ue : List Nat) (part va n : Nat) : List Nat :=
  (extent va n).filterMap (fun p => s.lineCause ue (s.translate part p.1 false))

/-- The causes that an extent gives a writer. -/
def State.writeCauses (s : State) (part va n : Nat) : List Nat :=
  (extent va n).filterMap (fun p => s.pieceFault part p.1 p.2 true)

/-- Writes stored row `r` with the pattern in the elements of `bad` (R117, R124). -/
def State.writeRowBad (s : State) (part : Nat) (d : Desc) (r : Nat) (codes : List Nat) (bad : List Nat) : State :=
  let codes := if bad.isEmpty then codes
    else (List.range d.dim0).map (fun c =>
      if bad.contains c then
        unpackElem d.format (poisonBytes (d.segAddr r (c / 16)) (d.segBytes (c / 16))) (c % 16)
      else codes.getD c 0)
  let s := s.writeRow part d r codes
  bad.foldl (fun s c => let (va, n) := d.elemBytes r c; s.markVA part va n) s

/-- A COPY of uncompressed elements. -/
def State.dxCopyPlain (s : State) (c : Nat) (p : Push) (dst src : Desc) (seen : Seen) : State × Act :=
  let part := s.coreOwner c
  let segs := src.allSegs
  match s.segsUe seen.ue part segs with
  | some key => (s, .poolUe key)
  | none =>
    if s.readsPoison c p then (s.poisonDesc part { dst with rowscale := false }, .done Result.poisoned)
    else
      let step := fun (a : State × Bool × Bool) r =>
        let (s, anyBad, anyPoison) := a
        let idx := (List.range dst.dim0).map (fun i => r * dst.dim0 + i)
        let causes := idx.map (fun i =>
          let (va, n) := src.elemBytes (src.rowOf i) (src.colOf i)
          s.readCauses seen.ue part va n)
        let bad := (List.range dst.dim0).filter (fun i => !(causes.getD i []).isEmpty)
        let codes := idx.map (fun i => s.elemAt part src (src.rowOf i) (src.colOf i))
        (s.writeRowBad part dst r codes bad, anyBad || !bad.isEmpty,
          anyPoison || causes.any (fun l => l.contains cSourcePoison))
      let (s', bad, poison) := (List.range dst.rows).foldl step (s, false, false)
      let s' := s'.noteSegs seen.ue part segs
      if bad then
        (s', .done { flags := (if poison then fPoisonIn else 0) + fPoisonOut, status := stPartialFault, poison := true })
      else (s', .done {})

/-- Pieces of at most a line copied from a source, poison where a line faults. -/
def State.copyPieces (s : State) (ue : List Nat) (part va n : Nat) : List Piece :=
  (extent va n).map (fun p =>
    if (s.readCauses ue part p.1 p.2).isEmpty && (s.pieceUe ue (s.translate part p.1 false) p.2).isEmpty then (p.2, some (s.readVA part p.1 p.2)) else (p.2, none))

/-- A COPY between compressed tensors (R294): code blocks unchanged, codebooks placed under R293. -/
def State.dxCopyBlocks (s : State) (c : Nat) (p : Push) (dst src : Desc) (seen : Seen) : State × Act :=
  let part := s.coreOwner c
  let srcBank : Banks := if onChip src.base then s.latchAll part c p.num [src.chamberAddr] else .ok s []
  match srcBank with
  | .act s a => (s, a)
  | .ok s bs =>
    let h := if onChip src.base then s.chamber part src.chamberAddr else ⟨0, 0, 0, 0, 0, 0, 0⟩
    if onChip src.base && src.bookMismatch h src.jmax then (s, .fault pfCbMismatch)
    else match s.prepareBooks c part p dst with
      | .inr r => r
      | .inl (s, k) =>
        let bookVa := fun b => src.bookVa h (bs.headD 0) (src.blockIndex (src.blockAddr b))
        let segs := (List.range src.blocks).flatMap (fun b =>
          [(bookVa b, bookBytes src.comp), (src.blockAddr b, src.codeBlock)])
        match s.segsUe seen.ue part segs with
        | some key => (s, .poolUe key)
        | none =>
          if s.readsPoison c p then
            (s.writeBlocks part dst k (List.replicate dst.blocks dst.poisonBlock), .done Result.poisoned)
          else
            let bl := (List.range src.blocks).map (fun b =>
              (s.copyPieces seen.ue part (bookVa b) (bookBytes src.comp),
               s.copyPieces seen.ue part (src.blockAddr b) src.codeBlock))
            let bad := bl.any (fun b => (b.1 ++ b.2).any (fun q => q.2.isNone))
            let poison := segs.any (fun g => (s.readCauses seen.ue part g.1 g.2).contains cSourcePoison)
            let s := (s.writeBlocks part dst k bl).noteSegs seen.ue part segs
            if bad then
              (s, .done { flags := (if poison then fPoisonIn else 0) + fPoisonOut, status := stPartialFault,
                          poison := true })
            else (s, .done {})

/-- Two compressed tensors agree (R294). -/
def sameBlocks (a b : Desc) : Bool :=
  a.comp == b.comp && a.format == b.format && a.dim0 == b.dim0 && a.dim1 == b.dim1 && a.dim2 == b.dim2 &&
    a.dim3 == b.dim3

/-- The formats and compressions of a DX source and destination do not go together (R115, R294). -/
def dxMismatch (src dst : Desc) : Option Nat :=
  if src.comp ≠ 0 ∨ dst.comp ≠ 0 then (if sameBlocks src dst then none else some pfCbMismatch)
  else if src.format ≠ dst.format then some pfDescInvalid else none

/-- DX COPY (R115 to R117, R145). -/
def State.dxCopy (s : State) (c : Nat) (p : Push) (seen : Seen) : State × Act :=
  let part := s.coreOwner c
  let dst := p.descs.getD 0 {}
  let src := s.operand c p 1 0
  match dxMismatch src dst with
  | some f => (s, .fault f)
  | none =>
    if src.count ≠ dst.count then (s, .fault pfCountMismatch)
    else match s.descWriteFault part { dst with rowscale := false } with
      | some f => (s, .fault f)
      | none => if dst.comp = 0 then s.dxCopyPlain c p dst src seen else s.dxCopyBlocks c p dst src seen

/-! ### Gather and scatter (R121 to R124) -/

/-- What one element of a gather or scatter meets. -/
structure ElemFault where
  range : Bool
  src : List Nat
  dst : List Nat
  deriving DecidableEq, Repr

/-- The cause reported for an element (R122): INDEX_RANGE, else the lowest code. -/
def ElemFault.cause (e : ElemFault) : Option Nat :=
  if e.range then some cIndexRange else (e.src ++ e.dst).min?

/-- An element of a gather or scatter has written poison (R123). -/
def ElemFault.poisons (e : ElemFault) (gather : Bool) : Bool :=
  e.dst.isEmpty && (if e.range then gather else !e.src.isEmpty)

/-- The result of a run of elements (R122): the mask of faulting elements, the first, its cause. -/
def elemResult (causes : List (Option Nat)) : Nat × Nat × Nat :=
  let mask := maskOf ((List.range causes.length).filter (fun k => (causes.getD k none).isSome))
  match listFind (fun k => (causes.getD k none).isSome) (List.range causes.length) with
  | some k => (mask, (causes.getD k none).getD 0, k)
  | none => (0, 0, 0xFF)

/-- One element: row `rs` of the source to row `rd` of the destination; `range` when the index is out of range. -/
def State.moveElem (s : State) (ue : List Nat) (part : Nat) (src dst : Desc) (rs rd : Nat) (range gather : Bool) :
    State × ElemFault :=
  let sc := if range ∧ gather then [] else (src.rowSegs rs).flatMap (fun g => s.readCauses ue part g.1 g.2)
  let dc := if range ∧ !gather then [] else (dst.rowSegs rd).flatMap (fun g => s.writeCauses part g.1 g.2)
  let e : ElemFault := ⟨range, sc, dc⟩
  let s := if range ∧ gather then s else s.noteSegs ue part (src.rowSegs rs)
  if !dc.isEmpty || (range && !gather) then (s, e)
  else if range || !sc.isEmpty then (s.poisonRow part dst rd, e)
  else (s.writeRow part dst rd (s.readRow part src rs), e)

/-- DX GATHER and SCATTER: the push covers rows 16 × group to 16 × group + 15. DESIGN CHOICE: the rows that a SCATTER with
a poisoned read region would write (R104) are those that the stored index data name, be they poisoned; the spec does not
say how they are found. -/
def State.dxIndexed (s : State) (c : Nat) (p : Push) (gather : Bool) (seen : Seen) : State × Act :=
  let part := s.coreOwner c
  let dst := p.descs.getD 0 {}
  let src := s.operand c p 1 0
  let idx := s.operand c p 2 2
  let n := if gather then dst.dim1 else src.dim1
  let m := min 16 (n - 16 * p.group)
  if idx.format ≠ fmtInt32 then (s, .fault pfDescInvalid)
  else if src.comp ≠ 0 ∨ dst.comp ≠ 0 ∨ idx.comp ≠ 0 then (s, .fault pfCbMismatch)
  else if src.format ≠ dst.format then (s, .fault pfDescInvalid)
  else if idx.count < n ∨ src.dim0 ≠ dst.dim0 then (s, .fault pfCountMismatch)
  else if dst.readOnly then (s, .fault pfReadOnly)
  else
    let idxSegs := (List.range m).map (fun k =>
      let i := 16 * p.group + k
      idx.elemBytes (idx.rowOf i) (idx.colOf i))
    match (s.segsFault part idxSegs false).map pfOfCause with
    | some f => (s, .fault f)
    | none =>
      let limit := if gather then src.rows else dst.rows
      let ids := s.elems part idx (16 * p.group) m
      let srcSegs := (List.range m).flatMap (fun k =>
        let r := if gather then ids.getD k 0 else 16 * p.group + k
        if r < src.rows then src.rowSegs r else [])
      match s.segsUe seen.ue part (idxSegs ++ srcSegs) with
      | some key => (s, .poolUe key)
      | none =>
        if s.readsPoison c p || s.segsPoison seen.ue part idxSegs then
          let rows := (List.range m).map (fun k => if gather then 16 * p.group + k else ids.getD k 0)
          (rows.foldl (fun s r => if r < dst.rows then s.poisonRow part dst r else s) s, .done Result.poisoned)
        else
          let step := fun (a : State × List ElemFault) k =>
            let own := 16 * p.group + k
            let i := ids.getD k 0
            let range := decide (limit ≤ i)
            let (s, e) := if gather then a.1.moveElem seen.ue part src dst i own range true
              else a.1.moveElem seen.ue part src dst own i range false
            (s, a.2 ++ [e])
          let (s, es) := (List.range m).foldl step (s, [])
          let (mask, cause, first) := elemResult (es.map (·.cause))
          if mask = 0 then (s, .done {})
          else
            let fl := (if es.any (fun e => e.src.contains cSourcePoison) then fPoisonIn else 0) +
              (if es.any (fun e => e.poisons gather) then fPoisonOut else 0)
            (s, .done { flags := fl, status := stPartialFault, cause := cause, first := first, mask := mask,
                        poison := true })

/-! ### Streams -/

/-- What a compressed stream meets when it opens (R293, R294, R677): every block of an on-chip ring is written, its chamber may be
written, and the codebook bank of an on-chip source is latched. -/
def State.openBooks (s : State) (c : Nat) (p : Push) (st : Stream) : Banks :=
  let part := st.part
  let ring := st.ring
  if ring.comp = 0 then .ok s []
  else if onChip ring.base ∧ st.total > st.slots then .act s (.fault pfCbCover)
  else match s.booksFault part ring with
    | some f => .act s (.fault f)
    | none =>
      if !onChip st.src.base then .ok s []
      else match s.latchAll part c p.num [st.src.chamberAddr] with
        | .act s a => .act s a
        | .ok s bs =>
          if st.src.bookMismatch (s.chamber part st.src.chamberAddr) st.src.jmax then .act s (.fault pfCbMismatch) else .ok s bs

/-- STREAM_OPEN (R115, R118, R677). -/
def State.dxStreamOpen (s : State) (c : Nat) (p : Push) (o : Op) : State × Act :=
  let part := s.coreOwner c
  let src := p.descs.getD 0 {}
  let ring := p.descs.getD 1 {}
  let chunk := bits (o.e 0) 34 24
  let slots := bits (o.e 0) 40 35 + 1
  let st : Stream := {
    isOpen := true, src := src, ring := ring, chunk64 := chunk, slots := slots,
    consumers := if o.fl < 8 then 1 else bits (o.e 0) 44 41 + 1, part := part, opener := c }
  if o.fl > 23 ∨ (s.stream c o.fl).isOpen then (s, .fault pfStreamState)
  else match dxMismatch src ring with
    | some f => (s, .fault f)
    | none =>
      if ring.readOnly then (s, .fault pfReadOnly)
      else match s.extentFault part ring.base (slots * 64 * chunk) true with
        | some cause => (s, .fault (pfOfCause cause))
        | none => match s.openBooks c p st with
          | .act s a => (s, a)
          | .ok s bs =>
            let s := bs.foldl (fun s b => s.addLatch part c (streamLatch o.fl) src.chamberAddr b) s
            (s.setStream c o.fl { st with srcBank := bs.headD 0 }, .done {})

/-- STREAM_CLOSE (R120). -/
def State.dxStreamClose (s : State) (c : Nat) (o : Op) : State × Act :=
  let st := s.stream c o.fl
  if !st.isOpen then (s, .fault pfStreamState)
  else if st.drained then ((s.setStream c o.fl {}).unlatch st.opener (streamLatch o.fl), .done {})
  else (s, .hold .other)

/-- The next chunk of a stream may be filled (R119): it exists, and the chunk SLOTS before it has been released. -/
def Stream.fillable (st : Stream) : Bool :=
  st.isOpen && decide (st.filled < st.total) && (decide (st.filled < st.slots) || st.done (st.filled - st.slots))

/-- Where a stream puts the codebooks of a compressed ring (R293); none while the rebuild of the ring's chamber waits (R53). -/
def State.streamBooks (s : State) (c n : Nat) : State × Option Books :=
  let st := s.stream c n
  if st.ring.comp = 0 ∨ onChip st.ring.base = false then (s, some .array)
  else match st.bank with
    | some (b, w) => (s, some (.chamber b w))
    | none => match s.prepare st.part st.opener st.ring.chamberAddr st.stage true with
      | .wait s k => (s.setStream c n { st with stage := k }, none)
      | .go s b w => (s.setStream c n { st with bank := some (b, w) }, some (.chamber b w))

/-- The codebooks of the blocks that begin in the next chunk: source and destination addresses. -/
def State.chunkBooks (s : State) (st : Stream) (k : Books) : List (Nat × Nat) :=
  if st.ring.comp = 0 then []
  else
    let h := if onChip st.src.base then s.chamber st.part st.src.chamberAddr else ⟨0, 0, 0, 0, 0, 0, 0⟩
    let dst := match k with
      | .array => st.ring.chamberAddr
      | .chamber b _ => (s.chamber st.part st.ring.chamberAddr).bank b
    let lo := st.src.base + st.filled * (64 * st.chunk64)
    (((List.range st.src.blocks).map st.src.blockAddr).filter (fun a => decide (lo ≤ a ∧ a < lo + 64 * st.chunk64))).map (fun a =>
      let j := st.src.blockIndex a
      (st.src.bookVa h st.srcBank j, dst + j * bookBytes st.ring.comp))

/-- Fills chunk `filled` of stream `n` as core `c` names it (R119, R120); of a compressed one, with the codebooks of its blocks, and
with the chamber's flip before the last line of the last chunk (R293, R294). -/
def State.fillChunk (s : State) (c n : Nat) (k : Books) (ue : List Nat) : State :=
  let st := s.stream c n
  let part := st.part
  let size := 64 * st.chunk64
  let va := st.src.base + st.filled * size
  let len := min size (st.src.span.2 + 1 - va)
  let books := (s.chunkBooks st k).map (fun e => (e.1, e.2, s.copyPieces ue part e.1 (bookBytes st.ring.comp)))
  let ps := s.copyPieces ue part va len
  let bad := (ps ++ books.flatMap (·.2.2)).any (fun q => q.2.isNone)
  let last := decide (st.filled + 1 = st.total)
  let s := books.foldl (fun s e => s.putPieces part e.2.1 e.2.2) s
  let s := s.putPieces part (st.chunkVa st.filled) (if last then ps.dropLast else ps)
  let s := if last then (match k with
      | .array => s
      | .chamber _ whole => s.concludeBank part st.ring.chamberAddr chCodebook whole) else s
  let s := if last then s.putPieces part (st.chunkVa st.filled + (ps.dropLast.map (·.1)).foldl (· + ·) 0) (ps.getLast?.toList) else s
  let s := s.noteSegs ue part ((va, len) :: books.map (fun e => (e.1, bookBytes st.ring.comp)))
  let s := if last then s.unlatch st.opener (streamLatch n) else s
  let s := s.setStream c n { st with filled := st.filled + 1,
                                     poison := if bad then st.poison ++ [st.filled] else st.poison }
  if bad && st.ring.regionEn then
    s.updCore st.opener (fun k => { k with poison := setBit k.poison st.ring.region true })
  else s

end Sys2Proof.Machine
end

