-- ==== Sys2Proof/Machine/Routes.lean ====
section
/-! DEFINITION. Routes over the on-package network (R172, R176, R177) and the striping of a die-to-die pair (R183). -/

namespace Sys2Proof.Machine

/-! ### Nodes (R172) -/

/-- The die of a node. -/
def nodeDie (n : Nat) : Nat := bits n 11 9
/-- The reach of a node: units 0 to 15 of a compute die. -/
def nodeReach (n : Nat) : Option Nat := if n / 512 < 6 ∧ n % 512 < 16 then some (16 * (n / 512) + n % 512) else none
/-- The node of a reach. -/
def reachNode (r : Nat) : Nat := 512 * (r / 16) + r % 16
/-- The stack of a node: units 16 and 17 of a compute die, in ascending HS number. -/
def nodeStack (n : Nat) : Option Nat :=
  if n / 512 < 6 ∧ (n % 512 = 16 ∨ n % 512 = 17) then some (2 * (n / 512) + (n % 512 - 16)) else none
/-- The tier-2 controller or the port of a hub-die node, by the numbers that firmware has fixed: the MEM page, or 32 plus the
port; none for another unit. -/
def nodeHub (n : Nat) : Option Nat := if 6 ≤ n / 512 then Config.hubUnit (n / 512) (n % 512) else none

/-! ### Die-to-die pairs -/

/-- The dies of a pair, in the order of the pair pages (R643). -/
def pairDies (i : Nat) : Nat × Nat :=
  [(0, 1), (0, 3), (0, 6), (1, 2), (1, 4), (2, 5), (2, 7), (3, 4), (3, 6), (4, 5), (5, 7)].getD i (0, 0)

def State.pair (s : State) (i : Nat) : Pair := s.fab.pairs.get {} i
def State.updPair (s : State) (i : Nat) (f : Pair → Pair) : State :=
  { s with fab := { s.fab with pairs := s.fab.pairs.upd {} i f } }

/-- A pair is UP: some module is active, and every feature that level 1 needs is there (R181). -/
def Pair.up (p : Pair) : Bool := p.active != 0 && p.features % 16 == 15

/-- The pair that joins two dies. -/
def pairOf (a b : Nat) : Option Nat := listFind (fun i => pairDies i == (min a b, max a b)) (List.range 11)

/-- The pair between two dies is UP. -/
def State.linked (s : State) (a b : Nat) : Bool := (pairOf a b).any (fun i => (s.pair i).up)

/-! ### Primary routes (R176) -/

/-- The die after die `a` on the primary route to die `b`. -/
def primaryNext (a b : Nat) : Nat :=
  if a = 6 then (if b < 6 then 3 * (b / 3) else 0)
  else if a = 7 then (if b < 6 then 3 * (b / 3) + 2 else 2)
  else if b = 6 then (if a % 3 = 0 then 6 else a - 1)
  else if b = 7 then (if a % 3 = 2 then 7 else a + 1)
  else if a % 3 < b % 3 then a + 1
  else if b % 3 < a % 3 then a - 1
  else b

/-- A route from die `a` to die `b` of at most `fuel` hops: its dies, both ends included. -/
def primaryFrom (b : Nat) : Nat → Nat → List Nat
  | 0, a => [a]
  | fuel + 1, a => if a = b then [a] else a :: primaryFrom b fuel (primaryNext a b)

/-- The primary die route (Table 6.5). -/
def primaryRoute (a b : Nat) : List Nat := primaryFrom b 4 a

/-- The hops of a route. -/
def hops (l : List Nat) : List (Nat × Nat) := l.zip (l.drop 1)

/-! ### Alternate routes (R177) -/

/-- The dies that a mask of dies and the pairs that are UP reach in one hop more. -/
def spread (ups : List (Nat × Nat)) (m : Nat) : Nat :=
  ups.foldl (fun t e => if bit m e.1 || bit m e.2 then t ||| 2 ^ e.1 ||| 2 ^ e.2 else t) m

/-- The pairs that are UP. -/
def State.upPairs (s : State) : List (Nat × Nat) := ((List.range 11).filter (fun i => (s.pair i).up)).map pairDies

/-- The dies within `n` hops of HD0. -/
def reachIn (ups : List (Nat × Nat)) : Nat → Nat
  | 0 => 2 ^ 6
  | n + 1 => spread ups (reachIn ups n)

/-- The dies that the pairs that are UP join to HD0, as a mask: the breadth-first tree of R177 reaches them. -/
def State.reachedDies (s : State) : Nat := reachIn s.upPairs 8

/-- Depth of a die in the breadth-first tree rooted at HD0. -/
def treeDepth (ups : List (Nat × Nat)) (d : Nat) : Nat :=
  (listFind (fun n => bit (reachIn ups n) d) (List.range 8)).getD 8

/-- A hop goes up: to a die nearer the root, or of equal depth and lower number. -/
def hopUp (depth : List Nat) (a b : Nat) : Bool :=
  let x := depth.getD a 8
  let y := depth.getD b 8
  decide (y < x) || (y == x && decide (b < a))

/-- An up*/down* route of exactly `n` hops, the lower die numbers first; with `down`, no hop up may follow. -/
def upDown (ups : List (Nat × Nat)) (depth : List Nat) (b : Nat) : Nat → Nat → Bool → Option (List Nat)
  | 0, a, _ => if a = b then some [a] else none
  | n + 1, a, down =>
    ((List.range 8).filter (fun c => ups.contains (min a c, max a c) && !(down && hopUp depth a c))).findSome? (fun c =>
      (upDown ups depth b n c (!hopUp depth a c)).map (a :: ·))

/-- The alternate route between two dies. DEDUCED: of the up*/down* routes over the pairs that are UP, each hop directed by the
breadth-first tree, the shortest, ties toward the lower die number; a route along the branches of the tree alone would be
longer than the text after R177 allows. -/
def altRoute (ups : List (Nat × Nat)) (a b : Nat) : Option (List Nat) :=
  let depth := (List.range 8).map (treeDepth ups)
  (List.range 8).findSome? (fun n => upDown ups depth b n a false)

/-- Firmware replaces every route that crosses a pair that is DOWN; a die route that is not listed is the primary one. -/
def State.reroute (s : State) : State :=
  let ups := s.upPairs
  let ends := (List.range 64).filter (fun k => k / 8 != k % 8 &&
    (hops (primaryRoute (k / 8) (k % 8))).any (fun h => !s.linked h.1 h.2))
  let routes := ends.foldl (fun (t : Tab (Option (List Nat))) k => t.put none k (altRoute ups (k / 8) (k % 8))) []
  { s with fab := { s.fab with routes := routes } }

/-- The die route table of die `a`: the dies on the way to die `b`. -/
def State.dieRoute (s : State) (a b : Nat) : List Nat := (s.fab.routes.get none (8 * a + b)).getD (primaryRoute a b)
/-- The sub-channel that the route is carried on (R173). -/
def State.subChannel (s : State) (a b : Nat) : Nat := if (s.fab.routes.get none (8 * a + b)).isSome then 1 else 0

/-! ### Striping (R183) -/

/-- The module of a pair that carries a packet from node `src` to node `dst` on virtual channel `v`. -/
def stripe (active src dst v : Nat) : Option Nat :=
  let m := (src ^^^ dst ^^^ v) % 8
  listFind (bit active) ((List.range 8).map (fun i => (m + i) % 8))

/-! ### The way through the mesh (R176) -/

/-- Units on the way from unit `a` to unit `b` of a die: along x first, then along y. -/
def meshFrom (b : Nat) : Nat → Nat → List Nat
  | 0, a => [a]
  | fuel + 1, a =>
    if a = b then [a]
    else if a % 4 < b % 4 then a :: meshFrom b fuel (a + 1)
    else if b % 4 < a % 4 then a :: meshFrom b fuel (a - 1)
    else if a < b then a :: meshFrom b fuel (a + 4)
    else a :: meshFrom b fuel (a - 4)

/-- The mesh route between two reach routers of a die. -/
def meshRoute (a b : Nat) : List Nat := meshFrom b 6 a

/-- The reach router that a node of a compute die is joined to: a reach its own, a stack the one at its edge. -/
def nodeUnit (n : Nat) : Nat := if n % 512 < 16 then n % 512 else Config.stackUnit n % 16

/-- The reach router of die `a` at the edge to die `b` by which a packet passes on module `m`. -/
def edgeUnit (a b m : Nat) : Nat := Config.edgeUnit a b m % 16

/-- The module on which a packet passes from die `a` to die `b`. -/
def State.hopModule (s : State) (a b src dst v : Nat) : Nat :=
  match pairOf a b with
  | some i => (stripe (s.pair i).active src dst v).getD 0
  | none => 0

/-- The reach routers that a packet passes on its way. -/
def State.routersOf (s : State) (src dst v : Nat) : List Nat :=
  let ds := s.dieRoute (nodeDie src) (nodeDie dst)
  (List.range ds.length).flatMap (fun i =>
    let d := ds.getD i 0
    if 6 ≤ d then []
    else
      let entry := if i = 0 then nodeUnit src else edgeUnit d (ds.getD (i - 1) 0) (s.hopModule (ds.getD (i - 1) 0) d src dst v)
      let exit := if i + 1 = ds.length then nodeUnit dst else edgeUnit d (ds.getD (i + 1) 0) (s.hopModule d (ds.getD (i + 1) 0) src dst v)
      (meshRoute entry exit).map (16 * d + ·))

/-- A packet of `n` bytes has passed between two dies: the pair's flits, and those that its adapters resent. -/
def State.crossPair (s : State) (n a b : Nat) : State :=
  match pairOf a b with
  | none => s
  | some i =>
    let (t, s) := s.draw
    s.updPair i (fun p =>
      let p := { p with retries := sat32 (p.retries + Config.adapterRetries i t) }
      if a < b then { p with flitsSent := sat64 (p.flitsSent + Config.flits n) }
      else { p with flitsReceived := sat64 (p.flitsReceived + Config.flits n) })

/-- A packet of `n` bytes has come from node `src` to node `dst` on virtual channel `v`: the routers and the pairs on its way
count it (Tables 6.18 and 6.19). -/
def State.carry (s : State) (src dst v n : Nat) : State :=
  let s := (s.routersOf src dst v).foldl (fun s r => s.updReach r (fun x => { x with routerPackets := sat64 (x.routerPackets + 1) })) s
  (hops (s.dieRoute (nodeDie src) (nodeDie dst))).foldl (fun s h => s.crossPair n h.1 h.2) s

end Sys2Proof.Machine
end

