-- ==== Sys2Proof/Machine/Message.lean ====
section
/-! DEFINITION. Messages, inbound queues and junction queues (R127, R193 to R211): what QX does with SEND, JSEND and
RECV, and what receivers and junctions do. -/

namespace Sys2Proof.Machine

/-! ### Inbound queues -/

def maxQueue : Nat := 32

def State.inQueue (s : State) (c q : Nat) : List (List Nat) := s.fab.queues.get [] (c * 16 + q)
def State.setInQueue (s : State) (c q : Nat) (l : List (List Nat)) : State :=
  { s with fab := { s.fab with queues := s.fab.queues.put [] (c * 16 + q) l } }

/-- TYPE, QUEUE, LEVEL, POISON and SRC_CORE of a message's first word (Table 6.14). -/
def msgType (m : List Nat) : Nat := bits (m.headD 0) 7 0
def msgLevel (m : List Nat) : Nat := bits (m.headD 0) 15 12
def msgPoison (m : List Nat) : Bool := bit (m.headD 0) 16
def msgPtr (m : List Nat) : Nat := m.getD 2 0 + 2 ^ 32 * bits (m.getD 3 0) 15 0

/-- A message built by the package: SRC_CORE 0x7FF (R208, R377). -/
def firmwareMsg (typ len ptr u0 u1 u2 u3 : Nat) (poison : Bool) : List Nat :=
  [0x7FF * 2 ^ 21 + b2n poison * 2 ^ 16 + 2 ^ 12 + typ % 256, wrap32 len, lo32 ptr, hi32 ptr, wrap32 u0, wrap32 u1,
   wrap32 u2, wrap32 u3]

/-- A packet sets out on MSG, after every other of its source so far (R178). -/
def State.launch (s : State) (junction : Bool) (f : Flying) : State :=
  let f := { f with seq := s.fab.sent }
  { s with fab := { s.fab with
      sent := s.fab.sent + 1,
      flying := if junction then s.fab.flying else s.fab.flying ++ [f],
      contribs := if junction then s.fab.contribs ++ [f] else s.fab.contribs } }

/-- The node of a logical core's reach router. -/
def coreNode (c : Nat) : Nat := reachNode (c / 16)

/-- An earlier packet on MSG from the node of `f` to reach `r` has not arrived: R178 keeps `f` behind it. A packet that its
receiver refused waits at its sender, not in the network. -/
def State.behind (s : State) (r : Nat) (f : Flying) : Bool :=
  f.node.isSome &&
    (s.fab.flying.any (fun g => !g.refused && g.node == f.node && g.dst / 16 == r && decide (g.seq < f.seq)) ||
     s.fab.contribs.any (fun g => !g.refused && g.node == f.node && g.dst == r && decide (g.seq < f.seq)))

/-- Sets a message on its way from the package to a core's queue; `node` is that of a junction's reach. -/
def State.sendFirmware (s : State) (c q : Nat) (m : List Nat) (node : Option Nat := none) : State :=
  s.launch false { src := none, dst := c, queue := q, words := m, poison := msgPoison m, node := node }

/-- A queue entry of (core, queue) has been freed: a space notice goes to each refused sender (R195). -/
def State.noticeSpace (s : State) (c q : Nat) : State :=
  let k := c * 16 + q
  { s with fab := { s.fab with
      notices := s.fab.notices ++ s.fab.refused.get [] k,
      refused := s.fab.refused.put [] k [],
      flying := s.fab.flying.map (fun f => if f.src = none ∧ f.dst = c ∧ f.queue = q then { f with refused := false }
        else f) } }

/-- The queue from which a RECV on `q` takes (R197): the lowest-numbered non-empty queue of the set, or the first
after the one last received from. -/
def State.recvQueue (s : State) (c q : Nat) : Option Nat :=
  let k := s.core c
  let n := 2 ^ k.setLog2
  let j := q / n
  let qs := (List.range n).map (fun i => j * n + i)
  let order := if bit k.policy j then
      match k.lastQueue.get 0 j with
      | 0 => qs
      | l => (List.range n).map (fun i => j * n + (l - j * n + i) % n)
    else qs
  listFind (fun i => !(s.inQueue c i).isEmpty) order

/-- A RECV takes a message and completes (R197, R199). -/
def State.recvTake (s : State) (c : Nat) (p : Push) (q : Nat) : State × Act :=
  match s.inQueue c q with
  | [] => (s, .hold .other)
  | m :: t =>
    let part := s.coreOwner c
    let n := 2 ^ (s.core c).setLog2
    let s := (s.setInQueue c q t).updCore c (fun k => { k with lastQueue := k.lastQueue.put 0 (q / n) (q + 1) })
    let s := (s.noticeSpace c q).writeDesc part (p.descs.getD 0 {}) (wordsToBytes m)
    if msgPoison m then (s, .done { flags := fPoisonIn, status := stPartialFault, poison := true })
    else (s, .done {})

/-- RECV (R197, R199). -/
def State.qxRecv (s : State) (c : Nat) (p : Push) (o : Op) : State × Act :=
  let part := s.coreOwner c
  let dst := p.descs.getD 0 {}
  if dst.count * dst.codeBits ≠ 256 then (s, .fault pfCountMismatch)
  else match s.descWriteFault part { dst with rowscale := false } with
    | some f => (s, .fault f)
    | none => match s.recvQueue c (bits o.fl 3 0) with
      | some q => s.recvTake c p q
      | none => (s, .hold .other)

/-! ### SEND -/

/-- The message that a SEND forms (R193): SRC_CORE and POISON are written by the engine. -/
def formMsg (words : List Nat) (c : Nat) (poison : Bool) : List Nat :=
  let w0 := words.headD 0
  setBits (setBit w0 16 poison) 31 21 c :: (words.drop 1).take 7

/-- A QCONFIG message is malformed (R198). -/
def qconfigBad (m : List Nat) : Bool :=
  let u := m.getD 4 0
  decide (bits u 2 0 > 4) || bits u 15 3 != 0 || m.getD 1 0 != 0 || m.getD 2 0 != 0 || m.getD 3 0 != 0 ||
    m.getD 5 0 != 0 || m.getD 6 0 != 0 || m.getD 7 0 != 0

/-- A core belongs to a bound stage (R378) or a bound model (R484). -/
def State.inStage (s : State) (c : Nat) : Bool := s.pipe.slots.any (fun e => e.2.bound && bit e.2.slices (c / 8))
def State.inModel (s : State) (c : Nat) : Bool := s.serv.models.any (fun e => e.2.bound && bit e.2.slices (c / 8))

/-- SEND (R127, R193, R194, R198, R378, R484). A message formed from poisoned data is sent with POISON and otherwise not
judged (R104). -/
def State.qxSend (s : State) (c : Nat) (p : Push) (o : Op) (seen : Seen) : State × Act :=
  let part := s.coreOwner c
  let va := (s.operand c p 0 0).base
  let dest := if bit o.fl 0 then bits p.a 10 0 else bits (o.e 0) 26 16
  let q := bits (o.e 0) 31 28
  match (s.extentFault part va 32 false).map pfOfCause with
  | some f => (s, .fault f)
  | none =>
    match s.segsUe seen.ue part [(va, 32)] with
    | some key => (s, .poolUe key)
    | none =>
      let poison := s.readsPoison c p || s.segsPoison seen.ue part [(va, 32)]
      let s := s.noteSegs seen.ue part [(va, 32)]
      let m := formMsg (bytesToWords (s.readVA part va 32)) c poison
      let t := msgType m
      if !poison && (msgLevel m != 1 || (decide (0xF0 ≤ t ∧ t ≤ 0xFE) && part != 0) || (t == 0xFF && dest != c)) then
        (s, .fault pfMsgType)
      else if dest = 0x7FE then
        if !s.inStage c ∨ q > 1 then (s, .fault pfPipeMsg)
        else ({ s with fab := { s.fab with requests := s.fab.requests ++ [(c, dest, q, m)] } }, .hold .controller)
      else if dest = 0x7FD then
        if !s.inModel c ∨ q ≠ 0 then (s, .fault pfServMsg)
        else ({ s with fab := { s.fab with requests := s.fab.requests ++ [(c, dest, q, m)] } }, .hold .controller)
      else if t = 0xFF ∧ !poison then
        if qconfigBad m then (s, .fault pfMsgType)
        else
          let u := m.getD 4 0
          (s.updCore c (fun k => { k with setLog2 := bits u 2 0, policy := bits u 31 16 }), .done {})
      else if dest ≥ 1536 ∨ s.mapped dest = false ∨ s.coreOwner dest ≠ part then (s, .fault pfNotOwner)
      else
        (s.launch false { src := some c, dst := dest, queue := q, words := m, poison := poison, node := some (coreNode c) },
          .hold (.message 0 s.clk true))

/-! ### Junctions (R202 to R210) -/

/-- The fields of a junction descriptor (Table 6.16). -/
structure JqDesc where
  w0 : Nat
  elements : Nat
  releaseCount : Nat
  firstCore : Nat
  rel : Nat
  stageSlots : Nat
  acc : Nat
  stage : Nat
  /-- Every reserved field is zero. -/
  clean : Bool
  deriving DecidableEq, Repr

/-- Reads the descriptor of junction `q` of reach `r`. -/
def State.jqDesc (s : State) (r q : Nat) : JqDesc :=
  let b := (List.range 64).map (fun i => s.basinByte r (junctionOff q + i))
  let ws := bytesToWords b
  let w := fun i => ws.getD i 0
  { w0 := w 0, elements := w 1, releaseCount := w 2, firstCore := w 3, rel := w 4, stageSlots := w 5,
    acc := w 6 + 2 ^ 32 * w 7, stage := w 8 + 2 ^ 32 * w 9,
    clean := bits (w 0) 31 28 == 0 && bits (w 0) 24 19 == 0 && bits (w 0) 15 4 == 0 && bits (w 2) 31 11 == 0 &&
      bits (w 3) 31 11 == 0 && bits (w 4) 31 24 == 0 && bits (w 4) 11 11 == 0 && bits (w 5) 31 7 == 0 &&
      bits (w 7) 31 16 == 0 && bits (w 9) 31 16 == 0 && w 12 == 0 && w 13 == 0 && w 14 == 0 && w 15 == 0 }

/-- MODE: 0 LA128, 1 W58_ORDERED, 2 FP32_ORDERED, 3 INT32. -/
def JqDesc.mode (d : JqDesc) : Nat := bits d.w0 18 17
def JqDesc.ordered (d : JqDesc) : Bool := d.mode == 1 || d.mode == 2
/-- The format of a mode's elements and their bytes (R203). -/
def JqDesc.fmt (d : JqDesc) : Nat := match d.mode with
  | 0 => fmtLa128 | 1 => 9 | 2 => 8 | _ => fmtInt32
def JqDesc.width (d : JqDesc) : Nat := elemBits d.fmt / 8
def JqDesc.bytes (d : JqDesc) : Nat := d.elements * d.width

/-- An extent lies in the basin of reach `r`, in halves of partition `part`, clear of the junction descriptors. -/
def State.jqExtent (s : State) (part r va n : Nat) : Bool :=
  (extent va n).all (fun p => match s.translate part p.1 true with
    | .basin r' o => r' == r && !inJunctions o
    | _ => false)

/-- Every field of a junction descriptor is valid (R203, R204). -/
def State.jqValid (s : State) (r q : Nat) (d : JqDesc) : Bool :=
  let part := s.sliceOwner (2 * r + q / 16)
  d.clean && bits d.w0 3 0 == 1 && decide (1 ≤ d.elements ∧ d.elements ≤ 65536) &&
    decide (1 ≤ d.releaseCount ∧ d.releaseCount ≤ 1536) && decide (d.firstCore < 1536) &&
    decide (bits d.rel 23 16 ≤ 0xEF) && decide (bits d.rel 10 0 < 1536) && decide (d.stageSlots ≤ 64) &&
    d.acc % 64 == 0 && d.stage % 64 == 0 && s.jqExtent part r d.acc d.bytes &&
    (!d.ordered || d.stageSlots == 0 || s.jqExtent part r d.stage (d.stageSlots * d.bytes))

/-- JSEND (R205). -/
def State.qxJsend (s : State) (c : Nat) (p : Push) (o : Op) (seen : Seen) : State × Act :=
  let part := s.coreOwner c
  let src := s.operand c p 0 0
  let r := bits (o.e 0) 18 12
  let q := bits (o.e 0) 23 19
  let d := s.jqDesc r q
  if s.sliceOwner (2 * r + q / 16) ≠ part ∨ r ≥ 96 then (s, .fault pfNotOwner)
  else if (s.junction r q).state = 0 then (s, .fault pfJqState)
  else if src.comp ≠ 0 then (s, .fault pfCbMismatch)
  else if src.format ≠ d.fmt ∨ src.count ≠ d.elements then (s, .fault pfJqMismatch)
  else match s.descReadFault part src with
    | some f => (s, .fault f)
    | none =>
      match s.segsUe seen.ue part src.allSegs with
      | some key => (s, .poolUe key)
      | none =>
        let poison := s.readsPoison c p || s.segsPoison seen.ue part src.allSegs
        let s := s.noteSegs seen.ue part src.allSegs
        (s.launch true { src := some c, dst := r, queue := q, words := s.allElems part src, poison := poison, fmt := src.format,
                         node := some (coreNode c) },
          .hold (.message 0 s.clk true))

/-- The QX command of a core that holds a message or contribution, while it is on its way or refused. -/
def Core.holding (k : Core) : Option Push :=
  match k.qx with
  | p :: _ => match p.wait with
    | .message _ _ _ => some p
    | _ => none
  | [] => none

/-- What QX has held so far for a full queue enters QX_STALL_NS (Table 4.11). -/
def State.countStall (s : State) (c : Nat) : State :=
  s.updCore c (fun k => { k with qxStallNs := sat32 (k.qxStallNs + k.stallNow s.clk) })

/-- The message has been accepted: the SEND or JSEND completes, and its stall is counted (R195, Table 4.11). -/
def State.sendAccepted (s : State) (c : Nat) (poison : Bool) : State :=
  match (s.core c).holding with
  | some p =>
    (s.countStall c).complete c .qx p
      { flags := if poison then fPoisonIn else 0 }
  | none => s

/-- The message has been refused: QX holds it (R127, R195). -/
def State.sendRefused (s : State) (c : Nat) : State :=
  s.updCore c (fun k => match k.holding with
    | some p => k.updPush .qx p.num (fun q => match q.wait with
      | .message since _ _ => { q with wait := .message (if since = 0 then s.clk + 1 else since) s.clk false }
      | _ => q)
    | none => k)

/-- QX tries again (R195): the message or contribution is on its way once more. -/
def State.resend (s : State) (c : Nat) : State :=
  match (s.core c).holding with
  | some p => match p.wait with
    | .message since _ false =>
      let put := fun (l : List Flying) => l.map (fun f =>
        if f.src = some c then { f with refused := false, seq := s.fab.sent } else f)
      { s with fab := { s.fab with flying := put s.fab.flying, contribs := put s.fab.contribs, sent := s.fab.sent + 1 } }.updCore c (fun k =>
        k.updPush .qx p.num (fun q => { q with wait := .message since s.clk true }))
    | _ => s
  | none => s

end Sys2Proof.Machine
end

