-- ==== Sys2Proof/Machine/Engine.lean ====
section
/-! DEFINITION. Engines: beginning commands (R99, R102, R130), the rows of the engine instructions, and the events of
arrays, chambers, streams, message queues and junctions. -/

namespace Sys2Proof.Machine

/-! ### Beginning and executing a command -/

/-- Executes a push by its opcode. -/
def State.runPush (s : State) (c : Nat) (p : Push) (seen : Seen) : State × Act :=
  let o := Op.ofWords (p.head :: p.ext)
  match p.fault with
  | some f => (s, .fault f)
  | none =>
    if p.chunks.any (s.chunkFault c) then (s, .fault pfStreamState)
    else match o.opc with
      | 0x200 => s.axMma c p o seen
      | 0x201 => s.axDrain c p o seen
      | 0x202 => s.axAccLoad c p o seen
      | 0x203 => s.axAccClear c o
      | 0x300 => s.vxVew c p o seen
      | 0x301 => s.vxVred c p o seen
      | 0x302 => s.vxVcvt c p o seen
      | 0x310 => s.vxRegionClear c o
      | 0x320 => s.vxLcRebuild c p o seen
      | 0x321 => s.vxLcFlip c p
      | 0x400 => s.dxCopy c p seen
      | 0x401 => s.dxIndexed c p true seen
      | 0x402 => s.dxIndexed c p false seen
      | 0x403 => s.dxStreamOpen c p o
      | 0x404 => s.dxStreamClose c o
      | 0x500 => s.qxSend c p o seen
      | 0x501 => s.qxJsend c p o seen
      | _ => s.qxRecv c p o

/-- The extents that a push reads and writes, for the regulators (R514). -/
def State.traffic (s : State) (c : Nat) (p : Push) : List (Nat × Nat × Bool) :=
  let o := Op.ofWords (p.head :: p.ext)
  let d := fun i => p.descs.getD i {}
  let rd := fun (x : Desc) => x.allSegs.map (fun g => (g.1, g.2, false))
  let wr := fun (x : Desc) => x.allSegs.map (fun g => (g.1, g.2, true))
  let tile := fun (x : Desc) (pos : Nat) (w : Bool) =>
    (x.rectSegs (x.rowOf pos) (x.colOf pos) 16 16).map (fun g => (g.1, g.2, w))
  if p.fault.isSome || p.chunks.any (s.chunkFault c) then []
  else match o.opc with
    | 0x200 =>
      let k := ((pairing (d 0).format (if bit o.fl 3 then (d 0).format else (d 1).format)).map (·.2)).getD 8
      ((s.operand c p 0 0).blockSegs p.a k (bit o.fl 0) ++
        (if bit o.fl 3 then [] else (s.operand c p 1 1).blockSegs p.b k (bit o.fl 1))).map (fun g => (g.1, g.2, false)) ++
        (if bit o.fl 5 then tile (d 2) p.c true else [])
    | 0x201 => tile (d 0) p.c true
    | 0x202 => tile (s.operand c p 0 0) p.b false
    | 0x300 => wr (d 0) ++ rd (s.operand c p 1 0) ++
        (if vewArity (bits o.imm 7 0) ≥ 2 && !bit o.fl 0 then rd (s.operand c p 2 2) else []) ++
        (if vewArity (bits o.imm 7 0) ≥ 3 then rd (d 3) else [])
    | 0x301 | 0x302 | 0x400 => wr (d 0) ++ rd (s.operand c p 1 0)
    | 0x401 | 0x402 =>
      let n := if o.opc = 0x401 then (d 0).dim1 else (d 1).dim1
      let m := min 16 (n - 16 * p.group)
      let near := if o.opc = 0x401 then d 0 else s.operand c p 1 0
      let far := if o.opc = 0x401 then s.operand c p 1 0 else d 0
      let ids := s.elems (s.coreOwner c) (s.operand c p 2 2) (16 * p.group) m
      (List.range m).flatMap (fun k =>
        (near.rowSegs (16 * p.group + k)).map (fun g => (g.1, g.2, o.opc == 0x401)) ++
        (if ids.getD k 0 < far.rows then (far.rowSegs (ids.getD k 0)).map (fun g => (g.1, g.2, o.opc == 0x402))
         else []))
    | 0x500 => [((s.operand c p 0 0).base, 32, false)]
    | 0x501 => rd (s.operand c p 0 0)
    | 0x502 => wr (d 0)
    | _ => []

/-- Every bucket that a core's extents are charged against holds tokens (R515). -/
def State.trafficOk (s : State) (c : Nat) (l : List (Nat × Nat × Bool)) : Bool :=
  l.all (fun e => s.extentMayProceed (s.coreOwner c) (coreDie c) e.1 e.2.1 e.2.2)

/-- The buckets that they are charged against. -/
def State.trafficNeeds (s : State) (c : Nat) (l : List (Nat × Nat × Bool)) : List Nat :=
  l.flatMap (fun e => s.extentNeeds (s.coreOwner c) (coreDie c) e.1 e.2.1 e.2.2)

/-- Charges a core's extents (R515, R521). -/
def State.chargeTraffic (s : State) (c : Nat) (l : List (Nat × Nat × Bool)) : State :=
  l.foldl (fun s e => s.chargeExtent (s.coreOwner c) (coreDie c) e.1 e.2.1 e.2.2) s

/-- Bytes of classes ACT and WT that a stage's cores move (R448). -/
def State.countClass (s : State) (c cls n : Nat) : State :=
  { s with pipe := { s.pipe with slots := s.pipe.slots.map (fun e =>
      if e.2.bound && bit e.2.slices (c / 8) then
        (e.1, if cls = 1 then { e.2 with act := sat64 (e.2.act + n) }
              else if cls = 2 then { e.2 with wt := sat64 (e.2.wt + n) } else e.2)
      else e) } }

/-- The class and size of the transfer that a DX command makes (R116): its destination's class, or with
CLASS_FROM_SRC its source's. -/
def State.countDx (s : State) (c : Nat) (p : Push) (l : List (Nat × Nat × Bool)) : State :=
  let o := Op.ofWords (p.head :: p.ext)
  if [0x400, 0x401, 0x402].contains o.opc then
    let x := p.descs.getD (if bit o.fl 0 then 1 else 0) {}
    s.countClass c x.cls ((l.filter (·.2.2)).foldl (fun n e => n + e.2.1) 0)
  else s

/-- Runs a command and acts on what it leads to; the banks that it latched are let go when it ends. -/
def State.carryOut (s : State) (c : Nat) (e : Engine) (p : Push) (seen : Seen) : State :=
  let s := seen.basinCe.foldl (fun s r => if r < 96 then s.updReach r (fun x => { x with basinCe := sat32 (x.basinCe + 1) }) else s) s
  let s := s.updCore c (fun k => { k with
    eccCorrected := sat32 (k.eccCorrected + seen.ce), array := if e = .ax then k.array.tick seen else k.array })
  if e = .vx ∧ seen.check = 2 then s.conclude c e p (.arrayHard false)
  else
    let walked := (s.traffic c p).map (fun e => (e.1, e.2.1))
    let r := s.runPush c p seen
    let s := match r.2 with
      | .hold _ => r.1
      | .arrayHard _ => r.1
      | _ => (r.1.unlatch c p.num).notePairs (s.coreOwner c) walked
    s.conclude c e p r.2

/-- The causes that a freeze mask names: 1 a feeder, 2 the drain, 3 a checksum retry. -/
def freezeCauses (mask : Nat) : List Nat := [1, 2, 3].filter (fun i => bit mask (i - 1))

/-- The array freezes inside a command (R77): the chambers that the command consumes are latched as it starts. -/
def State.freezeArray (s : State) (c : Nat) (p : Push) (seen : Seen) : State :=
  let o := Op.ofWords (p.head :: p.ext)
  let part := s.coreOwner c
  let hs : List Nat := match o.opc with
    | 0x200 => ((s.operand c p 0 0).bookChamber.toList ++
        (if bit o.fl 3 then [] else (s.operand c p 1 1).bookChamber.toList)) ++
        (if bit o.fl 5 then (p.drain o 2).chambers else [])
    | 0x201 => (p.drain o 0).chambers
    | _ => []
  let s := hs.foldl (fun s va => match s.latch part c p.num va with
    | .bank b => s.addLatch part c p.num va b
    | _ => s) s
  s.updCore c (fun k =>
    let k := k.updPush .ax p.num (fun q => { q with wait := .frozen seen })
    { k with array := { k.array with
        state := .frozen, freezes := sat32 (k.array.freezes + 1), causes := freezeCauses seen.freeze, frozenAt := s.clk,
        longDone := false } })

/-- R102, R119: the next command of a queue begins when its core lets commands begin, no earlier push stands in the
way, its chunks are filled and the regulators let its requests go. -/
def State.beginNext (s : State) (c : Nat) (e : Engine) (seen : Seen) : State :=
  let k := s.core c
  match k.nextToBegin e with
  | none => s
  | some p =>
    let l := s.traffic c p
    if k.state != .running || k.halting || k.faulting.isSome || !k.scoreOk p ||
        (e == .ax && k.array.state != .idle) ||
        p.chunks.any (fun u => !s.chunkFault c u && !s.chunkReady c u) then s
    else if !s.trafficOk c l then s.waitFor (.core c e p.num) (s.coreOwner c) (s.trafficNeeds c l)
    else
      let s := (s.chargeTraffic c l).countDx c p l
      if e = .ax ∧ freezeCauses seen.freeze ≠ [] ∧ p.fault = none then s.freezeArray c p seen else s.carryOut c e p seen

/-- COMMAND_BEGIN (R99, R102, R130, R677). -/
def execCommandBegin (core : Nat) (engine : Engine) (seen : Seen) (s : State) : Out :=
  onUnit (decide (core < 1536)) (.next (s.beginNext core engine seen))

/-! ### The rows of the engine instructions -/

/-- An engine instruction: its push (R96 to R98, R151) and, when the engine begins it at once, its execution. -/
def engineOp (core opc : Nat) (now : Option Seen) (s : State) (last : Op → Core → Bool := fun _ _ => true) : Out :=
  onOp core opc s (fun o s =>
    let k := s.core core
    let s' := s.pushOne core o (last o k)
    match now, (s'.core core).nextToBegin o.engine with
    | some seen, some p => if p.num = k.pushCount then s'.beginNext core o.engine seen else s'
    | _, _ => s')

/-- MMA: pushes the instruction; beginning it forms one native block (R59, R74). -/
def execMma (core : Nat) (now : Option Seen) (s : State) : Out := engineOp core 0x200 now s
def execDrain (core : Nat) (now : Option Seen) (s : State) : Out := engineOp core 0x201 now s
def execAccLoad (core : Nat) (now : Option Seen) (s : State) : Out := engineOp core 0x202 now s
def execAccClear (core : Nat) (now : Option Seen) (s : State) : Out := engineOp core 0x203 now s
def execVew (core : Nat) (now : Option Seen) (s : State) : Out := engineOp core 0x300 now s
def execVred (core : Nat) (now : Option Seen) (s : State) : Out := engineOp core 0x301 now s
def execVcvt (core : Nat) (now : Option Seen) (s : State) : Out := engineOp core 0x302 now s
def execRegionClear (core : Nat) (now : Option Seen) (s : State) : Out := engineOp core 0x310 now s
def execLcRebuild (core : Nat) (now : Option Seen) (s : State) : Out := engineOp core 0x320 now s
def execLcFlip (core : Nat) (now : Option Seen) (s : State) : Out := engineOp core 0x321 now s
def execDxCopy (core : Nat) (now : Option Seen) (s : State) : Out := engineOp core 0x400 now s

/-- The push that an indexed command makes is its last: no row is left after its sixteen (R151). -/
def lastGroup (i : Nat) (o : Op) (k : Core) : Bool :=
  match (o.handles.getD i (none, .other)).1 with
  | some h => decide ((k.slot h).dim1 ≤ 16 * (k.group + 1))
  | none => true

def execDxGather (core : Nat) (now : Option Seen) (s : State) : Out := engineOp core 0x401 now s (lastGroup 0)
def execDxScatter (core : Nat) (now : Option Seen) (s : State) : Out := engineOp core 0x402 now s (lastGroup 1)
def execStreamOpen (core : Nat) (now : Option Seen) (s : State) : Out := engineOp core 0x403 now s
def execStreamClose (core : Nat) (now : Option Seen) (s : State) : Out := engineOp core 0x404 now s
def execSend (core : Nat) (now : Option Seen) (s : State) : Out := engineOp core 0x500 now s
def execJsend (core : Nat) (now : Option Seen) (s : State) : Out := engineOp core 0x501 now s
def execRecv (core : Nat) (now : Option Seen) (s : State) : Out := engineOp core 0x502 now s

/-! ### Array events -/

/-- The AX command that a frozen array holds. -/
def Core.frozenPush (k : Core) : Option (Push × Seen) :=
  match k.ax with
  | p :: _ => match p.wait with
    | .frozen seen => some (p, seen)
    | _ => none
  | [] => none

/-- ARRAY_RESUME (R77): the last cause clears, the time frozen is counted by its causes and the stalled handshake
completes. -/
def execArrayResume (core : Nat) (s : State) : Out :=
  onUnit (decide (core < 1536)) (.next (match (s.core core).frozenPush with
    | some (p, seen) =>
      let s := s.updCore core (fun k =>
        let a := k.array
        let t := s.clk - a.frozenAt
        { k with array := { a with
            state := .idle, causes := [], longDone := false,
            freezeFeedNs := if a.causes.contains 1 then sat64 (a.freezeFeedNs + t) else a.freezeFeedNs,
            freezeDrainNs := if a.causes.contains 2 then sat64 (a.freezeDrainNs + t) else a.freezeDrainNs } })
      s.carryOut core .ax p seen
    | none => s))

/-- ARRAY_FREEZE_LONG (R78): one record when a freeze has lasted 1 ms. -/
def execArrayFreezeLong (core : Nat) (s : State) : Out :=
  onUnit (decide (core < 1536)) (.next (
    let k := s.core core
    let a := k.array
    match k.frozenPush with
    | some (p, _) =>
      if a.state == .frozen && decide (a.frozenAt + 1000000 ≤ s.clk) && !a.longDone then
        (s.updCore core (fun k => { k with array := { k.array with
            longDone := true, longFreezes := sat32 (k.array.longFreezes + 1) } })).record
          0x0104 1 (s.coreOwner core) srcCore (s.physCore core) (a.causes.headD 0) p.num 0 core
      else s
    | none => s))

/-- ARRAY_SENTINEL (R87, R608): the record, and firmware's answer, 5 mV more trim up to 40 mV. -/
def execArraySentinel (core : Nat) (s : State) : Out :=
  onUnit (decide (core < 1536)) (.next (
    let n := (s.core core).array.stretches.length
    if n > 16 then
      let d := coreDomain core
      let s := s.updCore core (fun k => { k with array := { k.array with stretches := [] } })
      let s := s.record 0x0105 1 (s.coreOwner core) srcCore (s.physCore core) d n 0 0 [0]
      let t := min 40 ((s.domain d).trim + 5)
      let s := s.updDomain d (fun x => { x with trim := t })
      s.record 0x0E0C 0 0xFF srcPackage 0 d t 1 0
    else s))

/-! ### Chamber events -/

/-- The command of a core that waits in a rebuild, with its engine. -/
def Core.rebuilder (k : Core) : Option (Engine × Push) :=
  let isR := fun (p : Push) => match p.wait with
    | .rebuild _ => true
    | _ => false
  match listFind isR k.vx with
  | some p => some (.vx, p)
  | none => (listFind isR k.dx).map (fun p => (.dx, p))

/-- LC_REBUILD_WRITE (R53): a waiting rebuild goes on when it may. -/
def execLcRebuildWrite (core : Nat) (seen : Seen) (s : State) : Out :=
  onUnit (decide (core < 1536)) (.next (match (s.core core).rebuilder with
    | some (e, p) => s.carryOut core e p seen
    | none => s))

/-- LC_CONSUMER_RESUME (R55): after the flip that it waits for, a stalled consumer latches the ACTIVE bank. -/
def execLcConsumerResume (core : Nat) (seen : Seen) (s : State) : Out :=
  let isC := fun (p : Push) => match p.wait with
    | .chamber va gen => (s.chamber (s.coreOwner core) va).gen != gen
    | _ => false
  let k := s.core core
  onUnit (decide (core < 1536)) (.next (match listFind isC k.ax with
    | some p => s.carryOut core .ax p seen
    | none => match listFind isC k.dx with
      | some p => s.carryOut core .dx p seen
      | none => s))

/-! ### Streams, instruction memory -/

/-- STREAM_FILL (R119, R120): stream `n` as core `core` names it. -/
def execStreamFill (core n : Nat) (ue : List Nat) (s : State) : Out :=
  onUnit (decide (core < 1536 ∧ n < 24)) (.next (
    let st := s.stream core n
    if !st.fillable then s
    else match s.streamBooks core n with
      | (s, none) => s
      | (s, some k) =>
        let size := 64 * st.chunk64
        let va := st.src.base + st.filled * size
        let len := min size (st.src.span.2 + 1 - va)
        let m := bookBytes st.ring.comp
        let l := [(va, len, false), (st.chunkVa st.filled, len, true)] ++
          (s.chunkBooks st k).flatMap (fun e => [(e.1, m, false), (e.2, m, true)])
        if s.trafficOk core l then ((s.chargeTraffic core l).countClass core st.ring.cls len).fillChunk core n k ue
        else s.waitFor (.stream core n st.filled) (s.coreOwner core) (s.trafficNeeds core l)))

/-- IM_BLOCK_RELOAD (R94): the block is read again from the translation cache; nothing else changes. -/
def execImBlockReload (core : Nat) (s : State) : Out := onUnit (decide (core < 1536)) (.next s)

/-! ### Message events -/

/-- A RECV that waits at the head of a core's QX takes a message that has arrived (R197). -/
def State.wakeRecv (s : State) (c : Nat) : State :=
  match (s.core c).qx with
  | p :: _ =>
    let o := Op.ofWords (p.head :: p.ext)
    if p.wait == .other && o.opc == 0x502 then
      match s.recvQueue c (bits o.fl 3 0) with
      | some q =>
        let r := s.recvTake c p q
        r.1.conclude c .qx p r.2
      | none => s
    else s
  | [] => s

/-- MESSAGE_ARRIVE (R195): the message from `src` (none for the package itself) on its way to queue `q` of `core`; one that
is behind another of its source (R178) does not arrive yet. Cores 1536 to 1543 are the keeper cores. -/
def execMessageArrive (src : Option Nat) (core q : Nat) (s : State) : Out :=
  onUnit (decide (core < 1544 ∧ q < 16)) (.next (
    let isF := fun (f : Flying) => f.src == src && f.dst == core && f.queue == q && !f.refused && !s.behind (core / 16) f
    match listFind isF s.fab.flying with
    | none => s
    | some f =>
      let s := match f.node with
        | some n => s.carry n (coreNode core) 2 48
        | none => s
      let st := (s.core core).state
      if (st == .idle || st == .running || st == .halted) && decide ((s.inQueue core q).length < maxQueue) then
        let m := setBits (f.words.headD 0) 11 8 q :: f.words.drop 1
        let s := { s with fab := { s.fab with flying := delFirst isF s.fab.flying } }
        let s := s.setInQueue core q (s.inQueue core q ++ [m])
        let s := match src with
          | some d => s.sendAccepted d f.poison
          | none => s
        s.wakeRecv core
      else
        let s := { s with fab := { s.fab with
          flying := updFirst isF (fun f => { f with refused := true }) s.fab.flying,
          refused := match src with
            | some d => s.fab.refused.upd [] (core * 16 + q) (· ++ [d])
            | none => s.fab.refused } }
        let s := s.updReach (core / 16) (fun r => { r with msgRefused := sat32 (r.msgRefused + 1) })
        match src with
        | some d => s.sendRefused d
        | none => s))

/-- SPACE_NOTICE (R195): a notice on its way to a core makes its holding QX retry. -/
def execSpaceNotice (core : Nat) (s : State) : Out :=
  onUnit (decide (core < 1536)) (.next (
    if s.fab.notices.contains core then
      ({ s with fab := { s.fab with notices := s.fab.notices.erase core } } : State).resend core
    else s))

/-- QX_RETRY_TIMER (R195): 1 µs after a refusal the holding QX retries. -/
def execQxRetryTimer (core : Nat) (s : State) : Out :=
  onUnit (decide (core < 1536)) (.next (match (s.core core).holding with
    | some p => match p.wait with
      | .message _ last false => if last + 1000 ≤ s.clk then s.resend core else s
      | _ => s
    | none => s))

/-- HANDLER_DISPATCH (R200, R201): once the handler before it has ended and its pushes have completed, the oldest message of
the lowest-numbered queue starts its handler, when the core's table of 256 holds one for its TYPE; otherwise it is discarded
and logged. `handler` is the table's entry, firmware's choice. -/
def execHandlerDispatch (core : Nat) (handler : Option Nat) (s : State) : Out :=
  onUnit (decide (core < 1544)) (.next (
    let k := s.core core
    if !k.handlerMode || !k.pushes.isEmpty then s
    else match listFind (fun q => !(s.inQueue core q).isEmpty) (List.range 16) with
      | none => s.updCore core (fun k => { k with handlerBusy := false })
      | some q => match s.inQueue core q with
        | [] => s
        | m :: t =>
          let s := (s.setInQueue core q t).noticeSpace core q
          match handler with
          | some a => s.updCore core (fun k => { k with handlerBusy := true, handlerMsg := m, pc := a })
          | none =>
            let s := s.updCore core (fun k => { k with handlerBusy := false })
            if core < 1536 then s.record 0x0305 1 (s.coreOwner core) srcCore (s.physCore core) (msgType m) q 0 0
            else s.record 0x0305 1 0 srcKeeper (core - 1536) (msgType m) q 0 0))

/-! ### Junction events -/

/-- Space notices to the contributors that a junction has refused. -/
def State.noticeJunction (s : State) (r q : Nat) : State :=
  let k := r * 32 + q
  { s with fab := { s.fab with
      notices := s.fab.notices ++ s.fab.jqRefused.get [] k, jqRefused := s.fab.jqRefused.put [] k [] } }

/-- JUNCTION_ARM (R204). -/
def execJunctionArm (reach jq : Nat) (s : State) : Out :=
  onUnit (decide (reach < 96 ∧ jq < 32)) (.next (
    let j := s.junction reach jq
    if !j.arm then s
    else
      let d := s.jqDesc reach jq
      let s := s.updJunction reach jq (fun j => { j with arm := false })
      if (j.state == 0 || j.state == 3) && s.jqValid reach jq d then
        (s.updJunction reach jq (fun j =>
          { j with state := 1, arrived := 0, poisoned := false, next := 0, staged := [] })).noticeJunction reach jq
      else
        s.record 0x0306 1 (s.sliceOwner (2 * reach + jq / 16)) srcReach reach (32 * reach + jq) d.w0 0 0))

/-- Adds contribution codes to the accumulator, or writes them when `first` (R206, R207). -/
def State.jqAdd (s : State) (part : Nat) (d : JqDesc) (first : Bool) (codes : List Nat) : State :=
  let w := d.width
  let add := fun (a b : Nat) => match d.mode with
    | 0 => ((La.decode a).add (La.decode b)).encode
    | 1 => addF fmtW58 (a % 2 ^ 58) (b % 2 ^ 58)
    | 2 => addF fmtFP32 a b
    | _ => wrap32 (a + b)
  let old := fun i => s.readNat part (d.acc + i * w) w
  let new := (List.range codes.length).map (fun i =>
    let b := codes.getD i 0
    if first then (if d.mode = 0 then (La.decode b).encode else b) else add (old i) b)
  s.writeVA part d.acc (new.flatMap (fun v => toBytes v w))

/-- Adds the staged contributions whose index is next, in turn (R207). -/
def State.jqDrainStaged (s : State) (part r q : Nat) (d : JqDesc) : Nat → State
  | 0 => s
  | n + 1 =>
    let j := s.junction r q
    match listFind (fun e => e.1 == j.next) j.staged with
    | none => s
    | some (i, slot) =>
      let codes := (List.range d.elements).map (fun e =>
        s.readNat part (d.stage + slot * d.bytes + e * d.width) d.width)
      let s := s.jqAdd part d (i == 0) codes
      let s := s.updJunction r q (fun j =>
        { j with next := j.next + 1, staged := j.staged.filter (fun e => e.1 != i) })
      (s.noticeJunction r q).jqDrainStaged part r q d n

/-- R208: the release message, and the junction closes. -/
def State.jqRelease (s : State) (r q : Nat) (d : JqDesc) : State :=
  let j := s.junction r q
  if j.arrived = d.releaseCount then
    let m := firmwareMsg (bits d.rel 23 16) d.bytes d.acc j.round (32 * r + q) d.releaseCount 0 j.poisoned
    let s := s.sendFirmware (bits d.rel 10 0) (bits d.rel 15 12) m (some (reachNode r))
    let s := s.updReach r (fun x => { x with jqReleases := sat32 (x.jqReleases + 1) })
    s.updJunction r q (fun j => { j with state := 3, round := wrap32 (j.round + 1) })
  else s

/-- Takes a contribution off its way. -/
def State.dropContrib (s : State) (c r q : Nat) : State :=
  { s with fab := { s.fab with
      contribs := delFirst (fun f => f.src == some c && f.dst == r && f.queue == q) s.fab.contribs } }

/-- The contribution is in: the sender goes on and the junction may release. -/
def State.jqAccepted (s : State) (c r q : Nat) (d : JqDesc) (poison : Bool) : State :=
  let s := s.updJunction r q (fun j => { j with arrived := j.arrived + 1, poisoned := j.poisoned || poison })
  ((s.dropContrib c r q).sendAccepted c poison).jqRelease r q d

/-- The junction refuses a contribution; QX holds it (R205). -/
def State.jqRefuse (s : State) (c r q : Nat) : State :=
  let s := { s with fab := { s.fab with
    contribs := updFirst (fun f => f.src == some c && f.dst == r && f.queue == q) (fun f => { f with refused := true })
      s.fab.contribs,
    jqRefused := s.fab.jqRefused.upd [] (r * 32 + q) (· ++ [c]) } }
  (s.updReach r (fun x => { x with msgRefused := sat32 (x.msgRefused + 1) })).sendRefused c

/-- A JSEND that its junction faults (R205, R207). -/
def State.jqFault (s : State) (c r q cause : Nat) : State :=
  let s := (s.dropContrib c r q).countStall c
  match (s.core c).holding with
  | some p => s.programFault c .qx p cause
  | none => s

/-- The LA128 words, of a contribution or of the accumulator, that a junction of MODE 0 reads with a reserved class (R34). -/
def State.jqReserved (s : State) (src part mode : Nat) (words : List Nat) : State :=
  if mode ≠ 0 then s
  else words.foldl (fun s v =>
    if laReserved v then
      s.record 0x0107 1 part srcCore (s.physCore src) (bits v 127 96) (((s.core src).holding.map (·.num)).getD 0) 0 src
    else s) s

/-- A contribution of an ORDERED junction that is not the next one waits in a free staging slot (R207). -/
def State.jqStage (s : State) (src reach jq part i : Nat) (d : JqDesc) (f : Flying) : State :=
  let j := s.junction reach jq
  match listFind (fun slot => !j.staged.any (fun e => e.2 == slot)) (List.range d.stageSlots) with
  | none => s.jqRefuse src reach jq
  | some slot =>
    let s := s.writeVA part (d.stage + slot * d.bytes) (f.words.flatMap (fun v => toBytes v d.width))
    let s := s.updJunction reach jq (fun j => { j with staged := j.staged ++ [(i, slot)] })
    s.jqAccepted src reach jq d f.poison

/-- A well-formed contribution at a junction that is OPEN (R205 to R209). -/
def State.jqTake (s : State) (src reach jq part : Nat) (d : JqDesc) (f : Flying) : State :=
  let j := s.junction reach jq
  if !d.ordered then
    let s := if j.arrived == 0 then s
      else s.jqReserved src part d.mode ((List.range d.elements).map (fun i => s.readNat part (d.acc + i * d.width) d.width))
    (s.jqAdd part d (j.arrived == 0) f.words).jqAccepted src reach jq d f.poison
  else
    let i := src - d.firstCore
    if src < d.firstCore ∨ i ≥ d.releaseCount ∨ i < j.next ∨ j.staged.any (fun e => e.1 == i) then
      s.jqFault src reach jq pfJqOrder
    else if i = j.next then
      let s := s.jqAdd part d (i == 0) f.words
      let s := s.updJunction reach jq (fun j => { j with next := j.next + 1 })
      (s.jqDrainStaged part reach jq d j.staged.length).jqAccepted src reach jq d f.poison
    else s.jqStage src reach jq part i d f

/-- A contribution `f` arrives at its junction (R205 to R209). -/
def State.jqArrive (s : State) (src reach jq : Nat) (f : Flying) : State :=
  let j := s.junction reach jq
  let d := s.jqDesc reach jq
  let part := s.sliceOwner (2 * reach + jq / 16)
  if j.state = 0 then s.jqFault src reach jq pfJqState
  else if j.state ≠ 1 then s.jqRefuse src reach jq
  else if f.fmt ≠ d.fmt ∨ f.words.length ≠ d.elements then s.jqFault src reach jq pfJqMismatch
  else (s.jqReserved src part d.mode f.words).jqTake src reach jq part d f

/-- JUNCTION_CONTRIBUTION (R205 to R209): the contribution of core `src` on its way to junction `jq` of a reach. -/
def execJunctionContribution (src reach jq : Nat) (s : State) : Out :=
  onUnit (decide (src < 1536 ∧ reach < 96 ∧ jq < 32)) (.next (
    match listFind (fun f => f.src == some src && f.dst == reach && f.queue == jq && !f.refused && !s.behind reach f)
        s.fab.contribs with
    | none => s
    | some f => (s.carry (f.node.getD 0) (reachNode reach) 2 (16 + f.words.length * elemBits f.fmt / 8)).jqArrive src reach jq f))

end Sys2Proof.Machine
end

