-- ==== Sys2Proof/Machine/Spare.lean ====
section
/-! DEFINITION. Spare cores (R132 to R135, R569, R570): moving a core's work to the reach spare. -/

namespace Sys2Proof.Machine

/-- PKG_FW of the running image, per image (Table 1.15). -/
def State.fwWord (s : State) : Nat :=
  (if s.pkg.bootSlot then s.nor.slotB else s.nor.slotA).fw.getD (Config.partWord (if s.pkg.bootSlot then 2 else 1) % 2 ^ 32)

/-- The physical indices of reach `r` that logical cores name. -/
def State.indicesUsed (s : State) (r : Nat) : List Nat :=
  ((List.range 16).filter (fun j => s.mapped (16 * r + j))).map (fun j => s.physIndex (16 * r + j))

/-- The free spare of reach `r` (R132): an index that no logical core names and that is not retired, on a die in service. -/
def State.freeSpare (s : State) (r : Nat) : Option Nat :=
  if !bit s.pkg.cdOk (r / 16) then none
  else listFind (fun i => !(s.indicesUsed r).contains i && !s.cpu.retired.get false (17 * r + i)) (List.range 17)

/-- A change of the capability and unit registers (R24). -/
def State.bumpCapGen (s : State) : State := { s with pkg := { s.pkg with capGen := wrap32 (s.pkg.capGen + 1) } }

/-- A unit's bit in a PKG_UNITS register at `off` has been cleared (R24): UNIT_RETIRED. -/
def State.unitGone (s : State) (off bit : Nat) : State :=
  let s := { s with pkg := { s.pkg with unitRetired := true } }.bumpCapGen
  s.record 0x0407 2 0xFF srcPackage 0 off bit s.pkg.capGen 0 [0]

/-- Memory unit `u` (MEM page number) is retired. -/
def State.retireMem (s : State) (u : Nat) : State :=
  if u < 12 then
    ({ s with pkg := { s.pkg with hsOk := setBit s.pkg.hsOk u false } } : State).unitGone 0x30 (16 + u)
  else ({ s with pkg := { s.pkg with bcOk := setBit s.pkg.bcOk (u - 12) false } } : State).unitGone 0x34 (u + 4)

/-- Canal port `p` is retired. -/
def State.retirePortBit (s : State) (p : Nat) : State :=
  ({ s with pkg := { s.pkg with cpOk := setBit s.pkg.cpOk p false } } : State).unitGone 0x38 p

/-- Die `d` is retired. -/
def State.retireDieBit (s : State) (d : Nat) : State :=
  let k := s.pkg
  let s := if d < 6 then { s with pkg := { k with cdOk := setBit k.cdOk d false } }
    else { s with pkg := { k with hdOk := setBit k.hdOk (d - 6) false } }
  s.unitGone 0x30 d

/-- The recovery whose fault record names source (`kind`, `index`). -/
def State.recoveryOf (s : State) (kind index : Nat) : Option Nat :=
  (listFind (fun r => match s.log.ring.get none r.head with
    | some x => x.srcKind == kind && x.srcIndex == index
    | none => false) s.log.recoveries).map (·.head)

/-- The regions of core `c` whose extents meet `n` bytes at `lo` are marked poisoned (R569). -/
def State.markRegions (s : State) (c lo n : Nat) : State :=
  s.updCore c (fun k => { k with poison := k.slots.foldl (fun m e =>
    let d := e.2
    if d.regionEn && decide (d.span.1 < lo + n) && decide (lo ≤ d.span.2) then setBit m d.region true else m) k.poison })

/-- The 4 KiB granules that hold the uncorrectable words with keys from `lo` on, below `hi`. -/
def State.lostWordGranules (s : State) (lo hi : Nat) : List Nat :=
  (((s.mem.poolUe.map (·.1)).filter (fun k => decide (lo ≤ k ∧ k < hi))).map (fun k => (k - lo) * 8 / 4096)).eraseDups

/-- A pool that holds uncorrectable words is moved without them (R569): their granules read as poison and the
regions that overlap them are marked. -/
def State.poisonLostWords (s : State) (c : Nat) : State :=
  (s.lostWordGranules (poolWord c 0) (poolWord (c + 1) 0)).foldl (fun s g =>
    (s.writePlace (.pool c (g * 4096)) (poisonBytes (g * 4096) 4096) false).markRegions c
      (0xFF0000000000 + c * 0x80000 + g * 4096) 4096) s

/-- Uncorrectable words of the basin of reach `r` (R569): their granules, short of the junction descriptors, read as
poison, and the regions that overlap them are marked in the cores of that half. -/
def State.poisonLostBasin (s : State) (r : Nat) : State :=
  (s.lostWordGranules (basinWord r 0) (basinWord (r + 1) 0)).foldl (fun s g =>
    let off := g * 4096
    let n := if off % 0x400000 = 0x3FF000 then 0xC00 else 4096
    let s := s.writePlace (.basin r off) (poisonBytes off n) false
    (List.range 8).foldl (fun s i =>
      s.markRegions (16 * r + 8 * (off / 0x400000) + i) (0xFF8000000000 + r * 0x800000 + off) n) s) s

/-- The fault that makes a core leave service: the cause of Table 4.10 that CORE_MOVED reports. A POOL_UE moves the core
while an uncorrectable word is in its pool (`lost`). -/
def Core.moveCause (k : Core) (c : Nat) (lost : Bool) : Option Nat :=
  let isB := fun (p : Push) => match p.wait with
    | .broken _ => true
    | _ => false
  if k.moveWhy.isSome then k.moveWhy
  else if k.ax.any isB then some pfArrayHard
  else if k.vx.any isB then some (Config.laneFaultCause c)
  else if lost && k.faulting.any (fun r => r.cause == pfPoolUe) then some pfPoolUe else none

/-- The commands that the fault stopped go on (R134): a FINAL MMA whose commit stands repeats only its drain, every
other command begins again. -/
def State.resumeBroken (s : State) (c : Nat) : State :=
  let s := s.updCore c (fun k =>
    let un := fun (q : Push) => match q.wait with
      | .broken false => { q with wait := .queued }
      | _ => q
    { k with array := { k.array with state := .idle }, ax := k.ax.map un, vx := k.vx.map un, dx := k.dx.map un,
             qx := k.qx.map un })
  match (s.core c).ax with
  | p :: _ => match p.wait with
    | .broken true =>
      let o := Op.ofWords (p.head :: p.ext)
      let part := s.coreOwner c
      let bank := match s.latch part c p.num (p.drain o 2).ch.base with
        | .bank b => if bit (p.drain o 2).ncw 18 then some b else none
        | _ => none
      let r := s.mmaDrain c part p o bank 0 ⟨[], 0, [], 0, 0, 0, 0, [], []⟩
      (r.1.unlatch c p.num).conclude c .ax p r.2
    | _ => s
  | [] => s

/-- Table 4.12 for core `c` with physical spare index `i`. -/
def State.moveTo (s : State) (c i cause : Nat) : State :=
  let old := s.physCore c
  let part := s.coreOwner c
  let s := s.poisonLostWords c
  let s := { s with cpu := { s.cpu with
    remap := s.cpu.remap.put none c (some i), retired := s.cpu.retired.put false old true },
                     pkg := { s.pkg with unitRetired := true } }
  let s := s.bumpCapGen
  let s := s.record 0x0204 1 part srcCore old old (s.physCore c) cause c [0]
  match s.recoveryOf srcCore old with
  | some h => s.endRecovery h
  | none => s

/-- The work that a lost pool or basin word touched (R569): a stage restarts, a model replays its step. -/
def State.workLost (s : State) (c code : Nat) : State :=
  match (s.core c).holder with
  | .stage n => s.updStage n (fun g => { g with restart := some code })
  | .model n => s.updModel n (fun m => { m with replay := true })
  | _ => s

/-- Reach `r` has fewer cores than before (R570): firmware will restart each stage and model on it, or replace the stage. -/
def State.reachLost (s : State) (r : Nat) : State :=
  let here := fun (m : Nat) => bit m (2 * r) || bit m (2 * r + 1)
  let s := (s.pipe.slots.filter (fun e => e.2.bound && !e.2.spare && here e.2.slices)).foldl (fun s e =>
    s.updStage e.1 (fun g => { g with restart := some 0x0205 })) s
  (s.serv.models.filter (fun e => e.2.bound && here e.2.slices)).foldl (fun s e =>
    s.updModel e.1 (fun m => { m with replay := true })) s

/-- A reach with no free spare loses core `c` (R135, R570). -/
def State.loseCore (s : State) (c cause : Nat) : State :=
  let old := s.physCore c
  let part := s.coreOwner c
  let r := c / 16
  let s := s.updCore c (fun k =>
    let f : FaultRec := ⟨0, 0, 0, stProgramFault, k.pushCount, 0, cause, 0xFF, 0, k.pc⟩
    let k := { k with state := if k.state = .moving then k.movedFrom else k.state, moveWhy := none }
    if k.state == .running then { k with faulting := some (k.faulting.getD f), ax := [], vx := [], dx := [], qx := [] }
    else k)
  let s := s.settle c
  let s := { s with cpu := { s.cpu with
    unmapped := s.cpu.unmapped.put false c true, retired := s.cpu.retired.put false old true },
                     pkg := { s.pkg with unitRetired := true } }
  let s := s.bumpCapGen
  let s := s.record 0x0205 2 part srcReach r old (s.indicesUsed r).length 0 0 (ownerAnd part)
  let s := s.reachLost r
  match s.recoveryOf srcCore old with
  | some h => s.endRecovery h
  | none => s

/-- A core has begun commands that end by themselves: a frozen array's, or a message on its way. -/
def Core.unsettled (k : Core) : Bool :=
  k.pushes.any (fun p => match p.wait with
    | .frozen _ | .message _ _ true => true
    | _ => false)

/-- The move of core `c` to spare `i`, and what resumes it (R133, R134, R567, R569). -/
def State.moveCore (s : State) (c i cause : Nat) (shadowOk : Bool) : State :=
  let ue := (s.core c).faulting.any (fun r => r.cause == pfPoolUe)
  let s := (s.moveTo c i cause).updCore c (fun k =>
    { k with state := if k.state = .moving then k.movedFrom else k.state, moveWhy := none })
  let s := if ue then s.workLost c 0x0203 else s
  if shadowOk || cause != pfArrayHard then s.resumeBroken c
  else
    ((s.workLost c 0x0103).updCore c (fun k =>
      let f : FaultRec := ⟨0, 0, 0, stProgramFault, k.pushCount, 0, pfArrayHard, 0xFF, 0, k.pc⟩
      { k with faulting := some (k.faulting.getD f), array := { k.array with state := .idle },
               ax := k.ax.filter (fun p => p.wait == .queued) })).settle c

/-- CORE_MOVE (R133 to R135): a core with a hard fault, or a slow one (`slow`), leaves service. It reads MOVING while
commands that it has begun complete; the CORE_MOVE that finds none moves it. `shadowOk` says that the array's shadow tiles
pass their parity check (R567); when they do not, a stage restart reruns the tile, and a core of no stage ends FAULTED. A
slow core stays where it is when its reach has no spare. An uncorrectable basin word costs the granule but moves no
core (R569). -/
def execCoreMove (core : Nat) (slow shadowOk : Bool) (s : State) : Out :=
  onUnit (decide (core < 1536)) (.next (
    let k : Core := s.core core
    let lost := !(s.lostWordGranules (poolWord core 0) (poolWord (core + 1) 0)).isEmpty
    let basin := k.faulting.any (fun r => r.cause == pfPoolUe) &&
      !(s.lostWordGranules (basinWord (core / 16) 0) (basinWord (core / 16 + 1) 0)).isEmpty
    let why : Option Nat := match k.moveCause core lost with
      | some c => some c
      | none => if slow && (k.state == .running || k.state == .idle || k.state == .halted) then some 0 else none
    match why with
    | none =>
      if !basin then s
      else
        let s := (s.poisonLostBasin (core / 16)).workLost core 0x0203
        match s.recoveryOf srcCore (s.physCore core) with
        | some h => s.endRecovery h
        | none => s
    | some cause =>
      if !s.mapped core then s
      else match s.freeSpare (core / 16), decide (cause = 0) with
        | none, true => s
        | none, false => s.loseCore core cause
        | some i, _ =>
          if k.unsettled then
            s.updCore core (fun k => { k with
              state := .moving, moveWhy := some cause, movedFrom := if k.state = .moving then k.movedFrom else k.state })
          else s.moveCore core i cause shadowOk))

end Sys2Proof.Machine
end

