-- ==== Sys2Proof/Machine/Loader.lean ====
section
/-! DEFINITION. The loader (R38, R147 to R159): reading and checking an image, assigning scoreboard regions, the
translation cache, LOAD_IMAGE. -/

namespace Sys2Proof.Machine

/-! ### Instructions as the loader checks them (R141 to R146) -/

/-- The form that an opcode's head word takes (Tables 5.2, 5.3): extension words, the register fields that it uses,
and the bits of FL and IMM that it uses. -/
structure OpForm where
  ext : Nat
  a : Bool
  b : Bool
  c : Bool
  fl : Nat
  imm : Nat
  deriving DecidableEq, Repr

/-- The form of an instruction; none for a reserved opcode (R142). -/
def Op.form (o : Op) : Option OpForm :=
  let all := 0xFFFFFF
  match o.opc with
  | 0x001 | 0x002 => some ⟨0, true, true, true, 0, all⟩
  | 0x003 | 0x004 | 0x005 | 0x006 => some ⟨0, true, true, true, 0, 0⟩
  | 0x007 | 0x008 | 0x009 => some ⟨0, true, true, true, 0, all⟩
  | 0x00A => some ⟨0, true, false, false, 0, all⟩
  | 0x00B => some ⟨0, true, true, false, 3, all⟩
  | 0x00C | 0x00D | 0x010 | 0x011 | 0x012 => some ⟨0, true, true, true, 0, 0⟩
  | 0x020 => some ⟨0, true, true, false, 63, all⟩
  | 0x021 => some ⟨0, false, true, true, 63, all⟩
  | 0x030 => some ⟨0, true, false, false, 0, all⟩
  | 0x100 => some ⟨0, false, true, true, 7, all⟩
  | 0x110 => some ⟨0, false, false, false, 0, 0⟩
  | 0x111 => some ⟨0, false, false, false, 63, 0⟩
  | 0x1FF => some ⟨0, false, false, false, 0, 0⟩
  | 0x200 => some ⟨if bit o.fl 5 then 3 else 1, true, true, true, 63, 0⟩
  | 0x201 => some ⟨3, false, false, true, 1, 0⟩
  | 0x202 => some ⟨1, false, true, false, 0, 0⟩
  | 0x203 => some ⟨0, false, false, false, 0, 7⟩
  | 0x300 => some ⟨1, false, false, bit o.fl 0, 1, 0xFF⟩
  | 0x301 => some ⟨1, false, false, false, 0, 3⟩
  | 0x302 => some ⟨2, false, false, false, 0, 0⟩
  | 0x310 => some ⟨0, false, false, false, 63, 0⟩
  | 0x320 => some ⟨1, false, false, false, 7, 0⟩
  | 0x321 => some ⟨0, false, false, false, 0, 0xFFF⟩
  | 0x400 | 0x401 | 0x402 => some ⟨1, false, false, false, 1, 0⟩
  | 0x403 => some ⟨1, false, false, false, 63, 0⟩
  | 0x404 => some ⟨0, false, false, false, 63, 0⟩
  | 0x4F0 => some ⟨0, true, false, false, 63, 7⟩
  | 0x500 => some ⟨1, bit o.fl 0, false, false, 1, 0⟩
  | 0x501 => some ⟨1, false, false, false, 0, 0⟩
  | 0x502 => some ⟨1, false, false, false, 15, 0⟩
  | 0x600 => some ⟨0, false, true, false, 63, 0xFFF⟩
  | 0x601 => some ⟨0, false, true, false, 0, 0xFFF⟩
  | 0x602 => some ⟨0, false, true, false, 0, 0x3FFF⟩
  | _ => none

/-- An operation of Table 5.4. -/
def vewListed (op : Nat) : Bool := decide (1 ≤ op ∧ op ≤ 7) || decide (0x10 ≤ op ∧ op ≤ 0x16)

/-- A reserved or unused field of the head word is nonzero (R141). -/
def Op.headReserved (o : Op) (f : OpForm) : Bool :=
  bit o.head 12 || (!f.a && o.a != 0) || (!f.b && o.b != 0) || (!f.c && o.c != 0) ||
  (o.fl &&& f.fl) != o.fl || (o.imm &&& f.imm) != o.imm ||
  (o.opc == 0x00B && (o.fl == 3 || (o.fl == 2 && bits o.imm 23 16 != 0))) ||
  (o.opc == 0x100 && o.fl == 7) || (o.opc == 0x300 && !vewListed o.imm) || (o.opc == 0x4F0 && bits o.imm 2 1 == 3)

/-- The NCW of an instruction. -/
def Op.ncw (o : Op) : Option Nat :=
  match o.opc with
  | 0x200 | 0x201 => some (bits (o.e 0) 31 0)
  | 0x302 => some (bits (o.e 1) 31 0)
  | _ => none

/-- An NCW holds a reserved value or combination (R38, Table 2.8). -/
def ncwReserved (n : Nat) : Bool :=
  bits n 31 20 != 0 || bits n 14 13 != 0 || bits n 9 8 != 0 || bits n 11 10 == 3 ||
  (bits n 11 10 == 1) != bit n 19 || (bits n 11 10 == 1 && bits n 7 4 == 9) || decide (bits n 3 0 > 11) || decide (bits n 7 4 > 11) ||
  (bit n 12 && (bits n 7 4 != 10 || bits n 19 13 != 0)) || (!bit n 12 && bits n 7 4 == 10)

/-- A drain word 0 holds a handle that the NCW leaves unused (R143). -/
def drainUnused (n w : Nat) : Bool :=
  (!bit n 16 && bits w 23 12 != 0) || (!bit n 17 && bits w 35 24 != 0) || (!bit n 18 && bits w 47 36 != 0)

/-- A reserved or unused field of the extension words is nonzero (R143, Table 5.5). -/
def Op.extReserved (o : Op) : Bool :=
  let e := o.e
  let n := o.ncw.getD 0
  let drain := drainUnused n (e 1) || bits (e 2) 63 12 != 0 || (!bit n 19 && bits (e 2) 11 0 != 0)
  match o.opc with
  | 0x200 => bits (e 0) 63 59 != 0 || (bit o.fl 3 && bits (e 0) 55 44 != 0) || (bit o.fl 5 && drain)
  | 0x201 => bits (e 0) 63 35 != 0 || drain
  | 0x202 => bits (e 0) 63 16 != 0
  | 0x300 =>
    let k := vewArity o.imm
    bits (e 0) 63 48 != 0 || ((k < 2 || bit o.fl 0) && bits (e 0) 35 24 != 0) || (k < 3 && bits (e 0) 47 36 != 0)
  | 0x301 | 0x400 | 0x320 => bits (e 0) 63 24 != 0
  | 0x302 => bits (e 0) 63 48 != 0 || bits (e 1) 63 32 != 0 || (!bit n 19 && bits (e 0) 47 36 != 0)
  | 0x401 | 0x402 => bits (e 0) 63 36 != 0
  | 0x403 =>
    bits (e 0) 63 45 != 0 || decide (bits (e 0) 34 24 < 4) || decide (bits (e 0) 34 24 > 1024) || bits (e 0) 40 35 == 0
  | 0x500 => bits (e 0) 63 32 != 0 || bits (e 0) 15 12 != 0 || bit (e 0) 27
  | 0x501 => bits (e 0) 63 24 != 0 || decide (bits (e 0) 18 12 > 95)
  | 0x502 => bits (e 0) 63 12 != 0
  | _ => false

/-- A VCVT NCW has neither form of R114. -/
def vcvtNcwBad (n : Nat) : Bool :=
  let a := bits n 3 0
  let out := bits n 7 4
  let narrow := (a == 6 || a == 7 || a == 8) && decide (out ≤ 5) && !bit n 12 && !bit n 18 && !bit n 17 && !bit n 16
  let comp := a == out && [0, 1, 5, 6, 7].contains a && n == a + 16 * a
  !(narrow || comp)

/-- The static handle fields of an instruction. -/
def Op.staticHandles (o : Op) : List Nat :=
  o.handles.filterMap (·.1) ++ o.rngHandle.toList ++
    (if [0x600, 0x601, 0x602].contains o.opc then [bits o.imm 11 0] else [])

/-- The cause of Table 5.8 that one instruction shows by itself. -/
def Op.check (o : Op) : Option Nat :=
  match o.form with
  | none => some 0x05
  | some f =>
    if o.headReserved f then some 0x06
    else if o.len ≠ 1 + f.ext then some 0x07
    else if o.ext.length ≠ f.ext then some 0x05
    else if o.extReserved || o.ncw.any ncwReserved then some 0x06
    else if o.opc == 0x302 && o.ncw.any vcvtNcwBad then some 0x09
    else if o.staticHandles.any (fun h => decide (h ≥ 0x100)) then some 0x0B
    else none

/-- The instructions of CODE with their word indices, or the first fault found: cause and word index. -/
def decodeCode : Nat → Nat → List Nat → List (Nat × Op) → Except (Nat × Nat) (List (Nat × Op))
  | 0, _, _, acc => .ok acc.reverse
  | fuel + 1, pc, ws, acc =>
    if ws.isEmpty then .ok acc.reverse
    else
      let o := Op.ofWords ws
      match o.check with
      | some c => .error (c, pc)
      | none => decodeCode fuel (pc + o.len) (ws.drop o.len) ((pc, o) :: acc)

/-! ### Branches and prefixes -/

/-- The target of a BR. -/
def Op.target (o : Op) (pc : Nat) : Int := (pc : Int) + o.simm

/-- An engine instruction that reads or writes memory (R146). DESIGN CHOICE: one that reads or writes tensor data when it
executes; LC_FLIP, REGION_CLEAR, ACC_CLEAR, STREAM_OPEN and STREAM_CLOSE do not. -/
def Op.memEngine (o : Op) : Bool :=
  [0x200, 0x201, 0x202, 0x300, 0x301, 0x302, 0x320, 0x400, 0x401, 0x402, 0x500, 0x501, 0x502].contains o.opc

/-- A CHUNK prefix is misplaced: what follows the prefixes `run`, given the rest of the program (R146). DESIGN CHOICE: one
that selects an operand which the instruction does not have (operand B of a COPY) is accepted and has no effect on what
is read; the spec does not name the case. -/
def chunkBad (run : List Op) : List (Nat × Op) → Bool
  | [] => true
  | (_, o) :: t =>
    if o.opc = 0x4F0 then (if run.length ≥ 2 then true else chunkBad (o :: run) t)
    else !o.memEngine || (run.length == 2 && (run.map (fun r => bits r.imm 2 1)).eraseDups.length != 2)

/-- The first cause BRANCH in program order. -/
def branchFault (heads : List Nat) : Bool → List (Nat × Op) → Option Nat
  | _, [] => none
  | prev, (pc, o) :: t =>
    if o.opc = 0x100 then
      if decide (0 ≤ o.target pc) && heads.contains (o.target pc).toNat then branchFault heads false t else some pc
    else if o.opc = 0x4F0 then
      if (!prev && chunkBad [o] t) || (bits o.imm 2 1 == 1 && decide (o.fl ≥ 8)) then some pc
      else branchFault heads true t
    else branchFault heads false t

/-! ### Regions (R153) -/

/-- Two descriptors' byte extents overlap. -/
def Desc.overlaps (a b : Desc) : Bool := decide (a.span.1 ≤ b.span.2) && decide (b.span.1 ≤ a.span.2)

/-- Group labels: slots joined by overlapping extents carry one label. -/
def regionGroups (ds : List (Nat × Desc)) : List (Nat × Nat × Desc) :=
  ds.foldl (fun acc e =>
    let hit := (acc.filter (fun a => a.2.2.overlaps e.2)).map (·.1)
    let label := hit.foldl min e.1
    acc.map (fun a => if hit.contains a.1 then (label, a.2) else a) ++ [(label, e.1, e.2)]) []

/-- Assigns regions; none when two enabled regions would have to be one (cause REGION). -/
def assignRegions (ds : List (Nat × Desc)) : Option (List (Nat × Desc)) :=
  let g := regionGroups ds
  let labels := (g.map (·.1)).eraseDups
  let fixedOf := fun l => ((g.filter (fun a => a.1 == l && a.2.2.regionEn)).map (·.2.2.region)).eraseDups
  if labels.any (fun l => decide ((fixedOf l).length > 1)) then none
  else
    let used := labels.flatMap fixedOf
    let free := (List.range 64).filter (fun r => !used.contains r)
    let open_ := labels.filter (fun l => (fixedOf l).isEmpty)
    let regionOf := fun l => match fixedOf l with
      | r :: _ => r
      | [] =>
        let i := open_.findIdx (· == l)
        free.getD i (i % 64)
    some (g.map (fun a => (a.2.1, if a.2.2.regionEn then a.2.2
      else { a.2.2 with regionEn := true, region := regionOf a.1 })))

/-! ### Paths (R154) -/

/-- What holds on some path to an instruction: per tile the possible types (bit 0 NONE, 1 LA128, 2 W58), the possible
formats of the held block (bit 16: none is held, bit 17: unknown), and the slots that SET_DESC may have rewritten. -/
structure Paths where
  tiles : List Nat
  held : Nat
  reset : Nat
  deriving DecidableEq, Repr

def Paths.join (a b : Paths) : Paths :=
  ⟨(a.tiles.zip b.tiles).map (fun e => e.1 ||| e.2), a.held ||| b.held, a.reset ||| b.reset⟩

/-- At ENTRY every tile is NONE and no block is held. -/
def Paths.entry : Paths := ⟨List.replicate 8 1, 2 ^ 16, 0⟩

/-- The FORMAT of slot `h` on every path, if known. A slot that DESC does not fill is not usable: unknown. -/
def Paths.fmt (a : Paths) (ds : List (Nat × Desc)) (h : Nat) : Option Nat :=
  if bit a.reset h then none else (listFind (fun e => e.1 == h) ds).map (·.2.format)

/-- The accumulator type bit of a type. -/
def typeBit : TileType → Nat
  | .none => 1 | .la128 => 2 | .w58 => 4

/-- The accumulator type that an IN_A accumulates in (Table 2.3). -/
def accBit (fa : Nat) : Nat := if fa = 6 ∨ fa = 7 then 4 else 2

/-- Operand B's formats that are possible for an MMA: those of its descriptor, or of the held block. -/
def Paths.fmtB (a : Paths) (ds : List (Nat × Desc)) (o : Op) : Option (List Nat) :=
  if bit o.fl 3 then (if bit a.held 17 || bit a.held 16 then none else some (bitsSet a.held 16))
  else (a.fmt ds (bits (o.e 0) 55 44)).map (fun f => [f])

/-- The instruction's PAIRING or TILE_TYPE violation on every path (R62, R114, R154). -/
def Paths.violation (a : Paths) (ds : List (Nat × Desc)) (o : Op) : Option Nat :=
  let n := o.ncw.getD 0
  let differs := fun (h fc : Nat) => match a.fmt ds h with
    | some f => f != fc
    | none => false
  match o.opc with
  | 0x200 =>
    let fa := bits n 3 0
    let t := a.tiles.getD (bits (o.e 0) 58 56) 1
    let noPair := match a.fmtB ds o with
      | some fs => fs.all (fun fb => (pairing fa fb).isNone)
      | none => (List.range 12).all (fun fb => (pairing fa fb).isNone)
    if differs (bits (o.e 0) 43 32) fa || noPair || (bit o.fl 5 && differs (bits (o.e 1) 11 0) (bits n 7 4)) then
      some 0x09
    else if (!bit o.fl 4 && (t &&& accBit fa) == 0) || (bit o.fl 5 && bit n 12 && accBit fa == 4) then some 0x0A
    else none
  | 0x201 =>
    let t := a.tiles.getD (bits (o.e 0) 34 32) 1
    if differs (bits (o.e 1) 11 0) (bits n 7 4) then some 0x09
    else if t == 1 || (bit n 12 && (t &&& 2) == 0) then some 0x0A
    else none
  | 0x302 => if differs (bits (o.e 0) 23 12) (bits n 3 0) || differs (bits (o.e 0) 11 0) (bits n 7 4) then some 0x09
             else none
  | _ => none

/-- What holds after an instruction. -/
def Paths.step (a : Paths) (ds : List (Nat × Desc)) (o : Op) : Paths :=
  let setTile := fun (i v : Nat) => a.tiles.set i v
  match o.opc with
  | 0x200 =>
    let fa := bits (o.ncw.getD 0) 3 0
    let held := if bit o.fl 3 then a.held
      else if bit o.fl 2 then (match a.fmt ds (bits (o.e 0) 55 44) with
        | some f => 2 ^ f
        | none => 2 ^ 17)
      else 2 ^ 16
    { a with tiles := setTile (bits (o.e 0) 58 56) (accBit fa), held := held }
  | 0x201 => if bit o.fl 0 then { a with tiles := setTile (bits (o.e 0) 34 32) 1 } else a
  | 0x202 => { a with tiles := setTile (bits (o.e 0) 14 12) (if bit (o.e 0) 15 then 4 else 2) }
  | 0x203 => { a with tiles := setTile (bits o.imm 2 0) 1 }
  | 0x600 => { a with reset := a.reset ||| 2 ^ bits o.imm 11 0 }
  | _ => a

/-- Where control goes after an instruction. -/
def Op.succs (o : Op) (pc : Nat) : List Nat :=
  if o.opc = 0x1FF then []
  else if o.opc = 0x100 then
    (o.target pc).toNat :: (if o.fl = 0 then [] else [pc + 1])
  else [pc + o.len]

/-- One pass over the program: what each instruction passes on joins what its successors hold. -/
def pathsPass (ds : List (Nat × Desc)) (prog : List (Nat × Op)) (m : Tab (Option Paths)) : Tab (Option Paths) :=
  prog.foldl (fun m e => match m.get none e.1 with
    | none => m
    | some a => (e.2.succs e.1).foldl (fun m t => m.upd none t (fun b => match b with
      | none => some (a.step ds e.2)
      | some b => some (b.join (a.step ds e.2)))) m) m

/-- Passes until nothing changes. -/
def pathsFix (ds : List (Nat × Desc)) (prog : List (Nat × Op)) : Nat → Tab (Option Paths) → Tab (Option Paths)
  | 0, m => m
  | fuel + 1, m =>
    let m' := pathsPass ds prog m
    if m' = m then m else pathsFix ds prog fuel m'

/-- The first instruction that violates R154 on every path from ENTRY. -/
def pathFault (ds : List (Nat × Desc)) (prog : List (Nat × Op)) (entry : Nat) : Option (Nat × Nat) :=
  let m := pathsFix ds prog (300 * (prog.length + 1)) [(entry, some Paths.entry)]
  prog.findSome? (fun e => (m.get none e.1).bind (fun a => (a.violation ds e.2).map (fun c => (c, e.1))))

/-! ### The image (R147 to R149) -/

/-- A section entry (Table 5.7). -/
structure Section where
  w0 : Nat
  off : Nat
  bytes : Nat
  dest : Nat
  deriving DecidableEq, Repr

def Section.kind (x : Section) : Nat := bits x.w0 23 16

/-- The word of an image at a byte offset. -/
def imgWord (b : List Byte) (off : Nat) : Nat := ofBytes ((b.drop off).take 4)

/-- The section table. -/
def imgSections (b : List Byte) : List Section :=
  (List.range (bits (imgWord b 4) 15 8)).map (fun i =>
    let o := 64 + 16 * i
    ⟨imgWord b o, imgWord b (o + 4), imgWord b (o + 8), imgWord b (o + 12)⟩)

/-- The bytes of a section. -/
def Section.data (x : Section) (b : List Byte) : List Byte := (b.drop x.off).take x.bytes

/-- The descriptors' words of a DESC section. -/
def Section.descs (x : Section) (b : List Byte) : List (List Nat) :=
  (chunksOf 64 (x.bytes / 64) (x.data b)).map bytesToWords

/-- Every LEVEL that R149 names is 1. -/
def imgLevelOk (b : List Byte) : Bool :=
  bits (imgWord b 4) 3 0 == 1 && (imgSections b).all (fun x => bits x.w0 3 0 == 1) &&
    (imgSections b).all (fun x => x.kind != 2 || (x.descs b).all (fun ws => bits (ws.headD 0) 3 0 == 1))

/-- Two byte ranges overlap. DESIGN CHOICE: an empty range that begins strictly inside another overlaps it. -/
def rangesMeet (a n b m : Nat) : Bool := decide (a < b + m) && decide (b < a + n)

/-- Some pair of ranges (start, length) of a list shares a byte. -/
def anyMeet : List (Nat × Nat) → Bool
  | [] => false
  | e :: t => t.any (fun f => rangesMeet e.1 e.2 f.1 f.2) || anyMeet t

/-- DIGEST's bytes, and the digest of the image with the field zero (Table 5.6). -/
def imgDigest (b : List Byte) : List Byte := (b.drop 0x20).take 32
def imgDigestOk (b : List Byte) : Bool :=
  imgDigest b == sha256 (b.take 0x20 ++ List.replicate 32 0 ++ b.drop 0x40)

/-- A limit of Table 5.9 is exceeded. -/
def imgTooBig (b : List Byte) (xs : List Section) : Bool :=
  decide (b.length > 2 ^ 20) || xs.any (fun x => x.kind == 1 && decide (x.bytes > 262144)) ||
    xs.any (fun x => x.kind == 2 && decide (x.dest + x.bytes / 64 > 256)) ||
    xs.any (fun x => x.kind == 3 && decide (x.dest + x.bytes > 524288))

/-- Sections violate R147 or R148, or a KIND is reserved. -/
def imgSectionBad (b : List Byte) (xs : List Section) : Bool :=
  let n := bits (imgWord b 4) 15 8
  n == 0 || decide (n > 16) || decide (64 + 16 * n > b.length) ||
  xs.any (fun x => !(x.kind == 1 || x.kind == 2 || x.kind == 3 || x.kind == 0x7F) || x.off % 64 != 0 ||
    decide (x.off + x.bytes > b.length) || (x.kind == 1 && x.bytes % 8 != 0) || (x.kind == 2 && x.bytes % 64 != 0) ||
    (x.kind == 3 && x.dest % 64 != 0)) ||
  (xs.filter (fun x => x.kind == 1)).length != 1 || decide ((xs.filter (fun x => x.kind == 2)).length > 1) ||
  anyMeet ((0, 64 + 16 * n) :: xs.map (fun x => (x.off, x.bytes))) ||
  anyMeet ((xs.filter (fun x => x.kind == 3)).map (fun x => (x.dest, x.bytes)))

/-- A reserved field of the header or of a section entry is nonzero. -/
def imgReserved (b : List Byte) (xs : List Section) : Bool :=
  bits (imgWord b 4) 31 16 != 0 || bits (imgWord b 4) 7 4 != 0 || ofBytes ((b.drop 0x10).take 16) != 0 ||
  xs.any (fun x => bits x.w0 31 24 != 0 || bits x.w0 15 4 != 0 || ((x.kind == 1 || x.kind == 0x7F) && x.dest != 0))

/-- A refusal of the loader: `none` is LEVEL_UNSUPPORTED, else the cause of Table 5.8 and the word index. -/
abbrev LoadRefusal := Option (Nat × Nat)

/-- A refusal that is tied to no instruction. -/
def noWord (cause : Nat) : LoadRefusal := some (cause, 0xFFFFFFFF)

/-- Checks the header and DIGEST: what comes before any other field. -/
def checkHeader (b : List Byte) (cmdBytes : Nat) : Option LoadRefusal :=
  if !imgLevelOk b then some none
  else if imgWord b 0 ≠ 0x48544541 then some (noWord 0x01)
  else if imgWord b 8 ≠ cmdBytes ∨ b.length ≠ cmdBytes ∨ cmdBytes % 64 ≠ 0 ∨ b.length < 64 ∨
      imgTooBig b (imgSections b) then some (noWord 0x02)
  else if !imgDigestOk b then some (noWord 0x03)
  else none

/-- Translates an image (R150, R154). The order among causes is the model's. -/
def translateImage (b : List Byte) : Except LoadRefusal Image :=
  let xs := imgSections b
  if imgSectionBad b xs then .error (noWord 0x04)
  else if imgReserved b xs then .error (noWord 0x06)
  else
    let codeB := ((xs.filter (fun x => x.kind == 1)).flatMap (fun x => x.data b))
    let code := (chunksOf 8 (codeB.length / 8) codeB).map ofBytes
    match decodeCode (code.length + 1) 0 code [] with
    | .error e => .error (some e)
    | .ok prog =>
      let heads := prog.map (·.1)
      let entry := imgWord b 12
      if !heads.contains entry then .error (noWord 0x08)
      else match branchFault heads false prog with
        | some pc => .error (some (0x08, pc))
        | none =>
          let raw := (xs.filter (fun x => x.kind == 2)).flatMap (fun x =>
            ((List.range (x.bytes / 64)).map (· + x.dest)).zip (x.descs b))
          let ds := raw.map (fun e => (e.1, Desc.ofWords e.2))
          if raw.any (fun e => ((Desc.ofWords e.2).check (descReserved e.2)).isSome) then .error (noWord 0x0B)
          else match assignRegions ds with
            | none => .error (noWord 0x0C)
            | some ds =>
              match pathFault ds prog entry with
              | some e => .error (some e)
              | none =>
                let digest := ofBytes (imgDigest b)
                if Config.translationBytes digest > 65536 then .error (noWord 0x0D)
                else .ok { code := code, entry := entry, digest := digest, descs := ds,
                           consts := (xs.filter (fun x => x.kind == 3)).map (fun x => (x.dest, x.data b)) }

/-! ### The translation cache (R156) -/

/-- A cache entry made by the running loader, whose version is that of its firmware image. -/
def State.cacheEntry (s : State) (part : Nat) (im : Image) : CacheEntry :=
  let d := im.digest
  ⟨part, d, s.pkg.runLevel, Config.loaderVersion s.fwWord, im, Config.translationCrc d,
    (List.range (ceilDiv (Config.translationBytes d) 4096)).map (Config.blockCrc d)⟩

/-- A cache entry has the key of an image: partition, DIGEST, level and loader version. -/
def State.cacheKey (s : State) (part digest : Nat) (e : CacheEntry) : Bool :=
  e.part == part && e.digest == digest && e.level == s.pkg.runLevel && e.loader == Config.loaderVersion s.fwWord

/-- The cached translation of an image. -/
def State.cached (s : State) (part digest : Nat) : Option Image :=
  (listFind (s.cacheKey part digest) s.cpu.cache).map (·.image)

/-- Puts a translation first in the cache; the partition's 65th entry, least recently loaded, leaves. DESIGN CHOICE: an
entry counts as loaded whenever a LOAD_IMAGE takes it, under VERIFY_ONLY and when the command is then refused too. -/
def State.cachePut (s : State) (part : Nat) (im : Image) : State :=
  let old := s.cpu.cache.filter (fun e => !s.cacheKey part im.digest e)
  let mine := (old.filter (fun e => e.part == part)).take 63
  { s with cpu := { s.cpu with
      cache := s.cacheEntry part im :: old.filter (fun e => e.part != part || mine.contains e) } }

/-! ### LOAD_IMAGE -/

/-- The mapped cores that SLICE_MASK and CORE_MASK select (R157, R570). -/
def State.coresOf (s : State) (slices coreMask : Nat) : List Nat :=
  ((bitsSet slices 192).flatMap (fun k => (bitsSet coreMask 8).map (fun c => 8 * k + c))).filter s.mapped

/-- Every slice of a mask belongs to a partition. -/
def State.ownsSlices (s : State) (part slices : Nat) : Bool := andNot slices (s.part part).slices == 0

/-- Loads one core (R158 steps 1 to 4). Its array counters stay (R91), and so do its breakpoints, which neither R136
nor R648 clears at a load. -/
def State.loadCore (s : State) (c : Nat) (im : Image) : State :=
  let k := s.core c
  let s := s.zeroCores (fun d => d == c)
  let s := s.setCore c { image := some im, handlerMode := false, slots := im.descs.foldl (fun t e => t.put {} e.1 e.2) [],
                         array := k.array.counters, bps := k.bps }
  im.consts.foldl (fun s e => s.writePlace (.pool c e.1) e.2 false) s

/-- A second CRC mismatch of core `c`'s instruction memory (R93): the record, and the move to the spare. -/
def State.imLoadFail (s : State) (c found : Nat) (im : Image) : State :=
  let s := s.record 0x0202 2 (s.coreOwner c) srcCore (s.physCore c) (Config.translationCrc im.digest) found 0 c [0]
  let s := s.beginRecovery 2 (s.coreOwner c)
  match s.freeSpare (c / 16) with
  | some i => s.moveTo c i (Config.imLoadCause c)
  | none => s.loseCore c (Config.imLoadCause c)

/-- The resources that reading an extent needs (Table 15.7b): its tiers, and the fabric from a compute die. -/
def State.extentRes (s : State) (part die va n : Nat) : List Nat :=
  ((extent va n).flatMap (fun p => match s.translate part p.1 false with
    | .tier d | .fresh d => tierOf d :: (if unitDie (s.mem.unitOf d) = die then [] else [2])
    | .pool _ _ | .basin _ _ => [2]
    | _ => [])).eraseDups

/-- The hub die that serves a path. -/
def State.pathDie (s : State) : Path → Nat
  | .ring r => 6 + (s.ring r).hostPort
  | _ => 6

/-- The refusals of LOAD_IMAGE and RUN (R159). -/
def State.refuseProgram (s : State) (f : Flight) (cause word : Nat) : State :=
  s.commit f.id stProgramRefused [cause, word]

/-- What LOAD_IMAGE reads: its image, or nothing when it cannot be read. -/
def State.imageBytes (s : State) (f : Flight) (host : Option (List Byte)) (ue : List Nat) : Option (List Byte) :=
  let part := s.actsFor f
  let addr := f.pk.d 0x10
  let n := min (f.pk.w 0x18) (2 ^ 20)
  if f.pk.b 0x1C 0 then host.map (·.take n)
  else if (s.extentFault part addr n false).isSome || s.extentPoison ue part addr n then none
  else some (s.readVA part addr n)

/-- Charges the one read of the image (R158, R514). -/
def State.chargeImage (s : State) (f : Flight) : State :=
  let n := min (f.pk.w 0x18) (2 ^ 20)
  if f.pk.b 0x1C 0 then s.charge (s.actsFor f) 3 n
  else s.chargeExtent (s.actsFor f) (s.pathDie f.path) (f.pk.d 0x10) n false

/-- LOAD_IMAGE once its image has been read and translated. -/
def State.loadCores (s : State) (f : Flight) (im : Image) (hit : Bool) (imFail : List (Nat × Nat)) : State :=
  let targets := if f.pk.b 0x1C 2 then [] else s.coresOf (f.pk.mask192 0x20) (f.pk.f 0x38 7 0)
  let busy := fun c =>
    let k := s.core c
    k.state == .running || k.state == .moving || k.holder != .none
  if targets.any busy then s.refuseProgram f 0x0E 0xFFFFFFFF
  else
    let s := targets.foldl (fun s c => match listFind (fun e => e.1 == c) imFail with
      | some e =>
        let s := s.imLoadFail c e.2 im
        if s.mapped c then s.loadCore c im else s
      | none => s.loadCore c im) s
    s.commit f.id stDone [b2n hit * 256, (targets.filter s.mapped).length,
      wrap32 (Config.translationBytes im.digest), lo32 im.digest]

/-- LOAD_IMAGE (R157 to R159) once it begins. -/
def State.loadImage (s : State) (f : Flight) (host : Option (List Byte)) (ue : List Nat) (imFail : List (Nat × Nat)) :
    State :=
  let part := s.actsFor f
  if !s.ownsSlices part (f.pk.mask192 0x20) then s.failWith f stNotOwner
  else
    let s := s.chargeImage f
    match s.imageBytes f host ue with
    | none => s.refuseProgram f 0x11 0xFFFFFFFF
    | some b =>
      let refuse := fun (r : LoadRefusal) => match r with
        | none => s.failWith f stLevelUnsupported
        | some (c, w) => s.refuseProgram f c w
      match checkHeader b (f.pk.w 0x18) with
      | some r => refuse r
      | none =>
        match (if f.pk.b 0x1C 1 then none else s.cached part (ofBytes (imgDigest b))) with
        | some im => (s.cachePut part im).loadCores f im true imFail
        | none => match translateImage b with
          | .error r => refuse r
          | .ok im => (s.cachePut part im).loadCores f im false imFail

/-- The domains of the cores that LOAD_IMAGE or RUN names (R600), when they are the partition's. -/
def coreDoms (path : Path) (pk : Packet) (s : State) : List Nat :=
  if s.ownsSlices (s.pathPart path) (pk.mask192 0x20) then
    ((s.coresOf (pk.mask192 0x20) (pk.f 0x38 7 0)).map coreDomain).eraseDups
  else []

/-- LOAD_IMAGE (R157, R158). `host` is what a host read of the image returns (none: an error status, poison or no
answer), `ue` the lines found uncorrectable, `imFail` the cores whose second CRC check fails, with the CRC found. -/
def execLoadImage (path : Path) (pk : Packet) (host : Option (List Byte)) (ue : List Nat) (imFail : List (Nat × Nat))
    (s : State) : Out :=
  beginOn path pk (ofOp 0x301)
    { doms := coreDoms path pk,
      res := fun s => if pk.b 0x1C 0 then [3]
        else s.extentRes (s.pathPart path) (s.pathDie path) (pk.d 0x10) (min (pk.w 0x18) (2 ^ 20)) } s
    (fun f s => s.loadImage f host ue imFail)

end Sys2Proof.Machine
end

