-- ==== Sys2Proof/Machine/Run.lean ====
section
/-! DEFINITION. RUN (R140, R160 to R166): starting, resuming and timing out cores. -/

namespace Sys2Proof.Machine

/-- Core `c` as a start leaves it (R98, R103, R131, R140): the pool, the slots and the array counters stay. -/
def Core.start (k : Core) (c rank n arg stopAfter truncate : Nat) (h : Holder) : Core :=
  let w := BitVec.ofNat 64
  let none64 : Tab Word64 := []
  { k.clearHits with
    state := .running, pc := (k.image.map (·.entry)).getD 0,
    regs := (((none64.put 0 1 (w arg)).put 0 2 (w c)).put 0 3 (w rank)).put 0 4 (w n),
    ax := [], vx := [], dx := [], qx := [], pushCount := 0, lastPc := none, poison := 0, flags := 0, faults := [],
    faultCount := 0, faultLost := 0, eccCorrected := 0, qxStallNs := 0, prefixes := [], group := 0, holder := h,
    stopAfter := stopAfter, truncate := truncate, truncated := false, ended := false, halting := false, forced := false,
    haltWhy := 0, stopping := false, stepping := false, dbgHalt := false, stepLeft := 0, stepFirst := false,
    setLog2 := 0, policy := 0, faulting := none }

/-- Core `c` as a RUN with RESUME leaves it (R161, R162): everything carries on; at or past STOP_AFTER it stays
HALTED. -/
def Core.resume (k : Core) (stopAfter truncate : Nat) (h : Holder) : Core :=
  if stopAfter ≠ 0 ∧ k.pushCount ≥ stopAfter then { k with holder := h, stopAfter := stopAfter, truncate := truncate }
  else
    { k.clearHits with
      state := .running, holder := h, stopAfter := stopAfter, truncate := truncate, halting := false, forced := false,
      haltWhy := 0, stopping := false, stepping := false, dbgHalt := false }

/-- A start forgets what the core's earlier run left behind: its streams, its latched banks, and messages that its
QX held. -/
def State.dropLeftovers (s : State) (c : Nat) : State :=
  let s := s.closeStreams c
  { s with
    cpu := { s.cpu with latches := s.cpu.latches.filter (fun l => l.core != c) },
    fab := { s.fab with
      flying := s.fab.flying.filter (fun f => !(f.src == some c && f.refused)),
      contribs := s.fab.contribs.filter (fun f => !(f.src == some c && f.refused)),
      requests := s.fab.requests.filter (fun e => e.1 != c) } }

/-- Starts core `c` of a run at ENTRY. -/
def State.startCore (s : State) (c rank n arg stopAfter truncate : Nat) (h : Holder) : State :=
  let s := (s.dropLeftovers c).updCore c (fun k => k.start c rank n arg stopAfter truncate h)
  s.goto c (s.core c).pc

/-- Continues core `c` of a run. A core that stands at TRUNCATE acts as though it had executed END. -/
def State.resumeCore (s : State) (c stopAfter truncate : Nat) (h : Holder) : State :=
  let s := s.updCore c (fun k => k.resume stopAfter truncate h)
  let k := s.core c
  if k.state == .running && k.group == 0 then s.goto c k.pc else s

/-- The cause that RUN is refused with, every named core checked first (R161). DESIGN CHOICE: of several causes the first of
CORE_BUSY, NO_IMAGE, NOT_HALTED. -/
def State.runCause (s : State) (cores : List Nat) (resume : Bool) : Option Nat :=
  let ks := cores.map s.core
  if ks.any (fun k => k.state == .running || k.state == .moving || k.holder != .none) then some 0x0E
  else if ks.any (fun k => k.image.isNone) then some 0x0F
  else if resume && ks.any (fun k => k.state != .halted) then some 0x10
  else none

/-- The part of RUN that is common to starting and resuming: checks, the RUN's own record, and its end when every
core has already ended. `go` starts or resumes one core, given its rank and the number of cores. -/
def State.runCmd (s : State) (f : Flight) (resume : Bool) (go : State → Nat → Nat → Nat → State) : State :=
  let part := s.actsFor f
  let pk := f.pk
  let cores := (s.coresOf (pk.mask192 0x20) (pk.f 0x38 7 0))
  if !s.ownsSlices part (pk.mask192 0x20) then s.failWith f stNotOwner
  else match s.runCause cores resume with
    | some c => s.refuseProgram f c 0xFFFFFFFF
    | none =>
      let us := pk.w 0x18
      let r : RunCmd := ⟨f.id, part, cores, if us = 0 then none else some (s.clk + 1000 * us), false⟩
      let s := ((List.range cores.length).zip cores).foldl (fun s e => go s e.2 e.1 cores.length) s
      ({ s with cpu := { s.cpu with runs := s.cpu.runs ++ [r] } } : State).finishRun r

/-- A RUN packet with RESUME 0 or 1. -/
def runKind (resume : Bool) (pk : Packet) : Bool := pk.opcode == 0x302 && pk.b 0x1C 0 == resume

/-- RUN (R160, R161): starts the named cores at ENTRY. -/
def execRun (path : Path) (pk : Packet) (s : State) : Out :=
  beginOn path pk (runKind false) { doms := coreDoms path pk } s (fun f s =>
    s.runCmd f false (fun s c rank n =>
      s.startCore c rank n (pk.w 0x3C) (pk.w 0x10) (pk.w 0x14) (.run f.id)))

/-- RUN with RESUME (R161, R162): continues HALTED cores. ARG must be zero (Table 5.11): otherwise FIELD_RESERVED. -/
def execRunResume (path : Path) (pk : Packet) (s : State) : Out :=
  beginOn path pk (runKind true) { doms := coreDoms path pk } s (fun f s =>
    if pk.w 0x3C ≠ 0 then s.failWith f stFieldReserved
    else s.runCmd f true (fun s c _ _ => s.resumeCore c (pk.w 0x10) (pk.w 0x14) (.run f.id)))

/-- Halts the cores of a run that are still RUNNING (R164, R166). -/
def State.haltRun (s : State) (r : RunCmd) : State :=
  s.haltCores r.part r.cores

/-- RUN_TIMEOUT (R164): TIMEOUT_US of the RUN with command number `cmd` has elapsed. -/
def execRunTimeout (cmd : Nat) (s : State) : Out :=
  .next (match listFind (fun r => r.cmd == cmd) s.cpu.runs with
    | some r =>
      match r.deadline with
      | some t =>
        if t ≤ s.clk ∧ r.timedOut = false ∧ s.held r.part = false then
          let s := { s with cpu := { s.cpu with
            runs := updFirst (fun q => q.cmd == cmd) (fun q => { q with timedOut := true }) s.cpu.runs } }
          s.haltRun r
        else s
      | none => s
    | none => s)

end Sys2Proof.Machine
end

