-- ==== Sys2Proof/Machine/HostDma.lean ====
section
/-! DEFINITION. Host COPY, GATHER and SCATTER on the hub-die DMA engines, and the completions of their host reads
(R125, R126). -/

namespace Sys2Proof.Machine

/-! ### Parameters (Table 4.7) -/

def hdCopy (pk : Packet) : Bool := pk.opcode == 0x201
def hdGather (pk : Packet) : Bool := pk.opcode == 0x202
def hdSrcHost (pk : Packet) : Bool := pk.b 0x28 0
def hdDstHost (pk : Packet) : Bool := pk.b 0x28 1
def hdTableHost (pk : Packet) : Bool := pk.b 0x28 2
/-- ELEM_BYTES and COUNT; a COPY is one element of LENGTH bytes. -/
def hdBytes (pk : Packet) : Nat := if hdCopy pk then pk.d 0x20 else pk.f 0x20 23 0
def hdCount (pk : Packet) : Nat := if hdCopy pk then 1 else pk.f 0x24 4 0
/-- The contiguous end: DST_ADDR of COPY and GATHER, SRC_ADDR of SCATTER. -/
def hdNear (pk : Packet) : Nat := pk.d 0x18

/-- A value of Table 4.7 is out of range, or CLASS is the reserved code. -/
def hdRange (pk : Packet) : Bool :=
  (if hdCopy pk then pk.d 0x20 == 0 || decide (pk.d 0x20 > 2 ^ 40)
   else pk.f 0x20 23 0 == 0 || hdCount pk == 0 || decide (hdCount pk > 16)) || pk.f 0x28 6 4 == 7

/-- Writes bytes to host memory through a PCIe port. -/
def State.hostWrite (s : State) (port addr : Nat) (bs : List Byte) : State :=
  { s with cmd := { s.cmd with hostMem := s.cmd.hostMem.putAll 0 (port * 2 ^ 64 + addr) bs } }

/-- The PCIe port of a path (R125). -/
def State.pathPort (s : State) (p : Path) : Nat := s.pathDie p - 6

/-! ### What has arrived from the host -/

def HostJob.of (j : HostJob) (elem : Nat) : List HostPart := j.parts.filter (fun p => p.elem == elem)
def HostJob.got (j : HostJob) (elem : Nat) : Nat := ((j.of elem).map (·.len)).foldl (· + ·) 0
/-- The bytes that have arrived for an element. -/
def HostJob.bytes (j : HostJob) (elem off n : Nat) : List Byte :=
  let t : Tab Byte := (j.of elem).foldl (fun t p => Tab.putAll 0 t p.off p.data) []
  t.getAll 0 off n
/-- The causes that byte range (off, n) of an element has met. -/
def HostJob.causes (j : HostJob) (elem off n : Nat) : List Nat :=
  ((j.of elem).filter (fun p => p.cause != 0 && rangesMeet p.off p.len off n)).map (·.cause)
/-- Table entry `k` has arrived. -/
def HostJob.entryIn (j : HostJob) (k : Nat) : Bool :=
  (j.of 16).any (fun p => decide (p.off ≤ 8 * k) && decide (8 * k + 8 ≤ p.off + p.len))

/-- What the command reads from the host: element (16 the table) and length. A gather does not read an element whose
table entry has failed. -/
def hostNeeds (pk : Packet) (j : HostJob) : List (Nat × Nat) :=
  let table := if !hdCopy pk && hdTableHost pk then [(16, 8 * hdCount pk)] else []
  let els := if hdSrcHost pk then (List.range (hdCount pk)).filterMap (fun k =>
      if hdGather pk && hdTableHost pk && !(j.causes 16 (8 * k) 8).isEmpty then none else some (k, hdBytes pk))
    else []
  table ++ els

/-- Everything that the command reads from the host has arrived. -/
def HostJob.full (j : HostJob) (pk : Packet) : Bool := (hostNeeds pk j).all (fun e => j.got e.1 == e.2)

/-- A completion fits the job: it serves a read that is outstanding. -/
def HostJob.fits (j : HostJob) (pk : Packet) (p : HostPart) : Bool :=
  (hostNeeds pk j).any (fun e => e.1 == p.elem && decide (p.off + p.len ≤ e.2)) && decide (0 < p.len) &&
  (j.of p.elem).all (fun q => !rangesMeet q.off q.len p.off p.len) &&
  (p.elem != 16 || (p.off % 8 == 0 && p.len % 8 == 0)) &&
  (p.elem == 16 || !hdGather pk || !hdTableHost pk || j.entryIn p.elem) &&
  (if p.cause = 0 then p.data.length == p.len else p.cause == cSourceUe || p.cause == cSourcePoison)

/-! ### Moving the data -/

/-- The causes that a device-side read meets, uncorrectable pool and basin words included. -/
def State.hdCauses (s : State) (ue : List Nat) (part va n : Nat) : List Nat :=
  s.readCauses ue part va n ++ (if (s.extentUe ue part va n).isSome then [cSourceUe] else [])

/-- The device-side source of a COPY in pieces of a line, poison where the line faults. -/
def State.hdPieces (s : State) (ue : List Nat) (part va n : Nat) : List Piece :=
  (extent va n).map (fun p =>
    if (s.hdCauses ue part p.1 p.2).isEmpty then (p.2, some (s.readVA part p.1 p.2)) else (p.2, none))

/-- Table entry `k`: its address, or the causes that its read met. -/
def State.hdEntry (s : State) (part : Nat) (pk : Packet) (j : HostJob) (ue : List Nat) (k : Nat) : Nat × List Nat :=
  if hdTableHost pk then (ofBytes (j.bytes 16 (8 * k) 8), j.causes 16 (8 * k) 8)
  else
    let va := pk.d 0x10 + 8 * k
    (s.readNat part va 8, s.hdCauses ue part va 8)

/-- The pieces that are written at `dst` for the host-read element `elem`: poison over each destination line that a
failed read serves (R126). -/
def HostJob.pieces (j : HostJob) (elem dst n : Nat) : List Piece :=
  (extent dst n).map (fun p =>
    if (j.causes elem (p.1 - dst) p.2).isEmpty then (p.2, some (j.bytes elem (p.1 - dst) p.2)) else (p.2, none))

/-- Writes pieces at the destination end: host memory or the partition's. -/
def State.hdPut (s : State) (part port : Nat) (host : Bool) (dst : Nat) (ps : List Piece) : State :=
  if host then
    (ps.foldl (fun (a : State × Nat) q =>
      (a.1.hostWrite port a.2 (q.2.getD (poisonBytes a.2 q.1)), a.2 + q.1)) (s, dst)).1
  else s.putPieces part dst ps

/-- COPY's data movement: the status of Table 16.10 and result word 0. -/
def State.hdCopyMove (s : State) (part port : Nat) (pk : Packet) (j : HostJob) (ue : List Nat) : State × Nat × Nat :=
  let n := hdBytes pk
  let dst := hdNear pk
  let src := pk.d 0x10
  let ps := if hdSrcHost pk then j.pieces 0 dst n else s.hdPieces ue part src n
  let s := (s.hdPut part port (hdDstHost pk) dst ps)
  let s := if hdSrcHost pk then s else s.noteUes ue part src n
  (s, if ps.any (fun q => q.2.isNone) then stPartialFault else stDone, 0xFF)

/-- One element of a GATHER or SCATTER: its cause, if it faults. -/
def State.hdElem (s : State) (part port : Nat) (pk : Packet) (j : HostJob) (ue : List Nat) (k : Nat) :
    State × Option Nat :=
  let n := hdBytes pk
  let (addr, tc) := s.hdEntry part pk j ue k
  let near := hdNear pk + k * n
  let (src, dst) := if hdGather pk then (addr, near) else (near, addr)
  let sc := if hdGather pk && !tc.isEmpty then tc
    else if hdSrcHost pk then j.causes k 0 n else s.hdCauses ue part src n
  let noDst := !hdGather pk && !tc.isEmpty
  let dc := if noDst then tc else if hdDstHost pk then [] else s.writeCauses part dst n
  let bytes := if hdSrcHost pk then j.bytes k 0 n else s.readVA part src n
  let s := if hdSrcHost pk || (hdGather pk && !tc.isEmpty) then s else s.noteUes ue part src n
  let s := if !dc.isEmpty then s
    else s.hdPut part port (hdDstHost pk) dst [(n, if sc.isEmpty then some bytes else none)]
  (s, (sc ++ dc).min?)

/-- GATHER's and SCATTER's data movement, elements in ascending order (R122, R123). -/
def State.hdElemsMove (s : State) (part port : Nat) (pk : Packet) (j : HostJob) (ue : List Nat) : State × Nat × Nat :=
  let (s, causes) := (List.range (hdCount pk)).foldl (fun (a : State × List (Option Nat)) k =>
    let (s, c) := a.1.hdElem part port pk j ue k
    (s, a.2 ++ [c])) (s, [])
  let (mask, cause, first) := elemResult causes
  (s, if mask = 0 then stDone else stPartialFault, mask * 65536 + cause * 256 + first)

/-- Charges what a host command moves (R514). -/
def State.hdCharge (s : State) (part die : Nat) (pk : Packet) : State :=
  let total := hdBytes pk * hdCount pk
  let s := if hdSrcHost pk then s.charge part 3 total
    else if hdCopy pk then s.chargeExtent part die (pk.d 0x10) total false
    else if hdGather pk then s else s.chargeExtent part die (hdNear pk) total false
  let s := if hdDstHost pk then s.charge part 3 total
    else if hdCopy pk || hdGather pk then s.chargeExtent part die (hdNear pk) total true else s
  if hdCopy pk then s
  else if hdTableHost pk then s.charge part 3 (8 * hdCount pk)
  else s.chargeExtent part die (pk.d 0x10) (8 * hdCount pk) false

/-- Moves the data of a host command whose host reads have all arrived, and completes it. -/
def State.hdFinish (s : State) (f : Flight) (j : HostJob) (ue : List Nat) : State :=
  let part := s.actsFor f
  let port := s.pathPort f.path
  let s := s.hdCharge part (s.pathDie f.path) f.pk
  let s := { s with cpu := { s.cpu with hostJobs := s.cpu.hostJobs.filter (fun q => q.cmd != f.id) } }
  let walked := if hdCopy f.pk then (if hdSrcHost f.pk then [] else [(f.pk.d 0x10, hdBytes f.pk)])
    else if (if hdGather f.pk then hdSrcHost f.pk else hdDstHost f.pk) then []
    else (List.range (hdCount f.pk)).map (fun k => ((s.hdEntry part f.pk j ue k).1, hdBytes f.pk))
  let (s, st, w) := if hdCopy f.pk then s.hdCopyMove part port f.pk j ue else s.hdElemsMove part port f.pk j ue
  (s.notePairs part walked).commit f.id st [w]

/-- The device-side ends that R126 checks before any data moves: address, length, whether it is written. -/
def hdChecked (pk : Packet) : List (Nat × Nat × Bool) :=
  let total := hdBytes pk * hdCount pk
  (if hdCopy pk || hdGather pk then (if hdDstHost pk then [] else [(hdNear pk, total, true)])
   else if hdSrcHost pk then [] else [(hdNear pk, total, false)]) ++
  (if hdCopy pk || hdTableHost pk then [] else [(pk.d 0x10, 8 * hdCount pk, false)])

/-- The status that a failed check completes the command with (R126). -/
def State.hdRefusal (s : State) (part : Nat) (pk : Packet) : Option Nat :=
  let cs := (hdChecked pk).flatMap (fun e => if e.2.2 then s.writeCauses part e.1 e.2.1
    else (extent e.1 e.2.1).filterMap (fun p => match s.translate part p.1 false with
      | .fail c => some c
      | _ => none))
  if cs.any (· != cReadOnly) then some stNotOwner else if cs.isEmpty then none else some stReadOnly

/-- Some page of the command's device-side ends lies in a tier that is in TEST (R241). -/
def State.hdAsleep (s : State) (part : Nat) (pk : Packet) : Bool :=
  ((hdChecked pk).map (fun e => (e.1, e.2.1)) ++ (if hdCopy pk && !hdSrcHost pk then [(pk.d 0x10, hdBytes pk)] else [])).any (fun e =>
    s.extentAsleep part e.1 e.2)

/-- A host command once it begins. -/
def State.hdBegin (s : State) (f : Flight) (ue : List Nat) : State :=
  if hdRange f.pk then s.failWith f stFieldReserved
  else if s.hdAsleep (s.actsFor f) f.pk then s.failWith f stDomainAsleep
  else match s.hdRefusal (s.actsFor f) f.pk with
    | some st => (s.notePairs (s.actsFor f) ((hdChecked f.pk).map (fun e => (e.1, e.2.1)))).failWith f st
    | none =>
      let j : HostJob := ⟨f.id, []⟩
      if j.full f.pk then s.hdFinish f j ue
      else { s with cpu := { s.cpu with hostJobs := s.cpu.hostJobs ++ [j] } }

/-- The resources that a host command needs (Table 15.7b): the host, and the tiers of its contiguous device ends. -/
def hdRes (path : Path) (pk : Packet) (s : State) : List Nat :=
  (if hdSrcHost pk || hdDstHost pk || (!hdCopy pk && hdTableHost pk) then [3] else []) ++
    (if hdRange pk then [] else (hdChecked pk).flatMap (fun e => s.extentRes (s.pathPart path) (s.pathDie path) e.1 e.2.1) ++
      (if hdCopy pk && !hdSrcHost pk then s.extentRes (s.pathPart path) (s.pathDie path) (pk.d 0x10) (hdBytes pk) else []))

/-- COPY (R126). `ue` lists the lines that its reads find uncorrectable. -/
def execCopy (path : Path) (pk : Packet) (ue : List Nat) (s : State) : Out :=
  beginOn path pk (ofOp 0x201) { res := hdRes path pk } s (fun f s => s.hdBegin f ue)

/-- GATHER (R126). -/
def execGather (path : Path) (pk : Packet) (ue : List Nat) (s : State) : Out :=
  beginOn path pk (ofOp 0x202) { res := hdRes path pk } s (fun f s => s.hdBegin f ue)

/-- SCATTER (R126). -/
def execScatter (path : Path) (pk : Packet) (ue : List Nat) (s : State) : Out :=
  beginOn path pk (ofOp 0x203) { res := hdRes path pk } s (fun f s => s.hdBegin f ue)

/-- HOST_READ_COMPLETION (R126): a completion for a host read of the command with number `cmd`: its data, or the
cause it faults its element with (4 an error status or a timeout, 5 poisoned data). -/
def execHostReadCompletion (cmd elem off len : Nat) (data : List Byte) (cause : Nat) (ue : List Nat) (s : State) : Out :=
  .next (match listFind (fun j => j.cmd == cmd) s.cpu.hostJobs, s.flight cmd with
    | some j, some f =>
      let p : HostPart := ⟨elem, off, len, if cause = 0 then data else [], cause⟩
      if j.fits f.pk p then
        let j := { j with parts := j.parts ++ [p] }
        let s := { s with cpu := { s.cpu with
          hostJobs := updFirst (fun q => q.cmd == cmd) (fun _ => j) s.cpu.hostJobs } }
        if j.full f.pk then s.hdFinish f j ue else s
      else s
    | _, _ => s)

end Sys2Proof.Machine
end

