-- ==== Sys2Proof/Machine/Memory.lean ====
section
/-! DEFINITION. The memory tiers (07): MEM_MAP, MEM_UNMAP, MEM_APERTURE and MEM_CONFIG, reads and writes at a
controller, fresh pages, zeroing, twins, scrub, refresh, the loss of a unit, BAR2. -/

namespace Sys2Proof.Machine

/-! ### Frames and mappings -/

/-- MEM_MAP may hand out frame `f` (R239, R240): not the upper band under a reserve or after a loss. -/
def Mem.offered (m : Mem) (f : Nat) : Bool :=
  frameExists f && (!upperBand f ||
    (if f < tier2Frame0 then !m.stackReserve && m.lost1.isNone else !m.tier2Reserve && m.lost2.isNone))

/-- Frame `f` belongs to no partition. -/
def FrameState.unowned : FrameState → Bool
  | .owned _ => false
  | _ => true

/-- The tier of a frame. -/
def frameTier (f : Nat) : Nat := if f < tier2Frame0 then 0 else 1

/-- Free frames of a tier that MEM_MAP may hand out, queued ones counted and those of firmware's own structures not (R222). -/
def Mem.freeCount (m : Mem) (tier : Nat) : Nat :=
  let all := if tier = 0 then (if m.stackReserve || m.lost1.isSome then tier1Lower else tier1Frames)
    else (if m.tier2Reserve || m.lost2.isSome then tier2Lower else tier2Frames)
  all - (m.frames.filter (fun e => !e.2.unowned && m.offered e.1 && frameTier e.1 == tier)).length -
    (if tier = 0 then m.fwFrames else 0)

/-- The level-3 entry word of a page, when the walk reaches a leaf. -/
def Mem.leafOf (m : Mem) (part va : Nat) : Option Nat :=
  match m.walk part va with
  | .leaf w => some w
  | _ => none

/-- Writes a level-3 entry, and the two entries above it (R217). -/
def Mem.setLeaf (m : Mem) (part va w : Nat) : Mem :=
  let k1 := pteKey part 1 va
  let k2 := pteKey part 2 va
  let inner := fun k => mkPte (pteWord (Config.tableAddr k % 2 ^ 46) false false false false false)
  { m with pt := (((m.pt.put {} k1 (inner k1)).put {} k2 (inner k2)).put {} (pteKey part 3 va) (mkPte w)) }

/-- The pages of a range. -/
def pagesOf (va n : Nat) : List Nat := (List.range n).map (fun i => va + i * 2 ^ 21)

/-- Frame `f` leaves its owner for the zero queue, with its twin (R225, R229). -/
def Mem.releaseFrame (m : Mem) (f : Nat) : Mem :=
  { m with
    frames := m.frames.put .free f .queued,
    zeroQueue := if m.zeroQueue.contains f then m.zeroQueue else m.zeroQueue ++ [f],
    twins := m.twins.put none f none,
    twinOnce := m.twinOnce.keep (fun g _ => g / 512 != f) }

/-- Counts frames of a partition. -/
def State.addFrames (s : State) (part tier : Nat) (n : Int) : State :=
  s.updMeter part (fun m => if tier = 0 then { m with t1Frames := ((m.t1Frames : Int) + n).toNat }
    else { m with t2Frames := ((m.t2Frames : Int) + n).toNat })

/-- The frames of common berth `b`. -/
def State.berthFrames (s : State) (b : CommonBerth) : List Nat :=
  (pagesOf b.va b.pages).filterMap (fun va => (s.mem.leafOf 0 va).map pteFrame)

/-- Removes from READERS of every berth the partitions that map none of its pages any more (R518). -/
def State.fixReaders (s : State) : State :=
  let shared := s.mem.leaves.filter (fun e => e.1 != 0 && pteShared e.2.2)
  { s with ten := { s.ten with berths := s.ten.berths.map (fun e =>
      let fs := s.berthFrames e.2
      (e.1, { e.2 with readers := maskOf ((bitsSet e.2.readers 64).filter (fun i =>
        shared.any (fun l => l.1 == i + 1 && fs.contains (pteFrame l.2.2)))) })) } }

/-- What an endpoint answers: READ_DATA, WRITE_ACK or ERROR (Table 6.4). -/
def State.answer (s : State) (kind cause : Nat) (poison : Bool) (data : List Byte) : State :=
  { s with fab := { s.fab with reply := some ⟨[], kind, cause, poison, data⟩ } }

/-- HOST_APERTURE: a discarded host write. -/
def State.hostAperture (s : State) (port j off cause : Nat) : State :=
  let exist := (s.part (j + 1)).state != .free
  s.record 0x0406 1 (if exist then j + 1 else 0xFF) srcPackage 0 off j port cause (if exist then [j + 1] else [])

/-- A held write whose page is unmapped translates no more (R222): a host's is discarded and recorded (R223). -/
def State.dropHeld (s : State) (h : HeldWrite) : State :=
  match h.host with
  | some (port, j, off) => s.hostAperture port j off 1
  | none => s.answer 6 cTranslation false []

/-- Unmaps one page (R222): its frame goes to the zero queue unless it is mapped with SHARED. -/
def State.unmapPage (s : State) (part va : Nat) : State :=
  match s.mem.leafOf part va with
  | none => s
  | some w =>
    let s := (s.mem.heldWrites.filter (fun h => h.part == part && h.va / 2 ^ 21 == va / 2 ^ 21)).foldl (fun s h => s.dropHeld h) s
    let m := { s.mem with
      pt := s.mem.pt.put {} (pteKey part 3 va) {},
      heldWrites := s.mem.heldWrites.filter (fun h => !(h.part == part && h.va / 2 ^ 21 == va / 2 ^ 21)) }
    if pteShared w then { s with mem := m }
    else ({ s with mem := m.releaseFrame (pteFrame w) } : State).addFrames part (frameTier (pteFrame w)) (-1)

/-- Unmaps pages, and corrects READERS. -/
def State.unmapPages (s : State) (part : Nat) (vas : List Nat) : State :=
  (vas.foldl (fun s va => s.unmapPage part va) s).fixReaders

/-- Every page of a partition. -/
def State.allPages (s : State) (part : Nat) : List Nat :=
  (s.mem.leaves.filter (fun e => e.1 == part)).map (fun e => e.2.1)

/-! ### MEM_MAP, MEM_UNMAP, MEM_APERTURE (R220 to R223) -/

/-- The partition that MEM_MAP maps for: the ring's; on the control path TARGET_PART. -/
def State.mapPart (s : State) (path : Path) (pk : Packet) : Nat :=
  if s.controlPath path then pk.f 0x20 7 0 else s.pathPart path

/-- A page meets the view of an open window of a partition (R269). -/
def State.meetsView (s : State) (part va n : Nat) : Bool :=
  s.quay.windows.any (fun e => match e.2 with
    | some w => w.part == part && rangesMeet va n w.view (w.count * (elemBits w.inFmt / 8))
    | none => false)

/-- A page of partition 0 at `va` lies in a common berth that is not FREE: the berth's number and record. -/
def State.berthAt (s : State) (va : Nat) : Option (Nat × CommonBerth) :=
  listFind (fun e => e.2.state != .free && decide (e.2.va ≤ va) && decide (va < e.2.va + e.2.pages * 2 ^ 21)) s.ten.berths

/-- A range of pages that no table maps: unaligned, empty, or reaching the on-chip window (Table 7.6 RANGE). -/
def badRange (va n : Nat) : Bool := va % 2 ^ 21 != 0 || n == 0 || decide (va + n * 2 ^ 21 > 0xFF0000000000)

/-- Pages are mapped in partition 0, in a tier, and in no RETIRED berth when `shared`. -/
def State.sourceOk (s : State) (va n tier : Nat) (shared : Bool) : Bool :=
  va % 2 ^ 21 == 0 && (pagesOf va n).all (fun a => match s.mem.leafOf 0 a with
    | some w => frameTier (pteFrame w) == tier &&
        !(shared && ((s.berthAt a).map (fun b => b.2.state)) == some BerthRec.retired)
    | none => false)

/-- The frames that a partition may still take in a tier. -/
def State.budgetLeft (s : State) (part tier : Nat) : Nat :=
  if tier = 0 then (s.part part).t1Budget - (s.meter part).t1Frames else (s.part part).t2Budget - (s.meter part).t2Frames

/-- Why MEM_MAP is refused: status and cause. -/
def State.mapRefusal (s : State) (path : Path) (pk : Packet) : Option (Nat × Nat) :=
  let part := s.mapPart path pk
  let va := pk.d 0x10
  let n := pk.w 0x18
  let write := pk.b 0x1C 0
  let tier := pk.f 0x1C 1 1
  let share := pk.b 0x1C 2
  let twin := pk.b 0x1C 3
  let mem := fun c => some (stMemRefused, c)
  if part > 64 ∨ n > 2 ^ 20 then some (stFieldReserved, 0)
  else if part ≠ 0 ∧ (s.part part).state = .free then some (stNotOwner, 0)
  else if (share && (write || twin)) || (twin && (tier == 1 || part != 0)) then mem 8
  else if badRange va n then mem 1
  else if (pagesOf va n).any (fun a => (s.mem.leafOf part a).isSome || s.meetsView part a (2 ^ 21)) then mem 2
  else if share then (if s.sourceOk (pk.d 0x28) n tier true then none else mem 5)
  else if twin && !s.sourceOk (pk.d 0x30) n 1 false then mem 5
  else if twin && decide (s.mem.twins.length + n > 131072) then mem 6
  else if part ≠ 0 ∧ n > s.budgetLeft part tier then mem 3
  else if n > s.mem.freeCount tier then mem 4
  else none

/-- The frames that the hardware takes serve MEM_MAP (R222). -/
def State.framesFit (s : State) (pk : Packet) (frames : List Nat) : Bool :=
  pk.b 0x1C 2 || (frames.length == pk.w 0x18 && frames.eraseDups.length == frames.length &&
    frames.all (fun f => s.mem.offered f && frameTier f == pk.f 0x1C 1 1 && (s.mem.frames.get .free f).unowned))

/-- Maps a partition-0 page read-only into a partition (R221). -/
def State.sharePage (s : State) (part va src : Nat) : State :=
  match s.mem.leafOf 0 src with
  | none => s
  | some w =>
    let w' := pteWord (pteFrame w * 2 ^ 21) (pteTwin w) true (pteFresh w) false true
    let s := { s with mem := s.mem.setLeaf part va w' }
    match s.berthAt src with
    | some (b, _) => if part = 0 then s else { s with ten := { s.ten with berths := s.ten.berths.upd {} b (fun r =>
        { r with readers := setBit r.readers (part - 1) true }) } }
    | none => s

/-- Maps a page on a frame: FRESH, and with its twin when `twin` is given (R222, R229). -/
def State.mapPage (s : State) (part va f : Nat) (write : Bool) (twin : Option Nat) : State :=
  let m := s.mem.setLeaf part va (pteWord (f * 2 ^ 21) twin.isSome false true write true)
  let m := { m with frames := m.frames.put .free f (.owned part),
                    twins := match twin with
                      | some g => m.twins.put none f (some g)
                      | none => m.twins }
  ({ s with mem := m } : State).addFrames part (frameTier f) 1

/-- Maps the pages of an accepted MEM_MAP. -/
def State.mapPages (s : State) (part : Nat) (pk : Packet) (frames : List Nat) : State :=
  let n := pk.w 0x18
  (List.range n).foldl (fun s i =>
    let va := pk.d 0x10 + i * 2 ^ 21
    if pk.b 0x1C 2 then s.sharePage part va (pk.d 0x28 + i * 2 ^ 21)
    else s.mapPage part va (frames.getD i 0) (pk.b 0x1C 0)
      (if pk.b 0x1C 3 then (s.mem.leafOf 0 (pk.d 0x30 + i * 2 ^ 21)).map pteFrame else none)) s

/-- Completes a command with MEM_REFUSED and a cause, or another status. -/
def State.memRefuse (s : State) (f : Flight) (r : Nat × Nat) : State :=
  if r.1 = stMemRefused then s.commit f.id r.1 [r.2] else s.failWith f r.1

/-- MEM_MAP (R220 to R222). `frames` are the frames that the hardware takes. -/
def execMemMap (path : Path) (pk : Packet) (frames : List Nat) (s : State) : Out :=
  beginOn path pk (ofOp 0x210)
    { ready := fun s => (s.mapRefusal path pk).isSome || s.framesFit pk frames } s (fun f s =>
    match s.mapRefusal path pk with
    | some r => s.memRefuse f r
    | none => (s.mapPages (s.mapPart path pk) pk frames).done f)

/-- Another partition maps a frame with SHARED. -/
def State.sharedOut (s : State) (fs : List Nat) : Bool :=
  s.mem.leaves.any (fun e => e.1 != 0 && pteShared e.2.2 && fs.contains (pteFrame e.2.2))

/-- MEM_UNMAP (R220, R222). -/
def execMemUnmap (path : Path) (pk : Packet) (s : State) : Out :=
  beginOn path pk (ofOp 0x211) {} s (fun f s =>
    let part := s.actsFor f
    let va := pk.d 0x10
    let n := pk.w 0x18
    if n > 2 ^ 20 then s.failWith f stFieldReserved
    else if badRange va n then s.memRefuse f (stMemRefused, 1)
    else
      let ws := (pagesOf va n).map (s.mem.leafOf part)
      if ws.any (·.isNone) then s.memRefuse f (stMemRefused, 1)
      else if part == 0 && s.sharedOut (ws.filterMap (fun w => w.map pteFrame)) then s.memRefuse f (stMemRefused, 7)
      else (s.unmapPages part (pagesOf va n)).done f)

/-- MEM_APERTURE (R223). Partition 0 has no aperture: RANGE. -/
def execMemAperture (path : Path) (pk : Packet) (s : State) : Out :=
  beginOn path pk (ofOp 0x212) {} s (fun f s =>
    let part := s.actsFor f
    let va := pk.d 0x10
    if part = 0 then s.memRefuse f (stMemRefused, 1)
    else if pk.b 0x18 0 then
      if va % 2 ^ 31 ≠ 0 ∨ va + 2 ^ 31 > 0xFF0000000000 then s.memRefuse f (stMemRefused, 1)
      else ({ s with mem := { s.mem with apertures := s.mem.apertures.put none (part - 1) (some va) } } : State).done f
    else ({ s with mem := { s.mem with apertures := s.mem.apertures.put none (part - 1) none } } : State).done f)

/-- A frame of a tier's upper band is held by a partition. -/
def Mem.upperInUse (m : Mem) (tier : Nat) : Bool :=
  m.frames.any (fun e => !e.2.unowned && upperBand e.1 && frameTier e.1 == tier)

/-- MEM_CONFIG (R244). -/
def execMemConfig (path : Path) (pk : Packet) (s : State) : Out :=
  beginOn path pk (ofOp 0x031) {} s (fun f s =>
    let set1 := pk.b 0x10 1
    let set2 := pk.b 0x10 3
    let maskSet := pk.b 0x14 8
    let p := pk.f 0x14 7 0
    let mask := pk.f 0x14 31 16
    if maskSet && (mask == 0 || decide (p > 64)) then s.failWith f stFieldReserved
    else if (set1 && pk.b 0x10 0 && s.mem.upperInUse 0) || (set2 && pk.b 0x10 2 && s.mem.upperInUse 1) then
      s.memRefuse f (stMemRefused, 7)
    else
      let m := s.mem
      let m := { m with stackReserve := if set1 then pk.b 0x10 0 else m.stackReserve,
                        tier2Reserve := if set2 then pk.b 0x10 2 else m.tier2Reserve,
                        wayMask := if maskSet then m.wayMask.put 0xFFFF p mask else m.wayMask }
      let w1 := if p ≤ 64 then m.wayMask.get 0xFFFF p else Config.noPartMask p % 2 ^ 16
      ({ s with mem := m } : State).done f [b2n m.tier2Reserve * 4 + b2n m.stackReserve, w1 * 2 ^ 16 + p])

/-! ### Lines at a controller (R232 to R234, R241) -/

/-- Line number `line` (device address / 64) lies in a tier. -/
def lineExists (line : Nat) : Bool := frameExists (line / 2 ^ 15)

/-! ### The line code (R232) -/

/-- A product in GF(2^8) with the field polynomial x^8 + x^4 + x^3 + x^2 + 1: `n` steps of shift and reduce. -/
def gfMul (a : Nat) : Nat → Nat → Nat
  | 0, _ => 0
  | n + 1, b => (if bit b n then a * 2 ^ n else 0) ^^^ gfMul a n b

/-- Reduces a polynomial over GF(2) of degree below 8 + `n` by the field polynomial. -/
def gfReduce : Nat → Nat → Nat
  | 0, x => x
  | n + 1, x => gfReduce n (if bit x (n + 8) then x ^^^ (0x11D * 2 ^ n) else x)

/-- A product of two symbols. -/
def gfTimes (a b : Nat) : Nat := gfReduce 7 (gfMul a 8 b)

/-- α^n, α being x. -/
def gfPow : Nat → Nat
  | 0 => 1
  | n + 1 => gfTimes (gfPow n) 2

/-- The code's generator, the product of x − α^i for i from 0 to 7: its coefficients, the highest first. -/
def rsGenerator : List Nat :=
  (List.range 8).foldl (fun (g : List Nat) i =>
    ((g ++ [0]).zip (0 :: g)).map (fun (e : Nat × Nat) => e.1 ^^^ gfTimes (gfPow i) e.2)) [1]

/-- The 8 check symbols of 64 data symbols. DEDUCED: the code is systematic, the first byte of the line the highest
coefficient. -/
def lineCheck (data : List Byte) : List Nat :=
  data.foldl (fun (r : List Nat) b =>
    let k := b.toNat ^^^ r.headD 0
    ((r.drop 1 ++ [0]).zip (rsGenerator.drop 1)).map (fun (e : Nat × Nat) => e.1 ^^^ gfTimes k e.2)) (List.replicate 8 0)

/-- The check symbols that stand with a line: those of its data, each XORed with 0x5A under the poison mark. -/
def Mem.checkSymbols (m : Mem) (line : Nat) : List Nat :=
  (lineCheck (m.bytes.getAll 0 (line * 64) 64)).map (fun c => if m.marked (line * 64) then c ^^^ 0x5A else c)

/-- The mark, as a reader recognises it before it attempts correction. -/
def carriesMark (data : List Byte) (check : List Nat) : Bool := check == (lineCheck data).map (· ^^^ 0x5A)

/-- What the code finds on a line without the mark whose stored symbols are in error as `errs` says (symbol 0 to 71, the bits that
are wrong): 0 correct, 1 correctable, 2 uncorrectable, 3 delivered wrong, which only six or more wrong symbols can be. -/
def lineFinds (errs : List (Nat × Nat)) : Nat :=
  let n := (((errs.filter (fun e => decide (e.1 < 72) && e.2 % 256 != 0)).map (·.1)).eraseDups).length
  if n = 0 then 0 else if n ≤ 3 then 1 else if n ≤ 5 then 2 else if Config.manySymbols errs then 2 else 3

/-- A request waits for the restore of its granule. -/
def State.holdRequest (s : State) (r : HeldReq) : State :=
  let l := (s.mem.heldGran.get none (r.addr / 4096)).getD []
  { s with mem := { s.mem with heldGran := s.mem.heldGran.put none (r.addr / 4096) (some (l ++ [r])) } }

/-- MEMORY_READ (R233): partition `part` reads a line in which the symbols `errs` are in error. A line that the memory-side cache
holds comes from there (R227); `evictUe` says that the cache cannot correct the line that it gives up. An uncorrectable line
of a twin-backed frame waits for TWIN_RESTORE with every later request to its granule (R230). -/
def execMemoryRead (part line : Nat) (s : State) (errs : List (Nat × Nat) := []) (evictUe : Bool := false) : Out :=
  onUnit (lineExists line) (.next (
    let a := line * 64
    let u := s.mem.unitOf a
    let res := lineFinds errs
    let hit := tierOf a = 1 ∧ s.mem.cached a
    if s.tierInTest (tierOf a) then s.answer 6 stDomainAsleep false []
    else if s.mem.granHeld a then s.holdRequest ⟨a, none, false⟩
    else
      let data := s.mem.bytes.getAll 0 a 64
      let s' := s.lineTraffic part a 64 false evictUe
      if s.mem.marked a then s'.answer 2 cSourcePoison true data
      else if hit ∨ res = 0 then s'.answer 2 0 false data
      else if res = 1 then
        ((s'.updCtrl u (fun c => { c with ce := sat32 (c.ce + 1) })).unitWrote u 64).answer 2 0 false data
      else if res = 3 then s'.answer 2 0 false ((List.range 64).map (Config.wrongByte errs))
      else if s.mem.twinned a then (s.unitRead u 64).holdRequest ⟨a, none, false⟩
      else ((s.unitRead u 64).lineUe line).answer 6 cSourceUe false []))

/-- MEMORY_WRITE (R234): partition `part` writes 1 to 64 bytes within a line; `poison` when the writer writes the pattern,
`evictUe` as in MEMORY_READ. -/
def execMemoryWrite (part addr : Nat) (data : List Byte) (s : State) (poison : Bool := false) (evictUe : Bool := false) : Out :=
  onUnit (lineExists (addr / 64) && !data.isEmpty && decide (addr % 64 + data.length ≤ 64)) (.next (
    if s.tierInTest (tierOf addr) then s.answer 6 stDomainAsleep false []
    else if s.mem.granHeld addr then s.holdRequest ⟨addr, some data, poison⟩
    else
      let s := { (s.lineTraffic part addr data.length true evictUe) with
        mem := (s.lineTraffic part addr data.length true evictUe).mem.writeLine addr data poison }
      s.answer 3 0 false []))

/-! ### Fresh pages and zeroing (R224 to R226) -/

/-- Holds a write to a FRESH page and moves its frame to the head of the zero queue. -/
def State.holdWrite (s : State) (part va : Nat) (data : List Byte) (poison : Bool)
    (host : Option (Nat × Nat × Nat) := none) : State :=
  match s.mem.leafOf part va with
  | some w =>
    let f := pteFrame w
    { s with mem := { s.mem with
        heldWrites := s.mem.heldWrites ++ [⟨part, va, data, poison, s.clk, host⟩],
        zeroQueue := if s.mem.zeroQueue.contains f then f :: s.mem.zeroQueue.filter (· != f) else s.mem.zeroQueue } }
  | none => s

/-- The bytes lie in one page. -/
def inPage (va n : Nat) : Bool := decide (0 < n) && decide (va % 2 ^ 21 + n ≤ 2 ^ 21)

/-- FRESH_WRITE (R226): a write reaches the translation of a FRESH page. -/
def execFreshWrite (part va : Nat) (data : List Byte) (poison : Bool) (s : State) : Out :=
  .next (match s.translate part va true with
    | .fresh _ => if inPage va data.length then s.holdWrite part va data poison else s
    | _ => s)

/-- FRESH_WRITE_RELEASE (R226): the frame of a FRESH page with held writes is zero. -/
def execFreshWriteRelease (part va : Nat) (s : State) : Out :=
  .next (match s.mem.leafOf part va with
    | some w =>
      if pteFresh w && !s.mem.zeroQueue.contains (pteFrame w) &&
          s.mem.heldWrites.any (fun h => h.part == part && h.va / 2 ^ 21 == va / 2 ^ 21) then s.openFresh part va
      else s
    | none => s)

/-- The bytes of a frame on a logical unit: 4 KiB for each of its granules there. -/
def frameOnUnit (f u : Nat) : Nat :=
  4096 * ((List.range 512).filter (fun i => memUnit (f * 2 ^ 21 + i * 4096) == u)).length

/-- The domains of a tier's units. -/
def tierDomains (tier : Nat) : List Nat := if tier = 0 then [52, 53, 54, 55] else [36, 37, 47, 48]

/-- ZERO_FRAME (R225): the head of the zero queue is zeroed; without an owner it is free. Domains of its tier that sleep wake for it
first (R597). -/
def execZeroFrame (s : State) : Out :=
  .next (match s.mem.zeroQueue with
    | [] => s
    | f :: q =>
      if !(tierDomains (frameTier f)).all s.awake then s.burstWake (tierDomains (frameTier f))
      else
      let m := s.mem.zeroFrame f
      let s : State := { s with mem := { m with
        zeroQueue := q,
        frames := if m.frames.get .free f = .queued then m.frames.put .free f .free else m.frames } }
      s.countZeroing f)

/-! ### Twins (R229 to R231, R519) -/

/-- Copies the bytes of a 4 KiB granule and clears its marks. -/
def Mem.copyGranule (m : Mem) (src dst : Nat) : Mem :=
  let m := { m with bytes := m.bytes.putAll 0 (dst * 4096) (m.bytes.getAll 0 (src * 4096) 4096) }
  (List.range 64).foldl (fun m i => m.mark (dst * 4096 + i * 64) false) m

/-- Marks every line of a granule. -/
def Mem.markGranule (m : Mem) (g : Nat) : Mem :=
  (List.range 64).foldl (fun m i => m.mark (g * 4096 + i * 64) true) m

/-- Some line of a granule is marked. -/
def Mem.granuleMarked (m : Mem) (g : Nat) : Bool := (List.range 64).any (fun i => m.marked (g * 4096 + i * 64))

/-- The common berth that holds frame `f`. -/
def State.berthOfFrame (s : State) (f : Nat) : Option (Nat × CommonBerth) :=
  listFind (fun e => e.2.state != .free && (s.berthFrames e.2).contains f) s.ten.berths

/-- A restore from the twin ends well: MEM_TWIN_RESTORE, and the berth becomes DEGRADED (R230, R519). -/
def State.twinRestored (s : State) (g us : Nat) : State :=
  let f := g / 512
  let u := s.mem.unitOf (g * 4096)
  let a := g * 4096
  let s := s.updCtrl u (fun c => { c with twinDone := sat16 (c.twinDone + 1) })
  let s := s.record 0x0402 1 0xFF srcMem u (lo32 a) (hi32 a) us 0 (0 :: s.mem.mappers f)
  match s.berthOfFrame f with
  | some (b, r) =>
    let s := { s with ten := { s.ten with berths := s.ten.berths.upd {} b (fun (r : CommonBerth) =>
      { r with state := if r.state = BerthRec.ready then .degraded else r.state, restores := sat16 (r.restores + 1) }) } }
    s.raise 0x0B03 0 (0 :: (bitsSet r.readers 64).map (· + 1)) [b, lo32 a, hi32 a, 0]
  | none => s

/-- The requests that a granule's restore held are released in order: its reads with its data, or with poison (Table 7.7, R231). -/
def State.releaseGranule (s : State) (g : Nat) (poison : Bool) : State :=
  let l := (s.mem.heldGran.get none g).getD []
  let s := { s with mem := { s.mem with heldGran := s.mem.heldGran.put none g none } }
  l.foldl (fun s r => match r.data with
    | some bs => ({ s with mem := s.mem.writeLine r.addr bs r.poison } : State).answer 3 0 false []
    | none =>
      let bad := poison || s.mem.marked r.addr
      s.answer 2 (if bad then cSourcePoison else 0) bad (s.mem.bytes.getAll 0 (r.addr / 64 * 64) 64)) s

/-- A restore fails: the granule is poisoned, and the berth is retired (R231, R519). -/
def State.twinLost (s : State) (g : Nat) : State :=
  let f := g / 512
  let u := s.mem.unitOf (g * 4096)
  let a := g * 4096
  let s := ({ s with mem := s.mem.markGranule g } : State).updCtrl u (fun c => { c with twinFailed := sat16 (c.twinFailed + 1) })
  let s := s.record 0x0403 3 0xFF srcMem u (lo32 a) (hi32 a) 0 0 (0 :: s.mem.mappers f)
  match s.berthOfFrame f with
  | some (b, r) =>
    let s := { s with ten := { s.ten with berths := s.ten.berths.upd {} b (fun r =>
      { r with state := .retired, poisoned := sat16 (r.poisoned + 1) }) } }
    s.record 0x0B04 3 0xFF srcPackage 0 b (lo32 a) (hi32 a) 0 (0 :: (bitsSet r.readers 64).map (· + 1))
  | none => s

/-- TWIN_RESTORE (R230, R231): a read of granule `gran` (device address / 4096) met an uncorrectable line. `twinUe`:
the twin's copy is uncorrectable; `backUe`: the read-back is; `us`: how long the granule was held. -/
def execTwinRestore (gran : Nat) (twinUe backUe : Bool) (us : Nat) (s : State) : Out :=
  .next (match s.mem.twins.get none (gran / 512) with
    | none => s
    | some t =>
      if us > 20 then s
      else
        let src := t * 512 + gran % 512
        let again := s.mem.twinOnce.get false gran
        let s := { s with mem := { s.mem with twinOnce := s.mem.twinOnce.put false gran true } }
        let u := s.mem.unitOf (gran * 4096)
        let s := s.unitRead (s.mem.unitOf (src * 4096)) 4096
        if twinUe || again || s.mem.granuleMarked src then (s.twinLost gran).releaseGranule gran true
        else
          let s := ((s.unitWrote u 4096).unitRead u 4096)
          if backUe then (s.twinLost gran).releaseGranule gran true
          else (({ s with mem := s.mem.copyGranule src gran } : State).twinRestored gran us).releaseGranule gran false)

/-- The tier-1 frame whose twin is frame `f`. -/
def Mem.twinOf (m : Mem) (f : Nat) : Option Nat := (listFind (fun e => e.2 == some f) m.twins).map (·.1)

/-- A line that is scrubbed: of a tier, or of the 2 MiB test areas above the stacks' ranges, at the addresses that their rows
have under the interleave. -/
def scrubExists (line : Nat) : Bool := lineExists line || (decide (tier1Frames ≤ line / 2 ^ 15) && decide (line / 2 ^ 15 < tier1Frames + 12))

/-- The restore of a twin's granule from its tier-1 frame, found by the scrub (R231); `bad` says that the tier-1 read or the
read-back is uncorrectable. -/
def State.scrubTwin (s : State) (g src : Nat) (bad : Bool) : State :=
  let u := s.mem.unitOf (g * 4096)
  let again := s.mem.twinOnce.get false g
  let s := { s with mem := { s.mem with twinOnce := s.mem.twinOnce.put false g true } }
  let s := ((s.unitRead (s.mem.unitOf (src * 4096)) 4096).unitWrote u 4096).unitRead u 4096
  if bad || again || s.mem.granuleMarked src then s.twinLost g
  else ({ s with mem := s.mem.copyGranule src g } : State).twinRestored g 0

/-- PATROL_SCRUB (R235): the scrub of one line, in which the symbols `errs` are in error; `row`: the pass has given a row of the
line four corrected errors or more, and the row is repaired (which lines make a row of a device is not stated); `lane`: a
data lane of a stack has failed and is remapped; `bad`: see scrubTwin. A unit's domain that sleeps wakes for it first (R597). -/
def execPatrolScrub (line : Nat) (errs : List (Nat × Nat)) (row lane : Bool) (s : State) (bad : Bool := false) : Out :=
  onUnit (scrubExists line) (.next (
    let a := line * 64
    let u := s.mem.unitOf a
    let res := lineFinds errs
    if !s.awake (unitDomain u) then s.burstWake [unitDomain u]
    else
    let s := s.unitRead u 64
    let s := s.updCtrl u (fun c => { c with
      rows := if row && res == 1 then sat16 (c.rows + 1) else c.rows,
      lanes := if lane && decide (u < 12) then sat16 (c.lanes + 1) else c.lanes })
    if s.mem.marked a || res == 0 || res == 3 then s
    else if res = 1 then (s.updCtrl u (fun c => { c with ce := sat32 (c.ce + 1) })).unitWrote u 64
    else if s.mem.twinned a then
      if s.mem.granHeld a then s
      else { s with mem := { s.mem with heldGran := s.mem.heldGran.put none (a / 4096) (some []) } }
    else match s.mem.twinOf (a / 2 ^ 21) with
      | some f => s.scrubTwin (a / 4096) (f * 512 + a / 4096 % 512) bad
      | none => s.lineUe line))

/-! ### Refresh (R236) -/

/-- The multiplier of Table 7.8 as its code. -/
def refreshCode (t : Nat) : Nat := if t > 95 then 2 else if t ≥ 85 then 1 else 0

/-- Since when the temperature has stayed at or below a limit. -/
def coolFrom (since : Option Nat) (now temp limit : Nat) : Option Nat := if temp ≤ limit then some (since.getD now) else none

/-- It has stayed so for 10 ms. -/
def cooled (since : Option Nat) (now : Nat) : Bool := since.any (fun t => decide (t + 10000000 ≤ now))

/-- REFRESH_TEMP_POLL (R236): a unit's devices report `temp`. Each threshold lets the multiplier go once the temperature has
stayed 3 °C below it for 10 ms. -/
def execRefreshTempPoll (unit temp : Nat) (s : State) : Out :=
  onUnit (decide (unit < 28) && decide (temp < 256)) (.next (s.updCtrl unit (fun c =>
    let a := coolFrom c.cool95 s.clk temp 92
    let b := coolFrom c.cool85 s.clk temp 82
    let kept := if c.refresh = 2 ∧ cooled a s.clk = false then 2 else if 1 ≤ c.refresh ∧ cooled b s.clk = false then 1 else 0
    { c with temp := temp, cool95 := a, cool85 := b, refresh := max (refreshCode temp) kept })))

/-! ### Loss of a unit (R240, R573) -/

/-- The unit has given 64 uncorrectable lines within 1 s. -/
def MemCtrl.worn (c : MemCtrl) : Bool :=
  decide (c.ueTimes.length = 64) && decide (c.ueTimes.headD 0 - c.ueTimes.getLastD 0 ≤ 1000000000)

/-- Copies the 512 granules of frame `f` to frame `g`; those of the lost unit, and the marked ones, arrive marked (R240). -/
def Mem.copyFrame (m : Mem) (lostUnit f g : Nat) : Mem :=
  (List.range 512).foldl (fun m i =>
    let src := f * 512 + i
    let dst := g * 512 + i
    if memUnit (src * 4096) = lostUnit ∨ m.granuleMarked src then (m.copyGranule src dst).markGranule dst
    else m.copyGranule src dst) m

/-- Frame `g` takes the place of frame `f` in the page tables, the frame table, the zero queue and the twins. -/
def Mem.swapFrame (m : Mem) (f g : Nat) : Mem :=
  { m with
    pt := m.leaves.foldl (fun (t : Tab Pte) e =>
      if pteFrame e.2.2 = f then t.put {} (pteKey e.1 3 e.2.1) (mkPte (setBits e.2.2 45 21 g)) else t) m.pt
    frames := (m.frames.put .free f .free).put .free g (m.frames.get .free f)
    zeroQueue := m.zeroQueue.filter (fun x => x != f && x != g)
    twins := m.twins.map (fun e => (e.1, if e.2 = some f then some g else e.2)) }

/-- Counts what the move of frame `f` to `g` read and wrote in each unit (R242); the lost unit reads nothing. -/
def State.countMove (s : State) (lostUnit f g : Nat) : State :=
  (List.range 512).foldl (fun s i =>
    let src := memUnit ((f * 512 + i) * 4096)
    (if src = lostUnit then s else s.unitRead src 4096).unitWrote (memUnit ((g * 512 + i) * 4096)) 4096) s

/-- Moves a page's frame: contents, marks, entries (Table 7.11 step 2). `lostUnit` is the unit whose granules are
lost. -/
def State.moveFrame (s : State) (lostUnit f g : Nat) : State :=
  { s with mem := (s.mem.copyFrame lostUnit f g).swapFrame f g }.countMove lostUnit f g

/-- Moves the twin entry of frame `f` to frame `g`. -/
def Mem.moveTwin (m : Mem) (f g : Nat) : Mem :=
  { m with twins := (m.twins.put none f none).put none g (m.twins.get none f) }

/-- Unmaps every page of a frame that finds no place. -/
def State.dropFrame (s : State) (f : Nat) : State :=
  (s.mem.leaves.filter (fun e => pteFrame e.2.2 == f)).foldl (fun s e => s.unmapPage e.1 e.2.1) s

/-- The upper-band frames of a tier that partitions hold. -/
def Mem.upperHeld (m : Mem) (tier : Nat) : List Nat :=
  (m.frames.filter (fun e => !e.2.unowned && upperBand e.1 && frameTier e.1 == tier)).map (·.1)

/-- The moves that firmware makes: upper-band frames to free lower-band frames, all that find a place. -/
def Mem.movesFit (m : Mem) (tier : Nat) (moves : List (Nat × Nat)) : Bool :=
  let up := m.upperHeld tier
  let dst := moves.map (·.2)
  moves.all (fun e => up.contains e.1 && frameExists e.2 && frameTier e.2 == tier && !upperBand e.2 &&
    (m.frames.get .free e.2).unowned) &&
  (moves.map (·.1)).eraseDups.length == moves.length && dst.eraseDups.length == dst.length &&
  (moves.length == up.length ||
    (m.frames.filter (fun e => !e.2.unowned && !upperBand e.1 && frameTier e.1 == tier)).length + moves.length ==
      (if tier = 0 then tier1Lower else tier2Lower))

/-- The partitions that hold granules of the lost unit, and how many granules they are. -/
def State.lostGranules (s : State) (unit : Nat) : List Nat × Nat :=
  let fs := s.mem.frames.filterMap (fun e => match e.2 with
    | .owned p => if frameTier e.1 = (if unit < 12 then 0 else 1) then some (e.1, p) else none
    | _ => none)
  ((fs.map (·.2)).eraseDups, ((fs.map (fun e => frameOnUnit e.1 unit / 4096))).foldl (· + ·) 0)

/-- How many granules of partition `p` on the lost unit are still poisoned (Table 17.3 step 8). -/
def State.lostOf (s : State) (unit p : Nat) : Nat :=
  ((s.mem.frames.filter (fun e => e.2 == .owned p)).map (fun e =>
    ((List.range 512).filter (fun i =>
      memUnit ((e.1 * 512 + i) * 4096) == unit && s.mem.granuleMarked (e.1 * 512 + i))).length)).foldl (· + ·) 0

/-- Granule `i` of frame `f` and of its twin frame `t`: the copy that `unit` held takes the other copy's bytes, unless
that one is marked (Table 17.3 step 3); the number counts the granules restored. -/
def restoreGranule (unit f t : Nat) (a : Mem × Nat) (i : Nat) : Mem × Nat :=
  if memUnit ((f * 512 + i) * 4096) = unit ∧ a.1.granuleMarked (t * 512 + i) = false then
    (a.1.copyGranule (t * 512 + i) (f * 512 + i), a.2 + 1)
  else if memUnit ((t * 512 + i) * 4096) = unit ∧ a.1.granuleMarked (f * 512 + i) = false then
    (a.1.copyGranule (f * 512 + i) (t * 512 + i), a.2 + 1)
  else a

/-- One twin pair. -/
def restoreTwin (unit : Nat) (a : Mem × Nat) (e : Nat × Option Nat) : Mem × Nat :=
  match e.2 with
  | none => a
  | some t => (List.range 512).foldl (restoreGranule unit e.1 t) a

/-- Twin-backed granules on the lost unit are restored from their twins, and twins from their tier-1 frames
(Table 17.3 step 3); with the number of granules restored. -/
def State.restoreTwins (s : State) (unit : Nat) : State × Nat :=
  let r := s.mem.twins.foldl (restoreTwin unit) (s.mem, 0)
  ({ s with mem := r.1 }, r.2)

/-- The requests that the restores of granules on a lost unit hold complete with SOURCE_UE (Table 7.11 step 1). -/
def State.failIssued (s : State) (unit : Nat) : State :=
  let gone := fun (g : Nat) => memUnit (g * 4096) == unit
  let n := ((s.mem.heldGran.filter (fun e => gone e.1)).flatMap (fun e => e.2.getD [])).length
  let s := { s with mem := { s.mem with heldGran := s.mem.heldGran.keep (fun g _ => !gone g) } }
  if n = 0 then s else s.answer 6 cSourceUe false []

/-- The poison mark is written over every line of the relocation rows of the survivors (Table 7.11 step 3). -/
def State.poisonRows (s : State) (unit : Nat) : State :=
  let rows := if unit < 12 then 1302016 else 2097152
  (List.range 28).foldl (fun s u =>
    if u != unit && decide (u < 12) == decide (unit < 12) then s.unitWrote u (rows * 4096) else s) s

/-! ### Quay engines that retire (R277, R279) -/

def QStream.width (x : QStream) : Nat := elemBits x.fmt / 8
/-- Elements of one unit. -/
def QRun.perUnit (r : QRun) : Nat := if r.block then 2 ^ r.blog else 4096 / max 1 (r.streams.getD r.home {}).width
def QRun.units (r : QRun) : Nat := ceilDiv r.count r.perUnit
/-- First element and number of elements of unit `u`. -/
def QRun.unitOf (r : QRun) (u : Nat) : Nat × Nat := (u * r.perUnit, min r.perUnit (r.count - u * r.perUnit))

def State.qe (s : State) (e : Nat) : QEngine := s.quay.engines.get {} e
def State.updQe (s : State) (e : Nat) (f : QEngine → QEngine) : State :=
  { s with quay := { s.quay with engines := s.quay.engines.upd {} e f } }

/-- Completes a QUAY_RUN whose units are done, or that an ABORT stops between units (R267). -/
def State.checkQRun (s : State) (cmd : Nat) : State :=
  match listFind (fun r => r.cmd == cmd) s.quay.runs with
  | none => s
  | some r =>
    if s.quay.engines.any (fun e => e.2.work.any (fun q => q.cmd == cmd)) then s
    else if r.done.length = r.units ∨ s.aborting cmd = true then
      let s := { s with quay := { s.quay with runs := delFirst (fun r => r.cmd == cmd) s.quay.runs } }
      let w := match r.first with
        | some i => [lo32 i, hi32 i]
        | none => [0xFFFFFFFF, 0xFFFFFFFF]
      s.commit cmd (if r.poisoned = 0 then stDone else stPartialFault) ([r.poisoned] ++ w ++ [r.flags])
    else s

/-- Engine `e` is usable no more: the unit in progress is dropped, and a run that an ABORT stops may end with it (R277). -/
def State.dropQe (s : State) (e : Nat) : State :=
  let cmd := (s.qe e).work.map (·.cmd)
  let s := ({ s with pkg := { s.pkg with qeOk := setBit s.pkg.qeOk e false, unitRetired := true } } : State).updQe e (fun k =>
    { k with work := none, reset := false })
  match cmd with
  | some c => s.checkQRun c
  | none => s

/-- Relocation of a lost unit onto the survivors (Table 7.11): from now on its granules read as poisoned until they
are written. -/
def State.relocate (s : State) (unit cause : Nat) (moves : List (Nat × Nat)) : State × Nat :=
  let tier := if unit < 12 then 0 else 1
  let up := s.mem.upperHeld tier
  let part0 := (s.lostGranules unit).1
  let s := s.failIssued unit
  let s := moves.foldl (fun s e =>
    let s := s.moveFrame unit e.1 e.2
    { s with mem := s.mem.moveTwin e.1 e.2 }) s
  let s := (up.filter (fun f => !(moves.map (·.1)).contains f)).foldl (fun s f => s.dropFrame f) s
  let s := s.fixReaders
  let m := s.mem
  let m := { m with
    lost1 := if tier = 0 then some unit else m.lost1,
    lost2 := if tier = 1 then some (unit - 12) else m.lost2,
    dead1 := if tier = 0 then some unit else m.dead1,
    dead2 := if tier = 1 then some (unit - 12) else m.dead2,
    cache := m.cache.map (fun e => (e.1, e.2.filter (fun l => memUnit (l.line * 128) != unit))) |>.filter (fun e => !e.2.isEmpty),
    marks := m.marks.keep (fun l _ => memUnit (l * 64) != unit) }
  let s := ({ s with mem := m } : State).poisonRows unit
  let s := (List.range 28).foldl (fun s u =>
    if u = unit then s.updCtrl u (fun c => { c with state := .lost })
    else if decide (u < 12) == decide (unit < 12) then
      s.updCtrl u (fun c => { c with state := if c.state = .service then .relocated else c.state })
    else s) s
  let s := (s.retireMem unit).dropQe unit
  let (s, back) := s.restoreTwins unit
  let left := (s.lostGranules unit).2 - back
  let s := s.record 0x0404 3 0xFF srcMem unit cause (if tier = 0 then 11 else 15) left 0 [0]
  ((part0.filter (fun p => p != 0 && s.lostOf unit p != 0)).foldl (fun s p =>
    s.raise 0x0404 3 [p] [cause, if tier = 0 then 11 else 15, s.lostOf unit p, 0]) s, back)

/-! ### BAR2 (R223) -/

/-- HOST_BAR2_ACCESS (R223): a host read of `len` bytes, or a host write of `data`, at BAR2 offset `addr`, within one
4 KiB block. A read waits behind the port's own held write to the page (R226). `ue` lists lines found uncorrectable. Metered as class HOST: it waits for its resources (R515). -/
def execHostBar2Access (port addr len : Nat) (write : Bool) (data : List Byte) (ue : List Nat) (s : State) : Out :=
  onUnit (decide (port < 2) && decide (addr < 2 ^ 37)) (.next (
    let n := if write then data.length else len
    let j := addr / 2 ^ 31
    let o := addr % 2 ^ 31
    let part := j + 1
    let waits := !write && s.mem.heldWrites.any (fun h => h.part == part && (h.host.map (·.1)) == some port &&
      some (h.va / 2 ^ 21) == (s.mem.apertures.get none j).map (fun b => (b + o) / 2 ^ 21))
    let abort := fun (s : State) => { s with mem := { s.mem with
      bar2Data := [], bar2Ep := false, bar2Abort := true, aer := s.mem.aer.put false port true } }
    if n = 0 ∨ addr % 4096 + n > 4096 ∨ waits then s
    else match s.mem.apertures.get none j with
      | none =>
        if write then s.hostAperture port j o 3
        else abort s
      | some base =>
        let va := base + o
        let die := 6 + port
        if !(s.mayProceed part 3 && s.extentMayProceed part die va n write) then
          s.waitFor (.bar2 port addr write) part (3 :: s.extentNeeds part die va n write)
        else
          let bad := s.extentFault part va n write
          let s' := s.notePairFault part va
          match bad with
          | some c =>
            if write then s'.hostAperture port j o (if c = cReadOnly then 2 else 1)
            else abort s'
          | none =>
            let s := (s.charge part 3 n).chargeExtent part die va n write
            if write then
              match s.translate part va true with
              | .fresh _ => s.holdWrite part va data false (some (port, j, o))
              | _ => s.writeVA part va data
            else
              let ep := s.extentPoison ue part va n
              let bytes := (extent va n).flatMap (fun p => match s.translate part p.1 false with
                | .tier d => if (s.lineCause ue (.tier d)).isSome then
                    (List.range p.2).map (fun i => Config.poisonedByte (d + i)) else s.readVA part p.1 p.2
                | _ => s.readVA part p.1 p.2)
              let s := s.noteUes ue part va n
              { s with mem := { s.mem with bar2Data := bytes, bar2Ep := ep, bar2Abort := false } }))

end Sys2Proof.Machine
end

