-- ==== Sys2Proof/Machine/Quay.lean ====
section
/-! DEFINITION. The quay engines (08): QUAY_LOAD, QUAY_RUN, work units and their instructions, windows. -/

namespace Sys2Proof.Machine

/-! ### Instruction words (Tables 8.2 and 8.3) -/

/-- A quay instruction, its fields taken apart. -/
structure QOp where
  opc : Nat
  d : Nat
  a : Nat
  b : Nat
  c : Nat
  w : Bool
  useScale : Bool
  ovf : Bool
  rnd : Nat
  imm : Nat
  resv : Nat
  deriving DecidableEq, Repr

def QOp.ofWord (w : Nat) : QOp :=
  ⟨bits w 7 0, bits w 11 8, bits w 15 12, bits w 19 16, bits w 23 20, bit w 24, bit w 28, bit w 29, bits w 31 30,
   bits w 63 32, bits w 27 25⟩

/-- Fields that an opcode uses: D, A, B, C, W, the ST fields, IMM; none for a reserved opcode. -/
def qForm : Nat → Option (Bool × Bool × Bool × Bool × Bool × Bool × Bool)
  | 0x01 => some (true, false, false, false, true, false, true)
  | 0x02 => some (false, true, false, false, true, true, true)
  | 0x03 => some (true, false, false, false, true, false, true)
  | 0x04 => some (true, false, false, false, false, false, true)
  | 0x05 => some (true, false, false, false, false, false, false)
  | 0x10 => some (true, true, true, false, true, false, false)
  | 0x11 => some (true, true, true, false, true, false, false)
  | 0x12 => some (true, true, true, false, true, false, false)
  | 0x13 => some (true, true, true, true, true, false, false)
  | 0x14 => some (true, true, true, false, true, false, false)
  | 0x15 => some (true, true, true, false, true, false, false)
  | 0x16 => some (true, true, false, false, true, false, false)
  | 0x17 => some (true, true, false, false, true, false, false)
  | 0x18 => some (true, true, true, false, true, false, false)
  | 0x19 => some (true, true, true, true, true, false, false)
  | 0x1A => some (true, true, false, false, true, false, false)
  | 0x20 => some (true, true, false, false, true, false, false)
  | 0x21 => some (true, true, false, false, true, false, false)
  | 0x30 => some (true, true, false, false, true, false, true)
  | 0x31 => some (false, true, false, false, false, false, true)
  | 0xFF => some (false, false, false, false, false, false, false)
  | _ => none

/-- A nonzero unused field, a reserved opcode, or an immediate out of range (R258). -/
def QOp.malformed (o : QOp) : Bool :=
  match qForm o.opc with
  | none => true
  | some (d, a, b, c, w, st, imm) =>
    o.resv != 0 || (!d && o.d != 0) || (!a && o.a != 0) || (!b && o.b != 0) || (!c && o.c != 0) || (!w && o.w) ||
    (!st && (o.useScale || o.ovf || o.rnd != 0)) || (!imm && o.imm != 0) || (st && o.rnd == 3) ||
    (match o.opc with
      | 0x01 => decide (o.imm > 5)
      | 0x02 => decide (o.imm > 3)
      | 0x03 => decide (o.imm > 31)
      | 0x30 => decide (o.imm > 3)
      | 0x31 => !(o.imm == 0 || o.imm == 1 || o.imm == fmtInt8)
      | _ => false)

/-- The source registers of an instruction with the tag that each must carry; CVT reads the other format. -/
def QOp.sources (o : QOp) : List (Nat × Bool) :=
  match qForm o.opc with
  | none => []
  | some (_, a, b, c, _, _, _) =>
    let t := if o.opc = 0x1A then !o.w else o.w
    (if a then [(o.a, t)] else []) ++ (if b then [(o.b, t)] else []) ++ (if c then [(o.c, t)] else [])

/-- The instruction writes register D. -/
def QOp.writes (o : QOp) : Bool := ((qForm o.opc).map (·.1)).getD false

/-- ALU beats per 64 lanes; BRED and SCALE not counted (Table 8.3). -/
def QOp.beats (o : QOp) : Nat :=
  let two := if o.w then 2 else 1
  if o.opc ≤ 0x04 ∨ o.opc = 0xFF then 0
  else if o.opc = 0x05 ∨ o.opc = 0x16 ∨ o.opc = 0x17 ∨ o.opc = 0x19 ∨ o.opc = 0x1A then 1
  else if o.opc = 0x20 ∨ o.opc = 0x21 then 4 * two
  else if o.opc = 0x30 ∨ o.opc = 0x31 then 0 else two

/-- The index of the first offending instruction (R258), from instruction `i`: `tags` the registers written so far,
`outs` the outputs stored, `scaled` whether a SCALE has come. -/
def qCheckFrom (i : Nat) (tags : Tab (Option Bool)) (outs : List Nat) (scaled : Bool) : List QOp → Option Nat
  | [] => some i
  | o :: t =>
    if o.malformed || (o.opc == 0xFF) != t.isEmpty ||
        o.sources.any (fun e => tags.get none e.1 != some e.2) ||
        (o.opc == 0x02 && (outs.contains o.imm || (o.useScale && !scaled))) then some i
    else if o.opc = 0xFF then none
    else qCheckFrom (i + 1) (if o.writes then tags.put none o.d (some o.w) else tags)
      (if o.opc = 0x02 then o.imm :: outs else outs) (scaled || o.opc == 0x31) t

/-- The first offending instruction of a program. -/
def qCheck (words : List Nat) : Option Nat := qCheckFrom 0 [] [] false (words.map QOp.ofWord)

/-! ### QUAY_LOAD (R257, R258) -/

/-- Completes with QUAY_REFUSED (R266). -/
def State.quayRefuse (s : State) (f : Flight) (cause word : Nat) : State := s.commit f.id stQuayRefused [cause, word]

/-- A pending or running QUAY_RUN names slot `n`. -/
def State.slotBusy (s : State) (n : Nat) : Bool := s.quay.runs.any (fun r => r.slot == n)

/-- The lowest-numbered free slot. -/
def State.freeSlot (s : State) : Option Nat :=
  listFind (fun n => (s.quay.slots.get none n).isNone) (List.range 8)

/-- The program's bytes, or the index of the first instruction that cannot be read; none at all when it does not
translate. -/
def State.quayProgram (s : State) (part : Nat) (pk : Packet) (host : Option (List Byte)) (ue : List Nat) :
    Except (Option Nat) (List Nat) :=
  let n := pk.f 0x18 8 0
  let va := pk.d 0x10
  let words := fun (b : List Byte) => (List.range n).map (fun i => ofBytes ((b.drop (8 * i)).take 8))
  if pk.b 0x18 24 then
    match host with
    | some b => if b.length = 8 * n then .ok (words b) else .error (some 0)
    | none => .error (some 0)
  else if s.extentAsleep part va (8 * n) || (s.extentFault part va (8 * n) false).isSome then .error none
  else match listFind (fun i => s.extentPoison ue part (va + 8 * i) 8) (List.range n) with
    | some i => .error (some i)
    | none => .ok (words (s.readVA part va (8 * n)))

/-- Loads a checked program into slot `n`. -/
def State.quayLoadSlot (s : State) (f : Flight) (part n : Nat) (host : Option (List Byte)) (ue : List Nat) : State :=
  match s.quayProgram part f.pk host ue with
  | .error none => if s.extentAsleep part (f.pk.d 0x10) (8 * f.pk.f 0x18 8 0) then s.failWith f stDomainAsleep
    else (s.notePairs part [(f.pk.d 0x10, 8 * f.pk.f 0x18 8 0)]).failWith f stNotOwner
  | .error (some i) => s.quayRefuse f 2 i
  | .ok ws =>
    match qCheck ws with
    | some i => s.quayRefuse f 2 i
    | none =>
      let ops := ws.map QOp.ofWord
      let s := if f.pk.b 0x18 24 then s.charge part 3 (8 * ws.length)
        else s.chargeExtent part (s.pathDie f.path) (f.pk.d 0x10) (8 * ws.length) false
      ({ s with quay := { s.quay with slots := s.quay.slots.put none n (some ⟨part, ws⟩) } } : State).done f
        [n, ws.length, (ops.map QOp.beats).foldl (· + ·) 0,
         (ops.filter (fun o => o.opc == 0x30 || o.opc == 0x31)).length]

/-- QUAY_LOAD (R257). `host` is what a PROG_HOST read returns. -/
def execQuayLoad (path : Path) (pk : Packet) (host : Option (List Byte)) (ue : List Nat) (s : State) : Out :=
  beginOn path pk (ofOp 0x801)
    { res := fun s => if pk.b 0x18 24 then [3] else s.extentRes (s.pathPart path) (s.pathDie path) (pk.d 0x10) 1 } s
    (fun f s =>
      let part := s.actsFor f
      let n := pk.f 0x18 8 0
      let any := pk.b 0x18 19
      let slot := pk.f 0x18 18 16
      if n > 256 ∨ (any = true ∧ (slot ≠ 0 ∨ n = 0)) then s.failWith f stFieldReserved
      else if any then
        match s.freeSlot with
        | none => s.quayRefuse f 7 0xFFFFFFFF
        | some k => s.quayLoadSlot f part k host ue
      else
        let held := s.quay.slots.get none slot
        if held.any (fun q => q.part != part) then s.failWith f stNotOwner
        else if s.slotBusy slot then s.quayRefuse f 9 0xFFFFFFFF
        else if n = 0 then
          ({ s with quay := { s.quay with slots := s.quay.slots.put none slot none } } : State).done f [slot]
        else s.quayLoadSlot f part slot host ue)

/-! ### QUAY_RUN (R259 to R264) -/

/-- A stream table entry from its eight words, and whether it breaks Table 8.6; `out` for an output. -/
def QStream.ofWords (ws : List Nat) : QStream :=
  let w := fun i => ws.getD i 0
  { cls := bits (w 0) 13 11, scaleEn := bit (w 0) 10, tiled := bit (w 0) 9, enable := bit (w 0) 8, fmt := bits (w 0) 3 0,
    dim0 := w 1, base := w 2 + 2 ^ 32 * bits (w 3) 15 0, scaleAddr := w 4 + 2 ^ 32 * bits (w 5) 15 0 }
def qStreamBad (ws : List Nat) (out : Bool) : Bool :=
  let w := fun i => ws.getD i 0
  let x := QStream.ofWords ws
  bits (w 0) 31 14 != 0 || bits (w 3) 31 16 != 0 || bits (w 5) 31 16 != 0 || w 6 != 0 || w 7 != 0 ||
  bits (w 0) 7 4 != 1 || x.cls == 7 ||
  !([0, 1, 5, 6, 7, 8, 9, 11].contains x.fmt || (!out && x.fmt == fmtLa128)) ||
  (!out && (x.scaleEn || x.tiled)) ||
  (if x.tiled then x.dim0 == 0 || x.dim0 % 16 != 0 else x.dim0 != 0) ||
  x.base % max 1 x.width != 0 || (!x.scaleEn && x.scaleAddr != 0)

/-- Bytes from BASE that a stream of `count` elements takes (R260). -/
def QStream.bytes (x : QStream) (count : Nat) : Nat :=
  if x.tiled then ceilDiv (ceilDiv count x.dim0) 16 * 16 * x.dim0 * x.width else count * x.width

/-- The address of element `i` (R260). -/
def QStream.addr (x : QStream) (i : Nat) : Nat :=
  if x.tiled then
    let d1 := i / x.dim0
    let d0 := i % x.dim0
    x.base + (d1 / 16 * (x.dim0 / 16) + d0 / 16) * (256 * x.width) + (d1 % 16 * 16 + d0 % 16) * x.width
  else x.base + i * x.width

/-- Extents of a run's streams: stream index, start, bytes; scale bytes under the index of their output. -/
def qExtents (streams : List QStream) (count blocks : Nat) : List (Nat × Nat × Nat) :=
  (List.range 10).flatMap (fun k =>
    let x := streams.getD k {}
    if !x.enable then [] else (k, x.base, x.bytes count) :: (if x.scaleEn then [(k, x.scaleAddr, blocks)] else []))

/-- Two extents of a run overlap where R261 forbids it: the stream index of the later one. -/
def qOverlap (streams : List QStream) : List (Nat × Nat × Nat) → Option Nat
  | [] => none
  | (k, a, n) :: t =>
    match listFind (fun e => rangesMeet a n e.2.1 e.2.2 &&
      !(decide (k < 6) && decide (6 ≤ e.1) && a == e.2.1 && n == e.2.2 &&
        (streams.getD k {}).fmt == (streams.getD e.1 {}).fmt && (streams.getD k {}).tiled == (streams.getD e.1 {}).tiled &&
        (streams.getD e.1 {}).base == a)) t with
    | some e => some e.1
    | none => qOverlap streams t

/-- The tiers that the mapped pages of an extent lie in; 2 for a page on chip, 3 for one that is not mapped. -/
def State.extentTiers (s : State) (part va n : Nat) : List Nat :=
  ((List.range ((va % 2 ^ 21 + n + 2 ^ 21 - 1) / 2 ^ 21)).filterMap (fun i =>
    match s.translate part (va / 2 ^ 21 * 2 ^ 21 + i * 2 ^ 21) false with
    | .tier d | .fresh d => some (tierOf d)
    | .pool _ _ | .basin _ _ => some 2
    | _ => some 3)).eraseDups

/-- The tier of a stream (R260): none when it does not lie wholly in one. -/
def State.streamTier (s : State) (part va n : Nat) : Option Nat :=
  match s.extentTiers part va n with
  | [t] => if t < 2 then some t else none
  | _ => none

/-- A stream does not lie wholly in one tier (R260): it lies on chip, on a window's view, across the tiers or, an input, outside
mapped pages. An output's unmapped page is left to R261, which answers NOT_OWNER. -/
def State.streamAstray (s : State) (part k va n : Nat) : Bool :=
  decide (va + n > 0xFF0000000000) || s.meetsView part va n ||
    (match (s.extentTiers part va n).filter (fun t => k < 6 || t != 3) with
    | [] => false
    | [t] => decide (t ≥ 2)
    | _ => true)

/-- The streams that a program reads and writes, as stream table indices. -/
def qUsed (ops : List QOp) : List Nat :=
  ops.filterMap (fun o => if o.opc = 1 then some o.imm else if o.opc = 2 then some (6 + o.imm) else none)

/-- The first ST with USE_SCALE whose output does not fit the SCALE before it (R254), as a stream index. -/
def qScaleBad (streams : List QStream) : Option Nat → List QOp → Option Nat
  | _, [] => none
  | t, o :: r =>
    if o.opc = 0x31 then qScaleBad streams (some o.imm) r
    else if o.opc = 0x02 ∧ o.useScale = true ∧
        (some (streams.getD (6 + o.imm) {}).fmt ≠ t ∨ (streams.getD (6 + o.imm) {}).scaleEn = false) then some (6 + o.imm)
    else qScaleBad streams t r

/-- The first ST with RND SR to an enabled W58 output, as a stream index: SR is refused with OUT W58 (R40). DEDUCED: by cause
STREAM, since QUAY_LOAD does not know the outputs' formats. -/
def qSrBad (streams : List QStream) (ops : List QOp) : Option Nat :=
  (listFind (fun (o : QOp) => o.opc == 0x02 && o.rnd == 1 && (streams.getD (6 + o.imm) {}).fmt == 9) ops).map (fun o => 6 + o.imm)

/-- A program takes random words. -/
def qRandom (ops : List QOp) : Bool := ops.any (fun o => o.opc == 0x05 || (o.opc == 0x02 && o.rnd == 1))

/-- Why a QUAY_RUN is refused: cause and word 1, or a status alone; otherwise the run. -/
inductive QAnswer where
  | refuse (cause word : Nat)
  | status (st : Nat)
  | run (r : QRun)

/-- The checks of R259 to R261 in order: slot, mode, range, streams, overlap, windows, access. -/
def State.quayCheck (s : State) (f : Flight) (ue : List Nat) : QAnswer :=
  let part := s.actsFor f
  let pk := f.pk
  let none32 := 0xFFFFFFFF
  let block := pk.b 0x10 8
  let bl := pk.f 0x10 15 12
  let b := 2 ^ bl
  let base := pk.d 0x18
  let count := pk.d 0x20
  match s.quay.slots.get none (pk.f 0x10 2 0) with
  | none => .refuse 1 none32
  | some prog =>
    let ops := prog.words.map QOp.ofWord
    if prog.part ≠ part then .status stNotOwner
    else if (if block then decide (bl < 5 ∨ bl > 12) else bl != 0 || ops.any (fun o => o.opc == 0x30 || o.opc == 0x31)) then
      .refuse 3 none32
    else if count = 0 ∨ base + count > 2 ^ 50 ∨ (block = true ∧ (base % b ≠ 0 ∨ count % b ≠ 0)) ∨ pk.d 0x28 % 64 ≠ 0 ∨
        pk.d 0x30 % 8 ≠ 0 then .refuse 0x0A none32
    else if s.extentAsleep part (pk.d 0x28) 320 || s.extentAsleep part (pk.d 0x30) 256 then .status stDomainAsleep
    else if (s.extentFault part (pk.d 0x28) 320 false).isSome || (s.extentFault part (pk.d 0x30) 256 false).isSome then
      .status stNotOwner
    else if s.extentPoison ue part (pk.d 0x28) 320 || s.extentPoison ue part (pk.d 0x30) 256 then .refuse 4 none32
    else
      let entry := fun k => bytesToWords (s.readVA part (pk.d 0x28 + 32 * k) 32)
      let streams := (List.range 10).map (fun k => QStream.ofWords (entry k))
      let home := pk.f 0x10 18 16
      let blocks := if block then count / b else 0
      let ext := qExtents streams count blocks
      let bad := listFind (fun k => (streams.getD k {}).enable && qStreamBad (entry k) (decide (6 ≤ k))) (List.range 10)
      let off := listFind (fun k => !(streams.getD k {}).enable) (qUsed ops)
      let astray := listFind (fun e => s.streamAstray part e.1 e.2.1 e.2.2) ext
      let h := streams.getD home {}
      let rand := qRandom ops
      let level := (List.range 10).any (fun k => (streams.getD k {}).enable && s.otherLevel (bits ((entry k).getD 0 0) 7 4))
      if level then .status stLevelUnsupported
      else match bad.or (off.or ((astray.map (·.1)).or ((qScaleBad streams none ops).or (qSrBad streams ops)))) with
      | some k => .refuse 4 k
      | none =>
        if home > 5 ∨ h.enable = false ∨ h.base % 4096 ≠ 0 then .refuse 4 home
        else match s.streamTier part h.base (h.bytes count) with
          | none => .refuse 4 home
          | some tier =>
            if rand && pk.d 0x38 == 0 then .refuse 4 none32
            else if rand && s.extentAsleep part (pk.d 0x38) 24 then .status stDomainAsleep
            else if rand && (s.extentFault part (pk.d 0x38) 24 false).isSome then .status stNotOwner
            else if rand && s.extentPoison ue part (pk.d 0x38) 24 then .refuse 4 none32
            else match qOverlap streams ext with
              | some k => .refuse 5 k
              | none =>
                let win := listFind (fun e => s.quay.windows.any (fun w => match w.2 with
                  | some w => w.part == part && rangesMeet e.2.1 e.2.2 w.acc (w.count * (elemBits w.accFmt / 8))
                  | none => false)) ext
                match win with
                | some _ => .refuse 6 none32
                | none =>
                  let cs := (ext.filter (fun e => decide (6 ≤ e.1))).flatMap (fun e => s.writeCauses part e.2.1 e.2.2)
                  if cs.any (· != cReadOnly) then .status stNotOwner
                  else if !cs.isEmpty then .status stReadOnly
                  else .run {
                    cmd := f.id, part := part, tier := tier, slot := pk.f 0x10 2 0, words := prog.words, block := block,
                    blog := bl, home := home, elemBase := base, count := count, streams := streams,
                    params := (List.range 32).map (fun i => s.readNat part (pk.d 0x30 + 8 * i) 8),
                    rng := if rand then some (RngCtx.ofBytes (s.readVA part (pk.d 0x38) 24)) else none,
                    began := false, done := [], poisoned := 0, first := none, flags := 0 }

/-- QUAY_RUN (R259): the run is accepted into its tier's queue; it completes when its units are done (R267). -/
def execQuayRun (path : Path) (pk : Packet) (ue : List Nat) (s : State) : Out :=
  beginOn path pk (ofOp 0x802)
    { res := fun s => [pk.d 0x28, pk.d 0x30, pk.d 0x38].flatMap (fun a => s.extentRes (s.pathPart path) (s.pathDie path) a 1) } s
    (fun f s =>
    match s.quayCheck f ue with
    | .refuse c w => s.quayRefuse f c w
    | .status st => (s.notePairs (s.actsFor f) ([(pk.d 0x28, 320), (pk.d 0x30, 256), (pk.d 0x38, 24)])).failWith f st
    | .run r =>
      let die := s.pathDie path
      let s := (s.chargeExtent r.part die (pk.d 0x28) 320 false).chargeExtent r.part die (pk.d 0x30) 256 false
      let s := if r.rng.isSome then s.chargeExtent r.part die (pk.d 0x38) 24 false else s
      { s with quay := { s.quay with runs := s.quay.runs ++ [r] } })

/-- The first run of a tier's queue. -/
def State.headRun (s : State) (tier : Nat) : Option QRun := listFind (fun r => r.tier == tier) s.quay.runs
def State.updRun (s : State) (cmd : Nat) (g : QRun → QRun) : State :=
  { s with quay := { s.quay with runs := updFirst (fun r => r.cmd == cmd) g s.quay.runs } }

/-- QUAY_RUN_START (R264): every earlier run of the tier has completed. -/
def execQuayRunStart (tier : Nat) (s : State) : Out :=
  onUnit (decide (tier < 2)) (.next (match s.headRun tier with
    | some r => if r.began then s else s.updRun r.cmd (fun r => { r with began := true })
    | none => s))

/-! ### Work units (R246, R248, R262) -/

/-- The unit that physically holds a device address, after relocation (R240). -/
def State.physUnit (s : State) (dpa : Nat) : Nat := s.mem.unitOf dpa

/-- The engine that runs unit `u` (R246, R277). A home page that no longer translates counts as on the tier's first
unit. -/
def State.unitEngine (s : State) (r : QRun) (u : Nat) : Option Nat :=
  let va := (r.streams.getD r.home {}).addr (r.unitOf u).1
  let e := match s.translate r.part va false with
    | .tier d | .fresh d => s.physUnit d
    | _ => if r.tier = 0 then 0 else 12
  s.usableEngine r.tier e

/-- The next unit of engine `e`: the run and the unit. -/
def State.nextUnit (s : State) (e : Nat) : Option (QRun × Nat) :=
  match s.headRun (if e < 12 then 0 else 1) with
  | some r =>
    if !r.began || s.aborting r.cmd then none
    else (listFind (fun u => !r.done.contains u && s.unitEngine r u == some e) (List.range r.units)).map (fun u => (r, u))
  | none => none

/-- One input element: its code, and its poison bit (R256). DEDUCED: an element of a tier in TEST, whose request completes with
DOMAIN_ASLEEP (R241), is poisoned like one that does not translate. -/
def State.qLoad (s : State) (ue : List Nat) (part : Nat) (x : QStream) (i : Nat) : Lane :=
  let va := x.addr i
  ⟨s.readNat part va x.width, s.extentPoison ue part va x.width || s.extentAsleep part va x.width⟩

/-- Bytes of a stream's elements that are not on the engine's unit (R247). -/
def State.remote (s : State) (part e : Nat) (x : QStream) (first n : Nat) : Nat :=
  ((List.range n).filter (fun i => match s.translate part (x.addr (first + i)) false with
    | .tier d | .fresh d => s.physUnit d != e
    | _ => true)).length * x.width

/-- Bytes pass between an engine and its streams: they are counted and charged (R265). -/
def State.qTraffic (s : State) (part e : Nat) (x : QStream) (first n : Nat) (write : Bool) : State :=
  let s := s.updQe e (fun q => { q with remoteBytes := sat64 (q.remoteBytes + s.remote part e x first n) })
  (List.range n).foldl (fun s i => s.chargeExtent part (unitDie e) (x.addr (first + i)) x.width write) s

/-- What unit `u` of a run moves, element by element: streams k of `ks`, their address and width; outputs are written. -/
def QRun.moves (r : QRun) (u : Nat) (ks : List Nat) : List (Nat × Nat × Bool) :=
  let (first, n) := r.unitOf u
  ks.flatMap (fun k => let x := r.streams.getD k {}
    (List.range n).map (fun i => (x.addr (first + i), x.width, decide (6 ≤ k))) ++
      (if x.scaleEn then [(x.scaleAddr + u, 1, true)] else []))

/-- Engine `e` begins its next unit: it zeroes its registers and reads every input element of the unit (R262,
R265). It waits for every resource that the unit charges. -/
def State.beginUnit (s : State) (e : Nat) (ue : List Nat) : State :=
  match s.nextUnit e with
  | none => s
  | some (r, u) =>
    let moved := r.moves u (qUsed (r.words.map QOp.ofWord))
    if !moved.all (fun m => s.extentMayProceed r.part (unitDie e) m.1 m.2.1 m.2.2) then
      s.waitFor (.quay e r.cmd u) r.part (moved.flatMap (fun m => s.extentNeeds r.part (unitDie e) m.1 m.2.1 m.2.2))
    else
      let (first, n) := r.unitOf u
      let used := (qUsed (r.words.map QOp.ofWord)).filter (fun k => decide (k < 6))
      let inputs := (List.range 6).map (fun k => if used.contains k then
          (List.range n).map (fun i => s.qLoad ue r.part (r.streams.getD k {}) (first + i)) else [])
      let pin := inputs.any (fun l => l.any (·.poison))
      let s := used.foldl (fun s k =>
        let x := r.streams.getD k {}
        let s := (List.range n).foldl (fun s i => (s.noteUes ue r.part (x.addr (first + i)) x.width).notePairs r.part
          [(x.addr (first + i), x.width)]) s
        s.qTraffic r.part e x first n false) s
      s.updQe e (fun q => { q with
        part := r.part, slot := r.slot,
        work := some ⟨r.cmd, u, first, n, inputs, 0, [], [], none, [], if pin then fPoisonIn else 0⟩ })

/-! ### Instructions (Table 8.3) -/

/-- The format of a tag. -/
def tagFmt (w : Bool) : Fmt := if w then fmtW58 else fmtFP32
/-- Reads a lane's code in a format. -/
def laneVal (w : Bool) (c : Nat) : Num := (tagFmt w).decode (if w then c % 2 ^ 58 else c % 2 ^ 32)

def QUnit.reg (q : QUnit) (i : Nat) : List Lane := ((q.regs.get none i).map (·.2)).getD []
def QUnit.setReg (q : QUnit) (i : Nat) (w : Bool) (ls : List Lane) : QUnit :=
  { q with regs := q.regs.put none i (some (w, ls)) }

/-- The same code in every lane. -/
def QUnit.fill (q : QUnit) (o : QOp) (code : Nat) : QUnit :=
  q.setReg o.d o.w (List.replicate q.n ⟨code, false⟩)

/-- A lane-wise operation on up to three sources. -/
def QUnit.lanes (q : QUnit) (o : QOp) (g : Num → Num → Num → Nat) : QUnit :=
  let t := if o.opc = 0x1A then !o.w else o.w
  let a := q.reg o.a
  let b := q.reg o.b
  let c := q.reg o.c
  let l : Lane := ⟨0, false⟩
  let ss := o.sources.length
  q.setReg o.d o.w ((List.range q.n).map (fun i =>
    let x := a.getD i l
    let y := b.getD i l
    let z := c.getD i l
    ⟨g (laneVal t x.code) (laneVal t y.code) (laneVal t z.code),
      x.poison || (decide (2 ≤ ss) && y.poison) || (decide (3 ≤ ss) && z.poison)⟩))

/-- LD: D ← input elements, converted to W's format. -/
def QUnit.ld (q : QUnit) (r : QRun) (o : QOp) : QUnit :=
  let fmt := (r.streams.getD o.imm {}).fmt
  let f := tagFmt o.w
  q.setReg o.d o.w ((q.inputs.getD o.imm []).map (fun l =>
    let v := if fmt = fmtLa128 then (La.decode l.code).value else decodeElem fmt (if fmt = 9 then l.code % 2 ^ 58 else l.code)
    ⟨f.rne v, l.poison⟩))

/-- The rounding of an ST for element `i` of the run (R255). -/
def stRnd (r : QRun) (o : QOp) (i : Nat) : Rnd :=
  match o.rnd with
  | 1 => match r.rng with
    | some x => .sr (({ x with stream := (x.stream + o.imm) % 2 ^ 16 } : RngCtx).word (r.elemBase + i))
    | none => .rne
  | 2 => .rtz
  | _ => .rne

/-- ST: the lanes converted to the output's format (R253, R254). -/
def QUnit.st (q : QUnit) (r : QRun) (o : QOp) : QUnit :=
  let fmt := (r.streams.getD (6 + o.imm) {}).fmt
  let sc := if o.useScale then q.scale else none
  let one := fun (i : Nat) (l : Lane) =>
    let v := laneVal o.w l.code
    match sc with
    | some (e, byte, _, _) =>
      if byte = 0xFF then (⟨0, false, true⟩ : OutRes) else roundOut fmt (stRnd r o (q.first + i)) o.ovf (v.scale (-e))
    | none => roundOut fmt (stRnd r o (q.first + i)) o.ovf v
  let ls := q.reg o.a
  let outs := (List.range q.n).map (fun i => let l := ls.getD i ⟨0, false⟩
    (one i l, l.poison || (sc.any (fun x => x.2.2.1))))
  let fl := (if outs.any (fun e => !e.2 && e.1.nanDropped) then fNanDropped else 0) |||
    (if outs.any (fun e => !e.2 && e.1.overflow) then fOverflow else 0) |||
    (if outs.any (·.2) then fPoisonOut else 0)
  { q with outs := q.outs ++ [(o.imm, outs.map (fun e => ⟨e.1.code, e.2⟩))], flags := q.flags ||| fl,
           scales := match sc with
             | some (_, byte, p, _) => q.scales ++ [(o.imm, byte, p)]
             | none => q.scales }

/-- RNDU: a uniform number from the run's RNG context. -/
def QUnit.rndu (q : QUnit) (r : QRun) (o : QOp) : QUnit :=
  q.setReg o.d false ((List.range q.n).map (fun i =>
    let u := match r.rng with
      | some x => ({ x with stream := (x.stream + 4) % 2 ^ 16 } : RngCtx).word (r.elemBase + q.first + i)
      | none => 0
    ⟨fmtFP32.rne (if u / 256 = 0 then .zero false else .fin false (u / 256) (-24)), false⟩))

/-- One level of BRED's tree, in W58. -/
def treeLevelW : List Nat → List Nat
  | a :: b :: t => addF fmtW58 a b :: treeLevelW t
  | l => l
/-- The tree sum, by fuel. -/
def treeSumW : Nat → List Nat → Nat
  | 0, l => l.headD 0
  | n + 1, l => match l with
    | [a] => a
    | l => treeSumW n (treeLevelW l)

/-- BRED: the block's reduction in every lane (R251). -/
def QUnit.bred (q : QUnit) (o : QOp) : QUnit :=
  let ls := q.reg o.a
  let f := tagFmt o.w
  let vs := ls.map (fun l => laneVal o.w l.code)
  let v : Num := match o.imm with
    | 0 => fmtW58.decode (treeSumW (clog2 q.n + 1) (vs.map fmtW58.rne))
    | 1 => (vs.map Num.abs).foldl Num.max2 (.zero false)
    | 2 => vs.tail.foldl Num.max2 (vs.headD .nan)
    | _ => vs.tail.foldl Num.min2 (vs.headD .nan)
  let p := ls.any (·.poison)
  q.setReg o.d o.w (List.replicate q.n ⟨f.rne v, p⟩)

/-- Every lane of the block takes the poison bit: DEDUCED, in every register that holds the block, SCALE writing none. -/
def QUnit.poisonBlock (q : QUnit) : QUnit :=
  { q with regs := q.regs.map (fun e => (e.1, e.2.map (fun r => (r.1, r.2.map (fun l => { l with poison := true }))))) }

/-- SCALE: the block scale from the block's amax (R252); a poisoned lane poisons the whole block (R256). -/
def QUnit.setScale (q : QUnit) (o : QOp) : QUnit :=
  let ls := q.reg o.a
  let xs := ls.map (fun l => laneVal false l.code)
  let p := ls.any (·.poison)
  let q := if p then q.poisonBlock else q
  if xs.any (fun x => !x.isFinite) then { q with scale := some (0, 0xFF, p, o.imm) }
  else
    let amax := amaxOf xs
    let e := if amax.isZero then 0 else rowExp amax (fmtMax o.imm)
    { q with scale := some (e, (e + 127).toNat, p, o.imm) }

/-- One instruction on every element of the unit (R248). -/
def QUnit.run (q : QUnit) (r : QRun) (o : QOp) : QUnit :=
  let f := tagFmt o.w
  match o.opc with
  | 0x01 => q.ld r o
  | 0x02 => q.st r o
  | 0x03 => q.fill o (if o.w then r.params.getD o.imm 0 % 2 ^ 58 else r.params.getD o.imm 0 % 2 ^ 32)
  | 0x04 => q.fill o o.imm
  | 0x05 => q.rndu r o
  | 0x10 => q.lanes o (fun a b _ => f.rne (a.add b))
  | 0x11 => q.lanes o (fun a b _ => f.rne (a.add b.negate))
  | 0x12 => q.lanes o (fun a b _ => f.rne (a.mul b))
  | 0x13 => q.lanes o (fun a b c => f.rne ((a.mul b).add c))
  | 0x14 => q.lanes o (fun a b _ => f.rne (a.min2 b))
  | 0x15 => q.lanes o (fun a b _ => f.rne (a.max2 b))
  | 0x16 => q.lanes o (fun a _ _ => f.rne a.abs)
  | 0x17 => q.lanes o (fun a _ _ => f.rne a.negate)
  | 0x18 => q.lanes o (fun a b _ => f.rne (if a.lt b then .fin false 1 0 else .zero false))
  | 0x19 => q.lanes o (fun a b c => f.rne (if a.isZero then c else b))
  | 0x1A => q.lanes o (fun a _ _ => f.rne a)
  | 0x20 => q.lanes o (fun a _ _ => f.sqrt a)
  | 0x21 => q.lanes o (fun a _ _ => f.recip a)
  | 0x30 => q.bred o
  | 0x31 => q.setScale o
  | _ => q

/-- ALU beats of an instruction over a unit of `n` elements. -/
def QOp.unitBeats (o : QOp) (n : Nat) : Nat :=
  if o.opc = 0x30 ∨ o.opc = 0x31 then n / 64 + 8 else o.beats * ceilDiv n 64

/-! ### Writing a unit's outputs -/

/-- Writes bytes at scattered addresses (address, bytes, poison): each line once, whole when it is covered, and
marked when a poisoned piece lies in it (R234, R256). -/
def State.scatterWrite (s : State) (part : Nat) (ws : List (Nat × List Byte × Bool)) : State :=
  let t : Tab (Option Byte) := ws.foldl (fun t w => Tab.putAll none t w.1 (w.2.1.map some)) []
  let bad := (ws.filter (fun w => w.2.2)).flatMap (fun w => [w.1 / 64, (w.1 + w.2.1.length - 1) / 64])
  let lines := (t.map (fun e => e.1 / 64)).eraseDups
  lines.foldl (fun s l =>
    let bs := t.getAll none (64 * l) 64
    let p := bad.contains l
    if bs.all (·.isSome) then s.writeVA part (64 * l) (bs.map (·.getD 0)) p
    else ((List.range 64).zip bs).foldl (fun s e => match e.2 with
      | some b => s.writeVA part (64 * l + e.1) [b] p
      | none => s) s) s

/-- The pieces that a unit writes. -/
def QUnit.pieces (q : QUnit) (r : QRun) : List (Nat × List Byte × Bool) :=
  (q.outs.flatMap (fun o =>
    let x := r.streams.getD (6 + o.1) {}
    ((List.range q.n).zip o.2).map (fun e =>
      let va := x.addr (q.first + e.1)
      (va, if e.2.poison then poisonBytes va x.width else toBytes e.2.code x.width, e.2.poison)))) ++
  q.scales.map (fun e =>
    let x := r.streams.getD (6 + e.1) {}
    (x.scaleAddr + q.unit, [BitVec.ofNat 8 (if e.2.2 then 0xAD else e.2.1)], e.2.2))

/-- The first poisoned output element of a unit. -/
def QUnit.firstPoison (q : QUnit) : Option Nat :=
  (q.outs.filterMap (fun o => (listFind (fun i => (o.2.getD i ⟨0, false⟩).poison) (List.range q.n)).map (q.first + ·))).min?

/-- Unit `q` of engine `e` is done: its outputs are written and counted. What lies in a tier in TEST is not written (R241). -/
def State.endUnit (s : State) (e : Nat) (q : QUnit) (r : QRun) : State :=
  let all := q.pieces r
  let bad := all.any (fun w => w.2.2)
  let ps := all.filter (fun w => !s.extentAsleep r.part w.1 w.2.1.length)
  let s := ps.foldl (fun s w => s.notePairs r.part [(w.1, w.2.1.length)]) (s.scatterWrite r.part ps)
  let s := q.outs.foldl (fun s o => s.qTraffic r.part e (r.streams.getD (6 + o.1) {}) q.first q.n true) s
  let s := q.scales.foldl (fun s w =>
    let x : QStream := { base := (r.streams.getD (6 + w.1) {}).scaleAddr + q.unit, fmt := fmtInt8 }
    s.qTraffic r.part e x 0 1 true) s
  let s := s.updQe e (fun k => { k with
    work := none, units := sat64 (k.units + 1), poisonUnits := if bad then sat32 (k.poisonUnits + 1) else k.poisonUnits })
  let s := s.updRun q.cmd (fun r => { r with
    done := q.unit :: r.done, poisoned := r.poisoned + b2n bad, flags := r.flags ||| q.flags,
    first := match r.first, q.firstPoison with
      | some a, some b => some (min a b)
      | some a, none => some a
      | none, b => b })
  s.checkQRun q.cmd

/-- Engine `e` runs its next instruction, beginning a unit when none is in progress. A reset by the lengthsman is over. -/
def State.quayStep (s : State) (e : Nat) (ue : List Nat) : State :=
  let s := s.updQe e (fun k => { k with reset := false })
  let s := match (s.qe e).work with
    | some _ => s
    | none => s.beginUnit e ue
  match (s.qe e).work with
  | none => s
  | some q =>
    match listFind (fun r => r.cmd == q.cmd) s.quay.runs with
    | none => s.updQe e (fun k => { k with work := none })
    | some r =>
      let o := QOp.ofWord (r.words.getD q.pc 0xFF)
      if o.opc = 0xFF then s.endUnit e q r
      else s.updQe e (fun k => { k with
        work := some { (q.run r o) with pc := q.pc + 1 }, beats := sat64 (k.beats + o.unitBeats q.n) })

/-- The opcode that engine `e` runs next. -/
def State.quayNext (s : State) (e : Nat) : Option Nat :=
  let at_ := fun (r : QRun) (pc : Nat) => (QOp.ofWord (r.words.getD pc 0xFF)).opc
  if !bit s.pkg.qeOk e then none
  else match (s.qe e).work with
  | some q => (listFind (fun r => r.cmd == q.cmd) s.quay.runs).map (fun r => at_ r q.pc)
  | none => (s.nextUnit e).map (fun p => at_ p.1 0)

/-- Residue mismatches that a rerun of 4 beats clears (R276). -/
def State.quayRetry (s : State) (e n : Nat) : State :=
  s.updQe e (fun k => { k with checkRetry := sat32 (k.checkRetry + n), beats := sat64 (k.beats + 4 * n) })

/-- Runs engine `e` to the end of its unit, by fuel. -/
def State.quayUnit (e : Nat) (ue : List Nat) : Nat → State → State
  | 0, s => s
  | n + 1, s =>
    let s := s.quayStep e ue
    if (s.qe e).work.isSome then State.quayUnit e ue n s else s

/-- Engine `e` is retired (R277): its units, the one in progress included, pass to the next usable engine. -/
def State.retireQe (s : State) (e opc : Nat) : State :=
  let first := match (s.qe e).work, s.nextUnit e with
    | some q, _ => q.first
    | none, some (r, u) => (r.unitOf u).1
    | none, none => 0
  (s.bumpCapGen.dropQe e).record 0x0501 2 0xFF srcQuay e opc (lo32 first) 0 0 [0]

/-- QUAY_WORK_UNIT (R262): engine `engine` runs the program over one unit, or finishes the unit in progress. `retries`
are the residue mismatches that a rerun clears; `dead` is the opcode whose rerun mismatches again, which retires the engine
(R276). -/
def execQuayWorkUnit (engine : Nat) (ue : List Nat) (retries : Nat) (dead : Option Nat) (s : State) : Out :=
  onUnit (decide (engine < 28)) (.next (
    if ((s.qe engine).work.isNone && (s.nextUnit engine).isNone) || !bit s.pkg.qeOk engine then s
    else match dead with
      | some opc => (s.quayRetry engine (retries + 1)).retireQe engine opc
      | none => State.quayUnit engine ue 257 (s.quayRetry engine retries)))

/-- A quay instruction as a step of its own: engine `e` runs it when it is next. `chk` tells what its residue checks find, for
an instruction that makes an ALU result: the groups of 64 lanes that one rerun clears, and whether a rerun mismatches again
(R276). -/
def quayInstr (opc e : Nat) (ue : List Nat) (chk : Nat × Bool) (s : State) : Out :=
  onUnit (decide (e < 28)) (.next (
    if s.quayNext e ≠ some opc then s
    else if chk.2 then (s.quayRetry e (chk.1 + 1)).retireQe e opc
    else (s.quayStep e ue).quayRetry e chk.1))

/-- A lengthsman bite on engine `e` (R278): what the unit in progress would have written is written as poison, scale bytes
included, and the unit counts. DESIGN CHOICE: STATE reads RESET until the engine's next instruction; the spec bounds the reset by
50 µs and gives no other length. -/
def State.quayBite (s : State) (e : Nat) : State :=
  let s := s.updQe e (fun k => { k with bites := sat32 (k.bites + 1), reset := bit s.pkg.qeOk e })
  match (s.qe e).work with
  | none => s
  | some q =>
    match listFind (fun r => r.cmd == q.cmd) s.quay.runs with
    | none => s
    | some r =>
      let sts := (r.words.map QOp.ofWord).filter (fun o => o.opc == 0x02)
      s.endUnit e { q with
        outs := sts.map (fun o => (o.imm, List.replicate q.n (⟨0, true⟩ : Lane))),
        scales := (sts.filter (·.useScale)).map (fun o => (o.imm, 0xAD, true)),
        flags := q.flags ||| fPoisonOut } r

/-- A lengthsman bite on engine `e` while it adds a contribution of `n` bytes at `va` of a view: the accumulator elements of the
contribution are poisoned (R278). -/
def State.quayBiteAdd (s : State) (e part va n : Nat) : State :=
  let s := s.updQe e (fun k => { k with bites := sat32 (k.bites + 1), reset := bit s.pkg.qeOk e })
  (extent va n).foldl (fun s p => match s.translate part p.1 true with
    | .view w o => s.contribute w o (List.replicate p.2 0) true
    | _ => s) s

def execQuayLd (engine : Nat) (ue : List Nat) (s : State) : Out := quayInstr 0x01 engine ue (0, false) s
def execQuaySt (engine : Nat) (ue : List Nat) (s : State) : Out := quayInstr 0x02 engine ue (0, false) s
def execQuayLdp (engine : Nat) (ue : List Nat) (s : State) : Out := quayInstr 0x03 engine ue (0, false) s
def execQuayLdi (engine : Nat) (ue : List Nat) (s : State) : Out := quayInstr 0x04 engine ue (0, false) s
def execQuayRndu (engine : Nat) (ue : List Nat) (s : State) (retries : Nat := 0) (dead : Bool := false) : Out :=
  quayInstr 0x05 engine ue (retries, dead) s
def execQuayAdd (engine : Nat) (ue : List Nat) (s : State) (retries : Nat := 0) (dead : Bool := false) : Out :=
  quayInstr 0x10 engine ue (retries, dead) s
def execQuaySub (engine : Nat) (ue : List Nat) (s : State) (retries : Nat := 0) (dead : Bool := false) : Out :=
  quayInstr 0x11 engine ue (retries, dead) s
def execQuayMul (engine : Nat) (ue : List Nat) (s : State) (retries : Nat := 0) (dead : Bool := false) : Out :=
  quayInstr 0x12 engine ue (retries, dead) s
def execQuayFma (engine : Nat) (ue : List Nat) (s : State) (retries : Nat := 0) (dead : Bool := false) : Out :=
  quayInstr 0x13 engine ue (retries, dead) s
def execQuayMin (engine : Nat) (ue : List Nat) (s : State) (retries : Nat := 0) (dead : Bool := false) : Out :=
  quayInstr 0x14 engine ue (retries, dead) s
def execQuayMax (engine : Nat) (ue : List Nat) (s : State) (retries : Nat := 0) (dead : Bool := false) : Out :=
  quayInstr 0x15 engine ue (retries, dead) s
def execQuayAbs (engine : Nat) (ue : List Nat) (s : State) (retries : Nat := 0) (dead : Bool := false) : Out :=
  quayInstr 0x16 engine ue (retries, dead) s
def execQuayNeg (engine : Nat) (ue : List Nat) (s : State) (retries : Nat := 0) (dead : Bool := false) : Out :=
  quayInstr 0x17 engine ue (retries, dead) s
def execQuayCmplt (engine : Nat) (ue : List Nat) (s : State) (retries : Nat := 0) (dead : Bool := false) : Out :=
  quayInstr 0x18 engine ue (retries, dead) s
def execQuaySel (engine : Nat) (ue : List Nat) (s : State) (retries : Nat := 0) (dead : Bool := false) : Out :=
  quayInstr 0x19 engine ue (retries, dead) s
def execQuayCvt (engine : Nat) (ue : List Nat) (s : State) (retries : Nat := 0) (dead : Bool := false) : Out :=
  quayInstr 0x1A engine ue (retries, dead) s
def execQuaySqrt (engine : Nat) (ue : List Nat) (s : State) (retries : Nat := 0) (dead : Bool := false) : Out :=
  quayInstr 0x20 engine ue (retries, dead) s
def execQuayRcp (engine : Nat) (ue : List Nat) (s : State) (retries : Nat := 0) (dead : Bool := false) : Out :=
  quayInstr 0x21 engine ue (retries, dead) s
def execQuayBred (engine : Nat) (ue : List Nat) (s : State) (retries : Nat := 0) (dead : Bool := false) : Out :=
  quayInstr 0x30 engine ue (retries, dead) s
def execQuayScale (engine : Nat) (ue : List Nat) (s : State) (retries : Nat := 0) (dead : Bool := false) : Out :=
  quayInstr 0x31 engine ue (retries, dead) s
/-- END ends the program: the unit's outputs are written. -/
def execQuayEnd (engine : Nat) (ue : List Nat) (s : State) : Out := quayInstr 0xFF engine ue (0, false) s

/-! ### Windows (R268 to R273) -/

/-- Pairs of Table 8.9. -/
def windowPair (i a : Nat) : Bool := [(8, 8), (6, 8), (8, 9), (9, 9), (10, 10)].contains (i, a)

/-- A queued or running run of a partition uses an extent. -/
def State.runUses (s : State) (part va n : Nat) : Bool :=
  s.quay.runs.any (fun r => r.part == part &&
    (qExtents r.streams r.count (if r.block then r.count / 2 ^ r.blog else 0)).any (fun e => rangesMeet va n e.2.1 e.2.2))

/-- An extent meets a mapped page. -/
def State.meetsPage (s : State) (part va n : Nat) : Bool :=
  (List.range ((va % 2 ^ 21 + n + 2 ^ 21 - 1) / 2 ^ 21)).any (fun i =>
    (s.mem.leafOf part (va / 2 ^ 21 * 2 ^ 21 + i * 2 ^ 21)).isSome)

/-- QUAY_ACC_OPEN (R268, R269, R273). DEDUCED: CLEAR zeroes whole lines, so what lies beside the end of the accumulator in its last
line is zeroed with it; an accumulator on another view is no tier page and gives NOT_OWNER as one that does not translate. -/
def execQuayAccOpen (path : Path) (pk : Packet) (s : State) : Out :=
  beginOn path pk (ofOpField 0x803 0x10 1 0 1)
    { res := fun s => if pk.b 0x10 8 then s.extentRes (s.pathPart path) (s.pathDie path) (pk.d 0x20) 1 else [] } s (fun f s =>
    let part := s.actsFor f
    let w := pk.f 0x10 6 2
    let x : Window := ⟨part, pk.d 0x18, pk.d 0x20, pk.d 0x28, pk.f 0x10 15 12, pk.f 0x10 19 16⟩
    let vn := x.count * (elemBits x.inFmt / 8)
    let an := x.count * (elemBits x.accFmt / 8)
    let old := s.quay.windows.get none w
    if old.any (fun o => o.part != part) then s.failWith f stNotOwner
    else if old.isSome then s.quayRefuse f 9 0xFFFFFFFF
    else if !windowPair x.inFmt x.accFmt then s.quayRefuse f 0x0B 0xFFFFFFFF
    else if x.count = 0 ∨ x.count > 2 ^ 32 ∨ x.view % 64 ≠ 0 ∨ x.acc % 64 ≠ 0 ∨ x.view + vn > 0xFF0000000000 ∨
        x.acc + an > 0xFF0000000000 then s.quayRefuse f 0x0A 0xFFFFFFFF
    else if s.meetsPage part x.view vn || s.meetsView part x.view vn || rangesMeet x.view vn x.acc an then s.quayRefuse f 5 0xFFFFFFFF
    else if s.runUses part x.acc an || s.runUses part x.view vn then s.quayRefuse f 9 0xFFFFFFFF
    else
      let cs := s.writeCauses part x.acc an
      if s.extentAsleep part x.acc an then s.failWith f stDomainAsleep
      else if s.meetsView part x.acc an || cs.any (· != cReadOnly) then (s.notePairs part [(x.acc, an)]).failWith f stNotOwner
      else if !cs.isEmpty then s.failWith f stReadOnly
      else
        let whole := ceilDiv an 64 * 64
        let s := if pk.b 0x10 8 then (s.chargeExtent part (s.pathDie path) x.acc whole true).writeVA part x.acc (List.replicate whole 0)
          else s
        ({ s with quay := { s.quay with windows := s.quay.windows.put none w (some x) } } : State).done f)

/-- QUAY_ACC_CLOSE (R268, R273). -/
def execQuayAccClose (path : Path) (pk : Packet) (s : State) : Out :=
  beginOn path pk (ofOpField 0x803 0x10 1 0 2) {} s (fun f s =>
    let w := pk.f 0x10 6 2
    match s.quay.windows.get none w with
    | none => s.quayRefuse f 8 0xFFFFFFFF
    | some x =>
      if x.part ≠ s.actsFor f then s.failWith f stNotOwner
      else ({ s with quay := { s.quay with windows := s.quay.windows.put none w none } } : State).done f)

/-- Closes every window of a partition (R273). -/
def State.closeWindows (s : State) (part : Nat) : State :=
  { s with quay := { s.quay with windows := s.quay.windows.keep (fun _ w => !(w.any (fun x => x.part == part))) } }

/-- Frees every program slot of a partition (R257). -/
def State.freeQuaySlots (s : State) (part : Nat) : State :=
  { s with quay := { s.quay with slots := s.quay.slots.keep (fun _ q => !(q.any (fun x => x.part == part))) } }

/-- WINDOW_CONTRIBUTION (R270 to R272): a write of partition `part` to a window's view. `ue` lists uncorrectable
accumulator lines. -/
def execWindowContribution (part va : Nat) (data : List Byte) (poison : Bool) (ue : List Nat) (s : State) : Out :=
  .next (match s.translate part va true with
    | .view w o =>
      match s.quay.windows.get none w with
      | some x =>
        let wi := elemBits x.inFmt / 8
        let wa := elemBits x.accFmt / 8
        if data.isEmpty || (extent va data.length).any (fun p => (s.pieceFault part p.1 p.2 true).isSome) then
          s.answer 6 cTranslation false []
        else
          let n := data.length / wi
          let s' := s.contribute w o data poison ue
          let s' := (s.ueLines ue part (x.acc + o / wi * wa) (n * wa)).foldl (fun t l => t.lineUe l) s'
          s'.answer 3 0 false []
      | none => s
    | _ => s)

end Sys2Proof.Machine
end

