-- ==== Sys2Proof/Machine/LinkOps.lean ====
section
/-! DEFINITION. The shared operations of the canal links (10): wire forms, routing, sending packets and towpath
messages, retrains and the re-send rule. -/

namespace Sys2Proof.Machine

/-! ### Check codes and wire forms -/

/-- One bit-serial step of the unreflected CRC-16 of Table 10.3. -/
def crc16Bit (c : Nat) : Nat := if c ≥ 2 ^ 15 then (c * 2 % 2 ^ 16) ^^^ 0x1021 else c * 2

/-- HCRC over bytes: polynomial 0x1021, initial value 0xFFFF (R308). -/
def crc16 (bs : List Byte) : Nat :=
  bs.foldl (fun c b =>
    let x := c ^^^ (b.toNat * 256)
    crc16Bit (crc16Bit (crc16Bit (crc16Bit (crc16Bit (crc16Bit (crc16Bit (crc16Bit x)))))))) 0xFFFF

/-- CHK of a flit header over bits 31:8, most significant byte first (R306). -/
def flitChk (w : Nat) : Nat :=
  pec8 [BitVec.ofNat 8 (bits w 31 24), BitVec.ofNat 8 (bits w 23 16), BitVec.ofNat 8 (bits w 15 8)]

/-- The first 28 bytes of a canal packet's header. -/
def CPacket.head28 (p : CPacket) : List Byte :=
  toBytes (p.payload.length * 2 ^ 19 + b2n p.poison * 2 ^ 18 + b2n p.dl * 2 ^ 17 + b2n p.resent * 2 ^ 16 + p.vc * 2 ^ 14 +
    p.ovc * 2 ^ 12 + p.hops * 64 + p.arb * 16 + p.level) 4 ++ toBytes p.lseq 4 ++
  toBytes (p.kind * 2 ^ 24 + p.tclass * 2 ^ 21 + p.srcPkg) 4 ++ toBytes (p.dstPart * 2 ^ 24 + p.dstPkg) 4 ++
  toBytes p.object 8 ++ toBytes p.tag 4

/-- The 32-byte header with its HCRC. -/
def CPacket.header (p : CPacket) : List Byte := p.head28 ++ toBytes (crc16 p.head28 * 2 ^ 16) 4

/-- The wire form: header, payload, CRC-32 (R308). -/
def CPacket.wire (p : CPacket) : List Byte := p.header ++ p.payload ++ toBytes (crc32 (p.header ++ p.payload)) 4

/-- Reads a header and the payload after it. -/
def CPacket.ofBytes (b : List Byte) : CPacket :=
  let w := fun o => Sys2Proof.Machine.ofBytes ((b.drop o).take 4)
  { poison := bit (w 0) 18, dl := bit (w 0) 17, resent := bit (w 0) 16, vc := bits (w 0) 15 14, ovc := bits (w 0) 13 12,
    hops := bits (w 0) 11 6, arb := bits (w 0) 5 4, level := bits (w 0) 3 0, lseq := w 4, kind := bits (w 8) 31 24,
    tclass := bits (w 8) 23 21, srcPkg := bits (w 8) 19 0, dstPart := bits (w 12) 31 24, dstPkg := bits (w 12) 19 0,
    object := w 16 + 2 ^ 32 * w 20, tag := w 24, payload := (b.drop 32).take (bits (w 0) 31 19) }

/-- HCRC of a received header holds (R310). -/
def hcrcOk (b : List Byte) : Bool :=
  decide (36 ≤ b.length) && ofBytes ((b.drop 30).take 2) == crc16 (b.take 28)

/-- The stored CRC-32 of a received packet, and the one computed. -/
def packetCrc (b : List Byte) : Nat × Nat := (ofBytes (b.drop (b.length - 4)), crc32 (b.take (b.length - 4)))

/-- A towpath message in its 80-byte slot (Table 10.9). -/
def TMsg.slot (m : TMsg) : List Byte :=
  toBytes (m.ttype * 2 ^ 24 + 4 * m.words.length * 2 ^ 16 + m.hopsLeft * 2 ^ 12 + m.pri * 256 + m.level) 4 ++
  toBytes m.src 4 ++ toBytes m.dst 4 ++ toBytes (m.msgId * 2 ^ 16) 4 ++
  toBytes (ofBytes (wordsToBytes m.words)) 64

/-- Reads a slot; an empty slot holds no message. -/
def TMsg.ofSlot (b : List Byte) : Option TMsg :=
  let w := fun o => ofBytes ((b.drop o).take 4)
  if bits (w 0) 31 24 = 0 then none
  else some ⟨bits (w 0) 31 24, bits (w 0) 8 8, bits (w 0) 15 12, bits (w 0) 3 0, bits (w 4) 19 0, bits (w 8) 19 0,
    bits (w 12) 31 16, (bytesToWords ((b.drop 16).take (bits (w 0) 23 16)))⟩

/-- DST_PKG of a LINK_LOCAL message. -/
def linkLocal : Nat := 0xFFFFF

/-! ### Ports -/

def State.port (s : State) (p : Nat) : Port := s.link.ports.get {} p
def State.updPort (s : State) (p : Nat) (f : Port → Port) : State :=
  { s with link := { s.link with ports := s.link.ports.upd {} p f } }

/-- The class of a packet's credits (R314): VC0 to VC2, VC3 by DL. -/
def creditClass (p : CPacket) : Nat := if p.vc < 3 then p.vc else if p.dl then 4 else 3
/-- Credits for a packet's whole wire size (R315). -/
def creditCost (p : CPacket) : Nat := ceilDiv (36 + p.payload.length) 256
/-- Adds to entry `i` of a list of six. -/
def addAt (l : List Nat) (i n : Nat) : List Nat := (List.range 6).map (fun j => l.getD j 0 + (if j = i then n else 0))
def subAt (l : List Nat) (i n : Nat) : List Nat := (List.range 6).map (fun j => l.getD j 0 - (if j = i then n else 0))

/-- A port that is UP or asleep takes new items (R322, R348). -/
def Port.open_ (p : Port) : Bool := p.state == .up || p.state == .sleep

/-! ### Routing (R335, R336) -/

/-- The routing chamber of a hub die. -/
def State.routeChamber (s : State) (hub : Nat) : RouteChamber := if hub = 0 then s.link.hub0 else s.link.hub1
def RouteChamber.bank (c : RouteChamber) : Tab (Nat × Nat) := if c.active = 0 then c.bank0 else c.bank1

/-- An invalid entry with its complement. -/
def noRoute : Nat × Nat := (0, 2 ^ 32 - 1)

/-- What a lookup finds. -/
inductive Route where
  | here
  /-- A port, with DL after it. -/
  | out (port : Nat) (dl : Bool)
  | none
  /-- No port but one that is UP and not granted (R338). -/
  | ungranted
  | pairFault
  deriving DecidableEq, Repr

/-- The lookup of R336 at a hub die. `usable` says which ports the item may use, `granted` which its partition may. -/
def State.lookup (s : State) (hub dst : Nat) (dl : Bool) (usable granted : Nat → Bool) : Route :=
  if dst = s.pkg.packageId then .here
  else
    let e := (s.routeChamber hub).bank.get noRoute dst
    if !pair32 e.1 e.2 then .pairFault
    else if !bit e.1 31 then .none
    else if bit e.1 30 then .here
    else
      let p := bits e.1 14 10
      let a := bits e.1 9 5
      let altOk := bit e.1 27 && usable a
      if usable p && granted p then .out p (dl || bit e.1 29)
      else if altOk && granted a then .out a (dl || bit e.1 28)
      else if usable p || altOk then .ungranted
      else .none

/-- Writes ROUTE_PAIR_FAULT and rebuilds the chamber's entry from firmware's copy (R335). -/
def State.routePairFault (s : State) (hub dst : Nat) : State :=
  let fix := fun (c : RouteChamber) =>
    let e := (c.copy.get 0 dst, compl32 (c.copy.get 0 dst))
    if c.active = 0 then { c with bank0 := c.bank0.put noRoute dst e } else { c with bank1 := c.bank1.put noRoute dst e }
  let s := if hub = 0 then { s with link := { s.link with hub0 := fix s.link.hub0 } }
    else { s with link := { s.link with hub1 := fix s.link.hub1 } }
  s.record 0x060C 2 0xFF srcDie (6 + hub) dst hub 0 0 [0]

/-- Towpath messages may use every open port. -/
def State.tpUsable (s : State) (p : Nat) : Bool := decide (p < 24) && (s.port p).open_
/-- Data packets may use an open port whose data channels are open. -/
def State.dataUsable (s : State) (p : Nat) : Bool := decide (p < 24) && (s.port p).open_ && (s.port p).dataOpen
/-- A partition's grant on a port; partition 0 holds one on every port. -/
def State.granted (s : State) (part p : Nat) : Bool := part == 0 || bit (s.part part).portGrant p

/-! ### Towpath messages (R331 to R334) -/

/-- Queues a message: behind those of its PRI, before those of the next. -/
def Port.queueMsg (p : Port) (m : TMsg) : Port :=
  { p with tpQueue := p.tpQueue.filter (fun x => decide (x.pri ≤ m.pri)) ++ [m] ++
      p.tpQueue.filter (fun x => decide (m.pri < x.pri)) }

/-- Puts a message ahead of the waiting messages of its PRI. -/
def Port.queueFirst (p : Port) (m : TMsg) : Port :=
  { p with tpQueue := p.tpQueue.filter (fun x => decide (x.pri < m.pri)) ++ [m] ++
      p.tpQueue.filter (fun x => decide (m.pri ≤ x.pri)) }

/-- Sends a LINK_LOCAL message on a port. -/
def State.sendLocal (s : State) (port ttype pri : Nat) (words : List Nat) : State :=
  let m : TMsg := ⟨ttype, pri, 1, s.pkg.runLevel, s.pkg.packageId, linkLocal, s.link.msgId, words⟩
  ({ s with link := { s.link with msgId := (s.link.msgId + 1) % 2 ^ 16 } } : State).updPort port (fun p => p.queueMsg m)

/-- Queues a routed message on port `p`. A sleeping port wakes for it. -/
def State.queueOn (s : State) (p : Nat) (m : TMsg) : State :=
  s.updPort p (fun q => { q.queueMsg m with lastActive := s.clk })

/-- Sends a routed message from this package: to itself at once, or by R336. A message with no route is not sent. -/
def State.sendMsg (s : State) (ttype pri dst : Nat) (words : List Nat) : State :=
  let m : TMsg := ⟨ttype, pri, 15, s.pkg.runLevel, s.pkg.packageId, dst, s.link.msgId, words⟩
  let s := { s with link := { s.link with msgId := (s.link.msgId + 1) % 2 ^ 16 } }
  match s.lookup 0 dst false s.tpUsable (fun _ => true) with
  | .here => { s with link := { s.link with msgs := s.link.msgs ++ [(24, m)] } }
  | .out p _ => s.queueOn p m
  | .pairFault => s.routePairFault 0 dst
  | _ => s

/-- A route to a package exists for the towpath. -/
def State.reaches (s : State) (dst : Nat) : Bool :=
  match s.lookup 0 dst false s.tpUsable (fun _ => true) with
  | .here | .out _ _ => true
  | _ => false

/-! ### Canal packets (R311, R336, R338) -/

/-- How sending a packet ends at its origin. -/
inductive Sent where
  | ok | noRoute | notGranted
  deriving DecidableEq, Repr

/-- OVC of a KIND (Table 10.4); none for a reserved KIND. -/
def kindOvc : Nat → Option Nat
  | 0x01 => some 0 | 0x10 => some 1 | 0x20 => some 2 | 0x21 => some 2 | 0x22 => some 2 | 0x23 => some 2 | 0x30 => some 2
  | _ => none

/-- A packet of this package joins the packets of a port. It waits at its source while the canal bucket of its partition lets none
proceed, behind those of its partition that wait already (R514, R515); `since` is when it was sent. -/
def State.enqueue (s : State) (port part since : Nat) (k : CPacket) : State :=
  if (s.port port).txHeld.any (·.1 == part) || !s.mayProceed part 4 then
    s.updPort port (fun x => { x with txHeld := x.txHeld ++ [(part, since, k)], lastActive := s.clk })
  else
    let s := if since = s.clk then s
      else s.updMeter part (fun m => { m with b4 := { m.b4 with waitNs := sat64 (m.b4.waitNs + (s.clk - since)) } })
    let s := s.charge part 4 (36 + k.payload.length)
    s.updPort port (fun x => { x with txQueue := x.txQueue ++ [k], lastActive := s.clk })

/-- The packets that wait for their buckets try again. -/
def State.releaseHeld (s : State) (port : Nat) : State :=
  let hs := (s.port port).txHeld
  if hs.isEmpty then s
  else hs.foldl (fun s h => s.enqueue port h.1 h.2.1 h.2.2) (s.updPort port (fun x => { x with txHeld := [] }))

/-- Sends a packet from this package for a partition (R311, R336): on its OVC; charged to the canal (R514). A packet
to this package itself is delivered at once. -/
def State.sendPacket (s : State) (part kind tclass dstPkg dstPart object tag : Nat) (payload : List Byte)
    (poison : Bool := false) : State × Sent :=
  let ovc := (kindOvc kind).getD 0
  let p : CPacket := {
    poison := poison, vc := ovc, ovc := ovc, arb := if part = 0 then s.fab.fwClass else (s.part part).arbClass,
    level := s.pkg.runLevel, kind := kind, tclass := tclass, srcPkg := s.pkg.packageId, dstPart := dstPart,
    dstPkg := dstPkg, object := object, tag := tag, payload := payload }
  match s.lookup 0 dstPkg false s.dataUsable (s.granted part) with
  | .here => ({ s with link := { s.link with inbox := s.link.inbox ++ [p] } }, .ok)
  | .out q dl =>
    (s.enqueue q part s.clk { p with dl := dl }, .ok)
  | .pairFault => (s.routePairFault 0 dstPkg, .noRoute)
  | .ungranted => (s, .notGranted)
  | .none => (s, .noRoute)

/-- The status of Table 16.10 for a packet that could not be sent (R338). -/
def Sent.status : Sent → Nat
  | .ok => stDone
  | .noRoute => stPeerLost
  | .notGranted => stNotOwner

/-- A delivered packet whose DST_PART is not the owner of its object is discarded with its record (R313). -/
def State.partDiscard (s : State) (k : CPacket) : State :=
  s.record 0x060A 2 0xFF srcPackage 0 k.dstPart k.kind k.srcPkg 0 [0]

/-- Discards an item in the re-send rule: counted on the port, and recorded once per episode. -/
def State.dropItem (s : State) (port dst : Nat) : State :=
  let logged := (s.port port).dropLogged
  let s := s.updPort port (fun p => { p with routeDrops := sat32 (p.routeDrops + 1), dropLogged := true })
  if logged then s else s.record 0x060B 1 0xFF srcPort port dst 1 0 0

/-- Credits of a port's receive buffer are free again (R315): the next control flit returns them. -/
def State.freeBuffer (s : State) (port cls n : Nat) : State :=
  s.updPort port (fun p => { p with rxFreed := addAt p.rxFreed cls n, ctlDue := true })

/-- The bytes that a port has begun and not put into flits are dropped: its transit packets stand in the replay buffer, and have
left the buffers of their ingress ports. -/
def State.dropBytes (s : State) (port : Nat) : State :=
  let owed := (s.port port).txOwed
  let s := s.updPort port (fun p => { p with txBytes := [], txFirst := none, txOwed := [] })
  owed.foldl (fun s o => s.freeBuffer o.2.1 o.2.2.1 o.2.2.2) s

/-- A transit packet is discarded: it leaves its ingress buffer. -/
def State.freePacket (s : State) (k : CPacket) : State :=
  match k.ingress with
  | some (i, c) => s.freeBuffer i c (creditCost k)
  | none => s

/-- The packets that wait at a port that is not UP take the route now in force (R322): only the replay buffer waits for a retrain.
With no route a packet stays, or is discarded when `drop` is set. DEDUCED: the grant that its origin was checked for is not checked
again. -/
def State.moveQueue (s : State) (port : Nat) (drop : Bool) : State :=
  let ks := (s.port port).txQueue
  let hs := (s.port port).txHeld
  let s := s.updPort port (fun p => { p with txQueue := [], txHeld := [] })
  let s := hs.foldl (fun s h =>
    let stay := fun (s : State) => if drop then s.dropItem port h.2.2.dstPkg
      else s.updPort port (fun p => { p with txHeld := p.txHeld ++ [h] })
    match s.lookup (port / 12) h.2.2.dstPkg h.2.2.dl s.dataUsable (fun _ => true) with
    | .out q dl => if q = port then stay s else s.enqueue q h.1 h.2.1 { h.2.2 with dl := dl }
    | _ => stay s) s
  ks.foldl (fun s k =>
    let stay := fun (s : State) => if drop then (s.freePacket k).dropItem port k.dstPkg
      else s.updPort port (fun p => { p with txQueue := p.txQueue ++ [k] })
    match s.lookup (port / 12) k.dstPkg k.dl s.dataUsable (fun _ => true) with
    | .out q dl => if q = port then stay s
      else s.updPort q (fun p => { p with txQueue := p.txQueue ++ [{ k with dl := dl }], lastActive := s.clk })
    | _ => stay s) s

/-- The re-send rule for one packet of port `port`: on the route now in force, with RESENT set. -/
def State.resendPacket (s : State) (port : Nat) (p : CPacket) : State :=
  match s.lookup (port / 12) p.dstPkg p.dl s.dataUsable (fun _ => true) with
  | .out q dl => s.updPort q (fun x => { x with txQueue := x.txQueue ++ [{ p with resent := true, dl := dl, ingress := none }] })
  | _ => s.dropItem port p.dstPkg

/-- The re-send rule for one towpath message; LINK_LOCAL messages are regenerated by their senders. -/
def State.resendMsg (s : State) (port : Nat) (m : TMsg) : State :=
  if m.dst = linkLocal then s
  else match s.lookup (port / 12) m.dst false s.tpUsable (fun _ => true) with
    | .out q _ => s.queueOn q m
    | _ => s.dropItem port m.dst

/-- Releases both replay buffers of a port under the re-send rule (R323); what waits behind them goes the same way. -/
def State.releaseBuffers (s : State) (port : Nat) : State :=
  let p := s.port port
  let s := (s.dropBytes port).updPort port (fun x => { x with
    replay := [], resendFrom := none, tpReplay := [], tpResendFrom := none, released := true })
  let s := p.replay.foldl (fun s k => s.resendPacket port k) s
  let s := (p.tpReplay.flatMap (·.2)).foldl (fun s m => s.resendMsg port m) s
  s.moveQueue port (!(s.port port).state.trains)

/-- R334: before a retrain, waiting messages move to other ports; LINK_LOCAL ones are discarded. -/
def State.moveMsgs (s : State) (port : Nat) : State :=
  let ms := ((s.port port).tpQueue.filter (fun m => m.dst != linkLocal))
  let usable := fun q => q != port && decide (q < 24) && (s.port q).state == .up
  let route := fun (m : TMsg) => match s.lookup (port / 12) m.dst false usable (fun _ => true) with
    | .out q _ => some q
    | _ => none
  let s' := s.updPort port (fun p => { p with
    tpQueue := ms.filter (fun m => (route m).isNone),
    tpRerouted := sat32 (p.tpRerouted + (ms.filter (fun m => (route m).isSome)).length) })
  ms.reverse.foldl (fun t m => match route m with
    | some q => t.updPort q (fun p => p.queueFirst m)
    | none => t) s'

/-- A port goes DOWN (R324, R345); what it holds is sent again elsewhere. -/
def State.portDown (s : State) (port : Nat) : State :=
  s.updPort port (fun p => { p with state := .down, dataOpen := false, waking := false, sleepReq := false, sleepAck := false })

/-- A retrain attempt begins (Table 10.6 step 1), with its record. -/
def State.attempt (s : State) (port cause : Nat) (noFail : Bool) : State :=
  let s := (s.moveMsgs port).updPort port (fun p => { p with
    state := .retrain, attemptAt := s.clk, retrainCause := cause, retrains := sat32 (p.retrains + 1), noFail := noFail,
    waking := false, sleepReq := false, sleepAck := false, lanesLock := 0, overload := 0, gap := false, discarding := false, ctlDue := false,
    retrainTimes := s.clk :: p.retrainTimes.filter (fun t => decide (s.clk < t + 1000000000)), parkAt := none })
  let s := s.moveQueue port false
  if noFail then s else s.record 0x0601 1 0xFF srcPort port cause ((s.port port).retrainFails + 1) 0 0

/-- Starts a retrain (R321); 16 retrains within 1 s put the port DOWN (R324). -/
def State.startRetrain (s : State) (port cause : Nat) (noFail : Bool := false) : State :=
  let s := s.attempt port cause noFail
  let p := s.port port
  if p.retrainTimes.length < 16 then s
  else
    let s := (s.portDown port).releaseBuffers port
    s.record 0x0603 2 0xFF srcPort port p.retrainTimes.length ((p.partner.map (·.pkg)).getD 0) 0 0 [0]

/-- Partitions with a grant on a port. -/
def State.grantees (s : State) (port : Nat) : List Nat :=
  (s.ten.parts.filter (fun e => e.1 != 0 && e.2.state != .free && bit e.2.portGrant port)).map (·.1)

/-- A port declares its partner lost (R345), without what pipelines and collectives make of it. -/
def State.declareLost (s : State) (port cause : Nat) : State :=
  let p := s.port port
  let pkg := (p.partner.map (·.pkg)).getD 0
  let s := ((s.updPort port (fun x => { x with peerLost := true })).portDown port).releaseBuffers port
  let s := s.record 0x0606 2 0xFF srcPort port cause pkg ((p.partner.map (·.port)).getD 0) 0 (0 :: s.grantees port)
  match s.own.owner with
  | some (.fm k) => s.sendMsg 0x30 0 k [port, pkg]
  | _ => s

end Sys2Proof.Machine
end

