-- ==== Sys2Proof/Machine/CollOps.lean ====
section
/-! DEFINITION. The shared operations of collectives (12): groups, control messages, what blocks hold, streams and
credits, how a collective goes on and ends, lost ranks and rejoins. -/

namespace Sys2Proof.Machine

/-! ### Groups and control messages (R409, R412, R419) -/

def State.group (s : State) (n : Nat) : Group := s.coll.groups.get {} n
def State.updGroup (s : State) (n : Nat) (f : Group → Group) : State :=
  { s with coll := { s.coll with groups := s.coll.groups.upd {} n f } }
def Group.updColl (g : Group) (seq : Nat) (f : Coll → Coll) : Group :=
  { g with colls := updFirst (fun c => c.seq == seq) f g.colls }
def State.updColl (s : State) (n seq : Nat) (f : Coll → Coll) : State := s.updGroup n (fun g => g.updColl seq f)
def State.collOf (s : State) (n seq : Nat) : Option Coll := listFind (fun c => c.seq == seq) (s.group n).colls

/-- R, and a rank's package and partition. -/
def Group.size (g : Group) : Nat := g.members.length
def Group.pkgOf (g : Group) (r : Nat) : Nat := (g.members.getD r (0, 0)).2
def Group.partOf (g : Group) (r : Nat) : Nat := (g.members.getD r (0, 0)).1
def Group.others (g : Group) : List Nat := (List.range g.size).filter (· != g.rank)
/-- The ring neighbours. -/
def Group.ring (g : Group) : List Nat := [(g.rank + 1) % g.size, (g.rank + g.size - 1) % g.size].eraseDups.filter (· != g.rank)

/-- The bound group of a GROUP_ID. -/
def State.groupOf (s : State) (id : Nat) : Option Nat :=
  (listFind (fun e => e.2.bound && e.2.id == id) s.coll.groups).map (·.1)

/-- Sends a COLL_CTL message to a rank. -/
def State.collCtl (s : State) (n rank csub seq value value2 : Nat) : State :=
  let g := s.group n
  s.sendMsg 0x21 1 (g.pkgOf rank) [csub * 2 ^ 24 + g.rank, g.id, seq, value, value2]

/-- Sends one to every other member. -/
def State.collAll (s : State) (n csub seq value value2 : Nat) : State :=
  (s.group n).others.foldl (fun s r => s.collCtl n r csub seq value value2) s

/-- Takes the first delivered COLL_CTL message of a subtype. -/
def State.takeCtl (s : State) (csub : Nat) : Option (TMsg × State) :=
  (listFind (fun e => e.2.ttype == 0x21 && bits (e.2.words.getD 0 0) 31 24 == csub) s.link.msgs).map (fun e =>
    (e.2, { s with link := { s.link with msgs := delFirst (fun x => x == e) s.link.msgs } }))

/-- Takes one and looks its group up: slot, SRC_RANK, COLL_SEQ, VALUE, VALUE2. -/
def State.onCtl (s : State) (csub : Nat) (body : Nat → Nat → TMsg → State → State) : Out :=
  .next (match s.takeCtl csub with
    | none => s
    | some (m, s) => match s.groupOf (m.words.getD 1 0) with
      | some n => body n (bits (m.words.getD 0 0) 13 0) m s
      | none => s)

/-! ### Parameters (Tables 12.4, 12.7, 12.8) -/

def Coll.count (c : Coll) : Nat := c.pk.d 0x28
def Coll.inF (c : Coll) : Nat := c.pk.f 0x10 23 20
def Coll.outF (c : Coll) : Nat := c.pk.f 0x10 19 16
def Coll.blog (c : Coll) : Nat := c.pk.f 0x10 15 12
def Coll.ordered (c : Coll) : Bool := c.pk.b 0x10 27
def Coll.g8 (c : Coll) : Bool := c.pk.b 0x10 26
def Coll.src (c : Coll) : Nat := c.pk.d 0x18
def Coll.dst (c : Coll) : Nat := c.pk.d 0x20
def Coll.row (c : Coll) : Nat := c.pk.w 0x14
def Coll.experts (c : Coll) : Nat := c.pk.f 0x10 21 16 + 1
def Coll.chunk (c : Coll) : Nat := 2 ^ c.pk.f 0x10 20 16
def Coll.chunks (c : Coll) : Nat := c.pk.d 0x20 / c.chunk
def Coll.reduces (c : Coll) : Bool := c.op == .allreduce || c.op == .reduceScatter
def Coll.rowsOp (c : Coll) : Bool := c.op == .dispatch || c.op == .combine

/-- PARAM_DIGEST (R414): CRC-32 over the opcode and the fields marked "agree", as little-endian words. -/
def Coll.paramDigest (c : Coll) : Nat :=
  let ws := match c.op with
    | .dispatch | .combine => [c.opcode, c.pk.w 0x10 / 2 ^ 6 * 2 ^ 6, c.pk.w 0x14]
    | .permute => [c.opcode, c.pk.w 0x10 / 2 ^ 6 * 2 ^ 6, c.pk.w 0x20, c.pk.w 0x24] ++ c.perm
    | _ => [c.opcode, c.pk.w 0x10 / 2 ^ 6 * 2 ^ 6, c.pk.w 0x28, c.pk.w 0x2C]
  crc32 (wordsToBytes ws)

/-! ### Blocks and what they hold (R421 to R424) -/

def unitsOf (n : Nat) : Nat := ceilDiv n 4096
/-- Units that rank `q` of `r` owns: first, and one past the last. -/
def ownedBy (n q r : Nat) : Nat × Nat := (q * unitsOf n / r, (q + 1) * unitsOf n / r)
def Coll.owned (c : Coll) (g : Group) (q : Nat) : Nat × Nat := ownedBy c.count q g.size
/-- Elements of unit `b`. -/
def Coll.elemsOf (c : Coll) (b : Nat) : Nat := min 4096 (c.count - 4096 * b)
/-- Bytes of `n` elements of a format. -/
def fmtBytes (f n : Nat) : Nat := ceilDiv (n * elemBits f) 8
/-- Scale bytes of `n` elements. -/
def Coll.scalesOf (c : Coll) (n : Nat) : Nat := if c.blog = 0 then 0 else ceilDiv n (2 ^ c.blog)

/-- Bytes that `n` elements of one unit take in a phase's stream. -/
def Coll.unitWire (c : Coll) (phase n : Nat) : Nat :=
  match phase with
  | 1 => if c.g8 then 4160 else if c.ordered then 8 * n else 16 * n
  | 2 => if c.g8 then 4160 else fmtBytes c.outF n
  | _ => fmtBytes c.inF n + c.scalesOf n

/-- Bytes of the units `lo` to `hi` in a phase's stream. -/
def Coll.spanWire (c : Coll) (phase lo hi : Nat) : Nat :=
  if hi ≤ lo then 0 else (hi - 1 - lo) * c.unitWire phase 4096 + c.unitWire phase (c.elemsOf (hi - 1))

/-- Entries of the group's G8 table: the default table is E4M3 with codes 0x7F and 0xFF as zero (R301). -/
def State.g8Table (s : State) (g : Group) : List Num :=
  if g.tableVa = 0 then (List.range 256).map (fun c => if c % 128 = 127 then .zero false else fmtE4M3.decode c)
  else (bytesToWords (s.readVA g.part g.tableVa 1024)).map fmtFP32.decode

/-- A G8 block of FP32 codes (R300, R301). -/
def g8Encode (table : List Num) (gen : Nat) (xs : List Nat) : List Byte :=
  let xs := xs ++ List.replicate (4096 - xs.length) 0
  let vs := xs.map fmtFP32.decode
  let head := fun (nf : Bool) (scale : Nat) => toBytes (b2n nf * 256 + scale) 4 ++ toBytes gen 4 ++ List.replicate 56 0
  if vs.any (fun v => !v.isFinite) then head true 0xFF ++ List.replicate 4096 0
  else
    let amax := amaxOf vs
    let e : Int := if amax.isZero then 0 else rowExp amax (amaxOf table)
    head false (unsigned 8 (e + 127)) ++ vs.map (fun v => BitVec.ofNat 8 (nearest table (v.scale (-e))))

/-- The FP32 codes of a G8 block. -/
def g8Decode (table : List Num) (b : List Byte) : List Nat :=
  let w := ofBytes (b.take 4)
  if bit w 8 then List.replicate 4096 fmtFP32.canon
  else
    let e : Int := (bits w 7 0 : Int) - 127
    (b.drop 64).map (fun c => fmtFP32.rne ((table.getD c.toNat (.zero false)).scale e))

/-- An element entered into LA128 under EXACT, and whether it is out of range (R422). -/
def exactEntry (f code : Nat) : La × Bool :=
  if f = fmtLa128 then (La.decode code, false)
  else if f = fmtInt32 then (.fin (signed 32 code * 2 ^ 32), false)
  else match decodeElem f code with
    | .nan => (.nan, false)
    | .inf n => (if n then .negInf else .posInf, false)
    | .zero _ => (.fin 0, false)
    | .fin n m e =>
      let (t, r, den) := truncQ m 1 (e + 32)
      let a := t + b2n (roundUp .rne t r den false)
      if a < 2 ^ 123 then (.fin (if n then -(a : Int) else a), false) else (.nan, true)

/-- An element taken to W58 as a leaf under ORDERED (R423). -/
def orderedLeaf (f code : Nat) : Nat :=
  if f = 9 then code % 2 ^ 58
  else if f = fmtLa128 then fmtW58.rne (La.decode code).value
  else fmtW58.rne (decodeElem f code)

/-- One addition of a tree node, element by element, and what is kept of it under G8. -/
def addUnits (e : List Nat → List Nat) (a b : List Nat) : List Nat :=
  e ((a.zip b).map (fun p => addF fmtW58 p.1 p.2))

/-- One level of tree58 (R423). -/
def tree58Level (e : List Nat → List Nat) : List (List Nat) → List (List Nat)
  | a :: b :: t => addUnits e a b :: tree58Level e t
  | l => l

/-- tree58 over 2^k leaves. -/
def tree58 (e : List Nat → List Nat) : Nat → List (List Nat) → List Nat
  | 0, l => l.headD []
  | k + 1, l => tree58 e k (tree58Level e l)

/-- The contribution of unit `b` of this member, as it travels, and whether an element is out of range. -/
def State.contribOf (s : State) (g : Group) (c : Coll) (b : Nat) : List Byte × Bool :=
  let n := c.elemsOf b
  let raw := s.readVA g.part (c.src + b * fmtBytes c.inF 4096) (fmtBytes c.inF n)
  let codes := (List.range n).map (unpackElem c.inF raw)
  if c.g8 then (g8Encode (s.g8Table g) g.tableGen codes, false)
  else if c.ordered then ((codes.map (fun x => toBytes (orderedLeaf c.inF x) 8)).flatten, false)
  else
    let ls := codes.map (exactEntry c.inF)
    ((ls.map (fun l => toBytes l.1.encode 16)).flatten, ls.any (·.2))

/-- Some source element of unit `b` is poisoned or uncorrectable at this member. -/
def State.unitPoison (s : State) (g : Group) (c : Coll) (b : Nat) (ue : List Nat) : Bool :=
  s.extentPoison ue g.part (c.src + b * fmtBytes c.inF 4096) (fmtBytes c.inF (c.elemsOf b))

/-- The result of a unit from its contributions in rank order: output codes and flags, and the block as it travels. -/
def State.formUnit (s : State) (g : Group) (c : Coll) (b : Nat) (parts : List (List Byte)) : List Byte × List Byte × Nat :=
  let n := c.elemsOf b
  if c.g8 then
    let table := s.g8Table g
    let round := fun (l : List Nat) => l.map (fun x => fmtFP32.rne (fmtW58.decode x))
    let up := fun (l : List Nat) => l.map (fun x => fmtW58.rne (fmtFP32.decode x))
    let e := fun (l : List Nat) => up (g8Decode table (g8Encode table g.tableGen (round l)))
    let leaves := parts.map (fun p => up (g8Decode table p))
    let k := clog2 parts.length
    let zeros := List.replicate (2 ^ k - parts.length) (List.replicate 4096 0)
    let w := tree58 e k (leaves ++ zeros)
    let wire := g8Encode table g.tableGen (round w)
    let outs := ((g8Decode table wire).take n).map (fun x => roundOut c.outF .rne false (fmtFP32.decode x))
    (packRow c.outF (outs.map (·.code)), wire, if outs.any (·.overflow) then fOverflow else 0)
  else if c.ordered then
    let leaves := parts.map (fun p => (List.range n).map (fun i => ofBytes ((p.drop (8 * i)).take 8)))
    let k := clog2 parts.length
    let zeros := List.replicate (2 ^ k - parts.length) (List.replicate n 0)
    let w := tree58 id k (leaves ++ zeros)
    let outs := w.map (fun x => roundOut c.outF .rne false (fmtW58.decode x))
    let bs := packRow c.outF (outs.map (·.code))
    (bs, bs, if outs.any (·.overflow) then fOverflow else 0)
  else
    let sums := (List.range n).map (fun i => parts.foldl (fun a p => a.add (La.decode (ofBytes ((p.drop (16 * i)).take 16)))) (La.fin 0))
    if c.outF = fmtLa128 then
      let bs := (sums.map (fun l => toBytes l.encode 16)).flatten
      (bs, bs, 0)
    else
      let outs := sums.map (fun l => roundOut c.outF .rne false l.value)
      let bs := packRow c.outF (outs.map (·.code))
      (bs, bs, (if outs.any (·.nanDropped) then fNanDropped else 0) + (if outs.any (·.overflow) then fOverflow else 0))

/-- Where the output of unit `b` goes at this member. -/
def Coll.outVa (c : Coll) (g : Group) (b : Nat) : Nat :=
  let f := if c.op = .allgather then c.inF else c.outF
  c.dst + (if c.op = .reduceScatter then b - (c.owned g g.rank).1 else b) * fmtBytes f 4096

/-! ### Streams (R416, R417) -/

/-- Bytes `off` to `off + len` of a stream received so far, with poison of any packet that holds some of them. -/
def Coll.inBytes (c : Coll) (phase src off len : Nat) : Option (List Byte × Bool) :=
  let ks := (List.range (ceilDiv (off % 4096 + len) 4096)).map (· + off / 4096)
  let ps := ks.map (fun k => listFind (fun p => p.phase == phase && p.src == src && p.index == k) c.got)
  if ps.any (·.isNone) then none
  else
    let all := ps.flatMap (fun p => (p.map (·.data)).getD [])
    let bs := (all.drop (off % 4096)).take len
    if bs.length < len then none else some (bs, ps.any (fun p => (p.map (·.poison)).getD false))

/-- Rows in the buckets of a list of counts before entry `i`. -/
def rowsBefore (l : List Nat) (i : Nat) : Nat := (l.take i).foldl (· + ·) 0

/-- ALLTOALL: counts for expert `e` and rank `q` that this member sends under DISPATCH, or returns under COMBINE. -/
def Coll.sendCount (c : Coll) (g : Group) (q e : Nat) : Nat :=
  if c.op = .dispatch then c.counts.getD (q * c.experts + e) 0
  else c.counts.getD (g.size * c.experts + e * g.size + q) 0

/-- Where row `i` of bucket (q, e) lies in SEND_VA (R428, R430). -/
def Coll.sendRowVa (c : Coll) (g : Group) (q e i : Nat) : Nat :=
  let ks := c.counts.drop (g.size * c.experts)
  let at_ := if c.op = .dispatch then rowsBefore c.counts (q * c.experts + e) else rowsBefore ks (e * g.size + q)
  c.pk.d 0x18 + (at_ + i) * c.row

/-- The rows of the buckets for rank `q`, in order: address of each. -/
def Coll.rowsTo (c : Coll) (g : Group) (q : Nat) : List Nat :=
  (List.range c.experts).flatMap (fun e => (List.range (c.sendCount g q e)).map (fun i => c.sendRowVa g q e i))

/-- Bytes of the stream of a phase to a rank. -/
def Coll.outTotal (c : Coll) (g : Group) (phase peer : Nat) : Nat :=
  match phase with
  | 1 => c.spanWire 1 (c.owned g peer).1 (c.owned g peer).2
  | 2 | 3 => c.spanWire phase (c.owned g g.rank).1 (c.owned g g.rank).2
  | 4 => 4 * c.experts
  | _ => (c.rowsTo g peer).length * c.row

/-- Bytes of the stream of a phase from a rank, when they are known. -/
def Coll.inTotal (c : Coll) (g : Group) (phase src : Nat) : Option Nat :=
  match phase with
  | 1 => some (c.spanWire 1 (c.owned g g.rank).1 (c.owned g g.rank).2)
  | 2 | 3 => some (c.spanWire phase (c.owned g src).1 (c.owned g src).2)
  | 4 => some (4 * c.experts)
  | _ => (c.inBytes 4 src 0 (4 * c.experts)).map (fun b => (bytesToWords b.1).foldl (· + ·) 0 * c.row)

/-- The units that bytes `off` to `off + len` of a stream of units hold, by number from the first. -/
def unitSpan (full off len : Nat) : List Nat :=
  (List.range (ceilDiv (off % full + len) full)).map (· + off / full)

/-- The bytes of unit `b` in GATHER: its elements, then its scale bytes. -/
def State.gatherOf (s : State) (g : Group) (c : Coll) (b : Nat) (ue : List Nat) : List Byte × Bool :=
  let i := b - (c.owned g g.rank).1
  let n := c.elemsOf b
  let va := c.src + i * fmtBytes c.inF 4096
  let sva := c.pk.d 0x30 + i * c.scalesOf 4096
  (s.readVA g.part va (fmtBytes c.inF n) ++ s.readVA g.part sva (c.scalesOf n),
    s.extentPoison ue g.part va (fmtBytes c.inF n) || s.extentPoison ue g.part sva (c.scalesOf n))

/-- Packet `k` of a stream that this member sends: bytes, poison, out of range; none while it is not known. -/
def State.freshPacket (s : State) (g : Group) (c : Coll) (phase peer k : Nat) (ue : List Nat) :
    Option (List Byte × Bool × Bool) :=
  let total := c.outTotal g phase peer
  let off := 4096 * k
  let len := min 4096 (total - off)
  match phase with
  | 1 =>
    let full := c.unitWire 1 4096
    let us := (unitSpan full off len).map (· + (c.owned g peer).1)
    let bs := us.map (fun b => s.contribOf g c b)
    some (((bs.flatMap (·.1)).drop (off % full)).take len, us.any (fun b => s.unitPoison g c b ue), bs.any (·.2))
  | 2 =>
    let full := c.unitWire 2 4096
    let us := (unitSpan full off len).map (· + (c.owned g g.rank).1)
    let bs := us.map (fun b => listFind (fun e => e.1 == b) c.formed)
    if bs.any (·.isNone) then none
    else some (((bs.flatMap (fun e => (e.map (·.2)).getD [])).drop (off % full)).take len, us.any c.poisoned.contains, false)
  | 3 =>
    let full := c.unitWire 3 4096
    let us := (unitSpan full off len).map (· + (c.owned g g.rank).1)
    let bs := us.map (fun b => s.gatherOf g c b ue)
    some (((bs.flatMap (·.1)).drop (off % full)).take len, bs.any (·.2), false)
  | 4 => some ((((List.range c.experts).map (c.sendCount g peer)).flatMap (fun x => toBytes x 4)).take len, false, false)
  | _ =>
    let rows := c.rowsTo g peer
    let rs := (unitSpan c.row off len).map (fun i => rows.getD i 0)
    some (((rs.flatMap (fun va => s.readVA g.part va c.row)).drop (off % c.row)).take len,
      rs.any (fun va => s.extentPoison ue g.part va c.row), false)

/-- The same, as it was sent when it has been sent (R436). -/
def State.outPacket (s : State) (g : Group) (c : Coll) (phase peer k : Nat) (ue : List Nat) :
    Option (List Byte × Bool × Bool) :=
  match listFind (fun p => p.phase == phase && p.src == peer && p.index == k) c.kept with
  | some p => some (p.data, p.poison, false)
  | none => s.freshPacket g c phase peer k ue

/-- The phases of a collective's streams. -/
def Coll.phases (c : Coll) : List Nat :=
  match c.op with
  | .allreduce => [1, 2] | .reduceScatter => [1] | .allgather => [3] | .dispatch | .combine => [4, 5] | .permute => []

/-! ### Ending -/

/-- Ends a collective at this member. -/
def State.endColl (s : State) (n seq status : Nat) (words : List Nat) : State :=
  match s.collOf n seq with
  | none => s
  | some c =>
    let s := s.updGroup n (fun g => { g with colls := g.colls.filter (fun c => c.seq != seq) })
    let s := { s with coll := { s.coll with rmem := s.coll.rmem.filter (fun r => !(r.slot == n && r.seq == seq)) } }
    s.commit c.cmd status words

/-- After a PARAM_MISMATCH the destination of an ALLGATHER and the region of a PERMUTE_RESHARD are not defined (R414). -/
def State.spoilColl (s : State) (n : Nat) (c : Coll) : State :=
  let free := fun (va len : Nat) => (List.range len).map (fun i => Config.mismatchByte c.seq (va + i))
  let part := (s.group n).part
  match c.op with
  | .allgather =>
    let a := fmtBytes c.inF c.count
    let s := s.writeVA part c.dst (free c.dst a)
    s.writeVA part (c.pk.d 0x38) (free (c.pk.d 0x38) (c.scalesOf c.count))
  | .permute => s.writeVA part (c.pk.d 0x18) (free (c.pk.d 0x18) (c.pk.d 0x20))
  | _ => s

/-- Ends a collective with COLL_REFUSED. -/
def State.refuseColl (s : State) (n seq cause : Nat) : State :=
  match s.collOf n seq with
  | some c =>
    let s := if cause = 5 ∧ c.started then s.spoilColl n c else s
    s.endColl n seq stCollRefused [cause, 0xFFFFFFFF]
  | none => s

/-! ### Learning of a loss (R434) -/

/-- A PERMUTE_RESHARD is not BUDDY_SAFE. -/
def Coll.unsafeMove (c : Coll) : Bool := c.op == .permute && !c.pk.b 0x10 7

/-- A member learns that a rank is lost: LOST goes to every other member, once; a re-shard without BUDDY_SAFE ends
(R437). -/
def State.learnLost (s : State) (n rank : Nat) : State :=
  let g := s.group n
  if !g.bound || g.standby || g.lost.any (fun e => e.1 == rank) || rank == g.rank || decide (g.size ≤ rank) then s
  else
    let s := s.updGroup n (fun g => { g with lost := g.lost ++ [(rank, s.clk)] })
    let s := (g.others.filter (· != rank)).foldl (fun s r => s.collCtl n r 0x05 g.counter rank (g.pkgOf rank)) s
    (g.colls.filter Coll.unsafeMove).foldl (fun s c =>
      s.endColl n c.seq stPeerLost [c.written.length, 0, c.seq, c.sentChunks]) s

/-- Every group of this package meets the loss of a package. -/
def State.groupsLost (s : State) (pkg : Nat) : State :=
  s.coll.groups.foldl (fun s e => match listFind (fun r => e.2.pkgOf r == pkg) e.2.others with
    | some r => s.learnLost e.1 r
    | none => s) s

/-! ### Sending -/

/-- Sends the packets of a stream that may go: below the limit and known. -/
def State.sendStream : Nat → State → Nat → Nat → CollOut → List Nat → State
  | 0, s, _, _, _, _ => s
  | fuel + 1, s, n, seq, o, ue =>
    let g := s.group n
    match s.collOf n seq with
    | none => s
    | some c =>
      let packets := ceilDiv (c.outTotal g o.phase o.peer) 4096
      if o.next ≥ min o.limit packets || g.lost.any (fun e => e.1 == o.peer) then s
      else match s.outPacket g c o.phase o.peer o.next ue with
        | none => s
        | some (bs, bad, range) =>
          let object := o.phase * 2 ^ 60 + g.rank * 2 ^ 46 + c.seq % 2 ^ 16 * 2 ^ 30 + o.next
          let s := s.chargeExtent g.part 6 (c.pk.d 0x18) (if o.phase = 4 ∨ o.phase = 2 then 0 else bs.length) false
          let (s, r) := s.sendPacket g.part 0x10 5 (g.pkgOf o.peer) (g.partOf o.peer) object g.id bs bad
          if r = .noRoute then s.learnLost n o.peer
          else
            let o' := { o with next := o.next + 1 }
            let s := s.updColl n seq (fun c => { c with
              exactRange := c.exactRange || range,
              flags := c.flags ||| (if bad ∧ (o.phase = 1 ∨ o.phase = 3) then fPoisonIn else 0),
              kept := if c.kept.any (fun p => p.phase == o.phase && p.src == o.peer && p.index == o.next) then c.kept
                else c.kept ++ [⟨o.phase, o.peer, o.next, bs, bad⟩],
              outs := updFirst (fun x => x.phase == o.phase && x.peer == o.peer) (fun _ => o') c.outs })
            State.sendStream fuel s n seq o' ue

/-- Sends what may go on every stream of a collective. -/
def State.sendStreams (s : State) (n seq : Nat) (ue : List Nat) : State :=
  match s.collOf n seq with
  | none => s
  | some c => c.outs.foldl (fun s o => s.sendStream (o.limit + 1) n seq o ue) s

/-! ### Receiving: blocks, rows -/

/-- Writes a unit's output, or the poison pattern (R425, R426). -/
def State.writeUnit (s : State) (n seq b : Nat) (bs : List Byte) (bad : Bool) : State :=
  let g := s.group n
  match s.collOf n seq with
  | none => s
  | some c =>
    let va := c.outVa g b
    let s := s.chargeExtent g.part 6 va bs.length true
    let s := if bad then s.poisonVA g.part va bs.length else s.writeVA g.part va bs
    s.updColl n seq (fun c => { c with
      written := c.written ++ [b], poisoned := if bad then c.poisoned ++ [b] else c.poisoned })

/-- A G8 block of another table generation (R424). -/
def State.genBad (s : State) (n : Nat) (c : Coll) (b : List Byte) : Bool × State :=
  let gen := ofBytes ((b.drop 4).take 4)
  if c.g8 && gen != (s.group n).tableGen then
    (true, s.record 0x0803 2 (s.group n).part srcGroup n (s.group n).id c.seq gen 0 (partOnly (s.group n).part))
  else (false, s)

/-- An owned unit is formed once every rank's contribution has come. -/
def State.formOwned (s : State) (n seq b : Nat) (ue : List Nat) : State :=
  let g := s.group n
  match s.collOf n seq with
  | none => s
  | some c =>
    let lo := (c.owned g g.rank).1
    let len := c.unitWire 1 (c.elemsOf b)
    let off := (b - lo) * c.unitWire 1 4096
    let own := s.contribOf g c b
    let parts := (List.range g.size).map (fun r => if r = g.rank then some (own.1, s.unitPoison g c b ue) else c.inBytes 1 r off len)
    if c.written.contains b || parts.any (·.isNone) then s
    else
      let ps := parts.map (fun p => p.getD ([], false))
      let (gen, s) := ps.foldl (fun (a : Bool × State) p =>
        let (x, s) := a.2.genBad n c p.1
        (a.1 || x, s)) (false, s)
      let bad := gen || ps.any (·.2)
      let (out, wire, fl) := s.formUnit g c b (ps.map (·.1))
      let s := s.writeUnit n seq b out bad
      s.updColl n seq (fun c => { c with
        formed := c.formed ++ [(b, wire)],
        flags := c.flags ||| (if bad then 0 else fl) ||| (if s.unitPoison g c b ue then fPoisonIn else 0),
        exactRange := c.exactRange || own.2 })

/-- A unit of another owner is written when its RESULT or GATHER bytes have come. -/
def State.placeUnit (s : State) (n seq phase q b : Nat) : State :=
  let g := s.group n
  match s.collOf n seq with
  | none => s
  | some c =>
    let m := c.elemsOf b
    match c.inBytes phase q ((b - (c.owned g q).1) * c.unitWire phase 4096) (c.unitWire phase m) with
    | none => s
    | some (bs, bad) =>
      if c.written.contains b then s
      else if phase = 2 then
        let (gen, s) := s.genBad n c bs
        let out := if c.g8 then
            packRow c.outF (((g8Decode (s.g8Table g) bs).take m).map (fun x => (roundOut c.outF .rne false (fmtFP32.decode x)).code))
          else bs
        s.writeUnit n seq b out (bad || gen)
      else
        let s := s.writeUnit n seq b (bs.take (fmtBytes c.inF m)) bad
        let sva := c.pk.d 0x38 + b * c.scalesOf 4096
        let scales := bs.drop (fmtBytes c.inF m)
        if bad then s.poisonVA g.part sva scales.length else s.writeVA g.part sva scales

/-- ALLGATHER: this member's own units go to the destination too. -/
def State.placeOwn (s : State) (n seq b : Nat) (ue : List Nat) : State :=
  let g := s.group n
  match s.collOf n seq with
  | none => s
  | some c =>
    if c.written.contains b then s
    else
      let m := c.elemsOf b
      let (bs, bad) := s.gatherOf g c b ue
      let s := s.writeUnit n seq b (bs.take (fmtBytes c.inF m)) bad
      let sva := c.pk.d 0x38 + b * c.scalesOf 4096
      let scales := bs.drop (fmtBytes c.inF m)
      if bad then s.poisonVA g.part sva scales.length else s.writeVA g.part sva scales

/-- The counts that rank `r` sends this member; its own are its own. -/
def Coll.countsFrom (c : Coll) (g : Group) (r : Nat) : Option (List Nat) :=
  if r = g.rank then some ((List.range c.experts).map (c.sendCount g r))
  else (c.inBytes 4 r 0 (4 * c.experts)).map (fun b => bytesToWords b.1)

/-- Every COUNTS stream has come: the counts by rank. -/
def Coll.allCounts (c : Coll) (g : Group) : Option (List (List Nat)) :=
  let l := (List.range g.size).map (c.countsFrom g)
  if l.any (·.isNone) then none else some (l.map (fun x => x.getD []))

/-- The rows that come from rank `r`: for each, the position that it is written at, or none when it is dropped (R429,
R430). -/
def Coll.positions (c : Coll) (g : Group) (cs : List (List Nat)) (r : Nat) : List (Option Nat) :=
  let at_ := fun (q e : Nat) => (cs.getD q []).getD e 0
  if c.op = .dispatch then
    let cap := c.pk.w 0x30
    (List.range c.experts).flatMap (fun e =>
      let before := ((List.range e).flatMap (fun e' => (List.range g.size).map (fun q => at_ q e'))).foldl (· + ·) 0 +
        ((List.range r).map (fun q => at_ q e)).foldl (· + ·) 0
      (List.range (at_ r e)).map (fun i => if before + i < cap then some (before + i) else none))
  else
    (List.range c.experts).flatMap (fun e =>
      (List.range (at_ r e)).map (fun i => some (rowsBefore c.counts (r * c.experts + e) + i)))

/-- Writes one row. -/
def State.placeRow (s : State) (n seq pos : Nat) (bs : List Byte) (bad : Bool) : State :=
  let g := s.group n
  match s.collOf n seq with
  | none => s
  | some c =>
    if c.written.contains pos then s
    else
      let va := c.pk.d 0x28 + pos * c.row
      let s := s.chargeExtent g.part 6 va c.row true
      let s := if bad then s.poisonVA g.part va c.row else s.writeVA g.part va bs
      s.updColl n seq (fun c => { c with
        written := c.written ++ [pos], poisoned := if bad then c.poisoned ++ [pos] else c.poisoned })

/-- Places the rows from rank `r` that have come. -/
def State.placeRows (s : State) (n seq r : Nat) (cs : List (List Nat)) (ue : List Nat) : State :=
  let g := s.group n
  match s.collOf n seq with
  | none => s
  | some c =>
    let ps := c.positions g cs r
    let own := c.rowsTo g r
    (List.range ps.length).foldl (fun s i => match ps.getD i none with
      | none => s
      | some p =>
        if r = g.rank then
          let va := own.getD i 0
          s.placeRow n seq p (s.readVA g.part va c.row) (s.extentPoison ue g.part va c.row)
        else match c.inBytes 5 r (i * c.row) c.row with
          | some (bs, bad) => s.placeRow n seq p bs bad
          | none => s) s

/-- Places what has come of an ALLTOALL. -/
def State.placeAll (s : State) (n seq : Nat) (ue : List Nat) : State :=
  let g := s.group n
  match (s.collOf n seq).bind (fun c => c.allCounts g) with
  | none => s
  | some cs => (List.range g.size).foldl (fun s r => s.placeRows n seq r cs ue) s

/-- Forms and places what a collective has at hand. -/
def State.placeColl (s : State) (n seq : Nat) (ue : List Nat) : State :=
  let g := s.group n
  match s.collOf n seq with
  | none => s
  | some c =>
    let units := fun (q : Nat) => (List.range ((c.owned g q).2 - (c.owned g q).1)).map (· + (c.owned g q).1)
    match c.op with
    | .permute => s
    | .dispatch | .combine => s.placeAll n seq ue
    | .allgather =>
      let s := (units g.rank).foldl (fun s b => s.placeOwn n seq b ue) s
      g.others.foldl (fun s q => (units q).foldl (fun s b => s.placeUnit n seq 3 q b) s) s
    | op =>
      let s := (units g.rank).foldl (fun s b => s.formOwned n seq b ue) s
      if op = .allreduce then g.others.foldl (fun s q => (units q).foldl (fun s b => s.placeUnit n seq 2 q b) s) s else s

/-! ### Credits (R417) -/

/-- Packets that this model's receiver lets a sender run ahead. -/
def Group.window (g : Group) : Nat := max 32 (g.scratchBytes / 8192 / max 1 g.size)

/-- Packets at the head of a stream that the collective has used. -/
def Coll.consumed (c : Coll) (g : Group) (phase src : Nat) : Nat :=
  match phase with
  | 1 | 2 | 3 =>
    let q := if phase = 1 then g.rank else src
    let lo := (c.owned g q).1
    match listFind (fun b => !c.written.contains b) ((List.range ((c.owned g q).2 - lo)).map (· + lo)) with
    | some b => (b - lo) * c.unitWire phase 4096 / 4096
    | none => ceilDiv ((c.inTotal g phase src).getD 0) 4096
  | _ => (c.got.filter (fun p => p.phase == phase && p.src == src)).length

/-- Grants what may be granted, by CREDIT. -/
def State.grantAll (s : State) (n seq : Nat) : State :=
  let g := s.group n
  match s.collOf n seq with
  | none => s
  | some c =>
    (c.phases.flatMap (fun ph => g.others.map (fun r => (ph, r)))).foldl (fun s e =>
      let want := c.consumed g e.1 e.2 + g.window
      let lim := match c.inTotal g e.1 e.2 with
        | some t => min want (ceilDiv t 4096)
        | none => want
      let had := match listFind (fun x => x.1 == e.1 && x.2.1 == e.2) c.granted with
        | some x => x.2.2
        | none => 0
      if lim ≤ had then s
      else
        let s := s.updColl n seq (fun c => { c with
          granted := (e.1, e.2, lim) :: c.granted.filter (fun x => !(x.1 == e.1 && x.2.1 == e.2)) })
        s.collCtl n e.2 0x03 seq lim e.1) s

/-! ### Re-sharding (R433) -/

/-- π(M) and π^-1(M). -/
def Coll.dstOf (c : Coll) (m : Nat) : Nat := bits (c.perm.getD m 0) 13 0
def Coll.frm (c : Coll) (m : Nat) : Nat :=
  (listFind (fun i => c.dstOf i == m) (List.range c.perm.length)).getD m

/-- Sends an RMEM packet and notes that its answer is awaited; one to a member that has no route tells of its loss (R434). -/
def State.rmemSend (s : State) (n seq kind dstPkg dstPart va : Nat) (payload : List Byte) (bad : Bool) (what chunk back : Nat) :
    State :=
  let g := s.group n
  let object := seq % 2 ^ 16 * 2 ^ 48 + va % 2 ^ 48
  let s := { s with coll := { s.coll with rmem := s.coll.rmem ++ [RmemSent.mk n seq dstPkg object what chunk back] } }
  let (s, r) := s.sendPacket g.part kind 5 dstPkg dstPart object g.id payload bad
  if r = .noRoute then match listFind (fun q => g.pkgOf q == dstPkg) g.others with
    | some q => s.learnLost n q
    | none => s
  else s

/-- Sends chunk `ch`, held at `va`, to π(M)'s staging slot. -/
def State.sendChunk (s : State) (n seq ch va : Nat) (ue : List Nat) : State :=
  let g := s.group n
  match s.collOf n seq with
  | none => s
  | some c =>
    let p := c.dstOf g.rank
    (List.range (c.chunk / 4096)).foldl (fun s i =>
      s.rmemSend n seq 0x20 (g.pkgOf p) (g.partOf p) (g.scratchVa + ch % 2 * c.chunk + 4096 * i)
        (s.readVA g.part (va + 4096 * i) 4096) (s.extentPoison ue g.part (va + 4096 * i) 4096) 0 ch 0) s

/-- Chunks that may be sent now, one after the other (step 1). A chunk already overwritten is read back from the buddy
(R437): each part goes on to the staging slot as it comes. -/
def State.sendChunks : Nat → State → Nat → Nat → List Nat → State
  | 0, s, _, _, _ => s
  | fuel + 1, s, n, seq, ue =>
    let g := s.group n
    match s.collOf n seq with
    | none => s
    | some c =>
      let ch := c.sentChunks
      let p := c.dstOf g.rank
      if p = g.rank ∨ c.chunks ≤ ch ∨ c.peerWritten + 1 < ch ∨ (2 ≤ ch ∧ !c.acked.contains (ch - 2)) ∨
          g.lost.any (fun e => e.1 == p) then s
      else if c.again.isSome && decide (ch < c.written.length) then
        if s.coll.rmem.any (fun r => r.slot == n && r.seq == seq && r.what == 2) then s
        else (List.range (c.chunk / 4096)).foldl (fun s i =>
          s.rmemSend n seq 0x21 (c.pk.f 0x38 19 0) (c.pk.f 0x38 31 24) (c.pk.d 0x30 + ch * c.chunk + 4096 * i)
            (toBytes 4096 4) false 2 ch (g.scratchVa + ch % 2 * c.chunk + 4096 * i)) s
      else
        let s := s.sendChunk n seq ch (c.pk.d 0x18 + ch * c.chunk) ue
        State.sendChunks fuel (s.updColl n seq (fun c => { c with sentChunks := ch + 1 })) n seq ue

/-- Writes the chunks that may be written (steps 3 and 4). -/
def State.writeChunks : Nat → State → Nat → Nat → State
  | 0, s, _, _ => s
  | fuel + 1, s, n, seq =>
    let g := s.group n
    match s.collOf n seq with
    | none => s
    | some c =>
      let ch := c.written.length
      if c.chunks ≤ ch ∨ c.staged ≤ ch ∨ !c.acked.contains ch then s
      else
        let src := g.scratchVa + ch % 2 * c.chunk
        let dst := c.pk.d 0x18 + ch * c.chunk
        let bad := s.extentPoison [] g.part src c.chunk
        let s := s.chargeExtent g.part 6 dst c.chunk true
        let s := if bad then s.poisonVA g.part dst c.chunk else s.writeVA g.part dst (s.readVA g.part src c.chunk)
        let s := s.updColl n seq (fun c => { c with written := c.written ++ [ch] })
        State.writeChunks fuel (s.collCtl n (c.frm g.rank) 0x03 seq (ch + 1) 6) n seq

/-! ### How a collective starts, goes on and ends -/

/-- Result words (R427, R431, R433). DEDUCED: the flags are those of what this member itself reads, forms and writes. -/
def Coll.words (c : Coll) (g : Group) : List Nat :=
  match c.op with
  | .permute => [c.written.length, 0, c.seq, c.sentChunks]
  | .dispatch | .combine =>
    let dropped := match c.op, c.allCounts g with
      | .dispatch, some cs => ((List.range g.size).flatMap (c.positions g cs)).filter (·.isNone) |>.length
      | _, _ => 0
    [c.written.length, dropped, c.seq, c.sentRows]
  | _ => [c.poisoned.length, (if c.poisoned.isEmpty then c.flags else c.flags ||| fPoisonOut) + b2n c.rejoined * 256 + b2n c.exactRange * 512, c.seq, c.written.length]

/-- The blocks, rows or chunks that a collective has to write are written. -/
def Coll.allWritten (c : Coll) (g : Group) : Bool :=
  match c.op with
  | .permute => c.dstOf g.rank == g.rank || c.written.length == c.chunks
  | .reduceScatter => decide ((c.owned g g.rank).2 - (c.owned g g.rank).1 ≤ c.written.length)
  | .dispatch | .combine => match c.allCounts g with
    | some cs => ((List.range g.size).flatMap (c.positions g cs)).all (fun p => match p with
      | some x => c.written.contains x
      | none => true)
    | none => false
  | _ => c.written.length == unitsOf c.count

/-- Every stream of a collective has been sent. -/
def Coll.allSent (c : Coll) (g : Group) : Bool :=
  c.outs.all (fun o => decide (ceilDiv (c.outTotal g o.phase o.peer) 4096 ≤ o.next))

/-- What ALLTOALL writes at its end: the counts placed (R429), or zeros over the dropped rows (R430). -/
def State.finishRows (s : State) (n seq : Nat) : State :=
  let g := s.group n
  match s.collOf n seq with
  | none => s
  | some c => match c.allCounts g with
    | none => s
    | some cs =>
      if c.op = .dispatch then
        let ks := (List.range c.experts).flatMap (fun e => (List.range g.size).map (fun r =>
          let before := rowsBefore (cs.getD r []) e
          (((c.positions g cs r).drop before).take ((cs.getD r []).getD e 0)).filter (·.isSome) |>.length))
        s.writeVA g.part (c.pk.d 0x20 + 4 * g.size * c.experts) (wordsToBytes ks)
      else
        ((List.range g.size).flatMap (fun r => (List.range c.experts).map (fun e => (r, e)))).foldl (fun s x =>
          let sent := c.counts.getD (x.1 * c.experts + x.2) 0
          let back := (cs.getD x.1 []).getD x.2 0
          let at_ := rowsBefore c.counts (x.1 * c.experts + x.2)
          s.writeVA g.part (c.pk.d 0x28 + (at_ + back) * c.row) (List.replicate ((sent - back) * c.row) 0)) s

/-- Completes a collective that has written and sent everything. -/
def State.checkColl (s : State) (n seq : Nat) : State :=
  let g := s.group n
  match s.collOf n seq with
  | none => s
  | some c =>
    if c.started && c.allWritten g && c.allSent g then
      let s := if c.rowsOp then s.finishRows n seq else s
      s.endColl n seq (if c.poisoned.isEmpty then stDone else stPartialFault) (c.words g)
    else s

/-- A collective does what it can. While a rank of its group is lost it is held (R434). -/
def State.driveColl (s : State) (n seq : Nat) (ue : List Nat) : State :=
  match s.collOf n seq with
  | none => s
  | some c =>
    if !c.started || c.loading || !(s.group n).lost.isEmpty then s
    else
      let s := (s.placeColl n seq ue).grantAll n seq
      let s := s.sendStreams n seq ue
      let s := if c.op = .permute then (s.sendChunks (c.chunks + 1) n seq ue).writeChunks (c.chunks + 1) n seq else s
      s.checkColl n seq

/-- A FAIL for a collective (R414, R438). -/
def State.failColl (s : State) (n seq cause : Nat) : State :=
  match s.collOf n seq with
  | none => s
  | some c => if cause = 0xFF then s.endColl n seq stAborted (c.words (s.group n)) else s.refuseColl n seq cause

/-- A PERMUTE_RESHARD starts: what has come for it early counts. At a member that has rejoined, the region is loaded
from the buddy's copy and sending goes on where π(L) says (R437). -/
def State.startPermute (s : State) (n seq : Nat) : State :=
  let g := s.group n
  match s.collOf n seq with
  | none => s
  | some c =>
    if c.op ≠ .permute then s
    else
      let mine := fun (e : Nat × Nat) => e.1 == seq % 2 ^ 16
      let s := s.updGroup n (fun g => { (g.updColl seq (fun c => { c with
        stagedOffs := c.stagedOffs ++ (g.early.filter mine).map (·.2) })) with early := g.early.filter (fun e => !mine e) })
      if !g.rejoining then s
      else
        let sent := match listFind (fun e => e.1 == c.dstOf g.rank) g.states with
          | some e => e.2.2
          | none => 0
        let s := s.updGroup n (fun g => { (g.updColl seq (fun c => { c with
          loading := c.pk.b 0x10 7 && decide (0 < c.chunks), sentChunks := sent, acked := List.range sent })) with
          rejoining := false })
        if !c.pk.b 0x10 7 then s
        else (List.range (c.chunks * (c.chunk / 4096))).foldl (fun s i =>
          s.rmemSend n seq 0x21 (c.pk.f 0x38 19 0) (c.pk.f 0x38 31 24) (c.pk.d 0x30 + 4096 * i) (toBytes 4096 4) false 1 0
            (c.pk.d 0x18 + 4096 * i)) s

/-- A collective starts (R414): START to both ring neighbours, and the digests that have come are compared. Credits that
have come count. -/
def State.startColl (s : State) (n seq : Nat) : State :=
  let g := s.group n
  match s.collOf n seq with
  | none => s
  | some c =>
    let d := c.paramDigest
    let credit := fun (ph r : Nat) => match listFind (fun e => e.1 == r && e.2.1 == seq && e.2.2.1 == ph) g.credits with
      | some e => e.2.2.2
      | none => 0
    let outs := c.phases.flatMap (fun ph => g.others.map (fun r => CollOut.mk ph r 0 (credit ph r)))
    let s := s.updGroup n (fun g => { (g.updColl seq (fun c => { c with
      started := true, digest := d, outs := outs, peerWritten := credit 6 (c.dstOf g.rank) })) with
      credits := g.credits.filter (fun e => e.2.1 != seq), starts := g.starts.filter (fun e => e.2.1 != seq),
      fails := g.fails.filter (fun e => e.1 != seq) })
    let s := g.ring.foldl (fun s r => s.collCtl n r 0x02 seq d c.opcode) s
    match listFind (fun e => e.1 == seq) g.fails with
    | some e => s.failColl n seq e.2
    | none =>
      if g.starts.any (fun e => e.2.1 == seq && e.2.2 != d) then (s.collAll n 0x04 seq 0x05 0).refuseColl n seq 0x05
      else s.startPermute n seq

/-- Starts the collectives of a READY group that may start: four in flight at most (R413). On a MISMATCHED group they
complete with GROUP_MISMATCH. -/
def State.startColls (s : State) (n : Nat) (ue : List Nat) : State :=
  let g := s.group n
  match g.state with
  | .waiting => s
  | .mismatched => g.colls.foldl (fun s c => s.refuseColl n c.seq 0x04) s
  | .ready =>
    ((g.colls.take 4).filter (fun c => !c.started)).foldl (fun s c => (s.startColl n c.seq).driveColl n c.seq ue) s

/-- Everything of a group goes on. -/
def State.driveGroup (s : State) (n : Nat) (ue : List Nat) : State :=
  let s := (s.group n).colls.foldl (fun s c => s.driveColl n c.seq ue) s
  s.startColls n ue

/-- The writes that have come for the next chunks of a PERMUTE_RESHARD make whole chunks (step 2). -/
def Coll.stage (c : Coll) : Nat → Coll
  | 0 => c
  | fuel + 1 =>
    let offs := (List.range (c.chunk / 4096)).map (fun i => c.staged % 2 * c.chunk + 4096 * i)
    if offs.all c.stagedOffs.contains then
      ({ c with staged := c.staged + 1, stagedOffs := c.stagedOffs.filter (fun o => !offs.contains o) } : Coll).stage fuel
    else c

/-! ### Rejoin (R435 to R437) -/

/-- A standby of this package becomes the rank whose package was `lost` (R435). -/
def State.standbyJoin (s : State) (pipe lost : Nat) : State :=
  s.coll.groups.foldl (fun s e =>
    if e.2.bound && e.2.standby && e.2.pipe == pipe then
      match listFind (fun r => e.2.pkgOf r == lost) (List.range e.2.size) with
      | none => s
      | some r =>
        let s := s.updGroup e.1 (fun g => { g with
          standby := false, rank := r, state := .ready, rejoining := true, states := [],
          members := (List.range g.size).map (fun i => if i = r then (g.part, s.pkg.packageId) else g.members.getD i (0, 0)) })
        s.collAll e.1 0x06 0 s.pkg.packageId r
    else s) s

end Sys2Proof.Machine
end

