-- ==== Sys2Proof/Machine/PipeOps.lean ====
section
/-! DEFINITION. The shared operations of pipeline stages (11): streams and their neighbours, PIPE messages, sending and
accepting barges, berths, commits, checkpoint packets, the loss of a stage and its takeover. -/

namespace Sys2Proof.Machine

/-! ### Streams and neighbours (R360, R367) -/

/-- The backward and the forward neighbour's stage. -/
def StageRec.upStage (c : StageRec) : Nat := if c.stage = 0 then c.p - 1 else c.stage - 1
def StageRec.downStage (c : StageRec) : Nat := if c.stage + 1 ≥ c.p then 0 else c.stage + 1
def StageRec.last (c : StageRec) : Bool := decide (c.p ≤ c.stage + 1)

/-- A stream of direction `dir` (0 FWD, 1 BWD_IN) to chunk `v` of this stage exists. -/
def StageRec.hasIn (c : StageRec) (dir v : Nat) : Bool :=
  decide (v < c.v) && (if dir = 0 then !(c.stage == 0 && v == 0) else dir == 1 && !(c.last && decide (c.v ≤ v + 1)))

/-- Chunk `v` sends in direction `dir`. -/
def StageRec.sends (c : StageRec) (dir v : Nat) : Bool :=
  if dir = 0 then !(c.last && decide (c.v ≤ v + 1)) else !(c.stage == 0 && v == 0)

/-- The receiving chunk of what chunk `v` sends, and the chunk that a stream to receiving chunk `v` leaves. -/
def StageRec.dstChunk (c : StageRec) (dir v : Nat) : Nat :=
  if dir = 0 then (if c.last then v + 1 else v) else (if c.stage = 0 then v - 1 else v)
def StageRec.srcChunk (c : StageRec) (dir v : Nat) : Nat :=
  if dir = 0 then (if c.last then v - 1 else v) else (if c.stage = 0 then v + 1 else v)

/-- Package, partition and stage that streams of a direction come from, and go to. -/
def StageRec.srcPkg (c : StageRec) (dir : Nat) : Nat := if dir = 0 then c.upPkg else c.downPkg
def StageRec.srcStage (c : StageRec) (dir : Nat) : Nat := if dir = 0 then c.upStage else c.downStage
def StageRec.dstPkg (c : StageRec) (dir : Nat) : Nat := if dir = 0 then c.downPkg else c.upPkg
def StageRec.dstPart (c : StageRec) (dir : Nat) : Nat := if dir = 0 then c.downPart else c.upPart
def StageRec.dstStage (c : StageRec) (dir : Nat) : Nat := if dir = 0 then c.downStage else c.upStage
def StageRec.inRing (c : StageRec) (dir : Nat) : RingEnt := if dir = 0 then c.inFwd else c.inBwd
def StageRec.retRing (c : StageRec) (dir : Nat) : RingEnt := if dir = 0 then c.retFwd else c.retBwd

/-- Key of a stream. -/
def sKey (dir v : Nat) : Nat := 8 * dir + v
/-- Address of the slot of BSEQ `b` in chunk `v`'s part of a ring (R372). -/
def RingEnt.slotVa (r : RingEnt) (v b : Nat) : Nat := r.va + (v * r.depth + b % r.depth) * r.slotBytes

def StageSlot.inS (g : StageSlot) (k : Nat) : InStream := g.ins.get {} k
def StageSlot.outS (g : StageSlot) (k : Nat) : OutStream := g.outs.get {} k
def StageSlot.updIn (g : StageSlot) (k : Nat) (f : InStream → InStream) : StageSlot := { g with ins := g.ins.upd {} k f }
def StageSlot.updOut (g : StageSlot) (k : Nat) (f : OutStream → OutStream) : StageSlot := { g with outs := g.outs.upd {} k f }
def StageSlot.epochOf (g : StageSlot) (dir : Nat) : Nat := if dir = 0 then g.upEpoch else g.downEpoch
def StageSlot.lostOf (g : StageSlot) (dir : Nat) : Bool := if dir = 0 then g.upLost else g.downLost
/-- The stage has a live buddy (R390, R576). -/
def StageSlot.hasBuddy (g : StageSlot) : Bool := g.cfg.buddyPkg != 0xFFFFF && !g.buddyGone

/-- The running step: the last that has started. -/
def StageSlot.running (g : StageSlot) : Option StepRun := listFind (·.started) g.steps.reverse
def StageSlot.updStep (g : StageSlot) (cmd : Nat) (f : StepRun → StepRun) : StageSlot :=
  { g with steps := updFirst (fun r => r.cmd == cmd) f g.steps }

/-- The active stage of this package that PIPE_ID and STAGE name. -/
def State.stageOf (s : State) (pipe stage : Nat) : Option Nat :=
  (listFind (fun e => e.2.bound && !e.2.spare && e.2.cfg.pipe == pipe && e.2.cfg.stage == stage) s.pipe.slots).map (·.1)

/-! ### PIPE messages (R371) -/

/-- Word 0 of a PIPE message. -/
def pipeWord0 (psub dir v level stage : Nat) : Nat :=
  psub * 2 ^ 24 + dir * 2 ^ 22 + v * 2 ^ 19 + level * 2 ^ 12 + stage

/-- Sends a PIPE message to a stage of package `dst`. -/
def State.pipeMsg (s : State) (dst psub dir v stage epoch pipe value : Nat) (rest : List Nat := []) : State :=
  s.sendMsg 0x20 1 dst ([pipeWord0 psub dir v s.pkg.runLevel stage, epoch * 2 ^ 16 + pipe, value, compl32 value] ++ rest)

/-- A PIPE message's common part. -/
def TMsg.psub (m : TMsg) : Nat := bits (m.words.getD 0 0) 31 24
def TMsg.dir (m : TMsg) : Nat := bits (m.words.getD 0 0) 23 22
def TMsg.vstage (m : TMsg) : Nat := bits (m.words.getD 0 0) 21 19
def TMsg.stage (m : TMsg) : Nat := bits (m.words.getD 0 0) 11 0
def TMsg.epoch (m : TMsg) : Nat := bits (m.words.getD 1 0) 31 16
def TMsg.pipe (m : TMsg) : Nat := bits (m.words.getD 1 0) 15 0
def TMsg.value (m : TMsg) : Nat := m.words.getD 2 0
def TMsg.w (m : TMsg) (i : Nat) : Nat := m.words.getD i 0

/-- Takes the first delivered PIPE message of a subtype; one whose pair fails is discarded with its record. -/
def State.onPipeMsg (s : State) (psub : Nat) (body : TMsg → State → State) : Out :=
  .next (match listFind (fun e => e.2.ttype == 0x20 && e.2.psub == psub) s.link.msgs with
    | none => s
    | some e =>
      let m := e.2
      let s := { s with link := { s.link with msgs := delFirst (fun x => x == e) s.link.msgs } }
      if pair32 m.value (m.w 3) then body m s
      else s.record 0x0701 2 0xFF srcPackage 0 psub (m.stage * 2 ^ 16 + m.pipe) 0 0 [0])

/-- The same for a message to an active stage of this package. -/
def State.onStageMsg (s : State) (psub : Nat) (body : Nat → TMsg → State → State) : Out :=
  s.onPipeMsg psub (fun m s => match s.stageOf m.pipe m.stage with
    | some n => body n m s
    | none => s)

/-- Takes the first delivered canal packet that a test names. -/
def State.takePacket (s : State) (p : CPacket → Bool) : Option (CPacket × State) :=
  (listFind p s.link.inbox).map (fun k =>
    (k, { s with link := { s.link with inbox := delFirst (fun x => x == k) s.link.inbox } }))

/-! ### Sending barges (R370, R375, R376, R379) -/

/-- Payload bytes of a barge by its descriptor words. -/
def segBytes (desc : List Nat) : Nat := desc.getD 8 0 + desc.getD 9 0 + desc.getD 10 0 + desc.getD 11 0

/-- Sends a barge's payload packets. -/
def State.sendPayload (s : State) (n dir v : Nat) (b : OutBarge) (ue : List Nat) : State :=
  let g := s.stage n
  let total := segBytes b.desc
  (List.range (ceilDiv total 4096)).foldl (fun s k =>
    let len := min 4096 (total - 4096 * k)
    let va := b.va + 4096 + 4096 * k
    let s := s.chargeExtent g.part 6 va len false
    let object := k * 2 ^ 49 + g.epoch * 2 ^ 33 + g.cfg.dstChunk dir v * 2 ^ 30 + dir * 2 ^ 28 + g.cfg.dstStage dir * 2 ^ 16 +
      g.cfg.pipe
    (s.sendPacket g.part 0x01 4 (g.cfg.dstPkg dir) (g.cfg.dstPart dir) object b.bseq (s.readVA g.part va len)
      (s.extentPoison ue g.part va len)).1) s

/-- Sends a barge's descriptor. -/
def State.sendDesc (s : State) (n dir : Nat) (b : OutBarge) : State :=
  let g := s.stage n
  let w1 := g.epoch * 2 ^ 16 + g.cfg.pipe
  s.sendMsg 0x20 1 (g.cfg.dstPkg dir) ([b.desc.getD 0 0, w1] ++ b.desc.drop 2)

/-- Sends a barge when the receiver has a slot for it (R376) and its stage is not lost (R397). -/
def State.trySend (s : State) (n dir v : Nat) (bseq : Nat) (ue : List Nat) : State :=
  let g := s.stage n
  let k := sKey dir v
  let o := g.outS k
  match listFind (fun b => b.bseq == bseq) o.retained with
  | none => s
  | some b =>
    let depth := (g.cfg.inRing dir).depth
    if b.sent || g.lostOf (1 - dir) || !seqLt b.bseq (wrap32 (o.released + depth)) then s
    else
      let s := (s.sendPayload n dir v b ue).sendDesc n dir b
      s.updStage n (fun g => { (g.updOut k (fun o => { o with
          retained := updFirst (fun x => x.bseq == bseq) (fun x => { x with sent := true, sentAt := s.clk }) o.retained })) with
        sent := sat64 (g.sent + 1), sentBytes := sat64 (g.sentBytes + segBytes b.desc) })

/-- Sends every barge of a stream that waits and may go, in BSEQ order. -/
def State.sendWaiting (s : State) (n dir v : Nat) (ue : List Nat) : State :=
  (((s.stage n).outS (sKey dir v)).retained.filter (fun b => !b.sent)).foldl (fun s b => s.trySend n dir v b.bseq ue) s

/-! ### Accepting barges (R372 to R376) -/

/-- A barge has all its bytes and its descriptor (R373). -/
def InBarge.full (b : InBarge) : Bool :=
  !b.desc.isEmpty && bit (b.desc.getD 0 0) 17 &&
    (List.range (ceilDiv (segBytes b.desc) 4096)).all b.got.contains

/-- Sends ACCEPT for BSEQ `b` of an in-stream. -/
def State.sendAccept (s : State) (n dir v b : Nat) : State :=
  let g := s.stage n
  s.pipeMsg (g.cfg.srcPkg dir) 0x02 dir v (g.cfg.srcStage dir) g.epoch g.cfg.pipe b
    [b2n ((g.inS (sKey dir v)).committed.contains b)]

/-- Sends CREDIT with RELEASED. -/
def State.sendCredit (s : State) (n dir v : Nat) : State :=
  let g := s.stage n
  s.pipeMsg (g.cfg.srcPkg dir) 0x04 dir v (g.cfg.srcStage dir) g.epoch g.cfg.pipe (g.inS (sKey dir v)).released

/-- Accepts complete barges from IN_NEXT on. -/
def State.acceptFrom : Nat → State → Nat → Nat → Nat → State
  | 0, s, _, _, _ => s
  | fuel + 1, s, n, dir, v =>
    let g := s.stage n
    let k := sKey dir v
    let i := g.inS k
    match listFind (fun b => b.bseq == i.next && b.full) i.barges with
    | none => s
    | some b =>
      let s := s.writeVA g.part ((g.cfg.inRing dir).slotVa v b.bseq) (wordsToBytes b.desc)
      let s := s.updStage n (fun g => g.updIn k (fun i => { i with
        next := wrap32 (i.next + 1), seals := i.seals ++ [(b.bseq, b.desc.getD 14 0)],
        barges := updFirst (fun x => x.bseq == b.bseq) (fun x => { x with accepted := true }) i.barges }))
      State.acceptFrom fuel (s.sendAccept n dir v b.bseq) n dir v

/-- A barge of a slot may have become complete: its SEAL is checked, and complete barges are accepted (R373). -/
def State.judgeFull (s : State) (n dir v bseq : Nat) : State :=
  let g := s.stage n
  let k := sKey dir v
  match listFind (fun b => b.bseq == bseq) (g.inS k).barges with
  | none => s
  | some b =>
    if !b.full then s
    else
      let c := crc32 (s.readVA g.part ((g.cfg.inRing dir).slotVa v bseq + 4096) (segBytes b.desc))
      if c = b.desc.getD 14 0 then s.acceptFrom ((g.inS k).barges.length) n dir v
      else
        (s.updStage n (fun g => g.updIn k (fun i => { i with barges := i.barges.filter (fun x => x.bseq != bseq) }))).record
          0x0704 1 g.part srcStage n bseq (b.desc.getD 14 0) c 0

/-- What R372 makes of an item of EPOCH `e` and BSEQ `b`. -/
inductive Verdict where
  | stale | duplicate | window | take
  deriving DecidableEq, Repr

def StageSlot.judge (g : StageSlot) (dir v e b : Nat) : Verdict :=
  let i := g.inS (sKey dir v)
  if !g.cfg.hasIn dir v || e != g.epochOf dir then .stale
  else if seqLt b i.next then .duplicate
  else if !seqLt b (wrap32 (i.released + (g.cfg.inRing dir).depth)) then .window
  else .take

/-- Puts a part of a barge into its slot's entry. -/
def InStream.put (i : InStream) (bseq : Nat) (f : InBarge → InBarge) : InStream :=
  if i.barges.any (fun b => b.bseq == bseq) then { i with barges := updFirst (fun b => b.bseq == bseq) f i.barges }
  else { i with barges := i.barges ++ [f ⟨bseq, [], [], false⟩] }

/-! ### Berths (R385 to R387) -/

/-- The berth of a version that a micro-batch may use; one whose version pair fails holds no usable version (R9). -/
def StageSlot.berthOf (g : StageSlot) (tag : Nat) : Option Nat :=
  listFind (fun b => let x := g.berths.get {} b
    (x.state == .current || x.state == .live) && pair32 x.version x.versionC && x.version == tag) (List.range 8)

/-- Makes berth `b` CURRENT; the former one becomes LIVE, or FREE when nothing uses it. -/
def StageSlot.makeCurrent (g : StageSlot) (b : Nat) : StageSlot :=
  { g with berths := (List.range 8).foldl (fun t i => t.upd {} i (fun x =>
      if i = b then { x with state := .current }
      else if x.state = .current then (if x.refs > 0 then { x with state := .live } else {}) else x)) g.berths }

/-- A micro-batch stops using its berth: a LIVE one that nothing uses is freed. -/
def StageSlot.dropRef (g : StageSlot) (b : Nat) : StageSlot :=
  { g with berths := g.berths.upd {} b (fun x =>
      if x.state = .live ∧ x.refs ≤ 1 then {} else { x with refs := x.refs - 1 }) }

/-- The berth's code in Table 11.8. -/
def BerthState.code : BerthState → Nat
  | .free => 0 | .loading => 1 | .ready => 2 | .current => 3 | .live => 4

/-- Result words of BERTH_PUBLISH. -/
def Berth.words (x : Berth) : List Nat := [x.version, min x.refs 65535 * 2 ^ 16 + x.state.code]

/-- The mirror of a berth is whole: it becomes READY or CURRENT, and its PUBLISH completes (R386). -/
def State.berthReady (s : State) (n b : Nat) : State :=
  let x := (s.stage n).berths.get {} b
  if x.state != .loading then s
  else
    let s := s.updStage n (fun g =>
      let g := { g with berths := g.berths.upd {} b (fun x => { x with state := .ready, cmd := none }) }
      if x.currentOnDone then g.makeCurrent b else g)
    match x.cmd with
    | some c => s.commit c stDone ((s.stage n).berths.get {} b).words
    | none => s

/-! ### Commits (R391 to R393) -/

/-- A micro-batch may commit. -/
def StageSlot.mayCommit (g : StageSlot) (m : MbRec) : Bool :=
  !m.committed &&
    m.sent.all (fun e => match listFind (fun b => b.bseq == e.2) (g.outS e.1).retained with
      | some b => b.accepted
      | none => true) &&
    (if m.eval then m.fwdDone
     else m.backDone && (match m.mark with
       | some k => decide (k ≤ g.markAcked)
       | none => false))

/-- Sends COMMIT for BSEQ `b` of an in-stream. -/
def State.sendCommit (s : State) (n dir v b : Nat) (cumulative : Bool) : State :=
  let g := s.stage n
  s.pipeMsg (g.cfg.srcPkg dir) 0x03 dir v (g.cfg.srcStage dir) g.epoch g.cfg.pipe b [b2n cumulative]

/-- Commits one micro-batch: COMMIT to the sender of each barge that it received; its berth loses a user. -/
def State.commitMb (s : State) (n : Nat) (m : MbRec) : State :=
  let s := s.updStage n (fun g =>
    let g := { g with mbs := updFirst (fun x => x == m) (fun x => { x with committed := true }) g.mbs }
    let g := m.recv.foldl (fun g e => g.updIn e.1 (fun i => { i with committed := i.committed ++ [e.2] })) g
    if m.eval then g else g.dropRef m.berth)
  let s := m.recv.foldl (fun s e => s.sendCommit n (e.1 / 8) (e.1 % 8) e.2 false) s
  s.checkStep n

/-- Commits every micro-batch that may commit. -/
def State.commitAll (s : State) (n : Nat) : State :=
  ((s.stage n).mbs.filter ((s.stage n).mayCommit)).foldl (fun s m => s.commitMb n m) s

/-- The last BSEQ up to which every barge of an in-stream has committed, from BSEQ `b` on. -/
def InStream.committedUpto (i : InStream) : Nat → Nat → Option Nat → Option Nat
  | 0, _, acc => acc
  | fuel + 1, b, acc => if i.committed.contains b then InStream.committedUpto i fuel (wrap32 (b + 1)) (some b) else acc

/-- After MARK_ACK, a cumulative COMMIT goes to each sender (R392). -/
def State.sendCumulative (s : State) (n : Nat) : State :=
  let g := s.stage n
  (g.ins).foldl (fun s e =>
    match e.2.seals with
    | [] => s
    | q :: _ => match e.2.committedUpto e.2.seals.length q.1 none with
      | some b => s.sendCommit n (e.1 / 8) (e.1 % 8) b true
      | none => s) s

/-- Frees retained barges that a test names (R391). -/
def State.freeRetained (s : State) (n k : Nat) (p : OutBarge → Bool) : State :=
  s.updStage n (fun g => g.updOut k (fun o => { o with retained := o.retained.filter (fun b => !p b) }))

/-! ### Checkpoint packets (R456) -/

/-- OBJECT of a CKPT packet. -/
def ckptObject (sub va : Nat) : Nat := sub * 2 ^ 60 + va % 2 ^ 48

/-- Sends a CKPT packet and notes that its reply is awaited. -/
def State.ckptSend (s : State) (part dst dstPart sub va : Nat) (payload : List Byte) (poison : Bool) (what : CkptUse) :
    State :=
  let tag := s.pipe.ckptTag
  let object := ckptObject sub va
  let s := { s with pipe := { s.pipe with
    ckptTag := wrap32 (tag + 1), ckptSent := s.pipe.ckptSent ++ [CkptSent.mk tag object dst what] } }
  let (s, r) := s.sendPacket part 0x30 0 dst dstPart object tag payload poison
  if r = .ok then s else { s with pipe := { s.pipe with ckptFail := s.pipe.ckptFail ++ [what] } }

/-- The registered extent that holds an access of a package (R457). -/
def State.acceptFor (s : State) (srcPkg part va len : Nat) : Option Accept :=
  s.pipe.accepts.findSome? (fun e => match e.2 with
    | some a => if a.srcPkg == srcPkg && a.part == part && decide (a.va ≤ va ∧ va + len ≤ a.va + a.bytes) then some a else none
    | none => none)

/-- Some CKPT packet that a test names waits for its reply. -/
def State.ckptWaits (s : State) (p : CkptUse → Bool) : Bool := s.pipe.ckptSent.any (fun c => p c.what)

/-- Forgets the CKPT packets that a test names. -/
def State.ckptDrop (s : State) (p : CkptUse → Bool) : State :=
  { s with pipe := { s.pipe with ckptSent := s.pipe.ckptSent.filter (fun c => !p c.what) } }

/-- Sends an extent of partition memory to a place in the buddy's mirror region as DATA. -/
def State.mirror (s : State) (n va bytes dst : Nat) (ue : List Nat) (what : CkptUse) : State :=
  let g := s.stage n
  (List.range (ceilDiv bytes 4096)).foldl (fun s k =>
    let len := min 4096 (bytes - 4096 * k)
    let a := va + 4096 * k
    let s := s.chargeExtent g.part 6 a len false
    s.ckptSend g.part g.cfg.buddyPkg g.cfg.buddyPart 1 (dst + 4096 * k) (s.readVA g.part a len)
      (s.extentPoison ue g.part a len) what) s

/-- Asks the buddy for an extent of its mirror region, 4 KiB at a time. -/
def State.askBuddy (s : State) (n src bytes : Nat) (what : Nat → CkptUse) : State :=
  let g := s.stage n
  (List.range (ceilDiv bytes 4096)).foldl (fun s k =>
    s.ckptSend g.part g.cfg.buddyPkg g.cfg.buddyPart 4 (src + 4096 * k) (toBytes (min 4096 (bytes - 4096 * k)) 4) false
      (what (4096 * k))) s

/-! ### Shard records (Table 8.10) -/

structure Shard where
  words : List Nat
  blockLog2 : Nat
  fmt : Nat
  kind : Nat
  tensor : Nat
  va : Nat
  scaleVa : Nat
  count : Nat
  deriving DecidableEq, Repr

/-- Reads a shard record. -/
def Shard.ofWords (ws : List Nat) : Shard :=
  let w := fun i => ws.getD i 0
  { words := ws.take 16, blockLog2 := bits (w 0) 19 16, fmt := bits (w 0) 15 12, kind := bits (w 0) 11 4, tensor := w 1,
    va := w 10 + 2 ^ 32 * w 11, scaleVa := w 12 + 2 ^ 32 * w 13, count := w 8 + 2 ^ 32 * w 9 }

/-- Bytes of a shard's elements and of its block scales. -/
def Shard.bytes (x : Shard) : Nat := ceilDiv (x.count * elemBits x.fmt) 8
def Shard.scaleBytes (x : Shard) : Nat := if x.scaleVa = 0 then 0 else ceilDiv x.count (2 ^ x.blockLog2)

/-- The shards of a list in partition memory. -/
def State.shards (s : State) (part va n : Nat) : List Shard :=
  (List.range n).map (fun i => Shard.ofWords (bytesToWords (s.readVA part (va + 64 * i) 64)))

/-- A stage's gradient accumulators (R388). -/
def State.gradShards (s : State) (g : StageSlot) : List Shard :=
  (s.shards g.part g.cfg.gradVa g.cfg.gradCount).filter (fun x => x.kind == 4)

/-- Bytes of a mark image. -/
def State.markBytes (s : State) (g : StageSlot) : Nat := 64 + ((s.gradShards g).map Shard.bytes).foldl (· + ·) 0
/-- Address of the mark image in the mirror region (R362). -/
def StageRec.markVa (c : StageRec) : Nat := c.buddyVa + 8 * c.berthBytes
/-- Address of the checkpoint region (R458). -/
def State.areaVa (s : State) (g : StageSlot) : Nat := alignUp (g.cfg.markVa + s.markBytes g) (2 ^ 21)

/-- Stream counters: keys 0 to 15 in-streams, 16 to 31 out-streams. -/
def StageSlot.counters (g : StageSlot) : List (Nat × Nat) :=
  (List.range 16).map (fun k => (k, (g.inS k).next)) ++ (List.range 16).map (fun k => (16 + k, (g.outS k).next))
/-- Value of a counter. -/
def counterOf (l : List (Nat × Nat)) (k : Nat) : Nat :=
  match listFind (fun e => e.1 == k) l with
  | some e => e.2
  | none => 0

/-! ### TAKEOVER_EST_US (R399) -/

/-- A micro-batch's backward entries have begun. -/
def StageSlot.backBegun (g : StageSlot) (m : MbRec) : Bool :=
  m.backDone || m.recv.any (fun e => e.1 / 8 == 1) ||
    (match g.running with
     | some r => r.notices.any (fun x => let w := (g.table.getD []).getD x.entry 0
        bits w 3 0 != 1 && bits w 31 16 == m.mb && bits w 12 10 == m.v)
     | none => false)

/-- T_take at the stage's state, in microseconds. -/
def State.takeoverEst (s : State) (g : StageSlot) : Nat :=
  if !g.cfg.spareEn || !g.hasBuddy then 0xFFFFFFFF
  else
    let open_ := g.mbs.filter (fun m => !m.committed && !m.eval)
    let nb := (open_.filter g.backBegun).length
    let nf := open_.length - nb
    let tags := (open_.map (·.tag)).eraseDups
    let bytes := s.markBytes g + tags.length * g.cfg.berthBytes
    let t := fun (i ns n : Nat) => if n = 0 then Config.unmeasuredNs i else ns / n
    let (tf, tb) := match g.times with
      | some (a, b, c, d) => (t 0 a b, t 1 c d)
      | none => (Config.unmeasuredNs 0, Config.unmeasuredNs 1)
    sat32 (Config.takeoverFixedUs + bytes * 10 / (g.cfg.restorePorts * 1844000) + (nf * tf + nb * (tf + tb)) / 1000)

/-! ### The loss of a stage and its takeover (R397 to R402, R571) -/

/-- Sends LOST for the neighbour on the side that streams of `dir` come from. -/
def State.sendLost (s : State) (n dir pkg : Nat) : State :=
  let g := s.stage n
  s.pipeMsg g.cfg.sparePkg 0x05 dir 0 (g.cfg.srcStage dir) (g.epochOf dir) g.cfg.pipe pkg [g.cfg.srcStage dir]

/-- A neighbour of an active stage is lost (R397). A spare package that is lost itself replaces nothing (R402). -/
def State.neighbourLost (s : State) (n dir pkg : Nat) : State :=
  let g := s.stage n
  let spare := g.cfg.spareEn && (g.cfg.sparePkg != pkg || pkg == s.pkg.packageId)
  if g.lostOf dir || !(g.cfg.hasIn dir 0 || g.cfg.hasIn dir (g.cfg.v - 1)) then s
  else
    let s := s.updStage n (fun g =>
      let g := if dir = 0 then { g with upLost := true } else { g with downLost := true }
      { g with steps := g.steps.map (fun r => { r with peerLost := true, peerGone := r.peerGone || !spare }) })
    if spare then s.sendLost n dir pkg else s

/-- A takeover stops (R402, R463): steps that a restart kept end with PEER_LOST. -/
def State.stopTakeover (s : State) (n : Nat) : State :=
  (s.updStage n (fun g => { g with
    takeover := g.takeover.map (fun t => { t with stopped := true, kept := [] }),
    steps := match g.takeover with
      | some t => t.kept.map (fun r => { r with stuck := true, peerGone := true })
      | none => g.steps })).checkStep n

/-- The buddy of a stage is lost (R576, R402): marks and mirrors in flight end as without a buddy. -/
def State.buddyLost (s : State) (n : Nat) : State :=
  let g := s.stage n
  if !g.hasBuddy then s
  else
    let s := s.record 0x0709 2 g.part srcStage n g.cfg.buddyPkg 0 0 0 (ownerAnd g.part)
    let s := s.updStage n (fun g => { g with
      buddyGone := true, estUs := 0xFFFFFFFF, markAcked := g.markNo })
    let s := s.stopTakeover n
    let s := s.ckptDrop (fun u => match u with
      | .berth m _ | .mark m _ | .control m | .berthBack m _ _ | .image m _ | .area m _ | .shard m _ | .write m => m == n
      | _ => false)
    let s := match g.write with
      | some w => (s.updStage n (fun g => { g with write := none })).commit w.cmd stPeerLost []
      | none => s
    let mine := s.pipe.jobs.filter (fun j => j.slot == n)
    let s := { s with pipe := { s.pipe with jobs := s.pipe.jobs.filter (fun j => j.slot != n) } }
    let s := mine.foldl (fun s j => s.commit j.cmd stPeerLost []) s
    let s := (List.range 8).foldl (fun s b => s.berthReady n b) s
    s.commitAll n

/-- Every stage of this package meets the loss of package `pkg` (R397, R576). -/
def State.pkgLost (s : State) (pkg : Nat) : State :=
  (s.pipe.slots.filter (fun e => e.2.bound && !e.2.spare)).foldl (fun s e =>
    let n := e.1
    let s := if e.2.cfg.upPkg = pkg ∧ pkg ≠ s.pkg.packageId then s.neighbourLost n 0 pkg else s
    let s := if e.2.cfg.downPkg = pkg ∧ pkg ≠ s.pkg.packageId then s.neighbourLost n 1 pkg else s
    if e.2.cfg.buddyPkg = pkg then s.buddyLost n else s) s

/-- Sends TAKEOVER for a stage to the neighbour that `dir` names (0 the forward one): `value` is the spare's package. -/
def State.sendTakeover (s : State) (dst dir stage p epoch pipe value : Nat) : State :=
  let side := if dir = 0 then (if stage + 1 ≥ p then 0 else stage + 1) else (if stage = 0 then p - 1 else stage - 1)
  s.pipeMsg dst 0x06 dir 0 side epoch pipe value

/-- Slot `n` begins to stand in for a stage (Table 11.13 steps 2 and 4): the mark image and the control area are asked
for from the buddy. -/
def State.beginTakeover (s : State) (n stage epoch lostPkg cause : Nat) : State :=
  let s := s.updStage n (fun g => { g with
    spare := false, cfg := { g.cfg with stage := stage, spare := false }, epoch := epoch % 2 ^ 16,
    takeovers := sat32 (g.takeovers + 1), takeover := some { lostPkg := lostPkg, since := s.clk, cause := cause },
    steps := [], mbs := [], ins := [], outs := [] })
  let g := s.stage n
  let s := if g.hasBuddy then s.pipeMsg g.cfg.buddyPkg 0x06 0 0 stage g.epoch g.cfg.pipe s.pkg.packageId else s
  let s := s.askBuddy n g.cfg.markVa (s.markBytes g) (fun o => .image n o)
  s.askBuddy n (s.areaVa g) (0x1400 + 65536) (fun o => .area n o)

/-- Bytes gathered by offset. -/
def gathered (l : List (Nat × List Byte)) (off len : Nat) : List Byte :=
  let t : Tab Byte := []
  (l.foldl (fun t e => Tab.putAll 0 t e.1 e.2) t).getAll 0 off len

/-- A directory entry: VALID, slot, STEP, BYTES; none when a pair fails (Table 13.10). -/
def dirEntry (b : List Byte) : Option (Bool × Nat × Nat × Nat) :=
  let w := fun i => ofBytes ((b.drop (4 * i)).take 4)
  if pair32 (w 0) (w 1) && pair32 (w 2) (w 3) then some (bit (w 0) 31, bits (w 0) 15 0, w 2, w 4 + 2 ^ 32 * w 5) else none

/-- The valid directory entries of a control area. -/
def areaDir (area : List (Nat × List Byte)) : List (Nat × Nat × Nat × Nat) :=
  (List.range 2048).filterMap (fun i => match dirEntry (gathered area (0x1400 + 32 * i) 32) with
    | some (true, slot, step, n) => some (i, slot, step, n)
    | _ => none)

/-- Reads the fields of a service record (Table 13.1) at `va`. -/
def Svc.ofWords (va : Nat) (ws : List Nat) : Svc :=
  let w := fun i => ws.getD i 0
  let d := fun i => w i + 2 ^ 32 * w (i + 1)
  { seed := d 2, step := w 1, va := va, listVa := d 4, listCount := bits (w 6) 11 0, recordLog2 := bits (w 7) 3 0,
    recordVa := d 8, lagSteps := if bits (w 10) 31 28 = 0 then 3 else bits (w 10) 31 28, lagSet := bits (w 10) 27 20,
    collector := bits (w 10) 19 0, lagEn := bit (w 11) 31, lagThresh := if bits (w 11) 9 0 = 0 then 30 else bits (w 11) 9 0,
    slotBytes := d 12, words := ws.take 16 }

/-- In-streams whose sender answers a takeover with RESEND_FROM. -/
def StageRec.inKeys (c : StageRec) : List Nat :=
  ((List.range c.v).flatMap (fun v => [sKey 0 v, sKey 1 v])).filter (fun k => c.hasIn (k / 8) (k % 8))

/-- The plan that a spare adopts (R463): it stands at the step of the mark image, whose STEP_RUN the takeover runs. -/
def StageSlot.spareWork (g : StageSlot) (t : Takeover) (k : Nat) : Plan :=
  let es := ((List.range 32).map (fun i => bytesToWords (gathered t.control (0x400 + 128 * i) 128))).takeWhile
    (fun e => e.getD 0 0 != 0)
  if es.isEmpty then g.plan
  else
    let run := fun (i : Nat) => let e := es.getD i []
      bits (e.getD 0 0) 11 0 == 0x404 && !bit (e.getD 4 0) 8
    { state := .running, entries := es, firstStep := (Config.sparePlan g.cfg.pipe g.cfg.stage k).1,
      left := (Config.sparePlan g.cfg.pipe g.cfg.stage k).2, step := k,
      flying := ((List.range es.length).filter run).map (fun i => (i, 0, k)),
      resumed := some ((areaDir t.control).map (fun e => (e.1, e.2.2.1))) }

/-- The granules that an extent meets: where it lies in each. -/
def granulesOf (va n : Nat) : List (Nat × Nat) :=
  if n = 0 then []
  else (List.range ((va + n - 1) / 4096 + 1 - va / 4096)).map (fun k =>
    let lo := max va (4096 * (va / 4096 + k))
    (lo, min (va + n) (4096 * (va / 4096 + k + 1)) - lo))

/-- The granules of an extent that read as poison. -/
def State.poisonedGranules (s : State) (part va n : Nat) : List (Nat × Nat) :=
  (granulesOf va n).filter (fun q => s.extentPoison [] part q.1 q.2)

/-- Asks for an extent of a shard from its checkpoint slot: all of it for a spare, its poisoned granules for a stage that
restarts after the loss of a memory unit (Table 17.3 step 5). -/
def State.askShard (s : State) (n slot va bytes : Nat) (spare : Bool) : State :=
  if spare then s.askBuddy n slot bytes (fun o => .shard n (va + o))
  else (s.poisonedGranules (s.stage n).part va bytes).foldl (fun s q =>
    s.askBuddy n (slot + (q.1 - va)) q.2 (fun o => .shard n (q.1 + o))) s

/-- Loads the checkpointed shards of a stage: each into the addresses of its state record. -/
def State.askShards (s : State) (n : Nat) (t : Takeover) : State :=
  let g := s.stage n
  let svc := Svc.ofWords 0 (bytesToWords (gathered t.control 0x200 64))
  let area := s.areaVa g
  (areaDir t.control).foldl (fun s e =>
    match (s.shards g.part (svc.listVa + 64 * e.1) 1).head? with
    | none => s
    | some x =>
      let slot := area + 2 ^ 21 + e.2.1 * svc.slotBytes
      (s.askShard n slot x.va x.bytes (t.cause == 0)).askShard n (slot + x.bytes) x.scaleVa x.scaleBytes (t.cause == 0)) s

/-- Steps 4 to 6 of Table 11.13, once everything read has come and both neighbours have answered: the accumulators, the
stream counters, the berths and the step of the mark image. -/
def State.resumeStage (s : State) (n : Nat) (t : Takeover) : State :=
  let g := s.stage n
  let head := gathered t.image 0 64
  let fld := fun i => Config.markField head i
  let k := fld 1
  let s := (s.gradShards g).foldl (fun (s : State × Nat) x =>
    (s.1.writeVA g.part x.va (gathered t.image s.2 x.bytes), s.2 + x.bytes)) (s, 64) |>.1
  let start := (List.range 32).map (fun i => (i, fld (3 + i)))
  let table := if t.cause = 0 then Config.spareTable g.cfg.pipe g.cfg.stage k else g.table.getD []
  let low := fun v => listFind (fun (e : Nat × Nat × Nat × Nat) => e.1 == (if g.cfg.hasIn 0 v then sKey 0 v else sKey 1 v)) t.resent
  let header := gathered t.control 0 512
  let hw := fun o => ofBytes ((header.drop o).take 4)
  let berths : Tab Berth := if t.cause ≠ 0 then g.berths.map (fun e => (e.1, { e.2 with refs := 0 }))
    else (List.range 8).foldl (fun (b : Tab Berth) i => b.put {} i {
        state := if bit (hw 0x48) 31 ∧ bits (hw 0x48) 2 0 = i then .current else .live, version := hw (0x28 + 4 * i),
        versionC := compl32 (hw (0x28 + 4 * i)),
        va := Config.spareBerthVa g.cfg.pipe g.cfg.stage i, restoring := true }) []
  let svc := Svc.ofWords 0 (bytesToWords (gathered t.control 0x200 64))
  let fresh : StepRun := {
    cmd := 0, eval := false, step := k,
    version := ((List.range 8).filterMap (fun i =>
      let x := berths.get {} i
      if x.state = BerthState.current then some x.version else none)).headD 0,
    deadline := none, timeoutUs := 0, inputVa := Config.spareInput g.cfg.pipe g.cfg.stage k, started := true,
    dups0 := g.dups, takenOver := true }
  let r0 := t.kept.headD fresh
  let same := decide (r0.step = k)
  let start := if same then start else r0.start
  let skip := (List.range g.cfg.v).flatMap (fun v => match low v with
    | some e => (List.range (seqDist (counterOf start e.1) e.2.1)).map (fun i => (i, v))
    | none => [])
  let r : StepRun := { r0 with
    next := 0, notices := [], takeovers := r0.takeovers + 1, start := start, skip := skip,
    coverEntry := if same then fld 2 else 0 }
  let s := s.updStage n (fun g => { g with
    takeover := none, markNo := fld 0, markAcked := fld 0, table := some table, berths := berths, steps := r :: t.kept.drop 1, ran := true,
    svc := if t.cause = 0 ∧ svc.words.any (· != 0) then some svc else g.svc,
    outs := (List.range 16).foldl (fun o k' =>
      let sk := (skip.filter (fun e => e.2 == k' % 8)).length
      o.upd {} k' (fun x => { x with next := wrap32 (counterOf start (16 + k') + (if g.cfg.sends (k' / 8) (k' % 8) then sk else 0)) }))
      g.outs })
  let cores := s.sliceCores g.slices
  let s := ((List.range cores.length).zip cores).foldl (fun s e =>
    s.startCore e.2 e.1 cores.length r.step 0 0xFFFFFFFF (.stage n)) s
  let us := (s.clk - t.since) / 1000
  let s := if t.cause = 0 then s.standbyJoin g.cfg.pipe t.lostPkg else s
  if t.cause = 0 then s.record 0x0706 2 g.part srcStage n g.cfg.stage t.lostPkg g.epoch us (ownerAnd g.part) else s

/-- The takeover of slot `n` goes on once its reads and its neighbours' answers are in. A spare first checks that the
checkpoint is at the step of the mark image or the one before it, and loads the shards (R463); under the same rule a stage that
restarts after the loss of a memory unit (cause 0x0404) loads the granules of its shards that read as poison (R573). -/
def State.tryResume (s : State) (n : Nat) : State :=
  let g := s.stage n
  match g.takeover with
  | none => s
  | some t =>
    let waits := s.ckptWaits (fun u => match u with
      | .image m _ | .area m _ | .shard m _ => m == n
      | _ => false)
    let k := Config.markField (gathered t.image 0 64) 1
    let dir := areaDir t.control
    if t.stopped || waits then s
    else if (t.cause ≠ 0 ∧ t.cause ≠ 0x0404) ∨ t.shards then
      if !g.cfg.inKeys.all (fun k => t.resent.any (fun e => e.1 == k)) then s else s.resumeStage n t
    else if dir.any (fun e => e.2.2.1 != k && e.2.2.1 + 1 != k) then
      let oldest := (dir.map (fun e => e.2.2.1)).foldl min k
      (s.record 0x0904 2 g.part srcStage n k oldest 0 0 (ownerAnd g.part)).stopTakeover n
    else
      let t := { t with shards := true }
      let s := (s.updStage n (fun g => { g with takeover := some t })).askShards n t
      let reads := if t.cause = 0 then !dir.isEmpty else s.ckptWaits (fun u => match u with
        | .shard m _ => m == n
        | _ => false)
      if reads || !g.cfg.inKeys.all (fun k => t.resent.any (fun e => e.1 == k)) then s else s.resumeStage n t

/-- An active stage of this package is lost while the package goes on (R402, R570, R574): its neighbours in the package
meet the loss, and the slot stops; a claim of it ends, so that another spare may replace it. -/
def State.stageGone (s : State) (n : Nat) : State :=
  let g := s.stage n
  let cores := s.sliceCores g.slices
  let s := s.haltCores g.part cores
  let s := s.updStage n (fun g => { g with steps := g.steps.map (fun r => { r with stuck := true, peerGone := true }) })
  let s := s.checkStep n
  let s := s.updStage n (fun g => { g with bound := false, slices := 0 })
  let s := { s with pipe := { s.pipe with claims := s.pipe.claims.filter (fun e => e.2.2 != n) } }
  (s.pipe.slots.filter (fun e => e.2.bound && !e.2.spare && e.2.cfg.pipe == g.cfg.pipe && e.1 != n)).foldl (fun s e =>
    let s := if e.2.cfg.upStage = g.cfg.stage ∧ e.2.cfg.upPkg = s.pkg.packageId then s.neighbourLost e.1 0 s.pkg.packageId else s
    if e.2.cfg.downStage = g.cfg.stage ∧ e.2.cfg.downPkg = s.pkg.packageId then s.neighbourLost e.1 1 s.pkg.packageId else s) s

/-- A stage restart begins (R571): the stage is its own spare. Without a buddy the job is lost. -/
def State.beginRestart (s : State) (n cause : Nat) : State :=
  let g := s.stage n
  if !g.hasBuddy then s.stageGone n
  else
    let epoch := (g.epoch + 1) % 2 ^ 16
    let s := s.record 0x0708 2 g.part srcStage n cause g.markAcked epoch 0 (ownerAnd g.part)
    let s := (s.sliceCores g.slices).foldl (fun s c => s.updCore c (fun k =>
      if k.state = .running then { k with state := .halted, halting := false, ax := [], vx := [], dx := [], qx := [] } else k)) s
    let kept := g.steps
    let s := s.beginTakeover n g.cfg.stage epoch s.pkg.packageId cause
    let s := s.updStage n (fun g => { g with
      restart := none, takeover := g.takeover.map (fun t => { t with kept := kept }) })
    let s := if g.cfg.hasIn 0 0 || g.cfg.v > 1 then s.sendTakeover g.cfg.upPkg 1 g.cfg.stage g.cfg.p epoch g.cfg.pipe s.pkg.packageId else s
    if g.cfg.hasIn 1 0 || g.cfg.v > 1 then s.sendTakeover g.cfg.downPkg 0 g.cfg.stage g.cfg.p epoch g.cfg.pipe s.pkg.packageId else s

end Sys2Proof.Machine
end

