-- ==== Sys2Proof/Machine/LossOps.lean ====
section
/-! DEFINITION. What the package makes of a lost partner (R345, R397, R402, R434, R576). -/

namespace Sys2Proof.Machine

/-- A port's partner is lost: `cause` 1 light, 2 heartbeats. -/
def State.peerLost (s : State) (port cause : Nat) : State :=
  let pkg := (s.port port).partner.map (·.pkg)
  let s := s.declareLost port cause
  match pkg with
  | some p => (s.pkgLost p).groupsLost p
  | none => s

end Sys2Proof.Machine
end

