-- ==== Sys2Proof/Machine/Packets.lean ====
section
/-! DEFINITION. The checks that a command passes before it is accepted (R527): the opcodes and the paths that may issue
them (Table 16.11), the assigned parameter bits of every opcode, and the values of its operation fields. -/

namespace Sys2Proof.Machine

/-! ### Opcodes and paths (Table 16.11) -/

/-- Who may issue an opcode. -/
inductive Admit where
  | any | control | partition | abort
  deriving DecidableEq, Repr

/-- The opcodes of Table 16.11. -/
def opcodeAdmit : List (Nat × Admit) :=
  [(0x001, .any), (0x002, .control), (0x003, .any), (0x011, .control), (0x020, .control), (0x030, .control), (0x031, .control),
   (0x040, .control), (0x041, .control), (0x101, .control), (0x102, .control), (0x103, .control), (0x105, .control),
   (0x110, .control), (0x111, .control), (0x112, .abort), (0x201, .partition), (0x202, .partition), (0x203, .partition),
   (0x210, .partition), (0x211, .partition), (0x212, .partition), (0x301, .partition), (0x302, .partition),
   (0x401, .partition), (0x402, .partition), (0x403, .partition), (0x404, .partition), (0x405, .partition),
   (0x501, .partition), (0x502, .partition), (0x503, .partition), (0x504, .partition),
   (0x601, .partition), (0x602, .partition), (0x603, .partition), (0x604, .partition),
   (0x701, .partition), (0x702, .partition), (0x703, .partition), (0x704, .partition), (0x705, .partition),
   (0x801, .partition), (0x802, .partition), (0x803, .partition), (0x901, .control), (0x902, .control)]

def admitOf (opc : Nat) : Option Admit := (listFind (fun e => e.1 == opc) opcodeAdmit).map (·.2)

/-- A path is a ring. -/
def pathIsRing : Path → Bool
  | .ring _ => true
  | _ => false

/-- The path may issue the packet's opcode (R559). Beside the table: writes by REG_ACCESS need the control path, and
PART_SET DBG may come on a partition's ring. -/
def State.mayIssue (s : State) (path : Path) (pk : Packet) : Bool :=
  let control := s.controlPath path
  match admitOf pk.opcode with
  | none => false
  | some .any => control || !(pk.opcode == 0x003 && pk.b 0x14 8)
  | some .control => control || (pk.opcode == 0x103 && pk.f 0x10 3 0 == 6 && pathIsRing path)
  | some .partition => control || s.pathPart path != 0
  | some .abort => control || pathIsRing path

/-! ### Assigned parameter bits -/

def all32 : Nat := 0xFFFFFFFF
/-- The bits of a package ID at level 1; bits 19:14 of its field are reserved for growth (R15, Table 1.8). -/
def pkgIdBits : Nat := 0x3FFF
/-- Whole words from offset `off`. -/
def wholeWords (off n : Nat) : List (Nat × Nat) := (List.range n).map (fun i => (off + 4 * i, all32))

/-- Assigned bits of PART_SET by OP (Table 15.4). -/
def partSetBits (op : Nat) : List (Nat × Nat) :=
  match op with
  | 1 => wholeWords 0x20 6
  | 2 => [(0x14, 0xFFFFFF)]
  | 3 => wholeWords 0x18 2
  | 4 => [(0x14, 7), (0x18, 0xFFFF), (0x1C, 0x80FFFFFF)]
  | 5 => [(0x14, 3), (0x18, all32)]
  | 6 | 7 => [(0x14, 3)]
  | _ => []

/-- The assigned bits of the parameter words of a packet: offset, mask. A word that is not listed is reserved. -/
def paramBits (control : Bool) (pk : Packet) : List (Nat × Nat) :=
  match pk.opcode with
  | 0x002 => [(0x10, 0xF)]
  | 0x003 => [(0x10, all32), (0x14, 0x107)] ++ wholeWords 0x18 8
  | 0x011 => [(0x10, 3), (0x14, pkgIdBits), (0x18, all32)]
  | 0x020 => [(0x10, 0x33F0F), (0x14, all32), (0x18, 0xFFF03)]
  | 0x030 => [(0x10, all32), (0x14, all32), (0x18, 7)]
  | 0x031 => [(0x10, 0xF), (0x14, 0xFFFF01FF)]
  | 0x040 => [(0x10, all32), (0x14, all32), (0x18, 0x7FFF), (0x1C, 1)]
  | 0x041 => [(0x10, 0xFFFFFF), (0x14, 7), (0x18, 0xF0FFFF0F), (0x1C, 0x81F00000 + pkgIdBits)]
  | 0x101 => [(0x10, 0xFFF), (0x14, 0xFFFFFF)] ++ wholeWords 0x18 8
  | 0x102 => [(0x10, 0xFF)]
  | 0x103 => (0x10, 0xFF0F) :: partSetBits (pk.f 0x10 3 0)
  | 0x105 => (0x10, 0x2DF) :: wholeWords 0x14 3
  | 0x110 => [(0x10, 0x1FF), (0x14, all32)]
  | 0x111 => [(0x10, 0x1FF)]
  | 0x112 => [(0x10, 0xFF03), (0x14, all32)]
  | 0x201 => wholeWords 0x10 6 ++ [(0x28, 0x77)]
  | 0x202 | 0x203 => wholeWords 0x10 4 ++ [(0x20, 0xFFFFFF), (0x24, 0x1F), (0x28, 0x77)]
  | 0x210 => if control then wholeWords 0x10 3 ++ [(0x1C, 0xF), (0x20, 0xFF)] ++ wholeWords 0x28 4
      else wholeWords 0x10 3 ++ [(0x1C, 3)]
  | 0x211 => wholeWords 0x10 3
  | 0x212 => wholeWords 0x10 2 ++ [(0x18, 1)]
  | 0x301 => wholeWords 0x10 3 ++ [(0x1C, 7)] ++ wholeWords 0x20 6 ++ [(0x38, 0xFF)]
  | 0x302 => wholeWords 0x10 3 ++ [(0x1C, 1)] ++ wholeWords 0x20 6 ++ [(0x38, 0xFF), (0x3C, all32)]
  | 0x401 => wholeWords 0x10 2 ++ [(0x18, if pk.f 0x18 9 8 = 1 then 0x380 else 0x3FF)]
  | 0x402 => (0x10, 0x337F) :: (0x14, all32) :: (if pk.b 0x10 12 then [] else wholeWords 0x18 3)
  | 0x403 => (0x10, 0xB77F) :: (if pk.f 0x10 13 12 = 1 then wholeWords 0x14 3 else [])
  | 0x404 => (0x10, 0x17F) :: wholeWords 0x14 5
  | 0x405 => (0x10, 0x37F) :: (if pk.f 0x10 9 8 = 1 then [(0x14, 0x3F)] ++ wholeWords 0x18 4 else []) ++ wholeWords 0x28 2
  | 0x501 => (0x10, 0x3CFFF03F) :: wholeWords 0x18 6 ++
      (if pk.f 0x10 29 28 = 2 ∧ pk.f 0x10 15 12 ≠ 0 then wholeWords 0x30 4 else [])
  | 0x502 => (0x10, 0x3F013F) :: wholeWords 0x14 7 ++ (if pk.b 0x10 8 then [] else [(0x30, all32)])
  | 0x503 => (0x10, 0x1F00BF) :: wholeWords 0x18 6 ++ (if pk.b 0x10 7 then wholeWords 0x30 2 else []) ++ [(0x38, 0xFF0FFFFF)]
  | 0x504 => wholeWords 0x10 2 ++ [(0x18, if pk.f 0x18 9 8 = 2 then 0x3BF else 0x380),
      (0x1C, if pk.f 0x18 9 8 = 3 then 0xFFFF else 0)]
  | 0x601 => (0x10, 0x37F) :: (0x14, if pk.f 0x10 9 8 = 1 then all32 else 0) :: wholeWords 0x18 4 ++ [(0x28, 0xFF00000 + pkgIdBits)]
  | 0x602 => [(0x10, 0x7F), (0x14, 0xFFF)] ++ wholeWords 0x18 2
  | 0x603 => [(0x10, 0x1FFF)] ++ wholeWords 0x14 5 ++ [(0x28, if pk.b 0x10 12 then 0xFFF else 0)]
  | 0x604 => [(0x10, 0x37F), (0x14, if pk.f 0x10 9 8 = 0 then 0xFFF else 0)] ++
      (if pk.f 0x10 9 8 = 2 then [] else wholeWords 0x18 2)
  | 0x701 => [(0x10, all32), (0x14, 0xFF)] ++ wholeWords 0x18 6
  | 0x702 => [(0x10, 0xFFFF), (0x14, all32)]
  | 0x703 => [(0x10, 0x1FFFF)] ++ wholeWords 0x14 4
  | 0x704 => [(0x10, 0x3F3F)]
  | 0x705 => wholeWords 0x10 2 ++ [(0x18, if pk.f 0x18 9 8 = 1 then 0x380 else 0x3BF)]
  | 0x801 => wholeWords 0x10 2 ++ [(0x18, 0x10F01FF)]
  | 0x802 => (0x10, 0x7F107) :: wholeWords 0x18 10
  | 0x803 => (0x10, 0xFF17F) :: wholeWords 0x18 6
  | 0x901 => [(0x10, 0x1F0F), (0x14, all32)]
  | 0x902 => [(0x10, 7)]
  | _ => []

/-- Mask of the word at `off`. -/
def maskAt (l : List (Nat × Nat)) (off : Nat) : Nat :=
  match listFind (fun e => e.1 == off) l with
  | some e => e.2
  | none => 0

/-- No reserved bit of the parameters is set. -/
def paramsClear (control : Bool) (pk : Packet) : Bool :=
  let l := paramBits control pk
  (List.range 12).all (fun i => andNot (pk.w (0x10 + 4 * i)) (maskAt l (0x10 + 4 * i)) == 0)

/-- The operation fields hold no reserved value, for which Table 16.10 gives FIELD_RESERVED; a field whose chapter lists a cause for a value
out of range is left to it (R527 check 6). -/
def opValueOk (pk : Packet) : Bool :=
  match pk.opcode with
  | 0x020 => decide (1 ≤ pk.f 0x10 3 0 ∧ pk.f 0x10 3 0 ≤ 9)
  | 0x041 => decide (pk.f 0x14 2 0 ≤ 5)
  | 0x103 => decide (1 ≤ pk.f 0x10 3 0 ∧ pk.f 0x10 3 0 ≤ 7)
  | 0x105 => decide (pk.f 0x10 7 6 = 1 ∨ pk.f 0x10 7 6 = 2)
  | 0x112 => decide (pk.f 0x10 1 0 = 1 ∨ pk.f 0x10 1 0 = 2)
  | 0x401 | 0x705 => decide (pk.f 0x18 9 8 = 1 ∨ pk.f 0x18 9 8 = 2)
  | 0x403 => decide (pk.f 0x10 13 12 ≠ 0)
  | 0x405 | 0x601 => decide (pk.f 0x10 9 8 ≠ 0)
  | 0x501 => decide (pk.f 0x10 29 28 ≠ 3)
  | 0x504 => decide (pk.f 0x18 9 8 ≠ 0)
  | 0x604 => decide (pk.f 0x10 9 8 ≠ 3)
  | 0x803 => decide (pk.f 0x10 1 0 = 1 ∨ pk.f 0x10 1 0 = 2)
  | _ => true

/-- R527 checks 1 to 5: the status of the first that fails. -/
def State.packetStatus (s : State) (path : Path) (pk : Packet) : Option Nat :=
  if !pk.pairOk then some stPairFault
  else if pk.opcode ≠ 1 ∧ pk.level ≠ s.pkg.runLevel ∧ ¬(pk.opcode = 2 ∧ pk.level = 1) then some stLevelUnsupported
  else if (admitOf pk.opcode).isNone then some stOpcodeUnknown
  else if pk.part ≠ s.pathPart path ∨ !s.mayIssue path pk then some stNotOwner
  else if bits pk.w0 23 18 ≠ 0 ∨ !paramsClear (s.controlPath path) pk ∨ !opValueOk pk then some stFieldReserved
  else none

/-- A command that comes on a path is accepted, or completes at once with what it fails (R527). -/
def State.takePacketOn (s : State) (path : Path) (pk : Packet) (sqHead : Nat) (m : Option Master) : State :=
  match s.packetStatus path pk with
  | none => s.accept path pk sqHead m
  | some st =>
    ({ s with cmd := { s.cmd with nextId := s.cmd.nextId + 1 } } : State).commitRaw s.cmd.nextId path pk sqHead st []

/-- A register write that takes effect only from the lock-keeper; any other is ignored and counted (R525). -/
def State.ownerWrite (s : State) (m : Master) (body : State → State) : State :=
  if s.isOwner m then body s else { s with own := { s.own with denied := sat32 (s.own.denied + 1) } }

end Sys2Proof.Machine
end

