-- ==== Sys2Proof/Machine/Stage.lean ====
section
/-! DEFINITION. The commands of pipeline stages (R362 to R365, R381 to R387, R394): STAGE_BIND, SCHEDULE_LOAD,
BERTH_PUBLISH, STEP_RUN. -/

namespace Sys2Proof.Machine

/-- Refuses with PIPE_REFUSED (R403). -/
def State.refusePipe (s : State) (f : Flight) (cause : Nat) (word : Nat := 0xFFFFFFFF) : State :=
  s.commit f.id stPipeRefused [cause, word]

/-! ### STAGE_BIND -/

/-- Reads a stage record. -/
def StageRec.ofWords (ws : List Nat) : StageRec :=
  let w := fun i => ws.getD i 0
  let d := fun i => w i + 2 ^ 32 * w (i + 1)
  let ring := fun i => (⟨d i, w (i + 2), w (i + 3)⟩ : RingEnt)
  { spare := bits (w 0) 7 6 == 1, pipe := bits (w 1) 15 0, stage := if bits (w 0) 7 6 = 1 then 0 else bits (w 1) 27 16,
    p := bits (w 2) 27 16 + 1, v := bits (w 2) 2 0 + 1, noticeType := bits (w 3) 31 24, noticeQueue := bits (w 3) 23 20,
    ahead := bits (w 3) 19 18 + 1, leadCore := bits (w 3) 10 0, markInterval := bits (w 4) 27 16,
    restorePorts := bits (w 4) 4 0, spareEn := bit (w 5) 31, sparePkg := bits (w 5) 19 0, upPkg := bits (w 6) 19 0,
    downPkg := bits (w 7) 19 0, buddyPkg := bits (w 8) 19 0, sparePart := bits (w 9) 31 24, buddyPart := bits (w 9) 23 16,
    downPart := bits (w 9) 15 8, upPart := bits (w 9) 7 0, slices := d 10 + 2 ^ 64 * d 12 + 2 ^ 128 * d 14,
    inFwd := ring 16, inBwd := ring 20, retFwd := ring 24, retBwd := ring 28, gradVa := d 32, gradCount := w 34,
    berthBytes := d 36, buddyVa := d 38 }

/-- A ring entry's fields are in range. -/
def RingEnt.ok (r : RingEnt) (maxDepth : Nat) : Bool :=
  r.va % 4096 == 0 && r.slotBytes % 4096 == 0 && decide (8192 ≤ r.slotBytes ∧ r.slotBytes ≤ 2 ^ 27 + 4096) &&
    decide (1 ≤ r.depth ∧ r.depth ≤ maxDepth)

/-- The fields of a stage record are as Table 11.1 has them. -/
def stageRecordOk (ws : List Nat) : Bool :=
  let w := fun i => ws.getD i 0
  let c := StageRec.ofWords ws
  bits (w 0) 31 8 == 0 && decide (bits (w 0) 7 6 ≤ 1) && bits (w 0) 5 4 == 0 && bits (w 0) 3 0 == 1 &&
  bits (w 1) 31 28 == 0 && bits (w 2) 31 28 == 0 && bits (w 2) 15 3 == 0 && bits (w 3) 17 11 == 0 &&
  bits (w 4) 31 28 == 0 && bits (w 4) 15 5 == 0 && bits (w 5) 30 20 == 0 && bits (w 6) 31 20 == 0 &&
  bits (w 7) 31 20 == 0 && bits (w 8) 31 20 == 0 && w 35 == 0 && (List.range 8).all (fun i => w (40 + i) == 0) &&
  decide (c.stage < c.p) && decide (c.noticeType ≤ 0xEF) && decide (c.leadCore < 1536) && bit c.slices (c.leadCore / 8) &&
  decide (1 ≤ c.restorePorts ∧ c.restorePorts ≤ 24) && c.inFwd.ok 64 && c.inBwd.ok 64 && c.retFwd.ok 4096 &&
  c.retBwd.ok 4096 && decide (c.gradCount ≤ 256)

/-- The partition holds a grant on some port that R336 gives toward a package. -/
def State.grantToward (s : State) (part dst : Nat) : Bool :=
  dst == s.pkg.packageId ||
    (let e := ((s.routeChamber 0).bank.get noRoute dst).1
     bit e 31 && !bit e 30 && (s.granted part (bits e 14 10) || (bit e 27 && s.granted part (bits e 9 5))))

/-- Packages that a stage's traffic goes to. -/
def StageRec.partners (c : StageRec) : List Nat :=
  let up := decide (0 < c.stage ∨ 1 < c.v)
  let down := decide (c.stage + 1 < c.p ∨ 1 < c.v)
  (if up && !c.spare then [c.upPkg] else []) ++ (if down && !c.spare then [c.downPkg] else []) ++
    (if c.buddyPkg = 0xFFFFF then [] else [c.buddyPkg]) ++ (if c.spareEn then [c.sparePkg] else [])

/-- The cause that a BIND is refused with, in the order of Table 11.14. -/
def State.bindCause (s : State) (part : Nat) (ws : List Nat) : Option Nat :=
  let c := StageRec.ofWords ws
  let bound := s.pipe.slots.filter (fun e => e.2.bound)
  let cores := s.sliceCores c.slices
  if !stageRecordOk ws then some 0x02
  else if !c.spare && bound.any (fun e => !e.2.spare && e.2.cfg.pipe == c.pipe && e.2.cfg.stage == c.stage) then some 0x03
  else if bound.length ≥ 96 then some 0x04
  else if c.slices = 0 ∨ !s.ownsSlices part c.slices ∨ bound.any (fun e => e.2.slices &&& c.slices != 0) ∨
      (List.range 96).any (fun r => bit c.slices (2 * r) != bit c.slices (2 * r + 1)) then some 0x05
  else if c.partners.any (fun p => !s.grantToward part p) then some 0x06
  else if cores.any (fun c => (s.core c).image.isNone) then some 0x0D
  else none

/-- An extent that a command needs cannot be read: its tier is under test, or it does not translate. -/
def State.unreadable (s : State) (part va n : Nat) : Bool :=
  s.extentAsleep part va n || (s.extentFault part va n false).isSome

/-- A command fails on extents that cannot be used: a tier is under test (R241), or it ends with `st`, and a page table
entry whose pair failed is mended (R218). -/
def State.failExtents (s : State) (f : Flight) (part : Nat) (l : List (Nat × Nat)) (st : Nat) : State :=
  if l.any (fun e => s.extentAsleep part e.1 e.2) then s.failWith f stDomainAsleep else (s.notePairs part l).failWith f st

/-- A parameter cannot be read. -/
def State.failParam (s : State) (f : Flight) (part va n : Nat) : State := s.failExtents f part [(va, n)] stNotOwner

/-- The record's bytes, or the status that reading it ends with. -/
def State.paramBytes (s : State) (part va n : Nat) (isHost : Bool) (host : Option (List Byte)) (ue : List Nat) :
    Except Bool (List Byte) :=
  if isHost then match host with
    | some b => if b.length = n then .ok b else .error true
    | none => .error true
  else if s.unreadable part va n then .error false
  else if s.extentPoison ue part va n then .error true
  else .ok (s.readVA part va n)

/-- Charges a parameter read (R514). -/
def State.chargeParam (s : State) (f : Flight) (va n : Nat) (isHost : Bool) : State :=
  if isHost then s.charge (s.actsFor f) 3 n else s.chargeExtent (s.actsFor f) (s.pathDie f.path) va n false

/-- STAGE_BIND with OP BIND (R363, R364). `host` is what a RECORD_HOST read returns. -/
def execStageBind (path : Path) (pk : Packet) (host : Option (List Byte)) (ue : List Nat) (s : State) : Out :=
  beginOn path pk (ofOpField 0x401 0x18 9 8 1) {
      res := fun s => if pk.b 0x18 7 then [3] else s.extentRes (s.pathPart path) (s.pathDie path) (pk.d 0x10) 192 } s (fun f s =>
    let part := s.actsFor f
    let s := s.chargeParam f (pk.d 0x10) 192 (pk.b 0x18 7)
    match s.paramBytes part (pk.d 0x10) 192 (pk.b 0x18 7) host ue with
    | .error false => s.failParam f part (pk.d 0x10) 192
    | .error true => s.refusePipe f 0x02
    | .ok b =>
      let ws := bytesToWords b
      if s.otherLevel (bits (ws.getD 0 0) 3 0) then s.failWith f stLevelUnsupported
      else match s.bindCause part ws with
      | some c => s.refusePipe f c
      | none =>
        let c := StageRec.ofWords ws
        let n := (listFind (fun i => !(s.stage i).bound) (List.range 96)).getD 0
        let s := { s with pipe := { s.pipe with slots := s.pipe.slots.put {} n {
          bound := true, part := part, slices := c.slices, cfg := c, spare := c.spare } } }
        s.done f [n, c.stage * 2 ^ 16 + c.pipe, 0, 0])

/-- Frees a stage slot. -/
def State.freeStage (s : State) (n : Nat) : State :=
  { s with pipe := { s.pipe with
    slots := s.pipe.slots.put {} n {}, claims := s.pipe.claims.filter (fun e => e.2.2 != n) } }

/-- STAGE_BIND with OP UNBIND (R363). -/
def execStageUnbind (path : Path) (pk : Packet) (s : State) : Out :=
  beginOn path pk (ofOpField 0x401 0x18 9 8 2) {} s (fun f s =>
    let n := pk.f 0x18 6 0
    let g := s.stage n
    if n ≥ 96 ∨ !g.bound ∨ g.part ≠ s.actsFor f then s.refusePipe f 0x01
    else if !g.steps.isEmpty || g.takeover.any (fun t => !t.kept.isEmpty) then s.refusePipe f 0x07
    else (s.freeStage n).done f)

/-! ### Schedules (R382 to R384) -/

def fwdWord (i v : Nat) : Nat := i * 2 ^ 16 + v * 2 ^ 10 + 1
def bwdWord (i v : Nat) : Nat := i * 2 ^ 16 + v * 2 ^ 10 + 2
def bwdInWord (i v : Nat) : Nat := i * 2 ^ 16 + v * 2 ^ 10 + 3
def bwdWWord (i v : Nat) : Nat := i * 2 ^ 16 + v * 2 ^ 10 + 4
def markWord : Nat := 5

def fillDrain (m : Nat) : List Nat := (List.range m).map (fwdWord · 0) ++ (List.range m).map (bwdWord · 0)

def oneFOneB (p st m : Nat) : List Nat :=
  let w := min (p - 1 - st) m
  (List.range w).map (fwdWord · 0) ++
    (List.range (m - w)).flatMap (fun i => [fwdWord (w + i) 0, bwdWord i 0]) ++
    (List.range w).map (fun i => bwdWord (m - w + i) 0)

def interleaved (p st v m : Nat) : List Nat :=
  let fo := fun k => (k / (p * v) * p + k % (p * v) % p, k % (p * v) / p)
  let fwd := fun k => fwdWord (fo k).1 (fo k).2
  let bwd := fun k => bwdWord (fo k).1 (v - 1 - (fo k).2)
  let w := min ((v - 1) * p + 2 * (p - 1 - st)) (m * v)
  (List.range w).map fwd ++ (List.range (m * v - w)).flatMap (fun k => [fwd (w + k), bwd k]) ++
    (List.range w).map (fun k => bwd (m * v - w + k))

def splitBackward (p st m : Nat) : List Nat :=
  let d := p - 1 - st
  let body := (oneFOneB p st m).flatMap (fun e =>
    if bits e 3 0 = 2 then
      let j := bits e 31 16
      bwdInWord j 0 :: (if d ≤ j then [bwdWWord (j - d) 0] else [])
    else [e])
  body ++ (List.range (min d m)).map (fun i => bwdWWord (m - min d m + i) 0)

/-- Inserts the MARK entries: after every K-th BWD or BWD_W, and at the end. -/
def insertMarks (k : Nat) (es : List Nat) : List Nat :=
  let r := es.foldl (fun (a : List Nat × Nat) e =>
    let back := bits e 3 0 == 2 || bits e 3 0 == 4
    let n := if back then a.2 + 1 else a.2
    if back && k != 0 && n % k == 0 then (markWord :: e :: a.1, n) else (e :: a.1, n)) ([], 0)
  match r.1 with
  | [] => [markWord]
  | e :: _ => (if e = markWord then r.1 else markWord :: r.1).reverse

/-- The table of a kind for stage `st`. -/
def genTable (kind p v st m k : Nat) : List Nat :=
  insertMarks k (match kind with
    | 0 => fillDrain m
    | 1 => oneFOneB p st m
    | 2 => interleaved p st v m
    | _ => splitBackward p st m)

/-- U_MAX of a table (R384). -/
def tableUMax (es : List Nat) : Nat :=
  (es.foldl (fun (a : Nat × Nat × Nat) e =>
    match bits e 3 0 with
    | 1 => (a.1 + 1, a.2.1, max a.2.2 (a.1 + 1))
    | 2 | 4 => (a.1, a.2.1 + 1, a.2.2)
    | 5 => (a.1 - a.2.1, 0, a.2.2)
    | _ => a) (0, 0, 0)).2.2

/-- What a check of a loaded table keeps of a chunk: last FWD, last BWD or BWD_IN, and which are done. -/
structure TableScan where
  fwd : List (Nat × Nat) := []
  back : List (Nat × Nat) := []
  wgt : List (Nat × Nat) := []
  deriving DecidableEq, Repr

/-- Entry `e` fails after what came before it (R383). -/
def TableScan.bad (t : TableScan) (kind m v e : Nat) : Bool :=
  let o := bits e 3 0
  let i := bits e 31 16
  let c := bits e 12 10
  let key := (i, c)
  let above := fun (l : List (Nat × Nat)) => l.any (fun x => x.2 == c && decide (i ≤ x.1))
  bits e 15 13 != 0 || bits e 9 4 != 0 ||
  (match o with
   | 1 => decide (m ≤ i) || decide (v ≤ c) || above t.fwd
   | 2 => kind == 3 || !t.fwd.contains key || above t.back
   | 3 => kind != 3 || !t.fwd.contains key || above t.back
   | 4 => kind != 3 || !t.back.contains key || t.wgt.contains key
   | 5 => i != 0 || c != 0
   | _ => true)

def TableScan.take (t : TableScan) (e : Nat) : TableScan :=
  let key := (bits e 31 16, bits e 12 10)
  match bits e 3 0 with
  | 1 => { t with fwd := key :: t.fwd }
  | 2 | 3 => { t with back := key :: t.back }
  | 4 => { t with wgt := key :: t.wgt }
  | _ => t

/-- The first entry of a table that fails, or none with what the whole table holds. -/
def scanTable (kind m v : Nat) : List Nat → Nat → TableScan → Except Nat TableScan
  | [], _, t => .ok t
  | e :: es, i, t => if t.bad kind m v e then .error i else scanTable kind m v es (i + 1) (t.take e)

/-- Checks a loaded table (R383): the index that result word 1 carries, if it fails. -/
def tableFault (kind m v : Nat) (es : List Nat) : Option Nat :=
  match scanTable kind m v es 0 {} with
  | .error i => some i
  | .ok t =>
    if t.fwd.length ≠ m * v ∨ t.back.length ≠ m * v ∨ (kind = 3 ∧ t.wgt.length ≠ m * v) then some 0xFFFFFFFF
    else if es.getLast?.map (bits · 3 0) ≠ some 5 then some (es.length - 1)
    else none

/-- The stage slot that a command of Table 11.6, 11.9 or 11.11 names: bound, ACTIVE and of the path's partition. -/
def State.activeSlot (s : State) (f : Flight) (n : Nat) : Option Nat :=
  let g := s.stage n
  if n ≥ 96 ∨ !g.bound ∨ g.part ≠ s.actsFor f then some 0x01 else if g.spare then some 0x0E else none

/-- A step of the stage runs or is held. -/
def StageSlot.stepping (g : StageSlot) : Bool := !g.steps.isEmpty || g.takeover.isSome

/-- Sets a stage's schedule when its retained rings are deep enough (R384). -/
def State.setTable (s : State) (f : Flight) (n : Nat) (es : List Nat) (u : Nat) : State :=
  let g := s.stage n
  if g.cfg.retFwd.depth < u ∨ g.cfg.retBwd.depth < u then s.refusePipe f 0x09
  else (s.updStage n (fun g => { g with table := some es, uMax := u })).done f
    [es.length, u, (es.filter (fun e => bits e 3 0 == 5)).length, 0]

/-- A SCHEDULE_LOAD packet with GENERATE 0 or 1. -/
def schedKind (gen : Bool) (pk : Packet) : Bool := pk.opcode == 0x402 && pk.b 0x10 12 == gen

/-- SCHEDULE_LOAD with GENERATE 1 (R382). -/
def execScheduleGenerate (path : Path) (pk : Packet) (s : State) : Out :=
  beginOn path pk (schedKind true) {} s (fun f s =>
    let n := pk.f 0x10 6 0
    let kind := pk.f 0x10 9 8
    let m := pk.w 0x14
    if m = 0 ∨ m > 65536 then s.failWith f stFieldReserved
    else match s.activeSlot f n with
      | some c => s.refusePipe f c
      | none =>
        let g := s.stage n
        let c := g.cfg
        if g.stepping then s.refusePipe f 0x07
        else if (kind = 2 ∧ (c.v = 1 ∨ m % c.p ≠ 0)) ∨ (kind ≠ 2 ∧ c.v ≠ 1) then s.refusePipe f 0x08
        else
          let es := genTable kind c.p c.v c.stage m c.markInterval
          if es.length > 4096 then s.refusePipe f 0x08
          else
            let u := ((List.range c.p).map (fun i => tableUMax (genTable kind c.p c.v i m c.markInterval))).foldl max 0
            s.setTable f n es u)

/-- SCHEDULE_LOAD with GENERATE 0 (R383). `host` is what a TABLE_HOST read returns. -/
def execScheduleLoad (path : Path) (pk : Packet) (host : Option (List Byte)) (ue : List Nat) (s : State) : Out :=
  beginOn path pk (schedKind false) {
      res := fun s => if pk.b 0x10 13 then [3] else s.extentRes (s.pathPart path) (s.pathDie path) (pk.d 0x18)
        (4 * min (pk.w 0x20) 4096) } s (fun f s =>
    let n := pk.f 0x10 6 0
    let m := pk.w 0x14
    let bytes := 4 * pk.w 0x20
    if m = 0 ∨ m > 65536 ∨ pk.w 0x20 = 0 ∨ pk.w 0x20 > 4096 ∨ pk.d 0x18 % 4 ≠ 0 then s.failWith f stFieldReserved
    else match s.activeSlot f n with
      | some c => s.refusePipe f c
      | none =>
        let g := s.stage n
        if g.stepping then s.refusePipe f 0x07
        else
         let s := s.chargeParam f (pk.d 0x18) bytes (pk.b 0x10 13)
         match s.paramBytes g.part (pk.d 0x18) bytes (pk.b 0x10 13) host ue with
          | .error false => s.failParam f g.part (pk.d 0x18) bytes
          | .error true => s.refusePipe f 0x08
          | .ok b =>
            let es := bytesToWords b
            match tableFault (pk.f 0x10 9 8) m g.cfg.v es with
            | some i => s.refusePipe f 0x08 i
            | none => s.setTable f n es (tableUMax es))

/-! ### BERTH_PUBLISH (R386) -/

/-- A BERTH_PUBLISH packet of an OP. -/
def berthKind (op : Nat) (pk : Packet) : Bool := pk.opcode == 0x403 && pk.f 0x10 13 12 == op

/-- BERTH_PUBLISH with OP PUBLISH: the mirror is copied to the buddy, or the berth is ready at once. -/
def execBerthPublish (path : Path) (pk : Packet) (ue : List Nat) (s : State) : Out :=
  beginOn path pk (berthKind 1) {} s (fun f s =>
    let n := pk.f 0x10 6 0
    let b := pk.f 0x10 10 8
    let va := pk.d 0x18
    if va % 4096 ≠ 0 then s.failWith f stFieldReserved
    else match s.activeSlot f n with
      | some c => s.refusePipe f c
      | none =>
        let g := s.stage n
        if g.maxVersion.any (fun v => decide (pk.w 0x14 ≤ v)) then s.refusePipe f 0x0B
        else if (g.berths.get {} b).state ≠ .free then s.refusePipe f 0x0C
        else if s.unreadable g.part va g.cfg.berthBytes then
          s.failParam f g.part va g.cfg.berthBytes
        else
          let s := s.updStage n (fun g => { g with
            maxVersion := some (pk.w 0x14),
            berths := g.berths.put {} b { state := .loading, version := pk.w 0x14,
                                          versionC := compl32 (pk.w 0x14), va := va,
                                          currentOnDone := pk.b 0x10 15, cmd := some f.id } })
          if g.hasBuddy && g.cfg.berthBytes != 0 then
            s.mirror n va g.cfg.berthBytes (g.cfg.buddyVa + b * g.cfg.berthBytes) ue (.berth n b)
          else s.berthReady n b)

/-- A command on a READY berth. -/
def onReadyBerth (op : Nat) (path : Path) (pk : Packet) (s : State) (go : StageSlot → Nat → StageSlot) : Out :=
  beginOn path pk (berthKind op) {} s (fun f s =>
    let n := pk.f 0x10 6 0
    let b := pk.f 0x10 10 8
    match s.activeSlot f n with
    | some c => s.refusePipe f c
    | none =>
      let v := ((s.stage n).berths.get {} b).version
      if ((s.stage n).berths.get {} b).state ≠ .ready then s.refusePipe f 0x0C
      else
        let s := s.updStage n (fun g => go g b)
        s.done f [v, (((s.stage n).berths.get {} b).words).getD 1 0])

/-- BERTH_PUBLISH with OP MAKE_CURRENT. -/
def execMakeCurrent (path : Path) (pk : Packet) (s : State) : Out :=
  onReadyBerth 2 path pk s (fun g b => g.makeCurrent b)

/-- BERTH_PUBLISH with OP RETIRE. -/
def execBerthRetire (path : Path) (pk : Packet) (s : State) : Out :=
  onReadyBerth 3 path pk s (fun g b => { g with berths := g.berths.put {} b {} })

/-! ### STEP_RUN (R394) -/

/-- The stage's cores start for a step (R394). -/
def State.startStep (s : State) (n : Nat) (r : StepRun) : State :=
  let s := s.updStage n (fun g => (g.updStep r.cmd (fun r => { r with
    started := true, deadline := if r.timeoutUs = 0 then none else some (s.clk + 1000 * r.timeoutUs), dups0 := g.dups,
    start := g.counters })))
  let cores := s.sliceCores (s.stage n).slices
  let s := ((List.range cores.length).zip cores).foldl (fun s e =>
    s.startCore e.2 e.1 cores.length r.step 0 0xFFFFFFFF (.stage n)) s
  s.updStage n (fun g => { g with ran := true })

/-- STEP_RUN. DEDUCED: a stage whose cores another command holds is BUSY. -/
def execStepRun (path : Path) (pk : Packet) (s : State) : Out :=
  beginOn path pk (ofOp 0x404)
    { doms := fun s => ((s.sliceCores (s.stage (pk.f 0x10 6 0)).slices).map coreDomain).eraseDups } s (fun f s =>
    let n := pk.f 0x10 6 0
    match s.activeSlot f n with
    | some c => s.refusePipe f c
    | none =>
      let g := s.stage n
      let cores := s.sliceCores g.slices
      let ver := (List.range 8).any (fun b => let x := g.berths.get {} b
        x.state == .current && x.version == pk.w 0x18)
      if g.cfg.stage ≠ 0 ∧ pk.d 0x20 ≠ 0 then s.failWith f stFieldReserved
      else if g.steps.length ≥ 2 || g.takeover.isSome then s.refusePipe f 0x07
      else if g.steps.isEmpty && cores.any (fun c => (s.core c).state == .running || (s.core c).state == .moving ||
          (s.core c).holder != .none) then s.refusePipe f 0x07
      else if g.table.isNone then s.refusePipe f 0x0A
      else if !ver then s.refusePipe f 0x0B
      else if cores.any (fun c => (s.core c).image.isNone) then s.refusePipe f 0x0D
      else
        let r : StepRun := {
          cmd := f.id, eval := pk.b 0x10 8, step := pk.w 0x14, version := pk.w 0x18, deadline := none,
          timeoutUs := pk.w 0x1C, inputVa := pk.d 0x20, started := false,
          peerLost := g.upLost || g.downLost, peerGone := (g.upLost || g.downLost) && !g.cfg.spareEn }
        let s := s.updStage n (fun g => { g with steps := g.steps ++ [r] })
        if g.steps.isEmpty then s.startStep n r else s)

end Sys2Proof.Machine
end

