-- ==== Sys2Proof/Machine/Pipe.lean ====
section
/-! DEFINITION. The events of the pipe controllers (R366 to R401): barges and PIPE messages as they arrive, work notices,
SEAL and DONE, marks, commits, timeouts, takeovers. -/

namespace Sys2Proof.Machine

/-! ### Barges arriving (R372 to R374) -/

/-- A duplicate (R372): discarded and counted; a descriptor is answered, and its SEAL compared. -/
def State.duplicate (s : State) (n dir v b : Nat) (isDesc : Bool) (carried : Nat) : State :=
  let s := s.updStage n (fun g => { g with dups := sat32 (g.dups + 1) })
  if !isDesc then s
  else
    let s := s.sendAccept n dir v b
    let g := s.stage n
    match listFind (fun e => e.1 == b) (g.inS (sKey dir v)).seals with
    | some e =>
      if e.2 = carried then s
      else (s.updStage n (fun g => { g with diverged := sat32 (g.diverged + 1) })).record 0x0702 3 g.part srcStage n b
        e.2 carried (v * 4 + dir) (ownerAnd g.part)
    | none => s

/-- BARGE_DESC (R371 to R375): the first delivered BARGE_DESC message. -/
def execBargeDesc (s : State) : Out :=
  s.onStageMsg 0x01 (fun n m s =>
    let g := s.stage n
    let dir := m.dir
    let v := m.vstage
    let b := m.value
    match g.judge dir v m.epoch b with
    | .stale => s.updStage n (fun g => { g with stale := sat32 (g.stale + 1) })
    | .duplicate => s.duplicate n dir v b true (m.w 14)
    | .window => s.record 0x0703 1 g.part srcStage n b (g.inS (sKey dir v)).released 0 0
    | .take =>
      let tag := m.w 6
      if g.lostOf dir then s
      else if !pair32 tag (m.w 7) then s.record 0x0701 2 g.part srcStage n 1 (m.stage * 2 ^ 16 + m.pipe) 0 0 [0]
      else
        let again := (g.inS (sKey dir v)).barges.any (fun x => x.bseq == b && !x.desc.isEmpty)
        let desc := (List.range 16).map m.w
        let s := s.updStage n (fun g => g.updIn (sKey dir v) (fun i => i.put b (fun x => { x with desc := desc })))
        let full := ((s.stage n).inS (sKey dir v)).barges.any (fun x => x.bseq == b && x.full)
        if full then s.judgeFull n dir v b
        else if again then s.sendCredit n dir v
        else s)

/-- BARGE_PACKET (R370, R372, R373): the first delivered canal packet of KIND BARGE. One for another partition than the
stage's is discarded (R313). -/
def execBargePacket (s : State) : Out :=
  .next (match s.takePacket (fun k => k.kind == 0x01) with
    | none => s
    | some (p, s) =>
      let o := p.object
      match s.stageOf (bits o 15 0) (bits o 27 16) with
      | none => s
      | some n =>
        let g := s.stage n
        let dir := bits o 29 28
        let v := bits o 32 30
        let k := bits o 63 49
        let ring := g.cfg.inRing dir
        if g.part ≠ p.dstPart then s.partDiscard p
        else match g.judge dir v (bits o 48 33) p.tag with
        | .stale => s.updStage n (fun g => { g with stale := sat32 (g.stale + 1) })
        | .duplicate => s.duplicate n dir v p.tag false 0
        | .window => s.record 0x0703 1 g.part srcStage n p.tag (g.inS (sKey dir v)).released 0 0
        | .take =>
          if g.lostOf dir ∨ ring.slotBytes < 4096 + 4096 * k + p.payload.length then s
          else
            let va := ring.slotVa v p.tag + 4096 + 4096 * k
            let s := (s.chargeExtent g.part 6 va p.payload.length true).writeVA g.part va p.payload p.poison
            let s := s.updStage n (fun g => g.updIn (sKey dir v) (fun i =>
              i.put p.tag (fun x => { x with got := if x.got.contains k then x.got else k :: x.got })))
            s.judgeFull n dir v p.tag)

/-! ### What a sender is told (R375, R376, R391, R393) -/

/-- The out-stream that a message to a sender names. -/
def StageRec.outKey (c : StageRec) (m : TMsg) : Nat := sKey m.dir (c.srcChunk m.dir m.vstage)

/-- ACCEPT (R391 to R393). -/
def execAccept (s : State) : Out :=
  s.onStageMsg 0x02 (fun n m s =>
    let g := s.stage n
    let k := g.cfg.outKey m
    let s := s.updStage n (fun g => g.updOut k (fun o => { o with
      retained := updFirst (fun b => b.bseq == m.value) (fun b => { b with accepted := true }) o.retained }))
    if bit (m.w 4) 0 then s.freeRetained n k (fun b => b.bseq == m.value) else s)

/-- COMMIT (R391, R392). -/
def execCommit (s : State) : Out :=
  s.onStageMsg 0x03 (fun n m s =>
    let k := (s.stage n).cfg.outKey m
    s.freeRetained n k (fun b => b.bseq == m.value || (bit (m.w 4) 0 && seqLt b.bseq m.value)))

/-- CREDIT (R375, R376): a RELEASED that is not new answers a probe, and the payload of every barge that is not accepted
goes again. -/
def execPipeCredit (ue : List Nat) (s : State) : Out :=
  s.onStageMsg 0x04 (fun n m s =>
    let g := s.stage n
    let k := g.cfg.outKey m
    let o := g.outS k
    if o.released = m.value then
      if g.lostOf (1 - m.dir) then s
      else (o.retained.filter (fun b => b.sent && !b.accepted)).foldl (fun s b => s.sendPayload n m.dir (k % 8) b ue) s
    else if seqLt o.released m.value then
      (s.updStage n (fun g => g.updOut k (fun o => { o with released := m.value }))).sendWaiting n m.dir (k % 8) ue
    else s)

/-- BARGE_PROBE (R375): descriptors of a stage that have had no ACCEPT for 1 ms go again. -/
def execBargeProbe (slot : Nat) (s : State) : Out :=
  onUnit (decide (slot < 96)) (.next (
    let g := s.stage slot
    g.outs.foldl (fun s e =>
      let dir := e.1 / 8
      if g.lostOf (1 - dir) then s
      else (e.2.retained.filter (fun b => b.sent && !b.accepted && decide (b.sentAt + 1000000 ≤ s.clk))).foldl (fun s b =>
        (s.sendDesc slot dir b).updStage slot (fun g => { (g.updOut e.1 (fun o => { o with
            retained := updFirst (fun x => x.bseq == b.bseq) (fun x => { x with sentAt := s.clk }) o.retained })) with
          probes := sat32 (g.probes + 1) })) s) s))

/-! ### Work notices (R377, R387) -/

/-- The direction that an entry takes its barge from and sends one to; none for BWD_W and MARK. -/
def entryDir (e : Nat) : Option Nat :=
  match bits e 3 0 with
  | 1 => some 0
  | 2 | 3 => some 1
  | _ => none

/-- A step notifies or performs an entry: an evaluation step only its FWD entries; a takeover none of a committed
micro-batch, and no MARK that its mark image already covers. -/
def StepRun.does (r : StepRun) (i e : Nat) : Bool :=
  if r.eval then bits e 3 0 == 1
  else if bits e 3 0 = 5 then decide (r.coverEntry = 0 ∨ r.coverEntry < i)
  else !r.skip.contains (bits e 31 16, bits e 12 10)

/-- Passes over entries that the step does not do. -/
def StepRun.advance (r : StepRun) (table : List Nat) : StepRun :=
  match listFind (fun i => r.does i (table.getD i 0)) ((List.range table.length).drop r.next) with
  | some i => { r with next := i }
  | none => { r with next := max r.next table.length }

/-- The inbound barge that an entry takes: in-stream key and BSEQ; `none` when it takes none. -/
def StageSlot.entryIn (g : StageSlot) (e : Nat) : Option (Nat × Nat) :=
  match entryDir e with
  | some dir =>
    let v := bits e 12 10
    if g.cfg.hasIn dir v then some (sKey dir v, (g.inS (sKey dir v)).used) else none
  | none => none

/-- The barge that an entry sends: out-stream key, BSEQ, slot address. -/
def StageSlot.entryOut (g : StageSlot) (r : StepRun) (e : Nat) : Option (Nat × Nat × Nat) :=
  match entryDir e with
  | some dir =>
    let v := bits e 12 10
    if g.cfg.sends dir v then
      let k := sKey dir v
      let early := (r.notices.filter (fun x => !x.isSealed && (x.out.map (·.1)) == some k)).length
      let b := wrap32 ((g.outS k).next + early)
      some (k, b, (g.cfg.retRing dir).slotVa v b)
    else none
  | none => none

/-- The barge of an in-stream. -/
def StageSlot.inBarge (g : StageSlot) (e : Nat × Nat) : Option InBarge :=
  listFind (fun b => b.bseq == e.2) (g.inS e.1).barges

/-- The berth tag of an entry's micro-batch (R387). -/
def StageSlot.entryTag (g : StageSlot) (r : StepRun) (e : Nat) (inb : Option (Nat × Nat)) : Nat :=
  match inb.bind g.inBarge with
  | some b => b.desc.getD 6 0
  | none => match listFind (fun m => m.step == r.cmd && m.mb == bits e 31 16 && m.v == bits e 12 10) g.mbs with
    | some m => m.tag
    | none => r.version

/-- What stands in the way of the next entry's notice, by phase code of Table 13.4: 7 a forward barge, 8 anything else;
none when it is ready (R377). -/
def StageSlot.waitsFor (g : StageSlot) (r : StepRun) (e : Nat) : Option Nat :=
  let inb := g.entryIn e
  let accepted := match inb with
    | some k => (g.inBarge k).any (·.accepted)
    | none => true
  if !accepted then some (if entryDir e = some 0 then 7 else 8)
  else match g.entryOut r e with
    | some (k, _, va) => if (g.outS k).retained.any (fun b => b.va == va) then some 8 else none
    | none => none

/-- The message of a work notice (R377). -/
def StageSlot.noticeMsg (g : StageSlot) (r : StepRun) (i e berth : Nat) (last : Bool) : List Nat :=
  let c := g.cfg
  let inb := g.entryIn e
  let (ptr, len) := match inb with
    | some k => ((c.inRing (k.1 / 8)).slotVa (k.1 % 8) k.2, 4096 + segBytes (((g.inBarge k).map (·.desc)).getD []))
    | none => if bits e 3 0 = 1 then (r.inputVa + bits e 31 16 * c.inFwd.slotBytes, 0) else (0, 0)
  let u2 := match g.entryOut r e with
    | some (k, _, va) => (va - (c.retRing (k / 8)).va) / 64
    | none => 0xFFFFFFFF
  firmwareMsg c.noticeType len ptr e i u2 (berth + b2n r.eval * 256 + b2n last * 512) false

/-- A berth's bytes in tier 1 read poisoned. -/
def State.berthPoisoned (s : State) (g : StageSlot) (b : Nat) : Bool :=
  g.hasBuddy && s.extentPoison [] g.part (g.berths.get {} b).va g.cfg.berthBytes

/-- Notifies entry `i` of a running step: the micro-batch begins with its FWD entry. -/
def State.notify (s : State) (n : Nat) (r : StepRun) (i e berth tag : Nat) : State :=
  let g := s.stage n
  let table := g.table.getD []
  let last := !((List.range table.length).drop (i + 1)).any (fun j =>
    r.does j (table.getD j 0) && bits (table.getD j 0) 3 0 != 5)
  let s := s.sendFirmware g.cfg.leadCore g.cfg.noticeQueue (g.noticeMsg r i e berth last)
  let inb := g.entryIn e
  let mine := fun (m : MbRec) => m.step == r.cmd && m.mb == bits e 31 16 && m.v == bits e 12 10
  s.updStage n (fun g =>
    let out := g.entryOut r e
    let g := match inb with
      | some k => g.updIn k.1 (fun x => { x with used := wrap32 (x.used + 1) })
      | none => g
    let g := if bits e 3 0 = 1 then
        { g with
          mbs := g.mbs ++ [⟨r.cmd, bits e 31 16, bits e 12 10, r.eval, tag, berth, inb.toList, [], false, false, none, false⟩],
          berths := if r.eval then g.berths else g.berths.upd {} berth (fun x => { x with refs := x.refs + 1 }) }
      else { g with mbs := updFirst mine (fun m => { m with recv := m.recv ++ inb.toList }) g.mbs }
    g.updStep r.cmd (fun r => { r with
      next := i + 1, missing := false, notices := r.notices ++ [⟨i, inb, out, false⟩] }))

/-- A step that can go no further after the loss of a neighbour stops (R397). -/
def State.stickStep (s : State) (n : Nat) (r : StepRun) : State :=
  let s := s.updStage n (fun g => g.updStep r.cmd (fun r => { r with stuck := true }))
  let s := s.haltCores (s.stage n).part (s.sliceCores (s.stage n).slices)
  s.checkStep n

/-- The next entry of the running step of a stage is looked at. -/
def State.noticeNext (s : State) (n : Nat) (r : StepRun) : State :=
  let s := s.updStage n (fun g => g.updStep r.cmd (fun r => r.advance (g.table.getD [])))
  let g := s.stage n
  let r := (listFind (fun x => x.cmd == r.cmd) g.steps).getD r
  let table := g.table.getD []
  if r.next ≥ table.length then
    if r.peerGone && r.notices.isEmpty && !g.allCommitted r then s.stickStep n r else s.checkStep n
  else
    let e := table.getD r.next 0
    if bits e 3 0 = 5 then s
    else match g.waitsFor r e with
      | some _ => if r.peerGone && r.notices.isEmpty then s.stickStep n r else s
      | none =>
        if g.cfg.ahead ≤ r.notices.length then s
        else
          let tag := g.entryTag r e (g.entryIn e)
          match g.berthOf tag with
          | none =>
            if r.missing then s
            else (s.updStage n (fun g => g.updStep r.cmd (fun r => { r with missing := true }))).record 0x0705 2 g.part
              srcStage n tag (bits e 31 16) 0 0 (partOnly g.part)
          | some b =>
            let x := g.berths.get {} b
            let back := s.ckptWaits (fun u => match u with
              | .berthBack m c _ => m == n && c == b
              | _ => false)
            if x.restoring || s.berthPoisoned g b then
              if back then s
              else (s.updStage n (fun g => { g with berths := g.berths.upd {} b (fun x => { x with restoring := true }) })).askBuddy
                n (g.cfg.buddyVa + b * g.cfg.berthBytes) g.cfg.berthBytes (fun o => .berthBack n b (x.va + o))
            else s.notify n r r.next e b tag

/-- The pipeline of a stage has an unclaimed spare stage, as far as this package knows. -/
def State.hasSpare (s : State) (g : StageSlot) : Bool :=
  g.cfg.spareEn && (g.cfg.sparePkg != s.pkg.packageId || s.pipe.slots.any (fun e => e.2.bound && e.2.spare && e.2.cfg.pipe == g.cfg.pipe))

/-- WORK_NOTICE (R377): the pipe controller of a stage acts: a restart that waits begins, a held STEP_RUN starts once the
earlier one's entries are DONE and the cores are IDLE (R394), or the next entry is notified. -/
def execWorkNotice (slot : Nat) (s : State) : Out :=
  onUnit (decide (slot < 96)) (.next (
    let g := s.stage slot
    if !g.bound || g.spare || s.held g.part then s
    else match g.restart with
      | some cause =>
        if g.takeover.isSome then s
        else if cause = 0x0205 && s.hasSpare g then s.stageGone slot
        else s.beginRestart slot cause
      | none =>
        match listFind (fun r => !r.started) g.steps with
        | some r =>
          let before := g.steps.filter (·.started)
          if before.all g.entriesDone && (s.sliceCores g.slices).all (fun c =>
              (s.core c).state == .idle || (before.isEmpty && (s.core c).state.ended)) then s.startStep slot r
          else match g.running with
            | some q => if q.timedOut || q.aborted || q.stuck then s else s.noticeNext slot q
            | none => s
        | none => match g.running with
          | some q => if q.timedOut || q.aborted || q.stuck then s else s.noticeNext slot q
          | none => s))

/-! ### SEAL and DONE (R378 to R380) -/

/-- The request of a core to the pipe controller that comes first, with its stage. -/
def State.pipeRequest (s : State) (q : Nat) : Option (Nat × List Nat × Nat) :=
  match listFind (fun e => e.2.1 == 0x7FE && e.2.2.1 == q) s.fab.requests with
  | some (c, _, _, m) =>
    (listFind (fun e => e.2.bound && bit e.2.slices (c / 8)) s.pipe.slots).map (fun e => (c, m, e.1))
  | none => none

/-- Answers a core's request to a controller: the SEND completes, or ends in a program fault. -/
def State.replyCore (s : State) (core : Nat) (fault : Option Nat) : State :=
  let s := { s with fab := { s.fab with requests := delFirst (fun e => e.1 == core) s.fab.requests } }
  match listFind (fun p => p.wait == .controller) (s.core core).qx with
  | some p => match fault with
    | some c => s.programFault core .qx p c
    | none => s.complete core .qx p {}
  | none => s

/-- The words of a sealed descriptor (R379). -/
def StageSlot.sealedDesc (g : StageSlot) (r : StepRun) (level dir v bseq tag crc : Nat) (d : List Nat) : List Nat :=
  let w0 := pipeWord0 1 dir (g.cfg.dstChunk dir v) level (g.cfg.dstStage dir) + b2n r.eval * 2 ^ 18 + 2 ^ 17
  [w0, g.epoch * 2 ^ 16 + g.cfg.pipe, bseq, compl32 bseq, d.getD 4 0, r.step, tag, compl32 tag] ++ (d.drop 8).take 6 ++ [crc, 0]

/-- PIPE_SEAL (R378, R379): the first SEAL request. -/
def execPipeSeal (ue : List Nat) (s : State) : Out :=
  .next (match s.pipeRequest 0 with
    | none => s
    | some (core, m, n) =>
      let g := s.stage n
      let ptr := msgPtr m
      let entry := m.getD 4 0
      match g.running.bind (fun r => (listFind (fun x => x.entry == entry && !x.isSealed) r.notices).map (fun x => (r, x))) with
      | none => s.replyCore core (some pfPipeOrder)
      | some (r, x) =>
        let e := (g.table.getD []).getD entry 0
        match x.out with
        | none => s.replyCore core (some pfPipeOrder)
        | some (k, bseq, va) =>
          let dir := k / 8
          let v := k % 8
          let d := bytesToWords (s.readVA g.part ptr 64)
          if ptr ≠ va ∨ bits (d.getD 0 0) 23 22 ≠ dir ∨ bits (d.getD 0 0) 21 19 ≠ g.cfg.dstChunk dir v ∨
              d.getD 4 0 ≠ bits e 31 16 then s.replyCore core (some pfPipeOrder)
          else
            let mine := fun (y : MbRec) => y.step == r.cmd && y.mb == bits e 31 16 && y.v == v
            let tag := ((listFind mine g.mbs).map (·.tag)).getD r.version
            let crc := crc32 (s.readVA g.part (va + 4096) (segBytes d))
            let desc := g.sealedDesc r s.pkg.runLevel dir v bseq tag crc d
            let s := s.writeVA g.part va (wordsToBytes desc)
            let b : OutBarge := ⟨bseq, va, desc, false, s.clk, false, r.cmd, bits e 31 16⟩
            let s := s.updStage n (fun g =>
              let g := g.updOut k (fun o => { o with next := wrap32 (o.next + 1), retained := o.retained ++ [b] })
              let g := { g with mbs := updFirst mine (fun y => { y with sent := y.sent ++ [(k, bseq)] }) g.mbs }
              g.updStep r.cmd (fun r => { r with
                notices := updFirst (fun y => y.entry == entry) (fun y => { y with isSealed := true }) r.notices }))
            (s.trySend n dir v bseq ue).replyCore core none)

/-- The DONE of an entry (R376, R380). -/
def State.entryDone (s : State) (n : Nat) (r : StepRun) (x : Notice) : State :=
  let g := s.stage n
  let e := (g.table.getD []).getD x.entry 0
  let op := bits e 3 0
  let mine := fun (m : MbRec) => m.step == r.cmd && m.mb == bits e 31 16 && m.v == bits e 12 10
  let s := s.updStage n (fun g =>
    let g := match x.inb with
      | some k => g.updIn k.1 (fun i => { i with
          released := wrap32 (i.released + 1), barges := i.barges.filter (fun b => b.bseq != k.2) })
      | none => g
    let back := op == 2 || op == 4
    let g := { g with
      mbs := updFirst mine (fun m => { m with
        fwdDone := m.fwdDone || op == 1, backDone := m.backDone || back,
        mark := if back && decide (x.entry < r.coverEntry) then some g.markAcked else m.mark }) g.mbs,
      plan := if r.eval then g.plan else { g.plan with
        nFwd := g.plan.nFwd + b2n (op == 1), nBwdIn := g.plan.nBwdIn + b2n (op == 2 || op == 3),
        nBwdW := g.plan.nBwdW + b2n (op == 4) } }
    g.updStep r.cmd (fun r => { r with notices := r.notices.drop 1 }))
  match x.inb with
  | some k => s.sendCredit n (k.1 / 8) (k.1 % 8)
  | none => s

/-- PIPE_DONE (R380): the first DONE request. -/
def execPipeDone (s : State) : Out :=
  .next (match s.pipeRequest 1 with
    | none => s
    | some (core, m, n) =>
      let g := s.stage n
      match g.running.bind (fun r => r.notices.head?.map (fun x => (r, x))) with
      | none => s.replyCore core (some pfPipeOrder)
      | some (r, x) =>
        if x.entry ≠ m.getD 4 0 ∨ (x.out.isSome ∧ !x.isSealed) then s.replyCore core (some pfPipeOrder)
        else (((s.entryDone n r x).replyCore core none)).checkStep n)

/-! ### Marks and commits (R388 to R393) -/

/-- Every backward entry DONE before this mark is covered by it. -/
def StageSlot.cover (g : StageSlot) (r : StepRun) (k : Nat) : StageSlot :=
  { g with mbs := g.mbs.map (fun m => if m.step == r.cmd && m.backDone && m.mark.isNone then { m with mark := some k } else m) }

/-- The header of a mark image. -/
def StageSlot.markHeader (g : StageSlot) (r : StepRun) (k entry : Nat) : List Byte :=
  let vals := [k, r.step, entry] ++ (List.range 32).map (counterOf r.start) ++
    [(g.svc.map (·.seed)).getD 0, (g.svc.map (·.step)).getD 0]
  (List.range 64).map (Config.markByte vals)

/-- Sends the mark image (R388): the header, then every accumulator. -/
def State.sendMark (s : State) (n : Nat) (r : StepRun) (k entry : Nat) (ue : List Nat) : State :=
  let g := s.stage n
  let s := s.ckptSend g.part g.cfg.buddyPkg g.cfg.buddyPart 1 g.cfg.markVa (g.markHeader r k entry) false (.mark n k)
  ((s.gradShards g).foldl (fun (a : State × Nat) x =>
    (a.1.mirror n x.va x.bytes a.2 ue (.mark n k), a.2 + x.bytes)) (s, g.cfg.markVa + 64)).1

/-- MARK (R388, R390): the running step of a stage stands at a MARK entry, every earlier entry is DONE and the former mark
is acknowledged. -/
def execMark (slot : Nat) (ue : List Nat) (s : State) : Out :=
  onUnit (decide (slot < 96)) (.next (
    let s := match (s.stage slot).running with
      | some r => s.updStage slot (fun g => g.updStep r.cmd (fun r => r.advance (g.table.getD [])))
      | none => s
    let g := s.stage slot
    match g.running with
    | none => s
    | some r =>
      let e := (g.table.getD []).getD r.next 0
      if r.timedOut || r.aborted || r.stuck || decide ((g.table.getD []).length ≤ r.next) || bits e 3 0 != 5 ||
          !r.notices.isEmpty || g.markNo != g.markAcked || g.restart.isSome || s.held g.part then s
      else
        let k := wrap32 (g.markNo + 1)
        let s := s.updStage slot (fun g =>
          let g := (g.cover r k).updStep r.cmd (fun r => { r with next := r.next + 1 })
          { g with markNo := k, markAcked := if g.hasBuddy then g.markAcked else k })
        let s := s.updStage slot (fun g => { g with estUs := s.takeoverEst g })
        if g.hasBuddy then s.sendMark slot r k r.next ue else s.commitAll slot |>.checkStep slot))

/-- MARK_ACK (R388, R392). -/
def execMarkAck (s : State) : Out :=
  s.onStageMsg 0x08 (fun n m s =>
    let g := s.stage n
    if m.value ≠ g.markNo ∨ g.markNo = g.markAcked then s
    else
      let s := s.updStage n (fun g => { g with markAcked := g.markNo })
      ((s.commitAll n).sendCumulative n).checkStep n)

/-- MICROBATCH_COMMIT (R392): the first micro-batch of a stage that may commit. -/
def execMicrobatchCommit (slot : Nat) (s : State) : Out :=
  onUnit (decide (slot < 96)) (.next (match listFind ((s.stage slot).mayCommit) (s.stage slot).mbs with
    | some m => s.commitMb slot m
    | none => s))

/-! ### Timeout and abort (R395, R396) -/

/-- STEP_RUN_TIMEOUT (R395). -/
def execStepRunTimeout (slot : Nat) (s : State) : Out :=
  onUnit (decide (slot < 96)) (.next (
    let g := s.stage slot
    match listFind (fun r => r.started && !r.timedOut && r.deadline.any (fun t => decide (t ≤ s.clk)) && !s.held g.part) g.steps with
    | none => s
    | some r =>
      let s := s.updStage slot (fun g => g.updStep r.cmd (fun r => { r with timedOut := true }))
      (s.haltCores g.part (s.sliceCores g.slices)).checkStep slot))

/-- ABORT of a STEP_RUN (R396): notices stop, the cores halt, the step's barges go and the counters go back. -/
def State.abortStep (s : State) (n cmd : Nat) : State :=
  let g := s.stage n
  match listFind (fun r => r.cmd == cmd) g.steps with
  | none => match g.takeover.bind (fun t => listFind (fun r => r.cmd == cmd) t.kept) with
    | some _ =>
      (s.updStage n (fun g => { g with takeover := g.takeover.map (fun t => { t with
        kept := t.kept.filter (fun r => r.cmd != cmd) }) })).commit cmd stAborted []
    | none => s
  | some r =>
    if !r.started then
      (s.updStage n (fun g => { g with steps := g.steps.filter (fun r => r.cmd != cmd) })).commit cmd stAborted []
    else
      let s := s.updStage n (fun g =>
        let g := g.updStep cmd (fun r => { r with aborted := true, notices := [] })
        let back := fun (t : List (Nat × Nat)) (k : Nat) => counterOf t k
        { g with
          ins := (List.range 16).foldl (fun t k =>
            if g.ins.any (fun e => e.1 == k) then t.upd {} k (fun i => { i with
              next := back r.start k, released := back r.start k, used := back r.start k, barges := [],
              seals := i.seals.filter (fun e => seqLt e.1 (back r.start k)) })
            else t) g.ins,
          outs := (List.range 16).foldl (fun t k =>
            if g.outs.any (fun e => e.1 == k) then t.upd {} k (fun o => { o with
              next := back r.start (16 + k), released := back r.start (16 + k),
              retained := o.retained.filter (fun b => b.step != cmd) })
            else t) g.outs,
          mbs := g.mbs.filter (fun m => m.step != cmd),
          berths := (g.mbs.filter (fun m => m.step == cmd && !m.committed && !m.eval)).foldl
            (fun t m => t.upd {} m.berth (fun x => if x.state = .live ∧ x.refs ≤ 1 then {} else { x with refs := x.refs - 1 }))
            g.berths })
      let cores := s.sliceCores g.slices
      ((cores.foldl (fun s c => s.dropFrozen c) s).haltCores g.part cores).checkStep n

/-! ### Takeover (R397 to R401) -/

/-- PIPE_LOST (R398): a LOST at the spare package. -/
def execPipeLost (s : State) : Out :=
  s.onPipeMsg 0x05 (fun m s =>
    let stage := bits (m.w 4) 11 0
    match listFind (fun e => e.1 == m.pipe && e.2.1 == stage) s.pipe.claims with
    | some e =>
      let g := s.stage e.2.2
      (s.sendTakeover m.src m.dir stage g.cfg.p g.epoch m.pipe s.pkg.packageId).updStage e.2.2 (fun g =>
        let c := if m.dir = 0 then { g.cfg with downPkg := m.src } else { g.cfg with upPkg := m.src }
        { g with cfg := c })
    | none => match listFind (fun e => e.2.bound && e.2.spare && e.2.cfg.pipe == m.pipe) s.pipe.slots with
      | none => s.sendTakeover m.src m.dir stage 4096 m.epoch m.pipe 0xFFFFF
      | some e =>
        let n := e.1
        let s := { s with pipe := { s.pipe with claims := s.pipe.claims ++ [(m.pipe, stage, n)] } }
        let s := s.updStage n (fun g => { g with cfg :=
          if m.dir = 0 then { g.cfg with downPkg := m.src } else { g.cfg with upPkg := m.src } })
        let s := s.beginTakeover n stage (m.epoch + 1) m.value 0
        let g := s.stage n
        s.sendTakeover m.src m.dir stage g.cfg.p g.epoch m.pipe s.pkg.packageId)

/-- Answers a TAKEOVER with RESEND_FROM for each stream toward the spare, and sends what is retained again. -/
def State.resendTo (s : State) (n dir : Nat) (ue : List Nat) : State :=
  (List.range (s.stage n).cfg.v).foldl (fun s v =>
    let g := s.stage n
    let k := sKey dir v
    if !g.cfg.sends dir v then s
    else
      let o := g.outS k
      let low := (o.retained.head?.map (·.bseq)).getD o.next
      let dv := g.cfg.dstChunk dir v
      let s := s.pipeMsg (g.cfg.dstPkg dir) 0x07 dir dv (g.cfg.dstStage dir) g.epoch g.cfg.pipe low
        [o.retained.length, (g.inS (sKey (1 - dir) v)).next]
      let s := s.updStage n (fun g => g.updOut k (fun o => { o with
        released := low, retained := o.retained.map (fun b => { b with sent := false, accepted := false }) }))
      s.sendWaiting n dir v ue) s

/-- TAKEOVER at a neighbour (R372, R374, Table 11.13 step 3). -/
def execTakeover (ue : List Nat) (s : State) : Out :=
  s.onStageMsg 0x06 (fun n m s =>
    let dir := m.dir
    if m.value = 0xFFFFF then
      s.updStage n (fun g => { g with steps := g.steps.map (fun r => { r with peerGone := true }) })
    else
      let s := s.updStage n (fun g =>
        let c := g.cfg
        let moved := decide (c.srcPkg dir ≠ m.value)
        let c := if dir = 0 then { c with upPkg := m.value, upPart := if moved then c.sparePart else c.upPart }
          else { c with downPkg := m.value, downPart := if moved then c.sparePart else c.downPart }
        let g := if dir = 0 then { g with upEpoch := m.epoch, upLost := false } else { g with downEpoch := m.epoch, downLost := false }
        let g := (List.range c.v).foldl (fun g v => g.updIn (sKey dir v) (fun i => { i with
          barges := i.barges.filter (·.accepted) })) g
        { g with cfg := c, takeovers := sat32 (g.takeovers + 1),
                 steps := g.steps.map (fun r => { r with takeovers := r.takeovers + 1 }) })
      s.resendTo n (1 - dir) ue)

/-- RESEND_FROM at the spare (R398, Table 11.13 step 5). -/
def execResendFrom (s : State) : Out :=
  s.onStageMsg 0x07 (fun n m s =>
    match (s.stage n).takeover with
    | none => s
    | some t =>
      let k := sKey m.dir m.vstage
      let s := s.updStage n (fun g =>
        let g := g.updIn k (fun i => { i with next := m.value, released := m.value, used := m.value, barges := [] })
        let g := if m.dir = 0 then { g with upEpoch := m.epoch } else { g with downEpoch := m.epoch }
        let g := g.updOut (sKey (1 - m.dir) m.vstage) (fun o =>
          { o with released := m.w 5 })
        { g with takeover := some { t with
            resent := t.resent.filter (fun e => e.1 != k) ++ [(k, m.value, m.w 4, m.w 5)] } })
      s.tryResume n)

end Sys2Proof.Machine
end

