-- ==== Sys2Proof/Machine/Training.lean ====
section
/-! DEFINITION. Step plans, phase timers, step records and the laggard monitor (R441 to R455). -/

namespace Sys2Proof.Machine

/-- Refuses with SERVICE_REFUSED (R473). -/
def State.refuseService (s : State) (f : Flight) (cause : Nat) (word : Nat := 0xFFFFFFFF) : State :=
  s.commit f.id stServiceRefused [cause, word]

/-- The bound stage slot that a command of this chapter names, of the path's partition. -/
def State.serviceSlot (s : State) (f : Flight) (n : Nat) : Bool :=
  decide (n < 96) && (s.stage n).bound && (s.stage n).part == s.actsFor f

/-! ### State lists (R275, R459) -/

/-- A shard record's fields are as Table 8.10 has them. -/
def Shard.ok (x : Shard) : Bool :=
  let w := fun i => x.words.getD i 0
  let n := w 4 + 2 ^ 32 * w 5
  bits (w 0) 31 20 == 0 && bits (w 0) 3 0 == 1 && elemBits x.fmt != 0 &&
  (decide (1 ≤ x.kind ∧ x.kind ≤ 5) || decide (0x10 ≤ x.kind ∧ x.kind ≤ 0x1F)) &&
  decide (bits (w 3) 15 0 ≤ bits (w 3) 31 16) && w 14 == 0 && w 15 == 0 &&
  decide (w 6 + 2 ^ 32 * w 7 + x.count ≤ n)

/-- Some record of a list is of another level (R14). -/
def State.otherLevels (s : State) (l : List Shard) : Bool := l.any (fun x => s.otherLevel (bits (x.words.getD 0 0) 3 0))

/-- The shard is the one that its replica owns (R274). -/
def Shard.isOwned (x : Shard) : Bool :=
  let w := fun i => x.words.getD i 0
  let n := w 4 + 2 ^ 32 * w 5
  let (lo, hi) := ownedBy n (bits (w 3) 15 0) (bits (w 3) 31 16 + 1)
  w 6 + 2 ^ 32 * w 7 == min n (4096 * lo) && x.count == min n (4096 * hi) - min n (4096 * lo)

/-- The commit groups of a list: runs of list indices with the same TENSOR_ID (R459). -/
def commitGroups (l : List Shard) : List (List Nat) :=
  ((((List.range l.length).zip l).foldl (fun (a : List (Nat × List Nat)) e =>
    match a with
    | (t, is) :: r => if t = e.2.tensor then (t, is ++ [e.1]) :: r else (e.2.tensor, [e.1]) :: a
    | [] => [(e.2.tensor, [e.1])]) []).map (·.2)).reverse

/-- The first record of a state list that fails R459, by list index. -/
def stateListFault (l : List Shard) : Option Nat :=
  match listFind (fun e => !(e.2.ok && e.2.kind != 5 && e.2.isOwned)) ((List.range l.length).zip l) with
  | some e => some e.1
  | none => (listFind (fun g => decide (8 < g.length)) (commitGroups l)).map (fun g => g.headD 0)

/-- Bytes of the largest shard. -/
def largestShard (l : List Shard) : Nat := (l.map (fun x => x.bytes + x.scaleBytes)).foldl max 0

/-! ### STEP_PLAN (R441 to R443) -/

/-- A service record's fields are as Table 13.1 has them. -/
def svcOk (ws : List Nat) : Bool :=
  let w := fun i => ws.getD i 0
  bits (w 0) 31 4 == 0 && bits (w 0) 3 0 == 1 && bits (w 6) 31 12 == 0 && decide (bits (w 6) 11 0 ≤ 2048) &&
  bits (w 7) 31 4 == 0 && decide (1 ≤ bits (w 7) 3 0 ∧ bits (w 7) 3 0 ≤ 12) && w 8 % 128 == 0 && bits (w 11) 30 10 == 0 &&
  w 12 % 2 ^ 21 == 0 && w 14 == 0 && w 15 == 0

/-- The opcodes that a plan may hold. -/
def planOpcodes : List Nat := [0x201, 0x403, 0x404, 0x501, 0x502, 0x503, 0x601, 0x802, 0x803]

def planOpcode (e : List Nat) : Nat := bits (e.getD 0 0) 11 0
def planEvery (e : List Nat) : Nat := bits (e.getD 16 0) 31 16
def planPhase (e : List Nat) : Nat := bits (e.getD 16 0) 15 12
def planNoWait (e : List Nat) : Bool := bit (e.getD 16 0) 0
/-- A STEP_RUN with EVAL 0. -/
def planTrains (e : List Nat) : Bool := planOpcode e == 0x404 && !bit (e.getD 4 0) 8

/-- A plan entry's control is as Table 13.3 has it, and its opcode is allowed. -/
def planEntryOk (e : List Nat) : Bool :=
  planOpcodes.contains (planOpcode e) && planEvery e != 0 && decide (planPhase e ≤ 2) &&
  !(planOpcode e == 0x404 && planPhase e != 0) && !(planTrains e && planEvery e != 1) &&
  bits (e.getD 16 0) 11 1 == 0 && bits (e.getD 17 0) 31 16 == 0 && bits (e.getD 17 0) 3 0 == 0 &&
  (List.range 14).all (fun i => e.getD (18 + i) 0 == 0)

/-- The cause and word that a plan is refused with (R443). -/
def planFault (es : List (List Nat)) : Option Nat :=
  match listFind (fun i => !planEntryOk (es.getD i [])) (List.range es.length) with
  | some i => some i
  | none =>
    match (List.range es.length).filter (fun i => planTrains (es.getD i [])) with
    | [_] => none
    | _ :: i :: _ => some i
    | [] => some 0xFFFFFFFF

/-- A STEP_PLAN packet of an OP. -/
def planKind (op : Nat) (pk : Packet) : Bool := pk.opcode == 0x405 && pk.f 0x10 9 8 == op

/-- The region that a stage with this state list takes ends inside the address space. -/
def State.regionOk (s : State) (g : StageSlot) (v : Svc) : Bool :=
  decide (s.areaVa g + 2 ^ 21 + (v.listCount + 8) * v.slotBytes ≤ 2 ^ 48)

/-- STEP_PLAN with OP LOAD. -/
def execStepPlanLoad (path : Path) (pk : Packet) (ue : List Nat) (s : State) : Out :=
  let need := fun (s : State) => [(pk.d 0x20, 64), (pk.d 0x18, 128 * pk.f 0x14 5 0)].flatMap (fun e =>
    s.extentRes (s.pathPart path) (s.pathDie path) e.1 e.2)
  beginOn path pk (planKind 1) { res := need } s (fun f s =>
    let n := pk.f 0x10 6 0
    let count := pk.f 0x14 5 0
    let g := s.stage n
    if count = 0 ∨ 32 < count then s.failWith f stFieldReserved
    else if !s.serviceSlot f n then s.refuseService f 0x01
    else if g.plan.state = .running then s.refuseService f 0x04
    else
      let s := (s.chargeParam f (pk.d 0x20) 64 false).chargeParam f (pk.d 0x18) (128 * count) false
      match s.paramBytes g.part (pk.d 0x20) 64 false none ue, s.paramBytes g.part (pk.d 0x18) (128 * count) false none ue with
      | .error false, _ | _, .error false =>
        s.failExtents f g.part [(pk.d 0x20, 64), (pk.d 0x18, 128 * count)] stNotOwner
      | .error true, _ => s.refuseService f 0x02
      | _, .error true => s.refuseService f 0x03
      | .ok sb, .ok pb =>
        let v := Svc.ofWords (pk.d 0x20) (bytesToWords sb)
        let es := (List.range count).map (fun i => bytesToWords ((pb.drop (128 * i)).take 128))
        if s.otherLevel (bits (ofBytes (sb.take 4)) 3 0) then s.failWith f stLevelUnsupported
        else if !svcOk (bytesToWords sb) then s.refuseService f 0x02
        else match planFault es with
          | some i => s.refuseService f 0x03 i
          | none =>
            if s.unreadable g.part v.listVa (64 * v.listCount) then s.failParam f g.part v.listVa (64 * v.listCount)
            else
              let l := s.shards g.part v.listVa v.listCount
              if s.otherLevels l then s.failWith f stLevelUnsupported
              else match stateListFault l with
              | some i => s.refuseService f 0x05 i
              | none =>
                if v.slotBytes < largestShard l ∨ !s.regionOk g v then s.refuseService f 0x07
                else
                  let s := s.updStage n (fun g => { g with svc := some v, plan := { state := .loaded, entries := es } })
                  let area := s.areaVa g
                  let s := if g.hasBuddy then
                      (s.ckptSend g.part g.cfg.buddyPkg g.cfg.buddyPart 1 (area + 0x200) sb false (.control n)).ckptSend g.part
                        g.cfg.buddyPkg g.cfg.buddyPart 1 (area + 0x400) (pb ++ List.replicate (4096 - pb.length) 0) false (.control n)
                    else s
                  s.done f)

/-- Firmware begins a step: it writes the step number to the service record (R444). -/
def State.beginPlanStep (s : State) (n step : Nat) : State :=
  let g := s.stage n
  let s := match g.svc with
    | some v => s.writeVA g.part (v.va + 4) (toBytes step 4)
    | none => s
  let now := s.sysTime
  s.updStage n (fun g => { g with
    svc := g.svc.map (fun v => { v with step := step }),
    plan := { g.plan with
      step := step, next := 0, startNs := now, phases0 := (List.range 9).map (fun i => g.phases.get 0 i), act0 := g.act,
      wt0 := g.wt, evalRan := false, takeovers := 0, nFwd := 0, nBwdIn := 0, nBwdW := 0, collSeqs := [], bad := none } })

/-- STEP_PLAN with OP START. DEDUCED: with no plan loaded it is refused with cause PLAN. -/
def execStepPlanStart (path : Path) (pk : Packet) (s : State) : Out :=
  beginOn path pk (planKind 2) {} s (fun f s =>
    let n := pk.f 0x10 6 0
    let g := s.stage n
    let first := pk.w 0x28
    if !s.serviceSlot f n then s.refuseService f 0x01
    else match g.plan.state with
      | .none => s.refuseService f 0x03
      | .running => s.refuseService f 0x04
      | _ =>
        let s := s.updStage n (fun g => { g with plan := { g.plan with
          state := .running, firstStep := first, stopAsked := false, flying := [], resumed := none,
          left := if pk.w 0x2C = 0 then none else some (pk.w 0x2C - 1) } })
        (s.beginPlanStep n first).done f)

/-- STEP_PLAN with OP STOP. -/
def execStepPlanStop (path : Path) (pk : Packet) (s : State) : Out :=
  beginOn path pk (planKind 3) {} s (fun f s =>
    let n := pk.f 0x10 6 0
    if !s.serviceSlot f n then s.refuseService f 0x01
    else (s.updStage n (fun g => { g with plan := { g.plan with stopAsked := true } })).done f)

/-! ### Phases (R449) -/

/-- The phase that a nanosecond of a bound stage counts for, by its code in Table 13.4. -/
def StageSlot.phase (g : StageSlot) : Nat :=
  let table := g.table.getD []
  match g.steps.findSome? (fun r => r.notices.head?.map (fun x => (r, x))) with
  | some (r, x) =>
    if r.eval then 5
    else match bits (table.getD x.entry 0) 3 0 with
      | 1 => 0
      | 4 => 2
      | _ => 1
  | none =>
    let flies := fun (p : Nat) => g.plan.flying.any (fun e => planPhase (g.plan.entries.getD e.1 []) == p)
    if flies 2 then 4
    else if flies 1 then 3
    else match g.running with
      | none => 6
      | some r =>
        let r := r.advance table
        if table.length ≤ r.next then 8
        else
          let e := table.getD r.next 0
          if bits e 3 0 = 5 then (if g.markNo = g.markAcked then 6 else 8) else (g.waitsFor r e).getD 6

/-! ### Step records (R451, R453, R454) -/

/-- Writes a step record to its ring, with the verdict if there is one: median and FLAGGED. -/
def State.writeStepRecord (s : State) (n : Nat) (r : StepRecord) (verdict : Option (Nat × Bool)) : State :=
  let g := s.stage n
  match g.svc with
  | none => s
  | some v =>
    let (vb, fl, med) := match verdict with
      | some (m, f) => (true, f, m)
      | none => (false, false, 0)
    let ws := (List.range 32).map (fun i =>
      if i = 1 then r.words.getD 1 0 + b2n fl * 4 + b2n vb * 2 else if i = 27 then med else r.words.getD i 0)
    let va := v.recordVa + r.step % 2 ^ v.recordLog2 * 128
    (s.chargeExtent g.part 6 va 128 true).writeVA g.part va (wordsToBytes ws)

/-- What a verdict, or its absence, makes of LAG_RUN (R454). -/
def State.judgeLag (s : State) (n busy : Nat) (verdict : Option (Nat × Bool)) : State :=
  let g := s.stage n
  let v := g.svc.getD { }
  match verdict with
  | some (m, true) =>
    let run := sat32 (g.lagRun + 1)
    let s := s.updStage n (fun g => { g with lagRun := run, medianUs := m })
    if run = v.lagSteps then s.record 0x0902 1 g.part srcStage n busy m run 0 (ownerAnd g.part) else s
  | some (m, false) => s.updStage n (fun g => { g with lagRun := 0, medianUs := m })
  | none => s.updStage n (fun g => { g with lagRun := 0 })

/-- A plan's step ends: its record is written, or waits for the verdict of the collector. -/
def State.endPlanStep (s : State) (n : Nat) : State :=
  let g := s.stage n
  let p := g.plan
  let d := fun i => g.phases.get 0 i - p.phases0.getD i 0
  let busy := sat32 ((d 0 + d 1 + d 2) / 1000)
  let status := match p.bad with
    | some b => b.2.2
    | none => 0
  let stageId := g.cfg.stage * 2 ^ 16 + g.cfg.pipe
  let words := [p.step, status * 2 ^ 16 + p.takeovers * 2 ^ 8 + b2n p.evalRan, stageId, busy, lo32 p.startNs, hi32 p.startNs] ++
    (List.range 9).flatMap (fun i => [lo32 (d i), hi32 (d i)]) ++
    [p.nFwd, p.nBwdIn, p.nBwdW, 0, lo32 (g.act - p.act0), hi32 (g.act - p.act0), lo32 (g.wt - p.wt0), hi32 (g.wt - p.wt0)]
  let r : StepRecord := ⟨p.step, words, s.clk⟩
  let s := s.updStage n (fun g => { g with busyUs := busy, times := some (d 0, p.nFwd, d 1 + d 2, p.nBwdIn) })
  match g.svc with
  | none => s
  | some v =>
    if v.lagEn then
      (s.updStage n (fun g => { g with records := g.records ++ [r] })).pipeMsg v.collector 0x09 0 0 g.cfg.stage g.epoch g.cfg.pipe
        busy [p.step, g.part * 256 + v.lagSet]
    else s.writeStepRecord n r none

/-- STEP_TIME (R453): the collector takes a value of a set that a stage of its own package names with it as collector. -/
def execStepTime (s : State) : Out :=
  s.onPipeMsg 0x09 (fun m s =>
    let set := bits (m.w 5) 7 0
    let part := bits (m.w 5) 15 8
    let step := m.w 4
    let mine := s.pipe.slots.any (fun e => e.2.bound && e.2.svc.any (fun v =>
      v.lagEn && v.lagSet == set && v.collector == s.pkg.packageId))
    let sets := (s.pipe.lags.map (·.set)).eraseDups
    if !mine || (decide (16 ≤ sets.length) && !sets.contains set) then s
    else match listFind (fun l => l.set == set && l.step == step) s.pipe.lags with
      | some l =>
        if l.closed || decide (16384 ≤ l.vals.length) then s
        else
          let add (x : LagStep) : LagStep := { x with vals := x.vals ++ [(m.src, part, m.pipe, m.stage, m.value)] }
          { s with pipe := { s.pipe with lags := updFirst (fun x => x.set == set && x.step == step) add s.pipe.lags } }
      | none => { s with pipe := { s.pipe with
          lags := s.pipe.lags ++ [LagStep.mk set step s.clk [(m.src, part, m.pipe, m.stage, m.value)] false] } })

/-- Inserts into a rising list. -/
def insertNat (x : Nat) : List Nat → List Nat
  | [] => [x]
  | y :: t => if x ≤ y then x :: y :: t else y :: insertNat x t
/-- Sorts a list. -/
def sortNats (l : List Nat) : List Nat := l.foldr insertNat []
/-- The lower median. -/
def lowerMedian (l : List Nat) : Nat := (sortNats l).getD ((l.length - 1) / 2) 0

/-- LAG_CLOSE (R453): the first step of a set whose first value came 10 ms ago closes, and each reporter has its verdict. -/
def execLagClose (set : Nat) (s : State) : Out :=
  .next (match listFind (fun l => l.set == set && !l.closed && decide (l.since + 10000000 ≤ s.clk)) s.pipe.lags with
    | none => s
    | some l =>
      let thresh := (s.pipe.slots.findSome? (fun e => match e.2.svc with
        | some v => if e.2.bound && v.lagEn && v.lagSet == set && v.collector == s.pkg.packageId then some v.lagThresh else none
        | none => none)).getD 30
      let med := lowerMedian (l.vals.map (fun v => v.2.2.2.2))
      let close (x : LagStep) : LagStep := { x with vals := [], closed := true }
      let s : State := { s with pipe := { s.pipe with lags := updFirst (fun x => x == l) close s.pipe.lags } }
      l.vals.foldl (fun s v =>
        s.pipeMsg v.1 0x0A 0 0 v.2.2.2.1 0 v.2.2.1 med [l.step, b2n (decide (med * (1000 + thresh) < v.2.2.2.2 * 1000))]) s)

/-- LAG_VERDICT (R451, R454): a verdict for a step whose record still waits. -/
def execLagVerdict (s : State) : Out :=
  s.onStageMsg 0x0A (fun n m s =>
    match listFind (fun r => r.step == m.w 4) (s.stage n).records with
    | none => s
    | some r =>
      let v := some (m.value, bit (m.w 5) 0)
      let s := s.updStage n (fun g => { g with records := delFirst (fun x => x == r) g.records })
      (s.writeStepRecord n r v).judgeLag n (r.words.getD 3 0) v)

/-- STEP_RECORD_TIMEOUT (R451): a record of a stage has waited 20 ms. -/
def execStepRecordTimeout (slot : Nat) (s : State) : Out :=
  onUnit (decide (slot < 96)) (.next (match listFind (fun r => decide (r.endAt + 20000000 ≤ s.clk)) (s.stage slot).records with
    | none => s
    | some r =>
      let s := s.updStage slot (fun g => { g with records := delFirst (fun x => x == r) g.records })
      (s.writeStepRecord slot r none).judgeLag slot (r.words.getD 3 0) none))

/-! ### Running a plan (R444, R445, R463) -/

/-- Completions of a plan's entries are taken: an entry that ended with another status than DONE stops the plan, and the
number of a collective is kept. -/
def State.takePlanDone (s : State) (n : Nat) : State :=
  let mine : List Completion := s.cmd.committed.filter (fun c => c.path == Path.plan n)
  let s : State := { s with cmd := { s.cmd with committed := s.cmd.committed.filter (fun c => c.path != Path.plan n) } }
  s.updStage n (fun g =>
    let p := mine.foldl (fun (p : Plan) (c : Completion) =>
      match listFind (fun e => e.2.1 == c.id) p.flying with
      | none => p
      | some e => { p with
          flying := delFirst (fun x => x == e) p.flying,
          bad := if c.status ≠ stDone ∧ p.bad.isNone then some (e.1, c.opcode, c.status) else p.bad,
          collSeqs := if [0x501, 0x502, 0x503].contains c.opcode then p.collSeqs ++ [(e.1, c.res.getD 2 0)] else p.collSeqs })
      g.plan
    let done := p.flying.any (fun e => e.2.1 == 0) && !g.steps.any (fun r => r.cmd == 0) && g.takeover.isNone
    { g with plan := if done then { p with flying := p.flying.filter (fun e => e.2.1 != 0) } else p })

/-- The packet of an entry for a step: STEP_WORDS add the step number (R443). -/
def planPacket (e : List Nat) (step : Nat) : Packet :=
  Packet.ofWords ((List.range 16).map (fun i =>
    if 4 ≤ i ∧ bit (e.getD 17 0) i then wrap32 (e.getD i 0 + step) else e.getD i 0))

/-- What a spare makes of an entry of the step that it took over: none runs it, false passes over it, true stops (R463). -/
def State.resumedEntry (s : State) (n i : Nat) (pk : Packet) (dir : List (Nat × Nat)) : Option Bool :=
  let g := s.stage n
  let es := g.plan.entries
  if planTrains (es.getD i []) then some false
  else if [0x501, 0x502, 0x503].contains pk.opcode then
    let slot := pk.f 0x10 5 0
    let k := s.group slot
    let mine := (List.range es.length).filter (fun j => [0x501, 0x502, 0x503].contains (planOpcode (es.getD j [])) &&
      bits ((es.getD j []).getD 4 0) 5 0 == slot)
    let low := (k.states.map (·.2.1)).foldl min k.counter
    if !k.states.isEmpty && decide ((mine.filter (fun j => decide (j < i))).length < low % max 1 mine.length) then some false else none
  else if pk.opcode = 0x802 ∧ planPhase (es.getD i []) = 2 then
    let v := g.svc.getD { }
    let streams := (List.range 10).map (fun k => QStream.ofWords (bytesToWords (s.readVA g.part (pk.d 0x28 + 32 * k) 32)))
    let outs := (qExtents streams (pk.d 0x20) (pk.d 0x20 / 2 ^ pk.f 0x10 15 12)).filter (fun e => decide (6 ≤ e.1))
    let l := s.shards g.part v.listVa v.listCount
    let met := (List.range l.length).filter (fun j => let x := l.getD j (Shard.ofWords [])
      outs.any (fun o => rangesMeet x.va x.bytes o.2.1 o.2.2 || rangesMeet x.scaleVa x.scaleBytes o.2.1 o.2.2))
    let steps := met.filterMap (fun j => (listFind (fun e => e.1 == j) dir).map (·.2))
    if steps.isEmpty then none
    else if steps.all (· == g.plan.step) then some false
    else if steps.all (fun t => t + 1 == g.plan.step) then none
    else some true
  else none

/-- The plan stops. -/
def State.stopPlan (s : State) (n : Nat) : State :=
  s.updStage n (fun g => { g with plan := { g.plan with state := .stopped, resumed := none } })

/-- Every entry of the step has been issued: the step ends when every entry without NOWAIT has completed. -/
def State.planStepOver (s : State) (n : Nat) : State :=
  let p := (s.stage n).plan
  if p.flying.any (fun e => !planNoWait (p.entries.getD e.1 [])) then s
  else
    let s := s.endPlanStep n
    if p.stopAsked || p.left == some 0 then s.stopPlan n
    else
      let s := s.updStage n (fun g => { g with plan := { g.plan with left := g.plan.left.map (· - 1), resumed := none } })
      s.beginPlanStep n (wrap32 (p.step + 1))

/-- PLAN_ENTRY_ISSUE (R444, R445): firmware takes the completions of a stage's plan and does the next thing: it issues
the next entry, ends the step, or stops the plan after an entry that failed. -/
def execPlanEntryIssue (slot : Nat) (s : State) : Out :=
  onUnit (decide (slot < 96)) (.next (
    let s := s.takePlanDone slot
    let g := s.stage slot
    let p := g.plan
    if p.state ≠ .running ∨ g.takeover.isSome then s
    else match p.bad with
      | some b =>
        if !p.flying.isEmpty then s
        else
          let s := (s.endPlanStep slot).stopPlan slot
          s.record 0x0901 1 g.part srcStage slot p.step b.2.1 b.2.2 b.1 (partOnly g.part)
      | none =>
        if p.entries.length ≤ p.next then s.planStepOver slot
        else
          let e := p.entries.getD p.next []
          let skip := s.updStage slot (fun g => { g with plan := { g.plan with next := p.next + 1 } })
          if seqDist p.firstStep p.step % max 1 (planEvery e) ≠ 0 then skip
          else if p.flying.any (fun x => !planNoWait (p.entries.getD x.1 []) || x.1 == p.next ||
              (planPhase e == 2 && x.2.2 != p.step)) then s
          else
            let pk := planPacket e p.step
            match p.resumed.bind (s.resumedEntry slot p.next pk) with
            | some false => skip
            | some true =>
              let steps := (p.resumed.getD []).map (·.2)
              (s.stopPlan slot).record 0x0904 2 g.part srcStage slot p.step (steps.foldl min p.step) 0 0 (ownerAnd g.part)
            | none =>
              let id := s.cmd.nextId
              (skip.takePacketOn (.plan slot) pk 0 none).updStage slot (fun g => { g with plan := { g.plan with
                flying := g.plan.flying ++ [(p.next, id, p.step)] } })))

end Sys2Proof.Machine
end

