-- ==== Sys2Proof/Machine/Ckpt.lean ====
section
/-! DEFINITION. Checkpoints (R456 to R471): the buddy's accept slots and CKPT packets, CKPT_BUDDY WRITE, CKPT_DRAIN,
EXPORT_SHARDS, RESTORE. -/

namespace Sys2Proof.Machine

/-! ### Images (R465, R466, Tables 13.13 and 13.14) -/

/-- The digest of a shard: SHA-256 over the SHA-256 digests of its 1 MiB pieces (R465). -/
def shardDigest (b : List Byte) : List Byte :=
  sha256 ((chunksOf (2 ^ 20) (b.length / 2 ^ 20 + 1) b).flatMap sha256)

/-- The IMAGE_OFFSET of each shard of a list, and IMAGE_BYTES. DEDUCED: the image ends at a multiple of 4 KiB. -/
def imageLayout (l : List Shard) : List Nat × Nat :=
  let r := l.foldl (fun (a : List Nat × Nat) x => (a.1 ++ [a.2], alignUp (a.2 + x.bytes + x.scaleBytes) 4096))
    ([], alignUp (512 + 128 * l.length) 4096)
  r

/-- A header's words: FLAGS with LEVEL, ENTRIES, STEP, STAGE_ID, SHAPE, SEED, IMAGE_BYTES, berths, CURRENT, COUNTERS. -/
def manifestWords (flags entries step stageId shape seed imageBytes : Nat) (versions : List Nat) (current : Nat)
    (counters : List Nat) : List Nat :=
  [0x50434B51, flags, entries, step, stageId, shape, lo32 seed, hi32 seed, lo32 imageBytes, hi32 imageBytes] ++
    (List.range 8).map (fun i => versions.getD i 0) ++ [current, 0] ++ (List.range 32).map (fun i => counters.getD i 0) ++
    List.replicate 76 0

/-- The header snapshot of a stage (Table 13.12 step 1). DEDUCED: its MANIFEST_DIGEST is zero. -/
def StageSlot.header (g : StageSlot) (l : List Shard) (step seed : Nat) : List Byte :=
  let cur := listFind (fun b => (g.berths.get {} b).state == .current) (List.range 8)
  wordsToBytes (manifestWords 1 l.length step (g.cfg.stage * 2 ^ 16 + g.cfg.pipe) ((g.cfg.p - 1) * 2 ^ 16 + (g.cfg.v - 1)) seed
    (imageLayout l).2 ((List.range 8).map (fun b => (g.berths.get {} b).version))
    (match cur with
     | some b => 2 ^ 31 + b
     | none => 0)
    ((List.range 8).flatMap (fun v => [(g.inS (sKey 0 v)).next, (g.inS (sKey 1 v)).next, (g.outS (sKey 0 v)).next,
      (g.outS (sKey 1 v)).next])))

/-- A header with POISONED set or not, and its other flags kept. -/
def headerFlag (h : List Byte) (poisoned : Bool) : List Byte :=
  let w := ofBytes ((h.drop 4).take 4)
  h.take 4 ++ toBytes (if poisoned && !bit w 10 then w + 2 ^ 10 else w) 4 ++ h.drop 8

/-- A shard as an image carries it: its record, its bytes, whether it was read with poison. -/
structure ImageShard where
  shard : Shard
  bytes : List Byte
  poisoned : Bool
  deriving DecidableEq, Repr

/-- What is written for a shard at an image offset: a shard read with poison is written as poison (R468). -/
def ImageShard.out (x : ImageShard) (off : Nat) : List Byte :=
  if x.poisoned then poisonBytes off (x.shard.bytes + x.shard.scaleBytes) else x.bytes

/-- A manifest entry. -/
def ImageShard.entry (x : ImageShard) (off step : Nat) : List Byte :=
  wordsToBytes ((List.range 16).map (fun i => x.shard.words.getD i 0)) ++ shardDigest (x.out off) ++ toBytes off 8 ++
    toBytes x.shard.bytes 8 ++ toBytes x.shard.scaleBytes 4 ++ toBytes step 4 ++ toBytes (b2n x.poisoned) 4 ++ toBytes 0 4

/-- An image: header and entries with MANIFEST_DIGEST, and the shards by offset, which are written first. -/
def imageOf (header : List Byte) (xs : List ImageShard) (step : Nat) : List Byte × List (Nat × ImageShard) :=
  let offs := (imageLayout (xs.map (·.shard))).1
  let placed := offs.zip xs
  let h := headerFlag header (xs.any (·.poisoned))
  let entries := placed.flatMap (fun e => e.2.entry e.1 step)
  let zero := h.take 0x1E0 ++ List.replicate 32 0
  (h.take 0x1E0 ++ sha256 (zero ++ entries) ++ entries, placed)

/-- The extents of a list: bus address, length. -/
def extentList (b : List Byte) : List (Nat × Nat) :=
  (chunksOf 16 (b.length / 16 + 1) b).map (fun e => (ofBytes (e.take 8), ofBytes (e.drop 8)))

/-- Bytes that extents hold. -/
def extentRoom (l : List (Nat × Nat)) : Nat := (l.map (·.2)).foldl (· + ·) 0

/-- An extent list that an image of `n` bytes fits. DEDUCED: one with an address or length off 4 KiB does not. -/
def extentsHold (l : List (Nat × Nat)) (n : Nat) : Bool :=
  l.all (fun e => e.1 % 4096 == 0 && e.2 % 4096 == 0) && decide (n ≤ extentRoom l)

/-- Writes bytes of an image to host extents, in list order. -/
def State.putExtents (s : State) (port : Nat) : List (Nat × Nat) → Nat → List Byte → State
  | [], _, _ => s
  | (a, n) :: t, off, b =>
    if n ≤ off then State.putExtents s port t (off - n) b
    else
      let k := n - off
      let s := s.hostWrite port (a + off) (b.take k)
      if b.length ≤ k then s else State.putExtents s port t 0 (b.drop k)

/-- Writes an image, shards first; in partition memory a poisoned shard is poison. -/
def State.putImage (s : State) (img : List Byte × List (Nat × ImageShard)) (put : State → Nat → List Byte → Bool → State) : State :=
  put (img.2.foldl (fun s e => put s e.1 (e.2.out e.1) e.2.poisoned) s) 0 img.1 false

/-- Result words of CKPT_DRAIN and EXPORT_SHARDS. -/
def imageWords (img : List Byte × List (Nat × ImageShard)) (step : Nat) : List Nat :=
  [(imageLayout (img.2.map (·.2.shard))).2 / 4096, img.2.length, step, ofBytes ((img.1.drop 0x1E0).take 4)]

/-- Status of a command that met poison in a shard. -/
def imageStatus (xs : List ImageShard) : Nat := if xs.any (·.poisoned) then stPartialFault else stDone

/-! ### CKPT_BUDDY ACCEPT and REVOKE (R457, R460) -/

/-- A CKPT_BUDDY packet of an OP. -/
def ckptKind (op : Nat) (pk : Packet) : Bool := pk.opcode == 0x601 && pk.f 0x10 9 8 == op

/-- CKPT_BUDDY ACCEPT. DEDUCED: a slot in use counts as none left. -/
def execCkptBuddyAccept (path : Path) (pk : Packet) (s : State) : Out :=
  beginCmd path pk (ckptKind 2) s (fun f s =>
    let n := pk.f 0x10 6 0
    let va := pk.d 0x18
    let len := pk.d 0x20
    if va % 2 ^ 21 ≠ 0 ∨ len % 2 ^ 21 ≠ 0 ∨ pk.w 0x14 ≠ 0 then s.failWith f stFieldReserved
    else if n ≥ 96 then s.refuseService f 0x01
    else if (s.pipe.accepts.get none n).isSome then s.refuseService f 0x0B
    else
      let a : Accept := ⟨s.actsFor f, va, len, pk.f 0x28 27 20, pk.f 0x28 19 0⟩
      ({ s with pipe := { s.pipe with accepts := s.pipe.accepts.put none n (some a) } } : State).done f)

/-- CKPT_BUDDY REVOKE. -/
def execCkptBuddyRevoke (path : Path) (pk : Packet) (s : State) : Out :=
  beginCmd path pk (ckptKind 3) s (fun f s =>
    let n := pk.f 0x10 6 0
    if n ≥ 96 ∨ !(s.pipe.accepts.get none n).any (fun a => a.part == s.actsFor f) then s.refuseService f 0x01
    else ({ s with pipe := { s.pipe with accepts := s.pipe.accepts.put none n none } } : State).done f)

/-! ### CKPT packets at the buddy (R456, R457) -/

/-- A CKPT packet's SUB and target address. -/
def CPacket.sub (p : CPacket) : Nat := bits p.object 63 60
def CPacket.ckptVa (p : CPacket) : Nat := bits p.object 47 0

/-- The packet's bytes lie in an extent accepted for its source. DEDUCED: bytes that the partition cannot access are
refused too. -/
def State.ckptAccepted (s : State) (p : CPacket) (srcPart len : Nat) (write : Bool) : Bool :=
  s.pipe.accepts.any (fun e => e.2.any (fun a => a.srcPkg == p.srcPkg && a.srcPart == srcPart && a.part == p.dstPart &&
    decide (a.va ≤ p.ckptVa ∧ p.ckptVa + len ≤ a.va + a.bytes))) &&
  (s.extentFault p.dstPart p.ckptVa len write).isNone

/-- A CKPT packet is discarded with CKPT_REFUSED (R457). -/
def State.ckptRefused (s : State) (p : CPacket) : State :=
  s.record 0x0903 2 p.dstPart srcPackage 0 p.srcPkg (lo32 p.ckptVa) (hi32 p.ckptVa) 0 [0]

/-- Sends the reply to a CKPT packet: it echoes the address and TAG. -/
def State.ckptReply (s : State) (p : CPacket) (srcPart sub : Nat) (payload : List Byte) (poison : Bool) : State :=
  (s.sendPacket p.dstPart 0x30 0 p.srcPkg srcPart (ckptObject sub p.ckptVa) p.tag payload poison).1

/-- Takes a DATA or DIR packet: its payload is stored, and ACK goes back. -/
def State.ckptStore (s : State) (p : CPacket) (srcPart : Nat) : State :=
  if s.ckptAccepted p srcPart p.payload.length true then
    let s := s.chargeExtent p.dstPart 6 p.ckptVa p.payload.length true
    (s.writeVA p.dstPart p.ckptVa p.payload p.poison).ckptReply p srcPart 3 [] false
  else s.ckptRefused p

/-- CKPT_DATA (R457): the first CKPT packet that is no other subtype's. `srcPart` is the source partition; `mark` names the
stage and number of a mark image that this packet completes (R388). -/
def execCkptData (srcPart : Nat) (mark : Option (Nat × Nat × Nat)) (s : State) : Out :=
  .next (match s.takePacket (fun k => k.kind == 0x30 && !(decide (2 ≤ k.sub) && decide (k.sub ≤ 5))) with
    | none => s
    | some (p, s) =>
      if p.sub ≠ 1 then s.ckptRefused p
      else
        let ok := s.ckptAccepted p srcPart p.payload.length true
        let s := s.ckptStore p srcPart
        match mark with
        | some m => if ok then s.pipeMsg p.srcPkg 0x08 0 0 m.2.1 0 m.1 m.2.2 else s
        | none => s)

/-- CKPT_DIR (R456, R457): up to 8 directory entries, as one write. -/
def execCkptDir (srcPart : Nat) (s : State) : Out :=
  .next (match s.takePacket (fun k => k.kind == 0x30 && k.sub == 2) with
    | none => s
    | some (p, s) => s.ckptStore p srcPart)

/-- CKPT_READ (R456): READ_DATA answers with the bytes. -/
def execCkptRead (srcPart : Nat) (ue : List Nat) (s : State) : Out :=
  .next (match s.takePacket (fun k => k.kind == 0x30 && k.sub == 4) with
    | none => s
    | some (p, s) =>
      let len := ofBytes (p.payload.take 4)
      if 4096 < len ∨ !s.ckptAccepted p srcPart len false then s.ckptRefused p
      else
        let s := s.chargeExtent p.dstPart 6 p.ckptVa len false
        s.ckptReply p srcPart 5 (s.readVA p.dstPart p.ckptVa len) (s.extentPoison ue p.dstPart p.ckptVa len))

/-! ### CKPT_BUDDY WRITE (Table 13.12) -/

/-- Slots that a running drain of a stage has not read (R462). -/
def State.drainUnread (s : State) (n : Nat) : List Nat :=
  (s.pipe.jobs.filter (fun j => j.slot == n && j.drain)).flatMap (·.unread)

/-- A WRITE ends. -/
def State.endWrite (s : State) (n status : Nat) : State :=
  match (s.stage n).write with
  | none => s
  | some w =>
    let s := s.ckptDrop (fun u => u == .write n)
    let s := (s.updStage n (fun g => { g with write := none })).commit w.cmd status [w.shards, w.step, ceilDiv w.bytes (2 ^ 20), 0]
    { s with pipe := { s.pipe with ckptFail := s.pipe.ckptFail.filter (fun u => u != .write n) } }

/-- A directory entry (Table 13.10). -/
def dirBytes (slot step bytes : Nat) : List Byte :=
  wordsToBytes [2 ^ 31 + slot, compl32 (2 ^ 31 + slot), step, compl32 step, lo32 bytes, hi32 bytes, 0, 0]

/-- Sends the DIR of the group in hand (step 4). -/
def State.writeDir (s : State) (n : Nat) (l : List Shard) (w : CkptWrite) : State :=
  let g := s.stage n
  let first := (w.cur.map (·.1)).headD 0
  let body := w.cur.flatMap (fun e =>
    let x := l.getD e.1 (Shard.ofWords [])
    dirBytes e.2 w.step (x.bytes + x.scaleBytes))
  (s.updStage n (fun g => { g with write := some { w with stage := 1 } })).ckptSend g.part g.cfg.buddyPkg g.cfg.buddyPart 2
    (s.areaVa g + 0x1400 + 32 * first) body false (.write n)

/-- Sends the next group's shards into free slots, or the header after the last group. The WRITE waits while a drain has not
read the slots that it needs; an ABORT stops it here (Table 16.10a). -/
def State.writeNext (s : State) (n : Nat) (ue : List Nat) : State :=
  let g := s.stage n
  match g.write with
  | none => s
  | some w =>
    let v := g.svc.getD {}
    let l := s.shards g.part v.listVa v.listCount
    let area := s.areaVa g
    if !w.cur.isEmpty || s.ckptWaits (fun u => u == .write n) then s
    else if (s.flight w.cmd).any (fun f => f.phase == .aborting) then s.endWrite n stAborted
    else match w.groups with
      | [] =>
        (s.updStage n (fun g => { g with write := some { w with stage := 2 } })).ckptSend g.part g.cfg.buddyPkg g.cfg.buddyPart 1 area
          w.header false (.write n)
      | grp :: rest =>
        let used := (g.dir.entries.map (fun e => e.2.1)) ++ s.drainUnread n
        let free := ((List.range (v.listCount + 8)).filter (fun i => !used.contains i)).take grp.length
        if free.length < grp.length then s
        else
          let cur := grp.zip free
          let bytes := (grp.map (fun i => let x := l.getD i (Shard.ofWords []); x.bytes + x.scaleBytes)).foldl (· + ·) 0
          let w := { w with cur := cur, groups := rest, stage := 0, bytes := w.bytes + bytes }
          let s := s.updStage n (fun g => { g with write := some w })
          let s := cur.foldl (fun s e =>
            let x := l.getD e.1 (Shard.ofWords [])
            let slot := area + 2 ^ 21 + e.2 * v.slotBytes
            let s := (s.chargeExtent g.part 6 x.va x.bytes false).chargeExtent g.part 6 x.scaleVa x.scaleBytes false
            (s.mirror n x.va x.bytes slot ue (.write n)).mirror n x.scaleVa x.scaleBytes (slot + x.bytes) ue (.write n)) s
          if s.ckptWaits (fun u => u == .write n) then s else s.writeDir n l w

/-- Ends a WRITE whose packets have lost their route. -/
def State.writeCheck (s : State) (n : Nat) : State :=
  if s.pipe.ckptFail.contains (.write n) then s.endWrite n stPeerLost else s

/-- A packet of a WRITE has been acknowledged: with the last of a step, the next step begins. -/
def State.writeAcked (s : State) (n : Nat) (ue : List Nat) : State :=
  let g := s.stage n
  match g.write with
  | none => s
  | some w =>
    if s.ckptWaits (fun u => u == .write n) then s
    else match w.stage with
      | 0 =>
        let v := g.svc.getD {}
        (s.writeDir n (s.shards g.part v.listVa v.listCount) w).writeCheck n
      | 1 =>
        let l := s.shards g.part (g.svc.getD {}).listVa (g.svc.getD {}).listCount
        let fresh := w.cur.map (fun e => let x := l.getD e.1 (Shard.ofWords []); (e.1, e.2, w.step, x.bytes + x.scaleBytes))
        let s := s.updStage n (fun g => { g with
          dir := { entries := g.dir.entries.filter (fun e => !w.cur.any (fun c => c.1 == e.1)) ++ fresh },
          write := some { w with cur := [], shards := w.shards + w.cur.length } })
        (s.writeNext n ue).writeCheck n
      | _ => s.endWrite n stDone

/-- CKPT_BUDDY WRITE. -/
def execCkptBuddyWrite (path : Path) (pk : Packet) (ue : List Nat) (s : State) : Out :=
  beginOn path pk (ckptKind 1) { res := fun _ => [4] } s (fun f s =>
    let n := pk.f 0x10 6 0
    let g := s.stage n
    if (List.range 5).any (fun i => pk.w (0x18 + 4 * i) != 0) then s.failWith f stFieldReserved
    else if !s.serviceSlot f n then s.refuseService f 0x01
    else if !g.hasBuddy then s.refuseService f 0x06
    else if g.stepping || g.write.isSome then s.refuseService f 0x04
    else match g.svc with
      | none => s.refuseService f 0x02
      | some v =>
        if s.unreadable g.part v.listVa (64 * v.listCount) then s.failParam f g.part v.listVa (64 * v.listCount)
        else
          let l := s.shards g.part v.listVa v.listCount
          if s.otherLevels l then s.failWith f stLevelUnsupported
          else match stateListFault l with
          | some i => s.refuseService f 0x05 i
          | none =>
            if v.slotBytes < largestShard l then s.refuseService f 0x07
            else match s.lookup 0 g.cfg.buddyPkg false s.dataUsable (s.granted g.part) with
              | .none | .pairFault => s.failWith f stPeerLost
              | .ungranted => s.failWith f stNotOwner
              | .here | .out _ _ =>
                let w : CkptWrite := ⟨f.id, g.part, pk.w 0x14, g.header l (pk.w 0x14) v.seed, commitGroups l, [], 0, 0, 0⟩
                ((s.updStage n (fun g => { g with write := some w })).writeNext n ue).writeCheck n)

/-! ### Reading a checkpoint back: CKPT_DRAIN and RESTORE from the buddy -/

def State.job (s : State) (cmd : Nat) : Option CkptJob := listFind (fun j => j.cmd == cmd) s.pipe.jobs
def State.updJob (s : State) (cmd : Nat) (f : CkptJob → CkptJob) : State :=
  { s with pipe := { s.pipe with jobs := updFirst (fun j => j.cmd == cmd) f s.pipe.jobs } }
def State.dropJob (s : State) (cmd : Nat) : State :=
  let use := fun (u : CkptUse) => match u with
    | .drain c _ | .restore c _ => c == cmd
    | _ => false
  let s := s.ckptDrop use
  { s with pipe := { s.pipe with
      jobs := s.pipe.jobs.filter (fun j => j.cmd != cmd), ckptFail := s.pipe.ckptFail.filter (fun u => !use u) } }

/-- Packets of a job that wait, by offset. -/
def State.jobWaits (s : State) (cmd : Nat) (p : Nat → Bool) : Bool := s.ckptWaits (fun u => match u with
  | .drain c o | .restore c o => c == cmd && p o
  | _ => false)

/-- Bytes at an offset of the region, and whether any came with poison. -/
def CkptJob.bytes (j : CkptJob) (off n : Nat) : List Byte := gathered (j.data.map (fun e => (e.1, e.2.1))) off n
def CkptJob.poison (j : CkptJob) (off n : Nat) : Bool := j.data.any (fun e => e.2.2 && rangesMeet e.1 e.2.1.length off n)
/-- The directory that a job has read. -/
def CkptJob.dir (j : CkptJob) : List (Nat × Nat × Nat × Nat) := areaDir (j.data.map (fun e => (e.1, e.2.1)))

/-- Asks the buddy for part of the region for a job. -/
def State.jobAsk (s : State) (j : CkptJob) (off n : Nat) : State :=
  let area := s.areaVa (s.stage j.slot)
  s.askBuddy j.slot (area + off) n (fun o => if j.drain then .drain j.cmd (off + o) else .restore j.cmd (off + o))

/-- The shards of a stage as a job read them from the slots. A shard that the directory does not name counts as poison
(DESIGN CHOICE). -/
def State.jobShards (s : State) (j : CkptJob) : List ImageShard :=
  let g := s.stage j.slot
  let v := g.svc.getD {}
  let l := s.shards g.part v.listVa v.listCount
  ((List.range l.length).zip l).map (fun e =>
    let n := e.2.bytes + e.2.scaleBytes
    match listFind (fun d => d.1 == e.1) j.dir with
    | some d => let off := 2 ^ 21 + d.2.1 * v.slotBytes
      ⟨e.2, j.bytes off n, j.poison off n⟩
    | none => ⟨e.2, [], true⟩)

/-- A drain has read everything: it writes the image (R467 steps 3 and 4). -/
def State.finishDrain (s : State) (j : CkptJob) : State :=
  let header := j.bytes 0 512
  let step := ofBytes ((header.drop 12).take 4)
  let xs := s.jobShards j
  let img := imageOf header xs step
  let s := s.charge j.part 3 (imageLayout (xs.map (·.shard))).2
  let s := s.putImage img (fun s off b _ => s.putExtents (s.pathPort j.path) j.extents off b)
  (s.dropJob j.cmd).commit j.cmd (imageStatus xs) (imageWords img step)

/-- One shard of a RESTORE as it was read. -/
structure RestoreShard where
  /-- The matching state record. -/
  shard : Shard
  bytes : List Byte
  /-- The shard ends as poison: its entry is POISONED, it came with poison, or its digest differs. -/
  bad : Bool
  deriving DecidableEq, Repr

/-- RESTORE writes the shards, then SEED, STEP and the counters (R471). DEDUCED: no barge is on its way, so RELEASED of
each stream equals its counter. -/
def State.applyRestore (s : State) (n cmd : Nat) (header : List Byte) (xs : List RestoreShard) : State :=
  let g := s.stage n
  let w := fun o => ofBytes ((header.drop o).take 4)
  let flags := w 4
  let s := xs.foldl (fun s x =>
    let s := (s.chargeExtent g.part 6 x.shard.va x.shard.bytes true).chargeExtent g.part 6 x.shard.scaleVa x.shard.scaleBytes true
    if x.bad then (s.poisonVA g.part x.shard.va x.shard.bytes).poisonVA g.part x.shard.scaleVa x.shard.scaleBytes
    else (s.writeVA g.part x.shard.va (x.bytes.take x.shard.bytes)).writeVA g.part x.shard.scaleVa (x.bytes.drop x.shard.bytes)) s
  let step := wrap32 (w 0x0C + 1)
  let seed := w 0x18 + 2 ^ 32 * w 0x1C
  let s := match g.svc with
    | some v => (s.writeVA g.part (v.va + 4) (toBytes step 4)).writeVA g.part (v.va + 8) (toBytes seed 8)
    | none => s
  let s := s.updStage n (fun g => { g with svc := g.svc.map (fun v => { v with step := step, seed := seed }) })
  let s := if bit flags 9 || bit flags 8 then s
    else s.updStage n (fun g => (List.range 8).foldl (fun g v =>
      let c := fun i => w (0x50 + 16 * v + 4 * i)
      let inTo (x : Nat) (i : InStream) : InStream := { i with next := x, released := x, used := x }
      let outTo (x : Nat) (o : OutStream) : OutStream := { o with next := x, released := x }
      (((g.updIn (sKey 0 v) (inTo (c 0))).updIn (sKey 1 v) (inTo (c 1))).updOut (sKey 0 v) (outTo (c 2))).updOut (sKey 1 v) (outTo (c 3))) g)
  let lost := (xs.filter (·.bad)).length
  s.commit cmd (if lost = 0 then stDone else stPartialFault)
    [xs.length - lost, lost, w 0x0C, if bit (w 0x48) 31 then w (0x28 + 4 * (w 0x48 % 8)) else 0xFFFFFFFF]

/-- What a RESTORE's header is refused with for the stage: SHAPE (R470). -/
def StageSlot.shapeOk (g : StageSlot) (header : List Byte) : Bool :=
  let w := fun o => ofBytes ((header.drop o).take 4)
  (bit (w 4) 8 || (w 0x10 == g.cfg.stage * 2 ^ 16 + g.cfg.pipe && w 0x14 == (g.cfg.p - 1) * 2 ^ 16 + (g.cfg.v - 1))) &&
    !(bit (w 4) 9 && g.ran)

/-- Completes a command with the answer to a manifest whose LEVEL is not the running level, or SERVICE_REFUSED. -/
def State.restoreRefused (s : State) (cmd cause : Nat) : State :=
  if cause = 0 then s.commit cmd stLevelUnsupported [] else s.commit cmd stServiceRefused [cause, 0xFFFFFFFF]

/-- The first reason that a manifest is not restored, 0 for its LEVEL (R470). -/
def State.manifestFault (s : State) (header : List Byte) (digestOk : Bool) : Option Nat :=
  let w := fun o => ofBytes ((header.drop o).take 4)
  if bits (w 4) 3 0 ≠ s.pkg.runLevel then some 0
  else if w 0 ≠ 0x50434B51 ∨ !digestOk then some 0x0A
  else none

/-- A RESTORE from the buddy has the control area: the manifest is judged, and the slots are asked for. -/
def State.restoreArea (s : State) (j : CkptJob) : State :=
  let g := s.stage j.slot
  let v := g.svc.getD {}
  let header := j.bytes 0 512
  let l := s.shards g.part v.listVa v.listCount
  let all := decide (ofBytes ((header.drop 8).take 4) = l.length) && ((List.range l.length).zip l).all (fun e =>
    j.dir.any (fun d => d.1 == e.1 && d.2.2.2 == e.2.bytes + e.2.scaleBytes))
  match s.manifestFault header (!j.poison 0 512) with
  | some c => (s.dropJob j.cmd).restoreRefused j.cmd c
  | none =>
    if !all || !g.shapeOk header then (s.dropJob j.cmd).restoreRefused j.cmd 0x09
    else
      let s := s.updJob j.cmd (fun j => { j with stage := 2 })
      j.dir.foldl (fun s d =>
        let x := l.getD d.1 (Shard.ofWords [])
        s.jobAsk j (2 ^ 21 + d.2.1 * v.slotBytes) (x.bytes + x.scaleBytes)) s

/-- The shards of a RESTORE from the buddy. -/
def State.finishRestore (s : State) (j : CkptJob) : State :=
  let header := j.bytes 0 512
  let xs := (s.jobShards j).map (fun x => RestoreShard.mk x.shard x.bytes x.poisoned)
  (s.dropJob j.cmd).applyRestore j.slot j.cmd header xs

/-- What a job does next, once nothing that it asked for is outstanding; a drain waits for a WRITE (R462). -/
def State.jobNext (s : State) (cmd : Nat) : State :=
  match s.job cmd with
  | none => s
  | some j =>
    if s.jobWaits cmd (fun _ => true) then s
    else match j.stage with
      | 0 =>
        if j.drain && (s.stage j.slot).write.isSome then s
        else (s.updJob cmd (fun j => { j with stage := 1 })).jobAsk j 0 (0x1400 + 65536)
      | 1 =>
        if j.drain then
          let g := s.stage j.slot
          let v := g.svc.getD {}
          let l := s.shards g.part v.listVa v.listCount
          let s := s.updJob cmd (fun j => { j with stage := 2, unread := j.dir.map (fun d => d.2.1) })
          let s := j.dir.foldl (fun s d =>
            let x := l.getD d.1 (Shard.ofWords [])
            s.jobAsk j (2 ^ 21 + d.2.1 * v.slotBytes) (x.bytes + x.scaleBytes)) s
          if s.jobWaits cmd (fun _ => true) then s
          else match s.job cmd with
            | some j => s.finishDrain j
            | none => s
        else
          let s := s.restoreArea j
          if s.jobWaits cmd (fun _ => true) then s
          else match s.job cmd with
            | some j => s.finishRestore j
            | none => s
      | _ => if j.drain then s.finishDrain j else s.finishRestore j

/-- Jobs whose packets have lost their route end with PEER_LOST. -/
def State.jobCheck (s : State) : State :=
  let lost := s.pipe.jobs.filter (fun j => s.pipe.ckptFail.any (fun u => match u with
    | .drain c _ | .restore c _ => c == j.cmd
    | _ => false))
  lost.foldl (fun s j => (s.dropJob j.cmd).commit j.cmd stPeerLost []) s

/-- Jobs and WRITEs of a stage that wait for one another go on. -/
def State.ckptGoOn (s : State) (n : Nat) (ue : List Nat) : State :=
  let waiting := s.pipe.jobs.filter (fun j => j.slot == n && j.stage == 0)
  let s := (waiting.foldl (fun s j => s.jobNext j.cmd) s).jobCheck
  match (s.stage n).write with
  | some w => if w.stage = 2 then s else (s.writeNext n ue).writeCheck n
  | none => s

/-- A read of a job has come back. -/
def State.jobData (s : State) (cmd off : Nat) (p : CPacket) (ue : List Nat) : State :=
  match s.job cmd with
  | none => s
  | some j =>
    let v := (s.stage j.slot).svc.getD {}
    let s := s.updJob cmd (fun j => { j with data := j.data ++ [(off, p.payload, p.poison)] })
    let s := s.updJob cmd (fun j => { j with unread := j.unread.filter (fun k =>
      s.jobWaits cmd (fun o => rangesMeet o 1 (2 ^ 21 + k * v.slotBytes) v.slotBytes)) })
    ((s.jobNext cmd).jobCheck).ckptGoOn j.slot ue

/-- CKPT_DRAIN (R467). `host` is what reading the extent list returns. -/
def execCkptDrain (path : Path) (pk : Packet) (host : Option (List Byte)) (s : State) : Out :=
  beginOn path pk (ofOp 0x602) { res := fun _ => [3, 4] } s (fun f s =>
    let n := pk.f 0x10 6 0
    let g := s.stage n
    let count := pk.f 0x14 11 0
    if count = 0 then s.failWith f stFieldReserved
    else if !s.serviceSlot f n then s.refuseService f 0x01
    else if !g.hasBuddy then s.refuseService f 0x06
    else match g.svc with
      | none => s.refuseService f 0x02
      | some v =>
        if s.unreadable g.part v.listVa (64 * v.listCount) then s.failParam f g.part v.listVa (64 * v.listCount)
        else
          let exts := extentList (host.getD [])
          let need := (imageLayout (s.shards g.part v.listVa v.listCount)).2
          if host.all (fun b => b.length != 16 * count) || !extentsHold exts need then s.refuseService f 0x08
          else
            let s := s.charge g.part 3 (16 * count)
            let j : CkptJob := ⟨f.id, n, true, path, g.part, 0, exts, [], []⟩
            ((({ s with pipe := { s.pipe with jobs := s.pipe.jobs ++ [j] } } : State).jobNext f.id).jobCheck))

/-! ### Replies at the source -/

/-- Takes the CKPT packet that a reply answers, if one waits. -/
def State.ckptMatch (s : State) (p : CPacket) : Option (CkptUse × State) :=
  (listFind (fun c => c.tag == p.tag && c.dst == p.srcPkg && bits c.object 47 0 == p.ckptVa) s.pipe.ckptSent).map (fun c =>
    (c.what, { s with pipe := { s.pipe with ckptSent := delFirst (fun x => x == c) s.pipe.ckptSent } }))

/-- CKPT_ACK (R456, R460): a DATA or DIR packet is stored. -/
def execCkptAck (ue : List Nat) (s : State) : Out :=
  .next (match s.takePacket (fun k => k.kind == 0x30 && k.sub == 3) with
    | none => s
    | some (p, s) =>
      match s.ckptMatch p with
      | none => s
      | some (u, s) =>
        match u with
        | .berth n b => if s.ckptWaits (fun u => u == .berth n b) then s else s.berthReady n b
        | .write n => (s.writeAcked n ue).ckptGoOn n ue
        | _ => s)

/-- CKPT_READ_DATA (R456): bytes read from the buddy have come. -/
def execCkptReadData (ue : List Nat) (s : State) : Out :=
  .next (match s.takePacket (fun k => k.kind == 0x30 && k.sub == 5) with
    | none => s
    | some (p, s) =>
      match s.ckptMatch p with
      | none => s
      | some (u, s) =>
        match u with
        | .berthBack n b va =>
          let s := s.writeVA (s.stage n).part va p.payload p.poison
          if s.ckptWaits (fun u => match u with
              | .berthBack m c _ => m == n && c == b
              | _ => false) then s
          else s.updStage n (fun g => { g with berths := g.berths.upd {} b (fun x => { x with restoring := false }) })
        | .image n off =>
          let add (t : Takeover) : Takeover := { t with image := t.image ++ [(off, p.payload)] }
          (s.updStage n (fun g => { g with takeover := g.takeover.map add })).tryResume n
        | .area n off =>
          let add (t : Takeover) : Takeover := { t with control := t.control ++ [(off, p.payload)] }
          (s.updStage n (fun g => { g with takeover := g.takeover.map add })).tryResume n
        | .shard n va => (s.writeVA (s.stage n).part va p.payload p.poison).tryResume n
        | .drain cmd off | .restore cmd off => s.jobData cmd off p ue
        | _ => s)

/-! ### EXPORT_SHARDS (R469) -/

/-- A shard read where it lives. -/
def State.liveShard (s : State) (part : Nat) (ue : List Nat) (x : Shard) : ImageShard :=
  let bad := fun (va n : Nat) => s.extentPoison ue part va n || (s.extentUe ue part va n).isSome
  ⟨x, s.readVA part x.va x.bytes ++ s.readVA part x.scaleVa x.scaleBytes, bad x.va x.bytes || bad x.scaleVa x.scaleBytes⟩

/-- The extents of shards. -/
def shardExtents (l : List Shard) : List (Nat × Nat) :=
  l.flatMap (fun x => [(x.va, x.bytes), (x.scaleVa, x.scaleBytes)])

/-- Why the partition may not access shards: the first fault, or a tier under test. -/
def State.shardsFault (s : State) (part : Nat) (l : List Shard) (write : Bool) : Option Nat :=
  if (shardExtents l).any (fun e => s.extentAsleep part e.1 e.2) then some cTranslation else
  l.findSome? (fun x => ((s.extentFault part x.va x.bytes write).orElse (fun _ => s.extentFault part x.scaleVa x.scaleBytes write)))

/-- The status for a destination or source that cannot be accessed. -/
def faultStatus (cause : Nat) : Nat := if cause = cReadOnly then stReadOnly else stNotOwner

/-- EXPORT_SHARDS. `host` is what reading the extent list returns. -/
def execExportShards (path : Path) (pk : Packet) (host : Option (List Byte)) (ue : List Nat) (s : State) : Out :=
  beginOn path pk (ofOp 0x603) {
      res := fun s => [(pk.d 0x18, 64 * min (pk.f 0x10 11 0) 2048)].flatMap (fun e =>
        (if pk.b 0x10 12 then [3] else []) ++ s.extentRes (s.pathPart path) (s.pathDie path) e.1 e.2) } s (fun f s =>
    let part := s.actsFor f
    let count := pk.f 0x10 11 0
    let isHost := pk.b 0x10 12
    let step := pk.w 0x14
    let exts := extentList (host.getD [])
    if count = 0 ∨ 2048 < count ∨ (isHost ∧ pk.f 0x28 11 0 = 0) then s.failWith f stFieldReserved
    else if s.unreadable part (pk.d 0x18) (64 * count) then s.failParam f part (pk.d 0x18) (64 * count)
    else if s.extentPoison ue part (pk.d 0x18) (64 * count) then s.refuseService f 0x05
    else
      let s := s.chargeParam f (pk.d 0x18) (64 * count) false
      let l := s.shards part (pk.d 0x18) count
      let total := (imageLayout l).2
      if s.otherLevels l then s.failWith f stLevelUnsupported
      else match listFind (fun i => !(l.getD i (Shard.ofWords [])).ok) (List.range count) with
      | some i => s.refuseService f 0x05 i
      | none =>
        match s.shardsFault part l false with
        | some _ => s.failExtents f part (shardExtents l) stNotOwner
        | none =>
          let dstFault := if isHost then none else if s.extentAsleep part (pk.d 0x20) total then some cTranslation
            else s.extentFault part (pk.d 0x20) total true
          match dstFault with
          | some c => s.failExtents f part [(pk.d 0x20, total)] (faultStatus c)
          | none =>
            if isHost ∧ (host.all (fun b => b.length != 16 * pk.f 0x28 11 0) ∨ !extentsHold exts total) then
              s.refuseService f 0x08
            else
              let xs := l.map (s.liveShard part ue)
              let stated := wordsToBytes (manifestWords 0x101 count step 0 0 0 total [] 0 [])
              let header := (List.range 512).map (fun i =>
                if (0x14 ≤ i ∧ i < 0x20) ∨ (0x28 ≤ i ∧ i < 0x4C) then Config.exportByte i else stated.getD i 0)
              let img := imageOf header xs step
              let s := l.foldl (fun s x =>
                (s.chargeExtent part (s.pathDie path) x.va x.bytes false).chargeExtent part (s.pathDie path) x.scaleVa x.scaleBytes false) s
              let s := if isHost then
                  (s.charge part 3 total).putImage img (fun s off b _ => s.putExtents (s.pathPort path) exts off b)
                else (s.chargeExtent part (s.pathDie path) (pk.d 0x20) total true).putImage img (fun s off b bad =>
                  s.writeVA part (pk.d 0x20 + off) b bad)
              s.commit f.id (imageStatus xs) (imageWords img step))

/-! ### RESTORE (R470, R471) -/

/-- Manifest entries of an image: record words, digest, offset, bytes, scale bytes, POISONED. -/
def imageEntries (b : List Byte) (n : Nat) : List (List Nat × List Byte × Nat × Nat × Nat × Bool) :=
  (List.range n).map (fun i =>
    let e := (b.drop (512 + 128 * i)).take 128
    let w := fun o => ofBytes ((e.drop o).take 4)
    (bytesToWords (e.take 64), (e.drop 0x40).take 32, ofBytes ((e.drop 0x60).take 8), ofBytes ((e.drop 0x68).take 8), w 0x70,
      bit (w 0x78) 0))

/-- For each entry, the list index of the state record with its coordinates, when they match one to one. -/
def matchShards (l : List Shard) (es : List (List Nat × List Byte × Nat × Nat × Nat × Bool)) : Option (List Nat) :=
  let at' := es.map (fun e => listFind (fun i =>
    let x := l.getD i (Shard.ofWords [])
    x.words.take 10 == e.1.take 10 && x.bytes == e.2.2.2.1 && x.scaleBytes == e.2.2.2.2.1) (List.range l.length))
  let is := at'.filterMap id
  if es.length = l.length ∧ is.length = l.length ∧ is.eraseDups.length = l.length then some is else none

/-- RESTORE of a whole image: what comes at each offset, and whether it may be trusted. -/
def State.restoreImage (s : State) (f : Flight) (n : Nat) (l : List Shard) (read : Nat → Nat → List Byte)
    (bad : Nat → Nat → Bool) : State :=
  let g := s.stage n
  let header := read 0 512
  let count := ofBytes ((header.drop 8).take 4)
  let man := if count ≤ 2048 then read 0 (512 + 128 * count) else []
  let digestOk := decide (count ≤ 2048) && !bad 0 (512 + 128 * count) && decide (man.length = 512 + 128 * count) &&
    sha256 (man.take 0x1E0 ++ List.replicate 32 0 ++ man.drop 512) == (man.drop 0x1E0).take 32
  match s.manifestFault header digestOk with
  | some c => s.restoreRefused f.id c
  | none =>
    let es := imageEntries man count
    if s.otherLevels l || es.any (fun e => s.otherLevel (bits (e.1.getD 0 0) 3 0)) then s.failWith f stLevelUnsupported
    else match stateListFault l with
    | some i => s.refuseService f 0x05 i
    | none =>
      match matchShards l es with
      | none => s.refuseService f 0x09
      | some is =>
        if !g.shapeOk header then s.refuseService f 0x09
        else
          let xs := (is.zip es).map (fun (e : Nat × (List Nat × List Byte × Nat × Nat × Nat × Bool)) =>
            let x := l.getD e.1 (Shard.ofWords [])
            let len := x.bytes + x.scaleBytes
            let b := read e.2.2.2.1 len
            RestoreShard.mk x b (e.2.2.2.2.2.2 || bad e.2.2.2.1 len || shardDigest b != e.2.2.1))
          s.applyRestore n f.id header xs

/-- RESTORE. With SOURCE HOST, `host` is the image as reading the extents returns it. -/
def execRestore (path : Path) (pk : Packet) (host : Option (List Byte)) (ue : List Nat) (s : State) : Out :=
  beginOn path pk (ofOp 0x604)
    { res := fun s => if pk.f 0x10 9 8 = 0 then [3] else if pk.f 0x10 9 8 = 2 then [4] else s.extentRes (s.pathPart path) (s.pathDie path) (pk.d 0x18) 512 } s (fun f s =>
    let n := pk.f 0x10 6 0
    let g := s.stage n
    let source := pk.f 0x10 9 8
    let part := s.actsFor f
    if source = 0 ∧ pk.f 0x14 11 0 = 0 then s.failWith f stFieldReserved
    else if !s.serviceSlot f n then s.refuseService f 0x01
    else if g.plan.state = .running ∨ g.stepping then s.refuseService f 0x04
    else match g.svc with
      | none => s.refuseService f 0x02
      | some v =>
        if s.unreadable part v.listVa (64 * v.listCount) then s.failParam f part v.listVa (64 * v.listCount)
        else
          let l := s.shards part v.listVa v.listCount
          match s.shardsFault part l true with
          | some c => s.failExtents f part (shardExtents l) (faultStatus c)
          | none =>
            match source with
            | 0 =>
              match host with
              | none => s.refuseService f 0x0A
              | some b => (s.charge part 3 (16 * pk.f 0x14 11 0 + b.length)).restoreImage f n l (fun o k => (b.drop o).take k)
                  (fun o k => decide (b.length < o + k))
            | 1 =>
              let va := pk.d 0x18
              if s.unreadable part va 512 then s.failParam f part va 512
              else
                let total := ofBytes (s.readVA part (va + 0x20) 8)
                (s.chargeExtent part (s.pathDie path) va (min total (2 ^ 48)) false).restoreImage f n l (fun o k => s.readVA part (va + o) k)
                  (fun o k => (s.extentFault part (va + o) k false).isSome || s.extentPoison ue part (va + o) k)
            | _ =>
              if !g.hasBuddy then s.refuseService f 0x06
              else if s.otherLevels l then s.failWith f stLevelUnsupported
              else match stateListFault l with
                | some i => s.refuseService f 0x05 i
                | none =>
                  let j : CkptJob := ⟨f.id, n, false, path, part, 0, [], [], []⟩
                  (({ s with pipe := { s.pipe with jobs := s.pipe.jobs ++ [j] } } : State).jobNext f.id).jobCheck)

/-- ABORT of a WRITE, a drain or a RESTORE (Table 16.10a): a WRITE stops between commit groups, the others before they have
written anything. -/
def State.abortCkpt (s : State) (cmd : Nat) : State :=
  match s.job cmd with
  | some j => ((s.dropJob cmd).commit cmd stAborted []).ckptGoOn j.slot []
  | none =>
    match listFind (fun e => e.2.write.any (fun w => w.cmd == cmd)) s.pipe.slots with
    | some e => if (e.2.write.map (fun w => w.cur.isEmpty && w.stage != 2)).getD false then s.endWrite e.1 stAborted else s
    | none => s

end Sys2Proof.Machine
end

