-- ==== Sys2Proof/Machine/Coll.lean ====
section
/-! DEFINITION. Groups and collectives (R408 to R440): GROUP_BIND, ALLREDUCE, ALLTOALL, PERMUTE_RESHARD, and the packets
and messages of their engines. -/

namespace Sys2Proof.Machine

/-- Refuses with COLL_REFUSED (R440). -/
def State.refuseGroup (s : State) (f : Flight) (cause : Nat) : State := s.commit f.id stCollRefused [cause, 0xFFFFFFFF]

/-! ### GROUP_BIND (R409 to R412) -/

/-- Reads a group record. -/
def Group.ofWords (ws : List Nat) : Group :=
  let w := fun i => ws.getD i 0
  { id := w 1, rank := bits (w 2) 13 0, rejoinUs := w 3, scratchVa := w 4 + 2 ^ 32 * w 5, scratchBytes := w 6 + 2 ^ 32 * w 7,
    tableVa := w 8 + 2 ^ 32 * w 9, tableGen := w 10,
    members := (List.range (bits (w 0) 21 8 + 1)).map (fun r => (bits (w (16 + r)) 31 24, bits (w (16 + r)) 19 0)),
    digest := crc32 (wordsToBytes (ws.take 2 ++ [w 2 / 2 ^ 14 * 2 ^ 14] ++ ws.drop 3)) }

/-- A record's reserved fields are zero and its fields are as Table 12.2 has them. -/
def groupRecordOk (ws : List Nat) : Bool :=
  let w := fun i => ws.getD i 0
  let g := Group.ofWords ws
  bits (w 0) 31 22 == 0 && bits (w 0) 7 4 == 0 && bits (w 0) 3 0 == 1 && bits (w 2) 31 14 == 0 &&
  (List.range 5).all (fun i => w (11 + i) == 0) &&
  (List.range g.size).all (fun r => bits (w (16 + r)) 23 20 == 0) && decide (g.rank < g.size) &&
  g.members.all (fun m => decide (1 ≤ m.1 ∧ m.1 ≤ 64)) && (g.members.map (·.2)).eraseDups.length == g.size

/-- The scratch is writable tier-1 memory of a partition, and the G8 table is one of R301. -/
def State.scratchOk (s : State) (part : Nat) (g : Group) : Bool :=
  g.scratchVa % 2 ^ 21 == 0 && g.scratchBytes % 2 ^ 21 == 0 && decide (2 ^ 23 ≤ g.scratchBytes ∧ g.scratchBytes ≤ 2 ^ 32) &&
  (List.range (g.scratchBytes / 2 ^ 21)).all (fun i => match s.translate part (g.scratchVa + i * 2 ^ 21) true with
    | .tier d | .fresh d => tierOf d == 0
    | _ => false) &&
  (g.tableVa == 0 || ((s.extentFault part g.tableVa 1024 false).isNone && !s.extentPoison [] part g.tableVa 1024 &&
    (let t := s.g8Table { g with part := part }
     t.all (·.isFinite) && t.any (·.isZero))))

/-- The cause that a record is refused with (R411). -/
def State.groupCause (s : State) (part : Nat) (standby : Bool) (ws : List Nat) : Option Nat :=
  let g := Group.ofWords ws
  let me := s.pkg.packageId
  if !groupRecordOk ws then some 0x02
  else if !standby && (g.pkgOf g.rank != me || g.partOf g.rank != part) then some 0x02
  else if standby && g.members.any (fun m => m.2 == me) then some 0x02
  else if !s.scratchOk part g then some 0x0C
  else if (s.coll.groups.filter (fun e => e.2.bound)).length ≥ 64 then some 0x03
  else if 1 < g.size && !((List.range 24).any (s.granted part)) then some 0x0A
  else none

/-- A GROUP_BIND packet of an OP. -/
def groupKind (op : Nat) (pk : Packet) : Bool := pk.opcode == 0x504 && pk.f 0x18 9 8 == op

/-- Sends HELLO to the ring neighbours that have not answered. -/
def State.sendHello (s : State) (n : Nat) : State :=
  let g := s.group n
  let s := (g.ring.filter (fun r => !g.replies.contains r)).foldl (fun s r => s.collCtl n r 0x01 0 g.digest 0) s
  s.updGroup n (fun g => { g with helloAt := s.clk })

/-- GROUP_BIND with OP BIND or STANDBY. `host` is what a RECORD_HOST read returns. -/
def State.bindGroup (s : State) (f : Flight) (standby : Bool) (host : Option (List Byte)) (ue : List Nat) : State :=
  let pk := f.pk
  let part := s.actsFor f
  let isHost := pk.b 0x18 7
  let head := if isHost then .ok ((host.getD []).take 64) else s.paramBytes part (pk.d 0x10) 64 false none ue
  match head with
  | .error false => s.failParam f part (pk.d 0x10) 64
  | .error true => s.refuseGroup f 0x02
  | .ok h =>
    if s.otherLevel (bits (ofBytes (h.take 4)) 3 0) then s.failWith f stLevelUnsupported
    else
    let len := 64 + 4 * (bits (ofBytes (h.take 4)) 21 8 + 1)
    let s := s.chargeParam f (pk.d 0x10) len isHost
    match s.paramBytes part (pk.d 0x10) len isHost host ue with
    | .error false => s.failParam f part (pk.d 0x10) len
    | .error true => s.refuseGroup f 0x02
    | .ok b =>
      let ws := bytesToWords b
      match s.groupCause part standby ws with
      | some c => s.refuseGroup f c
      | none =>
        let g := Group.ofWords ws
        let n := (listFind (fun i => !(s.group i).bound) (List.range 64)).getD 0
        let s := s.updGroup n (fun _ => { g with
          bound := true, standby := standby, part := part, pipe := pk.f 0x1C 15 0,
          state := if g.size = 1 ∧ !standby then .ready else .waiting })
        let s := if standby then s else s.sendHello n
        s.done f [n, g.digest, g.size, 0]

/-- What a GROUP_BIND that reads a record needs first. -/
def recordGate (path : Path) (pk : Packet) : Gate where
  res := fun s => if pk.b 0x18 7 then [3] else s.extentRes (s.pathPart path) (s.pathDie path) (pk.d 0x10) 64

/-- GROUP_BIND with OP BIND. -/
def execGroupBind (path : Path) (pk : Packet) (host : Option (List Byte)) (ue : List Nat) (s : State) : Out :=
  beginOn path pk (groupKind 1) (recordGate path pk) s (fun f s => s.bindGroup f false host ue)

/-- GROUP_BIND with OP STANDBY. -/
def execGroupStandby (path : Path) (pk : Packet) (host : Option (List Byte)) (ue : List Nat) (s : State) : Out :=
  beginOn path pk (groupKind 3) (recordGate path pk) s (fun f s => s.bindGroup f true host ue)

/-- GROUP_BIND with OP UNBIND. -/
def execGroupUnbind (path : Path) (pk : Packet) (s : State) : Out :=
  beginOn path pk (groupKind 2) {} s (fun f s =>
    let n := pk.f 0x18 5 0
    let g := s.group n
    if !g.bound then s.refuseGroup f 0x01
    else if g.part ≠ s.actsFor f then s.failWith f stNotOwner
    else if !g.colls.isEmpty then s.refuseGroup f 0x09
    else (s.updGroup n (fun _ => {})).done f [n, g.digest, g.size, 0])

/-! ### Checks of a collective (Table 12.9) -/

/-- Bytes that an address of a format must be aligned to. -/
def fmtAlign (f : Nat) : Nat := max 1 (elemBits f / 8)

/-- Two extents have a byte in common. -/
def extentsMeet (a b : Nat × Nat) : Bool := decide (a.1 < b.1 + b.2 ∧ b.1 < a.1 + a.2)

/-- A reduction's formats, MODE and WIRE are those of R422 to R424. -/
def Coll.formatOk (c : Coll) : Bool :=
  if c.op = .allgather then
    !c.ordered && !c.g8 && c.inF == c.outF && elemBits c.inF != 0
  else if c.ordered then
    [8, 7, 9, 10].contains c.inF && [9, 8, 7].contains c.outF && (!c.g8 || c.inF == 8)
  else [10, 11, 8, 9].contains c.inF && [10, 9, 8, 7, 11].contains c.outF && !c.g8

/-- The elements that this member owns: the first, and how many. -/
def Coll.ownedElems (c : Coll) (g : Group) : Nat × Nat :=
  let (lo, hi) := c.owned g g.rank
  (4096 * lo, min c.count (4096 * hi) - min c.count (4096 * lo))

/-- Source and destination extents of a reduction, then the extents of its scales. -/
def Coll.redExtents (c : Coll) (g : Group) : (Nat × Nat) × (Nat × Nat) × List (Nat × Nat) :=
  let own := (c.ownedElems g).2
  let src := (c.src, fmtBytes c.inF (if c.op = .allgather then own else c.count))
  let dst := (c.dst, fmtBytes c.outF (if c.op = .reduceScatter then own else c.count))
  (src, dst, if c.op = .allgather ∧ c.blog ≠ 0 then [(c.pk.d 0x30, c.scalesOf own), (c.pk.d 0x38, c.scalesOf c.count)] else [])

/-- The overlap of source and destination that R425 allows. -/
def Coll.inPlace (c : Coll) (g : Group) : Bool :=
  match c.op with
  | .allreduce => c.src == c.dst && elemBits c.inF == elemBits c.outF
  | .reduceScatter => c.dst == c.src + fmtBytes c.inF (c.ownedElems g).1
  | .allgather => c.src == c.dst + fmtBytes c.inF (c.ownedElems g).1
  | _ => false

/-- No two of a list of extents meet. -/
def apart : List (Nat × Nat) → Bool
  | [] => true
  | a :: t => t.all (fun b => !extentsMeet a b) && apart t

/-- The cause that a reduction is refused with. -/
def Coll.redCause (c : Coll) (g : Group) : Option Nat :=
  if !c.formatOk then some 0x06
  else if c.count = 0 ∨ 2 ^ 40 < c.count ∨ c.src % fmtAlign c.inF ≠ 0 ∨ c.dst % fmtAlign c.outF ≠ 0 ∨
      (c.blog ≠ 0 ∧ (c.op ≠ .allgather ∨ c.blog < 5 ∨ 12 < c.blog ∨ c.count % 2 ^ c.blog ≠ 0)) then some 0x07
  else
    let (src, dst, scales) := c.redExtents g
    if (extentsMeet src dst && !c.inPlace g) || !apart scales ||
        scales.any (fun x => extentsMeet x src || extentsMeet x dst) then some 0x08
    else none

/-- Rows that an ALLTOALL sends. -/
def Coll.rowsSent (c : Coll) (g : Group) : Nat :=
  ((List.range g.size).flatMap (fun q => (List.range c.experts).map (c.sendCount g q))).foldl (· + ·) 0

/-- Extents that an ALLTOALL reads, and that it writes. -/
def Coll.rowExtents (c : Coll) (g : Group) : List (Nat × Nat) × List (Nat × Nat) :=
  let cs := (c.pk.d 0x20, 4 * g.size * c.experts)
  let ks := (c.pk.d 0x20 + 4 * g.size * c.experts, 4 * g.size * c.experts)
  let send := (c.pk.d 0x18, c.rowsSent g * c.row)
  if c.op = .dispatch then ([send, cs], [ks, (c.pk.d 0x28, c.pk.w 0x30 * c.row)])
  else ([send, cs, ks], [(c.pk.d 0x28, rowsBefore c.counts (g.size * c.experts) * c.row)])

/-- The cause that an ALLTOALL is refused with. -/
def Coll.rowsCause (c : Coll) (g : Group) : Option Nat :=
  if c.row < 64 ∨ 65536 < c.row ∨ c.row % 64 ≠ 0 ∨ c.pk.d 0x18 % 64 ≠ 0 ∨ c.pk.d 0x28 % 64 ≠ 0 ∨ c.pk.d 0x20 % 4 ≠ 0 ∨
      (c.op = .dispatch ∧ c.pk.w 0x30 = 0) ∨ 2 ^ 32 ≤ c.rowsSent g ∨
      2 ^ 32 ≤ rowsBefore c.counts (g.size * c.experts) then some 0x07
  else
    let e := c.rowExtents g
    if !apart (e.1 ++ e.2) then some 0x08 else none

/-- π is a permutation of the ranks. -/
def Coll.permOk (c : Coll) (g : Group) : Bool :=
  c.perm.all (fun e => bits e 31 14 == 0) &&
    (List.range g.size).all (fun r => (c.perm.map (fun e => bits e 13 0)).contains r)

/-- The cause that a PERMUTE_RESHARD is refused with. -/
def Coll.permCause (c : Coll) (g : Group) : Option Nat :=
  let k := c.pk.f 0x10 20 16
  if k < 16 ∨ 26 < k ∨ c.pk.d 0x18 % c.chunk ≠ 0 ∨ c.pk.d 0x20 % c.chunk ≠ 0 ∨ 2 ^ 40 < c.pk.d 0x20 then some 0x07
  else if !c.permOk g then some 0x0B
  else if g.scratchBytes < 2 * c.chunk then some 0x0C
  else none

/-- The status that the extents of a collective are refused with: their tiers must be awake (R241), all of them must be
there, and those written writable. -/
def State.extentsStatus (s : State) (part : Nat) (rd wr : List (Nat × Nat)) : Option Nat :=
  if (rd ++ wr).any (fun e => s.extentAsleep part e.1 e.2) then some stDomainAsleep else
  let rs := rd.filterMap (fun e => s.extentFault part e.1 e.2 false)
  let ws := wr.filterMap (fun e => s.extentFault part e.1 e.2 true)
  if !rs.isEmpty || ws.any (· != cReadOnly) then some stNotOwner
  else if ws.isEmpty then none else some stReadOnly

/-! ### The commands -/

/-- The collective commands wait at a group whose member waits to become one, or has not had every survivor's STATE
(R435). -/
def State.groupOpen (s : State) (n : Nat) : Bool :=
  let g := s.group n
  !(g.bound && (g.standby || (g.rejoining && !g.others.all (fun r =>
    g.lost.any (fun e => e.1 == r) || g.states.any (fun e => e.1 == r)))))

/-- What a collective command needs first. -/
def collGate (path : Path) (pk : Packet) : Gate where
  res := fun s => if (s.group (pk.f 0x10 5 0)).size < 2 then [] else if s.pathPart path = 0 then [] else [4]
  ready := fun s => s.groupOpen (pk.f 0x10 5 0)

/-- A checked collective takes the group's next number and waits for its turn (R413). -/
def State.enterColl (s : State) (n : Nat) (c : Coll) (ue : List Nat) : State :=
  let s := s.updGroup n (fun g => { g with colls := g.colls ++ [{ c with seq := g.counter }], counter := wrap32 (g.counter + 1) })
  s.startColls n ue

/-- The group that a collective command names: the slot, or how the command ends. -/
def State.slotOf (s : State) (f : Flight) (body : Group → State) : State :=
  let g := s.group (f.pk.f 0x10 5 0)
  if !g.bound then s.refuseGroup f 0x01
  else if g.part ≠ s.actsFor f then s.failWith f stNotOwner
  else body g

/-- A collective goes on when the extents that it reads and writes resolve; else it fails with their status, and the entries that
fail their pair are recorded (R218). -/
def State.resolved (s : State) (f : Flight) (g : Group) (rd wr : List (Nat × Nat)) (ok : State) : State :=
  match s.extentsStatus g.part rd wr with
  | some st => (s.notePairs g.part (rd ++ wr)).failWith f st
  | none => ok

/-- A reduction of a bound group begins when its packet passes its checks (Table 12.9) and its extents resolve (R420 to R425). -/
def State.startReduction (s : State) (f : Flight) (g : Group) (c : Coll) (ue : List Nat) : State :=
  match c.redCause g with
  | some x => s.refuseGroup f x
  | none =>
    let (src, dst, scales) := c.redExtents g
    s.resolved f g (src :: scales.take 1) (dst :: scales.drop 1) (s.enterColl (c.pk.f 0x10 5 0) c ue)

/-- A reduction of the given kind (R420 to R427). -/
def reduction (op : CollOp) (path : Path) (pk : Packet) (code : Nat) (ue : List Nat) (s : State) : Out :=
  beginOn path pk (ofOpField 0x501 0x10 29 28 code) (collGate path pk) s (fun f s => s.slotOf f (fun g =>
    s.startReduction f g { cmd := f.id, seq := 0, op := op, opcode := 0x501, pk := pk } ue))

/-- ALLREDUCE. -/
def execAllreduce (path : Path) (pk : Packet) (ue : List Nat) (s : State) : Out := reduction .allreduce path pk 0 ue s
/-- REDUCE_SCATTER. -/
def execReduceScatter (path : Path) (pk : Packet) (ue : List Nat) (s : State) : Out := reduction .reduceScatter path pk 1 ue s
/-- ALLGATHER. -/
def execAllgather (path : Path) (pk : Packet) (ue : List Nat) (s : State) : Out := reduction .allgather path pk 2 ue s

/-- An ALLTOALL of a bound group begins when its counts pass the checks and its extents resolve (R428 to R431). -/
def State.startRows (s : State) (f : Flight) (g : Group) (c : Coll) (ue : List Nat) : State :=
  match c.rowsCause g with
  | some x => s.refuseGroup f x
  | none => s.resolved f g (c.rowExtents g).1 (c.rowExtents g).2 (s.enterColl (c.pk.f 0x10 5 0) c ue)

/-- An ALLTOALL of the given kind (R428 to R431). DEDUCED: poisoned counts are out of range. -/
def tokenRows (op : CollOp) (path : Path) (pk : Packet) (code : Nat) (ue : List Nat) (s : State) : Out :=
  beginOn path pk (ofOpField 0x502 0x10 8 8 code) (collGate path pk) s (fun f s => s.slotOf f (fun g =>
    let c0 : Coll := { cmd := f.id, seq := 0, op := op, opcode := 0x502, pk := pk }
    let cs := pk.d 0x20
    let len := 4 * g.size * c0.experts * (if op = .dispatch then 1 else 2)
    if s.unreadable g.part cs len then s.failParam f g.part cs len
    else if s.extentPoison ue g.part cs len then s.refuseGroup f 0x07
    else
      let s := s.chargeParam f cs len false
      let c := { c0 with counts := bytesToWords (s.readVA g.part cs len) }
      s.startRows f g { c with sentRows := c.rowsSent g } ue))

/-- ALLTOALL with OP DISPATCH. -/
def execAlltoallDispatch (path : Path) (pk : Packet) (ue : List Nat) (s : State) : Out := tokenRows .dispatch path pk 0 ue s
/-- ALLTOALL with OP COMBINE. -/
def execAlltoallCombine (path : Path) (pk : Packet) (ue : List Nat) (s : State) : Out := tokenRows .combine path pk 1 ue s

/-- PERMUTE_RESHARD (R432, R433). -/
def execPermuteReshard (path : Path) (pk : Packet) (ue : List Nat) (s : State) : Out :=
  beginOn path pk (ofOp 0x503) (collGate path pk) s (fun f s => s.slotOf f (fun g =>
    let va := pk.d 0x28
    let len := 4 * g.size
    if s.unreadable g.part va len then s.failParam f g.part va len
    else
      let s := s.chargeParam f va len false
      let bad := s.extentPoison ue g.part va (4 * g.size)
      let c : Coll := { cmd := f.id, seq := 0, op := .permute, opcode := 0x503, pk := pk,
                        perm := if bad then [] else bytesToWords (s.readVA g.part va (4 * g.size)) }
      match c.permCause g with
      | some x => s.refuseGroup f x
      | none => s.resolved f g [] [(pk.d 0x18, pk.d 0x20)] (s.enterColl (pk.f 0x10 5 0) c ue)))

/-- ABORT of a collective (R438): FAIL with 0xFF to every member, and it stops with what it has written. -/
def State.abortColl (s : State) (cmd : Nat) : State :=
  match listFind (fun e => e.2.colls.any (fun c => c.cmd == cmd)) s.coll.groups with
  | none => s
  | some e => match listFind (fun c => c.cmd == cmd) e.2.colls with
    | none => s
    | some c => (s.collAll e.1 0x04 c.seq 0xFF 0).endColl e.1 c.seq stAborted (c.words e.2)

/-! ### Data packets (R416, R418) -/

/-- A collective of a group by its number modulo 2^16. -/
def Group.collMod (g : Group) (m : Nat) : Option Coll := listFind (fun c => c.seq % 2 ^ 16 == m) g.colls

/-- COLL_PACKET (R416): the first delivered canal packet of KIND COLL. One for another partition than its group's is
discarded with R313's record. -/
def execCollPacket (ue : List Nat) (s : State) : Out :=
  .next (match s.takePacket (fun k => k.kind == 0x10) with
    | none => s
    | some (p, s) =>
      let phase := bits p.object 63 60
      let src := bits p.object 59 46
      let index := bits p.object 29 0
      match s.groupOf p.tag with
      | none => s
      | some n =>
        let g := s.group n
        if g.part ≠ p.dstPart then s.partDiscard p
        else if g.standby || decide (g.size ≤ src) || g.pkgOf src != p.srcPkg then s
        else match g.collMod (bits p.object 45 30) with
          | none => s
          | some c =>
            if !c.started || !c.phases.contains phase || c.got.any (fun x => x.phase == phase && x.src == src && x.index == index) then s
            else
              let s := s.updColl n c.seq (fun c => { c with got := c.got ++ [⟨phase, src, index, p.payload, p.poison⟩] })
              let s := match (s.collOf n c.seq).bind (fun c => c.allCounts g) with
                | some cs =>
                  if c.rowsOp && decide (2 ^ 32 ≤ (cs.map (fun (l : List Nat) => l.foldl (· + ·) 0)).foldl (· + ·) 0) then
                    (s.collAll n 0x04 c.seq 0x07 0).refuseColl n c.seq 0x07
                  else s
                | none => s
              (s.driveColl n c.seq ue).startColls n ue)

/-- Takes the first delivered RMEM packet of a KIND. -/
def State.onRmem (s : State) (kind : Nat) (body : CPacket → State → State) : Out :=
  .next (match s.takePacket (fun k => k.kind == kind) with
    | none => s
    | some (p, s) => body p s)

/-- Writes COLL_RMEM_REFUSED. -/
def State.rmemRefused (s : State) (p : CPacket) : State :=
  s.record 0x0802 2 0xFF srcPackage 0 (lo32 p.object) (hi32 p.object) p.srcPkg 0 [0]

/-- An extent lies in a group's scratch. -/
def Group.inScratch (g : Group) (va len : Nat) : Bool :=
  decide (g.scratchVa ≤ va ∧ va + len ≤ g.scratchVa + g.scratchBytes)

/-- The partition of a package in a group. -/
def Group.partFor (g : Group) (pkg : Nat) : Nat := ((listFind (fun m => m.2 == pkg) g.members).map (·.1)).getD 0

/-- RMEM_WRITE (R418, R433): the scratch of the named group takes it and it is acknowledged. -/
def execRmemWrite (ue : List Nat) (s : State) : Out :=
  s.onRmem 0x20 (fun p s =>
    let va := bits p.object 47 0
    let m := bits p.object 63 48
    match s.groupOf p.tag with
    | none => s.rmemRefused p
    | some n =>
      let g := s.group n
      if g.part ≠ p.dstPart ∨ !g.inScratch va p.payload.length then s.rmemRefused p
      else
        let s := (s.chargeExtent g.part 6 va p.payload.length true).writeVA g.part va p.payload p.poison
        let s := (s.sendPacket g.part 0x23 5 p.srcPkg (g.partFor p.srcPkg) p.object p.tag []).1
        let off := va - g.scratchVa
        match g.collMod m with
        | some c =>
          if c.op = .permute ∧ c.started then
            (s.updColl n c.seq (fun c => ({ c with stagedOffs := c.stagedOffs ++ [off] } : Coll).stage 2)).driveGroup n ue
          else s.updGroup n (fun g => { g with early := g.early ++ [(m, off)] })
        | none => s.updGroup n (fun g => { g with early := g.early ++ [(m, off)] }))

/-- RMEM_READ (R418): the scratch of the named group, or an extent that the reader's package mirrors to this one. -/
def execRmemRead (ue : List Nat) (s : State) : Out :=
  s.onRmem 0x21 (fun p s =>
    let va := bits p.object 47 0
    let len := ofBytes (p.payload.take 4)
    let reply := fun (part dstPart : Nat) =>
      ((s.chargeExtent part 6 va len false).sendPacket part 0x22 5 p.srcPkg dstPart p.object p.tag (s.readVA part va len)
        (s.extentPoison ue part va len)).1
    match s.groupOf p.tag with
    | some n =>
      let g := s.group n
      if g.part = p.dstPart ∧ g.inScratch va len then reply g.part (g.partFor p.srcPkg)
      else match s.acceptFor p.srcPkg p.dstPart va len with
        | some a => reply a.part a.srcPart
        | none => s.rmemRefused p
    | none => match s.acceptFor p.srcPkg p.dstPart va len with
      | some a => reply a.part a.srcPart
      | none => s.rmemRefused p)

/-- Takes the request that an RMEM answer belongs to. -/
def State.rmemAnswer (s : State) (p : CPacket) : Option (RmemSent × State) :=
  (listFind (fun r => r.dst == p.srcPkg && r.object == p.object) s.coll.rmem).map (fun r =>
    (r, { s with coll := { s.coll with rmem := delFirst (fun x => x == r) s.coll.rmem } }))

/-- Answers of a kind are still awaited by a collective. -/
def State.rmemWaits (s : State) (n seq what chunk : Nat) : Bool :=
  s.coll.rmem.any (fun r => r.slot == n && r.seq == seq && r.what == what && r.chunk == chunk)

/-- RMEM_DATA (R437): a rejoined member's region is written, or a chunk read back goes on to π(M). -/
def execRmemData (ue : List Nat) (s : State) : Out :=
  s.onRmem 0x22 (fun p s => match s.rmemAnswer p with
    | none => s
    | some (r, s) =>
      let g := s.group r.slot
      match s.collOf r.slot r.seq with
      | none => s
      | some c =>
        if r.what = 1 then
          let s := s.writeVA g.part r.va p.payload p.poison
          if s.rmemWaits r.slot r.seq 1 0 then s
          else (s.updColl r.slot r.seq (fun c => { c with loading := false })).driveGroup r.slot ue
        else
          let t := c.dstOf g.rank
          let s := s.rmemSend r.slot r.seq 0x20 (g.pkgOf t) (g.partOf t) r.va p.payload p.poison 0 r.chunk 0
          if s.rmemWaits r.slot r.seq 2 r.chunk then s
          else (s.updColl r.slot r.seq (fun c => { c with sentChunks := r.chunk + 1 })).driveGroup r.slot ue)

/-- RMEM_ACK (R433): a chunk is acknowledged when all its writes are. -/
def execRmemAck (ue : List Nat) (s : State) : Out :=
  s.onRmem 0x23 (fun p s => match s.rmemAnswer p with
    | none => s
    | some (r, s) =>
      if s.rmemWaits r.slot r.seq 0 r.chunk || s.rmemWaits r.slot r.seq 2 r.chunk then s
      else (s.updColl r.slot r.seq (fun c => { c with
        acked := if c.acked.contains r.chunk then c.acked else c.acked ++ [r.chunk] })).driveGroup r.slot ue)

/-! ### Control messages (R412, R414, R417, R434 to R437) -/

/-- A neighbour's HELLO marked REPLY. -/
def State.helloReply (s : State) (n src digest : Nat) (ue : List Nat) : State :=
  let g := s.group n
  if g.state != .waiting || !g.ring.contains src || g.replies.contains src then s
  else if digest ≠ g.digest then
    let s := s.updGroup n (fun g => { g with state := .mismatched })
    (s.record 0x0801 2 g.part srcGroup n g.id src digest 0 (ownerAnd g.part)).startColls n ue
  else
    let s := s.updGroup n (fun g => { g with
      replies := g.replies ++ [src], state := if g.ring.all (fun r => r == src || g.replies.contains r) then .ready else g.state })
    s.startColls n ue

/-- HELLO (R412). -/
def execHello (ue : List Nat) (s : State) : Out :=
  s.onCtl 0x01 (fun n src m s =>
    if (s.group n).standby then s
    else if bit (m.words.getD 4 0) 0 then s.helloReply n src (m.words.getD 3 0) ue
    else s.collCtl n src 0x01 0 (s.group n).digest 1)

/-- HELLO_REPEAT (R412). -/
def execHelloRepeat (slot : Nat) (s : State) : Out :=
  onUnit (decide (slot < 64)) (.next (
    let g := s.group slot
    if g.bound && !g.standby && g.state == .waiting && decide (g.helloAt + 100000 ≤ s.clk) then s.sendHello slot else s))

/-- A collective number of a group that has been completed here. -/
def Group.past (g : Group) (seq : Nat) : Bool := seqLt seq g.counter && !g.colls.any (fun c => c.seq == seq)

/-- START (R414). -/
def execCollStart (s : State) : Out :=
  s.onCtl 0x02 (fun n src m s =>
    let g := s.group n
    let seq := m.words.getD 2 0
    let d := m.words.getD 3 0
    match s.collOf n seq with
    | some c =>
      if !c.started then s.updGroup n (fun g => { g with starts := g.starts ++ [(src, seq, d)] })
      else if c.digest = d then s
      else (s.collAll n 0x04 seq 0x05 0).refuseColl n seq 0x05
    | none => if g.past seq then s else s.updGroup n (fun g => { g with starts := g.starts ++ [(src, seq, d)] }))

/-- CREDIT (R417, R433). -/
def execCollCredit (ue : List Nat) (s : State) : Out :=
  s.onCtl 0x03 (fun n src m s =>
    let g := s.group n
    let seq := m.words.getD 2 0
    let lim := m.words.getD 3 0
    let ph := bits (m.words.getD 4 0) 3 0
    let hold := s.updGroup n (fun g => { g with
      credits := (src, seq, ph, lim) :: g.credits.filter (fun e => !(e.1 == src && e.2.1 == seq && e.2.2.1 == ph)) })
    match s.collOf n seq with
    | none => if g.past seq then s else hold
    | some c =>
      if !c.started then hold
      else if ph = 6 then
        if c.dstOf g.rank = src then (s.updColl n seq (fun c => { c with peerWritten := max c.peerWritten lim })).driveGroup n ue else s
      else (s.updColl n seq (fun c => { c with
        outs := updFirst (fun o => o.phase == ph && o.peer == src) (fun o => { o with limit := max o.limit lim }) c.outs })).driveGroup n ue)

/-- FAIL (R414, R438). -/
def execCollFail (ue : List Nat) (s : State) : Out :=
  s.onCtl 0x04 (fun n _ m s =>
    let seq := m.words.getD 2 0
    let cause := bits (m.words.getD 3 0) 7 0
    match s.collOf n seq with
    | some _ => (s.failColl n seq cause).startColls n ue
    | none => if (s.group n).past seq then s else s.updGroup n (fun g => { g with fails := g.fails ++ [(seq, cause)] }))

/-- LOST (R434). -/
def execCollLost (s : State) : Out :=
  s.onCtl 0x05 (fun n _ m s => s.learnLost n (m.words.getD 3 0))

/-- PEER_NOTICE (R434): the first delivered one. -/
def execPeerNotice (s : State) : Out :=
  .next (match listFind (fun e => e.2.ttype == 0x30) s.link.msgs with
    | none => s
    | some e =>
      let s := { s with link := { s.link with msgs := delFirst (fun x => x == e) s.link.msgs } }
      s.groupsLost (e.2.words.getD 1 0))

/-- A collective at a survivor of a rejoin (R436, R437): streams to the new rank begin again, its own credits are granted
again, and chunks that were on their way to it go again. -/
def Coll.rejoin (c : Coll) (g : Group) (r : Nat) : Coll :=
  if !c.started then c
  else
    let c := { c with
      rejoined := true,
      outs := c.outs.map (fun o => if o.peer = r then { o with next := 0, limit := 0 } else o),
      granted := c.granted.filter (fun x => x.2.1 != r) }
    let c := if c.op = .permute ∧ c.dstOf g.rank = r then
        { c with again := some 0, sentChunks := 0, peerWritten := 0, acked := [] } else c
    if c.op = .permute ∧ c.frm g.rank = r then { c with stagedOffs := [] } else c

/-- REJOIN (R436): the entry is replaced, STATE answers, and what the new rank needs goes again. -/
def execRejoin (ue : List Nat) (s : State) : Out :=
  s.onCtl 0x06 (fun n _ m s =>
    let g := s.group n
    let r := m.words.getD 4 0
    let pkg := bits (m.words.getD 3 0) 19 0
    if g.standby || decide (g.size ≤ r) || r == g.rank then s
    else
      let old := g.pkgOf r
      let s := s.updGroup n (fun g => { g with
        members := (List.range g.size).map (fun i => if i = r then (g.partOf r, pkg) else g.members.getD i (0, 0)),
        lost := g.lost.filter (fun e => e.1 != r),
        credits := g.credits.filter (fun e => e.1 != r),
        colls := g.colls.map (fun c => c.rejoin g r) })
      let s := { s with coll := { s.coll with rmem := s.coll.rmem.filter (fun x =>
        !(x.slot == n && x.dst == old && x.what == 0) && !(x.slot == n && x.what == 2)) } }
      let g := s.group n
      let low := (g.colls.map (·.seq)).foldl (fun a x => if seqLt x a then x else a) g.counter
      let staged := match listFind (fun c => c.op == .permute && c.started && c.frm g.rank == r) g.colls with
        | some c => c.staged
        | none => 0
      let s := s.collCtl n r 0x07 0 low staged
      let s := (g.colls.filter (fun c => c.op == .permute && c.started && c.frm g.rank == r)).foldl (fun s c =>
        s.collCtl n r 0x03 c.seq c.written.length 6) s
      s.driveGroup n ue)

/-- STATE (R435): the new member's counter becomes the lowest that the survivors report. -/
def execCollState (s : State) : Out :=
  s.onCtl 0x07 (fun n src m s =>
    let seq := m.words.getD 3 0
    s.updGroup n (fun g =>
      if !g.rejoining then g
      else { g with
        counter := if g.states.isEmpty || seqLt seq g.counter then seq else g.counter,
        states := g.states.filter (fun e => e.1 != src) ++ [(src, seq, m.words.getD 4 0)] }))

/-- REJOIN_WAIT_EXPIRE (R434): a lost rank of a group has not rejoined within REJOIN_WAIT_US. -/
def execRejoinWaitExpire (slot : Nat) (s : State) : Out :=
  onUnit (decide (slot < 64)) (.next (
    let g := s.group slot
    if g.lost.any (fun e => decide (e.2 + 1000 * g.rejoinUs ≤ s.clk)) then
      g.colls.foldl (fun s c => s.endColl slot c.seq stPeerLost (c.words g)) s
    else s))

end Sys2Proof.Machine
end

