-- ==== Sys2Proof/Machine/ServOps.lean ====
section
/-! DEFINITION. The serving controller's operations (R474 to R493): the AST, KV lists, ending sequences, work lists. -/

namespace Sys2Proof.Machine

/-! ### The AST -/

def State.ast (s : State) (i : Nat) : Option AstEntry := s.serv.ast.get none i
def State.updAst (s : State) (i : Nat) (f : AstEntry → AstEntry) : State :=
  { s with serv := { s.serv with ast := s.serv.ast.upd none i (Option.map f) } }

/-- Entries that are not FREE, and that a test names. -/
def State.astWhere (s : State) (p : AstEntry → Bool) : List (Nat × AstEntry) :=
  s.serv.ast.filterMap (fun e => match e.2 with
    | some a => if p a then some (e.1, a) else none
    | none => none)

/-- Entries that a partition holds (R478). -/
def State.servUsed (s : State) (p : Nat) : Nat := (s.astWhere (fun a => a.part == p)).length

/-- The entries of the models that share a pool. -/
def State.poolEntries (s : State) (pool : Nat) : List (Nat × AstEntry) :=
  s.astWhere (fun a => (s.model a.slot).bound && (s.model a.slot).pool == pool)

/-- Blocks that no list of a pool names, and how many of them are free: blocks reserved at admission are not (R482).
DEDUCED: a reservation counts blocks; which ones is settled when a row first covers them (R487). -/
def State.unnamedBlocks (s : State) (m : ModelSlot) : List Nat :=
  let named := (s.poolEntries m.pool).flatMap (fun e => e.2.blocks)
  (List.range m.cfg.blocks).filter (fun b => !named.contains b)
def State.freeBlocks (s : State) (m : ModelSlot) : Nat :=
  (s.unnamedBlocks m).length - ((s.poolEntries m.pool).map (fun e => e.2.reserved)).foldl (· + ·) 0

/-- Firmware writes for a partition, charged to it. -/
def State.servWrite (s : State) (part va : Nat) (b : List Byte) : State :=
  (s.chargeExtent part 6 va b.length true).writeVA part va b

/-- Address of word `j` of KV list `h`. -/
def ModelRec.listWord (c : ModelRec) (h j : Nat) : Nat := c.listVa + 4 * c.listLen * h + 4 * j

/-! ### Ending a sequence (R486) -/

/-- Codes of REASON (Table 14.8). -/
def endEos : Nat := 0
def endMaxNew : Nat := 1
def endRetired : Nat := 2
def endFault : Nat := 3
def endUnbound : Nat := 4
def endAborted : Nat := 5

/-- A sequence ends; an AST_RETIRE that waits for it completes. -/
def State.endSeq (s : State) (i reason : Nat) : State :=
  match s.ast i with
  | none => s
  | some a =>
    let m := s.model a.slot
    let c := m.cfg
    let s := if a.gen = 0 then s
      else
        let va := a.outVa + 8 * (a.gen - 1) + 4
        let w := s.readNat a.part va 4
        s.servWrite a.part va (toBytes (if bit w 0 then w else w + 1) 4)
    let s := if a.blocks.isEmpty then s
      else s.servWrite a.part (c.listWord a.kvList 0) (List.replicate (4 * a.blocks.length) 0xFF)
    let status := if reason = endFault then stPartialFault else if a.fbTokens > 0 then stDeadlineFallback else stDone
    let now := s.sysTime
    let s := s.servWrite a.part (c.endVa + 32 * (m.ends % 2 ^ (c.endLog2 + 4))) (wordsToBytes
      [a.seqId, i * 2 ^ 16 + status, a.gen, a.fbTokens, b2n a.missed * 8 + reason, m.ends, lo32 now, hi32 now])
    let s := s.updModel a.slot (fun m => { m with ends := sat32 (m.ends + 1) })
    let s : State := { s with serv := { s.serv with ast := s.serv.ast.put none i none } }
    match a.cmd with
    | some cmd => s.commit cmd stDone [a.gen, a.fbTokens]
    | none => s

/-- Ends every sequence that a test names; one that is RETIRING ends as retired. -/
def State.endWhere (s : State) (p : AstEntry → Bool) (reason : Nat) : State :=
  (s.astWhere p).foldl (fun s e => s.endSeq e.1 (if e.2.state = .retiring then endRetired else reason)) s

/-! ### Deadlines (R490 to R493) -/

/-- T_est in nanoseconds. -/
def ModelSlot.tEst (m : ModelSlot) : Nat := if m.times.isEmpty then 1000 * m.cfg.estUs else m.times.foldl max 0

/-- The predicted finish of an entry on a model, by its TARGET_GEN. -/
def AstEntry.finish (a : AstEntry) (m : ModelSlot) (now target : Nat) : Nat :=
  let r := a.promptLen - a.position
  let steps := ceilDiv r m.cfg.chunk + (target - a.gen - b2n (decide (r > 0)))
  now + steps * m.tEst

/-- A finish keeps a deadline with the primary model's guard. -/
def meets (finish deadline guardUs : Nat) : Bool := decide (finish + 1000 * guardUs ≤ deadline)

/-- A committed deadline is missed: recorded once (R493). -/
def State.missDeadline (s : State) (i : Nat) : State :=
  match s.ast i with
  | none => s
  | some a =>
    if a.missed then s
    else
      let s := (s.updAst i (fun a => { a with missed := true })).updModel a.slot (fun m => { m with missed := sat32 (m.missed + 1) })
      s.record 0x0A02 1 a.part srcModel a.slot i a.seqId (sat32 ((s.sysTime - a.deadline) / 1000)) 0 (ownerAnd a.part)

/-- The monitor looks at one entry of model `n` (R492, R493). -/
def State.monitorOne (s : State) (n i : Nat) : State :=
  match s.ast i with
  | none => s
  | some a =>
    if !a.committed then s
    else
      let now := s.sysTime
      let s := if a.gen < a.targetGen ∧ a.deadline < now then s.missDeadline i else s
      let m := s.model n
      match m.fallback with
      | none => s
      | some k =>
        if a.fallback || meets (a.finish m now a.targetGen) a.deadline a.guardUs then s
        else
          let late := !meets (a.finish (s.model k) now a.targetGen) a.deadline a.guardUs
          let s := s.updAst i (fun a => { a with slot := k, fallback := true, atRisk := a.atRisk || late })
          let s := s.updModel n (fun m => { m with switches := sat32 (m.switches + 1) })
          if late then s.record 0x0A01 1 a.part srcModel n i a.seqId 0 0 (partOnly a.part) else s

/-- DEADLINE_MONITOR: step 4 of R481. -/
def State.deadlineMonitor (s : State) (n : Nat) : State :=
  (s.astWhere (fun a => a.slot == n)).foldl (fun s e => s.monitorOne n e.1) s

/-! ### Boundaries (R481 to R485) -/

/-- STEP of the running or last step. -/
def ModelSlot.step (m : ModelSlot) : Nat := if m.next = 0 then 0xFFFFFFFF else m.next - 1

/-- Applies the output record of row `k` of the finished step (R485). -/
def State.applyRow (s : State) (n step k : Nat) (r : ServRow) (ue : List Nat) : State :=
  match s.ast r.ast with
  | none => s
  | some a =>
    if a.state = .retiring ∨ a.seqId ≠ r.seqId then s
    else
      let m := s.model n
      let va := m.cfg.outVa + 16 * k
      let w := bytesToWords (s.readVA m.part va 16)
      let s := s.chargeExtent m.part 6 va 16 false
      let bad := !bit (w.getD 1 0) 0 || w.getD 2 0 != step || s.extentPoison ue m.part va 16
      if r.emit && bad then s.endSeq r.ast endFault
      else
        let s := s.updAst r.ast (fun a =>
          let p := a.position + r.count
          { a with position := p, state := if !r.decode && a.promptLen ≤ p then .decode else a.state })
        if !r.emit then s
        else
          let status := if r.fallback then stDeadlineFallback else stDone
          let s := s.servWrite a.part (a.outVa + 8 * a.gen) (wordsToBytes [w.getD 0 0, status * 2 ^ 16 + 2 ^ 15])
          let s := s.updAst r.ast (fun a => { a with
            gen := a.gen + 1, fbTokens := if r.fallback then a.fbTokens + 1 else a.fbTokens })
          let s := s.updModel n (fun m => { m with
            tokens := sat64 (m.tokens + 1), fbTokens := if r.fallback then sat64 (m.fbTokens + 1) else m.fbTokens })
          let s := if a.committed ∧ a.gen + 1 = a.targetGen ∧ a.deadline < s.sysTime then s.missDeadline r.ast else s
          if bit (w.getD 1 0) 1 then s.endSeq r.ast endEos
          else if a.maxNew ≤ a.gen + 1 then s.endSeq r.ast endMaxNew
          else s

/-- Inserts by ADMIT_SEQ or by the order of R483. -/
def insertBy (le : AstEntry → AstEntry → Bool) (x : Nat × AstEntry) : List (Nat × AstEntry) → List (Nat × AstEntry)
  | [] => [x]
  | y :: t => if le x.2 y.2 then x :: y :: t else y :: insertBy le x t
def sortBy (le : AstEntry → AstEntry → Bool) (l : List (Nat × AstEntry)) : List (Nat × AstEntry) := l.foldr (insertBy le) []

/-- The deadline that orders an entry: none counts as 2^64 − 1. -/
def AstEntry.orderDeadline (a : AstEntry) : Nat := if a.targetGen = 0 then 2 ^ 64 - 1 else a.deadline

/-- The order of R483: CLASS, DEADLINE, ADMIT_SEQ. -/
def servOrder (a b : AstEntry) : Bool :=
  if a.cls ≠ b.cls then decide (a.cls < b.cls)
  else if a.orderDeadline ≠ b.orderDeadline then decide (a.orderDeadline < b.orderDeadline)
  else decide (a.admitSeq ≤ b.admitSeq)

/-- Admits PENDING entries in ADMIT_SEQ order until one whose blocks are not free (R482). -/
def State.admitList (s : State) (n : Nat) : List (Nat × AstEntry) → State
  | [] => s
  | e :: t =>
    let m := s.model n
    let need := ceilDiv e.2.promptLen m.cfg.blockTokens
    if s.freeBlocks m < need then s
    else State.admitList (s.updAst e.1 (fun a => { a with state := .prefill, reserved := need })) n t
def State.admitPending (s : State) (n : Nat) : State :=
  s.admitList n (sortBy (fun a b => decide (a.admitSeq ≤ b.admitSeq)) (s.astWhere (fun a => a.slot == n && a.state == .pending)))

/-- KV words that positions below `upto` need and that the list does not name yet. -/
def AstEntry.wants (a : AstEntry) (m : ModelSlot) (upto : Nat) : Nat := ceilDiv upto m.cfg.blockTokens - a.blocks.length

/-- Takes the lowest free block for the next word of an entry's list (R487). -/
def State.takeBlock (s : State) (n i : Nat) : State :=
  match s.ast i, (s.unnamedBlocks (s.model n)).head? with
  | some a, some b =>
    let s := s.servWrite a.part ((s.model n).cfg.listWord a.kvList a.blocks.length) (toBytes b 4)
    s.updAst i (fun a => { a with blocks := a.blocks ++ [b], reserved := a.reserved - 1 })
  | _, _ => s
def State.takeBlocks (s : State) (n i : Nat) : Nat → State
  | 0 => s
  | k + 1 => (s.takeBlock n i).takeBlocks n i k

/-- The work list as it is built. -/
structure ListBuild where
  rows : List ServRow := []
  tokens : Nat := 0
  stop : Bool := false
  deriving DecidableEq, Repr

/-- One DECODE entry in the first pass (R483). -/
def State.decodeRow (s : State) (n i : Nat) (b : ListBuild) : State × ListBuild :=
  match s.ast i with
  | none => (s, b)
  | some a =>
    let m := s.model n
    if m.cfg.maxRows ≤ b.rows.length ∨ m.cfg.maxStepTokens ≤ b.tokens then (s, b)
    else if a.wants m (a.position + 1) > 0 ∧ a.reserved = 0 ∧ s.freeBlocks m = 0 then
      (s.updModel n (fun m => { m with kvWaits := sat32 (m.kvWaits + 1) }), b)
    else
      let s := s.takeBlocks n i (a.wants m (a.position + 1))
      let r : ServRow := ⟨i, a.seqId, a.fallback, true, true, a.position, 1, a.kvList, a.outVa + 8 * (a.gen - 1)⟩
      (s, { b with rows := b.rows ++ [r], tokens := b.tokens + 1 })

/-- One PREFILL entry in the second pass, with the prefill budget that is left. -/
def State.prefillRow (s : State) (n i : Nat) (b : ListBuild) (budget : Nat) : State × ListBuild × Nat :=
  match s.ast i with
  | none => (s, b, budget)
  | some a =>
    let m := s.model n
    let c := min (min (a.promptLen - a.position) m.cfg.chunk) budget
    if m.cfg.maxRows ≤ b.rows.length ∨ c = 0 then (s, b, budget)
    else
      let s := s.takeBlocks n i (a.wants m (a.position + c))
      let r : ServRow := ⟨i, a.seqId, a.fallback, decide (a.position + c = a.promptLen), false, a.position, c, a.kvList,
        a.promptVa + 4 * a.position⟩
      (s, { b with rows := b.rows ++ [r], tokens := b.tokens + c }, budget - c)

/-- The work list of a model (R483). -/
def State.buildList (s : State) (n : Nat) : State × ListBuild :=
  let m := s.model n
  let mine := sortBy servOrder (s.astWhere (fun a => a.slot == n))
  let dec := mine.filter (fun e => e.2.state == .decode)
  let pre := mine.filter (fun e => e.2.state == .prefill)
  let (s, b) := dec.foldl (fun (p : State × ListBuild) e => p.1.decodeRow n e.1 p.2) (s, {})
  let budget := min m.cfg.maxPrefill (m.cfg.maxStepTokens - b.tokens)
  let r := pre.foldl (fun (p : State × ListBuild × Nat) e => p.1.prefillRow n e.1 p.2.1 p.2.2) (s, b, budget)
  (r.1, r.2.1)

/-- A row's 32 bytes (Table 14.5). -/
def ServRow.words (r : ServRow) : List Nat :=
  [r.ast * 2 ^ 16 + b2n r.fallback * 4 + b2n r.emit * 2 + b2n r.decode, r.seqId, r.pos, r.count, r.kvList * 2 ^ 16, 0,
   lo32 r.inVa, hi32 r.inVa]

/-- Sends the work list and its notice (R483, R484). -/
def State.sendWork (s : State) (n step : Nat) (rows : List ServRow) : State :=
  let m := s.model n
  let tokens := (rows.map (·.count)).foldl (· + ·) 0
  let list := [step, rows.length * 2 ^ 16, tokens] ++ List.replicate 13 0 ++ rows.flatMap ServRow.words
  let s := s.servWrite m.part m.cfg.wlVa (wordsToBytes list)
  let s := s.sendFirmware m.cfg.leadCore m.cfg.noticeQueue
    (firmwareMsg m.cfg.noticeType (64 + 32 * rows.length) m.cfg.wlVa step rows.length tokens 0 false)
  s.updModel n (fun m => { m with state := .stepping, rows := rows, noticeAt := s.clk })

/-- Starts a model's cores as RUN without RESUME does, with ARG the slot (R475). -/
def State.startModel (s : State) (n : Nat) : State :=
  let cores := s.sliceCores (s.model n).slices
  let s := ((List.range cores.length).zip cores).foldl (fun s e =>
    s.startCore e.2 e.1 cores.length n 0 0xFFFFFFFF (.model n)) s
  s.updModel n (fun m => { m with broken := none })

/-- The running step of a model ends at once (R495): its sequences end with REASON FAULT, and its cores start again. -/
def State.servStepFault (s : State) (n cause : Nat) : State :=
  let m := s.model n
  let s := m.rows.foldl (fun s r => match s.ast r.ast with
    | some a => if a.seqId = r.seqId ∧ a.slot = n then s.endSeq r.ast endFault else s
    | none => s) s
  let s := s.updModel n (fun m => { m with
    rows := [], state := .waiting, replay := false, replayed := false, faultSteps := sat32 (m.faultSteps + 1) })
  let s := s.record 0x0A03 2 m.part srcModel n m.step m.rows.length cause 0 (ownerAnd m.part)
  s.startModel n

/-- The running step of a model is replayed (R572): the same work list goes again. DEDUCED: the cores start again first. -/
def State.servReplay (s : State) (n : Nat) : State :=
  let m := s.model n
  let s := s.startModel n
  let s := s.updModel n (fun m => { m with replay := false, replayed := true })
  if m.rows.isEmpty then s
  else (s.sendWork n m.step m.rows).record 0x0A04 1 m.part srcModel n m.step m.rows.length 0 0

/-- A boundary of a model (R481). -/
def State.servBoundary (s : State) (n : Nat) (ue : List Nat) : State :=
  let m := s.model n
  let step := m.step
  let s := if m.state = .boundary then
      ((List.range m.rows.length).zip m.rows).foldl (fun s e => s.applyRow n step e.1 e.2 ue) s
    else s
  let s := s.endWhere (fun a => a.slot == n && a.state == .retiring) endRetired
  let s := s.updModel n (fun m => { m with rows := [], replayed := false })
  let s := (s.admitPending n).deadlineMonitor n
  let (s, b) := s.buildList n
  if b.rows.isEmpty then s.updModel n (fun m => { m with state := .waiting })
  else (s.sendWork n m.next b.rows).updModel n (fun m => { m with next := wrap32 (m.next + 1) })

end Sys2Proof.Machine
end

