-- ==== Sys2Proof/Machine/Serving.lean ====
section
/-! DEFINITION. The serving commands and the events of the serving controller (R475 to R500). -/

namespace Sys2Proof.Machine

/-- Refuses with SERV_REFUSED (R498). -/
def State.refuseServ (s : State) (f : Flight) (cause : Nat) : State := s.refuse f stServRefused cause

/-! ### MODEL_BIND (R474 to R476) -/

/-- Reads a model record. -/
def ModelRec.ofWords (ws : List Nat) : ModelRec :=
  let w := fun o => ws.getD (o / 4) 0
  let d := fun o => w o + 2 ^ 32 * w (o + 4)
  { modelId := bits (w 0) 19 4, noticeType := bits (w 4) 31 24, noticeQueue := bits (w 4) 23 20, leadCore := bits (w 4) 10 0,
    slices := d 8 + 2 ^ 64 * d 0x10 + 2 ^ 128 * d 0x18, maxStepTokens := w 0x20, maxPrefill := w 0x24, chunk := w 0x28,
    maxRows := w 0x2C, wlVa := d 0x30, outVa := d 0x38, endVa := d 0x40, endLog2 := bits (w 0x48) 3 0, geometry := w 0x4C,
    poolVa := d 0x50, listVa := d 0x58, blockBytes := w 0x60, blockTokens := bits (w 0x64) 31 16, listLen := bits (w 0x64) 15 0,
    blocks := w 0x68, maxSeqs := w 0x6C, estUs := w 0x70, guardUs := w 0x74 }

/-- The fields of a model record are as Table 14.1 has them. -/
def modelRecordOk (ws : List Nat) : Bool :=
  let w := fun o => ws.getD (o / 4) 0
  let c := ModelRec.ofWords ws
  let within := fun (lo n hi : Nat) => decide (lo ≤ n ∧ n ≤ hi)
  bits (w 0) 31 20 == 0 && bits (w 0) 3 0 == 1 && decide (c.noticeType ≤ 0xEF) && bits (w 4) 19 11 == 0 &&
  decide (c.leadCore < 1536) && bit c.slices (c.leadCore / 8) && within 1 c.maxStepTokens 65536 &&
  decide (c.maxPrefill ≤ c.maxStepTokens) && within 1 c.chunk 65536 && within 1 c.maxRows 4096 && c.wlVa % 64 == 0 &&
  c.outVa % 64 == 0 && c.endVa % 64 == 0 && bits (w 0x48) 31 4 == 0 && c.poolVa % 2 ^ 21 == 0 && c.listVa % 64 == 0 &&
  c.blockBytes % 4096 == 0 && within 16 c.blockTokens 1024 && within 1 c.listLen 65535 && within 1 c.blocks (2 ^ 24) &&
  within 1 c.maxSeqs 65536 && w 0x78 == 0 && w 0x7C == 0

/-- An extent is writable tier memory of a partition. -/
def State.tierExtent (s : State) (part va n : Nat) : Bool :=
  decide (va + n ≤ 2 ^ 48) && (s.extentFault part va n true).isNone && (extent va n).all (fun p =>
    match s.translate part p.1 true with
    | .tier _ | .fresh _ => true
    | _ => false)

/-- The buffers of a record: address and length. -/
def ModelRec.buffers (c : ModelRec) : List (Nat × Nat) :=
  [(c.wlVa, 64 + 32 * c.maxRows), (c.outVa, 16 * c.maxRows), (c.endVa, 32 * 2 ^ (c.endLog2 + 4)),
   (c.listVa, c.maxSeqs * c.listLen * 4), (c.poolVa, c.blocks * c.blockBytes)]

/-- A MODEL_BIND packet of an OP. -/
def modelKind (op : Nat) (pk : Packet) : Bool := pk.opcode == 0x705 && pk.f 0x18 9 8 == op

/-- The words of the record that a BIND names, if they can be read. -/
def State.modelWords (s : State) (part : Nat) (pk : Packet) (host : Option (List Byte)) (ue : List Nat) : Except Bool (List Nat) :=
  (s.paramBytes part (pk.d 0x10) 128 (pk.b 0x18 7) host ue).map bytesToWords

/-- The cause that a record is refused with, in the order of R476. DEDUCED: cores that a RUN or a step holds count as used. -/
def State.modelCause (s : State) (part : Nat) (ws : List Nat) : Option Nat :=
  let c := ModelRec.ofWords ws
  let cores := s.sliceCores c.slices
  let used := s.pipe.slots.any (fun e => e.2.bound && e.2.slices &&& c.slices != 0) ||
    s.serv.models.any (fun e => e.2.bound && e.2.slices &&& c.slices != 0)
  if cores.isEmpty ∨ cores.any (fun c => (s.core c).image.isNone) then some 0x04
  else if !s.ownsSlices part c.slices || used || cores.any (fun c => (s.core c).state == .running || (s.core c).state == .moving ||
      (s.core c).holder != .none) then some 0x05
  else if !modelRecordOk ws || s.serv.models.any (fun e => e.2.bound && e.2.part == part && e.2.cfg.modelId == c.modelId) ||
      !c.buffers.all (fun b => s.tierExtent part b.1 b.2) then some 0x02
  else if (s.serv.models.filter (fun e => e.2.bound)).length ≥ 64 then some 0x03
  else none

/-- MODEL_BIND with OP BIND. `host` is what a RECORD_HOST read returns. -/
def execModelBind (path : Path) (pk : Packet) (host : Option (List Byte)) (ue : List Nat) (s : State) : Out :=
  beginOn path pk (modelKind 1)
    { res := fun s => if pk.b 0x18 7 then [3] else s.extentRes (s.pathPart path) (s.pathDie path) (pk.d 0x10) 128,
      doms := fun s => match s.modelWords (s.pathPart path) pk host ue with
        | .ok ws => if !s.otherLevel (bits (ws.getD 0 0) 3 0) && (s.modelCause (s.pathPart path) ws).isNone then
            ((s.sliceCores (ModelRec.ofWords ws).slices).map coreDomain).eraseDups else []
        | .error _ => [] } s (fun f s =>
    let part := s.actsFor f
    if pk.f 0x18 5 0 ≠ 0 then s.failWith f stFieldReserved
    else
      let s := s.chargeParam f (pk.d 0x10) 128 (pk.b 0x18 7)
      match s.modelWords part pk host ue with
      | .error false => s.failParam f part (pk.d 0x10) 128
      | .error true => s.refuseServ f 0x02
      | .ok ws =>
        if s.otherLevel (bits (ws.getD 0 0) 3 0) then s.failWith f stLevelUnsupported
        else match s.modelCause part ws with
        | some c => s.refuseServ f c
        | none =>
          let c := ModelRec.ofWords ws
          let free := fun (p : Nat → Bool) => (listFind (fun i => !p i) (List.range 64)).getD 0
          let n := free (fun i => (s.model i).bound)
          let pool := free (fun i => s.serv.models.any (fun e => e.2.bound && e.2.pool == i))
          let m : ModelSlot := { bound := true, part := part, slices := c.slices, cfg := c, pool := pool }
          let s : State := { s with serv := { s.serv with models := s.serv.models.put {} n m } }
          (s.startModel n).done f [n, c.modelId, 0, 0])

/-- Ends a model's sequences and forgets it as a fallback. -/
def State.quitModel (s : State) (n reason : Nat) : State :=
  let s := s.endWhere (fun a => a.slot == n) reason
  (s.serv.models.map (·.1)).foldl (fun s k => s.updModel k (fun m => if m.fallback = some n then { m with fallback := none } else m)) s

/-- MODEL_BIND with OP UNBIND: the sequences end, the cores halt, and the slot is free once they have. -/
def execModelUnbind (path : Path) (pk : Packet) (s : State) : Out :=
  beginOn path pk (modelKind 2) {} s (fun f s =>
    let n := pk.f 0x18 5 0
    let m := s.model n
    if pk.d 0x10 ≠ 0 ∨ pk.b 0x18 7 then s.failWith f stFieldReserved
    else if !m.bound || m.closing.isSome || m.part != s.actsFor f then s.refuseServ f 0x01
    else
      let s := (s.quitModel n endUnbound).updModel n (fun m => { m with closing := some f.id, rows := [], state := .waiting })
      let cores := s.sliceCores m.slices
      let s := s.haltCores m.part cores
      if (s.model n).closing = some f.id then s.checkModel n (cores.headD 0) else s)

/-- The model slot that a command names, bound by the path's partition. -/
def State.servSlot (s : State) (f : Flight) (n : Nat) : Bool :=
  (s.model n).bound && (s.model n).closing.isNone && (s.model n).part == s.actsFor f

/-! ### Sequences (R479, R480, R491) -/

/-- AST_ADMIT (R479). -/
def execAstAdmit (path : Path) (pk : Packet) (s : State) : Out :=
  beginCmd path pk (ofOp 0x701) s (fun f s =>
    let part := s.actsFor f
    let n := pk.f 0x14 5 0
    let m := s.model n
    let prompt := pk.w 0x18
    let maxNew := pk.w 0x1C
    let handles := (s.poolEntries m.pool).map (fun e => e.2.kvList)
    if s.serv.quotas.get 0 part ≤ s.servUsed part then s.refuseServ f 0x06
    else if !s.servSlot f n then s.refuseServ f 0x01
    else if prompt = 0 ∨ maxNew = 0 ∨ pk.d 0x20 % 4 ≠ 0 ∨ pk.d 0x28 % 8 ≠ 0 ∨ 2 ^ 48 < pk.d 0x20 + 4 * prompt ∨
        2 ^ 48 < pk.d 0x28 + 8 * maxNew then s.refuseServ f 0x08
    else if m.cfg.listLen * m.cfg.blockTokens < prompt + maxNew ∨ m.cfg.blocks < ceilDiv (prompt + 1) m.cfg.blockTokens then
      s.refuseServ f 0x0B
    else match listFind (fun h => !handles.contains h) (List.range m.cfg.maxSeqs),
        listFind (fun i => (s.ast i).isNone) (List.range 65536) with
      | some h, some i =>
        let seq := wrap32 (s.serv.admits + 1)
        let a : AstEntry := {
          seqId := pk.w 0x10, part := part, slot := n, cls := pk.f 0x14 7 6, kvList := h, modelId := m.cfg.modelId,
          promptLen := prompt, maxNew := maxNew, promptVa := pk.d 0x20, outVa := pk.d 0x28, admitSeq := seq,
          guardUs := m.cfg.guardUs }
        let s := s.servWrite part (m.cfg.listWord h 0) (List.replicate (4 * m.cfg.listLen) 0xFF)
        ({ s with serv := { s.serv with ast := s.serv.ast.put none i (some a), admits := seq } } : State).done f [i, seq]
      | _, _ => s.refuseServ f 0x0B)

/-- The entry that AST_RETIRE and DEADLINE_SET name. -/
def State.namedSeq (s : State) (f : Flight) (i seqId : Nat) : Option AstEntry :=
  match s.ast i with
  | some a => if a.part = s.actsFor f ∧ a.seqId = seqId then some a else none
  | none => none

/-- AST_RETIRE (R480). -/
def execAstRetire (path : Path) (pk : Packet) (s : State) : Out :=
  beginCmd path pk (ofOp 0x702) s (fun f s =>
    let i := pk.f 0x10 15 0
    match s.namedSeq f i (pk.w 0x14) with
    | none => s.refuseServ f 0x07
    | some a =>
      let m := s.model a.slot
      if a.state = .retiring then s.refuseServ f 0x07
      else if m.rows.any (fun r => r.ast == i) then s.updAst i (fun a => { a with state := .retiring, cmd := some f.id })
      else (s.endSeq i endRetired).done f [a.gen, a.fbTokens])

/-- DEADLINE_SET (R491). -/
def execDeadlineSet (path : Path) (pk : Packet) (s : State) : Out :=
  beginCmd path pk (ofOp 0x703) s (fun f s =>
    let i := pk.f 0x10 15 0
    let target := pk.w 0x20
    let deadline := pk.d 0x18
    match s.namedSeq f i (pk.w 0x14) with
    | none => s.refuseServ f 0x07
    | some a =>
      if target = 0 ∨ a.maxNew < target then s.refuseServ f 0x08
      else
        let m := s.model a.slot
        let now := s.sysTime
        let finishes := a.finish m now target :: (match m.fallback with
          | some k => if a.fallback then [] else [a.finish (s.model k) now target]
          | none => [])
        let low := finishes.foldl min (finishes.headD 0)
        let ok := finishes.any (fun t => meets t deadline a.guardUs)
        if !ok && !pk.b 0x10 16 then s.refuseServ f 0x0A
        else (s.updAst i (fun a => { a with targetGen := target, deadline := deadline, committed := ok })).done f
          [b2n ok, 0, lo32 low, hi32 low])

/-- Two records share their KV pool (R489). -/
def ModelRec.sharesKv (a b : ModelRec) : Bool :=
  a.geometry == b.geometry && a.poolVa == b.poolVa && a.listVa == b.listVa && a.blockBytes == b.blockBytes &&
    a.blockTokens == b.blockTokens && a.listLen == b.listLen && a.maxSeqs == b.maxSeqs

/-- FALLBACK_BIND (R489). -/
def execFallbackBind (path : Path) (pk : Packet) (s : State) : Out :=
  beginCmd path pk (ofOp 0x704) s (fun f s =>
    let p := pk.f 0x10 5 0
    let k := pk.f 0x10 13 8
    if !s.servSlot f p then s.refuseServ f 0x01
    else if k = 0x3F then (s.updModel p (fun m => { m with fallback := none })).done f
    else if !s.servSlot f k then s.refuseServ f 0x01
    else if p = k ∨ !(s.model p).cfg.sharesKv (s.model k).cfg then s.refuseServ f 0x09
    else
      let old := (s.model k).pool
      let pool := (s.model p).pool
      let s : State := { s with serv := { s.serv with
        models := s.serv.models.map (fun e => (e.1, if e.2.pool = old ∧ e.2.bound then { e.2 with pool := pool } else e.2)) } }
      (s.updModel p (fun m => { m with fallback := some k })).done f)

/-! ### Events -/

/-- The model that a core belongs to. -/
def State.modelOf (s : State) (c : Nat) : Option Nat :=
  (listFind (fun e => e.2.bound && bit e.2.slices (c / 8)) s.serv.models).map (·.1)

/-- SERV_DONE (R484, R490): the first SEND to 0x7FD reports the running step done, or is a fault. -/
def execServDone (s : State) : Out :=
  .next (match listFind (fun e => e.2.1 == 0x7FD) s.fab.requests with
    | none => s
    | some (c, _, _, w) =>
      match s.modelOf c with
      | none => s.replyCore c (some pfServMsg)
      | some n =>
        let m := s.model n
        if m.state ≠ .stepping ∨ w.getD 4 0 ≠ m.step then s.replyCore c (some pfServMsg)
        else
          let t := s.clk - m.noticeAt
          let s := s.updModel n (fun m => { m with
            state := .boundary, times := (t :: m.times).take 16, lastNs := sat32 t, steps := sat64 (m.steps + 1) })
          s.replyCore c none)

/-- SERV_BOUNDARY (R481, R495, R497, R572): the controller acts for a model: a step that a faulted core broke ends, a step
that lost data is replayed, or a boundary takes place once the step is done or, with no step running, once the model has an
entry. `ue` lists the lines that reading the output records finds uncorrectable. -/
def execServBoundary (slot : Nat) (ue : List Nat) (s : State) : Out :=
  onUnit (decide (slot < 64)) (.next (
    let m := s.model slot
    if !m.bound || m.closing.isSome || (s.part m.part).state != .running then s
    else match m.broken with
      | some cause => s.servStepFault slot cause
      | none =>
        if m.replay then s.servReplay slot
        else match m.state with
          | .stepping => s
          | .boundary => s.servBoundary slot ue
          | .waiting => if (s.astWhere (fun a => a.slot == slot)).isEmpty then s else s.servBoundary slot ue))

/-- A write of SERV_QUOTA of a partition: ignored where it would break the limits of R478. -/
def State.setQuota (s : State) (part value : Nat) : State :=
  let v := bits value 16 0
  let old := s.serv.quotas.get 0 part
  let sum := (s.serv.quotas.map (·.2)).foldl (· + ·) 0 - old + v
  if (old < v ∧ 65536 < sum) ∨ v < s.servUsed part then { s with serv := { s.serv with quotaReject := true } }
  else { s with serv := { s.serv with quotas := s.serv.quotas.put 0 part v } }

/-- SERV_QUOTA_WRITE (R478, R525): a write of SERV_QUOTA of partition `part`. -/
def execServQuotaWrite (m : Master) (part value : Nat) (s : State) : Out :=
  onUnit (decide (1 ≤ part ∧ part ≤ 64)) (.next (s.ownerWrite m (fun s => s.setQuota part value)))

end Sys2Proof.Machine
end

