-- ==== Sys2Proof/Machine/Abort.lean ====
section
/-! DEFINITION. ABORT (R554 to R557): the stopping points of Table 16.10a, the end of a job, and what zeroes the slices
of a partition (R511). -/

namespace Sys2Proof.Machine

/-! ### Stopping one command (R555, R556) -/

/-- Takes a command out of the host jobs and completes it. -/
def State.abortHostJob (s : State) (cmd : Nat) : State :=
  ({ s with cpu := { s.cpu with hostJobs := s.cpu.hostJobs.filter (fun j => j.cmd != cmd) } } : State).commit cmd stAborted []

/-- Withdraws the pending offer of a HAND_OVER. -/
def State.abortOffer (s : State) (cmd : Nat) : State :=
  if s.own.offer.any (fun o => o.cmd == cmd) then
    ({ s with own := { s.own with offer := none } } : State).commit cmd stAborted [0]
  else s

/-- A RETIRE that waits for its sequence's step changes nothing (R496). DEDUCED: the entry goes back to the state that its
position gives it. -/
def State.abortRetire (s : State) (cmd : Nat) : State :=
  match listFind (fun e => e.2.any (fun a => a.cmd == some cmd)) s.serv.ast with
  | none => s
  | some e =>
    (s.updAst e.1 (fun a => { a with
      state := if a.position < a.promptLen then .prefill else .decode, cmd := none })).commit cmd stAborted []

/-- A LOOPBACK stops at once (R656); its result words count what was checked. -/
def State.abortLoop (s : State) (cmd : Nat) : State :=
  let s : State := { s with
    mem := { s.mem with
      tests := s.mem.tests.filter (fun e => e.1 != cmd),
      ctrls := s.mem.ctrls.map (fun e =>
        if s.mem.tests.contains (cmd, e.1) then (e.1, { e.2 with lbRunning := false, lbMode := 0 }) else e) },
    link := { s.link with ports := s.link.ports.map (fun e =>
      if e.2.loop.any (fun l => l.1 == cmd) then (e.1, { e.2 with loop := none }) else e) } }
  s.commit cmd stAborted ((List.range 4).map (fun i => Config.loopWord cmd i % 2 ^ 32))

/-- A command stops at its next stopping point, when it has one (Table 16.10a, R496, R656). -/
def Flight.stop? (t : Flight) : Option (State → State) :=
  match t.pk.opcode with
  | 0x302 => some (fun s => match listFind (fun r => r.cmd == t.id) s.cpu.runs with
      | some r => (r.cores.foldl (fun s c => s.dropFrozen c) s).haltRun r
      | none => s)
  | 0x404 => some (fun s => s.abortStep (t.pk.f 0x10 6 0) t.id)
  | 0x802 => some (fun s => s.checkQRun t.id)
  | 0x501 | 0x502 | 0x503 => some (fun s => s.abortColl t.id)
  | 0x201 | 0x202 | 0x203 => some (fun s => s.abortHostJob t.id)
  | 0x601 | 0x602 | 0x603 | 0x604 => some (fun s => s.abortCkpt t.id)
  | 0x702 => some (fun s => s.abortRetire t.id)
  | 0x011 => some (fun s => s.abortOffer t.id)
  | 0x901 => some (fun s => s.abortLoop t.id)
  | _ => none

/-- IDENTIFY and ABORT are not abortable (R555). -/
def abortable (pk : Packet) : Bool := pk.opcode != 0x001 && pk.opcode != 0x112

/-- Aborts a command in flight on behalf of the ABORT with number `a`. -/
def State.abortFlight (s : State) (a : Nat) (t : Flight) : State :=
  let mark := fun (s : State) (ph : Phase) => s.updFlight t.id (fun g => { g with phase := ph, aborts := g.aborts ++ [a] })
  match t.phase with
  | .accepted => (mark s .accepted).commit t.id stAborted []
  | .begun => match t.stop? with
      | some stop => stop (mark s .aborting)
      | none => mark s .late
  | ph => mark s ph

/-- A committed completion that is not posted becomes DONE_ABORT_LATE when it was DONE (R555). -/
def State.abortCommitted (s : State) (id : Nat) : State :=
  let late := fun (c : Completion) => { c with status := if c.status = stDone then stDoneAbortLate else c.status }
  { s with cmd := { s.cmd with committed := updFirst (fun c => c.id == id) late s.cmd.committed } }

/-- The path that an ABORT names (R554). -/
def abortPath (path : Path) (ring : Nat) : Option Path :=
  if ring ≤ 64 then some (.ring ring)
  else if ring = 0xFF ∧ !pathIsRing path then some path
  else none

/-- ABORT with COMMAND scope (R554, R555). -/
def State.abortCommand (s : State) (f : Flight) (target : Option Path) (seq : Nat) : State :=
  match target with
  | none => s.done f [0]
  | some p =>
    match listFind (fun t => t.path == p && t.pk.seq.toNat == seq && t.id != f.id) s.cmd.flights with
    | some t => if abortable t.pk then s.abortFlight f.id t else s.done f [4]
    | none =>
      match listFind (fun c => c.path == p && c.seq == seq) s.cmd.committed with
      | some c => if c.opcode = 0x001 ∨ c.opcode = 0x112 then s.done f [4] else (s.abortCommitted c.id).done f [2]
      | none => s.done f [0]

/-- An ABORT of a scope. -/
def abortKind (scope : Nat) (pk : Packet) : Bool := ofOpField 0x112 0x10 1 0 scope pk

/-- A partition's ring may only name itself. -/
def State.abortOwn (s : State) (path : Path) (ring : Nat) : Bool := s.controlPath path || path == .ring ring

/-- ABORT with COMMAND scope. -/
def execAbortCommand (path : Path) (pk : Packet) (s : State) : Out :=
  beginCmd path pk (abortKind 1) s (fun f s =>
    let ring := pk.f 0x10 15 8
    if !s.abortOwn path ring then s.failWith f stNotOwner else s.abortCommand f (abortPath path ring) (pk.w 0x14))

/-! ### The end of a job (R510, R511, R557) -/

/-- The cores of a partition's slices. -/
def State.partCores (s : State) (p : Nat) : List Nat :=
  (bitsSet (s.part p).slices 192).flatMap (fun k => (List.range 8).map (8 * k + ·))

/-- Every core of a partition that runs stops where it is (Table 15.6 step 2). -/
def State.stopCores (s : State) (p : Nat) : State :=
  (s.partCores p).foldl (fun s c =>
    if (s.core c).state = .running ∨ (s.core c).state = .moving then s.enterHalted c 0 else s) s

/-- Zeroes the slices of a mask completely, for the partition that has them (R511, R90, R136, R211). -/
def State.wipeSlices (s : State) (mask : Nat) : State :=
  (s.giveCores (fun c => bit mask (c / 8))).zeroBasins (fun k => bit mask k)

/-- The owner of the slices of a mask changes: the counters of their reaches are zeroed (R213). -/
def State.zeroReaches (s : State) (mask : Nat) : State :=
  { s with fab := { s.fab with reaches := s.fab.reaches.keep (fun r _ => !(bit mask (2 * r) || bit mask (2 * r + 1))) } }

/-- The counters of the engine pages are zeroed when the owner of any slice changes (R281). -/
def State.zeroEngines (s : State) (mask : Nat) : State :=
  if mask = 0 then s
  else { s with quay := { s.quay with engines := s.quay.engines.merge {} (s.quay.engines.map (fun e => (e.1, ({ e.2 with
    units := 0, accAdds := 0, beats := 0, remoteBytes := 0, checkRetry := 0, bites := 0, poisonUnits := 0 } : QEngine)))) } }

/-- The slices of a mask leave their partition: they are zeroed, and their cores wait in handler-dispatch mode (R200). -/
def State.freeSlices (s : State) (mask : Nat) : State :=
  ((s.zeroCores (fun c => bit mask (c / 8))).zeroBasins (fun k => bit mask k)).zeroReaches mask |>.zeroEngines mask

/-- The slices of a mask come to a partition. -/
def State.giveSlices (s : State) (mask : Nat) : State := ((s.wipeSlices mask).zeroReaches mask).zeroEngines mask

/-- The RUN and STEP_RUN commands of a partition that have begun complete with ABORTED once its cores have stopped. -/
def State.endRuns (s : State) (p : Nat) : State :=
  let mine := s.cmd.flights.filter (fun t => t.phase == .begun && (t.pk.opcode == 0x302 || t.pk.opcode == 0x404) && s.actsFor t == p)
  let s := mine.foldl (fun s t =>
    let s := s.updFlight t.id (fun g => { g with phase := .aborting })
    if t.pk.opcode = 0x404 then s.abortStep (t.pk.f 0x10 6 0) t.id else s) s
  s.stopCores p

/-- The steps of a partition's models end: nothing of them is left on the cores. -/
def State.idleModels (s : State) (p : Nat) : State :=
  (s.serv.models.filter (fun e => e.2.bound && e.2.part == p)).foldl (fun s e =>
    s.updModel e.1 (fun m => { m with rows := [], state := .waiting, broken := none, replay := false, replayed := false })) s

/-- The job of a partition ends, with nothing saved: its commands on cores complete, its slices are zeroed and kept, its
windows close (R273), its debug halts go (R523), and it is IDLE. -/
def State.discardJob (s : State) (p : Nat) : State :=
  let s := (s.endRuns p).idleModels p
  let s := (s.wipeSlices (s.part p).slices).closeWindows p
  s.updPart p (fun e => { e with state := .idle, jobId := 0, dbgPerm := 0 })

/-- A saved job is thrown away (R557). DEDUCED: its RUN and STEP_RUN commands and its sequences end ABORTED, and the cores
that they ran on are not touched. -/
def State.discardSaved (s : State) (p : Nat) : State :=
  let mine := s.cmd.flights.filter (fun t => t.phase != .accepted && (t.pk.opcode == 0x302 || t.pk.opcode == 0x404) && s.actsFor t == p)
  let s := mine.foldl (fun s t =>
    let s := s.updFlight t.id (fun g => { g with phase := .aborting })
    if t.pk.opcode = 0x404 then (s.abortStep (t.pk.f 0x10 6 0) t.id).commit t.id stAborted [] else s.commit t.id stAborted []) s
  let s := { s with
    cpu := { s.cpu with runs := s.cpu.runs.filter (fun r => r.part != p) },
    fab := { s.fab with saved := s.fab.saved.filter (fun j => j.part != p) } }
  let s := (s.pipe.slots.filter (fun e => e.2.bound && e.2.part == p)).foldl (fun s e =>
    s.updStage e.1 (fun g => { g with steps := [] })) s
  (s.idleModels p).updPart p (fun e => { e with state := .idle, jobId := 0, home := 0, slices := 0 })

/-- Every command of a partition in flight stops (R555 to R557), on behalf of the ABORT with number `a`. -/
def State.abortAll (s : State) (a p : Nat) : State :=
  (s.cmd.flights.filter (fun t => s.actsFor t == p && abortable t.pk && t.id != a)).foldl (fun s t =>
    match s.flight t.id with
    | some t => s.abortFlight a t
    | none => s) s

/-- The job of a partition is aborted: its commands stop, its sequences end, and its state goes. -/
def State.abortJob (s : State) (a p : Nat) : State :=
  let saved := (s.part p).state == .evicted
  let s := s.abortAll a p
  let s := s.endWhere (fun x => x.part == p) endAborted
  (if saved then s.discardSaved p else s.discardJob p).closeWindows p

/-- ABORT with JOB scope (R557). -/
def execAbortJob (path : Path) (pk : Packet) (s : State) : Out :=
  beginCmd path pk (abortKind 2) s (fun f s =>
    let p := pk.f 0x10 15 8
    if !s.abortOwn path p then s.failWith f stNotOwner
    else if p = 0 ∨ p > 64 then s.done f [0]
    else match (s.part p).state with
      | .free | .idle | .destroying => s.done f [0]
      | _ =>
        let s := s.abortJob f.id p
        if s.cmd.flights.any (fun t => t.aborts.contains f.id) then s else s.done f [3])

end Sys2Proof.Machine
end

