-- ==== Sys2Proof/Machine/Tenancy.lean ====
section
/-! DEFINITION. Partitions and tenancy (15): PART_CREATE, PART_DESTROY, PART_SET, COMMON_BERTH, JOB_START, JOB_EVICT,
and what the package does for regulators and meters. -/

namespace Sys2Proof.Machine

/-- Refuses with PART_REFUSED (R505). -/
def State.refusePart (s : State) (f : Flight) (cause : Nat) : State := s.refuse f stPartRefused cause

/-- Slices of a mask. -/
def sliceCount (mask : Nat) : Nat := (bitsSet mask 192).length

/-- Some slice of a mask is held by a partition. -/
def State.sliceTaken (s : State) (mask : Nat) : Bool := s.ten.parts.any (fun e => e.2.slices &&& mask != 0)

/-! ### The save area (R506, R507) -/

/-- `frames` are `n` different free tier-1 frames that may be handed out (R222). -/
def State.saveFrames (s : State) (n : Nat) (frames : List Nat) : Bool :=
  frames.length == n && frames.eraseDups.length == n &&
    frames.all (fun f => s.mem.offered f && frameTier f == 0 && (s.mem.frames.get .free f).unowned)

/-- `n` pages of partition 0 from `va` are mapped by no entry, but perhaps those of a save area. -/
def State.savePages (s : State) (va n : Nat) (own : List Nat) : Bool :=
  n == 0 || (!badRange va n && (pagesOf va n).all (fun a => own.contains a || (s.mem.leafOf 0 a).isNone))

/-- The pages of a partition's save area. -/
def Partition.savePages (p : Partition) : List Nat := pagesOf p.saveBase (5 * sliceCount p.slices)

/-- Frame `f` becomes a page of partition `p`'s save area at `va`: mapped in partition 0, charged to `p`. -/
def State.mapSave (s : State) (p va f : Nat) : State :=
  let m := s.mem.setLeaf 0 va (pteWord (f * 2 ^ 21) false false true true true)
  ({ s with mem := { m with frames := m.frames.put .free f (.owned p) } } : State).addFrames p 0 1

/-- A page of partition `p`'s save area goes. -/
def State.unmapSave (s : State) (p va : Nat) : State :=
  match s.mem.leafOf 0 va with
  | none => s
  | some w =>
    let m := { s.mem with pt := s.mem.pt.put {} (pteKey 0 3 va) {} }
    ({ s with mem := m.releaseFrame (pteFrame w) } : State).addFrames p 0 (-1)

/-- The save area of partition `p` becomes `n` pages at `base`, with new frames for what it grows by. -/
def State.resizeSave (s : State) (p n base : Nat) (frames : List Nat) : State :=
  let old := (s.part p).savePages
  let words := (old.take n).map (fun va => (s.mem.leafOf 0 va).getD 0)
  let s := (old.drop n).foldl (fun s va => s.unmapSave p va) s
  let s := (old.take n).foldl (fun s va => { s with mem := { s.mem with pt := s.mem.pt.put {} (pteKey 0 3 va) {} } }) s
  let s := ((pagesOf base words.length).zip words).foldl (fun s e => { s with mem := s.mem.setLeaf 0 e.1 e.2 }) s
  let s := ((pagesOf (base + 2 ^ 21 * words.length) frames.length).zip frames).foldl (fun s e => s.mapSave p e.1 e.2) s
  s.updPart p (fun e => { e with saveBase := if n = 0 then 0 else base })

/-! ### PART_CREATE and PART_DESTROY -/

/-- Why PART_CREATE is refused. -/
def State.createCause (s : State) (pk : Packet) : Option Nat :=
  let p := pk.f 0x10 7 0
  let mask := pk.mask192 0x20
  let n := 5 * sliceCount mask
  if p = 0 ∨ p > 64 then some 0x01
  else if (s.part p).state != .free then some 0x02
  else if s.sliceTaken mask then some 0x03
  else if pk.w 0x18 < n ∨ s.mem.freeCount 0 < n then some 0x04
  else if pk.f 0x10 11 10 = 3 then some 0x05
  else none

/-- PART_CREATE (R506). `frames` are the save area's frames and `saveBase` its address in partition 0, as the package
takes them. -/
def execPartCreate (path : Path) (pk : Packet) (frames : List Nat) (saveBase : Nat) (s : State) : Out :=
  beginOn path pk (ofOp 0x101)
    { ready := fun s => (s.createCause pk).isSome ||
        (s.saveFrames (5 * sliceCount (pk.mask192 0x20)) frames && s.savePages saveBase frames.length []) } s (fun f s =>
    match s.createCause pk with
    | some c => s.refusePart f c
    | none =>
      let p := pk.f 0x10 7 0
      let mask := pk.mask192 0x20
      let root := Config.rootFrame p % 2 ^ 33 * 2 ^ 13
      let e : Partition := {
        state := .idle, dbgMax := pk.f 0x10 11 10, arbClass := pk.f 0x10 9 8, portGrant := pk.f 0x14 23 0,
        t1Budget := pk.w 0x18, t2Budget := pk.w 0x1C, ptRoot := root }
      let s := { s with ten := { s.ten with parts := s.ten.parts.put {} p e, meters := s.ten.meters.put {} p {} } }
      let s := (s.resizeSave p frames.length saveBase frames).updPart p (fun e => { e with slices := mask })
      (s.giveSlices mask).done f [frames.length, lo32 root])

/-- What runs for a partition on engines outside its cores ends, whatever it has reached. -/
def State.dropEngines (s : State) (p : Nat) : State :=
  let cmds := (s.quay.runs.filter (fun r => r.part == p)).map (·.cmd)
  let idle := fun (q : QEngine) => if q.work.any (fun u => cmds.contains u.cmd) then { q with work := none } else q
  { s with
    quay := { s.quay with runs := s.quay.runs.filter (fun r => r.part != p),
                          engines := s.quay.engines.map (fun e => (e.1, idle e.2)) },
    pipe := { s.pipe with jobs := s.pipe.jobs.filter (fun j => j.part != p) } }

/-- Everything of a partition is unbound: stages, models, groups, quay slots, windows, checkpoint accept slots; its AST
entries and translations are freed (R508 steps 3 and 4). -/
def State.unbindAll (s : State) (p : Nat) : State :=
  let s := (s.pipe.slots.filter (fun e => e.2.part == p)).foldl (fun s e => s.freeStage e.1) s
  let models := (s.serv.models.filter (fun e => e.2.part == p)).map (·.1)
  let s := models.foldl (fun s n => s.quitModel n endAborted) s
  let s := (s.coll.groups.filter (fun e => e.2.part == p)).foldl (fun s e => s.updGroup e.1 (fun _ => {})) s
  let s := (s.freeQuaySlots p).closeWindows p
  { s with
    serv := { s.serv with models := s.serv.models.keep (fun n _ => !models.contains n),
                          ast := s.serv.ast.keep (fun _ a => !(a.any (fun x => x.part == p))) },
    pipe := { s.pipe with accepts := s.pipe.accepts.keep (fun _ a => !(a.any (fun x => x.part == p))) },
    cpu := { s.cpu with cache := s.cpu.cache.filter (fun c => c.part != p) } }

/-- The snapshot values of a meter page (Table 15.13). -/
def Meters.live (m : Meters) : List Nat := [m.sliceUs, m.b0.bytes, m.b1.bytes, m.b2.bytes, m.b3.bytes, m.b4.bytes, m.energyMj]

/-- The minute of system time (R521). -/
def State.minuteNow (s : State) : Nat := s.sysTime / 60000000000

/-- Removes a partition (R508). -/
def State.destroyPart (s : State) (p : Nat) : State :=
  let s := s.updPart p (fun e => { e with state := if e.state == .evicted then .evicted else .running })
  let s := s.abortJob 0 p
  let s := (s.dropEngines p).unbindAll p
  let s := (s.cmd.flights.filter (fun t => s.actsFor t == p)).foldl (fun s t => s.commit t.id stAborted []) s
  let mask := (s.part p).slices
  let s := s.freeSlices mask
  let s := ((s.part p).savePages).foldl (fun s va => s.unmapSave p va) s
  let s := s.unmapPages p (s.allPages p)
  let m : Meters := { snap := (s.meter p).live, minute := s.minuteNow }
  { s with
    ten := { s.ten with meters := s.ten.meters.put {} p m, parts := s.ten.parts.put {} p {} },
    mem := { s.mem with apertures := s.mem.apertures.put none (p - 1) none, wayMask := s.mem.wayMask.put 0xFFFF p 0xFFFF },
    fab := { s.fab with saved := s.fab.saved.filter (fun j => j.part != p) } }

/-- PART_DESTROY (R508). -/
def execPartDestroy (path : Path) (pk : Packet) (s : State) : Out :=
  beginCmd path pk (ofOp 0x102) s (fun f s =>
    let p := pk.f 0x10 7 0
    if p = 0 ∨ p > 64 ∨ (s.part p).state = .free then s.refusePart f 0x01 else (s.destroyPart p).done f [])

/-! ### PART_SET (R507, R516, R523) -/

/-- A PART_SET packet of an OP. -/
def partSetKind (op : Nat) (pk : Packet) : Bool := ofOpField 0x103 0x10 3 0 op pk

/-- PART is out of range or its entry FREE. DEDUCED: entry 0 has no slices and no budgets to set (R502). -/
def State.noPart (s : State) (p : Nat) (zero : Bool) : Bool :=
  decide (p > 64) || (p == 0 && !zero) || (p != 0 && (s.part p).state == .free)

/-- Some bound stage or model of a partition uses a slice of a mask, or, while RUNNING, a RUN holds one of its cores. -/
def State.sliceUsed (s : State) (p mask : Nat) : Bool :=
  s.pipe.slots.any (fun e => e.2.bound && e.2.part == p && e.2.slices &&& mask != 0) ||
    s.serv.models.any (fun e => e.2.bound && e.2.part == p && e.2.slices &&& mask != 0) ||
    ((s.part p).state == .running && s.cpu.runs.any (fun r => r.cores.any (fun c => bit mask (c / 8))))

/-- Why PART_SET SLICES is refused. -/
def State.slicesCause (s : State) (pk : Packet) : Option Nat :=
  let p := pk.f 0x10 15 8
  let e := s.part p
  let mask := pk.mask192 0x20
  let n := 5 * sliceCount mask
  let old := 5 * sliceCount e.slices
  if p = 0 ∨ p > 64 ∨ ¬(e.state = .idle ∨ e.state = .running) then some 0x01
  else if s.sliceTaken (andNot mask e.slices) || s.sliceUsed p (andNot e.slices mask) then some 0x03
  else if n > old ∧ ((s.meter p).t1Frames + (n - old) > e.t1Budget ∨ s.mem.freeCount 0 < n - old) then some 0x04
  else none

/-- PART_SET SLICES. `frames` are the frames that the save area grows by and `saveBase` is its address from now on. -/
def execPartSetSlices (path : Path) (pk : Packet) (frames : List Nat) (saveBase : Nat) (s : State) : Out :=
  let n := 5 * sliceCount (pk.mask192 0x20)
  beginOn path pk (partSetKind 1)
    { ready := fun s =>
        let e := s.part (pk.f 0x10 15 8)
        (s.slicesCause pk).isSome ||
          (s.saveFrames (n - 5 * sliceCount e.slices) frames && s.savePages saveBase n e.savePages) } s (fun f s =>
    match s.slicesCause pk with
    | some c => s.refusePart f c
    | none =>
      let p := pk.f 0x10 15 8
      let mask := pk.mask192 0x20
      let old := (s.part p).slices
      let gone := andNot old mask
      let s := s.freeSlices gone
      let s := s.giveSlices (andNot mask old)
      ((s.resizeSave p n saveBase frames).updPart p (fun e => { e with slices := mask })).done f [])

/-- PART_SET PORTS. -/
def execPartSetPorts (path : Path) (pk : Packet) (s : State) : Out :=
  beginCmd path pk (partSetKind 2) s (fun f s =>
    let p := pk.f 0x10 15 8
    if s.noPart p true then s.refusePart f 0x01
    else (s.updPart p (fun e => { e with portGrant := pk.f 0x14 23 0 })).done f [])

/-- PART_SET BUDGETS. -/
def execPartSetBudgets (path : Path) (pk : Packet) (s : State) : Out :=
  beginCmd path pk (partSetKind 3) s (fun f s =>
    let p := pk.f 0x10 15 8
    if s.noPart p false then s.refusePart f 0x01
    else if pk.w 0x18 < (s.meter p).t1Frames ∨ pk.w 0x1C < (s.meter p).t2Frames then s.refusePart f 0x04
    else (s.updPart p (fun e => { e with t1Budget := pk.w 0x18, t2Budget := pk.w 0x1C })).done f [])

/-- Half of a resource's sustained rate, in MB/s (R516). -/
def shareLimit : Nat → Nat
  | 0 => 13950000 | 1 => 1010000 | 2 => 920000 | 3 => 128000 | _ => 2200000

/-- The fixed-share rates of a resource over every partition but one, in MB/s. -/
def State.sharesBut (s : State) (p res : Nat) : Nat :=
  (s.ten.parts.filter (fun e => e.1 != p && (e.2.reg res).fixed)).foldl (fun n e => n + (e.2.reg res).rate * 64) 0

/-- PART_SET REGULATOR. -/
def execPartSetRegulator (path : Path) (pk : Packet) (s : State) : Out :=
  beginCmd path pk (partSetKind 4) s (fun f s =>
    let p := pk.f 0x10 15 8
    let res := pk.f 0x14 2 0
    let w := pk.d 0x18
    let r : Regulator := ⟨bit w 63, bits w 55 32, bits w 15 0⟩
    if s.noPart p true then s.refusePart f 0x01
    else if res > 4 ∨ r.burst < 4 then s.refusePart f 0x05
    else if r.fixed && decide (s.sharesBut p res + r.rate * 64 > shareLimit res) then s.refusePart f 0x06
    else (s.updPart p (fun e => e.setReg res r)).done f [])

/-- PART_SET ARB. -/
def execPartSetArb (path : Path) (pk : Packet) (s : State) : Out :=
  beginCmd path pk (partSetKind 5) s (fun f s =>
    let p := pk.f 0x10 15 8
    if s.noPart p true then s.refusePart f 0x01
    else if pk.w 0x18 > 100000 then s.refusePart f 0x05
    else (s.updPart p (fun e => { e with arbClass := pk.f 0x14 1 0, fixLatNs := pk.w 0x18 })).done f [])

/-- A debug halt of core `c` is released (R523): a core that it holds goes on, one that it has asked to stop is not
stopped. -/
def State.debugRelease (s : State) (c : Nat) : State :=
  let k := s.core c
  if k.state = .halted ∧ k.dbgHalt = true ∧ k.holder = .none then s.updCore c (fun k => { k with dbgHalt := false })
  else if k.state = .halted ∧ k.dbgHalt = true then
    let s := s.updCore c (fun k => { k.clearHits with state := .running, dbgHalt := false })
    if k.group = 0 then s.goto c k.pc else s
  else if k.state = .running ∧ (k.stepping ∨ k.haltWhy ≠ 0) then
    s.updCore c (fun k => { k with
      stepping := false, stepFirst := false, haltWhy := 0, halting := k.halting && k.forced,
      stopping := k.stopAfter != 0 && decide (k.stopAfter ≤ k.pushCount) })
  else s

/-- DBG_PERM of a partition changes; when it falls, its debug halts are released and its memory is closed to the debug
port (R523). Below CONTROL its breakpoints are cleared (R648). -/
def State.setDbgPerm (s : State) (p perm : Nat) : State :=
  let falls := decide (perm < (s.part p).dbgPerm)
  let s := s.updPart p (fun e => { e with dbgPerm := perm })
  let s := if perm = 0 then (s.partCores p).foldl (fun s c => s.updCore c (fun k => { k with bps := [] })) s else s
  if falls && !s.held p then (s.partCores p).foldl (fun s c => s.debugRelease c) s else s

/-- PART_SET DBG (R523). DEDUCED: only the partition's own ring raises the permission, so on the control path a value
above the one in force is refused as one above DBG_MAX is. -/
def execPartSetDbg (path : Path) (pk : Packet) (s : State) : Out :=
  beginCmd path pk (partSetKind 6) s (fun f s =>
    let p := pk.f 0x10 15 8
    let perm := pk.f 0x14 1 0
    let own := path == .ring p
    if !(own || s.controlPath path) then s.failWith f stNotOwner
    else if s.noPart p true then s.refusePart f 0x01
    else if perm = 3 ∨ (s.part p).dbgMax < perm ∨ (own = false ∧ (s.part p).dbgPerm < perm) then s.refusePart f 0x0B
    else (s.setDbgPerm p perm).done f [])

/-- PART_SET DBG_MAX. -/
def execPartSetDbgMax (path : Path) (pk : Packet) (s : State) : Out :=
  beginCmd path pk (partSetKind 7) s (fun f s =>
    let p := pk.f 0x10 15 8
    let top := pk.f 0x14 1 0
    if !s.controlPath path then s.failWith f stNotOwner
    else if s.noPart p true then s.refusePart f 0x01
    else if top = 3 then s.refusePart f 0x05
    else
      let s := s.updPart p (fun e => { e with dbgMax := top })
      (s.setDbgPerm p (min (s.part p).dbgPerm top)).done f [])

/-! ### Common berths (R518) -/

/-- A COMMON_BERTH packet of an OP. -/
def commonKind (op : Nat) (pk : Packet) : Bool := ofOpField 0x105 0x10 7 6 op pk

def State.berth (s : State) (n : Nat) : CommonBerth := s.ten.berths.get {} n
def State.updBerth (s : State) (n : Nat) (f : CommonBerth → CommonBerth) : State :=
  { s with ten := { s.ten with berths := s.ten.berths.upd {} n f } }

/-- A page of partition 0 may enter a berth: tier 1, with a twin, in no berth. -/
def State.berthPage (s : State) (va : Nat) : Bool :=
  (s.berthAt va).isNone && (match s.mem.leafOf 0 va with
    | some w => pteTwin w && frameTier (pteFrame w) == 0
    | none => false)

/-- COMMON_BERTH REGISTER. -/
def execCommonBerthRegister (path : Path) (pk : Packet) (s : State) : Out :=
  beginCmd path pk (commonKind 1) s (fun f s =>
    let n := pk.f 0x10 4 0
    let pages := pk.w 0x14
    let va := pk.d 0x18
    if pages = 0 ∨ pages > 65536 ∨ va % 2 ^ 21 ≠ 0 then s.refusePart f 0x05
    else if (s.berth n).state != .free || !(pagesOf va pages).all s.berthPage then s.refusePart f 0x0A
    else (s.updBerth n (fun _ => { state := .ready, pages := pages, va := va })).done f [])

/-- Every page of a berth leaves its readers and partition 0, and its frames and twins become free. -/
def State.unmapBerth (s : State) (b : CommonBerth) : State :=
  let frames := s.berthFrames b
  let twins := frames.filterMap (fun f => s.mem.twins.get none f)
  let shared := s.mem.leaves.filter (fun e => e.1 != 0 && frames.contains (pteFrame e.2.2))
  let s := shared.foldl (fun s e => s.unmapPage e.1 e.2.1) s
  let s := (pagesOf b.va b.pages).foldl (fun s va => s.unmapPage 0 va) s
  let backs := s.mem.leaves.filter (fun e => e.1 == 0 && twins.contains (pteFrame e.2.2))
  backs.foldl (fun s e => s.unmapPage 0 e.2.1) s

/-- COMMON_BERTH RETIRE. -/
def execCommonBerthRetire (path : Path) (pk : Packet) (s : State) : Out :=
  beginCmd path pk (commonKind 2) s (fun f s =>
    let n := pk.f 0x10 4 0
    if (s.berth n).state = .free then s.refusePart f 0x0A
    else if pk.b 0x10 9 then ((s.unmapBerth (s.berth n)).updBerth n (fun _ => {})).done f []
    else (s.updBerth n (fun b => { b with state := .retired })).done f [])

/-! ### Jobs (R509 to R513) -/

/-- JOB_START with RESUME 0 or 1. -/
def jobKind (resume : Bool) (pk : Packet) : Bool := pk.opcode == 0x110 && pk.b 0x10 8 == resume

/-- JOB_START. -/
def execJobStart (path : Path) (pk : Packet) (s : State) : Out :=
  beginCmd path pk (jobKind false) s (fun f s =>
    let p := pk.f 0x10 7 0
    if p = 0 ∨ p > 64 ∨ (s.part p).state ≠ .idle then s.refusePart f 0x01
    else (s.updPart p (fun e => { e with state := .running, jobId := pk.w 0x14 })).done f [])

/-- A command that the eviction stops before it has written waits in its queue to run again (Table 15.6 step 2); one that
waits outside the core, or has begun to rebuild a chamber, goes on from where it stands. -/
def Push.requeue (p : Push) : Push :=
  match p.wait with
  | .frozen _ | .chamber _ _ | .broken false => { p with wait := .queued }
  | _ => p

/-- The context of a core as an eviction saves it: a frozen array's unissued commands are discarded (R79), the array
counters are not saved (R90). -/
def Core.context (k : Core) : Core :=
  let k := k.dropUnissued
  { k with
    bps := [], portA := [], portB := [], ax := k.ax.map Push.requeue, vx := k.vx.map Push.requeue, dx := k.dx.map Push.requeue, qx := k.qx.map Push.requeue,
    array := { state := if k.ax.any (fun p => p.wait == .broken true) then .halted else .idle } }

/-- What an eviction saves of the slices of a mask (Table 15.6 steps 3 and 4). -/
def State.saveJob (s : State) (p : Nat) : SavedJob :=
  let mask := (s.part p).slices
  let ofCore := fun (c : Nat) => bit mask (c / 8)
  let ofWord := fun (k : Nat) =>
    if k < 2 ^ 59 then ofCore ((k - 2 ^ 58) / 65536) else bit mask ((k - 2 ^ 59) * 8 / 2 ^ 22)
  let ofQ := fun (k : Nat) => bit mask (2 * (k / 32) + k % 32 / 16)
  { part := p,
    cores := (s.cpu.cores.keep (fun c _ => ofCore c)).map (fun e => (e.1, e.2.context)),
    queues := s.fab.queues.keep (fun k _ => ofCore (k / 16)),
    refused := s.fab.refused.keep (fun k _ => ofCore (k / 16)),
    notices := s.fab.notices.filter ofCore,
    flying := s.fab.flying.filter (fun f => ofCore f.dst),
    contribs := s.fab.contribs.filter (fun f => bit mask (2 * f.dst + f.queue / 16)),
    requests := s.fab.requests.filter (fun e => ofCore e.1),
    junctions := s.fab.junctions.keep (fun k _ => ofQ k),
    jqRefused := s.fab.jqRefused.keep (fun k _ => ofQ k),
    reachStreams := s.cpu.reachStreams.keep (fun k _ => bit mask (k / 16)),
    flips := s.cpu.deferredFlips.filter (fun k => flipOfCore ofCore k || flipOfSlice (bit mask) k),
    pool := s.mem.pool.keep (fun k _ => ofCore (k / 2 ^ 19)),
    basin := s.mem.basin.keep (fun k _ => bit mask (k / 2 ^ 22)),
    wordUe := s.mem.poolUe.keep (fun k _ => ofWord k),
    dirtyPool := s.mem.dirtyPool.keep (fun k _ => ofCore (k / 128)),
    dirtyBasin := s.mem.dirtyBasin.keep (fun k _ => bit mask (k / 1024)) }

/-- The blocks of a saved job as one list: pool block c × 128 + b, or 2^40 plus basin block r × 2048 + b. -/
def SavedJob.blocks (j : SavedJob) : List Nat := j.dirtyPool.map (·.1) ++ j.dirtyBasin.map (fun e => 2 ^ 40 + e.1)

/-- The on-chip address of a block of that list. -/
def blockVa (b : Nat) : Nat := if b < 2 ^ 40 then 0xFF0000000000 + b * 4096 else 0xFF8000000000 + (b - 2 ^ 40) * 4096

/-- A saved job returns to the slices that it left, which are its partition's again. -/
def State.restoreJob (s : State) (j : SavedJob) : State :=
  { s with
    cpu := { s.cpu with
      cores := s.cpu.cores.merge {} j.cores, reachStreams := s.cpu.reachStreams.merge {} j.reachStreams,
      deferredFlips := s.cpu.deferredFlips ++ j.flips },
    fab := { s.fab with
      queues := s.fab.queues.merge [] j.queues, refused := s.fab.refused.merge [] j.refused,
      notices := s.fab.notices ++ j.notices, flying := s.fab.flying ++ j.flying, contribs := s.fab.contribs ++ j.contribs,
      requests := s.fab.requests ++ j.requests, junctions := s.fab.junctions.merge {} j.junctions,
      jqRefused := s.fab.jqRefused.merge [] j.jqRefused, saved := s.fab.saved.filter (fun x => x.part != j.part) },
    mem := { s.mem with
      pool := s.mem.pool.merge 0 j.pool, basin := s.mem.basin.merge 0 j.basin, poolUe := s.mem.poolUe.merge false j.wordUe,
      dirtyPool := s.mem.dirtyPool.merge false j.dirtyPool, dirtyBasin := s.mem.dirtyBasin.merge false j.dirtyBasin } }

/-- A block whose save-area line is uncorrectable is restored as poison and logged (R513). -/
def State.poisonBlock (s : State) (p b : Nat) : State :=
  let va := blockVa b
  let bytes := poisonBytes va 4096
  let m := if b < 2 ^ 40 then { s.mem with pool := s.mem.pool.putAll 0 (b * 4096) bytes }
    else { s.mem with basin := s.mem.basin.putAll 0 ((b - 2 ^ 40) * 4096) bytes }
  let off := Config.saveOffset p b
  ({ s with mem := m } : State).record 0x0B02 2 p srcPart p (lo32 off) (hi32 off) 0 0 (ownerAnd p)

/-- What was asked of a job's cores while it was saved takes effect: halts of aborted RUNs and stopped steps. -/
def State.resumeHalts (s : State) (p : Nat) : State :=
  let s := (s.cpu.runs.filter (fun r => r.part == p)).foldl (fun s r =>
    (if s.aborting r.cmd then s.haltRun r else s).finishRun r) s
  (s.pipe.slots.filter (fun e => e.2.bound && e.2.part == p)).foldl (fun s e =>
    let s := if e.2.steps.any (fun r => r.aborted || r.stuck || r.timedOut) then s.haltCores p (s.sliceCores e.2.slices) else s
    s.checkStep e.1) s

/-- JOB_START with RESUME (R509). `ue` lists the saved blocks whose save-area lines are uncorrectable. -/
def execJobResume (path : Path) (pk : Packet) (ue : List Nat) (s : State) : Out :=
  beginCmd path pk (jobKind true) s (fun f s =>
    let p := pk.f 0x10 7 0
    let e := s.part p
    if p = 0 ∨ p > 64 ∨ e.state ≠ .evicted then s.refusePart f 0x01
    else if pk.w 0x14 ≠ e.jobId then s.refusePart f 0x09
    else if s.sliceTaken e.home then s.refusePart f 0x08
    else
      let s := (s.giveSlices e.home).updPart p (fun e => { e with state := .running, slices := e.home, home := 0, dbgPerm := 0 })
      let s := match listFind (fun j => j.part == p) s.fab.saved with
        | some j => (j.blocks.filter ue.contains).foldl (fun (s : State) b => s.poisonBlock p b) (s.restoreJob j)
        | none => s
      (s.resumeHalts p).done f [])

/-- JOB_EVICT with DISCARD 0 or 1. -/
def evictKind (discard : Bool) (pk : Packet) : Bool := pk.opcode == 0x111 && pk.b 0x10 8 == discard

/-- No core of the partition is MOVING (Table 15.6 step 2). -/
def State.noMove (s : State) (p : Nat) : Bool := (s.partCores p).all (fun c => (s.core c).state != .moving)

/-- Dirty 4 KiB blocks of a partition's pools and basin halves, in KiB. -/
def State.dirtyKib (s : State) (p : Nat) : Nat := 4 * (s.saveJob p).blocks.length

/-- Result words of JOB_EVICT: S and Z in KiB, and the time in µs (R510, R512). -/
def evictWords (dirty cores fresh : Nat) (discard : Bool) : List Nat :=
  let ctx := min (Config.contextKib fresh) (192 * cores)
  [if discard then 0 else dirty + ctx, dirty + ctx, wrap32 (Config.switchUs fresh), 0]

/-- JOB_EVICT with DISCARD 0 (R510). -/
def execJobEvict (path : Path) (pk : Packet) (s : State) : Out :=
  let p := pk.f 0x10 7 0
  beginOn path pk (evictKind false) { ready := fun s => s.noMove p } s (fun f s =>
    if p = 0 ∨ p > 64 ∨ (s.part p).state ≠ .running then s.refusePart f 0x01
    else
      let (n, s) := s.draw
      let words := evictWords (s.dirtyKib p) (s.partCores p).length n false
      let mask := (s.part p).slices
      let s := (s.setDbgPerm p 0).closeWindows p
      let s := { s with fab := { s.fab with saved := s.fab.saved ++ [s.saveJob p] } }
      let s := s.updPart p (fun e => { e with state := .evicted, home := mask, slices := 0 })
      let s := s.freeSlices mask
      s.done f words)

/-- JOB_EVICT with DISCARD 1: the per-partition reset (R510). -/
def execJobEvictDiscard (path : Path) (pk : Packet) (s : State) : Out :=
  let p := pk.f 0x10 7 0
  beginOn path pk (evictKind true) { ready := fun s => s.noMove p } s (fun f s =>
    if p = 0 ∨ p > 64 ∨ (s.part p).state ≠ .running then s.refusePart f 0x01
    else
      let (n, s) := s.draw
      let words := evictWords (s.dirtyKib p) (s.partCores p).length n true
      (s.discardJob p).done f words)

/-! ### A partition entry whose pair does not hold (R503) -/

/-- Firmware rewrites an entry from its own copy; when that is bad as well, the job is aborted and the partition is left
EVICTED with every slice free. -/
def State.fixEntry (s : State) (p : Nat) : State :=
  let e := s.part p
  if !e.pairBad || e.lost then s
  else if !e.copyBad then
    (s.updPart p (fun e => { e with pairBad := false })).record 0x0B01 3 p srcPart p p 1 0 0 [0]
  else
    let running := e.state == .running || e.state == .evicted
    let s := if running then s.abortJob 0 p else s
    let mask := (s.part p).slices
    let s := s.freeSlices mask
    let s := s.updPart p (fun e => { e with state := .evicted, slices := 0, home := 0 })
    let s := (s.cmd.flights.filter (fun t => s.actsFor t == p && t.phase == .accepted)).foldl
      (fun s t => s.commit t.id stPairFault []) s
    s.record 0x0B01 3 p srcPart p p 2 0 0 [0]

/-! ### Regulators and meters (R515, R516, R521, R522) -/

/-- One refill of a bucket in ordinary mode. -/
def refillBucket (r : Regulator) (b : Bucket) : Bucket :=
  if r.fixed || r.rate == 0xFFFFFF then b
  else { b with tokens := min (b.tokens + r.rate * 64) (r.rate * 64 + r.burst * 1024 : Nat) }

/-- What a microsecond adds to a partition's buckets and meters. -/
def Meters.microsecond (m : Meters) (e : Partition) (mj : Nat) : Meters :=
  { m with
    b0 := refillBucket e.reg0 m.b0, b1 := refillBucket e.reg1 m.b1, b2 := refillBucket e.reg2 m.b2,
    b3 := refillBucket e.reg3 m.b3, b4 := refillBucket e.reg4 m.b4,
    sliceUs := sat64 (m.sliceUs + (if e.state == .idle || e.state == .running then sliceCount e.slices else 0)),
    energyMj := sat64 (m.energyMj + mj) }

/-- The request of a wait is still there. -/
def State.stillWaits (s : State) (w : BucketWait) : Bool :=
  match w.who with
  | .cmd id => (s.flight id).any (fun f => f.phase == .accepted)
  | .core c e num => ((s.core c).nextToBegin e).any (fun p => p.num == num)
  | .stream c n k => (s.stream c n).isOpen && (s.stream c n).filled == k
  | .quay e cmd u => s.quay.runs.any (fun r => r.cmd == cmd && !r.done.contains u) && (s.qe e).work.isNone
  | .bar2 _ _ _ | .debug _ => true

/-- Until when a request has waited on a bucket: a fixed-share one opens at its slot. -/
def State.waitedTo (s : State) (w : BucketWait) (i : Nat) : Nat :=
  if ((s.part w.part).reg i).fixed then max w.since (min s.clk ((s.meter w.part).bucket i).nextSlot) else s.clk

/-- The time that requests have waited on each bucket is counted (WAIT_NS of Table 15.9); those go on waiting that some bucket still
holds back. -/
def State.countWaits (s : State) : State :=
  let s' := (s.ten.waits.filter s.stillWaits).foldl (fun (t : State) w => w.res.foldl (fun (t : State) i =>
    t.updMeter w.part (fun m => m.setBucket i { m.bucket i with waitNs := sat64 ((m.bucket i).waitNs + (s.waitedTo w i - w.since)) })) t) s
  let on := (s.ten.waits.filter s.stillWaits).map (fun w =>
    { w with res := w.res.filter (fun i => !s.mayProceed w.part i), since := s.clk })
  { s' with ten := { s'.ten with waits := on.filter (fun w => !w.res.isEmpty) } }

/-- REGULATOR_REFILL (R515, R521, R522): a microsecond has passed since the last refill. DESIGN CHOICE: at the same tick firmware rewrites
every partition entry that fails its pair check, within the 100 µs of R503. -/
def execRegulatorRefill (s : State) : Out :=
  .next (
    if s.clk < s.ten.refillAt + 1000 then s
    else
      let t := s.ten.refillAt + 1000
      let s := (List.range 65).foldl (fun s p => s.fixEntry p) s
      let mine := (List.range 65).filter (fun p => p == 0 || (s.part p).state != .free)
      let s := mine.foldl (fun s p => s.updMeter p (fun m => m.microsecond (s.part p) (Config.energyMj p t))) s
      let s := s.countWaits
      let sum := mine.foldl (fun n p => n + Config.energyMj p t) 0
      { s with ten := { s.ten with refillAt := t }, pwr := { s.pwr with estMj := sat64 (s.pwr.estMj + sum) } })

/-- FIXED_SHARE_RELEASE (R516): the slot of a fixed-share bucket comes and a request of `bytes` is released. The data of a
read of a tier arrives after `latNs`. -/
def execFixedShareRelease (part res bytes : Nat) (read : Bool) (latNs : Nat) (s : State) : Out :=
  onUnit (decide (part ≤ 64) && decide (res ≤ 4)) (.next (
    let r := (s.part part).reg res
    if r.fixed && r.rate != 0 && decide (((s.meter part).bucket res).nextSlot ≤ s.clk) then
      let s := s.charge part res bytes
      if read && decide (res ≤ 1) && decide ((s.part part).fixLatNs < latNs) then
        s.updMeter part (fun m => { m with fixLate := sat32 (m.fixLate + 1) })
      else s
    else s))

/-- METER_SNAPSHOT (R521): system time has passed a multiple of 60 s. -/
def execMeterSnapshot (s : State) : Out :=
  .next ((List.range 65).foldl (fun s p =>
    if (s.meter p).minute = s.minuteNow then s
    else s.updMeter p (fun m => { m with snap := m.live, minute := s.minuteNow })) s)

end Sys2Proof.Machine
end

