-- ==== Sys2Proof/Machine/Debug.lean ====
section
/-! DEFINITION. The debug port (R637 to R651): the TAP, unlocking, halt and step, breakpoints, memory transfers. -/

namespace Sys2Proof.Machine

/-! ### Boundary scan and the instruction register (R637, R638, R651) -/

/-- A TAP instruction by its code (Table 20.1); every other code acts as BYPASS. -/
def TapInstr.ofCode : Nat → TapInstr
  | 0x00 => .extest | 0x01 => .sample | 0x02 => .idcode | 0x03 => .highz | 0x04 => .clamp | 0x10 => .dbgKey
  | 0x11 => .dbgAccess | _ => .bypass

/-- The pins that a boundary register value drives (Table 20.6): THERMTRIP_N when its cell is 0, the bus pins whose
control cell is 1. -/
def drivenPins (v : Nat) : List (Nat × Bool) :=
  (if bit v 6 then [] else [(0, false)]) ++ (if bit v 10 then [(1, bit v 9)] else []) ++
    (if bit v 13 then [(2, bit v 12)] else []) ++ (if bit v 16 then [(3, bit v 15)] else [])

/-- What the selected instruction does to the pins: only while RESET_N is low (R651). -/
def State.scanPins (s : State) : State :=
  let b := s.board
  let p : Bool × List (Nat × Bool) :=
    if b.resetN then (false, [])
    else match s.dbg.tap with
      | .extest | .clamp => (true, drivenPins s.dbg.boundary)
      | .highz => (true, [])
      | _ => (false, [])
  { s with board := { b with scanOn := p.1, scan := p.2 } }

/-- The identification register's value (R639): stepping 0, part 0x1536, identity 0x4A5, and bit 0. -/
def idCode : Nat := 0x0153694B

/-- What Capture-DR loads under the selected instruction, to be shifted out at TDO bit 0 first: the identification (R639), the outcome of
the previous access (R640), the boundary cells (Table 20.6; EXTEST while RESET_N is high acts as BYPASS). The bypass register loads 0:
PRESUMED, as IEEE 1149.1 has it. The pins of the buses, and what the key register loads, are free values. -/
def State.drCapture (s : State) (n : Nat) : Nat :=
  let pins := b2n s.board.resetN + 2 * b2n s.board.perst0N + 4 * b2n s.board.perst1N + 8 * b2n s.board.pwrWarnN +
    16 * s.board.maddr + 64 * b2n (!s.pwr.thermTrip) + 128 * (Config.tapCapture n % 2 ^ 11)
  match s.dbg.tap with
  | .idcode => idCode
  | .dbgAccess => s.dbg.accResult * 2 ^ 64 + s.dbg.accOffset * 2 ^ 32 + s.dbg.accData
  | .dbgKey => Config.tapCapture n % 2 ^ 32
  | .sample => pins
  | .extest => if s.board.resetN then 0 else pins
  | _ => 0

/-- An instruction is selected: a scan of its data register shifts out what Capture-DR loads. -/
def State.captureDr (s : State) : State :=
  let (n, s) := s.draw
  { s with dbg := { s.dbg with drOut := s.drCapture n } }

/-- TAP_RESET (R637): IDCODE is selected, and its register holds the identification (R639). -/
def execTapReset (s : State) : Out :=
  .next ({ s with dbg := { s.dbg with tap := .idcode, ir := 2, drOut := idCode } } : State).scanPins

/-- TAP_IR_SCAN (R638): captures the instruction register and selects an instruction. -/
def execTapIrScan (code : Nat) (s : State) : Out :=
  .next (
    let out := 1 + b2n (s.dbg.lock == .unlocked) * 4 + b2n s.pkg.ready * 8
    ({ s with dbg := { s.dbg with tap := TapInstr.ofCode (code % 256), ir := code % 256, irOut := out } } : State).captureDr.scanPins)

/-- EXTEST (R651): Update-DR under EXTEST or SAMPLE/PRELOAD loads the boundary register. While RESET_N is high EXTEST acts
as BYPASS. -/
def execExtest (value : Nat) (s : State) : Out :=
  .next (
    if s.dbg.tap == .sample || (s.dbg.tap == .extest && !s.board.resetN) then
      ({ s with dbg := { s.dbg with boundary := value % 2 ^ 18 } } : State).scanPins
    else s)

/-! ### Unlocking (R641, R642) -/

/-- DBG_KEY (R641): a value shifted into DBG_KEY through the TAP. -/
def execDbgKey (value : Nat) (s : State) : Out :=
  .next (
    let d := s.dbg
    if d.tap != .dbgKey || d.lock != .armed then s
    else if value % 2 ^ 32 = d.key then
      ({ s with dbg := { d with lock := .unlocked, key := 0, leftEnd := s.clk + d.life * 1000000000 } } : State).record
        0x0F01 0 0xFF srcPackage 0 d.life 0 0 0 [0]
    else
      let n := d.fails + 1
      let s := ({ s with dbg := { d with fails := n } } : State).record 0x0F03 1 0xFF srcPackage 0 n 0 0 0 [0]
      if n < 3 then s else s.lockDbg 5)

/-- A write of DBG_KEY_SET by the lock-keeper. -/
def State.setKey (s : State) (key : Nat) : State :=
  if key % 2 ^ 32 = 0 then s.lockDbg 2 else { s with dbg := { s.dbg with lock := .armed, key := key % 2 ^ 32, fails := 0 } }

/-- DBG_KEY_SET (R641). -/
def execDbgKeySet (m : Master) (value : Nat) (s : State) : Out := .next (s.ownerWrite m (fun s => s.setKey value))

/-- DBG_UNLOCK_EXPIRE (R642). -/
def execDbgUnlockExpire (s : State) : Out :=
  .next (if s.dbg.lock == .unlocked && decide (s.dbg.leftEnd ≤ s.clk) then s.lockDbg 1 else s)

/-- A write to the DBG block, from a master or (none) from the TAP, which may write only while the block is UNLOCKED
(R525, R642). -/
def State.dbgWrite (s : State) (src : Option Master) (body : State → State) : State :=
  match src with
  | some m => s.ownerWrite m body
  | none => if s.dbg.lock == .unlocked then body s else s

/-! ### DBG_CMD (R644 to R648) -/

/-- Results (Table 20.5). -/
def drDone : Nat := 0
def drPerm : Nat := 1
def drFirmware : Nat := 2
def drState : Nat := 3
def drRange : Nat := 5
def drUnmapped : Nat := 6
def drTranslation : Nat := 0x10
def drReadOnly : Nat := 0x11
def drNotHalted : Nat := 0x12
def drPoisoned : Nat := 0x13

/-- The cores in the scope of a DBG_CMD. -/
def State.dbgScope (s : State) (v : Nat) : List Nat :=
  if bit v 4 then (s.partCores (bits v 15 8)).filter s.mapped else [bits v 26 16]

/-- Why a DBG_CMD is refused before it acts on any core. DEDUCED order: RANGE, UNMAPPED, FIRMWARE, PERM, STATE. `stateOk`
is what the operation asks of a core. -/
def State.dbgCheck (s : State) (v : Nat) (argOk : Bool) (stateOk : Core → Bool) : Nat :=
  let cs := s.dbgScope v
  if !argOk || (if bit v 4 then decide (64 < bits v 15 8) else decide (1536 ≤ bits v 26 16)) then drRange
  else if cs.any (fun c => !s.mapped c) then drUnmapped
  else if (bit v 4 && bits v 15 8 == 0) || cs.any (fun c => s.coreOwner c == 0 || (s.core c).handlerMode) then drFirmware
  else if (bit v 4 && (s.part (bits v 15 8)).dbgPerm == 0) || cs.any (fun c => (s.part (s.coreOwner c)).dbgPerm == 0) then drPerm
  else if cs.any (fun c => !stateOk (s.core c)) then drState
  else drDone

/-- Takes a DBG_CMD: refused while one is delivered, else checked and acted on. `act` gives the cores acted on. -/
def State.dbgCommand (s : State) (v : Nat) (argOk : Bool) (stateOk : Core → Bool) (acts : Core → Bool)
    (act : State → Nat → State) : State :=
  if s.clk < s.dbg.busyEnd then { s with dbg := { s.dbg with rejected := sat8 (s.dbg.rejected + 1) } }
  else
    let (n, s) := s.draw
    let r := s.dbgCheck v argOk stateOk
    let cs := if r = drDone then (s.dbgScope v).filter (fun c => acts (s.core c)) else []
    let s := { s with dbg := { s.dbg with
      busyEnd := s.clk + min 10000 (Config.dbgBusyNs n), result := r, cores := cs.length } }
    cs.foldl act s

/-- HALT (R645). -/
def State.dbgHalt (s : State) (v : Nat) : State :=
  s.dbgCommand v true (fun _ => true) (fun k => k.state == .running || k.state == .moving) (fun s c => s.haltCore c 1 0)

/-- A debug-halted core goes on. -/
def State.dbgGo (s : State) (c : Nat) (f : Core → Core) : State :=
  let s := s.updCore c (fun k => f { k.clearHits with state := .running, dbgHalt := false, stopping := false })
  if (s.core c).group = 0 then s.goto c (s.core c).pc else s.settle c

/-- RESUME (R646). -/
def State.dbgResume (s : State) (v : Nat) : State :=
  s.dbgCommand v true (fun k => k.state == .halted && k.holder != .none) (fun _ => true) (fun s c => s.dbgGo c id)

/-- STEP (R647). -/
def State.dbgStep (s : State) (v : Nat) : State :=
  let n := s.dbg.arg
  s.dbgCommand v (decide (1 ≤ n ∧ n ≤ 65535)) (fun k => k.state == .halted) (fun _ => true) (fun s c =>
    s.dbgGo c (fun k => { k with stepping := true, stepLeft := n, stepFirst := true }))

/-- SET_BP (R648). -/
def State.dbgSetBp (s : State) (v : Nat) : State :=
  let b : Breakpoint := { en := true, isPc := bit v 5, all := bit v 27, hit := false, value := s.dbg.arg }
  s.dbgCommand v true (fun _ => true) (fun _ => true) (fun s c =>
    s.updCore c (fun k => { k with bps := k.bps.put {} (bits v 7 6) b }))

/-- CLEAR_BP (R648). -/
def State.dbgClearBp (s : State) (v : Nat) : State :=
  s.dbgCommand v true (fun _ => true) (fun _ => true) (fun s c =>
    s.updCore c (fun k => { k with bps := k.bps.put {} (bits v 7 6) {} }))

/-- A write of DBG_CMD: a reserved OP is out of range. -/
def State.dbgCmd (s : State) (v : Nat) : State :=
  match bits v 3 0 with
  | 1 => s.dbgHalt v
  | 2 => s.dbgResume v
  | 3 => s.dbgStep v
  | 4 => s.dbgSetBp v
  | 5 => s.dbgClearBp v
  | _ => s.dbgCommand v false (fun _ => true) (fun _ => true) (fun s _ => s)

def execHalt (src : Option Master) (value : Nat) (s : State) : Out :=
  .next (if bits value 3 0 = 1 then s.dbgWrite src (fun s => s.dbgHalt value) else s)
def execResume (src : Option Master) (value : Nat) (s : State) : Out :=
  .next (if bits value 3 0 = 2 then s.dbgWrite src (fun s => s.dbgResume value) else s)
def execStep (src : Option Master) (value : Nat) (s : State) : Out :=
  .next (if bits value 3 0 = 3 then s.dbgWrite src (fun s => s.dbgStep value) else s)
def execSetBp (src : Option Master) (value : Nat) (s : State) : Out :=
  .next (if bits value 3 0 = 4 then s.dbgWrite src (fun s => s.dbgSetBp value) else s)
def execClearBp (src : Option Master) (value : Nat) (s : State) : Out :=
  .next (if bits value 3 0 = 5 then s.dbgWrite src (fun s => s.dbgClearBp value) else s)

/-- DBG_STEP_DONE (R647): the step's pushes have all completed. -/
def execDbgStepDone (core : Nat) (s : State) : Out :=
  onUnit (decide (core < 1536)) (.next (if (s.core core).stepping && (s.core core).state == .running then s.settle core else s))

/-! ### Memory transfers (R650) -/

/-- The cores of the slice that an on-chip address belongs to may be written beside: each is HALTED or IDLE. -/
def State.onChipStill (s : State) (part va : Nat) : Bool :=
  let still := fun (k : Nat) => (List.range 8).all (fun i =>
    let x := s.core (8 * k + i)
    x.state == .halted || x.state == .idle)
  match s.translate part va true with
  | .pool c _ => still (c / 8)
  | .basin r o => still (2 * r + o / 0x400000)
  | _ => true

/-- Why a transfer does not take place. DEDUCED: Table 20.5 has no other code for an address in a tier that is in TEST (R241) than
TRANSLATION. -/
def State.memCheck (s : State) (part va n : Nat) (write : Bool) : Option Nat :=
  let lines := (List.range n).map (fun i => va + 64 * i)
  if part = 0 then some drFirmware
  else if 64 < part ∨ 64 < n ∨ va % 64 ≠ 0 ∨ va / 4096 ≠ (va + 64 * n - 1) / 4096 then some drRange
  else if (s.part part).dbgPerm < 2 then some drPerm
  else if (s.extentFault part va (64 * n) false).isSome || s.extentAsleep part va (64 * n) then some drTranslation
  else if write ∧ (s.extentFault part va (64 * n) true).isSome then some drReadOnly
  else if write && !lines.all (s.onChipStill part) then some drNotHalted
  else none

/-- Line `i` of a read: its bytes, or nothing when it is poisoned or uncorrectable. -/
def State.debugLine (s : State) (ue : List Nat) (part va : Nat) : Option (List Byte) :=
  if s.extentPoison ue part va 64 || (s.extentUe ue part va 64).isSome then none else some (s.readVA part va 64)

/-- Takes a write of DBG_MEM_CTRL. The transfer waits for its buckets as every metered request does (R515, R650). A table entry that fails its pair on the way is logged and rewritten (R218). -/
def State.memTransfer (s : State) (tap : Bool) (v : Nat) (ue : List Nat) : State :=
  let write := bits v 1 0 == 2
  let n := bits v 22 16 + 1
  let part := bits v 15 8
  let va := s.dbg.memVa
  if s.clk < s.dbg.memEnd then { s with dbg := { s.dbg with rejected := sat8 (s.dbg.rejected + 1) } }
  else if (s.memCheck part va n write).isNone && !s.extentMayProceed part 6 va (64 * n) write then
    s.waitFor (.debug va) part (s.extentNeeds part 6 va (64 * n) write)
  else
    let checked := s.memCheck part va n write
    let s := if [some drFirmware, some drRange, some drPerm].contains checked then s else s.notePairs part [(va, 64 * n)]
    let (k, s) := s.draw
    let s := { s with dbg := { s.dbg with memEnd := s.clk + Config.dbgBusyNs k } }
    match checked with
    | some r => { s with dbg := { s.dbg with memResult := r } }
    | none =>
      let s := s.chargeExtent part 6 va (64 * n) write
      if write then
        let s := s.writeVA part va (s.dbg.window.getAll 0 0 (64 * n))
        let s := s.record 0x0F05 1 part srcPart part (lo32 va) (hi32 va) n (if tap then 1 else 2) (partOnly part)
        { s with dbg := { s.dbg with memResult := drDone, memPoison := 0 } }
      else
        let ls := (List.range n).map (fun i => s.debugLine ue part (va + 64 * i))
        let mask := maskOf ((List.range n).filter (fun i => (ls.getD i none).isNone))
        let s := s.noteUes ue part va (64 * n)
        { s with dbg := { s.dbg with
          window := s.dbg.window.putAll 0 0 (ls.flatMap (fun l => l.getD (List.replicate 64 0))),
          memResult := if mask = 0 then drDone else drPoisoned, memPoison := mask } }

/-- DBG_MEM_READ (R650): a write of DBG_MEM_CTRL with OP READ. -/
def execDbgMemRead (src : Option Master) (value : Nat) (ue : List Nat) (s : State) : Out :=
  .next (if bits value 1 0 = 1 then s.dbgWrite src (fun s => s.memTransfer src.isNone value ue) else s)

/-- DBG_MEM_WRITE (R650): a write of DBG_MEM_CTRL with OP WRITE. -/
def execDbgMemWrite (src : Option Master) (value : Nat) (ue : List Nat) (s : State) : Out :=
  .next (if bits value 1 0 = 2 then s.dbgWrite src (fun s => s.memTransfer src.isNone value ue) else s)

end Sys2Proof.Machine
end

