-- ==== Sys2Proof/Machine/Fence.lean ====
section
/-! DEFINITION. Taking the package or a die out of service: the fence (R579) and the retirement of a die (R574, R575). -/

namespace Sys2Proof.Machine

/-- Every laser is turned off (R305, R344): the ports that are enabled go DOWN. -/
def State.darken (s : State) : State :=
  (List.range 24).foldl (fun s p => if (s.port p).state == .disabled then s else s.portDown p)
    { s with link := { s.link with lasersOff := true } }

/-- Aborts the job of every partition as JOB-scope ABORT does (R557, R579, R614). -/
def State.abortJobs (s : State) : State :=
  (List.range 65).foldl (fun s p => match (s.part p).state with
    | .running | .evicting | .evicted | .resuming => if p = 0 then s else s.abortJob 0 p
    | _ => s) s

/-- The package is fenced (R579). The record that its cause has written is of severity 3 and so has asked for the
flush (R587). -/
def State.fence (s : State) : State :=
  if s.pwr.fenced then s
  else
    let s := s.darken.abortJobs
    { s with pkg := { s.pkg with ready := false }, pwr := { s.pwr with fenced := true } }

/-- Keeper core `k` is restarted (R577, Table 6.12): its queues are empty and no handler runs. `why` is 1 for the watchdog, 2 for
the lengthsman. What it served is firmware's and no state of it is lost. -/
def State.restartKeeper (s : State) (k why : Nat) : State :=
  (s.zeroCores (fun c => c == 1536 + k)).record 0x0D03 2 0xFF srcKeeper k k why 0 0 [0]

/-- A hub die is lost (R575, R578): PKG_FENCED, cause hub die. -/
def State.fenceHub (s : State) : State :=
  if s.pwr.fenced then s else (s.record 0x0D05 3 0xFF srcPackage 0 2 0 0 0 [0]).fence

/-- The cores of a die whose loss takes them with it: they hold no physical core any more, and one that runs faults. -/
def State.dropCores (s : State) (d : Nat) : State :=
  (List.range 256).foldl (fun s i =>
    let c := 256 * d + i
    let s := { s with cpu := { s.cpu with
      unmapped := s.cpu.unmapped.put false c true, retired := s.cpu.retired.put false (s.physCore c) true } }
    if (s.core c).state = .running ∨ (s.core c).state = .moving then
      s.updCore c (fun k => { k with state := .faulted, ax := [], vx := [], dx := [], qx := [] })
    else s) s

/-- A mask of slices has one on compute die `d`. -/
def onDie (d slices : Nat) : Bool := bits slices (32 * d + 31) (32 * d) != 0

/-- The models with a reach on a lost die (R574): their sequences end with REASON FAULT, and their slots are free. An
UNBIND that waits for one of them completes. -/
def State.modelsGone (s : State) (d : Nat) : State :=
  (s.serv.models.filter (fun e => e.2.bound && onDie d e.2.slices)).foldl (fun s e =>
    let s := (s.quitModel e.1 endFault).haltCores e.2.part (s.sliceCores e.2.slices)
    let s : State := { s with serv := { s.serv with models := s.serv.models.put {} e.1 {} } }
    let s := (s.sliceCores e.2.slices).foldl (fun s c =>
      s.updCore c (fun k => if k.holder = .model e.1 then { k with holder := .none } else k)) s
    match e.2.closing with
    | some cmd => s.commit cmd stDone []
    | none => s) s

/-- Die `d` is retired (R177, R182, R574, R575, R622). -/
def State.retireDie (s : State) (d : Nat) : State :=
  if d < 6 then
    if !bit s.pkg.cdOk d then s
    else
      let s := (s.retireDieBit d).dropCores d
      let s := (s.pipe.slots.filter (fun e => e.2.bound && !e.2.spare && onDie d e.2.slices)).foldl (fun s e => s.stageGone e.1) s
      s.modelsGone d
  else if !bit s.pkg.hdOk (d - 6) then s
  else (s.retireDieBit d).fenceHub

end Sys2Proof.Machine
end

