-- ==== Sys2Proof/Machine/Fabric.lean ====
section
/-! DEFINITION. The on-package network (R172 to R192): FABRIC_CONFIG, endpoints, arbiters, the lengthsman, and the
die-to-die pairs. -/

namespace Sys2Proof.Machine

/-! ### FABRIC_CONFIG (R192) -/

/-- A limit is left as it is, or lies in its range (Table 6.13). -/
def limitOk (v lo hi : Nat) : Bool := v == 0 || (decide (lo ≤ v) && decide (v ≤ hi))

/-- FABRIC_CONFIG: the limits and FW_CLASS. DEDUCED: FW_CLASS_SET reads 0 in the reply. -/
def execFabricConfig (path : Path) (pk : Packet) (s : State) : Out :=
  beginCmd path pk (ofOp 0x030) s (fun f s =>
    let fab := pk.w 0x10
    let mem := pk.w 0x14
    if !limitOk fab 1000 1000000 || !limitOk mem 4000 4000000 then s.failWith f stFieldReserved
    else
      let s : State := { s with fab := { s.fab with
        fabLimit := if fab = 0 then s.fab.fabLimit else fab,
        memLimit := if mem = 0 then s.fab.memLimit else mem,
        fwClass := if pk.b 0x18 2 then pk.f 0x18 1 0 else s.fab.fwClass } }
      s.done f [s.fab.fabLimit, s.fab.memLimit, s.fab.fwClass])

/-! ### Endpoints (R174, R175) -/

/-- The device place of a physical address (Tables 6.2 and 7.1). -/
def State.devPlace (s : State) (a : Nat) : Place :=
  if 0x3F0000000000 ≤ a ∧ a < 0x3F0000000000 + 1632 * 0x80000 then
    let p := (a - 0x3F0000000000) / 0x80000
    match listFind (fun c => s.mapped c && s.physCore c == p) ((List.range 16).map (p / 17 * 16 + ·)) with
    | some c => .pool c (a % 0x80000)
    | none => .fail cTranslation
  else if 0x3F8000000000 ≤ a ∧ a < 0x3F8000000000 + 96 * 0x800000 then
    .basin ((a - 0x3F8000000000) / 0x800000) (a % 0x800000)
  else if frameExists (a / 2 ^ 21) then .tier a
  else .fail cTranslation

/-- The domain that a place lies in. -/
def placeDomain : Place → Option Nat
  | .tier d | .fresh d => some (unitDomain (memUnit d))
  | .pool c _ => some (coreDomain c)
  | .basin r o => some (sliceDomain (2 * r + o / 0x400000))
  | _ => none

/-- The partitions that may address a place, the owner first: the holder of its slice, or those that map its frame;
partition 0 for what no tenant holds. -/
def State.placeOwners (s : State) : Place → List Nat
  | .tier d | .fresh d => if (s.mem.mappers (d / 2 ^ 21)).isEmpty then [0] else s.mem.mappers (d / 2 ^ 21)
  | .pool c _ => [s.coreOwner c]
  | .basin r o => [s.sliceOwner (2 * r + o / 0x400000)]
  | _ => [0]

/-- What a request reads or writes, in pieces that lie in one line each. -/
def State.devPieces (s : State) (a n : Nat) : List (Place × Nat × Nat) :=
  (linePieces (n / 64 + 2) a n).map (fun p => (s.devPlace p.1, p.1, p.2))

/-- The endpoint of a node, as a record's SOURCE names it. DESIGN CHOICE: a hub-die unit that is neither a controller nor a
port is named by its die; no rule gives the SOURCE of such a record. -/
def nodeSource (n : Nat) : Nat × Nat :=
  match nodeReach n, nodeStack n, nodeHub n with
  | some r, _, _ => (srcReach, r)
  | none, some u, _ => (srcMem, u)
  | none, none, some u => if u < 32 then (srcMem, u) else (srcPort, u - 32)
  | none, none, none => (srcDie, nodeDie n)

/-- A request names a partition that does not own what it addresses (R175). -/
def State.partMismatch (s : State) (part owner dst src : Nat) : State :=
  let at_ := nodeSource dst
  let s := match nodeReach dst with
    | some r => s.updReach r (fun x => { x with partMismatch := sat32 (x.partMismatch + 1) })
    | none => s
  (s.record 0x0301 2 part at_.1 at_.2 part owner dst src [0]).answer 6 cNotOwner false []

/-- A piece of a request passes its memory unit. -/
def State.countLine (s : State) (part : Nat) (p : Place) (n : Nat) (write : Bool) : State :=
  match p with
  | .tier d => s.lineTraffic part d n write
  | _ => s

/-- A READ or WRITE that reaches its endpoint. -/
def State.serveAccess (s : State) (write : Bool) (part a dst src len : Nat) (payload : List Byte) (poison : Bool)
    (ue : List Nat) : State :=
  let ps := s.devPieces a (if write then payload.length else len)
  match ps.find? (fun q => !(s.placeOwners q.1).contains part) with
  | some q => s.partMismatch part ((s.placeOwners q.1).headD 0) dst src
  | none =>
    if ps.any (fun q => match q.1 with
        | .fail _ => true
        | _ => false) then s.answer 6 cTranslation false []
    else if ps.any (fun q => match q.1 with
        | .tier d => s.tierInTest (tierOf d)
        | _ => false) then s.answer 6 stDomainAsleep false []
    else if write then
      let bs := if poison then poisonBytes a payload.length else payload
      (ps.foldl (fun s q => (s.countLine part q.1 q.2.2 true).writePlace q.1 ((bs.drop (q.2.1 - a)).take q.2.2) poison) s).answer 3 0 false []
    else
      let cause := (ps.map (fun q => (s.lineCause ue q.1).getD (if (s.pieceUe ue q.1 q.2.2).isEmpty then 0 else cSourceUe)))
      let s := ps.foldl (fun s q => s.countLine part q.1 q.2.2 false) s
      let s := ps.foldl (fun s q => match q.1 with
        | .tier d => if s.lineCause ue q.1 = some cSourceUe then s.lineUe (d / 64) else s
        | _ => s) s
      if cause.contains cSourceUe then s.answer 6 cSourceUe false []
      else s.answer 2 0 (cause.contains cSourcePoison) (ps.flatMap (fun q => s.placeBytes q.1 q.2.2))

/-- A MESSAGE or JUNCTION packet that reaches its reach: it is on its way to its queue or junction. DESIGN CHOICE: ADDR
holds the queue in bits 3:0 and the core of the reach in bits 7:4, or the junction in bits 4:0. -/
def State.serveMessage (s : State) (junction : Bool) (part addr dst from_ src : Nat) (payload : List Byte) (poison : Bool) : State :=
  match nodeReach dst with
  | none => s
  | some r =>
    if junction then
      let q := addr % 32
      let owner := s.sliceOwner (2 * r + q / 16)
      if owner ≠ part then s.partMismatch part owner dst from_
      else
        let w := (s.jqDesc r q).width
        { s with fab := { s.fab with contribs := s.fab.contribs ++
            [{ src := some src, dst := r, queue := q, words := (chunksOf w (payload.length / w + 1) payload).map ofBytes,
               poison := poison, fmt := (s.jqDesc r q).fmt }] } }
    else
      let c := 16 * r + bits addr 7 4
      if s.coreOwner c ≠ part then s.partMismatch part (s.coreOwner c) dst from_
      else { s with fab := { s.fab with flying := s.fab.flying ++
          [{ src := none, dst := c, queue := addr % 16, words := bytesToWords payload, poison := poison }] } }

/-- The header of the reply to a request (Table 6.4): it goes back on RSP, on the request's sub-channel. DEDUCED: it repeats the
request's TAG, ARB_CLASS, TCLASS, PART and ADDR. -/
def replyHead (head : List Nat) (r : NetReply) : List Nat :=
  let w := fun i => head.getD i 0
  let n := r.data.length
  [r.kind * 2 ^ 28 + b2n r.poison * 2 ^ 27 + (bits (w 0) 26 26 * 4 + 1) * 2 ^ 24 + bits (w 0) 11 0 * 2 ^ 12 + bits (w 0) 23 12,
   setBits (w 1) 15 13 0, lo32 (w 2), setBits (bits (w 3) 13 0) 21 14 (n - 1)]

/-- The reply that an endpoint has just formed takes its header. -/
def State.headReply (s : State) (head : List Nat) : State :=
  { s with fab := { s.fab with reply := s.fab.reply.map (fun r => { r with head := replyHead head r }) } }

/-- NETWORK_PACKET_RECEIVE (R174, R175): `head` is the header's four words, `len` how many bytes a READ asks for, `src`
the core that a contribution comes from. No packet has more than 256 bytes of payload. Replies and CONTROL packets end here; a
packet of a reserved KIND is dropped. -/
def execNetworkPacketReceive (head : List Nat) (payload : List Byte) (len src : Nat) (ue : List Nat) (s : State) : Out :=
  .next (
    let w := fun i => head.getD i 0
    let payload := payload.take 256
    let len := min len 256
    let kind := bits (w 0) 31 28
    let dst := bits (w 0) 11 0
    let from_ := bits (w 0) 23 12
    let part := bits (w 1) 7 0
    let poison := bit (w 0) 27
    let addr := (w 2 + 2 ^ 32 * w 3) % 2 ^ 46
    let doms := if kind ≤ 1 then (s.devPieces addr (if kind = 0 then len else payload.length)).filterMap (fun q => placeDomain q.1)
      else match nodeReach dst with
        | some r => [coreDomain (16 * r)]
        | none => []
    if !doms.all s.awake then s
    else
      let s := s.carry from_ dst (bits (w 0) 25 24) (16 + payload.length)
      let s := if part = 0 ∨ part > 64 then s else s.fixEntry part
      match kind with
      | 0 => (s.serveAccess false part addr dst from_ len [] false ue).headReply head
      | 1 => (s.serveAccess true part addr dst from_ 0 payload poison ue).headReply head
      | 4 => s.serveMessage false part addr dst from_ src payload poison
      | 5 => s.serveMessage true part addr dst from_ src payload poison
      | _ => s)

/-! ### Arbitration (R187 to R191) -/

/-- The key of an arbitration point. -/
def arbKey (row unit index : Nat) : Nat := 2 ^ 20 * row + 2 ^ 8 * unit + index

/-- An arbitration point of Table 6.10, by its row: basin banks (bits 12:6 of the basin offset, R170), router output ports (hub dies 96 and 97), modules of a
pair in both directions, controllers, canal egress. -/
def arbExists (row unit index : Nat) : Bool :=
  match row with
  | 1 => decide (unit < 96 ∧ index < 128)
  | 2 => decide (unit < 98 ∧ index < 32)
  | 3 => decide (unit < 11 ∧ index < 16)
  | 4 => decide (unit < 28 ∧ index = 0)
  | 5 => decide (unit < 24 ∧ index = 0)
  | _ => false

/-- The class that a request arbitrates in (R188, R516). -/
def State.grantClass (s : State) (r : GrantReq) : Nat :=
  if r.nvc = 3 ∨ (r.part ≠ 0 ∧ r.res < 5 ∧ ((s.part r.part).reg r.res).fixed = true) then 0
  else if r.part = 0 then s.fab.fwClass
  else (s.part r.part).arbClass

/-- The request with the lowest requester number of a list. -/
def lowestReq (l : List GrantReq) : Option GrantReq :=
  l.foldl (fun (b : Option GrantReq) r => match b with
    | none => some r
    | some x => if r.requester < x.requester then some r else some x) none

/-- The request that an arbiter grants (R187): the highest class present, in rotation after the last one granted in it. -/
def State.chooseReq (s : State) (a : Arbiter) (l : List GrantReq) : Option (Nat × GrantReq) :=
  match listFind (fun c => l.any (fun r => s.grantClass r == c)) [0, 1, 2, 3] with
  | none => none
  | some c =>
    let mine := l.filter (fun r => s.grantClass r == c)
    let after := mine.filter (fun r => decide (a.last.get 0 c ≤ r.requester))
    ((lowestReq after).orElse (fun _ => lowestReq mine)).map (fun r => (c, r))

/-- The requests that are raised at a point: those that waited, and the new ones whose requesters hold what they need (R173,
R189). -/
def Arbiter.waiting (a : Arbiter) (new : List GrantReq) : List GrantReq :=
  a.raised ++ new.filter (fun r => r.credit && !a.raised.contains r)

/-- The arbiter of a point hands its grant to the next of the raised requests; one raised after the choice waits for the next
(Table 6.11). -/
def State.grantNext (s : State) (row unit index : Nat) (raised : List GrantReq) : State :=
  let a := s.fab.arbiters.get {} (arbKey row unit index)
  let all := a.waiting raised
  let a' : Arbiter := match s.chooseReq a (a.waiting (raised.filter (fun r => !r.late))) with
    | none => { a with holder := none, raised := all }
    | some (c, r) => { holder := some r, since := s.sysTime, limit := if row = 4 then s.fab.memLimit else s.fab.fabLimit,
                       last := a.last.put 0 c (r.requester + 1), raised := all.erase r }
  { s with fab := { s.fab with arbiters := s.fab.arbiters.put {} (arbKey row unit index) a' } }

/-- ARBITER_GRANT (R187, R189): the grant in progress is released and the next one is handed out; `raised` are the requests
raised since the grant before it. -/
def execArbiterGrant (row unit index : Nat) (raised : List GrantReq) (s : State) : Out :=
  onUnit (arbExists row unit index) (.next (s.grantNext row unit index raised))

/-! ### The lengthsman (R191, Table 6.12) -/

/-- The engine command that holds the grant ends with LENGTHSMAN: the bytes that it was to write are poison. -/
def State.biteCore (s : State) (c : Nat) (e : Engine) : State :=
  match (s.core c).queue e with
  | [] => s
  | p :: _ =>
    let part := s.coreOwner c
    let s := ((s.traffic c p).filter (·.2.2)).foldl (fun s e => s.poisonVA part e.1 e.2.1) s
    let s := s.updCore c (fun k => { k with poison := p.writes.foldl (fun m w => setBit m w true) k.poison })
    (s.unlatch c p.num).programFault c e p pfLengthsman

/-- A reach stream's current chunk is filled with poison (R120). -/
def State.biteStream (s : State) (slice n : Nat) : State :=
  let c := 8 * slice
  let st := s.stream c (n + 8)
  if !st.isOpen then s
  else
    let va := st.chunkVa st.filled
    let s := s.poisonVA st.part va (64 * st.chunk64)
    let s := s.setStream c (n + 8) { st with filled := st.filled + 1, poison := st.poison ++ [st.filled] }
    if st.ring.regionEn then
      s.updCore st.opener (fun k => { k with poison := setBit k.poison st.ring.region true })
    else s

/-- A hub-die DMA command ends with its whole destination poisoned. -/
def State.biteDma (s : State) (cmd : Nat) : State :=
  match listFind (fun (j : HostJob) => j.cmd == cmd) s.cpu.hostJobs, s.flight cmd with
  | some j, some f =>
    let part := s.actsFor f
    let port := s.pathPort f.path
    let pk := f.pk
    let n := hdBytes pk
    let dsts := if hdCopy pk then [hdNear pk]
      else (List.range (hdCount pk)).filterMap (fun k =>
        if hdGather pk then some (hdNear pk + k * n)
        else
          let e := s.hdEntry part pk j [] k
          if e.2.isEmpty then some e.1 else none)
    let s := dsts.foldl (fun s d => s.hdPut part port (hdDstHost pk) d ((extent d n).map (fun p => (p.2, none)))) s
    let s : State := { s with cpu := { s.cpu with hostJobs := s.cpu.hostJobs.filter (fun q => q.cmd != cmd) } }
    s.commit cmd stPartialFault [Config.biteWord cmd]
  | _, _ => s

/-- The holding requester is reset (Table 6.12). -/
def State.biteHolder (s : State) : GrantHolder → State
  | .core c e => s.biteCore c e
  | .stream k n => s.biteStream k n
  | .dma cmd => s.biteDma cmd
  | .quay e => s.quayBite e
  | .quayAdd e part va n => s.quayBiteAdd e part va n
  | .port p => s.startRetrain p 5
  | .keeper k => s.restartKeeper k 2
  | .other => s

/-- The unit that the record of a bite names. -/
def State.holderSource (s : State) : GrantHolder → Nat × Nat
  | .core c _ => (srcCore, s.physCore c)
  | .stream k _ => (srcReach, k / 2)
  | .quay e | .quayAdd e _ _ _ => (srcQuay, e)
  | .port p => (srcPort, p)
  | .keeper k => (srcKeeper, k)
  | .dma _ | .other => (srcPackage, 0)

/-- A unit of the package. -/
def holderExists : GrantHolder → Bool
  | .core c _ => decide (c < 1536)
  | .stream k n => decide (k < 192 ∧ n < 16)
  | .quay e | .quayAdd e _ _ _ => decide (e < 28)
  | .port p => decide (p < 24)
  | .keeper k => decide (k < 8)
  | .dma _ | .other => true

/-- LENGTHSMAN (R191): a grant held past its limit is forced off; `holder` is the unit that holds it. -/
def execLengthsman (row unit index : Nat) (holder : GrantHolder) (s : State) : Out :=
  onUnit (arbExists row unit index && holderExists holder) (.next (
    let a := s.fab.arbiters.get {} (arbKey row unit index)
    match a.holder with
    | none => s
    | some r =>
      let held := s.sysTime - a.since
      if held ≤ a.limit then s
      else
        let s := { s with fab := { s.fab with arbiters := s.fab.arbiters.put {} (arbKey row unit index) { a with holder := none } } }
        let src := s.holderSource holder
        let s := s.record 0x0304 2 r.part src.1 src.2 row r.node held 0 (ownerAnd r.part)
        let s := if row ≤ 2 ∧ unit < 96 then s.updReach unit (fun x => { x with bites := sat32 (x.bites + 1) }) else s
        s.biteHolder holder))

/-! ### Die-to-die pairs (R177, R180 to R184) -/

/-- The dies that no pair joins to HD0 any more are retired (R177); at start-up a lost hub die keeps the package from
READY (R182). The routes are set anew first. -/
def State.dropUnreached (s : State) : State :=
  let s := s.reroute
  let m := s.reachedDies
  let s := if !bit m 7 && !s.pkg.ready && !s.pwr.fenced then s.record 0x0302 3 0xFF srcPackage 0 (andNot 0xFF m) 0 0 0 [0] else s
  (List.range 8).foldl (fun s d => if bit m d || (d ≥ 6 && !s.pkg.ready) then s else s.retireDie d) s

/-- DIE_LEVEL_MIN (R180): the lowest level of the pairs that have negotiated one. -/
def State.setDieLevel (s : State) : State :=
  let ls := ((List.range 11).filter (fun i => (s.pair i).active != 0)).map (fun i => (s.pair i).negLevel)
  { s with pkg := { s.pkg with dieLevelMin := ls.foldl min 1 } }

/-- A module leaves a pair for good under R180; a pair with no module left is DOWN (Table 6.8 steps 4 and 5). -/
def State.disableModule (s : State) (i m : Nat) : State :=
  let s := s.updPair i (fun p => { p with active := setBit p.active m false, disabled := setBit p.disabled m true })
  if (s.pair i).disabled % 256 = 255 then s.dropUnreached else s

/-- The PLI capability record of a die at level 1 with all four features (Table 6.7); `mods` are the modules of the pair that
trained on its side. -/
def pliRecord (die mods : Nat) : List Nat :=
  let w := 2 ^ 24 + die * 2 ^ 16 + (if die < 6 then 1 else 2) * 2 ^ 12 + 1
  [w, compl32 w, 15, mods]

/-- Each side of a module sends its record once the module has trained (R180). -/
def State.sendPli (s : State) (pair mod mods : Nat) : State :=
  let k := 16 * pair + 2 * mod
  { s with fab := { s.fab with
      pliSent := (s.fab.pliSent.put [] k (pliRecord (pairDies pair).1 mods)).put [] (k + 1) (pliRecord (pairDies pair).2 mods) } }

/-- A module that has trained takes its partner's record: the pair runs the lower level and the features of both. -/
def State.takePli (s : State) (pair mod : Nat) (words : List Nat) : State :=
  let p := s.pair pair
  let first := p.active == 0
  let level := min 1 (bits (words.getD 0 0) 3 0)
  let feats := 15 &&& words.getD 2 0
  s.updPair pair (fun p => { p with
    active := setBit p.active mod true,
    negLevel := if first then level else min p.negLevel level,
    features := if first then feats else p.features &&& feats })

/-- The modules `mods` of a pair have trained, with lanes repaired on the way; the sides exchange their records and the other
modules are disabled (R179, R180). -/
def State.linkPair (s : State) (i mods : Nat) : State :=
  let (t, s) := s.draw
  let s := s.updPair i (fun p => { p with
    active := 0, disabled := 255 - mods % 256, lanesRepaired := sat32 (p.lanesRepaired + Config.lanesRepaired i t) })
  (bitsSet mods 8).foldl (fun s m => (s.sendPli i m (mods % 256)).takePli i m (pliRecord (pairDies i).2 (mods % 256))) s

/-- PLI_CAP_RECORD (R180, R181): module `mod` of a pair receives its partner's record. Both own values are level 1 and all
four features. -/
def execPliCapRecord (pair mod : Nat) (words : List Nat) (s : State) : Out :=
  onUnit (decide (pair < 11 ∧ mod < 8)) (.next (
    let w := fun i => words.getD i 0
    if bit (s.pair pair).disabled mod then s
    else if !pair32 (w 0) (w 1) then s.disableModule pair mod
    else
      let s := ((s.sendPli pair mod (setBit (s.pair pair).active mod true)).takePli pair mod words).setDieLevel
      if (s.pair pair).up then s.reroute else s.dropUnreached))

/-- PLI_CAP_TIMEOUT (R180): no record has come for a module within 1 ms. -/
def execPliCapTimeout (pair mod : Nat) (s : State) : Out :=
  onUnit (decide (pair < 11 ∧ mod < 8)) (.next (
    if bit (s.pair pair).active mod || bit (s.pair pair).disabled mod then s else s.disableModule pair mod))

/-- MODULE_FAIL (R184): the module carries no packet from now on (R183), the packets on their way stay in their order, and the
pair restripes, or goes DOWN with its last module (R177). -/
def execModuleFail (pair mod : Nat) (s : State) : Out :=
  onUnit (decide (pair < 11 ∧ mod < 8)) (.next (
    if !bit (s.pair pair).active mod then s
    else
      let s := s.updPair pair (fun p => { p with active := setBit p.active mod false })
      let left := (s.pair pair).active
      let d := pairDies pair
      let s := if left = 0 then s else s.updPair pair (fun p => { p with restripes := sat32 (p.restripes + 1) })
      let s := s.record 0x0303 1 0xFF srcPair (8 * d.1 + d.2) mod left 0 0
      if left = 0 then s.dropUnreached else s))

end Sys2Proof.Machine
end

