-- ==== Sys2Proof/Machine/Links.lean ====
section
/-! DEFINITION. Canal links (10): PORT_CTL and ROUTE_LOAD, flits, packets, control flits, retrains, light, the
towpath, heartbeats, parking, sleep, system time. -/

namespace Sys2Proof.Machine

/-- A port of the package. -/
def isPort (p : Nat) : Bool := decide (p < 24)

/-- The three conditions of R343 hold. -/
def Port.mayOpen (p : Port) : Bool :=
  match p.ownHb, p.partner with
  | some (v, l), some q => p.hbRx && v && q.valid && l == q.level &&
      (!bit p.expect 31 || (bits p.expect 24 20 == q.port && bits p.expect 19 0 == q.pkg))
  | _, _ => false

/-- The data virtual channels of a port that is UP are open while the conditions of R343 hold. -/
def Port.judge (p : Port) : Port := { p with dataOpen := (p.state == .up || p.dataOpen) && p.mayOpen }

/-! ### PORT_CTL (R356) -/

/-- The ports that PORT_MASK selects. -/
def pcPorts (pk : Packet) : List Nat := bitsSet (pk.f 0x10 23 0) 24

/-- Why PORT_CTL is refused. -/
def State.portCtlCause (s : State) (pk : Packet) : Option Nat :=
  let act := pk.f 0x14 2 0
  if act > 5 ∨ (pk.b 0x18 31 = true ∧ pk.f 0x18 3 0 = 0) ∨ (pk.b 0x18 29 = true ∧ pk.f 0x18 23 16 = 0) then some 1
  else if (act == 2 || act == 4) && s.time.enable && !s.time.root && (pcPorts pk).contains s.time.parentPort then some 2
  else if (pcPorts pk).any (fun p => !bit s.pkg.cpOk p) then some 3
  else none

/-- Applies the settings whose SET bit is 1. -/
def State.portSettings (s : State) (pk : Packet) : State :=
  (pcPorts pk).foldl (fun s p => s.updPort p (fun x => { x with
    replayLimit := if pk.b 0x18 31 then pk.f 0x18 3 0 else x.replayLimit,
    sleepIdle := if pk.b 0x18 30 then pk.f 0x18 15 8 else x.sleepIdle,
    ueLimit := if pk.b 0x18 29 then pk.f 0x18 23 16 else x.ueLimit,
    expect := if pk.b 0x18 28 then pk.w 0x1C else x.expect }.judge)) s

/-- PORT_CTL: settings, then the ACTION on every selected port. -/
def portCtl (path : Path) (pk : Packet) (kind : Nat → Bool) (wakes : Bool) (s : State)
    (act : State → Nat → State) : Out :=
  beginOn path pk (fun pk => pk.opcode == 0x041 && kind (pk.f 0x14 2 0))
    { doms := fun s => if wakes && (s.portCtlCause pk).isNone then ((pcPorts pk).map portDomain).eraseDups else [] } s
    (fun f s => match s.portCtlCause pk with
      | some c => s.commit f.id stLinkRefused [c]
      | none => ((pcPorts pk).foldl act (s.portSettings pk)).done f)

/-- PORT_CTL with ACTION 0 (or a reserved one, which is refused). -/
def execPortCtl (path : Path) (pk : Packet) (s : State) : Out :=
  portCtl path pk (fun a => a == 0 || decide (a > 5)) false s (fun s _ => s)

/-- A port starts to train. -/
def State.train (s : State) (port : Nat) : State :=
  s.updPort port (fun p => { p with
    state := .training, retrainFails := 0, attemptAt := s.clk, parkAt := none, noFail := false, hbCount := 0 })

/-- PORT_CTL ENABLE: a DISABLED or DOWN port trains (R324, R356). -/
def execPortEnable (path : Path) (pk : Packet) (s : State) : Out :=
  portCtl path pk (· == 1) true s (fun s p =>
    if (s.port p).state = .disabled ∨ (s.port p).state = .down then s.train p else s)

/-- PORT_CTL DISABLE: lasers off; what the replay buffers hold is sent again elsewhere. -/
def execPortDisable (path : Path) (pk : Packet) (s : State) : Out :=
  portCtl path pk (· == 2) false s (fun s p =>
    ((s.updPort p (fun x => { x with state := .disabled, dataOpen := false, waking := false, parkAt := none })).moveMsgs p).releaseBuffers p)

/-- PORT_CTL RETRAIN (R321, R324). -/
def execPortRetrain (path : Path) (pk : Packet) (s : State) : Out :=
  portCtl path pk (· == 3) true s (fun s p =>
    match (s.port p).state with
    | .up | .sleep => s.startRetrain p 6
    | .down => s.train p
    | _ => s)

/-- A port is PARKED: lasers off. -/
def State.setParked (s : State) (port : Nat) : State :=
  (s.updPort port (fun p => { p with state := .parked, dataOpen := false, parkAt := none, waking := false })).releaseBuffers port

/-- PORT_CTL PARK commands whose ports are all parked complete. -/
def State.checkParks (s : State) : State :=
  let waits := fun (s : State) (ps : List Nat) => ps.any (fun p => (s.port p).parkAt.isSome)
  let done := s.link.parks.filter (fun e => !waits s e.2)
  let s := { s with link := { s.link with parks := s.link.parks.filter (fun e => waits s e.2) } }
  done.foldl (fun s e => s.commit e.1 stDone []) s

/-- PORT_CTL PARK (R346): PARK goes out and the port waits for the partner's or 10 µs; a port that is not UP is parked
at once. -/
def execPortPark (path : Path) (pk : Packet) (s : State) : Out :=
  beginOn path pk (ofOpField 0x041 0x14 2 0 4) {} s (fun f s =>
    match s.portCtlCause pk with
    | some c => s.commit f.id stLinkRefused [c]
    | none =>
      let s := (pcPorts pk).foldl (fun s p =>
        if (s.port p).state = .up then
          (s.sendLocal p 0x04 1 []).updPort p (fun x => { x with parkAt := some s.clk })
        else s.setParked p) (s.portSettings pk)
      ({ s with link := { s.link with parks := s.link.parks ++ [(f.id, pcPorts pk)] } } : State).checkParks)

/-- PORT_CTL UNPARK (R346). -/
def execPortUnpark (path : Path) (pk : Packet) (s : State) : Out :=
  portCtl path pk (· == 5) true s (fun s p => if (s.port p).state = .parked then s.train p else s)

/-! ### ROUTE_LOAD (R341) -/

/-- The table's bytes, or the status that reading it ends with. -/
def State.routeTable (s : State) (pk : Packet) (host : Option (List Byte)) (ue : List Nat) : Except Nat (List Byte) :=
  let n := 8 * pk.f 0x18 14 0
  if pk.b 0x1C 0 then
    match host with
    | some b => if b.length = n then .ok b else .error stLinkRefused
    | none => .error stLinkRefused
  else if s.extentAsleep 0 (pk.d 0x10) n then .error stDomainAsleep
  else if (s.extentFault 0 (pk.d 0x10) n false).isSome then .error stNotOwner
  else if s.extentPoison ue 0 (pk.d 0x10) n then .error stLinkRefused
  else .ok (s.readVA 0 (pk.d 0x10) n)

/-- Rebuilds a chamber's idle bank and flips it. -/
def RouteChamber.rebuild (c : RouteChamber) (es : List (Nat × Nat)) : RouteChamber :=
  let t : Tab (Nat × Nat) := Tab.putAll noRoute [] 0 es
  { gen := wrap32 (c.gen + 1), active := 1 - c.active, bank0 := if c.active = 0 then c.bank0 else t,
    bank1 := if c.active = 0 then t else c.bank1, copy := Tab.putAll 0 [] 0 (es.map (·.1)) }

/-- The read of the table is charged to partition 0. -/
def State.chargeRoutes (s : State) (path : Path) (pk : Packet) : State :=
  let n := 8 * pk.f 0x18 14 0
  if pk.b 0x1C 0 then s.charge 0 3 n else s.chargeExtent 0 (s.pathDie path) (pk.d 0x10) n false

/-- ROUTE_LOAD. `host` is what a TABLE_HOST read returns. -/
def execRouteLoad (path : Path) (pk : Packet) (host : Option (List Byte)) (ue : List Nat) (s : State) : Out :=
  beginOn path pk (ofOp 0x040) { res := fun s => if pk.b 0x1C 0 then [3] else s.extentRes 0 (s.pathDie path) (pk.d 0x10) 1 } s (fun f s =>
    let n := pk.f 0x18 14 0
    if n = 0 ∨ n > 16384 then s.commit f.id stLinkRefused [1]
    else match s.routeTable pk host ue with
      | .error st => (if pk.b 0x1C 0 then s else s.notePairs 0 [(pk.d 0x10, 8 * n)]).commit f.id st (if st = stLinkRefused then [1] else [])
      | .ok b =>
        let s := s.chargeRoutes path pk
        let es := (List.range n).map (fun i => (ofBytes ((b.drop (8 * i)).take 4), ofBytes ((b.drop (8 * i + 4)).take 4)))
        if es.any (fun e => !pair32 e.1 e.2) then s.failWith f stPairFault
        else
          let s := { s with link := { s.link with hub0 := s.link.hub0.rebuild es, hub1 := s.link.hub1.rebuild es } }
          s.done f [s.link.hub0.gen, s.link.hub1.gen])

/-! ### Flits (R306, R307, R331) -/

/-- Uncorrectable codewords seen by a port that is not overloaded count toward UE_LIMIT (R320, R326). -/
def Port.noteCodewords (p : Port) (now ue corrected : Nat) : Port :=
  let times := (List.replicate ue now ++ p.ueTimes).filter (fun t => decide (now < t + 1000000))
  { p with fecCorrected := sat32 (p.fecCorrected + corrected), fecUncorrectable := sat32 (p.fecUncorrectable + ue),
           ueTimes := if p.overload = 0 then times else p.ueTimes }

/-- FLIT_RECEIVE (R307): the 256 bytes of a flit after FEC; `ue` of its codewords are uncorrectable and `corrected`
symbols were corrected. -/
def execFlitReceive (port : Nat) (flit : List Byte) (ue corrected : Nat) (s : State) : Out :=
  onUnit (isPort port && decide (flit.length = 256)) (.next (
    if (s.port port).state != .up then s
    else
      let w := ofBytes (flit.take 4)
      let bad := ue != 0 || bits w 7 0 != flitChk w
      s.updPort port (fun p =>
        let p := p.noteCodewords s.clk ue corrected
        if bits w 31 30 = 1 then
          if bad then { p with discarding := true }
          else { p with discarding := p.discarding && bits w 29 24 == 0x3F }
        else p)))

/-- The body of a control flit (Table 10.5). -/
def Port.control (p : Port) : List Byte :=
  let freed := fun i => p.rxFreed.getD i 0 % 2 ^ 16
  let head := toBytes (wrap32 (p.expLseq + 2 ^ 32 - 1)) 4 ++ toBytes p.expLseq 4 ++
    toBytes (b2n p.resyncDue * 4 + b2n p.tpNackDue * 2 + b2n p.nackDue) 4 ++
    toBytes (p.tpExp % 2 ^ 16 * 2 ^ 16 + p.tpFreed) 4 ++ (List.range 6).flatMap (fun i => toBytes (freed i) 2)
  let body := head ++ List.replicate (248 - head.length) 0
  body ++ toBytes (crc32 body) 4

/-- The body of a towpath flit (Table 10.8). -/
def Port.towpathBody (p : Port) (tseq : Nat) (ms : List TMsg) : List Byte :=
  let body := toBytes (tseq % 2 ^ 16) 2 ++ toBytes ((p.tpExp + 2 ^ 16 - 1) % 2 ^ 16) 2 ++ toBytes 0 4 ++
    (List.range 3).flatMap (fun i => match ms[i]? with
      | some m => m.slot
      | none => List.replicate 80 0)
  body ++ toBytes (crc32 body) 4

/-- A packet may begin: credits of its class or shared ones, and room in the replay buffer (R315, R317). -/
def Port.mayStart (p : Port) (k : CPacket) : Bool :=
  let c := creditCost k
  (decide (c ≤ p.credits.getD (creditClass k) 0) || decide (c ≤ p.credits.getD 5 0)) &&
    decide (((p.replay.map (fun q => 36 + q.payload.length)).foldl (· + ·) 0) + 36 + k.payload.length ≤ 262144)

/-- The packet that goes next: of those that may begin, the first of the highest class (R187, R339). -/
def Port.nextPacket (p : Port) : Option CPacket :=
  let ks := p.txQueue.filter p.mayStart
  (listFind (fun c => ks.any (fun k => k.arb == c)) (List.range 4)).bind (fun c => listFind (fun k => k.arb == c) ks)

/-- Begins packets until a flit body is full: one to be replayed, else a new one. -/
def Port.fillBody : Nat → Port → Port
  | 0, p => p
  | n + 1, p =>
    if p.txBytes.length ≥ 252 then p
    else match p.resendFrom with
      | some l =>
        match listFind (fun k => !seqLt k.lseq l) p.replay with
        | some k =>
          Port.fillBody n { p with
            txFirst := p.txFirst.orElse (fun _ => some p.txBytes.length), txBytes := p.txBytes ++ k.wire,
            replayed := sat32 (p.replayed + 1), resendFrom := some (wrap32 (k.lseq + 1)) }
        | none => Port.fillBody n { p with resendFrom := none }
      | none =>
        if !p.dataOpen then p
        else match p.nextPacket with
          | none => p
          | some k =>
            let c := creditCost k
            let i := if c ≤ p.credits.getD (creditClass k) 0 then creditClass k else 5
            let k' := { k with lseq := p.nextLseq, ingress := none }
            Port.fillBody n { p with
              txFirst := p.txFirst.orElse (fun _ => some p.txBytes.length), txBytes := p.txBytes ++ k'.wire,
              txOwed := p.txOwed ++ (match k.ingress with
                | some (i, cls) => [(p.txBytes.length + k'.wire.length, i, cls, c)]
                | none => []),
              txQueue := delFirst (fun q => q == k) p.txQueue, replay := p.replay ++ [k'], credits := subAt p.credits i c,
              nextLseq := wrap32 (p.nextLseq + 1), bytesTx := sat64 (p.bytesTx + k.payload.length) }

/-- The port after a flit boundary (R331). -/
def Port.sendFlit (p : Port) (now : Nat) : Port :=
  if p.ctlDue then
    { p with
      lastTx := .control p.control, ctlDue := false, lastCtl := now, nackDue := false, tpNackDue := false, resyncDue := false,
      tpFreed := 0, rxHeld := (List.range 6).map (fun i => p.rxHeld.getD i 0 - p.rxFreed.getD i 0), rxFreed := [0, 0, 0, 0, 0, 0] }
  else
    let again := p.tpResendFrom.bind (fun q => listFind (fun e => !seqLt (e.1 * 2 ^ 16) (q * 2 ^ 16)) p.tpReplay)
    match again with
    | some e => { p with lastTx := .towpath (p.towpathBody e.1 e.2), tpResendFrom := some ((e.1 + 1) % 2 ^ 16), lastActive := now }
    | none =>
      let p := { p with tpResendFrom := none }
      let ms := p.tpQueue.take (min 3 p.tpCredits)
      if !ms.isEmpty && decide (p.tpReplay.length < 16) then
        { p with
          lastTx := .towpath (p.towpathBody p.nextTseq ms), tpQueue := p.tpQueue.drop ms.length,
          tpCredits := p.tpCredits - ms.length, tpReplay := p.tpReplay ++ [(p.nextTseq, ms)],
          nextTseq := (p.nextTseq + 1) % 2 ^ 16,
          lastActive := if ms.all (fun m => m.ttype == 1) then p.lastActive else now }
      else
        let p := Port.fillBody 253 p
        if p.txBytes.isEmpty then { p with lastTx := .idle }
        else
          let rest := p.txBytes.drop 252
          let first := match p.txFirst with
            | some o => if o < 252 then o / 4 else 0x3F
            | none => 0x3F
          { p with
            lastTx := .data first (p.txBytes.take 252), txBytes := rest, lastActive := now,
            txOwed := p.txOwed.map (fun o => (o.1 - 252, o.2)),
            txFirst := match p.txFirst with
              | some o => if o < 252 then none else some (o - 252)
              | none => none }

/-- Transit packets whose last byte has gone into a flit have left their ingress buffers (R315). -/
def State.freeSent (s : State) (port : Nat) : State :=
  let gone := (s.port port).txOwed.filter (fun o => o.1 == 0)
  let s := s.updPort port (fun p => { p with txOwed := p.txOwed.filter (fun o => o.1 != 0) })
  gone.foldl (fun s o => s.freeBuffer o.2.1 o.2.2.1 o.2.2.2) s

/-- Both sides sleep: T_SLEEP is recorded, sequence and credit state stay, heartbeats stop (R347). -/
def State.enterSleep (s : State) (port : Nat) : State :=
  s.updPort port (fun p => { p with state := .sleep, tSleep := s.sysTime, sleepReq := false, sleepAck := false, waking := false,
                                    tpQueue := p.tpQueue.filter (fun m => m.dst != linkLocal) })

/-- FLIT_SEND (R331): the port reaches a flit boundary. -/
def execFlitSend (port : Nat) (s : State) : Out :=
  onUnit (isPort port) (.next (
    if (s.port port).state != .up || s.link.lasersOff then s
    else
      let s := s.releaseHeld port
      let s := (s.updPort port (fun p => p.sendFlit s.clk)).freeSent port
      let p := s.port port
      if p.sleepAck && !p.tpQueue.any (fun m => m.ttype == 3) then s.enterSleep port else s))

/-! ### Canal packets (R310 to R313, R318, R336 to R338) -/

/-- A gap in LSEQ: one NACK, held back while an overload detector is asserted (R318, R326). -/
def Port.noteGap (p : Port) (now : Nat) : Port :=
  if p.gap then p
  else if p.overload ≠ 0 then { p with gap := true }
  else { p with gap := true, nackDue := true, ctlDue := true, nackAt := now }

/-- The buffer class that the partner took credits from: the packet's own while it lasts, else the shared one. -/
def Port.bufferClass (p : Port) (k : CPacket) : Nat :=
  if p.rxHeld.getD (creditClass k) 0 + creditCost k ≤ 64 then creditClass k else 5
/-- A packet takes its place in the receive buffer (R314). -/
def Port.takeBuffer (p : Port) (k : CPacket) : Port := { p with rxHeld := addAt p.rxHeld (p.bufferClass k) (creditCost k) }

/-- A packet at its destination (R309, R313): delivered to its owner, or discarded with a record. -/
def State.deliver (s : State) (port : Nat) (k : CPacket) : State :=
  let s := s.freePacket k
  if k.level ≠ s.pkg.runLevel then s.record 0x060A 2 0xFF srcPort port k.dstPart k.kind k.srcPkg 0 [0]
  else if kindOvc k.kind ≠ some k.ovc then s.record 0x0609 1 0xFF srcPort port k.kind k.ovc k.srcPkg 0
  else { s with link := { s.link with inbox := s.link.inbox ++ [{ k with ingress := none }] } }

/-- A packet that passes through this package (R311, R336 to R338). -/
def State.forward (s : State) (port : Nat) (k : CPacket) : State :=
  let drop := fun (s : State) => (s.freePacket k).updPort port (fun p => { p with routeDrops := sat32 (p.routeDrops + 1) })
  match s.lookup (port / 12) k.dstPkg k.dl s.dataUsable (fun _ => true) with
  | .here => s.deliver port k
  | .out q dl =>
    if k.hops ≤ 1 then drop s
    else s.updPort q (fun p => { p with
      txQueue := p.txQueue ++ [{ k with vc := 3, dl := dl, hops := k.hops - 1, lseq := 0 }], lastActive := s.clk })
  | .pairFault => drop (s.routePairFault (port / 12) k.dstPkg)
  | _ => drop s

/-- The egress of a transit packet whose CRC-32 fails sends it stomped (R337). -/
def State.stomp (s : State) (port : Nat) (k : CPacket) : State :=
  match s.lookup (port / 12) k.dstPkg k.dl s.dataUsable (fun _ => true) with
  | .out q _ => if k.hops ≤ 1 then s else s.updPort q (fun p => { p with stomped := sat32 (p.stomped + 1) })
  | _ => s

/-- CANAL_PACKET (R318): the bytes of a packet as they arrive on a port; they are discarded after a discarded DATA flit (R307). -/
def execCanalPacket (port : Nat) (bytes : List Byte) (s : State) : Out :=
  onUnit (isPort port) (.next (
    let p := s.port port
    if p.state != .up || !p.dataOpen || p.discarding then s
    else
      let s := s.updPort port (fun p => { p with lastActive := s.clk })
      let bad := s.updPort port (fun p => { (p.noteGap s.clk) with crcErrors := sat32 (p.crcErrors + 1) })
      if !hcrcOk bytes then bad.updPort port (fun p => { p with discarding := true })
      else
        let k := CPacket.ofBytes bytes
        let (stored, crc) := packetCrc bytes
        if k.lseq ≠ p.expLseq then
          if seqLt p.expLseq k.lseq then s.updPort port (fun p => p.noteGap s.clk) else s
        else if bytes.length ≠ 36 + bits (ofBytes (bytes.take 4)) 31 19 then bad
        else if stored = compl32 crc then s.updPort port (fun p => { p with stomped := sat32 (p.stomped + 1) })
        else if stored ≠ crc then bad.stomp port k
        else
          let s := s.updPort port (fun p => { (p.takeBuffer k) with
            expLseq := wrap32 (p.expLseq + 1), gap := false, bytesRx := sat64 (p.bytesRx + k.payload.length) })
          s.forward port { k with ingress := some (port, p.bufferClass k) }))

/-! ### Control flits (R315 to R319) -/

/-- Counts a replay that begins at `l`; at REPLAY_LIMIT the port retrains (R319). -/
def State.countReplay (s : State) (port l : Nat) : State :=
  let s := s.updPort port (fun p => { p with
    replays := if p.overload ≠ 0 then p.replays else if p.replayAt = l then p.replays + 1 else 1, replayAt := l })
  let p := s.port port
  if p.replays ≥ p.replayLimit then s.startRetrain port 1 else s

/-- CONTROL_FLIT (R316): the 252-byte body of a control flit. -/
def execControlFlit (port : Nat) (body : List Byte) (s : State) : Out :=
  onUnit (isPort port && decide (body.length = 252)) (.next (
    let w := fun o => ofBytes ((body.drop o).take 4)
    if (s.port port).state != .up then s
    else if ofBytes (body.drop 248) ≠ crc32 (body.take 248) then
      s.updPort port (fun p => { p with crcErrors := sat32 (p.crcErrors + 1) })
    else
      let ack := w 0
      let exp := w 4
      let fl := w 8
      let tpExp := bits (w 0xC) 31 16
      let freed := fun (i : Nat) => ofBytes ((body.drop (16 + 2 * i)).take 2)
      let s := if bit fl 2 then s.updPort port (fun p => { p with expLseq := 0, tpExp := 0 }) else s
      let s := s.updPort port (fun p =>
        let passed := seqLt p.replayAt ack || p.replayAt == ack
        { p with
          replay := p.replay.filter (fun k => seqLt ack k.lseq),
          replays := if passed then 0 else p.replays,
          credits := (List.range 6).map (fun i => p.credits.getD i 0 + freed i),
          tpCredits := min 16 (p.tpCredits + bits (w 0xC) 15 0),
          tpReplay := p.tpReplay.filter (fun e => !seqLt (e.1 * 2 ^ 16) (tpExp * 2 ^ 16)),
          tpResendFrom := if bit fl 1 then some tpExp else p.tpResendFrom })
      let s := if bit fl 1 then s.countReplay port (tpExp * 2 ^ 32) else s
      if bit fl 0 && (s.port port).state == .up then
        ((s.dropBytes port).updPort port (fun p => { p with resendFrom := some exp })).countReplay port exp
      else s))

/-- CONTROL_FLIT_DUE (R316): 1 µs has passed since the last control flit. -/
def execControlFlitDue (port : Nat) (s : State) : Out :=
  onUnit (isPort port) (.next (
    if (s.port port).state == .up && decide ((s.port port).lastCtl + 1000 ≤ s.clk) then
      s.updPort port (fun p => { p with ctlDue := true })
    else s))

/-- NACK_REPEAT (R318): EXP_LSEQ has not arrived within twice the round trip. -/
def execNackRepeat (port : Nat) (s : State) : Out :=
  onUnit (isPort port) (.next (
    let p := s.port port
    if p.state == .up && p.gap && p.overload == 0 && decide (p.nackAt + 2 * p.rttNs ≤ s.clk) then
      s.updPort port (fun p => { p with nackDue := true, ctlDue := true, nackAt := s.clk })
    else s))

/-! ### Retrains (R320 to R324) -/

/-- CODEWORD_LIMIT (R320). -/
def execCodewordLimit (port : Nat) (s : State) : Out :=
  onUnit (isPort port) (.next (
    let p := s.port port
    let n := (p.ueTimes.filter (fun t => decide (s.clk < t + 1000000))).length
    if p.state == .up && decide (n > p.ueLimit) then
      (s.startRetrain port 2).updPort port (fun p => { p with ueTimes := [] })
    else s))

/-- RETRAIN_START (R321): a cause of R321, or the partner's training pattern, starts a retrain. -/
def execRetrainStart (port cause : Nat) (s : State) : Out :=
  onUnit (isPort port && decide (1 ≤ cause ∧ cause ≤ 6)) (.next (
    if (s.port port).state = .up ∨ (s.port port).state = .sleep then s.startRetrain port cause else s))

/-- The port is UP (Table 10.6 steps 3 to 5): it adopts the partner's credits and replays from its EXP_LSEQ; after
released buffers both sides restart their numbers. -/
def State.portUp (s : State) (port rtt : Nat) (credits : List Nat) (exp tpExp : Nat) : State :=
  (s.dropBytes port).updPort port (fun p =>
    let p := { p with
      state := .up, retrainFails := 0, replays := 0, peerLost := false, lanesLock := 0xFF, rttNs := rtt, noFail := false,
      credits := credits, rxHeld := [0, 0, 0, 0, 0, 0], rxFreed := [0, 0, 0, 0, 0, 0], lastHb := s.clk, hbSentAt := s.clk,
      lastActive := s.clk, gap := false, tpGap := false, ctlDue := true, dropLogged := false, waking := false, sleepReq := false,
      dataOpen := p.dataOpen && !p.released, hbRx := p.hbRx && !p.released }
    if p.released then
      { p with released := false, resyncDue := true, nextLseq := 0, nextTseq := 0, expLseq := 0, tpExp := 0,
               tpCredits := 16, resendFrom := none, tpResendFrom := none }
    else { p with resendFrom := if p.replay.isEmpty then none else some exp,
                  tpResendFrom := if p.tpReplay.isEmpty then none else some tpExp })

/-- RETRAIN_DONE (R321): a training or retraining port is UP within 1.5 ms of the attempt's start. `rtt` is the round
trip measured, `credits` the partner's free credits, `exp` and `tpExp` what it expects next. -/
def execRetrainDone (port rtt : Nat) (credits : List Nat) (exp tpExp : Nat) (s : State) : Out :=
  onUnit (isPort port && decide (credits.length = 6)) (.next (
    let p := s.port port
    if p.lanesLight ≠ 0xFF then s
    else if p.state = .training then
      (s.updPort port (fun p => { p with released := true, hbCount := 0, ownHb := none })).portUp port rtt credits exp tpExp
    else if p.state = .retrain ∧ s.clk ≤ p.attemptAt + 1500000 then
      (s.updPort port (fun p => { p with hbCount := 0 })).portUp port rtt credits exp tpExp
    else s))

/-- RETRAIN_ATTEMPT_FAIL (R323, R324): the attempt has not finished in 1.5 ms. -/
def execRetrainAttemptFail (port : Nat) (s : State) : Out :=
  onUnit (isPort port) (.next (
    let p := s.port port
    if !(p.state == .retrain && decide (p.attemptAt + 1500000 ≤ s.clk)) then s
    else
      let s := s.releaseBuffers port
      let s := s.updPort port (fun p => { p with retrainFails := if p.noFail then p.retrainFails else p.retrainFails + 1 })
      if (s.port port).retrainFails ≥ 3 then
        ((s.portDown port).moveQueue port true).record 0x0602 2 0xFF srcPort port 3 ((p.partner.map (·.pkg)).getD 0) 0 0 [0]
      else s.startRetrain port p.retrainCause))

/-- LOSS_OF_LOCK (R321): receive lanes lose codeword lock. -/
def execLossOfLock (port lanes : Nat) (s : State) : Out :=
  onUnit (isPort port && decide (0 < lanes ∧ lanes < 256)) (.next (
    let s := s.updPort port (fun p => { p with lanesLock := andNot p.lanesLock lanes })
    if (s.port port).state = .up then s.startRetrain port 4 else s))

/-! ### Light overload (R325 to R327) -/

/-- OVERLOAD_ASSERT (R325). -/
def execOverloadAssert (port lane : Nat) (s : State) : Out :=
  onUnit (isPort port && decide (lane < 8)) (.next (
    if (s.port port).state != .up then s
    else s.updPort port (fun p => { p with
      overload := setBit p.overload lane true, overloads := if p.overload = 0 then sat32 (p.overloads + 1) else p.overloads,
      overloadAt := if p.overload = 0 then s.clk else p.overloadAt })))

/-- OVERLOAD_DEASSERT (R326): a lane's detector clears; after the last one, one NACK, and one TP_NACK where needed. -/
def execOverloadDeassert (port lane : Nat) (s : State) : Out :=
  onUnit (isPort port && decide (lane < 8)) (.next (
    let p := s.port port
    if !bit p.overload lane then s
    else
      let m := setBit p.overload lane false
      s.updPort port (fun p => if m ≠ 0 then { p with overload := m } else
        { p with overload := 0, gap := true, nackDue := true, tpNackDue := p.tpGap, ctlDue := true, nackAt := s.clk })))

/-- OVERLOAD_TIMEOUT (R327): a detector has been asserted for 10 µs. -/
def execOverloadTimeout (port : Nat) (s : State) : Out :=
  onUnit (isPort port) (.next (
    let p := s.port port
    if p.overload ≠ 0 ∧ p.overloadAt + 10000 ≤ s.clk ∧ p.state = .up then
      (s.record 0x0604 1 0xFF srcPort port p.overload (s.clk - p.overloadAt) 0 0).startRetrain port 4
    else s))

/-! ### The towpath (R328 to R334) -/

/-- TOWPATH_FLIT (R328): the 252-byte body of a towpath flit. -/
def execTowpathFlit (port : Nat) (body : List Byte) (s : State) : Out :=
  onUnit (isPort port && decide (body.length = 252)) (.next (
    let p := s.port port
    if p.state != .up then s
    else
      let ms := [8, 0x58, 0xA8].filterMap (fun o => TMsg.ofSlot ((body.drop o).take 80))
      let tseq := ofBytes (body.take 2)
      let lost := fun (p : Port) => if p.tpGap then p
        else if p.overload ≠ 0 then { p with tpGap := true }
        else { p with tpGap := true, tpNackDue := true, ctlDue := true }
      if ofBytes (body.drop 248) ≠ crc32 (body.take 248) then
        s.updPort port (fun p => { (lost p) with crcErrors := sat32 (p.crcErrors + 1) })
      else if tseq ≠ p.tpExp then
        if seqLt (p.tpExp * 2 ^ 16) (tseq * 2 ^ 16) then s.updPort port lost else s
      else
        let ack := ofBytes ((body.drop 2).take 2)
        s.updPort port (fun p => { p with
          tpExp := (p.tpExp + 1) % 2 ^ 16, tpGap := false, rxMsgs := p.rxMsgs ++ ms, ctlDue := true,
          tpReplay := p.tpReplay.filter (fun e => seqLt (ack * 2 ^ 16) (e.1 * 2 ^ 16)),
          lastActive := if ms.all (fun m => m.ttype == 1) then p.lastActive else s.clk })))

/-- TTYPE is one of Table 10.10. -/
def ttypeKnown (t : Nat) : Bool := [1, 2, 3, 4, 0x10, 0x11, 0x12, 0x20, 0x21, 0x30, 0x31].contains t

/-- Discards a towpath message with its record. -/
def State.tpDiscard (s : State) (port : Nat) (m : TMsg) : State :=
  s.record 0x060D 1 0xFF srcPort port m.ttype m.src m.dst 0

/-- TOWPATH_MESSAGE (R330, R333): the oldest received message of a port leaves its slot: consumed here, forwarded or
discarded. A message of another level is discarded (R14), but for a HEARTBEAT, by which the levels are compared (R343). A PIPE or COLL_CTL message of a reserved subtype is discarded
by its receiver (R371, R419), and so is a PIPE message, a barge descriptor too, whose own LEVEL is another (R14,
Table 11.3; DEDUCED: with the record of a discarded message). A STATUS or an EVENT
is for a fabric manager: nothing in this package waits for one. -/
def execTowpathMessage (port : Nat) (s : State) : Out :=
  onUnit (isPort port) (.next (
    match (s.port port).rxMsgs with
    | [] => s
    | m :: rest =>
      let s := s.updPort port (fun p => { p with rxMsgs := rest, tpFreed := p.tpFreed + 1, ctlDue := true })
      let csub := bits (m.words.getD 0 0) 31 24
      let take := if m.ttype = 0x20 ∧ (m.psub = 0 ∨ 0x0A < m.psub ∨ s.otherLevel (bits (m.words.getD 0 0) 15 12)) then s.tpDiscard port m
        else if m.ttype = 0x21 ∧ (csub = 0 ∨ 7 < csub) then s.tpDiscard port m
        else if m.ttype = 0x11 ∨ m.ttype = 0x31 then s
        else { s with link := { s.link with msgs := s.link.msgs ++ [(port, m)] } }
      let mine := if s.otherLevel m.level then s.tpDiscard port m else take
      if !ttypeKnown m.ttype then s.tpDiscard port m
      else if m.dst = linkLocal then (if m.ttype = 1 then take else mine)
      else match s.lookup (port / 12) m.dst false s.tpUsable (fun _ => true) with
        | .here => mine
        | .out q _ => if m.hopsLeft ≤ 1 then s.tpDiscard port m else s.queueOn q { m with hopsLeft := m.hopsLeft - 1 }
        | .pairFault => (s.routePairFault (port / 12) m.dst).tpDiscard port m
        | _ => s.tpDiscard port m))

/-- Takes the first delivered message of a port and type. -/
def State.takeMsg (s : State) (port ttype : Nat) : Option (TMsg × State) :=
  (listFind (fun e => e.1 == port && e.2.ttype == ttype) s.link.msgs).map (fun e =>
    (e.2, { s with link := { s.link with msgs := delFirst (fun x => x == e) s.link.msgs } }))

/-! ### Heartbeats and partners (R342 to R345) -/

/-- HEARTBEAT_SEND (R342): every 4 µs. -/
def execHeartbeatSend (port : Nat) (s : State) : Out :=
  onUnit (isPort port) (.next (
    let p := s.port port
    if p.state == .up && (p.hbCount == 0 || decide (p.hbSentAt + 4000 ≤ s.clk)) then
      let w := b2n s.pkg.idValid * 2 ^ 31 + s.pkg.runLevel * 2 ^ 25 + port * 2 ^ 20 + s.pkg.packageId
      let s := s.updPort port (fun p => { p with
        hbCount := wrap32 (p.hbCount + 1), hbSentAt := s.clk, ownHb := some (s.pkg.idValid, s.pkg.runLevel) }.judge)
      s.sendLocal port 0x01 0 [w, compl32 w, (s.port port).hbCount, 0]
    else s))

/-- HEARTBEAT (R343): the oldest heartbeat delivered from a port. -/
def execHeartbeat (port : Nat) (s : State) : Out :=
  onUnit (isPort port) (.next (
    match s.takeMsg port 0x01 with
    | none => s
    | some (m, s) =>
      let w := m.words.getD 0 0
      if !pair32 w (m.words.getD 1 0) then s.updPort port (fun p => { p with hbMissed := sat32 (p.hbMissed + 1) })
      else
        let q : Partner := ⟨bit w 31, bits w 28 25, bits w 24 20, bits w 19 0⟩
        let s := s.updPort port (fun p =>
          let p := { p with partner := some q, hbMissed := sat32 (p.hbMissed + ((s.clk - p.lastHb) / 4000 - 1)), lastHb := s.clk, hbRx := true }
          if p.state == .up then p.judge else p)
        let p := s.port port
        let s := if p.ownHb.any (fun h => h.2 != q.level) && !p.levelLogged then
            (s.updPort port (fun p => { p with levelLogged := true })).record 0x0608 1 0xFF srcPort port q.level 0 0 0
          else if p.ownHb.any (fun h => h.2 == q.level) then s.updPort port (fun p => { p with levelLogged := false })
          else s
        let match_ := !bit p.expect 31 || (bits p.expect 24 20 == q.port && bits p.expect 19 0 == q.pkg)
        if match_ then s.updPort port (fun p => { p with wiring := false })
        else if p.wiring then s
        else (s.updPort port (fun p => { p with wiring := true })).record 0x0607 2 0xFF srcPort port q.pkg q.port p.expect 0 [0]))

/-- HEARTBEAT_TIMEOUT (R344): 12 µs without a heartbeat while UP. -/
def execHeartbeatTimeout (port : Nat) (s : State) : Out :=
  onUnit (isPort port) (.next (
    let p := s.port port
    if p.state == .up && decide (p.lastHb + 12000 ≤ s.clk) then
      (s.updPort port (fun p => { p with hbMissed := sat32 (p.hbMissed + 3) })).peerLost port 2
    else s))

/-- LIGHT_LOSS (R344): light is lost on the receive lanes of `lanes`. -/
def execLightLoss (port lanes : Nat) (s : State) : Out :=
  onUnit (isPort port && decide (0 < lanes ∧ lanes < 256)) (.next (
    let s := s.updPort port (fun p => { p with
      lanesLight := andNot p.lanesLight lanes, lanesLock := andNot p.lanesLock lanes })
    let p := s.port port
    if p.lanesLight = 0 then
      match p.state with
      | .up | .retrain | .sleep => s.peerLost port 1
      | _ => s
    else if p.state = .up then s.startRetrain port 3 else s))

/-- LIGHT_RETURN (R345, R346): light returns on lanes; a port that had lost its partner trains, and so does a PARKED
port whose partner has been unparked. -/
def execLightReturn (port lanes : Nat) (s : State) : Out :=
  onUnit (isPort port && decide (0 < lanes ∧ lanes < 256)) (.next (
    let s := s.updPort port (fun p => { p with lanesLight := p.lanesLight ||| lanes })
    let p := s.port port
    if (p.state = .down ∧ p.peerLost = true) ∨ p.state = .parked then s.train port else s))

/-- PARK (R346): the partner's PARK. -/
def execPark (port : Nat) (s : State) : Out :=
  onUnit (isPort port) (.next (
    match s.takeMsg port 0x04 with
    | none => s
    | some (_, s) =>
      if (s.port port).parkAt.isSome then (s.setParked port).checkParks
      else (s.sendLocal port 0x04 1 []).setParked port))

/-- PARK_TIMEOUT (R346): 10 µs without the partner's PARK. -/
def execParkTimeout (port : Nat) (s : State) : Out :=
  onUnit (isPort port) (.next (
    match (s.port port).parkAt with
    | some t => if t + 10000 ≤ s.clk then (s.setParked port).checkParks else s
    | none => s))

/-! ### Sleep and wake (R347 to R349) -/

/-- Nothing waits to be sent and the replay buffers are empty. -/
def Port.quiet (p : Port) : Bool :=
  p.replay.isEmpty && p.tpReplay.isEmpty && p.txQueue.isEmpty && p.txHeld.isEmpty && p.txBytes.isEmpty &&
    (p.tpQueue.filter (fun m => m.ttype != 1)).isEmpty

/-- SLEEP_IDLE_TIMER (R347). -/
def execSleepIdleTimer (port : Nat) (s : State) : Out :=
  onUnit (isPort port) (.next (
    let p := s.port port
    if p.state == .up && p.sleepIdle != 0 && decide (p.lastActive + 10000 * p.sleepIdle ≤ s.clk) && p.quiet &&
        !p.timeChild && !p.sleepReq then
      (s.sendLocal port 0x03 1 (Config.sleepWords 0)).updPort port (fun p => { p with sleepReq := true })
    else s))

/-- SLEEP (R347): a SLEEP message, whose meaning `code` is 0 REQ, 1 ACK, 2 NAK. -/
def execSleep (port code : Nat) (s : State) : Out :=
  onUnit (isPort port && decide (code < 3)) (.next (
    match s.takeMsg port 0x03 with
    | none => s
    | some (_, s) =>
      let p := s.port port
      if p.state != .up then s
      else if code = 2 then s.updPort port (fun p => { p with sleepReq := false, lastActive := s.clk })
      else if code = 1 then (if p.sleepReq then s.enterSleep port else s)
      else if p.sleepReq then s.enterSleep port
      else if p.quiet then
        (s.sendLocal port 0x03 1 (Config.sleepWords 1)).updPort port (fun p => { p with sleepAck := true })
      else s.sendLocal port 0x03 1 (Config.sleepWords 2)))

/-- A wake that cannot be fast: a full retrain that counts no failure (R349). -/
def State.slowWake (s : State) (port cause : Nat) : State :=
  let asleep := (s.sysTime - (s.port port).tSleep) / 1000000
  let s := (s.updPort port (fun p => { p with slowWakes := sat32 (p.slowWakes + 1) })).startRetrain port 4 true
  s.record 0x0605 0 0xFF srcPort port asleep cause 0 0

/-- WAKE_BURST (R348): queued traffic, or the partner's burst (`heard`), wakes a sleeping port. -/
def execWakeBurst (port : Nat) (heard : Bool) (s : State) : Out :=
  onUnit (isPort port) (.next (
    let p := s.port port
    if !(p.state == .sleep && !p.waking && (heard || !p.txQueue.isEmpty || !p.txHeld.isEmpty || !p.tpQueue.isEmpty)) then s
    else if s.sysTime - p.tSleep ≤ 10000000 then s.updPort port (fun p => { p with waking := true, attemptAt := s.clk })
    else s.slowWake port 1))

/-- FAST_WAKE_DONE (R348, R349): step 4 finds alignment within the guard, or not. -/
def execFastWakeDone (port : Nat) (aligned : Bool) (s : State) : Out :=
  onUnit (isPort port) (.next (
    let p := s.port port
    if !(p.state == .sleep && p.waking) then s
    else if aligned then
      s.updPort port (fun p => { p with
        state := .up, waking := false, fastWakes := sat32 (p.fastWakes + 1), lastHb := s.clk, hbSentAt := s.clk, ctlDue := true,
        lastActive := s.clk })
    else s.slowWake port 2))

/-! ### System time (R350 to R354) -/

/-- What the applied rate has moved the time by since the last exchange becomes part of its base (R353). -/
def State.slew (s : State) : State :=
  { s with time := { s.time with
    base := s.time.base + s.slewed / 1000000000, frac := s.slewed % 1000000000, lastSync := s.clk } }

/-- The package enters HOLDOVER, with its record; its error grows by 1 ns per ms. -/
def State.holdover (s : State) : State :=
  let from_ := if s.time.mode = .locked then s.clk else s.time.holdAt
  let ms := (s.clk - from_) / 1000000
  let s' := s.slew
  let s' := { s' with time := { s'.time with errBound := sat16 (s'.time.errBound + ms), holdAt := from_ + 1000000 * ms } }
  if s.time.mode = .locked then
    ({ s' with time := { s'.time with mode := .holdover } } : State).record 0x060E 1 0xFF srcPackage 0 s.time.parentPort
      s'.time.errBound 0 0 [0]
  else s'

/-- The package takes part as a child. -/
def State.timeChildOf (s : State) : Bool := s.time.enable && !s.time.root

/-- TIME_SYNC_TIMER (R351): every 125 µs a child starts an exchange; with PARENT_PORT not UP it enters HOLDOVER. -/
def execTimeSyncTimer (s : State) : Out :=
  .next (
    if !s.timeChildOf then s
    else if isPort s.time.parentPort && (s.port s.time.parentPort).state == .up then
      let s := s.sendLocal s.time.parentPort 0x02 0 (Config.timeSyncWords 0 0 0 0)
      { s with time := { s.time with t1 := some s.sysTime } }
    else if s.time.mode = .free then s else s.holdover)

/-- TIME_SYNC (R351, R353): a TIME_SYNC message arrives. As a request it is answered. As a reply it carries `t2` and
`t3`, and `t1` and `t4` are the child's own stamps, all in 1/16 ns; `depth` is the parent's, `bound` the new ERR_BOUND,
`rate` the correction that the package applies from now on, in parts per 10^9, at most 200 ppm. -/
def execTimeSync (port : Nat) (reply : Bool) (t1 t2 t3 t4 : Int) (depth bound : Nat) (rate : Int) (s : State) : Out :=
  onUnit (isPort port) (.next (
    match s.takeMsg port 0x02 with
    | none => s
    | some (_, s) =>
      if !reply then
        let s := s.updPort port (fun p => { p with timeChild := true })
        s.sendLocal port 0x02 0 (Config.timeSyncWords 1 (16 * s.sysTime) (16 * s.sysTime) s.time.depth)
      else if !(s.timeChildOf && port == s.time.parentPort && s.time.t1.isSome && decide (rate.natAbs ≤ 200000)) then s
      else
        let theta := ((t2 - t1) - (t4 - t3)) / 2
        let s := s.slew
        let time := { s.time with
          t1 := none, offset := signed 32 (unsigned 32 theta), depth := min 255 (depth + 1), errBound := sat16 bound }
        match s.time.mode with
        | .free => { s with time := { time with base := time.base + theta / 16, mode := .locked, rate := 0 } }
        | _ => { s with time := { time with mode := .locked, rate := rate } }))

end Sys2Proof.Machine
end

