-- ==== Sys2Proof/Machine/PkgRegs.lean ====
section
/-! DEFINITION. The PKG block (R20 to R25, Tables 1.10 to 1.19). -/

namespace Sys2Proof.Machine

/-- Number of set bits among the first `n`. -/
def popcount (w n : Nat) : Nat := (bitsSet w n).length

/-- Reaches whose 16 logical cores are all mapped. -/
def State.fullReaches (s : State) : Nat :=
  ((List.range 96).filter (fun r => (List.range 16).all (fun j => s.mapped (16 * r + j)))).length

/-- Some REACH_GROUP is ON (R605). -/
def State.anyGroupOn (s : State) : Bool :=
  (List.range 30).any (fun d => d % 5 != 4 && (s.domain d).state == .on)

/-- PKG_POWER_STATE (R605). -/
def State.powerCode (s : State) : Nat :=
  if s.pwr.state ≠ .run then 2 else if s.pkg.ready && !s.anyGroupOn then 1 else 0

/-- A register of the PKG block. -/
def State.pkgWord (s : State) (off : Nat) : Nat :=
  let k := s.pkg
  match off with
  | 0x00 => 0x511536A0
  | 0x04 => k.dieLevelMin * 2 ^ 12 + k.runLevel * 2 ^ 8 + 0x11
  | 0x08 => b2n k.idValid * 2 ^ 31 + k.packageId
  | 0x0C => b2n k.offAccess * 2 ^ 11 + b2n k.bootSlot * 2 ^ 10 + b2n k.unitRetired * 2 ^ 9 + b2n k.ready * 2 ^ 8 + s.powerCode
  | 0x10 => lo32 (Config.partWord 0)
  | 0x14 => hi32 (Config.partWord 0)
  | 0x18 => s.fwWord
  | 0x1C => k.capGen
  | 0x20 => (1536 - (s.cpu.unmapped.filter (·.2)).length) * 2 ^ 21 + s.fullReaches * 2 ^ 14 +
      ((List.range 96).filter (fun r => (s.freeSpare r).isSome)).length * 2 ^ 7 + 64
  | 0x24 => (2 * s.fullReaches) * 2 ^ 24 + 8 * 2 ^ 20 + 8 * 2 ^ 16 + 12 * 2 ^ 12 + 0x100
  | 0x28 => 14 * 2 ^ 27 + 16 * 2 ^ 22 + 12 * 2 ^ 18 + popcount k.cpOk 24 * 2 ^ 13 + popcount k.qeOk 28 * 2 ^ 8 + 56
  | 0x2C => 0xFFF
  | 0x30 => k.hsOk * 2 ^ 16 + k.hdOk * 2 ^ 6 + k.cdOk
  | 0x34 => k.bcOk * 2 ^ 16
  | 0x38 => k.cpOk
  | _ => 0

/-- The capability and unit registers, PKG_CAP0 to PKG_CAP2 and PKG_UNITS0 to PKG_UNITS2 (R24). -/
def State.capWords (s : State) : List Nat := [0x20, 0x24, 0x28, 0x30, 0x34, 0x38].map s.pkgWord

/-- Every canal port closes its data virtual channels (R22). -/
def State.closeData (s : State) : State :=
  { s with link := { s.link with
      ports := s.link.ports.foldl (fun (t : Tab Port) e => t.put {} e.1 { e.2 with dataOpen := false }) [] } }

/-- PKG_ID_WRITE (R21): a write of PKG_ID; with ID_VALID 0 no data virtual channel stays open (R22). -/
def State.setPkgId (s : State) (value : Nat) : State :=
  let valid := bit value 31
  let id := bits value 13 0
  if s.pkg.idValid && valid && id != s.pkg.packageId then s
  else
    let s : State := { s with pkg := { s.pkg with idValid := valid, packageId := id } }
    if valid then s else s.closeData

end Sys2Proof.Machine
end

