-- ==== Sys2Proof/Machine/LogBook.lean ====
section
/-! DEFINITION. The logbook's flush, views and clearing (R585 to R593), and the watchdogs (R577, R578). -/

namespace Sys2Proof.Machine

/-! ### Watchdogs -/

/-- KEEPER_WATCHDOG (R577): a keeper core is restarted; what it served keeps its place with another. -/
def execKeeperWatchdog (keeper : Nat) (s : State) : Out :=
  onUnit (decide (keeper < 8)) (.next (s.restartKeeper keeper 1))

/-- FW_WATCHDOG (R578): no keeper core of the silent hub dies has strobed for 50 ms. -/
def execFwWatchdog (hd0 hd1 : Bool) (s : State) : Out :=
  .next (
    if !(hd0 || hd1) || s.pwr.fenced then s
    else (s.record 0x0D04 3 0xFF srcIsland 0 (b2n hd0 * 64 + b2n hd1 * 128) 0 0 0 [0]).fence)

/-- ISLAND_WATCHDOG (R578, R593): the island restarts from ROM. The logbook ring and its registers, the OWN block and the
MRAM are kept; no rule changes anything else. -/
def execIslandWatchdog (s : State) : Out := .next s

/-! ### Generations (R589) -/

def logMagic : Nat := 0x4B474F4C

/-- A generation slot is valid (R591). -/
def LogGen.valid (g : LogGen) : Bool := g.magic == logMagic && pair32 g.gen g.genC

def Log.slot (l : Log) (i : Nat) : LogGen := l.mram.get {} i

/-- The valid slots. -/
def Log.validSlots (l : Log) : List LogGen := ((List.range 16).map l.slot).filter LogGen.valid

/-- LOG_GEN. -/
def Log.newest (l : Log) : Nat := if l.validSlots.isEmpty then 2 ^ 32 - 1 else (l.validSlots.map (·.gen)).foldl max 0

/-- The records `first` to `first + n - 1` of the ring. -/
def Log.copyOf (l : Log) (first n : Nat) : List LogRec :=
  (List.range n).filterMap (fun i => l.ring.get none (wrap32 (first + i)))

/-! ### Flush (R587 to R589) -/

/-- The CAUSE that a set of triggers gives: PWR_WARN_N, severity 3, LOG_CTRL.FLUSH, severity 2. -/
def topCause (l : List Nat) : Nat := (listFind (fun c => l.contains c) [3, 2, 4]).getD 1

/-- A flush may begin now: a trigger waits, and severity 2 alone waits for its spacing. -/
def Log.flushDue (l : Log) (now : Nat) : Bool :=
  !l.waiting.isEmpty && (topCause (l.waiting.map (·.1)) != 1 || l.lastSev2End.all (fun t => decide (t + 10000000 ≤ now)))

/-- A flush begins: its slot becomes invalid, and it takes the newest 7,936 records from LOG_FLUSHED to HEAD. -/
def Log.beginFlush (l : Log) (sys now : Nat) : Log :=
  let all := seqDist l.flushed l.head
  let n := min all 7936
  let first := wrap32 (l.head + 2 ^ 32 - n)
  let slot := l.genNext % 16
  { l with
    mram := l.mram.upd {} slot (fun g => { g with magic := 0 }),
    genLost := 0, waiting := [],
    flush := some ⟨topCause (l.waiting.map (·.1)), first, l.head, slot, l.genLost + (all - n), l.copyOf first n, sys, now, none⟩ }

/-- The records that a flush takes in because PWR_WARN_N fell during it (R588): those written by 100 µs after the
fall. -/
def Log.extendFlush (l : Log) (r : FlushRun) (late : LogRec → Bool) : FlushRun :=
  let more := l.copyOf r.upto (seqDist r.upto l.head)
  let take := more.takeWhile (fun x => !late x)
  let all := r.records ++ take
  let drop := all.length - 7936
  { r with cause := 3, upto := wrap32 (r.upto + take.length), first := wrap32 (r.first + drop), lost := r.lost + drop,
           records := all.drop drop }

/-- A flush ends: records and header are in the slot. A failed write-back check leaves the slot invalid and the records
unflushed: DESIGN CHOICE. -/
def State.endFlush (s : State) (r : FlushRun) (fail : Bool) : State :=
  let l := s.log
  let g : LogGen := {
    magic := logMagic, gen := l.genNext, genC := compl32 l.genNext, cause := r.cause, count := r.records.length,
    first := r.first, lost := sat32 r.lost, time := r.startTime, pkgId := s.pkgWord 0x08, pkgFw := s.pkgWord 0x18,
    crc := crc32 (r.records.flatMap (fun x => wordsToBytes x.words)), records := r.records }
  let l := { l with
    flush := none, lastCause := r.cause, mramFail := fail,
    pwrFlushed := l.pwrFlushed || (r.cause == 3 && s.pwr.warn),
    lastSev2End := if r.cause = 1 then some s.clk else l.lastSev2End }
  { s with log := if fail then l else { l with
      mram := l.mram.put {} r.slot g, genNext := wrap32 (l.genNext + 1),
      flushed := if seqDist l.flushed r.upto < 2 ^ 31 then r.upto else l.flushed } }

/-- LOG_FLUSH (R587): a flush that is due begins, or the running one ends; `fail` is the outcome of its write-back
check. -/
def execLogFlush (fail : Bool) (s : State) : Out :=
  .next (match s.log.flush with
    | none => if s.log.flushDue s.clk then { s with log := s.log.beginFlush s.sysTime s.clk } else s
    | some r => match r.fell with
      | none => s.endFlush r fail
      | some fall =>
        if s.clk < fall + 100000 then s
        else
          let stop := ((fall : Int) + 100000 + s.time.base)
          s.endFlush (s.log.extendFlush r (fun x => decide (stop < x.time))) fail)

/-! ### Suppression (R586) -/

/-- LOG_SUPPRESS_END (R586): a millisecond ends. -/
def execLogSuppressEnd (s : State) : Out := .next s.endMs

/-! ### LOG_CTRL (R592) -/

/-- CLEAR_RING: the ring is empty from HEAD. -/
def Log.clearRing (l : Log) : Log := { l with ring := [], oldest := l.head, flushed := l.head }

/-- CLEAR_MRAM: no slot is valid; GEN keeps counting. -/
def Log.clearMram (l : Log) : Log :=
  { l with mram := (List.range 16).foldl (fun t i => t.upd {} i (fun g => { g with magic := 0 })) l.mram }

/-- A write of LOG_CTRL by the lock-keeper. -/
def State.logCtrl (s : State) (m : Master) (v : Nat) : State :=
  let cr := bit v 1
  let cm := bit v 2
  let gone := (if cr then seqDist s.log.oldest s.log.head else 0) +
    (if cm then (s.log.validSlots.map (·.count)).foldl (· + ·) 0 else 0)
  let l := if cr then s.log.clearRing else s.log
  let s : State := { s with log := if cm then l.clearMram else l }
  let s := if cr || cm then s.record 0x0D07 0 0xFF srcPackage 0 (b2n cr + 2 * b2n cm) m.code gone 0 else s
  if bit v 0 then { s with log := s.log.trigger 4 s.clk } else s

/-- CLEAR_RING: a write of LOG_CTRL with CLEAR_RING set. -/
def execClearRing (m : Master) (value : Nat) (s : State) : Out :=
  .next (if bit value 1 then s.ownerWrite m (fun s => s.logCtrl m value) else s)

/-- CLEAR_MRAM: a write of LOG_CTRL with CLEAR_MRAM set. -/
def execClearMram (m : Master) (value : Nat) (s : State) : Out :=
  .next (if bit value 2 then s.ownerWrite m (fun s => s.logCtrl m value) else s)

/-- LOG_FLUSH_REQUEST: a write of LOG_CTRL with FLUSH set. -/
def execLogFlushRequest (m : Master) (value : Nat) (s : State) : Out :=
  .next (if bit value 0 then s.ownerWrite m (fun s => s.logCtrl m value) else s)

/-! ### Views (R590, R591) -/

/-- Eight zero words: a record that is not held. -/
def noRecord : List Nat := List.replicate 8 0

/-- Record `n` of the ring, as words. -/
def Log.ringWords (l : Log) (n : Nat) : List Nat :=
  if seqDist l.oldest n < seqDist l.oldest l.head then
    match l.ring.get none n with
    | some r => r.words
    | none => noRecord
  else noRecord

/-- Record `i` of the selected generation, as words. -/
def Log.slotWords (l : Log) (i : Nat) : List Nat :=
  let g := l.slot l.selSlot
  if g.valid && decide (i < g.count) then
    match g.records[i]? with
    | some r => r.words
    | none => noRecord
  else noRecord

/-- The 32 records of a view: 1 LOG_WINDOW, 2 LOG_TAIL. -/
def Log.viewWords (l : Log) (view : Nat) : List Nat :=
  (List.range 32).flatMap (fun k =>
    if view = 2 then l.ringWords (wrap32 (l.head + 2 ^ 32 - 32 + k))
    else if l.selMram then l.slotWords (l.cursor + k)
    else l.ringWords (wrap32 (l.cursor + k)))

/-- What a master reads at word `i` of a view: its latched copy; before it has latched one, zero. -/
def Log.latched (l : Log) (key view i : Nat) : Nat :=
  match listFind (fun e => e.1 == key && e.2.1 == view) l.latches with
  | some e => e.2.2.getD i 0
  | none => 0

def Master.key (m : Master) : Nat := m.code + 4 * m.pkg

/-- A read of a view's first word latches the view for the reading master (R591). -/
def State.latchView (s : State) (m : Master) (view : Nat) : State :=
  let key := Master.key m
  { s with log := { s.log with
      latches := (key, view, s.log.viewWords view) :: s.log.latches.filter (fun e => !(e.1 == key && e.2.1 == view)) } }

/-- LOG_WINDOW_READ: a read of the first word of LOG_WINDOW (view 1) or LOG_TAIL (view 2). -/
def execLogWindowRead (m : Master) (view : Nat) (s : State) : Out :=
  onUnit (view == 1 || view == 2) (.next (
    let s := s.latchView m view
    { s with cmd := { s.cmd with readData := BitVec.ofNat 32 (s.log.latched (Master.key m) view 0) } }))

end Sys2Proof.Machine
end

