-- ==== Sys2Proof/Machine/Nor.lean ====
section
/-! DEFINITION. The NOR registers of the PWR block (R618, R620). -/

namespace Sys2Proof.Machine

/-- Offsets of the NOR that a slot holds: A from 0, B from 0x400_0000. -/
def norSlotB (a : Nat) : Bool := decide (0x4000000 ≤ a)

/-- ADDR aims at the slot that is not booted. -/
def State.norWritable (s : State) : Bool :=
  decide (s.nor.addr < 0x8000000) && norSlotB s.nor.addr != s.pkg.bootSlot

/-- The slot `b` takes the facts `x`. -/
def Nor.touch (n : Nor) (b : Bool) (x : NorSlot) : Nor := if b then { n with slotB := x } else { n with slotA := x }

/-- A write of PWR_NOR_CTRL (Table 18.10) that starts an operation: refused operations set NOR_ERR and change nothing. -/
def State.norStart (s : State) (op : Nat) : State :=
  if s.nor.busy then s
  else if s.norWritable then { s with nor := { s.nor with busy := true, op := op, err := false } }
  else { s with nor := { s.nor with err := true } }

/-- COMMIT_SEC: the fused minimum rises to the booted image's SEC_VERSION, while READY is 1. -/
def State.commitSec (s : State) : State :=
  if !s.pkg.ready then { s with nor := { s.nor with err := true } }
  else
    let v := (if s.pkg.bootSlot then s.nor.slotB else s.nor.slotA).secVersion
    { s with nor := { s.nor with fusedMin := max s.nor.fusedMin v } }

/-- A write of PWR_NOR_CTRL. DEDUCED: of several bits, ERASE acts before PROGRAM, and a second operation of one write is
ignored, as one is while NOR_BUSY is 1. -/
def State.norCtrl (s : State) (v : Nat) : State :=
  let s := if bit v 0 then s.norStart 1 else s
  let s := if bit v 1 then s.norStart 2 else s
  if bit v 2 then s.commitSec else s

/-- NOR_ERASE: a write of PWR_NOR_CTRL with ERASE set. -/
def execNorErase (m : Master) (value : Nat) (s : State) : Out :=
  .next (if bit value 0 then s.ownerWrite m (fun s => s.norCtrl value) else s)

/-- NOR_PROGRAM: a write of PWR_NOR_CTRL with PROGRAM set. -/
def execNorProgram (m : Master) (value : Nat) (s : State) : Out :=
  .next (if bit value 1 then s.ownerWrite m (fun s => s.norCtrl value) else s)

/-- COMMIT_SEC: a write of PWR_NOR_CTRL with COMMIT_SEC set. -/
def execCommitSec (m : Master) (value : Nat) (s : State) : Out :=
  .next (if bit value 2 then s.ownerWrite m (fun s => s.norCtrl value) else s)

/-- The bytes that an operation leaves: 0xFF over the 64 KiB sector; the window, into erased cells only. -/
def Nor.apply (n : Nor) : Tab Byte :=
  if n.op = 1 then
    let a := n.addr / 65536 * 65536
    n.cells.keep (fun k _ => !(decide (a ≤ k) && decide (k < a + 65536)))
  else
    let a := n.addr / 4096 * 4096
    n.cells.putAll 0xFF a ((List.range 4096).map (fun i => n.cells.get 0xFF (a + i) &&& n.window.get 0 i))

/-- A slot's facts as its header's bytes give them; key, signature and digest are as `Config` judges the bytes. -/
def Nor.judge (n : Nor) (b : Bool) : NorSlot :=
  let base := if b then 0x4000000 else 0
  let w := fun (o : Nat) => ofBytes (n.cells.getAll 0xFF (base + o) 4)
  let body := n.cells.getAll 0xFF base 256
  { magic := w 0 == 0x57464B51, keyOk := Config.norKey body, sigOk := Config.norSig body,
    digestOk := Config.norDigest (n.cells.filter (fun e => norSlotB e.1 == b)), version := w 4, secVersion := w 8,
    fw := some (Config.norFw (n.cells.filter (fun e => norSlotB e.1 == b)) % 2 ^ 32) }

/-- NOR_OP_DONE (R620): an operation ends; `ok` is its outcome. -/
def execNorOpDone (ok : Bool) (s : State) : Out :=
  .next (
    if !s.nor.busy then s
    else if !ok then { s with nor := { s.nor with busy := false, op := 0, err := true } }
    else
      let n : Nor := { s.nor with cells := s.nor.apply, busy := false, op := 0 }
      { s with nor := n.touch (!s.pkg.bootSlot) (n.judge (!s.pkg.bootSlot)) })

end Sys2Proof.Machine
end

