-- ==== Sys2Proof/Machine/Own.lean ====
section
/-! DEFINITION. Ownership of the control plane (R546 to R552): claims, the lease, hand-over, ELECT messages. -/

namespace Sys2Proof.Machine

/-! ### Banks and messages -/

def State.ownBank (s : State) (b : Nat) : OwnBank := s.own.banks.get {} b
def State.updBank (s : State) (b : Nat) (f : OwnBank → OwnBank) : State :=
  { s with own := { s.own with banks := s.own.banks.upd {} b f } }

def rNone : Nat := 0
def rPending : Nat := 1
def rWon : Nat := 2
def rLost : Nat := 3

/-- A write or a renewal that ownership stands in the way of. -/
def State.denyOwn (s : State) : State := { s with own := { s.own with denied := sat32 (s.own.denied + 1) } }

/-- Milliseconds of lease left. -/
def State.leaseMs (s : State) : Nat := (s.own.leaseEnd - s.clk) / 1000000

/-- Sends an ELECT message (R552). -/
def State.sendElect (s : State) (pkg op value leaseMs : Nat) : State :=
  s.sendMsg 0x12 0 pkg [op, value, compl32 value, leaseMs]

/-- Answers a fabric manager with ELECT RESULT; a master with a bank has read its own registers. -/
def State.electResult (s : State) (m : Master) (value leaseMs : Nat) : State :=
  match m with
  | .fm pkg => s.sendElect pkg 0x81 value leaseMs
  | _ => s

/-- Sets RESULT and REFUSED in a master's bank. -/
def State.setResult (s : State) (m : Master) (result : Nat) (refused : Bool) : State :=
  match m with
  | .fm _ => s
  | _ => s.updBank m.bank (fun b => { b with result := result, refused := refused })

/-! ### Changes of owner (R549, R550) -/

/-- The old owner's last control-ring completion has been posted or discarded: the ring leaves service. -/
def State.closeControlRing (s : State) : State :=
  let r := s.ring 0
  let busy := s.cmd.flights.any (fun f => f.path == .ring 0) || s.cmd.committed.any (fun c => c.path == .ring 0)
  if !r.ownerChange || busy then s
  else s.updRing 0 (fun r => { r with
    ownerChange := false, enable := false, enabled := false, draining := false, fault := true, cause := 4 })

/-- The owner changes: fetching from the control ring stops, and a fabric manager's window starts afresh (R539, R550), and
the DBG block is LOCKED (R642). -/
def State.ownerChange (s : State) : State :=
  let s := (if (s.ring 0).enabled then s.updRing 0 (fun r => { r with ownerChange := true }) else s).lockDbg 3
  let s := { s with own := { s.own with fmNextSeq := 0, fmAhead := [] }, cmd := { s.cmd with fmStored := [] } }
  s.closeControlRing

/-- The pending offer is withdrawn: HAND_OVER completes with HANDOVER_DECLINED and no new generation. -/
def State.dropOffer (s : State) : State :=
  match s.own.offer with
  | none => s
  | some o => ({ s with own := { s.own with offer := none } } : State).commit o.cmd stHandoverDeclined [0]

/-- Ownership lapses (R549). -/
def State.lapse (s : State) : State :=
  if s.own.owner.isNone then s
  else
    let s := s.dropOffer
    ({ s with own := { s.own with owner := none, token := 0, tokenC := compl32 0 } } : State).ownerChange

/-- Installs an owner: a new token and a lease of 1 s (Table 16.8 step 5). -/
def State.install (s : State) (m : Master) : State :=
  let (n, s) := s.draw
  let token := m.code * 2 ^ 30 + Config.islandRandom n % 2 ^ 30
  { s with own := { s.own with
      owner := some m, lastOwner := m.code, token := token, tokenC := compl32 token, leaseEnd := s.clk + 1000000000,
      gen := wrap32 (s.own.gen + 1) } }

/-! ### Election (R547) -/

/-- A claim: refused against a valid lease, otherwise entered. -/
def State.claim (s : State) (m : Master) (priority nonce : Nat) : State :=
  if s.own.owner.isSome then (s.setResult m rLost true).electResult m 0 0
  else
    let others := (s.own.window.getD []).filter (fun c => c.master != m)
    let s := { s with own := { s.own with
      window := some (others ++ [({ master := m, priority := priority, nonce := nonce } : Claim)]),
      windowAt := if s.own.window.isNone then s.clk else s.own.windowAt } }
    s.setResult m rPending false

/-- Claim `a` wins over claim `b`: PRIORITY, then nonce, then the lower OWNER code, then the lower package. -/
def Claim.beats (a b : Claim) : Bool :=
  if a.priority ≠ b.priority then decide (b.priority < a.priority)
  else if a.nonce ≠ b.nonce then decide (b.nonce < a.nonce)
  else if a.master.code ≠ b.master.code then decide (a.master.code < b.master.code)
  else decide (a.master.pkg < b.master.pkg)

/-- The winner of a window. -/
def winner : List Claim → Option Claim
  | [] => none
  | c :: t => match winner t with
    | some d => some (if c.beats d then c else d)
    | none => some c

/-- OWN_CLAIM (R547): a write of OWN_CLAIM with OP CLAIM. A fabric manager claims by ELECT. -/
def execOwnClaim (m : Master) (value : Nat) (s : State) : Out :=
  .next (match m with
    | .fm _ => s
    | _ => if bits value 9 8 = 1 then s.claim m (bits value 3 0) (s.ownBank m.bank).nonce else s)

/-- OWN_RELEASE (R547): a write of OWN_CLAIM with OP RELEASE. -/
def execOwnRelease (m : Master) (s : State) : Out := .next (if s.isOwner m then s.lapse else s)

/-- CLAIM_WINDOW_CLOSE (Table 16.8 steps 4 and 5). -/
def execClaimWindowClose (s : State) : Out :=
  .next (match s.own.window with
    | none => s
    | some cs =>
      if s.clk < s.own.windowAt + 10000000 then s
      else match winner cs with
        | none => s
        | some w =>
          let s := ({ s with own := { s.own with window := none } } : State).install w.master
          cs.foldl (fun s c =>
            if c.master = w.master then (s.setResult c.master rWon false).electResult c.master s.own.token s.leaseMs
            else (s.setResult c.master rLost false).electResult c.master 0 0) s)

/-! ### The lease (R548, R549) -/

/-- LEASE_EXPIRE (R549): the lease has reached zero. -/
def execLeaseExpire (s : State) : Out := .next (if s.own.leaseEnd ≤ s.clk then s.lapse else s)

/-- A renewal: it restarts the lease, or is counted and recorded (R548). A stored token that fails its pair check ends
ownership (R549). -/
def State.renew (s : State) (m : Master) (token : Nat) : State :=
  if s.own.owner.isSome && !pair32 s.own.token s.own.tokenC then
    (s.lapse).record 0x0C04 3 0xFF srcPackage 0 1 0 0 0 [0]
  else
    let s := if s.own.leaseEnd ≤ s.clk then s.lapse else s
    if s.isOwner m && token == s.own.token then { s with own := { s.own with leaseEnd := s.clk + 1000000000 } }
    else s.denyOwn.record 0x0C03 1 0xFF srcPackage 0 m.code 0 0 0 [0]

/-- OWN_RENEW (R548): a write of OWN_RENEW. -/
def execOwnRenew (m : Master) (token : Nat) (s : State) : Out := .next (s.renew m (wrap32 token))

/-! ### Hand-over (R551) -/

/-- The master that HAND_OVER names. -/
def offerTarget (pk : Packet) : Master :=
  match pk.f 0x10 1 0 with
  | 0 => .host0 | 1 => .host1 | 2 => .bmc | _ => .fm (pk.f 0x14 19 0)

/-- HAND_OVER (R551). A second one waits while an offer is pending. -/
def execHandOver (path : Path) (pk : Packet) (s : State) : Out :=
  beginOn path pk (ofOp 0x011) { ready := fun s => s.own.offer.isNone } s (fun f s =>
    let m := offerTarget pk
    let ms := pk.w 0x18
    if s.isOwner m ∨ ms = 0 ∨ ms > 10000 then s.failWith f stFieldReserved
    else if s.own.owner.isNone then s.commit f.id stHandoverDeclined [0]
    else
      let (n, s) := s.draw
      let nonce := Config.islandRandom n % 2 ^ 32
      let s := { s with own := { s.own with offer := some ⟨m, nonce, f.id, s.clk + 1000000 * ms⟩ } }
      match m with
      | .fm pkg => s.sendElect pkg 0x82 nonce 0
      | _ => s)

/-- The offer target accepts with the nonce; anything else is ignored and counted. An offer whose time has passed is withdrawn
(Table 16.10b). -/
def State.acceptOffer (s : State) (m : Master) (nonce : Nat) : State :=
  match s.own.offer with
  | none => s.denyOwn
  | some o =>
    if o.deadline < s.clk then s.dropOffer.denyOwn
    else if o.target = m ∧ o.nonce = nonce then
      let s := ({ s with own := { s.own with offer := none } } : State).install m
      let s := ((s.commit o.cmd stDone [s.own.gen]).ownerChange).setResult m rWon false
      s.electResult m s.own.token s.leaseMs
    else s.denyOwn

/-- OWN_ACCEPT (R551). -/
def execOwnAccept (m : Master) (nonce : Nat) (s : State) : Out := .next (s.acceptOffer m (wrap32 nonce))

/-- OFFER_TIMEOUT (Table 16.9 step 5). -/
def execOfferTimeout (s : State) : Out :=
  .next (match s.own.offer with
    | some o => if o.deadline ≤ s.clk then s.dropOffer else s
    | none => s)

/-! ### ELECT (R552) -/

/-- ELECT (R552): the first delivered ELECT message. -/
def execElect (s : State) : Out :=
  .next (match listFind (fun e => e.2.ttype == 0x12) s.link.msgs with
    | none => s
    | some e =>
      let s := { s with link := { s.link with msgs := delFirst (fun x => x == e) s.link.msgs } }
      let m : Master := .fm e.2.src
      let w := fun i => e.2.words.getD i 0
      if !pair32 (w 1) (w 2) then s.record 0x0C04 2 0xFF srcPackage 0 2 0 0 0 [0]
      else match bits (w 0) 7 0 with
        | 0x01 => s.claim m (bits (w 0) 11 8) (w 1)
        | 0x02 =>
          let s := s.renew m (w 1)
          if s.isOwner m && w 1 == s.own.token then s.electResult m s.own.token s.leaseMs else s.electResult m 0 0
        | 0x03 => (if s.isOwner m && w 1 == s.own.token then s.lapse else s).electResult m 0 0
        | 0x04 => s.acceptOffer m (w 1)
        | _ => s)

end Sys2Proof.Machine
end

