-- ==== Sys2Proof/Machine/Power.lean ====
section
/-! DEFINITION. The power domains (R594 to R613), voltage, cap and temperature (R606 to R611), power failure and rail
faults (R621, R622, R660 to R663). -/

namespace Sys2Proof.Machine

/-! ### Dependencies and refusals (Tables 18.2 and 18.6) -/

/-- A partition's state keeps its slices' domains powered. -/
def liveState : PartState → Bool
  | .running | .evicting | .resuming | .destroying => true
  | _ => false

/-- A bound stage or model uses a slice of a mask. -/
def State.boundOn (s : State) (mask : Nat) : Bool :=
  s.pipe.slots.any (fun e => e.2.bound && e.2.slices &&& mask != 0) ||
    s.serv.models.any (fun e => e.2.bound && e.2.slices &&& mask != 0)

/-- The slices of a REACH_GROUP domain. -/
def domainSlices (d : Nat) : Nat := maskOf ((List.range 192).filter (fun k => sliceDomain k == d))

/-- A port is DISABLED or PARKED. -/
def State.portDark (s : State) (p : Nat) : Bool := (s.port p).state == .disabled || (s.port p).state == .parked

/-- Some partition from 1 to 64 is in one of the live states. -/
def State.anyLive (s : State) : Bool := s.ten.parts.any (fun e => e.1 != 0 && liveState e.2.state)

/-- The dependency of Table 18.2 holds for a domain. -/
def State.liveDep (s : State) (d : Nat) : Bool :=
  match domainKind d with
  | 1 =>
    let mask := domainSlices d
    s.ten.parts.any (fun e => liveState e.2.state && e.2.slices &&& mask != 0) || s.boundOn mask
  | 3 =>
    let p := (List.range 24).filter (fun p => portDomain p == d)
    !p.all s.portDark
  | 4 =>
    s.mem.leaves.any (fun e => decide (tier2Frame0 ≤ pteFrame e.2.2)) ||
      s.mem.zeroQueue.any (fun f => decide (tier2Frame0 ≤ f))
  | 5 => s.quay.slots.any (fun e => e.2.isSome) || !s.quay.runs.isEmpty || s.quay.windows.any (fun e => e.2.isSome)
  | 6 =>
    let k := (d - 39) / 11
    s.cmd.rings.any (fun e => e.2.enable && e.2.hostPort == k) || s.own.owner == some (if k = 0 then .host0 else .host1)
  | _ => true

/-- Refuses a SET_DOMAIN (Table 18.6). -/
def State.refusePower (s : State) (f : Flight) (cause : Nat) : State := s.refuse f stPowerRefused cause

/-- Another SET_DOMAIN of the domain or of the package is in progress. -/
def State.domBusy (s : State) (d : Nat) : Bool := (s.domain d).cmd.isSome || s.pwr.pkgOp.isSome
/-- The same for an operation of the package. -/
def State.pkgBusy (s : State) : Bool := s.pwr.pkgOp.isSome || s.pwr.domains.any (fun e => e.2.cmd.isSome)

/-- The PWR_DOM word of a domain (Table 18.10). -/
def State.domWord (s : State) (d : Nat) : Nat :=
  let x := s.domain d
  domainKind d * 2 ^ 28 + x.held.length * 2 ^ 16 + b2n (s.liveDep d) * 2 ^ 15 + b2n x.closed * 2 ^ 14 + x.trim * 2 ^ 8 +
    (s.domTarget d).code * 16 + x.state.code

/-! ### Powering down (R599, R604) -/

/-- Where a target leads. -/
def targetState : DomTarget → DomState
  | .retain => .retain
  | .off => .off
  | _ => .on

/-- A domain has reached RETAIN or OFF (Table 18.4 step 4). What OFF does not hold is lost. -/
def State.domainDown (s : State) (d : Nat) (to_ : DomState) : State :=
  s.updDomain d (fun x => { x with state := to_, closed := true, going := none, fromOff := false, attempts := 0, since := s.clk })

/-- Begins a power-down: the sluice closes, and when the traffic inside leaves in time (`drained`) the domain goes down. -/
def State.powerDown (s : State) (d : Nat) (to_ : DomState) (drained : Bool) : State :=
  if drained then s.domainDown d to_
  else s.updDomain d (fun x => { x with state := .changing, closed := true, going := some to_, since := s.clk })

/-- The SET_DOMAIN TARGET that waits for a domain completes, when the domain is where its target leads. -/
def State.endTarget (s : State) (d : Nat) : State :=
  let x := s.domain d
  match x.cmd with
  | none => s
  | some c =>
    let isTarget := (s.flight c).any (fun f => f.pk.f 0x10 3 0 == 1)
    if isTarget && x.state == targetState (s.domTarget d) then
      let s := s.updDomain d (fun x => { x with cmd := none, attempts := 0 })
      s.commit c stDone [s.domWord d]
    else s

/-- An abandoned power-down (R604): the domain stays ON; the tenth of one SET_DOMAIN ends it with BUSY. -/
def State.abandonDown (s : State) (d : Nat) : State :=
  let s := (s.updDomain d (fun x => { x with state := .on, since := s.clk, attempts := x.attempts + 1 })).openSluice d
  let x := s.domain d
  match x.cmd with
  | none => s
  | some c =>
    if x.attempts < 10 then s
    else
      let s := (s.updDomain d (fun x => { x with cmd := none, attempts := 0 })).setTarget d x.before
      let s := s.commit c stPowerRefused [6, 0xFFFFFFFF]
      s.record 0x0E0D 1 0xFF srcPackage 0 d x.attempts 0 0 [0]

/-- A SET_DOMAIN of an operation. -/
def setDomKind (op : Nat) (pk : Packet) : Bool := ofOpField 0x020 0x10 3 0 op pk

/-- SET_DOMAIN TARGET (R595, R613). -/
def execSetDomainTarget (path : Path) (pk : Packet) (drained : Bool) (s : State) : Out :=
  beginCmd path pk (setDomKind 1) s (fun f s =>
    let d := pk.f 0x10 13 8
    let t := DomTarget.ofCode (pk.f 0x10 17 16)
    let down := t == .retain || t == .off
    if 56 ≤ d then s.refusePower f 1
    else if !kindAllows (domainKind d) t then s.refusePower f 2
    else if down && s.liveDep d then s.refusePower f (if domainKind d = 3 then 4 else 3)
    else if s.domBusy d then s.refusePower f 6
    else
      let old := s.domTarget d
      let s := s.setTarget d t
      if t = .auto then s.done f [s.domWord d]
      else
        let s := s.updDomain d (fun x => { x with cmd := some f.id, before := old, attempts := 0 })
        let s := if !down then s.startWake d
          else match (s.domain d).state, t with
            | .on, _ => s.powerDown d (targetState t) drained
            | .retain, .off => s.domainDown d .off
            | .off, .retain => s.startWake d
            | _, _ => s
        s.endTarget d)

/-- DOMAIN_IDLE (R597, R599): `quiet` says that nothing has passed the sluice for the idle time and nothing is in flight
inside; `drained` that the traffic inside leaves within 2 µs. -/
def execDomainIdle (dom : Nat) (quiet drained : Bool) (s : State) : Out :=
  onUnit (decide (dom < 56)) (.next (
    let still := domainKind dom != 1 || (List.range 1536).all (fun c => coreDomain c != dom ||
      ((s.core c).state == .idle && (s.core c).holder == .none && !(s.core c).streams.any (fun e => e.2.isOpen))) &&
      s.cpu.reachStreams.all (fun e => sliceDomain (e.1 / 16) != dom || !e.2.isOpen) &&
      s.fab.junctions.all (fun e => sliceDomain (2 * (e.1 / 32)) != dom || e.2.state != 1)
    if s.domTarget dom == .auto && s.awake dom && quiet && still && decide ((s.domain dom).since + 1000 * s.pwr.idleUs ≤ s.clk) then
      s.powerDown dom .retain drained
    else s))

/-- POWERDOWN_DRAIN_TIMEOUT (R604). -/
def execPowerdownDrainTimeout (dom : Nat) (s : State) : Out :=
  onUnit (decide (dom < 56)) (.next (
    let x := s.domain dom
    if (x.going == some .retain || x.going == some .off) && decide (x.since + 2000 ≤ s.clk) then s.abandonDown dom else s))

/-- POWERDOWN_RETRY (R604): a domain whose target is RETAIN or OFF and that is ON tries again. -/
def execPowerdownRetry (dom : Nat) (drained : Bool) (s : State) : Out :=
  onUnit (decide (dom < 56)) (.next (
    let t := s.domTarget dom
    if (t == .retain || t == .off) && s.awake dom && decide ((s.domain dom).since + 100000 ≤ s.clk) then
      (s.powerDown dom (targetState t) drained).endTarget dom
    else s.endTarget dom))

/-! ### Sluices (R600 to R603) -/

/-- A packet at the sluice of domain `d` may wake it: wake-class, a domain under AUTO, or a memory domain in package SLEEP
(R601, R605). -/
def State.packetWakes (s : State) (d : Nat) (ctl : Bool) : Bool :=
  ctl || s.domTarget d == .auto || (s.pwr.state == .sleep && (domainKind d == 4 || domainKind d == 5 || domainKind d == 8))

/-- SLUICE_ARRIVAL (R601): a packet of node `src` arrives; `ctl` says that it is wake-class, `cmd` which hub-die command
made the request. With the buffer full, a CTL packet waits on its credits and a data packet is refused. DEDUCED: either
starts a wake as one that finds room does. -/
def execSluiceArrival (dom src : Nat) (ctl : Bool) (cmd : Option Nat) (s : State) : Out :=
  onUnit (decide (dom < 56)) (.next (
    if s.awake dom then s.updDomain dom (fun x => { x with since := s.clk })
    else
      let p : HeldPacket := ⟨src, ctl, s.clk, cmd⟩
      let s := s.updDomain dom (fun x =>
        if x.held.length < 64 then { x with held := x.held ++ [p] }
        else if ctl then x
        else { x with refused := x.refused ++ [p] })
      if s.packetWakes dom ctl then s.startWake dom else s))

/-- The package leaves SLEEP once every domain that it wakes is ON; a PKG_WAKE that waits completes. -/
def State.endSleep (s : State) : State :=
  match s.pwr.pkgOp with
  | some (c, 8) =>
    if s.pwr.state == .sleep && s.sleepLeft then
      ({ s with pwr := { s.pwr with state := .run, pkgOp := none } } : State).commit c stDone [0]
    else s
  | _ => s

/-- A wake of domain `d` ends (R603). A domain that woke from OFF for a RETAIN target goes down again. -/
def State.wakeEnd (s : State) (d : Nat) : State :=
  let s := (s.domainOn d).updDomain d (fun x => { x with wakes := sat32 (x.wakes + 1) })
  let s := if (s.domain d).cmd.isSome && s.domTarget d == .retain then s.domainDown d .retain else s
  (s.endTarget d).endSleep

/-- DOMAIN_WAKE_DONE (R603). -/
def execDomainWakeDone (dom : Nat) (s : State) : Out :=
  onUnit (decide (dom < 56)) (.next (if (s.domain dom).going != some .on then s else s.wakeEnd dom))

/-- A register access passes the sluice of domain `d` (R18, R600): a domain in RETAIN wakes first, and the access completes
after the wake; one in OFF is not reached, and OFF_ACCESS is set. -/
def State.reachDomain (s : State) (d : Nat) : Bool × State :=
  if (s.domain d).state == .off then (false, { s with pkg := { s.pkg with offAccess := true } })
  else if s.awake d then (true, s.updDomain d (fun x => { x with since := s.clk }))
  else
    let s := s.startWake d
    (true, if (s.domain d).going == some .on then s.wakeEnd d else s)

/-- SLUICE_HOLD_TIMEOUT (R602): data packets held or refused for 100 µs at a domain that is told to sleep, with no wake
begun, are answered for good. -/
def execSluiceHoldTimeout (dom : Nat) (s : State) : Out :=
  onUnit (decide (dom < 56)) (.next (
    let x := s.domain dom
    let t := s.domTarget dom
    if !(t == .retain || t == .off) || x.going == some .on || s.awake dom then s
    else
      let old := fun (p : HeldPacket) => !p.wakeClass && decide (p.at_ + 100000 ≤ s.clk)
      let gone := x.held.filter old ++ x.refused.filter old
      let s := s.updDomain dom (fun x => { x with held := x.held.filter (fun p => !old p), refused := x.refused.filter (fun p => !old p) })
      gone.foldl (fun s p =>
        let s := s.record 0x0E0B 1 0xFF srcPackage 0 dom p.src 0 0
        match p.cmd with
        | some c => s.commit c stDomainAsleep []
        | none => s) s))

/-! ### Package SLEEP and OFF (R605) -/

/-- PKG_SLEEP: reach groups OFF, memory domains in RETAIN, the earlier targets remembered. -/
def execPkgSleep (path : Path) (pk : Packet) (s : State) : Out :=
  beginCmd path pk (setDomKind 7) s (fun f s =>
    let bound := s.pipe.slots.any (fun e => e.2.bound) || s.serv.models.any (fun e => e.2.bound) ||
      s.coll.groups.any (fun e => e.2.bound)
    if s.anyLive || bound then s.refusePower f 5
    else if s.pkgBusy then s.refusePower f 6
    else
      let old := (List.range 56).map s.domTarget
      let s := (List.range 56).foldl (fun s d =>
        let k := domainKind d
        if k = 1 then (s.setTarget d .off).domainDown d .off
        else if k = 4 ∨ k = 5 ∨ k = 8 then (s.setTarget d .retain).domainDown d .retain
        else s) s
      ({ s with pwr := { s.pwr with state := .sleep, remembered := old } } : State).done f [0])

/-- What package OFF leaves: no laser, no power but in HOST and the island. -/
def State.turnOff (s : State) : State :=
  let s := s.darken
  let s := (List.range 56).foldl (fun s d => if domainKind d = 6 then s else s.domainDown d .off) s
  { s with
    pkg := { s.pkg with ready := false }, mem := { ctrls := s.mem.ctrls }, quay := {},
    cpu := { remap := s.cpu.remap, unmapped := s.cpu.unmapped, retired := s.cpu.retired },
    fab := { fabLimit := s.fab.fabLimit, memLimit := s.fab.memLimit, fwClass := s.fab.fwClass, reaches := s.fab.reaches },
    pwr := { s.pwr with state := .off, pkgOp := none, actAt := none, remembered := [] } }

/-- PKG_OFF: completes first, and acts 100 µs after its completion is posted (R613). -/
def execPkgOff (path : Path) (pk : Packet) (s : State) : Out :=
  match s.pwr.actAt with
  | some (t, 9) => .next (if t ≤ s.clk then s.turnOff else s)
  | _ => beginCmd path pk (setDomKind 9) s (fun f s =>
      if s.ten.parts.any (fun e => e.1 != 0 && e.2.state != .free) then s.refusePower f 5
      else if s.pkgBusy then s.refusePower f 6
      else ({ s with pwr := { s.pwr with pkgOp := some (f.id, 9) } } : State).done f [0])

/-! ### Voltage, trim, cap (R606 to R609) -/

def State.die (s : State) (d : Nat) : DiePwr := s.pwr.dies.get {} d
def State.updDie (s : State) (d : Nat) (f : DiePwr → DiePwr) : State :=
  { s with pwr := { s.pwr with dies := s.pwr.dies.upd {} d f } }

/-- The mode target of a die (R607); hub dies take the NOMINAL one. -/
def State.modeTarget (s : State) (d : Nat) : Nat :=
  if 6 ≤ d then 700
  else match s.pwr.mode with
    | 0 => 700
    | 1 => if (s.die d).temp ≤ 60 then 800 else 700
    | _ => s.pwr.fixedMv

/-- V_die (R607). -/
def State.vDie (s : State) (d : Nat) : Nat :=
  let x := s.die d
  max 600 (if 6 ≤ d then min (s.modeTarget d) x.thermLimit else min (s.modeTarget d) (min x.capLimit x.thermLimit))

/-- The rail that a die asks for: its highest domain voltage plus 15 mV (R607). -/
def State.railGoal (s : State) (d : Nat) : Nat :=
  let trims := if d < 6 then (List.range 5).map (fun g => (s.domain (5 * d + g)).trim) else [0]
  min 800 (s.vDie d + trims.foldl max 0) + 15

/-- A value moves towards a goal by at most 10. -/
def stepTo (v goal : Nat) : Nat := if v < goal then min goal (v + 10) else max goal (v - 10)

/-- SET_DOMAIN TRIM (R608): completes when the regulator has settled. -/
def execSetDomainTrim (path : Path) (pk : Packet) (s : State) : Out :=
  beginCmd path pk (setDomKind 2) s (fun f s =>
    let d := pk.f 0x10 13 8
    let mv := pk.w 0x14
    if 56 ≤ d ∨ 40 < mv ∨ mv % 5 ≠ 0 then s.refusePower f 1
    else if domainKind d ≠ 1 ∧ domainKind d ≠ 2 then s.refusePower f 2
    else if s.domBusy d then s.refusePower f 6
    else (s.updDomain d (fun x => { x with trim := mv, cmd := some f.id })).record 0x0E0C 0 0xFF srcPackage 0 d mv 2 0)

/-- VOLTAGE_STEP (R606): the rail of a die moves one step, and the TRIM commands whose rail has settled complete. DEDUCED:
a rail without power, of a retired die, has nothing to settle. -/
def execVoltageStep (die : Nat) (s : State) : Out :=
  onUnit (decide (die < 8)) (.next (
    let off := (s.die die).railMv == 0
    let goal := s.railGoal die
    let s := if off then s else s.updDie die (fun x => { x with railMv := stepTo x.railMv goal })
    if (off = false ∧ (s.die die).railMv ≠ goal) ∨ 6 ≤ die then s
    else (List.range 5).foldl (fun s g =>
      let d := 5 * die + g
      match (s.domain d).cmd with
      | some c =>
        if (s.flight c).any (fun f => f.pk.f 0x10 3 0 == 2) then
          let s := s.updDomain d (fun x => { x with cmd := none })
          s.commit c stDone [s.domWord d]
        else s
      | none => s) s))

/-- SET_DOMAIN POWER (R609, R613). -/
def execSetDomainPower (path : Path) (pk : Packet) (s : State) : Out :=
  beginCmd path pk (setDomKind 3) s (fun f s =>
    let cap := pk.w 0x14
    let mode := pk.f 0x18 1 0
    let mv := pk.f 0x18 19 8
    if cap < 2000 ∨ 5000 < cap ∨ mode = 3 ∨ (mode = 2 ∧ (mv < 600 ∨ 800 < mv)) then s.refusePower f 1
    else if s.pwr.pkgOp.isSome then s.refusePower f 6
    else
      ({ s with pwr := { s.pwr with capW := cap, mode := mode, fixedMv := if mode = 2 then mv else s.pwr.fixedMv } } : State).done f [0])

/-- SET_DOMAIN IDLE_TIME (R597, R613). -/
def execSetDomainIdleTime (path : Path) (pk : Packet) (s : State) : Out :=
  beginCmd path pk (setDomKind 4) s (fun f s =>
    let us := pk.w 0x14
    if us < 10 ∨ 100000 < us then s.refusePower f 1
    else if s.pwr.pkgOp.isSome then s.refusePower f 6
    else ({ s with pwr := { s.pwr with idleUs := us } } : State).done f [0])

/-- Moves the cap limit of every compute die, between 600 and 800 mV. -/
def State.moveCap (s : State) (f : Nat → Nat) : State :=
  (List.range 6).foldl (fun s d => s.updDie d (fun x => { x with capLimit := max 600 (min 800 (f x.capLimit)) })) s

/-- CAP_LOOP (R609): every 1 ms, with the sum of READ_PIN. -/
def execCapLoop (watts : Nat) (s : State) : Out :=
  .next (
    let s : State := { s with pwr := { s.pwr with
      inputW := watts, inputs := (watts :: s.pwr.inputs).take 1000, measMj := sat64 (s.pwr.measMj + watts) } }
    if s.pwr.capW < watts then
      let unmet := (List.range 6).all (fun d => s.vDie d == 600)
      let s := s.moveCap (fun v => v - 5)
      if unmet then s.record 0x0E07 1 0xFF srcPackage 0 s.pwr.capW watts 0 0 [0] else s
    else if watts * 100 < 97 * s.pwr.capW then s.moveCap (fun v => v + 5)
    else s)

/-- ACTIVITY_LOOP (R609): every 10 µs, with the activity estimate. -/
def execActivityLoop (watts : Nat) (s : State) : Out :=
  .next (if 105 * s.pwr.capW < 100 * watts then s.moveCap (fun v => v - 10) else s)

/-! ### Temperature (R610, R611) -/

/-- A sensor has reached 110 °C (R611): THERMTRIP_N, THERM_TRIP, flush and fence. Before firmware runs there is no flush
(Table 21.3). -/
def State.thermalTrip (s : State) (die temp sensor : Nat) : State :=
  if s.pwr.thermTrip then s
  else
    let was := s.log.waiting
    let s : State := { s with pwr := { s.pwr with thermTrip := true } }
    let s := s.record 0x0E06 3 0xFF srcDie die die sensor temp 0 [0]
    if s.pkg.ready then s.fence else ({ s with log := { s.log with waiting := was } } : State).fence

/-- The thermal limit after a reading (R610). -/
def DiePwr.heat (x : DiePwr) (temp now : Nat) : DiePwr :=
  let x := { x with temp := temp }
  if temp > 100 then
    if x.stepAt + 100000 ≤ now then { x with thermLimit := max 600 (x.thermLimit - 5), stepAt := now } else x
  else if temp ≤ 95 then
    if x.stepAt + 1000000 ≤ now then { x with thermLimit := min 800 (x.thermLimit + 5), stepAt := now } else x
  else x

/-- THERMAL_POLL (R610): the hottest sensor of a die. -/
def execThermalPoll (die temp sensor : Nat) (s : State) : Out :=
  onUnit (decide (die < 8) && decide (temp < 256)) (.next (
    let s := s.updDie die (fun x => x.heat temp s.clk)
    let s : State := { s with pwr := { s.pwr with tempMax := ((List.range 8).map (fun d => (s.die d).temp)).foldl max 0 } }
    let x := s.die die
    let low := decide (x.thermLimit < s.modeTarget die)
    let s := if low && !x.throttling then s.record 0x0E04 1 0xFF srcDie die die temp (s.vDie die) 0 else s
    let hot := decide (105 ≤ temp) && s.vDie die == 600
    let s := if hot && !x.atLimit then s.record 0x0E05 2 0xFF srcDie die die temp 0 0 [0] else s
    let s := s.updDie die (fun x => { x with throttling := low, atLimit := hot })
    if 110 ≤ temp then s.thermalTrip die temp sensor else s))

/-! ### Power failure and rail faults (R621, R622, R660 to R663) -/

/-- PWR_WARN_FALL (R621, R588). -/
def execPwrWarnFall (s : State) : Out :=
  .next (
    if s.pwr.warn then s
    else
      let s : State := { s with
        board := { s.board with pwrWarnN := false }, pwr := { s.pwr with warn := true, warnAt := s.clk },
        cmd := { s.cmd with fetchStopped := true } }
      let s := s.record 0x0E09 2 0xFF srcPackage 0 0 0 0 0 [0]
      match s.log.flush with
      | some r => { s with log := { s.log with flush := some { r with fell := some s.clk } } }
      | none => { s with log := s.log.trigger 3 s.clk })

/-- PWR_WARN_RISE (R621): with the rails intact. -/
def execPwrWarnRise (s : State) : Out :=
  .next (
    if !s.pwr.warn then s
    else
      let us := (s.clk - s.pwr.warnAt) / 1000
      let s : State := { s with
        board := { s.board with pwrWarnN := true }, pwr := { s.pwr with warn := false },
        cmd := { s.cmd with fetchStopped := false }, log := { s.log with pwrFlushed := false } }
      s.record 0x0E0A 0 0xFF srcPackage 0 us 0 0 0 [0])

/-- A rail's fault (R622), by its index in Table 21.1: a compute die is retired, any other fault fences the package. -/
def State.railFault (s : State) (rail status : Nat) : State :=
  if rail < 6 then
    if s.pwr.warn then s
    else
      let s := s.updDie rail (fun x => { x with railLost := true, railMv := 0 })
      (s.record 0x0E08 3 0xFF srcDie rail rail status 0 0 [0]).retireDie rail
  else (s.record 0x0E08 3 0xFF srcPackage 0 rail status 0 0 [0]).fence

/-- PMB_ALERT (R660): the regulators whose STATUS_WORD shows a fault. -/
def execPmbAlert (status : List (Nat × Nat)) (s : State) : Out :=
  .next (status.foldl (fun s e =>
    if 20 ≤ e.1 ∨ s.board.faults.contains e.1 then s
    else ({ s with board := { s.board with faults := s.board.faults ++ [e.1] } } : State).railFault e.1 e.2) s)

/-- REFCLK_LOSS (R663): RAIL_FAULT with rail 0xFF, the fence, and the lease on the island's oscillator. -/
def execRefclkLoss (s : State) : Out :=
  .next (
    if !s.board.refclk then s
    else
      let s : State := { s with board := { s.board with refclk := false }, own := { s.own with leaseOnOsc := true } }
      (s.record 0x0E08 3 0xFF srcPackage 0 0xFF 0 0 0 [0]).fence)

/-- REFCLK_RETURN (R663). -/
def execRefclkReturn (s : State) : Out :=
  .next (
    if s.board.refclk then s
    else { s with board := { s.board with refclk := true }, own := { s.own with leaseOnOsc := false } })

/-- The board's rails fall while the island supply stays: every unit but the island loses what it holds. -/
def State.railsGone (s : State) : State :=
  let t := s.turnOff
  { t with
    cmd := {}, ten := {}, link := {}, pipe := {}, coll := {}, serv := {}, fab := {},
    pwr := { t.pwr with state := s.pwr.state, domains := [], dies := t.pwr.dies.map (fun e => (e.1, { e.2 with railMv := 0 })) } }

/-- The island supply falls: nothing is left but the MRAM, the NOR, the fuses and the board; a flush is cut short and its
slot stays invalid (R589). -/
def State.islandGone (s : State) : State :=
  { log := { mram := s.log.mram, genNext := s.log.genNext }, nor := { s.nor with busy := false, op := 0, window := [] },
    board := { s.board with faults := [] }, clk := s.clk, fresh := s.fresh, pending := s.pending }

/-- RAIL_LOSS (R622, R662): rails, by their index in Table 21.1, fall; 20 is the island supply. -/
def execRailLoss (rails : List Nat) (s : State) : Out :=
  .next (
    if rails.contains 20 then s.islandGone
    else
      let core := rails.filter (fun r => decide (r < 6))
      let other := rails.filter (fun r => decide (6 ≤ r ∧ r < 20))
      let s : State := { s with board := { s.board with faults := s.board.faults ++ rails.filter (fun r => !s.board.faults.contains r) } }
      let s := core.foldl (fun s r => s.railFault r 0) s
      if other.isEmpty then s
      else
        let s := if s.pwr.warn then s else other.foldl (fun s r => s.railFault r 0) s
        s.railsGone)

end Sys2Proof.Machine
end

