-- ==== Sys2Proof/Machine/Rebuild.lean ====
section
/-! DEFINITION. The loss of a memory unit (R240, R573): relocation, and the rebuild of what its tier held. -/

namespace Sys2Proof.Machine

/-! ### The rebuild of Table 17.3 -/

/-- What a stage gets back from its buddy: its berths, its checkpointed shards and its gradient accumulators. -/
def State.restorable (s : State) (g : StageSlot) : List (Nat × Nat) :=
  let of := fun (l : List Shard) => l.flatMap (fun x => [(x.va, x.bytes), (x.scaleVa, x.scaleBytes)])
  (g.berths.filter (fun e => e.2.state != .free)).map (fun e => (e.2.va, g.cfg.berthBytes)) ++
    of (match g.svc with
      | some v => s.shards g.part v.listVa v.listCount
      | none => []) ++ of (s.gradShards g)

/-- Some granule of an extent of the list reads as poison. -/
def State.anyPoison (s : State) (part : Nat) (l : List (Nat × Nat)) : Bool := l.any (fun e => s.extentPoison [] part e.1 e.2)

/-- Steps 4 to 6: each stage that has poisoned granules to get back restarts, and reads them from its buddy as it does
(R463, R571). -/
def State.rebuildStages (s : State) : State :=
  (s.pipe.slots.filter (fun e => e.2.bound && !e.2.spare && s.anyPoison e.2.part (s.restorable e.2))).foldl (fun s e =>
    s.updStage e.1 (fun g => { g with restart := some 0x0404 })) s

/-- The granules that a sequence needs: its KV blocks, its prompt and its output. -/
def State.seqExtents (s : State) (a : AstEntry) : List (Nat × Nat) :=
  let c := (s.model a.slot).cfg
  a.blocks.map (fun b => (c.poolVa + b * c.blockBytes, c.blockBytes)) ++ [(a.promptVa, 4 * a.promptLen), (a.outVa, 8 * a.maxNew)]

/-- Step 6 and the rule after the table: a sequence with poisoned granules ends with REASON FAULT, and the running steps of the
partitions that held granules of the unit are replayed. DEDUCED: a sequence that is RETIRING ends as such. -/
def State.rebuildServing (s : State) (tenants : List Nat) : State :=
  let hit := fun (a : AstEntry) => tenants.contains a.part && a.state != .retiring && s.anyPoison a.part (s.seqExtents a)
  let s := s.endWhere hit endFault
  (s.serv.models.filter (fun e => e.2.bound && tenants.contains e.2.part && e.2.state == .stepping)).foldl (fun s e =>
    s.updModel e.1 (fun m => { m with replay := true })) s

/-- Step 7: the owner learns which sources' checkpoints lay in the unit. -/
def State.rebuildBuddies (s : State) (unit : Nat) : State :=
  (s.pipe.accepts.filterMap (·.2)).foldl (fun s a =>
    let n := (s.poisonedGranules a.part a.va a.bytes).length
    if n = 0 then s else s.record 0x0D08 1 0xFF srcMem unit unit 0 n a.srcPkg [0]) s

/-- Steps 4 to 7 of Table 17.3, after `tenants` lost granules on `unit`. -/
def State.rebuild (s : State) (unit : Nat) (tenants : List Nat) : State :=
  ((s.rebuildStages).rebuildServing tenants).rebuildBuddies unit

/-- MEM_UNIT_LOST (R240, R573): a stack or controller is lost, by `cause` 1 retraining, 2 the lengthsman, 3 errors.
`moves` are the frames that firmware moves out of the upper band. A second loss in a tier puts its units in TEST. -/
def execMemUnitLost (unit cause : Nat) (moves : List (Nat × Nat)) (s : State) : Out :=
  onUnit (decide (unit < 28)) (.next (
    let tier := if unit < 12 then 0 else 1
    let first := if tier = 0 then s.mem.lost1.isNone else s.mem.lost2.isNone
    if !(cause == 1 || cause == 2 || (cause == 3 && (s.ctrl unit).worn)) then s
    else if (s.ctrl unit).state == .lost then s
    else if !first then
      let s := (s.retireMem unit).dropQe unit
      let s := s.record 0x0404 3 0xFF srcMem unit cause (if tier = 0 then 11 else 15) 0 0 [0]
      (List.range 28).foldl (fun s u => if decide (u < 12) == decide (unit < 12) then
        s.updCtrl u (fun c => { c with state := if c.state = .lost then .lost else .test }) else s) s
    else if !s.mem.movesFit tier moves then s
    else
      let tenants := (s.lostGranules unit).1
      let (s, back) := s.relocate unit cause moves
      let head := s.lastRecord
      let s := (s.rebuild unit tenants).beginRecovery 2 0xFF
      let s := s.record 0x0D08 1 0xFF srcMem unit unit (back / 256) ((s.lostGranules unit).2 - back) 0 [0]
      s.endRecovery head))

end Sys2Proof.Machine
end

