-- ==== Sys2Proof/Machine/Rings.lean ====
section
/-! DEFINITION. Command paths (R529 to R544, R553): rings, mailboxes and towpath commands, completions and events,
IDENTIFY and NEGOTIATE_LEVEL. -/

namespace Sys2Proof.Machine

/-! ### IDENTIFY and NEGOTIATE_LEVEL -/

/-- IDENTIFY (R25, R529). -/
def execIdentify (path : Path) (pk : Packet) (s : State) : Out :=
  beginCmd path pk (ofOp 0x001) s (fun f s =>
    s.done f [s.pkgWord 0x00, s.pkgWord 0x04, s.pkgWord 0x08, if s.pkg.ready then s.pkgWord 0x1C else 0])

/-- A tenant partition exists. -/
def State.anyPart (s : State) : Bool := s.ten.parts.any (fun e => e.1 != 0 && e.2.state != .free)

/-- NEGOTIATE_LEVEL (R553). -/
def execNegotiateLevel (path : Path) (pk : Packet) (s : State) : Out :=
  beginCmd path pk (ofOp 0x002) s (fun f s =>
    let l := pk.f 0x10 3 0
    if l ≠ 1 ∨ s.pkg.dieLevelMin < l then s.commit f.id stLevelUnsupported [1]
    else if l ≠ s.pkg.runLevel ∧ s.anyPart = true then s.commit f.id stLevelUnsupported [2]
    else ({ s with pkg := { s.pkg with runLevel := l } } : State).done f [l])

/-! ### Rings in service (R530, R531) -/

/-- Commands of a path that have been fetched and are not posted. -/
def State.inflight (s : State) (p : Path) : Nat :=
  (s.cmd.flights.filter (fun f => f.path == p)).length + (s.cmd.committed.filter (fun c => c.path == p)).length

/-- Completion entries that software has not read. -/
def Ring.used (r : Ring) : Nat := (r.cqTail + 2 ^ r.cqLog2 - r.head % 2 ^ r.cqLog2) % 2 ^ r.cqLog2

/-- PCIe port `k` can be used by a ring. -/
def State.portUsable (s : State) (k : Nat) : Bool :=
  bit s.pkg.hdOk k && (if k = 0 then s.board.perst0N else s.board.perst1N) && (s.domain (39 + 11 * k)).state == .on

/-- The configuration passes the checks of R531. -/
def State.ringOk (s : State) (r : Ring) : Bool :=
  r.sqBase % 4096 == 0 && r.cqBase % 4096 == 0 && decide (4 ≤ r.sqLog2 ∧ r.sqLog2 ≤ 12) &&
    decide (r.sqLog2 ≤ r.cqLog2 ∧ r.cqLog2 ≤ 12) && (!(r.sqHost || r.cqHost) || s.portUsable r.hostPort)

/-- The fields of RING_CFG but ENABLE (Table 16.4). -/
def Ring.config (r : Ring) (v : Nat) : Ring :=
  { r with
    sqHost := bit v 30, cqHost := bit v 29, hostPort := bits v 28 28, dbPorts := bits v 27 26, sqLog2 := bits v 23 20,
    cqLog2 := bits v 19 16, irqEn := bit v 15, vector := bits v 6 0 }

/-- RING_ENABLE (R531): a write of RING_CFG with ENABLE 1. A ring that still drains takes no ENABLE: DEDUCED. -/
def State.enableRing (s : State) (n value : Nat) : State :=
  let r := s.ring n
  if r.enable || r.draining then s
  else
    let r := r.config value
    s.updRing n (fun _ =>
      if s.ringOk r then { r with
        enable := true, enabled := true, sqHead := 0, tail := 0, cqTail := 0, head := 0, nextSeq := 0, phase := 1,
        fault := false, cause := 0 }
      else { r with fault := true, cause := 3 })

/-- RING_DISABLE (R531): a write of RING_CFG with ENABLE 0. -/
def State.disableRing (s : State) (n value : Nat) : State :=
  let r := s.ring n
  if !r.enable then s.updRing n (fun r => r.config value)
  else if s.inflight (.ring n) = 0 then s.updRing n (fun r => { r with enable := false, enabled := false })
  else s.updRing n (fun r => { r with enable := false, draining := true })

def execRingEnable (m : Master) (ring value : Nat) (s : State) : Out :=
  onUnit (decide (ring < 65)) (.next (if bit value 31 then s.ownerWrite m (fun s => s.enableRing ring value) else s))

def execRingDisable (m : Master) (ring value : Nat) (s : State) : Out :=
  onUnit (decide (ring < 65)) (.next (if bit value 31 then s else s.ownerWrite m (fun s => s.disableRing ring value)))

/-! ### Completions and events (R528, R533, R534, R544) -/

/-- A completion or an event as a status entry (Tables 16.3 and 17.7). -/
def statusEntry (phase opcode status seq tag part sqHead : Nat) (res : List Nat) : List Nat :=
  [phase * 2 ^ 31 + opcode * 2 ^ 16 + status, seq, tag, part * 2 ^ 16 + sqHead] ++ (List.range 4).map (fun i => wrap32 (res.getD i 0))

def Completion.entry (c : Completion) (phase sqHead : Nat) : List Nat :=
  statusEntry phase c.opcode c.status c.seq c.tag c.part sqHead c.res
def EventRec.entry (e : EventRec) (phase : Nat) : List Nat :=
  statusEntry phase 0 0 0xFFFFFFFF (e.code + e.sev * 2 ^ 16) e.part 0 e.p

/-- Sends an MSI-X vector, or marks it pending while it is masked. -/
def State.msi (s : State) (port vector : Nat) : State :=
  let fire := fun (x : Msix) => if x.masked then { x with pending := true } else { x with sent := x.sent + 1 }
  { s with cmd := { s.cmd with msix := s.cmd.msix.upd {} (port * 128 + vector) fire } }

/-- Signals a master about its mailbox: a vector to a host, an I3C in-band interrupt to the BMC (R537). -/
def State.signal (s : State) (bank vector : Nat) : State :=
  if bank < 2 then s.msi bank vector else { s with cmd := { s.cmd with i3cIrq := s.cmd.i3cIrq + 1 } }

/-- Where the entry at CQ_TAIL of a ring lies. -/
def Ring.cqAddr (r : Ring) : Nat := r.cqBase + 32 * r.cqTail

/-- A ring faults with a cause (R535). -/
def State.ringFault (s : State) (n cause : Nat) : State :=
  (s.updRing n (fun r => { r with fault := true, cause := cause })).record 0x0C01 1 (if n = 0 then 0xFF else n) srcRing n cause 0 0 0 [0]

/-- Writes an entry at CQ_TAIL; `ok` is false when host memory does not take it. -/
def State.writeCq (s : State) (n : Nat) (entry : Nat → List Nat) (ok irq : Bool) : State :=
  let r := s.ring n
  let bytes := wordsToBytes (entry r.phase)
  let fits := if r.cqHost then ok else (s.extentFault n r.cqAddr 32 true).isNone
  if !fits then if r.fault ∧ r.cause = 2 then s else s.ringFault n 2
  else
    let s := if r.cqHost then s.hostWrite r.hostPort r.cqAddr bytes else s.writeVA n r.cqAddr bytes
    let wraps := r.cqTail + 1 == 2 ^ r.cqLog2
    let s := s.updRing n (fun r => { r with
      cqTail := if wraps then 0 else r.cqTail + 1, phase := if wraps then 1 - r.phase else r.phase })
    if irq && r.irqEn then s.msi r.hostPort r.vector else s

/-- A ring with nothing in flight ends its draining (R531). -/
def State.endDrain (s : State) (n : Nat) : State :=
  let s := if (s.ring n).draining && s.inflight (.ring n) == 0 then
      s.updRing n (fun r => { r with draining := false, enabled := false })
    else s
  if n = 0 then s.closeControlRing else s

/-- Where an owner event goes (R544): 0 the control ring, 1 plus a mailbox bank, none while it waits; a fabric manager is
4. -/
def State.ownerSink (s : State) : Option Nat :=
  match s.own.owner with
  | none => none
  | some (.fm _) => some 4
  | some .bmc => some 3
  | some m => if (s.ring 0).ownerChange then none else if (s.ring 0).enabled && (s.ring 0).enable then some 0 else some (1 + m.bank)

/-- The first waiting event of a recipient leaves the queue. -/
def State.popEvent (s : State) (p : Nat) : State :=
  { s with cmd := { s.cmd with events := s.cmd.events.upd [] p (fun l => l.drop 1) } }

/-- A ring has an entry free beyond the reservation of R533. -/
def State.cqRoom (s : State) (n : Nat) : Bool :=
  let r := s.ring n
  r.enabled && !r.fault && decide (s.inflight (.ring n) + r.used + 1 < 2 ^ r.cqLog2)

/-- Posts the first waiting event of a recipient (0 the owner), if it has a place (EVENT_POST). -/
def State.postEvent (s : State) (p : Nat) (ok : Bool) : State :=
  match s.cmd.events.get [] p with
  | [] => s
  | e :: _ =>
    let onRing := fun (n : Nat) => if s.cqRoom n then (s.popEvent p).writeCq n e.entry ok true else s
    if p ≠ 0 then onRing p
    else match s.ownerSink, s.own.owner with
      | some 0, _ => onRing 0
      | some 4, some (.fm pkg) => (s.popEvent 0).sendMsg 0x31 1 pkg (e.entry 0)
      | some k, _ =>
        let b := k - 1
        if (s.mbox b).evtFull then s
        else
          let words : Tab Nat := []
          ((s.popEvent 0).updMbox b (fun x => { x with evtFull := true, evt := words.putAll 0 0 (e.entry 0) })).signal b 127
      | none, _ => s

/-- Posts waiting events of a recipient while there is room. -/
def State.postEvents (s : State) (p : Nat) (ok : Bool) : State :=
  (List.range 64).foldl (fun s _ => s.postEvent p ok) s

/-- The oldest committed completion of a path leaves the package on it (R528, R533, R537, R539); after it, events that
wait for that path. A posted SOFT_RESET or PKG_OFF acts 100 µs later (R613). -/
def State.postOn (s : State) (path : Path) (ok : Bool) : State :=
  match listFind (fun c => c.path == path) s.cmd.committed with
  | none => s
  | some c =>
    let s := { s with cmd := { s.cmd with committed := delFirst (fun x => x.id == c.id) s.cmd.committed } }
    let s := match s.pwr.pkgOp with
      | some (id, op) =>
        if id = c.id then { s with pwr := { s.pwr with actAt := some (s.clk + 100000, op) } } else s
      | none => s
    match path with
    | .ring n =>
      (if (s.ring n).enabled then s.writeCq n (fun ph => c.entry ph c.sqHead) ok c.irq else s).endDrain n
    | .mailbox b =>
      let words : Tab Nat := []
      (s.updMbox b (fun x => { x with sts := words.putAll 0 0 (c.entry 0 0), busy := false, done := true })).signal b 126
    | .towpath pkg =>
      let w := c.entry 0 0
      let s := if s.isOwner (.fm pkg) then { s with cmd := { s.cmd with fmStored := ((c.seq, w) :: s.cmd.fmStored).take 16 } } else s
      s.sendMsg 0x11 1 pkg w
    | .plan _ => s

/-- COMPLETION_POST (R533, R544): the package posts on a path; `ok` is false when the host does not take the write. A plan's
completions go to PLAN_ENTRY_ISSUE. -/
def execCompletionPost (path : Path) (ok : Bool) (s : State) : Out :=
  .next (match path with
    | .plan _ => s
    | .ring n => (s.postOn path ok).postEvents n ok
    | _ => (s.postOn path ok).postEvents 0 ok)

/-! ### Doorbells and fetching (R532, R533, R535, R536, R541) -/

/-- A doorbell of a ring may come from a master (R525): the lock-keeper, or a host port that DB_PORTS of a partition's
ring names. -/
def State.doorbell (s : State) (m : Master) (n : Nat) : Bool :=
  s.isOwner m || (n != 0 && (match m with
    | .host0 => bit (s.ring n).dbPorts 0
    | .host1 => bit (s.ring n).dbPorts 1
    | _ => false))

/-- RING_SQ_TAIL (R532). -/
def State.writeTail (s : State) (m : Master) (n value : Nat) : State :=
  if !s.doorbell m n then s.denyOwn
  else
    let t := bits value 11 0
    if t ≥ 2 ^ (s.ring n).sqLog2 then s.updRing n (fun r => { r with fault := true, cause := 3 })
    else s.updRing n (fun r => { r with tail := t })

/-- RING_CQ_HEAD (R533): completion entries become free, and events that waited for one are posted. -/
def State.writeHead (s : State) (m : Master) (n value : Nat) (ok : Bool) : State :=
  if !s.doorbell m n then s.denyOwn
  else (s.updRing n (fun r => { r with head := bits value 11 0 })).postEvents n ok

def execRingSqTail (m : Master) (ring value : Nat) (s : State) : Out :=
  onUnit (decide (ring < 65)) (.next (s.writeTail m ring value))

def execRingCqHead (m : Master) (ring value : Nat) (ok : Bool) (s : State) : Out :=
  onUnit (decide (ring < 65)) (.next (s.writeHead m ring value ok))

/-- A ring may fetch (R533, R535, R550, R621). -/
def State.mayFetch (s : State) (n : Nat) : Bool :=
  let r := s.ring n
  r.enabled && r.enable && !r.fault && !r.ownerChange && !s.cmd.fetchStopped && r.sqHead != r.tail &&
    decide (s.inflight (.ring n) < 64) && decide (s.inflight (.ring n) + r.used + 1 < 2 ^ r.cqLog2)

/-- The package takes an entry that it has read (R541). -/
def State.takeEntry (s : State) (n : Nat) (bytes : List Byte) : State :=
  let pk := Packet.ofWords (bytesToWords bytes)
  let head := ((s.ring n).sqHead + 1) % 2 ^ (s.ring n).sqLog2
  let s := s.updRing n (fun r => { r with sqHead := head })
  let now := fun (s : State) (st : Nat) =>
    ({ s with cmd := { s.cmd with nextId := s.cmd.nextId + 1 } } : State).commitRaw s.cmd.nextId (.ring n) pk head st []
  if pk.seq.toNat ≠ (s.ring n).nextSeq then now s stSeqMismatch
  else
    let s := s.updRing n (fun r => { r with nextSeq := wrap32 (r.nextSeq + 1) })
    if n ≠ 0 ∧ (s.part n).pairBad = true then now s stPairFault
    else if n ≠ 0 ∧ (s.part n).state = .destroying then now s stAborted
    else s.takePacketOn (.ring n) pk head none

/-- RING_FETCH (R541): `host` is what reading an entry in host memory returns, none for a completion error; `ue` lists lines
found uncorrectable. A bad entry of the partition table is rewritten first (R503). -/
def execRingFetch (ring : Nat) (host : Option (List Byte)) (ue : List Nat) (s : State) : Out :=
  onUnit (decide (ring < 65)) (.next (
    if !s.mayFetch ring then s
    else
      let s := if ring = 0 then s else s.fixEntry ring
      let r := s.ring ring
      if r.sqHost then match host with
        | some b => if b.length = 64 then s.takeEntry ring b else s.ringFault ring 1
        | none => s.ringFault ring 1
      else
        let va := r.sqBase + 64 * r.sqHead
        let s' := s.notePairFault ring va
        if (s.extentFault ring va 64 false).isSome then s'.ringFault ring 1
        else
          let s := s.noteUes ue ring va 64
          if s.extentPoison ue ring va 64 then s.ringFault ring 1
          else s.takeEntry ring (s.readVA ring va 64)))

/-! ### Mailboxes (R537) -/

/-- MBOX_DOORBELL: a write of 1 submits the packet of MBOX_CMD. -/
def State.submitMbox (s : State) (b : Nat) : State :=
  let x := s.mbox b
  if x.busy || s.cmd.fetchStopped then s
  else (s.updMbox b (fun x => { x with busy := true })).takePacketOn (.mailbox b) (Packet.ofWords (x.cmd.getAll 0 0 16)) 0
    (some (mboxMaster b))

/-- A fabric manager has no mailbox. -/
def onMbox (m : Master) (s : State) (f : Nat → State) : State :=
  match m with
  | .fm _ => s
  | _ => f m.bank

def execMboxDoorbell (m : Master) (s : State) : Out := .next (onMbox m s (fun b => s.submitMbox b))

/-- MBOX_EVT_ACK: MBOX_EVT is free for the next event. -/
def State.ackMbox (s : State) (b : Nat) : State :=
  let s := s.updMbox b (fun x => { x with evtFull := false })
  if s.own.owner = some (mboxMaster b) then s.postEvent 0 true else s

def execMboxEvtAck (m : Master) (s : State) : Out := .next (onMbox m s (fun b => s.ackMbox b))

/-! ### Towpath commands (R539) -/

/-- Commands of the fabric-manager lock-keeper that have come are accepted in SEQ order. -/
def State.takeAhead (s : State) (pkg : Nat) : Nat → State
  | 0 => s
  | n + 1 =>
    match listFind (fun p => p.seq.toNat == s.own.fmNextSeq) s.own.fmAhead with
    | none => s
    | some p =>
      let s := { s with own := { s.own with
        fmAhead := delFirst (fun q => q == p) s.own.fmAhead, fmNextSeq := wrap32 (s.own.fmNextSeq + 1) } }
      (s.takePacketOn (.towpath pkg) p 0 (some (.fm pkg))).takeAhead pkg n

/-- TOWPATH_COMMAND (R539): the first delivered COMMAND message. -/
def execTowpathCommand (s : State) : Out :=
  .next (
    if s.cmd.fetchStopped then s
    else match listFind (fun e => e.2.ttype == 0x10) s.link.msgs with
    | none => s
    | some e =>
      let s := { s with link := { s.link with msgs := delFirst (fun x => x == e) s.link.msgs } }
      let pkg := e.2.src
      let pk := Packet.ofWords e.2.words
      if e.2.words.length ≠ 16 then s
      else if !s.isOwner (.fm pkg) then s.takePacketOn (.towpath pkg) pk 0 (some (.fm pkg))
      else
        let seq := pk.seq.toNat
        let ahead := seqDist s.own.fmNextSeq seq
        let behind := seqDist seq s.own.fmNextSeq
        if ahead < 16 then
          let s := { s with own := { s.own with fmAhead := s.own.fmAhead.filter (fun (p : Packet) => p.seq != pk.seq) ++ [pk] } }
          s.takeAhead pkg 16
        else if behind ≤ 16 then
          match listFind (fun x => x.1 == seq) s.cmd.fmStored with
          | some x => s.sendMsg 0x11 1 pkg x.2
          | none => s
        else s.record 0x0C02 1 0xFF srcPackage 0 seq s.own.fmNextSeq pkg 0)

end Sys2Proof.Machine
end

