-- ==== Sys2Proof/Machine/Test.lean ====
section
/-! DEFINITION. Bring-up tests (R241 to R243, R652 to R656): LOOPBACK, TRAFFIC_GEN, the loop-back and generator registers. -/

namespace Sys2Proof.Machine

def State.refuseDebug (s : State) (f : Flight) (cause : Nat) : State := s.refuse f stDebugRefused cause

/-- A memory unit's tier. -/
def unitTier (u : Nat) : Nat := if u < 12 then 0 else 1
/-- The units of a tier. -/
def tierUnits (t : Nat) : List Nat := (List.range 28).filter (fun u => unitTier u == t)

/-- Every unit of a tier but the lost ones is in TEST, and some unit is (R653). -/
def State.tierTested (s : State) (t : Nat) : Bool :=
  s.tierInTest t && (tierUnits t).all (fun u => (s.ctrl u).state == .test || s.pkg.unitLost u)

/-- A whole tier may enter TEST (R241), or is in it: no partition from 1 to 64 exists. -/
def State.mayTest (s : State) (t : Nat) : Bool :=
  s.tierTested t || !s.ten.parts.any (fun e => e.1 != 0 && e.2.state != .free)

/-- Another LOOPBACK or TRAFFIC_GEN acts on a unit or on its tier. -/
def State.testBusy (s : State) (t : Nat) : Bool := s.mem.tests.any (fun e => unitTier e.2 == t)

/-- TRAFFIC_GEN ENTER: every unit of the tier that is not LOST enters TEST (R653). -/
def State.enterTest (s : State) (t : Nat) : State :=
  if s.tierTested t then s
  else
    let s := (tierUnits t).foldl (fun s u => s.updCtrl u (fun c => { c with state := if c.state = .lost then .lost else .test })) s
    s.record 0x0F07 1 0xFF srcPackage 0 t 1 0 0 [0]

/-- LOOPBACK places the tier of unit `u` in TEST (R654). The controller of a unit that has been lost may enter TEST whoever holds the
tier (R241), but DEDUCED: it takes the other controllers, whose units are not lost, along only when they may. -/
def State.enterLoop (s : State) (u : Nat) : State :=
  let t := unitTier u
  if !s.pkg.unitLost u then s.enterTest t
  else
    let s := if s.mayTest t then s.enterTest t
      else if s.tierInTest t then s else s.record 0x0F07 1 0xFF srcPackage 0 t 1 0 0 [0]
    s.updCtrl u (fun c => { c with state := .test })

/-- A loop-back run has moved bytes through the unit's interface (R242). -/
def State.loopTraffic (s : State) (u : Nat) : State :=
  let (k, s) := s.draw
  (s.unitRead u (Config.loopBytes k)).unitWrote u (Config.loopBytes k)

/-- Loop-back starts on a unit: its results are cleared. -/
def State.startLb (s : State) (u mode duration : Nat) : State :=
  s.updCtrl u (fun c => { c with
    lbMode := mode, lbDuration := duration, lbRunning := true, lbStart := s.clk, lbStatus := 0, lbErr := 0 })

/-- A unit that fails a test is lost under R240; the tier holds no tenant's frame. -/
def State.testLost (s : State) (u : Nat) : State :=
  if (s.ctrl u).state = .lost ∨ s.pkg.unitLost u = true then s
  else if (if u < 12 then s.mem.lost1.isNone else s.mem.lost2.isNone) then (s.relocate u 3 []).1
  else
    let s := ((s.retireMem u).dropQe u).updCtrl u (fun c => { c with state := .lost })
    s.record 0x0404 3 0xFF srcMem u 3 (if u < 12 then 11 else 15) 0 0 [0]

/-! ### The commands -/

/-- The LOOPBACK of a target: 1 MEM, 2 PORT. A reserved TARGET is refused by the first. -/
def loopKind (port : Bool) (pk : Packet) : Bool := pk.opcode == 0x901 && (pk.f 0x10 1 0 == 2) == port

/-- MODE and DURATION_US in range. -/
def loopFields (pk : Packet) : Bool :=
  (pk.f 0x10 3 2 == 1 || pk.f 0x10 3 2 == 2) && decide (1 ≤ pk.w 0x14 ∧ pk.w 0x14 ≤ 10000000)

/-- LOOPBACK of a memory unit (R654). -/
def execLoopbackMem (path : Path) (pk : Packet) (s : State) : Out :=
  beginOn path pk (loopKind false) { doms := fun _ => if pk.f 0x10 12 8 < 28 then [unitDomain (pk.f 0x10 12 8)] else [] } s (fun f s =>
    let u := pk.f 0x10 12 8
    if pk.f 0x10 1 0 ≠ 1 ∨ 28 ≤ u ∨ loopFields pk = false then s.refuseDebug f 1
    else if !s.mayTest (unitTier u) && !s.pkg.unitLost u then s.refuseDebug f 2
    else if s.testBusy (unitTier u) then s.refuseDebug f 4
    else
      let s := (s.enterLoop u).startLb u (pk.f 0x10 3 2) 0
      { s with mem := { s.mem with tests := s.mem.tests ++ [(f.id, u)] } })

/-- LOOPBACK of a canal port (R655). -/
def execLoopbackPort (path : Path) (pk : Packet) (s : State) : Out :=
  beginOn path pk (loopKind true) { doms := fun _ => if pk.f 0x10 12 8 < 24 then [portDomain (pk.f 0x10 12 8)] else [] } s (fun f s =>
    let p := pk.f 0x10 12 8
    let x := s.port p
    if 24 ≤ p ∨ loopFields pk = false then s.refuseDebug f 1
    else if !(x.state == .disabled || x.state == .parked || x.state == .down) then s.refuseDebug f 2
    else if s.time.enable && s.time.parentPort == p then s.refuseDebug f 3
    else if x.loop.isSome then s.refuseDebug f 4
    else s.updPort p (fun x => { x with loop := some (f.id, pk.f 0x10 3 2, s.clk, x.state) }))

/-- The packet of a command in flight. -/
def State.flightPk (s : State) (id : Nat) : Option Packet := (s.flight id).map (·.pk)

/-- PORT_LOOPBACK_END (R655, R656): the mask of failing lanes, bit errors, bits checked / 2^20. -/
def execPortLoopbackEnd (port lanes errs mbits : Nat) (s : State) : Out :=
  onUnit (decide (port < 24)) (.next (match (s.port port).loop with
    | none => s
    | some (cmd, mode, since, before) =>
      let us := ((s.flightPk cmd).map (fun pk => pk.w 0x14)).getD 0
      if s.clk < since + 1000 * us then s
      else
        let bad := lanes % 256 != 0 || errs != 0
        let s := s.updPort port (fun x => { x with loop := none, state := before })
        let s := if bad && mode == 1 && bit s.pkg.cpOk port then s.retirePortBit port else s
        let s := if bad then s.record 0x0F06 2 0xFF srcPort port 2 port (lanes % 256) (sat32 errs) [0] else s
        s.commit cmd stDone [lanes % 256, sat32 errs, sat32 mbits, b2n (!bit s.pkg.cpOk port)]))

/-- TRAFFIC_GEN of an operation; a reserved one is refused by ENTER. -/
def tgKind (exit : Bool) (pk : Packet) : Bool := pk.opcode == 0x902 && (pk.f 0x10 1 0 == 2) == exit

/-- TRAFFIC_GEN ENTER (R653). -/
def execTrafficGenEnter (path : Path) (pk : Packet) (s : State) : Out :=
  beginOn path pk (tgKind false) { doms := fun _ => (tierUnits (pk.f 0x10 2 2)).map unitDomain } s (fun f s =>
    let t := pk.f 0x10 2 2
    if pk.f 0x10 1 0 ≠ 1 then s.refuseDebug f 1
    else if !s.mayTest t then s.refuseDebug f 2
    else if s.testBusy t then s.refuseDebug f 4
    else (s.enterTest t).done f [])

/-- Every byte of a tier is zero, and no line of it is marked (R245). -/
def Mem.zeroTier (m : Mem) (t : Nat) : Mem :=
  { m with
    dead1 := if t = 0 then none else m.dead1, dead2 := if t = 1 then none else m.dead2,
    cache := if t = 1 then [] else m.cache,
    bytes := m.bytes.filter (fun e => tierOf e.1 != t),
    marks := m.marks.filter (fun e => tierOf (e.1 * 64) != t),
    frames := m.frames.filter (fun e => tierOf (e.1 * 2 ^ 21) != t || !(e.2 == .queued)),
    zeroQueue := m.zeroQueue.filter (fun f => tierOf (f * 2 ^ 21) != t) }

/-- TRAFFIC_GEN EXIT (R653): `bad` are the units that fail training or loop-back. A lost unit stays lost; DEDUCED: when its controller
alone was in TEST, the other units, which were not, keep what they hold. -/
def execTrafficGenExit (path : Path) (pk : Packet) (bad : List Nat) (s : State) : Out :=
  beginOn path pk (tgKind true) { doms := fun _ => (tierUnits (pk.f 0x10 2 2)).map unitDomain } s (fun f s =>
    let t := pk.f 0x10 2 2
    if !s.tierInTest t then s.refuseDebug f 2
    else if s.testBusy t then s.refuseDebug f 4
    else
      let lostBefore := (if t = 0 then s.mem.lost1 else s.mem.lost2).isSome
      let lost := fun (u : Nat) => s.pkg.unitLost u
      let whole := (tierUnits t).any (fun u => (s.ctrl u).state == .test && !lost u)
      let s := (tierUnits t).foldl (fun s u => s.updCtrl u (fun c => { c with
        lbRunning := false, lbMode := 0, tgBusy := false, tgStop := false,
        state := if lost u then .lost else if c.state != .test then c.state else if lostBefore then .relocated else .service })) s
      let gone := if whole then (bad.filter (fun u => unitTier u == t && decide (u < 28))).eraseDups else []
      let s := gone.foldl (fun s u => s.testLost u) s
      let s := if whole then { s with mem := s.mem.zeroTier t } else s
      (s.record 0x0F07 1 0xFF srcPackage 0 t 2 gone.length 0 [0]).done f [])

/-! ### Loop-back of a unit (Table 7.14) -/

/-- A write of MEM_LB_CTRL; it is ignored unless the controller is in TEST (R241). A START with MODE OFF or the reserved one
starts nothing: DESIGN CHOICE. -/
def State.lbCtrl (s : State) (u v : Nat) (status errs : Nat) : State :=
  if (s.ctrl u).state != .test then s
  else
    let s := s.updCtrl u (fun c => { c with lbDuration := bits v 31 16, lbMode := bits v 1 0 })
    let s := if bit v 2 && (bits v 1 0 == 1 || bits v 1 0 == 2) then s.startLb u (bits v 1 0) (bits v 31 16) else s
    if bit v 3 && (s.ctrl u).lbRunning then
      (s.loopTraffic u).updCtrl u (fun c => { c with lbRunning := false, lbStatus := wrap32 status, lbErr := sat32 errs })
    else s

/-- MEM_LB_START: a write of MEM_LB_CTRL with START. -/
def execMemLbStart (m : Master) (unit value : Nat) (s : State) : Out :=
  onUnit (decide (unit < 28)) (.next (if bit value 2 then s.ownerWrite m (fun s => s.lbCtrl unit value 0 0) else s))

/-- MEM_LB_STOP: a write of MEM_LB_CTRL with STOP; `status` and `errs` are what the run has found. -/
def execMemLbStop (m : Master) (unit value status errs : Nat) (s : State) : Out :=
  onUnit (decide (unit < 28)) (.next (if bit value 3 then s.ownerWrite m (fun s => s.lbCtrl unit value status errs) else s))

/-- The LOOPBACK command that runs on a unit. -/
def State.loopCmd (s : State) (u : Nat) : Option Nat := (listFind (fun e => e.2 == u) s.mem.tests).map (·.1)

/-- A LOOPBACK of a unit ends (R654, R656). -/
def State.endLoop (s : State) (u cmd status errs mbits : Nat) (repaired : Bool) : State :=
  let near := (s.ctrl u).lbMode == 1
  let bad := errs != 0 || status != 0
  let s := { s with mem := { s.mem with tests := s.mem.tests.filter (fun e => e.1 != cmd) } }
  let lose := near && bad && !(repaired && decide (u < 12))
  let s := if near && bad && repaired && decide (u < 12) then
      s.updCtrl u (fun c => { c with lanes := sat16 (c.lanes + popCount (bits status 31 16) 16) })
    else s
  let s := if lose then s.testLost u else s
  let s := if bad then s.record 0x0F06 2 0xFF srcMem u 1 u status errs [0] else s
  s.commit cmd stDone [status, errs, sat32 mbits, 2 * b2n (s.pkg.unitLost u)]

/-- MEM_LB_DURATION_END (R241, R654): the run's time is up. `repaired` says that lane repair replaces the failing lanes. -/
def execMemLbDurationEnd (unit status errs mbits : Nat) (repaired : Bool) (s : State) : Out :=
  onUnit (decide (unit < 28)) (.next (
    let c := s.ctrl unit
    if !c.lbRunning then s
    else
      let us := match s.loopCmd unit with
        | some cmd => ((s.flightPk cmd).map (fun pk => pk.w 0x14)).getD 0
        | none => c.lbDuration
      if us = 0 ∨ s.clk < c.lbStart + 1000 * us then s
      else
        let st := wrap32 status
        let er := sat32 errs
        let s := (s.loopTraffic unit).updCtrl unit (fun c => { c with lbRunning := false, lbStatus := st, lbErr := er })
        match s.loopCmd unit with
        | some cmd => s.endLoop unit cmd st er mbits repaired
        | none => s))

/-! ### The traffic generator (R243, Table 7.15) -/

/-- Bytes of a unit, its test area included (R214). -/
def unitBytes (u : Nat) : Nat := if u < 12 then 0xEE6800000 + 0x200000 else 0x2000000000

/-- The device address of a unit-local offset (R185, R216). -/
def unitAddr (u o : Nat) : Nat :=
  if u < 12 then (o / 4096 * 12 + u) * 4096 + o % 4096 else tier2Base + (o / 4096 * 16 + (u - 12)) * 4096 + o % 4096

/-- One output bit of the generator x^31 + x^28 + 1, and the next state. -/
def prbsStep (x : Nat) : Nat × Nat :=
  let b := (x / 2 ^ 30 + x / 2 ^ 27) % 2
  (b, x * 2 % 2 ^ 31 + b)

/-- 32 successive output bits, the first in bit 0. -/
def prbsWord (x : Nat) : Nat × Nat :=
  (List.range 32).foldl (fun (a : Nat × Nat) i =>
    let r := prbsStep a.2
    (a.1 + r.1 * 2 ^ i, r.2)) (0, x)

/-- `n` words of the generator. -/
def prbsWords : Nat → Nat → List Nat
  | _, 0 => []
  | x, n + 1 => (prbsWord x).1 :: prbsWords (prbsWord x).2 n

/-- The 32-bit words of a pass over `lines` lines. -/
def MemCtrl.pattern (c : MemCtrl) (lines : Nat) : List Nat :=
  let n := 16 * lines
  match c.tgPattern with
  | 0 => List.replicate n c.tgFixed
  | 1 => prbsWords (if c.tgSeed % 2 ^ 31 = 0 then 0x7FFFFFFF else c.tgSeed % 2 ^ 31) n
  | 2 => (List.range n).map (fun i => 2 ^ (i / 16 % 32))
  | 3 => (List.range n).map (fun i => compl32 (2 ^ (i / 16 % 32)))
  | 4 => (List.range n).map (fun i =>
      let o := c.tgBase + 4 * i / 8 * 8
      if i % 2 = 0 then lo32 o else hi32 o)
  | _ => (List.range n).map (fun i => if i / 16 % 2 = 0 then 0x55555555 else 0xAAAAAAAA)

/-- Lines of one pass: the range, cut at the end of the unit. -/
def MemCtrl.passLines (c : MemCtrl) (u : Nat) : Nat := (min (c.tgBase + c.tgLen) (unitBytes u) - c.tgBase) / 64
/-- The range passes the end of the unit. -/
def MemCtrl.past (c : MemCtrl) (u : Nat) : Bool := decide (unitBytes u < c.tgBase + c.tgLen)

/-- A write of TG_CTRL. A START with a reserved PATTERN or OP, or during a run, starts nothing: DESIGN CHOICE. -/
def State.tgCtrl (s : State) (u v : Nat) : State :=
  if (s.ctrl u).state != .test then s
  else s.updCtrl u (fun c =>
    let c := { c with tgBurst := bits v 23 16, tgBypass := bit v 12, tgPattern := bits v 11 8, tgOp := bits v 5 4 }
    let c := if bit v 0 && !c.tgBusy && decide (c.tgPattern ≤ 5 ∧ c.tgOp ≤ 2) then
        { c with tgBusy := true, tgDone := false, tgErr := false, tgErrors := 0, tgFerr := 0, tgXor := 0, tgLines := 0, tgStop := false }
      else c
    if bit v 1 && c.tgBusy then { c with tgStop := true } else c)

/-- TG_START: a write of TG_CTRL with START. -/
def execTgStart (m : Master) (unit value : Nat) (s : State) : Out :=
  onUnit (decide (unit < 28)) (.next (if bit value 0 then s.ownerWrite m (fun s => s.tgCtrl unit value) else s))

/-- TG_STOP: a write of TG_CTRL with STOP. -/
def execTgStop (m : Master) (unit value : Nat) (s : State) : Out :=
  onUnit (decide (unit < 28)) (.next (if bit value 1 then s.ownerWrite m (fun s => s.tgCtrl unit value) else s))

/-- Writes the first `n` lines of a pass into a unit. -/
def State.tgWrite (s : State) (u base n : Nat) (ws : List Nat) : State :=
  (List.range n).foldl (fun s i =>
    let bs := wordsToBytes ((ws.drop (16 * i)).take 16)
    let s : State := { s with mem := s.mem.writeLine (unitAddr u (base + 64 * i)) bs false }
    s.unitWrote u 64) s

/-- Stored bytes of a line that `flips` has wrong: the code corrects up to three (R232). -/
def wrongSymbols (flips : List (Nat × Nat)) (line : Nat) : Nat :=
  ((flips.filter (fun e => e.1 / 64 == line)).flatMap (fun e =>
    (List.range 4).filterMap (fun i => if e.2 / 256 ^ i % 256 = 0 then none else some (e.1 + i)))).eraseDups.length

/-- The words of the first `n` lines that do not compare equal: unit-local offset, and expected XOR read. `flips` are the
bits that are stored inverted, by offset; without ECC_BYPASS the code's corrections come first (Table 7.15). -/
def State.tgCompare (s : State) (u base n : Nat) (ws : List Nat) (flips : List (Nat × Nat)) : List (Nat × Nat) :=
  let flips := if (s.ctrl u).tgBypass then flips else flips.filter (fun e => decide (3 < wrongSymbols flips (e.1 / 64)))
  (List.range (16 * n)).filterMap (fun i =>
    let o := base + 4 * i
    let got := ofBytes (s.mem.bytes.getAll 0 (unitAddr u o) 4) ^^^ (((listFind (fun e => e.1 == o) flips).map (·.2)).getD 0 % 2 ^ 32)
    let x := ws.getD i 0 ^^^ got
    if x = 0 then none else some (o, x))

/-- TG_DONE (R243): the run ends after `lines` lines, all passes counted: its passes are complete, the first pass has come to the
end of the unit, or STOP was written. -/
def execTgDone (unit lines : Nat) (flips : List (Nat × Nat)) (s : State) : Out :=
  onUnit (decide (unit < 28)) (.next (
    let c := s.ctrl unit
    let per := c.passLines unit
    let whole := (if c.past unit then 1 else c.tgLoops) * per
    if !c.tgBusy then s
    else if !(if c.tgStop then (c.tgLoops == 0 && !c.past unit) || decide (lines ≤ whole)
        else (c.tgLoops != 0 || c.past unit) && lines == whole) then s
    else
      let ws := c.pattern (min lines per)
      let s := if c.tgOp = 1 then s else (s.tgWrite unit c.tgBase (min lines per) ws).unitWrote unit (64 * (lines - min lines per))
      let bad := if c.tgOp = 0 then [] else s.tgCompare unit c.tgBase (min lines per) ws flips
      let last := bad.filter (fun e => decide (e.1 < c.tgBase + 64 * (if per = 0 then 0 else lines % per)))
      let total := if per = 0 then 0 else lines / per * bad.length + last.length
      let s := if c.tgOp = 0 then s else s.unitRead unit (64 * lines)
      s.updCtrl unit (fun c => { c with
        tgBusy := false, tgStop := false, tgDone := true, tgErr := c.past unit || decide (0 < total), tgErrors := sat32 total,
        tgFerr := if total = 0 then 0 else (bad.headD (0, 0)).1, tgXor := if total = 0 then 0 else (bad.headD (0, 0)).2,
        tgLines := sat32 lines })))

/-- TG_ERR_COUNT_READ (Table 7.15): the count is returned and cleared. -/
def execTgErrCountRead (_m : Master) (unit : Nat) (s : State) : Out :=
  onUnit (decide (unit < 28)) (.next (
    let n := (s.ctrl unit).tgErrors
    let s := s.updCtrl unit (fun c => { c with tgErrors := 0 })
    { s with cmd := { s.cmd with readData := BitVec.ofNat 32 n } }))

end Sys2Proof.Machine
end

