-- ==== Sys2Proof/Machine/RegRead.lean ====
section
/-! DEFINITION. The control space as it reads (R16 to R20): the registers of every block of Table 1.9, by offset. -/

namespace Sys2Proof.Machine

/-! ### OWN and CMD (Tables 16.4, 16.5, 16.7) -/

/-- The OWN block, as master `m` reads it; a fabric manager has no bank. -/
def State.ownWord (s : State) (m : Master) (off : Nat) : Nat :=
  let o := s.own
  let b : OwnBank := match m with
    | .fm _ => {}
    | _ => s.ownBank m.bank
  match off with
  | 0x00 =>
    let target := (o.offer.map (fun x => x.target.code)).getD 0
    let pkg := match o.owner, o.offer with
      | some (.fm p), _ => p
      | _, some x => x.target.pkg
      | _, none => 0
    ((o.owner.map Master.code).getD o.lastOwner) * 2 ^ 30 + b2n o.owner.isSome * 2 ^ 29 + b2n o.window.isSome * 2 ^ 28 +
      b2n o.offer.isSome * 2 ^ 27 + target * 2 ^ 25 + pkg
  | 0x04 => if o.owner.isSome then (o.leaseEnd - s.clk) / 1000 else 0
  | 0x08 => o.gen
  | 0x0C => o.denied
  | 0x10 => if s.isOwner m then o.token else 0
  | 0x14 => if s.isOwner m then o.tokenC else 0
  | 0x18 => b.nonce
  | 0x24 => b2n b.refused * 4 + b.result
  | 0x28 => match o.offer with
    | some x => if x.target = m then x.nonce else 0
    | none => 0
  | _ => 0

/-- The RING_CFG word. -/
def Ring.cfgWord (r : Ring) : Nat :=
  b2n r.enable * 2 ^ 31 + b2n r.sqHost * 2 ^ 30 + b2n r.cqHost * 2 ^ 29 + r.hostPort * 2 ^ 28 + r.dbPorts * 2 ^ 26 +
    r.sqLog2 * 2 ^ 20 + r.cqLog2 * 2 ^ 16 + b2n r.irqEn * 2 ^ 15 + r.vector

/-- The ring page of ring `n` (Table 16.4). -/
def State.ringWord (s : State) (n off : Nat) : Nat :=
  let r := s.ring n
  match off with
  | 0x000 => lo32 r.sqBase
  | 0x004 => hi32 r.sqBase
  | 0x008 => lo32 r.cqBase
  | 0x00C => hi32 r.cqBase
  | 0x010 => r.cfgWord
  | 0x014 => r.tail
  | 0x018 => r.head
  | 0x01C => r.sqHead * 2 ^ 20 + r.cqTail * 2 ^ 8 + b2n (n != 0 && s.held n) * 8 + b2n r.fault * 4 + b2n r.draining * 2 +
      b2n r.enabled
  | 0x020 => r.nextSeq
  | 0x024 => (s.cmd.events.get [] n).length * 2 ^ 8 + s.inflight (.ring n)
  | 0x028 => r.eventsLost
  | 0x02C => r.cause
  | _ => 0

/-- The mailbox bank of a master (Table 16.5), at an offset from 0x0003_8000. -/
def Mailbox.word (x : Mailbox) (off : Nat) : Nat :=
  if off < 0x40 then x.cmd.get 0 (off / 4)
  else if off = 0x44 then b2n x.evtFull * 4 + b2n x.done * 2 + b2n x.busy
  else if 0x60 ≤ off ∧ off < 0x80 then x.sts.get 0 ((off - 0x60) / 4)
  else if 0x80 ≤ off ∧ off < 0xA0 then x.evt.get 0 ((off - 0x80) / 4)
  else 0

/-- The MSI-X table and pending bits of a port (R534), at an offset from 0x0003_C000. PRESUMED: the PCIe layout. -/
def State.msixWord (s : State) (port off : Nat) : Nat :=
  let x := fun (v : Nat) => s.cmd.msix.get {} (port * 128 + v)
  if off < 0x800 then
    let e := x (off / 16)
    match off / 4 % 4 with
    | 0 => lo32 e.addr
    | 1 => hi32 e.addr
    | 2 => e.data
    | _ => b2n e.masked
  else if 0x2000 ≤ off ∧ off < 0x2010 then
    maskOf ((List.range 32).filter (fun i => (x (8 * (off - 0x2000) + i)).pending))
  else 0

/-- The CMD block, at an offset from 0x0002_0000. -/
def State.cmdWord (s : State) (m : Master) (off : Nat) : Nat :=
  if off < 65 * 0x400 then s.ringWord (off / 0x400) (off % 0x400)
  else if 0x18000 ≤ off ∧ off < 0x180A4 then match m with
    | .fm _ => 0
    | _ => (s.mbox m.bank).word (off - 0x18000)
  else if 0x1C000 ≤ off then match m with
    | .host0 => s.msixWord 0 (off - 0x1C000)
    | .host1 => s.msixWord 1 (off - 0x1C000)
    | _ => 0
  else 0

/-! ### LOG (Table 17.10) -/

/-- The header of a generation slot (Table 17.9). -/
def LogGen.header (g : LogGen) (off : Nat) : Nat :=
  match off with
  | 0x00 => g.magic
  | 0x04 => g.gen
  | 0x08 => g.genC
  | 0x0C => g.cause * 2 ^ 16 + g.count
  | 0x10 => g.first
  | 0x14 => g.lost
  | 0x18 => lo32 g.time
  | 0x1C => hi32 g.time
  | 0x20 => g.pkgId
  | 0x24 => g.pkgFw
  | 0x28 => g.crc
  | _ => 0

/-- The LOG block, as master `m` reads it. -/
def Log.word (l : Log) (m : Master) (off : Nat) : Nat :=
  if 0x1000 ≤ off ∧ off < 0x1400 then l.latched (Master.key m) 1 ((off - 0x1000) / 4)
  else if 0x2000 ≤ off ∧ off < 0x2400 then l.latched (Master.key m) 2 ((off - 0x2000) / 4)
  else if 0x100 ≤ off ∧ off < 0x140 then (l.slot l.selSlot).header (off - 0x100)
  else match off with
    | 0x000 => l.head
    | 0x004 => l.oldest
    | 0x008 => l.flushed
    | 0x00C => l.validSlots.length * 2 ^ 24 + l.lastCause * 2 ^ 20 + b2n l.pwrFlushed * 4 + b2n l.mramFail * 2 + b2n l.flush.isSome
    | 0x010 => l.newest
    | 0x014 => l.lost
    | 0x018 => l.suppressed
    | 0x020 => l.sev0
    | 0x024 => l.sev1
    | 0x028 => l.sev2
    | 0x02C => l.sev3
    | 0x030 => b2n l.selMram * 2 ^ 31 + l.selSlot
    | 0x034 => l.cursor
    | 0x03C => l.recoveries.length * 2 ^ 16 + (l.recoveries.map (fun r => r.level)).foldl max 0
    | _ => 0

/-! ### PWR (Table 18.10) -/

/-- The PWR_DIE word of a die. -/
def State.dieWord (s : State) (d : Nat) : Nat :=
  let x := s.die d
  x.temp * 2 ^ 24 + s.vDie d * 2 ^ 12 + (x.railMv - 400)

/-- The PWR block. -/
def State.pwrWord (s : State) (off : Nat) : Nat :=
  let p := s.pwr
  let some' := fun (f : DiePwr → Nat → Bool) => (List.range 8).any (fun d => f (s.die d) d)
  if 0x040 ≤ off ∧ off < 0x060 then s.dieWord ((off - 0x040) / 4)
  else if 0x100 ≤ off ∧ off < 0x1E0 then s.domWord ((off - 0x100) / 4)
  else if 0x200 ≤ off ∧ off < 0x2E0 then (s.domain ((off - 0x200) / 4)).wakes
  else if 0x1000 ≤ off ∧ off < 0x2000 then ofBytes (s.nor.window.getAll 0 (off - 0x1000) 4)
  else match off with
    | 0x000 => p.tempMax * 2 ^ 24 + b2n (p.state == .off) * 2 ^ 20 + b2n p.warn * 2 ^ 19 +
        b2n (some' (fun x d => decide (x.thermLimit < s.modeTarget d))) * 2 ^ 18 +
        b2n (some' (fun x d => decide (d < 6 ∧ x.capLimit < s.modeTarget d))) * 2 ^ 17 +
        b2n (p.mode == 1 && some' (fun _ d => decide (d < 6 ∧ 700 < s.vDie d))) * 2 ^ 16 + p.mode
    | 0x004 => p.fixedMv * 2 ^ 16 + p.capW
    | 0x008 => p.inputs.foldl max 0 * 2 ^ 16 + p.inputW
    | 0x010 => lo32 p.estMj
    | 0x014 => hi32 p.estMj
    | 0x018 => lo32 p.measMj
    | 0x01C => hi32 p.measMj
    | 0x020 => p.idleUs
    | 0x800 => s.nor.addr
    | 0x808 => b2n s.nor.err * 2 + b2n s.nor.busy
    | _ => 0

/-! ### PART and REG (Tables 15.2, 15.9, 15.11, 15.13) -/

def PartState.code : PartState → Nat
  | .free => 0 | .idle => 1 | .running => 2 | .evicting => 3 | .evicted => 4 | .resuming => 5 | .destroying => 6

/-- A regulator word (Table 15.8). -/
def Regulator.word (r : Regulator) : Nat := b2n r.fixed * 2 ^ 63 + r.rate * 2 ^ 32 + r.burst

/-- The value of partition-table entry `p` at a word offset (Table 15.2). -/
def Partition.word (x : Partition) (p off : Nat) : Nat :=
  let half := fun (v : Nat) => if off / 4 % 2 = 0 then lo32 v else hi32 v
  if 0x08 ≤ off ∧ off < 0x20 then x.slices / 2 ^ (8 * (off - 0x08)) % 2 ^ 32
  else if 0x20 ≤ off ∧ off < 0x38 then x.home / 2 ^ (8 * (off - 0x20)) % 2 ^ 32
  else match off / 8 * 8, off with
    | _, 0x00 => p * 2 ^ 24 + x.dbgMax * 2 ^ 20 + x.dbgPerm * 2 ^ 18 + x.arbClass * 2 ^ 16 + x.state.code * 2 ^ 8 + 1
    | _, 0x04 => x.jobId
    | _, 0x38 => x.portGrant
    | _, 0x3C => x.t1Budget
    | _, 0x40 => x.t2Budget
    | _, 0x44 => x.fixLatNs
    | 0x48, _ => half x.ptRoot
    | 0x50, _ => half x.saveBase
    | 0x58, _ => half x.reg0.word
    | 0x60, _ => half x.reg1.word
    | 0x68, _ => half x.reg2.word
    | 0x70, _ => half x.reg3.word
    | 0x78, _ => half x.reg4.word
    | _, _ => 0

/-- A partition-table entry with ENTRY_C (R504): zero while FREE; a complement that fails the pair check reads as stored. -/
def State.entryWord (s : State) (p off : Nat) : Nat :=
  let x := s.part p
  if x.state = .free then 0
  else if off < 0x80 then x.word p off
  else if x.pairBad then Config.badEntryC p off
  else compl32 (x.word p (off - 0x80))

def BerthRec.code : BerthRec → Nat
  | .free => 0 | .ready => 1 | .degraded => 2 | .retired => 3

/-- A common-berth record (Table 15.11). -/
def CommonBerth.word (b : CommonBerth) (off : Nat) : Nat :=
  match off with
  | 0x00 => b.state.code * 2 ^ 16 + b.restores
  | 0x04 => b.pages
  | 0x08 => lo32 b.va
  | 0x0C => hi32 b.va
  | 0x10 => lo32 b.readers
  | 0x14 => hi32 b.readers
  | 0x18 => b.poisoned
  | _ => 0

/-- Half of a 64-bit entry of a list laid out from offset 0. -/
def halfOf (l : List Nat) (off : Nat) : Nat :=
  let v := l.getD (off / 8) 0
  if off / 4 % 2 = 0 then lo32 v else hi32 v

/-- A meter page (Table 15.13). -/
def Meters.meterWord (m : Meters) (off : Nat) : Nat :=
  if off < 0x40 then halfOf m.live off
  else if off < 0x80 then halfOf m.snap (off - 0x40)
  else if off < 0x88 then halfOf [m.minute] (off - 0x80)
  else 0

/-- A regulator page (Table 15.9). -/
def Meters.regWord (m : Meters) (off : Nat) : Nat :=
  let bs := [m.b0, m.b1, m.b2, m.b3, m.b4]
  if off < 0x14 then unsigned 32 (bs.getD (off / 4) {}).tokens
  else if 0x20 ≤ off ∧ off < 0x48 then halfOf (bs.map (fun (b : Bucket) => b.waitNs)) (off - 0x20)
  else match off with
    | 0x48 => m.fixLate
    | 0x4C => m.regulatedCmds
    | 0x50 => m.t1Frames
    | 0x54 => m.t2Frames
    | _ => 0

/-- The PART block (Table 15.2a), at an offset from 0x0006_0000. -/
def State.partWord (s : State) (off : Nat) : Nat :=
  if off < 0x4100 then s.entryWord (off / 0x100) (off % 0x100)
  else if 0x6000 ≤ off ∧ off < 0x6400 then (s.ten.berths.get {} ((off - 0x6000) / 32)).word (off % 32)
  else if 0x8000 ≤ off ∧ off < 0xC100 then (s.meter ((off - 0x8000) / 0x100)).meterWord (off % 0x100)
  else 0

/-! ### TIME and LINK (Tables 10.16, 10.19) -/

def TimeMode.code : TimeMode → Nat
  | .free => 0 | .locked => 1 | .holdover => 2

/-- The TIME block; NOW_HI reads as latched. -/
def State.timeWord (s : State) (off : Nat) : Nat :=
  let t := s.time
  match off with
  | 0x00 => lo32 s.sysTime
  | 0x04 => t.nowHi
  | 0x08 => b2n t.enable * 2 ^ 9 + b2n t.root * 2 ^ 8 + t.parentPort
  | 0x0C => t.errBound * 2 ^ 16 + t.depth * 2 ^ 8 + t.mode.code
  | 0x10 => unsigned 32 t.offset
  | 0x14 => unsigned 32 t.rate
  | 0x18 => t.setLo
  | 0x1C => t.setHi
  | _ => 0

def PortState.code : PortState → Nat
  | .disabled => 0 | .training => 1 | .up => 2 | .retrain => 3 | .sleep => 4 | .parked => 5 | .down => 6

/-- A LINK port page (Table 10.19). -/
def Port.word (p : Port) (timeParent : Bool) (off : Nat) : Nat :=
  match off with
  | 0x000 => p.retrainFails * 2 ^ 24 + p.lanesLock * 2 ^ 16 + p.lanesLight * 2 ^ 8 + b2n timeParent * 2 ^ 7 +
      b2n p.wiring * 2 ^ 6 + b2n p.peerLost * 2 ^ 5 + b2n p.dataOpen * 2 ^ 4 + p.state.code
  | 0x004 => p.ueLimit * 2 ^ 16 + p.sleepIdle * 2 ^ 8 + p.replayLimit
  | 0x008 => match p.partner with
    | some x => 2 ^ 31 + x.level * 2 ^ 25 + x.port * 2 ^ 20 + x.pkg
    | none => 0
  | 0x00C => p.expect
  | 0x010 => p.rttNs
  | 0x014 => p.fecCorrected
  | 0x018 => p.fecUncorrectable
  | 0x01C => p.crcErrors
  | 0x020 => p.replayed
  | 0x024 => p.retrains
  | 0x028 => p.overloads
  | 0x02C => p.hbMissed
  | 0x030 => p.tpRerouted
  | 0x034 => p.fastWakes
  | 0x038 => p.slowWakes
  | 0x03C => p.routeDrops
  | 0x040 => lo32 p.bytesTx
  | 0x044 => hi32 p.bytesTx
  | 0x048 => lo32 p.bytesRx
  | 0x04C => hi32 p.bytesRx
  | 0x050 => p.stomped
  | _ => 0

/-! ### MEM and QUAY (Tables 7.12 to 7.15, 8.13, 8.14) -/

def UnitState.code : UnitState → Nat
  | .training => 0 | .service => 1 | .relocated => 2 | .lost => 3 | .test => 4

/-- The traffic-generator block (Table 7.15). -/
def MemCtrl.tgWord (c : MemCtrl) (off : Nat) : Nat :=
  match off with
  | 0x800 => c.tgBurst * 2 ^ 16 + b2n c.tgBypass * 2 ^ 12 + c.tgPattern * 2 ^ 8 + c.tgOp * 2 ^ 4
  | 0x804 => b2n c.tgErr * 4 + b2n c.tgDone * 2 + b2n c.tgBusy
  | 0x808 => lo32 c.tgBase
  | 0x80C => hi32 c.tgBase
  | 0x810 => lo32 c.tgLen
  | 0x814 => hi32 c.tgLen
  | 0x818 => c.tgSeed
  | 0x81C => c.tgFixed
  | 0x820 => c.tgErrors
  | 0x824 => lo32 c.tgFerr
  | 0x828 => hi32 c.tgFerr
  | 0x82C => c.tgXor
  | 0x830 => c.tgLoops
  | 0x834 => c.tgLines
  | _ => 0

/-- The MEM page of unit `u` (Table 7.12). Every frame of a tier touches each of its units but a lost one. -/
def State.memWord (s : State) (u off : Nat) : Nat :=
  let c := s.ctrl u
  match off with
  | 0x000 => c.temp * 2 ^ 24 + c.refresh * 2 ^ 16 + (if u < 12 then u else u + 4) * 2 ^ 8 + c.state.code
  | 0x004 => c.ce
  | 0x008 => c.ue
  | 0x00C => c.rows * 2 ^ 16 + c.lanes
  | 0x010 => c.twinFailed * 2 ^ 16 + c.twinDone
  | 0x018 => lo32 c.bytesRd
  | 0x01C => hi32 c.bytesRd
  | 0x020 => lo32 c.bytesWr
  | 0x024 => hi32 c.bytesWr
  | 0x028 =>
    if c.state = .lost then 0
    else (s.mem.zeroQueue.filter (fun f => tierOf (f * 2 ^ 21) == unitTier u)).length
  | 0x040 => c.lbDuration * 2 ^ 16 + c.lbMode
  | 0x044 => c.lbStatus
  | 0x048 => c.lbErr
  | _ => c.tgWord off

/-- The engine page of QEe (Table 8.14). -/
def State.qePage (s : State) (e off : Nat) : Nat :=
  let q := s.qe e
  let state := if !bit s.pkg.qeOk e then 3 else if q.reset then 2 else b2n q.work.isSome
  match off with
  | 0x00 => q.part * 2 ^ 16 + q.slot * 2 ^ 8 + state
  | 0x08 => lo32 q.units
  | 0x0C => hi32 q.units
  | 0x10 => lo32 q.accAdds
  | 0x14 => hi32 q.accAdds
  | 0x18 => lo32 q.beats
  | 0x1C => hi32 q.beats
  | 0x20 => lo32 q.remoteBytes
  | 0x24 => hi32 q.remoteBytes
  | 0x28 => q.checkRetry
  | 0x2C => q.bites
  | 0x30 => q.poisonUnits
  | _ => 0

/-- The QUAY block (Table 8.13), at an offset from 0x0030_0000. DEDUCED: QUAY_PEND's counts of 8 bits saturate, as R281's counters
do. -/
def State.quayWord (s : State) (off : Nat) : Nat :=
  let owner := fun (i : Nat) => match s.quay.slots.get none i with
    | some p => p.part
    | none => 0xFF
  let owners := fun (i : Nat) => owner i + owner (i + 1) * 2 ^ 8 + owner (i + 2) * 2 ^ 16 + owner (i + 3) * 2 ^ 24
  let runs := fun (t : Nat) => (s.quay.runs.filter (fun r => r.tier == t)).length
  if 0x10000 ≤ off ∧ off < 0x10000 + 28 * 0x1000 then s.qePage ((off - 0x10000) / 0x1000) (off % 0x1000)
  else match off with
    | 0x00 => s.pkg.qeOk
    | 0x04 => min 255 (runs 1) * 2 ^ 8 + min 255 (runs 0)
    | 0x08 => maskOf ((s.quay.windows.filter (fun e => e.2.isSome)).map (fun e => e.1))
    | 0x10 => owners 0
    | 0x14 => owners 4
    | _ => 0

/-! ### PIPE and SERV (Tables 11.16, 11.17, 13.5, 14.11, 14.12) -/

/-- STATE of a stage page. DEDUCED: a takeover shows first, then a spare, a lost neighbour, a STEP_RUN held behind the
running one. -/
def StageSlot.stateCode (g : StageSlot) : Nat :=
  if g.takeover.isSome then 3
  else if g.spare then 4
  else if g.running.isSome && (g.upLost || g.downLost) then 5
  else if g.steps.any (fun r => !r.started) then 2
  else b2n g.running.isSome

/-- The oldest entry of the running step that is not DONE. -/
def StageSlot.oldest (g : StageSlot) : Nat :=
  match g.running with
  | none => 0
  | some r => (r.notices.map (fun x => x.entry)).foldl min r.next

/-- A stage page (Table 11.17). -/
def StageSlot.word (g : StageSlot) (off : Nat) : Nat :=
  if !g.bound then (match off with
    | 0x018 => 0xFFFFFFFF
    | _ => if 0x080 ≤ off ∧ off < 0x100 ∧ off % 16 = 4 then 0xFFFFFFFF else 0)
  else if 0x080 ≤ off ∧ off < 0x100 then
    let b := g.berths.get {} ((off - 0x080) / 16)
    match off / 4 % 4 with
    | 0 => b.version
    | 1 => b.versionC
    | 2 => min b.refs 65535 * 2 ^ 16 + b.state.code
    | _ => 0
  else if 0x100 ≤ off ∧ off < 0x180 then
    let v := (off - 0x100) / 16
    match off / 4 % 4 with
    | 0 => (g.inS (sKey 0 v)).next
    | 1 => (g.inS (sKey 1 v)).next
    | 2 => (g.outS (sKey 0 v)).next
    | _ => (g.outS (sKey 1 v)).next
  else match off with
    | 0x000 => g.epoch * 2 ^ 16 + b2n g.spare * 16 + g.stateCode
    | 0x004 => g.cfg.stage * 2 ^ 16 + g.cfg.pipe
    | 0x008 => (g.running.map (fun r => r.step)).getD 0
    | 0x00C => (g.table.getD []).length * 2 ^ 16 + g.oldest
    | 0x010 => g.uMax * 2 ^ 16 + (g.mbs.filter (fun m => !m.committed)).length
    | 0x014 => g.markAcked
    | 0x018 => g.estUs
    | 0x01C => g.dups
    | 0x020 => g.stale
    | 0x024 => g.diverged
    | 0x028 => g.probes
    | 0x02C => g.takeovers
    | 0x030 => lo32 g.sent
    | 0x034 => hi32 g.sent
    | 0x038 => lo32 g.sentBytes
    | 0x03C => hi32 g.sentBytes
    | _ => 0

def PlanState.code : PlanState → Nat
  | .none => 0 | .loaded => 1 | .running => 2 | .stopped => 3

/-- A timer page (Table 13.5). -/
def StageSlot.timerWord (g : StageSlot) (off : Nat) : Nat :=
  if off < 0x48 then
    let v := g.phases.get 0 (off / 8)
    if off / 4 % 2 = 0 then lo32 v else hi32 v
  else match off with
    | 0x48 => lo32 g.act
    | 0x4C => hi32 g.act
    | 0x50 => lo32 g.wt
    | 0x54 => hi32 g.wt
    | 0x58 => g.plan.step
    | 0x5C => g.plan.state.code * 16 + (if g.bound then g.phase else 6)
    | 0x60 => g.lagRun
    | 0x64 => g.medianUs
    | 0x68 => g.busyUs
    | _ => 0

/-- The PIPE block (R405, R450), at an offset from 0x0040_0000. -/
def State.pipeWord (s : State) (off : Nat) : Nat :=
  let flags := fun (k : Nat) (f : StageSlot → Bool) => maskOf ((List.range 32).filter (fun i => f (s.stage (32 * k + i))))
  if 0x10000 ≤ off ∧ off < 0x10000 + 96 * 0x1000 then (s.stage ((off - 0x10000) / 0x1000)).word (off % 0x1000)
  else if 0x80000 ≤ off ∧ off < 0x80000 + 96 * 0x1000 then (s.stage ((off - 0x80000) / 0x1000)).timerWord (off % 0x1000)
  else if off < 0x0C then flags (off / 4) (fun g => g.bound)
  else if 0x10 ≤ off ∧ off < 0x1C then flags ((off - 0x10) / 4) (fun g => g.running.isSome)
  else 0

/-- The model page of a slot (Table 14.12). -/
def State.modelWord (s : State) (n off : Nat) : Nat :=
  let m := s.model n
  let mine := fun (p : SeqState → Bool) => (s.astWhere (fun a => a.slot == n && p a.state)).length
  match off with
  | 0x000 => m.part * 2 ^ 24 + m.fallback.getD 0xFF * 2 ^ 16 + m.cfg.modelId
  | 0x004 => if !m.bound then 0 else match m.state with
    | .waiting => 1
    | .stepping => 2
    | .boundary => 3
  | 0x008 => m.next - 1
  | 0x00C => if m.bound then sat32 (m.tEst / 1000) else 0
  | 0x010 => sat32 m.lastNs
  | 0x014 => if m.bound then mine (fun x => x == .prefill || x == .decode) else 0
  | 0x018 => if m.bound then mine (fun x => x == .pending) else 0
  | 0x01C => if m.bound then s.freeBlocks m else 0
  | 0x020 => lo32 m.steps
  | 0x024 => hi32 m.steps
  | 0x028 => lo32 m.tokens
  | 0x02C => hi32 m.tokens
  | 0x030 => lo32 m.fbTokens
  | 0x034 => hi32 m.fbTokens
  | 0x038 => m.switches
  | 0x03C => m.missed
  | 0x040 => m.kvWaits
  | 0x044 => m.ends
  | 0x048 => m.faultSteps
  | _ => 0

/-- The SERV block (Table 14.11), at an offset from 0x0050_0000. -/
def State.servWord (s : State) (off : Nat) : Nat :=
  let bound := fun (k : Nat) => maskOf ((List.range 32).filter (fun i => (s.model (32 * k + i)).bound))
  if 0x10000 ≤ off ∧ off < 0x10000 + 64 * 0x1000 then s.modelWord ((off - 0x10000) / 0x1000) (off % 0x1000)
  else if 0x104 ≤ off ∧ off ≤ 0x200 then s.serv.quotas.get 0 ((off - 0x100) / 4)
  else if 0x204 ≤ off ∧ off ≤ 0x300 then s.servUsed ((off - 0x200) / 4)
  else match off with
    | 0x00 => b2n s.serv.quotaReject * 2 ^ 31 + (65536 - (s.astWhere (fun _ => true)).length)
    | 0x04 => bound 0
    | 0x08 => bound 1
    | _ => 0

/-! ### DBG (Tables 20.2 to 20.4, 6.18, 6.19) -/

def DbgLock.code : DbgLock → Nat
  | .locked => 0 | .armed => 1 | .unlocked => 2

/-- The control page of the DBG block (Table 20.3). -/
def State.dbgWord (s : State) (off : Nat) : Nat :=
  let d := s.dbg
  if 0x040 ≤ off ∧ off < 0x100 then
    maskOf ((List.range 32).filter (fun i => (s.core (8 * (off - 0x040) + i)).state == .halted))
  else match off with
    | 0x000 => d.fails * 2 ^ 8 + d.lock.code
    | 0x008 => d.life
    | 0x00C => if d.lock = .unlocked then ceilDiv (d.leftEnd - s.clk) 1000000000 else 0
    | 0x014 => d.arg
    | 0x018 => b2n (decide (s.clk < d.busyEnd)) * 2 ^ 31 + d.cores * 2 ^ 16 + d.rejected * 2 ^ 8 + d.result
    | 0x100 => lo32 d.memVa
    | 0x104 => hi32 d.memVa
    | 0x10C => b2n (decide (s.clk < d.memEnd)) * 2 ^ 31 + d.memResult
    | 0x110 => lo32 d.memPoison
    | 0x114 => hi32 d.memPoison
    | _ => 0

/-- The status page of reach `r` (Table 6.18). -/
def State.reachWord (s : State) (r off : Nat) : Nat :=
  let x := s.reach r
  let idx := fun (j : Nat) => s.physIndex (16 * r + j)
  match off with
  | 0x00 => lo32 x.routerPackets
  | 0x04 => hi32 x.routerPackets
  | 0x08 => x.basinCe
  | 0x0C => x.basinUe
  | 0x10 => x.bites
  | 0x14 => x.msgRefused
  | 0x18 => x.jqReleases
  | 0x1C => x.partMismatch
  | 0x20 => maskOf ((List.range 32).filter (fun q => (s.junction r q).state == 1))
  | 0x24 => maskOf (((List.range 16).filter (fun j => s.mapped (16 * r + j))).map idx)
  | 0x28 => ((List.range 8).map (fun j => idx j % 16 * 2 ^ (4 * j))).foldl (· + ·) 0
  | 0x2C => ((List.range 8).map (fun j => idx (j + 8) % 16 * 2 ^ (4 * j))).foldl (· + ·) 0
  | 0x30 => maskOf ((List.range 16).filter (fun j => 16 ≤ idx j))
  | _ => 0

/-- The status page of a die-to-die pair (Table 6.19). -/
def State.pairWord (s : State) (i off : Nat) : Nat :=
  let p := s.pair i
  match off with
  | 0x00 => (pairDies i).2 * 2 ^ 17 + (pairDies i).1 * 2 ^ 14 + (if !p.up then 0 else if p.active = 0xFF then 1 else 2) * 2 ^ 12 +
      p.negLevel * 2 ^ 8 + p.active
  | 0x04 => p.lanesRepaired
  | 0x08 => p.retries
  | 0x0C => p.restripes
  | 0x10 => lo32 p.flitsSent
  | 0x14 => hi32 p.flitsSent
  | 0x18 => lo32 p.flitsReceived
  | 0x1C => hi32 p.flitsReceived
  | _ => 0

def Holder.code : Holder → Nat
  | .none => 0 | .run _ => 1 | .stage _ => 2 | .model _ => 3

/-- The debug page of a core (Table 20.4). -/
def Core.debugWord (k : Core) (off : Nat) : Nat :=
  if off < 0x20 then
    let b := k.bps.get {} (off / 8)
    if off % 8 = 0 then b2n b.en * 2 ^ 31 + b2n b.isPc * 2 ^ 30 + b2n b.all * 2 ^ 29 + b2n b.hit * 2 ^ 28 else b.value
  else match off with
    | 0x20 => b2n k.stepping * 8 + b2n k.dbgHalt * 4 + k.holder.code
    | 0x24 => k.stepLeft
    | _ => 0

/-- The DBG block (Table 20.2), at an offset from 0x0060_0000. -/
def State.debugBlock (s : State) (off : Nat) : Nat :=
  if off < 0x1000 then s.dbgWord off
  else if 0x10000 ≤ off ∧ off < 0x10000 + 1536 * 0x100 then
    let c := (off - 0x10000) / 0x100
    if s.mapped c then (s.core c).statusWord s.clk (off % 0x100) else 0
  else if 0x70000 ≤ off ∧ off < 0x70000 + 96 * 0x40 then s.reachWord ((off - 0x70000) / 0x40) (off % 0x40)
  else if 0x72000 ≤ off ∧ off < 0x72000 + 11 * 0x40 then s.pairWord ((off - 0x72000) / 0x40) (off % 0x40)
  else if 0x80000 ≤ off ∧ off < 0x81000 then ofBytes (s.dbg.window.getAll 0 (off - 0x80000) 4)
  else if 0x90000 ≤ off ∧ off < 0x90000 + 1536 * 0x40 then (s.core ((off - 0x90000) / 0x40)).debugWord (off % 0x40)
  else 0

/-! ### The whole space -/

/-- A register of the control space as master `m` reads it (R17, R19, Table 1.9). -/
def State.regWord (s : State) (m : Master) (off : Nat) : Nat :=
  wrap32 (
    if off < 0x10000 then s.pkgWord off
    else if off < 0x20000 then s.ownWord m (off - 0x10000)
    else if off < 0x40000 then s.cmdWord m (off - 0x20000)
    else if off < 0x50000 then s.log.word m (off - 0x40000)
    else if off < 0x60000 then s.pwrWord (off - 0x50000)
    else if off < 0x70000 then s.partWord (off - 0x60000)
    else if off < 0x70000 + 65 * 0x100 then (s.meter ((off - 0x70000) / 0x100)).regWord (off % 0x100)
    else if 0x80000 ≤ off ∧ off < 0x100000 then s.timeWord (off - 0x80000)
    else if 0x100000 ≤ off ∧ off < 0x118000 then
      let k := (off - 0x100000) / 0x1000
      (s.port k).word (s.time.parentPort == k) (off % 0x1000)
    else if 0x200000 ≤ off ∧ off < 0x21C000 then s.memWord ((off - 0x200000) / 0x1000) (off % 0x1000)
    else if 0x300000 ≤ off ∧ off < 0x400000 then s.quayWord (off - 0x300000)
    else if 0x400000 ≤ off ∧ off < 0x500000 then s.pipeWord (off - 0x400000)
    else if 0x500000 ≤ off ∧ off < 0x600000 then s.servWord (off - 0x500000)
    else if 0x600000 ≤ off ∧ off < 0x700000 then s.debugBlock (off - 0x600000)
    else 0)

/-- The hub die that serves the blocks that no other domain holds. -/
def State.servingHub (s : State) : Nat := if bit s.pkg.hdOk 0 then 40 else 51

/-- The domain that holds a register (R18); none for those of the always-on island. DEDUCED from Table 18.1: the island
holds PKG, OWN, CMD, LOG, PWR, TIME and the DBG control page; a controller's or an engine's page lies with it, a core's with
its reach group, a reach's and a pair's with their die's routers and modules, a port's page and the rest with a hub. -/
def State.regDomain (s : State) (off : Nat) : Option Nat :=
  if off < 0x60000 ∨ (0x80000 ≤ off ∧ off < 0x100000) then none
  else if off < 0x80000 then some s.servingHub
  else if 0x100000 ≤ off ∧ off < 0x118000 then some (40 + 11 * ((off - 0x100000) / 0x1000 / 12))
  else if 0x200000 ≤ off ∧ off < 0x21C000 then some (unitDomain ((off - 0x200000) / 0x1000))
  else if 0x310000 ≤ off ∧ off < 0x310000 + 28 * 0x1000 then some (quayDomain ((off - 0x310000) / 0x1000))
  else if 0x300000 ≤ off ∧ off < 0x600000 then some s.servingHub
  else if 0x610000 ≤ off ∧ off < 0x610000 + 1536 * 0x100 then some (coreDomain ((off - 0x610000) / 0x100))
  else if 0x670000 ≤ off ∧ off < 0x670000 + 96 * 0x40 then some (5 * ((off - 0x670000) / 0x40 / 16) + 4)
  else if 0x672000 ≤ off ∧ off < 0x672000 + 11 * 0x40 then some (5 * (pairDies ((off - 0x672000) / 0x40)).1 + 4)
  else if 0x690000 ≤ off ∧ off < 0x690000 + 1536 * 0x40 then some (coreDomain ((off - 0x690000) / 0x40))
  else none

/-- What reading a register does before its value is taken: NOW_HI and the views of the logbook latch (R354, R591). -/
def State.readLatch (s : State) (m : Master) (off : Nat) : State :=
  if off = 0x80000 then { s with time := { s.time with nowHi := hi32 s.sysTime } }
  else if off = 0x41000 then s.latchView m 1
  else if off = 0x42000 then s.latchView m 2
  else s

/-- What reading a register does after it: TG_ERR_COUNT clears (Table 7.15). -/
def State.readClear (s : State) (off : Nat) : State :=
  if 0x200000 ≤ off ∧ off < 0x21C000 ∧ off % 0x1000 = 0x820 then
    s.updCtrl ((off - 0x200000) / 0x1000) (fun c => { c with tgErrors := 0 })
  else s

/-- A 32-bit read of a register (R16 to R18). -/
def State.readReg (s : State) (m : Master) (off : Nat) : Nat × State :=
  let take := fun (s : State) =>
    let s := s.readLatch m off
    (s.regWord m off, s.readClear off)
  match s.regDomain off with
  | none => take s
  | some d =>
    let r := s.reachDomain d
    if r.1 then take r.2 else (0, r.2)

end Sys2Proof.Machine
end

