-- ==== Sys2Proof/Machine/Regs.lean ====
section
/-! DEFINITION. Writes of control-space registers (R16 to R25, R525), and the accesses that reach them: BAR0, REG_ACCESS,
I3C and SMBus, DBG_ACCESS. -/

namespace Sys2Proof.Machine

/-! ### Writes by block; each takes a write that may take effect -/

/-- OWN (Table 16.7): a master's own bank of NONCE, CLAIM, RENEW and ACCEPT; nothing else is writable. -/
def State.writeOwn (s : State) (m : Master) (off v : Nat) : State :=
  match m, off with
  | .fm _, _ => s.ownerWrite m id
  | _, 0x18 => s.updBank m.bank (fun b => { b with nonce := v })
  | _, 0x1C => match bits v 9 8 with
    | 1 => s.claim m (bits v 3 0) (s.ownBank m.bank).nonce
    | 2 => if s.isOwner m then s.lapse else s
    | _ => s
  | _, 0x20 => s.renew m v
  | _, 0x2C => s.acceptOffer m v
  | _, _ => s.ownerWrite m id

/-- A base register of a ring: no field but ENABLE changes while ENABLE is 1 (R530). -/
def Ring.base (r : Ring) (f : Ring → Ring) : Ring := if r.enable then r else f r

/-- A ring page (Table 16.4). -/
def State.writeRing (s : State) (m : Master) (n off v : Nat) (ok : Bool) : State :=
  let base := fun (f : Ring → Ring) => s.ownerWrite m (fun s => s.updRing n (fun r => r.base f))
  match off with
  | 0x000 => base (fun r => { r with sqBase := setBits r.sqBase 31 0 v })
  | 0x004 => base (fun r => { r with sqBase := setBits r.sqBase 63 32 v })
  | 0x008 => base (fun r => { r with cqBase := setBits r.cqBase 31 0 v })
  | 0x00C => base (fun r => { r with cqBase := setBits r.cqBase 63 32 v })
  | 0x010 => s.ownerWrite m (fun s => if bit v 31 then s.enableRing n v else s.disableRing n v)
  | 0x014 => s.writeTail m n v
  | 0x018 => s.writeHead m n v ok
  | _ => s.ownerWrite m id

/-- The mailbox bank of a master (Table 16.5), at an offset from 0x0003_8000. -/
def State.writeMbox (s : State) (b off v : Nat) : State :=
  if off < 0x40 then s.updMbox b (fun x => { x with cmd := x.cmd.put 0 (off / 4) v })
  else match off with
    | 0x40 => if bit v 0 then s.submitMbox b else s
    | 0x44 => if bit v 1 then s.updMbox b (fun x => { x with done := false }) else s
    | 0xA0 => if bit v 0 then s.ackMbox b else s
    | _ => s

/-- A word of an MSI-X table entry; a pending vector is sent when its mask clears. PRESUMED: the PCIe layout. -/
def Msix.write (x : Msix) (i v : Nat) : Msix :=
  match i with
  | 0 => { x with addr := setBits x.addr 31 0 v }
  | 1 => { x with addr := setBits x.addr 63 32 v }
  | 2 => { x with data := v }
  | _ =>
    if bit v 0 then { x with masked := true }
    else { x with masked := false, pending := false, sent := x.sent + b2n x.pending }

/-- The CMD block, at an offset from 0x0002_0000. -/
def State.writeCmd (s : State) (m : Master) (off v : Nat) (ok : Bool) : State :=
  if off < 65 * 0x400 then s.writeRing m (off / 0x400) (off % 0x400) v ok
  else if 0x18000 ≤ off ∧ off < 0x180A4 then match m with
    | .fm _ => s.ownerWrite m id
    | _ => s.writeMbox m.bank (off - 0x18000) v
  else s.ownerWrite m (fun s =>
    if 0x1C000 ≤ off ∧ off < 0x1C800 ∧ m.code < 2 then
      { s with cmd := { s.cmd with
          msix := s.cmd.msix.upd {} (m.code * 128 + (off - 0x1C000) / 16) (fun x => x.write (off / 4 % 4) v) } }
    else s)

/-- LOG (Table 17.10), by the lock-keeper. -/
def State.writeLog (s : State) (m : Master) (off v : Nat) : State :=
  match off with
  | 0x030 => { s with log := { s.log with selMram := bit v 31, selSlot := bits v 3 0 } }
  | 0x034 => { s with log := { s.log with cursor := v } }
  | 0x038 => s.logCtrl m v
  | _ => s

/-- PWR (Table 18.10), by the lock-keeper. -/
def State.writePwr (s : State) (off v : Nat) : State :=
  if 0x1000 ≤ off ∧ off < 0x2000 then
    { s with nor := { s.nor with window := s.nor.window.putAll 0 (off - 0x1000) (toBytes v 4) } }
  else match off with
    | 0x800 => { s with nor := { s.nor with addr := v } }
    | 0x804 => s.norCtrl v
    | _ => s

/-- A write of TIME_CTRL (R352, R353). RESYNC returns to FREE; DEDUCED: no error bound holds then and no correction is
applied. A root is LOCKED while ENABLE is 1. -/
def State.timeCtrl (s : State) (v : Nat) : State :=
  let s := s.slew
  let t := { s.time with enable := bit v 9, root := bit v 8, parentPort := bits v 4 0 }
  let t := if bit v 31 then { t with mode := .free, errBound := 0xFFFF, rate := 0, t1 := none } else t
  if t.enable && t.root then
    let (n, s) := s.draw
    { s with time := { t with mode := .locked, errBound := sat16 (Config.rootErrBound n), depth := 0, rate := 0 } }
  else { s with time := t }

/-- A write of TIME_SET_LO, accepted only while ENABLE is 0 (R354). -/
def State.timeSetLo (s : State) (v : Nat) : State :=
  if s.time.enable then s else { s with time := { s.time with setLo := v } }

/-- A write of TIME_SET_HI: it loads SET as the time, while ENABLE is 0. -/
def State.timeSetHi (s : State) (v : Nat) : State :=
  if s.time.enable then s
  else
    let s := s.slew
    { s with time := { s.time with setHi := v, base := ((s.time.setLo + v * 2 ^ 32 : Nat) : Int) - (s.clk : Int), frac := 0 } }

/-- TIME, by the lock-keeper. -/
def State.writeTime (s : State) (off v : Nat) : State :=
  match off with
  | 0x08 => s.timeCtrl v
  | 0x18 => s.timeSetLo v
  | 0x1C => s.timeSetHi v
  | _ => s

/-- The read-write registers of the traffic generator (Table 7.15). -/
def MemCtrl.writeTg (c : MemCtrl) (off v : Nat) : MemCtrl :=
  match off with
  | 0x808 => { c with tgBase := setBits c.tgBase 31 0 v }
  | 0x80C => { c with tgBase := setBits c.tgBase 63 32 v }
  | 0x810 => { c with tgLen := setBits c.tgLen 31 0 v }
  | 0x814 => { c with tgLen := setBits c.tgLen 63 32 v }
  | 0x818 => { c with tgSeed := v }
  | 0x81C => { c with tgFixed := v }
  | 0x830 => { c with tgLoops := v }
  | _ => c

/-- A MEM page, by the lock-keeper; ignored unless the controller is in TEST (R241). -/
def State.writeMem (s : State) (u off v : Nat) (x : RegFacts) : State :=
  match off with
  | 0x040 => s.lbCtrl u v x.status x.errs
  | 0x800 => s.tgCtrl u v
  | _ => if (s.ctrl u).state = .test then s.updCtrl u (fun c => c.writeTg off v) else s

/-- SERV (Table 14.11), by the lock-keeper. -/
def State.writeServ (s : State) (off v : Nat) : State :=
  if off = 0 then (if bit v 31 then { s with serv := { s.serv with quotaReject := false } } else s)
  else if 0x104 ≤ off ∧ off ≤ 0x200 then s.setQuota ((off - 0x100) / 4) v
  else s

/-- DBG (Table 20.3), by a master or (none) by the TAP, which may not write KEY or LIFE (R642). DESIGN CHOICE: a LIFE out of
range is ignored, and a transfer with a reserved OP has the result RANGE. -/
def State.writeDbg (s : State) (src : Option Master) (off v : Nat) (ue : List Nat) : State :=
  let set := fun (f : Dbg → Dbg) => s.dbgWrite src (fun s => { s with dbg := f s.dbg })
  if 0x80000 ≤ off ∧ off < 0x81000 then set (fun d => { d with window := d.window.putAll 0 (off - 0x80000) (toBytes v 4) })
  else match off, src with
    | 0x004, some m => s.ownerWrite m (fun s => s.setKey v)
    | 0x008, some _ =>
      set (fun d => if 1 ≤ bits v 16 0 ∧ bits v 16 0 ≤ 86400 then { d with life := bits v 16 0 } else d)
    | 0x010, _ => s.dbgWrite src (fun s => s.dbgCmd v)
    | 0x014, _ => set (fun d => { d with arg := v })
    | 0x100, _ => set (fun d => { d with memVa := setBits d.memVa 31 0 v })
    | 0x104, _ => set (fun d => { d with memVa := setBits d.memVa 47 32 (bits v 15 0) })
    | 0x108, _ => s.dbgWrite src (fun s =>
        if bits v 1 0 = 1 ∨ bits v 1 0 = 2 then s.memTransfer src.isNone v ue
        else if s.clk < s.dbg.memEnd then { s with dbg := { s.dbg with rejected := sat8 (s.dbg.rejected + 1) } }
        else { s with dbg := { s.dbg with memResult := drRange } })
    | _, _ => s.dbgWrite src id

/-- PKG (Table 1.10), by the lock-keeper. -/
def State.writePkg (s : State) (off v : Nat) : State :=
  match off with
  | 0x08 => s.setPkgId v
  | 0x0C => if bit v 11 then { s with pkg := { s.pkg with offAccess := false } } else s
  | _ => s

/-- A write of a register whose domain is reached (R17, R525). -/
def State.writeOpen (s : State) (m : Master) (off v : Nat) (x : RegFacts) : State :=
  let own := fun (f : State → State) => s.ownerWrite m f
  if off < 0x10000 then own (fun s => s.writePkg off v)
  else if off < 0x20000 then s.writeOwn m (off - 0x10000) v
  else if off < 0x40000 then s.writeCmd m (off - 0x20000) v x.ok
  else if off < 0x50000 then own (fun s => s.writeLog m (off - 0x40000) v)
  else if off < 0x60000 then own (fun s => s.writePwr (off - 0x50000) v)
  else if 0x80000 ≤ off ∧ off < 0x100000 then own (fun s => s.writeTime (off - 0x80000) v)
  else if 0x200000 ≤ off ∧ off < 0x21C000 then own (fun s => s.writeMem ((off - 0x200000) / 0x1000) (off % 0x1000) v x)
  else if 0x500000 ≤ off ∧ off < 0x600000 then own (fun s => s.writeServ (off - 0x500000) v)
  else if 0x600000 ≤ off ∧ off < 0x700000 then s.writeDbg (some m) (off - 0x600000) v x.ue
  else own id

/-- A 32-bit write of a register (R16 to R18, R525). -/
def State.writeReg (s : State) (m : Master) (off v : Nat) (x : RegFacts) : State :=
  match s.regDomain off with
  | none => s.writeOpen m off (wrap32 v) x
  | some d =>
    let r := s.reachDomain d
    if r.1 then r.2.writeOpen m off (wrap32 v) x else r.2.ownerWrite m id

/-! ### BAR0 (R16) -/

/-- Bytes of the control space. -/
def bar0Bytes : Nat := 2 ^ 26

/-- A read's data. -/
def State.setRead (s : State) (lo hi : Nat) : State :=
  { s with cmd := { s.cmd with readData := BitVec.ofNat 32 lo, readHi := BitVec.ofNat 32 hi } }

/-- CONTROL_SPACE_READ (R16 to R18): 32 bits, fewer, or a pair of registers. A narrow read returns the addressed bytes of the
register that contains them; one that crosses a register's end returns a free value. -/
def execControlSpaceRead (m : Master) (off size : Nat) (s : State) : Out :=
  onUnit (decide (off < bar0Bytes)) (.next (
    if size = 8 ∧ off % 8 = 0 then
      let a := s.readReg m off
      let b := a.2.readReg m (off + 4)
      b.2.setRead a.1 b.1
    else if 1 ≤ size ∧ off % 4 + size ≤ 4 then
      let a := s.readReg m (off / 4 * 4)
      a.2.setRead (a.1 / 2 ^ (8 * (off % 4)) % 2 ^ (8 * size)) 0
    else
      let d := s.draw
      d.2.setRead (Config.busWord d.1) 0))

/-- CONTROL_SPACE_WRITE (R16 to R18, R525): 32 bits or a pair of registers; a narrower write, and one that is not naturally
aligned, is ignored. -/
def execControlSpaceWrite (m : Master) (off size value : Nat) (x : RegFacts) (s : State) : Out :=
  onUnit (decide (off < bar0Bytes)) (.next (
    if size = 8 ∧ off % 8 = 0 then (s.writeReg m off (lo32 value) x).writeReg m (off + 4) (hi32 value) x
    else if size = 4 ∧ off % 4 = 0 then s.writeReg m off value x
    else s))

/-- PKG_ID_WRITE (R21): a write of PKG_ID. -/
def execPkgIdWrite (m : Master) (value : Nat) (s : State) : Out := .next (s.ownerWrite m (fun s => s.setPkgId value))

/-- TIME_CTRL_RESYNC (R353): a write of TIME_CTRL with RESYNC. -/
def execTimeCtrlResync (m : Master) (value : Nat) (s : State) : Out :=
  .next (if bit value 31 then s.ownerWrite m (fun s => s.timeCtrl value) else s)

/-- TIME_SET_HI_WRITE (R354). -/
def execTimeSetHiWrite (m : Master) (value : Nat) (s : State) : Out :=
  .next (s.ownerWrite m (fun s => s.timeSetHi (wrap32 value)))

/-- TIME_NOW_LO_READ (R354). -/
def execTimeNowLoRead (m : Master) (s : State) : Out :=
  .next (let a := s.readReg m 0x80000
    a.2.setRead a.1 0)

/-! ### REG_ACCESS (R540) -/

/-- The master whose accesses a path carries (R524). DEDUCED: a ring's are those of the host at HOST_PORT; the control ring's
are the lock-keeper's. -/
def State.pathMaster (s : State) (path : Path) : Master :=
  let host := fun (n : Nat) => if (s.ring n).hostPort = 0 then Master.host0 else Master.host1
  match path with
  | .mailbox b => mboxMaster b
  | .towpath p => .fm p
  | .ring 0 => s.own.owner.getD (host 0)
  | .ring n => host n
  | .plan _ => host 0

/-- Reads `n` registers from `off`, in ascending order. -/
def State.readRegs (s : State) (m : Master) (off : Nat) : Nat → List Nat × State
  | 0 => ([], s)
  | n + 1 =>
    let a := s.readReg m off
    let b := a.2.readRegs m (off + 4) n
    (a.1 :: b.1, b.2)

/-- Writes registers from `off`, in ascending order. -/
def State.writeRegs (s : State) (m : Master) (off : Nat) (x : RegFacts) : List Nat → State
  | [] => s
  | v :: vs => (s.writeReg m off v x).writeRegs m (off + 4) x vs

/-- REG_ACCESS (R540). DEDUCED: a read with COUNT_M1 above 3 completes with FIELD_RESERVED. -/
def execRegAccess (path : Path) (pk : Packet) (x : RegFacts) (s : State) : Out :=
  beginCmd path pk (ofOp 0x003) s (fun f s =>
    let off := pk.w 0x10
    let n := pk.f 0x14 2 0 + 1
    let write := pk.b 0x14 8
    let m := s.pathMaster path
    if off % 4 ≠ 0 ∨ bar0Bytes < off + 4 * n ∨ (write = false ∧ 4 < n) then s.failWith f stFieldReserved
    else if write then
      if s.isOwner m then (s.writeRegs m off x ((List.range n).map (fun i => pk.w (0x18 + 4 * i)))).done f
      else s.failWith f stNotOwner
    else
      let r := s.readRegs m off n
      r.2.done f r.1)

/-! ### I3C and SMBus (R538, Table 16.6) -/

/-- I3C_ACCESS: a transfer as the bytes on the bus: address, command 0x01 or 0x02, offset, data of a write, PEC. A request
whose PEC fails is rejected; the data of a rejected read is a free value. -/
def execI3cAccess (bytes : List Byte) (x : RegFacts) (s : State) : Out :=
  .next (
    let body := bytes.take (bytes.length - 1)
    let pecOk := (bytes.getD (bytes.length - 1) 0).toNat == pec8 body
    let off := ofBytes ((bytes.drop 2).take 4)
    let offOk := off % 4 == 0 && decide (off < bar0Bytes)
    let answer := fun (s : State) (data result : Nat) =>
      let again := BitVec.ofNat 8 ((bytes.getD 0 0).toNat ||| 1)
      let pec := pec8 (bytes ++ [again] ++ toBytes data 4 ++ [BitVec.ofNat 8 result])
      let s := s.setRead data 0
      { s with cmd := { s.cmd with i3cResult := result, i3cPec := pec } }
    match (bytes.getD 1 0).toNat, bytes.length with
    | 1, 7 =>
      if pecOk && offOk then
        let a := s.readReg .bmc off
        answer a.2 a.1 0
      else
        let d := s.draw
        answer d.2 (wrap32 (Config.busWord d.1)) (if pecOk then 2 else 1)
    | 2, 11 => if pecOk && offOk then s.writeReg .bmc off (ofBytes ((bytes.drop 6).take 4)) x else s
    | _, _ => s)

/-! ### The TAP (R640, R642) -/

/-- The TAP may make an access: any while the block is UNLOCKED but a write of KEY or LIFE, and otherwise a read of DBG_LOCK or
DBG_LEFT. -/
def Dbg.tapMay (d : Dbg) (op off : Nat) : Bool :=
  if d.lock = .unlocked then !(op == 2 && (off == 4 || off == 8)) else op == 1 && (off == 0 || off == 0xC)

/-- DBG_ACCESS (R640): Update-DR with OP, offset and data. NOP and the reserved OP keep the previous outcome. No register of the
block is banked, so the TAP reads it as any master does. -/
def execDbgAccess (op off data : Nat) (ue : List Nat) (s : State) : Out :=
  .next (
    if s.dbg.tap != .dbgAccess || (op != 1 && op != 2) then s
    else
      let outcome := fun (s : State) (r v : Nat) => { s with dbg := { s.dbg with
        accResult := r, accOffset := off, accData := v, drOut := r * 2 ^ 64 + off * 2 ^ 32 + v } }
      if !s.dbg.tapMay op off then outcome s 2 s.dbg.accData
      else if off % 4 ≠ 0 ∨ 0x100000 ≤ off then outcome s 3 s.dbg.accData
      else if op = 1 then
        let a := s.readReg .bmc (0x600000 + off)
        outcome a.2 0 a.1
      else
        let s := match s.regDomain (0x600000 + off) with
          | none => s.writeDbg none off (wrap32 data) ue
          | some d => (s.reachDomain d).2
        outcome s 0 s.dbg.accData)

end Sys2Proof.Machine
end

