-- ==== Sys2Proof/Machine/Reset.lean ====
section
/-! DEFINITION. Reset and start-up (R614 to R617): what each reset clears (Table 18.7) and the start-up of Table 18.8, as
one step. -/

namespace Sys2Proof.Machine

/-! ### What each reset clears (Table 18.7) -/

/-- A port after a warm or soft reset: the counters of R357 and the settings stay. -/
def Port.cleared (p : Port) : Port :=
  { ueLimit := p.ueLimit, sleepIdle := p.sleepIdle, replayLimit := p.replayLimit, expect := p.expect,
    fecCorrected := p.fecCorrected, fecUncorrectable := p.fecUncorrectable, crcErrors := p.crcErrors, replayed := p.replayed,
    retrains := p.retrains, overloads := p.overloads, hbMissed := p.hbMissed, tpRerouted := p.tpRerouted,
    fastWakes := p.fastWakes, slowWakes := p.slowWakes, routeDrops := p.routeDrops, bytesTx := p.bytesTx,
    bytesRx := p.bytesRx, stomped := p.stomped }

/-- A pair keeps its counters, which run since cold reset (Table 6.19). -/
def Pair.cleared (p : Pair) : Pair := { p with active := 0, disabled := 0, negLevel := 0, features := 0 }

/-- The DBG block of the TAP's own state; the block itself is locked. -/
def Dbg.cleared (d : Dbg) : Dbg :=
  { tap := d.tap, ir := d.ir, irOut := d.irOut, accResult := d.accResult, accOffset := d.accOffset, accData := d.accData, drOut := d.drOut, life := d.life,
    boundary := d.boundary }

/-- Targets, TRIM, CAP_W, MODE and idle time go back to their defaults; meters, wakes and temperatures stay. -/
def Pwr.cleared (w : Pwr) : Pwr :=
  { domains := w.domains.foldl (fun (t : Tab Domain) e => t.put {} e.1 { wakes := e.2.wakes }) [],
    tempMax := w.tempMax, warn := w.warn, warnAt := w.warnAt, inputW := w.inputW, inputs := w.inputs, estMj := w.estMj,
    measMj := w.measMj, thermTrip := w.thermTrip,
    dies := w.dies.map (fun e => (e.1, { e.2 with railMv := 0, railLost := false })) }

/-- The commands of mailboxes and of the towpath that a soft reset holds over start-up (R545); those that had begun
complete with ABORTED, but for a HAND_OVER, whose offer the OWN block keeps. DESIGN CHOICE. -/
def State.holdOver (s : State) : State :=
  let kept := s.cmd.flights.filter (fun f => match f.path with
    | .mailbox _ | .towpath _ => true
    | _ => false)
  let cmd : Cmd := {
    mailboxes := s.cmd.mailboxes, nextId := s.cmd.nextId, msix := s.cmd.msix, fmStored := s.cmd.fmStored,
    hostMem := s.cmd.hostMem, readData := s.cmd.readData, i3cResult := s.cmd.i3cResult, i3cIrq := s.cmd.i3cIrq,
    fetchStopped := s.cmd.fetchStopped, flights := kept,
    committed := s.cmd.committed.filter (fun c => match c.path with
      | .mailbox _ | .towpath _ => true
      | _ => false),
    events := s.cmd.events.keep (fun p _ => p == 0) }
  (kept.filter (fun f => f.phase != .accepted && f.pk.opcode != 0x011)).foldl (fun s f => s.commit f.id stAborted [])
    { s with cmd := cmd }

/-- The units that stay retired over a warm or soft reset. -/
def Pkg.keptUnits (k : Pkg) : Pkg :=
  { idValid := k.idValid, packageId := k.packageId, unitRetired := k.unitRetired, hsOk := k.hsOk, hdOk := k.hdOk,
    cdOk := k.cdOk, bcOk := k.bcOk, cpOk := k.cpOk, qeOk := k.qeOk }

/-- Every unit but the island loses its state, as every reset but that of a die has it. -/
def State.clearUnits (s : State) : State :=
  { s with mem := {}, ten := {}, cpu := { retired := s.cpu.retired }, quay := {}, pipe := {}, coll := {}, serv := {},
           fab := { pairs := s.fab.pairs.foldl (fun (t : Tab Pair) e => t.put {} e.1 e.2.cleared) [] } }

/-- Cold reset: nothing is kept but the MRAM, the NOR and what lies outside the package. -/
def State.coldClear (s : State) : State :=
  { log := { mram := s.log.mram, genNext := s.log.genNext }, nor := { s.nor with addr := 0, err := false, busy := false, op := 0, window := [] },
    board := { s.board with resetN := true, faults := [], holdStart := false, scan := [], scanOn := false },
    cmd := { hostMem := s.cmd.hostMem }, time := { base := -(s.clk : Int), lastSync := s.clk }, clk := s.clk, fresh := s.fresh, pending := s.pending }

/-- Warm reset, at the fall of RESET_N. -/
def State.warmClear (s : State) : State :=
  let cool := (List.range 8).all (fun d => decide ((s.die d).temp < 90))
  let o := s.own
  let s := s.clearUnits.lockDbg 4
  { s with
    own := { o with owner := none, window := none, offer := none, token := 0, tokenC := compl32 0, banks := [], fmNextSeq := 0, fmAhead := [] },
    pkg := { s.pkg.keptUnits with idValid := false, packageId := 0 },
    cmd := { hostMem := s.cmd.hostMem }, dbg := s.dbg.cleared,
    pwr := { s.pwr.cleared with thermTrip := s.pwr.thermTrip && !cool },
    link := { ports := s.link.ports.foldl (fun (t : Tab Port) e => t.put {} e.1 e.2.cleared) [], msgId := s.link.msgId },
    nor := { s.nor with addr := 0, err := false, busy := false, op := 0, window := [] } }

/-- Soft reset: the island goes on. -/
def State.softClear (s : State) : State :=
  let aer := s.mem.aer
  let s := s.holdOver.clearUnits.lockDbg 4
  { s with
    mem := { s.mem with aer := aer }, pkg := s.pkg.keptUnits, dbg := s.dbg.cleared, pwr := s.pwr.cleared,
    link := { ports := s.link.ports.foldl (fun (t : Tab Port) e => t.put {} e.1 e.2.cleared) [], msgId := s.link.msgId,
              msgs := s.link.msgs } }

/-! ### The firmware slots (R618, R619) -/

/-- The first check that a slot fails: 1 MAGIC, 2 key, 3 signature, 4 digest, 5 SEC_VERSION; 0 for none. -/
def NorSlot.failed (n : NorSlot) (fused : Nat) : Nat :=
  if !n.magic then 1 else if !n.keyOk then 2 else if !n.sigOk then 3 else if !n.digestOk then 4
  else if n.secVersion < fused then 5 else 0

def Nor.slot (n : Nor) (b : Bool) : NorSlot := if b then n.slotB else n.slotA

/-- Verifies the slots, the higher VERSION first and slot A on a tie; true when one is valid. -/
def State.verify (s : State) : State × Bool :=
  let first := decide (s.nor.slotA.version < s.nor.slotB.version)
  let one := fun (s : State) (b : Bool) =>
    let x := s.nor.slot b
    let e := x.failed s.nor.fusedMin
    if e = 0 then (({ s with pkg := { s.pkg with bootSlot := b } } : State), true)
    else (s.record 0x0E01 2 0xFF srcIsland 0 (b2n b) e x.version 0 [0], false)
  let (s, ok) := one s first
  if ok then (s, true)
  else
    let (s, ok) := one s (!first)
    if ok then (s, true)
    else (s.record 0x0E02 3 0xFF srcIsland 0 (s.nor.slotA.failed s.nor.fusedMin) (s.nor.slotB.failed s.nor.fusedMin) 0 0 [0], false)

/-! ### The steps of Table 18.8 -/

/-- Start-up has cleared the bits `bs` of a PKG_UNITS register: each clearing writes a record; CAP_GEN counts only changes after
start-up. -/
def State.bootGone (s : State) (off : Nat) (bs : List Nat) : State :=
  bs.foldl (fun s b =>
    ({ s with pkg := { s.pkg with unitRetired := true } } : State).record 0x0407 2 0xFF srcIsland 0 off b s.pkg.capGen 0 [0]) s

/-- Step 1: straps, and the regulators that do not answer (R660); true when start-up may go on. -/
def State.probeBoard (s : State) (b : Boot) : State × Bool :=
  let dead := b.missing.filter (fun r => decide (r < 6))
  let other := b.missing.filter (fun r => decide (6 ≤ r ∧ r < 20))
  let was := s.pkg.cdOk
  let s : State := { s with
    board := { s.board with maddr := b.maddr % 4, faults := b.missing },
    pkg := { s.pkg with cdOk := andNot s.pkg.cdOk (maskOf dead.eraseDups) } }
  let s := s.bootGone 0x30 (dead.eraseDups.filter (bit was))
  (other.foldl (fun s r => s.record 0x0E08 3 0xFF srcIsland 0 r 0 0 0 [0]) s, other.isEmpty)

/-- Step 4: the pairs come up, unreachable compute dies are retired, and the hub dies must reach each other (R182). -/
def State.linkDies (s : State) (b : Boot) : State × Bool :=
  let s := (List.range 11).foldl (fun s i =>
    let m := b.pairs.getD i 0 % 256
    let e := pairDies i
    let usable := fun (d : Nat) => if d < 6 then bit s.pkg.cdOk d else true
    if usable e.1 && usable e.2 && m != 0 then s.linkPair i m else s.updPair i (fun p => { p with disabled := 255 })) s
  let s := s.reroute.setDieLevel
  let m := s.reachedDies
  let lost := andNot s.pkg.cdOk m
  let s : State := { s with pkg := { s.pkg with cdOk := s.pkg.cdOk &&& m } }
  let s := s.bootGone 0x30 (bitsSet lost 6)
  if bit m 7 then (s, true) else (s.record 0x0302 3 0xFF srcPackage 0 (andNot 0xFF m) 0 0 0 [0], false)

/-- A unit of memory is lost before READY (R245): the tier's first is relocated, a second puts the tier's units in TEST. The
tier is zeroed, so nothing of it reads as poisoned. DEDUCED: MEM_UNIT_LOST names cause 1 for training and loop-back alike. -/
def State.unitDead (s : State) (u : Nat) : State :=
  let first := if u < 12 then s.mem.lost1.isNone else s.mem.lost2.isNone
  let k := s.pkg
  let s : State := { s with
    pkg := { k with
      hsOk := if u < 12 then setBit k.hsOk u false else k.hsOk, bcOk := if u < 12 then k.bcOk else setBit k.bcOk (u - 12) false,
      qeOk := setBit k.qeOk u false, unitRetired := true },
    mem := if !first then s.mem else if u < 12 then { s.mem with lost1 := some u } else { s.mem with lost2 := some (u - 12) } }
  let s := if k.unitLost u then s
    else (s.bootGone (if u < 12 then 0x30 else 0x34) [if u < 12 then 16 + u else u + 4]).record 0x0404 3 0xFF srcMem u 1
      (if u < 12 then 11 else 15) 0 0 [0]
  (List.range 28).foldl (fun s v =>
    if v = u then s.updCtrl v (fun c => { c with state := .lost })
    else if decide (v < 12) == decide (u < 12) then
      s.updCtrl v (fun c => { c with state := if c.state = .lost then .lost else if first then .relocated else .test })
    else s) s

/-- Step 5: both tiers are trained, tested and zero. -/
def State.trainMemory (s : State) (b : Boot) : State :=
  let s := (List.range 28).foldl (fun s u => s.updCtrl u (fun c => { c with state := .service })) s
  let s : State := { s with mem := { s.mem with fwFrames := 1024 + b.fwFrames } }
  ((List.range 28).filter (fun u => s.pkg.unitLost u || b.units.contains u)).foldl (fun s u => s.unitDead u) s

/-- The assignment of logical cores in reach `r` (R132, R135): the physical index j, or the spare for the first that is
retired; a second one stays without. -/
def State.mapReach (s : State) (r : Nat) : State :=
  let gone := fun (i : Nat) => s.cpu.retired.get false (17 * r + i) || !bit s.pkg.cdOk (r / 16)
  let bad := (List.range 16).filter gone
  bad.zipIdx.foldl (fun s e =>
    let c := 16 * r + e.1
    if e.2 = 0 ∧ gone 16 = false then { s with cpu := { s.cpu with remap := s.cpu.remap.put none c (some 16) } }
    else { s with cpu := { s.cpu with unmapped := s.cpu.unmapped.put false c true } }) s

/-- Cores whose array fails its test are retired (R89). -/
def State.testArrays (s : State) (bad : List (Nat × Nat × Nat)) : State :=
  bad.foldl (fun s e =>
    if 1632 ≤ e.1 then s
    else
      let s : State := { s with
        cpu := { s.cpu with retired := s.cpu.retired.put false e.1 true }, pkg := { s.pkg with unitRetired := true } }
      s.record 0x0106 2 0xFF srcCore e.1 e.2.1 e.2.2 0 0 [0]) s

/-- Quay engines that fail their test are retired (R280); QUAY_RETIRE names the opcode that failed and no element. -/
def State.testEngines (s : State) (bad : List (Nat × Nat)) : State :=
  (bad.filter (fun e => bit s.pkg.qeOk e.1 && decide (e.1 < 28))).foldl (fun s e =>
    ({ s with pkg := { s.pkg with qeOk := setBit s.pkg.qeOk e.1 false, unitRetired := true } } : State).record
      0x0501 2 0xFF srcQuay e.1 e.2 0 0 0 [0]) s

/-- Step 6: the arrays and the quay engines are tested, and the logical cores assigned. -/
def State.testUnits (s : State) (b : Boot) : State :=
  let s := s.testArrays b.cores
  let s := (List.range 96).foldl (fun s r => s.mapReach r) s
  s.testEngines b.engines

/-- Steps 7 and 8: partition 0, the RESET record, the ports, the domains, READY. -/
def State.goLive (s : State) (kind : Nat) (b : Boot) : State :=
  let s := s.updPart 0 (fun e => { e with state := .idle })
  let s := s.record 0x0E03 0 0xFF srcPackage 0 kind 0 b.ms (b2n s.pkg.bootSlot) [0]
  let s := { s with link := { s.link with lasersOff := false } }
  let s := (List.range 24).foldl (fun s p => if bit s.pkg.cpOk p then s.train p else s) s
  let s := (List.range 56).foldl (fun s d =>
    if d < 30 ∧ bit s.pkg.cdOk (d / 5) = false then s
    else s.updDomain d (fun x => { x with state := .on, since := s.clk })) s
  let s := (List.range 8).foldl (fun s d =>
    if d < 6 ∧ bit s.pkg.cdOk d = false then s else s.updDie d (fun x => { x with railMv := s.railGoal d })) s
  { s with pkg := { s.pkg with ready := true } }

/-- Start-up, from the straps to READY, or as far as it comes. `kind` 1 cold, 2 warm, 3 soft. -/
def State.startUp (s : State) (kind : Nat) (b : Boot) : State :=
  let (s, ok) := s.probeBoard b
  if !ok then s
  else
    let (s, ok) := s.verify
    if !ok then s
    else
      let (s, ok) := s.linkDies b
      if !ok then s
      else ((s.trainMemory b).testUnits b).goLive kind b

/-! ### The rows -/

/-- COLD_RESET (R617): every supply comes up, and start-up runs. -/
def execColdReset (boot : Boot) (s : State) : Out := .next (s.coldClear.startUp 1 boot)

/-- WARM_RESET (R614, R305, R611): RESET_N falls; start-up waits for its rise. -/
def execWarmReset (s : State) : Out :=
  .next (
    let s := s.warmClear
    { s with board := { s.board with resetN := false, holdStart := true } })

/-- RESET_RELEASE (R666): RESET_N rises; start-up begins once no flush runs. -/
def execResetRelease (boot : Boot) (s : State) : Out :=
  .next (
    if s.board.resetN || s.log.flush.isSome then s
    else
      ({ s with board := { s.board with resetN := true, holdStart := false, scan := [], scanOn := false } } : State).startUp 2 boot)

/-- SOFT_RESET (R613, R614): it completes first; 100 µs after its completion is posted every job is aborted and start-up
runs. -/
def execSoftReset (path : Path) (pk : Packet) (boot : Boot) (s : State) : Out :=
  match s.pwr.actAt with
  | some (t, 6) => .next (if t ≤ s.clk then (s.darken.abortJobs.softClear).startUp 3 boot else s)
  | _ => beginCmd path pk (setDomKind 6) s (fun f s =>
      if s.pkgBusy then s.refusePower f 6
      else ({ s with pwr := { s.pwr with pkgOp := some (f.id, 6) } } : State).done f [0])

/-- PKG_WAKE (R605): the return from SLEEP, or from OFF by start-up. DESIGN CHOICE: that start-up clears what a soft reset
clears and its RESET record names that kind. -/
def execPkgWake (path : Path) (pk : Packet) (boot : Boot) (s : State) : Out :=
  beginCmd path pk (setDomKind 8) s (fun f s =>
    match s.pwr.state with
    | .run => if s.pkgBusy then s.refusePower f 6 else s.refusePower f 7
    | .sleep =>
      if s.pkgBusy then s.refusePower f 6
      else ({ s.leaveSleep with pwr := { s.leaveSleep.pwr with pkgOp := some (f.id, 8) } } : State).endSleep
    | .off =>
      let s := (s.updFlight f.id (fun g => { g with phase := .accepted })).softClear.startUp 3 boot
      if s.pkg.ready then s.done f [0] else s)

/-- The pairs of a die. -/
def diePairs (d : Nat) : List Nat := (List.range 11).filter (fun i => (pairDies i).1 == d || (pairDies i).2 == d)

/-- DIE_RESET (R616): `mods` are MODULES_ACTIVE of the die's pairs after retraining, `bad` the cores that fail the array
test. -/
def execDieReset (path : Path) (pk : Packet) (mods : List Nat) (bad : List (Nat × Nat × Nat)) (ms : Nat) (s : State) : Out :=
  beginCmd path pk (setDomKind 5) s (fun f s =>
    let d := pk.f 0x10 13 8
    if 6 ≤ d then s.refusePower f 1
    else if (List.range 4).any (fun g => s.liveDep (5 * d + g)) then s.refusePower f 5
    else if s.pkgBusy then s.refusePower f 6
    else if !bit s.pkg.cdOk d then s.refusePower f 7
    else
      let here := fun (c : Nat) => c / 256 == d
      let caps := s.capWords
      let s := (s.rezeroCores here).zeroBasins (fun k => k / 32 == d)
      let s := (diePairs d).zipIdx.foldl (fun s e =>
        s.linkPair e.1 (mods.getD e.2 0 % 256)) s
      let s : State := { s with cpu := { s.cpu with
        retired := s.cpu.retired.keep (fun c _ => c / 272 != d), unmapped := s.cpu.unmapped.keep (fun c _ => !here c),
        remap := s.cpu.remap.keep (fun c _ => !here c) } }
      let s := s.testArrays (bad.filter (fun e => e.1 / 272 == d))
      let s := ((List.range 96).filter (fun r => r / 16 == d)).foldl (fun s r => s.mapReach r) s
      let s := (List.range 5).foldl (fun s g => s.updDomain (5 * d + g) (fun x => { x with
        state := .on, since := s.clk, closed := false, held := [], refused := [], going := none, fromOff := false })) s
      let s := s.dropUnreached
      let s := if s.capWords = caps then s else s.bumpCapGen
      let s := s.record 0x0E03 0 0xFF srcDie d 4 d ms (b2n s.pkg.bootSlot) [0]
      s.done f [0])

/-- PERST_ASSERT (R615, R664): `high` says that the pin has risen again when the event ends, `pclk` that PCLKk carries a 100 MHz reference:
the port then runs in common-clock mode, and otherwise with separate clocks. The endpoint's error log goes with it. -/
def execPerstAssert (port : Nat) (high : Bool) (s : State) (pclk : Bool := false) : Out :=
  onUnit (decide (port < 2)) (.next (
    let rings := ((List.range 65).filter (fun n => (s.ring n).enable && (s.ring n).hostPort == port))
    let stop := fun (s : State) (n : Nat) =>
      if s.inflight (.ring n) = 0 then s.updRing n (fun r => { r with enable := false, enabled := false })
      else s.updRing n (fun r => { r with enable := false, draining := true })
    let s := rings.foldl stop s
    let s := if s.own.owner == some (if port = 0 then .host0 else .host1) then s.lapse else s
    { s with
      board := if port = 0 then { s.board with perst0N := high, common0 := pclk }
        else { s.board with perst1N := high, common1 := pclk },
      mem := { s.mem with aer := s.mem.aer.put false port false },
      cmd := { s.cmd with msix := s.cmd.msix.keep (fun k _ => k / 128 != port) } }))

end Sys2Proof.Machine
end

