-- ==== Sys2Proof/Machine/Scalar.lean ====
section
/-! DEFINITION. Scalar and control instructions (R142, Table 5.3), the scalar pool accesses (R144), the descriptor
instructions (R105, R108). -/

namespace Sys2Proof.Machine

/-- IMM as a 64-bit value, sign-extended. -/
def Op.immWord (o : Op) : Nat := unsigned 64 o.simm

def execAdd (core : Nat) (s : State) : Out :=
  scalarOp core 0x001 s (fun o k => k.reg o.b + k.reg o.c + o.immWord)

def execSub (core : Nat) (s : State) : Out :=
  scalarOp core 0x002 s (fun o k => unsigned 64 ((k.reg o.b : Int) - k.reg o.c - o.simm))

def execMul (core : Nat) (s : State) : Out :=
  scalarOp core 0x003 s (fun o k => k.reg o.b * k.reg o.c)

def execAndd (core : Nat) (s : State) : Out :=
  scalarOp core 0x004 s (fun o k => k.reg o.b &&& k.reg o.c)

def execOrr (core : Nat) (s : State) : Out :=
  scalarOp core 0x005 s (fun o k => k.reg o.b ||| k.reg o.c)

def execXor (core : Nat) (s : State) : Out :=
  scalarOp core 0x006 s (fun o k => k.reg o.b ^^^ k.reg o.c)

/-- The shift distance: (C + IMM) mod 64. -/
def shiftBy (o : Op) (k : Core) : Nat := (k.reg o.c + o.immWord) % 64

def execShl (core : Nat) (s : State) : Out :=
  scalarOp core 0x007 s (fun o k => k.reg o.b * 2 ^ shiftBy o k)

def execShr (core : Nat) (s : State) : Out :=
  scalarOp core 0x008 s (fun o k => k.reg o.b / 2 ^ shiftBy o k)

def execSar (core : Nat) (s : State) : Out :=
  scalarOp core 0x009 s (fun o k => unsigned 64 (signed 64 (k.reg o.b) / (2 ^ shiftBy o k : Nat)))

def execLi (core : Nat) (s : State) : Out :=
  scalarOp core 0x00A s (fun o _ => o.immWord)

/-- LIH: bits 24k + 23 to 24k of B replaced by IMM; for k = 2 only IMM[15:0] is used, in bits 63:48. -/
def execLih (core : Nat) (s : State) : Out :=
  scalarOp core 0x00B s (fun o k =>
    let i := bits o.fl 1 0
    if i = 2 then setBits (k.reg o.b) 63 48 o.imm else setBits (k.reg o.b) (24 * i + 23) (24 * i) o.imm)

def execSlt (core : Nat) (s : State) : Out :=
  scalarOp core 0x00C s (fun o k => b2n (decide (signed 64 (k.reg o.b) < signed 64 (k.reg o.c))))

def execSltu (core : Nat) (s : State) : Out :=
  scalarOp core 0x00D s (fun o k => b2n (decide (k.reg o.b < k.reg o.c)))

def execFadd (core : Nat) (s : State) : Out :=
  scalarOp core 0x010 s (fun o k => addF fmtFP32 (lo32 (k.reg o.b)) (lo32 (k.reg o.c)))

def execFmul (core : Nat) (s : State) : Out :=
  scalarOp core 0x011 s (fun o k => mulF fmtFP32 (lo32 (k.reg o.b)) (lo32 (k.reg o.c)))

def execFfma (core : Nat) (s : State) : Out :=
  scalarOp core 0x012 s (fun o k => fmaF fmtFP32 (lo32 (k.reg o.b)) (lo32 (k.reg o.c)) (lo32 (k.reg o.a)))

/-! ### Pool accesses of the control core (R144) -/

/-- A program fault of an instruction that makes no push (R130, R144): it carries the number that the next push
would take. -/
def State.controlFault (s : State) (c cause region : Nat) : State :=
  (s.updCore c (fun k =>
    { k with faulting := some ⟨0, region, Config.controlEngine c % 4, stProgramFault, k.pushCount, 0, cause, 0xFF, 0,
                               k.pc⟩ })).settle c

/-- A pool offset that is naturally aligned and wholly within the pool (R144). -/
def poolOk (off n : Nat) : Bool := off % n == 0 && decide (off + n ≤ 2 ^ 19)

/-- An LDS or SET_DESC meets an uncorrectable word (R110). -/
def State.controlUe (s : State) (c key : Nat) : State :=
  let s := s.logPoolUe c key (s.core c).pushCount
  s.controlFault c pfPoolUe 0

/-- Reads `n` bytes of the core's own pool, with the words that the code corrects and finds uncorrectable. -/
def State.poolRead (s : State) (c off n : Nat) (ce : Nat) (ue : List Nat) (body : List Byte → State → State) : State :=
  match s.pieceUe ue (.pool c off) n with
  | key :: _ => s.controlUe c key
  | [] => body (s.mem.pool.getAll 0 (c * 2 ^ 19 + off) n)
      (s.updCore c (fun k => { k with eccCorrected := sat32 (k.eccCorrected + ce) }))

/-- The pool offset B + IMM. -/
def Op.poolOff (o : Op) (k : Core) : Nat := wrap64 (k.reg o.b + o.immWord)

/-- LDS waits as a reader of region FL; `ce` and `ue` are what the pool's code finds. -/
def execLds (core : Nat) (ce : Nat) (ue : List Nat) (s : State) : Out :=
  onOp core 0x020 s (fun o s =>
    let k := s.core core
    let off := o.poolOff k
    if !k.noWriter o.fl then s
    else if !poolOk off 8 then s.controlFault core pfPosRange 0
    else s.poolRead core off 8 ce ue (fun bs s =>
      (s.updCore core (fun k => k.setReg o.a (ofBytes bs))).goto core (k.pc + o.len)))

/-- STS waits as a writer of region FL. -/
def execSts (core : Nat) (s : State) : Out :=
  onOp core 0x021 s (fun o s =>
    let k := s.core core
    let off := o.poolOff k
    if !k.noUser o.fl then s
    else if !poolOk off 8 then s.controlFault core pfPosRange o.fl
    else (s.writePlace (.pool core off) (toBytes (k.reg o.c) 8) false).goto core (k.pc + o.len))

def execStat (core : Nat) (s : State) : Out :=
  scalarOp core 0x030 s (fun o k =>
    if o.imm < 0x100 ∧ o.imm % 4 = 0 then k.statusWord s.clk o.imm else (Config.statFree o.imm).toNat)

/-- cond(B, C) of BR (Table 5.3). -/
def branchCond (sel b c : Nat) : Bool :=
  match sel with
  | 0 => true
  | 1 => b == c
  | 2 => b != c
  | 3 => decide (signed 64 b < signed 64 c)
  | 4 => !decide (signed 64 b < signed 64 c)
  | 5 => decide (b < c)
  | _ => !decide (b < c)

def execBr (core : Nat) (s : State) : Out :=
  onOp core 0x100 s (fun o s =>
    let k := s.core core
    if branchCond (bits o.fl 2 0) (k.reg o.b) (k.reg o.c) then s.goto core ((k.pc : Int) + o.simm).toNat
    else s.goto core (k.pc + o.len))

def execFence (core : Nat) (s : State) : Out :=
  onOp core 0x110 s (fun o s =>
    if (s.core core).pushes.isEmpty then s.goto core ((s.core core).pc + o.len) else s)

def execWaitr (core : Nat) (s : State) : Out :=
  onOp core 0x111 s (fun o s =>
    if (s.core core).noWriter o.fl then s.goto core ((s.core core).pc + o.len) else s)

def execEndProgram (core : Nat) (s : State) : Out :=
  onOp core 0x1FF s (fun _ s => (s.updCore core (fun k => { k with ended := true })).settle core)

/-! ### Descriptors -/

/-- Puts a checked descriptor in a slot, or faults (R105, R108). -/
def State.setSlot (s : State) (c : Nat) (o : Op) (h : Nat) (d : Desc) (reserved : Bool) : State :=
  if h ≥ 0x100 then s.controlFault c pfHandleReserved 0
  else match d.check reserved with
    | some cause => s.controlFault c cause 0
    | none => (s.updCore c (fun k => { k with slots := k.slots.put {} h d })).goto c ((s.core c).pc + o.len)

def execSetDesc (core : Nat) (ce : Nat) (ue : List Nat) (s : State) : Out :=
  onOp core 0x600 s (fun o s =>
    let k := s.core core
    let off := k.reg o.b
    if !k.noWriter o.fl then s
    else if !poolOk off 64 then s.controlFault core pfPosRange 0
    else s.poolRead core off 64 ce ue (fun bs s =>
      s.setSlot core o (bits o.imm 11 0) (Desc.ofWords (bytesToWords bs)) (descReserved (bytesToWords bs))))

/-- SET_BASE; bits of B above the field count as a nonzero reserved field. -/
def execSetBase (core : Nat) (s : State) : Out :=
  onOp core 0x601 s (fun o s =>
    let k := s.core core
    let h := bits o.imm 11 0
    s.setSlot core o h { k.slot h with base := bits (k.reg o.b) 47 0 } (k.reg o.b ≥ 2 ^ 48))

/-- SET_DIM; bits of B above the field count as a nonzero reserved field. -/
def execSetDim (core : Nat) (s : State) : Out :=
  onOp core 0x602 s (fun o s =>
    let k := s.core core
    let h := bits o.imm 11 0
    let v := lo32 (k.reg o.b)
    let d := k.slot h
    let d := match bits o.imm 13 12 with
      | 0 => { d with dim0 := v }
      | 1 => { d with dim1 := v }
      | 2 => { d with dim2 := v }
      | _ => { d with dim3 := v }
    s.setSlot core o h d (k.reg o.b ≥ 2 ^ 32))

/-- Instructions after which a CHUNK is well placed: engine instructions that read or write memory (R146). -/
def chunkable (opc : Nat) : Bool :=
  [0x200, 0x201, 0x202, 0x300, 0x301, 0x302, 0x320, 0x400, 0x401, 0x402, 0x500, 0x501].contains opc

/-- CHUNK: the prefix waits for its instruction; register A holds the chunk number (R146). -/
def execChunk (core : Nat) (s : State) : Out :=
  onOp core 0x4F0 s (fun o s =>
    let k := s.core core
    let u : ChunkUse := ⟨o.fl, k.reg o.a, bits o.imm 2 1, bit o.imm 0⟩
    (s.updCore core (fun k => { k with prefixes := k.prefixes ++ [u] })).goto core (k.pc + o.len))

end Sys2Proof.Machine
end

