-- ==== Sys2Proof/Machine/Dispatch.lean ====
section
/-! DEFINITION. One arm per command: what `exec` does with everything but the queue. -/

namespace Sys2Proof.Machine

def exec (i : Instr) (s : State) : Host.Outcome State Fault Refusal :=
  match i with
  | .identify path pk => Sys2Proof.Machine.execIdentify path pk s
  | .negotiateLevel path pk => Sys2Proof.Machine.execNegotiateLevel path pk s
  | .regAccess path pk x => Sys2Proof.Machine.execRegAccess path pk x s
  | .handOver path pk => Sys2Proof.Machine.execHandOver path pk s
  | .setDomainTarget path pk drained => Sys2Proof.Machine.execSetDomainTarget path pk drained s
  | .setDomainTrim path pk => Sys2Proof.Machine.execSetDomainTrim path pk s
  | .setDomainPower path pk => Sys2Proof.Machine.execSetDomainPower path pk s
  | .setDomainIdleTime path pk => Sys2Proof.Machine.execSetDomainIdleTime path pk s
  | .dieReset path pk mods bad ms => Sys2Proof.Machine.execDieReset path pk mods bad ms s
  | .softReset path pk boot => Sys2Proof.Machine.execSoftReset path pk boot s
  | .pkgSleep path pk => Sys2Proof.Machine.execPkgSleep path pk s
  | .pkgWake path pk boot => Sys2Proof.Machine.execPkgWake path pk boot s
  | .pkgOff path pk => Sys2Proof.Machine.execPkgOff path pk s
  | .fabricConfig path pk => Sys2Proof.Machine.execFabricConfig path pk s
  | .memConfig path pk => Sys2Proof.Machine.execMemConfig path pk s
  | .routeLoad path pk host ue => Sys2Proof.Machine.execRouteLoad path pk host ue s
  | .portCtl path pk => Sys2Proof.Machine.execPortCtl path pk s
  | .portEnable path pk => Sys2Proof.Machine.execPortEnable path pk s
  | .portDisable path pk => Sys2Proof.Machine.execPortDisable path pk s
  | .portRetrain path pk => Sys2Proof.Machine.execPortRetrain path pk s
  | .portPark path pk => Sys2Proof.Machine.execPortPark path pk s
  | .portUnpark path pk => Sys2Proof.Machine.execPortUnpark path pk s
  | .partCreate path pk frames saveBase => Sys2Proof.Machine.execPartCreate path pk frames saveBase s
  | .partDestroy path pk => Sys2Proof.Machine.execPartDestroy path pk s
  | .partSetSlices path pk frames saveBase => Sys2Proof.Machine.execPartSetSlices path pk frames saveBase s
  | .partSetPorts path pk => Sys2Proof.Machine.execPartSetPorts path pk s
  | .partSetBudgets path pk => Sys2Proof.Machine.execPartSetBudgets path pk s
  | .partSetRegulator path pk => Sys2Proof.Machine.execPartSetRegulator path pk s
  | .partSetArb path pk => Sys2Proof.Machine.execPartSetArb path pk s
  | .partSetDbg path pk => Sys2Proof.Machine.execPartSetDbg path pk s
  | .partSetDbgMax path pk => Sys2Proof.Machine.execPartSetDbgMax path pk s
  | .commonBerthRegister path pk => Sys2Proof.Machine.execCommonBerthRegister path pk s
  | .commonBerthRetire path pk => Sys2Proof.Machine.execCommonBerthRetire path pk s
  | .jobStart path pk => Sys2Proof.Machine.execJobStart path pk s
  | .jobResume path pk ue => Sys2Proof.Machine.execJobResume path pk ue s
  | .jobEvict path pk => Sys2Proof.Machine.execJobEvict path pk s
  | .jobEvictDiscard path pk => Sys2Proof.Machine.execJobEvictDiscard path pk s
  | .abortCommand path pk => Sys2Proof.Machine.execAbortCommand path pk s
  | .abortJob path pk => Sys2Proof.Machine.execAbortJob path pk s
  | .copy path pk ue => Sys2Proof.Machine.execCopy path pk ue s
  | .gather path pk ue => Sys2Proof.Machine.execGather path pk ue s
  | .scatter path pk ue => Sys2Proof.Machine.execScatter path pk ue s
  | .memMap path pk frames => Sys2Proof.Machine.execMemMap path pk frames s
  | .memUnmap path pk => Sys2Proof.Machine.execMemUnmap path pk s
  | .memAperture path pk => Sys2Proof.Machine.execMemAperture path pk s
  | .loadImage path pk host ue imFail => Sys2Proof.Machine.execLoadImage path pk host ue imFail s
  | .run path pk => Sys2Proof.Machine.execRun path pk s
  | .runResume path pk => Sys2Proof.Machine.execRunResume path pk s
  | .stageBind path pk host ue => Sys2Proof.Machine.execStageBind path pk host ue s
  | .stageUnbind path pk => Sys2Proof.Machine.execStageUnbind path pk s
  | .scheduleGenerate path pk => Sys2Proof.Machine.execScheduleGenerate path pk s
  | .scheduleLoad path pk host ue => Sys2Proof.Machine.execScheduleLoad path pk host ue s
  | .berthPublish path pk ue => Sys2Proof.Machine.execBerthPublish path pk ue s
  | .makeCurrent path pk => Sys2Proof.Machine.execMakeCurrent path pk s
  | .berthRetire path pk => Sys2Proof.Machine.execBerthRetire path pk s
  | .stepRun path pk => Sys2Proof.Machine.execStepRun path pk s
  | .stepPlanLoad path pk ue => Sys2Proof.Machine.execStepPlanLoad path pk ue s
  | .stepPlanStart path pk => Sys2Proof.Machine.execStepPlanStart path pk s
  | .stepPlanStop path pk => Sys2Proof.Machine.execStepPlanStop path pk s
  | .allreduce path pk ue => Sys2Proof.Machine.execAllreduce path pk ue s
  | .reduceScatter path pk ue => Sys2Proof.Machine.execReduceScatter path pk ue s
  | .allgather path pk ue => Sys2Proof.Machine.execAllgather path pk ue s
  | .alltoallDispatch path pk ue => Sys2Proof.Machine.execAlltoallDispatch path pk ue s
  | .alltoallCombine path pk ue => Sys2Proof.Machine.execAlltoallCombine path pk ue s
  | .permuteReshard path pk ue => Sys2Proof.Machine.execPermuteReshard path pk ue s
  | .groupBind path pk host ue => Sys2Proof.Machine.execGroupBind path pk host ue s
  | .groupUnbind path pk => Sys2Proof.Machine.execGroupUnbind path pk s
  | .groupStandby path pk host ue => Sys2Proof.Machine.execGroupStandby path pk host ue s
  | .ckptBuddyWrite path pk ue => Sys2Proof.Machine.execCkptBuddyWrite path pk ue s
  | .ckptBuddyAccept path pk => Sys2Proof.Machine.execCkptBuddyAccept path pk s
  | .ckptBuddyRevoke path pk => Sys2Proof.Machine.execCkptBuddyRevoke path pk s
  | .ckptDrain path pk host => Sys2Proof.Machine.execCkptDrain path pk host s
  | .exportShards path pk host ue => Sys2Proof.Machine.execExportShards path pk host ue s
  | .restore path pk host ue => Sys2Proof.Machine.execRestore path pk host ue s
  | .astAdmit path pk => Sys2Proof.Machine.execAstAdmit path pk s
  | .astRetire path pk => Sys2Proof.Machine.execAstRetire path pk s
  | .deadlineSet path pk => Sys2Proof.Machine.execDeadlineSet path pk s
  | .fallbackBind path pk => Sys2Proof.Machine.execFallbackBind path pk s
  | .modelBind path pk host ue => Sys2Proof.Machine.execModelBind path pk host ue s
  | .modelUnbind path pk => Sys2Proof.Machine.execModelUnbind path pk s
  | .quayLoad path pk host ue => Sys2Proof.Machine.execQuayLoad path pk host ue s
  | .quayRun path pk ue => Sys2Proof.Machine.execQuayRun path pk ue s
  | .quayAccOpen path pk => Sys2Proof.Machine.execQuayAccOpen path pk s
  | .quayAccClose path pk => Sys2Proof.Machine.execQuayAccClose path pk s
  | .loopbackMem path pk => Sys2Proof.Machine.execLoopbackMem path pk s
  | .loopbackPort path pk => Sys2Proof.Machine.execLoopbackPort path pk s
  | .trafficGenEnter path pk => Sys2Proof.Machine.execTrafficGenEnter path pk s
  | .trafficGenExit path pk bad => Sys2Proof.Machine.execTrafficGenExit path pk bad s
  | .add core => Sys2Proof.Machine.execAdd core s
  | .sub core => Sys2Proof.Machine.execSub core s
  | .mul core => Sys2Proof.Machine.execMul core s
  | .andd core => Sys2Proof.Machine.execAndd core s
  | .orr core => Sys2Proof.Machine.execOrr core s
  | .xor core => Sys2Proof.Machine.execXor core s
  | .shl core => Sys2Proof.Machine.execShl core s
  | .shr core => Sys2Proof.Machine.execShr core s
  | .sar core => Sys2Proof.Machine.execSar core s
  | .li core => Sys2Proof.Machine.execLi core s
  | .lih core => Sys2Proof.Machine.execLih core s
  | .slt core => Sys2Proof.Machine.execSlt core s
  | .sltu core => Sys2Proof.Machine.execSltu core s
  | .fadd core => Sys2Proof.Machine.execFadd core s
  | .fmul core => Sys2Proof.Machine.execFmul core s
  | .ffma core => Sys2Proof.Machine.execFfma core s
  | .lds core ce ue => Sys2Proof.Machine.execLds core ce ue s
  | .sts core => Sys2Proof.Machine.execSts core s
  | .stat core => Sys2Proof.Machine.execStat core s
  | .br core => Sys2Proof.Machine.execBr core s
  | .fence core => Sys2Proof.Machine.execFence core s
  | .waitr core => Sys2Proof.Machine.execWaitr core s
  | .endProgram core => Sys2Proof.Machine.execEndProgram core s
  | .mma core now => Sys2Proof.Machine.execMma core now s
  | .drain core now => Sys2Proof.Machine.execDrain core now s
  | .accLoad core now => Sys2Proof.Machine.execAccLoad core now s
  | .accClear core now => Sys2Proof.Machine.execAccClear core now s
  | .vew core now => Sys2Proof.Machine.execVew core now s
  | .vred core now => Sys2Proof.Machine.execVred core now s
  | .vcvt core now => Sys2Proof.Machine.execVcvt core now s
  | .regionClear core now => Sys2Proof.Machine.execRegionClear core now s
  | .lcRebuild core now => Sys2Proof.Machine.execLcRebuild core now s
  | .lcFlip core now => Sys2Proof.Machine.execLcFlip core now s
  | .dxCopy core now => Sys2Proof.Machine.execDxCopy core now s
  | .dxGather core now => Sys2Proof.Machine.execDxGather core now s
  | .dxScatter core now => Sys2Proof.Machine.execDxScatter core now s
  | .streamOpen core now => Sys2Proof.Machine.execStreamOpen core now s
  | .streamClose core now => Sys2Proof.Machine.execStreamClose core now s
  | .chunk core => Sys2Proof.Machine.execChunk core s
  | .send core now => Sys2Proof.Machine.execSend core now s
  | .jsend core now => Sys2Proof.Machine.execJsend core now s
  | .recv core now => Sys2Proof.Machine.execRecv core now s
  | .setDesc core ce ue => Sys2Proof.Machine.execSetDesc core ce ue s
  | .setBase core => Sys2Proof.Machine.execSetBase core s
  | .setDim core => Sys2Proof.Machine.execSetDim core s
  | .commandBegin core engine seen => Sys2Proof.Machine.execCommandBegin core engine seen s
  | .arrayResume core => Sys2Proof.Machine.execArrayResume core s
  | .arrayFreezeLong core => Sys2Proof.Machine.execArrayFreezeLong core s
  | .arraySentinel core => Sys2Proof.Machine.execArraySentinel core s
  | .coreMove core slow shadowOk => Sys2Proof.Machine.execCoreMove core slow shadowOk s
  | .imBlockReload core => Sys2Proof.Machine.execImBlockReload core s
  | .lcRebuildWrite core seen => Sys2Proof.Machine.execLcRebuildWrite core seen s
  | .lcConsumerResume core seen => Sys2Proof.Machine.execLcConsumerResume core seen s
  | .streamFill core n ue => Sys2Proof.Machine.execStreamFill core n ue s
  | .messageArrive src core q => Sys2Proof.Machine.execMessageArrive src core q s
  | .spaceNotice core => Sys2Proof.Machine.execSpaceNotice core s
  | .qxRetryTimer core => Sys2Proof.Machine.execQxRetryTimer core s
  | .handlerDispatch core handler => Sys2Proof.Machine.execHandlerDispatch core handler s
  | .junctionArm reach jq => Sys2Proof.Machine.execJunctionArm reach jq s
  | .junctionContribution src reach jq => Sys2Proof.Machine.execJunctionContribution src reach jq s
  | .networkPacketReceive head payload len src ue => Sys2Proof.Machine.execNetworkPacketReceive head payload len src ue s
  | .arbiterGrant row unit index raised => Sys2Proof.Machine.execArbiterGrant row unit index raised s
  | .lengthsman row unit index holder => Sys2Proof.Machine.execLengthsman row unit index holder s
  | .pliCapRecord pair mod words => Sys2Proof.Machine.execPliCapRecord pair mod words s
  | .pliCapTimeout pair mod => Sys2Proof.Machine.execPliCapTimeout pair mod s
  | .moduleFail pair mod => Sys2Proof.Machine.execModuleFail pair mod s
  | .memoryRead part line errs evictUe => Sys2Proof.Machine.execMemoryRead part line s errs evictUe
  | .memoryWrite part addr data poison evictUe => Sys2Proof.Machine.execMemoryWrite part addr data s poison evictUe
  | .freshWrite part va data poison => Sys2Proof.Machine.execFreshWrite part va data poison s
  | .freshWriteRelease part va => Sys2Proof.Machine.execFreshWriteRelease part va s
  | .zeroFrame => Sys2Proof.Machine.execZeroFrame s
  | .twinRestore gran twinUe backUe us => Sys2Proof.Machine.execTwinRestore gran twinUe backUe us s
  | .patrolScrub line errs row lane bad => Sys2Proof.Machine.execPatrolScrub line errs row lane s bad
  | .refreshTempPoll unit temp => Sys2Proof.Machine.execRefreshTempPoll unit temp s
  | .memUnitLost unit cause moves => Sys2Proof.Machine.execMemUnitLost unit cause moves s
  | .hostBar2Access port addr len write data ue => Sys2Proof.Machine.execHostBar2Access port addr len write data ue s
  | .memLbStart m unit value => Sys2Proof.Machine.execMemLbStart m unit value s
  | .memLbStop m unit value status errs => Sys2Proof.Machine.execMemLbStop m unit value status errs s
  | .memLbDurationEnd unit status errs mbits repaired => Sys2Proof.Machine.execMemLbDurationEnd unit status errs mbits repaired s
  | .tgStart m unit value => Sys2Proof.Machine.execTgStart m unit value s
  | .tgStop m unit value => Sys2Proof.Machine.execTgStop m unit value s
  | .tgDone unit lines flips => Sys2Proof.Machine.execTgDone unit lines flips s
  | .tgErrCountRead m unit => Sys2Proof.Machine.execTgErrCountRead m unit s
  | .quayRunStart tier => Sys2Proof.Machine.execQuayRunStart tier s
  | .quayWorkUnit engine ue retries dead => Sys2Proof.Machine.execQuayWorkUnit engine ue retries dead s
  | .quayLd engine ue => Sys2Proof.Machine.execQuayLd engine ue s
  | .quaySt engine ue => Sys2Proof.Machine.execQuaySt engine ue s
  | .quayLdp engine ue => Sys2Proof.Machine.execQuayLdp engine ue s
  | .quayLdi engine ue => Sys2Proof.Machine.execQuayLdi engine ue s
  | .quayRndu engine ue retries dead => Sys2Proof.Machine.execQuayRndu engine ue s retries dead
  | .quayAdd engine ue retries dead => Sys2Proof.Machine.execQuayAdd engine ue s retries dead
  | .quaySub engine ue retries dead => Sys2Proof.Machine.execQuaySub engine ue s retries dead
  | .quayMul engine ue retries dead => Sys2Proof.Machine.execQuayMul engine ue s retries dead
  | .quayFma engine ue retries dead => Sys2Proof.Machine.execQuayFma engine ue s retries dead
  | .quayMin engine ue retries dead => Sys2Proof.Machine.execQuayMin engine ue s retries dead
  | .quayMax engine ue retries dead => Sys2Proof.Machine.execQuayMax engine ue s retries dead
  | .quayAbs engine ue retries dead => Sys2Proof.Machine.execQuayAbs engine ue s retries dead
  | .quayNeg engine ue retries dead => Sys2Proof.Machine.execQuayNeg engine ue s retries dead
  | .quayCmplt engine ue retries dead => Sys2Proof.Machine.execQuayCmplt engine ue s retries dead
  | .quaySel engine ue retries dead => Sys2Proof.Machine.execQuaySel engine ue s retries dead
  | .quayCvt engine ue retries dead => Sys2Proof.Machine.execQuayCvt engine ue s retries dead
  | .quaySqrt engine ue retries dead => Sys2Proof.Machine.execQuaySqrt engine ue s retries dead
  | .quayRcp engine ue retries dead => Sys2Proof.Machine.execQuayRcp engine ue s retries dead
  | .quayBred engine ue retries dead => Sys2Proof.Machine.execQuayBred engine ue s retries dead
  | .quayScale engine ue retries dead => Sys2Proof.Machine.execQuayScale engine ue s retries dead
  | .quayEnd engine ue => Sys2Proof.Machine.execQuayEnd engine ue s
  | .windowContribution part va data poison ue => Sys2Proof.Machine.execWindowContribution part va data poison ue s
  | .flitReceive port flit ue corrected => Sys2Proof.Machine.execFlitReceive port flit ue corrected s
  | .flitSend port => Sys2Proof.Machine.execFlitSend port s
  | .canalPacket port bytes => Sys2Proof.Machine.execCanalPacket port bytes s
  | .controlFlit port body => Sys2Proof.Machine.execControlFlit port body s
  | .controlFlitDue port => Sys2Proof.Machine.execControlFlitDue port s
  | .nackRepeat port => Sys2Proof.Machine.execNackRepeat port s
  | .codewordLimit port => Sys2Proof.Machine.execCodewordLimit port s
  | .retrainStart port cause => Sys2Proof.Machine.execRetrainStart port cause s
  | .retrainDone port rtt credits exp tpExp => Sys2Proof.Machine.execRetrainDone port rtt credits exp tpExp s
  | .retrainAttemptFail port => Sys2Proof.Machine.execRetrainAttemptFail port s
  | .overloadAssert port lane => Sys2Proof.Machine.execOverloadAssert port lane s
  | .overloadDeassert port lane => Sys2Proof.Machine.execOverloadDeassert port lane s
  | .overloadTimeout port => Sys2Proof.Machine.execOverloadTimeout port s
  | .towpathFlit port body => Sys2Proof.Machine.execTowpathFlit port body s
  | .towpathMessage port => Sys2Proof.Machine.execTowpathMessage port s
  | .heartbeatSend port => Sys2Proof.Machine.execHeartbeatSend port s
  | .heartbeat port => Sys2Proof.Machine.execHeartbeat port s
  | .heartbeatTimeout port => Sys2Proof.Machine.execHeartbeatTimeout port s
  | .lightLoss port lanes => Sys2Proof.Machine.execLightLoss port lanes s
  | .lightReturn port lanes => Sys2Proof.Machine.execLightReturn port lanes s
  | .park port => Sys2Proof.Machine.execPark port s
  | .parkTimeout port => Sys2Proof.Machine.execParkTimeout port s
  | .sleepIdleTimer port => Sys2Proof.Machine.execSleepIdleTimer port s
  | .sleep port code => Sys2Proof.Machine.execSleep port code s
  | .wakeBurst port heard => Sys2Proof.Machine.execWakeBurst port heard s
  | .timeSyncTimer => Sys2Proof.Machine.execTimeSyncTimer s
  | .timeSync port reply t1 t2 t3 t4 depth bound rate => Sys2Proof.Machine.execTimeSync port reply t1 t2 t3 t4 depth bound rate s
  | .peerNotice => Sys2Proof.Machine.execPeerNotice s
  | .bargeDesc => Sys2Proof.Machine.execBargeDesc s
  | .bargePacket => Sys2Proof.Machine.execBargePacket s
  | .accept => Sys2Proof.Machine.execAccept s
  | .commit => Sys2Proof.Machine.execCommit s
  | .pipeCredit ue => Sys2Proof.Machine.execPipeCredit ue s
  | .pipeLost => Sys2Proof.Machine.execPipeLost s
  | .takeover ue => Sys2Proof.Machine.execTakeover ue s
  | .resendFrom => Sys2Proof.Machine.execResendFrom s
  | .markAck => Sys2Proof.Machine.execMarkAck s
  | .bargeProbe slot => Sys2Proof.Machine.execBargeProbe slot s
  | .workNotice slot => Sys2Proof.Machine.execWorkNotice slot s
  | .pipeSeal ue => Sys2Proof.Machine.execPipeSeal ue s
  | .pipeDone => Sys2Proof.Machine.execPipeDone s
  | .mark slot ue => Sys2Proof.Machine.execMark slot ue s
  | .microbatchCommit slot => Sys2Proof.Machine.execMicrobatchCommit slot s
  | .stepRunTimeout slot => Sys2Proof.Machine.execStepRunTimeout slot s
  | .stepTime => Sys2Proof.Machine.execStepTime s
  | .lagClose set => Sys2Proof.Machine.execLagClose set s
  | .lagVerdict => Sys2Proof.Machine.execLagVerdict s
  | .stepRecordTimeout slot => Sys2Proof.Machine.execStepRecordTimeout slot s
  | .planEntryIssue slot => Sys2Proof.Machine.execPlanEntryIssue slot s
  | .collPacket ue => Sys2Proof.Machine.execCollPacket ue s
  | .rmemWrite ue => Sys2Proof.Machine.execRmemWrite ue s
  | .rmemRead ue => Sys2Proof.Machine.execRmemRead ue s
  | .rmemData ue => Sys2Proof.Machine.execRmemData ue s
  | .rmemAck ue => Sys2Proof.Machine.execRmemAck ue s
  | .hello ue => Sys2Proof.Machine.execHello ue s
  | .helloRepeat slot => Sys2Proof.Machine.execHelloRepeat slot s
  | .collStart => Sys2Proof.Machine.execCollStart s
  | .collCredit ue => Sys2Proof.Machine.execCollCredit ue s
  | .collFail ue => Sys2Proof.Machine.execCollFail ue s
  | .collLost => Sys2Proof.Machine.execCollLost s
  | .rejoin ue => Sys2Proof.Machine.execRejoin ue s
  | .collState => Sys2Proof.Machine.execCollState s
  | .rejoinWaitExpire slot => Sys2Proof.Machine.execRejoinWaitExpire slot s
  | .ckptData srcPart mark => Sys2Proof.Machine.execCkptData srcPart mark s
  | .ckptDir srcPart => Sys2Proof.Machine.execCkptDir srcPart s
  | .ckptAck ue => Sys2Proof.Machine.execCkptAck ue s
  | .ckptRead srcPart ue => Sys2Proof.Machine.execCkptRead srcPart ue s
  | .ckptReadData ue => Sys2Proof.Machine.execCkptReadData ue s
  | .servDone => Sys2Proof.Machine.execServDone s
  | .servBoundary slot ue => Sys2Proof.Machine.execServBoundary slot ue s
  | .servQuotaWrite m part value => Sys2Proof.Machine.execServQuotaWrite m part value s
  | .regulatorRefill => Sys2Proof.Machine.execRegulatorRefill s
  | .fixedShareRelease part res bytes read latNs => Sys2Proof.Machine.execFixedShareRelease part res bytes read latNs s
  | .meterSnapshot => Sys2Proof.Machine.execMeterSnapshot s
  | .ringEnable m ring value => Sys2Proof.Machine.execRingEnable m ring value s
  | .ringDisable m ring value => Sys2Proof.Machine.execRingDisable m ring value s
  | .ringSqTail m ring value => Sys2Proof.Machine.execRingSqTail m ring value s
  | .ringCqHead m ring value ok => Sys2Proof.Machine.execRingCqHead m ring value ok s
  | .ringFetch ring host ue => Sys2Proof.Machine.execRingFetch ring host ue s
  | .completionPost path ok => Sys2Proof.Machine.execCompletionPost path ok s
  | .mboxDoorbell m => Sys2Proof.Machine.execMboxDoorbell m s
  | .mboxEvtAck m => Sys2Proof.Machine.execMboxEvtAck m s
  | .i3cAccess bytes x => Sys2Proof.Machine.execI3cAccess bytes x s
  | .towpathCommand => Sys2Proof.Machine.execTowpathCommand s
  | .controlSpaceWrite m off size value x => Sys2Proof.Machine.execControlSpaceWrite m off size value x s
  | .pkgIdWrite m value => Sys2Proof.Machine.execPkgIdWrite m value s
  | .timeCtrlResync m value => Sys2Proof.Machine.execTimeCtrlResync m value s
  | .timeSetHiWrite m value => Sys2Proof.Machine.execTimeSetHiWrite m value s
  | .timeNowLoRead m => Sys2Proof.Machine.execTimeNowLoRead m s
  | .ownClaim m value => Sys2Proof.Machine.execOwnClaim m value s
  | .ownRelease m => Sys2Proof.Machine.execOwnRelease m s
  | .ownRenew m token => Sys2Proof.Machine.execOwnRenew m token s
  | .ownAccept m nonce => Sys2Proof.Machine.execOwnAccept m nonce s
  | .elect => Sys2Proof.Machine.execElect s
  | .claimWindowClose => Sys2Proof.Machine.execClaimWindowClose s
  | .leaseExpire => Sys2Proof.Machine.execLeaseExpire s
  | .offerTimeout => Sys2Proof.Machine.execOfferTimeout s
  | .keeperWatchdog keeper => Sys2Proof.Machine.execKeeperWatchdog keeper s
  | .fwWatchdog hd0 hd1 => Sys2Proof.Machine.execFwWatchdog hd0 hd1 s
  | .islandWatchdog => Sys2Proof.Machine.execIslandWatchdog s
  | .logFlush fail => Sys2Proof.Machine.execLogFlush fail s
  | .logSuppressEnd => Sys2Proof.Machine.execLogSuppressEnd s
  | .clearRing m value => Sys2Proof.Machine.execClearRing m value s
  | .clearMram m value => Sys2Proof.Machine.execClearMram m value s
  | .logFlushRequest m value => Sys2Proof.Machine.execLogFlushRequest m value s
  | .logWindowRead m view => Sys2Proof.Machine.execLogWindowRead m view s
  | .domainIdle dom quiet drained => Sys2Proof.Machine.execDomainIdle dom quiet drained s
  | .sluiceArrival dom src ctl cmd => Sys2Proof.Machine.execSluiceArrival dom src ctl cmd s
  | .domainWakeDone dom => Sys2Proof.Machine.execDomainWakeDone dom s
  | .powerdownDrainTimeout dom => Sys2Proof.Machine.execPowerdownDrainTimeout dom s
  | .sluiceHoldTimeout dom => Sys2Proof.Machine.execSluiceHoldTimeout dom s
  | .capLoop watts => Sys2Proof.Machine.execCapLoop watts s
  | .activityLoop watts => Sys2Proof.Machine.execActivityLoop watts s
  | .thermalPoll die temp sensor => Sys2Proof.Machine.execThermalPoll die temp sensor s
  | .pwrWarnFall => Sys2Proof.Machine.execPwrWarnFall s
  | .pwrWarnRise => Sys2Proof.Machine.execPwrWarnRise s
  | .pmbAlert status => Sys2Proof.Machine.execPmbAlert status s
  | .refclkLoss => Sys2Proof.Machine.execRefclkLoss s
  | .coldReset boot => Sys2Proof.Machine.execColdReset boot s
  | .warmReset => Sys2Proof.Machine.execWarmReset s
  | .perstAssert port high pclk => Sys2Proof.Machine.execPerstAssert port high s pclk
  | .norErase m value => Sys2Proof.Machine.execNorErase m value s
  | .norProgram m value => Sys2Proof.Machine.execNorProgram m value s
  | .commitSec m value => Sys2Proof.Machine.execCommitSec m value s
  | .tapReset => Sys2Proof.Machine.execTapReset s
  | .dbgKey value => Sys2Proof.Machine.execDbgKey value s
  | .dbgAccess op off data ue => Sys2Proof.Machine.execDbgAccess op off data ue s
  | .dbgKeySet m value => Sys2Proof.Machine.execDbgKeySet m value s
  | .dbgUnlockExpire => Sys2Proof.Machine.execDbgUnlockExpire s
  | .halt src value => Sys2Proof.Machine.execHalt src value s
  | .resume src value => Sys2Proof.Machine.execResume src value s
  | .step src value => Sys2Proof.Machine.execStep src value s
  | .dbgStepDone core => Sys2Proof.Machine.execDbgStepDone core s
  | .setBp src value => Sys2Proof.Machine.execSetBp src value s
  | .clearBp src value => Sys2Proof.Machine.execClearBp src value s
  | .dbgMemRead src value ue => Sys2Proof.Machine.execDbgMemRead src value ue s
  | .dbgMemWrite src value ue => Sys2Proof.Machine.execDbgMemWrite src value ue s
  | .runTimeout cmd => Sys2Proof.Machine.execRunTimeout cmd s
  | .lossOfLock port lanes => Sys2Proof.Machine.execLossOfLock port lanes s
  | .fastWakeDone port aligned => Sys2Proof.Machine.execFastWakeDone port aligned s
  | .powerdownRetry dom drained => Sys2Proof.Machine.execPowerdownRetry dom drained s
  | .railLoss rails => Sys2Proof.Machine.execRailLoss rails s
  | .refclkReturn => Sys2Proof.Machine.execRefclkReturn s
  | .resetRelease boot => Sys2Proof.Machine.execResetRelease boot s
  | .controlSpaceRead m off size => Sys2Proof.Machine.execControlSpaceRead m off size s
  | .norOpDone ok => Sys2Proof.Machine.execNorOpDone ok s
  | .portLoopbackEnd port lanes errs mbits => Sys2Proof.Machine.execPortLoopbackEnd port lanes errs mbits s
  | .hostReadCompletion cmd elem off len data cause ue => Sys2Proof.Machine.execHostReadCompletion cmd elem off len data cause ue s
  | .voltageStep die => Sys2Proof.Machine.execVoltageStep die s
  | .extest value => Sys2Proof.Machine.execExtest value s
  | .tapIrScan code => Sys2Proof.Machine.execTapIrScan code s

end Sys2Proof.Machine
end

