-- ==== Sys2Proof/Machine/Tick.lean ====
section
/-! DEFINITION. What passes in a nanosecond in which no command comes (R350, R449). -/

namespace Sys2Proof.Machine

/-- One nanosecond passes; each bound stage counts it for the phase that it is in. -/
def State.tick (s : State) : State :=
  let s := { s with clk := s.clk + 1 }
  (s.pipe.slots.filter (fun e => e.2.bound)).foldl (fun s e =>
    s.updStage e.1 (fun g => { g with phases := g.phases.upd 0 g.phase (· + 1) })) s

end Sys2Proof.Machine
end

