-- ==== Sys2Proof/WellFormed.lean ====
section
/-! DEFINITION. Well-formed commands: a packet has its twelve parameter words and comes on a path that exists, and an event
names a unit that the package has and values that it can carry. -/

namespace Sys2Proof

/-- A packet of 64 bytes (R526). -/
def Packet.wf (p : Packet) : Bool := p.params.length == 12

/-- A path that exists (Table 16.1): a ring, a mailbox bank, a fabric manager, the plan of a stage slot. -/
def Path.wf : Path → Bool
  | .ring r => decide (r < 65)
  | .mailbox m => decide (m < 3)
  | .towpath p => decide (p < 2 ^ 20)
  | .plan n => decide (n < 96)

/-- A line of a frame that one of the two tiers has (Table 7.2). -/
def lineAt (line : Nat) : Bool :=
  let f := line / 2 ^ 15
  decide (f < 366192) || decide (8388608 ≤ f ∧ f < 9437184)

/-- A point of arbitration (Table 6.10), by its row: basin bank, router output port, module of a pair, controller, canal egress. -/
def arbiterAt (row unit index : Nat) : Bool :=
  match row with
  | 1 => decide (unit < 96 ∧ index < 128)
  | 2 => decide (unit < 98 ∧ index < 32)
  | 3 => decide (unit < 11 ∧ index < 16)
  | 4 => decide (unit < 28 ∧ index = 0)
  | 5 => decide (unit < 24 ∧ index = 0)
  | _ => false

/-- A unit that may hold a grant. -/
def GrantHolder.wf : GrantHolder → Bool
  | .core c _ => decide (c < 1536)
  | .stream k n => decide (k < 192 ∧ n < 16)
  | .quay e => decide (e < 28)
  | .quayAdd e _ _ _ => decide (e < 28)
  | .port p => decide (p < 24)
  | .keeper k => decide (k < 8)
  | .dma _ | .other => true

/-- The check of each command. -/
def Instr.wf : Instr → Bool
  | .identify path pk => path.wf && pk.wf
  | .negotiateLevel path pk => path.wf && pk.wf
  | .regAccess path pk _ => path.wf && pk.wf
  | .handOver path pk => path.wf && pk.wf
  | .setDomainTarget path pk _ => path.wf && pk.wf
  | .setDomainTrim path pk => path.wf && pk.wf
  | .setDomainPower path pk => path.wf && pk.wf
  | .setDomainIdleTime path pk => path.wf && pk.wf
  | .dieReset path pk _ _ _ => path.wf && pk.wf
  | .softReset path pk _ => path.wf && pk.wf
  | .pkgSleep path pk => path.wf && pk.wf
  | .pkgWake path pk _ => path.wf && pk.wf
  | .pkgOff path pk => path.wf && pk.wf
  | .fabricConfig path pk => path.wf && pk.wf
  | .memConfig path pk => path.wf && pk.wf
  | .routeLoad path pk _ _ => path.wf && pk.wf
  | .portCtl path pk => path.wf && pk.wf
  | .portEnable path pk => path.wf && pk.wf
  | .portDisable path pk => path.wf && pk.wf
  | .portRetrain path pk => path.wf && pk.wf
  | .portPark path pk => path.wf && pk.wf
  | .portUnpark path pk => path.wf && pk.wf
  | .partCreate path pk _ _ => path.wf && pk.wf
  | .partDestroy path pk => path.wf && pk.wf
  | .partSetSlices path pk _ _ => path.wf && pk.wf
  | .partSetPorts path pk => path.wf && pk.wf
  | .partSetBudgets path pk => path.wf && pk.wf
  | .partSetRegulator path pk => path.wf && pk.wf
  | .partSetArb path pk => path.wf && pk.wf
  | .partSetDbg path pk => path.wf && pk.wf
  | .partSetDbgMax path pk => path.wf && pk.wf
  | .commonBerthRegister path pk => path.wf && pk.wf
  | .commonBerthRetire path pk => path.wf && pk.wf
  | .jobStart path pk => path.wf && pk.wf
  | .jobResume path pk _ => path.wf && pk.wf
  | .jobEvict path pk => path.wf && pk.wf
  | .jobEvictDiscard path pk => path.wf && pk.wf
  | .abortCommand path pk => path.wf && pk.wf
  | .abortJob path pk => path.wf && pk.wf
  | .copy path pk _ => path.wf && pk.wf
  | .gather path pk _ => path.wf && pk.wf
  | .scatter path pk _ => path.wf && pk.wf
  | .memMap path pk _ => path.wf && pk.wf
  | .memUnmap path pk => path.wf && pk.wf
  | .memAperture path pk => path.wf && pk.wf
  | .loadImage path pk _ _ _ => path.wf && pk.wf
  | .run path pk => path.wf && pk.wf
  | .runResume path pk => path.wf && pk.wf
  | .stageBind path pk _ _ => path.wf && pk.wf
  | .stageUnbind path pk => path.wf && pk.wf
  | .scheduleGenerate path pk => path.wf && pk.wf
  | .scheduleLoad path pk _ _ => path.wf && pk.wf
  | .berthPublish path pk _ => path.wf && pk.wf
  | .makeCurrent path pk => path.wf && pk.wf
  | .berthRetire path pk => path.wf && pk.wf
  | .stepRun path pk => path.wf && pk.wf
  | .stepPlanLoad path pk _ => path.wf && pk.wf
  | .stepPlanStart path pk => path.wf && pk.wf
  | .stepPlanStop path pk => path.wf && pk.wf
  | .allreduce path pk _ => path.wf && pk.wf
  | .reduceScatter path pk _ => path.wf && pk.wf
  | .allgather path pk _ => path.wf && pk.wf
  | .alltoallDispatch path pk _ => path.wf && pk.wf
  | .alltoallCombine path pk _ => path.wf && pk.wf
  | .permuteReshard path pk _ => path.wf && pk.wf
  | .groupBind path pk _ _ => path.wf && pk.wf
  | .groupUnbind path pk => path.wf && pk.wf
  | .groupStandby path pk _ _ => path.wf && pk.wf
  | .ckptBuddyWrite path pk _ => path.wf && pk.wf
  | .ckptBuddyAccept path pk => path.wf && pk.wf
  | .ckptBuddyRevoke path pk => path.wf && pk.wf
  | .ckptDrain path pk _ => path.wf && pk.wf
  | .exportShards path pk _ _ => path.wf && pk.wf
  | .restore path pk _ _ => path.wf && pk.wf
  | .astAdmit path pk => path.wf && pk.wf
  | .astRetire path pk => path.wf && pk.wf
  | .deadlineSet path pk => path.wf && pk.wf
  | .fallbackBind path pk => path.wf && pk.wf
  | .modelBind path pk _ _ => path.wf && pk.wf
  | .modelUnbind path pk => path.wf && pk.wf
  | .quayLoad path pk _ _ => path.wf && pk.wf
  | .quayRun path pk _ => path.wf && pk.wf
  | .quayAccOpen path pk => path.wf && pk.wf
  | .quayAccClose path pk => path.wf && pk.wf
  | .loopbackMem path pk => path.wf && pk.wf
  | .loopbackPort path pk => path.wf && pk.wf
  | .trafficGenEnter path pk => path.wf && pk.wf
  | .trafficGenExit path pk _ => path.wf && pk.wf
  | .add core => decide (core < 1536)
  | .sub core => decide (core < 1536)
  | .mul core => decide (core < 1536)
  | .andd core => decide (core < 1536)
  | .orr core => decide (core < 1536)
  | .xor core => decide (core < 1536)
  | .shl core => decide (core < 1536)
  | .shr core => decide (core < 1536)
  | .sar core => decide (core < 1536)
  | .li core => decide (core < 1536)
  | .lih core => decide (core < 1536)
  | .slt core => decide (core < 1536)
  | .sltu core => decide (core < 1536)
  | .fadd core => decide (core < 1536)
  | .fmul core => decide (core < 1536)
  | .ffma core => decide (core < 1536)
  | .lds core _ _ => decide (core < 1536)
  | .sts core => decide (core < 1536)
  | .stat core => decide (core < 1536)
  | .br core => decide (core < 1536)
  | .fence core => decide (core < 1536)
  | .waitr core => decide (core < 1536)
  | .endProgram core => decide (core < 1536)
  | .mma core _ => decide (core < 1536)
  | .drain core _ => decide (core < 1536)
  | .accLoad core _ => decide (core < 1536)
  | .accClear core _ => decide (core < 1536)
  | .vew core _ => decide (core < 1536)
  | .vred core _ => decide (core < 1536)
  | .vcvt core _ => decide (core < 1536)
  | .regionClear core _ => decide (core < 1536)
  | .lcRebuild core _ => decide (core < 1536)
  | .lcFlip core _ => decide (core < 1536)
  | .dxCopy core _ => decide (core < 1536)
  | .dxGather core _ => decide (core < 1536)
  | .dxScatter core _ => decide (core < 1536)
  | .streamOpen core _ => decide (core < 1536)
  | .streamClose core _ => decide (core < 1536)
  | .chunk core => decide (core < 1536)
  | .send core _ => decide (core < 1536)
  | .jsend core _ => decide (core < 1536)
  | .recv core _ => decide (core < 1536)
  | .setDesc core _ _ => decide (core < 1536)
  | .setBase core => decide (core < 1536)
  | .setDim core => decide (core < 1536)
  | .commandBegin core _ _ => decide (core < 1536)
  | .arrayResume core => decide (core < 1536)
  | .arrayFreezeLong core => decide (core < 1536)
  | .arraySentinel core => decide (core < 1536)
  | .coreMove core _ _ => decide (core < 1536)
  | .imBlockReload core => decide (core < 1536)
  | .lcRebuildWrite core _ => decide (core < 1536)
  | .lcConsumerResume core _ => decide (core < 1536)
  | .streamFill core n _ => decide (core < 1536) && decide (n < 24)
  | .messageArrive _ core q => decide (core < 1544) && decide (q < 16)
  | .spaceNotice core => decide (core < 1536)
  | .qxRetryTimer core => decide (core < 1536)
  | .handlerDispatch core _ => decide (core < 1544)
  | .junctionArm reach jq => decide (reach < 96) && decide (jq < 32)
  | .junctionContribution src reach jq => decide (reach < 96) && decide (jq < 32) && decide (src < 1536)
  | .networkPacketReceive _ _ _ _ _ => true
  | .arbiterGrant row unit index _ => arbiterAt row unit index
  | .lengthsman row unit index holder => arbiterAt row unit index && holder.wf
  | .pliCapRecord pair mod _ => decide (pair < 11) && decide (mod < 8)
  | .pliCapTimeout pair mod => decide (pair < 11) && decide (mod < 8)
  | .moduleFail pair mod => decide (pair < 11) && decide (mod < 8)
  | .memoryRead part line _ _ => decide (part ≤ 64) && lineAt line
  | .memoryWrite part addr data _ _ => decide (part ≤ 64) && lineAt (addr / 64) && decide (1 ≤ data.length ∧ addr % 64 + data.length ≤ 64)
  | .freshWrite part _ _ _ => decide (part < 65)
  | .freshWriteRelease part _ => decide (part < 65)
  | .zeroFrame => true
  | .twinRestore _ _ _ _ => true
  | .patrolScrub line _ _ _ _ => lineAt line || decide (366192 * 2 ^ 15 ≤ line ∧ line < 366204 * 2 ^ 15)
  | .refreshTempPoll unit temp => decide (unit < 28) && decide (temp < 256)
  | .memUnitLost unit _ _ => decide (unit < 28)
  | .hostBar2Access port addr _ _ _ _ => decide (port < 2) && decide (addr < 2 ^ 37)
  | .memLbStart _ unit _ => decide (unit < 28)
  | .memLbStop _ unit _ _ _ => decide (unit < 28)
  | .memLbDurationEnd unit _ _ _ _ => decide (unit < 28)
  | .tgStart _ unit _ => decide (unit < 28)
  | .tgStop _ unit _ => decide (unit < 28)
  | .tgDone unit _ _ => decide (unit < 28)
  | .tgErrCountRead _ unit => decide (unit < 28)
  | .quayRunStart tier => decide (tier < 2)
  | .quayWorkUnit engine _ _ _ => decide (engine < 28)
  | .quayLd engine _ => decide (engine < 28)
  | .quaySt engine _ => decide (engine < 28)
  | .quayLdp engine _ => decide (engine < 28)
  | .quayLdi engine _ => decide (engine < 28)
  | .quayRndu engine _ _ _ => decide (engine < 28)
  | .quayAdd engine _ _ _ => decide (engine < 28)
  | .quaySub engine _ _ _ => decide (engine < 28)
  | .quayMul engine _ _ _ => decide (engine < 28)
  | .quayFma engine _ _ _ => decide (engine < 28)
  | .quayMin engine _ _ _ => decide (engine < 28)
  | .quayMax engine _ _ _ => decide (engine < 28)
  | .quayAbs engine _ _ _ => decide (engine < 28)
  | .quayNeg engine _ _ _ => decide (engine < 28)
  | .quayCmplt engine _ _ _ => decide (engine < 28)
  | .quaySel engine _ _ _ => decide (engine < 28)
  | .quayCvt engine _ _ _ => decide (engine < 28)
  | .quaySqrt engine _ _ _ => decide (engine < 28)
  | .quayRcp engine _ _ _ => decide (engine < 28)
  | .quayBred engine _ _ _ => decide (engine < 28)
  | .quayScale engine _ _ _ => decide (engine < 28)
  | .quayEnd engine _ => decide (engine < 28)
  | .windowContribution part _ _ _ _ => decide (part < 65)
  | .flitReceive port flit _ _ => decide (port < 24) && decide (flit.length = 256)
  | .flitSend port => decide (port < 24)
  | .canalPacket port _ => decide (port < 24)
  | .controlFlit port body => decide (port < 24) && decide (body.length = 252)
  | .controlFlitDue port => decide (port < 24)
  | .nackRepeat port => decide (port < 24)
  | .codewordLimit port => decide (port < 24)
  | .retrainStart port cause => decide (port < 24) && decide (1 ≤ cause ∧ cause ≤ 6)
  | .retrainDone port _ credits _ _ => decide (port < 24) && decide (credits.length = 6)
  | .retrainAttemptFail port => decide (port < 24)
  | .overloadAssert port lane => decide (port < 24) && decide (lane < 8)
  | .overloadDeassert port lane => decide (port < 24) && decide (lane < 8)
  | .overloadTimeout port => decide (port < 24)
  | .towpathFlit port body => decide (port < 24) && decide (body.length = 252)
  | .towpathMessage port => decide (port < 24)
  | .heartbeatSend port => decide (port < 24)
  | .heartbeat port => decide (port < 24)
  | .heartbeatTimeout port => decide (port < 24)
  | .lightLoss port lanes => decide (port < 24) && decide (0 < lanes ∧ lanes < 256)
  | .lightReturn port lanes => decide (port < 24) && decide (0 < lanes ∧ lanes < 256)
  | .park port => decide (port < 24)
  | .parkTimeout port => decide (port < 24)
  | .sleepIdleTimer port => decide (port < 24)
  | .sleep port code => decide (port < 24) && decide (code < 3)
  | .wakeBurst port _ => decide (port < 24)
  | .timeSyncTimer => true
  | .timeSync port _ _ _ _ _ _ _ _ => decide (port < 24)
  | .peerNotice => true
  | .bargeDesc => true
  | .bargePacket => true
  | .accept => true
  | .commit => true
  | .pipeCredit _ => true
  | .pipeLost => true
  | .takeover _ => true
  | .resendFrom => true
  | .markAck => true
  | .bargeProbe slot => decide (slot < 96)
  | .workNotice slot => decide (slot < 96)
  | .pipeSeal _ => true
  | .pipeDone => true
  | .mark slot _ => decide (slot < 96)
  | .microbatchCommit slot => decide (slot < 96)
  | .stepRunTimeout slot => decide (slot < 96)
  | .stepTime => true
  | .lagClose _ => true
  | .lagVerdict => true
  | .stepRecordTimeout slot => decide (slot < 96)
  | .planEntryIssue slot => decide (slot < 96)
  | .collPacket _ => true
  | .rmemWrite _ => true
  | .rmemRead _ => true
  | .rmemData _ => true
  | .rmemAck _ => true
  | .hello _ => true
  | .helloRepeat slot => decide (slot < 64)
  | .collStart => true
  | .collCredit _ => true
  | .collFail _ => true
  | .collLost => true
  | .rejoin _ => true
  | .collState => true
  | .rejoinWaitExpire slot => decide (slot < 64)
  | .ckptData _ _ => true
  | .ckptDir _ => true
  | .ckptAck _ => true
  | .ckptRead _ _ => true
  | .ckptReadData _ => true
  | .servDone => true
  | .servBoundary slot _ => decide (slot < 64)
  | .servQuotaWrite _ part _ => decide (part < 65) && decide (1 ≤ part)
  | .regulatorRefill => true
  | .fixedShareRelease part res _ _ _ => decide (part < 65) && decide (res ≤ 4)
  | .meterSnapshot => true
  | .ringEnable _ ring _ => decide (ring < 65)
  | .ringDisable _ ring _ => decide (ring < 65)
  | .ringSqTail _ ring _ => decide (ring < 65)
  | .ringCqHead _ ring _ _ => decide (ring < 65)
  | .ringFetch ring _ _ => decide (ring < 65)
  | .completionPost path _ => path.wf
  | .mboxDoorbell _ => true
  | .mboxEvtAck _ => true
  | .i3cAccess _ _ => true
  | .towpathCommand => true
  | .controlSpaceWrite _ off _ _ _ => decide (off < 2 ^ 26)
  | .pkgIdWrite _ _ => true
  | .timeCtrlResync _ _ => true
  | .timeSetHiWrite _ _ => true
  | .timeNowLoRead _ => true
  | .ownClaim _ _ => true
  | .ownRelease _ => true
  | .ownRenew _ _ => true
  | .ownAccept _ _ => true
  | .elect => true
  | .claimWindowClose => true
  | .leaseExpire => true
  | .offerTimeout => true
  | .keeperWatchdog keeper => decide (keeper < 8)
  | .fwWatchdog _ _ => true
  | .islandWatchdog => true
  | .logFlush _ => true
  | .logSuppressEnd => true
  | .clearRing _ _ => true
  | .clearMram _ _ => true
  | .logFlushRequest _ _ => true
  | .logWindowRead _ view => decide (view = 1 ∨ view = 2)
  | .domainIdle dom _ _ => decide (dom < 56)
  | .sluiceArrival dom _ _ _ => decide (dom < 56)
  | .domainWakeDone dom => decide (dom < 56)
  | .powerdownDrainTimeout dom => decide (dom < 56)
  | .sluiceHoldTimeout dom => decide (dom < 56)
  | .capLoop _ => true
  | .activityLoop _ => true
  | .thermalPoll die temp _ => decide (die < 8) && decide (temp < 256)
  | .pwrWarnFall => true
  | .pwrWarnRise => true
  | .pmbAlert _ => true
  | .refclkLoss => true
  | .coldReset _ => true
  | .warmReset => true
  | .perstAssert port _ _ => decide (port < 2)
  | .norErase _ _ => true
  | .norProgram _ _ => true
  | .commitSec _ _ => true
  | .tapReset => true
  | .dbgKey _ => true
  | .dbgAccess _ _ _ _ => true
  | .dbgKeySet _ _ => true
  | .dbgUnlockExpire => true
  | .halt _ _ => true
  | .resume _ _ => true
  | .step _ _ => true
  | .dbgStepDone core => decide (core < 1536)
  | .setBp _ _ => true
  | .clearBp _ _ => true
  | .dbgMemRead _ _ _ => true
  | .dbgMemWrite _ _ _ => true
  | .runTimeout _ => true
  | .lossOfLock port lanes => decide (port < 24) && decide (0 < lanes ∧ lanes < 256)
  | .fastWakeDone port _ => decide (port < 24)
  | .powerdownRetry dom _ => decide (dom < 56)
  | .railLoss _ => true
  | .refclkReturn => true
  | .resetRelease _ => true
  | .controlSpaceRead _ off _ => decide (off < 2 ^ 26)
  | .norOpDone _ => true
  | .portLoopbackEnd port _ _ _ => decide (port < 24)
  | .hostReadCompletion _ _ _ _ _ _ _ => true
  | .voltageStep die => decide (die < 8)
  | .extest _ => true
  | .tapIrScan _ => true

end Sys2Proof
end

