-- ==== Sys2Proof/Safety.lean ====
section
/-! DEFINITION. What a safe run is, and the terms in which claims are stated: a step that answers a next state, a
command that begins, a completion, an instruction that a core fetches. -/

namespace Sys2Proof.Machine

/-- A step goes on. -/
def State.goesOn (s : State) : Prop := ∃ t, step s = .next t

/-- Every command of the queue is well formed. -/
def State.queueWf (s : State) : Bool := s.pending.all Instr.wf

/-- Core `c` stands at an instruction of opcode `opc` and fetches it as `o` (R140 to R142). -/
structure State.Fetches (s : State) (c opc : Nat) (o : Op) : Prop where
  core : c < 1536
  fetch : (s.core c).fetch = some o
  opcode : o.opc = opc

/-- A scalar register as a 64-bit word. -/
def State.x (s : State) (c i : Nat) : BitVec 64 := BitVec.ofNat 64 ((s.core c).reg i)

/-- The immediate of an instruction, sign-extended to 64 bits. -/
def Op.sext (o : Op) : BitVec 64 := (BitVec.ofNat 24 o.imm).signExtend 64

/-- Core `c` writes `v` to the register that A names and goes on behind the instruction: nothing else changes, but for
what reaching TRUNCATE does (R163). -/
def State.writesA (s : State) (c : Nat) (o : Op) (v : BitVec 64) : State :=
  (s.updCore c (fun k => k.setReg o.a v.toNat)).goto c ((s.core c).pc + o.len)

/-- The command that `pk` spells on `path` is in flight as `f` and begins: it is first in its path's order, the package
serves it, none of the resources `rs` that it needs is blocked and each of its buckets lets it proceed (R515), and the domains `ds` that it needs are awake
(R600). -/
structure State.Begins (s : State) (path : Path) (pk : Packet) (f : Flight) (rs ds : List Nat) : Prop where
  named : s.named path pk = some f
  found : s.flight f.id = some f
  alone : f.aborts = []
  served : s.pwr.fenced = false
  awake : s.pwr.state ≠ .sleep
  gate : s.ringGate f = none
  free : s.blocked (s.actsFor f) rs = false
  tokens : rs.all (s.mayProceed (s.actsFor f)) = true
  doms : ds.all s.awake = true

/-- The state in which a command in flight has just begun (R542). -/
def State.begun (s : State) (f : Flight) : State :=
  s.updFlight f.id (fun g => { g with phase := .begun, at_ := s.clk })

/-- The command `f` completes from `s` to `t` with a status and result words: it leaves the commands in flight, and its
completion is committed behind those committed before (R543). -/
structure State.Completes (s : State) (f : Flight) (status : Nat) (res : List Nat) (t : State) : Prop where
  flights : t.cmd.flights = delFirst (fun g => g.id == f.id) s.cmd.flights
  committed : t.cmd.committed = s.cmd.committed ++
    [⟨f.id, f.path, f.pk.opcode, status, f.pk.seq.toNat, f.pk.tag.toNat, f.pk.part, f.sqHead, f.pk.irq, res⟩]

/-- Core `c` stands at the engine instruction `o` of opcode `opc`; the queue of its engine has room and no breakpoint hits (R96,
R648). -/
structure State.HasRoom (s : State) (c opc : Nat) (e : Engine) (o : Op) : Prop where
  fetches : s.Fetches c opc o
  engine : o.engine = e
  noBreak : (s.core c).hitBp = none
  room : ((s.core c).queue e).length < 64

/-- In `t`, core `c` has pushed the engine instruction `o` of `s` (R97, R98, R151): the queue grows by its entry, the count of
pushes by one, the program goes on behind it after its last push; no register, slot or tile and no other core changes. But
for a word of its RNG context that is found uncorrectable (R110), nothing else of the machine changes. -/
structure State.Pushes (s : State) (c : Nat) (e : Engine) (o : Op) (last : Bool) (t : State) : Prop where
  queue : (t.core c).queue e = (s.core c).queue e ++ [s.makePush c o (s.core c).group last]
  count : (t.core c).pushCount = wrap32 ((s.core c).pushCount + 1)
  pc : (t.core c).pc = if last then (s.core c).pc + o.len else (s.core c).pc
  regs : (t.core c).regs = (s.core c).regs
  slots : (t.core c).slots = (s.core c).slots
  tiles : (t.core c).tiles = (s.core c).tiles
  others : ∀ d, d ≠ c → t.core d = s.core d
  frame : (s.makePush c o (s.core c).group last).fault ≠ some pfPoolUe →
    t.mem = s.mem ∧ t.cmd = s.cmd ∧ t.log = s.log ∧ t.fab = s.fab

/-- The state after the engine instruction `o` of core `c` has been pushed, its traffic charged and what the codes and the
array count counted, as its engine begins it (R97, R515). -/
def State.entered (s : State) (c : Nat) (o : Op) (last : Bool) (seen : Seen) : State :=
  let p := s.makePush c o (s.core c).group last
  let t := s.pushOne c o last
  let v := (t.chargeTraffic c (t.traffic c p)).countDx c p (t.traffic c p)
  let v := seen.basinCe.foldl (fun s r => if r < 96 then s.updReach r (fun x => { x with basinCe := sat32 (x.basinCe + 1) }) else s) v
  v.updCore c (fun k => { k with
    eccCorrected := sat32 (k.eccCorrected + seen.ce), array := if o.engine = .ax then k.array.tick seen else k.array })

/-- The engine instruction `o` at which core `c` stands is pushed and its engine begins it at once: nothing is
outstanding on the core, no breakpoint hits, the array is idle and does not freeze, the push has no fault, the command's
chunks are filled and its traffic is admitted (R102, R119, R515). -/
structure State.Enters (s : State) (c opc : Nat) (e : Engine) (o : Op) (last : Bool) (seen : Seen) : Prop where
  fetches : s.Fetches c opc o
  engine : o.engine = e
  alone : (s.core c).pushes = []
  noBreak : (s.core c).hitBp = none
  goesOn : (s.core c).stopAfter = 0 ∧ (s.core c).stepping = false ∧ (s.core c).pc + o.len ≠ (s.core c).truncate
  idle : (s.core c).array.state = .idle
  steady : freezeCauses seen.freeze = []
  residue : e = .vx → seen.check ≠ 2
  noFault : (s.makePush c o (s.core c).group last).fault = none
  chunks : ∀ u ∈ (s.makePush c o (s.core c).group last).chunks,
    (s.pushOne c o last).chunkFault c u = false ∧ (s.pushOne c o last).chunkReady c u = true
  filled : ∀ u ∈ (s.makePush c o (s.core c).group last).chunks, (s.entered c o last seen).chunkFault c u = false
  traffic : (s.pushOne c o last).trafficOk c
    ((s.pushOne c o last).traffic c (s.makePush c o (s.core c).group last)) = true

/-- The command `o` of core `c` that has begun in `s` has done its work in `u` and completes with `r`: its banks are let go, the
entries that fail their pair are recorded, and it leaves its queue. -/
def State.ends (s u : State) (c : Nat) (e : Engine) (o : Op) (last : Bool) (seen : Seen) (r : Result) : State :=
  let p := s.makePush c o (s.core c).group last
  ((u.unlatch c p.num).notePairs ((s.entered c o last seen).coreOwner c)
    (((s.entered c o last seen).traffic c p).map (fun e => (e.1, e.2.1)))).complete c e p r

/-- Engine `e` has run the instruction `o` of its unit `q`, with `n` reruns: the unit stands behind it, its beats and the four of
each rerun are counted, and nothing outside the engine changes (R248, R262, R276). -/
structure State.QuayRan (s : State) (e : Nat) (q : QUnit) (r : QRun) (o : QOp) (n : Nat) (t : State) : Prop where
  unit : (t.qe e).work = some { (q.run r o) with pc := q.pc + 1 }
  beats : (t.qe e).beats = sat64 ((s.qe e).beats + o.unitBeats q.n + 4 * n)
  retries : (t.qe e).checkRetry = sat32 ((s.qe e).checkRetry + n)
  others : ∀ d, d ≠ e → t.qe d = s.qe d
  runs : t.quay.runs = s.quay.runs
  mem : t.mem = s.mem
  cmd : t.cmd = s.cmd
  cpu : t.cpu = s.cpu

/-- Lane `i` of an element register: its value in its format, and its poison bit. -/
def QUnit.lane (q : QUnit) (w : Bool) (r i : Nat) : Num := laneVal w ((q.reg r).getD i ⟨0, false⟩).code
def QUnit.bad (q : QUnit) (r i : Nat) : Bool := ((q.reg r).getD i ⟨0, false⟩).poison

/-- The sum of LA128 values given as codes (R32). -/
def laSum (l : List Nat) : La := (l.map La.decode).foldl La.add (.fin 0)

/-- The sum of a list of numbers. -/
def total (l : List Nat) : Nat := l.foldl (· + ·) 0

/-- The fields of a canal packet fit their places in Table 10.3. -/
def CPacket.fits (k : CPacket) : Bool :=
  decide (k.vc < 4 ∧ k.ovc < 4 ∧ k.hops < 64 ∧ k.arb < 4 ∧ k.level < 16 ∧ k.lseq < 2 ^ 32 ∧ k.kind < 256 ∧ k.tclass < 8 ∧
    k.srcPkg < 2 ^ 20 ∧ k.dstPart < 256 ∧ k.dstPkg < 2 ^ 20 ∧ k.object < 2 ^ 64 ∧ k.tag < 2 ^ 32 ∧ k.payload.length ≤ 4096)

/-- The fields of a towpath message fit their places in Table 10.9. -/
def TMsg.fits (m : TMsg) : Bool :=
  decide (0 < m.ttype ∧ m.ttype < 256 ∧ m.pri < 2 ∧ m.hopsLeft < 16 ∧ m.level < 16 ∧ m.src < 2 ^ 20 ∧ m.dst < 2 ^ 20 ∧
    m.msgId < 2 ^ 16 ∧ m.words.length ≤ 16 ∧ ∀ w ∈ m.words, w < 2 ^ 32)

/-- The first delivered PIPE message of a subtype is `e`, port and message; its pair holds (R371). -/
structure State.Hears (s : State) (psub : Nat) (e : Nat × TMsg) : Prop where
  first : listFind (fun x => x.2.ttype == 0x20 && x.2.psub == psub) s.link.msgs = some e
  pair : pair32 e.2.value (e.2.w 3) = true

/-- The state with a delivered message taken. -/
def State.heard (s : State) (e : Nat × TMsg) : State :=
  { s with link := { s.link with msgs := delFirst (fun x => x == e) s.link.msgs } }

/-- Stage slot `n` is bound to an active stage of partition `part`. -/
structure State.Stands (s : State) (n part : Nat) : Prop where
  slot : n < 96
  bound : (s.stage n).bound = true
  part : (s.stage n).part = part
  active : (s.stage n).spare = false

/-- The stage's only step, started and not stopped, stands as `r` once the entries that it does not do are passed over. -/
structure State.Stepping (s : State) (n : Nat) (q r : StepRun) : Prop where
  steps : (s.stage n).steps = [q]
  started : q.started = true
  goesOn : q.timedOut = false ∧ q.aborted = false ∧ q.stuck = false
  at_ : q.advance ((s.stage n).table.getD []) = r

/-- No pipe controller work of the stage is held back by a restart or its partition (R507, R571). -/
structure State.Works (s : State) (n : Nat) : Prop where
  stands : s.Stands n (s.stage n).part
  held : s.held (s.stage n).part = false
  restart : (s.stage n).restart = none

/-- A command completes with DONE and rewrites partition `p`'s entry, and no other entry. -/
structure State.SetsPart (s : State) (f : Flight) (p : Nat) (g : Partition → Partition) (res : List Nat) (t : State) : Prop where
  done : s.Completes f stDone res t
  entry : t.part p = g (s.part p)
  others : ∀ q, q ≠ p → t.part q = s.part q

/-- The pools and basin halves of the slices of a mask hold zero. -/
def State.zeroed (s : State) (mask : Nat) : Prop :=
  ∀ k, (bit mask (k / 2 ^ 22) = true → s.mem.basin.get 0 k = 0) ∧ (bit mask (k / 2 ^ 19 / 8) = true → s.mem.pool.get 0 k = 0)

/-- A port that has sent or received something at an instant. -/
def Port.active (p : Port) (now : Nat) : Port := { p with lastActive := now }

/-- A board and dies on which start-up finds nothing wrong: every regulator answers, every module links, and nothing fails
its test. -/
structure SoundBoot (b : Boot) : Prop where
  rails : b.missing = []
  pairs : b.pairs = List.replicate 11 255
  units : b.units = []
  cores : b.cores = []
  engines : b.engines = []

/-- A slot's image passes the checks of Table 18.9. -/
def Nor.good (n : Nor) (b : Bool) : Prop := (n.slot b).failed n.fusedMin = 0

/-- Start-up has ended well in `t`: a slot that passes is booted, every die answers, the lasers may run and READY is set. -/
structure State.Up (t : State) : Prop where
  ready : t.pkg.ready = true
  slot : t.nor.good t.pkg.bootSlot
  dies : t.pkg.cdOk = 63
  lasers : t.link.lasersOff = false
  ports : ∀ p, p < 24 → bit t.pkg.cpOk p = true → (t.port p).state = .training
  doms : ∀ d, d < 56 → (t.domain d).state = .on ∧ t.domTarget d = kindTarget (domainKind d) ∧ (t.domain d).trim = 0
  zero : t.part 0 = { state := .idle } ∧ ∀ p, p ≠ 0 → t.part p = {}

end Sys2Proof.Machine
end

