-- ==== Sys2Proof/Certificates/Slice0/Obligations.lean ====
section
/-! DEFINITION. The statements for the provers. -/

open Sys2Proof Sys2Proof.Machine

/-- The sum of two LA128 values has the class of Table 2.6; when that class is FINITE, MAG is the sum of the two MAG fields
modulo 2^124, otherwise MAG is zero. The addition is commutative and associative, so that a sum is bit-identical for any
order of its terms and for any split of its terms into partial sums. -/
def Obligations.la128_sums : Prop :=
  (∀ x y : La,
    ((x = .nan ∨ y = .nan ∨ (x = .posInf ∧ y = .negInf) ∨ (x = .negInf ∧ y = .posInf)) → (x.add y).encode = 3 * 2 ^ 124) ∧
    (¬(x = .nan ∨ y = .nan ∨ x = .negInf ∨ y = .negInf) → (x = .posInf ∨ y = .posInf) → (x.add y).encode = 2 ^ 124) ∧
    (¬(x = .nan ∨ y = .nan ∨ x = .posInf ∨ y = .posInf) → (x = .negInf ∨ y = .negInf) → (x.add y).encode = 2 * 2 ^ 124)) ∧
  (∀ a b : Nat, a < 2 ^ 124 → b < 2 ^ 124 → ((La.decode a).add (La.decode b)).encode = (a + b) % 2 ^ 124) ∧
  (∀ x y : La, x.add y = y.add x) ∧
  (∀ x y z : La, (x.add y).add z = x.add (y.add z)) ∧
  (∀ l m : List Nat, l.Perm m → (laSum l).encode = (laSum m).encode) ∧
  (∀ l m : List Nat, (laSum (l ++ m)).encode = ((laSum l).add (laSum m)).encode)

/-- The scalar integer instructions of Table 5.3: a core that fetches one writes to A the 64-bit word that the table
gives, in two's-complement and modulo 2^64, and goes on behind the instruction; nothing else changes. Shift distances are
taken modulo 64, comparisons write 1 or 0, LIH replaces the bits 24k + 23 to 24k, and for k = 2 the bits 63 to 48.
Writing A (Table 5.1): register 0 reads as zero and a write to it is ignored; another register reads as the word
written; every register that is not the destination reads as before; and no field of the core but its registers
changes. -/
def Obligations.scalar_integer_words : Prop :=
  (∀ (s : State) (c : Nat) (o : Op),
    let B := s.x c o.b
    let C := s.x c o.c
    let n := ((C + o.sext).toNat) % 64
    (s.Fetches c 0x001 o → exec (.add c) s = .next (s.writesA c o (B + C + o.sext))) ∧
    (s.Fetches c 0x002 o → exec (.sub c) s = .next (s.writesA c o (B - C - o.sext))) ∧
    (s.Fetches c 0x003 o → exec (.mul c) s = .next (s.writesA c o (B * C))) ∧
    (s.Fetches c 0x004 o → exec (.andd c) s = .next (s.writesA c o (B &&& C))) ∧
    (s.Fetches c 0x005 o → exec (.orr c) s = .next (s.writesA c o (B ||| C))) ∧
    (s.Fetches c 0x006 o → exec (.xor c) s = .next (s.writesA c o (B ^^^ C))) ∧
    (s.Fetches c 0x007 o → exec (.shl c) s = .next (s.writesA c o (B <<< n))) ∧
    (s.Fetches c 0x008 o → exec (.shr c) s = .next (s.writesA c o (B >>> n))) ∧
    (s.Fetches c 0x009 o → exec (.sar c) s = .next (s.writesA c o (B.sshiftRight n))) ∧
    (s.Fetches c 0x00A o → exec (.li c) s = .next (s.writesA c o o.sext)) ∧
    (s.Fetches c 0x00B o → bits o.fl 1 0 ≤ 2 →
      ∃ v : BitVec 64, exec (.lih c) s = .next (s.writesA c o v) ∧
        ∀ j, j < 64 → v.getLsbD j =
          (if 24 * bits o.fl 1 0 ≤ j ∧ j < 24 * bits o.fl 1 0 + 24 then o.imm.testBit (j - 24 * bits o.fl 1 0)
           else B.getLsbD j)) ∧
    (s.Fetches c 0x00C o → exec (.slt c) s = .next (s.writesA c o (if B.slt C then 1 else 0))) ∧
    (s.Fetches c 0x00D o → exec (.sltu c) s = .next (s.writesA c o (if B.ult C then 1 else 0)))) ∧
  (∀ (k : Core) (i j : Nat) (v : BitVec 64),
    (k.setReg i v.toNat).reg 0 = 0 ∧
    (i ≠ 0 → (k.setReg i v.toNat).reg i = v.toNat) ∧
    (j ≠ i → (k.setReg i v.toNat).reg j = k.reg j) ∧
    (k.setReg 0 v.toNat) = k ∧
    ({ k.setReg i v.toNat with regs := k.regs } : Core) = k)

/-- A RUNNING core that fetches moves its program counter and nothing else of any core changes (no other part of the
machine either), unless the new value is TRUNCATE and an instruction stands there: then it acts as though it had executed END
there, and with commands outstanding it stays RUNNING with END executed, and without any it becomes IDLE. -/
def Obligations.goto_and_truncate : Prop :=
  ∀ (s : State) (c opc pc : Nat) (o : Op), s.Fetches c opc o → (s.core c).stepping = false → Tab.wf {} s.cpu.cores = true →
    let n := ((s.core c).image.map (·.code.length)).getD 0
    (pc ≠ (s.core c).truncate ∨ n ≤ pc → s.goto c pc = s.updCore c (fun k => { k with pc := pc })) ∧
    (pc = (s.core c).truncate → pc < n →
      let k := { s.core c with pc := pc, ended := true, truncated := true, prefixes := [] }
      ((s.core c).pushes ≠ [] → s.goto c pc = s.setCore c k) ∧
      ((s.core c).pushes = [] → (s.core c).holder = .none →
        s.goto c pc = (s.setCore c { k with state := .idle }).closeStreams c))

/-- The remaining scalar and control instructions of Table 5.3. FADD, FMUL and FFMA combine the low words of their
registers under the FP32 rules of R37. STAT reads a word of the core status page, and completes for every other offset
too, with a value that the spec does not give. LDS loads, and STS stores, the eight bytes of the pool at an aligned offset
B + IMM once no earlier push stands in the way, and touches nothing else. BR goes to PC + IMM when its condition holds and
on otherwise. FENCE goes on when no push is outstanding and WAITR when the region has no writer; until then they wait.
END ends the program, and CHUNK keeps its prefix for the next instruction.
SET_DESC, SET_BASE and SET_DIM (R105, R108, Table 5.3): a slot below 0x100 takes the descriptor from the 64 aligned
bytes of the pool, or its own with BASE or one dimension replaced, when the check of R108 finds no fault; the program goes
on behind the instruction and no other slot changes. -/
def Obligations.scalar_control : Prop :=
  (∀ (s : State) (c : Nat) (o : Op),
    let k := s.core c
    let B := s.x c o.b
    let C := s.x c o.c
    let low := fun (i : Nat) => k.reg i % 2 ^ 32
    let off := (k.reg o.b + o.sext.toNat) % 2 ^ 64
    (s.Fetches c 0x010 o → exec (.fadd c) s = .next (s.writesA c o (BitVec.ofNat 64 (addF fmtFP32 (low o.b) (low o.c))))) ∧
    (s.Fetches c 0x011 o → exec (.fmul c) s = .next (s.writesA c o (BitVec.ofNat 64 (mulF fmtFP32 (low o.b) (low o.c))))) ∧
    (s.Fetches c 0x012 o → exec (.ffma c) s =
      .next (s.writesA c o (BitVec.ofNat 64 (fmaF fmtFP32 (low o.b) (low o.c) (low o.a))))) ∧
    (s.Fetches c 0x030 o → o.imm < 0x100 → o.imm % 4 = 0 →
      exec (.stat c) s = .next (s.writesA c o (BitVec.ofNat 64 (k.statusWord s.clk o.imm)))) ∧
    (s.Fetches c 0x030 o → ∃ v, exec (.stat c) s = .next (s.writesA c o v)) ∧
    (∀ ce, s.Fetches c 0x020 o → k.noWriter o.fl = true → off % 8 = 0 → off + 8 ≤ 2 ^ 19 →
      s.pieceUe [] (.pool c off) 8 = [] →
      ∃ v : BitVec 64, (∀ i, i < 8 → v.extractLsb' (8 * i) 8 = s.mem.pool.get 0 (c * 2 ^ 19 + off + i)) ∧
        exec (.lds c ce []) s = .next ((s.updCore c (fun k => { k with eccCorrected := sat32 (k.eccCorrected + ce) })).writesA c o v)) ∧
    (s.Fetches c 0x021 o → k.noUser o.fl = true → off % 8 = 0 → off + 8 ≤ 2 ^ 19 →
      exec (.sts c) s = .next ((s.writePlace (.pool c off) (toBytes (k.reg o.c) 8) false).goto c (k.pc + o.len))) ∧
    (s.Fetches c 0x100 o →
      let taken := match bits o.fl 2 0 with
        | 0 => true | 1 => B == C | 2 => B != C | 3 => B.slt C | 4 => !B.slt C | 5 => B.ult C | _ => !B.ult C
      exec (.br c) s = .next (s.goto c (if taken then ((k.pc : Int) + o.sext.toInt).toNat else k.pc + o.len))) ∧
    (s.Fetches c 0x110 o → exec (.fence c) s = .next (if k.pushes = [] then s.goto c (k.pc + o.len) else s)) ∧
    (s.Fetches c 0x111 o → exec (.waitr c) s =
      .next (if ∀ p ∈ k.pushes, o.fl ∉ p.writes then s.goto c (k.pc + o.len) else s)) ∧
    (s.Fetches c 0x1FF o → k.pushes ≠ [] → k.stepping = false →
      exec (.endProgram c) s = .next (s.updCore c (fun k => { k with ended := true }))) ∧
    (s.Fetches c 0x1FF o → k.pushes = [] → k.stepping = false → k.holder = .none → Tab.wf {} s.cpu.cores = true →
      exec (.endProgram c) s = .next ((s.setCore c { k with ended := true, state := .idle }).closeStreams c)) ∧
    (s.Fetches c 0x4F0 o → exec (.chunk c) s = .next
      ((s.updCore c (fun k => { k with prefixes := k.prefixes ++ [⟨o.fl, k.reg o.a, bits o.imm 2 1, bit o.imm 0⟩] })).goto c
        (k.pc + o.len)))) ∧
  (∀ (s : State) (c : Nat) (o : Op) (ce : Nat),
    let k := s.core c
    let h := bits o.imm 11 0
    let d0 := k.slot h
    let v := k.reg o.b % 2 ^ 32
    let d := match bits o.imm 13 12 with
      | 0 => { d0 with dim0 := v } | 1 => { d0 with dim1 := v } | 2 => { d0 with dim2 := v } | _ => { d0 with dim3 := v }
    let puts := fun (s : State) (d : Desc) => (s.updCore c (fun k => { k with slots := k.slots.put {} h d })).goto c (k.pc + o.len)
    let words := bytesToWords (s.mem.pool.getAll 0 (c * 2 ^ 19 + k.reg o.b) 64)
    h < 0x100 →
    (s.Fetches c 0x600 o → k.noWriter o.fl = true → k.reg o.b % 64 = 0 → k.reg o.b + 64 ≤ 2 ^ 19 →
      s.pieceUe [] (.pool c (k.reg o.b)) 64 = [] → (Desc.ofWords words).check (descReserved words) = none →
      exec (.setDesc c ce []) s =
        .next (puts (s.updCore c (fun k => { k with eccCorrected := sat32 (k.eccCorrected + ce) })) (Desc.ofWords words))) ∧
    (s.Fetches c 0x601 o → k.reg o.b < 2 ^ 48 → ({ d0 with base := k.reg o.b } : Desc).check false = none →
      exec (.setBase c) s = .next (puts s { d0 with base := k.reg o.b })) ∧
    (s.Fetches c 0x602 o → k.reg o.b < 2 ^ 32 → d.check false = none → exec (.setDim c) s = .next (puts s d)))

/-- The store of STS (R144): of all bytes of every pool, those stored to read as the bytes given, least significant
first, every other byte of every pool reads as before, and no other memory changes: neither the tiers nor the basins, nor
any marks, nor a page table.
An LDS, STS or SET_DESC whose offset is not naturally aligned or not wholly within the pool (R144): the core keeps
its registers and memory, records a program fault with cause 0x19, and with no begun command outstanding and no holder is
FAULTED at once. -/
def Obligations.pool_access : Prop :=
  (∀ (s : State) (c off v : Nat),
    let t := s.writePlace (.pool c off) (toBytes v 8) false
    (∀ i, i < 8 → t.mem.pool.get 0 (c * 2 ^ 19 + off + i) = BitVec.ofNat 8 (v / 2 ^ (8 * i))) ∧
    (∀ a, a < c * 2 ^ 19 + off ∨ c * 2 ^ 19 + off + 8 ≤ a → t.mem.pool.get 0 a = s.mem.pool.get 0 a) ∧
    t.mem.bytes = s.mem.bytes ∧ t.mem.basin = s.mem.basin ∧ t.mem.marks = s.mem.marks ∧ t.mem.pt = s.mem.pt ∧
    t.mem.frames = s.mem.frames) ∧
  (∀ (s : State) (c : Nat) (o : Op) (ce : Nat) (ue : List Nat),
    let k := s.core c
    let off := (k.reg o.b + o.sext.toNat) % 2 ^ 64
    let faults := fun (out : Out) => ∃ t, out = .next t ∧ t.mem = s.mem ∧ (t.core c).regs = k.regs ∧
      (t.core c).state = .faulted ∧ (t.core c).pc = k.pc ∧ ((t.core c).faulting.map (·.cause)) = some 0x19
    k.pushes = [] → k.holder = .none →
    (s.Fetches c 0x020 o → ¬(off % 8 = 0 ∧ off + 8 ≤ 2 ^ 19) → faults (exec (.lds c ce ue) s)) ∧
    (s.Fetches c 0x021 o → ¬(off % 8 = 0 ∧ off + 8 ≤ 2 ^ 19) → faults (exec (.sts c) s)) ∧
    (s.Fetches c 0x600 o → ¬(k.reg o.b % 64 = 0 ∧ k.reg o.b + 64 ≤ 2 ^ 19) → faults (exec (.setDesc c ce ue) s)))

/-- An engine instruction at which a core stands, with room in the queue of its engine and no breakpoint in the way (R96,
R97, R98): the queue grows by one entry, a copy of the registers and descriptors that the instruction names, with the
number of the push; the count of pushes rises by one; the program goes on behind the instruction, for a split gather or
scatter only after its last group (R151); no other core changes, and nothing else of the machine.
An engine instruction that is pushed and begun at once, and whose operands meet no fault and nothing it must wait for:
it takes the effect of its opcode, leaves its queue, sets its flags, marks its region when it is poisoned (R103), and its
banks are let go. One that must wait stays in its queue instead: SEND, JSEND and RECV for a queue, MMA, DRAIN, VCVT, LC_REBUILD
and COPY for a chamber, STREAM_CLOSE for its chunks. -/
def Obligations.engine_pushes : Prop :=
  (∀ (s : State) (c : Nat) (o : Op),
    (s.HasRoom c 0x200 .ax o → ∃ t, exec (.mma c none) s = .next t ∧ s.Pushes c .ax o true t) ∧
    (s.HasRoom c 0x201 .ax o → ∃ t, exec (.drain c none) s = .next t ∧ s.Pushes c .ax o true t) ∧
    (s.HasRoom c 0x202 .ax o → ∃ t, exec (.accLoad c none) s = .next t ∧ s.Pushes c .ax o true t) ∧
    (s.HasRoom c 0x203 .ax o → ∃ t, exec (.accClear c none) s = .next t ∧ s.Pushes c .ax o true t) ∧
    (s.HasRoom c 0x300 .vx o → ∃ t, exec (.vew c none) s = .next t ∧ s.Pushes c .vx o true t) ∧
    (s.HasRoom c 0x301 .vx o → ∃ t, exec (.vred c none) s = .next t ∧ s.Pushes c .vx o true t) ∧
    (s.HasRoom c 0x302 .vx o → ∃ t, exec (.vcvt c none) s = .next t ∧ s.Pushes c .vx o true t) ∧
    (s.HasRoom c 0x310 .vx o → ∃ t, exec (.regionClear c none) s = .next t ∧ s.Pushes c .vx o true t) ∧
    (s.HasRoom c 0x320 .vx o → ∃ t, exec (.lcRebuild c none) s = .next t ∧ s.Pushes c .vx o true t) ∧
    (s.HasRoom c 0x321 .vx o → ∃ t, exec (.lcFlip c none) s = .next t ∧ s.Pushes c .vx o true t) ∧
    (s.HasRoom c 0x400 .dx o → ∃ t, exec (.dxCopy c none) s = .next t ∧ s.Pushes c .dx o true t) ∧
    (s.HasRoom c 0x401 .dx o → ∃ t, exec (.dxGather c none) s = .next t ∧ s.Pushes c .dx o (lastGroup 0 o (s.core c)) t) ∧
    (s.HasRoom c 0x402 .dx o → ∃ t, exec (.dxScatter c none) s = .next t ∧ s.Pushes c .dx o (lastGroup 1 o (s.core c)) t) ∧
    (s.HasRoom c 0x403 .dx o → ∃ t, exec (.streamOpen c none) s = .next t ∧ s.Pushes c .dx o true t) ∧
    (s.HasRoom c 0x404 .dx o → ∃ t, exec (.streamClose c none) s = .next t ∧ s.Pushes c .dx o true t) ∧
    (s.HasRoom c 0x500 .qx o → ∃ t, exec (.send c none) s = .next t ∧ s.Pushes c .qx o true t) ∧
    (s.HasRoom c 0x501 .qx o → ∃ t, exec (.jsend c none) s = .next t ∧ s.Pushes c .qx o true t) ∧
    (s.HasRoom c 0x502 .qx o → ∃ t, exec (.recv c none) s = .next t ∧ s.Pushes c .qx o true t)) ∧
  (∀ (s u : State) (c : Nat) (o : Op) (seen : Seen) (r : Result) (w : Wait),
    let p := s.makePush c o (s.core c).group true
    let a := Op.ofWords (p.head :: p.ext)
    let waits := fun (e : Engine) => (u.updCore c (fun k => k.updPush e p.num (fun q => { q with wait := w }))).settle c
    (s.Enters c 0x200 .ax o true seen →
      ((s.entered c o true seen).axMma c p a seen = (u, .done r) → exec (.mma c (some seen)) s = .next (s.ends u c .ax o true seen r)) ∧
      ((s.entered c o true seen).axMma c p a seen = (u, .hold w) → exec (.mma c (some seen)) s = .next (waits .ax))) ∧
    (s.Enters c 0x201 .ax o true seen →
      ((s.entered c o true seen).axDrain c p a seen = (u, .done r) → exec (.drain c (some seen)) s = .next (s.ends u c .ax o true seen r)) ∧
      ((s.entered c o true seen).axDrain c p a seen = (u, .hold w) → exec (.drain c (some seen)) s = .next (waits .ax))) ∧
    (s.Enters c 0x202 .ax o true seen → (s.entered c o true seen).axAccLoad c p a seen = (u, .done r) →
      exec (.accLoad c (some seen)) s = .next (s.ends u c .ax o true seen r)) ∧
    (s.Enters c 0x203 .ax o true seen → (s.entered c o true seen).axAccClear c a = (u, .done r) →
      exec (.accClear c (some seen)) s = .next (s.ends u c .ax o true seen r)) ∧
    (s.Enters c 0x300 .vx o true seen → (s.entered c o true seen).vxVew c p a seen = (u, .done r) →
      exec (.vew c (some seen)) s = .next (s.ends u c .vx o true seen r)) ∧
    (s.Enters c 0x301 .vx o true seen → (s.entered c o true seen).vxVred c p a seen = (u, .done r) →
      exec (.vred c (some seen)) s = .next (s.ends u c .vx o true seen r)) ∧
    (s.Enters c 0x302 .vx o true seen →
      ((s.entered c o true seen).vxVcvt c p a seen = (u, .done r) → exec (.vcvt c (some seen)) s = .next (s.ends u c .vx o true seen r)) ∧
      ((s.entered c o true seen).vxVcvt c p a seen = (u, .hold w) → exec (.vcvt c (some seen)) s = .next (waits .vx))) ∧
    (s.Enters c 0x310 .vx o true seen → (s.entered c o true seen).vxRegionClear c a = (u, .done r) →
      exec (.regionClear c (some seen)) s = .next (s.ends u c .vx o true seen r)) ∧
    (s.Enters c 0x320 .vx o true seen →
      ((s.entered c o true seen).vxLcRebuild c p a seen = (u, .done r) → exec (.lcRebuild c (some seen)) s = .next (s.ends u c .vx o true seen r)) ∧
      ((s.entered c o true seen).vxLcRebuild c p a seen = (u, .hold w) → exec (.lcRebuild c (some seen)) s = .next (waits .vx))) ∧
    (s.Enters c 0x321 .vx o true seen → (s.entered c o true seen).vxLcFlip c p = (u, .done r) →
      exec (.lcFlip c (some seen)) s = .next (s.ends u c .vx o true seen r)) ∧
    (s.Enters c 0x400 .dx o true seen →
      ((s.entered c o true seen).dxCopy c p seen = (u, .done r) → exec (.dxCopy c (some seen)) s = .next (s.ends u c .dx o true seen r)) ∧
      ((s.entered c o true seen).dxCopy c p seen = (u, .hold w) → exec (.dxCopy c (some seen)) s = .next (waits .dx))) ∧
    (∀ last, last = lastGroup 0 o (s.core c) → s.Enters c 0x401 .dx o last seen →
      let p := s.makePush c o (s.core c).group last
      ((s.entered c o last seen).dxIndexed c p true seen = (u, .done r) →
        exec (.dxGather c (some seen)) s = .next (s.ends u c .dx o last seen r))) ∧
    (∀ last, last = lastGroup 1 o (s.core c) → s.Enters c 0x402 .dx o last seen →
      let p := s.makePush c o (s.core c).group last
      ((s.entered c o last seen).dxIndexed c p false seen = (u, .done r) →
        exec (.dxScatter c (some seen)) s = .next (s.ends u c .dx o last seen r))) ∧
    (s.Enters c 0x403 .dx o true seen → (s.entered c o true seen).dxStreamOpen c p a = (u, .done r) →
      exec (.streamOpen c (some seen)) s = .next (s.ends u c .dx o true seen r)) ∧
    (s.Enters c 0x404 .dx o true seen →
      ((s.entered c o true seen).dxStreamClose c a = (u, .done r) → exec (.streamClose c (some seen)) s = .next (s.ends u c .dx o true seen r)) ∧
      ((s.entered c o true seen).dxStreamClose c a = (u, .hold w) → exec (.streamClose c (some seen)) s = .next (waits .dx))) ∧
    (s.Enters c 0x500 .qx o true seen →
      ((s.entered c o true seen).qxSend c p a seen = (u, .done r) → exec (.send c (some seen)) s = .next (s.ends u c .qx o true seen r)) ∧
      ((s.entered c o true seen).qxSend c p a seen = (u, .hold w) → exec (.send c (some seen)) s = .next (waits .qx))) ∧
    (s.Enters c 0x501 .qx o true seen →
      ((s.entered c o true seen).qxJsend c p a seen = (u, .done r) → exec (.jsend c (some seen)) s = .next (s.ends u c .qx o true seen r)) ∧
      ((s.entered c o true seen).qxJsend c p a seen = (u, .hold w) → exec (.jsend c (some seen)) s = .next (waits .qx))) ∧
    (s.Enters c 0x502 .qx o true seen →
      ((s.entered c o true seen).qxRecv c p a = (u, .done r) → exec (.recv c (some seen)) s = .next (s.ends u c .qx o true seen r)) ∧
      ((s.entered c o true seen).qxRecv c p a = (u, .hold w) → exec (.recv c (some seen)) s = .next (waits .qx))))

/-- The events of cores and arrays. An engine begins its next command when R102, R99 and R119 let it, and not before. A
frozen array goes on with the stalled command, and the time frozen is counted by cause (R77); a freeze of 1 ms writes one
record (R78); more than 16 sentinel stretches write a record and raise the trim by 5 mV up to 40 mV (R87, R608). A
rebuild that waits goes on (R53), and a consumer stalled on a bank goes on after the flip it waits for (R55). A stream
with a free slot fills its next chunk (R119). A reload of an instruction-memory block changes nothing that a program
sees (R94).
CORE_MOVE (R133 to R135, R570): when a mapped core has a fault that moves it, it is MOVING while commands that it has begun
end by themselves, and then its work goes to the free spare of its reach: the logical core names the spare's physical index
and the old physical core is retired; with no free spare the logical core is no longer mapped, and the old one is retired
too. -/
def Obligations.core_events : Prop :=
  (∀ (s : State) (c : Nat) (seen : Seen), c < 1536 →
    let k := s.core c
    (∀ e p, k.nextToBegin e = some p → k.state = .running → k.halting = false → k.faulting = none → k.scoreOk p = true →
      (e = .ax → k.array.state = .idle) → (e = .ax → freezeCauses seen.freeze = []) →
      (∀ u ∈ p.chunks, s.chunkFault c u = true ∨ s.chunkReady c u = true) → s.trafficOk c (s.traffic c p) = true →
      exec (.commandBegin c e seen) s =
        .next (((s.chargeTraffic c (s.traffic c p)).countDx c p (s.traffic c p)).carryOut c e p seen)) ∧
    (∀ e p, k.nextToBegin e = some p → k.scoreOk p = false → exec (.commandBegin c e seen) s = .next s) ∧
    (∀ p w, k.frozenPush = some (p, w) →
      let t := s.clk - k.array.frozenAt
      exec (.arrayResume c) s = .next ((s.updCore c (fun k => { k with array := { k.array with
        state := .idle, causes := [], longDone := false,
        freezeFeedNs := if 1 ∈ k.array.causes then sat64 (k.array.freezeFeedNs + t) else k.array.freezeFeedNs,
        freezeDrainNs := if 2 ∈ k.array.causes then sat64 (k.array.freezeDrainNs + t) else k.array.freezeDrainNs } })).carryOut
        c .ax p w)) ∧
    (∀ p w, k.frozenPush = some (p, w) → k.array.state = .frozen → k.array.longDone = false →
      k.array.frozenAt + 1000000 ≤ s.clk →
      exec (.arrayFreezeLong c) s = .next ((s.updCore c (fun k => { k with array := { k.array with
        longDone := true, longFreezes := sat32 (k.array.longFreezes + 1) } })).record
        0x0104 1 (s.coreOwner c) srcCore (s.physCore c) (k.array.causes.headD 0) p.num 0 c)) ∧
    (16 < k.array.stretches.length →
      ∃ t, exec (.arraySentinel c) s = .next t ∧ (t.domain (coreDomain c)).trim = min 40 ((s.domain (coreDomain c)).trim + 5) ∧
        (t.core c).array.stretches = [] ∧ t.mem = s.mem ∧ ∀ d, d ≠ coreDomain c → t.domain d = s.domain d) ∧
    (∀ e p, k.rebuilder = some (e, p) → exec (.lcRebuildWrite c seen) s = .next (s.carryOut c e p seen)) ∧
    (∀ p va gen, listFind (fun p => match p.wait with
        | .chamber va gen => (s.chamber (s.coreOwner c) va).gen != gen
        | _ => false) k.ax = some p → p.wait = .chamber va gen →
      exec (.lcConsumerResume c seen) s = .next (s.carryOut c .ax p seen)) ∧
    (∀ n ue u, n < 24 →
      let st := s.stream c n
      let va := st.src.base + st.filled * (64 * st.chunk64)
      let len := min (64 * st.chunk64) (st.src.span.2 + 1 - va)
      st.fillable = true →
      (s.streamBooks c n = (u, none) → exec (.streamFill c n ue) s = .next u) ∧
      ∀ k, s.streamBooks c n = (u, some k) →
        let l := [(va, len, false), (st.chunkVa st.filled, len, true)] ++ (u.chunkBooks st k).flatMap (fun e =>
          [(e.1, bookBytes st.ring.comp, false), (e.2, bookBytes st.ring.comp, true)])
        u.trafficOk c l = true →
        exec (.streamFill c n ue) s = .next (((u.chargeTraffic c l).countClass c st.ring.cls len).fillChunk c n k ue)) ∧
    exec (.imBlockReload c) s = .next s) ∧
  (∀ (s : State) (c cause : Nat), c < 1536 → s.mapped c = true →
    (s.core c).moveCause c (!(s.lostWordGranules (poolWord c 0) (poolWord (c + 1) 0)).isEmpty) = some cause →
    (∀ i, s.freeSpare (c / 16) = some i →
      (s.moveTo c i cause).physIndex c = i ∧ (s.moveTo c i cause).cpu.retired.get false (s.physCore c) = true ∧
      ((s.core c).unsettled = false → exec (.coreMove c false true) s = .next (s.moveCore c i cause true)) ∧
      ((s.core c).unsettled = true → ∃ t, exec (.coreMove c false true) s = .next t ∧ (t.core c).state = .moving ∧
        (t.core c).pushes = (s.core c).pushes ∧ t.cpu.remap = s.cpu.remap ∧ t.cpu.retired = s.cpu.retired)) ∧
    (s.freeSpare (c / 16) = none → cause ≠ 0 →
      ∃ t, exec (.coreMove c false true) s = .next t ∧ t.mapped c = false ∧
        t.cpu.retired.get false (s.physCore c) = true))

/-- Messages (R195, R200, R201). A message on its way to a queue with room of a core that is IDLE, RUNNING or HALTED is
taken: it is on its way no more and stands last in the queue, with its queue number in its QUEUE field. A full queue
refuses it: the queue keeps what it held, and the refusal is counted. A space notice, or 1 us, makes the holding QX try
again. In handler-dispatch mode, when no push is outstanding, the oldest message of the lowest-numbered queue starts its
handler at the table's entry, or is discarded when there is none.
Junctions (R204, R206). A write of ARM with a valid descriptor opens a junction that is idle or closed: nothing has
arrived. A contribution of the right format and size to an OPEN junction of an unordered mode is added; the sender's command
completes and the number of arrivals rises by one, and with the last one the junction sends its release message and
closes. -/
def Obligations.message_events : Prop :=
  (∀ (s : State) (c q : Nat) (f : Flying), c < 1544 → q < 16 →
    let next := fun (f : Flying) => f.src == none && f.dst == c && f.queue == q && !f.refused && !s.behind (c / 16) f
    (∀ st, (s.core c).state = st → (st = .idle ∨ st = .running ∨ st = .halted) → (s.inQueue c q).length < 32 →
      (s.core c).qx = [] → f.src = none → listFind next s.fab.flying = some f →
      ∃ t, exec (.messageArrive none c q) s = .next t ∧
        t.inQueue c q = s.inQueue c q ++ [setBits (f.words.headD 0) 11 8 q :: f.words.drop 1] ∧
        t.fab.flying = delFirst next s.fab.flying ∧
        t.mem = s.mem ∧ t.cpu = s.cpu) ∧
    (32 ≤ (s.inQueue c q).length → listFind next s.fab.flying = some f →
      ∃ t, exec (.messageArrive none c q) s = .next t ∧ t.inQueue c q = s.inQueue c q ∧
        (t.reach (c / 16)).msgRefused = sat32 ((s.reach (c / 16)).msgRefused + 1) ∧ t.mem = s.mem ∧ t.cpu = s.cpu) ∧
    (c < 1536 → c ∈ s.fab.notices → exec (.spaceNotice c) s =
      .next (({ s with fab := { s.fab with notices := s.fab.notices.erase c } } : State).resend c)) ∧
    (∀ p since last, c < 1536 → (s.core c).holding = some p → p.wait = .message since last false → last + 1000 ≤ s.clk →
      exec (.qxRetryTimer c) s = .next (s.resend c)) ∧
    (∀ m l, (s.core c).handlerMode = true → (s.core c).pushes = [] →
      listFind (fun q => !(s.inQueue c q).isEmpty) (List.range 16) = some q → s.inQueue c q = m :: l →
      (∀ a, ∃ t, exec (.handlerDispatch c (some a)) s = .next t ∧ t.inQueue c q = l ∧ (t.core c).handlerBusy = true ∧
        (t.core c).handlerMsg = m ∧ (t.core c).pc = a ∧ t.mem = s.mem) ∧
      (∃ t, exec (.handlerDispatch c none) s = .next t ∧ t.inQueue c q = l ∧ (t.core c).handlerBusy = false ∧
        (t.core c).pc = (s.core c).pc ∧ t.mem = s.mem))) ∧
  (∀ (s : State) (src r q : Nat) (f : Flying), src < 1536 → r < 96 → q < 32 →
    let j := s.junction r q
    let d := s.jqDesc r q
    (j.arm = true → (j.state = 0 ∨ j.state = 3) →
      (s.updJunction r q (fun j => { j with arm := false })).jqValid r q d = true →
      ∃ t, exec (.junctionArm r q) s = .next t ∧ (t.junction r q).state = 1 ∧ (t.junction r q).arrived = 0 ∧
        (t.junction r q).arm = false ∧ (t.junction r q).staged = [] ∧ t.mem = s.mem ∧ t.cpu = s.cpu ∧
        ∀ r' q', (r', q') ≠ (r, q) → q' < 32 → t.junction r' q' = s.junction r' q') ∧
    (listFind (fun f => f.src == some src && f.dst == r && f.queue == q && !f.refused && !s.behind r f) s.fab.contribs = some f →
      let u := s.carry (f.node.getD 0) (reachNode r) 2 (16 + f.words.length * elemBits f.fmt / 8)
      let j := u.junction r q
      let d := u.jqDesc r q
      let part := u.sliceOwner (2 * r + q / 16)
      j.state = 1 → f.fmt = d.fmt → f.words.length = d.elements → d.ordered = false →
      (d.mode ≠ 0 ∨ (f.words.any laReserved = false ∧
        (j.arrived = 0 ∨ ∀ i, i < d.elements → laReserved (u.readNat part (d.acc + i * d.width) d.width) = false))) →
      exec (.junctionContribution src r q) s =
        .next ((u.jqAdd part d (j.arrived == 0) f.words).jqAccepted src r q d f.poison)))

/-- LOAD_IMAGE (R157 to R159): with an image that can be read, whose header and sections pass, and with idle targets, it
fills the translation cache, loads every target and completes DONE. RUN (R160, R161) starts the cores that it names, all
of them with an image and none of them held, at ENTRY, and stands in the list of runs until they have ended; RUN with
RESUME continues HALTED cores. RUN_TIMEOUT (R164) halts the cores of a run whose deadline has come.
What starting a core makes of it (R98, R103, R140, R160): RUNNING at ENTRY; s1 is ARG, s2 the core's number, s3 its
rank and s4 the number of cores, and every other scalar register is zero; nothing is queued, no region is poisoned, no
fault is recorded and the count of pushes is zero; its descriptors, tiles and array counters stay. -/
def Obligations.load_and_run : Prop :=
  (∀ (s : State) (path : Path) (pk : Packet) (f : Flight),
    let part := s.pathPart path
    let cores := s.coresOf (pk.mask192 0x20) (pk.f 0x38 7 0)
    let b := s.begun f
    (∀ host ue b' im, pk.opcode = 0x301 →
      s.Begins path pk f (if pk.b 0x1C 0 then [3] else s.extentRes part (s.pathDie path) (pk.d 0x10) (min (pk.w 0x18) (2 ^ 20)))
        (coreDoms path pk s) →
      s.ownsSlices part (pk.mask192 0x20) = true → (b.chargeImage f).imageBytes f host ue = some b' →
      checkHeader b' (pk.w 0x18) = none → pk.b 0x1C 1 = true → translateImage b' = .ok im →
      exec (.loadImage path pk host ue []) s = .next ((((b.chargeImage f).cachePut part im).loadCores f im false []))) ∧
    (pk.opcode = 0x302 → pk.b 0x1C 0 = false → s.Begins path pk f [] (coreDoms path pk s) →
      s.ownsSlices part (pk.mask192 0x20) = true → b.runCause cores false = none →
      let r : RunCmd := ⟨f.id, part, cores, if pk.w 0x18 = 0 then none else some (s.clk + 1000 * pk.w 0x18), false⟩
      let u := ((List.range cores.length).zip cores).foldl (fun s e =>
        s.startCore e.2 e.1 cores.length (pk.w 0x3C) (pk.w 0x10) (pk.w 0x14) (.run f.id)) b
      exec (.run path pk) s = .next (({ u with cpu := { u.cpu with runs := u.cpu.runs ++ [r] } } : State).finishRun r)) ∧
    (pk.opcode = 0x302 → pk.b 0x1C 0 = true → pk.w 0x3C = 0 → s.Begins path pk f [] (coreDoms path pk s) →
      s.ownsSlices part (pk.mask192 0x20) = true → b.runCause cores true = none →
      let r : RunCmd := ⟨f.id, part, cores, if pk.w 0x18 = 0 then none else some (s.clk + 1000 * pk.w 0x18), false⟩
      let u := ((List.range cores.length).zip cores).foldl (fun s e =>
        s.resumeCore e.2 (pk.w 0x10) (pk.w 0x14) (.run f.id)) b
      exec (.runResume path pk) s =
        .next (({ u with cpu := { u.cpu with runs := u.cpu.runs ++ [r] } } : State).finishRun r)) ∧
    (∀ cmd r t, listFind (fun r => r.cmd == cmd) s.cpu.runs = some r → r.deadline = some t → t ≤ s.clk →
      r.timedOut = false → s.held r.part = false →
      exec (.runTimeout cmd) s = .next (({ s with cpu := { s.cpu with
        runs := updFirst (fun q => q.cmd == cmd) (fun q => { q with timedOut := true }) s.cpu.runs } } : State).haltCores
          r.part r.cores))) ∧
  (∀ (k : Core) (c rank n arg stopAfter truncate : Nat) (h : Holder),
    let t := k.start c rank n arg stopAfter truncate h
    t.state = .running ∧ t.pc = (k.image.map (·.entry)).getD 0 ∧ t.holder = h ∧
    (c < 2 ^ 64 → rank < 2 ^ 64 → n < 2 ^ 64 → arg < 2 ^ 64 →
      t.reg 1 = arg ∧ t.reg 2 = c ∧ t.reg 3 = rank ∧ t.reg 4 = n) ∧
    (∀ i, 4 < i ∨ i = 0 → t.reg i = 0) ∧
    t.pushes = [] ∧ t.poison = 0 ∧ t.flags = 0 ∧ t.faults = [] ∧ t.faultCount = 0 ∧ t.pushCount = 0 ∧
    t.stopAfter = stopAfter ∧ t.truncate = truncate ∧ t.faulting = none ∧
    t.slots = k.slots ∧ t.tiles = k.tiles ∧ t.array = k.array ∧ t.image = k.image)

/-- A host COPY, GATHER or SCATTER with values in range and device ends that pass the checks of R126, in no tier that is in TEST
(R241): with nothing to read from the host it moves its data and completes at once; otherwise it waits with no data yet. A completion that serves an
outstanding read joins what has arrived, and with the last one the data moves and the command completes. -/
def Obligations.host_dma : Prop :=
  ∀ (s : State) (path : Path) (pk : Packet) (f : Flight) (ue : List Nat),
    let b := s.begun f
    let j : HostJob := ⟨f.id, []⟩
    let waits : State := { b with cpu := { b.cpu with hostJobs := b.cpu.hostJobs ++ [j] } }
    (s.Begins path pk f (hdRes path pk s) [] → hdRange pk = false → b.hdAsleep (s.pathPart path) pk = false →
      b.hdRefusal (s.pathPart path) pk = none →
      (hostNeeds pk j = [] →
        (pk.opcode = 0x201 → exec (.copy path pk ue) s = .next (b.hdFinish f j ue)) ∧
        (pk.opcode = 0x202 → exec (.gather path pk ue) s = .next (b.hdFinish f j ue)) ∧
        (pk.opcode = 0x203 → exec (.scatter path pk ue) s = .next (b.hdFinish f j ue))) ∧
      (hostNeeds pk j ≠ [] → (∀ e ∈ hostNeeds pk j, e.2 ≠ 0) →
        (pk.opcode = 0x201 → exec (.copy path pk ue) s = .next waits) ∧
        (pk.opcode = 0x202 → exec (.gather path pk ue) s = .next waits) ∧
        (pk.opcode = 0x203 → exec (.scatter path pk ue) s = .next waits))) ∧
    (∀ cmd elem off len data q,
      let p : HostPart := ⟨elem, off, len, data, 0⟩
      let q' : HostJob := { q with parts := q.parts ++ [p] }
      let t := { s with cpu := { s.cpu with hostJobs := updFirst (fun q => q.cmd == cmd) (fun _ => q') s.cpu.hostJobs } }
      listFind (fun j => j.cmd == cmd) s.cpu.hostJobs = some q → s.flight cmd = some f → q.fits f.pk p = true →
      exec (.hostReadCompletion cmd elem off len data 0 ue) s = .next (if q'.full f.pk then t.hdFinish f q' ue else t))

/-- The memory commands that nothing refuses (R220 to R223, R228, R239, R244) complete DONE with their effect: MEM_MAP maps
every page of its range on the frames taken, or shares the pages of partition 0; MEM_UNMAP unmaps every page; MEM_APERTURE
binds or unbinds the submitting partition's aperture and nothing else; MEM_CONFIG sets the reserves and the way mask that it
names and returns the settings in force. A command that Table 7.6 refuses changes nothing of the memory. -/
def Obligations.memory_commands : Prop :=
  ∀ (s : State) (path : Path) (pk : Packet) (f : Flight), s.Begins path pk f [] [] →
    let b := s.begun f
    let part := s.pathPart path
    let va := pk.d 0x10
    let n := pk.w 0x18
    (∀ frames, pk.opcode = 0x210 → s.mapRefusal path pk = none → s.framesFit pk frames = true →
      exec (.memMap path pk frames) s = .next ((b.mapPages (s.mapPart path pk) pk frames).done f)) ∧
    (∀ frames r, pk.opcode = 0x210 → s.mapRefusal path pk = some r →
      ∃ t, exec (.memMap path pk frames) s = .next t ∧ t.mem = s.mem ∧ t.ten = s.ten) ∧
    (pk.opcode = 0x211 → n ≤ 2 ^ 20 → badRange va n = false → (∀ a ∈ pagesOf va n, s.mem.leafOf part a ≠ none) →
      (part = 0 → s.sharedOut ((pagesOf va n).filterMap (fun a => (s.mem.leafOf 0 a).map pteFrame)) = false) →
      exec (.memUnmap path pk) s = .next ((b.unmapPages part (pagesOf va n)).done f)) ∧
    (pk.opcode = 0x212 → part ≠ 0 → (pk.b 0x18 0 = true → va % 2 ^ 31 = 0 ∧ va + 2 ^ 31 ≤ 0xFF0000000000) →
      exec (.memAperture path pk) s = .next (({ b with mem := { s.mem with
        apertures := s.mem.apertures.put none (part - 1) (if pk.b 0x18 0 then some va else none) } } : State).done f)) ∧
    (pk.opcode = 0x031 → (pk.b 0x14 8 = true → pk.f 0x14 31 16 ≠ 0 ∧ pk.f 0x14 7 0 ≤ 64) →
      (pk.b 0x10 1 = true → pk.b 0x10 0 = true → s.mem.upperInUse 0 = false) →
      (pk.b 0x10 3 = true → pk.b 0x10 2 = true → s.mem.upperInUse 1 = false) →
      let p := pk.f 0x14 7 0
      let m := { s.mem with
        stackReserve := if pk.b 0x10 1 then pk.b 0x10 0 else s.mem.stackReserve,
        tier2Reserve := if pk.b 0x10 3 then pk.b 0x10 2 else s.mem.tier2Reserve,
        wayMask := if pk.b 0x14 8 then s.mem.wayMask.put 0xFFFF p (pk.f 0x14 31 16) else s.mem.wayMask }
      exec (.memConfig path pk) s = .next (({ b with mem := m } : State).done f [b2n m.tier2Reserve * 4 + b2n m.stackReserve,
        (if p ≤ 64 then m.wayMask.get 0xFFFF p else Config.noPartMask p % 2 ^ 16) * 2 ^ 16 + p]) ∧
      (p ≤ 64 → pk.b 0x14 8 = true → m.wayMask.get 0xFFFF p = pk.f 0x14 31 16 ∧
        ∀ q, q ≠ p → m.wayMask.get 0xFFFF q = s.mem.wayMask.get 0xFFFF q))

/-- A page that MEM_MAP has put on a frame is found by the walk of R217 with FRESH set and the WRITE bit it was given, the
frame belongs to the partition and is counted against its budget (R222); the walk of any other page below the on-chip
window is what it was. A read within a FRESH page gives zero bytes, whatever the frame holds (R224).
A read of a line of a tier that is not in TEST, whose granule is not held: a marked line is delivered with the poison flag; a
correct or correctable one, or one that the memory-side cache holds, with its bytes, a correctable one counted once and written
back; an uncorrectable one without a twin is marked, counted, recorded and answered SOURCE_UE, and one with a twin waits for
the restore, as every request to a held granule does (R227, R230, R233). Up to three wrong symbols are correctable, four or
five are not (R232). A write stores its bytes and no others (R234); it is acknowledged. A scrub that finds nothing wrong changes
only counters (R235). -/
def Obligations.memory_lines : Prop :=
  ((∀ (s : State) (part va f : Nat) (write : Bool), part ≤ 64 → va % 2 ^ 21 = 0 → va < 2 ^ 48 → f < 2 ^ 25 →
    let t := s.mapPage part va f write none
    let w := pteWord (f * 2 ^ 21) false false true write true
    t.mem.walk part va = .leaf w ∧ pteFresh w = true ∧ pteWrite w = write ∧ pteFrame w = f ∧
    t.mem.frames.get .free f = .owned part ∧ t.mem.bytes = s.mem.bytes ∧
    (f < tier2Frame0 → (t.meter part).t1Frames = (s.meter part).t1Frames + 1) ∧
    (tier2Frame0 ≤ f → (t.meter part).t2Frames = (s.meter part).t2Frames + 1) ∧
    (∀ q a, q ≤ 64 → a < 2 ^ 48 → (∃ v, s.mem.walk q a = .leaf v) → q ≠ part ∨ a / 2 ^ 21 ≠ va / 2 ^ 21 →
      t.mem.walk q a = s.mem.walk q a)) ∧
  (∀ (s : State) (part va n w : Nat), va + n ≤ 0xFF0000000000 → va % 2 ^ 21 + n ≤ 2 ^ 21 →
    s.mem.walk part va = .leaf w → pteFresh w = true → s.readVA part va n = List.replicate n 0)) ∧
  (∀ (s : State) (line : Nat), lineExists line = true → s.tierInTest (tierOf (line * 64)) = false →
    let a := line * 64
    let u := s.mem.unitOf a
    let data := s.mem.bytes.getAll 0 a 64
    (∀ part errs, s.mem.granHeld a = false →
      (∀ e, s.mem.marked a = true → exec (.memoryRead part line errs e) s =
        .next ((s.lineTraffic part a 64 false e).answer 2 cSourcePoison true data)) ∧
      (∀ e, s.mem.marked a = false → lineFinds errs = 0 ∨ (tierOf a = 1 ∧ s.mem.cached a = true) →
        exec (.memoryRead part line errs e) s = .next ((s.lineTraffic part a 64 false e).answer 2 0 false data)) ∧
      (s.mem.marked a = false → ¬(tierOf a = 1 ∧ s.mem.cached a = true) →
        (lineFinds errs = 1 → ∃ t, exec (.memoryRead part line errs false) s = .next t ∧
          (t.ctrl u).ce = sat32 ((s.ctrl u).ce + 1) ∧ t.fab.reply = some ⟨[], 2, 0, false, data⟩ ∧
          t.mem.bytes = s.mem.bytes ∧ t.mem.marks = s.mem.marks) ∧
        (lineFinds errs = 2 → s.mem.twinned a = false → ∃ t, exec (.memoryRead part line errs false) s = .next t ∧
          t.mem.marked a = true ∧ t.fab.reply = some ⟨[], 6, cSourceUe, false, []⟩ ∧
          (t.ctrl u).ue = sat32 ((s.ctrl u).ue + 1) ∧ t.mem.bytes = s.mem.bytes) ∧
        (lineFinds errs = 2 → s.mem.twinned a = true → exec (.memoryRead part line errs false) s =
          .next ((s.unitRead u 64).holdRequest ⟨a, none, false⟩)))) ∧
    (∀ part errs e, s.mem.granHeld a = true →
      exec (.memoryRead part line errs e) s = .next (s.holdRequest ⟨a, none, false⟩)) ∧
    (∀ part addr bs poison, addr / 64 = line → bs ≠ [] → addr % 64 + bs.length ≤ 64 →
      (s.mem.granHeld a = true → ∀ e,
        exec (.memoryWrite part addr bs poison e) s = .next (s.holdRequest ⟨addr, some bs, poison⟩)) ∧
      (s.mem.granHeld a = false → ∃ t, exec (.memoryWrite part addr bs poison false) s = .next t ∧
        t.fab.reply = some ⟨[], 3, 0, false, []⟩ ∧ t.mem.bytes.getAll 0 addr bs.length = bs ∧
        (∀ x, x < addr ∨ addr + bs.length ≤ x → t.mem.bytes.get 0 x = s.mem.bytes.get 0 x) ∧
        (t.mem.marked addr = (poison || (s.mem.marked addr && !(decide (addr % 64 = 0 ∧ bs.length = 64))))) ∧
        t.mem.pool = s.mem.pool ∧ t.mem.basin = s.mem.basin ∧ t.cpu = s.cpu)) ∧
    (s.awake (unitDomain u) = true → ∃ t, exec (.patrolScrub line [] false false false) s = .next t ∧
      (t.ctrl u).bytesRd = sat64 ((s.ctrl u).bytesRd + 64) ∧
      (t.ctrl u).ce = (s.ctrl u).ce ∧ (t.ctrl u).ue = (s.ctrl u).ue ∧ t.mem.bytes = s.mem.bytes ∧ t.mem.marks = s.mem.marks)) ∧
  (∀ (l : List (Nat × Nat)), (∀ e ∈ l, e.1 < 72 ∧ 0 < e.2 ∧ e.2 < 256) → (l.map (·.1)).Nodup →
    (l = [] → lineFinds l = 0) ∧ (0 < l.length → l.length ≤ 3 → lineFinds l = 1) ∧
    (l.length = 4 ∨ l.length = 5 → lineFinds l = 2) ∧ (5 < l.length → lineFinds l = 2 ∨ lineFinds l = 3))

/-- A write to a FRESH page is held and its frame comes first in the zero queue; when the frame is zero the page is opened
and the held writes are released (R226). The head of the zero queue is zeroed once the domains of its tier are awake; without an
owner it is free (R225, R597). An uncorrectable line of a twin-backed frame: its granule is restored from the twin, or, when the
twin or the read-back is uncorrectable or the granule failed before, poisoned; the requests that waited are released (R230,
R231). A temperature report sets the refresh multiplier at once when it rises and lowers it only after 10 ms (R236). The first loss of a unit in a tier relocates it and rebuilds
what it held (Table 17.3), with level-2 recovery records; a second puts the tier's units in TEST (R240). -/
def Obligations.memory_events : Prop :=
  ∀ (s : State),
    (∀ part va bs poison w, s.mem.leafOf part va = some w → s.translate part va true = .fresh (pteFrame w * 2 ^ 21 + va % 2 ^ 21) →
      inPage va bs.length = true → ∃ t, exec (.freshWrite part va bs poison) s = .next t ∧
        t.mem.heldWrites = s.mem.heldWrites ++ [⟨part, va, bs, poison, s.clk, none⟩] ∧ t.mem.bytes = s.mem.bytes ∧
        (pteFrame w ∈ s.mem.zeroQueue → t.mem.zeroQueue.head? = some (pteFrame w))) ∧
    (∀ part va w, s.mem.leafOf part va = some w → pteFresh w = true → pteFrame w ∉ s.mem.zeroQueue →
      (∃ h ∈ s.mem.heldWrites, h.part = part ∧ h.va / 2 ^ 21 = va / 2 ^ 21) →
      exec (.freshWriteRelease part va) s = .next (s.openFresh part va)) ∧
    (∀ f q, s.mem.zeroQueue = f :: q → (tierDomains (frameTier f)).all s.awake = true → ∃ t, exec .zeroFrame s = .next t ∧ t.mem.zeroQueue = q ∧
      (∀ i, i < 2 ^ 21 → t.mem.bytes.get 0 (f * 2 ^ 21 + i) = 0) ∧
      (∀ x, x / 2 ^ 21 ≠ f → t.mem.bytes.get 0 x = s.mem.bytes.get 0 x) ∧
      t.mem.frames.get .free f = (if s.mem.frames.get .free f = .queued then .free else s.mem.frames.get .free f)) ∧
    (∀ gran us tw, s.mem.twins.get none (gran / 512) = some tw → us ≤ 20 →
      let src := tw * 512 + gran % 512
      let t := ({ s with mem := { s.mem with twinOnce := s.mem.twinOnce.put false gran true } } : State).unitRead
        (s.mem.unitOf (src * 4096)) 4096
      let u := s.mem.unitOf (gran * 4096)
      (s.mem.twinOnce.get false gran = false → s.mem.granuleMarked src = false →
        let v := (t.unitWrote u 4096).unitRead u 4096
        exec (.twinRestore gran false false us) s =
          .next ((({ v with mem := v.mem.copyGranule src gran } : State).twinRestored gran us).releaseGranule gran false) ∧
        exec (.twinRestore gran false true us) s = .next ((v.twinLost gran).releaseGranule gran true)) ∧
      (∀ back, exec (.twinRestore gran true back us) s = .next ((t.twinLost gran).releaseGranule gran true))) ∧
    (∀ unit temp, unit < 28 → temp < 256 → ∃ t, exec (.refreshTempPoll unit temp) s = .next t ∧ (t.ctrl unit).temp = temp ∧
      (refreshCode temp > (s.ctrl unit).refresh → (t.ctrl unit).refresh = refreshCode temp) ∧
      ((s.ctrl unit).refresh = 2 → (s.ctrl unit).cool95 = none → (t.ctrl unit).refresh = 2) ∧
      ((s.ctrl unit).refresh = 1 → (s.ctrl unit).cool85 = none → refreshCode temp ≤ 1 → (t.ctrl unit).refresh = 1) ∧
      (temp ≤ 82 → cooled (s.ctrl unit).cool95 s.clk = true → cooled (s.ctrl unit).cool85 s.clk = true →
        (t.ctrl unit).refresh = 0) ∧
      ∀ v, v ≠ unit → t.ctrl v = s.ctrl v) ∧
    (∀ unit cause moves, unit < 28 → cause = 1 ∨ cause = 2 → (s.ctrl unit).state ≠ .lost →
      let tier := if unit < 12 then 0 else 1
      ((if unit < 12 then s.mem.lost1 = none else s.mem.lost2 = none) → s.mem.movesFit tier moves = true →
        let r := s.relocate unit cause moves
        let v := (r.1.rebuild unit (s.lostGranules unit).1).beginRecovery 2 0xFF
        exec (.memUnitLost unit cause moves) s = .next ((v.record 0x0D08 1 0xFF srcMem unit unit (r.2 / 256)
          ((v.lostGranules unit).2 - r.2) 0 [0]).endRecovery r.1.lastRecord)) ∧
      ((if unit < 12 then s.mem.lost1 ≠ none else s.mem.lost2 ≠ none) →
        ∃ t, exec (.memUnitLost unit cause moves) s = .next t ∧
          ∀ v, v < 28 → (v < 12 ↔ unit < 12) → (t.ctrl v).state = .lost ∨ (t.ctrl v).state = .test))

/-- A host access through BAR2 whose resources have tokens (R223, R515). Through an aperture that is not bound, a read ends
in a Completer Abort, which its port records, and a write is discarded and recorded as HOST_APERTURE; so do accesses that fail
translation. Through a bound one a write reaches the partition's memory at APERTURE_VA + o, or is held at a FRESH page, and a
read returns its data, poisoned lines with EP set; a read waits behind its own port's held write to the page (R226). -/
def Obligations.host_bar2 : Prop :=
  ∀ (s : State) (port addr len : Nat) (bs : List Byte) (ue : List Nat), port < 2 → addr < 2 ^ 37 →
    let j := addr / 2 ^ 31
    let o := addr % 2 ^ 31
    (s.mem.apertures.get none j = none →
      (0 < len → addr % 4096 + len ≤ 4096 → exec (.hostBar2Access port addr len false bs ue) s =
        .next { s with mem := { s.mem with
          bar2Data := [], bar2Ep := false, bar2Abort := true, aer := s.mem.aer.put false port true } }) ∧
      (bs ≠ [] → addr % 4096 + bs.length ≤ 4096 →
        exec (.hostBar2Access port addr len true bs ue) s = .next (s.hostAperture port j o 3))) ∧
    (∀ base, s.mem.apertures.get none j = some base → s.mayProceed (j + 1) 3 = true →
      let waits := ∃ h ∈ s.mem.heldWrites, h.part = j + 1 ∧ h.host.map (·.1) = some port ∧ h.va / 2 ^ 21 = (base + o) / 2 ^ 21
      (∀ c, bs ≠ [] → addr % 4096 + bs.length ≤ 4096 →
        s.extentMayProceed (j + 1) (6 + port) (base + o) bs.length true = true →
        s.extentFault (j + 1) (base + o) bs.length true = some c → exec (.hostBar2Access port addr len true bs ue) s =
          .next ((s.notePairFault (j + 1) (base + o)).hostAperture port j o (if c = cReadOnly then 2 else 1))) ∧
      (∀ d, bs ≠ [] → addr % 4096 + bs.length ≤ 4096 →
        s.extentMayProceed (j + 1) (6 + port) (base + o) bs.length true = true →
        s.extentFault (j + 1) (base + o) bs.length true = none →
        let t := (s.charge (j + 1) 3 bs.length).chargeExtent (j + 1) (6 + port) (base + o) bs.length true
        (t.translate (j + 1) (base + o) true = .fresh d →
          exec (.hostBar2Access port addr len true bs ue) s = .next (t.holdWrite (j + 1) (base + o) bs false (some (port, j, o)))) ∧
        (t.translate (j + 1) (base + o) true = .tier d →
          exec (.hostBar2Access port addr len true bs ue) s = .next (t.writeVA (j + 1) (base + o) bs))) ∧
      (0 < len → waits → exec (.hostBar2Access port addr len false bs ue) s = .next s) ∧
      (0 < len → ¬waits → addr % 4096 + len ≤ 4096 → s.extentMayProceed (j + 1) (6 + port) (base + o) len false = true →
        (s.extentFault (j + 1) (base + o) len false = none →
          ∃ t, exec (.hostBar2Access port addr len false bs ue) s = .next t ∧ t.mem.bar2Abort = false ∧
            t.mem.bar2Ep = s.extentPoison ue (j + 1) (base + o) len ∧
            (s.extentPoison ue (j + 1) (base + o) len = false → t.mem.bar2Data = s.readVA (j + 1) (base + o) len)) ∧
        (s.extentFault (j + 1) (base + o) len false ≠ none →
          ∃ t, exec (.hostBar2Access port addr len false bs ue) s = .next t ∧ t.mem.bar2Abort = true ∧ t.mem.bar2Data = [] ∧
            t.mem.aer.get false port = true)))

/-- The registers of a controller that is in TEST, written by the lock-keeper (R241 to R243, Tables 7.14 and 7.15): START of
loop-back with PHY_NEAR or FAR clears its results and runs; STOP ends it with its results; so does the end of DURATION_US.
START of the generator clears its result registers and runs; STOP marks the run; the run ends with DONE, and with ERR
exactly when a word did not compare equal or the range passes the end of the unit. Reading the error count returns it and
clears it. Out of TEST the writes change nothing of the unit. -/
def Obligations.memory_tests : Prop :=
  ∀ (s : State) (m : Master) (u v : Nat), u < 28 → s.isOwner m = true →
    ((s.ctrl u).state = .test →
      (bit v 2 = true → bits v 1 0 = 1 ∨ bits v 1 0 = 2 → bit v 3 = false →
        ∃ t, exec (.memLbStart m u v) s = .next t ∧ (t.ctrl u).lbRunning = true ∧ (t.ctrl u).lbStatus = 0 ∧
          (t.ctrl u).lbErr = 0 ∧ (t.ctrl u).lbMode = bits v 1 0 ∧ (t.ctrl u).lbDuration = bits v 31 16 ∧ t.mem.bytes = s.mem.bytes) ∧
      (bit v 3 = true → bit v 2 = false → (s.ctrl u).lbRunning = true → ∀ st er,
        ∃ t, exec (.memLbStop m u v st er) s = .next t ∧ (t.ctrl u).lbRunning = false ∧ (t.ctrl u).lbStatus = wrap32 st ∧
          (t.ctrl u).lbErr = sat32 er) ∧
      (bit v 0 = true → bit v 1 = false → (s.ctrl u).tgBusy = false → bits v 11 8 ≤ 5 → bits v 5 4 ≤ 2 →
        ∃ t, exec (.tgStart m u v) s = .next t ∧ (t.ctrl u).tgBusy = true ∧ (t.ctrl u).tgDone = false ∧
          (t.ctrl u).tgErr = false ∧ (t.ctrl u).tgErrors = 0 ∧ (t.ctrl u).tgPattern = bits v 11 8 ∧
          (t.ctrl u).tgOp = bits v 5 4) ∧
      (bit v 1 = true → (s.ctrl u).tgBusy = true →
        ∃ t, exec (.tgStop m u v) s = .next t ∧ (t.ctrl u).tgStop = true ∧ (t.ctrl u).tgBusy = true)) ∧
    ((s.ctrl u).state ≠ .test → ∀ st er,
      exec (.memLbStart m u v) s = .next s ∧ exec (.memLbStop m u v st er) s = .next s ∧
      exec (.tgStart m u v) s = .next s ∧ exec (.tgStop m u v) s = .next s) ∧
    ((s.ctrl u).lbRunning = true → s.loopCmd u = none → 0 < (s.ctrl u).lbDuration →
      (s.ctrl u).lbStart + 1000 * (s.ctrl u).lbDuration ≤ s.clk → ∀ st er mb rep,
      ∃ t, exec (.memLbDurationEnd u st er mb rep) s = .next t ∧ (t.ctrl u).lbRunning = false ∧
        (t.ctrl u).lbStatus = wrap32 st ∧ (t.ctrl u).lbErr = sat32 er) ∧
    ((s.ctrl u).tgBusy = true → (s.ctrl u).tgStop = false → 0 < (s.ctrl u).tgLoops ∨ (s.ctrl u).past u = true → ∀ flips,
      let lines := (if (s.ctrl u).past u then 1 else (s.ctrl u).tgLoops) * (s.ctrl u).passLines u
      ∃ t, exec (.tgDone u lines flips) s = .next t ∧ (t.ctrl u).tgBusy = false ∧ (t.ctrl u).tgDone = true ∧
        (t.ctrl u).tgLines = sat32 lines ∧
        ((t.ctrl u).tgErr = true ↔ (s.ctrl u).past u = true ∨ 0 < (t.ctrl u).tgErrors) ∧
        ((s.ctrl u).tgOp = 0 → (t.ctrl u).tgErrors = 0)) ∧
    (∃ t, exec (.tgErrCountRead m u) s = .next t ∧ t.cmd.readData = BitVec.ofNat 32 (s.ctrl u).tgErrors ∧
      (t.ctrl u).tgErrors = 0 ∧ ∀ d, d ≠ u → t.ctrl d = s.ctrl d)

/-- A QUAY_LOAD of a program that passes R258 writes it into the named slot, or into the lowest free one, and returns the
slot, the count, the ALU beats and the number of BRED and SCALE; with INSTRUCTIONS zero it frees the slot (R257). A
QUAY_RUN that passes R259 to R261 stands last in the queue of runs, and its tier's first run begins (R264). QUAY_ACC opens
a window, its accumulator zeroed under CLEAR, or closes it, and no other window changes (R268, R269, R273). -/
def Obligations.quay_commands : Prop :=
  ∀ (s : State) (path : Path) (pk : Packet) (f : Flight) (ue : List Nat),
    let part := s.pathPart path
    let b := s.begun f
    (∀ host ws slot, pk.opcode = 0x801 →
      s.Begins path pk f (if pk.b 0x18 24 then [3] else s.extentRes part (s.pathDie path) (pk.d 0x10) 1) [] →
      pk.f 0x18 8 0 ≤ 256 → b.quayProgram part pk host ue = .ok ws → qCheck ws = none → ws.length = pk.f 0x18 8 0 → ws ≠ [] →
      (pk.b 0x18 19 = true → pk.f 0x18 18 16 = 0 ∧ s.freeSlot = some slot) →
      (pk.b 0x18 19 = false → slot = pk.f 0x18 18 16 ∧ s.slotBusy slot = false ∧
        ∀ q, s.quay.slots.get none slot = some q → q.part = part) →
      ∃ t res, exec (.quayLoad path pk host ue) s = .next t ∧ s.Completes f stDone res t ∧
        t.quay.slots.get none slot = some ⟨part, ws⟩ ∧ (∀ k, k ≠ slot → t.quay.slots.get none k = s.quay.slots.get none k) ∧
        res = [slot, ws.length, ((ws.map QOp.ofWord).map QOp.beats).foldl (· + ·) 0,
          ((ws.map QOp.ofWord).filter (fun o => o.opc == 0x30 || o.opc == 0x31)).length] ∧
        t.quay.runs = s.quay.runs ∧ t.quay.windows = s.quay.windows) ∧
    (∀ r, pk.opcode = 0x802 →
      s.Begins path pk f ([pk.d 0x28, pk.d 0x30, pk.d 0x38].flatMap (fun a => s.extentRes part (s.pathDie path) a 1)) [] →
      b.quayCheck f ue = .run r →
      ∃ t, exec (.quayRun path pk ue) s = .next t ∧ t.quay = { s.quay with runs := s.quay.runs ++ [r] } ∧
        t.cmd = b.cmd ∧ r.cmd = f.id ∧ r.part = part ∧ r.done = [] ∧ r.began = false) ∧
    (pk.opcode = 0x803 → pk.f 0x10 1 0 = 1 →
      s.Begins path pk f (if pk.b 0x10 8 then s.extentRes part (s.pathDie path) (pk.d 0x20) 1 else []) [] →
      let x : Window := ⟨part, pk.d 0x18, pk.d 0x20, pk.d 0x28, pk.f 0x10 15 12, pk.f 0x10 19 16⟩
      let vn := x.count * (elemBits x.inFmt / 8)
      let an := x.count * (elemBits x.accFmt / 8)
      s.quay.windows.get none (pk.f 0x10 6 2) = none → windowPair x.inFmt x.accFmt = true → 0 < x.count → x.count ≤ 2 ^ 32 →
      x.view % 64 = 0 → x.acc % 64 = 0 → x.view + vn ≤ 0xFF0000000000 → x.acc + an ≤ 0xFF0000000000 →
      s.meetsPage part x.view vn = false → s.meetsView part x.view vn = false → rangesMeet x.view vn x.acc an = false →
      s.runUses part x.acc an = false → s.runUses part x.view vn = false → b.extentAsleep part x.acc an = false →
      b.meetsView part x.acc an = false → b.writeCauses part x.acc an = [] →
      let whole := ceilDiv an 64 * 64
      let u := if pk.b 0x10 8 then (b.chargeExtent part (s.pathDie path) x.acc whole true).writeVA part x.acc
        (List.replicate whole 0) else b
      exec (.quayAccOpen path pk) s = .next (({ u with quay := { u.quay with
        windows := u.quay.windows.put none (pk.f 0x10 6 2) (some x) } } : State).done f)) ∧
    (∀ x, pk.opcode = 0x803 → pk.f 0x10 1 0 = 2 → s.Begins path pk f [] [] →
      s.quay.windows.get none (pk.f 0x10 6 2) = some x → x.part = part →
      ∃ t, exec (.quayAccClose path pk) s = .next t ∧ s.Completes f stDone [] t ∧
        t.quay = { s.quay with windows := s.quay.windows.put none (pk.f 0x10 6 2) none } ∧ t.mem = s.mem) ∧
    (∀ tier r, tier < 2 → s.headRun tier = some r → r.began = false →
      exec (.quayRunStart tier) s = .next (s.updRun r.cmd (fun r => { r with began := true })))

/-- A usable engine with a unit in progress runs the instruction at which the unit stands, adds its beats, and four for each
rerun that clears a residue mismatch, and goes on behind it; nothing outside the engine changes (R248, R262, R276). END writes
the unit's outputs. A whole unit is the engine's steps to its END, and a second residue mismatch retires the engine instead,
which has no unit then (R276, R277).
What each quay instruction of Table 8.3 makes of a lane, in the format that W names, rounded once: sums, differences,
products and fused products; the lesser and the greater; absolute value, negation, comparison, selection, conversion
between the formats, square root and reciprocal; a parameter or an immediate in every lane. A lane is poisoned when a
source lane of its instruction is, and SCALE of a poisoned lane poisons the whole block (R250, R256); every other register is unchanged, and the destination carries W's tag. -/
def Obligations.quay_instructions : Prop :=
  (∀ (s : State) (e : Nat) (ue : List Nat) (n : Nat) (q : QUnit) (r : QRun), e < 28 → bit s.pkg.qeOk e = true →
    (s.qe e).work = some q → listFind (fun r => r.cmd == q.cmd) s.quay.runs = some r →
    let o := QOp.ofWord (r.words.getD q.pc 0xFF)
    (o.opc = 0x01 → ∃ t, exec (.quayLd e ue) s = .next t ∧ s.QuayRan e q r o 0 t) ∧
    (o.opc = 0x02 → ∃ t, exec (.quaySt e ue) s = .next t ∧ s.QuayRan e q r o 0 t) ∧
    (o.opc = 0x03 → ∃ t, exec (.quayLdp e ue) s = .next t ∧ s.QuayRan e q r o 0 t) ∧
    (o.opc = 0x04 → ∃ t, exec (.quayLdi e ue) s = .next t ∧ s.QuayRan e q r o 0 t) ∧
    (o.opc = 0x05 → ∃ t, exec (.quayRndu e ue n false) s = .next t ∧ s.QuayRan e q r o n t) ∧
    (o.opc = 0x10 → ∃ t, exec (.quayAdd e ue n false) s = .next t ∧ s.QuayRan e q r o n t) ∧
    (o.opc = 0x11 → ∃ t, exec (.quaySub e ue n false) s = .next t ∧ s.QuayRan e q r o n t) ∧
    (o.opc = 0x12 → ∃ t, exec (.quayMul e ue n false) s = .next t ∧ s.QuayRan e q r o n t) ∧
    (o.opc = 0x13 → ∃ t, exec (.quayFma e ue n false) s = .next t ∧ s.QuayRan e q r o n t) ∧
    (o.opc = 0x14 → ∃ t, exec (.quayMin e ue n false) s = .next t ∧ s.QuayRan e q r o n t) ∧
    (o.opc = 0x15 → ∃ t, exec (.quayMax e ue n false) s = .next t ∧ s.QuayRan e q r o n t) ∧
    (o.opc = 0x16 → ∃ t, exec (.quayAbs e ue n false) s = .next t ∧ s.QuayRan e q r o n t) ∧
    (o.opc = 0x17 → ∃ t, exec (.quayNeg e ue n false) s = .next t ∧ s.QuayRan e q r o n t) ∧
    (o.opc = 0x18 → ∃ t, exec (.quayCmplt e ue n false) s = .next t ∧ s.QuayRan e q r o n t) ∧
    (o.opc = 0x19 → ∃ t, exec (.quaySel e ue n false) s = .next t ∧ s.QuayRan e q r o n t) ∧
    (o.opc = 0x1A → ∃ t, exec (.quayCvt e ue n false) s = .next t ∧ s.QuayRan e q r o n t) ∧
    (o.opc = 0x20 → ∃ t, exec (.quaySqrt e ue n false) s = .next t ∧ s.QuayRan e q r o n t) ∧
    (o.opc = 0x21 → ∃ t, exec (.quayRcp e ue n false) s = .next t ∧ s.QuayRan e q r o n t) ∧
    (o.opc = 0x30 → ∃ t, exec (.quayBred e ue n false) s = .next t ∧ s.QuayRan e q r o n t) ∧
    (o.opc = 0x31 → ∃ t, exec (.quayScale e ue n false) s = .next t ∧ s.QuayRan e q r o n t) ∧
    (o.opc = 0x05 → exec (.quayRndu e ue n true) s = .next ((s.quayRetry e (n + 1)).retireQe e 0x05)) ∧
    (o.opc = 0x10 → exec (.quayAdd e ue n true) s = .next ((s.quayRetry e (n + 1)).retireQe e 0x10)) ∧
    (o.opc = 0x11 → exec (.quaySub e ue n true) s = .next ((s.quayRetry e (n + 1)).retireQe e 0x11)) ∧
    (o.opc = 0x12 → exec (.quayMul e ue n true) s = .next ((s.quayRetry e (n + 1)).retireQe e 0x12)) ∧
    (o.opc = 0x13 → exec (.quayFma e ue n true) s = .next ((s.quayRetry e (n + 1)).retireQe e 0x13)) ∧
    (o.opc = 0x14 → exec (.quayMin e ue n true) s = .next ((s.quayRetry e (n + 1)).retireQe e 0x14)) ∧
    (o.opc = 0x15 → exec (.quayMax e ue n true) s = .next ((s.quayRetry e (n + 1)).retireQe e 0x15)) ∧
    (o.opc = 0x16 → exec (.quayAbs e ue n true) s = .next ((s.quayRetry e (n + 1)).retireQe e 0x16)) ∧
    (o.opc = 0x17 → exec (.quayNeg e ue n true) s = .next ((s.quayRetry e (n + 1)).retireQe e 0x17)) ∧
    (o.opc = 0x18 → exec (.quayCmplt e ue n true) s = .next ((s.quayRetry e (n + 1)).retireQe e 0x18)) ∧
    (o.opc = 0x19 → exec (.quaySel e ue n true) s = .next ((s.quayRetry e (n + 1)).retireQe e 0x19)) ∧
    (o.opc = 0x1A → exec (.quayCvt e ue n true) s = .next ((s.quayRetry e (n + 1)).retireQe e 0x1A)) ∧
    (o.opc = 0x20 → exec (.quaySqrt e ue n true) s = .next ((s.quayRetry e (n + 1)).retireQe e 0x20)) ∧
    (o.opc = 0x21 → exec (.quayRcp e ue n true) s = .next ((s.quayRetry e (n + 1)).retireQe e 0x21)) ∧
    (o.opc = 0x30 → exec (.quayBred e ue n true) s = .next ((s.quayRetry e (n + 1)).retireQe e 0x30)) ∧
    (o.opc = 0x31 → exec (.quayScale e ue n true) s = .next ((s.quayRetry e (n + 1)).retireQe e 0x31)) ∧
    (o.opc = 0xFF → exec (.quayEnd e ue) s =
      .next (((s.updQe e (fun k => { k with reset := false })).endUnit e q r).quayRetry e 0)) ∧
    exec (.quayWorkUnit e ue n none) s = .next (State.quayUnit e ue 257 (s.quayRetry e n)) ∧
    (∀ opc, exec (.quayWorkUnit e ue n (some opc)) s = .next ((s.quayRetry e (n + 1)).retireQe e opc)) ∧
    (∀ opc, let t := (s.quayRetry e (n + 1)).retireQe e opc
      bit t.pkg.qeOk e = false ∧ (t.qe e).work = none ∧ t.mem = s.mem ∧
      ∀ d, d ≠ e → bit t.pkg.qeOk d = bit s.pkg.qeOk d ∧ (t.qe d).work = (s.qe d).work)) ∧
  (∀ (q : QUnit) (r : QRun) (o : QOp) (i : Nat), i < q.n →
    let f := tagFmt o.w
    let v := (q.run r o).reg o.d
    let A := q.lane o.w o.a i
    let B := q.lane o.w o.b i
    let C := q.lane o.w o.c i
    let p := q.bad o.a i
    let p2 := p || q.bad o.b i
    let p3 := p2 || q.bad o.c i
    let gives := fun (opc code : Nat) (bad : Bool) => o.opc = opc → v.getD i ⟨0, false⟩ = ⟨code, bad⟩ ∧
      ((q.run r o).regs.get none o.d).map (·.1) = some o.w ∧
      (∀ k, k ≠ o.d → (q.run r o).regs.get none k = q.regs.get none k) ∧ (q.run r o).outs = q.outs ∧ (q.run r o).scale = q.scale
    gives 0x03 (if o.w then r.params.getD o.imm 0 % 2 ^ 58 else r.params.getD o.imm 0 % 2 ^ 32) false ∧
    gives 0x04 o.imm false ∧
    gives 0x10 (f.rne (A.add B)) p2 ∧ gives 0x11 (f.rne (A.add B.negate)) p2 ∧ gives 0x12 (f.rne (A.mul B)) p2 ∧
    gives 0x13 (f.rne ((A.mul B).add C)) p3 ∧ gives 0x14 (f.rne (A.min2 B)) p2 ∧ gives 0x15 (f.rne (A.max2 B)) p2 ∧
    gives 0x16 (f.rne A.abs) p ∧ gives 0x17 (f.rne A.negate) p ∧
    gives 0x18 (f.rne (if A.lt B then .fin false 1 0 else .zero false)) p2 ∧
    gives 0x19 (f.rne (if A.isZero then C else B)) p3 ∧
    gives 0x1A (f.rne (q.lane (!o.w) o.a i)) p ∧
    gives 0x20 (f.sqrt A) p ∧ gives 0x21 (f.recip A) p ∧
    (o.opc = 0x31 → (∃ l ∈ q.reg o.a, l.poison = true) → ∀ k, ∀ l ∈ (q.run r o).reg k, l.poison = true))

/-- A write of whole elements to the view of an open window is added into the accumulator, one element after another in
ascending order, and acknowledged (R270, R271); one that covers part of an element fails with TRANSLATION and adds nothing.
Adding one element that nothing poisons stores the sum of Table 8.9 in the accumulator's bytes; a poisoned contribution or
accumulator line leaves the element poisoned (R272). -/
def Obligations.window_contributions : Prop :=
  ∀ (s : State) (part va w o : Nat) (x : Window) (bs : List Byte), s.translate part va true = .view w o →
    s.quay.windows.get none w = some x → bs ≠ [] →
    ((∀ p ∈ extent va bs.length, s.pieceFault part p.1 p.2 true = none) → ∀ poison,
      exec (.windowContribution part va bs poison []) s = .next ((s.contribute w o bs poison []).answer 3 0 false [])) ∧
    (∀ p ∈ extent va bs.length, s.pieceFault part p.1 p.2 true ≠ none → ∀ poison ue,
      exec (.windowContribution part va bs poison ue) s = .next (s.answer 6 cTranslation false [])) ∧
    (∀ k d c, let n := elemBits x.accFmt / 8
      s.translate x.part (x.acc + k * n) true = .tier d → s.mem.marked d = false → 0 < n → d % 64 + n ≤ 64 →
      ofBytes ((s.accumulate x k c false).mem.bytes.getAll 0 d n) =
        windowSum x.inFmt x.accFmt (ofBytes (s.mem.bytes.getAll 0 d n)) c % 2 ^ (8 * n) ∧
      (∀ a, a < d ∨ d + n ≤ a → (s.accumulate x k c false).mem.bytes.get 0 a = s.mem.bytes.get 0 a) ∧
      (s.accumulate x k c false).mem.marked d = false ∧ (s.accumulate x k c true).mem.marked d = true)

/-- PORT_CTL that nothing refuses applies its settings and its ACTION to every selected port and completes (R346, R356): with
ACTION 0 no port changes state; ENABLE trains a DISABLED or DOWN port; UNPARK trains a parked one; PARK sends PARK from an
UP port, which then waits, and parks any other; DISABLE and RETRAIN do as R321, R323 and R334 say. ROUTE_LOAD with a table
whose pairs hold rebuilds and flips both chambers, the entries beyond the table invalid (R341). -/
def Obligations.link_commands : Prop :=
  ∀ (s : State) (path : Path) (pk : Packet) (f : Flight),
    let ps := pcPorts pk
    let doms := (ps.map portDomain).eraseDups
    let b := s.begun f
    let sets := fun (t : State) (next : Port → PortState) => s.Completes f stDone [] t ∧
      (∀ p ∈ ps, (t.port p).state = next (s.port p) ∧
        (t.port p).replayLimit = (if pk.b 0x18 31 then pk.f 0x18 3 0 else (s.port p).replayLimit) ∧
        (t.port p).sleepIdle = (if pk.b 0x18 30 then pk.f 0x18 15 8 else (s.port p).sleepIdle) ∧
        (t.port p).ueLimit = (if pk.b 0x18 29 then pk.f 0x18 23 16 else (s.port p).ueLimit) ∧
        (t.port p).expect = (if pk.b 0x18 28 then pk.w 0x1C else (s.port p).expect)) ∧
      (∀ p, p ∉ ps → t.port p = s.port p)
    (pk.opcode = 0x041 → s.portCtlCause pk = none →
      (pk.f 0x14 2 0 = 0 → s.Begins path pk f [] [] →
        ∃ t, exec (.portCtl path pk) s = .next t ∧ sets t (fun p => p.state)) ∧
      (pk.f 0x14 2 0 = 1 → s.Begins path pk f [] doms → ∃ t, exec (.portEnable path pk) s = .next t ∧
        sets t (fun p => if p.state = .disabled ∨ p.state = .down then .training else p.state)) ∧
      (pk.f 0x14 2 0 = 5 → s.Begins path pk f [] doms → ∃ t, exec (.portUnpark path pk) s = .next t ∧
        sets t (fun p => if p.state = .parked then .training else p.state)) ∧
      (pk.f 0x14 2 0 = 2 → s.Begins path pk f [] [] → exec (.portDisable path pk) s = .next ((ps.foldl (fun s p =>
        ((s.updPort p (fun x => { x with state := .disabled, dataOpen := false, waking := false, parkAt := none })).moveMsgs
          p).releaseBuffers p) (b.portSettings pk)).done f)) ∧
      (pk.f 0x14 2 0 = 3 → s.Begins path pk f [] doms → exec (.portRetrain path pk) s = .next ((ps.foldl (fun s p =>
        match (s.port p).state with
        | .up | .sleep => s.startRetrain p 6
        | .down => s.train p
        | _ => s) (b.portSettings pk)).done f)) ∧
      (pk.f 0x14 2 0 = 4 → s.Begins path pk f [] [] → ∃ t, exec (.portPark path pk) s = .next t ∧
        ∀ p ∈ ps, ((s.port p).state = .up → (t.port p).state = .up ∧ (t.port p).parkAt = some s.clk) ∧
          ((s.port p).state ≠ .up → (t.port p).state = .parked ∧ (t.port p).dataOpen = false))) ∧
    (∀ host ue tb, pk.opcode = 0x040 →
      s.Begins path pk f (if pk.b 0x1C 0 then [3] else s.extentRes 0 (s.pathDie path) (pk.d 0x10) 1) [] →
      let n := pk.f 0x18 14 0
      let entry := fun (i : Nat) => (ofBytes ((tb.drop (8 * i)).take 4), ofBytes ((tb.drop (8 * i + 4)).take 4))
      0 < n → n ≤ 16384 → b.routeTable pk host ue = .ok tb → (∀ i, i < n → pair32 (entry i).1 (entry i).2 = true) →
      ∃ t, exec (.routeLoad path pk host ue) s = .next t ∧ s.Completes f stDone [t.link.hub0.gen, t.link.hub1.gen] t ∧
        (∀ hub k, (t.routeChamber hub).bank.get noRoute k = if k < n then entry k else noRoute) ∧
        (∀ hub, (t.routeChamber hub).gen = wrap32 ((s.routeChamber hub).gen + 1)) ∧ t.link.ports = s.link.ports)

/-- For every canal packet whose fields fit Table 10.3, reading its wire form gives the packet back (the note of the
ingress port that this package keeps with a packet in transit aside, which no wire carries), the header passes HCRC
and the CRC-32 holds (R308, R310); for every towpath message whose fields fit Table 10.9, reading its slot gives the message
back (R329). -/
def Obligations.wire_round_trip : Prop :=
  (∀ k : CPacket, k.fits = true →
    CPacket.ofBytes k.wire = { k with ingress := none } ∧ k.wire.length = 36 + k.payload.length ∧ hcrcOk k.wire = true ∧
      (packetCrc k.wire).1 = (packetCrc k.wire).2) ∧
  (∀ m : TMsg, m.fits = true → m.slot.length = 80 ∧ TMsg.ofSlot m.slot = some m)

/-- An UP port. A DATA flit with a bad CHK or an uncorrectable codeword makes it discard up to the next FIRST (R307). At a
flit boundary a control flit goes first when one is due, then a towpath message that has a credit, and with nothing waiting
an IDLE flit (R331); of the other ports only the credits of packets in transit that have gone out are freed (R315). A packet whose checks hold and whose LSEQ is expected is taken once: at its destination it is delivered
to its owner (R309, R313), in transit it goes on over VC3 with one hop less (R311, R336); any other packet leaves EXP_LSEQ
and the inbox as they were (R318). A control flit gives credits back and releases what it acknowledges, and its NACK starts a
replay (R315 to R319). -/
def Obligations.flits_and_packets : Prop :=
  ∀ (s : State) (port : Nat), port < 24 → (s.port port).state = .up →
    let p := s.port port
    (∀ flit ue n, flit.length = 256 →
      let w := ofBytes (flit.take 4)
      ∃ t, exec (.flitReceive port flit ue n) s = .next t ∧ (∀ q, q ≠ port → t.port q = s.port q) ∧
        (t.port port).fecUncorrectable = sat32 (p.fecUncorrectable + ue) ∧
        (bits w 31 30 = 1 → (t.port port).discarding =
          if ue ≠ 0 ∨ bits w 7 0 ≠ flitChk w then true else p.discarding && (bits w 29 24 == 0x3F))) ∧
    (s.link.lasersOff = false → ∃ t, exec (.flitSend port) s = .next t ∧
      (∀ q, q ≠ port → t.port q = { s.port q with rxFreed := (t.port q).rxFreed, ctlDue := (t.port q).ctlDue }) ∧
      (p.ctlDue = true → (t.port port).lastTx = .control p.control ∧
        ((∀ o ∈ p.txOwed, o.1 ≠ 0) → (t.port port).ctlDue = false)) ∧
      (p.sleepAck = true → p.tpQueue = [] → (t.port port).state = .sleep) ∧
      (p.ctlDue = false → p.tpResendFrom = none → p.tpQueue ≠ [] → 0 < p.tpCredits → p.tpReplay.length < 16 →
        (t.port port).lastTx = .towpath (p.towpathBody p.nextTseq (p.tpQueue.take (min 3 p.tpCredits)))) ∧
      (p.ctlDue = false → p.tpResendFrom = none → p.tpQueue = [] → p.txBytes = [] → p.resendFrom = none → p.txQueue = [] →
        p.txHeld = [] → (t.port port).lastTx = .idle)) ∧
    (∀ bytes, p.dataOpen = true → p.discarding = false →
      let k := CPacket.ofBytes bytes
      let good := hcrcOk bytes = true ∧ bytes.length = 36 + bits (ofBytes (bytes.take 4)) 31 19 ∧
        (packetCrc bytes).1 = (packetCrc bytes).2 ∧ (packetCrc bytes).1 ≠ compl32 (packetCrc bytes).2 ∧ k.lseq = p.expLseq
      (good → k.dstPkg = s.pkg.packageId → kindOvc k.kind = some k.ovc → k.level = s.pkg.runLevel →
        ∃ t, exec (.canalPacket port bytes) s = .next t ∧ t.link.inbox = s.link.inbox ++ [k] ∧
          (t.port port).expLseq = wrap32 (p.expLseq + 1) ∧ (t.port port).gap = false ∧ (t.port port).txQueue = p.txQueue) ∧
      (good → ∀ q dl, s.lookup (port / 12) k.dstPkg k.dl s.dataUsable (fun _ => true) = .out q dl → 1 < k.hops → q ≠ port →
        ∃ t, exec (.canalPacket port bytes) s = .next t ∧ t.link.inbox = s.link.inbox ∧
          (t.port port).expLseq = wrap32 (p.expLseq + 1) ∧
          (t.port q).txQueue = (s.port q).txQueue ++
            [{ k with vc := 3, dl := dl, hops := k.hops - 1, lseq := 0, ingress := some (port, p.bufferClass k) }]) ∧
      (¬ good → ∃ t, exec (.canalPacket port bytes) s = .next t ∧ t.link.inbox = s.link.inbox ∧
        (t.port port).expLseq = p.expLseq)) ∧
    (∀ body, body.length = 252 → ofBytes (body.drop 248) = crc32 (body.take 248) →
      let w := fun o => ofBytes ((body.drop o).take 4)
      (w 8 = 0 → ∃ t, exec (.controlFlit port body) s = .next t ∧ (∀ q, q ≠ port → t.port q = s.port q) ∧
        (t.port port).credits = (List.range 6).map (fun i => p.credits.getD i 0 + ofBytes ((body.drop (16 + 2 * i)).take 2)) ∧
        (t.port port).replay = p.replay.filter (fun k => seqLt (w 0) k.lseq) ∧
        (t.port port).tpCredits = min 16 (p.tpCredits + bits (w 0xC) 15 0) ∧ (t.port port).resendFrom = p.resendFrom) ∧
      (w 8 = 1 → p.replays + 1 < p.replayLimit → 1 < p.replayLimit → ∃ t, exec (.controlFlit port body) s = .next t ∧
        (t.port port).resendFrom = some (w 4) ∧ (t.port port).state = .up ∧
        (t.port port).replay = p.replay.filter (fun k => seqLt (w 0) k.lseq))) ∧
    (p.lastCtl + 1000 ≤ s.clk →
      exec (.controlFlitDue port) s = .next (s.updPort port (fun p => { p with ctlDue := true }))) ∧
    (p.gap = true → p.overload = 0 → p.nackAt + 2 * p.rttNs ≤ s.clk → exec (.nackRepeat port) s =
      .next (s.updPort port (fun p => { p with nackDue := true, ctlDue := true, nackAt := s.clk })))

/-- A cause of R321 at an UP port starts a retrain: more than UE_LIMIT uncorrectable codewords within 1 ms (R320), loss of
lock, a detector asserted for 10 µs, which is recorded first (R327). A finished training or retrain makes the port UP with
the partner's credits and clears its attempt count (R321, R345); a third failed attempt in a row makes it DOWN with
LINK_DOWN, an earlier one releases its buffers and starts the next (R323, R324). While a detector is asserted the port sends
no NACK; after the last one it sends one (R326). -/
def Obligations.link_retrains : Prop :=
  ∀ (s : State) (port : Nat), port < 24 →
    let p := s.port port
    (p.state = .up → p.ueLimit < (p.ueTimes.filter (fun t => decide (s.clk < t + 1000000))).length →
      exec (.codewordLimit port) s = .next ((s.startRetrain port 2).updPort port (fun p => { p with ueTimes := [] }))) ∧
    (∀ cause, 1 ≤ cause → cause ≤ 6 → p.state = .up ∨ p.state = .sleep →
      exec (.retrainStart port cause) s = .next (s.startRetrain port cause)) ∧
    (∀ rtt credits exp tpExp, credits.length = 6 → p.lanesLight = 0xFF →
      p.state = .training ∨ (p.state = .retrain ∧ s.clk ≤ p.attemptAt + 1500000) →
      ∃ t, exec (.retrainDone port rtt credits exp tpExp) s = .next t ∧ (t.port port).state = .up ∧
        (t.port port).retrainFails = 0 ∧ (t.port port).replays = 0 ∧ (t.port port).peerLost = false ∧
        (t.port port).rttNs = rtt ∧ (t.port port).credits = credits ∧
        (p.state = .retrain → p.released = false → p.replay ≠ [] →
          (t.port port).resendFrom = some exp ∧ (t.port port).replay = p.replay ∧ (t.port port).expLseq = p.expLseq) ∧
        (p.state = .training ∨ p.released = true → (t.port port).resyncDue = true ∧ (t.port port).nextLseq = 0 ∧
          (t.port port).expLseq = 0) ∧
        ∀ q, q ≠ port → t.port q = { s.port q with rxFreed := (t.port q).rxFreed, ctlDue := (t.port q).ctlDue }) ∧
    (p.state = .retrain → p.attemptAt + 1500000 ≤ s.clk → ∃ t, exec (.retrainAttemptFail port) s = .next t ∧
      (p.noFail = false → 2 ≤ p.retrainFails → (t.port port).state = .down ∧ (t.port port).dataOpen = false) ∧
      (p.retrainFails + 1 < 3 → (t.port port).state = .retrain ∨ (t.port port).state = .down)) ∧
    (∀ lanes, 0 < lanes → lanes < 256 → p.state = .up → exec (.lossOfLock port lanes) s = .next
      ((s.updPort port (fun p => { p with lanesLock := andNot p.lanesLock lanes })).startRetrain port 4)) ∧
    (∀ lane, lane < 8 → p.state = .up → p.overload = 0 → ∃ t, exec (.overloadAssert port lane) s = .next t ∧
      (t.port port).overload = 2 ^ lane ∧ (t.port port).overloads = sat32 (p.overloads + 1) ∧ (t.port port).overloadAt = s.clk ∧
      (t.port port).nackDue = p.nackDue) ∧
    (∀ lane, lane < 8 → bit p.overload lane = true → ∃ t, exec (.overloadDeassert port lane) s = .next t ∧
      (t.port port).overload = setBit p.overload lane false ∧
      (setBit p.overload lane false = 0 → (t.port port).nackDue = true ∧ (t.port port).tpNackDue = p.tpGap ∧
        (t.port port).nackAt = s.clk) ∧
      (setBit p.overload lane false ≠ 0 → (t.port port).nackDue = p.nackDue)) ∧
    (p.overload ≠ 0 → p.overloadAt + 10000 ≤ s.clk → p.state = .up → exec (.overloadTimeout port) s =
      .next ((s.record 0x0604 1 0xFF srcPort port p.overload (s.clk - p.overloadAt) 0 0).startRetrain port 4))

/-- An UP port takes the towpath flit that it expects, with its messages, and no other (R328). The oldest message of a port is
consumed here, forwarded with one hop less, or discarded with TP_DISCARD (R330, R333). A heartbeat goes out every 4 µs (R342);
a valid one that arrives names the partner and, at an UP port, opens the data channels exactly when R343 lets it; 12 µs without one, or
darkness on every lane, loses the partner (R344, R345), and light that returns lets the port train. A delivered PEER_NOTICE
is taken (R434). -/
def Obligations.towpath_and_partners : Prop :=
  ∀ (s : State) (port : Nat), port < 24 →
    let p := s.port port
    (∀ body, body.length = 252 → p.state = .up → ofBytes (body.drop 248) = crc32 (body.take 248) →
      (ofBytes (body.take 2) = p.tpExp → ∃ t, exec (.towpathFlit port body) s = .next t ∧
        (t.port port).tpExp = (p.tpExp + 1) % 2 ^ 16 ∧
        (t.port port).rxMsgs = p.rxMsgs ++ [8, 0x58, 0xA8].filterMap (fun o => TMsg.ofSlot ((body.drop o).take 80))) ∧
      (ofBytes (body.take 2) ≠ p.tpExp → ∃ t, exec (.towpathFlit port body) s = .next t ∧
        (t.port port).tpExp = p.tpExp ∧ (t.port port).rxMsgs = p.rxMsgs)) ∧
    (∀ m rest, p.rxMsgs = m :: rest →
      (m.dst = linkLocal → m.ttype = 1 ∨ ((m.ttype = 2 ∨ m.ttype = 3 ∨ m.ttype = 4) ∧ s.otherLevel m.level = false) →
        ∃ t, exec (.towpathMessage port) s = .next t ∧ t.link.msgs = s.link.msgs ++ [(port, m)] ∧ (t.port port).rxMsgs = rest) ∧
      (m.dst ≠ linkLocal → ttypeKnown m.ttype = true → 1 < m.hopsLeft → ∀ q dl, q ≠ port →
        s.lookup (port / 12) m.dst false s.tpUsable (fun _ => true) = .out q dl →
        ∃ t, exec (.towpathMessage port) s = .next t ∧ t.link.msgs = s.link.msgs ∧ (t.port port).rxMsgs = rest ∧
          t.port q = ((s.port q).queueMsg { m with hopsLeft := m.hopsLeft - 1 }).active s.clk) ∧
      (ttypeKnown m.ttype = false → ∃ t : State, exec (.towpathMessage port) s = .next (t.tpDiscard port m) ∧
        (t.port port).rxMsgs = rest ∧ t.link.msgs = s.link.msgs)) ∧
    (p.state = .up → p.hbCount = 0 ∨ p.hbSentAt + 4000 ≤ s.clk → ∃ t, exec (.heartbeatSend port) s = .next t ∧
      (t.port port).hbCount = wrap32 (p.hbCount + 1) ∧ (t.port port).ownHb = some (s.pkg.idValid, s.pkg.runLevel) ∧
      (t.port port).hbSentAt = s.clk ∧ ∃ m ∈ (t.port port).tpQueue, m.ttype = 1 ∧ m.pri = 0 ∧ m.dst = linkLocal ∧
        (s.pkg.runLevel < 16 → s.pkg.packageId < 2 ^ 20 → m.words.getD 0 0 + m.words.getD 1 0 = 2 ^ 32 - 1)) ∧
    (∀ m u, s.takeMsg port 0x01 = some (m, u) → pair32 (m.words.getD 0 0) (m.words.getD 1 0) = true →
      let w := m.words.getD 0 0
      ∃ t, exec (.heartbeat port) s = .next t ∧
        (t.port port).partner = some ⟨bit w 31, bits w 28 25, bits w 24 20, bits w 19 0⟩ ∧ (t.port port).lastHb = s.clk ∧
        (p.state = .up → ((t.port port).dataOpen = true ↔ p.ownHb = some (true, bits w 28 25) ∧ bit w 31 = true ∧
          (bit p.expect 31 = true → bits p.expect 24 20 = bits w 24 20 ∧ bits p.expect 19 0 = bits w 19 0)))) ∧
    (p.state = .up → p.lastHb + 12000 ≤ s.clk → exec (.heartbeatTimeout port) s =
      .next ((s.updPort port (fun p => { p with hbMissed := sat32 (p.hbMissed + 3) })).peerLost port 2)) ∧
    (p.state = .up → p.lanesLight < 256 → exec (.lightLoss port 0xFF) s = .next ((s.updPort port (fun p => { p with
      lanesLight := andNot p.lanesLight 0xFF, lanesLock := andNot p.lanesLock 0xFF })).peerLost port 1)) ∧
    (∀ lanes, 0 < lanes → lanes < 256 → p.state = .down → p.peerLost = true → ∃ t, exec (.lightReturn port lanes) s = .next t ∧
      (t.port port).state = .training ∧ (t.port port).lanesLight = p.lanesLight ||| lanes) ∧
    (∀ e, listFind (fun e => e.2.ttype == 0x30) s.link.msgs = some e → exec .peerNotice s =
      .next (({ s with link := { s.link with msgs := delFirst (fun x => x == e) s.link.msgs } } : State).groupsLost
        (e.2.words.getD 1 0)))

/-- The partner's PARK, or 10 µs without it, parks a port that sent PARK; a port that did not answers and parks (R346). An idle
port with nothing to send asks to sleep; an accepted request puts it to sleep with its sequence numbers kept, a refused one
does not; a port that is asked and has nothing to send answers ACK and sleeps once that has gone out (R347). A wake within 10 ms is fast when alignment is found, otherwise a full retrain (R348, R349). A child starts an
exchange every 125 µs (R351); a valid reply makes it LOCKED, stepping the time only when it was FREE and slewing it after
that (R353). -/
def Obligations.park_sleep_time : Prop :=
  ∀ (s : State) (port : Nat), port < 24 →
    let p := s.port port
    (∀ m u, s.takeMsg port 0x04 = some (m, u) → p.parkAt ≠ none →
      exec (.park port) s = .next ((u.setParked port).checkParks)) ∧
    (∀ m u, s.takeMsg port 0x04 = some (m, u) → p.parkAt = none →
      exec (.park port) s = .next ((u.sendLocal port 0x04 1 []).setParked port)) ∧
    (∀ t, p.parkAt = some t → t + 10000 ≤ s.clk → exec (.parkTimeout port) s = .next ((s.setParked port).checkParks)) ∧
    (p.state = .up → 0 < p.sleepIdle → p.lastActive + 10000 * p.sleepIdle ≤ s.clk → p.quiet = true → p.timeChild = false →
      p.sleepReq = false → ∃ t, exec (.sleepIdleTimer port) s = .next t ∧ (t.port port).sleepReq = true ∧
        (t.port port).state = .up ∧ ∃ m ∈ (t.port port).tpQueue, m.ttype = 3) ∧
    (∀ m u, s.takeMsg port 0x03 = some (m, u) → p.state = .up →
      (p.sleepReq = true → ∃ t, exec (.sleep port 1) s = .next t ∧ (t.port port).state = .sleep ∧
        (t.port port).tSleep = s.sysTime ∧ (t.port port).nextLseq = p.nextLseq ∧ (t.port port).credits = p.credits) ∧
      (∃ t, exec (.sleep port 2) s = .next t ∧ (t.port port).state = .up ∧ (t.port port).sleepReq = false) ∧
      (p.sleepReq = true → ∃ t, exec (.sleep port 0) s = .next t ∧ (t.port port).state = .sleep) ∧
      (p.sleepReq = false → p.quiet = true → ∃ t, exec (.sleep port 0) s = .next t ∧ (t.port port).state = .up ∧
        (t.port port).sleepAck = true ∧ ∃ m ∈ (t.port port).tpQueue, m.ttype = 3) ∧
      (p.sleepReq = false → p.quiet = false → ∃ t, exec (.sleep port 0) s = .next t ∧ (t.port port).state = .up ∧
        (t.port port).sleepAck = p.sleepAck)) ∧
    (p.state = .sleep → p.waking = false →
      (s.sysTime - p.tSleep ≤ 10000000 → ∃ t, exec (.wakeBurst port true) s = .next t ∧ (t.port port).waking = true ∧
        (t.port port).state = .sleep) ∧
      (10000000 < s.sysTime - p.tSleep → exec (.wakeBurst port true) s = .next (s.slowWake port 1))) ∧
    (p.state = .sleep → p.waking = true →
      (∃ t, exec (.fastWakeDone port true) s = .next t ∧ (t.port port).state = .up ∧
        (t.port port).fastWakes = sat32 (p.fastWakes + 1) ∧ (t.port port).expLseq = p.expLseq) ∧
      exec (.fastWakeDone port false) s = .next (s.slowWake port 2)) ∧
    (s.timeChildOf = true → s.time.parentPort = port → p.state = .up → ∃ t, exec .timeSyncTimer s = .next t ∧
      t.time.t1 = some s.sysTime ∧ ∃ m ∈ (t.port port).tpQueue, m.ttype = 2) ∧
    (s.timeChildOf = true → s.time.parentPort = port → p.state ≠ .up → s.time.mode = .locked →
      ∃ t, exec .timeSyncTimer s = .next t ∧ t.time.mode = .holdover ∧ t.time.rate = s.time.rate) ∧
    (∀ m u t1 t2 t3 t4 depth bound rate, s.takeMsg port 0x02 = some (m, u) → s.timeChildOf = true →
      s.time.parentPort = port → s.time.t1 ≠ none → rate.natAbs ≤ 200000 →
      let theta : Int := ((t2 - t1) - (t4 - t3)) / 2
      ∃ t, exec (.timeSync port true t1 t2 t3 t4 depth bound rate) s = .next t ∧ t.time.mode = .locked ∧
        t.time.depth = min 255 (depth + 1) ∧ t.time.errBound = sat16 bound ∧
        (s.time.mode = .free → t.time.base = s.slew.time.base + theta / 16) ∧
        (s.time.mode ≠ .free → t.time.base = s.slew.time.base ∧ t.time.rate = rate))

/-- STAGE_BIND of a record that can be read and that nothing refuses takes a free slot and answers with it, the stage and
the pipe; UNBIND frees a slot with no step (R363). SCHEDULE_LOAD sets the generated table, or a loaded one that passes R383,
and answers its length, U_MAX and its marks (R382, R384). BERTH_PUBLISH in a FREE berth, without a buddy, makes it READY or
CURRENT at once, and with one sends its mirror and waits; MAKE_CURRENT supersedes the former CURRENT berth, which stays LIVE
while something uses it; RETIRE frees a READY one (R386). STEP_RUN starts the cores, or waits behind the step that runs
(R394). No other slot changes. -/
def Obligations.pipe_commands : Prop :=
  ∀ (s : State) (path : Path) (pk : Packet) (f : Flight),
    let part := s.pathPart path
    let b := s.begun f
    let n := pk.f 0x10 6 0
    let g := s.stage n
    let k := pk.f 0x10 10 8
    (∀ host ue bs, let c := b.chargeParam f (pk.d 0x10) 192 (pk.b 0x18 7)
      pk.opcode = 0x401 → pk.f 0x18 9 8 = 1 →
      s.Begins path pk f (if pk.b 0x18 7 then [3] else s.extentRes part (s.pathDie path) (pk.d 0x10) 192) [] →
      c.paramBytes part (pk.d 0x10) 192 (pk.b 0x18 7) host ue = .ok bs →
      s.otherLevel (bits ((bytesToWords bs).getD 0 0) 3 0) = false → c.bindCause part (bytesToWords bs) = none →
      let r := StageRec.ofWords (bytesToWords bs)
      ∃ t m, exec (.stageBind path pk host ue) s = .next t ∧ m < 96 ∧ (s.stage m).bound = false ∧
        s.Completes f stDone [m, r.stage * 2 ^ 16 + r.pipe, 0, 0] t ∧
        t.stage m = { bound := true, part := part, slices := r.slices, cfg := r, spare := r.spare } ∧
        ∀ j, j ≠ m → t.stage j = s.stage j) ∧
    (pk.opcode = 0x401 → pk.f 0x18 9 8 = 2 → s.Begins path pk f [] [] →
      let m := pk.f 0x18 6 0
      m < 96 → (s.stage m).bound = true → (s.stage m).part = part → (s.stage m).steps = [] → (s.stage m).takeover = none →
      ∃ t, exec (.stageUnbind path pk) s = .next t ∧ s.Completes f stDone [] t ∧ t.stage m = {} ∧
        (∀ j, j ≠ m → t.stage j = s.stage j) ∧ ∀ e ∈ t.pipe.claims, e.2.2 ≠ m) ∧
    (pk.opcode = 0x402 → s.Stands n part → g.stepping = false → 0 < pk.w 0x14 → pk.w 0x14 ≤ 65536 →
      let sets := fun (s : State) (es : List Nat) (u : Nat) => (s.updStage n (fun g => { g with table := some es, uMax := u })).done
        f [es.length, u, (es.filter (fun e => bits e 3 0 == 5)).length, 0]
      let kind := pk.f 0x10 9 8
      let m := pk.w 0x14
      let gen := fun i => genTable kind g.cfg.p g.cfg.v i m g.cfg.markInterval
      (pk.b 0x10 12 = true → s.Begins path pk f [] [] → (kind = 2 → g.cfg.v ≠ 1 ∧ m % g.cfg.p = 0) →
        (kind ≠ 2 → g.cfg.v = 1) → (gen g.cfg.stage).length ≤ 4096 →
        let u := ((List.range g.cfg.p).map (fun i => tableUMax (gen i))).foldl max 0
        u ≤ g.cfg.retFwd.depth → u ≤ g.cfg.retBwd.depth →
        exec (.scheduleGenerate path pk) s = .next (sets b (gen g.cfg.stage) u)) ∧
      (∀ host ue bs, let c := b.chargeParam f (pk.d 0x18) (4 * pk.w 0x20) (pk.b 0x10 13)
        pk.b 0x10 12 = false →
        s.Begins path pk f (if pk.b 0x10 13 then [3] else s.extentRes part (s.pathDie path) (pk.d 0x18) (4 * min (pk.w 0x20) 4096)) [] →
        0 < pk.w 0x20 → pk.w 0x20 ≤ 4096 → pk.d 0x18 % 4 = 0 → c.paramBytes part (pk.d 0x18) (4 * pk.w 0x20) (pk.b 0x10 13) host ue = .ok bs →
        tableFault kind m g.cfg.v (bytesToWords bs) = none →
        let u := tableUMax (bytesToWords bs)
        u ≤ g.cfg.retFwd.depth → u ≤ g.cfg.retBwd.depth →
        exec (.scheduleLoad path pk host ue) s = .next (sets c (bytesToWords bs) u))) ∧
    (∀ ue, pk.opcode = 0x403 → pk.f 0x10 13 12 = 1 → s.Begins path pk f [] [] → s.Stands n part → pk.d 0x18 % 4096 = 0 →
      (g.berths.get {} k).state = .free → (∀ v, g.maxVersion = some v → v < pk.w 0x14) →
      b.unreadable part (pk.d 0x18) g.cfg.berthBytes = false →
      (g.hasBuddy = false ∨ g.cfg.berthBytes = 0 → ∃ t, exec (.berthPublish path pk ue) s = .next t ∧
        s.Completes f stDone [pk.w 0x14, if pk.b 0x10 15 then 3 else 2] t ∧
        (t.stage n).berths.get {} k = { state := if pk.b 0x10 15 then .current else .ready, version := pk.w 0x14,
                                        versionC := compl32 (pk.w 0x14), va := pk.d 0x18, currentOnDone := pk.b 0x10 15 } ∧
        (t.stage n).maxVersion = some (pk.w 0x14)) ∧
      (g.hasBuddy = true → 0 < g.cfg.berthBytes → ∃ t, exec (.berthPublish path pk ue) s = .next t ∧
        t.cmd.flights = b.cmd.flights ∧ ((t.stage n).berths.get {} k).state = .loading ∧
        ((t.stage n).berths.get {} k).cmd = some f.id ∧
        t.pipe.ckptSent.length = s.pipe.ckptSent.length + ceilDiv g.cfg.berthBytes 4096)) ∧
    (pk.opcode = 0x403 → s.Begins path pk f [] [] → s.Stands n part → (g.berths.get {} k).state = .ready →
      (pk.f 0x10 13 12 = 2 → ∃ t, exec (.makeCurrent path pk) s = .next t ∧
        s.Completes f stDone [(g.berths.get {} k).version, min (g.berths.get {} k).refs 65535 * 2 ^ 16 + 3] t ∧
        (t.stage n).berths.get {} k = { g.berths.get {} k with state := .current } ∧
        ∀ j, j < 8 → j ≠ k → (t.stage n).berths.get {} j = let x := g.berths.get {} j
          if x.state = .current then (if 0 < x.refs then { x with state := .live } else {}) else x) ∧
      (pk.f 0x10 13 12 = 3 → ∃ t, exec (.berthRetire path pk) s = .next t ∧
        s.Completes f stDone [(g.berths.get {} k).version, 0] t ∧ (t.stage n).berths.get {} k = {} ∧
        ∀ j, j ≠ k → (t.stage n).berths.get {} j = g.berths.get {} j)) ∧
    (let cores := s.sliceCores g.slices
      let r : StepRun := {
        cmd := f.id, eval := pk.b 0x10 8, step := pk.w 0x14, version := pk.w 0x18, deadline := none,
        timeoutUs := pk.w 0x1C, inputVa := pk.d 0x20, started := false,
        peerLost := g.upLost || g.downLost, peerGone := (g.upLost || g.downLost) && !g.cfg.spareEn }
      let u := b.updStage n (fun g => { g with steps := g.steps ++ [r] })
      pk.opcode = 0x404 → s.Begins path pk f [] (cores.map coreDomain).eraseDups → s.Stands n part →
      (pk.d 0x20 ≠ 0 → g.cfg.stage = 0) → g.table ≠ none → g.steps.length < 2 → g.takeover = none →
      (∃ j, j < 8 ∧ (g.berths.get {} j).state = .current ∧ (g.berths.get {} j).version = pk.w 0x18) →
      (∀ c ∈ cores, (s.core c).image ≠ none ∧
        (g.steps = [] → (s.core c).holder = .none ∧ (s.core c).state ≠ .running ∧ (s.core c).state ≠ .moving)) →
      exec (.stepRun path pk) s = .next (if g.steps.isEmpty then u.startStep n r else u))

/-- The tables that SCHEDULE_LOAD generates for FILL_DRAIN, ONE_F_ONE_B and SPLIT_BACKWARD (R382) pass the check that a
loaded table must pass (R383), for every number of micro-batches, stage and mark interval. -/
def Obligations.generated_schedules_pass : Prop :=
  ∀ kind p st m k : Nat, kind = 0 ∨ kind = 1 ∨ kind = 3 → 0 < m → m ≤ 65536 → st < p →
    tableFault kind m 1 (genTable kind p 1 st m k) = none

/-- A descriptor or a packet of a barge is judged by R372: a stale one is counted and discarded, a duplicate counted, one
beyond the window logged, any other kept in its slot; a packet for another partition than the stage's is discarded (R313); a barge that is whole, with the SEAL that its bytes have, is accepted
in order (R373). A sender marks a barge accepted or frees it (R391, R393), frees what a COMMIT names, sends what a CREDIT
makes room for (R376), and repeats a descriptor without ACCEPT after 1 ms (R375). -/
def Obligations.pipe_barges : Prop :=
  ∀ (s : State) (n : Nat) (e : Nat × TMsg),
    let m := e.2
    let u := s.heard e
    let g := s.stage n
    let kin := sKey m.dir m.vstage
    let i := g.inS kin
    let kout := g.cfg.outKey m
    let o := g.outS kout
    (s.Hears 0x01 e → s.stageOf m.pipe m.stage = some n →
      let j := g.judge m.dir m.vstage m.epoch m.value
      let i' := i.put m.value (fun x => { x with desc := (List.range 16).map m.w })
      (j = .stale → exec .bargeDesc s = .next (u.updStage n (fun g => { g with stale := sat32 (g.stale + 1) }))) ∧
      (j = .duplicate → ∃ t, exec .bargeDesc s = .next t ∧ (t.stage n).dups = sat32 (g.dups + 1) ∧ (t.stage n).ins = g.ins ∧
        (t.stage n).diverged = match listFind (fun x => x.1 == m.value) i.seals with
          | some x => if x.2 = m.w 14 then g.diverged else sat32 (g.diverged + 1)
          | none => g.diverged) ∧
      (j = .window → exec .bargeDesc s = .next (u.record 0x0703 1 g.part srcStage n m.value i.released 0 0)) ∧
      (j = .take → g.lostOf m.dir = false → pair32 (m.w 6) (m.w 7) = true →
        ((∀ x ∈ i.barges, x.bseq = m.value → x.desc = []) → (∀ x ∈ i'.barges, x.bseq = m.value → x.full = false) →
          exec .bargeDesc s = .next (u.updStage n (fun g => g.updIn kin (fun _ => i')))) ∧
        (∀ y, i.next = m.value → listFind (fun x => x.bseq == m.value) i'.barges = some y → y.full = true →
          crc32 (s.readVA g.part ((g.cfg.inRing m.dir).slotVa m.vstage m.value + 4096) (segBytes y.desc)) = m.w 14 →
          ∃ t, exec .bargeDesc s = .next t ∧ (m.value, m.w 14) ∈ ((t.stage n).inS kin).seals ∧
            ((t.stage n).inS kin).released = i.released))) ∧
    (∀ p v, s.takePacket (fun k => k.kind == 0x01) = some (p, v) →
      s.stageOf (bits p.object 15 0) (bits p.object 27 16) = some n →
      let dir := bits p.object 29 28
      let c := bits p.object 32 30
      let k := bits p.object 63 49
      let va := (g.cfg.inRing dir).slotVa c p.tag + 4096 + 4096 * k
      let w := v.chargeExtent g.part 6 va p.payload.length true
      let x := g.inS (sKey dir c)
      let j := g.judge dir c (bits p.object 48 33) p.tag
      (g.part ≠ p.dstPart → exec .bargePacket s = .next (v.partDiscard p)) ∧
      (g.part = p.dstPart → j = .stale → exec .bargePacket s = .next (v.updStage n (fun g => { g with stale := sat32 (g.stale + 1) }))) ∧
      (g.part = p.dstPart → j = .duplicate → exec .bargePacket s = .next (v.updStage n (fun g => { g with dups := sat32 (g.dups + 1) }))) ∧
      (g.part = p.dstPart → j = .window → exec .bargePacket s = .next (v.record 0x0703 1 g.part srcStage n p.tag x.released 0 0)) ∧
      (g.part = p.dstPart → j = .take → g.lostOf dir = false → 4096 + 4096 * k + p.payload.length ≤ (g.cfg.inRing dir).slotBytes →
        (∀ y ∈ x.barges, y.bseq ≠ p.tag) →
        ∃ t, exec .bargePacket s = .next t ∧ t.mem = (w.writeVA g.part va p.payload p.poison).mem ∧
          (t.stage n).inS (sKey dir c) = { x with barges := x.barges ++ [⟨p.tag, [], [k], false⟩] } ∧
          (t.stage n).outs = g.outs)) ∧
    (s.Hears 0x02 e → s.stageOf m.pipe m.stage = some n → ∃ t, exec .accept s = .next t ∧
      (bit (m.w 4) 0 = false → listFind (fun x => x.bseq == m.value) ((t.stage n).outS kout).retained =
        (listFind (fun x => x.bseq == m.value) o.retained).map (fun x => { x with accepted := true })) ∧
      (bit (m.w 4) 0 = true → ((t.stage n).outS kout).retained = o.retained.filter (fun x => x.bseq != m.value)) ∧
      (t.stage n).ins = g.ins ∧ ∀ k, k ≠ kout → (t.stage n).outS k = g.outS k) ∧
    (s.Hears 0x03 e → s.stageOf m.pipe m.stage = some n → ∃ t, exec .commit s = .next t ∧
      ((t.stage n).outS kout).retained =
        o.retained.filter (fun x => !(x.bseq == m.value || (bit (m.w 4) 0 && seqLt x.bseq m.value))) ∧
      ((t.stage n).outS kout).released = o.released ∧ (t.stage n).ins = g.ins ∧
      ∀ k, k ≠ kout → (t.stage n).outS k = g.outS k) ∧
    (∀ ue, s.Hears 0x04 e → s.stageOf m.pipe m.stage = some n →
      (o.released ≠ m.value → seqLt o.released m.value = true → ∃ t, exec (.pipeCredit ue) s = .next t ∧
        ((t.stage n).outS kout).released = m.value ∧
        ((t.stage n).outS kout).retained.map (·.bseq) = o.retained.map (·.bseq) ∧
        (g.lostOf (1 - m.dir) = false → kout < 16 → ∀ y, o.retained = [y] → y.sent = false →
          m.dir = kout / 8 → seqLt y.bseq (wrap32 (m.value + (g.cfg.inRing m.dir).depth)) = true →
          ((t.stage n).outS kout).retained.map (·.sent) = [true])) ∧
      (o.released ≠ m.value → seqLt o.released m.value = false → exec (.pipeCredit ue) s = .next u) ∧
      (o.released = m.value → ∃ t, exec (.pipeCredit ue) s = .next t ∧ t.pipe = s.pipe)) ∧
    (n < 96 → ∃ t, exec (.bargeProbe n) s = .next t ∧ (t.stage n).ins = g.ins ∧ (t.stage n).steps = g.steps ∧
      (∀ k, ((t.stage n).outS k).next = (g.outS k).next ∧ ((t.stage n).outS k).released = (g.outS k).released) ∧
      (g.probes < 2 ^ 32 → (t.stage n).probes = sat32 (g.probes +
        (g.outs.flatMap (fun x => x.2.retained.filter (fun y => !g.lostOf (1 - x.1 / 8) && (y.sent && !y.accepted &&
          decide (y.sentAt + 1000000 ≤ s.clk))))).length)))

/-- The next entry whose inputs are there is notified to LEAD_CORE's queue while fewer than NOTICE_AHEAD entries are
outstanding and its berth is there (R377, R387). A SEAL of the barge of a notified entry writes the descriptor with the
CRC-32 of its bytes and retains the barge (R378, R379); a DONE of the oldest entry releases its inbound slot (R376, R380);
one out of order ends in a program fault. A mark takes the next number and is acknowledged by the buddy (R388), or at once
without one (R390). A micro-batch that may commit does (R392). A step whose TIMEOUT_US has passed halts its cores (R395). -/
def Obligations.pipe_work : Prop :=
  ∀ (s : State) (n : Nat) (ue : List Nat),
    let g := s.stage n
    let table := g.table.getD []
    (∀ q r bb, s.Works n → s.Stepping n q r →
      let e := table.getD r.next 0
      let tag := g.entryTag r e (g.entryIn e)
      r.next < table.length → bits e 3 0 ≠ 5 → g.waitsFor r e = none → r.notices.length < g.cfg.ahead →
      g.berthOf tag = some bb → (g.berths.get {} bb).restoring = false → s.berthPoisoned g bb = false →
      ∃ t, exec (.workNotice n) s = .next t ∧
        (t.stage n).steps = [{ r with next := r.next + 1, missing := false,
                                      notices := r.notices ++ [⟨r.next, g.entryIn e, g.entryOut r e, false⟩] }] ∧
        (∃ last, t.fab = (s.sendFirmware g.cfg.leadCore g.cfg.noticeQueue (g.noticeMsg r r.next e bb last)).fab) ∧
        (bits e 3 0 = 1 → (t.stage n).mbs.map (·.committed) = g.mbs.map (·.committed) ++ [false]) ∧ t.mem = s.mem) ∧
    (∀ a r, s.Works n → g.steps = [a, r] → a.started = true → r.started = false → g.entriesDone a = true →
      (∀ c ∈ s.sliceCores g.slices, (s.core c).state = .idle) →
      exec (.workNotice n) s = .next (s.startStep n r)) ∧
    (∀ core m r x, s.pipeRequest 0 = some (core, m, n) → g.running = some r →
      listFind (fun x => x.entry == m.getD 4 0 && !x.isSealed) r.notices = some x →
      let e := table.getD (m.getD 4 0) 0
      ∀ k bseq va, x.out = some (k, bseq, va) →
        let d := bytesToWords (s.readVA g.part (msgPtr m) 64)
        let desc := fun tag => g.sealedDesc r s.pkg.runLevel (k / 8) (k % 8) bseq tag
          (crc32 (s.readVA g.part (va + 4096) (segBytes d))) d
        msgPtr m = va → bits (d.getD 0 0) 23 22 = k / 8 → bits (d.getD 0 0) 21 19 = g.cfg.dstChunk (k / 8) (k % 8) →
        d.getD 4 0 = bits e 31 16 →
        ∃ t tag, exec (.pipeSeal ue) s = .next t ∧ ((t.stage n).outS k).next = wrap32 ((g.outS k).next + 1) ∧
          ((t.stage n).outS k).retained.map (fun y => (y.bseq, y.va, y.desc)) =
            (g.outS k).retained.map (fun y => (y.bseq, y.va, y.desc)) ++ [(bseq, va, desc tag)] ∧
          t.mem.bytes = (s.writeVA g.part va (wordsToBytes (desc tag))).mem.bytes) ∧
    (∀ core m r, s.pipeRequest 0 = some (core, m, n) → g.running = some r →
      listFind (fun x => x.entry == m.getD 4 0 && !x.isSealed) r.notices = none →
      exec (.pipeSeal ue) s = .next (s.replyCore core (some pfPipeOrder))) ∧
    (∀ core m r x xs, s.pipeRequest 1 = some (core, m, n) → g.running = some r → r.notices = x :: xs → x.entry = m.getD 4 0 →
      (x.out ≠ none → x.isSealed = true) → ∃ t, exec .pipeDone s = .next t ∧
        ∀ k, ((t.stage n).inS k).released = if x.inb.map (·.1) = some k then wrap32 ((g.inS k).released + 1)
          else (g.inS k).released) ∧
    (∀ core m r x xs, s.pipeRequest 1 = some (core, m, n) → g.running = some r → r.notices = x :: xs → x.entry ≠ m.getD 4 0 →
      exec .pipeDone s = .next (s.replyCore core (some pfPipeOrder))) ∧
    (∀ q r, s.Works n → s.Stepping n q r → r.next < table.length → bits (table.getD r.next 0) 3 0 = 5 → r.notices = [] →
      g.markNo = g.markAcked → ∃ t, exec (.mark n ue) s = .next t ∧ (t.stage n).markNo = wrap32 (g.markNo + 1) ∧
        (t.stage n).markAcked = (if g.hasBuddy then g.markAcked else wrap32 (g.markNo + 1)) ∧ t.mem.bytes = s.mem.bytes) ∧
    (∀ e, s.Hears 0x08 e → s.stageOf e.2.pipe e.2.stage = some n → e.2.value = g.markNo → g.markNo ≠ g.markAcked →
      ∃ t, exec .markAck s = .next t ∧ (t.stage n).markAcked = g.markNo ∧ (t.stage n).markNo = g.markNo) ∧
    (∀ m, n < 96 → listFind g.mayCommit g.mbs = some m → ∃ t, exec (.microbatchCommit n) s = .next t ∧
      (∀ x ∈ m.recv, x.2 ∈ ((t.stage n).inS x.1).committed) ∧ (t.stage n).outs = g.outs ∧ t.mem = s.mem) ∧
    (∀ r, n < 96 → listFind (fun r => r.started && !r.timedOut && r.deadline.any (fun t => decide (t ≤ s.clk)) &&
        !s.held g.part) g.steps = some r →
      exec (.stepRunTimeout n) s = .next ((((s.updStage n (fun g => g.updStep r.cmd (fun r => { r with timedOut := true }))).haltCores
        g.part (s.sliceCores g.slices)).checkStep n)))

/-- The first LOST that a spare's package receives claims the spare stage: it takes the lost stage's number, the next EPOCH
and begins Table 11.13 (R398); with no spare it answers that there is none. A neighbour that receives TAKEOVER adopts the
new EPOCH and package, and empties the slots of barges that were not accepted (R372, R374); it is told when nothing replaces
the lost stage. RESEND_FROM sets the spare's counters of a stream (R398). -/
def Obligations.pipe_takeover : Prop :=
  ∀ (s : State) (e : Nat × TMsg) (n : Nat) (ue : List Nat),
    let m := e.2
    let u := s.heard e
    let g := s.stage n
    let stage := bits (m.w 4) 11 0
    (s.Hears 0x05 e → listFind (fun x => x.1 == m.pipe && x.2.1 == stage) s.pipe.claims = none →
      (∀ x, listFind (fun x => x.2.bound && x.2.spare && x.2.cfg.pipe == m.pipe) s.pipe.slots = some (n, x) →
        s.pipe.slots.get {} n = x → ∃ t, exec .pipeLost s = .next t ∧
          t.pipe.claims = s.pipe.claims ++ [(m.pipe, stage, n)] ∧ (t.stage n).spare = false ∧
          (t.stage n).cfg.stage = stage ∧ (t.stage n).epoch = (m.epoch + 1) % 2 ^ 16 ∧
          (t.stage n).takeovers = sat32 (g.takeovers + 1) ∧
          (t.stage n).takeover.map (fun x => (x.lostPkg, x.since)) = some (m.value, s.clk) ∧
          (if m.dir = 0 then (t.stage n).cfg.downPkg else (t.stage n).cfg.upPkg) = m.src) ∧
      (listFind (fun x => x.2.bound && x.2.spare && x.2.cfg.pipe == m.pipe) s.pipe.slots = none →
        exec .pipeLost s = .next (u.sendTakeover m.src m.dir stage 4096 m.epoch m.pipe 0xFFFFF))) ∧
    (s.Hears 0x06 e → s.stageOf m.pipe m.stage = some n →
      (m.value = 0xFFFFF → exec (.takeover ue) s = .next (u.updStage n (fun g =>
        { g with steps := g.steps.map (fun r => { r with peerGone := true }) }))) ∧
      (m.value ≠ 0xFFFFF → ∃ t, exec (.takeover ue) s = .next t ∧ (t.stage n).takeovers = sat32 (g.takeovers + 1) ∧
        (m.dir = 0 → (t.stage n).upEpoch = m.epoch ∧ (t.stage n).upLost = false ∧ (t.stage n).cfg.upPkg = m.value ∧
          (t.stage n).downEpoch = g.downEpoch) ∧
        (m.dir ≠ 0 → (t.stage n).downEpoch = m.epoch ∧ (t.stage n).downLost = false ∧ (t.stage n).cfg.downPkg = m.value ∧
          (t.stage n).upEpoch = g.upEpoch) ∧
        ∀ v, v < g.cfg.v → ∀ b ∈ ((t.stage n).inS (sKey m.dir v)).barges, b.accepted = true)) ∧
    (∀ t', s.Hears 0x07 e → s.stageOf m.pipe m.stage = some n → g.takeover = some t' → t'.stopped = true →
      ∃ t, exec .resendFrom s = .next t ∧
        ((t.stage n).inS (sKey m.dir m.vstage)).next = m.value ∧ ((t.stage n).inS (sKey m.dir m.vstage)).released = m.value ∧
        ((t.stage n).inS (sKey m.dir m.vstage)).barges = [] ∧
        ((t.stage n).outS (sKey (1 - m.dir) m.vstage)).released = m.w 5) ∧
    (∀ t', s.Hears 0x07 e → s.stageOf m.pipe m.stage = some n → g.takeover = some t' → t'.stopped = false →
      (s.ckptWaits (fun u => match u with
        | .image m _ | .area m _ | .shard m _ => m == n
        | _ => false)) = true →
      ∃ t, exec .resendFrom s = .next t ∧ ((t.stage n).inS (sKey m.dir m.vstage)).next = m.value ∧
        (t.stage n).takeover = some { t' with resent := t'.resent.filter (fun x => x.1 != sKey m.dir m.vstage) ++
          [(sKey m.dir m.vstage, m.value, m.w 4, m.w 5)] })

/-- STEP_PLAN LOAD of a plan and a service record that pass R443 and R459 loads the plan; START begins its first step; STOP
lets the running one end (R442, R444). The next entry is issued on the plan's path once nothing of the step waits, and
passed over when its EVERY does not divide the step (R443, R444). The collector gathers BUSY_US by set and step (R453), closes
a step 10 ms after its first value with the lower median, and tells each reporter whether it is over the threshold; a stage
counts its flagged steps in a row and writes LAGGARD at LAG_STEPS (R454). A record without a verdict is written after 20 ms
(R451). -/
def Obligations.training_steps : Prop :=
  (∀ (s : State) (path : Path) (pk : Packet) (f : Flight),
    let part := s.pathPart path
    let b := s.begun f
    let n := pk.f 0x10 6 0
    let g := s.stage n
    pk.opcode = 0x405 → n < 96 → g.bound = true → g.part = part →
    (∀ ue sb pb, let count := pk.f 0x14 5 0
      let c := (b.chargeParam f (pk.d 0x20) 64 false).chargeParam f (pk.d 0x18) (128 * count) false
      let v := Svc.ofWords (pk.d 0x20) (bytesToWords sb)
      let es := (List.range count).map (fun i => bytesToWords ((pb.drop (128 * i)).take 128))
      s.Begins path pk f ([(pk.d 0x20, 64), (pk.d 0x18, 128 * count)].flatMap (fun e =>
        s.extentRes part (s.pathDie path) e.1 e.2)) [] →
      pk.f 0x10 9 8 = 1 → 0 < count → count ≤ 32 → g.plan.state ≠ .running →
      c.paramBytes part (pk.d 0x20) 64 false none ue = .ok sb →
      c.paramBytes part (pk.d 0x18) (128 * count) false none ue = .ok pb →
      s.otherLevel (bits (ofBytes (sb.take 4)) 3 0) = false → s.otherLevels (c.shards part v.listVa v.listCount) = false →
      svcOk (bytesToWords sb) = true → planFault es = none → c.unreadable part v.listVa (64 * v.listCount) = false →
      stateListFault (c.shards part v.listVa v.listCount) = none →
      largestShard (c.shards part v.listVa v.listCount) ≤ v.slotBytes → c.regionOk g v = true →
      ∃ t, exec (.stepPlanLoad path pk ue) s = .next t ∧ (t.stage n).svc = some v ∧
        (t.stage n).plan = { state := .loaded, entries := es } ∧
        s.Completes f stDone [] t ∧ (g.hasBuddy = false → t.link = s.link)) ∧
    (s.Begins path pk f [] [] → pk.f 0x10 9 8 = 2 → g.plan.state = .loaded ∨ g.plan.state = .stopped → ∃ t, exec (.stepPlanStart path pk) s = .next t ∧
      s.Completes f stDone [] t ∧ (t.stage n).plan.state = .running ∧ (t.stage n).plan.step = pk.w 0x28 ∧
      (t.stage n).plan.next = 0 ∧ (t.stage n).plan.entries = g.plan.entries ∧ (t.stage n).plan.startNs = s.sysTime ∧
      (t.stage n).plan.left = (if pk.w 0x2C = 0 then none else some (pk.w 0x2C - 1))) ∧
    (s.Begins path pk f [] [] → pk.f 0x10 9 8 = 3 → ∃ t, exec (.stepPlanStop path pk) s = .next t ∧ s.Completes f stDone [] t ∧
      (t.stage n).plan = { g.plan with stopAsked := true } ∧ ∀ j, j ≠ n → t.stage j = s.stage j)) ∧
  (∀ (s : State) (n : Nat) (e : Nat × TMsg),
    let m := e.2
    let g := s.stage n
    let p := g.plan
    (n < 96 → (∀ c ∈ s.cmd.committed, c.path ≠ .plan n) → p.state = .running → g.takeover = none → p.bad = none →
      p.flying = [] → p.resumed = none → p.next < p.entries.length →
      let x := p.entries.getD p.next []
      (seqDist p.firstStep p.step % max 1 (planEvery x) ≠ 0 → ∃ t, exec (.planEntryIssue n) s = .next t ∧
        (t.stage n).plan = { p with next := p.next + 1 } ∧ t.cmd.flights = s.cmd.flights) ∧
      (seqDist p.firstStep p.step % max 1 (planEvery x) = 0 → ∃ t, exec (.planEntryIssue n) s = .next t ∧
        (t.stage n).plan = { p with next := p.next + 1, flying := [(p.next, s.cmd.nextId, p.step)] } ∧
        (s.packetStatus (.plan n) (planPacket x p.step) = none →
          t.cmd.flights.map (fun f => (f.path, f.pk)) =
            s.cmd.flights.map (fun f => (f.path, f.pk)) ++ [(.plan n, planPacket x p.step)]))) ∧
    (s.Hears 0x09 e → listFind (fun l => l.set == bits (m.w 5) 7 0 && l.step == m.w 4) s.pipe.lags = none →
      (s.pipe.slots.any (fun x => x.2.bound && x.2.svc.any (fun v =>
        v.lagEn && v.lagSet == bits (m.w 5) 7 0 && v.collector == s.pkg.packageId))) = true →
      ((s.pipe.lags.map (·.set)).eraseDups.length < 16 ∨ bits (m.w 5) 7 0 ∈ s.pipe.lags.map (·.set)) →
      ∃ t, exec .stepTime s = .next t ∧ t.pipe.lags = s.pipe.lags ++ [⟨bits (m.w 5) 7 0, m.w 4, s.clk,
        [(m.src, bits (m.w 5) 15 8, m.pipe, m.stage, m.value)], false⟩] ∧ t.pipe.slots = s.pipe.slots) ∧
    (∀ set l, listFind (fun l => l.set == set && !l.closed && decide (l.since + 10000000 ≤ s.clk)) s.pipe.lags = some l →
      ∃ t, exec (.lagClose set) s = .next t ∧ t.pipe.slots = s.pipe.slots ∧
        t.pipe.lags = updFirst (fun x => x == l) (fun x => { x with vals := [], closed := true }) s.pipe.lags) ∧
    (∀ r, s.Hears 0x0A e → s.stageOf m.pipe m.stage = some n → listFind (fun r => r.step == m.w 4) g.records = some r →
      ∃ t, exec .lagVerdict s = .next t ∧ (t.stage n).records = delFirst (fun x => x == r) g.records ∧
        (t.stage n).medianUs = m.value ∧
        (t.stage n).lagRun = (if bit (m.w 5) 0 then sat32 (g.lagRun + 1) else 0)) ∧
    (∀ r, n < 96 → listFind (fun r => decide (r.endAt + 20000000 ≤ s.clk)) g.records = some r →
      ∃ t, exec (.stepRecordTimeout n) s = .next t ∧ (t.stage n).records = delFirst (fun x => x == r) g.records ∧
        (t.stage n).lagRun = 0 ∧ (t.stage n).medianUs = g.medianUs))

/-- GROUP_BIND of a record that can be read and that R411 lets through takes a free slot with the collective counter at zero
and answers slot, GROUP_DIGEST and R; a group of one member is READY at once; STANDBY binds without HELLO; UNBIND frees a slot
with no collective (R410, R412). A reduction, an ALLTOALL or a PERMUTE_RESHARD that nothing of Table 12.9 refuses takes the
group's next COLL_SEQ; while the group is not READY it is held, with nothing read, sent or written (R413). No other group
changes. -/
def Obligations.coll_commands : Prop :=
  (∀ (s : State) (path : Path) (pk : Packet) (f : Flight) (ue : List Nat),
    let part := s.pathPart path
    let b := s.begun f
    let n := pk.f 0x10 5 0
    let g := s.group n
    (∀ host hd bs, pk.opcode = 0x504 →
      s.Begins path pk f (if pk.b 0x18 7 then [3] else s.extentRes part (s.pathDie path) (pk.d 0x10) 64) [] →
      let len := 64 + 4 * (bits (ofBytes (hd.take 4)) 21 8 + 1)
      let c := b.chargeParam f (pk.d 0x10) len (pk.b 0x18 7)
      let x := Group.ofWords (bytesToWords bs)
      (if pk.b 0x18 7 then Except.ok ((host.getD []).take 64) else b.paramBytes part (pk.d 0x10) 64 false none ue) = .ok hd →
      s.otherLevel (bits (ofBytes (hd.take 4)) 3 0) = false →
      c.paramBytes part (pk.d 0x10) len (pk.b 0x18 7) host ue = .ok bs →
      let binds := fun (t : State) (standby : Bool) =>
        ∃ m, m < 64 ∧ (s.group m).bound = false ∧ s.Completes f stDone [m, x.digest, x.size, 0] t ∧
          (t.group m).bound = true ∧ (t.group m).part = part ∧ (t.group m).standby = standby ∧
          (t.group m).members = x.members ∧ (t.group m).rank = x.rank ∧ (t.group m).counter = 0 ∧
          (t.group m).state = (if x.size = 1 ∧ standby = false then .ready else .waiting) ∧
          (∀ j, j ≠ m → t.group j = s.group j) ∧ (standby = true → t.link = s.link)
      (pk.f 0x18 9 8 = 1 → c.groupCause part false (bytesToWords bs) = none →
        ∃ t, exec (.groupBind path pk host ue) s = .next t ∧ binds t false) ∧
      (pk.f 0x18 9 8 = 3 → c.groupCause part true (bytesToWords bs) = none →
        ∃ t, exec (.groupStandby path pk host ue) s = .next t ∧ binds t true)) ∧
    (pk.opcode = 0x504 → pk.f 0x18 9 8 = 2 → s.Begins path pk f [] [] →
      let m := pk.f 0x18 5 0
      (s.group m).bound = true → (s.group m).part = part → (s.group m).colls = [] →
      ∃ t, exec (.groupUnbind path pk) s = .next t ∧ t.group m = {} ∧ (∀ j, j ≠ m → t.group j = s.group j) ∧
        s.Completes f stDone [m, (s.group m).digest, (s.group m).size, 0] t) ∧
    (s.Begins path pk f (if g.size < 2 then [] else if part = 0 then [] else [4]) [] → s.groupOpen n = true →
      g.bound = true → g.part = part →
      (let c := fun (op : CollOp) => ({ cmd := f.id, seq := 0, op := op, opcode := 0x501, pk := pk } : Coll)
       let fits := fun (op : CollOp) => let e := (c op).redExtents g
         (c op).redCause g = none ∧ b.extentsStatus part (e.1 :: e.2.2.take 1) (e.2.1 :: e.2.2.drop 1) = none
       pk.opcode = 0x501 →
       (pk.f 0x10 29 28 = 0 → fits .allreduce →
         exec (.allreduce path pk ue) s = .next (b.enterColl n (c .allreduce) ue)) ∧
       (pk.f 0x10 29 28 = 1 → fits .reduceScatter →
         exec (.reduceScatter path pk ue) s = .next (b.enterColl n (c .reduceScatter) ue)) ∧
       (pk.f 0x10 29 28 = 2 → fits .allgather →
         exec (.allgather path pk ue) s = .next (b.enterColl n (c .allgather) ue))) ∧
      (let len := fun (op : CollOp) =>
         4 * g.size * ({ cmd := f.id, seq := 0, op := op, opcode := 0x502, pk := pk } : Coll).experts * (if op = .dispatch then 1 else 2)
       let u := fun (op : CollOp) => b.chargeParam f (pk.d 0x20) (len op) false
       let c := fun (op : CollOp) =>
         let c1 : Coll := { cmd := f.id, seq := 0, op := op, opcode := 0x502, pk := pk,
                            counts := bytesToWords ((u op).readVA part (pk.d 0x20) (len op)) }
         { c1 with sentRows := c1.rowsSent g }
       let fits := fun (op : CollOp) => b.unreadable part (pk.d 0x20) (len op) = false ∧
         b.extentPoison ue part (pk.d 0x20) (len op) = false ∧ (c op).rowsCause g = none ∧
         (u op).extentsStatus part ((c op).rowExtents g).1 ((c op).rowExtents g).2 = none
       pk.opcode = 0x502 →
       (pk.f 0x10 8 8 = 0 → fits .dispatch →
         exec (.alltoallDispatch path pk ue) s = .next ((u .dispatch).enterColl n (c .dispatch) ue)) ∧
       (pk.f 0x10 8 8 = 1 → fits .combine →
         exec (.alltoallCombine path pk ue) s = .next ((u .combine).enterColl n (c .combine) ue))) ∧
      (let u := b.chargeParam f (pk.d 0x28) (4 * g.size) false
       let c : Coll := { cmd := f.id, seq := 0, op := .permute, opcode := 0x503, pk := pk,
                         perm := bytesToWords (u.readVA part (pk.d 0x28) (4 * g.size)) }
       pk.opcode = 0x503 → b.unreadable part (pk.d 0x28) (4 * g.size) = false →
       u.extentPoison ue part (pk.d 0x28) (4 * g.size) = false → c.permCause g = none →
       u.extentsStatus part [] [(pk.d 0x18, pk.d 0x20)] = none →
       exec (.permuteReshard path pk ue) s = .next (u.enterColl n c ue)))) ∧
  (∀ (s : State) (n : Nat) (c : Coll) (ue : List Nat),
    let g := s.group n
    let t := s.enterColl n c ue
    (t.group n).counter = wrap32 (g.counter + 1) ∧
    (g.state = .waiting → (t.group n).colls = g.colls ++ [{ c with seq := g.counter }] ∧ t.mem = s.mem ∧ t.link = s.link ∧
      t.cmd = s.cmd ∧ ∀ j, j ≠ n → t.group j = s.group j))

/-- The result of a block under EXACT is the same in whatever order the contributions are added (R422). Every unit of a
tensor is owned by exactly one rank, in rank order (R421). The positions at which a DISPATCH places rows are all those below
the capacity and the number of rows, each once (R429). -/
def Obligations.coll_values : Prop :=
  (∀ (s : State) (g : Group) (c : Coll) (b : Nat) (ps qs : List (List Byte)), c.ordered = false → c.g8 = false → ps.Perm qs →
    s.formUnit g c b ps = s.formUnit g c b qs) ∧
  (∀ n r : Nat, 0 < r → (ownedBy n 0 r).1 = 0 ∧ (ownedBy n (r - 1) r).2 = unitsOf n ∧
    ∀ q, (ownedBy n q r).2 = (ownedBy n (q + 1) r).1 ∧ (ownedBy n q r).1 ≤ (ownedBy n q r).2) ∧
  (∀ (c : Coll) (g : Group) (cs : List (List Nat)) (total : Nat), c.op = .dispatch →
    total = ((List.range c.experts).flatMap (fun e => (List.range g.size).map (fun q => (cs.getD q []).getD e 0))).foldl
      (· + ·) 0 →
    (((List.range g.size).flatMap (c.positions g cs)).filterMap id).Perm (List.range (min (c.pk.w 0x30) total)))

/-- A collective packet of an unbound group, a replaced member or an INDEX already received is discarded, and one for another
partition with R313's record; another is kept, and the collective goes on (R416). A remote write into the scratch of its group is written and acknowledged, a remote read of it
answered, and any other refused with COLL_RMEM_REFUSED (R418). An answer that is not the last of its chunk or region only
leaves the requests outstanding, with its data written where it belongs (R433, R437). -/
def Obligations.coll_packets : Prop :=
  ∀ (s : State) (p : CPacket) (v : State) (n : Nat) (ue : List Nat),
    let g := s.group n
    (s.takePacket (fun k => k.kind == 0x10) = some (p, v) →
      let ph := bits p.object 63 60
      let src := bits p.object 59 46
      let i := bits p.object 29 0
      (s.groupOf p.tag = none → exec (.collPacket ue) s = .next v) ∧
      (s.groupOf p.tag = some n → g.part ≠ p.dstPart → exec (.collPacket ue) s = .next (v.partDiscard p)) ∧
      (s.groupOf p.tag = some n → g.part = p.dstPart → g.pkgOf src ≠ p.srcPkg → exec (.collPacket ue) s = .next v) ∧
      (∀ c, s.groupOf p.tag = some n → g.standby = false → g.part = p.dstPart → src < g.size → g.pkgOf src = p.srcPkg →
        g.collMod (bits p.object 45 30) = some c → c.started = true → ph ∈ c.phases →
        (c.got.any (fun x => x.phase == ph && x.src == src && x.index == i) = true → exec (.collPacket ue) s = .next v) ∧
        (c.got.any (fun x => x.phase == ph && x.src == src && x.index == i) = false → c.rowsOp = false →
          exec (.collPacket ue) s = .next (((v.updColl n c.seq (fun c => { c with
            got := c.got ++ [⟨ph, src, i, p.payload, p.poison⟩] })).driveColl n c.seq ue).startColls n ue)))) ∧
    (s.takePacket (fun k => k.kind == 0x20) = some (p, v) →
      let va := bits p.object 47 0
      let m := bits p.object 63 48
      (s.groupOf p.tag = none → exec (.rmemWrite ue) s = .next (v.rmemRefused p)) ∧
      (s.groupOf p.tag = some n → g.part ≠ p.dstPart ∨ g.inScratch va p.payload.length = false →
        exec (.rmemWrite ue) s = .next (v.rmemRefused p)) ∧
      (s.groupOf p.tag = some n → g.part = p.dstPart → g.inScratch va p.payload.length = true → g.collMod m = none →
        let w := v.chargeExtent g.part 6 va p.payload.length true
        ∃ t, exec (.rmemWrite ue) s = .next t ∧ t.mem = (w.writeVA g.part va p.payload p.poison).mem ∧
          (t.group n).early = g.early ++ [(m, va - g.scratchVa)] ∧ (t.group n).colls = g.colls)) ∧
    (s.takePacket (fun k => k.kind == 0x21) = some (p, v) →
      let va := bits p.object 47 0
      let len := ofBytes (p.payload.take 4)
      (s.groupOf p.tag = some n → g.part = p.dstPart → g.inScratch va len = true →
        exec (.rmemRead ue) s = .next ((v.chargeExtent g.part 6 va len false).sendPacket g.part 0x22 5 p.srcPkg
          (g.partFor p.srcPkg) p.object p.tag (v.readVA g.part va len) (v.extentPoison ue g.part va len)).1) ∧
      (s.groupOf p.tag = none → s.acceptFor p.srcPkg p.dstPart va len = none →
        exec (.rmemRead ue) s = .next (v.rmemRefused p))) ∧
    (∀ r w c, s.takePacket (fun k => k.kind == 0x22) = some (p, v) → v.rmemAnswer p = some (r, w) →
      s.collOf r.slot r.seq = some c → r.what = 1 → w.rmemWaits r.slot r.seq 1 0 = true →
      exec (.rmemData ue) s = .next (w.writeVA (s.group r.slot).part r.va p.payload p.poison)) ∧
    (∀ r w, s.takePacket (fun k => k.kind == 0x23) = some (p, v) → v.rmemAnswer p = some (r, w) →
      (w.rmemWaits r.slot r.seq 0 r.chunk = true → exec (.rmemAck ue) s = .next w) ∧
      (w.rmemWaits r.slot r.seq 0 r.chunk = false → w.rmemWaits r.slot r.seq 2 r.chunk = false →
        exec (.rmemAck ue) s = .next ((w.updColl r.slot r.seq (fun c => { c with
          acked := if c.acked.contains r.chunk then c.acked else c.acked ++ [r.chunk] })).driveGroup r.slot ue)))

/-- A HELLO is answered with REPLY; a REPLY with another digest makes the group MISMATCHED, and its collectives end; the last
REPLY with the group's own makes it READY; HELLO goes out again after 100 µs (R412, R413). A START with another digest ends a
started collective with PARAM_MISMATCH (R414). Credits and FAILs that come before their collective are kept (R417); a FAIL
ends one that is there. A lost rank is noted once, and re-shards without BUDDY_SAFE end (R434, R437); a REJOIN replaces its
entry (R436); a rejoining member takes the lowest COLL_SEQ of the STATEs (R435); after REJOIN_WAIT_US every held collective
ends (R434). -/
def Obligations.coll_messages : Prop :=
  ∀ (s : State) (n : Nat) (m : TMsg) (v : State) (ue : List Nat),
    let g := s.group n
    let src := bits (m.words.getD 0 0) 13 0
    let seq := m.words.getD 2 0
    let val := m.words.getD 3 0
    let hears := fun (csub : Nat) => s.takeCtl csub = some (m, v) ∧ s.groupOf (m.words.getD 1 0) = some n
    (hears 0x01 → g.standby = false →
      (bit (m.words.getD 4 0) 0 = false → exec (.hello ue) s = .next (v.collCtl n src 0x01 0 g.digest 1)) ∧
      (bit (m.words.getD 4 0) 0 = true → g.state = .waiting → src ∈ g.ring → src ∉ g.replies →
        (val ≠ g.digest → ∃ t, exec (.hello ue) s = .next t ∧ (t.group n).state = .mismatched ∧ (t.group n).colls = []) ∧
        (val = g.digest → (∀ r ∈ g.ring, r ≠ src → r ∈ g.replies) → g.colls = [] → ∃ t, exec (.hello ue) s = .next t ∧
          (t.group n).state = .ready ∧ t.link = v.link))) ∧
    (n < 64 → g.bound = true → g.standby = false → g.state = .waiting → g.helloAt + 100000 ≤ s.clk →
      ∃ t, exec (.helloRepeat n) s = .next t ∧ (t.group n).helloAt = s.clk ∧ (t.group n).state = .waiting ∧
        (t.group n).colls = g.colls ∧ t.mem = s.mem) ∧
    (hears 0x02 →
      (∀ c, s.collOf n seq = some c → c.started = true →
        (c.digest = val → exec .collStart s = .next v) ∧
        (c.digest ≠ val → ∃ t, exec .collStart s = .next t ∧ (t.group n).colls = g.colls.filter (fun c => c.seq != seq))) ∧
      (s.collOf n seq = none → g.past seq = false → ∃ t, exec .collStart s = .next t ∧
        (t.group n).starts = g.starts ++ [(src, seq, val)])) ∧
    (hears 0x03 →
      (s.collOf n seq = none → g.past seq = false → ∃ t, exec (.collCredit ue) s = .next t ∧
        (src, seq, bits (m.words.getD 4 0) 3 0, val) ∈ (t.group n).credits) ∧
      (∀ c, s.collOf n seq = some c → c.started = true → bits (m.words.getD 4 0) 3 0 ≠ 6 →
        let raise := updFirst (fun (o : CollOut) => o.phase == bits (m.words.getD 4 0) 3 0 && o.peer == src)
          (fun o => { o with limit := max o.limit val })
        exec (.collCredit ue) s = .next ((v.updColl n seq (fun c => { c with outs := raise c.outs })).driveGroup n ue))) ∧
    (hears 0x04 →
      (∀ c, s.collOf n seq = some c → ∃ t, exec (.collFail ue) s = .next t ∧ t.collOf n seq = none) ∧
      (s.collOf n seq = none → g.past seq = false → ∃ t, exec (.collFail ue) s = .next t ∧
        (t.group n).fails = g.fails ++ [(seq, bits val 7 0)])) ∧
    (hears 0x05 → g.bound = true → g.standby = false → val ≠ g.rank → val < g.size →
      (g.lost.any (fun e => e.1 == val) = true → exec .collLost s = .next v) ∧
      (g.lost.any (fun e => e.1 == val) = false → ∃ t, exec .collLost s = .next t ∧
        (t.group n).lost = g.lost ++ [(val, s.clk)] ∧ ∀ c ∈ (t.group n).colls, c.unsafeMove = false)) ∧
    (hears 0x06 → g.standby = false → m.words.getD 4 0 < g.size → m.words.getD 4 0 ≠ g.rank →
      ∃ t, exec (.rejoin ue) s = .next t ∧ ∀ i, i < g.size → (t.group n).pkgOf i =
        if i = m.words.getD 4 0 then bits val 19 0 else g.pkgOf i) ∧
    (hears 0x07 → g.rejoining = true → ∃ t, exec .collState s = .next t ∧
      (t.group n).counter = (if g.states.isEmpty || seqLt val g.counter then val else g.counter) ∧
      (t.group n).states = g.states.filter (fun e => e.1 != src) ++ [(src, val, m.words.getD 4 0)]) ∧
    (n < 64 → (∃ e ∈ g.lost, e.2 + 1000 * g.rejoinUs ≤ s.clk) → ∃ t, exec (.rejoinWaitExpire n) s = .next t ∧
      (t.group n).colls = [] ∧ t.mem = s.mem)

/-- CKPT_BUDDY ACCEPT registers its extent in a free accept slot and REVOKE frees it (R457, R460). A WRITE that nothing
refuses snapshots the header and starts with the list's first commit group (Table 13.12). A CKPT_DRAIN stands in the list of
jobs with its host extents (R467). EXPORT_SHARDS to partition memory writes the image of the listed shards and answers pages,
entries, STEP and the digest's first word, with PARTIAL_FAULT when a shard was poisoned (R468, R469). RESTORE from the host
judges and applies the image that the extents hold (R470, R471). -/
def Obligations.ckpt_commands : Prop :=
  ∀ (s : State) (path : Path) (pk : Packet) (f : Flight) (ue : List Nat),
    let part := s.pathPart path
    let b := s.begun f
    let n := pk.f 0x10 6 0
    let g := s.stage n
    (pk.opcode = 0x601 → s.Begins path pk f [] [] → n < 96 →
      (pk.f 0x10 9 8 = 2 → pk.w 0x14 = 0 → pk.d 0x18 % 2 ^ 21 = 0 → pk.d 0x20 % 2 ^ 21 = 0 → s.pipe.accepts.get none n = none →
        ∃ t, exec (.ckptBuddyAccept path pk) s = .next t ∧ s.Completes f stDone [] t ∧
          t.pipe.accepts.get none n = some ⟨part, pk.d 0x18, pk.d 0x20, pk.f 0x28 27 20, pk.f 0x28 19 0⟩ ∧
          ∀ k, k ≠ n → t.pipe.accepts.get none k = s.pipe.accepts.get none k) ∧
      (∀ a, pk.f 0x10 9 8 = 3 → s.pipe.accepts.get none n = some a → a.part = part →
        ∃ t, exec (.ckptBuddyRevoke path pk) s = .next t ∧ s.Completes f stDone [] t ∧ t.pipe.accepts.get none n = none ∧
          ∀ k, k ≠ n → t.pipe.accepts.get none k = s.pipe.accepts.get none k)) ∧
    (∀ v, n < 96 → g.bound = true → g.part = part → g.svc = some v →
      b.unreadable part v.listVa (64 * v.listCount) = false →
      let l := b.shards part v.listVa v.listCount
      (pk.opcode = 0x601 → pk.f 0x10 9 8 = 1 → s.Begins path pk f [4] [] → (∀ i, i < 5 → pk.w (0x18 + 4 * i) = 0) →
        g.hasBuddy = true → g.stepping = false → g.write = none → s.otherLevels l = false → stateListFault l = none →
        largestShard l ≤ v.slotBytes →
        (s.lookup 0 g.cfg.buddyPkg false s.dataUsable (s.granted part) = .here ∨
          ∃ p dl, s.lookup 0 g.cfg.buddyPkg false s.dataUsable (s.granted part) = .out p dl) →
        let w : CkptWrite := ⟨f.id, part, pk.w 0x14, g.header l (pk.w 0x14) v.seed, commitGroups l, [], 0, 0, 0⟩
        exec (.ckptBuddyWrite path pk ue) s =
          .next (((b.updStage n (fun g => { g with write := some w })).writeNext n ue).writeCheck n)) ∧
      (∀ host, pk.opcode = 0x602 → s.Begins path pk f [3, 4] [] → pk.f 0x14 11 0 ≠ 0 → g.hasBuddy = true →
        host.length = 16 * pk.f 0x14 11 0 → extentsHold (extentList host) (imageLayout l).2 = true →
        let c := b.charge part 3 (16 * pk.f 0x14 11 0)
        let j : CkptJob := ⟨f.id, n, true, path, part, 0, extentList host, [], []⟩
        exec (.ckptDrain path pk (some host)) s = .next ((({ c with pipe := { c.pipe with
          jobs := c.pipe.jobs ++ [j] } } : State).jobNext f.id).jobCheck)) ∧
      (∀ img, pk.opcode = 0x604 → pk.f 0x10 9 8 = 0 → s.Begins path pk f [3] [] → pk.f 0x14 11 0 ≠ 0 →
        g.plan.state ≠ .running → g.stepping = false → b.shardsFault part l true = none →
        exec (.restore path pk (some img) ue) s = .next ((b.charge part 3 (16 * pk.f 0x14 11 0 + img.length)).restoreImage f n l
          (fun o k => (img.drop o).take k) (fun o k => decide (img.length < o + k))))) ∧
    (let count := pk.f 0x10 11 0
     let c := b.chargeParam f (pk.d 0x18) (64 * count) false
     let l := c.shards part (pk.d 0x18) count
     let xs := l.map (c.liveShard part ue)
     pk.opcode = 0x603 → pk.b 0x10 12 = false →
     s.Begins path pk f (s.extentRes part (s.pathDie path) (pk.d 0x18) (64 * count)) [] → 0 < count → count ≤ 2048 →
     b.unreadable part (pk.d 0x18) (64 * count) = false → b.extentPoison ue part (pk.d 0x18) (64 * count) = false →
     s.otherLevels l = false → (∀ x ∈ l, x.ok = true) → c.shardsFault part l false = none →
     c.extentFault part (pk.d 0x20) (imageLayout l).2 true = none → c.extentAsleep part (pk.d 0x20) (imageLayout l).2 = false →
     ∃ t header, exec (.exportShards path pk none ue) s = .next t ∧ header.length = 512 ∧
       (∀ i, i < 0x14 ∨ (0x20 ≤ i ∧ i < 0x28) → header.getD i 0 =
         (wordsToBytes (manifestWords 0x101 count (pk.w 0x14) 0 0 0 (imageLayout l).2 [] 0 [])).getD i 0) ∧
       s.Completes f (imageStatus xs) (imageWords (imageOf header xs (pk.w 0x14)) (pk.w 0x14)) t ∧ t.pipe = s.pipe)

/-- The manifest of an image that a drain or an export makes (R466) has the length of its header and entries, holds the
MANIFEST_DIGEST that RESTORE computes (R470), and reading its entries gives each shard's record, digest, offset, bytes, scale
bytes and POISONED back. A directory entry reads back as the slot, STEP and BYTES that it was made of (Table 13.10). -/
def Obligations.image_round_trip : Prop :=
  (∀ (header : List Byte) (xs : List ImageShard) (step : Nat), header.length = 512 →
    (∀ x ∈ xs, x.shard.words.length = 16 ∧ (∀ w ∈ x.shard.words, w < 2 ^ 32) ∧ x.shard.scaleBytes < 2 ^ 32) →
    (imageLayout (xs.map (·.shard))).2 < 2 ^ 64 →
    let img := imageOf header xs step
    img.1.length = 512 + 128 * xs.length ∧ img.2.map (·.2) = xs ∧
    sha256 (img.1.take 0x1E0 ++ List.replicate 32 0 ++ img.1.drop 512) = (img.1.drop 0x1E0).take 32 ∧
    imageEntries img.1 xs.length = img.2.map (fun e => (e.2.shard.words, shardDigest (e.2.out e.1), e.1, e.2.shard.bytes,
      e.2.shard.scaleBytes, e.2.poisoned))) ∧
  (∀ slot step n : Nat, slot < 2 ^ 16 → step < 2 ^ 32 → n < 2 ^ 64 →
    (dirBytes slot step n).length = 32 ∧ dirEntry (dirBytes slot step n) = some (true, slot, step, n))

/-- DATA and DIR packets whose bytes lie in an extent accepted for their source are stored, and a READ there is answered; any
other is discarded with CKPT_REFUSED (R456, R457). The acknowledgement of the last packet of a berth's mirror makes the berth
ready (R386); that of a WRITE lets it go on (Table 13.12). Bytes of a berth that come back are written, and with the last of
them the berth is whole (R387). -/
def Obligations.ckpt_packets : Prop :=
  ∀ (s : State) (p : CPacket) (v : State) (src : Nat),
    let n := p.payload.length
    let stored := (v.chargeExtent p.dstPart 6 p.ckptVa n true).writeVA p.dstPart p.ckptVa p.payload p.poison
    (∀ mark, s.takePacket (fun k => k.kind == 0x30 && !(decide (2 ≤ k.sub) && decide (k.sub ≤ 5))) = some (p, v) → p.sub = 1 →
      (s.ckptAccepted p src n true = true → ∃ t, exec (.ckptData src mark) s = .next t ∧ t.mem = stored.mem ∧
        t.pipe = s.pipe) ∧
      (s.ckptAccepted p src n true = false → exec (.ckptData src mark) s = .next (v.ckptRefused p))) ∧
    (s.takePacket (fun k => k.kind == 0x30 && k.sub == 2) = some (p, v) →
      (s.ckptAccepted p src n true = true → ∃ t, exec (.ckptDir src) s = .next t ∧ t.mem = stored.mem ∧ t.pipe = s.pipe) ∧
      (s.ckptAccepted p src n true = false → exec (.ckptDir src) s = .next (v.ckptRefused p))) ∧
    (∀ ue, s.takePacket (fun k => k.kind == 0x30 && k.sub == 4) = some (p, v) →
      let len := ofBytes (p.payload.take 4)
      let c := v.chargeExtent p.dstPart 6 p.ckptVa len false
      (len ≤ 4096 → s.ckptAccepted p src len false = true → ∃ t, exec (.ckptRead src ue) s = .next t ∧ t.mem = c.mem ∧ c.mem.bytes = s.mem.bytes ∧
        (c.lookup 0 p.srcPkg false c.dataUsable (c.granted p.dstPart) = .here → ∃ k, t.link.inbox = v.link.inbox ++ [k] ∧
          k.payload = c.readVA p.dstPart p.ckptVa len ∧ k.tag = p.tag ∧ k.object = ckptObject 5 p.ckptVa)) ∧
      (4096 < len ∨ s.ckptAccepted p src len false = false → exec (.ckptRead src ue) s = .next (v.ckptRefused p))) ∧
    (∀ ue u w, s.takePacket (fun k => k.kind == 0x30 && k.sub == 3) = some (p, v) → v.ckptMatch p = some (u, w) →
      (∀ m b, u = .berth m b → w.ckptWaits (fun u => u == .berth m b) = false →
        exec (.ckptAck ue) s = .next (w.berthReady m b)) ∧
      (∀ m, u = .write m → exec (.ckptAck ue) s = .next ((w.writeAcked m ue).ckptGoOn m ue))) ∧
    (∀ ue m b va w, s.takePacket (fun k => k.kind == 0x30 && k.sub == 5) = some (p, v) →
      v.ckptMatch p = some (.berthBack m b va, w) →
      ∃ t, exec (.ckptReadData ue) s = .next t ∧ t.mem = (w.writeVA (s.stage m).part va p.payload p.poison).mem ∧
        ((∀ c ∈ w.pipe.ckptSent, ∀ x, c.what ≠ .berthBack m b x) → ((t.stage m).berths.get {} b).restoring = false) ∧
        ((∃ c ∈ w.pipe.ckptSent, ∃ x, c.what = .berthBack m b x) → t.stage m = s.stage m))

/-- MODEL_BIND of a record that nothing refuses takes a free slot and a KV pool of its own, starts the cores and answers
the slot and the model (R475, R476). UNBIND ends the model's sequences and, its cores ended, frees the slot. AST_ADMIT takes a
FREE entry and an unused KV list and answers the entry and its number (R479). AST_RETIRE ends a sequence at once, or marks it
for the boundary when the running step has it (R480). DEADLINE_SET commits the deadline when a predicted finish meets it, and
answers the earliest of them (R490, R491). FALLBACK_BIND shares the primary's pool and sets or clears the fallback (R489). -/
def Obligations.serving_commands : Prop :=
  ∀ (s : State) (path : Path) (pk : Packet) (f : Flight),
    let part := s.pathPart path
    let b := s.begun f
    let i := pk.f 0x10 15 0
    (∀ host ue ws, let c := b.chargeParam f (pk.d 0x10) 128 (pk.b 0x18 7)
      let r := ModelRec.ofWords ws
      pk.opcode = 0x705 → pk.f 0x18 9 8 = 1 → pk.f 0x18 5 0 = 0 →
      s.Begins path pk f (if pk.b 0x18 7 then [3] else s.extentRes part (s.pathDie path) (pk.d 0x10) 128)
        ((s.sliceCores r.slices).map coreDomain).eraseDups →
      (∀ u, u = s ∨ u = c → u.modelWords part pk host ue = .ok ws ∧ u.modelCause part ws = none) →
      s.otherLevel (bits (ws.getD 0 0) 3 0) = false →
      ∃ n pool, n < 64 ∧ (s.model n).bound = false ∧ (∀ e ∈ s.serv.models, e.2.bound = true → e.2.pool ≠ pool) ∧
        exec (.modelBind path pk host ue) s = .next (((c.updModel n (fun _ =>
          { bound := true, part := part, slices := r.slices, cfg := r, pool := pool })).startModel n).done f
          [n, r.modelId, 0, 0])) ∧
    (let n := pk.f 0x18 5 0
     let m := s.model n
     pk.opcode = 0x705 → pk.f 0x18 9 8 = 2 → pk.d 0x10 = 0 → pk.b 0x18 7 = false → s.Begins path pk f [] [] →
     m.bound = true → m.closing = none → m.part = part → s.held part = false →
     (∀ c ∈ s.sliceCores m.slices, (s.core c).state.ended = true) → (∀ e ∈ s.serv.ast, ∀ a, e.2 = some a → a.cmd = none) →
     ∃ t, exec (.modelUnbind path pk) s = .next t ∧ s.Completes f stDone [] t ∧ t.model n = {} ∧
       (∀ k, (t.model k).fallback ≠ some n) ∧ ∀ j a, t.ast j = some a → a.slot ≠ n ∧ s.ast j = some a) ∧
    (let n := pk.f 0x14 5 0
     let m := s.model n
     let lists := (s.poolEntries m.pool).map (fun e => e.2.kvList)
     let prompt := pk.w 0x18
     let maxNew := pk.w 0x1C
     pk.opcode = 0x701 → s.Begins path pk f [] [] → s.servUsed part < s.serv.quotas.get 0 part →
     m.bound = true → m.closing = none → m.part = part → 0 < prompt → 0 < maxNew → pk.d 0x20 % 4 = 0 → pk.d 0x28 % 8 = 0 →
     pk.d 0x20 + 4 * prompt ≤ 2 ^ 48 → pk.d 0x28 + 8 * maxNew ≤ 2 ^ 48 → prompt + maxNew ≤ m.cfg.listLen * m.cfg.blockTokens →
     ceilDiv (prompt + 1) m.cfg.blockTokens ≤ m.cfg.blocks → (∃ h, h < m.cfg.maxSeqs ∧ h ∉ lists) →
     (∃ j, j < 65536 ∧ s.ast j = none) →
     ∃ t j h, exec (.astAdmit path pk) s = .next t ∧ j < 65536 ∧ s.ast j = none ∧ h < m.cfg.maxSeqs ∧ h ∉ lists ∧
       s.Completes f stDone [j, wrap32 (s.serv.admits + 1)] t ∧ t.serv.admits = wrap32 (s.serv.admits + 1) ∧
       t.ast j = some { seqId := pk.w 0x10, part := part, slot := n, cls := pk.f 0x14 7 6, kvList := h,
                        modelId := m.cfg.modelId, promptLen := prompt, maxNew := maxNew, promptVa := pk.d 0x20,
                        outVa := pk.d 0x28, admitSeq := wrap32 (s.serv.admits + 1), guardUs := m.cfg.guardUs } ∧
       (∀ k, k ≠ j → t.ast k = s.ast k) ∧ t.serv.models = s.serv.models) ∧
    (∀ a, s.ast i = some a → a.part = part → a.seqId = pk.w 0x14 →
      (pk.opcode = 0x702 → s.Begins path pk f [] [] → a.state ≠ .retiring →
        ((∀ r ∈ (s.model a.slot).rows, r.ast ≠ i) → a.cmd = none →
          ∃ t, exec (.astRetire path pk) s = .next t ∧ s.Completes f stDone [a.gen, a.fbTokens] t ∧ t.ast i = none ∧
            (t.model a.slot).ends = sat32 ((s.model a.slot).ends + 1) ∧ ∀ j, j ≠ i → t.ast j = s.ast j) ∧
        ((∃ r ∈ (s.model a.slot).rows, r.ast = i) →
          exec (.astRetire path pk) s = .next (b.updAst i (fun a => { a with state := .retiring, cmd := some f.id })))) ∧
      (let m := s.model a.slot
       let target := pk.w 0x20
       let first := a.finish m s.sysTime target
       let second := match m.fallback with
         | some k => if a.fallback then first else a.finish (s.model k) s.sysTime target
         | none => first
       let low := min first second
       let kept := decide (low + 1000 * a.guardUs ≤ pk.d 0x18)
       pk.opcode = 0x703 → s.Begins path pk f [] [] → 0 < target → target ≤ a.maxNew →
       (kept = true ∨ pk.b 0x10 16 = true → ∃ t, exec (.deadlineSet path pk) s = .next t ∧
         s.Completes f stDone [b2n kept, 0, lo32 low, hi32 low] t ∧
         t.ast i = some { a with targetGen := target, deadline := pk.d 0x18, committed := kept } ∧
         ∀ j, j ≠ i → t.ast j = s.ast j) ∧
       (kept = false → pk.b 0x10 16 = false → ∃ t, exec (.deadlineSet path pk) s = .next t ∧
         s.Completes f stServRefused [0x0A, 0xFFFFFFFF] t ∧ t.serv = s.serv))) ∧
    (let p := pk.f 0x10 5 0
     let k := pk.f 0x10 13 8
     let mine := fun n => (s.model n).bound = true ∧ (s.model n).closing = none ∧ (s.model n).part = part
     pk.opcode = 0x704 → s.Begins path pk f [] [] → mine p →
     (k = 0x3F → ∃ t, exec (.fallbackBind path pk) s = .next t ∧ s.Completes f stDone [] t ∧
       t.model p = { s.model p with fallback := none } ∧ ∀ j, j ≠ p → t.model j = s.model j) ∧
     (k ≠ 0x3F → mine k → p ≠ k → (s.model p).cfg.sharesKv (s.model k).cfg = true →
       ∃ t, exec (.fallbackBind path pk) s = .next t ∧ s.Completes f stDone [] t ∧ (t.model p).fallback = some k ∧
         (∀ j, (t.model j).pool = if (s.model j).bound = true ∧ (s.model j).pool = (s.model k).pool then (s.model p).pool
           else (s.model j).pool) ∧
         ∀ j, j ≠ p → (t.model j).fallback = (s.model j).fallback))

/-- The lead core's DONE for the running step ends it and its time counts; any other ends in a program fault (R484, R490). At
a boundary the model steps with a work list of at most MAX_ROWS rows and MAX_STEP_TOKENS tokens, decode rows of one token
each first, or waits (R481, R483); a step that a fault broke ends its sequences (R495), and one that lost data is sent again
(R572). A quota write holds only if the quotas' sum stays within 65,536 or the quota is not raised, and it is not below what
the partition uses (R478); the sum never passes 65,536 by it. -/
def Obligations.serving_steps : Prop :=
  ∀ (s : State) (n : Nat) (ue : List Nat),
    let m := s.model n
    (∀ c q a w, listFind (fun e => e.2.1 == 0x7FD) s.fab.requests = some (c, q, a, w) → s.modelOf c = some n →
      (m.state = .stepping → w.getD 4 0 = m.step → exec .servDone s = .next ((s.updModel n (fun m => { m with
        state := .boundary, times := ((s.clk - m.noticeAt) :: m.times).take 16, lastNs := sat32 (s.clk - m.noticeAt),
        steps := sat64 (m.steps + 1) })).replyCore c none)) ∧
      (m.state ≠ .stepping ∨ w.getD 4 0 ≠ m.step → exec .servDone s = .next (s.replyCore c (some pfServMsg)))) ∧
    (n < 64 → m.bound = true → m.closing = none → (s.part m.part).state = .running →
      (m.broken = none → m.replay = false → m.state = .boundary ∨ (m.state = .waiting ∧ ∃ e ∈ s.serv.ast, ∃ a, e.2 = some a ∧
          a.slot = n) →
        ∃ t, exec (.servBoundary n ue) s = .next t ∧
          ((t.model n).state = .waiting ∧ (t.model n).rows = [] ∧ (t.model n).next = m.next ∨
            (t.model n).state = .stepping ∧ (t.model n).rows ≠ [] ∧ (t.model n).next = wrap32 (m.next + 1) ∧
            (t.model n).noticeAt = s.clk) ∧
          (t.model n).rows.length ≤ m.cfg.maxRows ∧ total ((t.model n).rows.map (·.count)) ≤ m.cfg.maxStepTokens ∧
          (∀ r ∈ (t.model n).rows, 0 < r.count ∧ (r.decode = true → r.count = 1) ∧ (r.decode = false → r.count ≤ m.cfg.chunk)) ∧
          (t.model n).rows.Pairwise (fun x y => y.decode = true → x.decode = true)) ∧
      (∀ cause, m.broken = some cause → exec (.servBoundary n ue) s = .next (s.servStepFault n cause) ∧
        ∀ r ∈ m.rows, ∀ a, (s.servStepFault n cause).ast r.ast = some a → a.seqId = r.seqId → a.slot ≠ n) ∧
      (m.broken = none → m.replay = true → ∃ t, exec (.servBoundary n ue) s = .next t ∧ (t.model n).replayed = true ∧
        (t.model n).replay = false ∧ (t.model n).rows = m.rows ∧ (t.model n).next = m.next ∧ t.serv.ast = s.serv.ast)) ∧
    (∀ w p v, 1 ≤ p → p ≤ 64 → s.isOwner w = true → s.serv.quotas.wf 0 = true →
      let q := fun (u : State) (j : Nat) => u.serv.quotas.get 0 j
      let new := bits v 16 0
      let sum := total (s.serv.quotas.map (·.2))
      ∃ t, exec (.servQuotaWrite w p v) s = .next t ∧
        (s.servUsed p ≤ new → new ≤ q s p ∨ sum - q s p + new ≤ 65536 → q t p = new ∧
          t.serv.quotaReject = s.serv.quotaReject) ∧
        (new < s.servUsed p ∨ (q s p < new ∧ 65536 < sum - q s p + new) → q t p = q s p ∧ t.serv.quotaReject = true) ∧
        (∀ j, j ≠ p → q t j = q s j) ∧ (sum ≤ 65536 → total (t.serv.quotas.map (·.2)) ≤ 65536))

/-- PART_CREATE of a FREE entry gives it its slices, budgets, grants and save area, unregulated, zeroes its slices and meters
and sets it IDLE (R506); refused, it changes no entry (R505). PART_SET changes exactly the fields of its OP: the slices, with
removed and added ones zeroed, the port grant, the budgets, one regulator, the class and latency, or the debug permission up
to DBG_MAX, which falls with DBG_MAX (R507, R516, R523). PART_DESTROY frees the entry, and nothing of the partition stays bound
(R508). No other partition's entry changes. -/
def Obligations.tenancy_partitions : Prop :=
  ∀ (s : State) (path : Path) (pk : Packet) (f : Flight),
    let p := pk.f 0x10 15 8
    let e := s.part p
    let mask := pk.mask192 0x20
    (∀ frames base, let p := pk.f 0x10 7 0
      pk.opcode = 0x101 → s.Begins path pk f [] [] →
      (s.createCause pk = none → s.saveFrames (5 * sliceCount mask) frames = true → s.savePages base frames.length [] = true →
        ∃ t, exec (.partCreate path pk frames base) s = .next t ∧
          s.SetsPart f p (fun _ => {
            state := .idle, dbgMax := pk.f 0x10 11 10, arbClass := pk.f 0x10 9 8, slices := mask,
            portGrant := pk.f 0x14 23 0, t1Budget := pk.w 0x18, t2Budget := pk.w 0x1C, ptRoot := (t.part p).ptRoot,
            saveBase := if frames = [] then 0 else base }) [frames.length, lo32 (t.part p).ptRoot] t ∧ t.zeroed mask ∧
          t.meter p = { t1Frames := frames.length } ∧ ∀ fr ∈ frames, t.mem.frames.get .free fr = .owned p) ∧
      (∀ c, s.createCause pk = some c → ∃ t, exec (.partCreate path pk frames base) s = .next t ∧
        s.Completes f stPartRefused [c, 0xFFFFFFFF] t ∧ t.ten = s.ten ∧ t.mem = s.mem)) ∧
    (∀ frames base, let n := 5 * sliceCount mask
      pk.opcode = 0x103 → pk.f 0x10 3 0 = 1 → s.Begins path pk f [] [] → s.slicesCause pk = none →
      s.saveFrames (n - 5 * sliceCount e.slices) frames = true → s.savePages base n e.savePages = true →
      ∃ t, exec (.partSetSlices path pk frames base) s = .next t ∧ t.zeroed (andNot e.slices mask) ∧
        t.zeroed (andNot mask e.slices) ∧
        s.SetsPart f p (fun e => { e with slices := mask, saveBase := if n = 0 then 0 else base }) [] t) ∧
    (pk.opcode = 0x103 → s.Begins path pk f [] [] → p ≤ 64 → p = 0 ∨ e.state ≠ .free →
      (pk.f 0x10 3 0 = 2 → ∃ t, exec (.partSetPorts path pk) s = .next t ∧ t.mem = s.mem ∧
        s.SetsPart f p (fun e => { e with portGrant := pk.f 0x14 23 0 }) [] t) ∧
      (pk.f 0x10 3 0 = 3 → p ≠ 0 → (s.meter p).t1Frames ≤ pk.w 0x18 → (s.meter p).t2Frames ≤ pk.w 0x1C →
        ∃ t, exec (.partSetBudgets path pk) s = .next t ∧ t.mem = s.mem ∧
          s.SetsPart f p (fun e => { e with t1Budget := pk.w 0x18, t2Budget := pk.w 0x1C }) [] t) ∧
      (let res := pk.f 0x14 2 0
       let w := pk.d 0x18
       pk.f 0x10 3 0 = 4 → res ≤ 4 → 4 ≤ bits w 15 0 →
       (bit w 63 = false ∨ s.sharesBut p res + 64 * bits w 55 32 ≤ shareLimit res → ∃ t,
         exec (.partSetRegulator path pk) s = .next t ∧ t.mem = s.mem ∧
         s.SetsPart f p (fun e => e.setReg res ⟨bit w 63, bits w 55 32, bits w 15 0⟩) [] t) ∧
       (bit w 63 = true → shareLimit res < s.sharesBut p res + 64 * bits w 55 32 → ∃ t,
         exec (.partSetRegulator path pk) s = .next t ∧ s.Completes f stPartRefused [6, 0xFFFFFFFF] t ∧ t.ten = s.ten)) ∧
      (pk.f 0x10 3 0 = 5 → pk.w 0x18 ≤ 100000 → ∃ t, exec (.partSetArb path pk) s = .next t ∧ t.mem = s.mem ∧
        s.SetsPart f p (fun e => { e with arbClass := pk.f 0x14 1 0, fixLatNs := pk.w 0x18 }) [] t) ∧
      (pk.f 0x10 3 0 = 6 → path = .ring p → pk.f 0x14 1 0 ≤ e.dbgMax → pk.f 0x14 1 0 ≠ 3 →
        (∃ t, exec (.partSetDbg path pk) s = .next t ∧ t.part p = { e with dbgPerm := pk.f 0x14 1 0 } ∧
          ∀ q, q ≠ p → t.part q = s.part q) ∧
        (e.dbgPerm ≤ pk.f 0x14 1 0 → ∃ t, exec (.partSetDbg path pk) s = .next t ∧ s.Completes f stDone [] t)) ∧
      (pk.f 0x10 3 0 = 6 → path ≠ .ring p → s.controlPath path = true → e.dbgPerm < pk.f 0x14 1 0 →
        ∃ t, exec (.partSetDbg path pk) s = .next t ∧ s.Completes f stPartRefused [0x0B, 0xFFFFFFFF] t ∧ t.ten = s.ten) ∧
      (pk.f 0x10 3 0 = 7 → s.controlPath path = true → pk.f 0x14 1 0 ≠ 3 →
        (∃ t, exec (.partSetDbgMax path pk) s = .next t ∧
          t.part p = { e with dbgMax := pk.f 0x14 1 0, dbgPerm := min e.dbgPerm (pk.f 0x14 1 0) } ∧
          ∀ q, q ≠ p → t.part q = s.part q) ∧
        (e.dbgPerm ≤ pk.f 0x14 1 0 → ∃ t, exec (.partSetDbgMax path pk) s = .next t ∧ s.Completes f stDone [] t))) ∧
    (let p := pk.f 0x10 7 0
     pk.opcode = 0x102 → s.Begins path pk f [] [] → 0 < p → p ≤ 64 → (s.part p).state ≠ .free →
     ∃ t, exec (.partDestroy path pk) s = .next t ∧ t.part p = {} ∧ (∀ q, q ≠ p → t.part q = s.part q) ∧
       (∀ n, (t.stage n).part ≠ p ∨ (t.stage n).bound = false) ∧ (∀ i a, t.ast i = some a → a.part ≠ p) ∧
       (∀ r ∈ t.quay.runs, r.part ≠ p) ∧ (∀ j ∈ t.fab.saved, j.part ≠ p) ∧
       ((s.part p).state ≠ .evicted → t.zeroed (s.part p).slices) ∧
       (t.meter p).t1Frames = 0 ∧ (t.meter p).t2Frames = 0)

/-- COMMON_BERTH REGISTER of twin-backed pages makes the berth READY; RETIRE makes it RETIRED, and with UNMAP frees the ID and
unmaps its pages from partition 0 (R518). JOB_START sets an IDLE partition RUNNING with its JOB_ID. JOB_EVICT saves a job's
cores and on-chip memory, zeroes its slices and leaves it EVICTED with its slices as HOME_MASK; with DISCARD nothing is saved
and the partition is IDLE and keeps its slices. A resume gives the home slices back with every core and pool byte as saved,
RUNNING and without debug permission (R509 to R511, R523). -/
def Obligations.tenancy_jobs : Prop :=
  ∀ (s : State) (path : Path) (pk : Packet) (f : Flight),
    let p := pk.f 0x10 7 0
    let e := s.part p
    let mask := e.slices
    (let n := pk.f 0x10 4 0
     let old := s.berth n
     pk.opcode = 0x105 → s.Begins path pk f [] [] →
     (pk.f 0x10 7 6 = 1 → 0 < pk.w 0x14 → pk.w 0x14 ≤ 65536 → pk.d 0x18 % 2 ^ 21 = 0 → old.state = .free →
       (∀ va ∈ pagesOf (pk.d 0x18) (pk.w 0x14), s.berthPage va = true) →
       ∃ t, exec (.commonBerthRegister path pk) s = .next t ∧ s.Completes f stDone [] t ∧
         t.berth n = { state := .ready, pages := pk.w 0x14, va := pk.d 0x18 } ∧ ∀ k, k ≠ n → t.berth k = s.berth k) ∧
     (pk.f 0x10 7 6 = 2 → old.state ≠ .free → ∃ t, exec (.commonBerthRetire path pk) s = .next t ∧
       s.Completes f stDone [] t ∧ (∀ k, k ≠ n → t.berth k = s.berth k) ∧
       (pk.b 0x10 9 = false → t.berth n = { old with state := .retired } ∧ t.mem = s.mem) ∧
       (pk.b 0x10 9 = true → t.berth n = {} ∧ ∀ va ∈ pagesOf old.va old.pages, t.mem.leafOf 0 va = none))) ∧
    (pk.opcode = 0x110 → s.Begins path pk f [] [] → 0 < p → p ≤ 64 →
      (pk.b 0x10 8 = false → e.state = .idle → ∃ t, exec (.jobStart path pk) s = .next t ∧
        s.SetsPart f p (fun e => { e with state := .running, jobId := pk.w 0x14 }) [] t) ∧
      (pk.b 0x10 8 = true → e.state = .evicted → pk.w 0x14 = e.jobId → s.sliceTaken e.home = false →
        (∀ r ∈ s.cpu.runs, r.part ≠ p) → (∀ x ∈ s.pipe.slots, x.2.part ≠ p) →
        ∃ t, exec (.jobResume path pk []) s = .next t ∧
          s.SetsPart f p (fun e => { e with state := .running, slices := e.home, home := 0, dbgPerm := 0 }) [] t ∧
          (∀ j, listFind (fun j => j.part == p) s.fab.saved = some j →
            ((j.cores.map (·.1)).Nodup → ∀ x ∈ j.cores, t.core x.1 = x.2) ∧
            ((j.pool.map (·.1)).Nodup → ∀ x ∈ j.pool, t.mem.pool.get 0 x.1 = x.2) ∧
            ((j.basin.map (·.1)).Nodup → ∀ x ∈ j.basin, t.mem.basin.get 0 x.1 = x.2)) ∧
          ∀ j ∈ t.fab.saved, j.part ≠ p)) ∧
    (pk.opcode = 0x111 → s.Begins path pk f [] [] → 0 < p → p ≤ 64 → e.state = .running →
      (∀ c ∈ s.partCores p, (s.core c).state ≠ .moving) →
      (pk.b 0x10 8 = false → ∃ t, exec (.jobEvict path pk) s = .next t ∧
        t.part p = { e with state := .evicted, home := mask, slices := 0, dbgPerm := 0 } ∧
        (∀ q, q ≠ p → t.part q = s.part q) ∧ t.zeroed mask ∧
        (e.dbgPerm = 0 → s.Completes f stDone
          (evictWords (s.dirtyKib p) (s.partCores p).length s.fresh false) t ∧ t.fresh = s.fresh + 1 ∧
          ∃ j, t.fab.saved = s.fab.saved ++ [j] ∧ j.part = p ∧
            (∀ k, bit mask (k / 2 ^ 19 / 8) = true → j.pool.get 0 k = s.mem.pool.get 0 k) ∧
            ∀ k, bit mask (k / 2 ^ 22) = true → j.basin.get 0 k = s.mem.basin.get 0 k)) ∧
      (pk.b 0x10 8 = true → ∃ t, exec (.jobEvictDiscard path pk) s = .next t ∧
        t.part p = { e with state := .idle, jobId := 0, dbgPerm := 0 } ∧ (∀ q, q ≠ p → t.part q = s.part q) ∧
        t.zeroed mask ∧ t.fab.saved = s.fab.saved ∧
        ((∀ c ∈ s.partCores p, (s.core c).state ≠ .running) →
          (∀ g ∈ s.cmd.flights, g.pk.opcode ≠ 0x302 ∧ g.pk.opcode ≠ 0x404) →
          s.Completes f stDone (evictWords (s.dirtyKib p) (s.partCores p).length s.fresh true) t)))

/-- An ABORT of a command that has not begun completes it with ABORTED and answers ABORTED; one without a stopping point goes
on and the ABORT waits; an ABORT of a committed command makes its DONE a DONE_ABORT_LATE and answers LATE; a name that nothing
bears answers NOT_FOUND (R554, R555). An ABORT of a running job leaves the partition IDLE with no sequence (R557). A refill
raises each ordinary bucket by RATE × 64 up to its ceiling and counts slice time and the time that a request has waited (R515, R517,
R521); an entry that fails its pair is
rewritten from a good copy (R503; DESIGN CHOICE, log 53: at the refill's tick). A fixed-share release spaces the
next slot by its bytes over its rate (R516). The meters are copied once a minute (R521). -/
def Obligations.tenancy_aborts_meters : Prop :=
  (∀ (s : State) (path : Path) (pk : Packet) (f g : Flight) (p : Path),
    let b := s.begun f
    let ring := pk.f 0x10 15 8
    let e := s.part ring
    let theirs := fun (t : Flight) => t.path == p && t.pk.seq.toNat == pk.w 0x14 && t.id != f.id
    pk.opcode = 0x112 → s.Begins path pk f [] [] → s.controlPath path = true ∨ path = .ring ring →
    (pk.f 0x10 1 0 = 1 → abortPath path ring = some p →
      (listFind theirs s.cmd.flights = some g → abortable g.pk = true → s.flight g.id = some g → g.aborts = [] →
        (∀ h ∈ s.cmd.flights, f.id ∉ h.aborts) →
        (g.phase = .accepted → ∃ t, exec (.abortCommand path pk) s = .next t ∧
          t.cmd.flights = delFirst (fun h => h.id == f.id) (delFirst (fun h => h.id == g.id) s.cmd.flights) ∧
          t.cmd.committed.map (fun c => (c.id, c.status, c.res)) = s.cmd.committed.map (fun c => (c.id, c.status, c.res)) ++
            [(g.id, stAborted, []), (f.id, stDone, [1])]) ∧
        (g.phase = .begun → g.stop?.isNone = true → exec (.abortCommand path pk) s = .next (b.updFlight g.id (fun g =>
          { g with phase := .late, aborts := [f.id] })))) ∧
      (listFind theirs s.cmd.flights = some g → abortable g.pk = false → ∃ t, exec (.abortCommand path pk) s = .next t ∧
        s.Completes f stDone [4] t) ∧
      (listFind theirs s.cmd.flights = none →
        (∀ c, listFind (fun c => c.path == p && c.seq == pk.w 0x14) s.cmd.committed = some c → c.opcode ≠ 1 →
          c.opcode ≠ 0x112 → ∃ t, exec (.abortCommand path pk) s = .next t ∧
          t.cmd.flights = delFirst (fun h => h.id == f.id) s.cmd.flights ∧
          t.cmd.committed.map (fun c => (c.id, c.status, c.res)) =
            (updFirst (fun d => d.id == c.id) (fun d => { d with status := if d.status = stDone then stDoneAbortLate
              else d.status }) s.cmd.committed).map (fun c => (c.id, c.status, c.res)) ++ [(f.id, stDone, [2])]) ∧
        ((∀ c ∈ s.cmd.committed, c.path ≠ p ∨ c.seq ≠ pk.w 0x14) → ∃ t, exec (.abortCommand path pk) s = .next t ∧
          s.Completes f stDone [0] t))) ∧
    (pk.f 0x10 1 0 = 2 → 0 < ring → ring ≤ 64 →
      (e.state = .free ∨ e.state = .idle → ∃ t, exec (.abortJob path pk) s = .next t ∧ s.Completes f stDone [0] t ∧
        t.ten = s.ten) ∧
      (e.state = .running → ∃ t, exec (.abortJob path pk) s = .next t ∧
        t.part ring = { e with state := .idle, jobId := 0, dbgPerm := 0 } ∧ (∀ q, q ≠ ring → t.part q = s.part q) ∧
        t.zeroed e.slices ∧ ∀ i a, t.ast i = some a → a.part ≠ ring))) ∧
  (∀ s : State, s.ten.refillAt + 1000 ≤ s.clk → ∃ t, exec .regulatorRefill s = .next t ∧
    t.ten.refillAt = s.ten.refillAt + 1000 ∧
    (∀ p, p ≤ 64 → (∀ q, q ≤ 64 → q ≠ p → s.entryHeld q = false) → (s.part p).pairBad = true → (s.part p).copyBad = false →
      t.part p = { s.part p with pairBad := false } ∧ ∀ q, q ≠ p → t.part q = s.part q) ∧
    ((∀ p, p ≤ 64 → s.entryHeld p = false) → t.ten.parts = s.ten.parts) ∧
    ∀ p i, (∀ p, p ≤ 64 → s.entryHeld p = false) → p ≤ 64 → i ≤ 4 → p = 0 ∨ (s.part p).state ≠ .free →
      let r := (s.part p).reg i
      let old := (s.meter p).bucket i
      let new := (t.meter p).bucket i
      new.bytes = old.bytes ∧ (s.ten.waits = [] → new.waitNs = old.waitNs) ∧
      (∀ w, s.ten.waits = [w] → w.part = p → w.res = [i] → s.stillWaits w = true → r.fixed = false →
        new.waitNs = sat64 (old.waitNs + (s.clk - w.since))) ∧
      (r.fixed = true ∨ r.rate = 0xFFFFFF → new.tokens = old.tokens) ∧
      (r.fixed = false → r.rate ≠ 0xFFFFFF → new.tokens = min (old.tokens + 64 * r.rate) (64 * r.rate + 1024 * r.burst)) ∧
      ((s.part p).state = .idle ∨ (s.part p).state = .running →
        (t.meter p).sliceUs = sat64 ((s.meter p).sliceUs + sliceCount (s.part p).slices)) ∧
      ((s.part p).state = .evicted → (t.meter p).sliceUs = sat64 (s.meter p).sliceUs)) ∧
  (∀ (s : State) (p i n lat : Nat) (read : Bool),
    let r := (s.part p).reg i
    p ≤ 64 → i ≤ 4 → r.fixed = true → 0 < r.rate → r.rate < 0xFFFFFF → ((s.meter p).bucket i).nextSlot ≤ s.clk →
    ∃ t, exec (.fixedShareRelease p i n read lat) s = .next t ∧
      ((t.meter p).bucket i).nextSlot = s.clk + ceilDiv (1000 * n) (64 * r.rate) ∧
      ((t.meter p).bucket i).tokens = ((s.meter p).bucket i).tokens ∧
      ((t.meter p).bucket i).bytes = sat64 (((s.meter p).bucket i).bytes + n) ∧
      (t.meter p).fixLate = (if read = true ∧ i ≤ 1 ∧ (s.part p).fixLatNs < lat then sat32 ((s.meter p).fixLate + 1)
        else (s.meter p).fixLate) ∧ ∀ q, q ≠ p → t.meter q = s.meter q) ∧
  (∀ s : State, ∃ t, exec .meterSnapshot s = .next t ∧ ∀ p, p ≤ 64 →
    (t.meter p).minute = s.sysTime / 60000000000 ∧ (t.meter p).b0 = (s.meter p).b0 ∧
    (t.meter p).snap = if (s.meter p).minute = s.sysTime / 60000000000 then (s.meter p).snap else (s.meter p).live)

/-- A fetched entry whose SEQ differs from NEXT_SEQ completes with SEQ_MISMATCH, is not accepted, and leaves NEXT_SEQ; one whose
SEQ matches advances NEXT_SEQ by one modulo 2^32 whether or not it then passes R527. A mailbox checks no SEQ. -/
def Obligations.ring_seq : Prop :=
  (∀ (s : State) (n : Nat) (bytes : List Byte), n < 65 → s.mayFetch n = true → (s.ring n).sqHost = true → bytes.length = 64 →
    (n ≠ 0 → (s.part n).pairBad = false ∧ (s.part n).state ≠ .destroying) →
    let pk := Packet.ofWords (bytesToWords bytes)
    let head := ((s.ring n).sqHead + 1) % 2 ^ (s.ring n).sqLog2
    let answer := fun st => (⟨s.cmd.nextId, .ring n, pk.opcode, st, pk.seq.toNat, pk.tag.toNat, pk.part, head, pk.irq, []⟩ : Completion)
    ∃ t, exec (.ringFetch n (some bytes) []) s = .next t ∧ (t.ring n).sqHead = head ∧
      (pk.seq.toNat ≠ (s.ring n).nextSeq → (t.ring n).nextSeq = (s.ring n).nextSeq ∧ t.cmd.flights = s.cmd.flights ∧
        t.cmd.committed = s.cmd.committed ++ [answer stSeqMismatch]) ∧
      (pk.seq.toNat = (s.ring n).nextSeq → (t.ring n).nextSeq = ((s.ring n).nextSeq + 1) % 2 ^ 32 ∧
        (s.packetStatus (.ring n) pk = none → t.cmd.committed = s.cmd.committed ∧
          t.cmd.flights = s.cmd.flights ++ [⟨s.cmd.nextId, .ring n, pk, .accepted, head, none, [], s.clk⟩]) ∧
        ∀ st, s.packetStatus (.ring n) pk = some st → t.cmd.flights = s.cmd.flights ∧
          t.cmd.committed = s.cmd.committed ++ [answer st])) ∧
  (∀ (s : State) (m : Master), (∀ p, m ≠ .fm p) → (s.mbox m.bank).busy = false → s.cmd.fetchStopped = false →
    let pk := Packet.ofWords ((s.mbox m.bank).cmd.getAll 0 0 16)
    ∃ t, exec (.mboxDoorbell m) s = .next t ∧ (t.mbox m.bank).busy = true ∧
      (s.packetStatus (.mailbox m.bank) pk = none → t.cmd.flights =
        s.cmd.flights ++ [⟨s.cmd.nextId, .mailbox m.bank, pk, .accepted, 0, some (mboxMaster m.bank), [], s.clk⟩]))

/-- A packet is refused with the status of the first check of R527 that fails, and then changes nothing but its own completion.
IDENTIFY answers its four words and changes nothing else (R25, R529). NEGOTIATE_LEVEL sets level 1 and refuses any other (R553).
REG_ACCESS reads or writes its registers in ascending order (R540). HAND_OVER makes an offer with a deadline (R551). -/
def Obligations.control_commands : Prop :=
  ∀ (s : State) (path : Path) (pk : Packet) (f : Flight) (x : RegFacts),
    let b := s.begun f
    let off := pk.w 0x10
    let n := pk.f 0x14 2 0 + 1
    (let levelOk := pk.opcode = 1 ∨ pk.level = s.pkg.runLevel ∨ (pk.opcode = 2 ∧ pk.level = 1)
     let known := admitOf pk.opcode ≠ none
     let may := pk.part = s.pathPart path ∧ s.mayIssue path pk = true
     let clear := bits pk.w0 23 18 = 0 ∧ paramsClear (s.controlPath path) pk = true ∧ opValueOk pk = true
     let failed := fun st => s.packetStatus path pk = some st ∧
       ∀ h m, (s.takePacketOn path pk h m).cmd.flights = s.cmd.flights ∧
         (s.takePacketOn path pk h m).cmd.committed.map (fun c => (c.id, c.status, c.seq)) =
           s.cmd.committed.map (fun c => (c.id, c.status, c.seq)) ++ [(s.cmd.nextId, st, pk.seq.toNat)]
     (pk.hdrC.toNat ≠ 2 ^ 32 - 1 - pk.w0 → failed 0x0400) ∧
     (pk.hdrC.toNat = 2 ^ 32 - 1 - pk.w0 → (¬levelOk → failed 0x0600) ∧ (levelOk → ¬known → failed 0x0602) ∧
       (levelOk → known → ¬may → failed 0x0300) ∧ (levelOk → known → may → ¬clear → failed 0x0601) ∧
       (levelOk → known → may → clear → s.packetStatus path pk = none))) ∧
    (pk.opcode = 1 → s.Begins path pk f [] [] → ∃ t, exec (.identify path pk) s = .next t ∧ t = { s with cmd := t.cmd } ∧
      s.Completes f stDone [0x511536A0, s.pkg.dieLevelMin * 2 ^ 12 + s.pkg.runLevel * 2 ^ 8 + 0x11,
        b2n s.pkg.idValid * 2 ^ 31 + s.pkg.packageId, if s.pkg.ready then s.pkg.capGen else 0] t) ∧
    (pk.opcode = 2 → s.Begins path pk f [] [] →
      (pk.f 0x10 3 0 = 1 → 0 < s.pkg.dieLevelMin → s.pkg.runLevel = 1 ∨ s.anyPart = false →
        ∃ t, exec (.negotiateLevel path pk) s = .next t ∧ s.Completes f stDone [1] t ∧ t.pkg = { s.pkg with runLevel := 1 }) ∧
      (pk.f 0x10 3 0 ≠ 1 ∨ s.pkg.dieLevelMin = 0 → ∃ t, exec (.negotiateLevel path pk) s = .next t ∧
        s.Completes f stLevelUnsupported [1] t ∧ t.pkg = s.pkg)) ∧
    (let m := s.pathMaster path
     pk.opcode = 3 → s.Begins path pk f [] [] → off % 4 = 0 → off + 4 * n ≤ 2 ^ 26 →
     (pk.b 0x14 8 = false → n ≤ 4 → exec (.regAccess path pk x) s = .next ((b.readRegs m off n).2.done f (b.readRegs m off n).1) ∧
       (off + 4 * n ≤ 0x3C → (b.readRegs m off n).1 = (List.range n).map (fun i => s.pkgWord (off + 4 * i) % 2 ^ 32) ∧
         (b.readRegs m off n).2 = b)) ∧
     (pk.b 0x14 8 = true → s.isOwner m = true →
       exec (.regAccess path pk x) s = .next ((b.writeRegs m off x ((List.range n).map (fun i => pk.w (0x18 + 4 * i)))).done f)) ∧
     (pk.b 0x14 8 = true → s.isOwner m = false → ∃ t, exec (.regAccess path pk x) s = .next t ∧
       s.Completes f stNotOwner [] t ∧ t = { s with cmd := t.cmd })) ∧
    (let m := offerTarget pk
     let ms := pk.w 0x18
     pk.opcode = 0x011 → s.Begins path pk f [] [] → s.own.offer = none → s.own.owner ≠ none → s.isOwner m = false → 0 < ms →
     ms ≤ 10000 → ∃ t nonce, exec (.handOver path pk) s = .next t ∧
       t.own = { s.own with offer := some ⟨m, nonce, f.id, s.clk + 1000000 * ms⟩ } ∧ t.cmd.flights = b.cmd.flights)

/-- A write of ENABLE 1 puts a ring that passes R531 in service with its indices zero and phase 1, or sets FAULT; a write of
ENABLE 0 takes it out, once it has drained. Doorbells set TAIL and HEAD, and are counted as denied from a port that may not ring
(R525, R532). A completion is posted at CQ_TAIL with the ring's phase, which inverts at the wrap (R533), or to its mailbox (R537),
and leaves the queue. A fabric-manager lock-keeper's command in turn is accepted, one ahead of its turn is kept, a duplicate is
answered again, and any other is dropped with a record (R539). -/
def Obligations.control_paths : Prop :=
  ∀ (s : State) (m : Master) (n v : Nat) (ok : Bool),
    let r := s.ring n
    let c := r.config v
    (n < 65 → s.isOwner m = true →
      (bit v 31 = true → r.enable = false → r.draining = false →
        (s.ringOk c = true → ∃ t, exec (.ringEnable m n v) s = .next t ∧ t.ring n = { c with
          enable := true, enabled := true, sqHead := 0, tail := 0, cqTail := 0, head := 0, nextSeq := 0, phase := 1,
          fault := false, cause := 0 } ∧ ∀ k, k ≠ n → t.ring k = s.ring k) ∧
        (s.ringOk c = false → ∃ t, exec (.ringEnable m n v) s = .next t ∧ t.ring n = { c with fault := true, cause := 3 } ∧
          ∀ k, k ≠ n → t.ring k = s.ring k)) ∧
      (bit v 31 = false → r.enable = true → ∃ t, exec (.ringDisable m n v) s = .next t ∧
        (t.ring n).enable = false ∧ (s.inflight (.ring n) = 0 → (t.ring n).enabled = false) ∧
        (s.inflight (.ring n) ≠ 0 → (t.ring n).draining = true ∧ (t.ring n).enabled = r.enabled) ∧
        ∀ k, k ≠ n → t.ring k = s.ring k)) ∧
    (n < 65 →
      (s.doorbell m n = true →
        (bits v 11 0 < 2 ^ r.sqLog2 → exec (.ringSqTail m n v) s = .next (s.updRing n (fun r => { r with tail := bits v 11 0 }))) ∧
        (2 ^ r.sqLog2 ≤ bits v 11 0 → ∃ t, exec (.ringSqTail m n v) s = .next t ∧ (t.ring n).fault = true ∧
          (t.ring n).cause = 3 ∧ (t.ring n).tail = r.tail) ∧
        (s.cmd.events.get [] n = [] → exec (.ringCqHead m n v ok) s = .next (s.updRing n (fun r => { r with head := bits v 11 0 })))) ∧
      (s.doorbell m n = false →
        exec (.ringSqTail m n v) s = .next { s with own := { s.own with denied := sat32 (s.own.denied + 1) } } ∧
        exec (.ringCqHead m n v ok) s = .next { s with own := { s.own with denied := sat32 (s.own.denied + 1) } }) ∧
      (∀ c, listFind (fun c => c.path == .ring n) s.cmd.committed = some c → s.pwr.pkgOp = none → s.cmd.events.get [] n = [] →
        r.enabled = true → r.cqHost = true → r.ownerChange = false →
        ∃ t, exec (.completionPost (.ring n) true) s = .next t ∧
          t.cmd.committed = delFirst (fun x => x.id == c.id) s.cmd.committed ∧
          (t.ring n).cqTail = (if r.cqTail + 1 = 2 ^ r.cqLog2 then 0 else r.cqTail + 1) ∧
          (t.ring n).phase = (if r.cqTail + 1 = 2 ^ r.cqLog2 then 1 - r.phase else r.phase) ∧
          ((List.range 32).map (fun i => t.cmd.hostMem.get 0 (r.hostPort * 2 ^ 64 + r.cqBase + 32 * r.cqTail + i)) =
            wordsToBytes (c.entry r.phase c.sqHead)))) ∧
    (∀ c, n < 3 → listFind (fun c => c.path == .mailbox n) s.cmd.committed = some c → s.pwr.pkgOp = none →
      s.cmd.events.get [] 0 = [] → ∃ t, exec (.completionPost (.mailbox n) ok) s = .next t ∧
        t.cmd.committed = delFirst (fun x => x.id == c.id) s.cmd.committed ∧ (t.mbox n).busy = false ∧ (t.mbox n).done = true ∧
        (t.mbox n).sts.getAll 0 0 8 = c.entry 0 0) ∧
    ((∀ p, m ≠ .fm p) → s.cmd.events.get [] 0 = [] →
      exec (.mboxEvtAck m) s = .next (s.updMbox m.bank (fun x => { x with evtFull := false }))) ∧
    (∀ e, s.cmd.fetchStopped = false → listFind (fun e => e.2.ttype == 0x10) s.link.msgs = some e → e.2.words.length = 16 →
      s.isOwner (.fm e.2.src) = true →
      let pk := Packet.ofWords e.2.words
      let seq := pk.seq.toNat
      (seq = s.own.fmNextSeq → s.own.fmAhead = [] → ∃ t, exec .towpathCommand s = .next t ∧
        t.own = { s.own with fmNextSeq := wrap32 (seq + 1) } ∧
        (s.packetStatus (.towpath e.2.src) pk = none → t.cmd.flights = s.cmd.flights ++
          [⟨s.cmd.nextId, .towpath e.2.src, pk, .accepted, 0, some (.fm e.2.src), [], s.clk⟩])) ∧
      (0 < seqDist s.own.fmNextSeq seq → seqDist s.own.fmNextSeq seq < 16 → s.own.fmAhead = [] →
        ∃ t, exec .towpathCommand s = .next t ∧ t.own = { s.own with fmAhead := [pk] } ∧ t.cmd = s.cmd) ∧
      (∀ w, 16 ≤ seqDist s.own.fmNextSeq seq → seqDist seq s.own.fmNextSeq ≤ 16 →
        listFind (fun w => w.1 == seq) s.cmd.fmStored = some w →
        exec .towpathCommand s = .next ((s.heard e).sendMsg 0x11 1 e.2.src w.2)) ∧
      (16 ≤ seqDist s.own.fmNextSeq seq → 16 < seqDist seq s.own.fmNextSeq →
        exec .towpathCommand s = .next ((s.heard e).record 0x0C02 1 0xFF srcPackage 0 seq s.own.fmNextSeq e.2.src 0)))

/-- A claim against a valid lease is lost; otherwise it is entered, in place of the master's earlier one, and opens the window
if none is open. At the close the winner is a claim that none beats by priority, nonce and code: it gets a token that bears its
code with its complement, a lease of 1 s and a new generation (R547). RELEASE, the end of the lease and a bad stored token end
ownership (R549). A renewal with the token restarts the lease, any other is counted (R548). The offer's target takes over with
its nonce before the deadline, anything else is counted; past the deadline the offer is withdrawn (R551). ELECT does the same for
a fabric manager (R552). -/
def Obligations.ownership : Prop :=
  ∀ (s : State) (m : Master) (v : Nat),
    (∀ p, (∀ k, m ≠ .fm k) → bits v 9 8 = 1 → p = (⟨m, bits v 3 0, (s.ownBank m.bank).nonce⟩ : Claim) →
      (s.own.owner ≠ none → ∃ t, exec (.ownClaim m v) s = .next t ∧ t.own.window = s.own.window ∧
        (t.ownBank m.bank).result = rLost ∧ (t.ownBank m.bank).refused = true ∧ t.own.owner = s.own.owner) ∧
      (s.own.owner = none → ∃ t, exec (.ownClaim m v) s = .next t ∧ (t.ownBank m.bank).result = rPending ∧
        t.own.window = some ((s.own.window.getD []).filter (fun c => c.master != m) ++ [p]) ∧
        t.own.windowAt = (if s.own.window = none then s.clk else s.own.windowAt) ∧ t.own.owner = none)) ∧
    (∀ cs, s.own.window = some cs → cs ≠ [] → s.own.windowAt + 10000000 ≤ s.clk →
      ∃ t w, exec .claimWindowClose s = .next t ∧ w ∈ cs ∧ (∀ c ∈ cs, c.beats w = false) ∧ t.own.owner = some w.master ∧
        t.own.window = none ∧ t.own.gen = wrap32 (s.own.gen + 1) ∧ t.own.leaseEnd = s.clk + 1000000000 ∧
        t.own.token / 2 ^ 30 = w.master.code ∧ pair32 t.own.token t.own.tokenC = true ∧
        ∀ c ∈ cs, (∀ k, c.master ≠ .fm k) → (t.ownBank c.master.bank).result = if c.master = w.master then rWon else rLost) ∧
    (let ended := fun (t : State) => t.own.owner = none ∧ t.own.offer = none ∧ t.own.gen = s.own.gen ∧ t.own.fmNextSeq = 0 ∧
       t.dbg.lock = .locked ∧ (s.own.offer = none → (s.ring 0).enabled = true → (∃ f ∈ s.cmd.flights, f.path = .ring 0) →
         (t.ring 0).ownerChange = true)
     s.own.owner ≠ none → (s.isOwner m = true → ∃ t, exec (.ownRelease m) s = .next t ∧ ended t) ∧
       (s.own.leaseEnd ≤ s.clk → ∃ t, exec .leaseExpire s = .next t ∧ ended t) ∧
       (pair32 s.own.token s.own.tokenC = false → ∃ t, exec (.ownRenew m v) s = .next t ∧ ended t)) ∧
    (pair32 s.own.token s.own.tokenC = true → s.clk < s.own.leaseEnd → v < 2 ^ 32 →
      (s.isOwner m = true → v = s.own.token → exec (.ownRenew m v) s = .next { s with own := { s.own with
        leaseEnd := s.clk + 1000000000 } }) ∧
      (s.isOwner m = false ∨ v ≠ s.own.token → ∃ t, exec (.ownRenew m v) s = .next t ∧
        t.own = { s.own with denied := sat32 (s.own.denied + 1) })) ∧
    (∀ o, s.own.offer = some o → v < 2 ^ 32 →
      (s.clk ≤ o.deadline → o.target = m → o.nonce = v → ∃ t, exec (.ownAccept m v) s = .next t ∧ t.own.owner = some m ∧
        t.own.offer = none ∧ t.own.gen = wrap32 (s.own.gen + 1) ∧ t.own.leaseEnd = s.clk + 1000000000 ∧
        pair32 t.own.token t.own.tokenC = true ∧ (∀ f, s.flight o.cmd = some f → f.phase = .begun →
          ∃ c ∈ t.cmd.committed, c.id = o.cmd ∧ c.status = stDone ∧ c.res = [wrap32 (s.own.gen + 1)])) ∧
      (s.clk ≤ o.deadline → o.target ≠ m ∨ o.nonce ≠ v → exec (.ownAccept m v) s =
        .next { s with own := { s.own with denied := sat32 (s.own.denied + 1) } }) ∧
      (o.deadline ≤ s.clk → ∃ t, exec .offerTimeout s = .next t ∧ t.own = { s.own with offer := none } ∧
        (∀ f, s.flight o.cmd = some f → f.phase = .begun →
          ∃ c ∈ t.cmd.committed, c.id = o.cmd ∧ c.status = stHandoverDeclined ∧ c.res = [0]))) ∧
    (∀ e, listFind (fun e => e.2.ttype == 0x12) s.link.msgs = some e → pair32 (e.2.w 1) (e.2.w 2) = true →
      let fm : Master := .fm e.2.src
      (bits (e.2.w 0) 7 0 = 1 → s.own.owner = none → ∃ t, exec .elect s = .next t ∧ t.own.window =
        some ((s.own.window.getD []).filter (fun c => c.master != fm) ++ [⟨fm, bits (e.2.w 0) 11 8, e.2.w 1⟩])) ∧
      (bits (e.2.w 0) 7 0 = 2 → s.isOwner fm = true → e.2.w 1 = s.own.token → pair32 s.own.token s.own.tokenC = true →
        s.clk < s.own.leaseEnd → ∃ t, exec .elect s = .next t ∧ t.own = { s.own with leaseEnd := s.clk + 1000000000 }) ∧
      (bits (e.2.w 0) 7 0 = 3 → s.isOwner fm = true → e.2.w 1 = s.own.token → ∃ t, exec .elect s = .next t ∧ t.own.owner = none) ∧
      (∀ o, bits (e.2.w 0) 7 0 = 4 → s.own.offer = some o → s.clk ≤ o.deadline → o.target = fm → o.nonce = e.2.w 1 →
        ∃ t, exec .elect s = .next t ∧ t.own.owner = some fm))

/-- A write to a register that only the lock-keeper writes, by any other master, changes nothing and is counted (R525). PKG_ID
follows R21, and without ID_VALID no port keeps a data virtual channel open (R22). A 64-bit access is two 32-bit ones, lower first; a narrower write is ignored, a narrower read returns the addressed
bytes (R16). In a domain that is OFF a read returns zero and a write is ignored, and OFF_ACCESS is set (R18). A transfer over I3C
reads or writes one register when its PEC holds, and changes no register otherwise (R538). TIME: RESYNC returns to FREE (R353),
SET_HI loads SET as the time, and NOW_LO latches NOW_HI (R354). -/
def Obligations.control_space : Prop :=
  ∀ (s : State) (m : Master) (off v : Nat) (x : RegFacts),
    let island := off < 0x10000 ∨ (0x40000 ≤ off ∧ off < 0x60000) ∨ (0x80000 ≤ off ∧ off < 0x100000)
    let denied : State := { s with own := { s.own with denied := sat32 (s.own.denied + 1) } }
    (s.isOwner m = false → (island → off % 4 = 0 → exec (.controlSpaceWrite m off 4 v x) s = .next denied) ∧
      exec (.pkgIdWrite m v) s = .next denied ∧ exec (.timeSetHiWrite m v) s = .next denied ∧
      (bit v 31 = true → exec (.timeCtrlResync m v) s = .next denied)) ∧
    (s.isOwner m = true →
      (∃ t, exec (.pkgIdWrite m v) s = .next t ∧ t = { s with pkg := t.pkg, link := t.link } ∧
        (bit v 31 = true → t.link = s.link) ∧ (bit v 31 = false → ∀ p, (t.port p).dataOpen = false) ∧
        (s.pkg.idValid = true → bit v 31 = true → bits v 13 0 ≠ s.pkg.packageId → t = s) ∧
        (s.pkg.idValid = false ∨ bit v 31 = false ∨ bits v 13 0 = s.pkg.packageId →
          t.pkg = { s.pkg with idValid := bit v 31, packageId := bits v 13 0 })) ∧
      (s.time.enable = false → v < 2 ^ 32 → s.time.setLo < 2 ^ 32 → ∃ t, exec (.timeSetHiWrite m v) s = .next t ∧
        t.sysTime = s.time.setLo + v * 2 ^ 32) ∧
      (s.time.enable = true → exec (.timeSetHiWrite m v) s = .next s) ∧
      (bit v 31 = true → bit v 9 = false → ∃ t, exec (.timeCtrlResync m v) s = .next t ∧ t.time.mode = .free ∧
        t.time.enable = false ∧ t.time.parentPort = bits v 4 0 ∧ t.sysTime = s.sysTime)) ∧
    (∃ t, exec (.timeNowLoRead m) s = .next t ∧ t.cmd.readData.toNat = s.sysTime % 2 ^ 32 ∧
      t.time.nowHi = s.sysTime / 2 ^ 32 ∧ t.mem = s.mem) ∧
    (off < 2 ^ 26 →
      (off % 8 = 0 → exec (.controlSpaceWrite m off 8 v x) s =
        .next ((s.writeReg m off (v % 2 ^ 32) x).writeReg m (off + 4) (v / 2 ^ 32 % 2 ^ 32) x)) ∧
      (∀ n, n < 4 → exec (.controlSpaceWrite m off n v x) s = .next s) ∧
      (∀ d, s.regDomain off = some d → (s.domain d).state = .off → off % 4 = 0 →
        (∃ t, exec (.controlSpaceRead m off 4) s = .next t ∧ t.cmd.readData.toNat = 0 ∧ t.pkg.offAccess = true ∧ t.mem = s.mem) ∧
        (s.isOwner m = true → ∃ t, exec (.controlSpaceWrite m off 4 v x) s = .next t ∧
          t = { s with pkg := { s.pkg with offAccess := true } })) ∧
      (off < 0x3C → off % 4 = 0 → (∃ t, exec (.controlSpaceRead m off 4) s = .next t ∧ t = { s with cmd := t.cmd } ∧
          t.cmd.readData.toNat = s.pkgWord off % 2 ^ 32) ∧
        ∀ i k, 1 ≤ k → i + k ≤ 4 → ∃ t, exec (.controlSpaceRead m (off + i) k) s = .next t ∧
          t.cmd.readData.toNat = s.pkgWord off / 2 ^ (8 * i) % 2 ^ (8 * k))) ∧
    (∀ body, body.length = 6 → (body.getD 1 0).toNat = 1 → ofBytes (body.drop 2) = off → off % 4 = 0 → off < 2 ^ 26 →
      (∃ t, exec (.i3cAccess (body ++ [BitVec.ofNat 8 (pec8 body)]) x) s = .next t ∧ t.cmd.i3cResult = 0 ∧
        t.cmd.readData.toNat = (s.readReg .bmc off).1 % 2 ^ 32) ∧
      ∀ c, c.toNat ≠ pec8 body → ∃ t, exec (.i3cAccess (body ++ [c]) x) s = .next t ∧ t.cmd.i3cResult = 1 ∧
        t = { s with cmd := t.cmd, fresh := t.fresh }) ∧
    (∀ body, body.length = 10 → (body.getD 1 0).toNat = 2 → ofBytes ((body.drop 2).take 4) = off → off % 4 = 0 → off < 2 ^ 26 →
      exec (.i3cAccess (body ++ [BitVec.ofNat 8 (pec8 body)]) x) s = .next (s.writeReg .bmc off (ofBytes (body.drop 6)) x) ∧
      ∀ c, c.toNat ≠ pec8 body → exec (.i3cAccess (body ++ [c]) x) s = .next s)

/-- FABRIC_CONFIG sets the limits and FW_CLASS within their ranges (R192). An endpoint answers a READ of lines that the packet's
partition owns with their bytes, writes a WRITE's, refuses either with NOT_OWNER otherwise, and delivers messages and
contributions (R174, R175). An arbiter keeps the requests whose requesters hold a credit and grants to the highest class present,
and within it to the next requester in rotation (R173, R187, R189). A grant held past its limit is taken away, and an engine that held it faults with LENGTHSMAN (R191). A module becomes
active with its partner's record, having sent its own, and is disabled without a good one (R180); a failed one leaves the pair to
the others (R184), and with the last of them only routes that cross a pair that is DOWN are replaced (R177). -/
def Obligations.fabric : Prop :=
  (∀ (s : State) (path : Path) (pk : Packet) (f : Flight),
    let fab := pk.w 0x10
    let mem := pk.w 0x14
    let ok := (fab = 0 ∨ (1000 ≤ fab ∧ fab ≤ 1000000)) ∧ (mem = 0 ∨ (4000 ≤ mem ∧ mem ≤ 4000000))
    let new : Fabric := { s.fab with
      fabLimit := if fab = 0 then s.fab.fabLimit else fab, memLimit := if mem = 0 then s.fab.memLimit else mem,
      fwClass := if pk.b 0x18 2 then pk.f 0x18 1 0 else s.fab.fwClass }
    pk.opcode = 0x030 → s.Begins path pk f [] [] → ∃ t, exec (.fabricConfig path pk) s = .next t ∧
      (ok → t.fab = new ∧ s.Completes f stDone [new.fabLimit, new.memLimit, new.fwClass] t) ∧
      (¬ok → t.fab = s.fab ∧ s.Completes f stFieldReserved [] t)) ∧
  (∀ (s : State) (head : List Nat) (payload : List Byte) (len src : Nat),
    let w := fun i => head.getD i 0
    let kind := bits (w 0) 31 28
    let dst := bits (w 0) 11 0
    let part := bits (w 1) 7 0
    let poison := bit (w 0) 27
    let addr := (w 2 + 2 ^ 32 * w 3) % 2 ^ 46
    let data := payload.take 256
    let ps := s.devPieces addr (if kind = 0 then min len 256 else data.length)
    let reply := fun (k c : Nat) (d : List Byte) => some (NetReply.mk (replyHead head ⟨[], k, c, false, d⟩) k c false d)
    part ≤ 64 → (s.part part).pairBad = false →
    (kind ≤ 1 → (∀ q ∈ ps, ∀ d, placeDomain q.1 = some d → s.awake d = true) →
      (((∀ q ∈ ps, part ∈ s.placeOwners q.1 ∧ ∃ a, q.1 = .tier a ∧ s.tierInTest (tierOf a) = false ∧ s.mem.marked a = false) →
        let u := ps.foldl (fun u q => u.writePlace q.1
          (((if poison then poisonBytes addr data.length else data).drop (q.2.1 - addr)).take q.2.2) poison) s
        ∃ t, exec (.networkPacketReceive head payload len src []) s = .next t ∧
          (kind = 0 → t.fab.reply = reply 2 0 (ps.flatMap (fun q => s.placeBytes q.1 q.2.2)) ∧ t.mem.bytes = s.mem.bytes ∧
            t.mem.marks = s.mem.marks) ∧
          (kind = 1 → t.fab.reply = reply 3 0 [] ∧ t.mem.bytes = u.mem.bytes ∧ t.mem.marks = u.mem.marks))) ∧
      ((∃ q ∈ ps, part ∉ s.placeOwners q.1) → ∃ t, exec (.networkPacketReceive head payload len src []) s = .next t ∧
        t.mem = s.mem ∧ t.cpu = s.cpu ∧ t.fab.reply = reply 6 cNotOwner [] ∧ ∀ r, nodeReach dst = some r →
          (t.fab.reaches.get {} r).partMismatch = sat32 ((s.fab.reaches.get {} r).partMismatch + 1))) ∧
    (∀ r, nodeReach dst = some r → s.awake (coreDomain (16 * r)) = true →
      (let c := 16 * r + bits addr 7 4
       kind = 4 → s.coreOwner c = part → ∃ t, exec (.networkPacketReceive head payload len src []) s = .next t ∧
         t.fab.flying = s.fab.flying ++ [{ src := none, dst := c, queue := addr % 16, words := bytesToWords data, poison := poison }] ∧
         t.mem = s.mem) ∧
      (let q := addr % 32
       kind = 5 → s.sliceOwner (2 * r + q / 16) = part → ∃ t k, exec (.networkPacketReceive head payload len src []) s = .next t ∧
         t.fab.contribs = s.fab.contribs ++ [k] ∧
         k.src = some src ∧ k.dst = r ∧ k.queue = q ∧ k.poison = poison ∧ t.mem = s.mem))) ∧
  (∀ (s : State) (row unit index : Nat) (raised : List GrantReq), arbExists row unit index = true →
    let a := s.fab.arbiters.get {} (arbKey row unit index)
    let b := fun (t : State) => t.fab.arbiters.get {} (arbKey row unit index)
    let early := a.waiting (raised.filter (fun r => !r.late))
    (∃ t, exec (.arbiterGrant row unit index raised) s = .next t ∧
      ∀ q ∈ (b t).raised, q ∈ a.raised ∨ (q ∈ raised ∧ q.credit = true)) ∧
    (early = [] → ∃ t, exec (.arbiterGrant row unit index raised) s = .next t ∧ (b t).holder = none ∧
      (b t).raised = a.waiting raised) ∧
    (early ≠ [] → (∀ r ∈ early, s.grantClass r ≤ 3) → ∃ t r, exec (.arbiterGrant row unit index raised) s = .next t ∧
      r ∈ early ∧ (b t).holder = some r ∧ (b t).raised = (a.waiting raised).erase r ∧ (b t).since = s.sysTime ∧
      (b t).limit = (if row = 4 then s.fab.memLimit else s.fab.fabLimit) ∧
      let first := a.last.get 0 (s.grantClass r)
      ∀ q ∈ early, s.grantClass r ≤ s.grantClass q ∧ (s.grantClass q = s.grantClass r →
        (first ≤ q.requester → first ≤ r.requester ∧ r.requester ≤ q.requester) ∧
        (first ≤ r.requester ∨ r.requester ≤ q.requester))) ∧
    (∀ r holder, a.holder = some r → holderExists holder = true →
      (s.sysTime - a.since ≤ a.limit → exec (.lengthsman row unit index holder) s = .next s) ∧
      (a.limit < s.sysTime - a.since → ∃ t, exec (.lengthsman row unit index holder) s = .next t ∧ (b t).holder = none ∧
        ∀ c e p ps id, holder = .core c e → (s.core c).queue e = p :: ps → (s.core c).faulting = none →
          (s.core c).holder = .run id → (t.core c).faulting.map (·.cause) = some pfLengthsman))) ∧
  (∀ (s : State) (i m : Nat) (words : List Nat), i < 11 → m < 8 →
    let p := s.pair i
    (bit p.disabled m = false →
      (pair32 (words.getD 0 0) (words.getD 1 0) = true → ∃ t, exec (.pliCapRecord i m words) s = .next t ∧
        (t.pair i).active = setBit p.active m true ∧ t.pkg.dieLevelMin ≤ (t.pair i).negLevel ∧
        (t.pair i).negLevel ≤ bits (words.getD 0 0) 3 0 ∧
        t.fab.pliSent.get [] (16 * i + 2 * m) = pliRecord (pairDies i).1 (setBit p.active m true)) ∧
      (pair32 (words.getD 0 0) (words.getD 1 0) = false → ∃ t, exec (.pliCapRecord i m words) s = .next t ∧
        (t.pair i).active = setBit p.active m false ∧ bit (t.pair i).disabled m = true) ∧
      (bit p.active m = false → ∃ t, exec (.pliCapTimeout i m) s = .next t ∧ bit (t.pair i).disabled m = true)) ∧
    (bit p.active m = true → ∃ t, exec (.moduleFail i m) s = .next t ∧ (t.pair i).active = setBit p.active m false ∧
      (t.pair i).restripes = (if setBit p.active m false = 0 then p.restripes else sat32 (p.restripes + 1)) ∧
      (setBit p.active m false = 0 → ∀ a b, a < 8 → b < 8 → (∀ h ∈ hops (primaryRoute a b), t.linked h.1 h.2 = true) →
        t.dieRoute a b = primaryRoute a b)))

/-- A record takes HEAD and the time, overwrites the oldest when the ring is full, and counts one lost if that was not flushed
(R585), and its event goes to its recipients, without another partition's number in a tenant's copy (R581);
after 64 of one code and source in a millisecond it is only counted (R586), and the millisecond's end reports the count. A flush takes the newest records up to HEAD, with its slot invalid until it ends, and then leaves a valid generation (R587, R589).
CLEAR_RING and CLEAR_MRAM empty what they name and are recorded, FLUSH asks for a flush, and any other master is denied (R592). A
read of a view's first word latches it for its master alone (R591). A watchdog on a keeper changes no command (R577); silence of a
hub die's keepers fences the package, which then serves no command but IDENTIFY and a soft reset (R578, R579). -/
def Obligations.logbook : Prop :=
  (∀ (s : State) (code sev part kind index p0 p1 p2 p3 : Nat) (tos : List Nat), s.clk / 1000000 = s.log.msIndex →
    let t := s.record code sev part kind index p0 p1 p2 p3 tos
    let full := seqDist s.log.oldest s.log.head = 8192
    ((s.log.msCount code (kind * 2 ^ 28 + index)).1 < 64 →
      (∃ r, t.log.ring.get none s.log.head = some r ∧ r.code = code ∧ r.sev = sev ∧ r.part = part ∧ r.srcKind = kind ∧
        r.srcIndex = index ∧ r.time = s.sysTime ∧ r.p0 = wrap32 p0 ∧ r.p1 = wrap32 p1 ∧ r.p2 = wrap32 p2 ∧ r.p3 = wrap32 p3) ∧
      t.log.head = wrap32 (s.log.head + 1) ∧
      (¬full → t.log.oldest = s.log.oldest ∧ t.log.lost = s.log.lost ∧ t.log.flushed = s.log.flushed ∧
        ∀ k, k ≠ s.log.head → t.log.ring.get none k = s.log.ring.get none k) ∧
      (full → t.log.oldest = wrap32 (s.log.oldest + 1) ∧ t.log.ring.get none s.log.oldest = none ∧
        (seqDist s.log.flushed s.log.head = 8192 → t.log.lost = sat32 (s.log.lost + 1)) ∧
        (seqDist s.log.flushed s.log.head ≠ 8192 → t.log.lost = s.log.lost)) ∧
      (2 ≤ sev → t.log.waiting ≠ []) ∧
      (∀ q, tos = [q] → (s.cmd.events.get [] q).length < 64 → ∃ e, t.cmd.events.get [] q = s.cmd.events.get [] q ++ [e] ∧
        e.code = code ∧ e.sev = sev ∧ (q = 0 → e.p = [wrap32 p0, wrap32 p1, wrap32 p2, wrap32 p3]) ∧
        (q ≠ 0 → code = 0x0301 → (wrap32 p0 ≠ q → e.p.getD 0 0 = 0) ∧ (wrap32 p1 ≠ q → e.p.getD 1 0 = 0)))) ∧
    (64 ≤ (s.log.msCount code (kind * 2 ^ 28 + index)).1 → t.log.ring = s.log.ring ∧ t.log.head = s.log.head ∧
      t.log.suppressed = sat32 (s.log.suppressed + 1) ∧ t.cmd = s.cmd) ∧
    t = { s with log := t.log, cmd := { s.cmd with events := t.cmd.events, rings := t.cmd.rings } }) ∧
  (∀ (s : State) (code src x : Nat), s.clk / 1000000 ≠ s.log.msIndex → s.log.perMs = [(code, src, 64, x)] → 0 < x →
    ∃ t r, exec .logSuppressEnd s = .next t ∧ t.log.ring.get none s.log.head = some r ∧ r.code = 0x0D06 ∧ r.p0 = wrap32 code ∧
      r.p1 = wrap32 src ∧ r.p2 = wrap32 x ∧ (t.log.msCount code src = (0, 0) ∨ (code = 0x0D06 ∧ src = 0)) ∧
      t.log.msIndex = s.clk / 1000000) ∧
  (∀ s : State,
    let l := s.log
    (l.flush = none → l.flushDue s.clk = true → ∀ fail, ∃ t r, exec (.logFlush fail) s = .next t ∧ t.log.flush = some r ∧
      r.upto = l.head ∧ r.slot = l.genNext % 16 ∧ r.records.length ≤ 7936 ∧ r.startTime = s.sysTime ∧
      (∀ x ∈ r.records, ∃ k, l.ring.get none k = some x) ∧ (t.log.slot (l.genNext % 16)).valid = false ∧ t.log.waiting = [] ∧
      ((∃ e ∈ l.waiting, e.1 = 3) → r.cause = 3)) ∧
    (∀ r, l.flush = some r → r.fell = none →
      (∃ t, exec (.logFlush false) s = .next t ∧ t.log.flush = none ∧ (t.log.slot r.slot).valid = true ∧
        (t.log.slot r.slot).records = r.records ∧ (t.log.slot r.slot).gen = l.genNext ∧ t.log.genNext = wrap32 (l.genNext + 1) ∧
        (t.log.slot r.slot).crc = crc32 (r.records.flatMap (fun x => wordsToBytes x.words)) ∧ t.log.lastCause = r.cause ∧
        (seqDist l.flushed r.upto < 2 ^ 31 → t.log.flushed = r.upto) ∧ ∀ i, i ≠ r.slot → t.log.slot i = l.slot i) ∧
      (∃ t, exec (.logFlush true) s = .next t ∧ t.log.flush = none ∧ t.log.mramFail = true ∧ t.log.mram = l.mram ∧
        t.log.flushed = l.flushed)) ∧
    (∀ m, s.isOwner m = true → s.clk / 1000000 = l.msIndex → (l.msCount 0x0D07 0).1 < 64 →
      (∃ t r, exec (.clearRing m 2) s = .next t ∧ t.log.oldest = l.head ∧ t.log.head = wrap32 (l.head + 1) ∧
        t.log.flushed = l.head ∧ t.log.ring.get none l.head = some r ∧ r.code = 0x0D07 ∧ r.p0 = 1 ∧ r.p1 = m.code ∧
        r.p2 = seqDist l.oldest l.head ∧ t.log.mram = l.mram) ∧
      (∃ t r, exec (.clearMram m 4) s = .next t ∧ t.log.validSlots = [] ∧ t.log.genNext = l.genNext ∧
        t.log.ring.get none l.head = some r ∧ r.code = 0x0D07 ∧ r.p0 = 2 ∧ r.p2 = wrap32 (total (l.validSlots.map (·.count)))) ∧
      (∃ t, exec (.logFlushRequest m 1) s = .next t ∧ (∃ e ∈ t.log.waiting, e.1 = 4) ∧ t.log.ring = l.ring ∧
        t.log.head = l.head)) ∧
    (∀ m v, s.isOwner m = false →
      let denied : State := { s with own := { s.own with denied := sat32 (s.own.denied + 1) } }
      (bit v 1 = true → exec (.clearRing m v) s = .next denied) ∧ (bit v 2 = true → exec (.clearMram m v) s = .next denied) ∧
      (bit v 0 = true → exec (.logFlushRequest m v) s = .next denied)) ∧
    (∀ m view, view = 1 ∨ view = 2 → ∃ t, exec (.logWindowRead m view) s = .next t ∧
      (∀ i, t.log.latched (Master.key m) view i = (l.viewWords view).getD i 0) ∧
      t.cmd.readData.toNat = (l.viewWords view).getD 0 0 % 2 ^ 32 ∧
      ∀ k v i, (k, v) ≠ (Master.key m, view) → t.log.latched k v i = l.latched k v i) ∧
    (∀ k, k < 8 → ∃ t, exec (.keeperWatchdog k) s = .next t ∧ t.cmd.flights = s.cmd.flights ∧
      (∀ c, c < 1536 → t.core c = s.core c) ∧ ∀ q, q < 16 → t.fab.queues.get [] ((1536 + k) * 16 + q) = []) ∧
    (∀ a b, a = true ∨ b = true → s.pwr.fenced = false → ∃ t, exec (.fwWatchdog a b) s = .next t ∧ t.pwr.fenced = true ∧
      t.pkg.ready = false ∧ t.link.lasersOff = true ∧ ∀ p, 0 < p → p ≤ 64 → (t.part p).state ≠ .running) ∧
    exec .islandWatchdog s = .next s ∧
    (∀ path pk f, s.pwr.fenced = true → s.named path pk = some f →
      (pk.opcode = 0x702 → exec (.astRetire path pk) s = .next (s.commit f.id stAborted [])) ∧
      (pk.opcode = 1 → s.ringGate f = none → f.aborts = [] → s.flight f.id = some f →
        ∃ t ws, exec (.identify path pk) s = .next t ∧ s.Completes f stDone ws t)))

/-- SET_DOMAIN TARGET refuses by Table 18.6 in its order and otherwise sets the target: AUTO completes at once, RETAIN and OFF
when the traffic inside has left, ON when the wake ends (R595, R599, R603, R613). An abandoned power-down leaves the domain ON
and fails its tenth time with BUSY (R604). A closed sluice holds up to 64 packets and a wake-class one starts a wake (R601); a
data packet held for 100 µs at a domain told to sleep is answered DOMAIN_ASLEEP (R602). A domain that wakes from OFF is
zeroed before its sluice opens (R596). -/
def Obligations.power_domains : Prop :=
  (∀ (s : State) (path : Path) (pk : Packet) (f : Flight) (drained : Bool), s.Begins path pk f [] [] → pk.opcode = 0x020 →
    pk.f 0x10 3 0 = 1 →
    let d := pk.f 0x10 13 8
    let t := DomTarget.ofCode (pk.f 0x10 17 16)
    let k := domainKind d
    let x := s.domain d
    let refused := fun (c : Nat) (u : State) => s.Completes f stPowerRefused [c, 0xFFFFFFFF] u ∧ u.pwr = s.pwr
    let ends := fun (st : DomState) (u : State) => (∃ w, s.Completes f stDone [w] u ∧ w % 16 = st.code ∧ w / 16 % 4 = t.code) ∧
      u.domTarget d = t ∧ (u.domain d).state = st ∧ (∀ q, q ≠ d → u.domain q = s.domain q) ∧ u.mem = s.mem
    let waits := fun (go : DomState) (u : State) => u.domTarget d = t ∧ (u.domain d).cmd = some f.id ∧
      (u.domain d).state = .changing ∧ (u.domain d).going = some go ∧ (∀ q, q ≠ d → u.domain q = s.domain q) ∧
      u.cmd.committed = s.cmd.committed ∧ u.mem = s.mem
    let down := t = .retain ∨ t = .off
    ∃ u, exec (.setDomainTarget path pk drained) s = .next u ∧
      (56 ≤ d → refused 1 u) ∧
      (d < 56 → kindAllows k t = false → refused 2 u) ∧
      (d < 56 → kindAllows k t = true →
        (down → s.liveDep d = true → refused (if k = 3 then 4 else 3) u) ∧
        (¬(down ∧ s.liveDep d = true) →
          (s.domBusy d = true → refused 6 u) ∧
          (s.domBusy d = false →
            (t = .auto → ends x.state u) ∧
            (x.state = .on → x.going = none → (t = .on → ends .on u) ∧
              (down → drained = true → ends (targetState t) u) ∧
              (down → drained = false → waits (targetState t) u)) ∧
            (x.state = .retain → x.going = none → (t = .on → waits .on u) ∧ (t = .retain → ends .retain u) ∧
              (t = .off → ends .off u)) ∧
            (x.state = .off → (t = .off → ends .off u) ∧ (t = .on ∨ t = .retain → x.going ≠ some .on → waits .on u)))))) ∧
  (∀ (s : State) (d : Nat), d < 56 →
    let x := s.domain d
    (s.domTarget d = .auto → x.state = .on → x.closed = false → (domainKind d = 4 ∨ domainKind d = 5 ∨ domainKind d = 8) →
      (x.since + 1000 * s.pwr.idleUs ≤ s.clk →
        (∃ t, exec (.domainIdle d true true) s = .next t ∧ (t.domain d).state = .retain ∧ (t.domain d).closed = true ∧
          t.mem = s.mem ∧ ∀ q, q ≠ d → t.domain q = s.domain q) ∧
        (∃ t, exec (.domainIdle d true false) s = .next t ∧ (t.domain d).state = .changing ∧ (t.domain d).going = some .retain ∧
          (t.domain d).closed = true)) ∧
      (s.clk < x.since + 1000 * s.pwr.idleUs → ∀ b, exec (.domainIdle d true b) s = .next s)) ∧
    (x.going = some .retain ∨ x.going = some .off → x.since + 2000 ≤ s.clk →
      ∃ t, exec (.powerdownDrainTimeout d) s = .next t ∧ (t.domain d).state = .on ∧ (t.domain d).closed = false ∧
        (t.domain d).held = [] ∧ (t.domain d).going = none ∧
        (x.attempts + 1 < 10 → (t.domain d).attempts = x.attempts + 1 ∧ t.cmd = s.cmd) ∧
        (∀ c f, x.cmd = some c → s.flight c = some f → f.aborts = [] → f.phase = .begun → 9 ≤ x.attempts →
          s.Completes f stPowerRefused [6, 0xFFFFFFFF] t ∧ t.domTarget d = x.before ∧ (t.domain d).cmd = none)) ∧
    (s.domTarget d = .off → s.awake d = true → x.since + 100000 ≤ s.clk → x.cmd = none →
      ∃ t, exec (.powerdownRetry d true) s = .next t ∧ (t.domain d).state = .off ∧ (t.domain d).closed = true) ∧
    (∀ src ctl cmd,
      (s.awake d = true → ∃ t, exec (.sluiceArrival d src ctl cmd) s = .next t ∧ t.domain d = { x with since := s.clk } ∧ t.cmd = s.cmd) ∧
      (s.awake d = false → ∃ t, exec (.sluiceArrival d src ctl cmd) s = .next t ∧
        (s.packetWakes d ctl = true → x.state = .retain → x.going = none → (t.domain d).going = some .on ∧ (t.domain d).state = .changing) ∧
        (x.going = some .on ∨ s.packetWakes d ctl = false →
          (t.domain d).held = (if x.held.length < 64 then x.held ++ [⟨src, ctl, s.clk, cmd⟩] else x.held) ∧
          (t.domain d).refused = (if x.held.length < 64 ∨ ctl = true then x.refused else x.refused ++ [⟨src, ctl, s.clk, cmd⟩]) ∧
          (t.domain d).state = x.state ∧ (t.domain d).going = x.going))) ∧
    (x.going = some .on → (x.cmd = none ∨ s.domTarget d = .on) →
      ∃ t, exec (.domainWakeDone d) s = .next t ∧ (t.domain d).state = .on ∧ (t.domain d).closed = false ∧ (t.domain d).held = [] ∧
        (t.domain d).refused = [] ∧ (t.domain d).wakes = sat32 (x.wakes + 1) ∧ (∀ q, q ≠ d → t.domain q = s.domain q) ∧
        (x.fromOff = true → domainKind d = 1 → ∀ c, coreDomain c = d → ∀ a,
          t.mem.pool.get 0 (c * 2 ^ 19 + a % 2 ^ 19) = 0) ∧
        (x.fromOff = false → t.mem = s.mem ∧ t.cpu = s.cpu) ∧
        ∀ c f, x.cmd = some c → s.flight c = some f → f.aborts = [] → f.phase = .begun → f.pk.f 0x10 3 0 = 1 → s.pwr.pkgOp = none →
          ∃ w, s.Completes f stDone [w] t ∧ w % 16 = 0) ∧
    (∀ p c f, s.domTarget d = .off → x.going = none → s.awake d = false → x.held = [p] → x.refused = [] → p.wakeClass = false →
      p.at_ + 100000 ≤ s.clk → p.cmd = some c → s.flight c = some f → f.aborts = [] → f.phase = .begun →
      ∃ t, exec (.sluiceHoldTimeout d) s = .next t ∧ (t.domain d).held = [] ∧ s.Completes f stDomainAsleep [] t))

/-- TRIM, POWER and IDLE_TIME set what they name within Table 18.5's ranges and refuse by Table 18.6 (R597, R608, R609, R613).
PKG_SLEEP puts reach groups in OFF and memory domains in RETAIN and remembers the targets; PKG_WAKE brings them back and
completes once every domain that it wakes is ON; PKG_OFF completes first and then takes the lasers and the power away (R605). -/
def Obligations.power_package : Prop :=
  (∀ (s : State) (path : Path) (pk : Packet) (f : Flight), s.Begins path pk f [] [] → pk.opcode = 0x020 →
    let op := pk.f 0x10 3 0
    let d := pk.f 0x10 13 8
    let v := pk.w 0x14
    let refused := fun (c : Nat) (u : State) => s.Completes f stPowerRefused [c, 0xFFFFFFFF] u ∧ u.pwr = s.pwr
    let sets := fun (w : Pwr) (u : State) => s.Completes f stDone [0] u ∧ u.pwr = w ∧ u.mem = s.mem ∧ u.cpu = s.cpu
    (op = 2 → ∃ u, exec (.setDomainTrim path pk) s = .next u ∧
      (56 ≤ d ∨ 40 < v ∨ v % 5 ≠ 0 → refused 1 u) ∧
      (d < 56 → v ≤ 40 → v % 5 = 0 →
        (domainKind d ≠ 1 → domainKind d ≠ 2 → refused 2 u) ∧
        (domainKind d = 1 ∨ domainKind d = 2 → (s.domBusy d = true → refused 6 u) ∧
          (s.domBusy d = false → (u.domain d).trim = v ∧ (u.domain d).cmd = some f.id ∧
            (∀ q, q ≠ d → u.domain q = s.domain q) ∧ u.cmd.committed = s.cmd.committed)))) ∧
    (op = 3 →
      let mode := pk.f 0x18 1 0
      let mv := pk.f 0x18 19 8
      let ok := 2000 ≤ v ∧ v ≤ 5000 ∧ mode ≠ 3 ∧ (mode = 2 → 600 ≤ mv ∧ mv ≤ 800)
      ∃ u, exec (.setDomainPower path pk) s = .next u ∧ (¬ok → refused 1 u) ∧ (ok → s.pwr.pkgOp ≠ none → refused 6 u) ∧
      (ok → s.pwr.pkgOp = none →
        sets { s.pwr with capW := v, mode := mode, fixedMv := if mode = 2 then mv else s.pwr.fixedMv } u)) ∧
    (op = 4 → ∃ u, exec (.setDomainIdleTime path pk) s = .next u ∧ (v < 10 ∨ 100000 < v → refused 1 u) ∧
      (10 ≤ v → v ≤ 100000 → (s.pwr.pkgOp ≠ none → refused 6 u) ∧ (s.pwr.pkgOp = none → sets { s.pwr with idleUs := v } u))) ∧
    (op = 7 →
      let bound := s.anyLive = true ∨ (∃ e ∈ s.pipe.slots, e.2.bound = true) ∨ (∃ e ∈ s.serv.models, e.2.bound = true) ∨
        (∃ e ∈ s.coll.groups, e.2.bound = true)
      ∃ u, exec (.pkgSleep path pk) s = .next u ∧ (bound → refused 5 u) ∧ (¬bound → s.pkgBusy = true → refused 6 u) ∧
      (¬bound → s.pkgBusy = false → s.Completes f stDone [0] u ∧ u.pwr.state = .sleep ∧
        u.pwr.remembered = (List.range 56).map s.domTarget ∧ u.mem = s.mem ∧
        ∀ d, d < 56 → (domainKind d = 1 → (u.domain d).state = .off ∧ u.domTarget d = .off) ∧
          (domainKind d = 4 ∨ domainKind d = 5 ∨ domainKind d = 8 → (u.domain d).state = .retain ∧ u.domTarget d = .retain) ∧
          (domainKind d ≠ 1 → domainKind d ≠ 4 → domainKind d ≠ 5 → domainKind d ≠ 8 → u.domain d = s.domain d))) ∧
    (op = 8 → s.pwr.state = .run → ∀ boot, ∃ u, exec (.pkgWake path pk boot) s = .next u ∧ refused (if s.pkgBusy then 6 else 7) u) ∧
    (op = 9 → s.pwr.actAt = none → ∃ u, exec (.pkgOff path pk) s = .next u ∧
      ((∃ e ∈ s.ten.parts, e.1 ≠ 0 ∧ e.2.state ≠ .free) → refused 5 u) ∧
      ((∀ e ∈ s.ten.parts, e.1 = 0 ∨ e.2.state = .free) → s.pkgBusy = true → refused 6 u) ∧
      ((∀ e ∈ s.ten.parts, e.1 = 0 ∨ e.2.state = .free) → s.pkgBusy = false → sets { s.pwr with pkgOp := some (f.id, 9) } u))) ∧
  (∀ (s : State) (path : Path) (pk : Packet) (t : Nat), s.pwr.actAt = some (t, 9) → t ≤ s.clk →
    ∃ u, exec (.pkgOff path pk) s = .next u ∧ u.pwr.state = .off ∧ u.link.lasersOff = true ∧ u.pkg.ready = false ∧
      ∀ d, d < 56 → domainKind d ≠ 6 → (u.domain d).state = .off) ∧
  (∀ (s : State) (path : Path) (pk : Packet) (f : Flight) (boot : Boot), s.pwr.state = .sleep →
    ({ s with pwr := { s.pwr with state := .run } } : State).Begins path pk f [] [] → pk.opcode = 0x020 → pk.f 0x10 3 0 = 8 →
    s.pkgBusy = false → s.pwr.remembered.length = 56 →
    ∃ u, exec (.pkgWake path pk boot) s = .next u ∧ u.pwr.remembered = [] ∧ u.mem = s.mem ∧
      (∀ d, d < 56 →
        let t := s.pwr.remembered.getD d .on
        u.domTarget d = t ∧ ((t = .on ∨ t = .auto) → ((s.domain d).state = .retain ∨ (s.domain d).state = .off) →
          (s.domain d).going = none → (u.domain d).state = .changing ∧ (u.domain d).going = some .on) ∧
          (t ≠ .on → t ≠ .auto → (u.domain d).state = (s.domain d).state)) ∧
      ((∀ d, d < 56 → (u.domain d).going ≠ some .on) → u.pwr.state = .run ∧ s.Completes f stDone [0] u) ∧
      ((∃ d, d < 56 ∧ (u.domain d).going = some .on) → u.pwr.state = .sleep ∧ u.pwr.pkgOp = some (f.id, 8) ∧
        u.cmd.committed = s.cmd.committed))

/-- The rail moves by 10 mV at most towards V_die with the highest trim, and TRIM completes when it has settled (R606 to R608).
The cap loops and the thermal loop move their limits between 600 and 800 mV (R609, R610), and 110 °C trips the package (R611).
PWR_WARN_N flushes the log and stops fetching until it rises (R621); a compute rail's fault retires its die, any other fault
and a lost REFCLK fence the package (R622, R660, R663); the loss of the rails loses all that is volatile (R662). -/
def Obligations.power_limits : Prop :=
  (∀ (s : State) (die : Nat), die < 8 →
    let x := s.die die
    let goal := s.railGoal die
    (x.railMv ≠ 0 → ∃ t, exec (.voltageStep die) s = .next t ∧
      (t.die die).railMv = (if x.railMv < goal then min goal (x.railMv + 10) else max goal (x.railMv - 10)) ∧
      (∀ q, q ≠ die → t.die q = s.die q) ∧
      (∀ d c f, die = d / 5 → d < 30 → (s.domain d).cmd = some c → s.flight c = some f → f.aborts = [] → f.phase = .begun →
        f.pk.f 0x10 3 0 = 2 → (∀ q, q ≠ d → (s.domain q).cmd = none) → goal ≤ x.railMv + 10 → x.railMv ≤ goal + 10 →
        ∃ w, s.Completes f stDone [w] t ∧ w / 256 % 64 = (s.domain d).trim % 64 ∧ (t.domain d).cmd = none)) ∧
    goal = (min 800 (s.vDie die + (if die < 6 then max (s.domain (5 * die)).trim (max (s.domain (5 * die + 1)).trim
      (max (s.domain (5 * die + 2)).trim (max (s.domain (5 * die + 3)).trim (s.domain (5 * die + 4)).trim))) else 0))) + 15 ∧
    600 ≤ s.vDie die ∧ (600 ≤ x.thermLimit → s.vDie die ≤ x.thermLimit) ∧ (600 ≤ s.modeTarget die → s.vDie die ≤ s.modeTarget die) ∧
    (die < 6 → 600 ≤ x.capLimit → s.vDie die ≤ x.capLimit) ∧
    (∀ temp sensor, temp < 110 → ∃ t, exec (.thermalPoll die temp sensor) s = .next t ∧ (t.die die).temp = temp ∧
      (100 < temp → x.stepAt + 100000 ≤ s.clk → (t.die die).thermLimit = max 600 (x.thermLimit - 5)) ∧
      (temp ≤ 95 → x.stepAt + 1000000 ≤ s.clk → (t.die die).thermLimit = min 800 (x.thermLimit + 5)) ∧
      (95 < temp → temp ≤ 100 → (t.die die).thermLimit = x.thermLimit) ∧ t.pwr.thermTrip = s.pwr.thermTrip ∧
      ∀ q, q < 8 → (t.die q).temp ≤ t.pwr.tempMax) ∧
    (∀ temp sensor, 110 ≤ temp → temp < 256 → s.pwr.thermTrip = false → s.pwr.fenced = false →
      ∃ t, exec (.thermalPoll die temp sensor) s = .next t ∧ t.pwr.thermTrip = true ∧ t.pwr.fenced = true ∧ t.pkg.ready = false ∧
        t.link.lasersOff = true)) ∧
  (∀ (s : State) (watts : Nat),
    let cap := s.pwr.capW
    let lim := fun (t : State) (g : Nat → Nat) => ∀ d, d < 6 → (t.die d).capLimit = max 600 (min 800 (g (s.die d).capLimit))
    (∃ t, exec (.capLoop watts) s = .next t ∧ t.pwr.inputW = watts ∧ t.pwr.measMj = sat64 (s.pwr.measMj + watts) ∧
      (cap < watts → lim t (· - 5)) ∧ (watts * 100 < 97 * cap → lim t (· + 5)) ∧
      (watts ≤ cap → 97 * cap ≤ watts * 100 → t.pwr.dies = s.pwr.dies)) ∧
    (105 * cap < 100 * watts → ∃ t, exec (.activityLoop watts) s = .next t ∧ lim t (· - 10) ∧ t.log = s.log) ∧
    (100 * watts ≤ 105 * cap → exec (.activityLoop watts) s = .next s)) ∧
  (∀ s : State,
    (s.pwr.warn = false → ∃ t, exec .pwrWarnFall s = .next t ∧ t.cmd.fetchStopped = true ∧ t.pwr.warn = true ∧ t.pwr.warnAt = s.clk ∧
      t.board.pwrWarnN = false ∧ (s.log.flush = none → ∃ e ∈ t.log.waiting, e.1 = 3) ∧ t.mem = s.mem ∧ t.cpu = s.cpu) ∧
    (s.pwr.warn = true → ∃ t, exec .pwrWarnRise s = .next t ∧ t.cmd.fetchStopped = false ∧ t.pwr.warn = false ∧
      t.board.pwrWarnN = true ∧ t.log.pwrFlushed = false ∧ t.mem = s.mem ∧ t.cpu = s.cpu) ∧
    (∀ rail status, rail < 6 → s.board.faults.contains rail = false → s.pwr.warn = false →
      ∃ t, exec (.pmbAlert [(rail, status)]) s = .next t ∧ rail ∈ t.board.faults ∧ bit t.pkg.cdOk rail = false ∧
        (bit s.pkg.cdOk rail = true → t.pkg.unitRetired = true) ∧ (t.die rail).railMv = 0) ∧
    (∀ rail status, 6 ≤ rail → rail < 20 → s.board.faults.contains rail = false → s.pwr.fenced = false →
      ∃ t, exec (.pmbAlert [(rail, status)]) s = .next t ∧ rail ∈ t.board.faults ∧ t.pwr.fenced = true ∧ t.pkg.ready = false) ∧
    (s.board.refclk = true → s.pwr.fenced = false → ∃ t, exec .refclkLoss s = .next t ∧ t.board.refclk = false ∧
      t.own.leaseOnOsc = true ∧ t.pwr.fenced = true ∧ t.pkg.ready = false) ∧
    (s.board.refclk = false → exec .refclkReturn s =
      .next { s with board := { s.board with refclk := true }, own := { s.own with leaseOnOsc := false } }) ∧
    (∃ t, exec (.railLoss [20]) s = .next t ∧ t.log.mram = s.log.mram ∧ t.log.ring = [] ∧ t.nor.cells = s.nor.cells ∧
      t.mem = {} ∧ t.cpu = {} ∧ t.ten = {} ∧ t.own = {} ∧ t.pkg.ready = false ∧ t.pwr = {}) ∧
    (∀ rails r, (20 : Nat) ∉ rails → r ∈ rails → 6 ≤ r → r < 20 → ∃ t, exec (.railLoss rails) s = .next t ∧ t.cpu.cores = [] ∧
      t.mem.bytes = [] ∧ t.mem.pool = [] ∧ t.ten = {} ∧ t.pipe = {} ∧ t.coll = {} ∧ t.serv = {} ∧ t.quay = {} ∧
      t.pkg.ready = false ∧ t.link = {} ∧ ∀ q, q ∈ rails → q < 20 → q ∈ t.board.faults))

/-- A cold reset leaves nothing but the MRAM and the NOR and comes up from an image that passes its checks, or not at all
without one (R614, R617, R619). RESET_N's fall clears what Table 18.7's warm column says, and its rise starts the package (R666).
SOFT_RESET completes first and acts when its time has come; the OWN block, the system time and PKG_ID stay (R613, R614).
DIE_RESET zeroes and retests its die alone, by Table 18.6's refusals (R616). PERST_N stops its port's rings and lets a host
lock-keeper on it lapse (R615); with PCLK running the port is in common-clock mode, else it runs with separate clocks (R664). An erase or a program changes the sector or the page of the slot that is not booted, and
COMMIT_SEC raises the fused minimum (R620). -/
def Obligations.resets : Prop :=
  (∀ (s : State) (boot : Boot), SoundBoot boot →
    ((∃ b, s.nor.good b) → ∃ t, exec (.coldReset boot) s = .next t ∧ t.Up ∧ t.own = {} ∧ t.mem.bytes = [] ∧ t.mem.pool = [] ∧
      t.mem.basin = [] ∧ t.cpu.cores = [] ∧ t.log.mram = s.log.mram ∧ t.nor.cells = s.nor.cells ∧ t.pwr.fenced = false ∧
      t.pkg.idValid = false ∧ t.time.mode ≠ .locked) ∧
    ((∀ b, ¬s.nor.good b) → ∃ t, exec (.coldReset boot) s = .next t ∧ t.pkg.ready = false ∧ t.mem.bytes = [] ∧
      ∃ k r, t.log.ring.get none k = some r ∧ r.code = 0x0E02)) ∧
  (∀ s : State, ∃ t, exec .warmReset s = .next t ∧ t.board.resetN = false ∧ t.pkg.ready = false ∧ t.link.lasersOff = true ∧
    t.mem = {} ∧ t.ten = {} ∧ t.quay = {} ∧ t.pipe = {} ∧ t.coll = {} ∧ t.serv = {} ∧ t.cpu = { retired := s.cpu.retired } ∧
    t.own.owner = none ∧ t.own.gen = s.own.gen ∧ t.time = s.time ∧ t.log.mram = s.log.mram ∧ t.pkg.idValid = false ∧
    t.pkg.cdOk = s.pkg.cdOk ∧ t.pkg.hsOk = s.pkg.hsOk ∧ t.pwr.fenced = false ∧ t.cmd.flights = [] ∧ t.nor.cells = s.nor.cells ∧
    (s.link.ports.wf {} = true → ∀ p, (t.port p).crcErrors = (s.port p).crcErrors ∧ (t.port p).replayed = (s.port p).replayed)) ∧
  (∀ (s : State) (boot : Boot),
    (s.board.resetN = true → exec (.resetRelease boot) s = .next s) ∧
    (s.board.resetN = false → s.log.flush.isSome → exec (.resetRelease boot) s = .next s) ∧
    (∀ u, exec .warmReset u = .next s → s.log.flush = none → SoundBoot boot → s.pkg.cdOk = 63 → (∃ b, s.nor.good b) →
      ∃ t, exec (.resetRelease boot) s = .next t ∧ t.Up ∧ t.board.resetN = true ∧ t.mem.bytes = [] ∧ t.own = s.own)) ∧
  (∀ (s : State) (path : Path) (pk : Packet) (f : Flight) (boot : Boot), s.Begins path pk f [] [] → pk.opcode = 0x020 →
    let op := pk.f 0x10 3 0
    let d := pk.f 0x10 13 8
    let refused := fun (c : Nat) (u : State) => s.Completes f stPowerRefused [c, 0xFFFFFFFF] u ∧ u.pwr = s.pwr ∧
      u.mem = s.mem ∧ u.cpu = s.cpu
    (op = 6 → s.pwr.actAt = none →
      (s.pkgBusy = true → ∃ u, exec (.softReset path pk boot) s = .next u ∧ refused 6 u) ∧
      (s.pkgBusy = false → ∃ u, exec (.softReset path pk boot) s = .next u ∧ s.Completes f stDone [0] u ∧ u.pwr.pkgOp = some (f.id, 6) ∧ u.mem = s.mem ∧
        u.cpu = s.cpu ∧ u.ten = s.ten)) ∧
    (op = 8 → s.pwr.state = .off → SoundBoot boot → s.pkg.cdOk = 63 → (∃ b, s.nor.good b) →
      ∃ u, exec (.pkgWake path pk boot) s = .next u ∧ u.Up ∧ u.pwr.state = .run ∧ u.own = s.own ∧ u.time = s.time ∧
        (s.cmd.flights = [f] → u.cmd.flights = [])) ∧
    (op = 5 → ∀ mods bad ms,
      let live := (List.range 4).any (fun g => s.liveDep (5 * d + g)) = true
      let cause := if 6 ≤ d then 1 else if live then 5 else if s.pkgBusy = true then 6 else 7
      (6 ≤ d ∨ live ∨ s.pkgBusy = true ∨ bit s.pkg.cdOk d = false →
        ∃ u, exec (.dieReset path pk mods bad ms) s = .next u ∧ refused cause u) ∧
      (d < 6 → ¬live → s.pkgBusy = false → bit s.pkg.cdOk d = true → bad = [] → mods = [255, 255, 255] →
        (∀ i, i < 11 → (s.pair i).up = true) →
        ∃ u, exec (.dieReset path pk mods bad ms) s = .next u ∧ s.Completes f stDone [0] u ∧
          (∀ a, a / 2 ^ 19 / 256 = d → u.mem.pool.get 0 a = 0) ∧ (∀ a, a / 2 ^ 19 / 256 ≠ d → u.mem.pool.get 0 a = s.mem.pool.get 0 a) ∧
          u.mem.bytes = s.mem.bytes ∧
          (∀ c, c < 1536 → c / 256 = d → u.core c = { handlerMode := (s.core c).handlerMode } ∧ u.cpu.remap.get none c = none) ∧
          (∀ c, c < 1536 → c / 256 ≠ d → u.core c = s.core c) ∧ (∀ p, p / 272 = d → u.cpu.retired.get false p = false) ∧
          (∀ g, g < 5 → u.awake (5 * d + g) = true)))) ∧
  (∀ (s : State) (path : Path) (pk : Packet) (boot : Boot) (at_ : Nat), s.pwr.actAt = some (at_, 6) →
    (s.clk < at_ → exec (.softReset path pk boot) s = .next s) ∧
    (at_ ≤ s.clk → SoundBoot boot → s.pkg.cdOk = 63 → (∃ b, s.nor.good b) →
      (∀ o g, s.own.offer = some o → g ∈ s.cmd.flights → g.id = o.cmd → s.actsFor g = 0) →
      ∃ t, exec (.softReset path pk boot) s = .next t ∧ t.Up ∧ t.own = s.own ∧ t.time = s.time ∧ t.mem.bytes = [] ∧ t.mem.pool = [] ∧
        t.cpu.cores = [] ∧ t.pkg.packageId = s.pkg.packageId ∧ t.pkg.idValid = s.pkg.idValid ∧ t.pwr.fenced = false ∧
        (∀ n, (t.ring n).enable = false) ∧ t.quay = {} ∧ t.pipe = {} ∧ t.coll = {} ∧ t.serv = {})) ∧
  (∀ (s : State) (port : Nat) (high pclk : Bool), port < 2 → ∃ t, exec (.perstAssert port high pclk) s = .next t ∧
    (∀ n, n < 65 → (s.ring n).enable = true → (s.ring n).hostPort = port → (t.ring n).enable = false ∧
      (n ≠ 0 → s.inflight (.ring n) ≠ 0 → (t.ring n).draining = true)) ∧
    (∀ n, n ≠ 0 → ((s.ring n).enable = false ∨ (s.ring n).hostPort ≠ port) → (t.ring n).enable = (s.ring n).enable) ∧
    (s.own.owner = some (if port = 0 then .host0 else .host1) → t.own.owner = none ∧ t.own.token = 0) ∧
    (s.own.owner ≠ some (if port = 0 then .host0 else .host1) → t.own = s.own) ∧
    t.mem = { s.mem with aer := s.mem.aer.put false port false } ∧ t.cpu = s.cpu ∧ t.ten = s.ten ∧
    (if port = 0 then t.board.perst0N else t.board.perst1N) = high ∧ (if port = 0 then t.board.common0 else t.board.common1) = pclk) ∧
  (∀ (s : State) (m : Master),
    let b := s.pkg.bootSlot
    let denied : State := { s with own := { s.own with denied := sat32 (s.own.denied + 1) } }
    (s.isOwner m = false → exec (.norErase m 1) s = .next denied ∧ exec (.norProgram m 2) s = .next denied ∧
      exec (.commitSec m 4) s = .next denied) ∧
    (s.isOwner m = true →
      (s.nor.busy = true → exec (.norErase m 1) s = .next s ∧ exec (.norProgram m 2) s = .next s) ∧
      (s.nor.busy = false → s.nor.addr < 0x8000000 → (0x4000000 ≤ s.nor.addr ↔ b = false) →
        exec (.norErase m 1) s = .next { s with nor := { s.nor with busy := true, op := 1, err := false } } ∧
        exec (.norProgram m 2) s = .next { s with nor := { s.nor with busy := true, op := 2, err := false } }) ∧
      (s.nor.busy = false → (0x8000000 ≤ s.nor.addr ∨ (0x4000000 ≤ s.nor.addr ↔ b = true)) →
        exec (.norErase m 1) s = .next { s with nor := { s.nor with err := true } } ∧
        exec (.norProgram m 2) s = .next { s with nor := { s.nor with err := true } }) ∧
      (s.pkg.ready = true → exec (.commitSec m 4) s =
        .next { s with nor := { s.nor with fusedMin := max s.nor.fusedMin (s.nor.slot b).secVersion } }) ∧
      (s.pkg.ready = false → exec (.commitSec m 4) s = .next { s with nor := { s.nor with err := true } }))) ∧
  (∀ s : State, s.nor.busy = true →
    exec (.norOpDone false) s = .next { s with nor := { s.nor with busy := false, op := 0, err := true } } ∧
    ∃ t, exec (.norOpDone true) s = .next t ∧ t.nor.busy = false ∧ t.nor.err = s.nor.err ∧
      t.nor.slot s.pkg.bootSlot = s.nor.slot s.pkg.bootSlot ∧ t.mem = s.mem ∧
      (s.nor.op = 1 → ∀ k, t.nor.cells.get 0xFF k = if k / 65536 = s.nor.addr / 65536 then 0xFF else s.nor.cells.get 0xFF k) ∧
      (s.nor.op = 2 → ∀ k, t.nor.cells.get 0xFF k = if k / 4096 = s.nor.addr / 4096
        then s.nor.cells.get 0xFF k &&& s.nor.window.get 0 (k % 4096) else s.nor.cells.get 0xFF k))

/-- A TAP reset selects IDCODE, whose register gives the identification value, and leaves the block as it is (R637, R639); an instruction scan captures UNLOCKED and READY and selects by
Table 20.1 (R638); Update-DR loads the boundary register and drives the pins only while RESET_N is low (R651). A key that matches
unlocks, the third that differs locks (R641); the lock ends as R642 says, and the TAP is denied what R642 does not give it. -/
def Obligations.debug_tap : Prop :=
  ∀ (s : State),
    (∃ t, exec .tapReset s = .next t ∧ t.dbg = { s.dbg with tap := .idcode, ir := 2, drOut := 0x0153694B } ∧ t.board.scanOn = false ∧ t.pkg = s.pkg) ∧
    (∀ code, code < 256 → ∃ t, exec (.tapIrScan code) s = .next t ∧
      t.dbg = {
        s.dbg with tap := TapInstr.ofCode code, ir := code,
                   irOut := 1 + (if s.dbg.lock = .unlocked then 4 else 0) + (if s.pkg.ready then 8 else 0),
                   drOut := t.dbg.drOut } ∧
      (code = 2 → t.dbg.drOut = 0x0153694B) ∧
      (code = 17 → t.dbg.drOut = s.dbg.accResult * 2 ^ 64 + s.dbg.accOffset * 2 ^ 32 + s.dbg.accData) ∧
      (s.board.resetN = true → t.board.scanOn = false ∧ t.board.scan = []) ∧
      (s.board.resetN = false → code = 3 → t.board.scanOn = true ∧ t.board.scan = []) ∧
      (s.board.resetN = false → code = 0 ∨ code = 4 → t.board.scanOn = true ∧ t.board.scan = drivenPins s.dbg.boundary)) ∧
    (∀ v, (s.dbg.tap = .extest → s.board.resetN = true → exec (.extest v) s = .next s) ∧
      (s.dbg.tap = .extest → s.board.resetN = false → exec (.extest v) s = .next {
        s with dbg := { s.dbg with boundary := v % 2 ^ 18 }, board := { s.board with scanOn := true, scan := drivenPins (v % 2 ^ 18) } }) ∧
      (s.dbg.tap = .sample → ∃ t, exec (.extest v) s = .next t ∧ t.dbg = { s.dbg with boundary := v % 2 ^ 18 } ∧
        t.board.scanOn = false)) ∧
    (∀ v, s.dbg.tap = .dbgKey →
      (s.dbg.lock ≠ .armed → exec (.dbgKey v) s = .next s) ∧
      (s.dbg.lock = .armed → v % 2 ^ 32 = s.dbg.key → ∃ t, exec (.dbgKey v) s = .next t ∧ t.dbg = {
        s.dbg with lock := .unlocked, key := 0, leftEnd := s.clk + s.dbg.life * 1000000000 } ∧ t.mem = s.mem ∧ t.cpu = s.cpu) ∧
      (s.dbg.lock = .armed → v % 2 ^ 32 ≠ s.dbg.key → ∃ t, exec (.dbgKey v) s = .next t ∧ t.dbg.fails = s.dbg.fails + 1 ∧
        (s.dbg.fails < 2 → t.dbg.lock = .armed ∧ t.dbg.key = s.dbg.key) ∧
        (2 ≤ s.dbg.fails → t.dbg.lock = .locked ∧ t.dbg.key = 0))) ∧
    (∀ m v, (s.isOwner m = true → v % 2 ^ 32 ≠ 0 → exec (.dbgKeySet m v) s =
        .next { s with dbg := { s.dbg with lock := .armed, key := v % 2 ^ 32, fails := 0 } }) ∧
      (s.isOwner m = true → v % 2 ^ 32 = 0 → ∃ t, exec (.dbgKeySet m v) s = .next t ∧ t.dbg.lock = .locked) ∧
      (s.isOwner m = false → exec (.dbgKeySet m v) s = .next { s with own := { s.own with denied := sat32 (s.own.denied + 1) } })) ∧
    (s.dbg.lock = .unlocked → s.dbg.leftEnd ≤ s.clk → ∃ t, exec .dbgUnlockExpire s = .next t ∧ t.dbg.lock = .locked ∧ t.dbg.key = 0) ∧
    (∀ op off data ue, s.dbg.tap = .dbgAccess → op = 1 ∨ op = 2 →
      (s.dbg.lock ≠ .unlocked → ¬(op = 1 ∧ (off = 0 ∨ off = 0xC)) → exec (.dbgAccess op off data ue) s =
        .next { s with dbg := { s.dbg with accResult := 2, accOffset := off, drOut := 2 ^ 65 + off * 2 ^ 32 + s.dbg.accData } }) ∧
      (s.dbg.lock = .unlocked → op = 2 → off = 4 ∨ off = 8 → exec (.dbgAccess op off data ue) s =
        .next { s with dbg := { s.dbg with accResult := 2, accOffset := off, drOut := 2 ^ 65 + off * 2 ^ 32 + s.dbg.accData } }) ∧
      (s.dbg.lock = .unlocked → off % 4 ≠ 0 ∨ 0x100000 ≤ off → exec (.dbgAccess op off data ue) s =
        .next {
          s with dbg := { s.dbg with accResult := 3, accOffset := off, drOut := 3 * 2 ^ 64 + off * 2 ^ 32 + s.dbg.accData } }) ∧
      (s.dbg.lock = .unlocked → op = 2 → off = 0x14 → exec (.dbgAccess op off data ue) s =
        .next {
          s with dbg := { s.dbg with arg := data % 2 ^ 32, accResult := 0, accOffset := off, drOut := off * 2 ^ 32 + s.dbg.accData } }) ∧
      (s.dbg.lock = .unlocked → op = 1 → off = 0x14 → s.dbg.arg < 2 ^ 32 → ∃ t, exec (.dbgAccess op off data ue) s = .next t ∧
        t.dbg = { s.dbg with accResult := 0, accOffset := off, accData := s.dbg.arg, drOut := off * 2 ^ 32 + s.dbg.arg }))

/-- DBG_CMD checks every core by Table 20.5 and a second one while BUSY counts REJECTED (R644). HALT stops a core at a
command boundary, RESUME and STEP let it go on, a finished step halts it, and breakpoints are set and cleared (R645 to R648).
A memory transfer that passes R650's checks waits until its buckets let it go on, and then reads or writes through the partition's
translation; one that fails them writes nothing. -/
def Obligations.debug_block : Prop :=
  (∀ (s : State) (src : Option Master) (v : Nat), (src = none → s.dbg.lock = .unlocked) → (∀ m, src = some m → s.isOwner m = true) →
    let c := bits v 26 16
    let k := s.core c
    let b := bits v 7 6
    let taken := fun (t : State) (r n : Nat) => t.dbg.result = r ∧ t.dbg.cores = n ∧ t.dbg.busyEnd ≤ s.clk + 10000 ∧
      t.mem = s.mem ∧ t.fresh = s.fresh + 1
    let rejected : State := { s with dbg := { s.dbg with rejected := sat8 (s.dbg.rejected + 1) } }
    let allowed := s.mapped c = true ∧ s.coreOwner c ≠ 0 ∧ k.handlerMode = false ∧ (s.part (s.coreOwner c)).dbgPerm ≠ 0
    let cause := if 1536 ≤ c then 5 else if s.mapped c = false then 6 else if s.coreOwner c = 0 ∨ k.handlerMode = true then 2 else 1
    let refused := fun (t : State) => taken t cause 0 ∧ t.cpu = s.cpu
    let here := bits v 4 4 = 0 ∧ c < 1536 ∧ allowed
    (s.clk < s.dbg.busyEnd →
      (bits v 3 0 = 1 → exec (.halt src v) s = .next rejected) ∧ (bits v 3 0 = 2 → exec (.resume src v) s = .next rejected) ∧
      (bits v 3 0 = 3 → exec (.step src v) s = .next rejected) ∧ (bits v 3 0 = 4 → exec (.setBp src v) s = .next rejected) ∧
      (bits v 3 0 = 5 → exec (.clearBp src v) s = .next rejected)) ∧
    (s.dbg.busyEnd ≤ s.clk →
      (bits v 4 4 = 0 → ¬(c < 1536 ∧ allowed) →
        (bits v 3 0 = 1 → ∃ t, exec (.halt src v) s = .next t ∧ refused t) ∧
        (bits v 3 0 = 2 → ∃ t, exec (.resume src v) s = .next t ∧ refused t) ∧
        (bits v 3 0 = 3 → 1 ≤ s.dbg.arg → s.dbg.arg ≤ 65535 → ∃ t, exec (.step src v) s = .next t ∧ refused t) ∧
        (bits v 3 0 = 4 → ∃ t, exec (.setBp src v) s = .next t ∧ refused t) ∧
        (bits v 3 0 = 5 → ∃ t, exec (.clearBp src v) s = .next t ∧ refused t)) ∧
      (here →
        (bits v 3 0 = 1 → k.state = .running → k.faulting = none → ∃ t, exec (.halt src v) s = .next t ∧ taken t 0 1 ∧
          ((∀ p ∈ k.pushes, p.wait = .queued) → (t.core c).state = .halted ∧ (t.core c).dbgHalt = true ∧ (t.core c).pc = k.pc ∧
            (t.core c).pushCount = k.pushCount ∧ (k.array.state ≠ .frozen → (t.core c).pushes = k.pushes) ∧
            (k.array.state = .frozen → (t.core c).ax = [])) ∧
          (k.forced = false → (∃ p ∈ k.pushes, p.wait ≠ .queued ∧ p.wait ≠ .stuck) →
            (t.core c).state = .running ∧ (t.core c).halting = true)) ∧
        (bits v 3 0 = 1 → k.state = .moving → k.movedFrom = .running → ∃ t, exec (.halt src v) s = .next t ∧ taken t 0 1 ∧
          (t.core c).state = .moving ∧ (t.core c).halting = true) ∧
        (bits v 3 0 = 1 → k.state = .halted ∨ k.state = .idle ∨ k.state = .faulted → ∃ t, exec (.halt src v) s = .next t ∧
          taken t 0 0 ∧ t.cpu = s.cpu) ∧
        (bits v 3 0 = 2 → k.state = .halted → k.holder ≠ .none → k.faulting = none → k.halting = false → k.ended = false →
          k.pc ≠ k.truncate → ∃ t, exec (.resume src v) s = .next t ∧ taken t 0 1 ∧ (t.core c).state = .running ∧
            (t.core c).dbgHalt = false ∧ (t.core c).pc = k.pc ∧ (t.core c).pushes = k.pushes) ∧
        (bits v 3 0 = 2 → k.state ≠ .halted ∨ k.holder = .none → ∃ t, exec (.resume src v) s = .next t ∧ taken t 3 0 ∧ t.cpu = s.cpu) ∧
        (bits v 3 0 = 3 → 1 ≤ s.dbg.arg → s.dbg.arg ≤ 65535 → k.state = .halted → k.faulting = none → k.halting = false →
          k.ended = false → k.pc ≠ k.truncate → ∃ t, exec (.step src v) s = .next t ∧ taken t 0 1 ∧ (t.core c).state = .running ∧
            (t.core c).stepping = true ∧ (t.core c).stepLeft = s.dbg.arg ∧ (t.core c).hitBp = none ∧ (t.core c).pc = k.pc) ∧
        (bits v 3 0 = 3 → s.dbg.arg = 0 ∨ 65535 < s.dbg.arg → ∃ t, exec (.step src v) s = .next t ∧ taken t 5 0 ∧ t.cpu = s.cpu) ∧
        (bits v 3 0 = 3 → 1 ≤ s.dbg.arg → s.dbg.arg ≤ 65535 → k.state ≠ .halted → ∃ t, exec (.step src v) s = .next t ∧
          taken t 3 0 ∧ t.cpu = s.cpu) ∧
        (bits v 3 0 = 4 → ∃ t, exec (.setBp src v) s = .next t ∧ taken t 0 1 ∧
          (t.core c).bps.get {} b = ⟨true, bit v 5, bit v 27, false, s.dbg.arg⟩ ∧
          (∀ i, i ≠ b → (t.core c).bps.get {} i = k.bps.get {} i) ∧ (t.core c).state = k.state ∧ ∀ d, d ≠ c → t.core d = s.core d) ∧
        (bits v 3 0 = 5 → ∃ t, exec (.clearBp src v) s = .next t ∧ taken t 0 1 ∧ (t.core c).bps.get {} b = {} ∧
          (∀ i, i ≠ b → (t.core c).bps.get {} i = k.bps.get {} i) ∧ (t.core c).state = k.state ∧ ∀ d, d ≠ c → t.core d = s.core d)))) ∧
  (∀ (s : State) (c : Nat), c < 1536 →
    let k := s.core c
    k.stepping = true → k.state = .running → k.faulting = none → k.halting = false → k.stopping = true ∨ k.ended = true →
    (k.pushes = [] → ∃ t, exec (.dbgStepDone c) s = .next t ∧ (t.core c).state = .halted ∧ (t.core c).dbgHalt = true ∧
      (t.core c).stepping = false ∧ (t.core c).pc = k.pc ∧ t.mem = s.mem) ∧
    (k.pushes ≠ [] → exec (.dbgStepDone c) s = .next s)) ∧
  (∀ (s : State) (src : Option Master) (v : Nat) (ue : List Nat), (src = none → s.dbg.lock = .unlocked) →
    (∀ m, src = some m → s.isOwner m = true) →
    let n := bits v 22 16 + 1
    let part := bits v 15 8
    let va := s.dbg.memVa
    let ends := fun (x : State) (r : Nat) => { x with
      fresh := x.fresh + 1, dbg := { x.dbg with memEnd := x.clk + Config.dbgBusyNs x.fresh, memResult := r } }
    let p := s.notePairs part [(va, 64 * n)]
    let a : State := { p with fresh := p.fresh + 1, dbg := { p.dbg with memEnd := p.clk + Config.dbgBusyNs p.fresh } }
    let rejected : State := { s with dbg := { s.dbg with rejected := sat8 (s.dbg.rejected + 1) } }
    let absent := s.extentFault part va (64 * n) false ≠ none ∨ s.extentAsleep part va (64 * n) = true
    let still := ∀ i, i < n → s.onChipStill part (va + 64 * i) = true
    (s.clk < s.dbg.memEnd → (bits v 1 0 = 1 → exec (.dbgMemRead src v ue) s = .next rejected) ∧
      (bits v 1 0 = 2 → exec (.dbgMemWrite src v ue) s = .next rejected)) ∧
    (s.dbg.memEnd ≤ s.clk →
      (part = 0 → (bits v 1 0 = 1 → exec (.dbgMemRead src v ue) s = .next (ends s 2)) ∧
        (bits v 1 0 = 2 → exec (.dbgMemWrite src v ue) s = .next (ends s 2))) ∧
      (1 ≤ part → 64 < part ∨ 64 < n ∨ va % 64 ≠ 0 ∨ 4096 < va % 4096 + 64 * n →
        (bits v 1 0 = 1 → exec (.dbgMemRead src v ue) s = .next (ends s 5)) ∧
        (bits v 1 0 = 2 → exec (.dbgMemWrite src v ue) s = .next (ends s 5))) ∧
      (1 ≤ part → part ≤ 64 → n ≤ 64 → va % 64 = 0 → va % 4096 + 64 * n ≤ 4096 →
        ((s.part part).dbgPerm < 2 → (bits v 1 0 = 1 → exec (.dbgMemRead src v ue) s = .next (ends s 1)) ∧
          (bits v 1 0 = 2 → exec (.dbgMemWrite src v ue) s = .next (ends s 1))) ∧
        (2 ≤ (s.part part).dbgPerm → absent → (bits v 1 0 = 1 → exec (.dbgMemRead src v ue) s = .next (ends p 0x10)) ∧
          (bits v 1 0 = 2 → exec (.dbgMemWrite src v ue) s = .next (ends p 0x10))) ∧
        (2 ≤ (s.part part).dbgPerm → ¬absent →
          (bits v 1 0 = 1 → s.extentMayProceed part 6 va (64 * n) false = false →
            exec (.dbgMemRead src v ue) s = .next (s.waitFor (.debug va) part (s.extentNeeds part 6 va (64 * n) false))) ∧
          (bits v 1 0 = 1 → s.extentMayProceed part 6 va (64 * n) false = true →
            let w := a.chargeExtent part 6 va (64 * n) false
            ∃ t, exec (.dbgMemRead src v ue) s = .next t ∧ (∀ i, i < n →
              (w.debugLine ue part (va + 64 * i) = none → bit t.dbg.memPoison i = true ∧
                t.dbg.window.getAll 0 (64 * i) 64 = List.replicate 64 0) ∧
              (∀ bs, w.debugLine ue part (va + 64 * i) = some bs → bit t.dbg.memPoison i = false ∧
                t.dbg.window.getAll 0 (64 * i) 64 = bs)) ∧
            ((∀ i, i < n → w.debugLine ue part (va + 64 * i) ≠ none) → t.dbg.memResult = 0) ∧
            ((∃ i, i < n ∧ w.debugLine ue part (va + 64 * i) = none) → t.dbg.memResult = 0x13) ∧ t.mem.bytes = s.mem.bytes ∧
            t.mem.pool = s.mem.pool) ∧
          (bits v 1 0 = 2 → s.extentFault part va (64 * n) true ≠ none → exec (.dbgMemWrite src v ue) s = .next (ends p 0x11)) ∧
          (bits v 1 0 = 2 → s.extentFault part va (64 * n) true = none →
            (¬still → exec (.dbgMemWrite src v ue) s = .next (ends p 0x12)) ∧
            (still → s.extentMayProceed part 6 va (64 * n) true = false →
              exec (.dbgMemWrite src v ue) s = .next (s.waitFor (.debug va) part (s.extentNeeds part 6 va (64 * n) true))) ∧
            (still → s.extentMayProceed part 6 va (64 * n) true = true →
              let w := (a.chargeExtent part 6 va (64 * n) true).writeVA part va (s.dbg.window.getAll 0 0 (64 * n))
              ∃ t, exec (.dbgMemWrite src v ue) s = .next t ∧ t.mem = w.mem ∧ t.cpu = w.cpu ∧ t.ten = w.ten ∧ t.dbg.memResult = 0 ∧
                t.dbg.memPoison = 0 ∧ t.dbg.window = s.dbg.window))))))

/-- A LOOPBACK or TRAFFIC_GEN that Table 20.8 refuses changes nothing; ENTER puts every unit of the tier that is not LOST in TEST, a
LOOPBACK of a unit does so and starts its run, and puts the controller of a lost unit in TEST whoever holds the tier; EXIT brings
the units back over zero memory (R241, R652 to R654). A LOOPBACK's
end completes it with the words of R656; a PHY_NEAR error that lane repair does not cover loses the unit, a NEAR failure
retires the port (R654, R655). -/
def Obligations.bring_up_tests : Prop :=
  (∀ (s : State) (path : Path) (pk : Packet) (f : Flight),
    let u := pk.f 0x10 12 8
    let mode := pk.f 0x10 3 2
    let us := pk.w 0x14
    let ok := (mode = 1 ∨ mode = 2) ∧ 1 ≤ us ∧ us ≤ 10000000
    let refused := fun (c : Nat) (t : State) => s.Completes f stDebugRefused [c, 0xFFFFFFFF] t ∧ t.mem = s.mem ∧
      t.link = s.link ∧ t.pkg = s.pkg
    let taken := fun (x : Nat) => if (s.ctrl x).state = .lost then UnitState.lost else .test
    (pk.opcode = 0x901 → pk.f 0x10 1 0 ≠ 2 → (pk.f 0x10 1 0 ≠ 1 ∨ 28 ≤ u ∨ ¬ok) →
      s.Begins path pk f [] (if u < 28 then [unitDomain u] else []) → ∃ t, exec (.loopbackMem path pk) s = .next t ∧ refused 1 t) ∧
    (pk.opcode = 0x901 → pk.f 0x10 1 0 = 1 → u < 28 → ok → s.Begins path pk f [] [unitDomain u] →
      let t := unitTier u
      let gone := s.pkg.unitLost u = true
      (s.mayTest t = false → ¬gone → ∃ w, exec (.loopbackMem path pk) s = .next w ∧ refused 2 w) ∧
      (s.mayTest t = true ∨ gone → s.testBusy t = true → ∃ w, exec (.loopbackMem path pk) s = .next w ∧ refused 4 w) ∧
      (s.mayTest t = true ∨ gone → s.testBusy t = false → ∃ w, exec (.loopbackMem path pk) s = .next w ∧ (w.ctrl u).lbRunning = true ∧
        (w.ctrl u).lbMode = mode ∧ (w.ctrl u).lbErr = 0 ∧ (w.ctrl u).lbStatus = 0 ∧ (w.ctrl u).lbStart = s.clk ∧
        w.mem.tests = s.mem.tests ++ [(f.id, u)] ∧ w.cmd.committed = s.cmd.committed ∧ w.mem.bytes = s.mem.bytes ∧
        (gone → (w.ctrl u).state = .test) ∧ (¬gone → s.tierTested t = false → (w.ctrl u).state = taken u) ∧
        (∀ x, x < 28 → x ≠ u → unitTier x = t → s.mayTest t = true → s.tierTested t = false → (w.ctrl x).state = taken x) ∧
        (∀ x, x ≠ u → unitTier x ≠ t ∨ s.mayTest t = false ∨ s.tierTested t = true → w.ctrl x = s.ctrl x))) ∧
    (pk.opcode = 0x901 → pk.f 0x10 1 0 = 2 → s.Begins path pk f [] (if u < 24 then [portDomain u] else []) →
      let p := s.port u
      let still := p.state = .disabled ∨ p.state = .parked ∨ p.state = .down
      let parent := s.time.enable = true ∧ s.time.parentPort = u
      let cause := if 24 ≤ u ∨ ¬ok then 1 else if ¬still then 2 else if parent then 3 else 4
      (24 ≤ u ∨ ¬ok ∨ ¬still ∨ parent ∨ p.loop ≠ none → ∃ t, exec (.loopbackPort path pk) s = .next t ∧ refused cause t) ∧
      (u < 24 → ok → still → ¬parent → p.loop = none → ∃ w, exec (.loopbackPort path pk) s = .next w ∧
        w.port u = { p with loop := some (f.id, mode, s.clk, p.state) } ∧ (∀ q, q ≠ u → w.port q = s.port q) ∧
        w.cmd.committed = s.cmd.committed ∧ w.mem = s.mem)) ∧
    (let t := pk.f 0x10 2 2
     pk.opcode = 0x902 → s.Begins path pk f [] ((tierUnits t).map unitDomain) →
      (pk.f 0x10 1 0 ≠ 2 →
        let cause := if pk.f 0x10 1 0 ≠ 1 then 1 else if s.mayTest t = false then 2 else 4
        (pk.f 0x10 1 0 ≠ 1 ∨ s.mayTest t = false ∨ s.testBusy t = true →
          ∃ w, exec (.trafficGenEnter path pk) s = .next w ∧ refused cause w) ∧
        (pk.f 0x10 1 0 = 1 → s.mayTest t = true → s.testBusy t = false → ∃ w, exec (.trafficGenEnter path pk) s = .next w ∧
          s.Completes f stDone [] w ∧ w.mem.bytes = s.mem.bytes ∧
          (s.tierTested t = false → ∀ x, x < 28 → unitTier x = t → (w.ctrl x).state = taken x) ∧
          (∀ x, x < 28 → unitTier x ≠ t ∨ s.tierTested t = true → w.ctrl x = s.ctrl x))) ∧
      (pk.f 0x10 1 0 = 2 → ∀ bad,
        let whole := ∃ x, x < 28 ∧ unitTier x = t ∧ (s.ctrl x).state = .test ∧ s.pkg.unitLost x = false
        let cause := if s.tierInTest t = false then 2 else 4
        (s.tierInTest t = false ∨ s.testBusy t = true → ∃ w, exec (.trafficGenExit path pk bad) s = .next w ∧ refused cause w) ∧
        (s.tierInTest t = true → s.testBusy t = false → bad = [] → ∃ w, exec (.trafficGenExit path pk bad) s = .next w ∧
          s.Completes f stDone [] w ∧
          (∀ x, x < 28 → unitTier x = t → (w.ctrl x).tgBusy = false ∧ (w.ctrl x).lbRunning = false ∧
            (w.ctrl x).state = (if s.pkg.unitLost x = true then .lost else if (s.ctrl x).state ≠ .test then (s.ctrl x).state
              else if (if t = 0 then s.mem.lost1 else s.mem.lost2) = none then .service else .relocated)) ∧
          (∀ x, x < 28 → unitTier x ≠ t → w.ctrl x = s.ctrl x) ∧
          (whole → ∀ a, w.mem.bytes.get 0 a = if tierOf a = t then 0 else s.mem.bytes.get 0 a) ∧
          (¬whole → w.mem.bytes = s.mem.bytes))))) ∧
  (∀ (s : State) (u cmd st er mb : Nat) (rep : Bool) (f : Flight), u < 28 → (s.ctrl u).lbRunning = true → s.loopCmd u = some cmd →
    s.flight cmd = some f → f.phase = .begun → f.aborts = [] → 0 < f.pk.w 0x14 → (s.ctrl u).lbStart + 1000 * f.pk.w 0x14 ≤ s.clk →
    st < 2 ^ 32 → er < 2 ^ 32 →
    let near := (s.ctrl u).lbMode = 1
    let lose := near ∧ (er ≠ 0 ∨ st ≠ 0) ∧ ¬(rep = true ∧ u < 12)
    ∃ t, exec (.memLbDurationEnd u st er mb rep) s = .next t ∧ (t.ctrl u).lbRunning = false ∧ (∀ e ∈ t.mem.tests, e.1 ≠ cmd) ∧
      (lose → s.pkg.unitLost u = false → (t.ctrl u).state = .lost) ∧
      (¬lose → s.Completes f stDone [st, er, sat32 mb, if s.pkg.unitLost u = true then 2 else 0] t ∧ (t.ctrl u).state = (s.ctrl u).state ∧ t.mem.bytes = s.mem.bytes)) ∧
  (∀ (s : State) (p cmd mode since before lanes errs mb : Nat) (st : PortState) (f : Flight), p < 24 →
    (s.port p).loop = some (cmd, mode, since, st) → s.flight cmd = some f → f.phase = .begun → f.aborts = [] → before = since + 1000 * f.pk.w 0x14 →
    (s.clk < before → exec (.portLoopbackEnd p lanes errs mb) s = .next s) ∧
    (before ≤ s.clk →
      let bad := lanes % 256 ≠ 0 ∨ errs ≠ 0
      ∃ t, exec (.portLoopbackEnd p lanes errs mb) s = .next t ∧ (t.port p).loop = none ∧ (t.port p).state = st ∧
        (bad → mode = 1 → bit t.pkg.cpOk p = false ∧ (bit s.pkg.cpOk p = true → t.pkg.unitRetired = true)) ∧
        (¬(bad ∧ mode = 1) → t.pkg = s.pkg) ∧
        s.Completes f stDone [lanes % 256, sat32 errs, sat32 mb, if bit t.pkg.cpOk p then 0 else 1] t))

/-- A step with a command at the front of the queue is that command's effect on the state with the queue's rest. With an empty
queue a nanosecond passes and nothing is taken (the model's choice: log entry 4). -/
def Obligations.step_runs_front : Prop :=
  (∀ (c : Instr) (s : State), step { s with pending := c :: s.pending } = exec c s) ∧
  (∀ s : State, s.pending = [] → ∃ t, step s = .next t ∧ t.clk = s.clk + 1 ∧ t.pending = [] ∧ t.mem = s.mem ∧ t.cmd = s.cmd)

/-- A command that names units the package has and values that it can carry is answered with a next state in every state; no
command is ever refused; and the only stop is that of a command naming a unit that the package does not have. So a step
goes on whenever every waiting command is well formed. -/
def Obligations.commands_answered : Prop :=
  (∀ (i : Instr) (s : State), i.wf = true → ∃ t, exec i s = .next t) ∧
  (∀ (i : Instr) (s : State) (r : Refusal), exec i s ≠ .refused r) ∧
  (∀ (i : Instr) (s : State) (f : Fault), exec i s = .fault f → i.wf = false) ∧
  (∀ s : State, s.queueWf = true → s.goesOn)

/-- At reset memory lists nothing and has its canonical form, the package is not READY, no master owns it, every partition
is FREE and no command waits or is in flight. -/
def Obligations.reset_memory : Prop :=
  State.reset.mem.wf = true ∧ State.reset.mem.bytes = [] ∧ State.reset.pkg.ready = false ∧ State.reset.own.owner = none ∧
  (∀ p, State.reset.part p = {}) ∧ State.reset.cmd.flights = [] ∧ State.reset.pending = [] ∧ State.reset.link.lasersOff = true

/-- The tier memory, the pools and the basins keep their canonical form over every step, from every state that has it:
addresses rise, and no byte listed is the one that an unlisted address reads as. -/
def Obligations.memory_form_kept : Prop :=
  ∀ s t : State, s.mem.wf = true → step s = .next t → t.mem.wf = true
end

