-- ==== Sys2Proof/Laws/Tab.lean ====
section
/-! SUPPORT. Laws of sparse tables: a read after a write, and that every operation keeps the canonical form. -/

namespace Sys2Proof.Machine

variable {α : Type}

@[simp] theorem Tab.get_nil (d : α) (k : Nat) : Tab.get d [] k = d := rfl

theorem Tab.get_of_above {d : α} {t : Tab α} {j k : Nat} (h : Tab.above j t = true) (hk : k ≤ j) : Tab.get d t k = d := by
  induction t with
  | nil => rfl
  | cons e t ih =>
    obtain ⟨i, v⟩ := e
    simp [Tab.above] at h
    have : i ≠ k := by omega
    simp [Tab.get, this, ih h.2]

theorem Tab.above_mono {t : Tab α} {i j : Nat} (h : Tab.above j t = true) (hij : i ≤ j) : Tab.above i t = true := by
  induction t with
  | nil => rfl
  | cons e t ih =>
    obtain ⟨k, v⟩ := e
    simp [Tab.above] at h ⊢
    exact ⟨by omega, ih h.2⟩

theorem Tab.above_ins {t : Tab α} {j k : Nat} {v : α} (h : Tab.above j t = true) (hk : j < k) :
    Tab.above j (Tab.ins v t k) = true := by
  induction t with
  | nil => simp [Tab.ins, Tab.above, hk]
  | cons e t ih =>
    obtain ⟨i, w⟩ := e
    simp [Tab.above] at h
    unfold Tab.ins
    split
    · simp [Tab.above, hk, h]
    · split
      · simp [Tab.above, hk, h]
      · simp [Tab.above, h, ih h.2]

theorem Tab.above_filter {t : Tab α} {j : Nat} (p : Nat × α → Bool) (h : Tab.above j t = true) :
    Tab.above j (t.filter p) = true := by
  induction t with
  | nil => rfl
  | cons e t ih =>
    obtain ⟨i, w⟩ := e
    simp [Tab.above] at h
    rw [List.filter_cons]
    split
    · simp [Tab.above, h, ih h.2]
    · exact ih h.2

variable [DecidableEq α]

@[simp] theorem Tab.wf_nil (d : α) : Tab.wf d ([] : Tab α) = true := rfl

theorem Tab.wf_ins {d : α} {t : Tab α} {k : Nat} {v : α} (hv : v ≠ d) (h : Tab.wf d t = true) :
    Tab.wf d (Tab.ins v t k) = true := by
  induction t with
  | nil => simp [Tab.ins, Tab.wf, Tab.above, hv]
  | cons e t ih =>
    obtain ⟨i, w⟩ := e
    simp [Tab.wf] at h
    unfold Tab.ins
    split
    · rename_i hki
      simp [Tab.wf, Tab.above, hv, h, hki, Tab.above_mono h.1.2 (Nat.le_of_lt hki)]
    · split
      · rename_i hki
        subst hki
        simp [Tab.wf, hv, h]
      · rename_i h1 h2
        simp [Tab.wf, h, ih h.2, Tab.above_ins h.1.2 (by omega : i < k)]

@[simp] theorem Tab.wf_filter {d : α} {t : Tab α} (p : Nat × α → Bool) (h : Tab.wf d t = true) :
    Tab.wf d (t.filter p) = true := by
  induction t with
  | nil => rfl
  | cons e t ih =>
    obtain ⟨i, w⟩ := e
    simp [Tab.wf] at h
    rw [List.filter_cons]
    split
    · simp [Tab.wf, h, ih h.2, Tab.above_filter p h.1.2]
    · exact ih h.2

theorem Tab.wf_del {d : α} {t : Tab α} {k : Nat} (h : Tab.wf d t = true) : Tab.wf d (Tab.del t k) = true :=
  Tab.wf_filter _ h

@[simp] theorem Tab.wf_put {d : α} {t : Tab α} {k : Nat} {v : α} (h : Tab.wf d t = true) : Tab.wf d (t.put d k v) = true := by
  unfold Tab.put
  split
  · exact Tab.wf_del h
  · exact Tab.wf_ins ‹_› h

@[simp] theorem Tab.wf_upd {d : α} {t : Tab α} {k : Nat} {f : α → α} (h : Tab.wf d t = true) : Tab.wf d (t.upd d k f) = true :=
  Tab.wf_put h

@[simp] theorem Tab.wf_putAll {d : α} {t : Tab α} {k : Nat} {vs : List α} (h : Tab.wf d t = true) :
    Tab.wf d (t.putAll d k vs) = true := by
  induction vs generalizing t k with
  | nil => exact h
  | cons v vs ih => exact ih (Tab.wf_put h)

@[simp] theorem Tab.wf_keep {d : α} {t : Tab α} (p : Nat → α → Bool) (h : Tab.wf d t = true) : Tab.wf d (t.keep p) = true :=
  Tab.wf_filter _ h

@[simp] theorem Tab.wf_merge {d : α} {t u : Tab α} (h : Tab.wf d t = true) : Tab.wf d (t.merge d u) = true := by
  unfold Tab.merge
  induction u generalizing t with
  | nil => exact h
  | cons e u ih => exact ih (Tab.wf_put h)

omit [DecidableEq α] in
theorem Tab.get_ins {d : α} {t : Tab α} {k j : Nat} {v : α} :
    Tab.get d (Tab.ins v t k) j = if k = j then v else Tab.get d t j := by
  induction t with
  | nil => simp [Tab.ins, Tab.get]
  | cons e t ih =>
    obtain ⟨i, w⟩ := e
    unfold Tab.ins
    split
    · simp [Tab.get]
    · split
      · rename_i h; subst h; simp only [Tab.get]; split <;> rfl
      · rename_i h1 h2
        simp only [Tab.get, ih]
        split
        · rename_i hij; subst hij; simp [h2]
        · rfl

omit [DecidableEq α] in
theorem Tab.get_del {d : α} {t : Tab α} {k j : Nat} :
    Tab.get d (Tab.del t k) j = if k = j then d else Tab.get d t j := by
  induction t with
  | nil => simp [Tab.del, Tab.get]
  | cons e t ih =>
    obtain ⟨i, w⟩ := e
    by_cases hik : i = k
    · subst hik
      have e1 : Tab.del ((i, w) :: t) i = Tab.del t i := by simp [Tab.del]
      rw [e1, ih]
      split
      · rfl
      · rename_i h; simp [Tab.get, h]
    · have e1 : Tab.del ((i, w) :: t) k = (i, w) :: Tab.del t k := by simp [Tab.del, hik]
      rw [e1]
      simp only [Tab.get, ih]
      split
      · rename_i hij; subst hij; simp [Ne.symm hik]
      · rfl

/-- A read after a write. -/
theorem Tab.get_put_eq {d : α} {t : Tab α} {k j : Nat} {v : α} :
    (t.put d k v).get d j = if k = j then v else t.get d j := by
  unfold Tab.put
  split
  · rename_i hv; rw [Tab.get_del, hv]
  · exact Tab.get_ins

/-- A read after a write of another key. -/
@[simp] theorem Tab.get_put_ne {d : α} {t : Tab α} {k j : Nat} {v : α} (h : k ≠ j) :
    (t.put d k v).get d j = t.get d j := by
  simp [Tab.get_put_eq, h]

/-- A read after a write of the same key. -/
@[simp] theorem Tab.get_put {d : α} {t : Tab α} {k : Nat} {v : α} : (t.put d k v).get d k = v := by
  simp [Tab.get_put_eq]

@[simp] theorem Tab.get_upd_ne {d : α} {t : Tab α} {k j : Nat} {f : α → α} (h : k ≠ j) :
    (t.upd d k f).get d j = t.get d j :=
  Tab.get_put_ne h

@[simp] theorem Tab.get_upd {d : α} {t : Tab α} {k : Nat} {f : α → α} : (t.upd d k f).get d k = f (t.get d k) :=
  Tab.get_put

end Sys2Proof.Machine
end

