-- ==== Sys2Proof/Laws/MemBase.lean ====
section
/-! SUPPORT. The canonical form of the byte memories through folds, conditionals and outcomes. -/

namespace Sys2Proof.Machine

/-- A state whose byte memories are in their canonical form. -/
def Keeps (s : State) : Prop := s.mem.wf = true
/-- A pair whose state keeps the form. -/
def Keeps1 {α : Type} (p : State × α) : Prop := Keeps p.1
/-- A pair whose state keeps the form. -/
def Keeps2 {α : Type} (p : α × State) : Prop := Keeps p.2

theorem Keeps.mem {s : State} (h : Keeps s) : s.mem.wf = true := h
theorem Keeps1.fst {α : Type} {p : State × α} (h : Keeps1 p) : Keeps p.1 := h
theorem Keeps2.snd {α : Type} {p : α × State} (h : Keeps2 p) : Keeps p.2 := h
theorem Keeps1.mk_iff {α : Type} {s : State} {x : α} : Keeps1 (s, x) ↔ Keeps s := Iff.rfl
theorem Keeps2.mk_iff {α : Type} {s : State} {x : α} : Keeps2 (x, s) ↔ Keeps s := Iff.rfl
theorem Keeps.mk_iff {f_pkg : Pkg} {f_own : Own} {f_cmd : Cmd} {f_log : Log} {f_pwr : Pwr} {f_nor : Nor} {f_dbg : Dbg} 
    {f_board : Board} {f_time : Time} {f_mem : Mem} {f_ten : Tenancy} {f_cpu : Cores} {f_fab : Fabric} 
    {f_quay : Quay} {f_link : Link} {f_pipe : Pipe} {f_coll : Collectives} {f_serv : Serv} {f_clk : Nat} 
    {f_fresh : Nat} {f_pending : List Instr} :
    Keeps ⟨f_pkg, f_own, f_cmd, f_log, f_pwr, f_nor, f_dbg, f_board, f_time, f_mem,
      f_ten, f_cpu, f_fab, f_quay, f_link, f_pipe, f_coll, f_serv, f_clk, f_fresh, f_pending⟩ ↔ f_mem.wf = true := Iff.rfl

/-- An outcome that keeps the canonical form of the byte memories. -/
structure OutKeeps (o : Out) : Prop where
  keeps : ∀ t, o = .next t → Keeps t

theorem next_keep {s : State} (h : Keeps s) : OutKeeps (.next s) :=
  ⟨fun _ e => by cases e; exact h⟩

theorem fault_keep {x : Fault} : OutKeeps (.fault x) :=
  ⟨fun _ e => by cases e⟩

theorem foldl_keep {β : Type} {f : State → β → State} {l : List β} {s : State}
    (hf : ∀ s b, Keeps s → Keeps (f s b)) (h : Keeps s) : Keeps (l.foldl f s) := by
  induction l generalizing s with
  | nil => exact h
  | cons b l ih => exact ih (hf s b h)

theorem foldlP_keep {β γ : Type} {f : State × γ → β → State × γ} {l : List β} {s : State × γ}
    (hf : ∀ s b, Keeps1 s → Keeps1 (f s b)) (h : Keeps1 s) : Keeps1 (l.foldl f s) := by
  induction l generalizing s with
  | nil => exact h
  | cons b l ih => exact ih (hf s b h)

theorem foldlP_keep_eq {β γ : Type} {f : State × γ → β → State × γ} {l : List β} {s : State × γ} {t : State} {x : γ}
    (e : l.foldl f s = (t, x)) (hf : ∀ s b, Keeps1 s → Keeps1 (f s b)) (h : Keeps1 s) : Keeps t := by
  have k := foldlP_keep (l := l) hf h
  rw [e] at k
  exact k

theorem foldlQ_keep {β γ : Type} {f : γ × State → β → γ × State} {l : List β} {s : γ × State}
    (hf : ∀ s b, Keeps2 s → Keeps2 (f s b)) (h : Keeps2 s) : Keeps2 (l.foldl f s) := by
  induction l generalizing s with
  | nil => exact h
  | cons b l ih => exact ih (hf s b h)

theorem foldlQ_keep_eq {β γ : Type} {f : γ × State → β → γ × State} {l : List β} {s : γ × State} {t : State} {x : γ}
    (e : l.foldl f s = (x, t)) (hf : ∀ s b, Keeps2 s → Keeps2 (f s b)) (h : Keeps2 s) : Keeps t := by
  have k := foldlQ_keep (l := l) hf h
  rw [e] at k
  exact k

theorem id_keep {s : State} (h : Keeps s) : Keeps (id s) := h

theorem ite_keep {c : Prop} [Decidable c] {a b : State} (ha : Keeps a) (hb : Keeps b) : Keeps (if c then a else b) := by
  split
  · exact ha
  · exact hb

theorem foldlM_keep {β : Type} {f : Mem → β → Mem} {l : List β} {m : Mem}
    (hf : ∀ m b, m.wf = true → (f m b).wf = true) (h : m.wf = true) : (l.foldl f m).wf = true := by
  induction l generalizing m with
  | nil => exact h
  | cons b l ih => exact ih (hf m b h)

theorem iteM_keep {c : Prop} [Decidable c] {a b : Mem} (ha : a.wf = true) (hb : b.wf = true) :
    (if c then a else b).wf = true := by
  split
  · exact ha
  · exact hb

theorem Mem.bytes_keep {m : Mem} (h : m.wf = true) : Tab.wf 0 m.bytes = true := by
  simp [Mem.wf] at h
  exact h.1.1

theorem Mem.pool_keep {m : Mem} (h : m.wf = true) : Tab.wf 0 m.pool = true := by
  simp [Mem.wf] at h
  exact h.1.2

theorem Mem.basin_keep {m : Mem} (h : m.wf = true) : Tab.wf 0 m.basin = true := by
  simp [Mem.wf] at h
  exact h.2

theorem Mem.wf_empty : ({} : Mem).wf = true := rfl

theorem Mem.wf_mk {f_bytes : Tab Byte}
    {f_marks : Tab (Option Bool)}
    {f_pt : Tab Pte}
    {f_frames : Tab FrameState}
    {f_zeroQueue : List Nat}
    {f_heldWrites : List HeldWrite}
    {f_wayMask : Tab Nat}
    {f_twins : Tab (Option Nat)}
    {f_twinOnce : Tab Bool}
    {f_apertures : Tab (Option Nat)}
    {f_stackReserve : Bool}
    {f_tier2Reserve : Bool}
    {f_lost1 : Option Nat}
    {f_lost2 : Option Nat}
    {f_dead1 : Option Nat}
    {f_dead2 : Option Nat}
    {f_cache : Tab (List CacheLine)}
    {f_heldGran : Tab (Option (List HeldReq))}
    {f_fwFrames : Nat}
    {f_ctrls : Tab MemCtrl}
    {f_tests : List (Nat × Nat)}
    {f_bar2Data : List Byte}
    {f_bar2Ep : Bool}
    {f_bar2Abort : Bool}
    {f_aer : Tab Bool}
    {f_pool : Tab Byte}
    {f_basin : Tab Byte}
    {f_poolUe : Tab Bool}
    {f_dirtyPool : Tab Bool}
    {f_dirtyBasin : Tab Bool} :
    Mem.wf ⟨f_bytes, f_marks, f_pt, f_frames, f_zeroQueue, f_heldWrites, f_wayMask, f_twins, f_twinOnce,
      f_apertures, f_stackReserve, f_tier2Reserve, f_lost1, f_lost2, f_dead1, f_dead2, f_cache,
      f_heldGran, f_fwFrames, f_ctrls, f_tests, f_bar2Data, f_bar2Ep, f_bar2Abort, f_aer, f_pool,
      f_basin, f_poolUe, f_dirtyPool, f_dirtyBasin⟩ = true ↔
      Tab.wf 0 f_bytes = true ∧ Tab.wf 0 f_pool = true ∧ Tab.wf 0 f_basin = true := by
  unfold Mem.wf
  dsimp only
  rw [Bool.and_eq_true, Bool.and_eq_true, and_assoc]

/-- A taken item, if there is one, leaves a state that keeps the form. -/
structure OptKeeps {α : Type} (o : Option (α × State)) : Prop where
  keep : ∀ r, o = some r → Keeps2 r

theorem OptKeeps.none {α : Type} : OptKeeps (none : Option (α × State)) :=
  ⟨fun _ e => by cases e⟩

theorem OptKeeps.some {α : Type} {r : α × State} (h : Keeps2 r) : OptKeeps (some r) :=
  ⟨fun _ e => Option.some.inj e ▸ h⟩

theorem OptKeeps.map {α β : Type} {o : Option β} {f : β → α × State} (h : ∀ b, Keeps2 (f b)) :
    OptKeeps (o.map f) := by
  cases o with
  | none => exact OptKeeps.none
  | some b => exact OptKeeps.some (h b)

/-- Both kinds of answer carry a state that keeps the form. -/
structure SumKeeps {α β : Type} (o : (State × α) ⊕ (State × β)) : Prop where
  inl : ∀ r, o = .inl r → Keeps1 r
  inr : ∀ r, o = .inr r → Keeps1 r

theorem SumKeeps.of_inl {α β : Type} {r : State × α} (h : Keeps1 r) :
    SumKeeps (.inl r : (State × α) ⊕ (State × β)) :=
  ⟨fun _ e => Sum.inl.inj e ▸ h, fun _ e => (by cases e)⟩

theorem SumKeeps.of_inr {α β : Type} {r : State × β} (h : Keeps1 r) :
    SumKeeps (.inr r : (State × α) ⊕ (State × β)) :=
  ⟨fun _ e => (by cases e), fun _ e => Sum.inr.inj e ▸ h⟩

end Sys2Proof.Machine
end

