-- ==== Sys2Proof/Laws/MemAccess.lean ====
section
/-! SUPPORT. Every operation of Machine/Access.lean keeps the canonical form of the byte memories. -/

namespace Sys2Proof.Machine

set_option linter.unusedVariables false
set_option linter.unusedSimpArgs false
set_option linter.unusedTactic false
set_option linter.unreachableTactic false


theorem State.updPart_keep {s : State} {p : Nat} {f : Partition → Partition} (hwf : Keeps s) : Keeps
    (State.updPart s p f) := by
  unfold State.updPart
  repeat' (first
    | with_reducible assumption | extract_lets | (lift_lets; extract_lets) | intro _ | simp only [Keeps.mk_iff]
    | with_reducible apply Keeps.mem | with_reducible exact Mem.wf_empty | with_reducible apply ite_keep | split
    | dsimp only | dsimp +zetaDelta only
    )

theorem State.updMeter_keep {s : State} {p : Nat} {f : Meters → Meters} (hwf : Keeps s) : Keeps (State.updMeter s
    p f) := by
  unfold State.updMeter
  repeat' (first
    | with_reducible assumption | extract_lets | (lift_lets; extract_lets) | intro _ | simp only [Keeps.mk_iff]
    | with_reducible apply Keeps.mem | with_reducible exact Mem.wf_empty | with_reducible apply ite_keep | split
    | dsimp only | dsimp +zetaDelta only
    )

theorem State.setCore_keep {s : State} {c : Nat} {k : Core} (hwf : Keeps s) : Keeps (State.setCore s c k) := by
  unfold State.setCore
  repeat' (first
    | with_reducible assumption | extract_lets | (lift_lets; extract_lets) | intro _ | simp only [Keeps.mk_iff]
    | with_reducible apply Keeps.mem | with_reducible exact Mem.wf_empty | with_reducible apply ite_keep | split
    | dsimp only | dsimp +zetaDelta only
    )

theorem State.updCore_keep {s : State} {c : Nat} {f : Core → Core} (hwf : Keeps s) : Keeps (State.updCore s c f)
    := by
  unfold State.updCore
  repeat' (first
    | with_reducible assumption | extract_lets | (lift_lets; extract_lets) | intro _
    | with_reducible apply State.setCore_keep | with_reducible apply ite_keep | split | dsimp only
    | dsimp +zetaDelta only
    )

theorem State.updCtrl_keep {s : State} {u : Nat} {f : MemCtrl → MemCtrl} (hwf : Keeps s) : Keeps (State.updCtrl s
    u f) := by
  unfold State.updCtrl
  repeat' (first
    | with_reducible assumption | extract_lets | (lift_lets; extract_lets) | intro _ | simp only [Keeps.mk_iff]
    | with_reducible apply foldlM_keep | with_reducible apply iteM_keep
    | (simp only [Mem.wf_mk]; refine ⟨?_, ?_, ?_⟩) | with_reducible apply Tab.wf_put
    | with_reducible apply Tab.wf_putAll | with_reducible apply Tab.wf_filter | with_reducible apply Tab.wf_keep
    | with_reducible apply Tab.wf_merge | with_reducible exact Tab.wf_nil _ | with_reducible apply Mem.bytes_keep
    | with_reducible apply Mem.pool_keep | with_reducible apply Mem.basin_keep | with_reducible apply Keeps.mem
    | with_reducible exact Mem.wf_empty | with_reducible apply ite_keep | split | dsimp only | dsimp +zetaDelta only
    )

theorem State.updReach_keep {s : State} {r : Nat} {f : Reach → Reach} (hwf : Keeps s) : Keeps (State.updReach s r
    f) := by
  unfold State.updReach
  repeat' (first
    | with_reducible assumption | extract_lets | (lift_lets; extract_lets) | intro _ | simp only [Keeps.mk_iff]
    | with_reducible apply Keeps.mem | with_reducible exact Mem.wf_empty | with_reducible apply ite_keep | split
    | dsimp only | dsimp +zetaDelta only
    )

theorem Mem.mark_keep {m : Mem} {dpa : Nat} {b : Bool} (hwf : m.wf = true) : (Mem.mark m dpa b).wf = true := by
  unfold Mem.mark
  repeat' (first
    | with_reducible assumption | extract_lets | (lift_lets; extract_lets) | intro _ | simp only [Keeps.mk_iff]
    | with_reducible apply foldlM_keep | with_reducible apply iteM_keep
    | (simp only [Mem.wf_mk]; refine ⟨?_, ?_, ?_⟩) | with_reducible apply Tab.wf_put
    | with_reducible apply Tab.wf_putAll | with_reducible apply Tab.wf_filter | with_reducible apply Tab.wf_keep
    | with_reducible apply Tab.wf_merge | with_reducible exact Tab.wf_nil _ | with_reducible apply Mem.bytes_keep
    | with_reducible apply Mem.pool_keep | with_reducible apply Mem.basin_keep | with_reducible apply Keeps.mem
    | with_reducible exact Mem.wf_empty | with_reducible apply ite_keep | split | dsimp only | dsimp +zetaDelta only
    )

theorem State.updJunction_keep {s : State} {r : Nat} {q : Nat} {f : Junction → Junction} (hwf : Keeps s) : Keeps
    (State.updJunction s r q f) := by
  unfold State.updJunction
  repeat' (first
    | with_reducible assumption | extract_lets | (lift_lets; extract_lets) | intro _ | simp only [Keeps.mk_iff]
    | with_reducible apply Keeps.mem | with_reducible exact Mem.wf_empty | with_reducible apply ite_keep | split
    | dsimp only | dsimp +zetaDelta only
    )

theorem Mem.zeroFrame_keep {m : Mem} {f : Nat} (hwf : m.wf = true) : (Mem.zeroFrame m f).wf = true := by
  unfold Mem.zeroFrame
  repeat' (first
    | with_reducible assumption | extract_lets | (lift_lets; extract_lets) | intro _
    | with_reducible apply Mem.mark_keep
    | simp only [Keeps1.mk_iff] | simp only [Keeps2.mk_iff]
    | simp only [Keeps.mk_iff] | with_reducible apply foldl_keep | with_reducible apply foldlM_keep
    | with_reducible apply iteM_keep | (simp only [Mem.wf_mk]; refine ⟨?_, ?_, ?_⟩)
    | with_reducible apply Tab.wf_put | with_reducible apply Tab.wf_putAll | with_reducible apply Tab.wf_filter
    | with_reducible apply Tab.wf_keep | with_reducible apply Tab.wf_merge | with_reducible exact Tab.wf_nil _
    | with_reducible apply Mem.bytes_keep | with_reducible apply Mem.pool_keep | with_reducible apply Mem.basin_keep
    | with_reducible apply Keeps.mem | with_reducible exact Mem.wf_empty | with_reducible apply foldlP_keep
    | with_reducible refine foldlP_keep_eq (by assumption) ?_ ?_ | with_reducible apply foldlQ_keep
    | with_reducible refine foldlQ_keep_eq (by assumption) ?_ ?_ | with_reducible apply OptKeeps.map
    | with_reducible exact OptKeeps.none | with_reducible apply OptKeeps.some | with_reducible apply SumKeeps.of_inl
    | with_reducible apply SumKeeps.of_inr | with_reducible apply id_keep | with_reducible apply ite_keep
    | with_reducible apply Keeps1.fst | with_reducible apply Keeps2.snd | with_reducible apply next_keep
    | with_reducible apply fault_keep | split | dsimp only | dsimp +zetaDelta only
    )

theorem Mem.writeTier_keep {m : Mem} {d : Nat} {bs : List Byte} (hwf : m.wf = true) : (Mem.writeTier m d bs).wf =
    true := by
  unfold Mem.writeTier
  repeat' (first
    | with_reducible assumption | extract_lets | (lift_lets; extract_lets) | intro _
    | with_reducible apply Mem.mark_keep | simp only [Keeps.mk_iff] | with_reducible apply foldlM_keep
    | with_reducible apply iteM_keep | (simp only [Mem.wf_mk]; refine ⟨?_, ?_, ?_⟩)
    | with_reducible apply Tab.wf_put | with_reducible apply Tab.wf_putAll | with_reducible apply Tab.wf_filter
    | with_reducible apply Tab.wf_keep | with_reducible apply Tab.wf_merge | with_reducible exact Tab.wf_nil _
    | with_reducible apply Mem.bytes_keep | with_reducible apply Mem.pool_keep | with_reducible apply Mem.basin_keep
    | with_reducible apply Keeps.mem | with_reducible exact Mem.wf_empty | with_reducible apply ite_keep | split
    | dsimp only | dsimp +zetaDelta only
    )

theorem Mem.healWords_keep {m : Mem} {k0 : Nat} {o : Nat} {n : Nat} (hwf : m.wf = true) : (Mem.healWords m k0 o
    n).wf = true := by
  unfold Mem.healWords
  repeat' (first
    | with_reducible assumption | extract_lets | (lift_lets; extract_lets) | intro _ | simp only [Keeps.mk_iff]
    | with_reducible apply foldlM_keep | with_reducible apply iteM_keep
    | (simp only [Mem.wf_mk]; refine ⟨?_, ?_, ?_⟩) | with_reducible apply Tab.wf_put
    | with_reducible apply Tab.wf_putAll | with_reducible apply Tab.wf_filter | with_reducible apply Tab.wf_keep
    | with_reducible apply Tab.wf_merge | with_reducible exact Tab.wf_nil _ | with_reducible apply Mem.bytes_keep
    | with_reducible apply Mem.pool_keep | with_reducible apply Mem.basin_keep | with_reducible apply Keeps.mem
    | with_reducible exact Mem.wf_empty | with_reducible apply ite_keep | split | dsimp only | dsimp +zetaDelta only
    )

theorem State.writeJunction_keep {s : State} {r : Nat} {o : Nat} {bs : List Byte} (hwf : Keeps s) : Keeps
    (State.writeJunction s r o bs) := by
  unfold State.writeJunction
  repeat' (first
    | with_reducible assumption | extract_lets | (lift_lets; extract_lets) | intro _
    | with_reducible apply State.updJunction_keep | simp only [Keeps1.mk_iff] | simp only [Keeps2.mk_iff]
    | simp only [Keeps.mk_iff] | with_reducible apply foldl_keep | with_reducible apply foldlM_keep
    | with_reducible apply iteM_keep | (simp only [Mem.wf_mk]; refine ⟨?_, ?_, ?_⟩)
    | with_reducible apply Tab.wf_put | with_reducible apply Tab.wf_putAll | with_reducible apply Tab.wf_filter
    | with_reducible apply Tab.wf_keep | with_reducible apply Tab.wf_merge | with_reducible exact Tab.wf_nil _
    | with_reducible apply Mem.bytes_keep | with_reducible apply Mem.pool_keep | with_reducible apply Mem.basin_keep
    | with_reducible apply Keeps.mem | with_reducible exact Mem.wf_empty | with_reducible apply foldlP_keep
    | with_reducible refine foldlP_keep_eq (by assumption) ?_ ?_ | with_reducible apply foldlQ_keep
    | with_reducible refine foldlQ_keep_eq (by assumption) ?_ ?_ | with_reducible apply ite_keep
    | with_reducible apply Keeps1.fst | with_reducible apply Keeps2.snd | split | dsimp only | dsimp +zetaDelta only
    )

theorem Mem.clearFresh_keep {m : Mem} {f : Nat} (hwf : m.wf = true) : (Mem.clearFresh m f).wf = true := by
  unfold Mem.clearFresh
  repeat' (first
    | with_reducible assumption | extract_lets | (lift_lets; extract_lets) | intro _ | simp only [Keeps1.mk_iff]
    | simp only [Keeps2.mk_iff] | simp only [Keeps.mk_iff] | with_reducible apply foldl_keep
    | with_reducible apply foldlM_keep | with_reducible apply iteM_keep
    | (simp only [Mem.wf_mk]; refine ⟨?_, ?_, ?_⟩) | with_reducible apply Tab.wf_put
    | with_reducible apply Tab.wf_putAll | with_reducible apply Tab.wf_filter | with_reducible apply Tab.wf_keep
    | with_reducible apply Tab.wf_merge | with_reducible exact Tab.wf_nil _ | with_reducible apply Mem.bytes_keep
    | with_reducible apply Mem.pool_keep | with_reducible apply Mem.basin_keep | with_reducible apply Keeps.mem
    | with_reducible exact Mem.wf_empty | with_reducible apply foldlP_keep
    | with_reducible refine foldlP_keep_eq (by assumption) ?_ ?_ | with_reducible apply foldlQ_keep
    | with_reducible refine foldlQ_keep_eq (by assumption) ?_ ?_ | with_reducible apply ite_keep
    | with_reducible apply Keeps1.fst | with_reducible apply Keeps2.snd | split | dsimp only | dsimp +zetaDelta only
    )

theorem Mem.writeLine_keep {m : Mem} {d : Nat} {bs : List Byte} {poison : Bool} (hwf : m.wf = true) :
    (Mem.writeLine m d bs poison).wf = true := by
  unfold Mem.writeLine
  repeat' (first
    | with_reducible assumption | extract_lets | (lift_lets; extract_lets) | intro _
    | with_reducible apply Mem.writeTier_keep | with_reducible apply Mem.mark_keep
    | with_reducible apply foldlM_keep | with_reducible apply iteM_keep
    | (simp only [Mem.wf_mk]; refine ⟨?_, ?_, ?_⟩) | with_reducible apply Tab.wf_put
    | with_reducible apply Tab.wf_putAll | with_reducible apply Tab.wf_filter | with_reducible apply Tab.wf_keep
    | with_reducible apply Tab.wf_merge | with_reducible exact Tab.wf_nil _ | with_reducible apply Mem.bytes_keep
    | with_reducible apply Mem.pool_keep | with_reducible apply Mem.basin_keep | with_reducible apply ite_keep
    | split | dsimp only | dsimp +zetaDelta only
    )

theorem Mem.openFresh_keep {m : Mem} {part : Nat} {va : Nat} (hwf : m.wf = true) : (Mem.openFresh m part va).wf =
    true := by
  unfold Mem.openFresh
  repeat' (first
    | with_reducible assumption | extract_lets | (lift_lets; extract_lets) | intro _
    | with_reducible apply Mem.zeroFrame_keep | with_reducible apply Mem.clearFresh_keep
    | with_reducible apply Mem.writeLine_keep
    | simp only [Keeps1.mk_iff] | simp only [Keeps2.mk_iff]
    | simp only [Keeps.mk_iff] | with_reducible apply foldl_keep | with_reducible apply foldlM_keep
    | with_reducible apply iteM_keep | (simp only [Mem.wf_mk]; refine ⟨?_, ?_, ?_⟩)
    | with_reducible apply Tab.wf_put | with_reducible apply Tab.wf_putAll | with_reducible apply Tab.wf_filter
    | with_reducible apply Tab.wf_keep | with_reducible apply Tab.wf_merge | with_reducible exact Tab.wf_nil _
    | with_reducible apply Mem.bytes_keep | with_reducible apply Mem.pool_keep | with_reducible apply Mem.basin_keep
    | with_reducible apply Keeps.mem | with_reducible exact Mem.wf_empty | with_reducible apply foldlP_keep
    | with_reducible refine foldlP_keep_eq (by assumption) ?_ ?_ | with_reducible apply foldlQ_keep
    | with_reducible refine foldlQ_keep_eq (by assumption) ?_ ?_ | with_reducible apply OptKeeps.map
    | with_reducible exact OptKeeps.none | with_reducible apply OptKeeps.some | with_reducible apply SumKeeps.of_inl
    | with_reducible apply SumKeeps.of_inr | with_reducible apply id_keep | with_reducible apply ite_keep
    | with_reducible apply Keeps1.fst | with_reducible apply Keeps2.snd | with_reducible apply next_keep
    | with_reducible apply fault_keep | split | dsimp only | dsimp +zetaDelta only
    )

theorem State.unitRead_keep {s : State} {u : Nat} {n : Nat} (hwf : Keeps s) : Keeps (State.unitRead s u n) := by
  unfold State.unitRead
  repeat' (first
    | with_reducible assumption | extract_lets | (lift_lets; extract_lets) | intro _
    | with_reducible apply State.updCtrl_keep
    | simp only [Keeps1.mk_iff] | simp only [Keeps2.mk_iff]
    | simp only [Keeps.mk_iff] | with_reducible apply foldl_keep | with_reducible apply foldlM_keep
    | with_reducible apply iteM_keep | (simp only [Mem.wf_mk]; refine ⟨?_, ?_, ?_⟩)
    | with_reducible apply Tab.wf_put | with_reducible apply Tab.wf_putAll | with_reducible apply Tab.wf_filter
    | with_reducible apply Tab.wf_keep | with_reducible apply Tab.wf_merge | with_reducible exact Tab.wf_nil _
    | with_reducible apply Mem.bytes_keep | with_reducible apply Mem.pool_keep | with_reducible apply Mem.basin_keep
    | with_reducible apply Keeps.mem | with_reducible exact Mem.wf_empty | with_reducible apply foldlP_keep
    | with_reducible refine foldlP_keep_eq (by assumption) ?_ ?_ | with_reducible apply foldlQ_keep
    | with_reducible refine foldlQ_keep_eq (by assumption) ?_ ?_ | with_reducible apply OptKeeps.map
    | with_reducible exact OptKeeps.none | with_reducible apply OptKeeps.some | with_reducible apply SumKeeps.of_inl
    | with_reducible apply SumKeeps.of_inr | with_reducible apply id_keep | with_reducible apply ite_keep
    | with_reducible apply Keeps1.fst | with_reducible apply Keeps2.snd | with_reducible apply next_keep
    | with_reducible apply fault_keep | split | dsimp only | dsimp +zetaDelta only
    )

theorem State.unitWrote_keep {s : State} {u : Nat} {n : Nat} (hwf : Keeps s) : Keeps (State.unitWrote s u n) := by
  unfold State.unitWrote
  repeat' (first
    | with_reducible assumption | extract_lets | (lift_lets; extract_lets) | intro _
    | with_reducible apply State.updCtrl_keep
    | simp only [Keeps1.mk_iff] | simp only [Keeps2.mk_iff]
    | simp only [Keeps.mk_iff] | with_reducible apply foldl_keep | with_reducible apply foldlM_keep
    | with_reducible apply iteM_keep | (simp only [Mem.wf_mk]; refine ⟨?_, ?_, ?_⟩)
    | with_reducible apply Tab.wf_put | with_reducible apply Tab.wf_putAll | with_reducible apply Tab.wf_filter
    | with_reducible apply Tab.wf_keep | with_reducible apply Tab.wf_merge | with_reducible exact Tab.wf_nil _
    | with_reducible apply Mem.bytes_keep | with_reducible apply Mem.pool_keep | with_reducible apply Mem.basin_keep
    | with_reducible apply Keeps.mem | with_reducible exact Mem.wf_empty | with_reducible apply foldlP_keep
    | with_reducible refine foldlP_keep_eq (by assumption) ?_ ?_ | with_reducible apply foldlQ_keep
    | with_reducible refine foldlQ_keep_eq (by assumption) ?_ ?_ | with_reducible apply OptKeeps.map
    | with_reducible exact OptKeeps.none | with_reducible apply OptKeeps.some | with_reducible apply SumKeeps.of_inl
    | with_reducible apply SumKeeps.of_inr | with_reducible apply id_keep | with_reducible apply ite_keep
    | with_reducible apply Keeps1.fst | with_reducible apply Keeps2.snd | with_reducible apply next_keep
    | with_reducible apply fault_keep | split | dsimp only | dsimp +zetaDelta only
    )

theorem State.countZeroing_keep {s : State} {f : Nat} (hwf : Keeps s) : Keeps (State.countZeroing s f) := by
  unfold State.countZeroing
  repeat' (first
    | with_reducible assumption | extract_lets | (lift_lets; extract_lets) | intro _
    | with_reducible apply State.unitWrote_keep
    | simp only [Keeps1.mk_iff] | simp only [Keeps2.mk_iff]
    | simp only [Keeps.mk_iff] | with_reducible apply foldl_keep | with_reducible apply foldlM_keep
    | with_reducible apply iteM_keep | (simp only [Mem.wf_mk]; refine ⟨?_, ?_, ?_⟩)
    | with_reducible apply Tab.wf_put | with_reducible apply Tab.wf_putAll | with_reducible apply Tab.wf_filter
    | with_reducible apply Tab.wf_keep | with_reducible apply Tab.wf_merge | with_reducible exact Tab.wf_nil _
    | with_reducible apply Mem.bytes_keep | with_reducible apply Mem.pool_keep | with_reducible apply Mem.basin_keep
    | with_reducible apply Keeps.mem | with_reducible exact Mem.wf_empty | with_reducible apply foldlP_keep
    | with_reducible refine foldlP_keep_eq (by assumption) ?_ ?_ | with_reducible apply foldlQ_keep
    | with_reducible refine foldlQ_keep_eq (by assumption) ?_ ?_ | with_reducible apply OptKeeps.map
    | with_reducible exact OptKeeps.none | with_reducible apply OptKeeps.some | with_reducible apply SumKeeps.of_inl
    | with_reducible apply SumKeeps.of_inr | with_reducible apply id_keep | with_reducible apply ite_keep
    | with_reducible apply Keeps1.fst | with_reducible apply Keeps2.snd | with_reducible apply next_keep
    | with_reducible apply fault_keep | split | dsimp only | dsimp +zetaDelta only
    )

theorem State.openFresh_keep {s : State} {part : Nat} {va : Nat} (hwf : Keeps s) : Keeps (State.openFresh s part va)
    := by
  unfold State.openFresh
  repeat' (first
    | with_reducible assumption | extract_lets | (lift_lets; extract_lets) | intro _
    | with_reducible apply Mem.openFresh_keep | with_reducible apply State.countZeroing_keep
    | simp only [Keeps1.mk_iff] | simp only [Keeps2.mk_iff]
    | simp only [Keeps.mk_iff] | with_reducible apply foldl_keep | with_reducible apply foldlM_keep
    | with_reducible apply iteM_keep | (simp only [Mem.wf_mk]; refine ⟨?_, ?_, ?_⟩)
    | with_reducible apply Tab.wf_put | with_reducible apply Tab.wf_putAll | with_reducible apply Tab.wf_filter
    | with_reducible apply Tab.wf_keep | with_reducible apply Tab.wf_merge | with_reducible exact Tab.wf_nil _
    | with_reducible apply Mem.bytes_keep | with_reducible apply Mem.pool_keep | with_reducible apply Mem.basin_keep
    | with_reducible apply Keeps.mem | with_reducible exact Mem.wf_empty | with_reducible apply foldlP_keep
    | with_reducible refine foldlP_keep_eq (by assumption) ?_ ?_ | with_reducible apply foldlQ_keep
    | with_reducible refine foldlQ_keep_eq (by assumption) ?_ ?_ | with_reducible apply OptKeeps.map
    | with_reducible exact OptKeeps.none | with_reducible apply OptKeeps.some | with_reducible apply SumKeeps.of_inl
    | with_reducible apply SumKeeps.of_inr | with_reducible apply id_keep | with_reducible apply ite_keep
    | with_reducible apply Keeps1.fst | with_reducible apply Keeps2.snd | with_reducible apply next_keep
    | with_reducible apply fault_keep | split | dsimp only | dsimp +zetaDelta only
    )

theorem State.waitFor_keep {s : State} {who : Waiter} {part : Nat} {rs : List Nat} (hwf : Keeps s) : Keeps
    (State.waitFor s who part rs) := by
  unfold State.waitFor
  repeat' (first
    | with_reducible assumption | extract_lets | (lift_lets; extract_lets) | intro _
    | simp only [Keeps1.mk_iff] | simp only [Keeps2.mk_iff]
    | simp only [Keeps.mk_iff] | with_reducible apply foldl_keep | with_reducible apply foldlM_keep
    | with_reducible apply iteM_keep | (simp only [Mem.wf_mk]; refine ⟨?_, ?_, ?_⟩)
    | with_reducible apply Tab.wf_put | with_reducible apply Tab.wf_putAll | with_reducible apply Tab.wf_filter
    | with_reducible apply Tab.wf_keep | with_reducible apply Tab.wf_merge | with_reducible exact Tab.wf_nil _
    | with_reducible apply Mem.bytes_keep | with_reducible apply Mem.pool_keep | with_reducible apply Mem.basin_keep
    | with_reducible apply Keeps.mem | with_reducible exact Mem.wf_empty | with_reducible apply foldlP_keep
    | with_reducible refine foldlP_keep_eq (by assumption) ?_ ?_ | with_reducible apply foldlQ_keep
    | with_reducible refine foldlQ_keep_eq (by assumption) ?_ ?_ | with_reducible apply OptKeeps.map
    | with_reducible exact OptKeeps.none | with_reducible apply OptKeeps.some | with_reducible apply SumKeeps.of_inl
    | with_reducible apply SumKeeps.of_inr | with_reducible apply id_keep | with_reducible apply ite_keep
    | with_reducible apply Keeps1.fst | with_reducible apply Keeps2.snd | with_reducible apply next_keep
    | with_reducible apply fault_keep | split | dsimp only | dsimp +zetaDelta only
    )

theorem State.charge_keep {s : State} {part : Nat} {i : Nat} {n : Nat} (hwf : Keeps s) : Keeps (State.charge s
    part i n) := by
  unfold State.charge
  repeat' (first
    | with_reducible assumption | extract_lets | (lift_lets; extract_lets) | intro _
    | with_reducible apply State.updMeter_keep | simp only [Keeps.mk_iff] | with_reducible apply Keeps.mem
    | with_reducible exact Mem.wf_empty | with_reducible apply ite_keep | split | dsimp only | dsimp +zetaDelta only
    )

theorem State.writeBack_keep {s : State} {l : CacheLine} {ue : Bool} (hwf : Keeps s) : Keeps (State.writeBack s l
    ue) := by
  unfold State.writeBack
  repeat' (first
    | with_reducible assumption | extract_lets | (lift_lets; extract_lets) | intro _
    | with_reducible apply State.unitWrote_keep | with_reducible apply Mem.mark_keep
    | simp only [Keeps1.mk_iff] | simp only [Keeps2.mk_iff]
    | simp only [Keeps.mk_iff] | with_reducible apply foldl_keep | with_reducible apply foldlM_keep
    | with_reducible apply iteM_keep | (simp only [Mem.wf_mk]; refine ⟨?_, ?_, ?_⟩)
    | with_reducible apply Tab.wf_put | with_reducible apply Tab.wf_putAll | with_reducible apply Tab.wf_filter
    | with_reducible apply Tab.wf_keep | with_reducible apply Tab.wf_merge | with_reducible exact Tab.wf_nil _
    | with_reducible apply Mem.bytes_keep | with_reducible apply Mem.pool_keep | with_reducible apply Mem.basin_keep
    | with_reducible apply Keeps.mem | with_reducible exact Mem.wf_empty | with_reducible apply foldlP_keep
    | with_reducible refine foldlP_keep_eq (by assumption) ?_ ?_ | with_reducible apply foldlQ_keep
    | with_reducible refine foldlQ_keep_eq (by assumption) ?_ ?_ | with_reducible apply OptKeeps.map
    | with_reducible exact OptKeeps.none | with_reducible apply OptKeeps.some | with_reducible apply SumKeeps.of_inl
    | with_reducible apply SumKeeps.of_inr | with_reducible apply id_keep | with_reducible apply ite_keep
    | with_reducible apply Keeps1.fst | with_reducible apply Keeps2.snd | with_reducible apply next_keep
    | with_reducible apply fault_keep | split | dsimp only | dsimp +zetaDelta only
    )

theorem State.cacheFill_keep {s : State} {part : Nat} {d : Nat} {write : Bool} {ue : Bool} (hwf : Keeps s) : Keeps
    (State.cacheFill s part d write ue) := by
  unfold State.cacheFill
  repeat' (first
    | with_reducible assumption | extract_lets | (lift_lets; extract_lets) | intro _
    | with_reducible apply State.unitRead_keep | with_reducible apply State.writeBack_keep
    | simp only [Keeps1.mk_iff] | simp only [Keeps2.mk_iff]
    | simp only [Keeps.mk_iff] | with_reducible apply foldl_keep | with_reducible apply foldlM_keep
    | with_reducible apply iteM_keep | (simp only [Mem.wf_mk]; refine ⟨?_, ?_, ?_⟩)
    | with_reducible apply Tab.wf_put | with_reducible apply Tab.wf_putAll | with_reducible apply Tab.wf_filter
    | with_reducible apply Tab.wf_keep | with_reducible apply Tab.wf_merge | with_reducible exact Tab.wf_nil _
    | with_reducible apply Mem.bytes_keep | with_reducible apply Mem.pool_keep | with_reducible apply Mem.basin_keep
    | with_reducible apply Keeps.mem | with_reducible exact Mem.wf_empty | with_reducible apply foldlP_keep
    | with_reducible refine foldlP_keep_eq (by assumption) ?_ ?_ | with_reducible apply foldlQ_keep
    | with_reducible refine foldlQ_keep_eq (by assumption) ?_ ?_ | with_reducible apply OptKeeps.map
    | with_reducible exact OptKeeps.none | with_reducible apply OptKeeps.some | with_reducible apply SumKeeps.of_inl
    | with_reducible apply SumKeeps.of_inr | with_reducible apply id_keep | with_reducible apply ite_keep
    | with_reducible apply Keeps1.fst | with_reducible apply Keeps2.snd | with_reducible apply next_keep
    | with_reducible apply fault_keep | split | dsimp only | dsimp +zetaDelta only
    )

theorem State.cacheAccess_keep {s : State} {part : Nat} {d : Nat} {write : Bool} {ue : Bool} (hwf : Keeps s) : Keeps
    (State.cacheAccess s part d write ue) := by
  unfold State.cacheAccess
  repeat' (first
    | with_reducible assumption | extract_lets | (lift_lets; extract_lets) | intro _
    | with_reducible apply State.cacheFill_keep
    | simp only [Keeps1.mk_iff] | simp only [Keeps2.mk_iff]
    | simp only [Keeps.mk_iff] | with_reducible apply foldl_keep | with_reducible apply foldlM_keep
    | with_reducible apply iteM_keep | (simp only [Mem.wf_mk]; refine ⟨?_, ?_, ?_⟩)
    | with_reducible apply Tab.wf_put | with_reducible apply Tab.wf_putAll | with_reducible apply Tab.wf_filter
    | with_reducible apply Tab.wf_keep | with_reducible apply Tab.wf_merge | with_reducible exact Tab.wf_nil _
    | with_reducible apply Mem.bytes_keep | with_reducible apply Mem.pool_keep | with_reducible apply Mem.basin_keep
    | with_reducible apply Keeps.mem | with_reducible exact Mem.wf_empty | with_reducible apply foldlP_keep
    | with_reducible refine foldlP_keep_eq (by assumption) ?_ ?_ | with_reducible apply foldlQ_keep
    | with_reducible refine foldlQ_keep_eq (by assumption) ?_ ?_ | with_reducible apply OptKeeps.map
    | with_reducible exact OptKeeps.none | with_reducible apply OptKeeps.some | with_reducible apply SumKeeps.of_inl
    | with_reducible apply SumKeeps.of_inr | with_reducible apply id_keep | with_reducible apply ite_keep
    | with_reducible apply Keeps1.fst | with_reducible apply Keeps2.snd | with_reducible apply next_keep
    | with_reducible apply fault_keep | split | dsimp only | dsimp +zetaDelta only
    )

theorem State.lineTraffic_keep {s : State} {part : Nat} {d : Nat} {n : Nat} {write : Bool} {ue : Bool} (hwf : Keeps
    s) : Keeps (State.lineTraffic s part d n write ue) := by
  unfold State.lineTraffic
  repeat' (first
    | with_reducible assumption | extract_lets | (lift_lets; extract_lets) | intro _
    | with_reducible apply State.cacheAccess_keep | with_reducible apply State.unitWrote_keep
    | with_reducible apply State.unitRead_keep
    | simp only [Keeps1.mk_iff] | simp only [Keeps2.mk_iff]
    | simp only [Keeps.mk_iff] | with_reducible apply foldl_keep | with_reducible apply foldlM_keep
    | with_reducible apply iteM_keep | (simp only [Mem.wf_mk]; refine ⟨?_, ?_, ?_⟩)
    | with_reducible apply Tab.wf_put | with_reducible apply Tab.wf_putAll | with_reducible apply Tab.wf_filter
    | with_reducible apply Tab.wf_keep | with_reducible apply Tab.wf_merge | with_reducible exact Tab.wf_nil _
    | with_reducible apply Mem.bytes_keep | with_reducible apply Mem.pool_keep | with_reducible apply Mem.basin_keep
    | with_reducible apply Keeps.mem | with_reducible exact Mem.wf_empty | with_reducible apply foldlP_keep
    | with_reducible refine foldlP_keep_eq (by assumption) ?_ ?_ | with_reducible apply foldlQ_keep
    | with_reducible refine foldlQ_keep_eq (by assumption) ?_ ?_ | with_reducible apply OptKeeps.map
    | with_reducible exact OptKeeps.none | with_reducible apply OptKeeps.some | with_reducible apply SumKeeps.of_inl
    | with_reducible apply SumKeeps.of_inr | with_reducible apply id_keep | with_reducible apply ite_keep
    | with_reducible apply Keeps1.fst | with_reducible apply Keeps2.snd | with_reducible apply next_keep
    | with_reducible apply fault_keep | split | dsimp only | dsimp +zetaDelta only
    )

theorem State.accumulate_keep {s : State} {w : Window} {k : Nat} {x : Nat} {poison : Bool} {ue : List Nat} (hwf :
    Keeps s) : Keeps (State.accumulate s w k x poison ue) := by
  unfold State.accumulate
  repeat' (first
    | with_reducible assumption | extract_lets | (lift_lets; extract_lets) | intro _
    | with_reducible apply Mem.openFresh_keep | with_reducible apply State.openFresh_keep
    | with_reducible apply State.charge_keep | with_reducible apply State.lineTraffic_keep
    | with_reducible apply Mem.writeLine_keep
    | simp only [Keeps1.mk_iff] | simp only [Keeps2.mk_iff]
    | simp only [Keeps.mk_iff] | with_reducible apply foldl_keep | with_reducible apply foldlM_keep
    | with_reducible apply iteM_keep | (simp only [Mem.wf_mk]; refine ⟨?_, ?_, ?_⟩)
    | with_reducible apply Tab.wf_put | with_reducible apply Tab.wf_putAll | with_reducible apply Tab.wf_filter
    | with_reducible apply Tab.wf_keep | with_reducible apply Tab.wf_merge | with_reducible exact Tab.wf_nil _
    | with_reducible apply Mem.bytes_keep | with_reducible apply Mem.pool_keep | with_reducible apply Mem.basin_keep
    | with_reducible apply Keeps.mem | with_reducible exact Mem.wf_empty | with_reducible apply foldlP_keep
    | with_reducible refine foldlP_keep_eq (by assumption) ?_ ?_ | with_reducible apply foldlQ_keep
    | with_reducible refine foldlQ_keep_eq (by assumption) ?_ ?_ | with_reducible apply OptKeeps.map
    | with_reducible exact OptKeeps.none | with_reducible apply OptKeeps.some | with_reducible apply SumKeeps.of_inl
    | with_reducible apply SumKeeps.of_inr | with_reducible apply id_keep | with_reducible apply ite_keep
    | with_reducible apply Keeps1.fst | with_reducible apply Keeps2.snd | with_reducible apply next_keep
    | with_reducible apply fault_keep | split | dsimp only | dsimp +zetaDelta only
    )

theorem State.contribute_keep {s : State} {w : Nat} {off : Nat} {bs : List Byte} {poison : Bool} {ue : List Nat}
    (hwf : Keeps s) : Keeps (State.contribute s w off bs poison ue) := by
  unfold State.contribute
  repeat' (first
    | with_reducible assumption | extract_lets | (lift_lets; extract_lets) | intro _
    | with_reducible apply State.accumulate_keep | simp only [Keeps1.mk_iff] | simp only [Keeps2.mk_iff]
    | simp only [Keeps.mk_iff] | with_reducible apply foldl_keep | with_reducible apply Keeps.mem
    | with_reducible exact Mem.wf_empty | with_reducible apply foldlP_keep
    | with_reducible refine foldlP_keep_eq (by assumption) ?_ ?_ | with_reducible apply foldlQ_keep
    | with_reducible refine foldlQ_keep_eq (by assumption) ?_ ?_ | with_reducible apply ite_keep
    | with_reducible apply Keeps1.fst | with_reducible apply Keeps2.snd | split | dsimp only | dsimp +zetaDelta only
    )

theorem State.writePlace_keep {s : State} {p : Place} {bs : List Byte} {poison : Bool} (hwf : Keeps s) : Keeps
    (State.writePlace s p bs poison) := by
  unfold State.writePlace
  repeat' (first
    | with_reducible assumption | extract_lets | (lift_lets; extract_lets) | intro _
    | with_reducible apply State.writeJunction_keep | with_reducible apply State.contribute_keep
    | with_reducible apply Mem.healWords_keep | with_reducible apply Mem.writeLine_keep | simp only [Keeps.mk_iff]
    | with_reducible apply foldlM_keep | with_reducible apply iteM_keep
    | (simp only [Mem.wf_mk]; refine ⟨?_, ?_, ?_⟩) | with_reducible apply Tab.wf_put
    | with_reducible apply Tab.wf_putAll | with_reducible apply Tab.wf_filter | with_reducible apply Tab.wf_keep
    | with_reducible apply Tab.wf_merge | with_reducible exact Tab.wf_nil _ | with_reducible apply Mem.bytes_keep
    | with_reducible apply Mem.pool_keep | with_reducible apply Mem.basin_keep | with_reducible apply Keeps.mem
    | with_reducible exact Mem.wf_empty | with_reducible apply ite_keep | split | dsimp only | dsimp +zetaDelta only
    )

theorem State.writePiece_keep {s : State} {part : Nat} {va : Nat} {bs : List Byte} {poison : Bool} (hwf : Keeps s)
    : Keeps (State.writePiece s part va bs poison) := by
  unfold State.writePiece
  repeat' (first
    | with_reducible assumption | extract_lets | (lift_lets; extract_lets) | intro _
    | with_reducible apply State.writePlace_keep | with_reducible apply State.openFresh_keep
    | with_reducible apply Mem.openFresh_keep | simp only [Keeps.mk_iff] | with_reducible apply Keeps.mem
    | with_reducible exact Mem.wf_empty | with_reducible apply ite_keep | split | dsimp only | dsimp +zetaDelta only
    )

theorem State.writeVA_keep {s : State} {part : Nat} {va : Nat} {bs : List Byte} {poison : Bool} (hwf : Keeps s) :
    Keeps (State.writeVA s part va bs poison) := by
  unfold State.writeVA
  repeat' (first
    | with_reducible assumption | extract_lets | (lift_lets; extract_lets) | intro _
    | with_reducible apply State.writePiece_keep | simp only [Keeps1.mk_iff] | simp only [Keeps2.mk_iff]
    | with_reducible apply foldl_keep | with_reducible apply foldlP_keep
    | with_reducible refine foldlP_keep_eq (by assumption) ?_ ?_ | with_reducible apply foldlQ_keep
    | with_reducible refine foldlQ_keep_eq (by assumption) ?_ ?_ | with_reducible apply ite_keep
    | with_reducible apply Keeps1.fst | with_reducible apply Keeps2.snd | split | dsimp only | dsimp +zetaDelta only
    )

theorem State.markVA_keep {s : State} {part : Nat} {va : Nat} {n : Nat} (hwf : Keeps s) : Keeps (State.markVA s
    part va n) := by
  unfold State.markVA
  repeat' (first
    | with_reducible assumption | extract_lets | (lift_lets; extract_lets) | intro _
    | with_reducible apply Mem.mark_keep | simp only [Keeps1.mk_iff] | simp only [Keeps2.mk_iff]
    | simp only [Keeps.mk_iff] | with_reducible apply foldl_keep | with_reducible apply foldlM_keep
    | with_reducible apply iteM_keep | (simp only [Mem.wf_mk]; refine ⟨?_, ?_, ?_⟩)
    | with_reducible apply Tab.wf_put | with_reducible apply Tab.wf_putAll | with_reducible apply Tab.wf_filter
    | with_reducible apply Tab.wf_keep | with_reducible apply Tab.wf_merge | with_reducible exact Tab.wf_nil _
    | with_reducible apply Mem.bytes_keep | with_reducible apply Mem.pool_keep | with_reducible apply Mem.basin_keep
    | with_reducible apply Keeps.mem | with_reducible exact Mem.wf_empty | with_reducible apply foldlP_keep
    | with_reducible refine foldlP_keep_eq (by assumption) ?_ ?_ | with_reducible apply foldlQ_keep
    | with_reducible refine foldlQ_keep_eq (by assumption) ?_ ?_ | with_reducible apply ite_keep
    | with_reducible apply Keeps1.fst | with_reducible apply Keeps2.snd | split | dsimp only | dsimp +zetaDelta only
    )

theorem State.poisonVA_keep {s : State} {part : Nat} {va : Nat} {n : Nat} (hwf : Keeps s) : Keeps (State.poisonVA
    s part va n) := by
  unfold State.poisonVA
  repeat' (first
    | with_reducible assumption | extract_lets | (lift_lets; extract_lets) | intro _
    | with_reducible apply State.writeVA_keep | with_reducible apply ite_keep | split | dsimp only
    | dsimp +zetaDelta only
    )

theorem State.writeNat_keep {s : State} {part : Nat} {va : Nat} {v : Nat} {n : Nat} (hwf : Keeps s) : Keeps
    (State.writeNat s part va v n) := by
  unfold State.writeNat
  repeat' (first
    | with_reducible assumption | extract_lets | (lift_lets; extract_lets) | intro _
    | with_reducible apply State.writeVA_keep | with_reducible apply ite_keep | split | dsimp only
    | dsimp +zetaDelta only
    )

theorem State.chargeExtent_keep {s : State} {part : Nat} {die : Nat} {va : Nat} {n : Nat} {write : Bool} (hwf :
    Keeps s) : Keeps (State.chargeExtent s part die va n write) := by
  unfold State.chargeExtent
  repeat' (first
    | with_reducible assumption | extract_lets | (lift_lets; extract_lets) | intro _
    | with_reducible apply State.charge_keep | with_reducible apply State.lineTraffic_keep
    | with_reducible apply State.updCtrl_keep
    | simp only [Keeps1.mk_iff] | simp only [Keeps2.mk_iff]
    | simp only [Keeps.mk_iff] | with_reducible apply foldl_keep | with_reducible apply foldlM_keep
    | with_reducible apply iteM_keep | (simp only [Mem.wf_mk]; refine ⟨?_, ?_, ?_⟩)
    | with_reducible apply Tab.wf_put | with_reducible apply Tab.wf_putAll | with_reducible apply Tab.wf_filter
    | with_reducible apply Tab.wf_keep | with_reducible apply Tab.wf_merge | with_reducible exact Tab.wf_nil _
    | with_reducible apply Mem.bytes_keep | with_reducible apply Mem.pool_keep | with_reducible apply Mem.basin_keep
    | with_reducible apply Keeps.mem | with_reducible exact Mem.wf_empty | with_reducible apply foldlP_keep
    | with_reducible refine foldlP_keep_eq (by assumption) ?_ ?_ | with_reducible apply foldlQ_keep
    | with_reducible refine foldlQ_keep_eq (by assumption) ?_ ?_ | with_reducible apply OptKeeps.map
    | with_reducible exact OptKeeps.none | with_reducible apply OptKeeps.some | with_reducible apply SumKeeps.of_inl
    | with_reducible apply SumKeeps.of_inr | with_reducible apply id_keep | with_reducible apply ite_keep
    | with_reducible apply Keeps1.fst | with_reducible apply Keeps2.snd | with_reducible apply next_keep
    | with_reducible apply fault_keep | split | dsimp only | dsimp +zetaDelta only
    )

end Sys2Proof.Machine
end

