-- ==== Sys2Proof/Laws/MemLogOps.lean ====
section
/-! SUPPORT. Every operation of Machine/LogOps.lean keeps the canonical form of the byte memories. -/

namespace Sys2Proof.Machine

set_option linter.unusedVariables false
set_option linter.unusedSimpArgs false
set_option linter.unusedTactic false
set_option linter.unreachableTactic false


theorem State.holdEvent_keep {s : State} {e : EventRec} (hwf : Keeps s) : Keeps (State.holdEvent s e) := by
  unfold State.holdEvent
  repeat' (first
    | with_reducible assumption | extract_lets | (lift_lets; extract_lets) | intro _ | simp only [Keeps.mk_iff]
    | with_reducible apply Keeps.mem | with_reducible exact Mem.wf_empty | with_reducible apply ite_keep | split
    | dsimp only | dsimp +zetaDelta only
    )

theorem State.raise_keep {s : State} {code : Nat} {sev : Nat} {tos : List Nat} {p : List Nat} (hwf : Keeps s) :
    Keeps (State.raise s code sev tos p) := by
  unfold State.raise
  repeat' (first
    | with_reducible assumption | extract_lets | (lift_lets; extract_lets) | intro _
    | with_reducible apply State.holdEvent_keep
    | simp only [Keeps1.mk_iff] | simp only [Keeps2.mk_iff]
    | simp only [Keeps.mk_iff] | with_reducible apply foldl_keep | with_reducible apply foldlM_keep
    | with_reducible apply iteM_keep | (simp only [Mem.wf_mk]; refine ⟨?_, ?_, ?_⟩)
    | with_reducible apply Tab.wf_put | with_reducible apply Tab.wf_putAll | with_reducible apply Tab.wf_filter
    | with_reducible apply Tab.wf_keep | with_reducible apply Tab.wf_merge | with_reducible exact Tab.wf_nil _
    | with_reducible apply Mem.bytes_keep | with_reducible apply Mem.pool_keep | with_reducible apply Mem.basin_keep
    | with_reducible apply Keeps.mem | with_reducible exact Mem.wf_empty | with_reducible apply foldlP_keep
    | with_reducible refine foldlP_keep_eq (by assumption) ?_ ?_ | with_reducible apply foldlQ_keep
    | with_reducible refine foldlQ_keep_eq (by assumption) ?_ ?_ | with_reducible apply OptKeeps.map
    | with_reducible exact OptKeeps.none | with_reducible apply OptKeeps.some | with_reducible apply SumKeeps.of_inl
    | with_reducible apply SumKeeps.of_inr | with_reducible apply id_keep | with_reducible apply ite_keep
    | with_reducible apply Keeps1.fst | with_reducible apply Keeps2.snd | with_reducible apply next_keep
    | with_reducible apply fault_keep | split | dsimp only | dsimp +zetaDelta only
    )

theorem State.recordNow_keep {s : State} {code : Nat} {sev : Nat} {part : Nat} {srcKind : Nat} {srcIndex : Nat}
    {p0 : Nat} {p1 : Nat} {p2 : Nat} {p3 : Nat} {tos : List Nat} (hwf : Keeps s) : Keeps (State.recordNow s code
    sev part srcKind srcIndex p0 p1 p2 p3 tos) := by
  unfold State.recordNow
  repeat' (first
    | with_reducible assumption | extract_lets | (lift_lets; extract_lets) | intro _
    | with_reducible apply State.raise_keep | simp only [Keeps.mk_iff] | with_reducible apply Keeps.mem
    | with_reducible exact Mem.wf_empty | with_reducible apply ite_keep | split | dsimp only | dsimp +zetaDelta only
    )

theorem State.endMs_keep {s : State} (hwf : Keeps s) : Keeps (State.endMs s) := by
  unfold State.endMs
  repeat' (first
    | with_reducible assumption | extract_lets | (lift_lets; extract_lets) | intro _
    | with_reducible apply State.recordNow_keep | simp only [Keeps1.mk_iff] | simp only [Keeps2.mk_iff]
    | simp only [Keeps.mk_iff] | with_reducible apply foldl_keep | with_reducible apply Keeps.mem
    | with_reducible exact Mem.wf_empty | with_reducible apply foldlP_keep
    | with_reducible refine foldlP_keep_eq (by assumption) ?_ ?_ | with_reducible apply foldlQ_keep
    | with_reducible refine foldlQ_keep_eq (by assumption) ?_ ?_ | with_reducible apply ite_keep
    | with_reducible apply Keeps1.fst | with_reducible apply Keeps2.snd | split | dsimp only | dsimp +zetaDelta only
    )

theorem State.record_keep {s : State} {code : Nat} {sev : Nat} {part : Nat} {srcKind : Nat} {srcIndex : Nat} {p0 :
    Nat} {p1 : Nat} {p2 : Nat} {p3 : Nat} {tos : List Nat} (hwf : Keeps s) : Keeps (State.record s code sev part
    srcKind srcIndex p0 p1 p2 p3 tos) := by
  unfold State.record
  repeat' (first
    | with_reducible assumption | extract_lets | (lift_lets; extract_lets) | intro _
    | with_reducible apply State.recordNow_keep | with_reducible apply State.endMs_keep
    | with_reducible apply ite_keep | split | dsimp only | dsimp +zetaDelta only
    )

theorem State.lineUe_keep {s : State} {line : Nat} (hwf : Keeps s) : Keeps (State.lineUe s line) := by
  unfold State.lineUe
  repeat' (first
    | with_reducible assumption | extract_lets | (lift_lets; extract_lets) | intro _
    | with_reducible apply Mem.mark_keep | with_reducible apply State.record_keep
    | simp only [Keeps1.mk_iff] | simp only [Keeps2.mk_iff]
    | simp only [Keeps.mk_iff] | with_reducible apply foldl_keep | with_reducible apply foldlM_keep
    | with_reducible apply iteM_keep | (simp only [Mem.wf_mk]; refine ⟨?_, ?_, ?_⟩)
    | with_reducible apply Tab.wf_put | with_reducible apply Tab.wf_putAll | with_reducible apply Tab.wf_filter
    | with_reducible apply Tab.wf_keep | with_reducible apply Tab.wf_merge | with_reducible exact Tab.wf_nil _
    | with_reducible apply Mem.bytes_keep | with_reducible apply Mem.pool_keep | with_reducible apply Mem.basin_keep
    | with_reducible apply Keeps.mem | with_reducible exact Mem.wf_empty | with_reducible apply foldlP_keep
    | with_reducible refine foldlP_keep_eq (by assumption) ?_ ?_ | with_reducible apply foldlQ_keep
    | with_reducible refine foldlQ_keep_eq (by assumption) ?_ ?_ | with_reducible apply OptKeeps.map
    | with_reducible exact OptKeeps.none | with_reducible apply OptKeeps.some | with_reducible apply SumKeeps.of_inl
    | with_reducible apply SumKeeps.of_inr | with_reducible apply id_keep | with_reducible apply ite_keep
    | with_reducible apply Keeps1.fst | with_reducible apply Keeps2.snd | with_reducible apply next_keep
    | with_reducible apply fault_keep | split | dsimp only | dsimp +zetaDelta only
    )

theorem State.notePairFault_keep {s : State} {part : Nat} {va : Nat} (hwf : Keeps s) : Keeps (State.notePairFault s
    part va) := by
  unfold State.notePairFault
  repeat' (first
    | with_reducible assumption | extract_lets | (lift_lets; extract_lets) | intro _
    | with_reducible apply State.record_keep
    | simp only [Keeps1.mk_iff] | simp only [Keeps2.mk_iff]
    | simp only [Keeps.mk_iff] | with_reducible apply foldl_keep | with_reducible apply foldlM_keep
    | with_reducible apply iteM_keep | (simp only [Mem.wf_mk]; refine ⟨?_, ?_, ?_⟩)
    | with_reducible apply Tab.wf_put | with_reducible apply Tab.wf_putAll | with_reducible apply Tab.wf_filter
    | with_reducible apply Tab.wf_keep | with_reducible apply Tab.wf_merge | with_reducible exact Tab.wf_nil _
    | with_reducible apply Mem.bytes_keep | with_reducible apply Mem.pool_keep | with_reducible apply Mem.basin_keep
    | with_reducible apply Keeps.mem | with_reducible exact Mem.wf_empty | with_reducible apply foldlP_keep
    | with_reducible refine foldlP_keep_eq (by assumption) ?_ ?_ | with_reducible apply foldlQ_keep
    | with_reducible refine foldlQ_keep_eq (by assumption) ?_ ?_ | with_reducible apply OptKeeps.map
    | with_reducible exact OptKeeps.none | with_reducible apply OptKeeps.some | with_reducible apply SumKeeps.of_inl
    | with_reducible apply SumKeeps.of_inr | with_reducible apply id_keep | with_reducible apply ite_keep
    | with_reducible apply Keeps1.fst | with_reducible apply Keeps2.snd | with_reducible apply next_keep
    | with_reducible apply fault_keep | split | dsimp only | dsimp +zetaDelta only
    )

theorem State.notePairs_keep {s : State} {part : Nat} {l : List (Nat × Nat)} (hwf : Keeps s) : Keeps
    (State.notePairs s part l) := by
  unfold State.notePairs
  repeat' (first
    | with_reducible assumption | extract_lets | (lift_lets; extract_lets) | intro _
    | with_reducible apply State.notePairFault_keep
    | simp only [Keeps1.mk_iff] | simp only [Keeps2.mk_iff]
    | simp only [Keeps.mk_iff] | with_reducible apply foldl_keep | with_reducible apply foldlM_keep
    | with_reducible apply iteM_keep | (simp only [Mem.wf_mk]; refine ⟨?_, ?_, ?_⟩)
    | with_reducible apply Tab.wf_put | with_reducible apply Tab.wf_putAll | with_reducible apply Tab.wf_filter
    | with_reducible apply Tab.wf_keep | with_reducible apply Tab.wf_merge | with_reducible exact Tab.wf_nil _
    | with_reducible apply Mem.bytes_keep | with_reducible apply Mem.pool_keep | with_reducible apply Mem.basin_keep
    | with_reducible apply Keeps.mem | with_reducible exact Mem.wf_empty | with_reducible apply foldlP_keep
    | with_reducible refine foldlP_keep_eq (by assumption) ?_ ?_ | with_reducible apply foldlQ_keep
    | with_reducible refine foldlQ_keep_eq (by assumption) ?_ ?_ | with_reducible apply OptKeeps.map
    | with_reducible exact OptKeeps.none | with_reducible apply OptKeeps.some | with_reducible apply SumKeeps.of_inl
    | with_reducible apply SumKeeps.of_inr | with_reducible apply id_keep | with_reducible apply ite_keep
    | with_reducible apply Keeps1.fst | with_reducible apply Keeps2.snd | with_reducible apply next_keep
    | with_reducible apply fault_keep | split | dsimp only | dsimp +zetaDelta only
    )

theorem State.beginRecovery_keep {s : State} {level : Nat} {part : Nat} (hwf : Keeps s) : Keeps
    (State.beginRecovery s level part) := by
  unfold State.beginRecovery
  repeat' (first
    | with_reducible assumption | extract_lets | (lift_lets; extract_lets) | intro _
    | with_reducible apply State.record_keep | simp only [Keeps.mk_iff] | with_reducible apply Keeps.mem
    | with_reducible exact Mem.wf_empty | with_reducible apply ite_keep | split | dsimp only | dsimp +zetaDelta only
    )

theorem State.endRecovery_keep {s : State} {head : Nat} (hwf : Keeps s) : Keeps (State.endRecovery s head) := by
  unfold State.endRecovery
  repeat' (first
    | with_reducible assumption | extract_lets | (lift_lets; extract_lets) | intro _
    | with_reducible apply State.record_keep | simp only [Keeps.mk_iff] | with_reducible apply Keeps.mem
    | with_reducible exact Mem.wf_empty | with_reducible apply ite_keep | split | dsimp only | dsimp +zetaDelta only
    )

theorem State.lockDbg_keep {s : State} {cause : Nat} (hwf : Keeps s) : Keeps (State.lockDbg s cause) := by
  unfold State.lockDbg
  repeat' (first
    | with_reducible assumption | extract_lets | (lift_lets; extract_lets) | intro _
    | with_reducible apply State.record_keep | simp only [Keeps.mk_iff] | with_reducible apply Keeps.mem
    | with_reducible exact Mem.wf_empty | with_reducible apply ite_keep | split | dsimp only | dsimp +zetaDelta only
    )

end Sys2Proof.Machine
end

