-- ==== Sys2Proof/Laws/MemPowerOps.lean ====
section
/-! SUPPORT. Every operation of Machine/PowerOps.lean keeps the canonical form of the byte memories. -/

namespace Sys2Proof.Machine

set_option linter.unusedVariables false
set_option linter.unusedSimpArgs false
set_option linter.unusedTactic false
set_option linter.unreachableTactic false


theorem State.updDomain_keep {s : State} {d : Nat} {f : Domain → Domain} (hwf : Keeps s) : Keeps (State.updDomain
    s d f) := by
  unfold State.updDomain
  repeat' (first
    | with_reducible assumption | extract_lets | (lift_lets; extract_lets) | intro _ | simp only [Keeps.mk_iff]
    | with_reducible apply Keeps.mem | with_reducible exact Mem.wf_empty | with_reducible apply ite_keep | split
    | dsimp only | dsimp +zetaDelta only
    )

theorem State.setTarget_keep {s : State} {d : Nat} {t : DomTarget} (hwf : Keeps s) : Keeps (State.setTarget s d t)
    := by
  unfold State.setTarget
  repeat' (first
    | with_reducible assumption | extract_lets | (lift_lets; extract_lets) | intro _
    | with_reducible apply State.updDomain_keep | simp only [Keeps.mk_iff] | with_reducible apply Keeps.mem
    | with_reducible exact Mem.wf_empty | with_reducible apply ite_keep | split | dsimp only | dsimp +zetaDelta only
    )

theorem State.zeroCores_keep {s : State} {p : Nat → Bool} (hwf : Keeps s) : Keeps (State.zeroCores s p) := by
  unfold State.zeroCores
  repeat' (first
    | with_reducible assumption | extract_lets | (lift_lets; extract_lets) | intro _
    | simp only [Keeps1.mk_iff] | simp only [Keeps2.mk_iff]
    | simp only [Keeps.mk_iff] | with_reducible apply foldl_keep | with_reducible apply foldlM_keep
    | with_reducible apply iteM_keep | (simp only [Mem.wf_mk]; refine ⟨?_, ?_, ?_⟩)
    | with_reducible apply Tab.wf_put | with_reducible apply Tab.wf_putAll | with_reducible apply Tab.wf_filter
    | with_reducible apply Tab.wf_keep | with_reducible apply Tab.wf_merge | with_reducible exact Tab.wf_nil _
    | with_reducible apply Mem.bytes_keep | with_reducible apply Mem.pool_keep | with_reducible apply Mem.basin_keep
    | with_reducible apply Keeps.mem | with_reducible exact Mem.wf_empty | with_reducible apply foldlP_keep
    | with_reducible refine foldlP_keep_eq (by assumption) ?_ ?_ | with_reducible apply foldlQ_keep
    | with_reducible refine foldlQ_keep_eq (by assumption) ?_ ?_ | with_reducible apply OptKeeps.map
    | with_reducible exact OptKeeps.none | with_reducible apply OptKeeps.some | with_reducible apply SumKeeps.of_inl
    | with_reducible apply SumKeeps.of_inr | with_reducible apply id_keep | with_reducible apply ite_keep
    | with_reducible apply Keeps1.fst | with_reducible apply Keeps2.snd | with_reducible apply next_keep
    | with_reducible apply fault_keep | split | dsimp only | dsimp +zetaDelta only
    )

theorem State.giveCores_keep {s : State} {p : Nat → Bool} (hwf : Keeps s) : Keeps (State.giveCores s p) := by
  unfold State.giveCores
  repeat' (first
    | with_reducible assumption | extract_lets | (lift_lets; extract_lets) | intro _
    | with_reducible apply State.zeroCores_keep | with_reducible apply State.setCore_keep
    | simp only [Keeps1.mk_iff] | simp only [Keeps2.mk_iff] | with_reducible apply foldl_keep
    | with_reducible apply foldlP_keep | with_reducible refine foldlP_keep_eq (by assumption) ?_ ?_
    | with_reducible apply foldlQ_keep | with_reducible refine foldlQ_keep_eq (by assumption) ?_ ?_
    | with_reducible apply ite_keep | with_reducible apply Keeps1.fst | with_reducible apply Keeps2.snd | split
    | dsimp only | dsimp +zetaDelta only
    )

theorem State.idleJunctions_keep {s : State} {p : Nat → Bool} (hwf : Keeps s) : Keeps (State.idleJunctions s p) :=
    by
  unfold State.idleJunctions
  repeat' (first
    | with_reducible assumption | extract_lets | (lift_lets; extract_lets) | intro _
    | simp only [Keeps1.mk_iff] | simp only [Keeps2.mk_iff]
    | simp only [Keeps.mk_iff] | with_reducible apply foldl_keep | with_reducible apply foldlM_keep
    | with_reducible apply iteM_keep | (simp only [Mem.wf_mk]; refine ⟨?_, ?_, ?_⟩)
    | with_reducible apply Tab.wf_put | with_reducible apply Tab.wf_putAll | with_reducible apply Tab.wf_filter
    | with_reducible apply Tab.wf_keep | with_reducible apply Tab.wf_merge | with_reducible exact Tab.wf_nil _
    | with_reducible apply Mem.bytes_keep | with_reducible apply Mem.pool_keep | with_reducible apply Mem.basin_keep
    | with_reducible apply Keeps.mem | with_reducible exact Mem.wf_empty | with_reducible apply foldlP_keep
    | with_reducible refine foldlP_keep_eq (by assumption) ?_ ?_ | with_reducible apply foldlQ_keep
    | with_reducible refine foldlQ_keep_eq (by assumption) ?_ ?_ | with_reducible apply OptKeeps.map
    | with_reducible exact OptKeeps.none | with_reducible apply OptKeeps.some | with_reducible apply SumKeeps.of_inl
    | with_reducible apply SumKeeps.of_inr | with_reducible apply id_keep | with_reducible apply ite_keep
    | with_reducible apply Keeps1.fst | with_reducible apply Keeps2.snd | with_reducible apply next_keep
    | with_reducible apply fault_keep | split | dsimp only | dsimp +zetaDelta only
    )

theorem State.zeroBasins_keep {s : State} {p : Nat → Bool} (hwf : Keeps s) : Keeps (State.zeroBasins s p) := by
  unfold State.zeroBasins
  repeat' (first
    | with_reducible assumption | extract_lets | (lift_lets; extract_lets) | intro _
    | with_reducible apply State.idleJunctions_keep
    | simp only [Keeps1.mk_iff] | simp only [Keeps2.mk_iff]
    | simp only [Keeps.mk_iff] | with_reducible apply foldl_keep | with_reducible apply foldlM_keep
    | with_reducible apply iteM_keep | (simp only [Mem.wf_mk]; refine ⟨?_, ?_, ?_⟩)
    | with_reducible apply Tab.wf_put | with_reducible apply Tab.wf_putAll | with_reducible apply Tab.wf_filter
    | with_reducible apply Tab.wf_keep | with_reducible apply Tab.wf_merge | with_reducible exact Tab.wf_nil _
    | with_reducible apply Mem.bytes_keep | with_reducible apply Mem.pool_keep | with_reducible apply Mem.basin_keep
    | with_reducible apply Keeps.mem | with_reducible exact Mem.wf_empty | with_reducible apply foldlP_keep
    | with_reducible refine foldlP_keep_eq (by assumption) ?_ ?_ | with_reducible apply foldlQ_keep
    | with_reducible refine foldlQ_keep_eq (by assumption) ?_ ?_ | with_reducible apply OptKeeps.map
    | with_reducible exact OptKeeps.none | with_reducible apply OptKeeps.some | with_reducible apply SumKeeps.of_inl
    | with_reducible apply SumKeeps.of_inr | with_reducible apply id_keep | with_reducible apply ite_keep
    | with_reducible apply Keeps1.fst | with_reducible apply Keeps2.snd | with_reducible apply next_keep
    | with_reducible apply fault_keep | split | dsimp only | dsimp +zetaDelta only
    )

theorem State.openSluice_keep {s : State} {d : Nat} (hwf : Keeps s) : Keeps (State.openSluice s d) := by
  unfold State.openSluice
  repeat' (first
    | with_reducible assumption | extract_lets | (lift_lets; extract_lets) | intro _
    | with_reducible apply State.updDomain_keep | simp only [Keeps.mk_iff] | with_reducible apply Keeps.mem
    | with_reducible exact Mem.wf_empty | with_reducible apply ite_keep | split | dsimp only | dsimp +zetaDelta only
    )

theorem State.rezeroCores_keep {s : State} {p : Nat → Bool} (hwf : Keeps s) : Keeps (State.rezeroCores s p) := by
  unfold State.rezeroCores
  repeat' (first
    | with_reducible assumption | extract_lets | (lift_lets; extract_lets) | intro _
    | with_reducible apply State.zeroCores_keep | with_reducible apply State.setCore_keep
    | simp only [Keeps1.mk_iff] | simp only [Keeps2.mk_iff] | with_reducible apply foldl_keep
    | with_reducible apply foldlP_keep | with_reducible refine foldlP_keep_eq (by assumption) ?_ ?_
    | with_reducible apply foldlQ_keep | with_reducible refine foldlQ_keep_eq (by assumption) ?_ ?_
    | with_reducible apply ite_keep | with_reducible apply Keeps1.fst | with_reducible apply Keeps2.snd | split
    | dsimp only | dsimp +zetaDelta only
    )

theorem State.domainOn_keep {s : State} {d : Nat} (hwf : Keeps s) : Keeps (State.domainOn s d) := by
  unfold State.domainOn
  repeat' (first
    | with_reducible assumption | extract_lets | (lift_lets; extract_lets) | intro _
    | with_reducible apply State.rezeroCores_keep | with_reducible apply State.zeroBasins_keep
    | with_reducible apply State.updCore_keep | with_reducible apply State.updDomain_keep
    | with_reducible apply State.openSluice_keep
    | simp only [Keeps1.mk_iff] | simp only [Keeps2.mk_iff]
    | simp only [Keeps.mk_iff] | with_reducible apply foldl_keep | with_reducible apply foldlM_keep
    | with_reducible apply iteM_keep | (simp only [Mem.wf_mk]; refine ⟨?_, ?_, ?_⟩)
    | with_reducible apply Tab.wf_put | with_reducible apply Tab.wf_putAll | with_reducible apply Tab.wf_filter
    | with_reducible apply Tab.wf_keep | with_reducible apply Tab.wf_merge | with_reducible exact Tab.wf_nil _
    | with_reducible apply Mem.bytes_keep | with_reducible apply Mem.pool_keep | with_reducible apply Mem.basin_keep
    | with_reducible apply Keeps.mem | with_reducible exact Mem.wf_empty | with_reducible apply foldlP_keep
    | with_reducible refine foldlP_keep_eq (by assumption) ?_ ?_ | with_reducible apply foldlQ_keep
    | with_reducible refine foldlQ_keep_eq (by assumption) ?_ ?_ | with_reducible apply OptKeeps.map
    | with_reducible exact OptKeeps.none | with_reducible apply OptKeeps.some | with_reducible apply SumKeeps.of_inl
    | with_reducible apply SumKeeps.of_inr | with_reducible apply id_keep | with_reducible apply ite_keep
    | with_reducible apply Keeps1.fst | with_reducible apply Keeps2.snd | with_reducible apply next_keep
    | with_reducible apply fault_keep | split | dsimp only | dsimp +zetaDelta only
    )

theorem State.startWake_keep {s : State} {d : Nat} (hwf : Keeps s) : Keeps (State.startWake s d) := by
  unfold State.startWake
  repeat' (first
    | with_reducible assumption | extract_lets | (lift_lets; extract_lets) | intro _
    | with_reducible apply State.openSluice_keep | with_reducible apply State.updDomain_keep
    | simp only [Keeps.mk_iff] | with_reducible apply Keeps.mem | with_reducible exact Mem.wf_empty
    | with_reducible apply ite_keep | split | dsimp only | dsimp +zetaDelta only
    )

theorem State.commandWake_keep {s : State} {d : Nat} (hwf : Keeps s) : Keeps (State.commandWake s d) := by
  unfold State.commandWake
  repeat' (first
    | with_reducible assumption | extract_lets | (lift_lets; extract_lets) | intro _
    | with_reducible apply State.setTarget_keep | with_reducible apply State.startWake_keep
    | with_reducible apply ite_keep | split | dsimp only | dsimp +zetaDelta only
    )

theorem State.burstWake_keep {s : State} {ds : List Nat} (hwf : Keeps s) : Keeps (State.burstWake s ds) := by
  unfold State.burstWake
  repeat' (first
    | with_reducible assumption | extract_lets | (lift_lets; extract_lets) | intro _
    | with_reducible apply State.startWake_keep
    | simp only [Keeps1.mk_iff] | simp only [Keeps2.mk_iff]
    | simp only [Keeps.mk_iff] | with_reducible apply foldl_keep | with_reducible apply foldlM_keep
    | with_reducible apply iteM_keep | (simp only [Mem.wf_mk]; refine ⟨?_, ?_, ?_⟩)
    | with_reducible apply Tab.wf_put | with_reducible apply Tab.wf_putAll | with_reducible apply Tab.wf_filter
    | with_reducible apply Tab.wf_keep | with_reducible apply Tab.wf_merge | with_reducible exact Tab.wf_nil _
    | with_reducible apply Mem.bytes_keep | with_reducible apply Mem.pool_keep | with_reducible apply Mem.basin_keep
    | with_reducible apply Keeps.mem | with_reducible exact Mem.wf_empty | with_reducible apply foldlP_keep
    | with_reducible refine foldlP_keep_eq (by assumption) ?_ ?_ | with_reducible apply foldlQ_keep
    | with_reducible refine foldlQ_keep_eq (by assumption) ?_ ?_ | with_reducible apply OptKeeps.map
    | with_reducible exact OptKeeps.none | with_reducible apply OptKeeps.some | with_reducible apply SumKeeps.of_inl
    | with_reducible apply SumKeeps.of_inr | with_reducible apply id_keep | with_reducible apply ite_keep
    | with_reducible apply Keeps1.fst | with_reducible apply Keeps2.snd | with_reducible apply next_keep
    | with_reducible apply fault_keep | split | dsimp only | dsimp +zetaDelta only
    )

theorem State.leaveSleep_keep {s : State} (hwf : Keeps s) : Keeps (State.leaveSleep s) := by
  unfold State.leaveSleep
  repeat' (first
    | with_reducible assumption | extract_lets | (lift_lets; extract_lets) | intro _
    | with_reducible apply State.setTarget_keep | with_reducible apply State.startWake_keep
    | simp only [Keeps1.mk_iff] | simp only [Keeps2.mk_iff] | simp only [Keeps.mk_iff]
    | with_reducible apply foldl_keep | with_reducible apply foldlM_keep | with_reducible apply iteM_keep
    | with_reducible apply Keeps.mem | with_reducible exact Mem.wf_empty | with_reducible apply foldlP_keep
    | with_reducible refine foldlP_keep_eq (by assumption) ?_ ?_ | with_reducible apply foldlQ_keep
    | with_reducible refine foldlQ_keep_eq (by assumption) ?_ ?_ | with_reducible apply ite_keep
    | with_reducible apply Keeps1.fst | with_reducible apply Keeps2.snd | split | dsimp only | dsimp +zetaDelta only
    )

end Sys2Proof.Machine
end

