-- ==== Sys2Proof/Laws/MemOps.lean ====
section
/-! SUPPORT. Every operation of Machine/Ops.lean keeps the canonical form of the byte memories. -/

namespace Sys2Proof.Machine

set_option linter.unusedVariables false
set_option linter.unusedSimpArgs false
set_option linter.unusedTactic false
set_option linter.unreachableTactic false


theorem State.updRing_keep {s : State} {r : Nat} {f : Ring → Ring} (hwf : Keeps s) : Keeps (State.updRing s r f)
    := by
  unfold State.updRing
  repeat' (first
    | with_reducible assumption | extract_lets | (lift_lets; extract_lets) | intro _ | simp only [Keeps.mk_iff]
    | with_reducible apply Keeps.mem | with_reducible exact Mem.wf_empty | with_reducible apply ite_keep | split
    | dsimp only | dsimp +zetaDelta only
    )

theorem State.updMbox_keep {s : State} {m : Nat} {f : Mailbox → Mailbox} (hwf : Keeps s) : Keeps (State.updMbox s
    m f) := by
  unfold State.updMbox
  repeat' (first
    | with_reducible assumption | extract_lets | (lift_lets; extract_lets) | intro _ | simp only [Keeps.mk_iff]
    | with_reducible apply Keeps.mem | with_reducible exact Mem.wf_empty | with_reducible apply ite_keep | split
    | dsimp only | dsimp +zetaDelta only
    )

theorem State.updFlight_keep {s : State} {id : Nat} {g : Flight → Flight} (hwf : Keeps s) : Keeps (State.updFlight
    s id g) := by
  unfold State.updFlight
  repeat' (first
    | with_reducible assumption | extract_lets | (lift_lets; extract_lets) | intro _ | simp only [Keeps.mk_iff]
    | with_reducible apply Keeps.mem | with_reducible exact Mem.wf_empty | with_reducible apply id_keep
    | with_reducible apply ite_keep | split | dsimp only | dsimp +zetaDelta only
    )

theorem State.accept_keep {s : State} {path : Path} {pk : Packet} {sqHead : Nat} {m : Option Master} (hwf : Keeps
    s) : Keeps (State.accept s path pk sqHead m) := by
  unfold State.accept
  repeat' (first
    | with_reducible assumption | extract_lets | (lift_lets; extract_lets) | intro _ | simp only [Keeps.mk_iff]
    | with_reducible apply Keeps.mem | with_reducible exact Mem.wf_empty | with_reducible apply ite_keep | split
    | dsimp only | dsimp +zetaDelta only
    )

theorem State.commitRaw_keep {s : State} {id : Nat} {path : Path} {pk : Packet} {sqHead : Nat} {status : Nat} {res
    : List Nat} (hwf : Keeps s) : Keeps (State.commitRaw s id path pk sqHead status res) := by
  unfold State.commitRaw
  repeat' (first
    | with_reducible assumption | extract_lets | (lift_lets; extract_lets) | intro _ | simp only [Keeps.mk_iff]
    | with_reducible apply Keeps.mem | with_reducible exact Mem.wf_empty | with_reducible apply id_keep
    | with_reducible apply ite_keep | split | dsimp only | dsimp +zetaDelta only
    )

theorem State.commit_keep {s : State} {id : Nat} {status : Nat} {res : List Nat} (hwf : Keeps s) : Keeps
    (State.commit s id status res) := by
  unfold State.commit
  repeat' (first
    | with_reducible assumption | extract_lets | (lift_lets; extract_lets) | intro _
    | with_reducible apply State.commitRaw_keep | simp only [Keeps1.mk_iff] | simp only [Keeps2.mk_iff]
    | simp only [Keeps.mk_iff] | with_reducible apply foldl_keep | with_reducible apply Keeps.mem
    | with_reducible exact Mem.wf_empty | with_reducible apply foldlP_keep
    | with_reducible refine foldlP_keep_eq (by assumption) ?_ ?_ | with_reducible apply foldlQ_keep
    | with_reducible refine foldlQ_keep_eq (by assumption) ?_ ?_ | with_reducible apply id_keep
    | with_reducible apply ite_keep | with_reducible apply Keeps1.fst | with_reducible apply Keeps2.snd | split
    | dsimp only | dsimp +zetaDelta only
    )

theorem State.done_keep {s : State} {f : Flight} {res : List Nat} (hwf : Keeps s) : Keeps (State.done s f res) :=
    by
  unfold State.done
  repeat' (first
    | with_reducible assumption | extract_lets | (lift_lets; extract_lets) | intro _
    | with_reducible apply State.commit_keep | with_reducible apply id_keep | with_reducible apply ite_keep | split
    | dsimp only | dsimp +zetaDelta only
    )

theorem State.failWith_keep {s : State} {f : Flight} {status : Nat} (hwf : Keeps s) : Keeps (State.failWith s f
    status) := by
  unfold State.failWith
  repeat' (first
    | with_reducible assumption | extract_lets | (lift_lets; extract_lets) | intro _
    | with_reducible apply State.commit_keep | with_reducible apply id_keep | with_reducible apply ite_keep | split
    | dsimp only | dsimp +zetaDelta only
    )

theorem State.refuse_keep {s : State} {f : Flight} {status : Nat} {cause : Nat} (hwf : Keeps s) : Keeps
    (State.refuse s f status cause) := by
  unfold State.refuse
  repeat' (first
    | with_reducible assumption | extract_lets | (lift_lets; extract_lets) | intro _
    | with_reducible apply State.commit_keep | with_reducible apply id_keep | with_reducible apply ite_keep | split
    | dsimp only | dsimp +zetaDelta only
    )

theorem State.draw_keep {s : State} (hwf : Keeps s) : Keeps2 (State.draw s) := by
  unfold State.draw
  repeat' (first
    | with_reducible assumption | extract_lets | (lift_lets; extract_lets) | intro _ | simp only [Keeps2.mk_iff]
    | simp only [Keeps.mk_iff] | with_reducible apply Keeps.mem | with_reducible exact Mem.wf_empty
    | with_reducible apply ite_keep | with_reducible apply Keeps2.snd | split | dsimp only | dsimp +zetaDelta only
    )
theorem State.draw_keep_eq {s : State} {s' : State} {x' : Nat} (e : State.draw s = (x', s')) (hwf : Keeps s) :
    Keeps s' := by
  have k : Keeps2 (State.draw s) := State.draw_keep  hwf
  rw [e] at k
  exact k

theorem State.regulated_keep {s : State} {f : Flight} (hwf : Keeps s) : Keeps (State.regulated s f) := by
  unfold State.regulated
  repeat' (first
    | with_reducible assumption | extract_lets | (lift_lets; extract_lets) | intro _
    | with_reducible apply State.updMeter_keep | with_reducible apply State.commit_keep | simp only [Keeps.mk_iff]
    | with_reducible apply Keeps.mem | with_reducible exact Mem.wf_empty | with_reducible apply id_keep
    | with_reducible apply ite_keep | split | dsimp only | dsimp +zetaDelta only
    )

theorem State.enterCmd_keep {s : State} {f : Flight} {g : Gate} {body : Flight → State → State} (h_body : ∀ x0 x1,
    Keeps x1 → Keeps (body x0 x1)) (hwf : Keeps s) : Keeps (State.enterCmd s f g body) := by
  unfold State.enterCmd
  repeat' (first
    | with_reducible assumption | extract_lets | (lift_lets; extract_lets) | intro _ | with_reducible apply h_body
    | with_reducible apply State.commit_keep | with_reducible apply State.regulated_keep
    | with_reducible apply State.commandWake_keep | with_reducible apply State.waitFor_keep
    | with_reducible apply State.updFlight_keep
    | simp only [Keeps1.mk_iff] | simp only [Keeps2.mk_iff]
    | simp only [Keeps.mk_iff] | with_reducible apply foldl_keep | with_reducible apply foldlM_keep
    | with_reducible apply iteM_keep | (simp only [Mem.wf_mk]; refine ⟨?_, ?_, ?_⟩)
    | with_reducible apply Tab.wf_put | with_reducible apply Tab.wf_putAll | with_reducible apply Tab.wf_filter
    | with_reducible apply Tab.wf_keep | with_reducible apply Tab.wf_merge | with_reducible exact Tab.wf_nil _
    | with_reducible apply Mem.bytes_keep | with_reducible apply Mem.pool_keep | with_reducible apply Mem.basin_keep
    | with_reducible apply Keeps.mem | with_reducible exact Mem.wf_empty | with_reducible apply foldlP_keep
    | with_reducible refine foldlP_keep_eq (by assumption) ?_ ?_ | with_reducible apply foldlQ_keep
    | with_reducible refine foldlQ_keep_eq (by assumption) ?_ ?_ | with_reducible apply OptKeeps.map
    | with_reducible exact OptKeeps.none | with_reducible apply OptKeeps.some | with_reducible apply SumKeeps.of_inl
    | with_reducible apply SumKeeps.of_inr | with_reducible apply id_keep | with_reducible apply ite_keep
    | with_reducible apply Keeps1.fst | with_reducible apply Keeps2.snd | with_reducible apply next_keep
    | with_reducible apply fault_keep | split | dsimp only | dsimp +zetaDelta only
    )

theorem beginOn_keep {path : Path} {pk : Packet} {isKind : Packet → Bool} {g : Gate} {s : State} {body : Flight →
    State → State} (h_body : ∀ x0 x1, Keeps x1 → Keeps (body x0 x1)) (hwf : Keeps s) : OutKeeps (beginOn path pk
    isKind g s body) := by
  unfold beginOn
  repeat' (first
    | with_reducible assumption | extract_lets | (lift_lets; extract_lets) | intro _ | with_reducible apply h_body
    | with_reducible apply State.leaveSleep_keep | with_reducible apply State.enterCmd_keep
    | with_reducible apply State.commit_keep | simp only [Keeps.mk_iff] | with_reducible apply foldlM_keep
    | with_reducible apply iteM_keep | with_reducible apply Keeps.mem | with_reducible exact Mem.wf_empty
    | with_reducible apply id_keep | with_reducible apply ite_keep | with_reducible apply next_keep
    | with_reducible apply fault_keep | split | dsimp only | dsimp +zetaDelta only
    )

theorem beginCmd_keep {path : Path} {pk : Packet} {isKind : Packet → Bool} {s : State} {body : Flight → State →
    State} (h_body : ∀ x0 x1, Keeps x1 → Keeps (body x0 x1)) (hwf : Keeps s) : OutKeeps (beginCmd path pk isKind s
    body) := by
  unfold beginCmd
  repeat' (first
    | with_reducible assumption | extract_lets | (lift_lets; extract_lets) | intro _ | with_reducible apply h_body
    | with_reducible apply beginOn_keep | with_reducible exact Mem.wf_empty | with_reducible apply ite_keep
    | with_reducible apply next_keep | with_reducible apply fault_keep | split | dsimp only | dsimp +zetaDelta only
    )

theorem onUnit_keep {ok : Bool} {o : Out} (h_o : OutKeeps o) : OutKeeps (onUnit ok o) := by
  unfold onUnit
  repeat' (first
    | with_reducible assumption | extract_lets | (lift_lets; extract_lets) | intro _ | with_reducible apply h_o
    | with_reducible apply ite_keep | with_reducible apply next_keep | with_reducible apply fault_keep | split
    | dsimp only | dsimp +zetaDelta only
    )

end Sys2Proof.Machine
end

