-- ==== Sys2Proof/Laws/MemRoutes.lean ====
section
/-! SUPPORT. Every operation of Machine/Routes.lean keeps the canonical form of the byte memories. -/

namespace Sys2Proof.Machine

set_option linter.unusedVariables false
set_option linter.unusedSimpArgs false
set_option linter.unusedTactic false
set_option linter.unreachableTactic false


theorem State.updPair_keep {s : State} {i : Nat} {f : Pair → Pair} (hwf : Keeps s) : Keeps (State.updPair s i f) :=
    by
  unfold State.updPair
  repeat' (first
    | with_reducible assumption | extract_lets | (lift_lets; extract_lets) | intro _
    | simp only [Keeps1.mk_iff] | simp only [Keeps2.mk_iff]
    | simp only [Keeps.mk_iff] | with_reducible apply foldl_keep | with_reducible apply foldlM_keep
    | with_reducible apply iteM_keep | (simp only [Mem.wf_mk]; refine ⟨?_, ?_, ?_⟩)
    | with_reducible apply Tab.wf_put | with_reducible apply Tab.wf_putAll | with_reducible apply Tab.wf_filter
    | with_reducible apply Tab.wf_keep | with_reducible apply Tab.wf_merge | with_reducible exact Tab.wf_nil _
    | with_reducible apply Mem.bytes_keep | with_reducible apply Mem.pool_keep | with_reducible apply Mem.basin_keep
    | with_reducible apply Keeps.mem | with_reducible exact Mem.wf_empty | with_reducible apply foldlP_keep
    | with_reducible refine foldlP_keep_eq (by assumption) ?_ ?_ | with_reducible apply foldlQ_keep
    | with_reducible refine foldlQ_keep_eq (by assumption) ?_ ?_ | with_reducible apply OptKeeps.map
    | with_reducible exact OptKeeps.none | with_reducible apply OptKeeps.some | with_reducible apply SumKeeps.of_inl
    | with_reducible apply SumKeeps.of_inr | with_reducible apply id_keep | with_reducible apply ite_keep
    | with_reducible apply Keeps1.fst | with_reducible apply Keeps2.snd | with_reducible apply next_keep
    | with_reducible apply fault_keep | split | dsimp only | dsimp +zetaDelta only
    )

theorem State.reroute_keep {s : State} (hwf : Keeps s) : Keeps (State.reroute s) := by
  unfold State.reroute
  repeat' (first
    | with_reducible assumption | extract_lets | (lift_lets; extract_lets) | intro _
    | simp only [Keeps1.mk_iff] | simp only [Keeps2.mk_iff]
    | simp only [Keeps.mk_iff] | with_reducible apply foldl_keep | with_reducible apply foldlM_keep
    | with_reducible apply iteM_keep | (simp only [Mem.wf_mk]; refine ⟨?_, ?_, ?_⟩)
    | with_reducible apply Tab.wf_put | with_reducible apply Tab.wf_putAll | with_reducible apply Tab.wf_filter
    | with_reducible apply Tab.wf_keep | with_reducible apply Tab.wf_merge | with_reducible exact Tab.wf_nil _
    | with_reducible apply Mem.bytes_keep | with_reducible apply Mem.pool_keep | with_reducible apply Mem.basin_keep
    | with_reducible apply Keeps.mem | with_reducible exact Mem.wf_empty | with_reducible apply foldlP_keep
    | with_reducible refine foldlP_keep_eq (by assumption) ?_ ?_ | with_reducible apply foldlQ_keep
    | with_reducible refine foldlQ_keep_eq (by assumption) ?_ ?_ | with_reducible apply OptKeeps.map
    | with_reducible exact OptKeeps.none | with_reducible apply OptKeeps.some | with_reducible apply SumKeeps.of_inl
    | with_reducible apply SumKeeps.of_inr | with_reducible apply id_keep | with_reducible apply ite_keep
    | with_reducible apply Keeps1.fst | with_reducible apply Keeps2.snd | with_reducible apply next_keep
    | with_reducible apply fault_keep | split | dsimp only | dsimp +zetaDelta only
    )

theorem State.crossPair_keep {s : State} {n : Nat} {a : Nat} {b : Nat} (hwf : Keeps s) : Keeps (State.crossPair s n
    a b) := by
  unfold State.crossPair
  repeat' (first
    | with_reducible assumption | extract_lets | (lift_lets; extract_lets) | intro _
    | with_reducible apply State.draw_keep | with_reducible refine State.draw_keep_eq (by assumption) ?_
    | with_reducible apply State.updPair_keep
    | simp only [Keeps1.mk_iff] | simp only [Keeps2.mk_iff]
    | simp only [Keeps.mk_iff] | with_reducible apply foldl_keep | with_reducible apply foldlM_keep
    | with_reducible apply iteM_keep | (simp only [Mem.wf_mk]; refine ⟨?_, ?_, ?_⟩)
    | with_reducible apply Tab.wf_put | with_reducible apply Tab.wf_putAll | with_reducible apply Tab.wf_filter
    | with_reducible apply Tab.wf_keep | with_reducible apply Tab.wf_merge | with_reducible exact Tab.wf_nil _
    | with_reducible apply Mem.bytes_keep | with_reducible apply Mem.pool_keep | with_reducible apply Mem.basin_keep
    | with_reducible apply Keeps.mem | with_reducible exact Mem.wf_empty | with_reducible apply foldlP_keep
    | with_reducible refine foldlP_keep_eq (by assumption) ?_ ?_ | with_reducible apply foldlQ_keep
    | with_reducible refine foldlQ_keep_eq (by assumption) ?_ ?_ | with_reducible apply OptKeeps.map
    | with_reducible exact OptKeeps.none | with_reducible apply OptKeeps.some | with_reducible apply SumKeeps.of_inl
    | with_reducible apply SumKeeps.of_inr | with_reducible apply id_keep | with_reducible apply ite_keep
    | with_reducible apply Keeps1.fst | with_reducible apply Keeps2.snd | with_reducible apply next_keep
    | with_reducible apply fault_keep | split | dsimp only | dsimp +zetaDelta only
    )

theorem State.carry_keep {s : State} {src : Nat} {dst : Nat} {v : Nat} {n : Nat} (hwf : Keeps s) : Keeps
    (State.carry s src dst v n) := by
  unfold State.carry
  repeat' (first
    | with_reducible assumption | extract_lets | (lift_lets; extract_lets) | intro _
    | with_reducible apply State.updReach_keep | with_reducible apply State.crossPair_keep
    | simp only [Keeps1.mk_iff] | simp only [Keeps2.mk_iff]
    | simp only [Keeps.mk_iff] | with_reducible apply foldl_keep | with_reducible apply foldlM_keep
    | with_reducible apply iteM_keep | (simp only [Mem.wf_mk]; refine ⟨?_, ?_, ?_⟩)
    | with_reducible apply Tab.wf_put | with_reducible apply Tab.wf_putAll | with_reducible apply Tab.wf_filter
    | with_reducible apply Tab.wf_keep | with_reducible apply Tab.wf_merge | with_reducible exact Tab.wf_nil _
    | with_reducible apply Mem.bytes_keep | with_reducible apply Mem.pool_keep | with_reducible apply Mem.basin_keep
    | with_reducible apply Keeps.mem | with_reducible exact Mem.wf_empty | with_reducible apply foldlP_keep
    | with_reducible refine foldlP_keep_eq (by assumption) ?_ ?_ | with_reducible apply foldlQ_keep
    | with_reducible refine foldlQ_keep_eq (by assumption) ?_ ?_ | with_reducible apply OptKeeps.map
    | with_reducible exact OptKeeps.none | with_reducible apply OptKeeps.some | with_reducible apply SumKeeps.of_inl
    | with_reducible apply SumKeeps.of_inr | with_reducible apply id_keep | with_reducible apply ite_keep
    | with_reducible apply Keeps1.fst | with_reducible apply Keeps2.snd | with_reducible apply next_keep
    | with_reducible apply fault_keep | split | dsimp only | dsimp +zetaDelta only
    )

end Sys2Proof.Machine
end

