-- ==== Sys2Proof/Laws/MemOperands.lean ====
section
/-! SUPPORT. Every operation of Machine/Operands.lean keeps the canonical form of the byte memories. -/

namespace Sys2Proof.Machine

set_option linter.unusedVariables false
set_option linter.unusedSimpArgs false
set_option linter.unusedTactic false
set_option linter.unreachableTactic false


theorem State.writeRow_keep {s : State} {part : Nat} {d : Desc} {r : Nat} {codes : List Nat} (hwf : Keeps s) :
    Keeps (State.writeRow s part d r codes) := by
  unfold State.writeRow
  repeat' (first
    | with_reducible assumption | extract_lets | (lift_lets; extract_lets) | intro _
    | with_reducible apply State.writeVA_keep | simp only [Keeps1.mk_iff] | simp only [Keeps2.mk_iff]
    | with_reducible apply foldl_keep | with_reducible apply foldlP_keep
    | with_reducible refine foldlP_keep_eq (by assumption) ?_ ?_ | with_reducible apply foldlQ_keep
    | with_reducible refine foldlQ_keep_eq (by assumption) ?_ ?_ | with_reducible apply ite_keep
    | with_reducible apply Keeps1.fst | with_reducible apply Keeps2.snd | split | dsimp only | dsimp +zetaDelta only
    )

theorem State.writeDesc_keep {s : State} {part : Nat} {d : Desc} {bs : List Byte} (hwf : Keeps s) : Keeps
    (State.writeDesc s part d bs) := by
  unfold State.writeDesc
  repeat' (first
    | with_reducible assumption | extract_lets | (lift_lets; extract_lets) | intro _
    | with_reducible apply State.writeVA_keep
    | simp only [Keeps1.mk_iff] | simp only [Keeps2.mk_iff]
    | simp only [Keeps.mk_iff] | with_reducible apply foldl_keep | with_reducible apply foldlM_keep
    | with_reducible apply iteM_keep | (simp only [Mem.wf_mk]; refine ⟨?_, ?_, ?_⟩)
    | with_reducible apply Tab.wf_put | with_reducible apply Tab.wf_putAll | with_reducible apply Tab.wf_filter
    | with_reducible apply Tab.wf_keep | with_reducible apply Tab.wf_merge | with_reducible exact Tab.wf_nil _
    | with_reducible apply Mem.bytes_keep | with_reducible apply Mem.pool_keep | with_reducible apply Mem.basin_keep
    | with_reducible apply Keeps.mem | with_reducible exact Mem.wf_empty | with_reducible apply foldlP_keep
    | with_reducible refine foldlP_keep_eq (by assumption) ?_ ?_ | with_reducible apply foldlQ_keep
    | with_reducible refine foldlQ_keep_eq (by assumption) ?_ ?_ | with_reducible apply OptKeeps.map
    | with_reducible exact OptKeeps.none | with_reducible apply OptKeeps.some | with_reducible apply SumKeeps.of_inl
    | with_reducible apply SumKeeps.of_inr | with_reducible apply id_keep | with_reducible apply ite_keep
    | with_reducible apply Keeps1.fst | with_reducible apply Keeps2.snd | with_reducible apply next_keep
    | with_reducible apply fault_keep | split | dsimp only | dsimp +zetaDelta only
    )

theorem State.poisonRow_keep {s : State} {part : Nat} {d : Desc} {r : Nat} (hwf : Keeps s) : Keeps
    (State.poisonRow s part d r) := by
  unfold State.poisonRow
  repeat' (first
    | with_reducible assumption | extract_lets | (lift_lets; extract_lets) | intro _
    | with_reducible apply State.poisonVA_keep | simp only [Keeps1.mk_iff] | simp only [Keeps2.mk_iff]
    | with_reducible apply foldl_keep | with_reducible apply foldlP_keep
    | with_reducible refine foldlP_keep_eq (by assumption) ?_ ?_ | with_reducible apply foldlQ_keep
    | with_reducible refine foldlQ_keep_eq (by assumption) ?_ ?_ | with_reducible apply ite_keep
    | with_reducible apply Keeps1.fst | with_reducible apply Keeps2.snd | split | dsimp only | dsimp +zetaDelta only
    )

theorem State.poisonDesc_keep {s : State} {part : Nat} {d : Desc} (hwf : Keeps s) : Keeps (State.poisonDesc s part
    d) := by
  unfold State.poisonDesc
  repeat' (first
    | with_reducible assumption | extract_lets | (lift_lets; extract_lets) | intro _
    | with_reducible apply State.poisonRow_keep | with_reducible apply State.poisonVA_keep
    | simp only [Keeps1.mk_iff] | simp only [Keeps2.mk_iff] | with_reducible apply foldl_keep
    | with_reducible apply foldlP_keep | with_reducible refine foldlP_keep_eq (by assumption) ?_ ?_
    | with_reducible apply foldlQ_keep | with_reducible refine foldlQ_keep_eq (by assumption) ?_ ?_
    | with_reducible apply ite_keep | with_reducible apply Keeps1.fst | with_reducible apply Keeps2.snd | split
    | dsimp only | dsimp +zetaDelta only
    )

theorem State.writeTile_keep {s : State} {part : Nat} {d : Desc} {r : Nat} {c : Nat} {codes : List Nat} (hwf :
    Keeps s) : Keeps (State.writeTile s part d r c codes) := by
  unfold State.writeTile
  repeat' (first
    | with_reducible assumption | extract_lets | (lift_lets; extract_lets) | intro _
    | with_reducible apply State.writeVA_keep | simp only [Keeps1.mk_iff] | simp only [Keeps2.mk_iff]
    | with_reducible apply foldl_keep | with_reducible apply foldlP_keep
    | with_reducible refine foldlP_keep_eq (by assumption) ?_ ?_ | with_reducible apply foldlQ_keep
    | with_reducible refine foldlQ_keep_eq (by assumption) ?_ ?_ | with_reducible apply ite_keep
    | with_reducible apply Keeps1.fst | with_reducible apply Keeps2.snd | split | dsimp only | dsimp +zetaDelta only
    )

theorem State.poisonTile_keep {s : State} {part : Nat} {d : Desc} {r : Nat} {c : Nat} (hwf : Keeps s) : Keeps
    (State.poisonTile s part d r c) := by
  unfold State.poisonTile
  repeat' (first
    | with_reducible assumption | extract_lets | (lift_lets; extract_lets) | intro _
    | with_reducible apply State.poisonVA_keep | simp only [Keeps1.mk_iff] | simp only [Keeps2.mk_iff]
    | with_reducible apply foldl_keep | with_reducible apply foldlP_keep
    | with_reducible refine foldlP_keep_eq (by assumption) ?_ ?_ | with_reducible apply foldlQ_keep
    | with_reducible refine foldlQ_keep_eq (by assumption) ?_ ?_ | with_reducible apply ite_keep
    | with_reducible apply Keeps1.fst | with_reducible apply Keeps2.snd | split | dsimp only | dsimp +zetaDelta only
    )

end Sys2Proof.Machine
end

