-- ==== Sys2Proof/Laws/MemCoreOps.lean ====
section
/-! SUPPORT. Every operation of Machine/CoreOps.lean keeps the canonical form of the byte memories. -/

namespace Sys2Proof.Machine

set_option linter.unusedVariables false
set_option linter.unusedSimpArgs false
set_option linter.unusedTactic false
set_option linter.unreachableTactic false


theorem State.setStream_keep {s : State} {c : Nat} {n : Nat} {v : Stream} (hwf : Keeps s) : Keeps (State.setStream
    s c n v) := by
  unfold State.setStream
  repeat' (first
    | with_reducible assumption | extract_lets | (lift_lets; extract_lets) | intro _
    | with_reducible apply State.updCore_keep | simp only [Keeps.mk_iff] | with_reducible apply Keeps.mem
    | with_reducible exact Mem.wf_empty | with_reducible apply ite_keep | split | dsimp only | dsimp +zetaDelta only
    )

theorem State.closeStreams_keep {s : State} {c : Nat} (hwf : Keeps s) : Keeps (State.closeStreams s c) := by
  unfold State.closeStreams
  repeat' (first
    | with_reducible assumption | extract_lets | (lift_lets; extract_lets) | intro _
    | with_reducible apply State.updCore_keep
    | simp only [Keeps1.mk_iff] | simp only [Keeps2.mk_iff]
    | simp only [Keeps.mk_iff] | with_reducible apply foldl_keep | with_reducible apply foldlM_keep
    | with_reducible apply iteM_keep | (simp only [Mem.wf_mk]; refine ⟨?_, ?_, ?_⟩)
    | with_reducible apply Tab.wf_put | with_reducible apply Tab.wf_putAll | with_reducible apply Tab.wf_filter
    | with_reducible apply Tab.wf_keep | with_reducible apply Tab.wf_merge | with_reducible exact Tab.wf_nil _
    | with_reducible apply Mem.bytes_keep | with_reducible apply Mem.pool_keep | with_reducible apply Mem.basin_keep
    | with_reducible apply Keeps.mem | with_reducible exact Mem.wf_empty | with_reducible apply foldlP_keep
    | with_reducible refine foldlP_keep_eq (by assumption) ?_ ?_ | with_reducible apply foldlQ_keep
    | with_reducible refine foldlQ_keep_eq (by assumption) ?_ ?_ | with_reducible apply OptKeeps.map
    | with_reducible exact OptKeeps.none | with_reducible apply OptKeeps.some | with_reducible apply SumKeeps.of_inl
    | with_reducible apply SumKeeps.of_inr | with_reducible apply id_keep | with_reducible apply ite_keep
    | with_reducible apply Keeps1.fst | with_reducible apply Keeps2.snd | with_reducible apply next_keep
    | with_reducible apply fault_keep | split | dsimp only | dsimp +zetaDelta only
    )

theorem State.finishRun_keep {s : State} {r : RunCmd} (hwf : Keeps s) : Keeps (State.finishRun s r) := by
  unfold State.finishRun
  repeat' (first
    | with_reducible assumption | extract_lets | (lift_lets; extract_lets) | intro _
    | with_reducible apply State.closeStreams_keep | with_reducible apply State.updCore_keep
    | with_reducible apply State.commit_keep
    | simp only [Keeps1.mk_iff] | simp only [Keeps2.mk_iff]
    | simp only [Keeps.mk_iff] | with_reducible apply foldl_keep | with_reducible apply foldlM_keep
    | with_reducible apply iteM_keep | (simp only [Mem.wf_mk]; refine ⟨?_, ?_, ?_⟩)
    | with_reducible apply Tab.wf_put | with_reducible apply Tab.wf_putAll | with_reducible apply Tab.wf_filter
    | with_reducible apply Tab.wf_keep | with_reducible apply Tab.wf_merge | with_reducible exact Tab.wf_nil _
    | with_reducible apply Mem.bytes_keep | with_reducible apply Mem.pool_keep | with_reducible apply Mem.basin_keep
    | with_reducible apply Keeps.mem | with_reducible exact Mem.wf_empty | with_reducible apply foldlP_keep
    | with_reducible refine foldlP_keep_eq (by assumption) ?_ ?_ | with_reducible apply foldlQ_keep
    | with_reducible refine foldlQ_keep_eq (by assumption) ?_ ?_ | with_reducible apply OptKeeps.map
    | with_reducible exact OptKeeps.none | with_reducible apply OptKeeps.some | with_reducible apply SumKeeps.of_inl
    | with_reducible apply SumKeeps.of_inr | with_reducible apply id_keep | with_reducible apply ite_keep
    | with_reducible apply Keeps1.fst | with_reducible apply Keeps2.snd | with_reducible apply next_keep
    | with_reducible apply fault_keep | split | dsimp only | dsimp +zetaDelta only
    )

theorem State.updStage_keep {s : State} {n : Nat} {f : StageSlot → StageSlot} (hwf : Keeps s) : Keeps
    (State.updStage s n f) := by
  unfold State.updStage
  repeat' (first
    | with_reducible assumption | extract_lets | (lift_lets; extract_lets) | intro _ | simp only [Keeps.mk_iff]
    | with_reducible apply Keeps.mem | with_reducible exact Mem.wf_empty | with_reducible apply ite_keep | split
    | dsimp only | dsimp +zetaDelta only
    )

theorem State.checkStep_keep {s : State} {n : Nat} (hwf : Keeps s) : Keeps (State.checkStep s n) := by
  unfold State.checkStep
  repeat' (first
    | with_reducible assumption | extract_lets | (lift_lets; extract_lets) | intro _
    | with_reducible apply State.updStage_keep | with_reducible apply State.updCore_keep
    | with_reducible apply State.commit_keep | with_reducible apply State.raise_keep | simp only [Keeps1.mk_iff]
    | simp only [Keeps2.mk_iff] | simp only [Keeps.mk_iff] | with_reducible apply foldl_keep
    | with_reducible apply Keeps.mem | with_reducible exact Mem.wf_empty | with_reducible apply foldlP_keep
    | with_reducible refine foldlP_keep_eq (by assumption) ?_ ?_ | with_reducible apply foldlQ_keep
    | with_reducible refine foldlQ_keep_eq (by assumption) ?_ ?_ | with_reducible apply ite_keep
    | with_reducible apply Keeps1.fst | with_reducible apply Keeps2.snd | split | dsimp only | dsimp +zetaDelta only
    )

theorem State.updModel_keep {s : State} {n : Nat} {f : ModelSlot → ModelSlot} (hwf : Keeps s) : Keeps
    (State.updModel s n f) := by
  unfold State.updModel
  repeat' (first
    | with_reducible assumption | extract_lets | (lift_lets; extract_lets) | intro _ | simp only [Keeps.mk_iff]
    | with_reducible apply Keeps.mem | with_reducible exact Mem.wf_empty | with_reducible apply ite_keep | split
    | dsimp only | dsimp +zetaDelta only
    )

theorem State.checkModel_keep {s : State} {n : Nat} {c : Nat} (hwf : Keeps s) : Keeps (State.checkModel s n c) :=
    by
  unfold State.checkModel
  repeat' (first
    | with_reducible assumption | extract_lets | (lift_lets; extract_lets) | intro _
    | with_reducible apply State.updModel_keep | with_reducible apply State.updCore_keep
    | with_reducible apply State.commit_keep | simp only [Keeps1.mk_iff] | simp only [Keeps2.mk_iff]
    | simp only [Keeps.mk_iff] | with_reducible apply foldl_keep | with_reducible apply Keeps.mem
    | with_reducible exact Mem.wf_empty | with_reducible apply foldlP_keep
    | with_reducible refine foldlP_keep_eq (by assumption) ?_ ?_ | with_reducible apply foldlQ_keep
    | with_reducible refine foldlQ_keep_eq (by assumption) ?_ ?_ | with_reducible apply ite_keep
    | with_reducible apply Keeps1.fst | with_reducible apply Keeps2.snd | split | dsimp only | dsimp +zetaDelta only
    )

theorem State.checkRun_keep {s : State} {c : Nat} (hwf : Keeps s) : Keeps (State.checkRun s c) := by
  unfold State.checkRun
  repeat' (first
    | with_reducible assumption | extract_lets | (lift_lets; extract_lets) | intro _
    | with_reducible apply State.checkModel_keep | with_reducible apply State.finishRun_keep
    | with_reducible apply State.checkStep_keep | simp only [Keeps.mk_iff] | with_reducible apply Keeps.mem
    | with_reducible exact Mem.wf_empty | with_reducible apply id_keep | with_reducible apply ite_keep | split
    | dsimp only | dsimp +zetaDelta only
    )

theorem State.enterHalted_keep {s : State} {c : Nat} {why : Nat} (hwf : Keeps s) : Keeps (State.enterHalted s c
    why) := by
  unfold State.enterHalted
  repeat' (first
    | with_reducible assumption | extract_lets | (lift_lets; extract_lets) | intro _
    | with_reducible apply State.checkRun_keep | with_reducible apply State.setCore_keep
    | with_reducible apply State.record_keep | simp only [Keeps.mk_iff] | with_reducible apply Keeps.mem
    | with_reducible exact Mem.wf_empty | with_reducible apply ite_keep | split | dsimp only | dsimp +zetaDelta only
    )

theorem State.settle_keep {s : State} {c : Nat} (hwf : Keeps s) : Keeps (State.settle s c) := by
  unfold State.settle
  repeat' (first
    | with_reducible assumption | extract_lets | (lift_lets; extract_lets) | intro _
    | with_reducible apply State.checkRun_keep | with_reducible apply State.setCore_keep
    | with_reducible apply State.closeStreams_keep | with_reducible apply State.enterHalted_keep
    | simp only [Keeps1.mk_iff] | simp only [Keeps2.mk_iff]
    | simp only [Keeps.mk_iff] | with_reducible apply foldl_keep | with_reducible apply foldlM_keep
    | with_reducible apply iteM_keep | (simp only [Mem.wf_mk]; refine ⟨?_, ?_, ?_⟩)
    | with_reducible apply Tab.wf_put | with_reducible apply Tab.wf_putAll | with_reducible apply Tab.wf_filter
    | with_reducible apply Tab.wf_keep | with_reducible apply Tab.wf_merge | with_reducible exact Tab.wf_nil _
    | with_reducible apply Mem.bytes_keep | with_reducible apply Mem.pool_keep | with_reducible apply Mem.basin_keep
    | with_reducible apply Keeps.mem | with_reducible exact Mem.wf_empty | with_reducible apply foldlP_keep
    | with_reducible refine foldlP_keep_eq (by assumption) ?_ ?_ | with_reducible apply foldlQ_keep
    | with_reducible refine foldlQ_keep_eq (by assumption) ?_ ?_ | with_reducible apply OptKeeps.map
    | with_reducible exact OptKeeps.none | with_reducible apply OptKeeps.some | with_reducible apply SumKeeps.of_inl
    | with_reducible apply SumKeeps.of_inr | with_reducible apply id_keep | with_reducible apply ite_keep
    | with_reducible apply Keeps1.fst | with_reducible apply Keeps2.snd | with_reducible apply next_keep
    | with_reducible apply fault_keep | split | dsimp only | dsimp +zetaDelta only
    )

theorem State.dropFrozen_keep {s : State} {c : Nat} (hwf : Keeps s) : Keeps (State.dropFrozen s c) := by
  unfold State.dropFrozen
  repeat' (first
    | with_reducible assumption | extract_lets | (lift_lets; extract_lets) | intro _
    | with_reducible apply State.updCore_keep
    | simp only [Keeps1.mk_iff] | simp only [Keeps2.mk_iff]
    | simp only [Keeps.mk_iff] | with_reducible apply foldl_keep | with_reducible apply foldlM_keep
    | with_reducible apply iteM_keep | (simp only [Mem.wf_mk]; refine ⟨?_, ?_, ?_⟩)
    | with_reducible apply Tab.wf_put | with_reducible apply Tab.wf_putAll | with_reducible apply Tab.wf_filter
    | with_reducible apply Tab.wf_keep | with_reducible apply Tab.wf_merge | with_reducible exact Tab.wf_nil _
    | with_reducible apply Mem.bytes_keep | with_reducible apply Mem.pool_keep | with_reducible apply Mem.basin_keep
    | with_reducible apply Keeps.mem | with_reducible exact Mem.wf_empty | with_reducible apply foldlP_keep
    | with_reducible refine foldlP_keep_eq (by assumption) ?_ ?_ | with_reducible apply foldlQ_keep
    | with_reducible refine foldlQ_keep_eq (by assumption) ?_ ?_ | with_reducible apply OptKeeps.map
    | with_reducible exact OptKeeps.none | with_reducible apply OptKeeps.some | with_reducible apply SumKeeps.of_inl
    | with_reducible apply SumKeeps.of_inr | with_reducible apply id_keep | with_reducible apply ite_keep
    | with_reducible apply Keeps1.fst | with_reducible apply Keeps2.snd | with_reducible apply next_keep
    | with_reducible apply fault_keep | split | dsimp only | dsimp +zetaDelta only
    )

theorem State.haltCore_keep {s : State} {c : Nat} {why : Nat} {bp : Nat} (hwf : Keeps s) : Keeps (State.haltCore s c
    why bp) := by
  unfold State.haltCore
  repeat' (first
    | with_reducible assumption | extract_lets | (lift_lets; extract_lets) | intro _
    | with_reducible apply State.updCore_keep | with_reducible apply State.settle_keep
    | simp only [Keeps1.mk_iff] | simp only [Keeps2.mk_iff]
    | simp only [Keeps.mk_iff] | with_reducible apply foldl_keep | with_reducible apply foldlM_keep
    | with_reducible apply iteM_keep | (simp only [Mem.wf_mk]; refine ⟨?_, ?_, ?_⟩)
    | with_reducible apply Tab.wf_put | with_reducible apply Tab.wf_putAll | with_reducible apply Tab.wf_filter
    | with_reducible apply Tab.wf_keep | with_reducible apply Tab.wf_merge | with_reducible exact Tab.wf_nil _
    | with_reducible apply Mem.bytes_keep | with_reducible apply Mem.pool_keep | with_reducible apply Mem.basin_keep
    | with_reducible apply Keeps.mem | with_reducible exact Mem.wf_empty | with_reducible apply foldlP_keep
    | with_reducible refine foldlP_keep_eq (by assumption) ?_ ?_ | with_reducible apply foldlQ_keep
    | with_reducible refine foldlQ_keep_eq (by assumption) ?_ ?_ | with_reducible apply OptKeeps.map
    | with_reducible exact OptKeeps.none | with_reducible apply OptKeeps.some | with_reducible apply SumKeeps.of_inl
    | with_reducible apply SumKeeps.of_inr | with_reducible apply id_keep | with_reducible apply ite_keep
    | with_reducible apply Keeps1.fst | with_reducible apply Keeps2.snd | with_reducible apply next_keep
    | with_reducible apply fault_keep | split | dsimp only | dsimp +zetaDelta only
    )

theorem State.haltCores_keep {s : State} {part : Nat} {cores : List Nat} (hwf : Keeps s) : Keeps (State.haltCores
    s part cores) := by
  unfold State.haltCores
  repeat' (first
    | with_reducible assumption | extract_lets | (lift_lets; extract_lets) | intro _
    | with_reducible apply State.haltCore_keep | simp only [Keeps1.mk_iff] | simp only [Keeps2.mk_iff]
    | with_reducible apply foldl_keep | with_reducible apply foldlP_keep
    | with_reducible refine foldlP_keep_eq (by assumption) ?_ ?_ | with_reducible apply foldlQ_keep
    | with_reducible refine foldlQ_keep_eq (by assumption) ?_ ?_ | with_reducible apply ite_keep
    | with_reducible apply Keeps1.fst | with_reducible apply Keeps2.snd | split | dsimp only | dsimp +zetaDelta only
    )

theorem State.goto_keep {s : State} {c : Nat} {pc : Nat} (hwf : Keeps s) : Keeps (State.goto s c pc) := by
  unfold State.goto
  repeat' (first
    | with_reducible assumption | extract_lets | (lift_lets; extract_lets) | intro _
    | with_reducible apply State.updCore_keep | with_reducible apply State.settle_keep
    | simp only [Keeps1.mk_iff] | simp only [Keeps2.mk_iff]
    | simp only [Keeps.mk_iff] | with_reducible apply foldl_keep | with_reducible apply foldlM_keep
    | with_reducible apply iteM_keep | (simp only [Mem.wf_mk]; refine ⟨?_, ?_, ?_⟩)
    | with_reducible apply Tab.wf_put | with_reducible apply Tab.wf_putAll | with_reducible apply Tab.wf_filter
    | with_reducible apply Tab.wf_keep | with_reducible apply Tab.wf_merge | with_reducible exact Tab.wf_nil _
    | with_reducible apply Mem.bytes_keep | with_reducible apply Mem.pool_keep | with_reducible apply Mem.basin_keep
    | with_reducible apply Keeps.mem | with_reducible exact Mem.wf_empty | with_reducible apply foldlP_keep
    | with_reducible refine foldlP_keep_eq (by assumption) ?_ ?_ | with_reducible apply foldlQ_keep
    | with_reducible refine foldlQ_keep_eq (by assumption) ?_ ?_ | with_reducible apply OptKeeps.map
    | with_reducible exact OptKeeps.none | with_reducible apply OptKeeps.some | with_reducible apply SumKeeps.of_inl
    | with_reducible apply SumKeeps.of_inr | with_reducible apply id_keep | with_reducible apply ite_keep
    | with_reducible apply Keeps1.fst | with_reducible apply Keeps2.snd | with_reducible apply next_keep
    | with_reducible apply fault_keep | split | dsimp only | dsimp +zetaDelta only
    )

theorem onOp_keep {c : Nat} {opc : Nat} {s : State} {body : Op → State → State} (h_body : ∀ x0 x1, Keeps x1 →
    Keeps (body x0 x1)) (hwf : Keeps s) : OutKeeps (onOp c opc s body) := by
  unfold onOp
  repeat' (first
    | with_reducible assumption | extract_lets | (lift_lets; extract_lets) | intro _ | with_reducible apply h_body
    | with_reducible apply onUnit_keep | simp only [Keeps.mk_iff] | with_reducible apply Keeps.mem
    | with_reducible exact Mem.wf_empty | with_reducible apply ite_keep | with_reducible apply next_keep
    | with_reducible apply fault_keep | split | dsimp only | dsimp +zetaDelta only
    )

theorem scalarOp_keep {c : Nat} {opc : Nat} {s : State} {f : Op → Core → Nat} (hwf : Keeps s) : OutKeeps (scalarOp
    c opc s f) := by
  unfold scalarOp
  repeat' (first
    | with_reducible assumption | extract_lets | (lift_lets; extract_lets) | intro _
    | with_reducible apply State.updCore_keep | with_reducible apply State.goto_keep
    | with_reducible apply onOp_keep | with_reducible apply ite_keep | with_reducible apply next_keep
    | with_reducible apply fault_keep | split | dsimp only | dsimp +zetaDelta only
    )

theorem State.programFault_keep {s : State} {c : Nat} {e : Engine} {p : Push} {cause : Nat} (hwf : Keeps s) :
    Keeps (State.programFault s c e p cause) := by
  unfold State.programFault
  repeat' (first
    | with_reducible assumption | extract_lets | (lift_lets; extract_lets) | intro _
    | with_reducible apply State.updCore_keep | with_reducible apply State.settle_keep | simp only [Keeps.mk_iff]
    | with_reducible apply Keeps.mem | with_reducible exact Mem.wf_empty | with_reducible apply ite_keep | split
    | dsimp only | dsimp +zetaDelta only
    )

theorem State.coreFault_keep {s : State} {c : Nat} {e : Engine} {p : Push} {cause : Nat} (hwf : Keeps s) : Keeps
    (State.coreFault s c e p cause) := by
  unfold State.coreFault
  repeat' (first
    | with_reducible assumption | extract_lets | (lift_lets; extract_lets) | intro _
    | with_reducible apply State.updCore_keep | with_reducible apply State.settle_keep
    | simp only [Keeps1.mk_iff] | simp only [Keeps2.mk_iff]
    | simp only [Keeps.mk_iff] | with_reducible apply foldl_keep | with_reducible apply foldlM_keep
    | with_reducible apply iteM_keep | (simp only [Mem.wf_mk]; refine ⟨?_, ?_, ?_⟩)
    | with_reducible apply Tab.wf_put | with_reducible apply Tab.wf_putAll | with_reducible apply Tab.wf_filter
    | with_reducible apply Tab.wf_keep | with_reducible apply Tab.wf_merge | with_reducible exact Tab.wf_nil _
    | with_reducible apply Mem.bytes_keep | with_reducible apply Mem.pool_keep | with_reducible apply Mem.basin_keep
    | with_reducible apply Keeps.mem | with_reducible exact Mem.wf_empty | with_reducible apply foldlP_keep
    | with_reducible refine foldlP_keep_eq (by assumption) ?_ ?_ | with_reducible apply foldlQ_keep
    | with_reducible refine foldlQ_keep_eq (by assumption) ?_ ?_ | with_reducible apply OptKeeps.map
    | with_reducible exact OptKeeps.none | with_reducible apply OptKeeps.some | with_reducible apply SumKeeps.of_inl
    | with_reducible apply SumKeeps.of_inr | with_reducible apply id_keep | with_reducible apply ite_keep
    | with_reducible apply Keeps1.fst | with_reducible apply Keeps2.snd | with_reducible apply next_keep
    | with_reducible apply fault_keep | split | dsimp only | dsimp +zetaDelta only
    )

theorem State.retire_keep {s : State} {c : Nat} {e : Engine} {p : Push} {r : Result} (hwf : Keeps s) : Keeps
    (State.retire s c e p r) := by
  unfold State.retire
  repeat' (first
    | with_reducible assumption | extract_lets | (lift_lets; extract_lets) | intro _
    | with_reducible apply State.updCore_keep | with_reducible apply State.settle_keep
    | simp only [Keeps1.mk_iff] | simp only [Keeps2.mk_iff]
    | simp only [Keeps.mk_iff] | with_reducible apply foldl_keep | with_reducible apply foldlM_keep
    | with_reducible apply iteM_keep | (simp only [Mem.wf_mk]; refine ⟨?_, ?_, ?_⟩)
    | with_reducible apply Tab.wf_put | with_reducible apply Tab.wf_putAll | with_reducible apply Tab.wf_filter
    | with_reducible apply Tab.wf_keep | with_reducible apply Tab.wf_merge | with_reducible exact Tab.wf_nil _
    | with_reducible apply Mem.bytes_keep | with_reducible apply Mem.pool_keep | with_reducible apply Mem.basin_keep
    | with_reducible apply Keeps.mem | with_reducible exact Mem.wf_empty | with_reducible apply foldlP_keep
    | with_reducible refine foldlP_keep_eq (by assumption) ?_ ?_ | with_reducible apply foldlQ_keep
    | with_reducible refine foldlQ_keep_eq (by assumption) ?_ ?_ | with_reducible apply OptKeeps.map
    | with_reducible exact OptKeeps.none | with_reducible apply OptKeeps.some | with_reducible apply SumKeeps.of_inl
    | with_reducible apply SumKeeps.of_inr | with_reducible apply id_keep | with_reducible apply ite_keep
    | with_reducible apply Keeps1.fst | with_reducible apply Keeps2.snd | with_reducible apply next_keep
    | with_reducible apply fault_keep | split | dsimp only | dsimp +zetaDelta only
    )

theorem State.finishCloses_keep {s : State} {c : Nat} (hwf : Keeps s) : Keeps (State.finishCloses s c) := by
  unfold State.finishCloses
  repeat' (first
    | with_reducible assumption | extract_lets | (lift_lets; extract_lets) | intro _
    | with_reducible apply State.setStream_keep | with_reducible apply State.retire_keep | simp only [Keeps1.mk_iff]
    | simp only [Keeps2.mk_iff] | with_reducible apply foldl_keep | with_reducible exact Mem.wf_empty
    | with_reducible apply foldlP_keep | with_reducible refine foldlP_keep_eq (by assumption) ?_ ?_
    | with_reducible apply foldlQ_keep | with_reducible refine foldlQ_keep_eq (by assumption) ?_ ?_
    | with_reducible apply ite_keep | with_reducible apply Keeps1.fst | with_reducible apply Keeps2.snd | split
    | dsimp only | dsimp +zetaDelta only
    )

theorem State.complete_keep {s : State} {c : Nat} {e : Engine} {p : Push} {r : Result} (hwf : Keeps s) : Keeps
    (State.complete s c e p r) := by
  unfold State.complete
  repeat' (first
    | with_reducible assumption | extract_lets | (lift_lets; extract_lets) | intro _
    | with_reducible apply State.finishCloses_keep | with_reducible apply State.setStream_keep
    | with_reducible apply State.retire_keep | simp only [Keeps1.mk_iff] | simp only [Keeps2.mk_iff]
    | with_reducible apply foldl_keep | with_reducible apply foldlP_keep
    | with_reducible refine foldlP_keep_eq (by assumption) ?_ ?_ | with_reducible apply foldlQ_keep
    | with_reducible refine foldlQ_keep_eq (by assumption) ?_ ?_ | with_reducible apply ite_keep
    | with_reducible apply Keeps1.fst | with_reducible apply Keeps2.snd | split | dsimp only | dsimp +zetaDelta only
    )

theorem State.logPoolUe_keep {s : State} {c : Nat} {key : Nat} {push : Nat} (hwf : Keeps s) : Keeps
    (State.logPoolUe s c key push) := by
  unfold State.logPoolUe
  repeat' (first
    | with_reducible assumption | extract_lets | (lift_lets; extract_lets) | intro _
    | with_reducible apply State.beginRecovery_keep | with_reducible apply State.updReach_keep
    | with_reducible apply State.record_keep | simp only [Keeps.mk_iff] | with_reducible apply foldlM_keep
    | with_reducible apply iteM_keep | (simp only [Mem.wf_mk]; refine ⟨?_, ?_, ?_⟩)
    | with_reducible apply Tab.wf_put | with_reducible apply Tab.wf_putAll | with_reducible apply Tab.wf_filter
    | with_reducible apply Tab.wf_keep | with_reducible apply Tab.wf_merge | with_reducible exact Tab.wf_nil _
    | with_reducible apply Mem.bytes_keep | with_reducible apply Mem.pool_keep | with_reducible apply Mem.basin_keep
    | with_reducible apply Keeps.mem | with_reducible exact Mem.wf_empty | with_reducible apply ite_keep | split
    | dsimp only | dsimp +zetaDelta only
    )

theorem State.conclude_keep {s : State} {c : Nat} {e : Engine} {p : Push} {a : Act} (hwf : Keeps s) : Keeps (State.conclude s c e p a) := by
  cases a <;> dsimp only [State.conclude]
  repeat' (first
    | with_reducible assumption | extract_lets | (lift_lets; extract_lets) | intro _
    | with_reducible apply State.programFault_keep | with_reducible apply State.coreFault_keep
    | with_reducible apply State.logPoolUe_keep | with_reducible apply State.complete_keep
    | with_reducible apply State.updCore_keep | with_reducible apply State.settle_keep
    | with_reducible apply State.done_keep | simp only [Keeps.mk_iff] | with_reducible apply Keeps.mem
    | with_reducible exact Mem.wf_empty | with_reducible apply ite_keep | split | dsimp only | dsimp +zetaDelta only
    )

theorem State.noteUes_keep {s : State} {ue : List Nat} {part : Nat} {va : Nat} {n : Nat} (hwf : Keeps s) : Keeps
    (State.noteUes s ue part va n) := by
  unfold State.noteUes
  repeat' (first
    | with_reducible assumption | extract_lets | (lift_lets; extract_lets) | intro _
    | with_reducible apply State.lineUe_keep | simp only [Keeps1.mk_iff] | simp only [Keeps2.mk_iff]
    | with_reducible apply foldl_keep | with_reducible apply foldlP_keep
    | with_reducible refine foldlP_keep_eq (by assumption) ?_ ?_ | with_reducible apply foldlQ_keep
    | with_reducible refine foldlQ_keep_eq (by assumption) ?_ ?_ | with_reducible apply ite_keep
    | with_reducible apply Keeps1.fst | with_reducible apply Keeps2.snd | split | dsimp only | dsimp +zetaDelta only
    )

theorem State.noteSegs_keep {s : State} {ue : List Nat} {part : Nat} {segs : List (Nat × Nat)} (hwf : Keeps s) :
    Keeps (State.noteSegs s ue part segs) := by
  unfold State.noteSegs
  repeat' (first
    | with_reducible assumption | extract_lets | (lift_lets; extract_lets) | intro _
    | with_reducible apply State.noteUes_keep | simp only [Keeps1.mk_iff] | simp only [Keeps2.mk_iff]
    | with_reducible apply foldl_keep | with_reducible apply foldlP_keep
    | with_reducible refine foldlP_keep_eq (by assumption) ?_ ?_ | with_reducible apply foldlQ_keep
    | with_reducible refine foldlQ_keep_eq (by assumption) ?_ ?_ | with_reducible apply ite_keep
    | with_reducible apply Keeps1.fst | with_reducible apply Keeps2.snd | split | dsimp only | dsimp +zetaDelta only
    )

theorem State.breakAt_keep {s : State} {c : Nat} {b : Nat} (hwf : Keeps s) : Keeps (State.breakAt s c b) := by
  unfold State.breakAt
  repeat' (first
    | with_reducible assumption | extract_lets | (lift_lets; extract_lets) | intro _
    | with_reducible apply State.haltCore_keep | with_reducible apply State.updCore_keep | simp only [Keeps1.mk_iff]
    | simp only [Keeps2.mk_iff] | simp only [Keeps.mk_iff] | with_reducible apply foldl_keep
    | with_reducible apply Keeps.mem | with_reducible exact Mem.wf_empty | with_reducible apply foldlP_keep
    | with_reducible refine foldlP_keep_eq (by assumption) ?_ ?_ | with_reducible apply foldlQ_keep
    | with_reducible refine foldlQ_keep_eq (by assumption) ?_ ?_ | with_reducible apply ite_keep
    | with_reducible apply Keeps1.fst | with_reducible apply Keeps2.snd | split | dsimp only | dsimp +zetaDelta only
    )

theorem State.pushOne_keep {s : State} {c : Nat} {o : Op} {last : Bool} (hwf : Keeps s) : Keeps (State.pushOne s c o
    last) := by
  unfold State.pushOne
  repeat' (first
    | with_reducible assumption | extract_lets | (lift_lets; extract_lets) | intro _
    | with_reducible apply State.breakAt_keep | with_reducible apply State.logPoolUe_keep
    | with_reducible apply State.updCore_keep | with_reducible apply State.goto_keep
    | with_reducible apply State.settle_keep
    | simp only [Keeps1.mk_iff] | simp only [Keeps2.mk_iff]
    | simp only [Keeps.mk_iff] | with_reducible apply foldl_keep | with_reducible apply foldlM_keep
    | with_reducible apply iteM_keep | (simp only [Mem.wf_mk]; refine ⟨?_, ?_, ?_⟩)
    | with_reducible apply Tab.wf_put | with_reducible apply Tab.wf_putAll | with_reducible apply Tab.wf_filter
    | with_reducible apply Tab.wf_keep | with_reducible apply Tab.wf_merge | with_reducible exact Tab.wf_nil _
    | with_reducible apply Mem.bytes_keep | with_reducible apply Mem.pool_keep | with_reducible apply Mem.basin_keep
    | with_reducible apply Keeps.mem | with_reducible exact Mem.wf_empty | with_reducible apply foldlP_keep
    | with_reducible refine foldlP_keep_eq (by assumption) ?_ ?_ | with_reducible apply foldlQ_keep
    | with_reducible refine foldlQ_keep_eq (by assumption) ?_ ?_ | with_reducible apply OptKeeps.map
    | with_reducible exact OptKeeps.none | with_reducible apply OptKeeps.some | with_reducible apply SumKeeps.of_inl
    | with_reducible apply SumKeeps.of_inr | with_reducible apply id_keep | with_reducible apply ite_keep
    | with_reducible apply Keeps1.fst | with_reducible apply Keeps2.snd | with_reducible apply next_keep
    | with_reducible apply fault_keep | split | dsimp only | dsimp +zetaDelta only
    )

end Sys2Proof.Machine
end

