-- ==== Sys2Proof/Laws/MemChamber.lean ====
section
/-! SUPPORT. Every operation of Machine/Chamber.lean keeps the canonical form of the byte memories. -/

namespace Sys2Proof.Machine

set_option linter.unusedVariables false
set_option linter.unusedSimpArgs false
set_option linter.unusedTactic false
set_option linter.unreachableTactic false


theorem State.writeLcWord_keep {s : State} {part : Nat} {va : Nat} {w : Nat} (hwf : Keeps s) : Keeps
    (State.writeLcWord s part va w) := by
  unfold State.writeLcWord
  repeat' (first
    | with_reducible assumption | extract_lets | (lift_lets; extract_lets) | intro _
    | with_reducible apply State.writeNat_keep | with_reducible apply ite_keep | split | dsimp only
    | dsimp +zetaDelta only
    )

theorem State.writeLcGen_keep {s : State} {part : Nat} {va : Nat} {g : Nat} (hwf : Keeps s) : Keeps
    (State.writeLcGen s part va g) := by
  unfold State.writeLcGen
  repeat' (first
    | with_reducible assumption | extract_lets | (lift_lets; extract_lets) | intro _
    | with_reducible apply State.writeNat_keep | with_reducible apply ite_keep | split | dsimp only
    | dsimp +zetaDelta only
    )

theorem State.logPairFault_keep {s : State} {part : Nat} {c : Nat} {va : Nat} {entry : Nat} (hwf : Keeps s) :
    Keeps (State.logPairFault s part c va entry) := by
  unfold State.logPairFault
  repeat' (first
    | with_reducible assumption | extract_lets | (lift_lets; extract_lets) | intro _
    | with_reducible apply State.record_keep | with_reducible apply ite_keep | split | dsimp only
    | dsimp +zetaDelta only
    )

theorem State.flip_keep {s : State} {part : Nat} {va : Nat} (hwf : Keeps s) : Keeps (State.flip s part va) := by
  unfold State.flip
  repeat' (first
    | with_reducible assumption | extract_lets | (lift_lets; extract_lets) | intro _
    | with_reducible apply State.writeLcWord_keep | with_reducible apply State.writeLcGen_keep
    | with_reducible apply ite_keep | split | dsimp only | dsimp +zetaDelta only
    )

theorem State.runDeferred_keep {s : State} {part : Nat} {va : Nat} (hwf : Keeps s) : Keeps (State.runDeferred s
    part va) := by
  unfold State.runDeferred
  repeat' (first
    | with_reducible assumption | extract_lets | (lift_lets; extract_lets) | intro _
    | with_reducible apply State.flip_keep | simp only [Keeps1.mk_iff] | simp only [Keeps2.mk_iff]
    | simp only [Keeps.mk_iff] | with_reducible apply foldl_keep | with_reducible apply Keeps.mem
    | with_reducible exact Mem.wf_empty | with_reducible apply foldlP_keep
    | with_reducible refine foldlP_keep_eq (by assumption) ?_ ?_ | with_reducible apply foldlQ_keep
    | with_reducible refine foldlQ_keep_eq (by assumption) ?_ ?_ | with_reducible apply ite_keep
    | with_reducible apply Keeps1.fst | with_reducible apply Keeps2.snd | split | dsimp only | dsimp +zetaDelta only
    )

theorem State.requestFlip_keep {s : State} {part : Nat} {va : Nat} (hwf : Keeps s) : Keeps (State.requestFlip s
    part va) := by
  unfold State.requestFlip
  repeat' (first
    | with_reducible assumption | extract_lets | (lift_lets; extract_lets) | intro _
    | with_reducible apply State.flip_keep | simp only [Keeps.mk_iff] | with_reducible apply Keeps.mem
    | with_reducible exact Mem.wf_empty | with_reducible apply ite_keep | split | dsimp only | dsimp +zetaDelta only
    )

theorem State.unlatch_keep {s : State} {c : Nat} {push : Nat} (hwf : Keeps s) : Keeps (State.unlatch s c push) :=
    by
  unfold State.unlatch
  repeat' (first
    | with_reducible assumption | extract_lets | (lift_lets; extract_lets) | intro _ | simp only [Keeps.mk_iff]
    | with_reducible apply Keeps.mem | with_reducible exact Mem.wf_empty | with_reducible apply ite_keep | split
    | dsimp only | dsimp +zetaDelta only
    )

theorem State.addLatch_keep {s : State} {part : Nat} {c : Nat} {push : Nat} {va : Nat} {b : Nat} (hwf : Keeps s) :
    Keeps (State.addLatch s part c push va b) := by
  unfold State.addLatch
  repeat' (first
    | with_reducible assumption | extract_lets | (lift_lets; extract_lets) | intro _ | simp only [Keeps.mk_iff]
    | with_reducible apply Keeps.mem | with_reducible exact Mem.wf_empty | with_reducible apply ite_keep | split
    | dsimp only | dsimp +zetaDelta only
    )

theorem State.logEmpty_keep {s : State} {part : Nat} {c : Nat} {push : Nat} {va : Nat} (hwf : Keeps s) : Keeps
    (State.logEmpty s part c push va) := by
  unfold State.logEmpty
  repeat' (first
    | with_reducible assumption | extract_lets | (lift_lets; extract_lets) | intro _
    | with_reducible apply State.logPairFault_keep | with_reducible apply State.record_keep
    | with_reducible apply ite_keep | split | dsimp only | dsimp +zetaDelta only
    )

theorem State.startRebuild_keep {s : State} {part : Nat} {va : Nat} {flipOnDone : Bool} (hwf : Keeps s) : Keeps
    (State.startRebuild s part va flipOnDone) := by
  unfold State.startRebuild
  repeat' (first
    | with_reducible assumption | extract_lets | (lift_lets; extract_lets) | intro _
    | with_reducible apply State.writeLcWord_keep | with_reducible apply ite_keep | split | dsimp only
    | dsimp +zetaDelta only
    )

theorem State.endRebuild_keep {s : State} {part : Nat} {va : Nat} (hwf : Keeps s) : Keeps (State.endRebuild s part
    va) := by
  unfold State.endRebuild
  repeat' (first
    | with_reducible assumption | extract_lets | (lift_lets; extract_lets) | intro _
    | with_reducible apply State.writeLcWord_keep | with_reducible apply State.runDeferred_keep
    | with_reducible apply State.flip_keep | with_reducible apply ite_keep | split | dsimp only
    | dsimp +zetaDelta only
    )

theorem State.restoreWord_keep {s : State} {part : Nat} {va : Nat} {kind : Nat} (hwf : Keeps s) : Keeps
    (State.restoreWord s part va kind) := by
  unfold State.restoreWord
  repeat' (first
    | with_reducible assumption | extract_lets | (lift_lets; extract_lets) | intro _
    | with_reducible apply State.writeLcWord_keep | with_reducible apply State.writeLcGen_keep
    | with_reducible apply ite_keep | split | dsimp only | dsimp +zetaDelta only
    )

end Sys2Proof.Machine
end

