-- ==== Sys2Proof/Laws/MemArrays.lean ====
section
/-! SUPPORT. Every operation of Machine/Arrays.lean keeps the canonical form of the byte memories. -/

namespace Sys2Proof.Machine

set_option linter.unusedVariables false
set_option linter.unusedSimpArgs false
set_option linter.unusedTactic false
set_option linter.unreachableTactic false

/-- The state of the answer keeps the form. -/
def BanksKeeps : Banks → Prop
  | .ok s _ => Keeps s
  | .act s _ => Keeps s
theorem Banks.keeps_ok {s : State} {x : List Nat} : BanksKeeps (.ok s x) ↔ Keeps s := Iff.rfl
theorem Banks.keeps_act {s : State} {x : Act} : BanksKeeps (.act s x) ↔ Keeps s := Iff.rfl
theorem Banks.ite_keep {p : Prop} [Decidable p] {a : Banks} {s : State} {l : List Nat} {r : Banks}
    (e : (if p then a else .ok s l) = r) (ha : BanksKeeps a) (h : Keeps s) : BanksKeeps r := by
  subst e
  split
  · exact ha
  · exact h
theorem Banks.ite_keep_ok {p : Prop} [Decidable p] {a : Banks} {s s1 : State} {l x : List Nat}
    (e : (if p then a else .ok s l) = .ok s1 x) (ha : BanksKeeps a) (h : Keeps s) : Keeps s1 :=
  Banks.ite_keep (r := .ok s1 x) e ha h
theorem Banks.ite_keep_act {p : Prop} [Decidable p] {a : Banks} {s s1 : State} {l : List Nat} {x : Act}
    (e : (if p then a else .ok s l) = .act s1 x) (ha : BanksKeeps a) (h : Keeps s) : Keeps s1 :=
  Banks.ite_keep (r := .act s1 x) e ha h

theorem State.latchAll_keep {s : State} {part c push : Nat} {l : List Nat} (hwf : Keeps s) :
    BanksKeeps (s.latchAll part c push l) := by
  induction l generalizing s with
  | nil => exact hwf
  | cons va t ih =>
    unfold State.latchAll
    split
    · exact hwf
    · split
      · exact State.unlatch_keep hwf
      · exact State.logEmpty_keep hwf
      · rename_i b _
        have k := ih (s := s.addLatch part c push va b) (State.addLatch_keep hwf)
        revert k
        cases (s.addLatch part c push va b).latchAll part c push t
        · exact id
        · exact id
theorem State.latchAll_keep_ok {s : State} {part c push : Nat} {l : List Nat} {s' : State} {x : List Nat}
    (e : s.latchAll part c push l = .ok s' x) (hwf : Keeps s) : Keeps s' := by
  have k := State.latchAll_keep (part := part) (c := c) (push := push) (l := l) hwf
  rw [e] at k
  exact k
theorem State.latchAll_keep_act {s : State} {part c push : Nat} {l : List Nat} {s' : State} {x : Act}
    (e : s.latchAll part c push l = .act s' x) (hwf : Keeps s) : Keeps s' := by
  have k := State.latchAll_keep (part := part) (c := c) (push := push) (l := l) hwf
  rw [e] at k
  exact k

theorem State.arrayStop_keep {s : State} {c : Nat} {code : Nat} {p0 : Nat} {p1 : Nat} {p2 : Nat} (hwf : Keeps s) :
    Keeps (State.arrayStop s c code p0 p1 p2) := by
  unfold State.arrayStop
  repeat' (first
    | with_reducible assumption | extract_lets | (lift_lets; extract_lets) | intro _
    | with_reducible apply State.beginRecovery_keep | with_reducible apply State.updCore_keep
    | with_reducible apply State.record_keep | simp only [Keeps.mk_iff] | with_reducible apply Keeps.mem
    | with_reducible exact Mem.wf_empty | with_reducible apply ite_keep | split | dsimp only | dsimp +zetaDelta only
    )

theorem State.arraySoft_keep {s : State} {c : Nat} {masks : Nat} {push : Nat} {counted : Bool} (hwf : Keeps s) :
    Keeps (State.arraySoft s c masks push counted) := by
  unfold State.arraySoft
  repeat' (first
    | with_reducible assumption | extract_lets | (lift_lets; extract_lets) | intro _
    | with_reducible apply State.updCore_keep | with_reducible apply State.record_keep
    | simp only [Keeps1.mk_iff] | simp only [Keeps2.mk_iff]
    | simp only [Keeps.mk_iff] | with_reducible apply foldl_keep | with_reducible apply foldlM_keep
    | with_reducible apply iteM_keep | (simp only [Mem.wf_mk]; refine ⟨?_, ?_, ?_⟩)
    | with_reducible apply Tab.wf_put | with_reducible apply Tab.wf_putAll | with_reducible apply Tab.wf_filter
    | with_reducible apply Tab.wf_keep | with_reducible apply Tab.wf_merge | with_reducible exact Tab.wf_nil _
    | with_reducible apply Mem.bytes_keep | with_reducible apply Mem.pool_keep | with_reducible apply Mem.basin_keep
    | with_reducible apply Keeps.mem | with_reducible exact Mem.wf_empty | with_reducible apply foldlP_keep
    | with_reducible refine foldlP_keep_eq (by assumption) ?_ ?_ | with_reducible apply foldlQ_keep
    | with_reducible refine foldlQ_keep_eq (by assumption) ?_ ?_ | with_reducible apply OptKeeps.map
    | with_reducible exact OptKeeps.none | with_reducible apply OptKeeps.some | with_reducible apply SumKeeps.of_inl
    | with_reducible apply SumKeeps.of_inr | with_reducible apply id_keep | with_reducible apply ite_keep
    | with_reducible apply Keeps1.fst | with_reducible apply Keeps2.snd | with_reducible apply next_keep
    | with_reducible apply fault_keep | split | dsimp only | dsimp +zetaDelta only
    )

theorem State.writeDrain_keep {s : State} {part : Nat} {d : Drain} {codes : List Nat} {bad : List Nat} (hwf :
    Keeps s) : Keeps (State.writeDrain s part d codes bad) := by
  unfold State.writeDrain
  repeat' (first
    | with_reducible assumption | extract_lets | (lift_lets; extract_lets) | intro _
    | with_reducible apply State.writeVA_keep | with_reducible apply State.markVA_keep | simp only [Keeps1.mk_iff]
    | simp only [Keeps2.mk_iff] | with_reducible apply foldl_keep | with_reducible apply foldlP_keep
    | with_reducible refine foldlP_keep_eq (by assumption) ?_ ?_ | with_reducible apply foldlQ_keep
    | with_reducible refine foldlQ_keep_eq (by assumption) ?_ ?_ | with_reducible apply ite_keep
    | with_reducible apply Keeps1.fst | with_reducible apply Keeps2.snd | split | dsimp only | dsimp +zetaDelta only
    )

theorem State.runDrain_keep {s : State} {c : Nat} {part : Nat} {p : Push} {d : Drain} {t : Tile} {bank : Option Nat}
    {seen : Seen} (hwf : Keeps s) : Keeps1 (State.runDrain s c part p d t bank seen) := by
  unfold State.runDrain
  repeat' (first
    | with_reducible assumption | extract_lets | (lift_lets; extract_lets) | intro _
    | with_reducible apply State.noteSegs_keep | with_reducible apply State.poisonTile_keep
    | with_reducible apply State.done_keep | with_reducible apply State.logPairFault_keep
    | with_reducible apply State.writeDrain_keep
    | simp only [Keeps1.mk_iff] | simp only [Keeps2.mk_iff]
    | simp only [Keeps.mk_iff] | with_reducible apply foldl_keep | with_reducible apply foldlM_keep
    | with_reducible apply iteM_keep | (simp only [Mem.wf_mk]; refine ⟨?_, ?_, ?_⟩)
    | with_reducible apply Tab.wf_put | with_reducible apply Tab.wf_putAll | with_reducible apply Tab.wf_filter
    | with_reducible apply Tab.wf_keep | with_reducible apply Tab.wf_merge | with_reducible exact Tab.wf_nil _
    | with_reducible apply Mem.bytes_keep | with_reducible apply Mem.pool_keep | with_reducible apply Mem.basin_keep
    | with_reducible apply Keeps.mem | with_reducible exact Mem.wf_empty | with_reducible apply foldlP_keep
    | with_reducible refine foldlP_keep_eq (by assumption) ?_ ?_ | with_reducible apply foldlQ_keep
    | with_reducible refine foldlQ_keep_eq (by assumption) ?_ ?_ | with_reducible apply OptKeeps.map
    | with_reducible exact OptKeeps.none | with_reducible apply OptKeeps.some | with_reducible apply SumKeeps.of_inl
    | with_reducible apply SumKeeps.of_inr | with_reducible apply id_keep | with_reducible apply ite_keep
    | with_reducible apply Keeps1.fst | with_reducible apply Keeps2.snd | with_reducible apply next_keep
    | with_reducible apply fault_keep | split | dsimp only | dsimp +zetaDelta only
    )
theorem State.runDrain_keep_eq {s : State} {c : Nat} {part : Nat} {p : Push} {d : Drain} {t : Tile} {bank : Option
    Nat} {seen : Seen} {s' : State} {x' : Act} (e : State.runDrain s c part p d t bank seen = (s', x')) (hwf : Keeps
    s) : Keeps s' := by
  have k : Keeps1 (State.runDrain s c part p d t bank seen) := State.runDrain_keep  hwf
  rw [e] at k
  exact k

theorem State.axDrain_keep {s : State} {c : Nat} {p : Push} {o : Op} {seen : Seen} (hwf : Keeps s) : Keeps1
    (State.axDrain s c p o seen) := by
  unfold State.axDrain
  repeat' (first
    | with_reducible assumption | extract_lets | (lift_lets; extract_lets) | intro _
    | with_reducible apply State.latchAll_keep | with_reducible refine State.latchAll_keep_act (by assumption) ?_
    | with_reducible refine State.latchAll_keep_ok (by assumption) ?_
    | with_reducible refine Banks.ite_keep_ok (by assumption) ?_ ?_
    | with_reducible refine Banks.ite_keep_act (by assumption) ?_ ?_ | simp only [Banks.keeps_ok]
    | simp only [Banks.keeps_act] | with_reducible apply State.arrayStop_keep
    | with_reducible apply State.runDrain_keep | with_reducible refine State.runDrain_keep_eq (by assumption) ?_
    | with_reducible apply State.done_keep | with_reducible apply State.updCore_keep
    | simp only [Keeps1.mk_iff] | simp only [Keeps2.mk_iff]
    | simp only [Keeps.mk_iff] | with_reducible apply foldl_keep | with_reducible apply foldlM_keep
    | with_reducible apply iteM_keep | (simp only [Mem.wf_mk]; refine ⟨?_, ?_, ?_⟩)
    | with_reducible apply Tab.wf_put | with_reducible apply Tab.wf_putAll | with_reducible apply Tab.wf_filter
    | with_reducible apply Tab.wf_keep | with_reducible apply Tab.wf_merge | with_reducible exact Tab.wf_nil _
    | with_reducible apply Mem.bytes_keep | with_reducible apply Mem.pool_keep | with_reducible apply Mem.basin_keep
    | with_reducible apply Keeps.mem | with_reducible exact Mem.wf_empty | with_reducible apply foldlP_keep
    | with_reducible refine foldlP_keep_eq (by assumption) ?_ ?_ | with_reducible apply foldlQ_keep
    | with_reducible refine foldlQ_keep_eq (by assumption) ?_ ?_ | with_reducible apply OptKeeps.map
    | with_reducible exact OptKeeps.none | with_reducible apply OptKeeps.some | with_reducible apply SumKeeps.of_inl
    | with_reducible apply SumKeeps.of_inr | with_reducible apply id_keep | with_reducible apply ite_keep
    | with_reducible apply Keeps1.fst | with_reducible apply Keeps2.snd | with_reducible apply next_keep
    | with_reducible apply fault_keep | split | dsimp only | dsimp +zetaDelta only
    )
theorem State.axDrain_keep_eq {s : State} {c : Nat} {p : Push} {o : Op} {seen : Seen} {s' : State} {x' : Act} (e :
    State.axDrain s c p o seen = (s', x')) (hwf : Keeps s) : Keeps s' := by
  have k : Keeps1 (State.axDrain s c p o seen) := State.axDrain_keep  hwf
  rw [e] at k
  exact k

theorem State.axAccLoad_keep {s : State} {c : Nat} {p : Push} {o : Op} {seen : Seen} (hwf : Keeps s) : Keeps1
    (State.axAccLoad s c p o seen) := by
  unfold State.axAccLoad
  repeat' (first
    | with_reducible assumption | extract_lets | (lift_lets; extract_lets) | intro _
    | with_reducible apply State.noteSegs_keep | with_reducible apply State.updCore_keep
    | with_reducible apply State.record_keep | with_reducible apply State.done_keep | simp only [Keeps1.mk_iff]
    | simp only [Keeps2.mk_iff] | simp only [Keeps.mk_iff] | with_reducible apply foldl_keep
    | with_reducible apply Keeps.mem | with_reducible exact Mem.wf_empty | with_reducible apply foldlP_keep
    | with_reducible refine foldlP_keep_eq (by assumption) ?_ ?_ | with_reducible apply foldlQ_keep
    | with_reducible refine foldlQ_keep_eq (by assumption) ?_ ?_ | with_reducible apply ite_keep
    | with_reducible apply Keeps1.fst | with_reducible apply Keeps2.snd | split | dsimp only | dsimp +zetaDelta only
    )
theorem State.axAccLoad_keep_eq {s : State} {c : Nat} {p : Push} {o : Op} {seen : Seen} {s' : State} {x' : Act} (e
    : State.axAccLoad s c p o seen = (s', x')) (hwf : Keeps s) : Keeps s' := by
  have k : Keeps1 (State.axAccLoad s c p o seen) := State.axAccLoad_keep  hwf
  rw [e] at k
  exact k

theorem State.axAccClear_keep {s : State} {c : Nat} {o : Op} (hwf : Keeps s) : Keeps1 (State.axAccClear s c o) := by
  unfold State.axAccClear
  repeat' (first
    | with_reducible assumption | extract_lets | (lift_lets; extract_lets) | intro _
    | with_reducible apply State.updCore_keep | with_reducible apply State.done_keep
    | simp only [Keeps1.mk_iff] | simp only [Keeps2.mk_iff]
    | simp only [Keeps.mk_iff] | with_reducible apply foldl_keep | with_reducible apply foldlM_keep
    | with_reducible apply iteM_keep | (simp only [Mem.wf_mk]; refine ⟨?_, ?_, ?_⟩)
    | with_reducible apply Tab.wf_put | with_reducible apply Tab.wf_putAll | with_reducible apply Tab.wf_filter
    | with_reducible apply Tab.wf_keep | with_reducible apply Tab.wf_merge | with_reducible exact Tab.wf_nil _
    | with_reducible apply Mem.bytes_keep | with_reducible apply Mem.pool_keep | with_reducible apply Mem.basin_keep
    | with_reducible apply Keeps.mem | with_reducible exact Mem.wf_empty | with_reducible apply foldlP_keep
    | with_reducible refine foldlP_keep_eq (by assumption) ?_ ?_ | with_reducible apply foldlQ_keep
    | with_reducible refine foldlQ_keep_eq (by assumption) ?_ ?_ | with_reducible apply OptKeeps.map
    | with_reducible exact OptKeeps.none | with_reducible apply OptKeeps.some | with_reducible apply SumKeeps.of_inl
    | with_reducible apply SumKeeps.of_inr | with_reducible apply id_keep | with_reducible apply ite_keep
    | with_reducible apply Keeps1.fst | with_reducible apply Keeps2.snd | with_reducible apply next_keep
    | with_reducible apply fault_keep | split | dsimp only | dsimp +zetaDelta only
    )
theorem State.axAccClear_keep_eq {s : State} {c : Nat} {o : Op} {s' : State} {x' : Act} (e : State.axAccClear s c o
    = (s', x')) (hwf : Keeps s) : Keeps s' := by
  have k : Keeps1 (State.axAccClear s c o) := State.axAccClear_keep  hwf
  rw [e] at k
  exact k

theorem State.mmaDrain_keep {s : State} {c : Nat} {part : Nat} {p : Push} {o : Op} {bank : Option Nat} {flags :
    Nat} {seen : Seen} (hwf : Keeps s) : Keeps1 (State.mmaDrain s c part p o bank flags seen) := by
  unfold State.mmaDrain
  repeat' (first
    | with_reducible assumption | extract_lets | (lift_lets; extract_lets) | intro _
    | with_reducible apply State.runDrain_keep | with_reducible refine State.runDrain_keep_eq (by assumption) ?_
    | with_reducible apply State.done_keep | simp only [Keeps1.mk_iff] | simp only [Keeps.mk_iff]
    | with_reducible apply Keeps.mem | with_reducible exact Mem.wf_empty | with_reducible apply ite_keep
    | with_reducible apply Keeps1.fst | split | dsimp only | dsimp +zetaDelta only
    )
theorem State.mmaDrain_keep_eq {s : State} {c : Nat} {part : Nat} {p : Push} {o : Op} {bank : Option Nat} {flags :
    Nat} {seen : Seen} {s' : State} {x' : Act} (e : State.mmaDrain s c part p o bank flags seen = (s', x')) (hwf :
    Keeps s) : Keeps s' := by
  have k : Keeps1 (State.mmaDrain s c part p o bank flags seen) := State.mmaDrain_keep  hwf
  rw [e] at k
  exact k

theorem State.mmaRun_keep {s : State} {c : Nat} {p : Push} {o : Op} {seen : Seen} {a : Desc} {b : Desc} {segs : List
    (Nat × Nat)} {fb : Nat} {kd : Nat} {acc : TileType} {banks : MmaBanks} (hwf : Keeps s) : Keeps1 (State.mmaRun s
    c p o seen a b segs fb kd acc banks) := by
  unfold State.mmaRun
  repeat' (first
    | with_reducible assumption | extract_lets | (lift_lets; extract_lets) | intro _
    | with_reducible apply State.noteSegs_keep | with_reducible apply State.updCore_keep
    | with_reducible apply State.mmaDrain_keep | with_reducible refine State.mmaDrain_keep_eq (by assumption) ?_
    | with_reducible apply State.done_keep | with_reducible apply State.arrayStop_keep
    | with_reducible apply State.arraySoft_keep
    | simp only [Keeps1.mk_iff] | simp only [Keeps2.mk_iff]
    | simp only [Keeps.mk_iff] | with_reducible apply foldl_keep | with_reducible apply foldlM_keep
    | with_reducible apply iteM_keep | (simp only [Mem.wf_mk]; refine ⟨?_, ?_, ?_⟩)
    | with_reducible apply Tab.wf_put | with_reducible apply Tab.wf_putAll | with_reducible apply Tab.wf_filter
    | with_reducible apply Tab.wf_keep | with_reducible apply Tab.wf_merge | with_reducible exact Tab.wf_nil _
    | with_reducible apply Mem.bytes_keep | with_reducible apply Mem.pool_keep | with_reducible apply Mem.basin_keep
    | with_reducible apply Keeps.mem | with_reducible exact Mem.wf_empty | with_reducible apply foldlP_keep
    | with_reducible refine foldlP_keep_eq (by assumption) ?_ ?_ | with_reducible apply foldlQ_keep
    | with_reducible refine foldlQ_keep_eq (by assumption) ?_ ?_ | with_reducible apply OptKeeps.map
    | with_reducible exact OptKeeps.none | with_reducible apply OptKeeps.some | with_reducible apply SumKeeps.of_inl
    | with_reducible apply SumKeeps.of_inr | with_reducible apply id_keep | with_reducible apply ite_keep
    | with_reducible apply Keeps1.fst | with_reducible apply Keeps2.snd | with_reducible apply next_keep
    | with_reducible apply fault_keep | split | dsimp only | dsimp +zetaDelta only
    )
theorem State.mmaRun_keep_eq {s : State} {c : Nat} {p : Push} {o : Op} {seen : Seen} {a : Desc} {b : Desc} {segs :
    List (Nat × Nat)} {fb : Nat} {kd : Nat} {acc : TileType} {banks : MmaBanks} {s' : State} {x' : Act} (e :
    State.mmaRun s c p o seen a b segs fb kd acc banks = (s', x')) (hwf : Keeps s) : Keeps s' := by
  have k : Keeps1 (State.mmaRun s c p o seen a b segs fb kd acc banks) := State.mmaRun_keep  hwf
  rw [e] at k
  exact k

theorem State.axMma_keep {s : State} {c : Nat} {p : Push} {o : Op} {seen : Seen} (hwf : Keeps s) : Keeps1
    (State.axMma s c p o seen) := by
  unfold State.axMma
  repeat' (first
    | with_reducible assumption | extract_lets | (lift_lets; extract_lets) | intro _
    | with_reducible apply State.latchAll_keep | with_reducible refine State.latchAll_keep_act (by assumption) ?_
    | with_reducible refine State.latchAll_keep_ok (by assumption) ?_
    | with_reducible refine Banks.ite_keep_ok (by assumption) ?_ ?_
    | with_reducible refine Banks.ite_keep_act (by assumption) ?_ ?_ | simp only [Banks.keeps_ok]
    | simp only [Banks.keeps_act] | with_reducible apply State.mmaRun_keep
    | with_reducible refine State.mmaRun_keep_eq (by assumption) ?_
    | simp only [Keeps1.mk_iff] | simp only [Keeps2.mk_iff]
    | simp only [Keeps.mk_iff] | with_reducible apply foldl_keep | with_reducible apply foldlM_keep
    | with_reducible apply iteM_keep | (simp only [Mem.wf_mk]; refine ⟨?_, ?_, ?_⟩)
    | with_reducible apply Tab.wf_put | with_reducible apply Tab.wf_putAll | with_reducible apply Tab.wf_filter
    | with_reducible apply Tab.wf_keep | with_reducible apply Tab.wf_merge | with_reducible exact Tab.wf_nil _
    | with_reducible apply Mem.bytes_keep | with_reducible apply Mem.pool_keep | with_reducible apply Mem.basin_keep
    | with_reducible apply Keeps.mem | with_reducible exact Mem.wf_empty | with_reducible apply foldlP_keep
    | with_reducible refine foldlP_keep_eq (by assumption) ?_ ?_ | with_reducible apply foldlQ_keep
    | with_reducible refine foldlQ_keep_eq (by assumption) ?_ ?_ | with_reducible apply OptKeeps.map
    | with_reducible exact OptKeeps.none | with_reducible apply OptKeeps.some | with_reducible apply SumKeeps.of_inl
    | with_reducible apply SumKeeps.of_inr | with_reducible apply id_keep | with_reducible apply ite_keep
    | with_reducible apply Keeps1.fst | with_reducible apply Keeps2.snd | with_reducible apply next_keep
    | with_reducible apply fault_keep | split | dsimp only | dsimp +zetaDelta only
    )
theorem State.axMma_keep_eq {s : State} {c : Nat} {p : Push} {o : Op} {seen : Seen} {s' : State} {x' : Act} (e :
    State.axMma s c p o seen = (s', x')) (hwf : Keeps s) : Keeps s' := by
  have k : Keeps1 (State.axMma s c p o seen) := State.axMma_keep  hwf
  rw [e] at k
  exact k

end Sys2Proof.Machine
end

