-- ==== Sys2Proof/Laws/MemVector.lean ====
section
/-! SUPPORT. Every operation of Machine/Vector.lean keeps the canonical form of the byte memories. -/

namespace Sys2Proof.Machine

set_option linter.unusedVariables false
set_option linter.unusedSimpArgs false
set_option linter.unusedTactic false
set_option linter.unreachableTactic false

/-- The state of the answer keeps the form. -/
def PrepKeeps : Prep → Prop
  | .go s _ _ => Keeps s
  | .wait s _ => Keeps s
theorem Prep.keeps_go {s : State} {x : Nat} {y : Bool} : PrepKeeps (.go s x y) ↔ Keeps s := Iff.rfl
theorem Prep.keeps_wait {s : State} {x : Nat} : PrepKeeps (.wait s x) ↔ Keeps s := Iff.rfl

theorem State.writeAll_keep {s : State} {part : Nat} {d : Desc} {codes : List Nat} (hwf : Keeps s) : Keeps
    (State.writeAll s part d codes) := by
  unfold State.writeAll
  repeat' (first
    | with_reducible assumption | extract_lets | (lift_lets; extract_lets) | intro _
    | with_reducible apply State.writeRow_keep | simp only [Keeps1.mk_iff] | simp only [Keeps2.mk_iff]
    | with_reducible apply foldl_keep | with_reducible apply foldlP_keep
    | with_reducible refine foldlP_keep_eq (by assumption) ?_ ?_ | with_reducible apply foldlQ_keep
    | with_reducible refine foldlQ_keep_eq (by assumption) ?_ ?_ | with_reducible apply ite_keep
    | with_reducible apply Keeps1.fst | with_reducible apply Keeps2.snd | split | dsimp only | dsimp +zetaDelta only
    )

theorem State.meet_keep {s : State} {c : Nat} {part : Nat} {p : Push} {segs : List (Nat × Nat)} {seen : Seen}
    {clean : State → State × Act} {poisoned : State → State × Act} (h_clean : ∀ x0, Keeps x0 → Keeps1 (clean x0))
    (h_poisoned : ∀ x0, Keeps x0 → Keeps1 (poisoned x0)) (hwf : Keeps s) : Keeps1 (State.meet s c part p segs seen
    clean poisoned) := by
  unfold State.meet
  repeat' (first
    | with_reducible assumption | extract_lets | (lift_lets; extract_lets) | intro _ | with_reducible apply h_clean
    | with_reducible apply h_poisoned | with_reducible apply State.noteSegs_keep | simp only [Keeps1.mk_iff]
    | simp only [Keeps.mk_iff] | with_reducible apply Keeps.mem | with_reducible exact Mem.wf_empty
    | with_reducible apply ite_keep | with_reducible apply Keeps1.fst | split | dsimp only | dsimp +zetaDelta only
    )
theorem State.meet_keep_eq {s : State} {c : Nat} {part : Nat} {p : Push} {segs : List (Nat × Nat)} {seen : Seen}
    {clean : State → State × Act} {poisoned : State → State × Act} (h_clean : ∀ x0, Keeps x0 → Keeps1 (clean x0))
    (h_poisoned : ∀ x0, Keeps x0 → Keeps1 (poisoned x0)) {s' : State} {x' : Act} (e : State.meet s c part p segs
    seen clean poisoned = (s', x')) (hwf : Keeps s) : Keeps s' := by
  have k : Keeps1 (State.meet s c part p segs seen clean poisoned) := State.meet_keep h_clean h_poisoned hwf
  rw [e] at k
  exact k

theorem State.vxVew_keep {s : State} {c : Nat} {p : Push} {o : Op} {seen : Seen} (hwf : Keeps s) : Keeps1
    (State.vxVew s c p o seen) := by
  unfold State.vxVew
  repeat' (first
    | with_reducible assumption | extract_lets | (lift_lets; extract_lets) | intro _
    | with_reducible apply State.meet_keep | with_reducible refine State.meet_keep_eq (by assumption) ?_
    | with_reducible apply State.writeAll_keep | with_reducible apply State.done_keep
    | with_reducible apply State.poisonDesc_keep
    | simp only [Keeps1.mk_iff] | simp only [Keeps2.mk_iff]
    | simp only [Keeps.mk_iff] | with_reducible apply foldl_keep | with_reducible apply foldlM_keep
    | with_reducible apply iteM_keep | (simp only [Mem.wf_mk]; refine ⟨?_, ?_, ?_⟩)
    | with_reducible apply Tab.wf_put | with_reducible apply Tab.wf_putAll | with_reducible apply Tab.wf_filter
    | with_reducible apply Tab.wf_keep | with_reducible apply Tab.wf_merge | with_reducible exact Tab.wf_nil _
    | with_reducible apply Mem.bytes_keep | with_reducible apply Mem.pool_keep | with_reducible apply Mem.basin_keep
    | with_reducible apply Keeps.mem | with_reducible exact Mem.wf_empty | with_reducible apply foldlP_keep
    | with_reducible refine foldlP_keep_eq (by assumption) ?_ ?_ | with_reducible apply foldlQ_keep
    | with_reducible refine foldlQ_keep_eq (by assumption) ?_ ?_ | with_reducible apply OptKeeps.map
    | with_reducible exact OptKeeps.none | with_reducible apply OptKeeps.some | with_reducible apply SumKeeps.of_inl
    | with_reducible apply SumKeeps.of_inr | with_reducible apply id_keep | with_reducible apply ite_keep
    | with_reducible apply Keeps1.fst | with_reducible apply Keeps2.snd | with_reducible apply next_keep
    | with_reducible apply fault_keep | split | dsimp only | dsimp +zetaDelta only
    )
theorem State.vxVew_keep_eq {s : State} {c : Nat} {p : Push} {o : Op} {seen : Seen} {s' : State} {x' : Act} (e :
    State.vxVew s c p o seen = (s', x')) (hwf : Keeps s) : Keeps s' := by
  have k : Keeps1 (State.vxVew s c p o seen) := State.vxVew_keep  hwf
  rw [e] at k
  exact k

theorem State.vxVred_keep {s : State} {c : Nat} {p : Push} {o : Op} {seen : Seen} (hwf : Keeps s) : Keeps1
    (State.vxVred s c p o seen) := by
  unfold State.vxVred
  repeat' (first
    | with_reducible assumption | extract_lets | (lift_lets; extract_lets) | intro _
    | with_reducible apply State.meet_keep | with_reducible refine State.meet_keep_eq (by assumption) ?_
    | with_reducible apply State.writeAll_keep | with_reducible apply State.done_keep
    | with_reducible apply State.poisonDesc_keep
    | simp only [Keeps1.mk_iff] | simp only [Keeps2.mk_iff]
    | simp only [Keeps.mk_iff] | with_reducible apply foldl_keep | with_reducible apply foldlM_keep
    | with_reducible apply iteM_keep | (simp only [Mem.wf_mk]; refine ⟨?_, ?_, ?_⟩)
    | with_reducible apply Tab.wf_put | with_reducible apply Tab.wf_putAll | with_reducible apply Tab.wf_filter
    | with_reducible apply Tab.wf_keep | with_reducible apply Tab.wf_merge | with_reducible exact Tab.wf_nil _
    | with_reducible apply Mem.bytes_keep | with_reducible apply Mem.pool_keep | with_reducible apply Mem.basin_keep
    | with_reducible apply Keeps.mem | with_reducible exact Mem.wf_empty | with_reducible apply foldlP_keep
    | with_reducible refine foldlP_keep_eq (by assumption) ?_ ?_ | with_reducible apply foldlQ_keep
    | with_reducible refine foldlQ_keep_eq (by assumption) ?_ ?_ | with_reducible apply OptKeeps.map
    | with_reducible exact OptKeeps.none | with_reducible apply OptKeeps.some | with_reducible apply SumKeeps.of_inl
    | with_reducible apply SumKeeps.of_inr | with_reducible apply id_keep | with_reducible apply ite_keep
    | with_reducible apply Keeps1.fst | with_reducible apply Keeps2.snd | with_reducible apply next_keep
    | with_reducible apply fault_keep | split | dsimp only | dsimp +zetaDelta only
    )
theorem State.vxVred_keep_eq {s : State} {c : Nat} {p : Push} {o : Op} {seen : Seen} {s' : State} {x' : Act} (e :
    State.vxVred s c p o seen = (s', x')) (hwf : Keeps s) : Keeps s' := by
  have k : Keeps1 (State.vxVred s c p o seen) := State.vxVred_keep  hwf
  rw [e] at k
  exact k

theorem State.prepare_keep {s : State} {part : Nat} {c : Nat} {va : Nat} {stage : Nat} {flip : Bool} (hwf : Keeps
    s) : PrepKeeps (State.prepare s part c va stage flip) := by
  unfold State.prepare
  repeat' (first
    | with_reducible assumption | extract_lets | (lift_lets; extract_lets) | intro _
    | with_reducible apply State.logPairFault_keep | with_reducible apply State.startRebuild_keep
    | with_reducible apply State.flip_keep | with_reducible apply ite_keep | simp only [Prep.keeps_go]
    | simp only [Prep.keeps_wait] | split | dsimp only | dsimp +zetaDelta only
    )
theorem State.prepare_keep_go {s : State} {part : Nat} {c : Nat} {va : Nat} {stage : Nat} {flip : Bool} {s' :
    State} {x : Nat} {y : Bool} (e : State.prepare s part c va stage flip = .go s' x y) (hwf : Keeps s) : Keeps s'
    := by
  have k : PrepKeeps (State.prepare s part c va stage flip) := State.prepare_keep  hwf
  rw [e] at k
  exact k
theorem State.prepare_keep_wait {s : State} {part : Nat} {c : Nat} {va : Nat} {stage : Nat} {flip : Bool} {s' :
    State} {x : Nat} (e : State.prepare s part c va stage flip = .wait s' x) (hwf : Keeps s) : Keeps s' := by
  have k : PrepKeeps (State.prepare s part c va stage flip) := State.prepare_keep  hwf
  rw [e] at k
  exact k

theorem State.concludeBank_keep {s : State} {part : Nat} {va : Nat} {kind : Nat} {whole : Bool} (hwf : Keeps s) :
    Keeps (State.concludeBank s part va kind whole) := by
  unfold State.concludeBank
  repeat' (first
    | with_reducible assumption | extract_lets | (lift_lets; extract_lets) | intro _
    | with_reducible apply State.restoreWord_keep | with_reducible apply State.endRebuild_keep
    | with_reducible apply ite_keep | split | dsimp only | dsimp +zetaDelta only
    )

theorem State.vxLcRebuild_keep {s : State} {c : Nat} {p : Push} {o : Op} {seen : Seen} (hwf : Keeps s) : Keeps1
    (State.vxLcRebuild s c p o seen) := by
  unfold State.vxLcRebuild
  repeat' (first
    | with_reducible assumption | extract_lets | (lift_lets; extract_lets) | intro _
    | with_reducible apply State.prepare_keep | with_reducible refine State.prepare_keep_go (by assumption) ?_
    | with_reducible refine State.prepare_keep_wait (by assumption) ?_
    | with_reducible refine Banks.ite_keep_ok (by assumption) ?_ ?_
    | with_reducible refine Banks.ite_keep_act (by assumption) ?_ ?_ | simp only [Banks.keeps_ok]
    | simp only [Banks.keeps_act] | simp only [Prep.keeps_go] | simp only [Prep.keeps_wait]
    | with_reducible apply State.logEmpty_keep | with_reducible apply State.meet_keep
    | with_reducible refine State.meet_keep_eq (by assumption) ?_ | with_reducible apply State.writeVA_keep
    | with_reducible apply State.concludeBank_keep | with_reducible apply State.done_keep
    | with_reducible apply State.poisonVA_keep
    | simp only [Keeps1.mk_iff] | simp only [Keeps2.mk_iff]
    | simp only [Keeps.mk_iff] | with_reducible apply foldl_keep | with_reducible apply foldlM_keep
    | with_reducible apply iteM_keep | (simp only [Mem.wf_mk]; refine ⟨?_, ?_, ?_⟩)
    | with_reducible apply Tab.wf_put | with_reducible apply Tab.wf_putAll | with_reducible apply Tab.wf_filter
    | with_reducible apply Tab.wf_keep | with_reducible apply Tab.wf_merge | with_reducible exact Tab.wf_nil _
    | with_reducible apply Mem.bytes_keep | with_reducible apply Mem.pool_keep | with_reducible apply Mem.basin_keep
    | with_reducible apply Keeps.mem | with_reducible exact Mem.wf_empty | with_reducible apply foldlP_keep
    | with_reducible refine foldlP_keep_eq (by assumption) ?_ ?_ | with_reducible apply foldlQ_keep
    | with_reducible refine foldlQ_keep_eq (by assumption) ?_ ?_ | with_reducible apply OptKeeps.map
    | with_reducible exact OptKeeps.none | with_reducible apply OptKeeps.some | with_reducible apply SumKeeps.of_inl
    | with_reducible apply SumKeeps.of_inr | with_reducible apply id_keep | with_reducible apply ite_keep
    | with_reducible apply Keeps1.fst | with_reducible apply Keeps2.snd | with_reducible apply next_keep
    | with_reducible apply fault_keep | split | dsimp only | dsimp +zetaDelta only
    )
theorem State.vxLcRebuild_keep_eq {s : State} {c : Nat} {p : Push} {o : Op} {seen : Seen} {s' : State} {x' : Act} (e
    : State.vxLcRebuild s c p o seen = (s', x')) (hwf : Keeps s) : Keeps s' := by
  have k : Keeps1 (State.vxLcRebuild s c p o seen) := State.vxLcRebuild_keep  hwf
  rw [e] at k
  exact k

theorem State.vxLcFlip_keep {s : State} {c : Nat} {p : Push} (hwf : Keeps s) : Keeps1 (State.vxLcFlip s c p) := by
  unfold State.vxLcFlip
  repeat' (first
    | with_reducible assumption | extract_lets | (lift_lets; extract_lets) | intro _
    | with_reducible apply State.logPairFault_keep | with_reducible apply State.requestFlip_keep
    | with_reducible apply State.done_keep
    | simp only [Keeps1.mk_iff] | simp only [Keeps2.mk_iff]
    | simp only [Keeps.mk_iff] | with_reducible apply foldl_keep | with_reducible apply foldlM_keep
    | with_reducible apply iteM_keep | (simp only [Mem.wf_mk]; refine ⟨?_, ?_, ?_⟩)
    | with_reducible apply Tab.wf_put | with_reducible apply Tab.wf_putAll | with_reducible apply Tab.wf_filter
    | with_reducible apply Tab.wf_keep | with_reducible apply Tab.wf_merge | with_reducible exact Tab.wf_nil _
    | with_reducible apply Mem.bytes_keep | with_reducible apply Mem.pool_keep | with_reducible apply Mem.basin_keep
    | with_reducible apply Keeps.mem | with_reducible exact Mem.wf_empty | with_reducible apply foldlP_keep
    | with_reducible refine foldlP_keep_eq (by assumption) ?_ ?_ | with_reducible apply foldlQ_keep
    | with_reducible refine foldlQ_keep_eq (by assumption) ?_ ?_ | with_reducible apply OptKeeps.map
    | with_reducible exact OptKeeps.none | with_reducible apply OptKeeps.some | with_reducible apply SumKeeps.of_inl
    | with_reducible apply SumKeeps.of_inr | with_reducible apply id_keep | with_reducible apply ite_keep
    | with_reducible apply Keeps1.fst | with_reducible apply Keeps2.snd | with_reducible apply next_keep
    | with_reducible apply fault_keep | split | dsimp only | dsimp +zetaDelta only
    )
theorem State.vxLcFlip_keep_eq {s : State} {c : Nat} {p : Push} {s' : State} {x' : Act} (e : State.vxLcFlip s c p =
    (s', x')) (hwf : Keeps s) : Keeps s' := by
  have k : Keeps1 (State.vxLcFlip s c p) := State.vxLcFlip_keep  hwf
  rw [e] at k
  exact k

theorem State.vxRegionClear_keep {s : State} {c : Nat} {o : Op} (hwf : Keeps s) : Keeps1 (State.vxRegionClear s c
    o) := by
  unfold State.vxRegionClear
  repeat' (first
    | with_reducible assumption | extract_lets | (lift_lets; extract_lets) | intro _
    | with_reducible apply State.updCore_keep | with_reducible apply State.done_keep | simp only [Keeps1.mk_iff]
    | simp only [Keeps.mk_iff] | with_reducible apply Keeps.mem | with_reducible exact Mem.wf_empty
    | with_reducible apply ite_keep | with_reducible apply Keeps1.fst | split | dsimp only | dsimp +zetaDelta only
    )
theorem State.vxRegionClear_keep_eq {s : State} {c : Nat} {o : Op} {s' : State} {x' : Act} (e :
    State.vxRegionClear s c o = (s', x')) (hwf : Keeps s) : Keeps s' := by
  have k : Keeps1 (State.vxRegionClear s c o) := State.vxRegionClear_keep  hwf
  rw [e] at k
  exact k

theorem State.vxNarrow_keep {s : State} {c : Nat} {p : Push} {ncw : Nat} {src : Desc} {dst : Desc} {st : Desc} {seen
    : Seen} (hwf : Keeps s) : Keeps1 (State.vxNarrow s c p ncw src dst st seen) := by
  unfold State.vxNarrow
  repeat' (first
    | with_reducible assumption | extract_lets | (lift_lets; extract_lets) | intro _
    | with_reducible apply State.meet_keep | with_reducible refine State.meet_keep_eq (by assumption) ?_
    | with_reducible apply State.writeRow_keep | with_reducible apply State.writeNat_keep
    | with_reducible apply State.writeVA_keep | with_reducible apply State.done_keep
    | with_reducible apply State.poisonDesc_keep | with_reducible apply State.poisonVA_keep
    | simp only [Keeps1.mk_iff] | simp only [Keeps2.mk_iff]
    | simp only [Keeps.mk_iff] | with_reducible apply foldl_keep | with_reducible apply foldlM_keep
    | with_reducible apply iteM_keep | (simp only [Mem.wf_mk]; refine ⟨?_, ?_, ?_⟩)
    | with_reducible apply Tab.wf_put | with_reducible apply Tab.wf_putAll | with_reducible apply Tab.wf_filter
    | with_reducible apply Tab.wf_keep | with_reducible apply Tab.wf_merge | with_reducible exact Tab.wf_nil _
    | with_reducible apply Mem.bytes_keep | with_reducible apply Mem.pool_keep | with_reducible apply Mem.basin_keep
    | with_reducible apply Keeps.mem | with_reducible exact Mem.wf_empty | with_reducible apply foldlP_keep
    | with_reducible refine foldlP_keep_eq (by assumption) ?_ ?_ | with_reducible apply foldlQ_keep
    | with_reducible refine foldlQ_keep_eq (by assumption) ?_ ?_ | with_reducible apply OptKeeps.map
    | with_reducible exact OptKeeps.none | with_reducible apply OptKeeps.some | with_reducible apply SumKeeps.of_inl
    | with_reducible apply SumKeeps.of_inr | with_reducible apply id_keep | with_reducible apply ite_keep
    | with_reducible apply Keeps1.fst | with_reducible apply Keeps2.snd | with_reducible apply next_keep
    | with_reducible apply fault_keep | split | dsimp only | dsimp +zetaDelta only
    )
theorem State.vxNarrow_keep_eq {s : State} {c : Nat} {p : Push} {ncw : Nat} {src : Desc} {dst : Desc} {st : Desc}
    {seen : Seen} {s' : State} {x' : Act} (e : State.vxNarrow s c p ncw src dst st seen = (s', x')) (hwf : Keeps s)
    : Keeps s' := by
  have k : Keeps1 (State.vxNarrow s c p ncw src dst st seen) := State.vxNarrow_keep  hwf
  rw [e] at k
  exact k

theorem State.prepareBooks_keep {s : State} {c : Nat} {part : Nat} {p : Push} {d : Desc} (hwf : Keeps s) :
    SumKeeps (State.prepareBooks s c part p d) := by
  unfold State.prepareBooks
  repeat' (first
    | with_reducible assumption | extract_lets | (lift_lets; extract_lets) | intro _
    | with_reducible apply State.prepare_keep | with_reducible refine State.prepare_keep_go (by assumption) ?_
    | with_reducible refine State.prepare_keep_wait (by assumption) ?_ | simp only [Keeps1.mk_iff]
    | simp only [Keeps2.mk_iff] | simp only [Keeps.mk_iff] | with_reducible apply foldl_keep
    | with_reducible apply Keeps.mem | with_reducible exact Mem.wf_empty | with_reducible apply foldlP_keep
    | with_reducible refine foldlP_keep_eq (by assumption) ?_ ?_ | with_reducible apply foldlQ_keep
    | with_reducible refine foldlQ_keep_eq (by assumption) ?_ ?_ | with_reducible apply ite_keep
    | with_reducible apply SumKeeps.of_inl | with_reducible apply SumKeeps.of_inr | simp only [Prep.keeps_go]
    | simp only [Prep.keeps_wait] | with_reducible apply Keeps1.fst | with_reducible apply Keeps2.snd | split
    | dsimp only | dsimp +zetaDelta only
    )
theorem State.prepareBooks_keep_inl {s : State} {c : Nat} {part : Nat} {p : Push} {d : Desc} {s' : State} {x' :
    Books} (e : State.prepareBooks s c part p d = .inl (s', x')) (hwf : Keeps s) : Keeps s' := by
  have k : SumKeeps (State.prepareBooks s c part p d) := State.prepareBooks_keep  hwf
  rw [e] at k
  exact k.inl _ rfl
theorem State.prepareBooks_keep_inl' {s : State} {c : Nat} {part : Nat} {p : Push} {d : Desc} {r : State × Books}
    (e : State.prepareBooks s c part p d = .inl r) (hwf : Keeps s) : Keeps1 r := by
  have k : SumKeeps (State.prepareBooks s c part p d) := State.prepareBooks_keep  hwf
  rw [e] at k
  exact k.inl _ rfl
theorem State.prepareBooks_keep_inr {s : State} {c : Nat} {part : Nat} {p : Push} {d : Desc} {s' : State} {x' :
    Act} (e : State.prepareBooks s c part p d = .inr (s', x')) (hwf : Keeps s) : Keeps s' := by
  have k : SumKeeps (State.prepareBooks s c part p d) := State.prepareBooks_keep  hwf
  rw [e] at k
  exact k.inr _ rfl
theorem State.prepareBooks_keep_inr' {s : State} {c : Nat} {part : Nat} {p : Push} {d : Desc} {r : State × Act} (e
    : State.prepareBooks s c part p d = .inr r) (hwf : Keeps s) : Keeps1 r := by
  have k : SumKeeps (State.prepareBooks s c part p d) := State.prepareBooks_keep  hwf
  rw [e] at k
  exact k.inr _ rfl

theorem State.putPieces_keep {s : State} {part va : Nat} {l : List Piece} (hwf : Keeps s) : Keeps (State.putPieces s part va l) := by
  induction l generalizing s part va with
  | nil => (try unfold State.putPieces); exact hwf
  | cons x t ih =>
    obtain ⟨w, y⟩ := x
    cases y
    all_goals unfold State.putPieces
    repeat' (first
      | with_reducible assumption | extract_lets | (lift_lets; extract_lets) | intro _ | with_reducible apply ih
      | with_reducible apply State.poisonVA_keep | with_reducible apply State.writeVA_keep
      | with_reducible apply ite_keep | split | dsimp only | dsimp +zetaDelta only
      )

theorem State.writeBlocks_keep {s : State} {part : Nat} {d : Desc} {k : Books} {blocks : List (List Piece × List
    Piece)} (hwf : Keeps s) : Keeps (State.writeBlocks s part d k blocks) := by
  unfold State.writeBlocks
  repeat' (first
    | with_reducible assumption | extract_lets | (lift_lets; extract_lets) | intro _
    | with_reducible apply State.concludeBank_keep | with_reducible apply State.putPieces_keep
    | simp only [Keeps1.mk_iff] | simp only [Keeps2.mk_iff] | simp only [Keeps.mk_iff]
    | with_reducible apply foldl_keep | with_reducible apply Keeps.mem | with_reducible exact Mem.wf_empty
    | with_reducible apply foldlP_keep | with_reducible refine foldlP_keep_eq (by assumption) ?_ ?_
    | with_reducible apply foldlQ_keep | with_reducible refine foldlQ_keep_eq (by assumption) ?_ ?_
    | with_reducible apply ite_keep | with_reducible apply Keeps1.fst | with_reducible apply Keeps2.snd | split
    | dsimp only | dsimp +zetaDelta only
    )

theorem State.vxCompress_keep {s : State} {c : Nat} {p : Push} {ncw : Nat} {src : Desc} {dst : Desc} {st : Desc}
    {seen : Seen} (hwf : Keeps s) : Keeps1 (State.vxCompress s c p ncw src dst st seen) := by
  unfold State.vxCompress
  repeat' (first
    | with_reducible assumption | extract_lets | (lift_lets; extract_lets) | intro _
    | with_reducible apply State.prepareBooks_keep
    | with_reducible refine State.prepareBooks_keep_inl (by assumption) ?_
    | with_reducible refine State.prepareBooks_keep_inl' (by assumption) ?_
    | with_reducible refine State.prepareBooks_keep_inr (by assumption) ?_
    | with_reducible refine State.prepareBooks_keep_inr' (by assumption) ?_
    | with_reducible refine Banks.ite_keep_ok (by assumption) ?_ ?_
    | with_reducible refine Banks.ite_keep_act (by assumption) ?_ ?_ | simp only [Banks.keeps_ok]
    | simp only [Banks.keeps_act] | simp only [Prep.keeps_go] | simp only [Prep.keeps_wait]
    | with_reducible apply State.meet_keep | with_reducible refine State.meet_keep_eq (by assumption) ?_
    | with_reducible apply State.writeBlocks_keep | with_reducible apply State.writeVA_keep
    | with_reducible apply State.done_keep | with_reducible apply State.poisonBlock_keep
    | with_reducible apply State.poisonVA_keep
    | simp only [Keeps1.mk_iff] | simp only [Keeps2.mk_iff]
    | simp only [Keeps.mk_iff] | with_reducible apply foldl_keep | with_reducible apply foldlM_keep
    | with_reducible apply iteM_keep | (simp only [Mem.wf_mk]; refine ⟨?_, ?_, ?_⟩)
    | with_reducible apply Tab.wf_put | with_reducible apply Tab.wf_putAll | with_reducible apply Tab.wf_filter
    | with_reducible apply Tab.wf_keep | with_reducible apply Tab.wf_merge | with_reducible exact Tab.wf_nil _
    | with_reducible apply Mem.bytes_keep | with_reducible apply Mem.pool_keep | with_reducible apply Mem.basin_keep
    | with_reducible apply Keeps.mem | with_reducible exact Mem.wf_empty | with_reducible apply foldlP_keep
    | with_reducible refine foldlP_keep_eq (by assumption) ?_ ?_ | with_reducible apply foldlQ_keep
    | with_reducible refine foldlQ_keep_eq (by assumption) ?_ ?_ | with_reducible apply OptKeeps.map
    | with_reducible exact OptKeeps.none | with_reducible apply OptKeeps.some | with_reducible apply SumKeeps.of_inl
    | with_reducible apply SumKeeps.of_inr | with_reducible apply id_keep | with_reducible apply ite_keep
    | with_reducible apply Keeps1.fst | with_reducible apply Keeps2.snd | with_reducible apply next_keep
    | with_reducible apply fault_keep | split | dsimp only | dsimp +zetaDelta only
    )
theorem State.vxCompress_keep_eq {s : State} {c : Nat} {p : Push} {ncw : Nat} {src : Desc} {dst : Desc} {st : Desc}
    {seen : Seen} {s' : State} {x' : Act} (e : State.vxCompress s c p ncw src dst st seen = (s', x')) (hwf : Keeps
    s) : Keeps s' := by
  have k : Keeps1 (State.vxCompress s c p ncw src dst st seen) := State.vxCompress_keep  hwf
  rw [e] at k
  exact k

theorem State.vxVcvt_keep {s : State} {c : Nat} {p : Push} {o : Op} {seen : Seen} (hwf : Keeps s) : Keeps1
    (State.vxVcvt s c p o seen) := by
  unfold State.vxVcvt
  repeat' (first
    | with_reducible assumption | extract_lets | (lift_lets; extract_lets) | intro _
    | with_reducible apply State.vxCompress_keep | with_reducible refine State.vxCompress_keep_eq (by assumption) ?_
    | with_reducible apply State.vxNarrow_keep | with_reducible refine State.vxNarrow_keep_eq (by assumption) ?_
    | simp only [Keeps1.mk_iff] | with_reducible exact Mem.wf_empty | with_reducible apply ite_keep
    | with_reducible apply Keeps1.fst | split | dsimp only | dsimp +zetaDelta only
    )
theorem State.vxVcvt_keep_eq {s : State} {c : Nat} {p : Push} {o : Op} {seen : Seen} {s' : State} {x' : Act} (e :
    State.vxVcvt s c p o seen = (s', x')) (hwf : Keeps s) : Keeps s' := by
  have k : Keeps1 (State.vxVcvt s c p o seen) := State.vxVcvt_keep  hwf
  rw [e] at k
  exact k

end Sys2Proof.Machine
end

