-- ==== Sys2Proof/Laws/MemDma.lean ====
section
/-! SUPPORT. Every operation of Machine/Dma.lean keeps the canonical form of the byte memories. -/

namespace Sys2Proof.Machine

set_option linter.unusedVariables false
set_option linter.unusedSimpArgs false
set_option linter.unusedTactic false
set_option linter.unreachableTactic false


theorem State.writeRowBad_keep {s : State} {part : Nat} {d : Desc} {r : Nat} {codes : List Nat} {bad : List Nat}
    (hwf : Keeps s) : Keeps (State.writeRowBad s part d r codes bad) := by
  unfold State.writeRowBad
  repeat' (first
    | with_reducible assumption | extract_lets | (lift_lets; extract_lets) | intro _
    | with_reducible apply State.writeRow_keep | with_reducible apply State.markVA_keep | simp only [Keeps1.mk_iff]
    | simp only [Keeps2.mk_iff] | with_reducible apply foldl_keep | with_reducible apply foldlP_keep
    | with_reducible refine foldlP_keep_eq (by assumption) ?_ ?_ | with_reducible apply foldlQ_keep
    | with_reducible refine foldlQ_keep_eq (by assumption) ?_ ?_ | with_reducible apply ite_keep
    | with_reducible apply Keeps1.fst | with_reducible apply Keeps2.snd | split | dsimp only | dsimp +zetaDelta only
    )

theorem State.dxCopyPlain_keep {s : State} {c : Nat} {p : Push} {dst : Desc} {src : Desc} {seen : Seen} (hwf : Keeps
    s) : Keeps1 (State.dxCopyPlain s c p dst src seen) := by
  unfold State.dxCopyPlain
  repeat' (first
    | with_reducible assumption | extract_lets | (lift_lets; extract_lets) | intro _
    | with_reducible apply State.poisonDesc_keep | with_reducible apply State.done_keep
    | with_reducible apply State.writeRowBad_keep | with_reducible apply State.noteSegs_keep
    | simp only [Keeps1.mk_iff] | simp only [Keeps2.mk_iff]
    | simp only [Keeps.mk_iff] | with_reducible apply foldl_keep | with_reducible apply foldlM_keep
    | with_reducible apply iteM_keep | (simp only [Mem.wf_mk]; refine ⟨?_, ?_, ?_⟩)
    | with_reducible apply Tab.wf_put | with_reducible apply Tab.wf_putAll | with_reducible apply Tab.wf_filter
    | with_reducible apply Tab.wf_keep | with_reducible apply Tab.wf_merge | with_reducible exact Tab.wf_nil _
    | with_reducible apply Mem.bytes_keep | with_reducible apply Mem.pool_keep | with_reducible apply Mem.basin_keep
    | with_reducible apply Keeps.mem | with_reducible exact Mem.wf_empty | with_reducible apply foldlP_keep
    | with_reducible refine foldlP_keep_eq (by assumption) ?_ ?_ | with_reducible apply foldlQ_keep
    | with_reducible refine foldlQ_keep_eq (by assumption) ?_ ?_ | with_reducible apply OptKeeps.map
    | with_reducible exact OptKeeps.none | with_reducible apply OptKeeps.some | with_reducible apply SumKeeps.of_inl
    | with_reducible apply SumKeeps.of_inr | with_reducible apply id_keep | with_reducible apply ite_keep
    | with_reducible apply Keeps1.fst | with_reducible apply Keeps2.snd | with_reducible apply next_keep
    | with_reducible apply fault_keep | split | dsimp only | dsimp +zetaDelta only
    )
theorem State.dxCopyPlain_keep_eq {s : State} {c : Nat} {p : Push} {dst : Desc} {src : Desc} {seen : Seen} {s' :
    State} {x' : Act} (e : State.dxCopyPlain s c p dst src seen = (s', x')) (hwf : Keeps s) : Keeps s' := by
  have k : Keeps1 (State.dxCopyPlain s c p dst src seen) := State.dxCopyPlain_keep  hwf
  rw [e] at k
  exact k

theorem State.dxCopyBlocks_keep {s : State} {c : Nat} {p : Push} {dst : Desc} {src : Desc} {seen : Seen} (hwf :
    Keeps s) : Keeps1 (State.dxCopyBlocks s c p dst src seen) := by
  unfold State.dxCopyBlocks
  repeat' (first
    | with_reducible assumption | extract_lets | (lift_lets; extract_lets) | intro _
    | with_reducible apply State.latchAll_keep | with_reducible refine State.latchAll_keep_act (by assumption) ?_
    | with_reducible refine State.latchAll_keep_ok (by assumption) ?_ | with_reducible apply State.prepareBooks_keep
    | with_reducible refine State.prepareBooks_keep_inl (by assumption) ?_
    | with_reducible refine State.prepareBooks_keep_inl' (by assumption) ?_
    | with_reducible refine State.prepareBooks_keep_inr (by assumption) ?_
    | with_reducible refine State.prepareBooks_keep_inr' (by assumption) ?_
    | with_reducible refine Banks.ite_keep_ok (by assumption) ?_ ?_
    | with_reducible refine Banks.ite_keep_act (by assumption) ?_ ?_ | simp only [Banks.keeps_ok]
    | simp only [Banks.keeps_act] | simp only [Prep.keeps_go] | simp only [Prep.keeps_wait]
    | with_reducible apply State.writeBlocks_keep | with_reducible apply State.poisonBlock_keep
    | with_reducible apply State.done_keep | with_reducible apply State.noteSegs_keep
    | simp only [Keeps1.mk_iff] | simp only [Keeps2.mk_iff]
    | simp only [Keeps.mk_iff] | with_reducible apply foldl_keep | with_reducible apply foldlM_keep
    | with_reducible apply iteM_keep | (simp only [Mem.wf_mk]; refine ⟨?_, ?_, ?_⟩)
    | with_reducible apply Tab.wf_put | with_reducible apply Tab.wf_putAll | with_reducible apply Tab.wf_filter
    | with_reducible apply Tab.wf_keep | with_reducible apply Tab.wf_merge | with_reducible exact Tab.wf_nil _
    | with_reducible apply Mem.bytes_keep | with_reducible apply Mem.pool_keep | with_reducible apply Mem.basin_keep
    | with_reducible apply Keeps.mem | with_reducible exact Mem.wf_empty | with_reducible apply foldlP_keep
    | with_reducible refine foldlP_keep_eq (by assumption) ?_ ?_ | with_reducible apply foldlQ_keep
    | with_reducible refine foldlQ_keep_eq (by assumption) ?_ ?_ | with_reducible apply OptKeeps.map
    | with_reducible exact OptKeeps.none | with_reducible apply OptKeeps.some | with_reducible apply SumKeeps.of_inl
    | with_reducible apply SumKeeps.of_inr | with_reducible apply id_keep | with_reducible apply ite_keep
    | with_reducible apply Keeps1.fst | with_reducible apply Keeps2.snd | with_reducible apply next_keep
    | with_reducible apply fault_keep | split | dsimp only | dsimp +zetaDelta only
    )
theorem State.dxCopyBlocks_keep_eq {s : State} {c : Nat} {p : Push} {dst : Desc} {src : Desc} {seen : Seen} {s' :
    State} {x' : Act} (e : State.dxCopyBlocks s c p dst src seen = (s', x')) (hwf : Keeps s) : Keeps s' := by
  have k : Keeps1 (State.dxCopyBlocks s c p dst src seen) := State.dxCopyBlocks_keep  hwf
  rw [e] at k
  exact k

theorem State.dxCopy_keep {s : State} {c : Nat} {p : Push} {seen : Seen} (hwf : Keeps s) : Keeps1 (State.dxCopy s
    c p seen) := by
  unfold State.dxCopy
  repeat' (first
    | with_reducible assumption | extract_lets | (lift_lets; extract_lets) | intro _
    | with_reducible apply State.dxCopyBlocks_keep
    | with_reducible refine State.dxCopyBlocks_keep_eq (by assumption) ?_
    | with_reducible apply State.dxCopyPlain_keep
    | with_reducible refine State.dxCopyPlain_keep_eq (by assumption) ?_ | simp only [Keeps1.mk_iff]
    | simp only [Keeps.mk_iff] | with_reducible apply Keeps.mem | with_reducible exact Mem.wf_empty
    | with_reducible apply ite_keep | with_reducible apply Keeps1.fst | split | dsimp only | dsimp +zetaDelta only
    )
theorem State.dxCopy_keep_eq {s : State} {c : Nat} {p : Push} {seen : Seen} {s' : State} {x' : Act} (e :
    State.dxCopy s c p seen = (s', x')) (hwf : Keeps s) : Keeps s' := by
  have k : Keeps1 (State.dxCopy s c p seen) := State.dxCopy_keep  hwf
  rw [e] at k
  exact k

theorem State.moveElem_keep {s : State} {ue : List Nat} {part : Nat} {src : Desc} {dst : Desc} {rs : Nat} {rd :
    Nat} {range : Bool} {gather : Bool} (hwf : Keeps s) : Keeps1 (State.moveElem s ue part src dst rs rd range
    gather) := by
  unfold State.moveElem
  repeat' (first
    | with_reducible assumption | extract_lets | (lift_lets; extract_lets) | intro _
    | with_reducible apply State.poisonRow_keep | with_reducible apply State.writeRow_keep
    | with_reducible apply State.noteSegs_keep | simp only [Keeps1.mk_iff] | with_reducible apply ite_keep
    | with_reducible apply Keeps1.fst | split | dsimp only | dsimp +zetaDelta only
    )
theorem State.moveElem_keep_eq {s : State} {ue : List Nat} {part : Nat} {src : Desc} {dst : Desc} {rs : Nat} {rd :
    Nat} {range : Bool} {gather : Bool} {s' : State} {x' : ElemFault} (e : State.moveElem s ue part src dst rs rd
    range gather = (s', x')) (hwf : Keeps s) : Keeps s' := by
  have k : Keeps1 (State.moveElem s ue part src dst rs rd range gather) := State.moveElem_keep  hwf
  rw [e] at k
  exact k

theorem State.dxIndexed_keep {s : State} {c : Nat} {p : Push} {gather : Bool} {seen : Seen} (hwf : Keeps s) : Keeps1
    (State.dxIndexed s c p gather seen) := by
  unfold State.dxIndexed
  repeat' (first
    | with_reducible assumption | extract_lets | (lift_lets; extract_lets) | intro _
    | with_reducible apply State.poisonRow_keep | with_reducible apply State.done_keep
    | with_reducible apply State.moveElem_keep | with_reducible refine State.moveElem_keep_eq (by assumption) ?_
    | simp only [Keeps1.mk_iff] | simp only [Keeps2.mk_iff]
    | simp only [Keeps.mk_iff] | with_reducible apply foldl_keep | with_reducible apply foldlM_keep
    | with_reducible apply iteM_keep | (simp only [Mem.wf_mk]; refine ⟨?_, ?_, ?_⟩)
    | with_reducible apply Tab.wf_put | with_reducible apply Tab.wf_putAll | with_reducible apply Tab.wf_filter
    | with_reducible apply Tab.wf_keep | with_reducible apply Tab.wf_merge | with_reducible exact Tab.wf_nil _
    | with_reducible apply Mem.bytes_keep | with_reducible apply Mem.pool_keep | with_reducible apply Mem.basin_keep
    | with_reducible apply Keeps.mem | with_reducible exact Mem.wf_empty | with_reducible apply foldlP_keep
    | with_reducible refine foldlP_keep_eq (by assumption) ?_ ?_ | with_reducible apply foldlQ_keep
    | with_reducible refine foldlQ_keep_eq (by assumption) ?_ ?_ | with_reducible apply OptKeeps.map
    | with_reducible exact OptKeeps.none | with_reducible apply OptKeeps.some | with_reducible apply SumKeeps.of_inl
    | with_reducible apply SumKeeps.of_inr | with_reducible apply id_keep | with_reducible apply ite_keep
    | with_reducible apply Keeps1.fst | with_reducible apply Keeps2.snd | with_reducible apply next_keep
    | with_reducible apply fault_keep | split | dsimp only | dsimp +zetaDelta only
    )
theorem State.dxIndexed_keep_eq {s : State} {c : Nat} {p : Push} {gather : Bool} {seen : Seen} {s' : State} {x' :
    Act} (e : State.dxIndexed s c p gather seen = (s', x')) (hwf : Keeps s) : Keeps s' := by
  have k : Keeps1 (State.dxIndexed s c p gather seen) := State.dxIndexed_keep  hwf
  rw [e] at k
  exact k

theorem State.openBooks_keep {s : State} {c : Nat} {p : Push} {st : Stream} (hwf : Keeps s) :
    BanksKeeps (State.openBooks s c p st) := by
  unfold State.openBooks
  repeat' (first
    | with_reducible assumption | extract_lets | with_reducible refine State.latchAll_keep_ok (by assumption) ?_
    | with_reducible refine State.latchAll_keep_act (by assumption) ?_ | simp only [Banks.keeps_ok]
    | simp only [Banks.keeps_act] | split | dsimp only)
theorem State.openBooks_keep_ok {s : State} {c : Nat} {p : Push} {st : Stream} {s' : State} {x : List Nat}
    (e : State.openBooks s c p st = .ok s' x) (hwf : Keeps s) : Keeps s' := by
  have k : BanksKeeps (State.openBooks s c p st) := State.openBooks_keep hwf
  rw [e] at k
  exact k
theorem State.openBooks_keep_act {s : State} {c : Nat} {p : Push} {st : Stream} {s' : State} {x : Act}
    (e : State.openBooks s c p st = .act s' x) (hwf : Keeps s) : Keeps s' := by
  have k : BanksKeeps (State.openBooks s c p st) := State.openBooks_keep hwf
  rw [e] at k
  exact k

theorem State.dxStreamOpen_keep {s : State} {c : Nat} {p : Push} {o : Op} (hwf : Keeps s) : Keeps1
    (State.dxStreamOpen s c p o) := by
  unfold State.dxStreamOpen
  repeat' (first
    | with_reducible assumption | extract_lets | (lift_lets; extract_lets) | intro _
    | with_reducible apply State.openBooks_keep | with_reducible refine State.openBooks_keep_act (by assumption) ?_
    | with_reducible refine State.openBooks_keep_ok (by assumption) ?_
    | with_reducible refine Banks.ite_keep_ok (by assumption) ?_ ?_
    | with_reducible refine Banks.ite_keep_act (by assumption) ?_ ?_ | simp only [Banks.keeps_ok]
    | simp only [Banks.keeps_act] | with_reducible apply State.addLatch_keep
    | with_reducible apply State.setStream_keep | with_reducible apply State.done_keep
    | simp only [Keeps1.mk_iff] | simp only [Keeps2.mk_iff]
    | simp only [Keeps.mk_iff] | with_reducible apply foldl_keep | with_reducible apply foldlM_keep
    | with_reducible apply iteM_keep | (simp only [Mem.wf_mk]; refine ⟨?_, ?_, ?_⟩)
    | with_reducible apply Tab.wf_put | with_reducible apply Tab.wf_putAll | with_reducible apply Tab.wf_filter
    | with_reducible apply Tab.wf_keep | with_reducible apply Tab.wf_merge | with_reducible exact Tab.wf_nil _
    | with_reducible apply Mem.bytes_keep | with_reducible apply Mem.pool_keep | with_reducible apply Mem.basin_keep
    | with_reducible apply Keeps.mem | with_reducible exact Mem.wf_empty | with_reducible apply foldlP_keep
    | with_reducible refine foldlP_keep_eq (by assumption) ?_ ?_ | with_reducible apply foldlQ_keep
    | with_reducible refine foldlQ_keep_eq (by assumption) ?_ ?_ | with_reducible apply OptKeeps.map
    | with_reducible exact OptKeeps.none | with_reducible apply OptKeeps.some | with_reducible apply SumKeeps.of_inl
    | with_reducible apply SumKeeps.of_inr | with_reducible apply id_keep | with_reducible apply ite_keep
    | with_reducible apply Keeps1.fst | with_reducible apply Keeps2.snd | with_reducible apply next_keep
    | with_reducible apply fault_keep | split | dsimp only | dsimp +zetaDelta only
    )
theorem State.dxStreamOpen_keep_eq {s : State} {c : Nat} {p : Push} {o : Op} {s' : State} {x' : Act} (e :
    State.dxStreamOpen s c p o = (s', x')) (hwf : Keeps s) : Keeps s' := by
  have k : Keeps1 (State.dxStreamOpen s c p o) := State.dxStreamOpen_keep  hwf
  rw [e] at k
  exact k

theorem State.dxStreamClose_keep {s : State} {c : Nat} {o : Op} (hwf : Keeps s) : Keeps1 (State.dxStreamClose s c o)
    := by
  unfold State.dxStreamClose
  repeat' (first
    | with_reducible assumption | extract_lets | (lift_lets; extract_lets) | intro _
    | with_reducible apply State.setStream_keep | with_reducible apply State.unlatch_keep
    | with_reducible apply State.done_keep
    | simp only [Keeps1.mk_iff] | simp only [Keeps2.mk_iff]
    | simp only [Keeps.mk_iff] | with_reducible apply foldl_keep | with_reducible apply foldlM_keep
    | with_reducible apply iteM_keep | (simp only [Mem.wf_mk]; refine ⟨?_, ?_, ?_⟩)
    | with_reducible apply Tab.wf_put | with_reducible apply Tab.wf_putAll | with_reducible apply Tab.wf_filter
    | with_reducible apply Tab.wf_keep | with_reducible apply Tab.wf_merge | with_reducible exact Tab.wf_nil _
    | with_reducible apply Mem.bytes_keep | with_reducible apply Mem.pool_keep | with_reducible apply Mem.basin_keep
    | with_reducible apply Keeps.mem | with_reducible exact Mem.wf_empty | with_reducible apply foldlP_keep
    | with_reducible refine foldlP_keep_eq (by assumption) ?_ ?_ | with_reducible apply foldlQ_keep
    | with_reducible refine foldlQ_keep_eq (by assumption) ?_ ?_ | with_reducible apply OptKeeps.map
    | with_reducible exact OptKeeps.none | with_reducible apply OptKeeps.some | with_reducible apply SumKeeps.of_inl
    | with_reducible apply SumKeeps.of_inr | with_reducible apply id_keep | with_reducible apply ite_keep
    | with_reducible apply Keeps1.fst | with_reducible apply Keeps2.snd | with_reducible apply next_keep
    | with_reducible apply fault_keep | split | dsimp only | dsimp +zetaDelta only
    )
theorem State.dxStreamClose_keep_eq {s : State} {c : Nat} {o : Op} {s' : State} {x' : Act} (e : State.dxStreamClose
    s c o = (s', x')) (hwf : Keeps s) : Keeps s' := by
  have k : Keeps1 (State.dxStreamClose s c o) := State.dxStreamClose_keep  hwf
  rw [e] at k
  exact k

theorem State.streamBooks_keep {s : State} {c : Nat} {n : Nat} (hwf : Keeps s) : Keeps1 (State.streamBooks s c n) :=
    by
  unfold State.streamBooks
  repeat' (first
    | with_reducible assumption | extract_lets | (lift_lets; extract_lets) | intro _
    | with_reducible apply State.prepare_keep | with_reducible refine State.prepare_keep_go (by assumption) ?_
    | with_reducible refine State.prepare_keep_wait (by assumption) ?_
    | with_reducible refine Banks.ite_keep_ok (by assumption) ?_ ?_
    | with_reducible refine Banks.ite_keep_act (by assumption) ?_ ?_ | simp only [Banks.keeps_ok]
    | simp only [Banks.keeps_act] | simp only [Prep.keeps_go] | simp only [Prep.keeps_wait]
    | with_reducible apply State.setStream_keep
    | simp only [Keeps1.mk_iff] | simp only [Keeps2.mk_iff]
    | simp only [Keeps.mk_iff] | with_reducible apply foldl_keep | with_reducible apply foldlM_keep
    | with_reducible apply iteM_keep | (simp only [Mem.wf_mk]; refine ⟨?_, ?_, ?_⟩)
    | with_reducible apply Tab.wf_put | with_reducible apply Tab.wf_putAll | with_reducible apply Tab.wf_filter
    | with_reducible apply Tab.wf_keep | with_reducible apply Tab.wf_merge | with_reducible exact Tab.wf_nil _
    | with_reducible apply Mem.bytes_keep | with_reducible apply Mem.pool_keep | with_reducible apply Mem.basin_keep
    | with_reducible apply Keeps.mem | with_reducible exact Mem.wf_empty | with_reducible apply foldlP_keep
    | with_reducible refine foldlP_keep_eq (by assumption) ?_ ?_ | with_reducible apply foldlQ_keep
    | with_reducible refine foldlQ_keep_eq (by assumption) ?_ ?_ | with_reducible apply OptKeeps.map
    | with_reducible exact OptKeeps.none | with_reducible apply OptKeeps.some | with_reducible apply SumKeeps.of_inl
    | with_reducible apply SumKeeps.of_inr | with_reducible apply id_keep | with_reducible apply ite_keep
    | with_reducible apply Keeps1.fst | with_reducible apply Keeps2.snd | with_reducible apply next_keep
    | with_reducible apply fault_keep | split | dsimp only | dsimp +zetaDelta only
    )
theorem State.streamBooks_keep_eq {s : State} {c : Nat} {n : Nat} {s' : State} {x' : Option Books} (e :
    State.streamBooks s c n = (s', x')) (hwf : Keeps s) : Keeps s' := by
  have k : Keeps1 (State.streamBooks s c n) := State.streamBooks_keep  hwf
  rw [e] at k
  exact k

theorem State.fillChunk_keep {s : State} {c : Nat} {n : Nat} {k : Books} {ue : List Nat} (hwf : Keeps s) : Keeps
    (State.fillChunk s c n k ue) := by
  unfold State.fillChunk
  repeat' (first
    | with_reducible assumption | extract_lets | (lift_lets; extract_lets) | intro _
    | with_reducible apply State.putPieces_keep | with_reducible apply State.concludeBank_keep
    | with_reducible apply State.noteSegs_keep | with_reducible apply State.unlatch_keep
    | with_reducible apply State.setStream_keep | with_reducible apply State.updCore_keep
    | simp only [Keeps1.mk_iff] | simp only [Keeps2.mk_iff]
    | simp only [Keeps.mk_iff] | with_reducible apply foldl_keep | with_reducible apply foldlM_keep
    | with_reducible apply iteM_keep | (simp only [Mem.wf_mk]; refine ⟨?_, ?_, ?_⟩)
    | with_reducible apply Tab.wf_put | with_reducible apply Tab.wf_putAll | with_reducible apply Tab.wf_filter
    | with_reducible apply Tab.wf_keep | with_reducible apply Tab.wf_merge | with_reducible exact Tab.wf_nil _
    | with_reducible apply Mem.bytes_keep | with_reducible apply Mem.pool_keep | with_reducible apply Mem.basin_keep
    | with_reducible apply Keeps.mem | with_reducible exact Mem.wf_empty | with_reducible apply foldlP_keep
    | with_reducible refine foldlP_keep_eq (by assumption) ?_ ?_ | with_reducible apply foldlQ_keep
    | with_reducible refine foldlQ_keep_eq (by assumption) ?_ ?_ | with_reducible apply OptKeeps.map
    | with_reducible exact OptKeeps.none | with_reducible apply OptKeeps.some | with_reducible apply SumKeeps.of_inl
    | with_reducible apply SumKeeps.of_inr | with_reducible apply id_keep | with_reducible apply ite_keep
    | with_reducible apply Keeps1.fst | with_reducible apply Keeps2.snd | with_reducible apply next_keep
    | with_reducible apply fault_keep | split | dsimp only | dsimp +zetaDelta only
    )

end Sys2Proof.Machine
end

