-- ==== Sys2Proof/Laws/MemEngine.lean ====
section
/-! SUPPORT. Every operation of Machine/Engine.lean keeps the canonical form of the byte memories. -/

namespace Sys2Proof.Machine

set_option linter.unusedVariables false
set_option linter.unusedSimpArgs false
set_option linter.unusedTactic false
set_option linter.unreachableTactic false


theorem State.runPush_keep {s : State} {c : Nat} {p : Push} {seen : Seen} (hwf : Keeps s) : Keeps1 (State.runPush
    s c p seen) := by
  unfold State.runPush
  repeat' (first
    | with_reducible assumption | extract_lets | (lift_lets; extract_lets) | intro _
    | with_reducible apply State.vxRegionClear_keep
    | with_reducible refine State.vxRegionClear_keep_eq (by assumption) ?_
    | with_reducible apply State.dxStreamClose_keep
    | with_reducible refine State.dxStreamClose_keep_eq (by assumption) ?_
    | with_reducible apply State.dxStreamOpen_keep
    | with_reducible refine State.dxStreamOpen_keep_eq (by assumption) ?_
    | with_reducible apply State.vxLcRebuild_keep
    | with_reducible refine State.vxLcRebuild_keep_eq (by assumption) ?_
    | with_reducible apply State.axAccClear_keep | with_reducible refine State.axAccClear_keep_eq (by assumption) ?_
    | with_reducible apply State.axAccLoad_keep | with_reducible refine State.axAccLoad_keep_eq (by assumption) ?_
    | with_reducible apply State.dxIndexed_keep | with_reducible refine State.dxIndexed_keep_eq (by assumption) ?_
    | with_reducible apply State.vxLcFlip_keep | with_reducible refine State.vxLcFlip_keep_eq (by assumption) ?_
    | with_reducible apply State.axDrain_keep | with_reducible refine State.axDrain_keep_eq (by assumption) ?_
    | with_reducible apply State.qxJsend_keep | with_reducible refine State.qxJsend_keep_eq (by assumption) ?_
    | with_reducible apply State.vxVred_keep | with_reducible refine State.vxVred_keep_eq (by assumption) ?_
    | with_reducible apply State.vxVcvt_keep | with_reducible refine State.vxVcvt_keep_eq (by assumption) ?_
    | with_reducible apply State.dxCopy_keep | with_reducible refine State.dxCopy_keep_eq (by assumption) ?_
    | with_reducible apply State.qxRecv_keep | with_reducible refine State.qxRecv_keep_eq (by assumption) ?_
    | with_reducible apply State.qxSend_keep | with_reducible refine State.qxSend_keep_eq (by assumption) ?_
    | with_reducible apply State.axMma_keep | with_reducible refine State.axMma_keep_eq (by assumption) ?_
    | with_reducible apply State.vxVew_keep | with_reducible refine State.vxVew_keep_eq (by assumption) ?_
    | simp only [Keeps1.mk_iff] | simp only [Keeps.mk_iff] | with_reducible apply Keeps.mem
    | with_reducible exact Mem.wf_empty | with_reducible apply ite_keep | with_reducible apply Keeps1.fst | split
    | dsimp only | dsimp +zetaDelta only
    )
theorem State.runPush_keep_eq {s : State} {c : Nat} {p : Push} {seen : Seen} {s' : State} {x' : Act} (e :
    State.runPush s c p seen = (s', x')) (hwf : Keeps s) : Keeps s' := by
  have k : Keeps1 (State.runPush s c p seen) := State.runPush_keep  hwf
  rw [e] at k
  exact k

theorem State.chargeTraffic_keep {s : State} {c : Nat} {l : List (Nat × Nat × Bool)} (hwf : Keeps s) : Keeps
    (State.chargeTraffic s c l) := by
  unfold State.chargeTraffic
  repeat' (first
    | with_reducible assumption | extract_lets | (lift_lets; extract_lets) | intro _
    | with_reducible apply State.chargeExtent_keep | simp only [Keeps1.mk_iff] | simp only [Keeps2.mk_iff]
    | with_reducible apply foldl_keep | with_reducible apply foldlP_keep
    | with_reducible refine foldlP_keep_eq (by assumption) ?_ ?_ | with_reducible apply foldlQ_keep
    | with_reducible refine foldlQ_keep_eq (by assumption) ?_ ?_ | with_reducible apply ite_keep
    | with_reducible apply Keeps1.fst | with_reducible apply Keeps2.snd | split | dsimp only | dsimp +zetaDelta only
    )

theorem State.countClass_keep {s : State} {c : Nat} {cls : Nat} {n : Nat} (hwf : Keeps s) : Keeps
    (State.countClass s c cls n) := by
  unfold State.countClass
  repeat' (first
    | with_reducible assumption | extract_lets | (lift_lets; extract_lets) | intro _ | simp only [Keeps.mk_iff]
    | with_reducible apply Keeps.mem | with_reducible exact Mem.wf_empty | with_reducible apply ite_keep | split
    | dsimp only | dsimp +zetaDelta only
    )

theorem State.countDx_keep {s : State} {c : Nat} {p : Push} {l : List (Nat × Nat × Bool)} (hwf : Keeps s) : Keeps
    (State.countDx s c p l) := by
  unfold State.countDx
  repeat' (first
    | with_reducible assumption | extract_lets | (lift_lets; extract_lets) | intro _
    | with_reducible apply State.countClass_keep | simp only [Keeps1.mk_iff] | simp only [Keeps2.mk_iff]
    | with_reducible apply foldl_keep | with_reducible exact Mem.wf_empty | with_reducible apply foldlP_keep
    | with_reducible refine foldlP_keep_eq (by assumption) ?_ ?_ | with_reducible apply foldlQ_keep
    | with_reducible refine foldlQ_keep_eq (by assumption) ?_ ?_ | with_reducible apply ite_keep
    | with_reducible apply Keeps1.fst | with_reducible apply Keeps2.snd | split | dsimp only | dsimp +zetaDelta only
    )

theorem State.carryOut_keep {s : State} {c : Nat} {e : Engine} {p : Push} {seen : Seen} (hwf : Keeps s) : Keeps
    (State.carryOut s c e p seen) := by
  unfold State.carryOut
  repeat' (first
    | with_reducible assumption | extract_lets | (lift_lets; extract_lets) | intro _
    | with_reducible apply State.conclude_keep | with_reducible apply State.updReach_keep
    | with_reducible apply State.updCore_keep | with_reducible apply State.tick_keep
    | with_reducible apply State.runPush_keep | with_reducible refine State.runPush_keep_eq (by assumption) ?_
    | with_reducible apply State.unlatch_keep | with_reducible apply State.notePairs_keep
    | simp only [Keeps1.mk_iff] | simp only [Keeps2.mk_iff]
    | simp only [Keeps.mk_iff] | with_reducible apply foldl_keep | with_reducible apply foldlM_keep
    | with_reducible apply iteM_keep | (simp only [Mem.wf_mk]; refine ⟨?_, ?_, ?_⟩)
    | with_reducible apply Tab.wf_put | with_reducible apply Tab.wf_putAll | with_reducible apply Tab.wf_filter
    | with_reducible apply Tab.wf_keep | with_reducible apply Tab.wf_merge | with_reducible exact Tab.wf_nil _
    | with_reducible apply Mem.bytes_keep | with_reducible apply Mem.pool_keep | with_reducible apply Mem.basin_keep
    | with_reducible apply Keeps.mem | with_reducible exact Mem.wf_empty | with_reducible apply foldlP_keep
    | with_reducible refine foldlP_keep_eq (by assumption) ?_ ?_ | with_reducible apply foldlQ_keep
    | with_reducible refine foldlQ_keep_eq (by assumption) ?_ ?_ | with_reducible apply OptKeeps.map
    | with_reducible exact OptKeeps.none | with_reducible apply OptKeeps.some | with_reducible apply SumKeeps.of_inl
    | with_reducible apply SumKeeps.of_inr | with_reducible apply id_keep | with_reducible apply ite_keep
    | with_reducible apply Keeps1.fst | with_reducible apply Keeps2.snd | with_reducible apply next_keep
    | with_reducible apply fault_keep | split | dsimp only | dsimp +zetaDelta only
    )

theorem State.freezeArray_keep {s : State} {c : Nat} {p : Push} {seen : Seen} (hwf : Keeps s) : Keeps
    (State.freezeArray s c p seen) := by
  unfold State.freezeArray
  repeat' (first
    | with_reducible assumption | extract_lets | (lift_lets; extract_lets) | intro _
    | with_reducible apply State.addLatch_keep | with_reducible apply State.updCore_keep
    | simp only [Keeps1.mk_iff] | simp only [Keeps2.mk_iff]
    | simp only [Keeps.mk_iff] | with_reducible apply foldl_keep | with_reducible apply foldlM_keep
    | with_reducible apply iteM_keep | (simp only [Mem.wf_mk]; refine ⟨?_, ?_, ?_⟩)
    | with_reducible apply Tab.wf_put | with_reducible apply Tab.wf_putAll | with_reducible apply Tab.wf_filter
    | with_reducible apply Tab.wf_keep | with_reducible apply Tab.wf_merge | with_reducible exact Tab.wf_nil _
    | with_reducible apply Mem.bytes_keep | with_reducible apply Mem.pool_keep | with_reducible apply Mem.basin_keep
    | with_reducible apply Keeps.mem | with_reducible exact Mem.wf_empty | with_reducible apply foldlP_keep
    | with_reducible refine foldlP_keep_eq (by assumption) ?_ ?_ | with_reducible apply foldlQ_keep
    | with_reducible refine foldlQ_keep_eq (by assumption) ?_ ?_ | with_reducible apply OptKeeps.map
    | with_reducible exact OptKeeps.none | with_reducible apply OptKeeps.some | with_reducible apply SumKeeps.of_inl
    | with_reducible apply SumKeeps.of_inr | with_reducible apply id_keep | with_reducible apply ite_keep
    | with_reducible apply Keeps1.fst | with_reducible apply Keeps2.snd | with_reducible apply next_keep
    | with_reducible apply fault_keep | split | dsimp only | dsimp +zetaDelta only
    )

theorem State.beginNext_keep {s : State} {c : Nat} {e : Engine} {seen : Seen} (hwf : Keeps s) : Keeps
    (State.beginNext s c e seen) := by
  unfold State.beginNext
  repeat' (first
    | with_reducible assumption | extract_lets | (lift_lets; extract_lets) | intro _
    | with_reducible apply State.waitFor_keep | with_reducible apply State.chargeTraffic_keep
    | with_reducible apply State.countDx_keep | with_reducible apply State.freezeArray_keep
    | with_reducible apply State.carryOut_keep
    | simp only [Keeps1.mk_iff] | simp only [Keeps2.mk_iff]
    | simp only [Keeps.mk_iff] | with_reducible apply foldl_keep | with_reducible apply foldlM_keep
    | with_reducible apply iteM_keep | (simp only [Mem.wf_mk]; refine ⟨?_, ?_, ?_⟩)
    | with_reducible apply Tab.wf_put | with_reducible apply Tab.wf_putAll | with_reducible apply Tab.wf_filter
    | with_reducible apply Tab.wf_keep | with_reducible apply Tab.wf_merge | with_reducible exact Tab.wf_nil _
    | with_reducible apply Mem.bytes_keep | with_reducible apply Mem.pool_keep | with_reducible apply Mem.basin_keep
    | with_reducible apply Keeps.mem | with_reducible exact Mem.wf_empty | with_reducible apply foldlP_keep
    | with_reducible refine foldlP_keep_eq (by assumption) ?_ ?_ | with_reducible apply foldlQ_keep
    | with_reducible refine foldlQ_keep_eq (by assumption) ?_ ?_ | with_reducible apply OptKeeps.map
    | with_reducible exact OptKeeps.none | with_reducible apply OptKeeps.some | with_reducible apply SumKeeps.of_inl
    | with_reducible apply SumKeeps.of_inr | with_reducible apply id_keep | with_reducible apply ite_keep
    | with_reducible apply Keeps1.fst | with_reducible apply Keeps2.snd | with_reducible apply next_keep
    | with_reducible apply fault_keep | split | dsimp only | dsimp +zetaDelta only
    )

theorem execCommandBegin_keep {core : Nat} {engine : Engine} {seen : Seen} {s : State} (hwf : Keeps s) : OutKeeps
    (execCommandBegin core engine seen s) := by
  unfold execCommandBegin
  repeat' (first
    | with_reducible assumption | extract_lets | (lift_lets; extract_lets) | intro _
    | with_reducible apply State.beginNext_keep | with_reducible apply onUnit_keep | with_reducible apply ite_keep
    | with_reducible apply next_keep | with_reducible apply fault_keep | split | dsimp only | dsimp +zetaDelta only
    )

theorem engineOp_keep {core : Nat} {opc : Nat} {now : Option Seen} {s : State} {last : Op → Core → Bool} (hwf :
    Keeps s) : OutKeeps (engineOp core opc now s last) := by
  unfold engineOp
  repeat' (first
    | with_reducible assumption | extract_lets | (lift_lets; extract_lets) | intro _
    | with_reducible apply State.beginNext_keep | with_reducible apply State.pushOne_keep
    | with_reducible apply onOp_keep | simp only [Keeps.mk_iff] | with_reducible apply Keeps.mem
    | with_reducible exact Mem.wf_empty | with_reducible apply ite_keep | with_reducible apply next_keep
    | with_reducible apply fault_keep | split | dsimp only | dsimp +zetaDelta only
    )

theorem execMma_keep {core : Nat} {now : Option Seen} {s : State} (hwf : Keeps s) : OutKeeps (execMma core now s)
    := by
  unfold execMma
  repeat' (first
    | with_reducible assumption | extract_lets | (lift_lets; extract_lets) | intro _
    | with_reducible apply engineOp_keep | with_reducible apply ite_keep | with_reducible apply next_keep
    | with_reducible apply fault_keep | split | dsimp only | dsimp +zetaDelta only
    )

theorem execDrain_keep {core : Nat} {now : Option Seen} {s : State} (hwf : Keeps s) : OutKeeps (execDrain core now
    s) := by
  unfold execDrain
  repeat' (first
    | with_reducible assumption | extract_lets | (lift_lets; extract_lets) | intro _
    | with_reducible apply engineOp_keep | with_reducible apply ite_keep | with_reducible apply next_keep
    | with_reducible apply fault_keep | split | dsimp only | dsimp +zetaDelta only
    )

theorem execAccLoad_keep {core : Nat} {now : Option Seen} {s : State} (hwf : Keeps s) : OutKeeps (execAccLoad core
    now s) := by
  unfold execAccLoad
  repeat' (first
    | with_reducible assumption | extract_lets | (lift_lets; extract_lets) | intro _
    | with_reducible apply engineOp_keep | with_reducible apply ite_keep | with_reducible apply next_keep
    | with_reducible apply fault_keep | split | dsimp only | dsimp +zetaDelta only
    )

theorem execAccClear_keep {core : Nat} {now : Option Seen} {s : State} (hwf : Keeps s) : OutKeeps (execAccClear
    core now s) := by
  unfold execAccClear
  repeat' (first
    | with_reducible assumption | extract_lets | (lift_lets; extract_lets) | intro _
    | with_reducible apply engineOp_keep | with_reducible apply ite_keep | with_reducible apply next_keep
    | with_reducible apply fault_keep | split | dsimp only | dsimp +zetaDelta only
    )

theorem execVew_keep {core : Nat} {now : Option Seen} {s : State} (hwf : Keeps s) : OutKeeps (execVew core now s)
    := by
  unfold execVew
  repeat' (first
    | with_reducible assumption | extract_lets | (lift_lets; extract_lets) | intro _
    | with_reducible apply engineOp_keep | with_reducible apply ite_keep | with_reducible apply next_keep
    | with_reducible apply fault_keep | split | dsimp only | dsimp +zetaDelta only
    )

theorem execVred_keep {core : Nat} {now : Option Seen} {s : State} (hwf : Keeps s) : OutKeeps (execVred core now
    s) := by
  unfold execVred
  repeat' (first
    | with_reducible assumption | extract_lets | (lift_lets; extract_lets) | intro _
    | with_reducible apply engineOp_keep | with_reducible apply ite_keep | with_reducible apply next_keep
    | with_reducible apply fault_keep | split | dsimp only | dsimp +zetaDelta only
    )

theorem execVcvt_keep {core : Nat} {now : Option Seen} {s : State} (hwf : Keeps s) : OutKeeps (execVcvt core now
    s) := by
  unfold execVcvt
  repeat' (first
    | with_reducible assumption | extract_lets | (lift_lets; extract_lets) | intro _
    | with_reducible apply engineOp_keep | with_reducible apply ite_keep | with_reducible apply next_keep
    | with_reducible apply fault_keep | split | dsimp only | dsimp +zetaDelta only
    )

theorem execRegionClear_keep {core : Nat} {now : Option Seen} {s : State} (hwf : Keeps s) : OutKeeps
    (execRegionClear core now s) := by
  unfold execRegionClear
  repeat' (first
    | with_reducible assumption | extract_lets | (lift_lets; extract_lets) | intro _
    | with_reducible apply engineOp_keep | with_reducible apply ite_keep | with_reducible apply next_keep
    | with_reducible apply fault_keep | split | dsimp only | dsimp +zetaDelta only
    )

theorem execLcRebuild_keep {core : Nat} {now : Option Seen} {s : State} (hwf : Keeps s) : OutKeeps (execLcRebuild
    core now s) := by
  unfold execLcRebuild
  repeat' (first
    | with_reducible assumption | extract_lets | (lift_lets; extract_lets) | intro _
    | with_reducible apply engineOp_keep | with_reducible apply ite_keep | with_reducible apply next_keep
    | with_reducible apply fault_keep | split | dsimp only | dsimp +zetaDelta only
    )

theorem execLcFlip_keep {core : Nat} {now : Option Seen} {s : State} (hwf : Keeps s) : OutKeeps (execLcFlip core
    now s) := by
  unfold execLcFlip
  repeat' (first
    | with_reducible assumption | extract_lets | (lift_lets; extract_lets) | intro _
    | with_reducible apply engineOp_keep | with_reducible apply ite_keep | with_reducible apply next_keep
    | with_reducible apply fault_keep | split | dsimp only | dsimp +zetaDelta only
    )

theorem execDxCopy_keep {core : Nat} {now : Option Seen} {s : State} (hwf : Keeps s) : OutKeeps (execDxCopy core
    now s) := by
  unfold execDxCopy
  repeat' (first
    | with_reducible assumption | extract_lets | (lift_lets; extract_lets) | intro _
    | with_reducible apply engineOp_keep | with_reducible apply ite_keep | with_reducible apply next_keep
    | with_reducible apply fault_keep | split | dsimp only | dsimp +zetaDelta only
    )

theorem execDxGather_keep {core : Nat} {now : Option Seen} {s : State} (hwf : Keeps s) : OutKeeps (execDxGather
    core now s) := by
  unfold execDxGather
  repeat' (first
    | with_reducible assumption | extract_lets | (lift_lets; extract_lets) | intro _
    | with_reducible apply engineOp_keep | with_reducible apply ite_keep | with_reducible apply next_keep
    | with_reducible apply fault_keep | split | dsimp only | dsimp +zetaDelta only
    )

theorem execDxScatter_keep {core : Nat} {now : Option Seen} {s : State} (hwf : Keeps s) : OutKeeps (execDxScatter
    core now s) := by
  unfold execDxScatter
  repeat' (first
    | with_reducible assumption | extract_lets | (lift_lets; extract_lets) | intro _
    | with_reducible apply engineOp_keep | with_reducible apply ite_keep | with_reducible apply next_keep
    | with_reducible apply fault_keep | split | dsimp only | dsimp +zetaDelta only
    )

theorem execStreamOpen_keep {core : Nat} {now : Option Seen} {s : State} (hwf : Keeps s) : OutKeeps
    (execStreamOpen core now s) := by
  unfold execStreamOpen
  repeat' (first
    | with_reducible assumption | extract_lets | (lift_lets; extract_lets) | intro _
    | with_reducible apply engineOp_keep | with_reducible apply ite_keep | with_reducible apply next_keep
    | with_reducible apply fault_keep | split | dsimp only | dsimp +zetaDelta only
    )

theorem execStreamClose_keep {core : Nat} {now : Option Seen} {s : State} (hwf : Keeps s) : OutKeeps
    (execStreamClose core now s) := by
  unfold execStreamClose
  repeat' (first
    | with_reducible assumption | extract_lets | (lift_lets; extract_lets) | intro _
    | with_reducible apply engineOp_keep | with_reducible apply ite_keep | with_reducible apply next_keep
    | with_reducible apply fault_keep | split | dsimp only | dsimp +zetaDelta only
    )

theorem execSend_keep {core : Nat} {now : Option Seen} {s : State} (hwf : Keeps s) : OutKeeps (execSend core now
    s) := by
  unfold execSend
  repeat' (first
    | with_reducible assumption | extract_lets | (lift_lets; extract_lets) | intro _
    | with_reducible apply engineOp_keep | with_reducible apply ite_keep | with_reducible apply next_keep
    | with_reducible apply fault_keep | split | dsimp only | dsimp +zetaDelta only
    )

theorem execJsend_keep {core : Nat} {now : Option Seen} {s : State} (hwf : Keeps s) : OutKeeps (execJsend core now
    s) := by
  unfold execJsend
  repeat' (first
    | with_reducible assumption | extract_lets | (lift_lets; extract_lets) | intro _
    | with_reducible apply engineOp_keep | with_reducible apply ite_keep | with_reducible apply next_keep
    | with_reducible apply fault_keep | split | dsimp only | dsimp +zetaDelta only
    )

theorem execRecv_keep {core : Nat} {now : Option Seen} {s : State} (hwf : Keeps s) : OutKeeps (execRecv core now
    s) := by
  unfold execRecv
  repeat' (first
    | with_reducible assumption | extract_lets | (lift_lets; extract_lets) | intro _
    | with_reducible apply engineOp_keep | with_reducible apply ite_keep | with_reducible apply next_keep
    | with_reducible apply fault_keep | split | dsimp only | dsimp +zetaDelta only
    )

theorem execArrayResume_keep {core : Nat} {s : State} (hwf : Keeps s) : OutKeeps (execArrayResume core s) := by
  unfold execArrayResume
  repeat' (first
    | with_reducible assumption | extract_lets | (lift_lets; extract_lets) | intro _
    | with_reducible apply State.carryOut_keep | with_reducible apply State.updCore_keep
    | with_reducible apply onUnit_keep | simp only [Keeps.mk_iff] | with_reducible apply Keeps.mem
    | with_reducible exact Mem.wf_empty | with_reducible apply ite_keep | with_reducible apply next_keep
    | with_reducible apply fault_keep | split | dsimp only | dsimp +zetaDelta only
    )

theorem execArrayFreezeLong_keep {core : Nat} {s : State} (hwf : Keeps s) : OutKeeps (execArrayFreezeLong core s)
    := by
  unfold execArrayFreezeLong
  repeat' (first
    | with_reducible assumption | extract_lets | (lift_lets; extract_lets) | intro _
    | with_reducible apply State.updCore_keep | with_reducible apply State.record_keep
    | with_reducible apply onUnit_keep | simp only [Keeps.mk_iff] | with_reducible apply Keeps.mem
    | with_reducible exact Mem.wf_empty | with_reducible apply ite_keep | with_reducible apply next_keep
    | with_reducible apply fault_keep | split | dsimp only | dsimp +zetaDelta only
    )

theorem execArraySentinel_keep {core : Nat} {s : State} (hwf : Keeps s) : OutKeeps (execArraySentinel core s) :=
    by
  unfold execArraySentinel
  repeat' (first
    | with_reducible assumption | extract_lets | (lift_lets; extract_lets) | intro _
    | with_reducible apply State.updDomain_keep | with_reducible apply State.updCore_keep
    | with_reducible apply State.record_keep | with_reducible apply onUnit_keep | simp only [Keeps.mk_iff]
    | with_reducible apply Keeps.mem | with_reducible exact Mem.wf_empty | with_reducible apply ite_keep
    | with_reducible apply next_keep | with_reducible apply fault_keep | split | dsimp only | dsimp +zetaDelta only
    )

theorem execLcRebuildWrite_keep {core : Nat} {seen : Seen} {s : State} (hwf : Keeps s) : OutKeeps
    (execLcRebuildWrite core seen s) := by
  unfold execLcRebuildWrite
  repeat' (first
    | with_reducible assumption | extract_lets | (lift_lets; extract_lets) | intro _
    | with_reducible apply State.carryOut_keep | with_reducible apply onUnit_keep | simp only [Keeps.mk_iff]
    | with_reducible apply Keeps.mem | with_reducible exact Mem.wf_empty | with_reducible apply ite_keep
    | with_reducible apply next_keep | with_reducible apply fault_keep | split | dsimp only | dsimp +zetaDelta only
    )

theorem execLcConsumerResume_keep {core : Nat} {seen : Seen} {s : State} (hwf : Keeps s) : OutKeeps
    (execLcConsumerResume core seen s) := by
  unfold execLcConsumerResume
  repeat' (first
    | with_reducible assumption | extract_lets | (lift_lets; extract_lets) | intro _
    | with_reducible apply State.carryOut_keep | with_reducible apply onUnit_keep | simp only [Keeps.mk_iff]
    | with_reducible apply Keeps.mem | with_reducible exact Mem.wf_empty | with_reducible apply ite_keep
    | with_reducible apply next_keep | with_reducible apply fault_keep | split | dsimp only | dsimp +zetaDelta only
    )

theorem execStreamFill_keep {core : Nat} {n : Nat} {ue : List Nat} {s : State} (hwf : Keeps s) : OutKeeps
    (execStreamFill core n ue s) := by
  unfold execStreamFill
  repeat' (first
    | with_reducible assumption | extract_lets | (lift_lets; extract_lets) | intro _
    | with_reducible apply onUnit_keep | with_reducible apply State.streamBooks_keep
    | with_reducible refine State.streamBooks_keep_eq (by assumption) ?_
    | with_reducible apply State.chargeTraffic_keep | with_reducible apply State.countClass_keep
    | with_reducible apply State.fillChunk_keep | with_reducible apply State.waitFor_keep
    | simp only [Keeps1.mk_iff] | simp only [Keeps2.mk_iff]
    | simp only [Keeps.mk_iff] | with_reducible apply foldl_keep | with_reducible apply foldlM_keep
    | with_reducible apply iteM_keep | (simp only [Mem.wf_mk]; refine ⟨?_, ?_, ?_⟩)
    | with_reducible apply Tab.wf_put | with_reducible apply Tab.wf_putAll | with_reducible apply Tab.wf_filter
    | with_reducible apply Tab.wf_keep | with_reducible apply Tab.wf_merge | with_reducible exact Tab.wf_nil _
    | with_reducible apply Mem.bytes_keep | with_reducible apply Mem.pool_keep | with_reducible apply Mem.basin_keep
    | with_reducible apply Keeps.mem | with_reducible exact Mem.wf_empty | with_reducible apply foldlP_keep
    | with_reducible refine foldlP_keep_eq (by assumption) ?_ ?_ | with_reducible apply foldlQ_keep
    | with_reducible refine foldlQ_keep_eq (by assumption) ?_ ?_ | with_reducible apply OptKeeps.map
    | with_reducible exact OptKeeps.none | with_reducible apply OptKeeps.some | with_reducible apply SumKeeps.of_inl
    | with_reducible apply SumKeeps.of_inr | with_reducible apply id_keep | with_reducible apply ite_keep
    | with_reducible apply Keeps1.fst | with_reducible apply Keeps2.snd | with_reducible apply next_keep
    | with_reducible apply fault_keep | split | dsimp only | dsimp +zetaDelta only
    )

theorem execImBlockReload_keep {core : Nat} {s : State} (hwf : Keeps s) : OutKeeps (execImBlockReload core s) :=
    by
  unfold execImBlockReload
  repeat' (first
    | with_reducible assumption | extract_lets | (lift_lets; extract_lets) | intro _
    | with_reducible apply onUnit_keep | with_reducible apply ite_keep | with_reducible apply next_keep
    | with_reducible apply fault_keep | split | dsimp only | dsimp +zetaDelta only
    )

theorem State.wakeRecv_keep {s : State} {c : Nat} (hwf : Keeps s) : Keeps (State.wakeRecv s c) := by
  unfold State.wakeRecv
  repeat' (first
    | with_reducible assumption | extract_lets | (lift_lets; extract_lets) | intro _
    | with_reducible apply State.conclude_keep | with_reducible apply State.recvTake_keep
    | with_reducible refine State.recvTake_keep_eq (by assumption) ?_ | simp only [Keeps1.mk_iff]
    | simp only [Keeps.mk_iff] | with_reducible apply Keeps.mem | with_reducible exact Mem.wf_empty
    | with_reducible apply ite_keep | with_reducible apply Keeps1.fst | split | dsimp only | dsimp +zetaDelta only
    )

theorem execMessageArrive_keep {src : Option Nat} {core : Nat} {q : Nat} {s : State} (hwf : Keeps s) : OutKeeps
    (execMessageArrive src core q s) := by
  unfold execMessageArrive
  repeat' (first
    | with_reducible assumption | extract_lets | (lift_lets; extract_lets) | intro _
    | with_reducible apply onUnit_keep | with_reducible apply State.carry_keep
    | with_reducible apply State.setInQueue_keep | with_reducible apply State.sendAccepted_keep
    | with_reducible apply State.wakeRecv_keep | with_reducible apply State.updReach_keep
    | with_reducible apply State.sendRefused_keep
    | simp only [Keeps1.mk_iff] | simp only [Keeps2.mk_iff]
    | simp only [Keeps.mk_iff] | with_reducible apply foldl_keep | with_reducible apply foldlM_keep
    | with_reducible apply iteM_keep | (simp only [Mem.wf_mk]; refine ⟨?_, ?_, ?_⟩)
    | with_reducible apply Tab.wf_put | with_reducible apply Tab.wf_putAll | with_reducible apply Tab.wf_filter
    | with_reducible apply Tab.wf_keep | with_reducible apply Tab.wf_merge | with_reducible exact Tab.wf_nil _
    | with_reducible apply Mem.bytes_keep | with_reducible apply Mem.pool_keep | with_reducible apply Mem.basin_keep
    | with_reducible apply Keeps.mem | with_reducible exact Mem.wf_empty | with_reducible apply foldlP_keep
    | with_reducible refine foldlP_keep_eq (by assumption) ?_ ?_ | with_reducible apply foldlQ_keep
    | with_reducible refine foldlQ_keep_eq (by assumption) ?_ ?_ | with_reducible apply OptKeeps.map
    | with_reducible exact OptKeeps.none | with_reducible apply OptKeeps.some | with_reducible apply SumKeeps.of_inl
    | with_reducible apply SumKeeps.of_inr | with_reducible apply id_keep | with_reducible apply ite_keep
    | with_reducible apply Keeps1.fst | with_reducible apply Keeps2.snd | with_reducible apply next_keep
    | with_reducible apply fault_keep | split | dsimp only | dsimp +zetaDelta only
    )

theorem execSpaceNotice_keep {core : Nat} {s : State} (hwf : Keeps s) : OutKeeps (execSpaceNotice core s) := by
  unfold execSpaceNotice
  repeat' (first
    | with_reducible assumption | extract_lets | (lift_lets; extract_lets) | intro _
    | with_reducible apply State.resend_keep | with_reducible apply onUnit_keep | simp only [Keeps.mk_iff]
    | with_reducible apply Keeps.mem | with_reducible exact Mem.wf_empty | with_reducible apply ite_keep
    | with_reducible apply next_keep | with_reducible apply fault_keep | split | dsimp only | dsimp +zetaDelta only
    )

theorem execQxRetryTimer_keep {core : Nat} {s : State} (hwf : Keeps s) : OutKeeps (execQxRetryTimer core s) := by
  unfold execQxRetryTimer
  repeat' (first
    | with_reducible assumption | extract_lets | (lift_lets; extract_lets) | intro _
    | with_reducible apply State.resend_keep | with_reducible apply onUnit_keep | simp only [Keeps.mk_iff]
    | with_reducible apply Keeps.mem | with_reducible exact Mem.wf_empty | with_reducible apply ite_keep
    | with_reducible apply next_keep | with_reducible apply fault_keep | split | dsimp only | dsimp +zetaDelta only
    )

theorem execHandlerDispatch_keep {core : Nat} {handler : Option Nat} {s : State} (hwf : Keeps s) : OutKeeps
    (execHandlerDispatch core handler s) := by
  unfold execHandlerDispatch
  repeat' (first
    | with_reducible assumption | extract_lets | (lift_lets; extract_lets) | intro _
    | with_reducible apply onUnit_keep | with_reducible apply State.updCore_keep
    | with_reducible apply State.setInQueue_keep | with_reducible apply State.noticeSpace_keep
    | with_reducible apply State.record_keep
    | simp only [Keeps1.mk_iff] | simp only [Keeps2.mk_iff]
    | simp only [Keeps.mk_iff] | with_reducible apply foldl_keep | with_reducible apply foldlM_keep
    | with_reducible apply iteM_keep | (simp only [Mem.wf_mk]; refine ⟨?_, ?_, ?_⟩)
    | with_reducible apply Tab.wf_put | with_reducible apply Tab.wf_putAll | with_reducible apply Tab.wf_filter
    | with_reducible apply Tab.wf_keep | with_reducible apply Tab.wf_merge | with_reducible exact Tab.wf_nil _
    | with_reducible apply Mem.bytes_keep | with_reducible apply Mem.pool_keep | with_reducible apply Mem.basin_keep
    | with_reducible apply Keeps.mem | with_reducible exact Mem.wf_empty | with_reducible apply foldlP_keep
    | with_reducible refine foldlP_keep_eq (by assumption) ?_ ?_ | with_reducible apply foldlQ_keep
    | with_reducible refine foldlQ_keep_eq (by assumption) ?_ ?_ | with_reducible apply OptKeeps.map
    | with_reducible exact OptKeeps.none | with_reducible apply OptKeeps.some | with_reducible apply SumKeeps.of_inl
    | with_reducible apply SumKeeps.of_inr | with_reducible apply id_keep | with_reducible apply ite_keep
    | with_reducible apply Keeps1.fst | with_reducible apply Keeps2.snd | with_reducible apply next_keep
    | with_reducible apply fault_keep | split | dsimp only | dsimp +zetaDelta only
    )

theorem State.noticeJunction_keep {s : State} {r : Nat} {q : Nat} (hwf : Keeps s) : Keeps (State.noticeJunction s
    r q) := by
  unfold State.noticeJunction
  repeat' (first
    | with_reducible assumption | extract_lets | (lift_lets; extract_lets) | intro _ | simp only [Keeps.mk_iff]
    | with_reducible apply Keeps.mem | with_reducible exact Mem.wf_empty | with_reducible apply ite_keep | split
    | dsimp only | dsimp +zetaDelta only
    )

theorem execJunctionArm_keep {reach : Nat} {jq : Nat} {s : State} (hwf : Keeps s) : OutKeeps (execJunctionArm
    reach jq s) := by
  unfold execJunctionArm
  repeat' (first
    | with_reducible assumption | extract_lets | (lift_lets; extract_lets) | intro _
    | with_reducible apply State.noticeJunction_keep | with_reducible apply State.updJunction_keep
    | with_reducible apply State.record_keep | with_reducible apply onUnit_keep | simp only [Keeps.mk_iff]
    | with_reducible apply Keeps.mem | with_reducible exact Mem.wf_empty | with_reducible apply ite_keep
    | with_reducible apply next_keep | with_reducible apply fault_keep | split | dsimp only | dsimp +zetaDelta only
    )

theorem State.jqAdd_keep {s : State} {part : Nat} {d : JqDesc} {first : Bool} {codes : List Nat} (hwf : Keeps s) :
    Keeps (State.jqAdd s part d first codes) := by
  unfold State.jqAdd
  repeat' (first
    | with_reducible assumption | extract_lets | (lift_lets; extract_lets) | intro _
    | with_reducible apply State.writeVA_keep | simp only [Keeps.mk_iff] | with_reducible apply Keeps.mem
    | with_reducible exact Mem.wf_empty | with_reducible apply ite_keep | split | dsimp only | dsimp +zetaDelta only
    )

theorem State.jqDrainStaged_keep {s : State} {part r q : Nat} {d : JqDesc} {n : Nat} (hwf : Keeps s) : Keeps (State.jqDrainStaged s part r q d n) := by
  induction n generalizing s part r q d with
  | zero => (try unfold State.jqDrainStaged); exact hwf
  | succ n ih =>
    unfold State.jqDrainStaged
    repeat' (first
      | with_reducible assumption | extract_lets | (lift_lets; extract_lets) | intro _ | with_reducible apply ih
      | with_reducible apply State.noticeJunction_keep | with_reducible apply State.updJunction_keep
      | with_reducible apply State.jqAdd_keep | simp only [Keeps.mk_iff] | with_reducible apply Keeps.mem
      | with_reducible exact Mem.wf_empty | with_reducible apply ite_keep | split | dsimp only | dsimp +zetaDelta only
      )

theorem State.jqRelease_keep {s : State} {r : Nat} {q : Nat} {d : JqDesc} (hwf : Keeps s) : Keeps (State.jqRelease s
    r q d) := by
  unfold State.jqRelease
  repeat' (first
    | with_reducible assumption | extract_lets | (lift_lets; extract_lets) | intro _
    | with_reducible apply State.sendFirmware_keep | with_reducible apply State.updReach_keep
    | with_reducible apply State.updJunction_keep
    | simp only [Keeps1.mk_iff] | simp only [Keeps2.mk_iff]
    | simp only [Keeps.mk_iff] | with_reducible apply foldl_keep | with_reducible apply foldlM_keep
    | with_reducible apply iteM_keep | (simp only [Mem.wf_mk]; refine ⟨?_, ?_, ?_⟩)
    | with_reducible apply Tab.wf_put | with_reducible apply Tab.wf_putAll | with_reducible apply Tab.wf_filter
    | with_reducible apply Tab.wf_keep | with_reducible apply Tab.wf_merge | with_reducible exact Tab.wf_nil _
    | with_reducible apply Mem.bytes_keep | with_reducible apply Mem.pool_keep | with_reducible apply Mem.basin_keep
    | with_reducible apply Keeps.mem | with_reducible exact Mem.wf_empty | with_reducible apply foldlP_keep
    | with_reducible refine foldlP_keep_eq (by assumption) ?_ ?_ | with_reducible apply foldlQ_keep
    | with_reducible refine foldlQ_keep_eq (by assumption) ?_ ?_ | with_reducible apply OptKeeps.map
    | with_reducible exact OptKeeps.none | with_reducible apply OptKeeps.some | with_reducible apply SumKeeps.of_inl
    | with_reducible apply SumKeeps.of_inr | with_reducible apply id_keep | with_reducible apply ite_keep
    | with_reducible apply Keeps1.fst | with_reducible apply Keeps2.snd | with_reducible apply next_keep
    | with_reducible apply fault_keep | split | dsimp only | dsimp +zetaDelta only
    )

theorem State.dropContrib_keep {s : State} {c : Nat} {r : Nat} {q : Nat} (hwf : Keeps s) : Keeps
    (State.dropContrib s c r q) := by
  unfold State.dropContrib
  repeat' (first
    | with_reducible assumption | extract_lets | (lift_lets; extract_lets) | intro _ | simp only [Keeps.mk_iff]
    | with_reducible apply Keeps.mem | with_reducible exact Mem.wf_empty | with_reducible apply ite_keep | split
    | dsimp only | dsimp +zetaDelta only
    )

theorem State.jqAccepted_keep {s : State} {c : Nat} {r : Nat} {q : Nat} {d : JqDesc} {poison : Bool} (hwf : Keeps
    s) : Keeps (State.jqAccepted s c r q d poison) := by
  unfold State.jqAccepted
  repeat' (first
    | with_reducible assumption | extract_lets | (lift_lets; extract_lets) | intro _
    | with_reducible apply State.sendAccepted_keep | with_reducible apply State.updJunction_keep
    | with_reducible apply State.dropContrib_keep | with_reducible apply State.jqRelease_keep
    | simp only [Keeps.mk_iff] | with_reducible apply Keeps.mem | with_reducible exact Mem.wf_empty
    | with_reducible apply ite_keep | split | dsimp only | dsimp +zetaDelta only
    )

theorem State.jqRefuse_keep {s : State} {c : Nat} {r : Nat} {q : Nat} (hwf : Keeps s) : Keeps (State.jqRefuse s c
    r q) := by
  unfold State.jqRefuse
  repeat' (first
    | with_reducible assumption | extract_lets | (lift_lets; extract_lets) | intro _
    | with_reducible apply State.sendRefused_keep | with_reducible apply State.updReach_keep
    | simp only [Keeps.mk_iff] | with_reducible apply Keeps.mem | with_reducible exact Mem.wf_empty
    | with_reducible apply ite_keep | split | dsimp only | dsimp +zetaDelta only
    )

theorem State.jqFault_keep {s : State} {c : Nat} {r : Nat} {q : Nat} {cause : Nat} (hwf : Keeps s) : Keeps
    (State.jqFault s c r q cause) := by
  unfold State.jqFault
  repeat' (first
    | with_reducible assumption | extract_lets | (lift_lets; extract_lets) | intro _
    | with_reducible apply State.dropContrib_keep | with_reducible apply State.countStall_keep
    | with_reducible apply State.programFault_keep
    | simp only [Keeps1.mk_iff] | simp only [Keeps2.mk_iff]
    | simp only [Keeps.mk_iff] | with_reducible apply foldl_keep | with_reducible apply foldlM_keep
    | with_reducible apply iteM_keep | (simp only [Mem.wf_mk]; refine ⟨?_, ?_, ?_⟩)
    | with_reducible apply Tab.wf_put | with_reducible apply Tab.wf_putAll | with_reducible apply Tab.wf_filter
    | with_reducible apply Tab.wf_keep | with_reducible apply Tab.wf_merge | with_reducible exact Tab.wf_nil _
    | with_reducible apply Mem.bytes_keep | with_reducible apply Mem.pool_keep | with_reducible apply Mem.basin_keep
    | with_reducible apply Keeps.mem | with_reducible exact Mem.wf_empty | with_reducible apply foldlP_keep
    | with_reducible refine foldlP_keep_eq (by assumption) ?_ ?_ | with_reducible apply foldlQ_keep
    | with_reducible refine foldlQ_keep_eq (by assumption) ?_ ?_ | with_reducible apply OptKeeps.map
    | with_reducible exact OptKeeps.none | with_reducible apply OptKeeps.some | with_reducible apply SumKeeps.of_inl
    | with_reducible apply SumKeeps.of_inr | with_reducible apply id_keep | with_reducible apply ite_keep
    | with_reducible apply Keeps1.fst | with_reducible apply Keeps2.snd | with_reducible apply next_keep
    | with_reducible apply fault_keep | split | dsimp only | dsimp +zetaDelta only
    )

theorem State.jqReserved_keep {s : State} {src : Nat} {part : Nat} {mode : Nat} {words : List Nat} (hwf : Keeps s)
    : Keeps (State.jqReserved s src part mode words) := by
  unfold State.jqReserved
  repeat' (first
    | with_reducible assumption | extract_lets | (lift_lets; extract_lets) | intro _
    | with_reducible apply State.record_keep | simp only [Keeps1.mk_iff] | simp only [Keeps2.mk_iff]
    | with_reducible apply foldl_keep | with_reducible apply foldlP_keep
    | with_reducible refine foldlP_keep_eq (by assumption) ?_ ?_ | with_reducible apply foldlQ_keep
    | with_reducible refine foldlQ_keep_eq (by assumption) ?_ ?_ | with_reducible apply ite_keep
    | with_reducible apply Keeps1.fst | with_reducible apply Keeps2.snd | split | dsimp only | dsimp +zetaDelta only
    )

theorem State.jqStage_keep {s : State} {src : Nat} {reach : Nat} {jq : Nat} {part : Nat} {i : Nat} {d : JqDesc} {f
    : Flying} (hwf : Keeps s) : Keeps (State.jqStage s src reach jq part i d f) := by
  unfold State.jqStage
  repeat' (first
    | with_reducible assumption | extract_lets | (lift_lets; extract_lets) | intro _
    | with_reducible apply State.updJunction_keep | with_reducible apply State.jqAccepted_keep
    | with_reducible apply State.jqRefuse_keep | with_reducible apply State.writeVA_keep | simp only [Keeps.mk_iff]
    | with_reducible apply Keeps.mem | with_reducible exact Mem.wf_empty | with_reducible apply ite_keep | split
    | dsimp only | dsimp +zetaDelta only
    )

theorem State.jqTake_keep {s : State} {src : Nat} {reach : Nat} {jq : Nat} {part : Nat} {d : JqDesc} {f : Flying}
    (hwf : Keeps s) : Keeps (State.jqTake s src reach jq part d f) := by
  unfold State.jqTake
  repeat' (first
    | with_reducible assumption | extract_lets | (lift_lets; extract_lets) | intro _
    | with_reducible apply State.jqDrainStaged_keep | with_reducible apply State.jqReserved_keep
    | with_reducible apply State.jqAdd_keep | with_reducible apply State.jqAccepted_keep
    | with_reducible apply State.jqFault_keep | with_reducible apply State.updJunction_keep
    | with_reducible apply State.jqStage_keep
    | simp only [Keeps1.mk_iff] | simp only [Keeps2.mk_iff]
    | simp only [Keeps.mk_iff] | with_reducible apply foldl_keep | with_reducible apply foldlM_keep
    | with_reducible apply iteM_keep | (simp only [Mem.wf_mk]; refine ⟨?_, ?_, ?_⟩)
    | with_reducible apply Tab.wf_put | with_reducible apply Tab.wf_putAll | with_reducible apply Tab.wf_filter
    | with_reducible apply Tab.wf_keep | with_reducible apply Tab.wf_merge | with_reducible exact Tab.wf_nil _
    | with_reducible apply Mem.bytes_keep | with_reducible apply Mem.pool_keep | with_reducible apply Mem.basin_keep
    | with_reducible apply Keeps.mem | with_reducible exact Mem.wf_empty | with_reducible apply foldlP_keep
    | with_reducible refine foldlP_keep_eq (by assumption) ?_ ?_ | with_reducible apply foldlQ_keep
    | with_reducible refine foldlQ_keep_eq (by assumption) ?_ ?_ | with_reducible apply OptKeeps.map
    | with_reducible exact OptKeeps.none | with_reducible apply OptKeeps.some | with_reducible apply SumKeeps.of_inl
    | with_reducible apply SumKeeps.of_inr | with_reducible apply id_keep | with_reducible apply ite_keep
    | with_reducible apply Keeps1.fst | with_reducible apply Keeps2.snd | with_reducible apply next_keep
    | with_reducible apply fault_keep | split | dsimp only | dsimp +zetaDelta only
    )

theorem State.jqArrive_keep {s : State} {src : Nat} {reach : Nat} {jq : Nat} {f : Flying} (hwf : Keeps s) : Keeps
    (State.jqArrive s src reach jq f) := by
  unfold State.jqArrive
  repeat' (first
    | with_reducible assumption | extract_lets | (lift_lets; extract_lets) | intro _
    | with_reducible apply State.jqFault_keep | with_reducible apply State.jqRefuse_keep
    | with_reducible apply State.jqReserved_keep | with_reducible apply State.jqTake_keep
    | simp only [Keeps1.mk_iff] | simp only [Keeps2.mk_iff]
    | simp only [Keeps.mk_iff] | with_reducible apply foldl_keep | with_reducible apply foldlM_keep
    | with_reducible apply iteM_keep | (simp only [Mem.wf_mk]; refine ⟨?_, ?_, ?_⟩)
    | with_reducible apply Tab.wf_put | with_reducible apply Tab.wf_putAll | with_reducible apply Tab.wf_filter
    | with_reducible apply Tab.wf_keep | with_reducible apply Tab.wf_merge | with_reducible exact Tab.wf_nil _
    | with_reducible apply Mem.bytes_keep | with_reducible apply Mem.pool_keep | with_reducible apply Mem.basin_keep
    | with_reducible apply Keeps.mem | with_reducible exact Mem.wf_empty | with_reducible apply foldlP_keep
    | with_reducible refine foldlP_keep_eq (by assumption) ?_ ?_ | with_reducible apply foldlQ_keep
    | with_reducible refine foldlQ_keep_eq (by assumption) ?_ ?_ | with_reducible apply OptKeeps.map
    | with_reducible exact OptKeeps.none | with_reducible apply OptKeeps.some | with_reducible apply SumKeeps.of_inl
    | with_reducible apply SumKeeps.of_inr | with_reducible apply id_keep | with_reducible apply ite_keep
    | with_reducible apply Keeps1.fst | with_reducible apply Keeps2.snd | with_reducible apply next_keep
    | with_reducible apply fault_keep | split | dsimp only | dsimp +zetaDelta only
    )

theorem execJunctionContribution_keep {src : Nat} {reach : Nat} {jq : Nat} {s : State} (hwf : Keeps s) : OutKeeps
    (execJunctionContribution src reach jq s) := by
  unfold execJunctionContribution
  repeat' (first
    | with_reducible assumption | extract_lets | (lift_lets; extract_lets) | intro _
    | with_reducible apply onUnit_keep | with_reducible apply State.carry_keep
    | with_reducible apply State.jqArrive_keep
    | simp only [Keeps1.mk_iff] | simp only [Keeps2.mk_iff]
    | simp only [Keeps.mk_iff] | with_reducible apply foldl_keep | with_reducible apply foldlM_keep
    | with_reducible apply iteM_keep | (simp only [Mem.wf_mk]; refine ⟨?_, ?_, ?_⟩)
    | with_reducible apply Tab.wf_put | with_reducible apply Tab.wf_putAll | with_reducible apply Tab.wf_filter
    | with_reducible apply Tab.wf_keep | with_reducible apply Tab.wf_merge | with_reducible exact Tab.wf_nil _
    | with_reducible apply Mem.bytes_keep | with_reducible apply Mem.pool_keep | with_reducible apply Mem.basin_keep
    | with_reducible apply Keeps.mem | with_reducible exact Mem.wf_empty | with_reducible apply foldlP_keep
    | with_reducible refine foldlP_keep_eq (by assumption) ?_ ?_ | with_reducible apply foldlQ_keep
    | with_reducible refine foldlQ_keep_eq (by assumption) ?_ ?_ | with_reducible apply OptKeeps.map
    | with_reducible exact OptKeeps.none | with_reducible apply OptKeeps.some | with_reducible apply SumKeeps.of_inl
    | with_reducible apply SumKeeps.of_inr | with_reducible apply id_keep | with_reducible apply ite_keep
    | with_reducible apply Keeps1.fst | with_reducible apply Keeps2.snd | with_reducible apply next_keep
    | with_reducible apply fault_keep | split | dsimp only | dsimp +zetaDelta only
    )

end Sys2Proof.Machine
end

