-- ==== Sys2Proof/Laws/MemLoader.lean ====
section
/-! SUPPORT. Every operation of Machine/Loader.lean keeps the canonical form of the byte memories. -/

namespace Sys2Proof.Machine

set_option linter.unusedVariables false
set_option linter.unusedSimpArgs false
set_option linter.unusedTactic false
set_option linter.unreachableTactic false


theorem State.cachePut_keep {s : State} {part : Nat} {im : Image} (hwf : Keeps s) : Keeps (State.cachePut s part im)
    := by
  unfold State.cachePut
  repeat' (first
    | with_reducible assumption | extract_lets | (lift_lets; extract_lets) | intro _
    | simp only [Keeps1.mk_iff] | simp only [Keeps2.mk_iff]
    | simp only [Keeps.mk_iff] | with_reducible apply foldl_keep | with_reducible apply foldlM_keep
    | with_reducible apply iteM_keep | (simp only [Mem.wf_mk]; refine ⟨?_, ?_, ?_⟩)
    | with_reducible apply Tab.wf_put | with_reducible apply Tab.wf_putAll | with_reducible apply Tab.wf_filter
    | with_reducible apply Tab.wf_keep | with_reducible apply Tab.wf_merge | with_reducible exact Tab.wf_nil _
    | with_reducible apply Mem.bytes_keep | with_reducible apply Mem.pool_keep | with_reducible apply Mem.basin_keep
    | with_reducible apply Keeps.mem | with_reducible exact Mem.wf_empty | with_reducible apply foldlP_keep
    | with_reducible refine foldlP_keep_eq (by assumption) ?_ ?_ | with_reducible apply foldlQ_keep
    | with_reducible refine foldlQ_keep_eq (by assumption) ?_ ?_ | with_reducible apply OptKeeps.map
    | with_reducible exact OptKeeps.none | with_reducible apply OptKeeps.some | with_reducible apply SumKeeps.of_inl
    | with_reducible apply SumKeeps.of_inr | with_reducible apply id_keep | with_reducible apply ite_keep
    | with_reducible apply Keeps1.fst | with_reducible apply Keeps2.snd | with_reducible apply next_keep
    | with_reducible apply fault_keep | split | dsimp only | dsimp +zetaDelta only
    )

theorem State.loadCore_keep {s : State} {c : Nat} {im : Image} (hwf : Keeps s) : Keeps (State.loadCore s c im) := by
  unfold State.loadCore
  repeat' (first
    | with_reducible assumption | extract_lets | (lift_lets; extract_lets) | intro _
    | with_reducible apply State.zeroCores_keep | with_reducible apply State.setCore_keep
    | with_reducible apply State.writePlace_keep
    | simp only [Keeps1.mk_iff] | simp only [Keeps2.mk_iff]
    | simp only [Keeps.mk_iff] | with_reducible apply foldl_keep | with_reducible apply foldlM_keep
    | with_reducible apply iteM_keep | (simp only [Mem.wf_mk]; refine ⟨?_, ?_, ?_⟩)
    | with_reducible apply Tab.wf_put | with_reducible apply Tab.wf_putAll | with_reducible apply Tab.wf_filter
    | with_reducible apply Tab.wf_keep | with_reducible apply Tab.wf_merge | with_reducible exact Tab.wf_nil _
    | with_reducible apply Mem.bytes_keep | with_reducible apply Mem.pool_keep | with_reducible apply Mem.basin_keep
    | with_reducible apply Keeps.mem | with_reducible exact Mem.wf_empty | with_reducible apply foldlP_keep
    | with_reducible refine foldlP_keep_eq (by assumption) ?_ ?_ | with_reducible apply foldlQ_keep
    | with_reducible refine foldlQ_keep_eq (by assumption) ?_ ?_ | with_reducible apply OptKeeps.map
    | with_reducible exact OptKeeps.none | with_reducible apply OptKeeps.some | with_reducible apply SumKeeps.of_inl
    | with_reducible apply SumKeeps.of_inr | with_reducible apply id_keep | with_reducible apply ite_keep
    | with_reducible apply Keeps1.fst | with_reducible apply Keeps2.snd | with_reducible apply next_keep
    | with_reducible apply fault_keep | split | dsimp only | dsimp +zetaDelta only
    )

theorem State.imLoadFail_keep {s : State} {c : Nat} {found : Nat} {im : Image} (hwf : Keeps s) : Keeps
    (State.imLoadFail s c found im) := by
  unfold State.imLoadFail
  repeat' (first
    | with_reducible assumption | extract_lets | (lift_lets; extract_lets) | intro _
    | with_reducible apply State.beginRecovery_keep | with_reducible apply State.loseCore_keep
    | with_reducible apply State.record_keep | with_reducible apply State.moveTo_keep | simp only [Keeps.mk_iff]
    | with_reducible apply Keeps.mem | with_reducible exact Mem.wf_empty | with_reducible apply ite_keep | split
    | dsimp only | dsimp +zetaDelta only
    )

theorem State.refuseProgram_keep {s : State} {f : Flight} {cause : Nat} {word : Nat} (hwf : Keeps s) : Keeps
    (State.refuseProgram s f cause word) := by
  unfold State.refuseProgram
  repeat' (first
    | with_reducible assumption | extract_lets | (lift_lets; extract_lets) | intro _
    | with_reducible apply State.commit_keep | with_reducible apply id_keep | with_reducible apply ite_keep | split
    | dsimp only | dsimp +zetaDelta only
    )

theorem State.chargeImage_keep {s : State} {f : Flight} (hwf : Keeps s) : Keeps (State.chargeImage s f) := by
  unfold State.chargeImage
  repeat' (first
    | with_reducible assumption | extract_lets | (lift_lets; extract_lets) | intro _
    | with_reducible apply State.chargeExtent_keep | with_reducible apply State.charge_keep
    | with_reducible apply ite_keep | split | dsimp only | dsimp +zetaDelta only
    )

theorem State.loadCores_keep {s : State} {f : Flight} {im : Image} {hit : Bool} {imFail : List (Nat × Nat)} (hwf :
    Keeps s) : Keeps (State.loadCores s f im hit imFail) := by
  unfold State.loadCores
  repeat' (first
    | with_reducible assumption | extract_lets | (lift_lets; extract_lets) | intro _
    | with_reducible apply State.refuseProgram_keep | with_reducible apply State.imLoadFail_keep
    | with_reducible apply State.loadCore_keep | with_reducible apply State.commit_keep | simp only [Keeps1.mk_iff]
    | simp only [Keeps2.mk_iff] | simp only [Keeps.mk_iff] | with_reducible apply foldl_keep
    | with_reducible apply Keeps.mem | with_reducible exact Mem.wf_empty | with_reducible apply foldlP_keep
    | with_reducible refine foldlP_keep_eq (by assumption) ?_ ?_ | with_reducible apply foldlQ_keep
    | with_reducible refine foldlQ_keep_eq (by assumption) ?_ ?_ | with_reducible apply id_keep
    | with_reducible apply ite_keep | with_reducible apply Keeps1.fst | with_reducible apply Keeps2.snd | split
    | dsimp only | dsimp +zetaDelta only
    )

theorem State.loadImage_keep {s : State} {f : Flight} {host : Option (List Byte)} {ue : List Nat} {imFail : List
    (Nat × Nat)} (hwf : Keeps s) : Keeps (State.loadImage s f host ue imFail) := by
  unfold State.loadImage
  repeat' (first
    | with_reducible assumption | extract_lets | (lift_lets; extract_lets) | intro _
    | with_reducible apply State.refuseProgram_keep | with_reducible apply State.chargeImage_keep
    | with_reducible apply State.loadCores_keep | with_reducible apply State.failWith_keep
    | with_reducible apply State.cachePut_keep | with_reducible apply State.refuse_keep | simp only [Keeps.mk_iff]
    | with_reducible apply Keeps.mem | with_reducible exact Mem.wf_empty | with_reducible apply ite_keep | split
    | dsimp only | dsimp +zetaDelta only
    )

theorem execLoadImage_keep {path : Path} {pk : Packet} {host : Option (List Byte)} {ue : List Nat} {imFail : List
    (Nat × Nat)} {s : State} (hwf : Keeps s) : OutKeeps (execLoadImage path pk host ue imFail s) := by
  unfold execLoadImage
  repeat' (first
    | with_reducible assumption | extract_lets | (lift_lets; extract_lets) | intro _
    | with_reducible apply State.loadImage_keep | with_reducible apply beginOn_keep | with_reducible apply ite_keep
    | with_reducible apply next_keep | with_reducible apply fault_keep | split | dsimp only | dsimp +zetaDelta only
    )

end Sys2Proof.Machine
end

