-- ==== Sys2Proof/Laws/MemRun.lean ====
section
/-! SUPPORT. Every operation of Machine/Run.lean keeps the canonical form of the byte memories. -/

namespace Sys2Proof.Machine

set_option linter.unusedVariables false
set_option linter.unusedSimpArgs false
set_option linter.unusedTactic false
set_option linter.unreachableTactic false


theorem State.dropLeftovers_keep {s : State} {c : Nat} (hwf : Keeps s) : Keeps (State.dropLeftovers s c) := by
  unfold State.dropLeftovers
  repeat' (first
    | with_reducible assumption | extract_lets | (lift_lets; extract_lets) | intro _
    | with_reducible apply State.closeStreams_keep | simp only [Keeps.mk_iff] | with_reducible apply Keeps.mem
    | with_reducible exact Mem.wf_empty | with_reducible apply ite_keep | split | dsimp only | dsimp +zetaDelta only
    )

theorem State.startCore_keep {s : State} {c : Nat} {rank : Nat} {n : Nat} {arg : Nat} {stopAfter : Nat} {truncate
    : Nat} {h : Holder} (hwf : Keeps s) : Keeps (State.startCore s c rank n arg stopAfter truncate h) := by
  unfold State.startCore
  repeat' (first
    | with_reducible assumption | extract_lets | (lift_lets; extract_lets) | intro _
    | with_reducible apply State.dropLeftovers_keep | with_reducible apply State.updCore_keep
    | with_reducible apply State.goto_keep | with_reducible apply ite_keep | split | dsimp only
    | dsimp +zetaDelta only
    )

theorem State.resumeCore_keep {s : State} {c : Nat} {stopAfter : Nat} {truncate : Nat} {h : Holder} (hwf : Keeps
    s) : Keeps (State.resumeCore s c stopAfter truncate h) := by
  unfold State.resumeCore
  repeat' (first
    | with_reducible assumption | extract_lets | (lift_lets; extract_lets) | intro _
    | with_reducible apply State.updCore_keep | with_reducible apply State.goto_keep | with_reducible apply ite_keep
    | split | dsimp only | dsimp +zetaDelta only
    )

theorem State.runCmd_keep {s : State} {f : Flight} {resume : Bool} {go : State → Nat → Nat → Nat → State} (h_go :
    ∀ x0 x1 x2 x3, Keeps x0 → Keeps (go x0 x1 x2 x3)) (hwf : Keeps s) : Keeps (State.runCmd s f resume go) := by
  unfold State.runCmd
  repeat' (first
    | with_reducible assumption | extract_lets | (lift_lets; extract_lets) | intro _ | with_reducible apply h_go
    | with_reducible apply State.refuseProgram_keep | with_reducible apply State.finishRun_keep
    | with_reducible apply State.failWith_keep | simp only [Keeps1.mk_iff] | simp only [Keeps2.mk_iff]
    | simp only [Keeps.mk_iff] | with_reducible apply foldl_keep | with_reducible apply Keeps.mem
    | with_reducible exact Mem.wf_empty | with_reducible apply foldlP_keep
    | with_reducible refine foldlP_keep_eq (by assumption) ?_ ?_ | with_reducible apply foldlQ_keep
    | with_reducible refine foldlQ_keep_eq (by assumption) ?_ ?_ | with_reducible apply id_keep
    | with_reducible apply ite_keep | with_reducible apply Keeps1.fst | with_reducible apply Keeps2.snd | split
    | dsimp only | dsimp +zetaDelta only
    )

theorem execRun_keep {path : Path} {pk : Packet} {s : State} (hwf : Keeps s) : OutKeeps (execRun path pk s) := by
  unfold execRun
  repeat' (first
    | with_reducible assumption | extract_lets | (lift_lets; extract_lets) | intro _
    | with_reducible apply State.startCore_keep | with_reducible apply State.runCmd_keep
    | with_reducible apply beginOn_keep | with_reducible apply id_keep | with_reducible apply ite_keep
    | with_reducible apply next_keep | with_reducible apply fault_keep | split | dsimp only | dsimp +zetaDelta only
    )

theorem execRunResume_keep {path : Path} {pk : Packet} {s : State} (hwf : Keeps s) : OutKeeps (execRunResume path
    pk s) := by
  unfold execRunResume
  repeat' (first
    | with_reducible assumption | extract_lets | (lift_lets; extract_lets) | intro _
    | with_reducible apply State.resumeCore_keep | with_reducible apply State.failWith_keep
    | with_reducible apply State.runCmd_keep | with_reducible apply beginOn_keep | with_reducible apply id_keep
    | with_reducible apply ite_keep | with_reducible apply next_keep | with_reducible apply fault_keep | split
    | dsimp only | dsimp +zetaDelta only
    )

theorem State.haltRun_keep {s : State} {r : RunCmd} (hwf : Keeps s) : Keeps (State.haltRun s r) := by
  unfold State.haltRun
  repeat' (first
    | with_reducible assumption | extract_lets | (lift_lets; extract_lets) | intro _
    | with_reducible apply State.haltCores_keep | with_reducible apply ite_keep | split | dsimp only
    | dsimp +zetaDelta only
    )

theorem execRunTimeout_keep {cmd : Nat} {s : State} (hwf : Keeps s) : OutKeeps (execRunTimeout cmd s) := by
  unfold execRunTimeout
  repeat' (first
    | with_reducible assumption | extract_lets | (lift_lets; extract_lets) | intro _
    | with_reducible apply State.haltRun_keep | simp only [Keeps.mk_iff] | with_reducible apply Keeps.mem
    | with_reducible exact Mem.wf_empty | with_reducible apply ite_keep | with_reducible apply next_keep
    | with_reducible apply fault_keep | split | dsimp only | dsimp +zetaDelta only
    )

end Sys2Proof.Machine
end

