-- ==== Sys2Proof/Laws/MemHostDma.lean ====
section
/-! SUPPORT. Every operation of Machine/HostDma.lean keeps the canonical form of the byte memories. -/

namespace Sys2Proof.Machine

set_option linter.unusedVariables false
set_option linter.unusedSimpArgs false
set_option linter.unusedTactic false
set_option linter.unreachableTactic false


theorem State.hostWrite_keep {s : State} {port : Nat} {addr : Nat} {bs : List Byte} (hwf : Keeps s) : Keeps
    (State.hostWrite s port addr bs) := by
  unfold State.hostWrite
  repeat' (first
    | with_reducible assumption | extract_lets | (lift_lets; extract_lets) | intro _ | simp only [Keeps.mk_iff]
    | with_reducible apply Keeps.mem | with_reducible exact Mem.wf_empty | with_reducible apply ite_keep | split
    | dsimp only | dsimp +zetaDelta only
    )

theorem State.hdPut_keep {s : State} {part : Nat} {port : Nat} {host : Bool} {dst : Nat} {ps : List Piece} (hwf :
    Keeps s) : Keeps (State.hdPut s part port host dst ps) := by
  unfold State.hdPut
  repeat' (first
    | with_reducible assumption | extract_lets | (lift_lets; extract_lets) | intro _
    | with_reducible apply State.putPieces_keep | with_reducible apply State.hostWrite_keep
    | simp only [Keeps1.mk_iff] | simp only [Keeps2.mk_iff] | with_reducible apply foldl_keep
    | with_reducible apply foldlP_keep | with_reducible refine foldlP_keep_eq (by assumption) ?_ ?_
    | with_reducible apply foldlQ_keep | with_reducible refine foldlQ_keep_eq (by assumption) ?_ ?_
    | with_reducible apply ite_keep | with_reducible apply Keeps1.fst | with_reducible apply Keeps2.snd | split
    | dsimp only | dsimp +zetaDelta only
    )

theorem State.hdCopyMove_keep {s : State} {part : Nat} {port : Nat} {pk : Packet} {j : HostJob} {ue : List Nat}
    (hwf : Keeps s) : Keeps1 (State.hdCopyMove s part port pk j ue) := by
  unfold State.hdCopyMove
  repeat' (first
    | with_reducible assumption | extract_lets | (lift_lets; extract_lets) | intro _
    | with_reducible apply State.noteUes_keep | with_reducible apply State.hdPut_keep | simp only [Keeps1.mk_iff]
    | with_reducible apply ite_keep | with_reducible apply Keeps1.fst | split | dsimp only | dsimp +zetaDelta only
    )
theorem State.hdCopyMove_keep_eq {s : State} {part : Nat} {port : Nat} {pk : Packet} {j : HostJob} {ue : List Nat}
    {s' : State} {x' : Nat × Nat} (e : State.hdCopyMove s part port pk j ue = (s', x')) (hwf : Keeps s) : Keeps s'
    := by
  have k : Keeps1 (State.hdCopyMove s part port pk j ue) := State.hdCopyMove_keep  hwf
  rw [e] at k
  exact k

theorem State.hdElem_keep {s : State} {part : Nat} {port : Nat} {pk : Packet} {j : HostJob} {ue : List Nat} {k :
    Nat} (hwf : Keeps s) : Keeps1 (State.hdElem s part port pk j ue k) := by
  unfold State.hdElem
  repeat' (first
    | with_reducible assumption | extract_lets | (lift_lets; extract_lets) | intro _
    | with_reducible apply State.noteUes_keep | with_reducible apply State.hdPut_keep | simp only [Keeps1.mk_iff]
    | with_reducible apply ite_keep | with_reducible apply Keeps1.fst | split | dsimp only | dsimp +zetaDelta only
    )
theorem State.hdElem_keep_eq {s : State} {part : Nat} {port : Nat} {pk : Packet} {j : HostJob} {ue : List Nat} {k
    : Nat} {s' : State} {x' : Option Nat} (e : State.hdElem s part port pk j ue k = (s', x')) (hwf : Keeps s) :
    Keeps s' := by
  have k : Keeps1 (State.hdElem s part port pk j ue k) := State.hdElem_keep  hwf
  rw [e] at k
  exact k

theorem State.hdElemsMove_keep {s : State} {part : Nat} {port : Nat} {pk : Packet} {j : HostJob} {ue : List Nat}
    (hwf : Keeps s) : Keeps1 (State.hdElemsMove s part port pk j ue) := by
  unfold State.hdElemsMove
  repeat' (first
    | with_reducible assumption | extract_lets | (lift_lets; extract_lets) | intro _
    | with_reducible apply State.hdElem_keep | with_reducible refine State.hdElem_keep_eq (by assumption) ?_
    | simp only [Keeps1.mk_iff] | simp only [Keeps2.mk_iff] | with_reducible apply foldl_keep
    | with_reducible apply foldlP_keep | with_reducible refine foldlP_keep_eq (by assumption) ?_ ?_
    | with_reducible apply foldlQ_keep | with_reducible refine foldlQ_keep_eq (by assumption) ?_ ?_
    | with_reducible apply ite_keep | with_reducible apply Keeps1.fst | with_reducible apply Keeps2.snd | split
    | dsimp only | dsimp +zetaDelta only
    )
theorem State.hdElemsMove_keep_eq {s : State} {part : Nat} {port : Nat} {pk : Packet} {j : HostJob} {ue : List
    Nat} {s' : State} {x' : Nat × Nat} (e : State.hdElemsMove s part port pk j ue = (s', x')) (hwf : Keeps s) :
    Keeps s' := by
  have k : Keeps1 (State.hdElemsMove s part port pk j ue) := State.hdElemsMove_keep  hwf
  rw [e] at k
  exact k

theorem State.hdCharge_keep {s : State} {part : Nat} {die : Nat} {pk : Packet} (hwf : Keeps s) : Keeps
    (State.hdCharge s part die pk) := by
  unfold State.hdCharge
  repeat' (first
    | with_reducible assumption | extract_lets | (lift_lets; extract_lets) | intro _
    | with_reducible apply State.chargeExtent_keep | with_reducible apply State.charge_keep
    | with_reducible apply ite_keep | split | dsimp only | dsimp +zetaDelta only
    )

theorem State.hdFinish_keep {s : State} {f : Flight} {j : HostJob} {ue : List Nat} (hwf : Keeps s) : Keeps
    (State.hdFinish s f j ue) := by
  unfold State.hdFinish
  repeat' (first
    | with_reducible assumption | extract_lets | (lift_lets; extract_lets) | intro _
    | with_reducible apply State.hdCharge_keep | with_reducible apply State.hdCopyMove_keep
    | with_reducible refine State.hdCopyMove_keep_eq (by assumption) ?_ | with_reducible apply State.hdElemsMove_keep
    | with_reducible refine State.hdElemsMove_keep_eq (by assumption) ?_ | with_reducible apply State.notePairs_keep
    | with_reducible apply State.commit_keep
    | simp only [Keeps1.mk_iff] | simp only [Keeps2.mk_iff]
    | simp only [Keeps.mk_iff] | with_reducible apply foldl_keep | with_reducible apply foldlM_keep
    | with_reducible apply iteM_keep | (simp only [Mem.wf_mk]; refine ⟨?_, ?_, ?_⟩)
    | with_reducible apply Tab.wf_put | with_reducible apply Tab.wf_putAll | with_reducible apply Tab.wf_filter
    | with_reducible apply Tab.wf_keep | with_reducible apply Tab.wf_merge | with_reducible exact Tab.wf_nil _
    | with_reducible apply Mem.bytes_keep | with_reducible apply Mem.pool_keep | with_reducible apply Mem.basin_keep
    | with_reducible apply Keeps.mem | with_reducible exact Mem.wf_empty | with_reducible apply foldlP_keep
    | with_reducible refine foldlP_keep_eq (by assumption) ?_ ?_ | with_reducible apply foldlQ_keep
    | with_reducible refine foldlQ_keep_eq (by assumption) ?_ ?_ | with_reducible apply OptKeeps.map
    | with_reducible exact OptKeeps.none | with_reducible apply OptKeeps.some | with_reducible apply SumKeeps.of_inl
    | with_reducible apply SumKeeps.of_inr | with_reducible apply id_keep | with_reducible apply ite_keep
    | with_reducible apply Keeps1.fst | with_reducible apply Keeps2.snd | with_reducible apply next_keep
    | with_reducible apply fault_keep | split | dsimp only | dsimp +zetaDelta only
    )

theorem State.hdBegin_keep {s : State} {f : Flight} {ue : List Nat} (hwf : Keeps s) : Keeps (State.hdBegin s f ue)
    := by
  unfold State.hdBegin
  repeat' (first
    | with_reducible assumption | extract_lets | (lift_lets; extract_lets) | intro _
    | with_reducible apply State.failWith_keep | with_reducible apply State.notePairs_keep
    | with_reducible apply State.hdFinish_keep
    | simp only [Keeps1.mk_iff] | simp only [Keeps2.mk_iff]
    | simp only [Keeps.mk_iff] | with_reducible apply foldl_keep | with_reducible apply foldlM_keep
    | with_reducible apply iteM_keep | (simp only [Mem.wf_mk]; refine ⟨?_, ?_, ?_⟩)
    | with_reducible apply Tab.wf_put | with_reducible apply Tab.wf_putAll | with_reducible apply Tab.wf_filter
    | with_reducible apply Tab.wf_keep | with_reducible apply Tab.wf_merge | with_reducible exact Tab.wf_nil _
    | with_reducible apply Mem.bytes_keep | with_reducible apply Mem.pool_keep | with_reducible apply Mem.basin_keep
    | with_reducible apply Keeps.mem | with_reducible exact Mem.wf_empty | with_reducible apply foldlP_keep
    | with_reducible refine foldlP_keep_eq (by assumption) ?_ ?_ | with_reducible apply foldlQ_keep
    | with_reducible refine foldlQ_keep_eq (by assumption) ?_ ?_ | with_reducible apply OptKeeps.map
    | with_reducible exact OptKeeps.none | with_reducible apply OptKeeps.some | with_reducible apply SumKeeps.of_inl
    | with_reducible apply SumKeeps.of_inr | with_reducible apply id_keep | with_reducible apply ite_keep
    | with_reducible apply Keeps1.fst | with_reducible apply Keeps2.snd | with_reducible apply next_keep
    | with_reducible apply fault_keep | split | dsimp only | dsimp +zetaDelta only
    )

theorem execCopy_keep {path : Path} {pk : Packet} {ue : List Nat} {s : State} (hwf : Keeps s) : OutKeeps (execCopy
    path pk ue s) := by
  unfold execCopy
  repeat' (first
    | with_reducible assumption | extract_lets | (lift_lets; extract_lets) | intro _
    | with_reducible apply State.hdBegin_keep | with_reducible apply beginOn_keep | with_reducible apply ite_keep
    | with_reducible apply next_keep | with_reducible apply fault_keep | split | dsimp only | dsimp +zetaDelta only
    )

theorem execGather_keep {path : Path} {pk : Packet} {ue : List Nat} {s : State} (hwf : Keeps s) : OutKeeps
    (execGather path pk ue s) := by
  unfold execGather
  repeat' (first
    | with_reducible assumption | extract_lets | (lift_lets; extract_lets) | intro _
    | with_reducible apply State.hdBegin_keep | with_reducible apply beginOn_keep | with_reducible apply ite_keep
    | with_reducible apply next_keep | with_reducible apply fault_keep | split | dsimp only | dsimp +zetaDelta only
    )

theorem execScatter_keep {path : Path} {pk : Packet} {ue : List Nat} {s : State} (hwf : Keeps s) : OutKeeps
    (execScatter path pk ue s) := by
  unfold execScatter
  repeat' (first
    | with_reducible assumption | extract_lets | (lift_lets; extract_lets) | intro _
    | with_reducible apply State.hdBegin_keep | with_reducible apply beginOn_keep | with_reducible apply ite_keep
    | with_reducible apply next_keep | with_reducible apply fault_keep | split | dsimp only | dsimp +zetaDelta only
    )

theorem execHostReadCompletion_keep {cmd : Nat} {elem : Nat} {off : Nat} {len : Nat} {data : List Byte} {cause :
    Nat} {ue : List Nat} {s : State} (hwf : Keeps s) : OutKeeps (execHostReadCompletion cmd elem off len data
    cause ue s) := by
  unfold execHostReadCompletion
  repeat' (first
    | with_reducible assumption | extract_lets | (lift_lets; extract_lets) | intro _
    | with_reducible apply State.hdFinish_keep | simp only [Keeps.mk_iff] | with_reducible apply Keeps.mem
    | with_reducible exact Mem.wf_empty | with_reducible apply ite_keep | with_reducible apply next_keep
    | with_reducible apply fault_keep | split | dsimp only | dsimp +zetaDelta only
    )

end Sys2Proof.Machine
end

