-- ==== Sys2Proof/Laws/MemCollOps.lean ====
section
/-! SUPPORT. Every operation of Machine/CollOps.lean keeps the canonical form of the byte memories. -/

namespace Sys2Proof.Machine

set_option linter.unusedVariables false
set_option linter.unusedSimpArgs false
set_option linter.unusedTactic false
set_option linter.unreachableTactic false


theorem State.updGroup_keep {s : State} {n : Nat} {f : Group → Group} (hwf : Keeps s) : Keeps (State.updGroup s n
    f) := by
  unfold State.updGroup
  repeat' (first
    | with_reducible assumption | extract_lets | (lift_lets; extract_lets) | intro _ | simp only [Keeps.mk_iff]
    | with_reducible apply Keeps.mem | with_reducible exact Mem.wf_empty | with_reducible apply ite_keep | split
    | dsimp only | dsimp +zetaDelta only
    )

theorem State.updColl_keep {s : State} {n : Nat} {seq : Nat} {f : Coll → Coll} (hwf : Keeps s) : Keeps
    (State.updColl s n seq f) := by
  unfold State.updColl
  repeat' (first
    | with_reducible assumption | extract_lets | (lift_lets; extract_lets) | intro _
    | with_reducible apply State.updGroup_keep | with_reducible apply ite_keep | split | dsimp only
    | dsimp +zetaDelta only
    )

theorem State.collCtl_keep {s : State} {n : Nat} {rank : Nat} {csub : Nat} {seq : Nat} {value : Nat} {value2 :
    Nat} (hwf : Keeps s) : Keeps (State.collCtl s n rank csub seq value value2) := by
  unfold State.collCtl
  repeat' (first
    | with_reducible assumption | extract_lets | (lift_lets; extract_lets) | intro _
    | with_reducible apply State.sendMsg_keep | with_reducible apply id_keep | with_reducible apply ite_keep | split
    | dsimp only | dsimp +zetaDelta only
    )

theorem State.collAll_keep {s : State} {n : Nat} {csub : Nat} {seq : Nat} {value : Nat} {value2 : Nat} (hwf :
    Keeps s) : Keeps (State.collAll s n csub seq value value2) := by
  unfold State.collAll
  repeat' (first
    | with_reducible assumption | extract_lets | (lift_lets; extract_lets) | intro _
    | with_reducible apply State.collCtl_keep | simp only [Keeps1.mk_iff] | simp only [Keeps2.mk_iff]
    | with_reducible apply foldl_keep | with_reducible apply foldlP_keep
    | with_reducible refine foldlP_keep_eq (by assumption) ?_ ?_ | with_reducible apply foldlQ_keep
    | with_reducible refine foldlQ_keep_eq (by assumption) ?_ ?_ | with_reducible apply ite_keep
    | with_reducible apply Keeps1.fst | with_reducible apply Keeps2.snd | split | dsimp only | dsimp +zetaDelta only
    )

theorem State.takeCtl_keep {s : State} {csub : Nat} (hwf : Keeps s) : OptKeeps (State.takeCtl s csub) := by
  unfold State.takeCtl
  repeat' (first
    | with_reducible assumption | extract_lets | (lift_lets; extract_lets) | intro _ | simp only [Keeps2.mk_iff]
    | simp only [Keeps.mk_iff] | with_reducible apply Keeps.mem | with_reducible exact Mem.wf_empty
    | with_reducible apply ite_keep | with_reducible apply OptKeeps.map | with_reducible exact OptKeeps.none
    | with_reducible apply OptKeeps.some | with_reducible apply Keeps2.snd | split | dsimp only
    | dsimp +zetaDelta only
    )
theorem State.takeCtl_keep_eq {s : State} {csub : Nat} {s' : State} {x' : TMsg} (e : State.takeCtl s csub = some
    (x', s')) (hwf : Keeps s) : Keeps s' := by
  have k : OptKeeps (State.takeCtl s csub) := State.takeCtl_keep  hwf
  rw [e] at k
  exact k.keep _ rfl

theorem State.onCtl_keep {s : State} {csub : Nat} {body : Nat → Nat → TMsg → State → State} (h_body : ∀ x0 x1 x2
    x3, Keeps x3 → Keeps (body x0 x1 x2 x3)) (hwf : Keeps s) : OutKeeps (State.onCtl s csub body) := by
  unfold State.onCtl
  repeat' (first
    | with_reducible assumption | extract_lets | (lift_lets; extract_lets) | intro _ | with_reducible apply h_body
    | with_reducible refine State.takeCtl_keep_eq (by assumption) ?_ | simp only [Keeps.mk_iff]
    | with_reducible apply Keeps.mem | with_reducible exact Mem.wf_empty | with_reducible apply ite_keep
    | with_reducible apply next_keep | with_reducible apply fault_keep | split | dsimp only | dsimp +zetaDelta only
    )

theorem State.endColl_keep {s : State} {n : Nat} {seq : Nat} {status : Nat} {words : List Nat} (hwf : Keeps s) :
    Keeps (State.endColl s n seq status words) := by
  unfold State.endColl
  repeat' (first
    | with_reducible assumption | extract_lets | (lift_lets; extract_lets) | intro _
    | with_reducible apply State.updGroup_keep | with_reducible apply State.commit_keep | simp only [Keeps.mk_iff]
    | with_reducible apply foldlM_keep | with_reducible apply iteM_keep
    | (simp only [Mem.wf_mk]; refine ⟨?_, ?_, ?_⟩) | with_reducible apply Tab.wf_put
    | with_reducible apply Tab.wf_putAll | with_reducible apply Tab.wf_filter | with_reducible apply Tab.wf_keep
    | with_reducible apply Tab.wf_merge | with_reducible exact Tab.wf_nil _ | with_reducible apply Mem.bytes_keep
    | with_reducible apply Mem.pool_keep | with_reducible apply Mem.basin_keep | with_reducible apply Keeps.mem
    | with_reducible exact Mem.wf_empty | with_reducible apply ite_keep | split | dsimp only | dsimp +zetaDelta only
    )

theorem State.spoilColl_keep {s : State} {n : Nat} {c : Coll} (hwf : Keeps s) : Keeps (State.spoilColl s n c) :=
    by
  unfold State.spoilColl
  repeat' (first
    | with_reducible assumption | extract_lets | (lift_lets; extract_lets) | intro _
    | with_reducible apply State.writeVA_keep | simp only [Keeps.mk_iff] | with_reducible apply Keeps.mem
    | with_reducible exact Mem.wf_empty | with_reducible apply ite_keep | split | dsimp only | dsimp +zetaDelta only
    )

theorem State.refuseColl_keep {s : State} {n : Nat} {seq : Nat} {cause : Nat} (hwf : Keeps s) : Keeps
    (State.refuseColl s n seq cause) := by
  unfold State.refuseColl
  repeat' (first
    | with_reducible assumption | extract_lets | (lift_lets; extract_lets) | intro _
    | with_reducible apply State.spoilColl_keep | with_reducible apply State.endColl_keep | simp only [Keeps.mk_iff]
    | with_reducible apply Keeps.mem | with_reducible exact Mem.wf_empty | with_reducible apply ite_keep | split
    | dsimp only | dsimp +zetaDelta only
    )

theorem State.learnLost_keep {s : State} {n : Nat} {rank : Nat} (hwf : Keeps s) : Keeps (State.learnLost s n rank)
    := by
  unfold State.learnLost
  repeat' (first
    | with_reducible assumption | extract_lets | (lift_lets; extract_lets) | intro _
    | with_reducible apply State.updGroup_keep | with_reducible apply State.collCtl_keep
    | with_reducible apply State.endColl_keep | simp only [Keeps1.mk_iff] | simp only [Keeps2.mk_iff]
    | simp only [Keeps.mk_iff] | with_reducible apply foldl_keep | with_reducible apply Keeps.mem
    | with_reducible exact Mem.wf_empty | with_reducible apply foldlP_keep
    | with_reducible refine foldlP_keep_eq (by assumption) ?_ ?_ | with_reducible apply foldlQ_keep
    | with_reducible refine foldlQ_keep_eq (by assumption) ?_ ?_ | with_reducible apply ite_keep
    | with_reducible apply Keeps1.fst | with_reducible apply Keeps2.snd | split | dsimp only | dsimp +zetaDelta only
    )

theorem State.groupsLost_keep {s : State} {pkg : Nat} (hwf : Keeps s) : Keeps (State.groupsLost s pkg) := by
  unfold State.groupsLost
  repeat' (first
    | with_reducible assumption | extract_lets | (lift_lets; extract_lets) | intro _
    | with_reducible apply State.learnLost_keep | simp only [Keeps1.mk_iff] | simp only [Keeps2.mk_iff]
    | simp only [Keeps.mk_iff] | with_reducible apply foldl_keep | with_reducible apply Keeps.mem
    | with_reducible exact Mem.wf_empty | with_reducible apply foldlP_keep
    | with_reducible refine foldlP_keep_eq (by assumption) ?_ ?_ | with_reducible apply foldlQ_keep
    | with_reducible refine foldlQ_keep_eq (by assumption) ?_ ?_ | with_reducible apply ite_keep
    | with_reducible apply Keeps1.fst | with_reducible apply Keeps2.snd | split | dsimp only | dsimp +zetaDelta only
    )

theorem State.sendStream_keep {s : State} {f n seq : Nat} {o : CollOut} {ue : List Nat} (hwf : Keeps s) : Keeps (State.sendStream f s n seq o ue) := by
  induction f generalizing s n seq o ue with
  | zero => (try unfold State.sendStream); exact hwf
  | succ n ih =>
    unfold State.sendStream
    repeat' (first
      | with_reducible assumption | extract_lets | (lift_lets; extract_lets) | intro _ | with_reducible apply ih
      | with_reducible apply State.chargeExtent_keep | with_reducible apply State.sendPacket_keep
      | with_reducible refine State.sendPacket_keep_eq (by assumption) ?_ | with_reducible apply State.learnLost_keep
      | with_reducible apply State.updColl_keep | simp only [Keeps1.mk_iff] | simp only [Keeps.mk_iff]
      | with_reducible apply Keeps.mem | with_reducible exact Mem.wf_empty | with_reducible apply id_keep
      | with_reducible apply ite_keep | with_reducible apply Keeps1.fst | split | dsimp only | dsimp +zetaDelta only
      )

theorem State.sendStreams_keep {s : State} {n : Nat} {seq : Nat} {ue : List Nat} (hwf : Keeps s) : Keeps
    (State.sendStreams s n seq ue) := by
  unfold State.sendStreams
  repeat' (first
    | with_reducible assumption | extract_lets | (lift_lets; extract_lets) | intro _
    | with_reducible apply State.sendStream_keep | simp only [Keeps1.mk_iff] | simp only [Keeps2.mk_iff]
    | simp only [Keeps.mk_iff] | with_reducible apply foldl_keep | with_reducible apply Keeps.mem
    | with_reducible exact Mem.wf_empty | with_reducible apply foldlP_keep
    | with_reducible refine foldlP_keep_eq (by assumption) ?_ ?_ | with_reducible apply foldlQ_keep
    | with_reducible refine foldlQ_keep_eq (by assumption) ?_ ?_ | with_reducible apply ite_keep
    | with_reducible apply Keeps1.fst | with_reducible apply Keeps2.snd | split | dsimp only | dsimp +zetaDelta only
    )

theorem State.writeUnit_keep {s : State} {n : Nat} {seq : Nat} {b : Nat} {bs : List Byte} {bad : Bool} (hwf :
    Keeps s) : Keeps (State.writeUnit s n seq b bs bad) := by
  unfold State.writeUnit
  repeat' (first
    | with_reducible assumption | extract_lets | (lift_lets; extract_lets) | intro _
    | with_reducible apply State.chargeExtent_keep | with_reducible apply State.poisonVA_keep
    | with_reducible apply State.writeVA_keep | with_reducible apply State.updColl_keep | simp only [Keeps.mk_iff]
    | with_reducible apply Keeps.mem | with_reducible exact Mem.wf_empty | with_reducible apply ite_keep | split
    | dsimp only | dsimp +zetaDelta only
    )

theorem State.genBad_keep {s : State} {n : Nat} {c : Coll} {b : List Byte} (hwf : Keeps s) : Keeps2 (State.genBad
    s n c b) := by
  unfold State.genBad
  repeat' (first
    | with_reducible assumption | extract_lets | (lift_lets; extract_lets) | intro _
    | with_reducible apply State.record_keep | simp only [Keeps2.mk_iff] | with_reducible apply id_keep
    | with_reducible apply ite_keep | with_reducible apply Keeps2.snd | split | dsimp only | dsimp +zetaDelta only
    )
theorem State.genBad_keep_eq {s : State} {n : Nat} {c : Coll} {b : List Byte} {s' : State} {x' : Bool} (e :
    State.genBad s n c b = (x', s')) (hwf : Keeps s) : Keeps s' := by
  have k : Keeps2 (State.genBad s n c b) := State.genBad_keep  hwf
  rw [e] at k
  exact k

theorem State.formOwned_keep {s : State} {n : Nat} {seq : Nat} {b : Nat} {ue : List Nat} (hwf : Keeps s) : Keeps
    (State.formOwned s n seq b ue) := by
  unfold State.formOwned
  repeat' (first
    | with_reducible assumption | extract_lets | (lift_lets; extract_lets) | intro _
    | with_reducible apply State.genBad_keep | with_reducible refine State.genBad_keep_eq (by assumption) ?_
    | with_reducible apply State.writeUnit_keep | with_reducible apply State.updColl_keep
    | simp only [Keeps1.mk_iff] | simp only [Keeps2.mk_iff]
    | simp only [Keeps.mk_iff] | with_reducible apply foldl_keep | with_reducible apply foldlM_keep
    | with_reducible apply iteM_keep | (simp only [Mem.wf_mk]; refine ⟨?_, ?_, ?_⟩)
    | with_reducible apply Tab.wf_put | with_reducible apply Tab.wf_putAll | with_reducible apply Tab.wf_filter
    | with_reducible apply Tab.wf_keep | with_reducible apply Tab.wf_merge | with_reducible exact Tab.wf_nil _
    | with_reducible apply Mem.bytes_keep | with_reducible apply Mem.pool_keep | with_reducible apply Mem.basin_keep
    | with_reducible apply Keeps.mem | with_reducible exact Mem.wf_empty | with_reducible apply foldlP_keep
    | with_reducible refine foldlP_keep_eq (by assumption) ?_ ?_ | with_reducible apply foldlQ_keep
    | with_reducible refine foldlQ_keep_eq (by assumption) ?_ ?_ | with_reducible apply OptKeeps.map
    | with_reducible exact OptKeeps.none | with_reducible apply OptKeeps.some | with_reducible apply SumKeeps.of_inl
    | with_reducible apply SumKeeps.of_inr | with_reducible apply id_keep | with_reducible apply ite_keep
    | with_reducible apply Keeps1.fst | with_reducible apply Keeps2.snd | with_reducible apply next_keep
    | with_reducible apply fault_keep | split | dsimp only | dsimp +zetaDelta only
    )

theorem State.placeUnit_keep {s : State} {n : Nat} {seq : Nat} {phase : Nat} {q : Nat} {b : Nat} (hwf : Keeps s) :
    Keeps (State.placeUnit s n seq phase q b) := by
  unfold State.placeUnit
  repeat' (first
    | with_reducible assumption | extract_lets | (lift_lets; extract_lets) | intro _
    | with_reducible apply State.writeUnit_keep | with_reducible apply State.poisonVA_keep
    | with_reducible apply State.writeVA_keep | with_reducible apply State.genBad_keep
    | with_reducible refine State.genBad_keep_eq (by assumption) ?_ | simp only [Keeps2.mk_iff]
    | simp only [Keeps.mk_iff] | with_reducible apply Keeps.mem | with_reducible exact Mem.wf_empty
    | with_reducible apply ite_keep | with_reducible apply Keeps2.snd | split | dsimp only | dsimp +zetaDelta only
    )

theorem State.placeOwn_keep {s : State} {n : Nat} {seq : Nat} {b : Nat} {ue : List Nat} (hwf : Keeps s) : Keeps
    (State.placeOwn s n seq b ue) := by
  unfold State.placeOwn
  repeat' (first
    | with_reducible assumption | extract_lets | (lift_lets; extract_lets) | intro _
    | with_reducible apply State.writeUnit_keep | with_reducible apply State.poisonVA_keep
    | with_reducible apply State.writeVA_keep | simp only [Keeps.mk_iff] | with_reducible apply Keeps.mem
    | with_reducible exact Mem.wf_empty | with_reducible apply ite_keep | split | dsimp only | dsimp +zetaDelta only
    )

theorem State.placeRow_keep {s : State} {n : Nat} {seq : Nat} {pos : Nat} {bs : List Byte} {bad : Bool} (hwf :
    Keeps s) : Keeps (State.placeRow s n seq pos bs bad) := by
  unfold State.placeRow
  repeat' (first
    | with_reducible assumption | extract_lets | (lift_lets; extract_lets) | intro _
    | with_reducible apply State.chargeExtent_keep | with_reducible apply State.poisonVA_keep
    | with_reducible apply State.writeVA_keep | with_reducible apply State.updColl_keep | simp only [Keeps.mk_iff]
    | with_reducible apply Keeps.mem | with_reducible exact Mem.wf_empty | with_reducible apply ite_keep | split
    | dsimp only | dsimp +zetaDelta only
    )

theorem State.placeRows_keep {s : State} {n : Nat} {seq : Nat} {r : Nat} {cs : List (List Nat)} {ue : List Nat}
    (hwf : Keeps s) : Keeps (State.placeRows s n seq r cs ue) := by
  unfold State.placeRows
  repeat' (first
    | with_reducible assumption | extract_lets | (lift_lets; extract_lets) | intro _
    | with_reducible apply State.placeRow_keep | simp only [Keeps1.mk_iff] | simp only [Keeps2.mk_iff]
    | simp only [Keeps.mk_iff] | with_reducible apply foldl_keep | with_reducible apply Keeps.mem
    | with_reducible exact Mem.wf_empty | with_reducible apply foldlP_keep
    | with_reducible refine foldlP_keep_eq (by assumption) ?_ ?_ | with_reducible apply foldlQ_keep
    | with_reducible refine foldlQ_keep_eq (by assumption) ?_ ?_ | with_reducible apply ite_keep
    | with_reducible apply Keeps1.fst | with_reducible apply Keeps2.snd | split | dsimp only | dsimp +zetaDelta only
    )

theorem State.placeAll_keep {s : State} {n : Nat} {seq : Nat} {ue : List Nat} (hwf : Keeps s) : Keeps
    (State.placeAll s n seq ue) := by
  unfold State.placeAll
  repeat' (first
    | with_reducible assumption | extract_lets | (lift_lets; extract_lets) | intro _
    | with_reducible apply State.placeRows_keep | simp only [Keeps1.mk_iff] | simp only [Keeps2.mk_iff]
    | simp only [Keeps.mk_iff] | with_reducible apply foldl_keep | with_reducible apply Keeps.mem
    | with_reducible exact Mem.wf_empty | with_reducible apply foldlP_keep
    | with_reducible refine foldlP_keep_eq (by assumption) ?_ ?_ | with_reducible apply foldlQ_keep
    | with_reducible refine foldlQ_keep_eq (by assumption) ?_ ?_ | with_reducible apply ite_keep
    | with_reducible apply Keeps1.fst | with_reducible apply Keeps2.snd | split | dsimp only | dsimp +zetaDelta only
    )

theorem State.placeColl_keep {s : State} {n : Nat} {seq : Nat} {ue : List Nat} (hwf : Keeps s) : Keeps
    (State.placeColl s n seq ue) := by
  unfold State.placeColl
  repeat' (first
    | with_reducible assumption | extract_lets | (lift_lets; extract_lets) | intro _
    | with_reducible apply State.formOwned_keep | with_reducible apply State.placeUnit_keep
    | with_reducible apply State.placeOwn_keep | with_reducible apply State.placeAll_keep
    | simp only [Keeps1.mk_iff] | simp only [Keeps2.mk_iff] | simp only [Keeps.mk_iff]
    | with_reducible apply foldl_keep | with_reducible apply Keeps.mem | with_reducible exact Mem.wf_empty
    | with_reducible apply foldlP_keep | with_reducible refine foldlP_keep_eq (by assumption) ?_ ?_
    | with_reducible apply foldlQ_keep | with_reducible refine foldlQ_keep_eq (by assumption) ?_ ?_
    | with_reducible apply ite_keep | with_reducible apply Keeps1.fst | with_reducible apply Keeps2.snd | split
    | dsimp only | dsimp +zetaDelta only
    )

theorem State.grantAll_keep {s : State} {n : Nat} {seq : Nat} (hwf : Keeps s) : Keeps (State.grantAll s n seq) :=
    by
  unfold State.grantAll
  repeat' (first
    | with_reducible assumption | extract_lets | (lift_lets; extract_lets) | intro _
    | with_reducible apply State.updColl_keep | with_reducible apply State.collCtl_keep | simp only [Keeps1.mk_iff]
    | simp only [Keeps2.mk_iff] | simp only [Keeps.mk_iff] | with_reducible apply foldl_keep
    | with_reducible apply Keeps.mem | with_reducible exact Mem.wf_empty | with_reducible apply foldlP_keep
    | with_reducible refine foldlP_keep_eq (by assumption) ?_ ?_ | with_reducible apply foldlQ_keep
    | with_reducible refine foldlQ_keep_eq (by assumption) ?_ ?_ | with_reducible apply ite_keep
    | with_reducible apply Keeps1.fst | with_reducible apply Keeps2.snd | split | dsimp only | dsimp +zetaDelta only
    )

theorem State.rmemSend_keep {s : State} {n : Nat} {seq : Nat} {kind : Nat} {dstPkg : Nat} {dstPart : Nat} {va : Nat}
    {payload : List Byte} {bad : Bool} {what : Nat} {chunk : Nat} {back : Nat} (hwf : Keeps s) : Keeps
    (State.rmemSend s n seq kind dstPkg dstPart va payload bad what chunk back) := by
  unfold State.rmemSend
  repeat' (first
    | with_reducible assumption | extract_lets | (lift_lets; extract_lets) | intro _
    | with_reducible apply State.sendPacket_keep | with_reducible refine State.sendPacket_keep_eq (by assumption) ?_
    | with_reducible apply State.learnLost_keep
    | simp only [Keeps1.mk_iff] | simp only [Keeps2.mk_iff]
    | simp only [Keeps.mk_iff] | with_reducible apply foldl_keep | with_reducible apply foldlM_keep
    | with_reducible apply iteM_keep | (simp only [Mem.wf_mk]; refine ⟨?_, ?_, ?_⟩)
    | with_reducible apply Tab.wf_put | with_reducible apply Tab.wf_putAll | with_reducible apply Tab.wf_filter
    | with_reducible apply Tab.wf_keep | with_reducible apply Tab.wf_merge | with_reducible exact Tab.wf_nil _
    | with_reducible apply Mem.bytes_keep | with_reducible apply Mem.pool_keep | with_reducible apply Mem.basin_keep
    | with_reducible apply Keeps.mem | with_reducible exact Mem.wf_empty | with_reducible apply foldlP_keep
    | with_reducible refine foldlP_keep_eq (by assumption) ?_ ?_ | with_reducible apply foldlQ_keep
    | with_reducible refine foldlQ_keep_eq (by assumption) ?_ ?_ | with_reducible apply OptKeeps.map
    | with_reducible exact OptKeeps.none | with_reducible apply OptKeeps.some | with_reducible apply SumKeeps.of_inl
    | with_reducible apply SumKeeps.of_inr | with_reducible apply id_keep | with_reducible apply ite_keep
    | with_reducible apply Keeps1.fst | with_reducible apply Keeps2.snd | with_reducible apply next_keep
    | with_reducible apply fault_keep | split | dsimp only | dsimp +zetaDelta only
    )

theorem State.sendChunk_keep {s : State} {n : Nat} {seq : Nat} {ch : Nat} {va : Nat} {ue : List Nat} (hwf : Keeps
    s) : Keeps (State.sendChunk s n seq ch va ue) := by
  unfold State.sendChunk
  repeat' (first
    | with_reducible assumption | extract_lets | (lift_lets; extract_lets) | intro _
    | with_reducible apply State.rmemSend_keep | simp only [Keeps1.mk_iff] | simp only [Keeps2.mk_iff]
    | simp only [Keeps.mk_iff] | with_reducible apply foldl_keep | with_reducible apply foldlM_keep
    | with_reducible apply iteM_keep | with_reducible apply Keeps.mem | with_reducible exact Mem.wf_empty
    | with_reducible apply foldlP_keep | with_reducible refine foldlP_keep_eq (by assumption) ?_ ?_
    | with_reducible apply foldlQ_keep | with_reducible refine foldlQ_keep_eq (by assumption) ?_ ?_
    | with_reducible apply ite_keep | with_reducible apply Keeps1.fst | with_reducible apply Keeps2.snd | split
    | dsimp only | dsimp +zetaDelta only
    )

theorem State.sendChunks_keep {s : State} {f n seq : Nat} {ue : List Nat} (hwf : Keeps s) : Keeps (State.sendChunks f s n seq ue) := by
  induction f generalizing s n seq ue with
  | zero => (try unfold State.sendChunks); exact hwf
  | succ n ih =>
    unfold State.sendChunks
    repeat' (first
      | with_reducible assumption | extract_lets | (lift_lets; extract_lets) | intro _ | with_reducible apply ih
      | with_reducible apply State.sendChunk_keep | with_reducible apply State.rmemSend_keep
      | with_reducible apply State.updColl_keep | simp only [Keeps1.mk_iff] | simp only [Keeps2.mk_iff]
      | simp only [Keeps.mk_iff] | with_reducible apply foldl_keep | with_reducible apply foldlM_keep
      | with_reducible apply iteM_keep | with_reducible apply Keeps.mem | with_reducible exact Mem.wf_empty
      | with_reducible apply foldlP_keep | with_reducible refine foldlP_keep_eq (by assumption) ?_ ?_
      | with_reducible apply foldlQ_keep | with_reducible refine foldlQ_keep_eq (by assumption) ?_ ?_
      | with_reducible apply ite_keep | with_reducible apply Keeps1.fst | with_reducible apply Keeps2.snd | split
      | dsimp only | dsimp +zetaDelta only
      )

theorem State.writeChunks_keep {s : State} {f n seq : Nat} (hwf : Keeps s) : Keeps (State.writeChunks f s n seq) := by
  induction f generalizing s n seq with
  | zero => (try unfold State.writeChunks); exact hwf
  | succ n ih =>
    unfold State.writeChunks
    repeat' (first
      | with_reducible assumption | extract_lets | (lift_lets; extract_lets) | intro _ | with_reducible apply ih
      | with_reducible apply State.chargeExtent_keep | with_reducible apply State.poisonVA_keep
      | with_reducible apply State.writeVA_keep | with_reducible apply State.updColl_keep
      | with_reducible apply State.collCtl_keep | simp only [Keeps.mk_iff] | with_reducible apply Keeps.mem
      | with_reducible exact Mem.wf_empty | with_reducible apply ite_keep | split | dsimp only | dsimp +zetaDelta only
      )

theorem State.finishRows_keep {s : State} {n : Nat} {seq : Nat} (hwf : Keeps s) : Keeps (State.finishRows s n seq)
    := by
  unfold State.finishRows
  repeat' (first
    | with_reducible assumption | extract_lets | (lift_lets; extract_lets) | intro _
    | with_reducible apply State.writeVA_keep | simp only [Keeps1.mk_iff] | simp only [Keeps2.mk_iff]
    | simp only [Keeps.mk_iff] | with_reducible apply foldl_keep | with_reducible apply Keeps.mem
    | with_reducible exact Mem.wf_empty | with_reducible apply foldlP_keep
    | with_reducible refine foldlP_keep_eq (by assumption) ?_ ?_ | with_reducible apply foldlQ_keep
    | with_reducible refine foldlQ_keep_eq (by assumption) ?_ ?_ | with_reducible apply ite_keep
    | with_reducible apply Keeps1.fst | with_reducible apply Keeps2.snd | split | dsimp only | dsimp +zetaDelta only
    )

theorem State.checkColl_keep {s : State} {n : Nat} {seq : Nat} (hwf : Keeps s) : Keeps (State.checkColl s n seq)
    := by
  unfold State.checkColl
  repeat' (first
    | with_reducible assumption | extract_lets | (lift_lets; extract_lets) | intro _
    | with_reducible apply State.finishRows_keep | with_reducible apply State.endColl_keep
    | simp only [Keeps.mk_iff] | with_reducible apply Keeps.mem | with_reducible exact Mem.wf_empty
    | with_reducible apply ite_keep | split | dsimp only | dsimp +zetaDelta only
    )

theorem State.driveColl_keep {s : State} {n : Nat} {seq : Nat} {ue : List Nat} (hwf : Keeps s) : Keeps
    (State.driveColl s n seq ue) := by
  unfold State.driveColl
  repeat' (first
    | with_reducible assumption | extract_lets | (lift_lets; extract_lets) | intro _
    | with_reducible apply State.sendStreams_keep | with_reducible apply State.writeChunks_keep
    | with_reducible apply State.sendChunks_keep | with_reducible apply State.placeColl_keep
    | with_reducible apply State.checkColl_keep | with_reducible apply State.grantAll_keep
    | simp only [Keeps.mk_iff] | with_reducible apply Keeps.mem | with_reducible exact Mem.wf_empty
    | with_reducible apply ite_keep | split | dsimp only | dsimp +zetaDelta only
    )

theorem State.failColl_keep {s : State} {n : Nat} {seq : Nat} {cause : Nat} (hwf : Keeps s) : Keeps
    (State.failColl s n seq cause) := by
  unfold State.failColl
  repeat' (first
    | with_reducible assumption | extract_lets | (lift_lets; extract_lets) | intro _
    | with_reducible apply State.refuseColl_keep | with_reducible apply State.endColl_keep
    | simp only [Keeps.mk_iff] | with_reducible apply Keeps.mem | with_reducible exact Mem.wf_empty
    | with_reducible apply ite_keep | split | dsimp only | dsimp +zetaDelta only
    )

theorem State.startPermute_keep {s : State} {n : Nat} {seq : Nat} (hwf : Keeps s) : Keeps (State.startPermute s n
    seq) := by
  unfold State.startPermute
  repeat' (first
    | with_reducible assumption | extract_lets | (lift_lets; extract_lets) | intro _
    | with_reducible apply State.updGroup_keep | with_reducible apply State.rmemSend_keep
    | with_reducible apply State.updColl_keep | simp only [Keeps1.mk_iff] | simp only [Keeps2.mk_iff]
    | simp only [Keeps.mk_iff] | with_reducible apply foldl_keep | with_reducible apply foldlM_keep
    | with_reducible apply iteM_keep | with_reducible apply Keeps.mem | with_reducible exact Mem.wf_empty
    | with_reducible apply foldlP_keep | with_reducible refine foldlP_keep_eq (by assumption) ?_ ?_
    | with_reducible apply foldlQ_keep | with_reducible refine foldlQ_keep_eq (by assumption) ?_ ?_
    | with_reducible apply ite_keep | with_reducible apply Keeps1.fst | with_reducible apply Keeps2.snd | split
    | dsimp only | dsimp +zetaDelta only
    )

theorem State.startColl_keep {s : State} {n : Nat} {seq : Nat} (hwf : Keeps s) : Keeps (State.startColl s n seq)
    := by
  unfold State.startColl
  repeat' (first
    | with_reducible assumption | extract_lets | (lift_lets; extract_lets) | intro _
    | with_reducible apply State.startPermute_keep | with_reducible apply State.refuseColl_keep
    | with_reducible apply State.updGroup_keep | with_reducible apply State.failColl_keep
    | with_reducible apply State.updColl_keep | with_reducible apply State.collCtl_keep
    | with_reducible apply State.collAll_keep | simp only [Keeps1.mk_iff] | simp only [Keeps2.mk_iff]
    | simp only [Keeps.mk_iff] | with_reducible apply foldl_keep | with_reducible apply Keeps.mem
    | with_reducible exact Mem.wf_empty | with_reducible apply foldlP_keep
    | with_reducible refine foldlP_keep_eq (by assumption) ?_ ?_ | with_reducible apply foldlQ_keep
    | with_reducible refine foldlQ_keep_eq (by assumption) ?_ ?_ | with_reducible apply ite_keep
    | with_reducible apply Keeps1.fst | with_reducible apply Keeps2.snd | split | dsimp only | dsimp +zetaDelta only
    )

theorem State.startColls_keep {s : State} {n : Nat} {ue : List Nat} (hwf : Keeps s) : Keeps (State.startColls s n
    ue) := by
  unfold State.startColls
  repeat' (first
    | with_reducible assumption | extract_lets | (lift_lets; extract_lets) | intro _
    | with_reducible apply State.refuseColl_keep | with_reducible apply State.driveColl_keep
    | with_reducible apply State.startColl_keep | simp only [Keeps1.mk_iff] | simp only [Keeps2.mk_iff]
    | simp only [Keeps.mk_iff] | with_reducible apply foldl_keep | with_reducible apply Keeps.mem
    | with_reducible exact Mem.wf_empty | with_reducible apply foldlP_keep
    | with_reducible refine foldlP_keep_eq (by assumption) ?_ ?_ | with_reducible apply foldlQ_keep
    | with_reducible refine foldlQ_keep_eq (by assumption) ?_ ?_ | with_reducible apply ite_keep
    | with_reducible apply Keeps1.fst | with_reducible apply Keeps2.snd | split | dsimp only | dsimp +zetaDelta only
    )

theorem State.driveGroup_keep {s : State} {n : Nat} {ue : List Nat} (hwf : Keeps s) : Keeps (State.driveGroup s n
    ue) := by
  unfold State.driveGroup
  repeat' (first
    | with_reducible assumption | extract_lets | (lift_lets; extract_lets) | intro _
    | with_reducible apply State.startColls_keep | with_reducible apply State.driveColl_keep
    | simp only [Keeps1.mk_iff] | simp only [Keeps2.mk_iff] | with_reducible apply foldl_keep
    | with_reducible apply foldlP_keep | with_reducible refine foldlP_keep_eq (by assumption) ?_ ?_
    | with_reducible apply foldlQ_keep | with_reducible refine foldlQ_keep_eq (by assumption) ?_ ?_
    | with_reducible apply ite_keep | with_reducible apply Keeps1.fst | with_reducible apply Keeps2.snd | split
    | dsimp only | dsimp +zetaDelta only
    )

theorem State.standbyJoin_keep {s : State} {pipe : Nat} {lost : Nat} (hwf : Keeps s) : Keeps (State.standbyJoin s
    pipe lost) := by
  unfold State.standbyJoin
  repeat' (first
    | with_reducible assumption | extract_lets | (lift_lets; extract_lets) | intro _
    | with_reducible apply State.updGroup_keep | with_reducible apply State.collAll_keep | simp only [Keeps1.mk_iff]
    | simp only [Keeps2.mk_iff] | simp only [Keeps.mk_iff] | with_reducible apply foldl_keep
    | with_reducible apply foldlM_keep | with_reducible apply iteM_keep | with_reducible apply Keeps.mem
    | with_reducible exact Mem.wf_empty | with_reducible apply foldlP_keep
    | with_reducible refine foldlP_keep_eq (by assumption) ?_ ?_ | with_reducible apply foldlQ_keep
    | with_reducible refine foldlQ_keep_eq (by assumption) ?_ ?_ | with_reducible apply ite_keep
    | with_reducible apply Keeps1.fst | with_reducible apply Keeps2.snd | split | dsimp only | dsimp +zetaDelta only
    )

end Sys2Proof.Machine
end

