-- ==== Sys2Proof/Laws/MemLossOps.lean ====
section
/-! SUPPORT. Every operation of Machine/LossOps.lean keeps the canonical form of the byte memories. -/

namespace Sys2Proof.Machine

set_option linter.unusedVariables false
set_option linter.unusedSimpArgs false
set_option linter.unusedTactic false
set_option linter.unreachableTactic false


theorem State.peerLost_keep {s : State} {port : Nat} {cause : Nat} (hwf : Keeps s) : Keeps (State.peerLost s port
    cause) := by
  unfold State.peerLost
  repeat' (first
    | with_reducible assumption | extract_lets | (lift_lets; extract_lets) | intro _
    | with_reducible apply State.declareLost_keep | with_reducible apply State.groupsLost_keep
    | with_reducible apply State.pkgLost_keep | simp only [Keeps.mk_iff] | with_reducible apply Keeps.mem
    | with_reducible exact Mem.wf_empty | with_reducible apply ite_keep | split | dsimp only | dsimp +zetaDelta only
    )

end Sys2Proof.Machine
end

