-- ==== Sys2Proof/Laws/MemServOps.lean ====
section
/-! SUPPORT. Every operation of Machine/ServOps.lean keeps the canonical form of the byte memories. -/

namespace Sys2Proof.Machine

set_option linter.unusedVariables false
set_option linter.unusedSimpArgs false
set_option linter.unusedTactic false
set_option linter.unreachableTactic false


theorem State.updAst_keep {s : State} {i : Nat} {f : AstEntry → AstEntry} (hwf : Keeps s) : Keeps (State.updAst s
    i f) := by
  unfold State.updAst
  repeat' (first
    | with_reducible assumption | extract_lets | (lift_lets; extract_lets) | intro _ | simp only [Keeps.mk_iff]
    | with_reducible apply Keeps.mem | with_reducible exact Mem.wf_empty | with_reducible apply ite_keep | split
    | dsimp only | dsimp +zetaDelta only
    )

theorem State.servWrite_keep {s : State} {part : Nat} {va : Nat} {b : List Byte} (hwf : Keeps s) : Keeps
    (State.servWrite s part va b) := by
  unfold State.servWrite
  repeat' (first
    | with_reducible assumption | extract_lets | (lift_lets; extract_lets) | intro _
    | with_reducible apply State.chargeExtent_keep | with_reducible apply State.writeVA_keep
    | with_reducible apply ite_keep | split | dsimp only | dsimp +zetaDelta only
    )

theorem State.endSeq_keep {s : State} {i : Nat} {reason : Nat} (hwf : Keeps s) : Keeps (State.endSeq s i reason)
    := by
  unfold State.endSeq
  repeat' (first
    | with_reducible assumption | extract_lets | (lift_lets; extract_lets) | intro _
    | with_reducible apply State.servWrite_keep | with_reducible apply State.updModel_keep
    | with_reducible apply State.commit_keep | simp only [Keeps.mk_iff] | with_reducible apply Keeps.mem
    | with_reducible exact Mem.wf_empty | with_reducible apply ite_keep | split | dsimp only | dsimp +zetaDelta only
    )

theorem State.endWhere_keep {s : State} {p : AstEntry → Bool} {reason : Nat} (hwf : Keeps s) : Keeps
    (State.endWhere s p reason) := by
  unfold State.endWhere
  repeat' (first
    | with_reducible assumption | extract_lets | (lift_lets; extract_lets) | intro _
    | with_reducible apply State.endSeq_keep | simp only [Keeps1.mk_iff] | simp only [Keeps2.mk_iff]
    | with_reducible apply foldl_keep | with_reducible apply foldlP_keep
    | with_reducible refine foldlP_keep_eq (by assumption) ?_ ?_ | with_reducible apply foldlQ_keep
    | with_reducible refine foldlQ_keep_eq (by assumption) ?_ ?_ | with_reducible apply ite_keep
    | with_reducible apply Keeps1.fst | with_reducible apply Keeps2.snd | split | dsimp only | dsimp +zetaDelta only
    )

theorem State.missDeadline_keep {s : State} {i : Nat} (hwf : Keeps s) : Keeps (State.missDeadline s i) := by
  unfold State.missDeadline
  repeat' (first
    | with_reducible assumption | extract_lets | (lift_lets; extract_lets) | intro _
    | with_reducible apply State.updModel_keep | with_reducible apply State.record_keep
    | with_reducible apply State.updAst_keep | simp only [Keeps.mk_iff] | with_reducible apply Keeps.mem
    | with_reducible exact Mem.wf_empty | with_reducible apply ite_keep | split | dsimp only | dsimp +zetaDelta only
    )

theorem State.monitorOne_keep {s : State} {n : Nat} {i : Nat} (hwf : Keeps s) : Keeps (State.monitorOne s n i) :=
    by
  unfold State.monitorOne
  repeat' (first
    | with_reducible assumption | extract_lets | (lift_lets; extract_lets) | intro _
    | with_reducible apply State.missDeadline_keep | with_reducible apply State.updModel_keep
    | with_reducible apply State.record_keep | with_reducible apply State.updAst_keep | simp only [Keeps.mk_iff]
    | with_reducible apply Keeps.mem | with_reducible exact Mem.wf_empty | with_reducible apply ite_keep | split
    | dsimp only | dsimp +zetaDelta only
    )

theorem State.deadlineMonitor_keep {s : State} {n : Nat} (hwf : Keeps s) : Keeps (State.deadlineMonitor s n) := by
  unfold State.deadlineMonitor
  repeat' (first
    | with_reducible assumption | extract_lets | (lift_lets; extract_lets) | intro _
    | with_reducible apply State.monitorOne_keep | simp only [Keeps1.mk_iff] | simp only [Keeps2.mk_iff]
    | with_reducible apply foldl_keep | with_reducible apply foldlP_keep
    | with_reducible refine foldlP_keep_eq (by assumption) ?_ ?_ | with_reducible apply foldlQ_keep
    | with_reducible refine foldlQ_keep_eq (by assumption) ?_ ?_ | with_reducible apply ite_keep
    | with_reducible apply Keeps1.fst | with_reducible apply Keeps2.snd | split | dsimp only | dsimp +zetaDelta only
    )

theorem State.applyRow_keep {s : State} {n : Nat} {step : Nat} {k : Nat} {r : ServRow} {ue : List Nat} (hwf :
    Keeps s) : Keeps (State.applyRow s n step k r ue) := by
  unfold State.applyRow
  repeat' (first
    | with_reducible assumption | extract_lets | (lift_lets; extract_lets) | intro _
    | with_reducible apply State.chargeExtent_keep | with_reducible apply State.missDeadline_keep
    | with_reducible apply State.servWrite_keep | with_reducible apply State.updModel_keep
    | with_reducible apply State.updAst_keep | with_reducible apply State.endSeq_keep | simp only [Keeps.mk_iff]
    | with_reducible apply Keeps.mem | with_reducible exact Mem.wf_empty | with_reducible apply ite_keep | split
    | dsimp only | dsimp +zetaDelta only
    )

theorem State.admitList_keep {s : State} {n : Nat} {l : List (Nat × AstEntry)} (hwf : Keeps s) : Keeps (State.admitList s n l) := by
  induction l generalizing s n with
  | nil => (try unfold State.admitList); exact hwf
  | cons x t ih =>
    unfold State.admitList
    repeat' (first
      | with_reducible assumption | extract_lets | (lift_lets; extract_lets) | intro _ | with_reducible apply ih
      | with_reducible apply State.updAst_keep | simp only [Keeps.mk_iff] | with_reducible apply Keeps.mem
      | with_reducible exact Mem.wf_empty | with_reducible apply ite_keep | split | dsimp only | dsimp +zetaDelta only
      )

theorem State.admitPending_keep {s : State} {n : Nat} (hwf : Keeps s) : Keeps (State.admitPending s n) := by
  unfold State.admitPending
  repeat' (first
    | with_reducible assumption | extract_lets | (lift_lets; extract_lets) | intro _
    | with_reducible apply State.admitList_keep | with_reducible apply ite_keep | split | dsimp only
    | dsimp +zetaDelta only
    )

theorem State.takeBlock_keep {s : State} {n : Nat} {i : Nat} (hwf : Keeps s) : Keeps (State.takeBlock s n i) := by
  unfold State.takeBlock
  repeat' (first
    | with_reducible assumption | extract_lets | (lift_lets; extract_lets) | intro _
    | with_reducible apply State.servWrite_keep | with_reducible apply State.updAst_keep | simp only [Keeps.mk_iff]
    | with_reducible apply Keeps.mem | with_reducible exact Mem.wf_empty | with_reducible apply ite_keep | split
    | dsimp only | dsimp +zetaDelta only
    )

theorem State.takeBlocks_keep {s : State} {n i k : Nat} (hwf : Keeps s) : Keeps (State.takeBlocks s n i k) := by
  induction k generalizing s n i with
  | zero => (try unfold State.takeBlocks); exact hwf
  | succ n ih =>
    unfold State.takeBlocks
    repeat' (first
      | with_reducible assumption | extract_lets | (lift_lets; extract_lets) | intro _ | with_reducible apply ih
      | with_reducible apply State.takeBlock_keep | with_reducible apply ite_keep | split | dsimp only
      | dsimp +zetaDelta only
      )

theorem State.decodeRow_keep {s : State} {n : Nat} {i : Nat} {b : ListBuild} (hwf : Keeps s) : Keeps1
    (State.decodeRow s n i b) := by
  unfold State.decodeRow
  repeat' (first
    | with_reducible assumption | extract_lets | (lift_lets; extract_lets) | intro _
    | with_reducible apply State.takeBlocks_keep | with_reducible apply State.updModel_keep
    | simp only [Keeps1.mk_iff] | simp only [Keeps.mk_iff] | with_reducible apply Keeps.mem
    | with_reducible exact Mem.wf_empty | with_reducible apply ite_keep | with_reducible apply Keeps1.fst | split
    | dsimp only | dsimp +zetaDelta only
    )
theorem State.decodeRow_keep_eq {s : State} {n : Nat} {i : Nat} {b : ListBuild} {s' : State} {x' : ListBuild} (e :
    State.decodeRow s n i b = (s', x')) (hwf : Keeps s) : Keeps s' := by
  have k : Keeps1 (State.decodeRow s n i b) := State.decodeRow_keep  hwf
  rw [e] at k
  exact k

theorem State.prefillRow_keep {s : State} {n : Nat} {i : Nat} {b : ListBuild} {budget : Nat} (hwf : Keeps s) :
    Keeps1 (State.prefillRow s n i b budget) := by
  unfold State.prefillRow
  repeat' (first
    | with_reducible assumption | extract_lets | (lift_lets; extract_lets) | intro _
    | with_reducible apply State.takeBlocks_keep | simp only [Keeps1.mk_iff] | simp only [Keeps.mk_iff]
    | with_reducible apply Keeps.mem | with_reducible exact Mem.wf_empty | with_reducible apply ite_keep
    | with_reducible apply Keeps1.fst | split | dsimp only | dsimp +zetaDelta only
    )
theorem State.prefillRow_keep_eq {s : State} {n : Nat} {i : Nat} {b : ListBuild} {budget : Nat} {s' : State} {x' :
    ListBuild × Nat} (e : State.prefillRow s n i b budget = (s', x')) (hwf : Keeps s) : Keeps s' := by
  have k : Keeps1 (State.prefillRow s n i b budget) := State.prefillRow_keep  hwf
  rw [e] at k
  exact k

theorem State.buildList_keep {s : State} {n : Nat} (hwf : Keeps s) : Keeps1 (State.buildList s n) := by
  unfold State.buildList
  repeat' (first
    | with_reducible assumption | extract_lets | (lift_lets; extract_lets) | intro _
    | with_reducible apply State.prefillRow_keep | with_reducible refine State.prefillRow_keep_eq (by assumption) ?_
    | with_reducible apply State.decodeRow_keep | with_reducible refine State.decodeRow_keep_eq (by assumption) ?_
    | simp only [Keeps1.mk_iff] | simp only [Keeps2.mk_iff] | with_reducible apply foldl_keep
    | with_reducible exact Mem.wf_empty | with_reducible apply foldlP_keep
    | with_reducible refine foldlP_keep_eq (by assumption) ?_ ?_ | with_reducible apply foldlQ_keep
    | with_reducible refine foldlQ_keep_eq (by assumption) ?_ ?_ | with_reducible apply ite_keep
    | with_reducible apply Keeps1.fst | with_reducible apply Keeps2.snd | split | dsimp only | dsimp +zetaDelta only
    )
theorem State.buildList_keep_eq {s : State} {n : Nat} {s' : State} {x' : ListBuild} (e : State.buildList s n =
    (s', x')) (hwf : Keeps s) : Keeps s' := by
  have k : Keeps1 (State.buildList s n) := State.buildList_keep  hwf
  rw [e] at k
  exact k

theorem State.sendWork_keep {s : State} {n : Nat} {step : Nat} {rows : List ServRow} (hwf : Keeps s) : Keeps
    (State.sendWork s n step rows) := by
  unfold State.sendWork
  repeat' (first
    | with_reducible assumption | extract_lets | (lift_lets; extract_lets) | intro _
    | with_reducible apply State.sendFirmware_keep | with_reducible apply State.servWrite_keep
    | with_reducible apply State.updModel_keep | simp only [Keeps1.mk_iff] | simp only [Keeps2.mk_iff]
    | simp only [Keeps.mk_iff] | with_reducible apply foldl_keep | with_reducible apply Keeps.mem
    | with_reducible exact Mem.wf_empty | with_reducible apply foldlP_keep
    | with_reducible refine foldlP_keep_eq (by assumption) ?_ ?_ | with_reducible apply foldlQ_keep
    | with_reducible refine foldlQ_keep_eq (by assumption) ?_ ?_ | with_reducible apply ite_keep
    | with_reducible apply Keeps1.fst | with_reducible apply Keeps2.snd | split | dsimp only | dsimp +zetaDelta only
    )

theorem State.startModel_keep {s : State} {n : Nat} (hwf : Keeps s) : Keeps (State.startModel s n) := by
  unfold State.startModel
  repeat' (first
    | with_reducible assumption | extract_lets | (lift_lets; extract_lets) | intro _
    | with_reducible apply State.startCore_keep | with_reducible apply State.updModel_keep
    | simp only [Keeps1.mk_iff] | simp only [Keeps2.mk_iff] | simp only [Keeps.mk_iff]
    | with_reducible apply foldl_keep | with_reducible apply Keeps.mem | with_reducible exact Mem.wf_empty
    | with_reducible apply foldlP_keep | with_reducible refine foldlP_keep_eq (by assumption) ?_ ?_
    | with_reducible apply foldlQ_keep | with_reducible refine foldlQ_keep_eq (by assumption) ?_ ?_
    | with_reducible apply ite_keep | with_reducible apply Keeps1.fst | with_reducible apply Keeps2.snd | split
    | dsimp only | dsimp +zetaDelta only
    )

theorem State.servStepFault_keep {s : State} {n : Nat} {cause : Nat} (hwf : Keeps s) : Keeps (State.servStepFault
    s n cause) := by
  unfold State.servStepFault
  repeat' (first
    | with_reducible assumption | extract_lets | (lift_lets; extract_lets) | intro _
    | with_reducible apply State.startModel_keep | with_reducible apply State.updModel_keep
    | with_reducible apply State.record_keep | with_reducible apply State.endSeq_keep | simp only [Keeps1.mk_iff]
    | simp only [Keeps2.mk_iff] | simp only [Keeps.mk_iff] | with_reducible apply foldl_keep
    | with_reducible apply Keeps.mem | with_reducible exact Mem.wf_empty | with_reducible apply foldlP_keep
    | with_reducible refine foldlP_keep_eq (by assumption) ?_ ?_ | with_reducible apply foldlQ_keep
    | with_reducible refine foldlQ_keep_eq (by assumption) ?_ ?_ | with_reducible apply ite_keep
    | with_reducible apply Keeps1.fst | with_reducible apply Keeps2.snd | split | dsimp only | dsimp +zetaDelta only
    )

theorem State.servReplay_keep {s : State} {n : Nat} (hwf : Keeps s) : Keeps (State.servReplay s n) := by
  unfold State.servReplay
  repeat' (first
    | with_reducible assumption | extract_lets | (lift_lets; extract_lets) | intro _
    | with_reducible apply State.startModel_keep | with_reducible apply State.updModel_keep
    | with_reducible apply State.sendWork_keep | with_reducible apply State.record_keep | simp only [Keeps.mk_iff]
    | with_reducible apply Keeps.mem | with_reducible exact Mem.wf_empty | with_reducible apply ite_keep | split
    | dsimp only | dsimp +zetaDelta only
    )

theorem State.servBoundary_keep {s : State} {n : Nat} {ue : List Nat} (hwf : Keeps s) : Keeps (State.servBoundary
    s n ue) := by
  unfold State.servBoundary
  repeat' (first
    | with_reducible assumption | extract_lets | (lift_lets; extract_lets) | intro _
    | with_reducible apply State.deadlineMonitor_keep | with_reducible apply State.admitPending_keep
    | with_reducible apply State.buildList_keep | with_reducible refine State.buildList_keep_eq (by assumption) ?_
    | with_reducible apply State.updModel_keep | with_reducible apply State.endWhere_keep
    | with_reducible apply State.applyRow_keep | with_reducible apply State.sendWork_keep
    | simp only [Keeps1.mk_iff] | simp only [Keeps2.mk_iff] | simp only [Keeps.mk_iff]
    | with_reducible apply foldl_keep | with_reducible apply Keeps.mem | with_reducible exact Mem.wf_empty
    | with_reducible apply foldlP_keep | with_reducible refine foldlP_keep_eq (by assumption) ?_ ?_
    | with_reducible apply foldlQ_keep | with_reducible refine foldlQ_keep_eq (by assumption) ?_ ?_
    | with_reducible apply ite_keep | with_reducible apply Keeps1.fst | with_reducible apply Keeps2.snd | split
    | dsimp only | dsimp +zetaDelta only
    )

end Sys2Proof.Machine
end

