-- ==== Sys2Proof/Laws/MemPackets.lean ====
section
/-! SUPPORT. Every operation of Machine/Packets.lean keeps the canonical form of the byte memories. -/

namespace Sys2Proof.Machine

set_option linter.unusedVariables false
set_option linter.unusedSimpArgs false
set_option linter.unusedTactic false
set_option linter.unreachableTactic false


theorem State.takePacketOn_keep {s : State} {path : Path} {pk : Packet} {sqHead : Nat} {m : Option Master} (hwf :
    Keeps s) : Keeps (State.takePacketOn s path pk sqHead m) := by
  unfold State.takePacketOn
  repeat' (first
    | with_reducible assumption | extract_lets | (lift_lets; extract_lets) | intro _
    | with_reducible apply State.commitRaw_keep | with_reducible apply State.accept_keep | simp only [Keeps.mk_iff]
    | with_reducible apply Keeps.mem | with_reducible exact Mem.wf_empty | with_reducible apply ite_keep | split
    | dsimp only | dsimp +zetaDelta only
    )

theorem State.ownerWrite_keep {s : State} {m : Master} {body : State → State} (h_body : ∀ x0, Keeps x0 → Keeps
    (body x0)) (hwf : Keeps s) : Keeps (State.ownerWrite s m body) := by
  unfold State.ownerWrite
  repeat' (first
    | with_reducible assumption | extract_lets | (lift_lets; extract_lets) | intro _ | with_reducible apply h_body
    | simp only [Keeps.mk_iff] | with_reducible apply Keeps.mem | with_reducible exact Mem.wf_empty
    | with_reducible apply ite_keep | split | dsimp only | dsimp +zetaDelta only
    )

end Sys2Proof.Machine
end

