-- ==== Sys2Proof/Laws/MemPipe.lean ====
section
/-! SUPPORT. Every operation of Machine/Pipe.lean keeps the canonical form of the byte memories. -/

namespace Sys2Proof.Machine

set_option linter.unusedVariables false
set_option linter.unusedSimpArgs false
set_option linter.unusedTactic false
set_option linter.unreachableTactic false


theorem State.duplicate_keep {s : State} {n : Nat} {dir : Nat} {v : Nat} {b : Nat} {isDesc : Bool} {carried : Nat}
    (hwf : Keeps s) : Keeps (State.duplicate s n dir v b isDesc carried) := by
  unfold State.duplicate
  repeat' (first
    | with_reducible assumption | extract_lets | (lift_lets; extract_lets) | intro _
    | with_reducible apply State.sendAccept_keep | with_reducible apply State.updStage_keep
    | with_reducible apply State.record_keep | simp only [Keeps.mk_iff] | with_reducible apply Keeps.mem
    | with_reducible exact Mem.wf_empty | with_reducible apply ite_keep | split | dsimp only | dsimp +zetaDelta only
    )

theorem execBargeDesc_keep {s : State} (hwf : Keeps s) : OutKeeps (execBargeDesc s) := by
  unfold execBargeDesc
  repeat' (first
    | with_reducible assumption | extract_lets | (lift_lets; extract_lets) | intro _
    | with_reducible apply State.onStageMsg_keep | with_reducible apply State.sendCredit_keep
    | with_reducible apply State.judgeFull_keep | with_reducible apply State.duplicate_keep
    | with_reducible apply State.updStage_keep | with_reducible apply State.record_keep | simp only [Keeps.mk_iff]
    | with_reducible apply Keeps.mem | with_reducible exact Mem.wf_empty | with_reducible apply ite_keep
    | with_reducible apply next_keep | with_reducible apply fault_keep | split | dsimp only | dsimp +zetaDelta only
    )

theorem execBargePacket_keep {s : State} (hwf : Keeps s) : OutKeeps (execBargePacket s) := by
  unfold execBargePacket
  repeat' (first
    | with_reducible assumption | extract_lets | (lift_lets; extract_lets) | intro _
    | with_reducible apply State.takePacket_keep | with_reducible refine State.takePacket_keep_eq (by assumption) ?_
    | with_reducible apply State.partDiscard_keep | with_reducible apply State.updStage_keep
    | with_reducible apply State.duplicate_keep | with_reducible apply State.record_keep
    | with_reducible apply State.chargeExtent_keep | with_reducible apply State.writeVA_keep
    | with_reducible apply State.judgeFull_keep
    | simp only [Keeps1.mk_iff] | simp only [Keeps2.mk_iff]
    | simp only [Keeps.mk_iff] | with_reducible apply foldl_keep | with_reducible apply foldlM_keep
    | with_reducible apply iteM_keep | (simp only [Mem.wf_mk]; refine ⟨?_, ?_, ?_⟩)
    | with_reducible apply Tab.wf_put | with_reducible apply Tab.wf_putAll | with_reducible apply Tab.wf_filter
    | with_reducible apply Tab.wf_keep | with_reducible apply Tab.wf_merge | with_reducible exact Tab.wf_nil _
    | with_reducible apply Mem.bytes_keep | with_reducible apply Mem.pool_keep | with_reducible apply Mem.basin_keep
    | with_reducible apply Keeps.mem | with_reducible exact Mem.wf_empty | with_reducible apply foldlP_keep
    | with_reducible refine foldlP_keep_eq (by assumption) ?_ ?_ | with_reducible apply foldlQ_keep
    | with_reducible refine foldlQ_keep_eq (by assumption) ?_ ?_ | with_reducible apply OptKeeps.map
    | with_reducible exact OptKeeps.none | with_reducible apply OptKeeps.some | with_reducible apply SumKeeps.of_inl
    | with_reducible apply SumKeeps.of_inr | with_reducible apply id_keep | with_reducible apply ite_keep
    | with_reducible apply Keeps1.fst | with_reducible apply Keeps2.snd | with_reducible apply next_keep
    | with_reducible apply fault_keep | split | dsimp only | dsimp +zetaDelta only
    )

theorem execAccept_keep {s : State} (hwf : Keeps s) : OutKeeps (execAccept s) := by
  unfold execAccept
  repeat' (first
    | with_reducible assumption | extract_lets | (lift_lets; extract_lets) | intro _
    | with_reducible apply State.freeRetained_keep | with_reducible apply State.onStageMsg_keep
    | with_reducible apply State.updStage_keep | simp only [Keeps.mk_iff] | with_reducible apply Keeps.mem
    | with_reducible exact Mem.wf_empty | with_reducible apply ite_keep | with_reducible apply next_keep
    | with_reducible apply fault_keep | split | dsimp only | dsimp +zetaDelta only
    )

theorem execCommit_keep {s : State} (hwf : Keeps s) : OutKeeps (execCommit s) := by
  unfold execCommit
  repeat' (first
    | with_reducible assumption | extract_lets | (lift_lets; extract_lets) | intro _
    | with_reducible apply State.freeRetained_keep | with_reducible apply State.onStageMsg_keep
    | with_reducible apply ite_keep | with_reducible apply next_keep | with_reducible apply fault_keep | split
    | dsimp only | dsimp +zetaDelta only
    )

theorem execPipeCredit_keep {ue : List Nat} {s : State} (hwf : Keeps s) : OutKeeps (execPipeCredit ue s) := by
  unfold execPipeCredit
  repeat' (first
    | with_reducible assumption | extract_lets | (lift_lets; extract_lets) | intro _
    | with_reducible apply State.sendPayload_keep | with_reducible apply State.sendWaiting_keep
    | with_reducible apply State.onStageMsg_keep | with_reducible apply State.updStage_keep
    | simp only [Keeps1.mk_iff] | simp only [Keeps2.mk_iff] | simp only [Keeps.mk_iff]
    | with_reducible apply foldl_keep | with_reducible apply Keeps.mem | with_reducible exact Mem.wf_empty
    | with_reducible apply foldlP_keep | with_reducible refine foldlP_keep_eq (by assumption) ?_ ?_
    | with_reducible apply foldlQ_keep | with_reducible refine foldlQ_keep_eq (by assumption) ?_ ?_
    | with_reducible apply ite_keep | with_reducible apply next_keep | with_reducible apply fault_keep
    | with_reducible apply Keeps1.fst | with_reducible apply Keeps2.snd | split | dsimp only | dsimp +zetaDelta only
    )

theorem execBargeProbe_keep {slot : Nat} {s : State} (hwf : Keeps s) : OutKeeps (execBargeProbe slot s) := by
  unfold execBargeProbe
  repeat' (first
    | with_reducible assumption | extract_lets | (lift_lets; extract_lets) | intro _
    | with_reducible apply State.updStage_keep | with_reducible apply State.sendDesc_keep
    | with_reducible apply onUnit_keep | simp only [Keeps1.mk_iff] | simp only [Keeps2.mk_iff]
    | simp only [Keeps.mk_iff] | with_reducible apply foldl_keep | with_reducible apply Keeps.mem
    | with_reducible exact Mem.wf_empty | with_reducible apply foldlP_keep
    | with_reducible refine foldlP_keep_eq (by assumption) ?_ ?_ | with_reducible apply foldlQ_keep
    | with_reducible refine foldlQ_keep_eq (by assumption) ?_ ?_ | with_reducible apply ite_keep
    | with_reducible apply next_keep | with_reducible apply fault_keep | with_reducible apply Keeps1.fst
    | with_reducible apply Keeps2.snd | split | dsimp only | dsimp +zetaDelta only
    )

theorem State.notify_keep {s : State} {n : Nat} {r : StepRun} {i : Nat} {e : Nat} {berth : Nat} {tag : Nat} (hwf :
    Keeps s) : Keeps (State.notify s n r i e berth tag) := by
  unfold State.notify
  repeat' (first
    | with_reducible assumption | extract_lets | (lift_lets; extract_lets) | intro _
    | with_reducible apply State.sendFirmware_keep | with_reducible apply State.updStage_keep
    | simp only [Keeps.mk_iff] | with_reducible apply Keeps.mem | with_reducible exact Mem.wf_empty
    | with_reducible apply ite_keep | split | dsimp only | dsimp +zetaDelta only
    )

theorem State.stickStep_keep {s : State} {n : Nat} {r : StepRun} (hwf : Keeps s) : Keeps (State.stickStep s n r)
    := by
  unfold State.stickStep
  repeat' (first
    | with_reducible assumption | extract_lets | (lift_lets; extract_lets) | intro _
    | with_reducible apply State.checkStep_keep | with_reducible apply State.haltCores_keep
    | with_reducible apply State.updStage_keep | simp only [Keeps.mk_iff] | with_reducible apply Keeps.mem
    | with_reducible exact Mem.wf_empty | with_reducible apply ite_keep | split | dsimp only | dsimp +zetaDelta only
    )

theorem State.noticeNext_keep {s : State} {n : Nat} {r : StepRun} (hwf : Keeps s) : Keeps (State.noticeNext s n r)
    := by
  unfold State.noticeNext
  repeat' (first
    | with_reducible assumption | extract_lets | (lift_lets; extract_lets) | intro _
    | with_reducible apply State.checkStep_keep | with_reducible apply State.stickStep_keep
    | with_reducible apply State.updStage_keep | with_reducible apply State.askBuddy_keep
    | with_reducible apply State.record_keep | with_reducible apply State.notify_keep | simp only [Keeps.mk_iff]
    | with_reducible apply Keeps.mem | with_reducible exact Mem.wf_empty | with_reducible apply ite_keep | split
    | dsimp only | dsimp +zetaDelta only
    )

theorem execWorkNotice_keep {slot : Nat} {s : State} (hwf : Keeps s) : OutKeeps (execWorkNotice slot s) := by
  unfold execWorkNotice
  repeat' (first
    | with_reducible assumption | extract_lets | (lift_lets; extract_lets) | intro _
    | with_reducible apply State.beginRestart_keep | with_reducible apply State.noticeNext_keep
    | with_reducible apply State.stageGone_keep | with_reducible apply State.startStep_keep
    | with_reducible apply onUnit_keep | simp only [Keeps.mk_iff] | with_reducible apply Keeps.mem
    | with_reducible exact Mem.wf_empty | with_reducible apply ite_keep | with_reducible apply next_keep
    | with_reducible apply fault_keep | split | dsimp only | dsimp +zetaDelta only
    )

theorem State.replyCore_keep {s : State} {core : Nat} {fault : Option Nat} (hwf : Keeps s) : Keeps
    (State.replyCore s core fault) := by
  unfold State.replyCore
  repeat' (first
    | with_reducible assumption | extract_lets | (lift_lets; extract_lets) | intro _
    | with_reducible apply State.programFault_keep | with_reducible apply State.complete_keep
    | simp only [Keeps.mk_iff] | with_reducible apply Keeps.mem | with_reducible exact Mem.wf_empty
    | with_reducible apply ite_keep | split | dsimp only | dsimp +zetaDelta only
    )

theorem execPipeSeal_keep {ue : List Nat} {s : State} (hwf : Keeps s) : OutKeeps (execPipeSeal ue s) := by
  unfold execPipeSeal
  repeat' (first
    | with_reducible assumption | extract_lets | (lift_lets; extract_lets) | intro _
    | with_reducible apply State.replyCore_keep | with_reducible apply State.updStage_keep
    | with_reducible apply State.writeVA_keep | with_reducible apply State.trySend_keep | simp only [Keeps.mk_iff]
    | with_reducible apply Keeps.mem | with_reducible exact Mem.wf_empty | with_reducible apply ite_keep
    | with_reducible apply next_keep | with_reducible apply fault_keep | split | dsimp only | dsimp +zetaDelta only
    )

theorem State.entryDone_keep {s : State} {n : Nat} {r : StepRun} {x : Notice} (hwf : Keeps s) : Keeps
    (State.entryDone s n r x) := by
  unfold State.entryDone
  repeat' (first
    | with_reducible assumption | extract_lets | (lift_lets; extract_lets) | intro _
    | with_reducible apply State.sendCredit_keep | with_reducible apply State.updStage_keep
    | with_reducible apply Mem.mark_keep | simp only [Keeps.mk_iff] | with_reducible apply Keeps.mem
    | with_reducible exact Mem.wf_empty | with_reducible apply ite_keep | split | dsimp only | dsimp +zetaDelta only
    )

theorem execPipeDone_keep {s : State} (hwf : Keeps s) : OutKeeps (execPipeDone s) := by
  unfold execPipeDone
  repeat' (first
    | with_reducible assumption | extract_lets | (lift_lets; extract_lets) | intro _
    | with_reducible apply State.checkStep_keep | with_reducible apply State.replyCore_keep
    | with_reducible apply State.entryDone_keep | simp only [Keeps.mk_iff] | with_reducible apply Keeps.mem
    | with_reducible exact Mem.wf_empty | with_reducible apply ite_keep | with_reducible apply next_keep
    | with_reducible apply fault_keep | split | dsimp only | dsimp +zetaDelta only
    )

theorem State.sendMark_keep {s : State} {n : Nat} {r : StepRun} {k : Nat} {entry : Nat} {ue : List Nat} (hwf :
    Keeps s) : Keeps (State.sendMark s n r k entry ue) := by
  unfold State.sendMark
  repeat' (first
    | with_reducible assumption | extract_lets | (lift_lets; extract_lets) | intro _
    | with_reducible apply State.ckptSend_keep | with_reducible apply State.mirror_keep
    | with_reducible apply Mem.mark_keep | simp only [Keeps1.mk_iff] | simp only [Keeps2.mk_iff]
    | with_reducible apply foldl_keep | with_reducible apply foldlP_keep
    | with_reducible refine foldlP_keep_eq (by assumption) ?_ ?_ | with_reducible apply foldlQ_keep
    | with_reducible refine foldlQ_keep_eq (by assumption) ?_ ?_ | with_reducible apply ite_keep
    | with_reducible apply Keeps1.fst | with_reducible apply Keeps2.snd | split | dsimp only | dsimp +zetaDelta only
    )

theorem execMark_keep {slot : Nat} {ue : List Nat} {s : State} (hwf : Keeps s) : OutKeeps (execMark slot ue s) :=
    by
  unfold execMark
  repeat' (first
    | with_reducible assumption | extract_lets | (lift_lets; extract_lets) | intro _
    | with_reducible apply State.checkStep_keep | with_reducible apply State.commitAll_keep
    | with_reducible apply State.updStage_keep | with_reducible apply State.sendMark_keep
    | with_reducible apply onUnit_keep | simp only [Keeps.mk_iff] | with_reducible apply Keeps.mem
    | with_reducible exact Mem.wf_empty | with_reducible apply ite_keep | with_reducible apply next_keep
    | with_reducible apply fault_keep | split | dsimp only | dsimp +zetaDelta only
    )

theorem execMarkAck_keep {s : State} (hwf : Keeps s) : OutKeeps (execMarkAck s) := by
  unfold execMarkAck
  repeat' (first
    | with_reducible assumption | extract_lets | (lift_lets; extract_lets) | intro _
    | with_reducible apply State.sendCumulative_keep | with_reducible apply State.onStageMsg_keep
    | with_reducible apply State.checkStep_keep | with_reducible apply State.commitAll_keep
    | with_reducible apply State.updStage_keep | simp only [Keeps.mk_iff] | with_reducible apply Keeps.mem
    | with_reducible exact Mem.wf_empty | with_reducible apply ite_keep | with_reducible apply next_keep
    | with_reducible apply fault_keep | split | dsimp only | dsimp +zetaDelta only
    )

theorem execMicrobatchCommit_keep {slot : Nat} {s : State} (hwf : Keeps s) : OutKeeps (execMicrobatchCommit slot
    s) := by
  unfold execMicrobatchCommit
  repeat' (first
    | with_reducible assumption | extract_lets | (lift_lets; extract_lets) | intro _
    | with_reducible apply State.commitMb_keep | with_reducible apply onUnit_keep | simp only [Keeps.mk_iff]
    | with_reducible apply Keeps.mem | with_reducible exact Mem.wf_empty | with_reducible apply ite_keep
    | with_reducible apply next_keep | with_reducible apply fault_keep | split | dsimp only | dsimp +zetaDelta only
    )

theorem execStepRunTimeout_keep {slot : Nat} {s : State} (hwf : Keeps s) : OutKeeps (execStepRunTimeout slot s) :=
    by
  unfold execStepRunTimeout
  repeat' (first
    | with_reducible assumption | extract_lets | (lift_lets; extract_lets) | intro _
    | with_reducible apply State.checkStep_keep | with_reducible apply State.haltCores_keep
    | with_reducible apply State.updStage_keep | with_reducible apply onUnit_keep | simp only [Keeps.mk_iff]
    | with_reducible apply Keeps.mem | with_reducible exact Mem.wf_empty | with_reducible apply ite_keep
    | with_reducible apply next_keep | with_reducible apply fault_keep | split | dsimp only | dsimp +zetaDelta only
    )

theorem State.abortStep_keep {s : State} {n : Nat} {cmd : Nat} (hwf : Keeps s) : Keeps (State.abortStep s n cmd) :=
    by
  unfold State.abortStep
  repeat' (first
    | with_reducible assumption | extract_lets | (lift_lets; extract_lets) | intro _
    | with_reducible apply State.updStage_keep | with_reducible apply State.commit_keep
    | with_reducible apply State.dropFrozen_keep | with_reducible apply State.haltCores_keep
    | with_reducible apply State.checkStep_keep
    | simp only [Keeps1.mk_iff] | simp only [Keeps2.mk_iff]
    | simp only [Keeps.mk_iff] | with_reducible apply foldl_keep | with_reducible apply foldlM_keep
    | with_reducible apply iteM_keep | (simp only [Mem.wf_mk]; refine ⟨?_, ?_, ?_⟩)
    | with_reducible apply Tab.wf_put | with_reducible apply Tab.wf_putAll | with_reducible apply Tab.wf_filter
    | with_reducible apply Tab.wf_keep | with_reducible apply Tab.wf_merge | with_reducible exact Tab.wf_nil _
    | with_reducible apply Mem.bytes_keep | with_reducible apply Mem.pool_keep | with_reducible apply Mem.basin_keep
    | with_reducible apply Keeps.mem | with_reducible exact Mem.wf_empty | with_reducible apply foldlP_keep
    | with_reducible refine foldlP_keep_eq (by assumption) ?_ ?_ | with_reducible apply foldlQ_keep
    | with_reducible refine foldlQ_keep_eq (by assumption) ?_ ?_ | with_reducible apply OptKeeps.map
    | with_reducible exact OptKeeps.none | with_reducible apply OptKeeps.some | with_reducible apply SumKeeps.of_inl
    | with_reducible apply SumKeeps.of_inr | with_reducible apply id_keep | with_reducible apply ite_keep
    | with_reducible apply Keeps1.fst | with_reducible apply Keeps2.snd | with_reducible apply next_keep
    | with_reducible apply fault_keep | split | dsimp only | dsimp +zetaDelta only
    )

theorem execPipeLost_keep {s : State} (hwf : Keeps s) : OutKeeps (execPipeLost s) := by
  unfold execPipeLost
  repeat' (first
    | with_reducible assumption | extract_lets | (lift_lets; extract_lets) | intro _
    | with_reducible apply State.beginTakeover_keep | with_reducible apply State.sendTakeover_keep
    | with_reducible apply State.onPipeMsg_keep | with_reducible apply State.updStage_keep
    | simp only [Keeps.mk_iff] | with_reducible apply Keeps.mem | with_reducible exact Mem.wf_empty
    | with_reducible apply ite_keep | with_reducible apply next_keep | with_reducible apply fault_keep | split
    | dsimp only | dsimp +zetaDelta only
    )

theorem State.resendTo_keep {s : State} {n : Nat} {dir : Nat} {ue : List Nat} (hwf : Keeps s) : Keeps
    (State.resendTo s n dir ue) := by
  unfold State.resendTo
  repeat' (first
    | with_reducible assumption | extract_lets | (lift_lets; extract_lets) | intro _
    | with_reducible apply State.sendWaiting_keep | with_reducible apply State.updStage_keep
    | with_reducible apply State.pipeMsg_keep | simp only [Keeps1.mk_iff] | simp only [Keeps2.mk_iff]
    | simp only [Keeps.mk_iff] | with_reducible apply foldl_keep | with_reducible apply Keeps.mem
    | with_reducible exact Mem.wf_empty | with_reducible apply foldlP_keep
    | with_reducible refine foldlP_keep_eq (by assumption) ?_ ?_ | with_reducible apply foldlQ_keep
    | with_reducible refine foldlQ_keep_eq (by assumption) ?_ ?_ | with_reducible apply ite_keep
    | with_reducible apply Keeps1.fst | with_reducible apply Keeps2.snd | split | dsimp only | dsimp +zetaDelta only
    )

theorem execTakeover_keep {ue : List Nat} {s : State} (hwf : Keeps s) : OutKeeps (execTakeover ue s) := by
  unfold execTakeover
  repeat' (first
    | with_reducible assumption | extract_lets | (lift_lets; extract_lets) | intro _
    | with_reducible apply State.onStageMsg_keep | with_reducible apply State.updStage_keep
    | with_reducible apply State.resendTo_keep | simp only [Keeps1.mk_iff] | simp only [Keeps2.mk_iff]
    | simp only [Keeps.mk_iff] | with_reducible apply foldl_keep | with_reducible apply Keeps.mem
    | with_reducible exact Mem.wf_empty | with_reducible apply foldlP_keep
    | with_reducible refine foldlP_keep_eq (by assumption) ?_ ?_ | with_reducible apply foldlQ_keep
    | with_reducible refine foldlQ_keep_eq (by assumption) ?_ ?_ | with_reducible apply ite_keep
    | with_reducible apply next_keep | with_reducible apply fault_keep | with_reducible apply Keeps1.fst
    | with_reducible apply Keeps2.snd | split | dsimp only | dsimp +zetaDelta only
    )

theorem execResendFrom_keep {s : State} (hwf : Keeps s) : OutKeeps (execResendFrom s) := by
  unfold execResendFrom
  repeat' (first
    | with_reducible assumption | extract_lets | (lift_lets; extract_lets) | intro _
    | with_reducible apply State.onStageMsg_keep | with_reducible apply State.tryResume_keep
    | with_reducible apply State.updStage_keep | simp only [Keeps.mk_iff] | with_reducible apply Keeps.mem
    | with_reducible exact Mem.wf_empty | with_reducible apply ite_keep | with_reducible apply next_keep
    | with_reducible apply fault_keep | split | dsimp only | dsimp +zetaDelta only
    )

end Sys2Proof.Machine
end

