-- ==== Sys2Proof/Laws/MemTraining.lean ====
section
/-! SUPPORT. Every operation of Machine/Training.lean keeps the canonical form of the byte memories. -/

namespace Sys2Proof.Machine

set_option linter.unusedVariables false
set_option linter.unusedSimpArgs false
set_option linter.unusedTactic false
set_option linter.unreachableTactic false


theorem State.refuseService_keep {s : State} {f : Flight} {cause : Nat} {word : Nat} (hwf : Keeps s) : Keeps
    (State.refuseService s f cause word) := by
  unfold State.refuseService
  repeat' (first
    | with_reducible assumption | extract_lets | (lift_lets; extract_lets) | intro _
    | with_reducible apply State.commit_keep | with_reducible apply id_keep | with_reducible apply ite_keep | split
    | dsimp only | dsimp +zetaDelta only
    )

theorem execStepPlanLoad_keep {path : Path} {pk : Packet} {ue : List Nat} {s : State} (hwf : Keeps s) : OutKeeps
    (execStepPlanLoad path pk ue s) := by
  unfold execStepPlanLoad
  repeat' (first
    | with_reducible assumption | extract_lets | (lift_lets; extract_lets) | intro _
    | with_reducible apply beginOn_keep | with_reducible apply State.failWith_keep
    | with_reducible apply State.refuseService_keep | with_reducible apply State.chargeParam_keep
    | with_reducible apply State.failExtents_keep | with_reducible apply State.failParam_keep
    | with_reducible apply State.updStage_keep | with_reducible apply State.ckptSend_keep
    | with_reducible apply State.done_keep
    | simp only [Keeps1.mk_iff] | simp only [Keeps2.mk_iff]
    | simp only [Keeps.mk_iff] | with_reducible apply foldl_keep | with_reducible apply foldlM_keep
    | with_reducible apply iteM_keep | (simp only [Mem.wf_mk]; refine ⟨?_, ?_, ?_⟩)
    | with_reducible apply Tab.wf_put | with_reducible apply Tab.wf_putAll | with_reducible apply Tab.wf_filter
    | with_reducible apply Tab.wf_keep | with_reducible apply Tab.wf_merge | with_reducible exact Tab.wf_nil _
    | with_reducible apply Mem.bytes_keep | with_reducible apply Mem.pool_keep | with_reducible apply Mem.basin_keep
    | with_reducible apply Keeps.mem | with_reducible exact Mem.wf_empty | with_reducible apply foldlP_keep
    | with_reducible refine foldlP_keep_eq (by assumption) ?_ ?_ | with_reducible apply foldlQ_keep
    | with_reducible refine foldlQ_keep_eq (by assumption) ?_ ?_ | with_reducible apply OptKeeps.map
    | with_reducible exact OptKeeps.none | with_reducible apply OptKeeps.some | with_reducible apply SumKeeps.of_inl
    | with_reducible apply SumKeeps.of_inr | with_reducible apply id_keep | with_reducible apply ite_keep
    | with_reducible apply Keeps1.fst | with_reducible apply Keeps2.snd | with_reducible apply next_keep
    | with_reducible apply fault_keep | split | dsimp only | dsimp +zetaDelta only
    )

theorem State.beginPlanStep_keep {s : State} {n : Nat} {step : Nat} (hwf : Keeps s) : Keeps (State.beginPlanStep s
    n step) := by
  unfold State.beginPlanStep
  repeat' (first
    | with_reducible assumption | extract_lets | (lift_lets; extract_lets) | intro _
    | with_reducible apply State.updStage_keep | with_reducible apply State.writeVA_keep | simp only [Keeps.mk_iff]
    | with_reducible apply Keeps.mem | with_reducible exact Mem.wf_empty | with_reducible apply ite_keep | split
    | dsimp only | dsimp +zetaDelta only
    )

theorem execStepPlanStart_keep {path : Path} {pk : Packet} {s : State} (hwf : Keeps s) : OutKeeps
    (execStepPlanStart path pk s) := by
  unfold execStepPlanStart
  repeat' (first
    | with_reducible assumption | extract_lets | (lift_lets; extract_lets) | intro _
    | with_reducible apply State.refuseService_keep | with_reducible apply State.beginPlanStep_keep
    | with_reducible apply State.updStage_keep | with_reducible apply State.done_keep
    | with_reducible apply beginOn_keep | simp only [Keeps.mk_iff] | with_reducible apply Keeps.mem
    | with_reducible exact Mem.wf_empty | with_reducible apply ite_keep | with_reducible apply next_keep
    | with_reducible apply fault_keep | split | dsimp only | dsimp +zetaDelta only
    )

theorem execStepPlanStop_keep {path : Path} {pk : Packet} {s : State} (hwf : Keeps s) : OutKeeps (execStepPlanStop
    path pk s) := by
  unfold execStepPlanStop
  repeat' (first
    | with_reducible assumption | extract_lets | (lift_lets; extract_lets) | intro _
    | with_reducible apply State.refuseService_keep | with_reducible apply State.updStage_keep
    | with_reducible apply State.done_keep | with_reducible apply beginOn_keep | simp only [Keeps.mk_iff]
    | with_reducible apply Keeps.mem | with_reducible exact Mem.wf_empty | with_reducible apply ite_keep
    | with_reducible apply next_keep | with_reducible apply fault_keep | split | dsimp only | dsimp +zetaDelta only
    )

theorem State.writeStepRecord_keep {s : State} {n : Nat} {r : StepRecord} {verdict : Option (Nat × Bool)} (hwf :
    Keeps s) : Keeps (State.writeStepRecord s n r verdict) := by
  unfold State.writeStepRecord
  repeat' (first
    | with_reducible assumption | extract_lets | (lift_lets; extract_lets) | intro _
    | with_reducible apply State.chargeExtent_keep | with_reducible apply State.writeVA_keep
    | simp only [Keeps.mk_iff] | with_reducible apply Keeps.mem | with_reducible exact Mem.wf_empty
    | with_reducible apply ite_keep | split | dsimp only | dsimp +zetaDelta only
    )

theorem State.judgeLag_keep {s : State} {n : Nat} {busy : Nat} {verdict : Option (Nat × Bool)} (hwf : Keeps s) :
    Keeps (State.judgeLag s n busy verdict) := by
  unfold State.judgeLag
  repeat' (first
    | with_reducible assumption | extract_lets | (lift_lets; extract_lets) | intro _
    | with_reducible apply State.updStage_keep | with_reducible apply State.record_keep | simp only [Keeps.mk_iff]
    | with_reducible apply Keeps.mem | with_reducible exact Mem.wf_empty | with_reducible apply ite_keep | split
    | dsimp only | dsimp +zetaDelta only
    )

theorem State.endPlanStep_keep {s : State} {n : Nat} (hwf : Keeps s) : Keeps (State.endPlanStep s n) := by
  unfold State.endPlanStep
  repeat' (first
    | with_reducible assumption | extract_lets | (lift_lets; extract_lets) | intro _
    | with_reducible apply State.writeStepRecord_keep | with_reducible apply State.updStage_keep
    | with_reducible apply State.pipeMsg_keep | simp only [Keeps.mk_iff] | with_reducible apply Keeps.mem
    | with_reducible exact Mem.wf_empty | with_reducible apply ite_keep | split | dsimp only | dsimp +zetaDelta only
    )

theorem execStepTime_keep {s : State} (hwf : Keeps s) : OutKeeps (execStepTime s) := by
  unfold execStepTime
  repeat' (first
    | with_reducible assumption | extract_lets | (lift_lets; extract_lets) | intro _
    | with_reducible apply State.onPipeMsg_keep | simp only [Keeps.mk_iff] | with_reducible apply Keeps.mem
    | with_reducible exact Mem.wf_empty | with_reducible apply ite_keep | with_reducible apply next_keep
    | with_reducible apply fault_keep | split | dsimp only | dsimp +zetaDelta only
    )

theorem execLagClose_keep {set : Nat} {s : State} (hwf : Keeps s) : OutKeeps (execLagClose set s) := by
  unfold execLagClose
  repeat' (first
    | with_reducible assumption | extract_lets | (lift_lets; extract_lets) | intro _
    | with_reducible apply State.pipeMsg_keep | simp only [Keeps1.mk_iff] | simp only [Keeps2.mk_iff]
    | simp only [Keeps.mk_iff] | with_reducible apply foldl_keep | with_reducible apply Keeps.mem
    | with_reducible exact Mem.wf_empty | with_reducible apply foldlP_keep
    | with_reducible refine foldlP_keep_eq (by assumption) ?_ ?_ | with_reducible apply foldlQ_keep
    | with_reducible refine foldlQ_keep_eq (by assumption) ?_ ?_ | with_reducible apply ite_keep
    | with_reducible apply next_keep | with_reducible apply fault_keep | with_reducible apply Keeps1.fst
    | with_reducible apply Keeps2.snd | split | dsimp only | dsimp +zetaDelta only
    )

theorem execLagVerdict_keep {s : State} (hwf : Keeps s) : OutKeeps (execLagVerdict s) := by
  unfold execLagVerdict
  repeat' (first
    | with_reducible assumption | extract_lets | (lift_lets; extract_lets) | intro _
    | with_reducible apply State.writeStepRecord_keep | with_reducible apply State.onStageMsg_keep
    | with_reducible apply State.updStage_keep | with_reducible apply State.judgeLag_keep | simp only [Keeps.mk_iff]
    | with_reducible apply Keeps.mem | with_reducible exact Mem.wf_empty | with_reducible apply ite_keep
    | with_reducible apply next_keep | with_reducible apply fault_keep | split | dsimp only | dsimp +zetaDelta only
    )

theorem execStepRecordTimeout_keep {slot : Nat} {s : State} (hwf : Keeps s) : OutKeeps (execStepRecordTimeout slot
    s) := by
  unfold execStepRecordTimeout
  repeat' (first
    | with_reducible assumption | extract_lets | (lift_lets; extract_lets) | intro _
    | with_reducible apply State.writeStepRecord_keep | with_reducible apply State.updStage_keep
    | with_reducible apply State.judgeLag_keep | with_reducible apply onUnit_keep | simp only [Keeps.mk_iff]
    | with_reducible apply Keeps.mem | with_reducible exact Mem.wf_empty | with_reducible apply ite_keep
    | with_reducible apply next_keep | with_reducible apply fault_keep | split | dsimp only | dsimp +zetaDelta only
    )

theorem State.takePlanDone_keep {s : State} {n : Nat} (hwf : Keeps s) : Keeps (State.takePlanDone s n) := by
  unfold State.takePlanDone
  repeat' (first
    | with_reducible assumption | extract_lets | (lift_lets; extract_lets) | intro _
    | with_reducible apply State.updStage_keep | with_reducible apply State.done_keep | simp only [Keeps1.mk_iff]
    | simp only [Keeps2.mk_iff] | simp only [Keeps.mk_iff] | with_reducible apply foldl_keep
    | with_reducible apply Keeps.mem | with_reducible exact Mem.wf_empty | with_reducible apply foldlP_keep
    | with_reducible refine foldlP_keep_eq (by assumption) ?_ ?_ | with_reducible apply foldlQ_keep
    | with_reducible refine foldlQ_keep_eq (by assumption) ?_ ?_ | with_reducible apply id_keep
    | with_reducible apply ite_keep | with_reducible apply Keeps1.fst | with_reducible apply Keeps2.snd | split
    | dsimp only | dsimp +zetaDelta only
    )

theorem State.stopPlan_keep {s : State} {n : Nat} (hwf : Keeps s) : Keeps (State.stopPlan s n) := by
  unfold State.stopPlan
  repeat' (first
    | with_reducible assumption | extract_lets | (lift_lets; extract_lets) | intro _
    | with_reducible apply State.updStage_keep | simp only [Keeps.mk_iff] | with_reducible apply Keeps.mem
    | with_reducible exact Mem.wf_empty | with_reducible apply ite_keep | split | dsimp only | dsimp +zetaDelta only
    )

theorem State.planStepOver_keep {s : State} {n : Nat} (hwf : Keeps s) : Keeps (State.planStepOver s n) := by
  unfold State.planStepOver
  repeat' (first
    | with_reducible assumption | extract_lets | (lift_lets; extract_lets) | intro _
    | with_reducible apply State.beginPlanStep_keep | with_reducible apply State.endPlanStep_keep
    | with_reducible apply State.updStage_keep | with_reducible apply State.stopPlan_keep | simp only [Keeps.mk_iff]
    | with_reducible apply Keeps.mem | with_reducible exact Mem.wf_empty | with_reducible apply ite_keep | split
    | dsimp only | dsimp +zetaDelta only
    )

theorem execPlanEntryIssue_keep {slot : Nat} {s : State} (hwf : Keeps s) : OutKeeps (execPlanEntryIssue slot s) :=
    by
  unfold execPlanEntryIssue
  repeat' (first
    | with_reducible assumption | extract_lets | (lift_lets; extract_lets) | intro _
    | with_reducible apply State.takePacketOn_keep | with_reducible apply State.takePlanDone_keep
    | with_reducible apply State.planStepOver_keep | with_reducible apply State.endPlanStep_keep
    | with_reducible apply State.updStage_keep | with_reducible apply State.stopPlan_keep
    | with_reducible apply State.record_keep | with_reducible apply onUnit_keep | simp only [Keeps1.mk_iff]
    | simp only [Keeps2.mk_iff] | simp only [Keeps.mk_iff] | with_reducible apply foldl_keep
    | with_reducible apply Keeps.mem | with_reducible exact Mem.wf_empty | with_reducible apply foldlP_keep
    | with_reducible refine foldlP_keep_eq (by assumption) ?_ ?_ | with_reducible apply foldlQ_keep
    | with_reducible refine foldlQ_keep_eq (by assumption) ?_ ?_ | with_reducible apply id_keep
    | with_reducible apply ite_keep | with_reducible apply next_keep | with_reducible apply fault_keep
    | with_reducible apply Keeps1.fst | with_reducible apply Keeps2.snd | split | dsimp only | dsimp +zetaDelta only
    )

end Sys2Proof.Machine
end

