-- ==== Sys2Proof/Laws/MemServing.lean ====
section
/-! SUPPORT. Every operation of Machine/Serving.lean keeps the canonical form of the byte memories. -/

namespace Sys2Proof.Machine

set_option linter.unusedVariables false
set_option linter.unusedSimpArgs false
set_option linter.unusedTactic false
set_option linter.unreachableTactic false


theorem State.refuseServ_keep {s : State} {f : Flight} {cause : Nat} (hwf : Keeps s) : Keeps (State.refuseServ s f
    cause) := by
  unfold State.refuseServ
  repeat' (first
    | with_reducible assumption | extract_lets | (lift_lets; extract_lets) | intro _
    | with_reducible apply State.refuse_keep | with_reducible apply ite_keep | split | dsimp only
    | dsimp +zetaDelta only
    )

theorem execModelBind_keep {path : Path} {pk : Packet} {host : Option (List Byte)} {ue : List Nat} {s : State} (hwf
    : Keeps s) : OutKeeps (execModelBind path pk host ue s) := by
  unfold execModelBind
  repeat' (first
    | with_reducible assumption | extract_lets | (lift_lets; extract_lets) | intro _
    | with_reducible apply beginOn_keep | with_reducible apply State.failWith_keep
    | with_reducible apply State.chargeParam_keep | with_reducible apply State.failParam_keep
    | with_reducible apply State.refuseServ_keep | with_reducible apply State.startModel_keep
    | with_reducible apply State.done_keep
    | simp only [Keeps1.mk_iff] | simp only [Keeps2.mk_iff]
    | simp only [Keeps.mk_iff] | with_reducible apply foldl_keep | with_reducible apply foldlM_keep
    | with_reducible apply iteM_keep | (simp only [Mem.wf_mk]; refine ⟨?_, ?_, ?_⟩)
    | with_reducible apply Tab.wf_put | with_reducible apply Tab.wf_putAll | with_reducible apply Tab.wf_filter
    | with_reducible apply Tab.wf_keep | with_reducible apply Tab.wf_merge | with_reducible exact Tab.wf_nil _
    | with_reducible apply Mem.bytes_keep | with_reducible apply Mem.pool_keep | with_reducible apply Mem.basin_keep
    | with_reducible apply Keeps.mem | with_reducible exact Mem.wf_empty | with_reducible apply foldlP_keep
    | with_reducible refine foldlP_keep_eq (by assumption) ?_ ?_ | with_reducible apply foldlQ_keep
    | with_reducible refine foldlQ_keep_eq (by assumption) ?_ ?_ | with_reducible apply OptKeeps.map
    | with_reducible exact OptKeeps.none | with_reducible apply OptKeeps.some | with_reducible apply SumKeeps.of_inl
    | with_reducible apply SumKeeps.of_inr | with_reducible apply id_keep | with_reducible apply ite_keep
    | with_reducible apply Keeps1.fst | with_reducible apply Keeps2.snd | with_reducible apply next_keep
    | with_reducible apply fault_keep | split | dsimp only | dsimp +zetaDelta only
    )

theorem State.quitModel_keep {s : State} {n : Nat} {reason : Nat} (hwf : Keeps s) : Keeps (State.quitModel s n
    reason) := by
  unfold State.quitModel
  repeat' (first
    | with_reducible assumption | extract_lets | (lift_lets; extract_lets) | intro _
    | with_reducible apply State.updModel_keep | with_reducible apply State.endWhere_keep
    | simp only [Keeps1.mk_iff] | simp only [Keeps2.mk_iff] | simp only [Keeps.mk_iff]
    | with_reducible apply foldl_keep | with_reducible apply Keeps.mem | with_reducible exact Mem.wf_empty
    | with_reducible apply foldlP_keep | with_reducible refine foldlP_keep_eq (by assumption) ?_ ?_
    | with_reducible apply foldlQ_keep | with_reducible refine foldlQ_keep_eq (by assumption) ?_ ?_
    | with_reducible apply ite_keep | with_reducible apply Keeps1.fst | with_reducible apply Keeps2.snd | split
    | dsimp only | dsimp +zetaDelta only
    )

theorem execModelUnbind_keep {path : Path} {pk : Packet} {s : State} (hwf : Keeps s) : OutKeeps (execModelUnbind
    path pk s) := by
  unfold execModelUnbind
  repeat' (first
    | with_reducible assumption | extract_lets | (lift_lets; extract_lets) | intro _
    | with_reducible apply State.checkModel_keep | with_reducible apply State.refuseServ_keep
    | with_reducible apply State.haltCores_keep | with_reducible apply State.quitModel_keep
    | with_reducible apply State.failWith_keep | with_reducible apply State.updModel_keep
    | with_reducible apply beginOn_keep | simp only [Keeps.mk_iff] | with_reducible apply Keeps.mem
    | with_reducible exact Mem.wf_empty | with_reducible apply id_keep | with_reducible apply ite_keep
    | with_reducible apply next_keep | with_reducible apply fault_keep | split | dsimp only | dsimp +zetaDelta only
    )

theorem execAstAdmit_keep {path : Path} {pk : Packet} {s : State} (hwf : Keeps s) : OutKeeps (execAstAdmit path pk
    s) := by
  unfold execAstAdmit
  repeat' (first
    | with_reducible assumption | extract_lets | (lift_lets; extract_lets) | intro _
    | with_reducible apply State.refuseServ_keep | with_reducible apply State.servWrite_keep
    | with_reducible apply State.done_keep | with_reducible apply beginCmd_keep | simp only [Keeps.mk_iff]
    | with_reducible apply Keeps.mem | with_reducible exact Mem.wf_empty | with_reducible apply ite_keep
    | with_reducible apply next_keep | with_reducible apply fault_keep | split | dsimp only | dsimp +zetaDelta only
    )

theorem execAstRetire_keep {path : Path} {pk : Packet} {s : State} (hwf : Keeps s) : OutKeeps (execAstRetire path
    pk s) := by
  unfold execAstRetire
  repeat' (first
    | with_reducible assumption | extract_lets | (lift_lets; extract_lets) | intro _
    | with_reducible apply State.refuseServ_keep | with_reducible apply State.updAst_keep
    | with_reducible apply State.endSeq_keep | with_reducible apply State.done_keep
    | with_reducible apply beginCmd_keep | simp only [Keeps.mk_iff] | with_reducible apply Keeps.mem
    | with_reducible exact Mem.wf_empty | with_reducible apply id_keep | with_reducible apply ite_keep
    | with_reducible apply next_keep | with_reducible apply fault_keep | split | dsimp only | dsimp +zetaDelta only
    )

theorem execDeadlineSet_keep {path : Path} {pk : Packet} {s : State} (hwf : Keeps s) : OutKeeps (execDeadlineSet
    path pk s) := by
  unfold execDeadlineSet
  repeat' (first
    | with_reducible assumption | extract_lets | (lift_lets; extract_lets) | intro _
    | with_reducible apply State.refuseServ_keep | with_reducible apply State.updAst_keep
    | with_reducible apply State.done_keep | with_reducible apply beginCmd_keep | simp only [Keeps1.mk_iff]
    | simp only [Keeps2.mk_iff] | simp only [Keeps.mk_iff] | with_reducible apply foldl_keep
    | with_reducible apply Keeps.mem | with_reducible exact Mem.wf_empty | with_reducible apply foldlP_keep
    | with_reducible refine foldlP_keep_eq (by assumption) ?_ ?_ | with_reducible apply foldlQ_keep
    | with_reducible refine foldlQ_keep_eq (by assumption) ?_ ?_ | with_reducible apply ite_keep
    | with_reducible apply next_keep | with_reducible apply fault_keep | with_reducible apply Keeps1.fst
    | with_reducible apply Keeps2.snd | split | dsimp only | dsimp +zetaDelta only
    )

theorem execFallbackBind_keep {path : Path} {pk : Packet} {s : State} (hwf : Keeps s) : OutKeeps (execFallbackBind
    path pk s) := by
  unfold execFallbackBind
  repeat' (first
    | with_reducible assumption | extract_lets | (lift_lets; extract_lets) | intro _
    | with_reducible apply State.refuseServ_keep | with_reducible apply State.updModel_keep
    | with_reducible apply State.done_keep | with_reducible apply beginCmd_keep | simp only [Keeps.mk_iff]
    | with_reducible apply Keeps.mem | with_reducible exact Mem.wf_empty | with_reducible apply ite_keep
    | with_reducible apply next_keep | with_reducible apply fault_keep | split | dsimp only | dsimp +zetaDelta only
    )

theorem execServDone_keep {s : State} (hwf : Keeps s) : OutKeeps (execServDone s) := by
  unfold execServDone
  repeat' (first
    | with_reducible assumption | extract_lets | (lift_lets; extract_lets) | intro _
    | with_reducible apply State.replyCore_keep | with_reducible apply State.updModel_keep
    | simp only [Keeps.mk_iff] | with_reducible apply Keeps.mem | with_reducible exact Mem.wf_empty
    | with_reducible apply ite_keep | with_reducible apply next_keep | with_reducible apply fault_keep | split
    | dsimp only | dsimp +zetaDelta only
    )

theorem execServBoundary_keep {slot : Nat} {ue : List Nat} {s : State} (hwf : Keeps s) : OutKeeps
    (execServBoundary slot ue s) := by
  unfold execServBoundary
  repeat' (first
    | with_reducible assumption | extract_lets | (lift_lets; extract_lets) | intro _
    | with_reducible apply State.servStepFault_keep | with_reducible apply State.servBoundary_keep
    | with_reducible apply State.servReplay_keep | with_reducible apply onUnit_keep | simp only [Keeps.mk_iff]
    | with_reducible apply Keeps.mem | with_reducible exact Mem.wf_empty | with_reducible apply ite_keep
    | with_reducible apply next_keep | with_reducible apply fault_keep | split | dsimp only | dsimp +zetaDelta only
    )

theorem State.setQuota_keep {s : State} {part : Nat} {value : Nat} (hwf : Keeps s) : Keeps (State.setQuota s part
    value) := by
  unfold State.setQuota
  repeat' (first
    | with_reducible assumption | extract_lets | (lift_lets; extract_lets) | intro _ | simp only [Keeps1.mk_iff]
    | simp only [Keeps2.mk_iff] | simp only [Keeps.mk_iff] | with_reducible apply foldl_keep
    | with_reducible apply Keeps.mem | with_reducible exact Mem.wf_empty | with_reducible apply foldlP_keep
    | with_reducible refine foldlP_keep_eq (by assumption) ?_ ?_ | with_reducible apply foldlQ_keep
    | with_reducible refine foldlQ_keep_eq (by assumption) ?_ ?_ | with_reducible apply ite_keep
    | with_reducible apply Keeps1.fst | with_reducible apply Keeps2.snd | split | dsimp only | dsimp +zetaDelta only
    )

theorem execServQuotaWrite_keep {m : Master} {part : Nat} {value : Nat} {s : State} (hwf : Keeps s) : OutKeeps
    (execServQuotaWrite m part value s) := by
  unfold execServQuotaWrite
  repeat' (first
    | with_reducible assumption | extract_lets | (lift_lets; extract_lets) | intro _
    | with_reducible apply State.ownerWrite_keep | with_reducible apply State.setQuota_keep
    | with_reducible apply onUnit_keep | with_reducible apply ite_keep | with_reducible apply next_keep
    | with_reducible apply fault_keep | split | dsimp only | dsimp +zetaDelta only
    )

end Sys2Proof.Machine
end

