-- ==== Sys2Proof/Laws/MemCkpt.lean ====
section
/-! SUPPORT. Every operation of Machine/Ckpt.lean keeps the canonical form of the byte memories. -/

namespace Sys2Proof.Machine

set_option linter.unusedVariables false
set_option linter.unusedSimpArgs false
set_option linter.unusedTactic false
set_option linter.unreachableTactic false


theorem State.putExtents_keep {s : State} {port : Nat} {l : List (Nat × Nat)} {off : Nat} {b : List Byte} (hwf : Keeps s) : Keeps (State.putExtents s port l off b) := by
  induction l generalizing s port off b with
  | nil => (try unfold State.putExtents); exact hwf
  | cons x t ih =>
    unfold State.putExtents
    repeat' (first
      | with_reducible assumption | extract_lets | (lift_lets; extract_lets) | intro _ | with_reducible apply ih
      | with_reducible apply State.hostWrite_keep | with_reducible apply ite_keep | split | dsimp only
      | dsimp +zetaDelta only
      )

theorem State.putImage_keep {s : State} {img : List Byte × List (Nat × ImageShard)} {put : State → Nat → List Byte
    → Bool → State} (h_put : ∀ x0 x1 x2 x3, Keeps x0 → Keeps (put x0 x1 x2 x3)) (hwf : Keeps s) : Keeps
    (State.putImage s img put) := by
  unfold State.putImage
  repeat' (first
    | with_reducible assumption | extract_lets | (lift_lets; extract_lets) | intro _ | with_reducible apply h_put
    | simp only [Keeps1.mk_iff] | simp only [Keeps2.mk_iff] | with_reducible apply foldl_keep
    | with_reducible apply foldlP_keep | with_reducible refine foldlP_keep_eq (by assumption) ?_ ?_
    | with_reducible apply foldlQ_keep | with_reducible refine foldlQ_keep_eq (by assumption) ?_ ?_
    | with_reducible apply ite_keep | with_reducible apply Keeps1.fst | with_reducible apply Keeps2.snd | split
    | dsimp only | dsimp +zetaDelta only
    )

theorem execCkptBuddyAccept_keep {path : Path} {pk : Packet} {s : State} (hwf : Keeps s) : OutKeeps
    (execCkptBuddyAccept path pk s) := by
  unfold execCkptBuddyAccept
  repeat' (first
    | with_reducible assumption | extract_lets | (lift_lets; extract_lets) | intro _
    | with_reducible apply State.refuseService_keep | with_reducible apply State.failWith_keep
    | with_reducible apply State.done_keep | with_reducible apply beginCmd_keep | simp only [Keeps.mk_iff]
    | with_reducible apply Keeps.mem | with_reducible exact Mem.wf_empty | with_reducible apply ite_keep
    | with_reducible apply next_keep | with_reducible apply fault_keep | split | dsimp only | dsimp +zetaDelta only
    )

theorem execCkptBuddyRevoke_keep {path : Path} {pk : Packet} {s : State} (hwf : Keeps s) : OutKeeps
    (execCkptBuddyRevoke path pk s) := by
  unfold execCkptBuddyRevoke
  repeat' (first
    | with_reducible assumption | extract_lets | (lift_lets; extract_lets) | intro _
    | with_reducible apply State.refuseService_keep | with_reducible apply State.done_keep
    | with_reducible apply beginCmd_keep | simp only [Keeps.mk_iff] | with_reducible apply Keeps.mem
    | with_reducible exact Mem.wf_empty | with_reducible apply ite_keep | with_reducible apply next_keep
    | with_reducible apply fault_keep | split | dsimp only | dsimp +zetaDelta only
    )

theorem State.ckptRefused_keep {s : State} {p : CPacket} (hwf : Keeps s) : Keeps (State.ckptRefused s p) := by
  unfold State.ckptRefused
  repeat' (first
    | with_reducible assumption | extract_lets | (lift_lets; extract_lets) | intro _
    | with_reducible apply State.record_keep | with_reducible apply ite_keep | split | dsimp only
    | dsimp +zetaDelta only
    )

theorem State.ckptReply_keep {s : State} {p : CPacket} {srcPart : Nat} {sub : Nat} {payload : List Byte} {poison :
    Bool} (hwf : Keeps s) : Keeps (State.ckptReply s p srcPart sub payload poison) := by
  unfold State.ckptReply
  repeat' (first
    | with_reducible assumption | extract_lets | (lift_lets; extract_lets) | intro _
    | with_reducible apply State.sendPacket_keep | with_reducible refine State.sendPacket_keep_eq (by assumption) ?_
    | simp only [Keeps1.mk_iff] | with_reducible apply ite_keep | with_reducible apply Keeps1.fst | split
    | dsimp only | dsimp +zetaDelta only
    )

theorem State.ckptStore_keep {s : State} {p : CPacket} {srcPart : Nat} (hwf : Keeps s) : Keeps (State.ckptStore s
    p srcPart) := by
  unfold State.ckptStore
  repeat' (first
    | with_reducible assumption | extract_lets | (lift_lets; extract_lets) | intro _
    | with_reducible apply State.chargeExtent_keep | with_reducible apply State.ckptRefused_keep
    | with_reducible apply State.ckptReply_keep | with_reducible apply State.writeVA_keep
    | with_reducible apply ite_keep | split | dsimp only | dsimp +zetaDelta only
    )

theorem execCkptData_keep {srcPart : Nat} {mark : Option (Nat × Nat × Nat)} {s : State} (hwf : Keeps s) : OutKeeps
    (execCkptData srcPart mark s) := by
  unfold execCkptData
  repeat' (first
    | with_reducible assumption | extract_lets | (lift_lets; extract_lets) | intro _
    | with_reducible apply State.ckptRefused_keep
    | with_reducible refine State.takePacket_keep_eq (by assumption) ?_ | with_reducible apply State.ckptStore_keep
    | with_reducible apply State.pipeMsg_keep | with_reducible apply Mem.mark_keep | simp only [Keeps.mk_iff]
    | with_reducible apply Keeps.mem | with_reducible exact Mem.wf_empty | with_reducible apply ite_keep
    | with_reducible apply next_keep | with_reducible apply fault_keep | split | dsimp only | dsimp +zetaDelta only
    )

theorem execCkptDir_keep {srcPart : Nat} {s : State} (hwf : Keeps s) : OutKeeps (execCkptDir srcPart s) := by
  unfold execCkptDir
  repeat' (first
    | with_reducible assumption | extract_lets | (lift_lets; extract_lets) | intro _
    | with_reducible refine State.takePacket_keep_eq (by assumption) ?_ | with_reducible apply State.ckptStore_keep
    | simp only [Keeps.mk_iff] | with_reducible apply Keeps.mem | with_reducible exact Mem.wf_empty
    | with_reducible apply ite_keep | with_reducible apply next_keep | with_reducible apply fault_keep | split
    | dsimp only | dsimp +zetaDelta only
    )

theorem execCkptRead_keep {srcPart : Nat} {ue : List Nat} {s : State} (hwf : Keeps s) : OutKeeps (execCkptRead
    srcPart ue s) := by
  unfold execCkptRead
  repeat' (first
    | with_reducible assumption | extract_lets | (lift_lets; extract_lets) | intro _
    | with_reducible apply State.chargeExtent_keep | with_reducible apply State.ckptRefused_keep
    | with_reducible refine State.takePacket_keep_eq (by assumption) ?_ | with_reducible apply State.ckptReply_keep
    | simp only [Keeps.mk_iff] | with_reducible apply Keeps.mem | with_reducible exact Mem.wf_empty
    | with_reducible apply ite_keep | with_reducible apply next_keep | with_reducible apply fault_keep | split
    | dsimp only | dsimp +zetaDelta only
    )

theorem State.endWrite_keep {s : State} {n : Nat} {status : Nat} (hwf : Keeps s) : Keeps (State.endWrite s n
    status) := by
  unfold State.endWrite
  repeat' (first
    | with_reducible assumption | extract_lets | (lift_lets; extract_lets) | intro _
    | with_reducible apply State.updStage_keep | with_reducible apply State.ckptDrop_keep
    | with_reducible apply State.commit_keep | simp only [Keeps.mk_iff] | with_reducible apply Keeps.mem
    | with_reducible exact Mem.wf_empty | with_reducible apply ite_keep | split | dsimp only | dsimp +zetaDelta only
    )

theorem State.writeDir_keep {s : State} {n : Nat} {l : List Shard} {w : CkptWrite} (hwf : Keeps s) : Keeps
    (State.writeDir s n l w) := by
  unfold State.writeDir
  repeat' (first
    | with_reducible assumption | extract_lets | (lift_lets; extract_lets) | intro _
    | with_reducible apply State.updStage_keep | with_reducible apply State.ckptSend_keep | simp only [Keeps.mk_iff]
    | with_reducible apply Keeps.mem | with_reducible exact Mem.wf_empty | with_reducible apply ite_keep | split
    | dsimp only | dsimp +zetaDelta only
    )

theorem State.writeNext_keep {s : State} {n : Nat} {ue : List Nat} (hwf : Keeps s) : Keeps (State.writeNext s n
    ue) := by
  unfold State.writeNext
  repeat' (first
    | with_reducible assumption | extract_lets | (lift_lets; extract_lets) | intro _
    | with_reducible apply State.chargeExtent_keep | with_reducible apply State.updStage_keep
    | with_reducible apply State.ckptSend_keep | with_reducible apply State.endWrite_keep
    | with_reducible apply State.writeDir_keep | with_reducible apply State.mirror_keep | simp only [Keeps1.mk_iff]
    | simp only [Keeps2.mk_iff] | simp only [Keeps.mk_iff] | with_reducible apply foldl_keep
    | with_reducible apply Keeps.mem | with_reducible exact Mem.wf_empty | with_reducible apply foldlP_keep
    | with_reducible refine foldlP_keep_eq (by assumption) ?_ ?_ | with_reducible apply foldlQ_keep
    | with_reducible refine foldlQ_keep_eq (by assumption) ?_ ?_ | with_reducible apply ite_keep
    | with_reducible apply Keeps1.fst | with_reducible apply Keeps2.snd | split | dsimp only | dsimp +zetaDelta only
    )

theorem State.writeCheck_keep {s : State} {n : Nat} (hwf : Keeps s) : Keeps (State.writeCheck s n) := by
  unfold State.writeCheck
  repeat' (first
    | with_reducible assumption | extract_lets | (lift_lets; extract_lets) | intro _
    | with_reducible apply State.endWrite_keep | with_reducible apply ite_keep | split | dsimp only
    | dsimp +zetaDelta only
    )

theorem State.writeAcked_keep {s : State} {n : Nat} {ue : List Nat} (hwf : Keeps s) : Keeps (State.writeAcked s n
    ue) := by
  unfold State.writeAcked
  repeat' (first
    | with_reducible assumption | extract_lets | (lift_lets; extract_lets) | intro _
    | with_reducible apply State.writeCheck_keep | with_reducible apply State.writeNext_keep
    | with_reducible apply State.updStage_keep | with_reducible apply State.endWrite_keep
    | with_reducible apply State.writeDir_keep | simp only [Keeps.mk_iff] | with_reducible apply Keeps.mem
    | with_reducible exact Mem.wf_empty | with_reducible apply ite_keep | split | dsimp only | dsimp +zetaDelta only
    )

theorem execCkptBuddyWrite_keep {path : Path} {pk : Packet} {ue : List Nat} {s : State} (hwf : Keeps s) : OutKeeps
    (execCkptBuddyWrite path pk ue s) := by
  unfold execCkptBuddyWrite
  repeat' (first
    | with_reducible assumption | extract_lets | (lift_lets; extract_lets) | intro _
    | with_reducible apply beginOn_keep | with_reducible apply State.failWith_keep
    | with_reducible apply State.refuseService_keep | with_reducible apply State.failParam_keep
    | with_reducible apply State.updStage_keep | with_reducible apply State.writeNext_keep
    | with_reducible apply State.writeCheck_keep
    | simp only [Keeps1.mk_iff] | simp only [Keeps2.mk_iff]
    | simp only [Keeps.mk_iff] | with_reducible apply foldl_keep | with_reducible apply foldlM_keep
    | with_reducible apply iteM_keep | (simp only [Mem.wf_mk]; refine ⟨?_, ?_, ?_⟩)
    | with_reducible apply Tab.wf_put | with_reducible apply Tab.wf_putAll | with_reducible apply Tab.wf_filter
    | with_reducible apply Tab.wf_keep | with_reducible apply Tab.wf_merge | with_reducible exact Tab.wf_nil _
    | with_reducible apply Mem.bytes_keep | with_reducible apply Mem.pool_keep | with_reducible apply Mem.basin_keep
    | with_reducible apply Keeps.mem | with_reducible exact Mem.wf_empty | with_reducible apply foldlP_keep
    | with_reducible refine foldlP_keep_eq (by assumption) ?_ ?_ | with_reducible apply foldlQ_keep
    | with_reducible refine foldlQ_keep_eq (by assumption) ?_ ?_ | with_reducible apply OptKeeps.map
    | with_reducible exact OptKeeps.none | with_reducible apply OptKeeps.some | with_reducible apply SumKeeps.of_inl
    | with_reducible apply SumKeeps.of_inr | with_reducible apply id_keep | with_reducible apply ite_keep
    | with_reducible apply Keeps1.fst | with_reducible apply Keeps2.snd | with_reducible apply next_keep
    | with_reducible apply fault_keep | split | dsimp only | dsimp +zetaDelta only
    )

theorem State.updJob_keep {s : State} {cmd : Nat} {f : CkptJob → CkptJob} (hwf : Keeps s) : Keeps (State.updJob s
    cmd f) := by
  unfold State.updJob
  repeat' (first
    | with_reducible assumption | extract_lets | (lift_lets; extract_lets) | intro _ | simp only [Keeps.mk_iff]
    | with_reducible apply Keeps.mem | with_reducible exact Mem.wf_empty | with_reducible apply ite_keep | split
    | dsimp only | dsimp +zetaDelta only
    )

theorem State.dropJob_keep {s : State} {cmd : Nat} (hwf : Keeps s) : Keeps (State.dropJob s cmd) := by
  unfold State.dropJob
  repeat' (first
    | with_reducible assumption | extract_lets | (lift_lets; extract_lets) | intro _
    | with_reducible apply State.ckptDrop_keep | simp only [Keeps.mk_iff] | with_reducible apply Keeps.mem
    | with_reducible exact Mem.wf_empty | with_reducible apply ite_keep | split | dsimp only | dsimp +zetaDelta only
    )

theorem State.jobAsk_keep {s : State} {j : CkptJob} {off : Nat} {n : Nat} (hwf : Keeps s) : Keeps (State.jobAsk s
    j off n) := by
  unfold State.jobAsk
  repeat' (first
    | with_reducible assumption | extract_lets | (lift_lets; extract_lets) | intro _
    | with_reducible apply State.askBuddy_keep | with_reducible apply ite_keep | split | dsimp only
    | dsimp +zetaDelta only
    )

theorem State.finishDrain_keep {s : State} {j : CkptJob} (hwf : Keeps s) : Keeps (State.finishDrain s j) := by
  unfold State.finishDrain
  repeat' (first
    | with_reducible assumption | extract_lets | (lift_lets; extract_lets) | intro _
    | with_reducible apply State.putExtents_keep | with_reducible apply State.putImage_keep
    | with_reducible apply State.dropJob_keep | with_reducible apply State.charge_keep
    | with_reducible apply State.commit_keep | with_reducible apply ite_keep | split | dsimp only
    | dsimp +zetaDelta only
    )

theorem State.applyRestore_keep {s : State} {n : Nat} {cmd : Nat} {header : List Byte} {xs : List RestoreShard} (hwf
    : Keeps s) : Keeps (State.applyRestore s n cmd header xs) := by
  unfold State.applyRestore
  repeat' (first
    | with_reducible assumption | extract_lets | (lift_lets; extract_lets) | intro _
    | with_reducible apply State.chargeExtent_keep | with_reducible apply State.poisonVA_keep
    | with_reducible apply State.writeVA_keep | with_reducible apply State.updStage_keep
    | with_reducible apply State.commit_keep
    | simp only [Keeps1.mk_iff] | simp only [Keeps2.mk_iff]
    | simp only [Keeps.mk_iff] | with_reducible apply foldl_keep | with_reducible apply foldlM_keep
    | with_reducible apply iteM_keep | (simp only [Mem.wf_mk]; refine ⟨?_, ?_, ?_⟩)
    | with_reducible apply Tab.wf_put | with_reducible apply Tab.wf_putAll | with_reducible apply Tab.wf_filter
    | with_reducible apply Tab.wf_keep | with_reducible apply Tab.wf_merge | with_reducible exact Tab.wf_nil _
    | with_reducible apply Mem.bytes_keep | with_reducible apply Mem.pool_keep | with_reducible apply Mem.basin_keep
    | with_reducible apply Keeps.mem | with_reducible exact Mem.wf_empty | with_reducible apply foldlP_keep
    | with_reducible refine foldlP_keep_eq (by assumption) ?_ ?_ | with_reducible apply foldlQ_keep
    | with_reducible refine foldlQ_keep_eq (by assumption) ?_ ?_ | with_reducible apply OptKeeps.map
    | with_reducible exact OptKeeps.none | with_reducible apply OptKeeps.some | with_reducible apply SumKeeps.of_inl
    | with_reducible apply SumKeeps.of_inr | with_reducible apply id_keep | with_reducible apply ite_keep
    | with_reducible apply Keeps1.fst | with_reducible apply Keeps2.snd | with_reducible apply next_keep
    | with_reducible apply fault_keep | split | dsimp only | dsimp +zetaDelta only
    )

theorem State.restoreRefused_keep {s : State} {cmd : Nat} {cause : Nat} (hwf : Keeps s) : Keeps
    (State.restoreRefused s cmd cause) := by
  unfold State.restoreRefused
  repeat' (first
    | with_reducible assumption | extract_lets | (lift_lets; extract_lets) | intro _
    | with_reducible apply State.commit_keep | with_reducible apply ite_keep | split | dsimp only
    | dsimp +zetaDelta only
    )

theorem State.restoreArea_keep {s : State} {j : CkptJob} (hwf : Keeps s) : Keeps (State.restoreArea s j) := by
  unfold State.restoreArea
  repeat' (first
    | with_reducible assumption | extract_lets | (lift_lets; extract_lets) | intro _
    | with_reducible apply State.restoreRefused_keep | with_reducible apply State.dropJob_keep
    | with_reducible apply State.updJob_keep | with_reducible apply State.jobAsk_keep | simp only [Keeps1.mk_iff]
    | simp only [Keeps2.mk_iff] | simp only [Keeps.mk_iff] | with_reducible apply foldl_keep
    | with_reducible apply Keeps.mem | with_reducible exact Mem.wf_empty | with_reducible apply foldlP_keep
    | with_reducible refine foldlP_keep_eq (by assumption) ?_ ?_ | with_reducible apply foldlQ_keep
    | with_reducible refine foldlQ_keep_eq (by assumption) ?_ ?_ | with_reducible apply ite_keep
    | with_reducible apply Keeps1.fst | with_reducible apply Keeps2.snd | split | dsimp only | dsimp +zetaDelta only
    )

theorem State.finishRestore_keep {s : State} {j : CkptJob} (hwf : Keeps s) : Keeps (State.finishRestore s j) := by
  unfold State.finishRestore
  repeat' (first
    | with_reducible assumption | extract_lets | (lift_lets; extract_lets) | intro _
    | with_reducible apply State.applyRestore_keep | with_reducible apply State.dropJob_keep
    | with_reducible apply ite_keep | split | dsimp only | dsimp +zetaDelta only
    )

theorem State.jobNext_keep {s : State} {cmd : Nat} (hwf : Keeps s) : Keeps (State.jobNext s cmd) := by
  unfold State.jobNext
  repeat' (first
    | with_reducible assumption | extract_lets | (lift_lets; extract_lets) | intro _
    | with_reducible apply State.finishRestore_keep | with_reducible apply State.finishDrain_keep
    | with_reducible apply State.restoreArea_keep | with_reducible apply State.updJob_keep
    | with_reducible apply State.jobAsk_keep | simp only [Keeps1.mk_iff] | simp only [Keeps2.mk_iff]
    | simp only [Keeps.mk_iff] | with_reducible apply foldl_keep | with_reducible apply Keeps.mem
    | with_reducible exact Mem.wf_empty | with_reducible apply foldlP_keep
    | with_reducible refine foldlP_keep_eq (by assumption) ?_ ?_ | with_reducible apply foldlQ_keep
    | with_reducible refine foldlQ_keep_eq (by assumption) ?_ ?_ | with_reducible apply ite_keep
    | with_reducible apply Keeps1.fst | with_reducible apply Keeps2.snd | split | dsimp only | dsimp +zetaDelta only
    )

theorem State.jobCheck_keep {s : State} (hwf : Keeps s) : Keeps (State.jobCheck s) := by
  unfold State.jobCheck
  repeat' (first
    | with_reducible assumption | extract_lets | (lift_lets; extract_lets) | intro _
    | with_reducible apply State.dropJob_keep | with_reducible apply State.commit_keep | simp only [Keeps1.mk_iff]
    | simp only [Keeps2.mk_iff] | simp only [Keeps.mk_iff] | with_reducible apply foldl_keep
    | with_reducible apply Keeps.mem | with_reducible exact Mem.wf_empty | with_reducible apply foldlP_keep
    | with_reducible refine foldlP_keep_eq (by assumption) ?_ ?_ | with_reducible apply foldlQ_keep
    | with_reducible refine foldlQ_keep_eq (by assumption) ?_ ?_ | with_reducible apply ite_keep
    | with_reducible apply Keeps1.fst | with_reducible apply Keeps2.snd | split | dsimp only | dsimp +zetaDelta only
    )

theorem State.ckptGoOn_keep {s : State} {n : Nat} {ue : List Nat} (hwf : Keeps s) : Keeps (State.ckptGoOn s n ue)
    := by
  unfold State.ckptGoOn
  repeat' (first
    | with_reducible assumption | extract_lets | (lift_lets; extract_lets) | intro _
    | with_reducible apply State.writeCheck_keep | with_reducible apply State.writeNext_keep
    | with_reducible apply State.jobCheck_keep | with_reducible apply State.jobNext_keep | simp only [Keeps1.mk_iff]
    | simp only [Keeps2.mk_iff] | simp only [Keeps.mk_iff] | with_reducible apply foldl_keep
    | with_reducible apply Keeps.mem | with_reducible exact Mem.wf_empty | with_reducible apply foldlP_keep
    | with_reducible refine foldlP_keep_eq (by assumption) ?_ ?_ | with_reducible apply foldlQ_keep
    | with_reducible refine foldlQ_keep_eq (by assumption) ?_ ?_ | with_reducible apply ite_keep
    | with_reducible apply Keeps1.fst | with_reducible apply Keeps2.snd | split | dsimp only | dsimp +zetaDelta only
    )

theorem State.jobData_keep {s : State} {cmd : Nat} {off : Nat} {p : CPacket} {ue : List Nat} (hwf : Keeps s) :
    Keeps (State.jobData s cmd off p ue) := by
  unfold State.jobData
  repeat' (first
    | with_reducible assumption | extract_lets | (lift_lets; extract_lets) | intro _
    | with_reducible apply State.jobCheck_keep | with_reducible apply State.ckptGoOn_keep
    | with_reducible apply State.jobNext_keep | with_reducible apply State.updJob_keep | simp only [Keeps.mk_iff]
    | with_reducible apply Keeps.mem | with_reducible exact Mem.wf_empty | with_reducible apply ite_keep | split
    | dsimp only | dsimp +zetaDelta only
    )

theorem execCkptDrain_keep {path : Path} {pk : Packet} {host : Option (List Byte)} {s : State} (hwf : Keeps s) :
    OutKeeps (execCkptDrain path pk host s) := by
  unfold execCkptDrain
  repeat' (first
    | with_reducible assumption | extract_lets | (lift_lets; extract_lets) | intro _
    | with_reducible apply beginOn_keep | with_reducible apply State.failWith_keep
    | with_reducible apply State.refuseService_keep | with_reducible apply State.failParam_keep
    | with_reducible apply State.charge_keep | with_reducible apply State.jobNext_keep
    | with_reducible apply State.jobCheck_keep
    | simp only [Keeps1.mk_iff] | simp only [Keeps2.mk_iff]
    | simp only [Keeps.mk_iff] | with_reducible apply foldl_keep | with_reducible apply foldlM_keep
    | with_reducible apply iteM_keep | (simp only [Mem.wf_mk]; refine ⟨?_, ?_, ?_⟩)
    | with_reducible apply Tab.wf_put | with_reducible apply Tab.wf_putAll | with_reducible apply Tab.wf_filter
    | with_reducible apply Tab.wf_keep | with_reducible apply Tab.wf_merge | with_reducible exact Tab.wf_nil _
    | with_reducible apply Mem.bytes_keep | with_reducible apply Mem.pool_keep | with_reducible apply Mem.basin_keep
    | with_reducible apply Keeps.mem | with_reducible exact Mem.wf_empty | with_reducible apply foldlP_keep
    | with_reducible refine foldlP_keep_eq (by assumption) ?_ ?_ | with_reducible apply foldlQ_keep
    | with_reducible refine foldlQ_keep_eq (by assumption) ?_ ?_ | with_reducible apply OptKeeps.map
    | with_reducible exact OptKeeps.none | with_reducible apply OptKeeps.some | with_reducible apply SumKeeps.of_inl
    | with_reducible apply SumKeeps.of_inr | with_reducible apply id_keep | with_reducible apply ite_keep
    | with_reducible apply Keeps1.fst | with_reducible apply Keeps2.snd | with_reducible apply next_keep
    | with_reducible apply fault_keep | split | dsimp only | dsimp +zetaDelta only
    )

theorem State.ckptMatch_keep {s : State} {p : CPacket} (hwf : Keeps s) : OptKeeps (State.ckptMatch s p) := by
  unfold State.ckptMatch
  repeat' (first
    | with_reducible assumption | extract_lets | (lift_lets; extract_lets) | intro _ | simp only [Keeps2.mk_iff]
    | simp only [Keeps.mk_iff] | with_reducible apply Keeps.mem | with_reducible exact Mem.wf_empty
    | with_reducible apply ite_keep | with_reducible apply OptKeeps.map | with_reducible exact OptKeeps.none
    | with_reducible apply OptKeeps.some | with_reducible apply Keeps2.snd | split | dsimp only
    | dsimp +zetaDelta only
    )
theorem State.ckptMatch_keep_eq {s : State} {p : CPacket} {s' : State} {x' : CkptUse} (e : State.ckptMatch s p =
    some (x', s')) (hwf : Keeps s) : Keeps s' := by
  have k : OptKeeps (State.ckptMatch s p) := State.ckptMatch_keep  hwf
  rw [e] at k
  exact k.keep _ rfl

theorem execCkptAck_keep {ue : List Nat} {s : State} (hwf : Keeps s) : OutKeeps (execCkptAck ue s) := by
  unfold execCkptAck
  repeat' (first
    | with_reducible assumption | extract_lets | (lift_lets; extract_lets) | intro _
    | with_reducible refine State.takePacket_keep_eq (by assumption) ?_ | with_reducible apply State.berthReady_keep
    | with_reducible apply State.writeAcked_keep | with_reducible refine State.ckptMatch_keep_eq (by assumption) ?_
    | with_reducible apply State.ckptGoOn_keep | simp only [Keeps.mk_iff] | with_reducible apply Keeps.mem
    | with_reducible exact Mem.wf_empty | with_reducible apply ite_keep | with_reducible apply next_keep
    | with_reducible apply fault_keep | split | dsimp only | dsimp +zetaDelta only
    )

theorem execCkptReadData_keep {ue : List Nat} {s : State} (hwf : Keeps s) : OutKeeps (execCkptReadData ue s) := by
  unfold execCkptReadData
  repeat' (first
    | with_reducible assumption | extract_lets | (lift_lets; extract_lets) | intro _
    | with_reducible refine State.takePacket_keep_eq (by assumption) ?_ | with_reducible apply State.tryResume_keep
    | with_reducible refine State.ckptMatch_keep_eq (by assumption) ?_ | with_reducible apply State.updStage_keep
    | with_reducible apply State.writeVA_keep | with_reducible apply State.jobData_keep | simp only [Keeps.mk_iff]
    | with_reducible apply Keeps.mem | with_reducible exact Mem.wf_empty | with_reducible apply ite_keep
    | with_reducible apply next_keep | with_reducible apply fault_keep | split | dsimp only | dsimp +zetaDelta only
    )

theorem execExportShards_keep {path : Path} {pk : Packet} {host : Option (List Byte)} {ue : List Nat} {s : State}
    (hwf : Keeps s) : OutKeeps (execExportShards path pk host ue s) := by
  unfold execExportShards
  repeat' (first
    | with_reducible assumption | extract_lets | (lift_lets; extract_lets) | intro _
    | with_reducible apply State.putExtents_keep | with_reducible apply beginOn_keep
    | with_reducible apply State.failWith_keep | with_reducible apply State.failParam_keep
    | with_reducible apply State.refuseService_keep | with_reducible apply State.chargeParam_keep
    | with_reducible apply State.failExtents_keep | with_reducible apply State.chargeExtent_keep
    | with_reducible apply State.charge_keep | with_reducible apply State.putImage_keep
    | with_reducible apply State.writeVA_keep | with_reducible apply State.commit_keep
    | simp only [Keeps1.mk_iff] | simp only [Keeps2.mk_iff]
    | simp only [Keeps.mk_iff] | with_reducible apply foldl_keep | with_reducible apply foldlM_keep
    | with_reducible apply iteM_keep | (simp only [Mem.wf_mk]; refine ⟨?_, ?_, ?_⟩)
    | with_reducible apply Tab.wf_put | with_reducible apply Tab.wf_putAll | with_reducible apply Tab.wf_filter
    | with_reducible apply Tab.wf_keep | with_reducible apply Tab.wf_merge | with_reducible exact Tab.wf_nil _
    | with_reducible apply Mem.bytes_keep | with_reducible apply Mem.pool_keep | with_reducible apply Mem.basin_keep
    | with_reducible apply Keeps.mem | with_reducible exact Mem.wf_empty | with_reducible apply foldlP_keep
    | with_reducible refine foldlP_keep_eq (by assumption) ?_ ?_ | with_reducible apply foldlQ_keep
    | with_reducible refine foldlQ_keep_eq (by assumption) ?_ ?_ | with_reducible apply OptKeeps.map
    | with_reducible exact OptKeeps.none | with_reducible apply OptKeeps.some | with_reducible apply SumKeeps.of_inl
    | with_reducible apply SumKeeps.of_inr | with_reducible apply id_keep | with_reducible apply ite_keep
    | with_reducible apply Keeps1.fst | with_reducible apply Keeps2.snd | with_reducible apply next_keep
    | with_reducible apply fault_keep | split | dsimp only | dsimp +zetaDelta only
    )

theorem State.restoreImage_keep {s : State} {f : Flight} {n : Nat} {l : List Shard} {read : Nat → Nat → List Byte}
    {bad : Nat → Nat → Bool} (hwf : Keeps s) : Keeps (State.restoreImage s f n l read bad) := by
  unfold State.restoreImage
  repeat' (first
    | with_reducible assumption | extract_lets | (lift_lets; extract_lets) | intro _
    | with_reducible apply State.restoreRefused_keep | with_reducible apply State.refuseService_keep
    | with_reducible apply State.applyRestore_keep | with_reducible apply State.failWith_keep
    | simp only [Keeps.mk_iff] | with_reducible apply Keeps.mem | with_reducible exact Mem.wf_empty
    | with_reducible apply id_keep | with_reducible apply ite_keep | split | dsimp only | dsimp +zetaDelta only
    )

theorem execRestore_keep {path : Path} {pk : Packet} {host : Option (List Byte)} {ue : List Nat} {s : State} (hwf :
    Keeps s) : OutKeeps (execRestore path pk host ue s) := by
  unfold execRestore
  repeat' (first
    | with_reducible assumption | extract_lets | (lift_lets; extract_lets) | intro _
    | with_reducible apply beginOn_keep | with_reducible apply State.failWith_keep
    | with_reducible apply State.refuseService_keep | with_reducible apply State.failParam_keep
    | with_reducible apply State.failExtents_keep | with_reducible apply State.charge_keep
    | with_reducible apply State.restoreImage_keep | with_reducible apply State.chargeExtent_keep
    | with_reducible apply State.jobNext_keep | with_reducible apply State.jobCheck_keep
    | simp only [Keeps1.mk_iff] | simp only [Keeps2.mk_iff]
    | simp only [Keeps.mk_iff] | with_reducible apply foldl_keep | with_reducible apply foldlM_keep
    | with_reducible apply iteM_keep | (simp only [Mem.wf_mk]; refine ⟨?_, ?_, ?_⟩)
    | with_reducible apply Tab.wf_put | with_reducible apply Tab.wf_putAll | with_reducible apply Tab.wf_filter
    | with_reducible apply Tab.wf_keep | with_reducible apply Tab.wf_merge | with_reducible exact Tab.wf_nil _
    | with_reducible apply Mem.bytes_keep | with_reducible apply Mem.pool_keep | with_reducible apply Mem.basin_keep
    | with_reducible apply Keeps.mem | with_reducible exact Mem.wf_empty | with_reducible apply foldlP_keep
    | with_reducible refine foldlP_keep_eq (by assumption) ?_ ?_ | with_reducible apply foldlQ_keep
    | with_reducible refine foldlQ_keep_eq (by assumption) ?_ ?_ | with_reducible apply OptKeeps.map
    | with_reducible exact OptKeeps.none | with_reducible apply OptKeeps.some | with_reducible apply SumKeeps.of_inl
    | with_reducible apply SumKeeps.of_inr | with_reducible apply id_keep | with_reducible apply ite_keep
    | with_reducible apply Keeps1.fst | with_reducible apply Keeps2.snd | with_reducible apply next_keep
    | with_reducible apply fault_keep | split | dsimp only | dsimp +zetaDelta only
    )

theorem State.abortCkpt_keep {s : State} {cmd : Nat} (hwf : Keeps s) : Keeps (State.abortCkpt s cmd) := by
  unfold State.abortCkpt
  repeat' (first
    | with_reducible assumption | extract_lets | (lift_lets; extract_lets) | intro _
    | with_reducible apply State.endWrite_keep | with_reducible apply State.ckptGoOn_keep
    | with_reducible apply State.dropJob_keep | with_reducible apply State.commit_keep | simp only [Keeps.mk_iff]
    | with_reducible apply Keeps.mem | with_reducible exact Mem.wf_empty | with_reducible apply ite_keep | split
    | dsimp only | dsimp +zetaDelta only
    )

end Sys2Proof.Machine
end

