-- ==== Sys2Proof/Laws/MemColl.lean ====
section
/-! SUPPORT. Every operation of Machine/Coll.lean keeps the canonical form of the byte memories. -/

namespace Sys2Proof.Machine

set_option linter.unusedVariables false
set_option linter.unusedSimpArgs false
set_option linter.unusedTactic false
set_option linter.unreachableTactic false


theorem State.refuseGroup_keep {s : State} {f : Flight} {cause : Nat} (hwf : Keeps s) : Keeps (State.refuseGroup s
    f cause) := by
  unfold State.refuseGroup
  repeat' (first
    | with_reducible assumption | extract_lets | (lift_lets; extract_lets) | intro _
    | with_reducible apply State.commit_keep | with_reducible apply id_keep | with_reducible apply ite_keep | split
    | dsimp only | dsimp +zetaDelta only
    )

theorem State.sendHello_keep {s : State} {n : Nat} (hwf : Keeps s) : Keeps (State.sendHello s n) := by
  unfold State.sendHello
  repeat' (first
    | with_reducible assumption | extract_lets | (lift_lets; extract_lets) | intro _
    | with_reducible apply State.updGroup_keep | with_reducible apply State.collCtl_keep | simp only [Keeps1.mk_iff]
    | simp only [Keeps2.mk_iff] | simp only [Keeps.mk_iff] | with_reducible apply foldl_keep
    | with_reducible apply Keeps.mem | with_reducible exact Mem.wf_empty | with_reducible apply foldlP_keep
    | with_reducible refine foldlP_keep_eq (by assumption) ?_ ?_ | with_reducible apply foldlQ_keep
    | with_reducible refine foldlQ_keep_eq (by assumption) ?_ ?_ | with_reducible apply ite_keep
    | with_reducible apply Keeps1.fst | with_reducible apply Keeps2.snd | split | dsimp only | dsimp +zetaDelta only
    )

theorem State.bindGroup_keep {s : State} {f : Flight} {standby : Bool} {host : Option (List Byte)} {ue : List Nat}
    (hwf : Keeps s) : Keeps (State.bindGroup s f standby host ue) := by
  unfold State.bindGroup
  repeat' (first
    | with_reducible assumption | extract_lets | (lift_lets; extract_lets) | intro _
    | with_reducible apply State.failParam_keep | with_reducible apply State.refuseGroup_keep
    | with_reducible apply State.failWith_keep | with_reducible apply State.chargeParam_keep
    | with_reducible apply State.updGroup_keep | with_reducible apply State.sendHello_keep
    | with_reducible apply State.done_keep
    | simp only [Keeps1.mk_iff] | simp only [Keeps2.mk_iff]
    | simp only [Keeps.mk_iff] | with_reducible apply foldl_keep | with_reducible apply foldlM_keep
    | with_reducible apply iteM_keep | (simp only [Mem.wf_mk]; refine ⟨?_, ?_, ?_⟩)
    | with_reducible apply Tab.wf_put | with_reducible apply Tab.wf_putAll | with_reducible apply Tab.wf_filter
    | with_reducible apply Tab.wf_keep | with_reducible apply Tab.wf_merge | with_reducible exact Tab.wf_nil _
    | with_reducible apply Mem.bytes_keep | with_reducible apply Mem.pool_keep | with_reducible apply Mem.basin_keep
    | with_reducible apply Keeps.mem | with_reducible exact Mem.wf_empty | with_reducible apply foldlP_keep
    | with_reducible refine foldlP_keep_eq (by assumption) ?_ ?_ | with_reducible apply foldlQ_keep
    | with_reducible refine foldlQ_keep_eq (by assumption) ?_ ?_ | with_reducible apply OptKeeps.map
    | with_reducible exact OptKeeps.none | with_reducible apply OptKeeps.some | with_reducible apply SumKeeps.of_inl
    | with_reducible apply SumKeeps.of_inr | with_reducible apply id_keep | with_reducible apply ite_keep
    | with_reducible apply Keeps1.fst | with_reducible apply Keeps2.snd | with_reducible apply next_keep
    | with_reducible apply fault_keep | split | dsimp only | dsimp +zetaDelta only
    )

theorem execGroupBind_keep {path : Path} {pk : Packet} {host : Option (List Byte)} {ue : List Nat} {s : State} (hwf
    : Keeps s) : OutKeeps (execGroupBind path pk host ue s) := by
  unfold execGroupBind
  repeat' (first
    | with_reducible assumption | extract_lets | (lift_lets; extract_lets) | intro _
    | with_reducible apply beginOn_keep | with_reducible apply State.bindGroup_keep
    | simp only [Keeps1.mk_iff] | simp only [Keeps2.mk_iff]
    | simp only [Keeps.mk_iff] | with_reducible apply foldl_keep | with_reducible apply foldlM_keep
    | with_reducible apply iteM_keep | (simp only [Mem.wf_mk]; refine ⟨?_, ?_, ?_⟩)
    | with_reducible apply Tab.wf_put | with_reducible apply Tab.wf_putAll | with_reducible apply Tab.wf_filter
    | with_reducible apply Tab.wf_keep | with_reducible apply Tab.wf_merge | with_reducible exact Tab.wf_nil _
    | with_reducible apply Mem.bytes_keep | with_reducible apply Mem.pool_keep | with_reducible apply Mem.basin_keep
    | with_reducible apply Keeps.mem | with_reducible exact Mem.wf_empty | with_reducible apply foldlP_keep
    | with_reducible refine foldlP_keep_eq (by assumption) ?_ ?_ | with_reducible apply foldlQ_keep
    | with_reducible refine foldlQ_keep_eq (by assumption) ?_ ?_ | with_reducible apply OptKeeps.map
    | with_reducible exact OptKeeps.none | with_reducible apply OptKeeps.some | with_reducible apply SumKeeps.of_inl
    | with_reducible apply SumKeeps.of_inr | with_reducible apply id_keep | with_reducible apply ite_keep
    | with_reducible apply Keeps1.fst | with_reducible apply Keeps2.snd | with_reducible apply next_keep
    | with_reducible apply fault_keep | split | dsimp only | dsimp +zetaDelta only
    )

theorem execGroupStandby_keep {path : Path} {pk : Packet} {host : Option (List Byte)} {ue : List Nat} {s : State}
    (hwf : Keeps s) : OutKeeps (execGroupStandby path pk host ue s) := by
  unfold execGroupStandby
  repeat' (first
    | with_reducible assumption | extract_lets | (lift_lets; extract_lets) | intro _
    | with_reducible apply beginOn_keep | with_reducible apply State.bindGroup_keep
    | simp only [Keeps1.mk_iff] | simp only [Keeps2.mk_iff]
    | simp only [Keeps.mk_iff] | with_reducible apply foldl_keep | with_reducible apply foldlM_keep
    | with_reducible apply iteM_keep | (simp only [Mem.wf_mk]; refine ⟨?_, ?_, ?_⟩)
    | with_reducible apply Tab.wf_put | with_reducible apply Tab.wf_putAll | with_reducible apply Tab.wf_filter
    | with_reducible apply Tab.wf_keep | with_reducible apply Tab.wf_merge | with_reducible exact Tab.wf_nil _
    | with_reducible apply Mem.bytes_keep | with_reducible apply Mem.pool_keep | with_reducible apply Mem.basin_keep
    | with_reducible apply Keeps.mem | with_reducible exact Mem.wf_empty | with_reducible apply foldlP_keep
    | with_reducible refine foldlP_keep_eq (by assumption) ?_ ?_ | with_reducible apply foldlQ_keep
    | with_reducible refine foldlQ_keep_eq (by assumption) ?_ ?_ | with_reducible apply OptKeeps.map
    | with_reducible exact OptKeeps.none | with_reducible apply OptKeeps.some | with_reducible apply SumKeeps.of_inl
    | with_reducible apply SumKeeps.of_inr | with_reducible apply id_keep | with_reducible apply ite_keep
    | with_reducible apply Keeps1.fst | with_reducible apply Keeps2.snd | with_reducible apply next_keep
    | with_reducible apply fault_keep | split | dsimp only | dsimp +zetaDelta only
    )

theorem execGroupUnbind_keep {path : Path} {pk : Packet} {s : State} (hwf : Keeps s) : OutKeeps (execGroupUnbind
    path pk s) := by
  unfold execGroupUnbind
  repeat' (first
    | with_reducible assumption | extract_lets | (lift_lets; extract_lets) | intro _
    | with_reducible apply State.refuseGroup_keep | with_reducible apply State.failWith_keep
    | with_reducible apply State.updGroup_keep | with_reducible apply State.done_keep
    | with_reducible apply beginOn_keep | with_reducible exact Mem.wf_empty | with_reducible apply ite_keep
    | with_reducible apply next_keep | with_reducible apply fault_keep | split | dsimp only | dsimp +zetaDelta only
    )

theorem State.enterColl_keep {s : State} {n : Nat} {c : Coll} {ue : List Nat} (hwf : Keeps s) : Keeps
    (State.enterColl s n c ue) := by
  unfold State.enterColl
  repeat' (first
    | with_reducible assumption | extract_lets | (lift_lets; extract_lets) | intro _
    | with_reducible apply State.startColls_keep | with_reducible apply State.updGroup_keep
    | simp only [Keeps.mk_iff] | with_reducible apply Keeps.mem | with_reducible exact Mem.wf_empty
    | with_reducible apply ite_keep | split | dsimp only | dsimp +zetaDelta only
    )

theorem State.slotOf_keep {s : State} {f : Flight} {body : Group → State} (h_body : ∀ x0, Keeps (body x0)) (hwf :
    Keeps s) : Keeps (State.slotOf s f body) := by
  unfold State.slotOf
  repeat' (first
    | with_reducible assumption | extract_lets | (lift_lets; extract_lets) | intro _ | with_reducible apply h_body
    | with_reducible apply State.refuseGroup_keep | with_reducible apply State.failWith_keep
    | with_reducible apply ite_keep | split | dsimp only | dsimp +zetaDelta only
    )

theorem State.resolved_keep {s : State} {f : Flight} {g : Group} {rd wr : List (Nat × Nat)} {ok : State}
    (hwf : Keeps s) (hok : Keeps ok) : Keeps (State.resolved s f g rd wr ok) := by
  unfold State.resolved
  split
  · exact State.failWith_keep (State.notePairs_keep hwf)
  · exact hok

theorem State.startReduction_keep {s : State} {f : Flight} {g : Group} {c : Coll} {ue : List Nat} (hwf : Keeps s) :
    Keeps (State.startReduction s f g c ue) := by
  unfold State.startReduction
  repeat' (first
    | with_reducible assumption | extract_lets | (lift_lets; extract_lets) | intro _
    | with_reducible apply State.refuseGroup_keep | with_reducible apply State.resolved_keep
    | with_reducible apply State.enterColl_keep
    | simp only [Keeps1.mk_iff] | simp only [Keeps2.mk_iff]
    | simp only [Keeps.mk_iff] | with_reducible apply foldl_keep | with_reducible apply foldlM_keep
    | with_reducible apply iteM_keep | (simp only [Mem.wf_mk]; refine ⟨?_, ?_, ?_⟩)
    | with_reducible apply Tab.wf_put | with_reducible apply Tab.wf_putAll | with_reducible apply Tab.wf_filter
    | with_reducible apply Tab.wf_keep | with_reducible apply Tab.wf_merge | with_reducible exact Tab.wf_nil _
    | with_reducible apply Mem.bytes_keep | with_reducible apply Mem.pool_keep | with_reducible apply Mem.basin_keep
    | with_reducible apply Keeps.mem | with_reducible exact Mem.wf_empty | with_reducible apply foldlP_keep
    | with_reducible refine foldlP_keep_eq (by assumption) ?_ ?_ | with_reducible apply foldlQ_keep
    | with_reducible refine foldlQ_keep_eq (by assumption) ?_ ?_ | with_reducible apply OptKeeps.map
    | with_reducible exact OptKeeps.none | with_reducible apply OptKeeps.some | with_reducible apply SumKeeps.of_inl
    | with_reducible apply SumKeeps.of_inr | with_reducible apply id_keep | with_reducible apply ite_keep
    | with_reducible apply Keeps1.fst | with_reducible apply Keeps2.snd | with_reducible apply next_keep
    | with_reducible apply fault_keep | split | dsimp only | dsimp +zetaDelta only
    )

theorem reduction_keep {op : CollOp} {path : Path} {pk : Packet} {code : Nat} {ue : List Nat} {s : State} (hwf :
    Keeps s) : OutKeeps (reduction op path pk code ue s) := by
  unfold reduction
  repeat' (first
    | with_reducible assumption | extract_lets | (lift_lets; extract_lets) | intro _
    | with_reducible apply beginOn_keep | with_reducible apply State.slotOf_keep
    | with_reducible apply State.startReduction_keep | with_reducible apply State.refuseGroup_keep
    | with_reducible apply State.enterColl_keep | with_reducible apply State.failWith_keep
    | simp only [Keeps1.mk_iff] | simp only [Keeps2.mk_iff]
    | simp only [Keeps.mk_iff] | with_reducible apply foldl_keep | with_reducible apply foldlM_keep
    | with_reducible apply iteM_keep | (simp only [Mem.wf_mk]; refine ⟨?_, ?_, ?_⟩)
    | with_reducible apply Tab.wf_put | with_reducible apply Tab.wf_putAll | with_reducible apply Tab.wf_filter
    | with_reducible apply Tab.wf_keep | with_reducible apply Tab.wf_merge | with_reducible exact Tab.wf_nil _
    | with_reducible apply Mem.bytes_keep | with_reducible apply Mem.pool_keep | with_reducible apply Mem.basin_keep
    | with_reducible apply Keeps.mem | with_reducible exact Mem.wf_empty | with_reducible apply foldlP_keep
    | with_reducible refine foldlP_keep_eq (by assumption) ?_ ?_ | with_reducible apply foldlQ_keep
    | with_reducible refine foldlQ_keep_eq (by assumption) ?_ ?_ | with_reducible apply OptKeeps.map
    | with_reducible exact OptKeeps.none | with_reducible apply OptKeeps.some | with_reducible apply SumKeeps.of_inl
    | with_reducible apply SumKeeps.of_inr | with_reducible apply id_keep | with_reducible apply ite_keep
    | with_reducible apply Keeps1.fst | with_reducible apply Keeps2.snd | with_reducible apply next_keep
    | with_reducible apply fault_keep | split | dsimp only | dsimp +zetaDelta only
    )

theorem execAllreduce_keep {path : Path} {pk : Packet} {ue : List Nat} {s : State} (hwf : Keeps s) : OutKeeps
    (execAllreduce path pk ue s) := by
  unfold execAllreduce
  repeat' (first
    | with_reducible assumption | extract_lets | (lift_lets; extract_lets) | intro _
    | with_reducible apply reduction_keep | with_reducible apply ite_keep | with_reducible apply next_keep
    | with_reducible apply fault_keep | split | dsimp only | dsimp +zetaDelta only
    )

theorem execReduceScatter_keep {path : Path} {pk : Packet} {ue : List Nat} {s : State} (hwf : Keeps s) : OutKeeps
    (execReduceScatter path pk ue s) := by
  unfold execReduceScatter
  repeat' (first
    | with_reducible assumption | extract_lets | (lift_lets; extract_lets) | intro _
    | with_reducible apply reduction_keep | with_reducible apply ite_keep | with_reducible apply next_keep
    | with_reducible apply fault_keep | split | dsimp only | dsimp +zetaDelta only
    )

theorem execAllgather_keep {path : Path} {pk : Packet} {ue : List Nat} {s : State} (hwf : Keeps s) : OutKeeps
    (execAllgather path pk ue s) := by
  unfold execAllgather
  repeat' (first
    | with_reducible assumption | extract_lets | (lift_lets; extract_lets) | intro _
    | with_reducible apply reduction_keep | with_reducible apply ite_keep | with_reducible apply next_keep
    | with_reducible apply fault_keep | split | dsimp only | dsimp +zetaDelta only
    )

theorem State.startRows_keep {s : State} {f : Flight} {g : Group} {c : Coll} {ue : List Nat} (hwf : Keeps s) : Keeps
    (State.startRows s f g c ue) := by
  unfold State.startRows
  repeat' (first
    | with_reducible assumption | extract_lets | (lift_lets; extract_lets) | intro _
    | with_reducible apply State.refuseGroup_keep | with_reducible apply State.resolved_keep
    | with_reducible apply State.enterColl_keep
    | simp only [Keeps1.mk_iff] | simp only [Keeps2.mk_iff]
    | simp only [Keeps.mk_iff] | with_reducible apply foldl_keep | with_reducible apply foldlM_keep
    | with_reducible apply iteM_keep | (simp only [Mem.wf_mk]; refine ⟨?_, ?_, ?_⟩)
    | with_reducible apply Tab.wf_put | with_reducible apply Tab.wf_putAll | with_reducible apply Tab.wf_filter
    | with_reducible apply Tab.wf_keep | with_reducible apply Tab.wf_merge | with_reducible exact Tab.wf_nil _
    | with_reducible apply Mem.bytes_keep | with_reducible apply Mem.pool_keep | with_reducible apply Mem.basin_keep
    | with_reducible apply Keeps.mem | with_reducible exact Mem.wf_empty | with_reducible apply foldlP_keep
    | with_reducible refine foldlP_keep_eq (by assumption) ?_ ?_ | with_reducible apply foldlQ_keep
    | with_reducible refine foldlQ_keep_eq (by assumption) ?_ ?_ | with_reducible apply OptKeeps.map
    | with_reducible exact OptKeeps.none | with_reducible apply OptKeeps.some | with_reducible apply SumKeeps.of_inl
    | with_reducible apply SumKeeps.of_inr | with_reducible apply id_keep | with_reducible apply ite_keep
    | with_reducible apply Keeps1.fst | with_reducible apply Keeps2.snd | with_reducible apply next_keep
    | with_reducible apply fault_keep | split | dsimp only | dsimp +zetaDelta only
    )

theorem tokenRows_keep {op : CollOp} {path : Path} {pk : Packet} {code : Nat} {ue : List Nat} {s : State} (hwf :
    Keeps s) : OutKeeps (tokenRows op path pk code ue s) := by
  unfold tokenRows
  repeat' (first
    | with_reducible assumption | extract_lets | (lift_lets; extract_lets) | intro _
    | with_reducible apply beginOn_keep | with_reducible apply State.slotOf_keep
    | with_reducible apply State.failParam_keep | with_reducible apply State.refuseGroup_keep
    | with_reducible apply State.chargeParam_keep | with_reducible apply State.startRows_keep
    | with_reducible apply State.enterColl_keep | with_reducible apply State.failWith_keep
    | simp only [Keeps1.mk_iff] | simp only [Keeps2.mk_iff]
    | simp only [Keeps.mk_iff] | with_reducible apply foldl_keep | with_reducible apply foldlM_keep
    | with_reducible apply iteM_keep | (simp only [Mem.wf_mk]; refine ⟨?_, ?_, ?_⟩)
    | with_reducible apply Tab.wf_put | with_reducible apply Tab.wf_putAll | with_reducible apply Tab.wf_filter
    | with_reducible apply Tab.wf_keep | with_reducible apply Tab.wf_merge | with_reducible exact Tab.wf_nil _
    | with_reducible apply Mem.bytes_keep | with_reducible apply Mem.pool_keep | with_reducible apply Mem.basin_keep
    | with_reducible apply Keeps.mem | with_reducible exact Mem.wf_empty | with_reducible apply foldlP_keep
    | with_reducible refine foldlP_keep_eq (by assumption) ?_ ?_ | with_reducible apply foldlQ_keep
    | with_reducible refine foldlQ_keep_eq (by assumption) ?_ ?_ | with_reducible apply OptKeeps.map
    | with_reducible exact OptKeeps.none | with_reducible apply OptKeeps.some | with_reducible apply SumKeeps.of_inl
    | with_reducible apply SumKeeps.of_inr | with_reducible apply id_keep | with_reducible apply ite_keep
    | with_reducible apply Keeps1.fst | with_reducible apply Keeps2.snd | with_reducible apply next_keep
    | with_reducible apply fault_keep | split | dsimp only | dsimp +zetaDelta only
    )

theorem execAlltoallDispatch_keep {path : Path} {pk : Packet} {ue : List Nat} {s : State} (hwf : Keeps s) :
    OutKeeps (execAlltoallDispatch path pk ue s) := by
  unfold execAlltoallDispatch
  repeat' (first
    | with_reducible assumption | extract_lets | (lift_lets; extract_lets) | intro _
    | with_reducible apply tokenRows_keep | with_reducible apply ite_keep | with_reducible apply next_keep
    | with_reducible apply fault_keep | split | dsimp only | dsimp +zetaDelta only
    )

theorem execAlltoallCombine_keep {path : Path} {pk : Packet} {ue : List Nat} {s : State} (hwf : Keeps s) :
    OutKeeps (execAlltoallCombine path pk ue s) := by
  unfold execAlltoallCombine
  repeat' (first
    | with_reducible assumption | extract_lets | (lift_lets; extract_lets) | intro _
    | with_reducible apply tokenRows_keep | with_reducible apply ite_keep | with_reducible apply next_keep
    | with_reducible apply fault_keep | split | dsimp only | dsimp +zetaDelta only
    )

theorem execPermuteReshard_keep {path : Path} {pk : Packet} {ue : List Nat} {s : State} (hwf : Keeps s) : OutKeeps
    (execPermuteReshard path pk ue s) := by
  unfold execPermuteReshard
  repeat' (first
    | with_reducible assumption | extract_lets | (lift_lets; extract_lets) | intro _
    | with_reducible apply beginOn_keep | with_reducible apply State.slotOf_keep
    | with_reducible apply State.failParam_keep | with_reducible apply State.chargeParam_keep
    | with_reducible apply State.refuseGroup_keep | with_reducible apply State.resolved_keep
    | with_reducible apply State.enterColl_keep | with_reducible apply State.failWith_keep
    | simp only [Keeps1.mk_iff] | simp only [Keeps2.mk_iff]
    | simp only [Keeps.mk_iff] | with_reducible apply foldl_keep | with_reducible apply foldlM_keep
    | with_reducible apply iteM_keep | (simp only [Mem.wf_mk]; refine ⟨?_, ?_, ?_⟩)
    | with_reducible apply Tab.wf_put | with_reducible apply Tab.wf_putAll | with_reducible apply Tab.wf_filter
    | with_reducible apply Tab.wf_keep | with_reducible apply Tab.wf_merge | with_reducible exact Tab.wf_nil _
    | with_reducible apply Mem.bytes_keep | with_reducible apply Mem.pool_keep | with_reducible apply Mem.basin_keep
    | with_reducible apply Keeps.mem | with_reducible exact Mem.wf_empty | with_reducible apply foldlP_keep
    | with_reducible refine foldlP_keep_eq (by assumption) ?_ ?_ | with_reducible apply foldlQ_keep
    | with_reducible refine foldlQ_keep_eq (by assumption) ?_ ?_ | with_reducible apply OptKeeps.map
    | with_reducible exact OptKeeps.none | with_reducible apply OptKeeps.some | with_reducible apply SumKeeps.of_inl
    | with_reducible apply SumKeeps.of_inr | with_reducible apply id_keep | with_reducible apply ite_keep
    | with_reducible apply Keeps1.fst | with_reducible apply Keeps2.snd | with_reducible apply next_keep
    | with_reducible apply fault_keep | split | dsimp only | dsimp +zetaDelta only
    )

theorem State.abortColl_keep {s : State} {cmd : Nat} (hwf : Keeps s) : Keeps (State.abortColl s cmd) := by
  unfold State.abortColl
  repeat' (first
    | with_reducible assumption | extract_lets | (lift_lets; extract_lets) | intro _
    | with_reducible apply State.collAll_keep | with_reducible apply State.endColl_keep | simp only [Keeps.mk_iff]
    | with_reducible apply Keeps.mem | with_reducible exact Mem.wf_empty | with_reducible apply ite_keep | split
    | dsimp only | dsimp +zetaDelta only
    )

theorem execCollPacket_keep {ue : List Nat} {s : State} (hwf : Keeps s) : OutKeeps (execCollPacket ue s) := by
  unfold execCollPacket
  repeat' (first
    | with_reducible assumption | extract_lets | (lift_lets; extract_lets) | intro _
    | with_reducible apply State.takePacket_keep | with_reducible refine State.takePacket_keep_eq (by assumption) ?_
    | with_reducible apply State.partDiscard_keep | with_reducible apply State.updColl_keep
    | with_reducible apply State.collAll_keep | with_reducible apply State.refuseColl_keep
    | with_reducible apply State.driveColl_keep | with_reducible apply State.startColls_keep
    | simp only [Keeps1.mk_iff] | simp only [Keeps2.mk_iff]
    | simp only [Keeps.mk_iff] | with_reducible apply foldl_keep | with_reducible apply foldlM_keep
    | with_reducible apply iteM_keep | (simp only [Mem.wf_mk]; refine ⟨?_, ?_, ?_⟩)
    | with_reducible apply Tab.wf_put | with_reducible apply Tab.wf_putAll | with_reducible apply Tab.wf_filter
    | with_reducible apply Tab.wf_keep | with_reducible apply Tab.wf_merge | with_reducible exact Tab.wf_nil _
    | with_reducible apply Mem.bytes_keep | with_reducible apply Mem.pool_keep | with_reducible apply Mem.basin_keep
    | with_reducible apply Keeps.mem | with_reducible exact Mem.wf_empty | with_reducible apply foldlP_keep
    | with_reducible refine foldlP_keep_eq (by assumption) ?_ ?_ | with_reducible apply foldlQ_keep
    | with_reducible refine foldlQ_keep_eq (by assumption) ?_ ?_ | with_reducible apply OptKeeps.map
    | with_reducible exact OptKeeps.none | with_reducible apply OptKeeps.some | with_reducible apply SumKeeps.of_inl
    | with_reducible apply SumKeeps.of_inr | with_reducible apply id_keep | with_reducible apply ite_keep
    | with_reducible apply Keeps1.fst | with_reducible apply Keeps2.snd | with_reducible apply next_keep
    | with_reducible apply fault_keep | split | dsimp only | dsimp +zetaDelta only
    )

theorem State.onRmem_keep {s : State} {kind : Nat} {body : CPacket → State → State} (h_body : ∀ x0 x1, Keeps x1 →
    Keeps (body x0 x1)) (hwf : Keeps s) : OutKeeps (State.onRmem s kind body) := by
  unfold State.onRmem
  repeat' (first
    | with_reducible assumption | extract_lets | (lift_lets; extract_lets) | intro _ | with_reducible apply h_body
    | with_reducible refine State.takePacket_keep_eq (by assumption) ?_ | simp only [Keeps.mk_iff]
    | with_reducible apply Keeps.mem | with_reducible exact Mem.wf_empty | with_reducible apply ite_keep
    | with_reducible apply next_keep | with_reducible apply fault_keep | split | dsimp only | dsimp +zetaDelta only
    )

theorem State.rmemRefused_keep {s : State} {p : CPacket} (hwf : Keeps s) : Keeps (State.rmemRefused s p) := by
  unfold State.rmemRefused
  repeat' (first
    | with_reducible assumption | extract_lets | (lift_lets; extract_lets) | intro _
    | with_reducible apply State.record_keep | with_reducible apply ite_keep | split | dsimp only
    | dsimp +zetaDelta only
    )

theorem execRmemWrite_keep {ue : List Nat} {s : State} (hwf : Keeps s) : OutKeeps (execRmemWrite ue s) := by
  unfold execRmemWrite
  repeat' (first
    | with_reducible assumption | extract_lets | (lift_lets; extract_lets) | intro _
    | with_reducible apply State.chargeExtent_keep | with_reducible apply State.rmemRefused_keep
    | with_reducible apply State.sendPacket_keep | with_reducible refine State.sendPacket_keep_eq (by assumption) ?_
    | with_reducible apply State.driveGroup_keep | with_reducible apply State.updGroup_keep
    | with_reducible apply State.writeVA_keep | with_reducible apply State.updColl_keep
    | with_reducible apply State.onRmem_keep | simp only [Keeps1.mk_iff] | simp only [Keeps.mk_iff]
    | with_reducible apply foldlM_keep | with_reducible apply iteM_keep | with_reducible apply Keeps.mem
    | with_reducible exact Mem.wf_empty | with_reducible apply ite_keep | with_reducible apply next_keep
    | with_reducible apply fault_keep | with_reducible apply Keeps1.fst | split | dsimp only | dsimp +zetaDelta only
    )

theorem execRmemRead_keep {ue : List Nat} {s : State} (hwf : Keeps s) : OutKeeps (execRmemRead ue s) := by
  unfold execRmemRead
  repeat' (first
    | with_reducible assumption | extract_lets | (lift_lets; extract_lets) | intro _
    | with_reducible apply State.chargeExtent_keep | with_reducible apply State.rmemRefused_keep
    | with_reducible apply State.sendPacket_keep | with_reducible refine State.sendPacket_keep_eq (by assumption) ?_
    | with_reducible apply State.onRmem_keep | simp only [Keeps1.mk_iff] | simp only [Keeps.mk_iff]
    | with_reducible apply foldlM_keep | with_reducible apply iteM_keep | with_reducible apply Keeps.mem
    | with_reducible exact Mem.wf_empty | with_reducible apply ite_keep | with_reducible apply next_keep
    | with_reducible apply fault_keep | with_reducible apply Keeps1.fst | split | dsimp only | dsimp +zetaDelta only
    )

theorem State.rmemAnswer_keep {s : State} {p : CPacket} (hwf : Keeps s) : OptKeeps (State.rmemAnswer s p) := by
  unfold State.rmemAnswer
  repeat' (first
    | with_reducible assumption | extract_lets | (lift_lets; extract_lets) | intro _ | simp only [Keeps2.mk_iff]
    | simp only [Keeps.mk_iff] | with_reducible apply foldlM_keep | with_reducible apply iteM_keep
    | (simp only [Mem.wf_mk]; refine ⟨?_, ?_, ?_⟩) | with_reducible apply Tab.wf_put
    | with_reducible apply Tab.wf_putAll | with_reducible apply Tab.wf_filter | with_reducible apply Tab.wf_keep
    | with_reducible apply Tab.wf_merge | with_reducible exact Tab.wf_nil _ | with_reducible apply Mem.bytes_keep
    | with_reducible apply Mem.pool_keep | with_reducible apply Mem.basin_keep | with_reducible apply Keeps.mem
    | with_reducible exact Mem.wf_empty | with_reducible apply ite_keep | with_reducible apply OptKeeps.map
    | with_reducible exact OptKeeps.none | with_reducible apply OptKeeps.some | with_reducible apply Keeps2.snd
    | split | dsimp only | dsimp +zetaDelta only
    )
theorem State.rmemAnswer_keep_eq {s : State} {p : CPacket} {s' : State} {x' : RmemSent} (e : State.rmemAnswer s p
    = some (x', s')) (hwf : Keeps s) : Keeps s' := by
  have k : OptKeeps (State.rmemAnswer s p) := State.rmemAnswer_keep  hwf
  rw [e] at k
  exact k.keep _ rfl

theorem execRmemData_keep {ue : List Nat} {s : State} (hwf : Keeps s) : OutKeeps (execRmemData ue s) := by
  unfold execRmemData
  repeat' (first
    | with_reducible assumption | extract_lets | (lift_lets; extract_lets) | intro _
    | with_reducible apply State.driveGroup_keep | with_reducible refine State.rmemAnswer_keep_eq (by assumption) ?_
    | with_reducible apply State.rmemSend_keep | with_reducible apply State.writeVA_keep
    | with_reducible apply State.updColl_keep | with_reducible apply State.onRmem_keep | simp only [Keeps.mk_iff]
    | with_reducible apply foldlM_keep | with_reducible apply iteM_keep | with_reducible apply Keeps.mem
    | with_reducible exact Mem.wf_empty | with_reducible apply ite_keep | with_reducible apply next_keep
    | with_reducible apply fault_keep | split | dsimp only | dsimp +zetaDelta only
    )

theorem execRmemAck_keep {ue : List Nat} {s : State} (hwf : Keeps s) : OutKeeps (execRmemAck ue s) := by
  unfold execRmemAck
  repeat' (first
    | with_reducible assumption | extract_lets | (lift_lets; extract_lets) | intro _
    | with_reducible apply State.driveGroup_keep | with_reducible refine State.rmemAnswer_keep_eq (by assumption) ?_
    | with_reducible apply State.updColl_keep | with_reducible apply State.onRmem_keep | simp only [Keeps.mk_iff]
    | with_reducible apply foldlM_keep | with_reducible apply iteM_keep | with_reducible apply Keeps.mem
    | with_reducible exact Mem.wf_empty | with_reducible apply ite_keep | with_reducible apply next_keep
    | with_reducible apply fault_keep | split | dsimp only | dsimp +zetaDelta only
    )

theorem State.helloReply_keep {s : State} {n : Nat} {src : Nat} {digest : Nat} {ue : List Nat} (hwf : Keeps s) :
    Keeps (State.helloReply s n src digest ue) := by
  unfold State.helloReply
  repeat' (first
    | with_reducible assumption | extract_lets | (lift_lets; extract_lets) | intro _
    | with_reducible apply State.startColls_keep | with_reducible apply State.updGroup_keep
    | with_reducible apply State.record_keep | simp only [Keeps.mk_iff] | with_reducible apply Keeps.mem
    | with_reducible exact Mem.wf_empty | with_reducible apply id_keep | with_reducible apply ite_keep | split
    | dsimp only | dsimp +zetaDelta only
    )

theorem execHello_keep {ue : List Nat} {s : State} (hwf : Keeps s) : OutKeeps (execHello ue s) := by
  unfold execHello
  repeat' (first
    | with_reducible assumption | extract_lets | (lift_lets; extract_lets) | intro _
    | with_reducible apply State.helloReply_keep | with_reducible apply State.collCtl_keep
    | with_reducible apply State.onCtl_keep | with_reducible apply ite_keep | with_reducible apply next_keep
    | with_reducible apply fault_keep | split | dsimp only | dsimp +zetaDelta only
    )

theorem execHelloRepeat_keep {slot : Nat} {s : State} (hwf : Keeps s) : OutKeeps (execHelloRepeat slot s) := by
  unfold execHelloRepeat
  repeat' (first
    | with_reducible assumption | extract_lets | (lift_lets; extract_lets) | intro _
    | with_reducible apply State.sendHello_keep | with_reducible apply onUnit_keep | with_reducible apply ite_keep
    | with_reducible apply next_keep | with_reducible apply fault_keep | split | dsimp only | dsimp +zetaDelta only
    )

theorem execCollStart_keep {s : State} (hwf : Keeps s) : OutKeeps (execCollStart s) := by
  unfold execCollStart
  repeat' (first
    | with_reducible assumption | extract_lets | (lift_lets; extract_lets) | intro _
    | with_reducible apply State.refuseColl_keep | with_reducible apply State.updGroup_keep
    | with_reducible apply State.collAll_keep | with_reducible apply State.onCtl_keep | simp only [Keeps.mk_iff]
    | with_reducible apply Keeps.mem | with_reducible exact Mem.wf_empty | with_reducible apply ite_keep
    | with_reducible apply next_keep | with_reducible apply fault_keep | split | dsimp only | dsimp +zetaDelta only
    )

theorem execCollCredit_keep {ue : List Nat} {s : State} (hwf : Keeps s) : OutKeeps (execCollCredit ue s) := by
  unfold execCollCredit
  repeat' (first
    | with_reducible assumption | extract_lets | (lift_lets; extract_lets) | intro _
    | with_reducible apply State.driveGroup_keep | with_reducible apply State.updGroup_keep
    | with_reducible apply State.updColl_keep | with_reducible apply State.onCtl_keep | simp only [Keeps.mk_iff]
    | with_reducible apply Keeps.mem | with_reducible exact Mem.wf_empty | with_reducible apply ite_keep
    | with_reducible apply next_keep | with_reducible apply fault_keep | split | dsimp only | dsimp +zetaDelta only
    )

theorem execCollFail_keep {ue : List Nat} {s : State} (hwf : Keeps s) : OutKeeps (execCollFail ue s) := by
  unfold execCollFail
  repeat' (first
    | with_reducible assumption | extract_lets | (lift_lets; extract_lets) | intro _
    | with_reducible apply State.startColls_keep | with_reducible apply State.updGroup_keep
    | with_reducible apply State.failColl_keep | with_reducible apply State.onCtl_keep | simp only [Keeps.mk_iff]
    | with_reducible apply Keeps.mem | with_reducible exact Mem.wf_empty | with_reducible apply ite_keep
    | with_reducible apply next_keep | with_reducible apply fault_keep | split | dsimp only | dsimp +zetaDelta only
    )

theorem execCollLost_keep {s : State} (hwf : Keeps s) : OutKeeps (execCollLost s) := by
  unfold execCollLost
  repeat' (first
    | with_reducible assumption | extract_lets | (lift_lets; extract_lets) | intro _
    | with_reducible apply State.learnLost_keep | with_reducible apply State.onCtl_keep
    | with_reducible apply ite_keep | with_reducible apply next_keep | with_reducible apply fault_keep | split
    | dsimp only | dsimp +zetaDelta only
    )

theorem execPeerNotice_keep {s : State} (hwf : Keeps s) : OutKeeps (execPeerNotice s) := by
  unfold execPeerNotice
  repeat' (first
    | with_reducible assumption | extract_lets | (lift_lets; extract_lets) | intro _
    | with_reducible apply State.groupsLost_keep | simp only [Keeps.mk_iff] | with_reducible apply Keeps.mem
    | with_reducible exact Mem.wf_empty | with_reducible apply ite_keep | with_reducible apply next_keep
    | with_reducible apply fault_keep | split | dsimp only | dsimp +zetaDelta only
    )

theorem execRejoin_keep {ue : List Nat} {s : State} (hwf : Keeps s) : OutKeeps (execRejoin ue s) := by
  unfold execRejoin
  repeat' (first
    | with_reducible assumption | extract_lets | (lift_lets; extract_lets) | intro _
    | with_reducible apply State.driveGroup_keep | with_reducible apply State.updGroup_keep
    | with_reducible apply State.collCtl_keep | with_reducible apply State.onCtl_keep | simp only [Keeps1.mk_iff]
    | simp only [Keeps2.mk_iff] | simp only [Keeps.mk_iff] | with_reducible apply foldl_keep
    | with_reducible apply foldlM_keep | with_reducible apply iteM_keep
    | (simp only [Mem.wf_mk]; refine ⟨?_, ?_, ?_⟩) | with_reducible apply Tab.wf_put
    | with_reducible apply Tab.wf_putAll | with_reducible apply Tab.wf_filter | with_reducible apply Tab.wf_keep
    | with_reducible apply Tab.wf_merge | with_reducible exact Tab.wf_nil _ | with_reducible apply Mem.bytes_keep
    | with_reducible apply Mem.pool_keep | with_reducible apply Mem.basin_keep | with_reducible apply Keeps.mem
    | with_reducible exact Mem.wf_empty | with_reducible apply foldlP_keep
    | with_reducible refine foldlP_keep_eq (by assumption) ?_ ?_ | with_reducible apply foldlQ_keep
    | with_reducible refine foldlQ_keep_eq (by assumption) ?_ ?_ | with_reducible apply ite_keep
    | with_reducible apply next_keep | with_reducible apply fault_keep | with_reducible apply Keeps1.fst
    | with_reducible apply Keeps2.snd | split | dsimp only | dsimp +zetaDelta only
    )

theorem execCollState_keep {s : State} (hwf : Keeps s) : OutKeeps (execCollState s) := by
  unfold execCollState
  repeat' (first
    | with_reducible assumption | extract_lets | (lift_lets; extract_lets) | intro _
    | with_reducible apply State.updGroup_keep | with_reducible apply State.onCtl_keep | simp only [Keeps.mk_iff]
    | with_reducible apply Keeps.mem | with_reducible exact Mem.wf_empty | with_reducible apply ite_keep
    | with_reducible apply next_keep | with_reducible apply fault_keep | split | dsimp only | dsimp +zetaDelta only
    )

theorem execRejoinWaitExpire_keep {slot : Nat} {s : State} (hwf : Keeps s) : OutKeeps (execRejoinWaitExpire slot
    s) := by
  unfold execRejoinWaitExpire
  repeat' (first
    | with_reducible assumption | extract_lets | (lift_lets; extract_lets) | intro _
    | with_reducible apply State.endColl_keep | with_reducible apply onUnit_keep | simp only [Keeps1.mk_iff]
    | simp only [Keeps2.mk_iff] | with_reducible apply foldl_keep | with_reducible apply foldlP_keep
    | with_reducible refine foldlP_keep_eq (by assumption) ?_ ?_ | with_reducible apply foldlQ_keep
    | with_reducible refine foldlQ_keep_eq (by assumption) ?_ ?_ | with_reducible apply ite_keep
    | with_reducible apply next_keep | with_reducible apply fault_keep | with_reducible apply Keeps1.fst
    | with_reducible apply Keeps2.snd | split | dsimp only | dsimp +zetaDelta only
    )

end Sys2Proof.Machine
end

