-- ==== Sys2Proof/Laws/MemDebug.lean ====
section
/-! SUPPORT. Every operation of Machine/Debug.lean keeps the canonical form of the byte memories. -/

namespace Sys2Proof.Machine

set_option linter.unusedVariables false
set_option linter.unusedSimpArgs false
set_option linter.unusedTactic false
set_option linter.unreachableTactic false


theorem State.scanPins_keep {s : State} (hwf : Keeps s) : Keeps (State.scanPins s) := by
  unfold State.scanPins
  repeat' (first
    | with_reducible assumption | extract_lets | (lift_lets; extract_lets) | intro _ | simp only [Keeps.mk_iff]
    | with_reducible apply Keeps.mem | with_reducible exact Mem.wf_empty | with_reducible apply ite_keep | split
    | dsimp only | dsimp +zetaDelta only
    )

theorem State.captureDr_keep {s : State} (hwf : Keeps s) : Keeps (State.captureDr s) := by
  unfold State.captureDr
  repeat' (first
    | with_reducible assumption | extract_lets | (lift_lets; extract_lets) | intro _
    | with_reducible apply State.draw_keep | with_reducible refine State.draw_keep_eq (by assumption) ?_
    | simp only [Keeps1.mk_iff] | simp only [Keeps2.mk_iff]
    | simp only [Keeps.mk_iff] | with_reducible apply foldl_keep | with_reducible apply foldlM_keep
    | with_reducible apply iteM_keep | (simp only [Mem.wf_mk]; refine ⟨?_, ?_, ?_⟩)
    | with_reducible apply Tab.wf_put | with_reducible apply Tab.wf_putAll | with_reducible apply Tab.wf_filter
    | with_reducible apply Tab.wf_keep | with_reducible apply Tab.wf_merge | with_reducible exact Tab.wf_nil _
    | with_reducible apply Mem.bytes_keep | with_reducible apply Mem.pool_keep | with_reducible apply Mem.basin_keep
    | with_reducible apply Keeps.mem | with_reducible exact Mem.wf_empty | with_reducible apply foldlP_keep
    | with_reducible refine foldlP_keep_eq (by assumption) ?_ ?_ | with_reducible apply foldlQ_keep
    | with_reducible refine foldlQ_keep_eq (by assumption) ?_ ?_ | with_reducible apply OptKeeps.map
    | with_reducible exact OptKeeps.none | with_reducible apply OptKeeps.some | with_reducible apply SumKeeps.of_inl
    | with_reducible apply SumKeeps.of_inr | with_reducible apply id_keep | with_reducible apply ite_keep
    | with_reducible apply Keeps1.fst | with_reducible apply Keeps2.snd | with_reducible apply next_keep
    | with_reducible apply fault_keep | split | dsimp only | dsimp +zetaDelta only
    )

theorem execTapReset_keep {s : State} (hwf : Keeps s) : OutKeeps (execTapReset s) := by
  unfold execTapReset
  repeat' (first
    | with_reducible assumption | extract_lets | (lift_lets; extract_lets) | intro _
    | with_reducible apply State.scanPins_keep
    | simp only [Keeps1.mk_iff] | simp only [Keeps2.mk_iff]
    | simp only [Keeps.mk_iff] | with_reducible apply foldl_keep | with_reducible apply foldlM_keep
    | with_reducible apply iteM_keep | (simp only [Mem.wf_mk]; refine ⟨?_, ?_, ?_⟩)
    | with_reducible apply Tab.wf_put | with_reducible apply Tab.wf_putAll | with_reducible apply Tab.wf_filter
    | with_reducible apply Tab.wf_keep | with_reducible apply Tab.wf_merge | with_reducible exact Tab.wf_nil _
    | with_reducible apply Mem.bytes_keep | with_reducible apply Mem.pool_keep | with_reducible apply Mem.basin_keep
    | with_reducible apply Keeps.mem | with_reducible exact Mem.wf_empty | with_reducible apply foldlP_keep
    | with_reducible refine foldlP_keep_eq (by assumption) ?_ ?_ | with_reducible apply foldlQ_keep
    | with_reducible refine foldlQ_keep_eq (by assumption) ?_ ?_ | with_reducible apply OptKeeps.map
    | with_reducible exact OptKeeps.none | with_reducible apply OptKeeps.some | with_reducible apply SumKeeps.of_inl
    | with_reducible apply SumKeeps.of_inr | with_reducible apply id_keep | with_reducible apply ite_keep
    | with_reducible apply Keeps1.fst | with_reducible apply Keeps2.snd | with_reducible apply next_keep
    | with_reducible apply fault_keep | split | dsimp only | dsimp +zetaDelta only
    )

theorem execTapIrScan_keep {code : Nat} {s : State} (hwf : Keeps s) : OutKeeps (execTapIrScan code s) := by
  unfold execTapIrScan
  repeat' (first
    | with_reducible assumption | extract_lets | (lift_lets; extract_lets) | intro _
    | with_reducible apply State.captureDr_keep | with_reducible apply State.scanPins_keep
    | simp only [Keeps1.mk_iff] | simp only [Keeps2.mk_iff]
    | simp only [Keeps.mk_iff] | with_reducible apply foldl_keep | with_reducible apply foldlM_keep
    | with_reducible apply iteM_keep | (simp only [Mem.wf_mk]; refine ⟨?_, ?_, ?_⟩)
    | with_reducible apply Tab.wf_put | with_reducible apply Tab.wf_putAll | with_reducible apply Tab.wf_filter
    | with_reducible apply Tab.wf_keep | with_reducible apply Tab.wf_merge | with_reducible exact Tab.wf_nil _
    | with_reducible apply Mem.bytes_keep | with_reducible apply Mem.pool_keep | with_reducible apply Mem.basin_keep
    | with_reducible apply Keeps.mem | with_reducible exact Mem.wf_empty | with_reducible apply foldlP_keep
    | with_reducible refine foldlP_keep_eq (by assumption) ?_ ?_ | with_reducible apply foldlQ_keep
    | with_reducible refine foldlQ_keep_eq (by assumption) ?_ ?_ | with_reducible apply OptKeeps.map
    | with_reducible exact OptKeeps.none | with_reducible apply OptKeeps.some | with_reducible apply SumKeeps.of_inl
    | with_reducible apply SumKeeps.of_inr | with_reducible apply id_keep | with_reducible apply ite_keep
    | with_reducible apply Keeps1.fst | with_reducible apply Keeps2.snd | with_reducible apply next_keep
    | with_reducible apply fault_keep | split | dsimp only | dsimp +zetaDelta only
    )

theorem execExtest_keep {value : Nat} {s : State} (hwf : Keeps s) : OutKeeps (execExtest value s) := by
  unfold execExtest
  repeat' (first
    | with_reducible assumption | extract_lets | (lift_lets; extract_lets) | intro _
    | with_reducible apply State.scanPins_keep | simp only [Keeps.mk_iff] | with_reducible apply Keeps.mem
    | with_reducible exact Mem.wf_empty | with_reducible apply ite_keep | with_reducible apply next_keep
    | with_reducible apply fault_keep | split | dsimp only | dsimp +zetaDelta only
    )

theorem execDbgKey_keep {value : Nat} {s : State} (hwf : Keeps s) : OutKeeps (execDbgKey value s) := by
  unfold execDbgKey
  repeat' (first
    | with_reducible assumption | extract_lets | (lift_lets; extract_lets) | intro _
    | with_reducible apply State.lockDbg_keep | with_reducible apply State.record_keep | simp only [Keeps.mk_iff]
    | with_reducible apply Keeps.mem | with_reducible exact Mem.wf_empty | with_reducible apply ite_keep
    | with_reducible apply next_keep | with_reducible apply fault_keep | split | dsimp only | dsimp +zetaDelta only
    )

theorem State.setKey_keep {s : State} {key : Nat} (hwf : Keeps s) : Keeps (State.setKey s key) := by
  unfold State.setKey
  repeat' (first
    | with_reducible assumption | extract_lets | (lift_lets; extract_lets) | intro _
    | with_reducible apply State.lockDbg_keep | simp only [Keeps.mk_iff] | with_reducible apply Keeps.mem
    | with_reducible exact Mem.wf_empty | with_reducible apply ite_keep | split | dsimp only | dsimp +zetaDelta only
    )

theorem execDbgKeySet_keep {m : Master} {value : Nat} {s : State} (hwf : Keeps s) : OutKeeps (execDbgKeySet m
    value s) := by
  unfold execDbgKeySet
  repeat' (first
    | with_reducible assumption | extract_lets | (lift_lets; extract_lets) | intro _
    | with_reducible apply State.ownerWrite_keep | with_reducible apply State.setKey_keep
    | with_reducible apply ite_keep | with_reducible apply next_keep | with_reducible apply fault_keep | split
    | dsimp only | dsimp +zetaDelta only
    )

theorem execDbgUnlockExpire_keep {s : State} (hwf : Keeps s) : OutKeeps (execDbgUnlockExpire s) := by
  unfold execDbgUnlockExpire
  repeat' (first
    | with_reducible assumption | extract_lets | (lift_lets; extract_lets) | intro _
    | with_reducible apply State.lockDbg_keep | with_reducible apply ite_keep | with_reducible apply next_keep
    | with_reducible apply fault_keep | split | dsimp only | dsimp +zetaDelta only
    )

theorem State.dbgWrite_keep {s : State} {src : Option Master} {body : State → State} (h_body : ∀ x0, Keeps x0 →
    Keeps (body x0)) (hwf : Keeps s) : Keeps (State.dbgWrite s src body) := by
  unfold State.dbgWrite
  repeat' (first
    | with_reducible assumption | extract_lets | (lift_lets; extract_lets) | intro _ | with_reducible apply h_body
    | with_reducible apply State.ownerWrite_keep | simp only [Keeps.mk_iff] | with_reducible apply Keeps.mem
    | with_reducible exact Mem.wf_empty | with_reducible apply ite_keep | split | dsimp only | dsimp +zetaDelta only
    )

theorem State.dbgCommand_keep {s : State} {v : Nat} {argOk : Bool} {stateOk : Core → Bool} {acts : Core → Bool}
    {act : State → Nat → State} (h_act : ∀ x0 x1, Keeps x0 → Keeps (act x0 x1)) (hwf : Keeps s) : Keeps
    (State.dbgCommand s v argOk stateOk acts act) := by
  unfold State.dbgCommand
  repeat' (first
    | with_reducible assumption | extract_lets | (lift_lets; extract_lets) | intro _ | with_reducible apply h_act
    | with_reducible apply State.draw_keep | with_reducible refine State.draw_keep_eq (by assumption) ?_
    | simp only [Keeps1.mk_iff] | simp only [Keeps2.mk_iff] | simp only [Keeps.mk_iff]
    | with_reducible apply foldl_keep | with_reducible apply Keeps.mem | with_reducible exact Mem.wf_empty
    | with_reducible apply foldlP_keep | with_reducible refine foldlP_keep_eq (by assumption) ?_ ?_
    | with_reducible apply foldlQ_keep | with_reducible refine foldlQ_keep_eq (by assumption) ?_ ?_
    | with_reducible apply ite_keep | with_reducible apply Keeps1.fst | with_reducible apply Keeps2.snd | split
    | dsimp only | dsimp +zetaDelta only
    )

theorem State.dbgHalt_keep {s : State} {v : Nat} (hwf : Keeps s) : Keeps (State.dbgHalt s v) := by
  unfold State.dbgHalt
  repeat' (first
    | with_reducible assumption | extract_lets | (lift_lets; extract_lets) | intro _
    | with_reducible apply State.dbgCommand_keep | with_reducible apply State.haltCore_keep
    | with_reducible apply ite_keep | split | dsimp only | dsimp +zetaDelta only
    )

theorem State.dbgGo_keep {s : State} {c : Nat} {f : Core → Core} (hwf : Keeps s) : Keeps (State.dbgGo s c f) := by
  unfold State.dbgGo
  repeat' (first
    | with_reducible assumption | extract_lets | (lift_lets; extract_lets) | intro _
    | with_reducible apply State.updCore_keep | with_reducible apply State.dbgHalt_keep
    | with_reducible apply State.settle_keep | with_reducible apply State.goto_keep | simp only [Keeps.mk_iff]
    | with_reducible apply Keeps.mem | with_reducible exact Mem.wf_empty | with_reducible apply ite_keep | split
    | dsimp only | dsimp +zetaDelta only
    )

theorem State.dbgResume_keep {s : State} {v : Nat} (hwf : Keeps s) : Keeps (State.dbgResume s v) := by
  unfold State.dbgResume
  repeat' (first
    | with_reducible assumption | extract_lets | (lift_lets; extract_lets) | intro _
    | with_reducible apply State.dbgCommand_keep | with_reducible apply State.dbgGo_keep
    | with_reducible apply id_keep | with_reducible apply ite_keep | split | dsimp only | dsimp +zetaDelta only
    )

theorem State.dbgStep_keep {s : State} {v : Nat} (hwf : Keeps s) : Keeps (State.dbgStep s v) := by
  unfold State.dbgStep
  repeat' (first
    | with_reducible assumption | extract_lets | (lift_lets; extract_lets) | intro _
    | with_reducible apply State.dbgCommand_keep | with_reducible apply State.dbgGo_keep | simp only [Keeps.mk_iff]
    | with_reducible apply Keeps.mem | with_reducible exact Mem.wf_empty | with_reducible apply ite_keep | split
    | dsimp only | dsimp +zetaDelta only
    )

theorem State.dbgSetBp_keep {s : State} {v : Nat} (hwf : Keeps s) : Keeps (State.dbgSetBp s v) := by
  unfold State.dbgSetBp
  repeat' (first
    | with_reducible assumption | extract_lets | (lift_lets; extract_lets) | intro _
    | with_reducible apply State.dbgCommand_keep | with_reducible apply State.updCore_keep
    | simp only [Keeps.mk_iff] | with_reducible apply Keeps.mem | with_reducible exact Mem.wf_empty
    | with_reducible apply ite_keep | split | dsimp only | dsimp +zetaDelta only
    )

theorem State.dbgClearBp_keep {s : State} {v : Nat} (hwf : Keeps s) : Keeps (State.dbgClearBp s v) := by
  unfold State.dbgClearBp
  repeat' (first
    | with_reducible assumption | extract_lets | (lift_lets; extract_lets) | intro _
    | with_reducible apply State.dbgCommand_keep | with_reducible apply State.updCore_keep
    | simp only [Keeps.mk_iff] | with_reducible apply Keeps.mem | with_reducible exact Mem.wf_empty
    | with_reducible apply ite_keep | split | dsimp only | dsimp +zetaDelta only
    )

theorem State.dbgCmd_keep {s : State} {v : Nat} (hwf : Keeps s) : Keeps (State.dbgCmd s v) := by
  unfold State.dbgCmd
  repeat' (first
    | with_reducible assumption | extract_lets | (lift_lets; extract_lets) | intro _
    | with_reducible apply State.dbgCommand_keep | with_reducible apply State.dbgClearBp_keep
    | with_reducible apply State.dbgResume_keep | with_reducible apply State.dbgSetBp_keep
    | with_reducible apply State.dbgHalt_keep | with_reducible apply State.dbgStep_keep | simp only [Keeps.mk_iff]
    | with_reducible apply Keeps.mem | with_reducible exact Mem.wf_empty | with_reducible apply ite_keep | split
    | dsimp only | dsimp +zetaDelta only
    )

theorem execHalt_keep {src : Option Master} {value : Nat} {s : State} (hwf : Keeps s) : OutKeeps (execHalt src
    value s) := by
  unfold execHalt
  repeat' (first
    | with_reducible assumption | extract_lets | (lift_lets; extract_lets) | intro _
    | with_reducible apply State.dbgWrite_keep | with_reducible apply State.dbgHalt_keep
    | with_reducible apply ite_keep | with_reducible apply next_keep | with_reducible apply fault_keep | split
    | dsimp only | dsimp +zetaDelta only
    )

theorem execResume_keep {src : Option Master} {value : Nat} {s : State} (hwf : Keeps s) : OutKeeps (execResume src
    value s) := by
  unfold execResume
  repeat' (first
    | with_reducible assumption | extract_lets | (lift_lets; extract_lets) | intro _
    | with_reducible apply State.dbgResume_keep | with_reducible apply State.dbgWrite_keep
    | with_reducible apply ite_keep | with_reducible apply next_keep | with_reducible apply fault_keep | split
    | dsimp only | dsimp +zetaDelta only
    )

theorem execStep_keep {src : Option Master} {value : Nat} {s : State} (hwf : Keeps s) : OutKeeps (execStep src
    value s) := by
  unfold execStep
  repeat' (first
    | with_reducible assumption | extract_lets | (lift_lets; extract_lets) | intro _
    | with_reducible apply State.dbgWrite_keep | with_reducible apply State.dbgStep_keep
    | with_reducible apply ite_keep | with_reducible apply next_keep | with_reducible apply fault_keep | split
    | dsimp only | dsimp +zetaDelta only
    )

theorem execSetBp_keep {src : Option Master} {value : Nat} {s : State} (hwf : Keeps s) : OutKeeps (execSetBp src
    value s) := by
  unfold execSetBp
  repeat' (first
    | with_reducible assumption | extract_lets | (lift_lets; extract_lets) | intro _
    | with_reducible apply State.dbgWrite_keep | with_reducible apply State.dbgSetBp_keep
    | with_reducible apply ite_keep | with_reducible apply next_keep | with_reducible apply fault_keep | split
    | dsimp only | dsimp +zetaDelta only
    )

theorem execClearBp_keep {src : Option Master} {value : Nat} {s : State} (hwf : Keeps s) : OutKeeps (execClearBp
    src value s) := by
  unfold execClearBp
  repeat' (first
    | with_reducible assumption | extract_lets | (lift_lets; extract_lets) | intro _
    | with_reducible apply State.dbgClearBp_keep | with_reducible apply State.dbgWrite_keep
    | with_reducible apply ite_keep | with_reducible apply next_keep | with_reducible apply fault_keep | split
    | dsimp only | dsimp +zetaDelta only
    )

theorem execDbgStepDone_keep {core : Nat} {s : State} (hwf : Keeps s) : OutKeeps (execDbgStepDone core s) := by
  unfold execDbgStepDone
  repeat' (first
    | with_reducible assumption | extract_lets | (lift_lets; extract_lets) | intro _
    | with_reducible apply State.settle_keep | with_reducible apply onUnit_keep | with_reducible apply ite_keep
    | with_reducible apply next_keep | with_reducible apply fault_keep | split | dsimp only | dsimp +zetaDelta only
    )

theorem State.memTransfer_keep {s : State} {tap : Bool} {v : Nat} {ue : List Nat} (hwf : Keeps s) : Keeps
    (State.memTransfer s tap v ue) := by
  unfold State.memTransfer
  repeat' (first
    | with_reducible assumption | extract_lets | (lift_lets; extract_lets) | intro _
    | with_reducible apply State.waitFor_keep | with_reducible apply State.notePairs_keep
    | with_reducible apply State.draw_keep | with_reducible refine State.draw_keep_eq (by assumption) ?_
    | with_reducible apply State.chargeExtent_keep | with_reducible apply State.writeVA_keep
    | with_reducible apply State.record_keep | with_reducible apply State.noteUes_keep
    | simp only [Keeps1.mk_iff] | simp only [Keeps2.mk_iff]
    | simp only [Keeps.mk_iff] | with_reducible apply foldl_keep | with_reducible apply foldlM_keep
    | with_reducible apply iteM_keep | (simp only [Mem.wf_mk]; refine ⟨?_, ?_, ?_⟩)
    | with_reducible apply Tab.wf_put | with_reducible apply Tab.wf_putAll | with_reducible apply Tab.wf_filter
    | with_reducible apply Tab.wf_keep | with_reducible apply Tab.wf_merge | with_reducible exact Tab.wf_nil _
    | with_reducible apply Mem.bytes_keep | with_reducible apply Mem.pool_keep | with_reducible apply Mem.basin_keep
    | with_reducible apply Keeps.mem | with_reducible exact Mem.wf_empty | with_reducible apply foldlP_keep
    | with_reducible refine foldlP_keep_eq (by assumption) ?_ ?_ | with_reducible apply foldlQ_keep
    | with_reducible refine foldlQ_keep_eq (by assumption) ?_ ?_ | with_reducible apply OptKeeps.map
    | with_reducible exact OptKeeps.none | with_reducible apply OptKeeps.some | with_reducible apply SumKeeps.of_inl
    | with_reducible apply SumKeeps.of_inr | with_reducible apply id_keep | with_reducible apply ite_keep
    | with_reducible apply Keeps1.fst | with_reducible apply Keeps2.snd | with_reducible apply next_keep
    | with_reducible apply fault_keep | split | dsimp only | dsimp +zetaDelta only
    )

theorem execDbgMemRead_keep {src : Option Master} {value : Nat} {ue : List Nat} {s : State} (hwf : Keeps s) :
    OutKeeps (execDbgMemRead src value ue s) := by
  unfold execDbgMemRead
  repeat' (first
    | with_reducible assumption | extract_lets | (lift_lets; extract_lets) | intro _
    | with_reducible apply State.memTransfer_keep | with_reducible apply State.dbgWrite_keep
    | with_reducible apply foldlM_keep | with_reducible apply iteM_keep | with_reducible apply Keeps.mem
    | with_reducible exact Mem.wf_empty | with_reducible apply ite_keep | with_reducible apply next_keep
    | with_reducible apply fault_keep | split | dsimp only | dsimp +zetaDelta only
    )

theorem execDbgMemWrite_keep {src : Option Master} {value : Nat} {ue : List Nat} {s : State} (hwf : Keeps s) :
    OutKeeps (execDbgMemWrite src value ue s) := by
  unfold execDbgMemWrite
  repeat' (first
    | with_reducible assumption | extract_lets | (lift_lets; extract_lets) | intro _
    | with_reducible apply State.memTransfer_keep | with_reducible apply State.dbgWrite_keep
    | with_reducible apply foldlM_keep | with_reducible apply iteM_keep | with_reducible apply Keeps.mem
    | with_reducible exact Mem.wf_empty | with_reducible apply ite_keep | with_reducible apply next_keep
    | with_reducible apply fault_keep | split | dsimp only | dsimp +zetaDelta only
    )

end Sys2Proof.Machine
end

