-- ==== Sys2Proof/Laws/MemNor.lean ====
section
/-! SUPPORT. Every operation of Machine/Nor.lean keeps the canonical form of the byte memories. -/

namespace Sys2Proof.Machine

set_option linter.unusedVariables false
set_option linter.unusedSimpArgs false
set_option linter.unusedTactic false
set_option linter.unreachableTactic false


theorem State.norStart_keep {s : State} {op : Nat} (hwf : Keeps s) : Keeps (State.norStart s op) := by
  unfold State.norStart
  repeat' (first
    | with_reducible assumption | extract_lets | (lift_lets; extract_lets) | intro _ | simp only [Keeps.mk_iff]
    | with_reducible apply Keeps.mem | with_reducible exact Mem.wf_empty | with_reducible apply ite_keep | split
    | dsimp only | dsimp +zetaDelta only
    )

theorem State.commitSec_keep {s : State} (hwf : Keeps s) : Keeps (State.commitSec s) := by
  unfold State.commitSec
  repeat' (first
    | with_reducible assumption | extract_lets | (lift_lets; extract_lets) | intro _ | simp only [Keeps.mk_iff]
    | with_reducible apply Keeps.mem | with_reducible exact Mem.wf_empty | with_reducible apply ite_keep | split
    | dsimp only | dsimp +zetaDelta only
    )

theorem State.norCtrl_keep {s : State} {v : Nat} (hwf : Keeps s) : Keeps (State.norCtrl s v) := by
  unfold State.norCtrl
  repeat' (first
    | with_reducible assumption | extract_lets | (lift_lets; extract_lets) | intro _
    | with_reducible apply State.commitSec_keep | with_reducible apply State.norStart_keep
    | with_reducible apply ite_keep | split | dsimp only | dsimp +zetaDelta only
    )

theorem execNorErase_keep {m : Master} {value : Nat} {s : State} (hwf : Keeps s) : OutKeeps (execNorErase m value
    s) := by
  unfold execNorErase
  repeat' (first
    | with_reducible assumption | extract_lets | (lift_lets; extract_lets) | intro _
    | with_reducible apply State.ownerWrite_keep | with_reducible apply State.norCtrl_keep
    | with_reducible apply ite_keep | with_reducible apply next_keep | with_reducible apply fault_keep | split
    | dsimp only | dsimp +zetaDelta only
    )

theorem execNorProgram_keep {m : Master} {value : Nat} {s : State} (hwf : Keeps s) : OutKeeps (execNorProgram m
    value s) := by
  unfold execNorProgram
  repeat' (first
    | with_reducible assumption | extract_lets | (lift_lets; extract_lets) | intro _
    | with_reducible apply State.ownerWrite_keep | with_reducible apply State.norCtrl_keep
    | with_reducible apply ite_keep | with_reducible apply next_keep | with_reducible apply fault_keep | split
    | dsimp only | dsimp +zetaDelta only
    )

theorem execCommitSec_keep {m : Master} {value : Nat} {s : State} (hwf : Keeps s) : OutKeeps (execCommitSec m
    value s) := by
  unfold execCommitSec
  repeat' (first
    | with_reducible assumption | extract_lets | (lift_lets; extract_lets) | intro _
    | with_reducible apply State.ownerWrite_keep | with_reducible apply State.norCtrl_keep
    | with_reducible apply ite_keep | with_reducible apply next_keep | with_reducible apply fault_keep | split
    | dsimp only | dsimp +zetaDelta only
    )

theorem execNorOpDone_keep {ok : Bool} {s : State} (hwf : Keeps s) : OutKeeps (execNorOpDone ok s) := by
  unfold execNorOpDone
  repeat' (first
    | with_reducible assumption | extract_lets | (lift_lets; extract_lets) | intro _ | simp only [Keeps.mk_iff]
    | with_reducible apply Keeps.mem | with_reducible exact Mem.wf_empty | with_reducible apply ite_keep
    | with_reducible apply next_keep | with_reducible apply fault_keep | split | dsimp only | dsimp +zetaDelta only
    )

end Sys2Proof.Machine
end

