-- ==== Sys2Proof/Laws/MemOwn.lean ====
section
/-! SUPPORT. Every operation of Machine/Own.lean keeps the canonical form of the byte memories. -/

namespace Sys2Proof.Machine

set_option linter.unusedVariables false
set_option linter.unusedSimpArgs false
set_option linter.unusedTactic false
set_option linter.unreachableTactic false


theorem State.updBank_keep {s : State} {b : Nat} {f : OwnBank → OwnBank} (hwf : Keeps s) : Keeps (State.updBank s
    b f) := by
  unfold State.updBank
  repeat' (first
    | with_reducible assumption | extract_lets | (lift_lets; extract_lets) | intro _ | simp only [Keeps.mk_iff]
    | with_reducible apply Keeps.mem | with_reducible exact Mem.wf_empty | with_reducible apply ite_keep | split
    | dsimp only | dsimp +zetaDelta only
    )

theorem State.denyOwn_keep {s : State} (hwf : Keeps s) : Keeps (State.denyOwn s) := by
  unfold State.denyOwn
  repeat' (first
    | with_reducible assumption | extract_lets | (lift_lets; extract_lets) | intro _ | simp only [Keeps.mk_iff]
    | with_reducible apply Keeps.mem | with_reducible exact Mem.wf_empty | with_reducible apply ite_keep | split
    | dsimp only | dsimp +zetaDelta only
    )

theorem State.sendElect_keep {s : State} {pkg : Nat} {op : Nat} {value : Nat} {leaseMs : Nat} (hwf : Keeps s) :
    Keeps (State.sendElect s pkg op value leaseMs) := by
  unfold State.sendElect
  repeat' (first
    | with_reducible assumption | extract_lets | (lift_lets; extract_lets) | intro _
    | with_reducible apply State.sendMsg_keep | with_reducible apply ite_keep | split | dsimp only
    | dsimp +zetaDelta only
    )

theorem State.electResult_keep {s : State} {m : Master} {value : Nat} {leaseMs : Nat} (hwf : Keeps s) : Keeps
    (State.electResult s m value leaseMs) := by
  unfold State.electResult
  repeat' (first
    | with_reducible assumption | extract_lets | (lift_lets; extract_lets) | intro _
    | with_reducible apply State.sendElect_keep | simp only [Keeps.mk_iff] | with_reducible apply Keeps.mem
    | with_reducible exact Mem.wf_empty | with_reducible apply ite_keep | split | dsimp only | dsimp +zetaDelta only
    )

theorem State.setResult_keep {s : State} {m : Master} {result : Nat} {refused : Bool} (hwf : Keeps s) : Keeps
    (State.setResult s m result refused) := by
  unfold State.setResult
  repeat' (first
    | with_reducible assumption | extract_lets | (lift_lets; extract_lets) | intro _
    | with_reducible apply State.updBank_keep | simp only [Keeps.mk_iff] | with_reducible apply Keeps.mem
    | with_reducible exact Mem.wf_empty | with_reducible apply ite_keep | split | dsimp only | dsimp +zetaDelta only
    )

theorem State.closeControlRing_keep {s : State} (hwf : Keeps s) : Keeps (State.closeControlRing s) := by
  unfold State.closeControlRing
  repeat' (first
    | with_reducible assumption | extract_lets | (lift_lets; extract_lets) | intro _
    | with_reducible apply State.updRing_keep | simp only [Keeps.mk_iff] | with_reducible apply Keeps.mem
    | with_reducible exact Mem.wf_empty | with_reducible apply ite_keep | split | dsimp only | dsimp +zetaDelta only
    )

theorem State.ownerChange_keep {s : State} (hwf : Keeps s) : Keeps (State.ownerChange s) := by
  unfold State.ownerChange
  repeat' (first
    | with_reducible assumption | extract_lets | (lift_lets; extract_lets) | intro _
    | with_reducible apply State.closeControlRing_keep | with_reducible apply State.lockDbg_keep
    | with_reducible apply State.updRing_keep | simp only [Keeps.mk_iff] | with_reducible apply Keeps.mem
    | with_reducible exact Mem.wf_empty | with_reducible apply ite_keep | split | dsimp only | dsimp +zetaDelta only
    )

theorem State.dropOffer_keep {s : State} (hwf : Keeps s) : Keeps (State.dropOffer s) := by
  unfold State.dropOffer
  repeat' (first
    | with_reducible assumption | extract_lets | (lift_lets; extract_lets) | intro _
    | with_reducible apply State.commit_keep | simp only [Keeps.mk_iff] | with_reducible apply Keeps.mem
    | with_reducible exact Mem.wf_empty | with_reducible apply ite_keep | split | dsimp only | dsimp +zetaDelta only
    )

theorem State.lapse_keep {s : State} (hwf : Keeps s) : Keeps (State.lapse s) := by
  unfold State.lapse
  repeat' (first
    | with_reducible assumption | extract_lets | (lift_lets; extract_lets) | intro _
    | with_reducible apply State.ownerChange_keep | with_reducible apply State.dropOffer_keep
    | simp only [Keeps.mk_iff] | with_reducible apply Keeps.mem | with_reducible exact Mem.wf_empty
    | with_reducible apply ite_keep | split | dsimp only | dsimp +zetaDelta only
    )

theorem State.install_keep {s : State} {m : Master} (hwf : Keeps s) : Keeps (State.install s m) := by
  unfold State.install
  repeat' (first
    | with_reducible assumption | extract_lets | (lift_lets; extract_lets) | intro _
    | with_reducible apply State.draw_keep | with_reducible refine State.draw_keep_eq (by assumption) ?_
    | simp only [Keeps2.mk_iff] | simp only [Keeps.mk_iff] | with_reducible apply Keeps.mem
    | with_reducible exact Mem.wf_empty | with_reducible apply ite_keep | with_reducible apply Keeps2.snd | split
    | dsimp only | dsimp +zetaDelta only
    )

theorem State.claim_keep {s : State} {m : Master} {priority : Nat} {nonce : Nat} (hwf : Keeps s) : Keeps
    (State.claim s m priority nonce) := by
  unfold State.claim
  repeat' (first
    | with_reducible assumption | extract_lets | (lift_lets; extract_lets) | intro _
    | with_reducible apply State.electResult_keep | with_reducible apply State.setResult_keep
    | simp only [Keeps.mk_iff] | with_reducible apply Keeps.mem | with_reducible exact Mem.wf_empty
    | with_reducible apply ite_keep | split | dsimp only | dsimp +zetaDelta only
    )

theorem execOwnClaim_keep {m : Master} {value : Nat} {s : State} (hwf : Keeps s) : OutKeeps (execOwnClaim m value
    s) := by
  unfold execOwnClaim
  repeat' (first
    | with_reducible assumption | extract_lets | (lift_lets; extract_lets) | intro _
    | with_reducible apply State.claim_keep | simp only [Keeps.mk_iff] | with_reducible apply Keeps.mem
    | with_reducible exact Mem.wf_empty | with_reducible apply ite_keep | with_reducible apply next_keep
    | with_reducible apply fault_keep | split | dsimp only | dsimp +zetaDelta only
    )

theorem execOwnRelease_keep {m : Master} {s : State} (hwf : Keeps s) : OutKeeps (execOwnRelease m s) := by
  unfold execOwnRelease
  repeat' (first
    | with_reducible assumption | extract_lets | (lift_lets; extract_lets) | intro _
    | with_reducible apply State.lapse_keep | with_reducible apply ite_keep | with_reducible apply next_keep
    | with_reducible apply fault_keep | split | dsimp only | dsimp +zetaDelta only
    )

theorem execClaimWindowClose_keep {s : State} (hwf : Keeps s) : OutKeeps (execClaimWindowClose s) := by
  unfold execClaimWindowClose
  repeat' (first
    | with_reducible assumption | extract_lets | (lift_lets; extract_lets) | intro _
    | with_reducible apply State.electResult_keep | with_reducible apply State.setResult_keep
    | with_reducible apply State.install_keep | simp only [Keeps1.mk_iff] | simp only [Keeps2.mk_iff]
    | simp only [Keeps.mk_iff] | with_reducible apply foldl_keep | with_reducible apply Keeps.mem
    | with_reducible exact Mem.wf_empty | with_reducible apply foldlP_keep
    | with_reducible refine foldlP_keep_eq (by assumption) ?_ ?_ | with_reducible apply foldlQ_keep
    | with_reducible refine foldlQ_keep_eq (by assumption) ?_ ?_ | with_reducible apply ite_keep
    | with_reducible apply next_keep | with_reducible apply fault_keep | with_reducible apply Keeps1.fst
    | with_reducible apply Keeps2.snd | split | dsimp only | dsimp +zetaDelta only
    )

theorem execLeaseExpire_keep {s : State} (hwf : Keeps s) : OutKeeps (execLeaseExpire s) := by
  unfold execLeaseExpire
  repeat' (first
    | with_reducible assumption | extract_lets | (lift_lets; extract_lets) | intro _
    | with_reducible apply State.lapse_keep | with_reducible apply ite_keep | with_reducible apply next_keep
    | with_reducible apply fault_keep | split | dsimp only | dsimp +zetaDelta only
    )

theorem State.renew_keep {s : State} {m : Master} {token : Nat} (hwf : Keeps s) : Keeps (State.renew s m token) :=
    by
  unfold State.renew
  repeat' (first
    | with_reducible assumption | extract_lets | (lift_lets; extract_lets) | intro _
    | with_reducible apply State.denyOwn_keep | with_reducible apply State.record_keep
    | with_reducible apply State.lapse_keep | simp only [Keeps.mk_iff] | with_reducible apply Keeps.mem
    | with_reducible exact Mem.wf_empty | with_reducible apply ite_keep | split | dsimp only | dsimp +zetaDelta only
    )

theorem execOwnRenew_keep {m : Master} {token : Nat} {s : State} (hwf : Keeps s) : OutKeeps (execOwnRenew m token
    s) := by
  unfold execOwnRenew
  repeat' (first
    | with_reducible assumption | extract_lets | (lift_lets; extract_lets) | intro _
    | with_reducible apply State.renew_keep | with_reducible apply ite_keep | with_reducible apply next_keep
    | with_reducible apply fault_keep | split | dsimp only | dsimp +zetaDelta only
    )

theorem execHandOver_keep {path : Path} {pk : Packet} {s : State} (hwf : Keeps s) : OutKeeps (execHandOver path pk
    s) := by
  unfold execHandOver
  repeat' (first
    | with_reducible assumption | extract_lets | (lift_lets; extract_lets) | intro _
    | with_reducible apply State.sendElect_keep | with_reducible apply State.failWith_keep
    | with_reducible apply State.commit_keep | with_reducible apply State.draw_keep
    | with_reducible refine State.draw_keep_eq (by assumption) ?_ | with_reducible apply beginOn_keep
    | simp only [Keeps2.mk_iff] | simp only [Keeps.mk_iff] | with_reducible apply Keeps.mem
    | with_reducible exact Mem.wf_empty | with_reducible apply id_keep | with_reducible apply ite_keep
    | with_reducible apply next_keep | with_reducible apply fault_keep | with_reducible apply Keeps2.snd | split
    | dsimp only | dsimp +zetaDelta only
    )

theorem State.acceptOffer_keep {s : State} {m : Master} {nonce : Nat} (hwf : Keeps s) : Keeps (State.acceptOffer s
    m nonce) := by
  unfold State.acceptOffer
  repeat' (first
    | with_reducible assumption | extract_lets | (lift_lets; extract_lets) | intro _
    | with_reducible apply State.electResult_keep | with_reducible apply State.ownerChange_keep
    | with_reducible apply State.setResult_keep | with_reducible apply State.dropOffer_keep
    | with_reducible apply State.denyOwn_keep | with_reducible apply State.install_keep
    | with_reducible apply State.commit_keep | simp only [Keeps.mk_iff] | with_reducible apply Keeps.mem
    | with_reducible exact Mem.wf_empty | with_reducible apply ite_keep | split | dsimp only | dsimp +zetaDelta only
    )

theorem execOwnAccept_keep {m : Master} {nonce : Nat} {s : State} (hwf : Keeps s) : OutKeeps (execOwnAccept m
    nonce s) := by
  unfold execOwnAccept
  repeat' (first
    | with_reducible assumption | extract_lets | (lift_lets; extract_lets) | intro _
    | with_reducible apply State.acceptOffer_keep | with_reducible apply ite_keep | with_reducible apply next_keep
    | with_reducible apply fault_keep | split | dsimp only | dsimp +zetaDelta only
    )

theorem execOfferTimeout_keep {s : State} (hwf : Keeps s) : OutKeeps (execOfferTimeout s) := by
  unfold execOfferTimeout
  repeat' (first
    | with_reducible assumption | extract_lets | (lift_lets; extract_lets) | intro _
    | with_reducible apply State.dropOffer_keep | simp only [Keeps.mk_iff] | with_reducible apply Keeps.mem
    | with_reducible exact Mem.wf_empty | with_reducible apply ite_keep | with_reducible apply next_keep
    | with_reducible apply fault_keep | split | dsimp only | dsimp +zetaDelta only
    )

theorem execElect_keep {s : State} (hwf : Keeps s) : OutKeeps (execElect s) := by
  unfold execElect
  repeat' (first
    | with_reducible assumption | extract_lets | (lift_lets; extract_lets) | intro _
    | with_reducible apply State.electResult_keep | with_reducible apply State.acceptOffer_keep
    | with_reducible apply State.record_keep | with_reducible apply State.lapse_keep
    | with_reducible apply State.claim_keep | with_reducible apply State.renew_keep | simp only [Keeps.mk_iff]
    | with_reducible apply Keeps.mem | with_reducible exact Mem.wf_empty | with_reducible apply ite_keep
    | with_reducible apply next_keep | with_reducible apply fault_keep | split | dsimp only | dsimp +zetaDelta only
    )

end Sys2Proof.Machine
end

