-- ==== Sys2Proof/Laws/MemPower.lean ====
section
/-! SUPPORT. Every operation of Machine/Power.lean keeps the canonical form of the byte memories. -/

namespace Sys2Proof.Machine

set_option linter.unusedVariables false
set_option linter.unusedSimpArgs false
set_option linter.unusedTactic false
set_option linter.unreachableTactic false


theorem State.refusePower_keep {s : State} {f : Flight} {cause : Nat} (hwf : Keeps s) : Keeps (State.refusePower s
    f cause) := by
  unfold State.refusePower
  repeat' (first
    | with_reducible assumption | extract_lets | (lift_lets; extract_lets) | intro _
    | with_reducible apply State.refuse_keep | with_reducible apply ite_keep | split | dsimp only
    | dsimp +zetaDelta only
    )

theorem State.domainDown_keep {s : State} {d : Nat} {to_ : DomState} (hwf : Keeps s) : Keeps (State.domainDown s d
    to_) := by
  unfold State.domainDown
  repeat' (first
    | with_reducible assumption | extract_lets | (lift_lets; extract_lets) | intro _
    | with_reducible apply State.updDomain_keep | simp only [Keeps.mk_iff] | with_reducible apply Keeps.mem
    | with_reducible exact Mem.wf_empty | with_reducible apply ite_keep | split | dsimp only | dsimp +zetaDelta only
    )

theorem State.powerDown_keep {s : State} {d : Nat} {to_ : DomState} {drained : Bool} (hwf : Keeps s) : Keeps
    (State.powerDown s d to_ drained) := by
  unfold State.powerDown
  repeat' (first
    | with_reducible assumption | extract_lets | (lift_lets; extract_lets) | intro _
    | with_reducible apply State.domainDown_keep | with_reducible apply State.updDomain_keep
    | simp only [Keeps.mk_iff] | with_reducible apply Keeps.mem | with_reducible exact Mem.wf_empty
    | with_reducible apply ite_keep | split | dsimp only | dsimp +zetaDelta only
    )

theorem State.endTarget_keep {s : State} {d : Nat} (hwf : Keeps s) : Keeps (State.endTarget s d) := by
  unfold State.endTarget
  repeat' (first
    | with_reducible assumption | extract_lets | (lift_lets; extract_lets) | intro _
    | with_reducible apply State.updDomain_keep | with_reducible apply State.commit_keep | simp only [Keeps.mk_iff]
    | with_reducible apply Keeps.mem | with_reducible exact Mem.wf_empty | with_reducible apply ite_keep | split
    | dsimp only | dsimp +zetaDelta only
    )

theorem State.abandonDown_keep {s : State} {d : Nat} (hwf : Keeps s) : Keeps (State.abandonDown s d) := by
  unfold State.abandonDown
  repeat' (first
    | with_reducible assumption | extract_lets | (lift_lets; extract_lets) | intro _
    | with_reducible apply State.openSluice_keep | with_reducible apply State.updDomain_keep
    | with_reducible apply State.setTarget_keep | with_reducible apply State.record_keep
    | with_reducible apply State.commit_keep | simp only [Keeps.mk_iff] | with_reducible apply Keeps.mem
    | with_reducible exact Mem.wf_empty | with_reducible apply ite_keep | split | dsimp only | dsimp +zetaDelta only
    )

theorem execSetDomainTarget_keep {path : Path} {pk : Packet} {drained : Bool} {s : State} (hwf : Keeps s) :
    OutKeeps (execSetDomainTarget path pk drained s) := by
  unfold execSetDomainTarget
  repeat' (first
    | with_reducible assumption | extract_lets | (lift_lets; extract_lets) | intro _
    | with_reducible apply State.refusePower_keep | with_reducible apply State.domainDown_keep
    | with_reducible apply State.updDomain_keep | with_reducible apply State.setTarget_keep
    | with_reducible apply State.startWake_keep | with_reducible apply State.powerDown_keep
    | with_reducible apply State.endTarget_keep | with_reducible apply State.done_keep
    | with_reducible apply beginCmd_keep | simp only [Keeps.mk_iff] | with_reducible apply Keeps.mem
    | with_reducible exact Mem.wf_empty | with_reducible apply id_keep | with_reducible apply ite_keep
    | with_reducible apply next_keep | with_reducible apply fault_keep | split | dsimp only | dsimp +zetaDelta only
    )

theorem execDomainIdle_keep {dom : Nat} {quiet : Bool} {drained : Bool} {s : State} (hwf : Keeps s) : OutKeeps
    (execDomainIdle dom quiet drained s) := by
  unfold execDomainIdle
  repeat' (first
    | with_reducible assumption | extract_lets | (lift_lets; extract_lets) | intro _
    | with_reducible apply State.powerDown_keep | with_reducible apply onUnit_keep | with_reducible apply ite_keep
    | with_reducible apply next_keep | with_reducible apply fault_keep | split | dsimp only | dsimp +zetaDelta only
    )

theorem execPowerdownDrainTimeout_keep {dom : Nat} {s : State} (hwf : Keeps s) : OutKeeps
    (execPowerdownDrainTimeout dom s) := by
  unfold execPowerdownDrainTimeout
  repeat' (first
    | with_reducible assumption | extract_lets | (lift_lets; extract_lets) | intro _
    | with_reducible apply State.abandonDown_keep | with_reducible apply onUnit_keep | with_reducible apply ite_keep
    | with_reducible apply next_keep | with_reducible apply fault_keep | split | dsimp only | dsimp +zetaDelta only
    )

theorem execPowerdownRetry_keep {dom : Nat} {drained : Bool} {s : State} (hwf : Keeps s) : OutKeeps
    (execPowerdownRetry dom drained s) := by
  unfold execPowerdownRetry
  repeat' (first
    | with_reducible assumption | extract_lets | (lift_lets; extract_lets) | intro _
    | with_reducible apply State.powerDown_keep | with_reducible apply State.endTarget_keep
    | with_reducible apply onUnit_keep | with_reducible apply ite_keep | with_reducible apply next_keep
    | with_reducible apply fault_keep | split | dsimp only | dsimp +zetaDelta only
    )

theorem execSluiceArrival_keep {dom : Nat} {src : Nat} {ctl : Bool} {cmd : Option Nat} {s : State} (hwf : Keeps s)
    : OutKeeps (execSluiceArrival dom src ctl cmd s) := by
  unfold execSluiceArrival
  repeat' (first
    | with_reducible assumption | extract_lets | (lift_lets; extract_lets) | intro _
    | with_reducible apply State.updDomain_keep | with_reducible apply State.startWake_keep
    | with_reducible apply onUnit_keep | simp only [Keeps.mk_iff] | with_reducible apply Keeps.mem
    | with_reducible exact Mem.wf_empty | with_reducible apply ite_keep | with_reducible apply next_keep
    | with_reducible apply fault_keep | split | dsimp only | dsimp +zetaDelta only
    )

theorem State.endSleep_keep {s : State} (hwf : Keeps s) : Keeps (State.endSleep s) := by
  unfold State.endSleep
  repeat' (first
    | with_reducible assumption | extract_lets | (lift_lets; extract_lets) | intro _
    | with_reducible apply State.commit_keep | simp only [Keeps.mk_iff] | with_reducible apply Keeps.mem
    | with_reducible exact Mem.wf_empty | with_reducible apply ite_keep | split | dsimp only | dsimp +zetaDelta only
    )

theorem State.wakeEnd_keep {s : State} {d : Nat} (hwf : Keeps s) : Keeps (State.wakeEnd s d) := by
  unfold State.wakeEnd
  repeat' (first
    | with_reducible assumption | extract_lets | (lift_lets; extract_lets) | intro _
    | with_reducible apply State.domainDown_keep | with_reducible apply State.updDomain_keep
    | with_reducible apply State.endTarget_keep | with_reducible apply State.domainOn_keep
    | with_reducible apply State.endSleep_keep | simp only [Keeps.mk_iff] | with_reducible apply Keeps.mem
    | with_reducible exact Mem.wf_empty | with_reducible apply ite_keep | split | dsimp only | dsimp +zetaDelta only
    )

theorem execDomainWakeDone_keep {dom : Nat} {s : State} (hwf : Keeps s) : OutKeeps (execDomainWakeDone dom s) :=
    by
  unfold execDomainWakeDone
  repeat' (first
    | with_reducible assumption | extract_lets | (lift_lets; extract_lets) | intro _
    | with_reducible apply State.wakeEnd_keep | with_reducible apply onUnit_keep | with_reducible apply ite_keep
    | with_reducible apply next_keep | with_reducible apply fault_keep | split | dsimp only | dsimp +zetaDelta only
    )

theorem State.reachDomain_keep {s : State} {d : Nat} (hwf : Keeps s) : Keeps2 (State.reachDomain s d) := by
  unfold State.reachDomain
  repeat' (first
    | with_reducible assumption | extract_lets | (lift_lets; extract_lets) | intro _
    | with_reducible apply State.updDomain_keep | with_reducible apply State.startWake_keep
    | with_reducible apply State.wakeEnd_keep | simp only [Keeps2.mk_iff] | simp only [Keeps.mk_iff]
    | with_reducible apply Keeps.mem | with_reducible exact Mem.wf_empty | with_reducible apply ite_keep
    | with_reducible apply Keeps2.snd | split | dsimp only | dsimp +zetaDelta only
    )
theorem State.reachDomain_keep_eq {s : State} {d : Nat} {s' : State} {x' : Bool} (e : State.reachDomain s d = (x',
    s')) (hwf : Keeps s) : Keeps s' := by
  have k : Keeps2 (State.reachDomain s d) := State.reachDomain_keep  hwf
  rw [e] at k
  exact k

theorem execSluiceHoldTimeout_keep {dom : Nat} {s : State} (hwf : Keeps s) : OutKeeps (execSluiceHoldTimeout dom
    s) := by
  unfold execSluiceHoldTimeout
  repeat' (first
    | with_reducible assumption | extract_lets | (lift_lets; extract_lets) | intro _
    | with_reducible apply State.updDomain_keep | with_reducible apply State.record_keep
    | with_reducible apply State.commit_keep | with_reducible apply onUnit_keep | simp only [Keeps1.mk_iff]
    | simp only [Keeps2.mk_iff] | simp only [Keeps.mk_iff] | with_reducible apply foldl_keep
    | with_reducible apply Keeps.mem | with_reducible exact Mem.wf_empty | with_reducible apply foldlP_keep
    | with_reducible refine foldlP_keep_eq (by assumption) ?_ ?_ | with_reducible apply foldlQ_keep
    | with_reducible refine foldlQ_keep_eq (by assumption) ?_ ?_ | with_reducible apply ite_keep
    | with_reducible apply next_keep | with_reducible apply fault_keep | with_reducible apply Keeps1.fst
    | with_reducible apply Keeps2.snd | split | dsimp only | dsimp +zetaDelta only
    )

theorem execPkgSleep_keep {path : Path} {pk : Packet} {s : State} (hwf : Keeps s) : OutKeeps (execPkgSleep path pk
    s) := by
  unfold execPkgSleep
  repeat' (first
    | with_reducible assumption | extract_lets | (lift_lets; extract_lets) | intro _
    | with_reducible apply State.refusePower_keep | with_reducible apply State.domainDown_keep
    | with_reducible apply State.setTarget_keep | with_reducible apply State.done_keep
    | with_reducible apply beginCmd_keep | simp only [Keeps1.mk_iff] | simp only [Keeps2.mk_iff]
    | simp only [Keeps.mk_iff] | with_reducible apply foldl_keep | with_reducible apply foldlM_keep
    | with_reducible apply iteM_keep | with_reducible apply Keeps.mem | with_reducible exact Mem.wf_empty
    | with_reducible apply foldlP_keep | with_reducible refine foldlP_keep_eq (by assumption) ?_ ?_
    | with_reducible apply foldlQ_keep | with_reducible refine foldlQ_keep_eq (by assumption) ?_ ?_
    | with_reducible apply ite_keep | with_reducible apply next_keep | with_reducible apply fault_keep
    | with_reducible apply Keeps1.fst | with_reducible apply Keeps2.snd | split | dsimp only | dsimp +zetaDelta only
    )

theorem State.turnOff_keep {s : State} (hwf : Keeps s) : Keeps (State.turnOff s) := by
  unfold State.turnOff
  repeat' (first
    | with_reducible assumption | extract_lets | (lift_lets; extract_lets) | intro _
    | with_reducible apply State.domainDown_keep | with_reducible apply State.darken_keep
    | simp only [Keeps1.mk_iff] | simp only [Keeps2.mk_iff] | simp only [Keeps.mk_iff]
    | with_reducible apply foldl_keep | with_reducible apply foldlM_keep | with_reducible apply iteM_keep
    | (simp only [Mem.wf_mk]; refine ⟨?_, ?_, ?_⟩) | with_reducible apply Tab.wf_put
    | with_reducible apply Tab.wf_putAll | with_reducible apply Tab.wf_filter | with_reducible apply Tab.wf_keep
    | with_reducible apply Tab.wf_merge | with_reducible exact Tab.wf_nil _ | with_reducible apply Mem.bytes_keep
    | with_reducible apply Mem.pool_keep | with_reducible apply Mem.basin_keep | with_reducible apply Keeps.mem
    | with_reducible exact Mem.wf_empty | with_reducible apply foldlP_keep
    | with_reducible refine foldlP_keep_eq (by assumption) ?_ ?_ | with_reducible apply foldlQ_keep
    | with_reducible refine foldlQ_keep_eq (by assumption) ?_ ?_ | with_reducible apply ite_keep
    | with_reducible apply Keeps1.fst | with_reducible apply Keeps2.snd | split | dsimp only | dsimp +zetaDelta only
    )

theorem execPkgOff_keep {path : Path} {pk : Packet} {s : State} (hwf : Keeps s) : OutKeeps (execPkgOff path pk s)
    := by
  unfold execPkgOff
  repeat' (first
    | with_reducible assumption | extract_lets | (lift_lets; extract_lets) | intro _
    | with_reducible apply State.refusePower_keep | with_reducible apply State.turnOff_keep
    | with_reducible apply State.done_keep | with_reducible apply beginCmd_keep | simp only [Keeps.mk_iff]
    | with_reducible apply Keeps.mem | with_reducible exact Mem.wf_empty | with_reducible apply id_keep
    | with_reducible apply ite_keep | with_reducible apply next_keep | with_reducible apply fault_keep | split
    | dsimp only | dsimp +zetaDelta only
    )

theorem State.updDie_keep {s : State} {d : Nat} {f : DiePwr → DiePwr} (hwf : Keeps s) : Keeps (State.updDie s d f)
    := by
  unfold State.updDie
  repeat' (first
    | with_reducible assumption | extract_lets | (lift_lets; extract_lets) | intro _ | simp only [Keeps.mk_iff]
    | with_reducible apply Keeps.mem | with_reducible exact Mem.wf_empty | with_reducible apply ite_keep | split
    | dsimp only | dsimp +zetaDelta only
    )

theorem execSetDomainTrim_keep {path : Path} {pk : Packet} {s : State} (hwf : Keeps s) : OutKeeps
    (execSetDomainTrim path pk s) := by
  unfold execSetDomainTrim
  repeat' (first
    | with_reducible assumption | extract_lets | (lift_lets; extract_lets) | intro _
    | with_reducible apply State.refusePower_keep | with_reducible apply State.updDomain_keep
    | with_reducible apply State.record_keep | with_reducible apply beginCmd_keep | simp only [Keeps.mk_iff]
    | with_reducible apply Keeps.mem | with_reducible exact Mem.wf_empty | with_reducible apply id_keep
    | with_reducible apply ite_keep | with_reducible apply next_keep | with_reducible apply fault_keep | split
    | dsimp only | dsimp +zetaDelta only
    )

theorem execVoltageStep_keep {die : Nat} {s : State} (hwf : Keeps s) : OutKeeps (execVoltageStep die s) := by
  unfold execVoltageStep
  repeat' (first
    | with_reducible assumption | extract_lets | (lift_lets; extract_lets) | intro _
    | with_reducible apply onUnit_keep | with_reducible apply State.updDie_keep
    | with_reducible apply State.updDomain_keep | with_reducible apply State.commit_keep
    | simp only [Keeps1.mk_iff] | simp only [Keeps2.mk_iff]
    | simp only [Keeps.mk_iff] | with_reducible apply foldl_keep | with_reducible apply foldlM_keep
    | with_reducible apply iteM_keep | (simp only [Mem.wf_mk]; refine ⟨?_, ?_, ?_⟩)
    | with_reducible apply Tab.wf_put | with_reducible apply Tab.wf_putAll | with_reducible apply Tab.wf_filter
    | with_reducible apply Tab.wf_keep | with_reducible apply Tab.wf_merge | with_reducible exact Tab.wf_nil _
    | with_reducible apply Mem.bytes_keep | with_reducible apply Mem.pool_keep | with_reducible apply Mem.basin_keep
    | with_reducible apply Keeps.mem | with_reducible exact Mem.wf_empty | with_reducible apply foldlP_keep
    | with_reducible refine foldlP_keep_eq (by assumption) ?_ ?_ | with_reducible apply foldlQ_keep
    | with_reducible refine foldlQ_keep_eq (by assumption) ?_ ?_ | with_reducible apply OptKeeps.map
    | with_reducible exact OptKeeps.none | with_reducible apply OptKeeps.some | with_reducible apply SumKeeps.of_inl
    | with_reducible apply SumKeeps.of_inr | with_reducible apply id_keep | with_reducible apply ite_keep
    | with_reducible apply Keeps1.fst | with_reducible apply Keeps2.snd | with_reducible apply next_keep
    | with_reducible apply fault_keep | split | dsimp only | dsimp +zetaDelta only
    )

theorem execSetDomainPower_keep {path : Path} {pk : Packet} {s : State} (hwf : Keeps s) : OutKeeps
    (execSetDomainPower path pk s) := by
  unfold execSetDomainPower
  repeat' (first
    | with_reducible assumption | extract_lets | (lift_lets; extract_lets) | intro _
    | with_reducible apply beginCmd_keep | with_reducible apply State.refusePower_keep
    | with_reducible apply State.done_keep
    | simp only [Keeps1.mk_iff] | simp only [Keeps2.mk_iff]
    | simp only [Keeps.mk_iff] | with_reducible apply foldl_keep | with_reducible apply foldlM_keep
    | with_reducible apply iteM_keep | (simp only [Mem.wf_mk]; refine ⟨?_, ?_, ?_⟩)
    | with_reducible apply Tab.wf_put | with_reducible apply Tab.wf_putAll | with_reducible apply Tab.wf_filter
    | with_reducible apply Tab.wf_keep | with_reducible apply Tab.wf_merge | with_reducible exact Tab.wf_nil _
    | with_reducible apply Mem.bytes_keep | with_reducible apply Mem.pool_keep | with_reducible apply Mem.basin_keep
    | with_reducible apply Keeps.mem | with_reducible exact Mem.wf_empty | with_reducible apply foldlP_keep
    | with_reducible refine foldlP_keep_eq (by assumption) ?_ ?_ | with_reducible apply foldlQ_keep
    | with_reducible refine foldlQ_keep_eq (by assumption) ?_ ?_ | with_reducible apply OptKeeps.map
    | with_reducible exact OptKeeps.none | with_reducible apply OptKeeps.some | with_reducible apply SumKeeps.of_inl
    | with_reducible apply SumKeeps.of_inr | with_reducible apply id_keep | with_reducible apply ite_keep
    | with_reducible apply Keeps1.fst | with_reducible apply Keeps2.snd | with_reducible apply next_keep
    | with_reducible apply fault_keep | split | dsimp only | dsimp +zetaDelta only
    )

theorem execSetDomainIdleTime_keep {path : Path} {pk : Packet} {s : State} (hwf : Keeps s) : OutKeeps
    (execSetDomainIdleTime path pk s) := by
  unfold execSetDomainIdleTime
  repeat' (first
    | with_reducible assumption | extract_lets | (lift_lets; extract_lets) | intro _
    | with_reducible apply State.refusePower_keep | with_reducible apply State.done_keep
    | with_reducible apply beginCmd_keep | simp only [Keeps.mk_iff] | with_reducible apply Keeps.mem
    | with_reducible exact Mem.wf_empty | with_reducible apply ite_keep | with_reducible apply next_keep
    | with_reducible apply fault_keep | split | dsimp only | dsimp +zetaDelta only
    )

theorem State.moveCap_keep {s : State} {f : Nat → Nat} (hwf : Keeps s) : Keeps (State.moveCap s f) := by
  unfold State.moveCap
  repeat' (first
    | with_reducible assumption | extract_lets | (lift_lets; extract_lets) | intro _
    | with_reducible apply State.updDie_keep | simp only [Keeps1.mk_iff] | simp only [Keeps2.mk_iff]
    | simp only [Keeps.mk_iff] | with_reducible apply foldl_keep | with_reducible apply Keeps.mem
    | with_reducible exact Mem.wf_empty | with_reducible apply foldlP_keep
    | with_reducible refine foldlP_keep_eq (by assumption) ?_ ?_ | with_reducible apply foldlQ_keep
    | with_reducible refine foldlQ_keep_eq (by assumption) ?_ ?_ | with_reducible apply ite_keep
    | with_reducible apply Keeps1.fst | with_reducible apply Keeps2.snd | split | dsimp only | dsimp +zetaDelta only
    )

theorem execCapLoop_keep {watts : Nat} {s : State} (hwf : Keeps s) : OutKeeps (execCapLoop watts s) := by
  unfold execCapLoop
  repeat' (first
    | with_reducible assumption | extract_lets | (lift_lets; extract_lets) | intro _
    | with_reducible apply State.moveCap_keep | with_reducible apply State.record_keep | simp only [Keeps.mk_iff]
    | with_reducible apply Keeps.mem | with_reducible exact Mem.wf_empty | with_reducible apply ite_keep
    | with_reducible apply next_keep | with_reducible apply fault_keep | split | dsimp only | dsimp +zetaDelta only
    )

theorem execActivityLoop_keep {watts : Nat} {s : State} (hwf : Keeps s) : OutKeeps (execActivityLoop watts s) :=
    by
  unfold execActivityLoop
  repeat' (first
    | with_reducible assumption | extract_lets | (lift_lets; extract_lets) | intro _
    | with_reducible apply State.moveCap_keep | with_reducible apply ite_keep | with_reducible apply next_keep
    | with_reducible apply fault_keep | split | dsimp only | dsimp +zetaDelta only
    )

theorem State.thermalTrip_keep {s : State} {die : Nat} {temp : Nat} {sensor : Nat} (hwf : Keeps s) : Keeps
    (State.thermalTrip s die temp sensor) := by
  unfold State.thermalTrip
  repeat' (first
    | with_reducible assumption | extract_lets | (lift_lets; extract_lets) | intro _
    | with_reducible apply State.record_keep | with_reducible apply State.fence_keep | simp only [Keeps.mk_iff]
    | with_reducible apply Keeps.mem | with_reducible exact Mem.wf_empty | with_reducible apply ite_keep | split
    | dsimp only | dsimp +zetaDelta only
    )

theorem execThermalPoll_keep {die : Nat} {temp : Nat} {sensor : Nat} {s : State} (hwf : Keeps s) : OutKeeps
    (execThermalPoll die temp sensor s) := by
  unfold execThermalPoll
  repeat' (first
    | with_reducible assumption | extract_lets | (lift_lets; extract_lets) | intro _
    | with_reducible apply State.thermalTrip_keep | with_reducible apply State.record_keep
    | with_reducible apply State.updDie_keep | with_reducible apply onUnit_keep | simp only [Keeps1.mk_iff]
    | simp only [Keeps2.mk_iff] | simp only [Keeps.mk_iff] | with_reducible apply foldl_keep
    | with_reducible apply Keeps.mem | with_reducible exact Mem.wf_empty | with_reducible apply foldlP_keep
    | with_reducible refine foldlP_keep_eq (by assumption) ?_ ?_ | with_reducible apply foldlQ_keep
    | with_reducible refine foldlQ_keep_eq (by assumption) ?_ ?_ | with_reducible apply ite_keep
    | with_reducible apply next_keep | with_reducible apply fault_keep | with_reducible apply Keeps1.fst
    | with_reducible apply Keeps2.snd | split | dsimp only | dsimp +zetaDelta only
    )

theorem execPwrWarnFall_keep {s : State} (hwf : Keeps s) : OutKeeps (execPwrWarnFall s) := by
  unfold execPwrWarnFall
  repeat' (first
    | with_reducible assumption | extract_lets | (lift_lets; extract_lets) | intro _
    | with_reducible apply State.record_keep | simp only [Keeps.mk_iff] | with_reducible apply Keeps.mem
    | with_reducible exact Mem.wf_empty | with_reducible apply ite_keep | with_reducible apply next_keep
    | with_reducible apply fault_keep | split | dsimp only | dsimp +zetaDelta only
    )

theorem execPwrWarnRise_keep {s : State} (hwf : Keeps s) : OutKeeps (execPwrWarnRise s) := by
  unfold execPwrWarnRise
  repeat' (first
    | with_reducible assumption | extract_lets | (lift_lets; extract_lets) | intro _
    | with_reducible apply State.record_keep | simp only [Keeps.mk_iff] | with_reducible apply Keeps.mem
    | with_reducible exact Mem.wf_empty | with_reducible apply ite_keep | with_reducible apply next_keep
    | with_reducible apply fault_keep | split | dsimp only | dsimp +zetaDelta only
    )

theorem State.railFault_keep {s : State} {rail : Nat} {status : Nat} (hwf : Keeps s) : Keeps (State.railFault s
    rail status) := by
  unfold State.railFault
  repeat' (first
    | with_reducible assumption | extract_lets | (lift_lets; extract_lets) | intro _
    | with_reducible apply State.retireDie_keep | with_reducible apply State.record_keep
    | with_reducible apply State.updDie_keep | with_reducible apply State.fence_keep | simp only [Keeps.mk_iff]
    | with_reducible apply Keeps.mem | with_reducible exact Mem.wf_empty | with_reducible apply ite_keep | split
    | dsimp only | dsimp +zetaDelta only
    )

theorem execPmbAlert_keep {status : List (Nat × Nat)} {s : State} (hwf : Keeps s) : OutKeeps (execPmbAlert status
    s) := by
  unfold execPmbAlert
  repeat' (first
    | with_reducible assumption | extract_lets | (lift_lets; extract_lets) | intro _
    | with_reducible apply State.railFault_keep | simp only [Keeps1.mk_iff] | simp only [Keeps2.mk_iff]
    | simp only [Keeps.mk_iff] | with_reducible apply foldl_keep | with_reducible apply Keeps.mem
    | with_reducible exact Mem.wf_empty | with_reducible apply foldlP_keep
    | with_reducible refine foldlP_keep_eq (by assumption) ?_ ?_ | with_reducible apply foldlQ_keep
    | with_reducible refine foldlQ_keep_eq (by assumption) ?_ ?_ | with_reducible apply ite_keep
    | with_reducible apply next_keep | with_reducible apply fault_keep | with_reducible apply Keeps1.fst
    | with_reducible apply Keeps2.snd | split | dsimp only | dsimp +zetaDelta only
    )

theorem execRefclkLoss_keep {s : State} (hwf : Keeps s) : OutKeeps (execRefclkLoss s) := by
  unfold execRefclkLoss
  repeat' (first
    | with_reducible assumption | extract_lets | (lift_lets; extract_lets) | intro _
    | with_reducible apply State.record_keep | with_reducible apply State.fence_keep | simp only [Keeps.mk_iff]
    | with_reducible apply Keeps.mem | with_reducible exact Mem.wf_empty | with_reducible apply ite_keep
    | with_reducible apply next_keep | with_reducible apply fault_keep | split | dsimp only | dsimp +zetaDelta only
    )

theorem execRefclkReturn_keep {s : State} (hwf : Keeps s) : OutKeeps (execRefclkReturn s) := by
  unfold execRefclkReturn
  repeat' (first
    | with_reducible assumption | extract_lets | (lift_lets; extract_lets) | intro _ | simp only [Keeps.mk_iff]
    | with_reducible apply Keeps.mem | with_reducible exact Mem.wf_empty | with_reducible apply ite_keep
    | with_reducible apply next_keep | with_reducible apply fault_keep | split | dsimp only | dsimp +zetaDelta only
    )

theorem State.railsGone_keep {s : State} (hwf : Keeps s) : Keeps (State.railsGone s) := by
  unfold State.railsGone
  repeat' (first
    | with_reducible assumption | extract_lets | (lift_lets; extract_lets) | intro _
    | with_reducible apply State.turnOff_keep | simp only [Keeps.mk_iff] | with_reducible apply Keeps.mem
    | with_reducible exact Mem.wf_empty | with_reducible apply ite_keep | split | dsimp only | dsimp +zetaDelta only
    )

theorem State.islandGone_keep {s : State} (hwf : Keeps s) : Keeps (State.islandGone s) := by
  unfold State.islandGone
  repeat' (first
    | with_reducible assumption | extract_lets | (lift_lets; extract_lets) | intro _ | simp only [Keeps.mk_iff]
    | with_reducible apply Keeps.mem | with_reducible exact Mem.wf_empty | with_reducible apply ite_keep | split
    | dsimp only | dsimp +zetaDelta only
    )

theorem execRailLoss_keep {rails : List Nat} {s : State} (hwf : Keeps s) : OutKeeps (execRailLoss rails s) := by
  unfold execRailLoss
  repeat' (first
    | with_reducible assumption | extract_lets | (lift_lets; extract_lets) | intro _
    | with_reducible apply State.islandGone_keep | with_reducible apply State.railFault_keep
    | with_reducible apply State.railsGone_keep | simp only [Keeps1.mk_iff] | simp only [Keeps2.mk_iff]
    | simp only [Keeps.mk_iff] | with_reducible apply foldl_keep | with_reducible apply Keeps.mem
    | with_reducible exact Mem.wf_empty | with_reducible apply foldlP_keep
    | with_reducible refine foldlP_keep_eq (by assumption) ?_ ?_ | with_reducible apply foldlQ_keep
    | with_reducible refine foldlQ_keep_eq (by assumption) ?_ ?_ | with_reducible apply ite_keep
    | with_reducible apply next_keep | with_reducible apply fault_keep | with_reducible apply Keeps1.fst
    | with_reducible apply Keeps2.snd | split | dsimp only | dsimp +zetaDelta only
    )

end Sys2Proof.Machine
end

