-- ==== Sys2Proof/Laws/MemRings.lean ====
section
/-! SUPPORT. Every operation of Machine/Rings.lean keeps the canonical form of the byte memories. -/

namespace Sys2Proof.Machine

set_option linter.unusedVariables false
set_option linter.unusedSimpArgs false
set_option linter.unusedTactic false
set_option linter.unreachableTactic false


theorem execIdentify_keep {path : Path} {pk : Packet} {s : State} (hwf : Keeps s) : OutKeeps (execIdentify path pk
    s) := by
  unfold execIdentify
  repeat' (first
    | with_reducible assumption | extract_lets | (lift_lets; extract_lets) | intro _
    | with_reducible apply State.done_keep | with_reducible apply beginCmd_keep | with_reducible apply ite_keep
    | with_reducible apply next_keep | with_reducible apply fault_keep | split | dsimp only | dsimp +zetaDelta only
    )

theorem execNegotiateLevel_keep {path : Path} {pk : Packet} {s : State} (hwf : Keeps s) : OutKeeps
    (execNegotiateLevel path pk s) := by
  unfold execNegotiateLevel
  repeat' (first
    | with_reducible assumption | extract_lets | (lift_lets; extract_lets) | intro _
    | with_reducible apply State.commit_keep | with_reducible apply State.done_keep
    | with_reducible apply beginCmd_keep | simp only [Keeps.mk_iff] | with_reducible apply Keeps.mem
    | with_reducible exact Mem.wf_empty | with_reducible apply id_keep | with_reducible apply ite_keep
    | with_reducible apply next_keep | with_reducible apply fault_keep | split | dsimp only | dsimp +zetaDelta only
    )

theorem State.enableRing_keep {s : State} {n : Nat} {value : Nat} (hwf : Keeps s) : Keeps (State.enableRing s n
    value) := by
  unfold State.enableRing
  repeat' (first
    | with_reducible assumption | extract_lets | (lift_lets; extract_lets) | intro _
    | with_reducible apply State.updRing_keep | simp only [Keeps.mk_iff] | with_reducible apply Keeps.mem
    | with_reducible exact Mem.wf_empty | with_reducible apply ite_keep | split | dsimp only | dsimp +zetaDelta only
    )

theorem State.disableRing_keep {s : State} {n : Nat} {value : Nat} (hwf : Keeps s) : Keeps (State.disableRing s n
    value) := by
  unfold State.disableRing
  repeat' (first
    | with_reducible assumption | extract_lets | (lift_lets; extract_lets) | intro _
    | with_reducible apply State.updRing_keep | simp only [Keeps.mk_iff] | with_reducible apply Keeps.mem
    | with_reducible exact Mem.wf_empty | with_reducible apply ite_keep | split | dsimp only | dsimp +zetaDelta only
    )

theorem execRingEnable_keep {m : Master} {ring : Nat} {value : Nat} {s : State} (hwf : Keeps s) : OutKeeps
    (execRingEnable m ring value s) := by
  unfold execRingEnable
  repeat' (first
    | with_reducible assumption | extract_lets | (lift_lets; extract_lets) | intro _
    | with_reducible apply State.ownerWrite_keep | with_reducible apply State.enableRing_keep
    | with_reducible apply onUnit_keep | with_reducible apply ite_keep | with_reducible apply next_keep
    | with_reducible apply fault_keep | split | dsimp only | dsimp +zetaDelta only
    )

theorem execRingDisable_keep {m : Master} {ring : Nat} {value : Nat} {s : State} (hwf : Keeps s) : OutKeeps
    (execRingDisable m ring value s) := by
  unfold execRingDisable
  repeat' (first
    | with_reducible assumption | extract_lets | (lift_lets; extract_lets) | intro _
    | with_reducible apply State.disableRing_keep | with_reducible apply State.ownerWrite_keep
    | with_reducible apply onUnit_keep | with_reducible apply ite_keep | with_reducible apply next_keep
    | with_reducible apply fault_keep | split | dsimp only | dsimp +zetaDelta only
    )

theorem State.msi_keep {s : State} {port : Nat} {vector : Nat} (hwf : Keeps s) : Keeps (State.msi s port vector)
    := by
  unfold State.msi
  repeat' (first
    | with_reducible assumption | extract_lets | (lift_lets; extract_lets) | intro _ | simp only [Keeps.mk_iff]
    | with_reducible apply Keeps.mem | with_reducible exact Mem.wf_empty | with_reducible apply ite_keep | split
    | dsimp only | dsimp +zetaDelta only
    )

theorem State.signal_keep {s : State} {bank : Nat} {vector : Nat} (hwf : Keeps s) : Keeps (State.signal s bank
    vector) := by
  unfold State.signal
  repeat' (first
    | with_reducible assumption | extract_lets | (lift_lets; extract_lets) | intro _
    | with_reducible apply State.msi_keep | simp only [Keeps.mk_iff] | with_reducible apply Keeps.mem
    | with_reducible exact Mem.wf_empty | with_reducible apply ite_keep | split | dsimp only | dsimp +zetaDelta only
    )

theorem State.ringFault_keep {s : State} {n : Nat} {cause : Nat} (hwf : Keeps s) : Keeps (State.ringFault s n
    cause) := by
  unfold State.ringFault
  repeat' (first
    | with_reducible assumption | extract_lets | (lift_lets; extract_lets) | intro _
    | with_reducible apply State.updRing_keep | with_reducible apply State.record_keep | simp only [Keeps.mk_iff]
    | with_reducible apply Keeps.mem | with_reducible exact Mem.wf_empty | with_reducible apply ite_keep | split
    | dsimp only | dsimp +zetaDelta only
    )

theorem State.writeCq_keep {s : State} {n : Nat} {entry : Nat → List Nat} {ok : Bool} {irq : Bool} (hwf : Keeps s)
    : Keeps (State.writeCq s n entry ok irq) := by
  unfold State.writeCq
  repeat' (first
    | with_reducible assumption | extract_lets | (lift_lets; extract_lets) | intro _
    | with_reducible apply State.hostWrite_keep | with_reducible apply State.ringFault_keep
    | with_reducible apply State.writeVA_keep | with_reducible apply State.updRing_keep
    | with_reducible apply State.msi_keep | simp only [Keeps.mk_iff] | with_reducible apply Keeps.mem
    | with_reducible exact Mem.wf_empty | with_reducible apply ite_keep | split | dsimp only | dsimp +zetaDelta only
    )

theorem State.endDrain_keep {s : State} {n : Nat} (hwf : Keeps s) : Keeps (State.endDrain s n) := by
  unfold State.endDrain
  repeat' (first
    | with_reducible assumption | extract_lets | (lift_lets; extract_lets) | intro _
    | with_reducible apply State.closeControlRing_keep | with_reducible apply State.updRing_keep
    | simp only [Keeps.mk_iff] | with_reducible apply Keeps.mem | with_reducible exact Mem.wf_empty
    | with_reducible apply ite_keep | split | dsimp only | dsimp +zetaDelta only
    )

theorem State.popEvent_keep {s : State} {p : Nat} (hwf : Keeps s) : Keeps (State.popEvent s p) := by
  unfold State.popEvent
  repeat' (first
    | with_reducible assumption | extract_lets | (lift_lets; extract_lets) | intro _ | simp only [Keeps.mk_iff]
    | with_reducible apply Keeps.mem | with_reducible exact Mem.wf_empty | with_reducible apply ite_keep | split
    | dsimp only | dsimp +zetaDelta only
    )

theorem State.postEvent_keep {s : State} {p : Nat} {ok : Bool} (hwf : Keeps s) : Keeps (State.postEvent s p ok) :=
    by
  unfold State.postEvent
  repeat' (first
    | with_reducible assumption | extract_lets | (lift_lets; extract_lets) | intro _
    | with_reducible apply State.popEvent_keep | with_reducible apply State.updMbox_keep
    | with_reducible apply State.sendMsg_keep | with_reducible apply State.writeCq_keep
    | with_reducible apply State.signal_keep | simp only [Keeps.mk_iff] | with_reducible apply Keeps.mem
    | with_reducible exact Mem.wf_empty | with_reducible apply ite_keep | split | dsimp only | dsimp +zetaDelta only
    )

theorem State.postEvents_keep {s : State} {p : Nat} {ok : Bool} (hwf : Keeps s) : Keeps (State.postEvents s p ok)
    := by
  unfold State.postEvents
  repeat' (first
    | with_reducible assumption | extract_lets | (lift_lets; extract_lets) | intro _
    | with_reducible apply State.postEvent_keep | simp only [Keeps1.mk_iff] | simp only [Keeps2.mk_iff]
    | with_reducible apply foldl_keep | with_reducible apply foldlP_keep
    | with_reducible refine foldlP_keep_eq (by assumption) ?_ ?_ | with_reducible apply foldlQ_keep
    | with_reducible refine foldlQ_keep_eq (by assumption) ?_ ?_ | with_reducible apply ite_keep
    | with_reducible apply Keeps1.fst | with_reducible apply Keeps2.snd | split | dsimp only | dsimp +zetaDelta only
    )

theorem State.postOn_keep {s : State} {path : Path} {ok : Bool} (hwf : Keeps s) : Keeps (State.postOn s path ok)
    := by
  unfold State.postOn
  repeat' (first
    | with_reducible assumption | extract_lets | (lift_lets; extract_lets) | intro _
    | with_reducible apply State.endDrain_keep | with_reducible apply State.updMbox_keep
    | with_reducible apply State.sendMsg_keep | with_reducible apply State.writeCq_keep
    | with_reducible apply State.signal_keep | with_reducible apply State.done_keep | simp only [Keeps.mk_iff]
    | with_reducible apply Keeps.mem | with_reducible exact Mem.wf_empty | with_reducible apply id_keep
    | with_reducible apply ite_keep | split | dsimp only | dsimp +zetaDelta only
    )

theorem execCompletionPost_keep {path : Path} {ok : Bool} {s : State} (hwf : Keeps s) : OutKeeps
    (execCompletionPost path ok s) := by
  unfold execCompletionPost
  repeat' (first
    | with_reducible assumption | extract_lets | (lift_lets; extract_lets) | intro _
    | with_reducible apply State.postEvents_keep | with_reducible apply State.postOn_keep | simp only [Keeps.mk_iff]
    | with_reducible apply Keeps.mem | with_reducible exact Mem.wf_empty | with_reducible apply ite_keep
    | with_reducible apply next_keep | with_reducible apply fault_keep | split | dsimp only | dsimp +zetaDelta only
    )

theorem State.writeTail_keep {s : State} {m : Master} {n : Nat} {value : Nat} (hwf : Keeps s) : Keeps
    (State.writeTail s m n value) := by
  unfold State.writeTail
  repeat' (first
    | with_reducible assumption | extract_lets | (lift_lets; extract_lets) | intro _
    | with_reducible apply State.updRing_keep | with_reducible apply State.denyOwn_keep | simp only [Keeps.mk_iff]
    | with_reducible apply Keeps.mem | with_reducible exact Mem.wf_empty | with_reducible apply ite_keep | split
    | dsimp only | dsimp +zetaDelta only
    )

theorem State.writeHead_keep {s : State} {m : Master} {n : Nat} {value : Nat} {ok : Bool} (hwf : Keeps s) : Keeps
    (State.writeHead s m n value ok) := by
  unfold State.writeHead
  repeat' (first
    | with_reducible assumption | extract_lets | (lift_lets; extract_lets) | intro _
    | with_reducible apply State.postEvents_keep | with_reducible apply State.updRing_keep
    | with_reducible apply State.denyOwn_keep | simp only [Keeps.mk_iff] | with_reducible apply Keeps.mem
    | with_reducible exact Mem.wf_empty | with_reducible apply ite_keep | split | dsimp only | dsimp +zetaDelta only
    )

theorem execRingSqTail_keep {m : Master} {ring : Nat} {value : Nat} {s : State} (hwf : Keeps s) : OutKeeps
    (execRingSqTail m ring value s) := by
  unfold execRingSqTail
  repeat' (first
    | with_reducible assumption | extract_lets | (lift_lets; extract_lets) | intro _
    | with_reducible apply State.writeTail_keep | with_reducible apply onUnit_keep | with_reducible apply ite_keep
    | with_reducible apply next_keep | with_reducible apply fault_keep | split | dsimp only | dsimp +zetaDelta only
    )

theorem execRingCqHead_keep {m : Master} {ring : Nat} {value : Nat} {ok : Bool} {s : State} (hwf : Keeps s) :
    OutKeeps (execRingCqHead m ring value ok s) := by
  unfold execRingCqHead
  repeat' (first
    | with_reducible assumption | extract_lets | (lift_lets; extract_lets) | intro _
    | with_reducible apply State.writeHead_keep | with_reducible apply onUnit_keep | with_reducible apply ite_keep
    | with_reducible apply next_keep | with_reducible apply fault_keep | split | dsimp only | dsimp +zetaDelta only
    )

theorem State.takeEntry_keep {s : State} {n : Nat} {bytes : List Byte} (hwf : Keeps s) : Keeps (State.takeEntry s
    n bytes) := by
  unfold State.takeEntry
  repeat' (first
    | with_reducible assumption | extract_lets | (lift_lets; extract_lets) | intro _
    | with_reducible apply State.takePacketOn_keep | with_reducible apply State.commitRaw_keep
    | with_reducible apply State.updRing_keep | simp only [Keeps.mk_iff] | with_reducible apply Keeps.mem
    | with_reducible exact Mem.wf_empty | with_reducible apply ite_keep | split | dsimp only | dsimp +zetaDelta only
    )

theorem execRingFetch_keep {ring : Nat} {host : Option (List Byte)} {ue : List Nat} {s : State} (hwf : Keeps s) :
    OutKeeps (execRingFetch ring host ue s) := by
  unfold execRingFetch
  repeat' (first
    | with_reducible assumption | extract_lets | (lift_lets; extract_lets) | intro _
    | with_reducible apply State.notePairFault_keep | with_reducible apply State.ringFault_keep
    | with_reducible apply State.takeEntry_keep | with_reducible apply State.fixEntry_keep
    | with_reducible apply State.noteUes_keep | with_reducible apply onUnit_keep | simp only [Keeps.mk_iff]
    | with_reducible apply Keeps.mem | with_reducible exact Mem.wf_empty | with_reducible apply ite_keep
    | with_reducible apply next_keep | with_reducible apply fault_keep | split | dsimp only | dsimp +zetaDelta only
    )

theorem State.submitMbox_keep {s : State} {b : Nat} (hwf : Keeps s) : Keeps (State.submitMbox s b) := by
  unfold State.submitMbox
  repeat' (first
    | with_reducible assumption | extract_lets | (lift_lets; extract_lets) | intro _
    | with_reducible apply State.takePacketOn_keep | with_reducible apply State.updMbox_keep
    | simp only [Keeps.mk_iff] | with_reducible apply Keeps.mem | with_reducible exact Mem.wf_empty
    | with_reducible apply ite_keep | split | dsimp only | dsimp +zetaDelta only
    )

theorem onMbox_keep {m : Master} {s : State} {f : Nat → State} (h_f : ∀ x0, Keeps (f x0)) (hwf : Keeps s) : Keeps
    (onMbox m s f) := by
  unfold onMbox
  repeat' (first
    | with_reducible assumption | extract_lets | (lift_lets; extract_lets) | intro _ | with_reducible apply h_f
    | simp only [Keeps.mk_iff] | with_reducible apply Keeps.mem | with_reducible exact Mem.wf_empty
    | with_reducible apply ite_keep | split | dsimp only | dsimp +zetaDelta only
    )

theorem execMboxDoorbell_keep {m : Master} {s : State} (hwf : Keeps s) : OutKeeps (execMboxDoorbell m s) := by
  unfold execMboxDoorbell
  repeat' (first
    | with_reducible assumption | extract_lets | (lift_lets; extract_lets) | intro _
    | with_reducible apply State.submitMbox_keep | with_reducible apply onMbox_keep | with_reducible apply ite_keep
    | with_reducible apply next_keep | with_reducible apply fault_keep | split | dsimp only | dsimp +zetaDelta only
    )

theorem State.ackMbox_keep {s : State} {b : Nat} (hwf : Keeps s) : Keeps (State.ackMbox s b) := by
  unfold State.ackMbox
  repeat' (first
    | with_reducible assumption | extract_lets | (lift_lets; extract_lets) | intro _
    | with_reducible apply State.postEvent_keep | with_reducible apply State.updMbox_keep | simp only [Keeps.mk_iff]
    | with_reducible apply Keeps.mem | with_reducible exact Mem.wf_empty | with_reducible apply ite_keep | split
    | dsimp only | dsimp +zetaDelta only
    )

theorem execMboxEvtAck_keep {m : Master} {s : State} (hwf : Keeps s) : OutKeeps (execMboxEvtAck m s) := by
  unfold execMboxEvtAck
  repeat' (first
    | with_reducible assumption | extract_lets | (lift_lets; extract_lets) | intro _
    | with_reducible apply State.ackMbox_keep | with_reducible apply onMbox_keep | with_reducible apply ite_keep
    | with_reducible apply next_keep | with_reducible apply fault_keep | split | dsimp only | dsimp +zetaDelta only
    )

theorem State.takeAhead_keep {s : State} {pkg n : Nat} (hwf : Keeps s) : Keeps (State.takeAhead s pkg n) := by
  induction n generalizing s pkg with
  | zero => (try unfold State.takeAhead); exact hwf
  | succ n ih =>
    unfold State.takeAhead
    repeat' (first
      | with_reducible assumption | extract_lets | (lift_lets; extract_lets) | intro _ | with_reducible apply ih
      | with_reducible apply State.takePacketOn_keep | simp only [Keeps.mk_iff] | with_reducible apply Keeps.mem
      | with_reducible exact Mem.wf_empty | with_reducible apply ite_keep | split | dsimp only | dsimp +zetaDelta only
      )

theorem execTowpathCommand_keep {s : State} (hwf : Keeps s) : OutKeeps (execTowpathCommand s) := by
  unfold execTowpathCommand
  repeat' (first
    | with_reducible assumption | extract_lets | (lift_lets; extract_lets) | intro _
    | with_reducible apply State.takePacketOn_keep | with_reducible apply State.takeAhead_keep
    | with_reducible apply State.sendMsg_keep | with_reducible apply State.record_keep | simp only [Keeps.mk_iff]
    | with_reducible apply Keeps.mem | with_reducible exact Mem.wf_empty | with_reducible apply ite_keep
    | with_reducible apply next_keep | with_reducible apply fault_keep | split | dsimp only | dsimp +zetaDelta only
    )

end Sys2Proof.Machine
end

