-- ==== Sys2Proof/Laws/MemRegRead.lean ====
section
/-! SUPPORT. Every operation of Machine/RegRead.lean keeps the canonical form of the byte memories. -/

namespace Sys2Proof.Machine

set_option linter.unusedVariables false
set_option linter.unusedSimpArgs false
set_option linter.unusedTactic false
set_option linter.unreachableTactic false


theorem State.readLatch_keep {s : State} {m : Master} {off : Nat} (hwf : Keeps s) : Keeps (State.readLatch s m
    off) := by
  unfold State.readLatch
  repeat' (first
    | with_reducible assumption | extract_lets | (lift_lets; extract_lets) | intro _
    | with_reducible apply State.latchView_keep | simp only [Keeps.mk_iff] | with_reducible apply Keeps.mem
    | with_reducible exact Mem.wf_empty | with_reducible apply ite_keep | split | dsimp only | dsimp +zetaDelta only
    )

theorem State.readClear_keep {s : State} {off : Nat} (hwf : Keeps s) : Keeps (State.readClear s off) := by
  unfold State.readClear
  repeat' (first
    | with_reducible assumption | extract_lets | (lift_lets; extract_lets) | intro _
    | with_reducible apply State.updCtrl_keep | simp only [Keeps.mk_iff] | with_reducible apply Keeps.mem
    | with_reducible exact Mem.wf_empty | with_reducible apply ite_keep | split | dsimp only | dsimp +zetaDelta only
    )

theorem State.readReg_keep {s : State} {m : Master} {off : Nat} (hwf : Keeps s) : Keeps2 (State.readReg s m off)
    := by
  unfold State.readReg
  repeat' (first
    | with_reducible assumption | extract_lets | (lift_lets; extract_lets) | intro _
    | with_reducible apply State.reachDomain_keep
    | with_reducible refine State.reachDomain_keep_eq (by assumption) ?_ | with_reducible apply State.readLatch_keep
    | with_reducible apply State.readClear_keep | simp only [Keeps2.mk_iff] | simp only [Keeps.mk_iff]
    | with_reducible apply Keeps.mem | with_reducible exact Mem.wf_empty | with_reducible apply ite_keep
    | with_reducible apply Keeps2.snd | split | dsimp only | dsimp +zetaDelta only
    )
theorem State.readReg_keep_eq {s : State} {m : Master} {off : Nat} {s' : State} {x' : Nat} (e : State.readReg s m
    off = (x', s')) (hwf : Keeps s) : Keeps s' := by
  have k : Keeps2 (State.readReg s m off) := State.readReg_keep  hwf
  rw [e] at k
  exact k

end Sys2Proof.Machine
end

