-- ==== Sys2Proof/Laws/MemRegs.lean ====
section
/-! SUPPORT. Every operation of Machine/Regs.lean keeps the canonical form of the byte memories. -/

namespace Sys2Proof.Machine

set_option linter.unusedVariables false
set_option linter.unusedSimpArgs false
set_option linter.unusedTactic false
set_option linter.unreachableTactic false


theorem State.writeOwn_keep {s : State} {m : Master} {off : Nat} {v : Nat} (hwf : Keeps s) : Keeps (State.writeOwn
    s m off v) := by
  unfold State.writeOwn
  repeat' (first
    | with_reducible assumption | extract_lets | (lift_lets; extract_lets) | intro _
    | with_reducible apply State.acceptOffer_keep | with_reducible apply State.ownerWrite_keep
    | with_reducible apply State.updBank_keep | with_reducible apply State.lapse_keep
    | with_reducible apply State.claim_keep | with_reducible apply State.renew_keep | simp only [Keeps.mk_iff]
    | with_reducible apply Keeps.mem | with_reducible exact Mem.wf_empty | with_reducible apply id_keep
    | with_reducible apply ite_keep | split | dsimp only | dsimp +zetaDelta only
    )

theorem State.writeRing_keep {s : State} {m : Master} {n : Nat} {off : Nat} {v : Nat} {ok : Bool} (hwf : Keeps s)
    : Keeps (State.writeRing s m n off v ok) := by
  unfold State.writeRing
  repeat' (first
    | with_reducible assumption | extract_lets | (lift_lets; extract_lets) | intro _
    | with_reducible apply State.disableRing_keep | with_reducible apply State.ownerWrite_keep
    | with_reducible apply State.enableRing_keep | with_reducible apply State.writeTail_keep
    | with_reducible apply State.writeHead_keep | with_reducible apply State.updRing_keep | simp only [Keeps.mk_iff]
    | with_reducible apply Keeps.mem | with_reducible exact Mem.wf_empty | with_reducible apply id_keep
    | with_reducible apply ite_keep | split | dsimp only | dsimp +zetaDelta only
    )

theorem State.writeMbox_keep {s : State} {b : Nat} {off : Nat} {v : Nat} (hwf : Keeps s) : Keeps (State.writeMbox
    s b off v) := by
  unfold State.writeMbox
  repeat' (first
    | with_reducible assumption | extract_lets | (lift_lets; extract_lets) | intro _
    | with_reducible apply State.submitMbox_keep | with_reducible apply State.updMbox_keep
    | with_reducible apply State.ackMbox_keep | with_reducible apply State.done_keep | simp only [Keeps.mk_iff]
    | with_reducible apply Keeps.mem | with_reducible exact Mem.wf_empty | with_reducible apply ite_keep | split
    | dsimp only | dsimp +zetaDelta only
    )

theorem State.writeCmd_keep {s : State} {m : Master} {off : Nat} {v : Nat} {ok : Bool} (hwf : Keeps s) : Keeps
    (State.writeCmd s m off v ok) := by
  unfold State.writeCmd
  repeat' (first
    | with_reducible assumption | extract_lets | (lift_lets; extract_lets) | intro _
    | with_reducible apply State.ownerWrite_keep | with_reducible apply State.writeRing_keep
    | with_reducible apply State.writeMbox_keep | simp only [Keeps.mk_iff] | with_reducible apply Keeps.mem
    | with_reducible exact Mem.wf_empty | with_reducible apply id_keep | with_reducible apply ite_keep | split
    | dsimp only | dsimp +zetaDelta only
    )

theorem State.writeLog_keep {s : State} {m : Master} {off : Nat} {v : Nat} (hwf : Keeps s) : Keeps (State.writeLog
    s m off v) := by
  unfold State.writeLog
  repeat' (first
    | with_reducible assumption | extract_lets | (lift_lets; extract_lets) | intro _
    | with_reducible apply State.logCtrl_keep | simp only [Keeps.mk_iff] | with_reducible apply Keeps.mem
    | with_reducible exact Mem.wf_empty | with_reducible apply ite_keep | split | dsimp only | dsimp +zetaDelta only
    )

theorem State.writePwr_keep {s : State} {off : Nat} {v : Nat} (hwf : Keeps s) : Keeps (State.writePwr s off v) :=
    by
  unfold State.writePwr
  repeat' (first
    | with_reducible assumption | extract_lets | (lift_lets; extract_lets) | intro _
    | with_reducible apply State.norCtrl_keep | simp only [Keeps.mk_iff] | with_reducible apply Keeps.mem
    | with_reducible exact Mem.wf_empty | with_reducible apply ite_keep | split | dsimp only | dsimp +zetaDelta only
    )

theorem State.timeCtrl_keep {s : State} {v : Nat} (hwf : Keeps s) : Keeps (State.timeCtrl s v) := by
  unfold State.timeCtrl
  repeat' (first
    | with_reducible assumption | extract_lets | (lift_lets; extract_lets) | intro _
    | with_reducible apply State.draw_keep | with_reducible refine State.draw_keep_eq (by assumption) ?_
    | with_reducible apply State.slew_keep | simp only [Keeps2.mk_iff] | simp only [Keeps.mk_iff]
    | with_reducible apply Keeps.mem | with_reducible exact Mem.wf_empty | with_reducible apply ite_keep
    | with_reducible apply Keeps2.snd | split | dsimp only | dsimp +zetaDelta only
    )

theorem State.timeSetLo_keep {s : State} {v : Nat} (hwf : Keeps s) : Keeps (State.timeSetLo s v) := by
  unfold State.timeSetLo
  repeat' (first
    | with_reducible assumption | extract_lets | (lift_lets; extract_lets) | intro _ | simp only [Keeps.mk_iff]
    | with_reducible apply Keeps.mem | with_reducible exact Mem.wf_empty | with_reducible apply ite_keep | split
    | dsimp only | dsimp +zetaDelta only
    )

theorem State.timeSetHi_keep {s : State} {v : Nat} (hwf : Keeps s) : Keeps (State.timeSetHi s v) := by
  unfold State.timeSetHi
  repeat' (first
    | with_reducible assumption | extract_lets | (lift_lets; extract_lets) | intro _
    | with_reducible apply State.slew_keep
    | simp only [Keeps1.mk_iff] | simp only [Keeps2.mk_iff]
    | simp only [Keeps.mk_iff] | with_reducible apply foldl_keep | with_reducible apply foldlM_keep
    | with_reducible apply iteM_keep | (simp only [Mem.wf_mk]; refine ⟨?_, ?_, ?_⟩)
    | with_reducible apply Tab.wf_put | with_reducible apply Tab.wf_putAll | with_reducible apply Tab.wf_filter
    | with_reducible apply Tab.wf_keep | with_reducible apply Tab.wf_merge | with_reducible exact Tab.wf_nil _
    | with_reducible apply Mem.bytes_keep | with_reducible apply Mem.pool_keep | with_reducible apply Mem.basin_keep
    | with_reducible apply Keeps.mem | with_reducible exact Mem.wf_empty | with_reducible apply foldlP_keep
    | with_reducible refine foldlP_keep_eq (by assumption) ?_ ?_ | with_reducible apply foldlQ_keep
    | with_reducible refine foldlQ_keep_eq (by assumption) ?_ ?_ | with_reducible apply OptKeeps.map
    | with_reducible exact OptKeeps.none | with_reducible apply OptKeeps.some | with_reducible apply SumKeeps.of_inl
    | with_reducible apply SumKeeps.of_inr | with_reducible apply id_keep | with_reducible apply ite_keep
    | with_reducible apply Keeps1.fst | with_reducible apply Keeps2.snd | with_reducible apply next_keep
    | with_reducible apply fault_keep | split | dsimp only | dsimp +zetaDelta only
    )

theorem State.writeTime_keep {s : State} {off : Nat} {v : Nat} (hwf : Keeps s) : Keeps (State.writeTime s off v)
    := by
  unfold State.writeTime
  repeat' (first
    | with_reducible assumption | extract_lets | (lift_lets; extract_lets) | intro _
    | with_reducible apply State.timeSetLo_keep | with_reducible apply State.timeSetHi_keep
    | with_reducible apply State.timeCtrl_keep | simp only [Keeps.mk_iff] | with_reducible apply Keeps.mem
    | with_reducible exact Mem.wf_empty | with_reducible apply ite_keep | split | dsimp only | dsimp +zetaDelta only
    )

theorem State.writeMem_keep {s : State} {u : Nat} {off : Nat} {v : Nat} {x : RegFacts} (hwf : Keeps s) : Keeps
    (State.writeMem s u off v x) := by
  unfold State.writeMem
  repeat' (first
    | with_reducible assumption | extract_lets | (lift_lets; extract_lets) | intro _
    | with_reducible apply State.updCtrl_keep | with_reducible apply State.lbCtrl_keep
    | with_reducible apply State.tgCtrl_keep | simp only [Keeps.mk_iff] | with_reducible apply Keeps.mem
    | with_reducible exact Mem.wf_empty | with_reducible apply ite_keep | split | dsimp only | dsimp +zetaDelta only
    )

theorem State.writeServ_keep {s : State} {off : Nat} {v : Nat} (hwf : Keeps s) : Keeps (State.writeServ s off v)
    := by
  unfold State.writeServ
  repeat' (first
    | with_reducible assumption | extract_lets | (lift_lets; extract_lets) | intro _
    | with_reducible apply State.setQuota_keep | simp only [Keeps.mk_iff] | with_reducible apply Keeps.mem
    | with_reducible exact Mem.wf_empty | with_reducible apply ite_keep | split | dsimp only | dsimp +zetaDelta only
    )

theorem State.writeDbg_keep {s : State} {src : Option Master} {off : Nat} {v : Nat} {ue : List Nat} (hwf : Keeps
    s) : Keeps (State.writeDbg s src off v ue) := by
  unfold State.writeDbg
  repeat' (first
    | with_reducible assumption | extract_lets | (lift_lets; extract_lets) | intro _
    | with_reducible apply State.memTransfer_keep | with_reducible apply State.ownerWrite_keep
    | with_reducible apply State.dbgWrite_keep | with_reducible apply State.setKey_keep
    | with_reducible apply State.dbgCmd_keep | simp only [Keeps.mk_iff] | with_reducible apply foldlM_keep
    | with_reducible apply iteM_keep | with_reducible apply Keeps.mem | with_reducible exact Mem.wf_empty
    | with_reducible apply id_keep | with_reducible apply ite_keep | split | dsimp only | dsimp +zetaDelta only
    )

theorem State.writePkg_keep {s : State} {off : Nat} {v : Nat} (hwf : Keeps s) : Keeps (State.writePkg s off v) :=
    by
  unfold State.writePkg
  repeat' (first
    | with_reducible assumption | extract_lets | (lift_lets; extract_lets) | intro _
    | with_reducible apply State.setPkgId_keep | simp only [Keeps.mk_iff] | with_reducible apply Keeps.mem
    | with_reducible exact Mem.wf_empty | with_reducible apply ite_keep | split | dsimp only | dsimp +zetaDelta only
    )

theorem State.writeOpen_keep {s : State} {m : Master} {off : Nat} {v : Nat} {x : RegFacts} (hwf : Keeps s) : Keeps
    (State.writeOpen s m off v x) := by
  unfold State.writeOpen
  repeat' (first
    | with_reducible assumption | extract_lets | (lift_lets; extract_lets) | intro _
    | with_reducible apply State.ownerWrite_keep | with_reducible apply State.writeTime_keep
    | with_reducible apply State.writeServ_keep | with_reducible apply State.writeOwn_keep
    | with_reducible apply State.writeCmd_keep | with_reducible apply State.writeLog_keep
    | with_reducible apply State.writePwr_keep | with_reducible apply State.writeMem_keep
    | with_reducible apply State.writeDbg_keep | with_reducible apply State.writePkg_keep
    | with_reducible apply id_keep | with_reducible apply ite_keep | split | dsimp only | dsimp +zetaDelta only
    )

theorem State.writeReg_keep {s : State} {m : Master} {off : Nat} {v : Nat} {x : RegFacts} (hwf : Keeps s) : Keeps
    (State.writeReg s m off v x) := by
  unfold State.writeReg
  repeat' (first
    | with_reducible assumption | extract_lets | (lift_lets; extract_lets) | intro _
    | with_reducible apply State.reachDomain_keep
    | with_reducible refine State.reachDomain_keep_eq (by assumption) ?_
    | with_reducible apply State.ownerWrite_keep | with_reducible apply State.writeOpen_keep
    | simp only [Keeps2.mk_iff] | simp only [Keeps.mk_iff] | with_reducible apply Keeps.mem
    | with_reducible exact Mem.wf_empty | with_reducible apply id_keep | with_reducible apply ite_keep
    | with_reducible apply Keeps2.snd | split | dsimp only | dsimp +zetaDelta only
    )

theorem State.setRead_keep {s : State} {lo : Nat} {hi : Nat} (hwf : Keeps s) : Keeps (State.setRead s lo hi) := by
  unfold State.setRead
  repeat' (first
    | with_reducible assumption | extract_lets | (lift_lets; extract_lets) | intro _ | simp only [Keeps.mk_iff]
    | with_reducible apply Keeps.mem | with_reducible exact Mem.wf_empty | with_reducible apply ite_keep | split
    | dsimp only | dsimp +zetaDelta only
    )

theorem execControlSpaceRead_keep {m : Master} {off : Nat} {size : Nat} {s : State} (hwf : Keeps s) : OutKeeps
    (execControlSpaceRead m off size s) := by
  unfold execControlSpaceRead
  repeat' (first
    | with_reducible assumption | extract_lets | (lift_lets; extract_lets) | intro _
    | with_reducible apply onUnit_keep | with_reducible apply State.readReg_keep
    | with_reducible refine State.readReg_keep_eq (by assumption) ?_ | with_reducible apply State.setRead_keep
    | with_reducible apply State.draw_keep | with_reducible refine State.draw_keep_eq (by assumption) ?_
    | simp only [Keeps1.mk_iff] | simp only [Keeps2.mk_iff]
    | simp only [Keeps.mk_iff] | with_reducible apply foldl_keep | with_reducible apply foldlM_keep
    | with_reducible apply iteM_keep | (simp only [Mem.wf_mk]; refine ⟨?_, ?_, ?_⟩)
    | with_reducible apply Tab.wf_put | with_reducible apply Tab.wf_putAll | with_reducible apply Tab.wf_filter
    | with_reducible apply Tab.wf_keep | with_reducible apply Tab.wf_merge | with_reducible exact Tab.wf_nil _
    | with_reducible apply Mem.bytes_keep | with_reducible apply Mem.pool_keep | with_reducible apply Mem.basin_keep
    | with_reducible apply Keeps.mem | with_reducible exact Mem.wf_empty | with_reducible apply foldlP_keep
    | with_reducible refine foldlP_keep_eq (by assumption) ?_ ?_ | with_reducible apply foldlQ_keep
    | with_reducible refine foldlQ_keep_eq (by assumption) ?_ ?_ | with_reducible apply OptKeeps.map
    | with_reducible exact OptKeeps.none | with_reducible apply OptKeeps.some | with_reducible apply SumKeeps.of_inl
    | with_reducible apply SumKeeps.of_inr | with_reducible apply id_keep | with_reducible apply ite_keep
    | with_reducible apply Keeps1.fst | with_reducible apply Keeps2.snd | with_reducible apply next_keep
    | with_reducible apply fault_keep | split | dsimp only | dsimp +zetaDelta only
    )

theorem execControlSpaceWrite_keep {m : Master} {off : Nat} {size : Nat} {value : Nat} {x : RegFacts} {s : State}
    (hwf : Keeps s) : OutKeeps (execControlSpaceWrite m off size value x s) := by
  unfold execControlSpaceWrite
  repeat' (first
    | with_reducible assumption | extract_lets | (lift_lets; extract_lets) | intro _
    | with_reducible apply State.writeReg_keep | with_reducible apply onUnit_keep | with_reducible apply ite_keep
    | with_reducible apply next_keep | with_reducible apply fault_keep | split | dsimp only | dsimp +zetaDelta only
    )

theorem execPkgIdWrite_keep {m : Master} {value : Nat} {s : State} (hwf : Keeps s) : OutKeeps (execPkgIdWrite m
    value s) := by
  unfold execPkgIdWrite
  repeat' (first
    | with_reducible assumption | extract_lets | (lift_lets; extract_lets) | intro _
    | with_reducible apply State.ownerWrite_keep | with_reducible apply State.setPkgId_keep
    | with_reducible apply ite_keep | with_reducible apply next_keep | with_reducible apply fault_keep | split
    | dsimp only | dsimp +zetaDelta only
    )

theorem execTimeCtrlResync_keep {m : Master} {value : Nat} {s : State} (hwf : Keeps s) : OutKeeps
    (execTimeCtrlResync m value s) := by
  unfold execTimeCtrlResync
  repeat' (first
    | with_reducible assumption | extract_lets | (lift_lets; extract_lets) | intro _
    | with_reducible apply State.ownerWrite_keep | with_reducible apply State.timeCtrl_keep
    | with_reducible apply ite_keep | with_reducible apply next_keep | with_reducible apply fault_keep | split
    | dsimp only | dsimp +zetaDelta only
    )

theorem execTimeSetHiWrite_keep {m : Master} {value : Nat} {s : State} (hwf : Keeps s) : OutKeeps
    (execTimeSetHiWrite m value s) := by
  unfold execTimeSetHiWrite
  repeat' (first
    | with_reducible assumption | extract_lets | (lift_lets; extract_lets) | intro _
    | with_reducible apply State.ownerWrite_keep | with_reducible apply State.timeSetHi_keep
    | with_reducible apply ite_keep | with_reducible apply next_keep | with_reducible apply fault_keep | split
    | dsimp only | dsimp +zetaDelta only
    )

theorem execTimeNowLoRead_keep {m : Master} {s : State} (hwf : Keeps s) : OutKeeps (execTimeNowLoRead m s) := by
  unfold execTimeNowLoRead
  repeat' (first
    | with_reducible assumption | extract_lets | (lift_lets; extract_lets) | intro _
    | with_reducible apply State.readReg_keep | with_reducible refine State.readReg_keep_eq (by assumption) ?_
    | with_reducible apply State.setRead_keep | simp only [Keeps2.mk_iff] | with_reducible apply ite_keep
    | with_reducible apply next_keep | with_reducible apply fault_keep | with_reducible apply Keeps2.snd | split
    | dsimp only | dsimp +zetaDelta only
    )

theorem State.readRegs_keep {s : State} {m : Master} {off n : Nat} (hwf : Keeps s) : Keeps2 (State.readRegs s m off n) := by
  induction n generalizing s m off with
  | zero => (try unfold State.readRegs); exact hwf
  | succ n ih =>
    unfold State.readRegs
    dsimp only
    simp only [Keeps2.mk_iff]
    with_reducible apply Keeps2.snd
    with_reducible apply ih
    with_reducible apply Keeps2.snd
    with_reducible exact State.readReg_keep hwf
theorem State.readRegs_keep_eq {s s1 : State} {m : Master} {off n : Nat} {y : List Nat} (e : State.readRegs s m off n = (y, s1)) (hwf : Keeps s) : Keeps s1 := by
  have k := State.readRegs_keep (m := m) (off := off) (n := n) hwf
  rw [e] at k
  exact k

theorem State.writeRegs_keep {s : State} {m : Master} {off : Nat} {x : RegFacts} {l : List Nat} (hwf : Keeps s) : Keeps (State.writeRegs s m off x l) := by
  induction l generalizing s m off x with
  | nil => (try unfold State.writeRegs); exact hwf
  | cons x t ih =>
    unfold State.writeRegs
    repeat' (first
      | with_reducible assumption | extract_lets | (lift_lets; extract_lets) | intro _ | with_reducible apply ih
      | with_reducible apply State.writeReg_keep | with_reducible apply ite_keep | split | dsimp only
      | dsimp +zetaDelta only
      )

theorem execRegAccess_keep {path : Path} {pk : Packet} {x : RegFacts} {s : State} (hwf : Keeps s) : OutKeeps
    (execRegAccess path pk x s) := by
  unfold execRegAccess
  repeat' (first
    | with_reducible assumption | extract_lets | (lift_lets; extract_lets) | intro _
    | with_reducible apply State.writeRegs_keep | with_reducible apply State.failWith_keep
    | with_reducible apply State.readRegs_keep | with_reducible refine State.readRegs_keep_eq (by assumption) ?_
    | with_reducible apply State.done_keep | with_reducible apply beginCmd_keep | simp only [Keeps2.mk_iff]
    | with_reducible apply ite_keep | with_reducible apply next_keep | with_reducible apply fault_keep
    | with_reducible apply Keeps2.snd | split | dsimp only | dsimp +zetaDelta only
    )

theorem execI3cAccess_keep {bytes : List Byte} {x : RegFacts} {s : State} (hwf : Keeps s) : OutKeeps
    (execI3cAccess bytes x s) := by
  unfold execI3cAccess
  repeat' (first
    | with_reducible assumption | extract_lets | (lift_lets; extract_lets) | intro _
    | with_reducible apply State.writeReg_keep | with_reducible apply State.readReg_keep
    | with_reducible refine State.readReg_keep_eq (by assumption) ?_ | with_reducible apply State.setRead_keep
    | with_reducible apply State.answer_keep | with_reducible apply State.draw_keep
    | with_reducible refine State.draw_keep_eq (by assumption) ?_ | simp only [Keeps2.mk_iff]
    | simp only [Keeps.mk_iff] | with_reducible apply Keeps.mem | with_reducible exact Mem.wf_empty
    | with_reducible apply ite_keep | with_reducible apply next_keep | with_reducible apply fault_keep
    | with_reducible apply Keeps2.snd | split | dsimp only | dsimp +zetaDelta only
    )

theorem execDbgAccess_keep {op : Nat} {off : Nat} {data : Nat} {ue : List Nat} {s : State} (hwf : Keeps s) :
    OutKeeps (execDbgAccess op off data ue s) := by
  unfold execDbgAccess
  repeat' (first
    | with_reducible assumption | extract_lets | (lift_lets; extract_lets) | intro _
    | with_reducible apply State.readReg_keep | with_reducible refine State.readReg_keep_eq (by assumption) ?_
    | with_reducible apply State.writeDbg_keep | with_reducible apply State.reachDomain_keep
    | with_reducible refine State.reachDomain_keep_eq (by assumption) ?_
    | simp only [Keeps1.mk_iff] | simp only [Keeps2.mk_iff]
    | simp only [Keeps.mk_iff] | with_reducible apply foldl_keep | with_reducible apply foldlM_keep
    | with_reducible apply iteM_keep | (simp only [Mem.wf_mk]; refine ⟨?_, ?_, ?_⟩)
    | with_reducible apply Tab.wf_put | with_reducible apply Tab.wf_putAll | with_reducible apply Tab.wf_filter
    | with_reducible apply Tab.wf_keep | with_reducible apply Tab.wf_merge | with_reducible exact Tab.wf_nil _
    | with_reducible apply Mem.bytes_keep | with_reducible apply Mem.pool_keep | with_reducible apply Mem.basin_keep
    | with_reducible apply Keeps.mem | with_reducible exact Mem.wf_empty | with_reducible apply foldlP_keep
    | with_reducible refine foldlP_keep_eq (by assumption) ?_ ?_ | with_reducible apply foldlQ_keep
    | with_reducible refine foldlQ_keep_eq (by assumption) ?_ ?_ | with_reducible apply OptKeeps.map
    | with_reducible exact OptKeeps.none | with_reducible apply OptKeeps.some | with_reducible apply SumKeeps.of_inl
    | with_reducible apply SumKeeps.of_inr | with_reducible apply id_keep | with_reducible apply ite_keep
    | with_reducible apply Keeps1.fst | with_reducible apply Keeps2.snd | with_reducible apply next_keep
    | with_reducible apply fault_keep | split | dsimp only | dsimp +zetaDelta only
    )

end Sys2Proof.Machine
end

