-- ==== Sys2Proof/Laws/MemScalar.lean ====
section
/-! SUPPORT. Every operation of Machine/Scalar.lean keeps the canonical form of the byte memories. -/

namespace Sys2Proof.Machine

set_option linter.unusedVariables false
set_option linter.unusedSimpArgs false
set_option linter.unusedTactic false
set_option linter.unreachableTactic false


theorem execAdd_keep {core : Nat} {s : State} (hwf : Keeps s) : OutKeeps (execAdd core s) := by
  unfold execAdd
  repeat' (first
    | with_reducible assumption | extract_lets | (lift_lets; extract_lets) | intro _
    | with_reducible apply scalarOp_keep | with_reducible apply ite_keep | with_reducible apply next_keep
    | with_reducible apply fault_keep | split | dsimp only | dsimp +zetaDelta only
    )

theorem execSub_keep {core : Nat} {s : State} (hwf : Keeps s) : OutKeeps (execSub core s) := by
  unfold execSub
  repeat' (first
    | with_reducible assumption | extract_lets | (lift_lets; extract_lets) | intro _
    | with_reducible apply scalarOp_keep | with_reducible apply ite_keep | with_reducible apply next_keep
    | with_reducible apply fault_keep | split | dsimp only | dsimp +zetaDelta only
    )

theorem execMul_keep {core : Nat} {s : State} (hwf : Keeps s) : OutKeeps (execMul core s) := by
  unfold execMul
  repeat' (first
    | with_reducible assumption | extract_lets | (lift_lets; extract_lets) | intro _
    | with_reducible apply scalarOp_keep | with_reducible apply ite_keep | with_reducible apply next_keep
    | with_reducible apply fault_keep | split | dsimp only | dsimp +zetaDelta only
    )

theorem execAndd_keep {core : Nat} {s : State} (hwf : Keeps s) : OutKeeps (execAndd core s) := by
  unfold execAndd
  repeat' (first
    | with_reducible assumption | extract_lets | (lift_lets; extract_lets) | intro _
    | with_reducible apply scalarOp_keep | with_reducible apply ite_keep | with_reducible apply next_keep
    | with_reducible apply fault_keep | split | dsimp only | dsimp +zetaDelta only
    )

theorem execOrr_keep {core : Nat} {s : State} (hwf : Keeps s) : OutKeeps (execOrr core s) := by
  unfold execOrr
  repeat' (first
    | with_reducible assumption | extract_lets | (lift_lets; extract_lets) | intro _
    | with_reducible apply scalarOp_keep | with_reducible apply ite_keep | with_reducible apply next_keep
    | with_reducible apply fault_keep | split | dsimp only | dsimp +zetaDelta only
    )

theorem execXor_keep {core : Nat} {s : State} (hwf : Keeps s) : OutKeeps (execXor core s) := by
  unfold execXor
  repeat' (first
    | with_reducible assumption | extract_lets | (lift_lets; extract_lets) | intro _
    | with_reducible apply scalarOp_keep | with_reducible apply ite_keep | with_reducible apply next_keep
    | with_reducible apply fault_keep | split | dsimp only | dsimp +zetaDelta only
    )

theorem execShl_keep {core : Nat} {s : State} (hwf : Keeps s) : OutKeeps (execShl core s) := by
  unfold execShl
  repeat' (first
    | with_reducible assumption | extract_lets | (lift_lets; extract_lets) | intro _
    | with_reducible apply scalarOp_keep | with_reducible apply ite_keep | with_reducible apply next_keep
    | with_reducible apply fault_keep | split | dsimp only | dsimp +zetaDelta only
    )

theorem execShr_keep {core : Nat} {s : State} (hwf : Keeps s) : OutKeeps (execShr core s) := by
  unfold execShr
  repeat' (first
    | with_reducible assumption | extract_lets | (lift_lets; extract_lets) | intro _
    | with_reducible apply scalarOp_keep | with_reducible apply ite_keep | with_reducible apply next_keep
    | with_reducible apply fault_keep | split | dsimp only | dsimp +zetaDelta only
    )

theorem execSar_keep {core : Nat} {s : State} (hwf : Keeps s) : OutKeeps (execSar core s) := by
  unfold execSar
  repeat' (first
    | with_reducible assumption | extract_lets | (lift_lets; extract_lets) | intro _
    | with_reducible apply scalarOp_keep | with_reducible apply ite_keep | with_reducible apply next_keep
    | with_reducible apply fault_keep | split | dsimp only | dsimp +zetaDelta only
    )

theorem execLi_keep {core : Nat} {s : State} (hwf : Keeps s) : OutKeeps (execLi core s) := by
  unfold execLi
  repeat' (first
    | with_reducible assumption | extract_lets | (lift_lets; extract_lets) | intro _
    | with_reducible apply scalarOp_keep | with_reducible apply ite_keep | with_reducible apply next_keep
    | with_reducible apply fault_keep | split | dsimp only | dsimp +zetaDelta only
    )

theorem execLih_keep {core : Nat} {s : State} (hwf : Keeps s) : OutKeeps (execLih core s) := by
  unfold execLih
  repeat' (first
    | with_reducible assumption | extract_lets | (lift_lets; extract_lets) | intro _
    | with_reducible apply scalarOp_keep | with_reducible apply ite_keep | with_reducible apply next_keep
    | with_reducible apply fault_keep | split | dsimp only | dsimp +zetaDelta only
    )

theorem execSlt_keep {core : Nat} {s : State} (hwf : Keeps s) : OutKeeps (execSlt core s) := by
  unfold execSlt
  repeat' (first
    | with_reducible assumption | extract_lets | (lift_lets; extract_lets) | intro _
    | with_reducible apply scalarOp_keep | with_reducible apply ite_keep | with_reducible apply next_keep
    | with_reducible apply fault_keep | split | dsimp only | dsimp +zetaDelta only
    )

theorem execSltu_keep {core : Nat} {s : State} (hwf : Keeps s) : OutKeeps (execSltu core s) := by
  unfold execSltu
  repeat' (first
    | with_reducible assumption | extract_lets | (lift_lets; extract_lets) | intro _
    | with_reducible apply scalarOp_keep | with_reducible apply ite_keep | with_reducible apply next_keep
    | with_reducible apply fault_keep | split | dsimp only | dsimp +zetaDelta only
    )

theorem execFadd_keep {core : Nat} {s : State} (hwf : Keeps s) : OutKeeps (execFadd core s) := by
  unfold execFadd
  repeat' (first
    | with_reducible assumption | extract_lets | (lift_lets; extract_lets) | intro _
    | with_reducible apply scalarOp_keep | with_reducible apply ite_keep | with_reducible apply next_keep
    | with_reducible apply fault_keep | split | dsimp only | dsimp +zetaDelta only
    )

theorem execFmul_keep {core : Nat} {s : State} (hwf : Keeps s) : OutKeeps (execFmul core s) := by
  unfold execFmul
  repeat' (first
    | with_reducible assumption | extract_lets | (lift_lets; extract_lets) | intro _
    | with_reducible apply scalarOp_keep | with_reducible apply ite_keep | with_reducible apply next_keep
    | with_reducible apply fault_keep | split | dsimp only | dsimp +zetaDelta only
    )

theorem execFfma_keep {core : Nat} {s : State} (hwf : Keeps s) : OutKeeps (execFfma core s) := by
  unfold execFfma
  repeat' (first
    | with_reducible assumption | extract_lets | (lift_lets; extract_lets) | intro _
    | with_reducible apply scalarOp_keep | with_reducible apply ite_keep | with_reducible apply next_keep
    | with_reducible apply fault_keep | split | dsimp only | dsimp +zetaDelta only
    )

theorem State.controlFault_keep {s : State} {c : Nat} {cause : Nat} {region : Nat} (hwf : Keeps s) : Keeps
    (State.controlFault s c cause region) := by
  unfold State.controlFault
  repeat' (first
    | with_reducible assumption | extract_lets | (lift_lets; extract_lets) | intro _
    | with_reducible apply State.updCore_keep | with_reducible apply State.settle_keep | simp only [Keeps.mk_iff]
    | with_reducible apply Keeps.mem | with_reducible exact Mem.wf_empty | with_reducible apply ite_keep | split
    | dsimp only | dsimp +zetaDelta only
    )

theorem State.controlUe_keep {s : State} {c : Nat} {key : Nat} (hwf : Keeps s) : Keeps (State.controlUe s c key)
    := by
  unfold State.controlUe
  repeat' (first
    | with_reducible assumption | extract_lets | (lift_lets; extract_lets) | intro _
    | with_reducible apply State.controlFault_keep | with_reducible apply State.logPoolUe_keep
    | with_reducible apply ite_keep | split | dsimp only | dsimp +zetaDelta only
    )

theorem State.poolRead_keep {s : State} {c : Nat} {off : Nat} {n : Nat} {ce : Nat} {ue : List Nat} {body : List
    Byte → State → State} (h_body : ∀ x0 x1, Keeps x1 → Keeps (body x0 x1)) (hwf : Keeps s) : Keeps
    (State.poolRead s c off n ce ue body) := by
  unfold State.poolRead
  repeat' (first
    | with_reducible assumption | extract_lets | (lift_lets; extract_lets) | intro _ | with_reducible apply h_body
    | with_reducible apply State.controlUe_keep | with_reducible apply State.updCore_keep | simp only [Keeps.mk_iff]
    | with_reducible apply foldlM_keep | with_reducible apply iteM_keep | with_reducible apply Keeps.mem
    | with_reducible exact Mem.wf_empty | with_reducible apply ite_keep | split | dsimp only | dsimp +zetaDelta only
    )

theorem execLds_keep {core : Nat} {ce : Nat} {ue : List Nat} {s : State} (hwf : Keeps s) : OutKeeps (execLds core
    ce ue s) := by
  unfold execLds
  repeat' (first
    | with_reducible assumption | extract_lets | (lift_lets; extract_lets) | intro _
    | with_reducible apply State.controlFault_keep | with_reducible apply State.poolRead_keep
    | with_reducible apply State.updCore_keep | with_reducible apply State.goto_keep
    | with_reducible apply onOp_keep | with_reducible apply ite_keep | with_reducible apply next_keep
    | with_reducible apply fault_keep | split | dsimp only | dsimp +zetaDelta only
    )

theorem execSts_keep {core : Nat} {s : State} (hwf : Keeps s) : OutKeeps (execSts core s) := by
  unfold execSts
  repeat' (first
    | with_reducible assumption | extract_lets | (lift_lets; extract_lets) | intro _
    | with_reducible apply State.controlFault_keep | with_reducible apply State.writePlace_keep
    | with_reducible apply State.goto_keep | with_reducible apply onOp_keep | with_reducible apply ite_keep
    | with_reducible apply next_keep | with_reducible apply fault_keep | split | dsimp only | dsimp +zetaDelta only
    )

theorem execStat_keep {core : Nat} {s : State} (hwf : Keeps s) : OutKeeps (execStat core s) := by
  unfold execStat
  repeat' (first
    | with_reducible assumption | extract_lets | (lift_lets; extract_lets) | intro _
    | with_reducible apply scalarOp_keep
    | simp only [Keeps1.mk_iff] | simp only [Keeps2.mk_iff]
    | simp only [Keeps.mk_iff] | with_reducible apply foldl_keep | with_reducible apply foldlM_keep
    | with_reducible apply iteM_keep | (simp only [Mem.wf_mk]; refine ⟨?_, ?_, ?_⟩)
    | with_reducible apply Tab.wf_put | with_reducible apply Tab.wf_putAll | with_reducible apply Tab.wf_filter
    | with_reducible apply Tab.wf_keep | with_reducible apply Tab.wf_merge | with_reducible exact Tab.wf_nil _
    | with_reducible apply Mem.bytes_keep | with_reducible apply Mem.pool_keep | with_reducible apply Mem.basin_keep
    | with_reducible apply Keeps.mem | with_reducible exact Mem.wf_empty | with_reducible apply foldlP_keep
    | with_reducible refine foldlP_keep_eq (by assumption) ?_ ?_ | with_reducible apply foldlQ_keep
    | with_reducible refine foldlQ_keep_eq (by assumption) ?_ ?_ | with_reducible apply OptKeeps.map
    | with_reducible exact OptKeeps.none | with_reducible apply OptKeeps.some | with_reducible apply SumKeeps.of_inl
    | with_reducible apply SumKeeps.of_inr | with_reducible apply id_keep | with_reducible apply ite_keep
    | with_reducible apply Keeps1.fst | with_reducible apply Keeps2.snd | with_reducible apply next_keep
    | with_reducible apply fault_keep | split | dsimp only | dsimp +zetaDelta only
    )

theorem execBr_keep {core : Nat} {s : State} (hwf : Keeps s) : OutKeeps (execBr core s) := by
  unfold execBr
  repeat' (first
    | with_reducible assumption | extract_lets | (lift_lets; extract_lets) | intro _
    | with_reducible apply State.goto_keep | with_reducible apply onOp_keep | with_reducible apply ite_keep
    | with_reducible apply next_keep | with_reducible apply fault_keep | split | dsimp only | dsimp +zetaDelta only
    )

theorem execFence_keep {core : Nat} {s : State} (hwf : Keeps s) : OutKeeps (execFence core s) := by
  unfold execFence
  repeat' (first
    | with_reducible assumption | extract_lets | (lift_lets; extract_lets) | intro _
    | with_reducible apply State.goto_keep | with_reducible apply onOp_keep | with_reducible apply ite_keep
    | with_reducible apply next_keep | with_reducible apply fault_keep | split | dsimp only | dsimp +zetaDelta only
    )

theorem execWaitr_keep {core : Nat} {s : State} (hwf : Keeps s) : OutKeeps (execWaitr core s) := by
  unfold execWaitr
  repeat' (first
    | with_reducible assumption | extract_lets | (lift_lets; extract_lets) | intro _
    | with_reducible apply State.goto_keep | with_reducible apply onOp_keep | with_reducible apply ite_keep
    | with_reducible apply next_keep | with_reducible apply fault_keep | split | dsimp only | dsimp +zetaDelta only
    )

theorem execEndProgram_keep {core : Nat} {s : State} (hwf : Keeps s) : OutKeeps (execEndProgram core s) := by
  unfold execEndProgram
  repeat' (first
    | with_reducible assumption | extract_lets | (lift_lets; extract_lets) | intro _
    | with_reducible apply State.updCore_keep | with_reducible apply State.settle_keep
    | with_reducible apply onOp_keep | simp only [Keeps.mk_iff] | with_reducible apply Keeps.mem
    | with_reducible exact Mem.wf_empty | with_reducible apply ite_keep | with_reducible apply next_keep
    | with_reducible apply fault_keep | split | dsimp only | dsimp +zetaDelta only
    )

theorem State.setSlot_keep {s : State} {c : Nat} {o : Op} {h : Nat} {d : Desc} {reserved : Bool} (hwf : Keeps s) :
    Keeps (State.setSlot s c o h d reserved) := by
  unfold State.setSlot
  repeat' (first
    | with_reducible assumption | extract_lets | (lift_lets; extract_lets) | intro _
    | with_reducible apply State.controlFault_keep | with_reducible apply State.updCore_keep
    | with_reducible apply State.goto_keep | simp only [Keeps.mk_iff] | with_reducible apply Keeps.mem
    | with_reducible exact Mem.wf_empty | with_reducible apply ite_keep | split | dsimp only | dsimp +zetaDelta only
    )

theorem execSetDesc_keep {core : Nat} {ce : Nat} {ue : List Nat} {s : State} (hwf : Keeps s) : OutKeeps
    (execSetDesc core ce ue s) := by
  unfold execSetDesc
  repeat' (first
    | with_reducible assumption | extract_lets | (lift_lets; extract_lets) | intro _
    | with_reducible apply State.controlFault_keep | with_reducible apply State.poolRead_keep
    | with_reducible apply State.setSlot_keep | with_reducible apply onOp_keep | with_reducible apply ite_keep
    | with_reducible apply next_keep | with_reducible apply fault_keep | split | dsimp only | dsimp +zetaDelta only
    )

theorem execSetBase_keep {core : Nat} {s : State} (hwf : Keeps s) : OutKeeps (execSetBase core s) := by
  unfold execSetBase
  repeat' (first
    | with_reducible assumption | extract_lets | (lift_lets; extract_lets) | intro _
    | with_reducible apply State.setSlot_keep | with_reducible apply onOp_keep | simp only [Keeps.mk_iff]
    | with_reducible apply Keeps.mem | with_reducible exact Mem.wf_empty | with_reducible apply ite_keep
    | with_reducible apply next_keep | with_reducible apply fault_keep | split | dsimp only | dsimp +zetaDelta only
    )

theorem execSetDim_keep {core : Nat} {s : State} (hwf : Keeps s) : OutKeeps (execSetDim core s) := by
  unfold execSetDim
  repeat' (first
    | with_reducible assumption | extract_lets | (lift_lets; extract_lets) | intro _
    | with_reducible apply State.setSlot_keep | with_reducible apply onOp_keep | simp only [Keeps.mk_iff]
    | with_reducible apply Keeps.mem | with_reducible exact Mem.wf_empty | with_reducible apply ite_keep
    | with_reducible apply next_keep | with_reducible apply fault_keep | split | dsimp only | dsimp +zetaDelta only
    )

theorem execChunk_keep {core : Nat} {s : State} (hwf : Keeps s) : OutKeeps (execChunk core s) := by
  unfold execChunk
  repeat' (first
    | with_reducible assumption | extract_lets | (lift_lets; extract_lets) | intro _
    | with_reducible apply State.updCore_keep | with_reducible apply State.goto_keep
    | with_reducible apply onOp_keep | simp only [Keeps.mk_iff] | with_reducible apply Keeps.mem
    | with_reducible exact Mem.wf_empty | with_reducible apply ite_keep | with_reducible apply next_keep
    | with_reducible apply fault_keep | split | dsimp only | dsimp +zetaDelta only
    )

end Sys2Proof.Machine
end

