-- ==== Sys2Proof/Laws/Ops.lean ====
section
/-! SUPPORT. What the shared operations do, said once: the tables of commands in flight, the beginning of a command, its
completion, a log record with its events. Proofs about a command cite these lemmas and unfold none of the operations. -/

namespace Sys2Proof.Machine

/-! ### Searching, changing and deleting the first of a list -/

theorem listFind_sat {α : Type} {p : α → Bool} {l : List α} {a : α} (h : listFind p l = some a) : p a = true := by
  induction l with
  | nil => simp [listFind] at h
  | cons b t ih =>
    simp only [listFind] at h
    split at h
    · rename_i hb; cases h; exact hb
    · exact ih h

theorem listFind_mem {α : Type} {p : α → Bool} {l : List α} {a : α} (h : listFind p l = some a) : a ∈ l := by
  induction l with
  | nil => simp [listFind] at h
  | cons b t ih =>
    simp only [listFind] at h
    split at h
    · cases h; exact List.mem_cons_self
    · exact List.mem_cons_of_mem _ (ih h)

/-- A change that keeps what the search looks at is found changed. -/
theorem listFind_updFirst {α : Type} {p : α → Bool} {f : α → α} (hf : ∀ a, p (f a) = p a) (l : List α) :
    listFind p (updFirst p f l) = (listFind p l).map f := by
  induction l with
  | nil => rfl
  | cons b t ih =>
    by_cases hb : p b = true
    · simp [updFirst, listFind, hb, hf]
    · simp [updFirst, listFind, hb, ih]

/-- Another search finds what it found before. -/
theorem listFind_updFirst_ne {α : Type} {p q : α → Bool} {f : α → α} (hq : ∀ a, p a = true → q a = false)
    (hf : ∀ a, q (f a) = q a) (l : List α) : listFind q (updFirst p f l) = listFind q l := by
  induction l with
  | nil => rfl
  | cons b t ih =>
    by_cases hb : p b = true
    · simp [updFirst, listFind, hb, hf, hq b hb]
    · simp [updFirst, listFind, hb, ih]

theorem delFirst_updFirst {α : Type} {p : α → Bool} {f : α → α} (hf : ∀ a, p (f a) = p a) (l : List α) :
    delFirst p (updFirst p f l) = delFirst p l := by
  induction l with
  | nil => rfl
  | cons b t ih =>
    by_cases hb : p b = true
    · simp [updFirst, delFirst, hb, hf]
    · simp [updFirst, delFirst, hb, ih]

/-! ### A command in flight -/

theorem State.flight_id {s : State} {id : Nat} {f : Flight} (h : s.flight id = some f) : f.id = id := by
  simpa using listFind_sat h

/-- A change of a command in flight that keeps its number. -/
theorem State.flight_updFlight {s : State} {id : Nat} {g : Flight → Flight} (hg : ∀ f, (g f).id = f.id) :
    (s.updFlight id g).flight id = (s.flight id).map g := by
  simp only [State.flight, State.updFlight]
  exact listFind_updFirst (fun a => by simp [hg]) _

theorem State.flight_updFlight_ne {s : State} {id id' : Nat} {g : Flight → Flight} (hne : id ≠ id')
    (hg : ∀ f, (g f).id = f.id) : (s.updFlight id g).flight id' = s.flight id' := by
  simp only [State.flight, State.updFlight]
  refine listFind_updFirst_ne (fun a h => ?_) (fun a => by simp [hg]) _
  simp only [beq_iff_eq] at h
  simp [h, hne]

/-- A command that has just begun is in flight, begun, and otherwise as it was (R542). -/
theorem State.begun_flight {s : State} {f : Flight} (h : s.flight f.id = some f) :
    (s.begun f).flight f.id = some { f with phase := .begun, at_ := s.clk } := by
  unfold State.begun
  have e := State.flight_updFlight (s := s) (id := f.id)
    (g := fun g => { g with phase := .begun, at_ := s.clk }) (fun _ => rfl)
  rw [e, h]
  rfl

/-- Beginning a command changes the list of commands in flight and nothing else. -/
theorem State.begun_eq (s : State) (f : Flight) :
    ∃ fs, s.begun f = { s with cmd := { s.cmd with flights := fs } } := ⟨_, rfl⟩

@[simp] theorem State.begun_committed (s : State) (f : Flight) : (s.begun f).cmd.committed = s.cmd.committed := rfl

/-- A command that stands as `Begins` says and needs what its gate names runs its body from the state in which it has
just begun (R515, R542, R600). -/
theorem beginOn_begins {s : State} {path : Path} {pk : Packet} {f : Flight} {g : Gate} {isKind : Packet → Bool}
    {body : Flight → State → State} (h : s.Begins path pk f (g.res s) (g.doms s)) (hk : isKind pk = true)
    (hr : g.ready s = true) : beginOn path pk isKind g s body = .next (body f (s.begun f)) := by
  have hs : (s.pwr.state == PkgPower.sleep) = false := by simpa using h.awake
  simp [beginOn, h.named, hk, h.served, hs, State.enterCmd, h.gate, h.free, h.tokens, h.doms, hr, State.begun]

theorem beginCmd_begins {s : State} {path : Path} {pk : Packet} {f : Flight} {isKind : Packet → Bool}
    {body : Flight → State → State} (h : s.Begins path pk f [] []) (hk : isKind pk = true) :
    beginCmd path pk isKind s body = .next (body f (s.begun f)) :=
  beginOn_begins h hk rfl

/-- A command that is not in flight, or is of another kind, changes nothing. -/
theorem beginOn_idle {s : State} {path : Path} {pk : Packet} {g : Gate} {isKind : Packet → Bool}
    {body : Flight → State → State} (h : s.named path pk = none ∨ isKind pk = false) :
    beginOn path pk isKind g s body = .next s := by
  unfold beginOn
  rcases h with h | h
  · rw [h]
  · cases s.named path pk <;> simp [h]

/-- Every command that a row names answers a next state: it stops nowhere. -/
theorem beginOn_next (path : Path) (pk : Packet) (isKind : Packet → Bool) (g : Gate) (s : State)
    (body : Flight → State → State) : ∃ t, beginOn path pk isKind g s body = .next t := by
  unfold beginOn
  cases s.named path pk with
  | none => exact ⟨_, rfl⟩
  | some f => cases isKind pk <;> exact ⟨_, rfl⟩

/-! ### Completions -/

/-- The completion of a command in flight that no ABORT waits for: it leaves the commands in flight, and its completion
stands last of those committed (R543). -/
theorem State.commit_eq {s : State} {f : Flight} (status : Nat) (res : List Nat) (h : s.flight f.id = some f)
    (ha : f.aborts = []) : s.commit f.id status res = { s with cmd := { s.cmd with
      flights := delFirst (fun g => g.id == f.id) s.cmd.flights,
      committed := s.cmd.committed ++ [⟨f.id, f.path, f.pk.opcode, abortStatus f.phase status, f.pk.seq.toNat,
        f.pk.tag.toNat, f.pk.part, f.sqHead, f.pk.irq, res⟩] } } := by
  simp [State.commit, h, ha, State.commitRaw]

theorem foldl_commit_frame {fl : List Nat} {g : State → Nat → State}
    (hg : ∀ s a, ∃ fs cs, g s a = { s with cmd := { s.cmd with flights := fs, committed := cs } }) (s : State) :
    ∃ fs cs, fl.foldl g s = { s with cmd := { s.cmd with flights := fs, committed := cs } } := by
  induction fl generalizing s with
  | nil => exact ⟨s.cmd.flights, s.cmd.committed, rfl⟩
  | cons a t ih =>
    obtain ⟨fs, cs, e⟩ := hg s a
    obtain ⟨fs', cs', e'⟩ := ih (g s a)
    exact ⟨fs', cs', by rw [List.foldl_cons, e', e]⟩

/-- Whatever waits for it, a completion changes the commands in flight and the committed completions, and nothing
else. -/
theorem State.commit_frame (s : State) (id status : Nat) (res : List Nat) :
    ∃ fs cs, s.commit id status res = { s with cmd := { s.cmd with flights := fs, committed := cs } } := by
  unfold State.commit
  split
  · exact ⟨s.cmd.flights, s.cmd.committed, rfl⟩
  · rename_i f _
    obtain ⟨fs, cs, e⟩ := foldl_commit_frame (fl := f.aborts) (g := fun s a => match s.flight a with
      | none => s
      | some g =>
        if s.cmd.flights.any (fun h => h.aborts.contains a) then s
        else
          let s := { s with cmd := { s.cmd with flights := delFirst (fun h => h.id == a) s.cmd.flights } }
          s.commitRaw a g.path g.pk g.sqHead stDone
            [if g.pk.f 0x10 1 0 = 2 then 3 else if f.phase = .late then 2 else 1])
      (fun s a => by
        dsimp only
        split
        · exact ⟨s.cmd.flights, s.cmd.committed, rfl⟩
        · split
          · exact ⟨s.cmd.flights, s.cmd.committed, rfl⟩
          · exact ⟨_, _, rfl⟩)
      (({ s with cmd := { s.cmd with flights := delFirst (fun g => g.id == id) s.cmd.flights } } : State).commitRaw id
        f.path f.pk f.sqHead (abortStatus f.phase status) res)
    exact ⟨fs, cs, e⟩

/-- A command that has just begun completes with the status and the words given. -/
theorem State.begun_commit_completes {s : State} {f : Flight} (status : Nat) (res : List Nat)
    (h : s.flight f.id = some f) (ha : f.aborts = []) :
    s.Completes f status res ((s.begun f).commit f.id status res) := by
  have hb := State.begun_flight h
  have he := State.commit_eq (s := s.begun f) (f := { f with phase := .begun, at_ := s.clk }) status res hb ha
  constructor
  · rw [he]
    simp only [State.begun, State.updFlight]
    refine delFirst_updFirst ?_ _
    intro _; rfl
  · rw [he]
    simp [abortStatus, State.begun, State.updFlight]

theorem State.begun_done_completes {s : State} {f : Flight} (res : List Nat) (h : s.flight f.id = some f)
    (ha : f.aborts = []) : s.Completes f stDone res ((s.begun f).done f res) :=
  State.begun_commit_completes _ _ h ha

theorem State.begun_failWith_completes {s : State} {f : Flight} (status : Nat) (h : s.flight f.id = some f)
    (ha : f.aborts = []) : s.Completes f status [] ((s.begun f).failWith f status) :=
  State.begun_commit_completes _ _ h ha

theorem State.begun_refuse_completes {s : State} {f : Flight} (status cause : Nat) (h : s.flight f.id = some f)
    (ha : f.aborts = []) : s.Completes f status [cause, 0xFFFFFFFF] ((s.begun f).refuse f status cause) :=
  State.begun_commit_completes _ _ h ha

/-- A completion commits from any state whose commands in flight and completions are those of the state just begun:
what a body did to the rest of the machine stays. -/
theorem State.commit_completes_of {s t : State} {f : Flight} (status : Nat) (res : List Nat)
    (h : s.flight f.id = some f) (ha : f.aborts = []) (hf : t.cmd.flights = (s.begun f).cmd.flights)
    (hc : t.cmd.committed = s.cmd.committed) : s.Completes f status res (t.commit f.id status res) := by
  have hb : t.flight f.id = some { f with phase := .begun, at_ := s.clk } := by
    unfold State.flight; rw [hf]; exact State.begun_flight h
  have he := State.commit_eq (s := t) (f := { f with phase := .begun, at_ := s.clk }) status res hb ha
  constructor
  · rw [he]
    simp only [hf, State.begun, State.updFlight]
    refine delFirst_updFirst ?_ _
    intro _; rfl
  · rw [he]
    simp [abortStatus, hc]

/-! ### Log records and events -/

/-- An event waits for its recipient or is counted as lost: the waiting events and the rings are all that changes
(R544). -/
theorem State.holdEvent_frame (s : State) (e : EventRec) :
    ∃ rs es, s.holdEvent e = { s with cmd := { s.cmd with rings := rs, events := es } } := by
  unfold State.holdEvent
  dsimp only
  split
  · exact ⟨s.cmd.rings, _, rfl⟩
  · exact ⟨_, s.cmd.events, rfl⟩

theorem State.raise_frame (s : State) (code sev : Nat) (tos p : List Nat) :
    ∃ rs es, s.raise code sev tos p = { s with cmd := { s.cmd with rings := rs, events := es } } := by
  unfold State.raise
  induction tos generalizing s with
  | nil => exact ⟨s.cmd.rings, s.cmd.events, rfl⟩
  | cons q t ih =>
    obtain ⟨rs, es, e⟩ := State.holdEvent_frame s ⟨code, sev, q, if q = 0 then p else zeroAt (s.foreign code q p) p⟩
    obtain ⟨rs', es', e'⟩ := ih (s.holdEvent ⟨code, sev, q, if q = 0 then p else zeroAt (s.foreign code q p) p⟩)
    exact ⟨rs', es', by rw [List.foldl_cons, e', e]⟩

theorem State.recordNow_frame (s : State) (code sev part sk si p0 p1 p2 p3 : Nat) (tos : List Nat) :
    ∃ l rs es, s.recordNow code sev part sk si p0 p1 p2 p3 tos =
      { s with log := l, cmd := { s.cmd with rings := rs, events := es } } := by
  unfold State.recordNow
  dsimp only
  split
  · exact ⟨_, s.cmd.rings, s.cmd.events, rfl⟩
  · obtain ⟨rs, es, e⟩ := State.raise_frame ({ s with log := ((s.log.setMs code (sk * 2 ^ 28 + si)
      ((s.log.msCount code (sk * 2 ^ 28 + si)).1 + 1) (s.log.msCount code (sk * 2 ^ 28 + si)).2).enter {
        part := part, island := !s.pkg.ready, eventSent := !tos.isEmpty, timeFree := s.time.mode != .locked,
        sev := sev, code := code, srcKind := sk, srcIndex := si, time := s.sysTime, p0 := wrap32 p0,
        p1 := wrap32 p1, p2 := wrap32 p2, p3 := wrap32 p3 } s.clk) } : State)
      code sev tos [wrap32 p0, wrap32 p1, wrap32 p2, wrap32 p3]
    exact ⟨_, rs, es, e⟩

theorem State.endMs_frame (s : State) :
    ∃ l rs es, s.endMs = { s with log := l, cmd := { s.cmd with rings := rs, events := es } } := by
  unfold State.endMs
  dsimp only
  split
  · exact ⟨s.log, s.cmd.rings, s.cmd.events, rfl⟩
  · generalize hu : ({ s with log := { s.log with perMs := [], msIndex := s.clk / 1000000 } } : State) = u
    have hs : ∃ l rs es, u = { s with log := l, cmd := { s.cmd with rings := rs, events := es } } :=
      ⟨_, s.cmd.rings, s.cmd.events, hu.symm⟩
    clear hu
    generalize s.log.perMs.reverse.filter _ = cut
    induction cut generalizing u with
    | nil => exact hs
    | cons e t ih =>
      refine ih _ ?_
      obtain ⟨l, rs, es, rfl⟩ := hs
      obtain ⟨l', rs', es', e'⟩ := State.recordNow_frame
        ({ s with log := l, cmd := { s.cmd with rings := rs, events := es } } : State)
        0x0D06 1 0xFF srcPackage 0 e.1 e.2.1 e.2.2.2 0 []
      exact ⟨l', rs', es', e'⟩

/-- A record with its events changes the log, the waiting events and the rings' counts of lost ones: no other part of
the machine (R580 to R586). -/
theorem State.record_frame (s : State) (code sev part sk si p0 p1 p2 p3 : Nat) (tos : List Nat) :
    ∃ l rs es, s.record code sev part sk si p0 p1 p2 p3 tos =
      { s with log := l, cmd := { s.cmd with rings := rs, events := es } } := by
  obtain ⟨l, rs, es, e⟩ := State.endMs_frame s
  obtain ⟨l', rs', es', e'⟩ := State.recordNow_frame s.endMs code sev part sk si p0 p1 p2 p3 tos
  exact ⟨l', rs', es', by unfold State.record; rw [e', e]⟩

end Sys2Proof.Machine
end

