-- ==== Sys2Proof/Laws/State.lean ====
section
/-! SUPPORT. What each update of one part of the state leaves as it was, and a read after an update. -/

namespace Sys2Proof.Machine

@[simp] theorem State.updPart_pkg (s : State) (p : Nat) (f : Partition → Partition) : (State.updPart s p f).pkg = s.pkg := rfl
@[simp] theorem State.updPart_own (s : State) (p : Nat) (f : Partition → Partition) : (State.updPart s p f).own = s.own := rfl
@[simp] theorem State.updPart_cmd (s : State) (p : Nat) (f : Partition → Partition) : (State.updPart s p f).cmd = s.cmd := rfl
@[simp] theorem State.updPart_log (s : State) (p : Nat) (f : Partition → Partition) : (State.updPart s p f).log = s.log := rfl
@[simp] theorem State.updPart_pwr (s : State) (p : Nat) (f : Partition → Partition) : (State.updPart s p f).pwr = s.pwr := rfl
@[simp] theorem State.updPart_nor (s : State) (p : Nat) (f : Partition → Partition) : (State.updPart s p f).nor = s.nor := rfl
@[simp] theorem State.updPart_dbg (s : State) (p : Nat) (f : Partition → Partition) : (State.updPart s p f).dbg = s.dbg := rfl
@[simp] theorem State.updPart_board (s : State) (p : Nat) (f : Partition → Partition) : (State.updPart s p f).board = s.board := rfl
@[simp] theorem State.updPart_time (s : State) (p : Nat) (f : Partition → Partition) : (State.updPart s p f).time = s.time := rfl
@[simp] theorem State.updPart_mem (s : State) (p : Nat) (f : Partition → Partition) : (State.updPart s p f).mem = s.mem := rfl
@[simp] theorem State.updPart_cpu (s : State) (p : Nat) (f : Partition → Partition) : (State.updPart s p f).cpu = s.cpu := rfl
@[simp] theorem State.updPart_fab (s : State) (p : Nat) (f : Partition → Partition) : (State.updPart s p f).fab = s.fab := rfl
@[simp] theorem State.updPart_quay (s : State) (p : Nat) (f : Partition → Partition) : (State.updPart s p f).quay = s.quay := rfl
@[simp] theorem State.updPart_link (s : State) (p : Nat) (f : Partition → Partition) : (State.updPart s p f).link = s.link := rfl
@[simp] theorem State.updPart_pipe (s : State) (p : Nat) (f : Partition → Partition) : (State.updPart s p f).pipe = s.pipe := rfl
@[simp] theorem State.updPart_coll (s : State) (p : Nat) (f : Partition → Partition) : (State.updPart s p f).coll = s.coll := rfl
@[simp] theorem State.updPart_serv (s : State) (p : Nat) (f : Partition → Partition) : (State.updPart s p f).serv = s.serv := rfl
@[simp] theorem State.updPart_clk (s : State) (p : Nat) (f : Partition → Partition) : (State.updPart s p f).clk = s.clk := rfl
@[simp] theorem State.updPart_fresh (s : State) (p : Nat) (f : Partition → Partition) : (State.updPart s p f).fresh = s.fresh := rfl
@[simp] theorem State.updPart_pending (s : State) (p : Nat) (f : Partition → Partition) : (State.updPart s p f).pending = s.pending := rfl

@[simp] theorem State.updMeter_pkg (s : State) (p : Nat) (f : Meters → Meters) : (State.updMeter s p f).pkg = s.pkg := rfl
@[simp] theorem State.updMeter_own (s : State) (p : Nat) (f : Meters → Meters) : (State.updMeter s p f).own = s.own := rfl
@[simp] theorem State.updMeter_cmd (s : State) (p : Nat) (f : Meters → Meters) : (State.updMeter s p f).cmd = s.cmd := rfl
@[simp] theorem State.updMeter_log (s : State) (p : Nat) (f : Meters → Meters) : (State.updMeter s p f).log = s.log := rfl
@[simp] theorem State.updMeter_pwr (s : State) (p : Nat) (f : Meters → Meters) : (State.updMeter s p f).pwr = s.pwr := rfl
@[simp] theorem State.updMeter_nor (s : State) (p : Nat) (f : Meters → Meters) : (State.updMeter s p f).nor = s.nor := rfl
@[simp] theorem State.updMeter_dbg (s : State) (p : Nat) (f : Meters → Meters) : (State.updMeter s p f).dbg = s.dbg := rfl
@[simp] theorem State.updMeter_board (s : State) (p : Nat) (f : Meters → Meters) : (State.updMeter s p f).board = s.board := rfl
@[simp] theorem State.updMeter_time (s : State) (p : Nat) (f : Meters → Meters) : (State.updMeter s p f).time = s.time := rfl
@[simp] theorem State.updMeter_mem (s : State) (p : Nat) (f : Meters → Meters) : (State.updMeter s p f).mem = s.mem := rfl
@[simp] theorem State.updMeter_cpu (s : State) (p : Nat) (f : Meters → Meters) : (State.updMeter s p f).cpu = s.cpu := rfl
@[simp] theorem State.updMeter_fab (s : State) (p : Nat) (f : Meters → Meters) : (State.updMeter s p f).fab = s.fab := rfl
@[simp] theorem State.updMeter_quay (s : State) (p : Nat) (f : Meters → Meters) : (State.updMeter s p f).quay = s.quay := rfl
@[simp] theorem State.updMeter_link (s : State) (p : Nat) (f : Meters → Meters) : (State.updMeter s p f).link = s.link := rfl
@[simp] theorem State.updMeter_pipe (s : State) (p : Nat) (f : Meters → Meters) : (State.updMeter s p f).pipe = s.pipe := rfl
@[simp] theorem State.updMeter_coll (s : State) (p : Nat) (f : Meters → Meters) : (State.updMeter s p f).coll = s.coll := rfl
@[simp] theorem State.updMeter_serv (s : State) (p : Nat) (f : Meters → Meters) : (State.updMeter s p f).serv = s.serv := rfl
@[simp] theorem State.updMeter_clk (s : State) (p : Nat) (f : Meters → Meters) : (State.updMeter s p f).clk = s.clk := rfl
@[simp] theorem State.updMeter_fresh (s : State) (p : Nat) (f : Meters → Meters) : (State.updMeter s p f).fresh = s.fresh := rfl
@[simp] theorem State.updMeter_pending (s : State) (p : Nat) (f : Meters → Meters) : (State.updMeter s p f).pending = s.pending := rfl

@[simp] theorem State.setCore_pkg (s : State) (c : Nat) (k : Core) : (State.setCore s c k).pkg = s.pkg := rfl
@[simp] theorem State.setCore_own (s : State) (c : Nat) (k : Core) : (State.setCore s c k).own = s.own := rfl
@[simp] theorem State.setCore_cmd (s : State) (c : Nat) (k : Core) : (State.setCore s c k).cmd = s.cmd := rfl
@[simp] theorem State.setCore_log (s : State) (c : Nat) (k : Core) : (State.setCore s c k).log = s.log := rfl
@[simp] theorem State.setCore_pwr (s : State) (c : Nat) (k : Core) : (State.setCore s c k).pwr = s.pwr := rfl
@[simp] theorem State.setCore_nor (s : State) (c : Nat) (k : Core) : (State.setCore s c k).nor = s.nor := rfl
@[simp] theorem State.setCore_dbg (s : State) (c : Nat) (k : Core) : (State.setCore s c k).dbg = s.dbg := rfl
@[simp] theorem State.setCore_board (s : State) (c : Nat) (k : Core) : (State.setCore s c k).board = s.board := rfl
@[simp] theorem State.setCore_time (s : State) (c : Nat) (k : Core) : (State.setCore s c k).time = s.time := rfl
@[simp] theorem State.setCore_mem (s : State) (c : Nat) (k : Core) : (State.setCore s c k).mem = s.mem := rfl
@[simp] theorem State.setCore_ten (s : State) (c : Nat) (k : Core) : (State.setCore s c k).ten = s.ten := rfl
@[simp] theorem State.setCore_fab (s : State) (c : Nat) (k : Core) : (State.setCore s c k).fab = s.fab := rfl
@[simp] theorem State.setCore_quay (s : State) (c : Nat) (k : Core) : (State.setCore s c k).quay = s.quay := rfl
@[simp] theorem State.setCore_link (s : State) (c : Nat) (k : Core) : (State.setCore s c k).link = s.link := rfl
@[simp] theorem State.setCore_pipe (s : State) (c : Nat) (k : Core) : (State.setCore s c k).pipe = s.pipe := rfl
@[simp] theorem State.setCore_coll (s : State) (c : Nat) (k : Core) : (State.setCore s c k).coll = s.coll := rfl
@[simp] theorem State.setCore_serv (s : State) (c : Nat) (k : Core) : (State.setCore s c k).serv = s.serv := rfl
@[simp] theorem State.setCore_clk (s : State) (c : Nat) (k : Core) : (State.setCore s c k).clk = s.clk := rfl
@[simp] theorem State.setCore_fresh (s : State) (c : Nat) (k : Core) : (State.setCore s c k).fresh = s.fresh := rfl
@[simp] theorem State.setCore_pending (s : State) (c : Nat) (k : Core) : (State.setCore s c k).pending = s.pending := rfl

@[simp] theorem State.updCore_pkg (s : State) (c : Nat) (f : Core → Core) : (State.updCore s c f).pkg = s.pkg := rfl
@[simp] theorem State.updCore_own (s : State) (c : Nat) (f : Core → Core) : (State.updCore s c f).own = s.own := rfl
@[simp] theorem State.updCore_cmd (s : State) (c : Nat) (f : Core → Core) : (State.updCore s c f).cmd = s.cmd := rfl
@[simp] theorem State.updCore_log (s : State) (c : Nat) (f : Core → Core) : (State.updCore s c f).log = s.log := rfl
@[simp] theorem State.updCore_pwr (s : State) (c : Nat) (f : Core → Core) : (State.updCore s c f).pwr = s.pwr := rfl
@[simp] theorem State.updCore_nor (s : State) (c : Nat) (f : Core → Core) : (State.updCore s c f).nor = s.nor := rfl
@[simp] theorem State.updCore_dbg (s : State) (c : Nat) (f : Core → Core) : (State.updCore s c f).dbg = s.dbg := rfl
@[simp] theorem State.updCore_board (s : State) (c : Nat) (f : Core → Core) : (State.updCore s c f).board = s.board := rfl
@[simp] theorem State.updCore_time (s : State) (c : Nat) (f : Core → Core) : (State.updCore s c f).time = s.time := rfl
@[simp] theorem State.updCore_mem (s : State) (c : Nat) (f : Core → Core) : (State.updCore s c f).mem = s.mem := rfl
@[simp] theorem State.updCore_ten (s : State) (c : Nat) (f : Core → Core) : (State.updCore s c f).ten = s.ten := rfl
@[simp] theorem State.updCore_fab (s : State) (c : Nat) (f : Core → Core) : (State.updCore s c f).fab = s.fab := rfl
@[simp] theorem State.updCore_quay (s : State) (c : Nat) (f : Core → Core) : (State.updCore s c f).quay = s.quay := rfl
@[simp] theorem State.updCore_link (s : State) (c : Nat) (f : Core → Core) : (State.updCore s c f).link = s.link := rfl
@[simp] theorem State.updCore_pipe (s : State) (c : Nat) (f : Core → Core) : (State.updCore s c f).pipe = s.pipe := rfl
@[simp] theorem State.updCore_coll (s : State) (c : Nat) (f : Core → Core) : (State.updCore s c f).coll = s.coll := rfl
@[simp] theorem State.updCore_serv (s : State) (c : Nat) (f : Core → Core) : (State.updCore s c f).serv = s.serv := rfl
@[simp] theorem State.updCore_clk (s : State) (c : Nat) (f : Core → Core) : (State.updCore s c f).clk = s.clk := rfl
@[simp] theorem State.updCore_fresh (s : State) (c : Nat) (f : Core → Core) : (State.updCore s c f).fresh = s.fresh := rfl
@[simp] theorem State.updCore_pending (s : State) (c : Nat) (f : Core → Core) : (State.updCore s c f).pending = s.pending := rfl

@[simp] theorem State.updCtrl_pkg (s : State) (u : Nat) (f : MemCtrl → MemCtrl) : (State.updCtrl s u f).pkg = s.pkg := rfl
@[simp] theorem State.updCtrl_own (s : State) (u : Nat) (f : MemCtrl → MemCtrl) : (State.updCtrl s u f).own = s.own := rfl
@[simp] theorem State.updCtrl_cmd (s : State) (u : Nat) (f : MemCtrl → MemCtrl) : (State.updCtrl s u f).cmd = s.cmd := rfl
@[simp] theorem State.updCtrl_log (s : State) (u : Nat) (f : MemCtrl → MemCtrl) : (State.updCtrl s u f).log = s.log := rfl
@[simp] theorem State.updCtrl_pwr (s : State) (u : Nat) (f : MemCtrl → MemCtrl) : (State.updCtrl s u f).pwr = s.pwr := rfl
@[simp] theorem State.updCtrl_nor (s : State) (u : Nat) (f : MemCtrl → MemCtrl) : (State.updCtrl s u f).nor = s.nor := rfl
@[simp] theorem State.updCtrl_dbg (s : State) (u : Nat) (f : MemCtrl → MemCtrl) : (State.updCtrl s u f).dbg = s.dbg := rfl
@[simp] theorem State.updCtrl_board (s : State) (u : Nat) (f : MemCtrl → MemCtrl) : (State.updCtrl s u f).board = s.board := rfl
@[simp] theorem State.updCtrl_time (s : State) (u : Nat) (f : MemCtrl → MemCtrl) : (State.updCtrl s u f).time = s.time := rfl
@[simp] theorem State.updCtrl_ten (s : State) (u : Nat) (f : MemCtrl → MemCtrl) : (State.updCtrl s u f).ten = s.ten := rfl
@[simp] theorem State.updCtrl_cpu (s : State) (u : Nat) (f : MemCtrl → MemCtrl) : (State.updCtrl s u f).cpu = s.cpu := rfl
@[simp] theorem State.updCtrl_fab (s : State) (u : Nat) (f : MemCtrl → MemCtrl) : (State.updCtrl s u f).fab = s.fab := rfl
@[simp] theorem State.updCtrl_quay (s : State) (u : Nat) (f : MemCtrl → MemCtrl) : (State.updCtrl s u f).quay = s.quay := rfl
@[simp] theorem State.updCtrl_link (s : State) (u : Nat) (f : MemCtrl → MemCtrl) : (State.updCtrl s u f).link = s.link := rfl
@[simp] theorem State.updCtrl_pipe (s : State) (u : Nat) (f : MemCtrl → MemCtrl) : (State.updCtrl s u f).pipe = s.pipe := rfl
@[simp] theorem State.updCtrl_coll (s : State) (u : Nat) (f : MemCtrl → MemCtrl) : (State.updCtrl s u f).coll = s.coll := rfl
@[simp] theorem State.updCtrl_serv (s : State) (u : Nat) (f : MemCtrl → MemCtrl) : (State.updCtrl s u f).serv = s.serv := rfl
@[simp] theorem State.updCtrl_clk (s : State) (u : Nat) (f : MemCtrl → MemCtrl) : (State.updCtrl s u f).clk = s.clk := rfl
@[simp] theorem State.updCtrl_fresh (s : State) (u : Nat) (f : MemCtrl → MemCtrl) : (State.updCtrl s u f).fresh = s.fresh := rfl
@[simp] theorem State.updCtrl_pending (s : State) (u : Nat) (f : MemCtrl → MemCtrl) : (State.updCtrl s u f).pending = s.pending := rfl

@[simp] theorem State.updReach_pkg (s : State) (r : Nat) (f : Reach → Reach) : (State.updReach s r f).pkg = s.pkg := rfl
@[simp] theorem State.updReach_own (s : State) (r : Nat) (f : Reach → Reach) : (State.updReach s r f).own = s.own := rfl
@[simp] theorem State.updReach_cmd (s : State) (r : Nat) (f : Reach → Reach) : (State.updReach s r f).cmd = s.cmd := rfl
@[simp] theorem State.updReach_log (s : State) (r : Nat) (f : Reach → Reach) : (State.updReach s r f).log = s.log := rfl
@[simp] theorem State.updReach_pwr (s : State) (r : Nat) (f : Reach → Reach) : (State.updReach s r f).pwr = s.pwr := rfl
@[simp] theorem State.updReach_nor (s : State) (r : Nat) (f : Reach → Reach) : (State.updReach s r f).nor = s.nor := rfl
@[simp] theorem State.updReach_dbg (s : State) (r : Nat) (f : Reach → Reach) : (State.updReach s r f).dbg = s.dbg := rfl
@[simp] theorem State.updReach_board (s : State) (r : Nat) (f : Reach → Reach) : (State.updReach s r f).board = s.board := rfl
@[simp] theorem State.updReach_time (s : State) (r : Nat) (f : Reach → Reach) : (State.updReach s r f).time = s.time := rfl
@[simp] theorem State.updReach_mem (s : State) (r : Nat) (f : Reach → Reach) : (State.updReach s r f).mem = s.mem := rfl
@[simp] theorem State.updReach_ten (s : State) (r : Nat) (f : Reach → Reach) : (State.updReach s r f).ten = s.ten := rfl
@[simp] theorem State.updReach_cpu (s : State) (r : Nat) (f : Reach → Reach) : (State.updReach s r f).cpu = s.cpu := rfl
@[simp] theorem State.updReach_quay (s : State) (r : Nat) (f : Reach → Reach) : (State.updReach s r f).quay = s.quay := rfl
@[simp] theorem State.updReach_link (s : State) (r : Nat) (f : Reach → Reach) : (State.updReach s r f).link = s.link := rfl
@[simp] theorem State.updReach_pipe (s : State) (r : Nat) (f : Reach → Reach) : (State.updReach s r f).pipe = s.pipe := rfl
@[simp] theorem State.updReach_coll (s : State) (r : Nat) (f : Reach → Reach) : (State.updReach s r f).coll = s.coll := rfl
@[simp] theorem State.updReach_serv (s : State) (r : Nat) (f : Reach → Reach) : (State.updReach s r f).serv = s.serv := rfl
@[simp] theorem State.updReach_clk (s : State) (r : Nat) (f : Reach → Reach) : (State.updReach s r f).clk = s.clk := rfl
@[simp] theorem State.updReach_fresh (s : State) (r : Nat) (f : Reach → Reach) : (State.updReach s r f).fresh = s.fresh := rfl
@[simp] theorem State.updReach_pending (s : State) (r : Nat) (f : Reach → Reach) : (State.updReach s r f).pending = s.pending := rfl

@[simp] theorem State.updJunction_pkg (s : State) (r q : Nat) (f : Junction → Junction) : (State.updJunction s r q f).pkg = s.pkg := rfl
@[simp] theorem State.updJunction_own (s : State) (r q : Nat) (f : Junction → Junction) : (State.updJunction s r q f).own = s.own := rfl
@[simp] theorem State.updJunction_cmd (s : State) (r q : Nat) (f : Junction → Junction) : (State.updJunction s r q f).cmd = s.cmd := rfl
@[simp] theorem State.updJunction_log (s : State) (r q : Nat) (f : Junction → Junction) : (State.updJunction s r q f).log = s.log := rfl
@[simp] theorem State.updJunction_pwr (s : State) (r q : Nat) (f : Junction → Junction) : (State.updJunction s r q f).pwr = s.pwr := rfl
@[simp] theorem State.updJunction_nor (s : State) (r q : Nat) (f : Junction → Junction) : (State.updJunction s r q f).nor = s.nor := rfl
@[simp] theorem State.updJunction_dbg (s : State) (r q : Nat) (f : Junction → Junction) : (State.updJunction s r q f).dbg = s.dbg := rfl
@[simp] theorem State.updJunction_board (s : State) (r q : Nat) (f : Junction → Junction) : (State.updJunction s r q f).board = s.board := rfl
@[simp] theorem State.updJunction_time (s : State) (r q : Nat) (f : Junction → Junction) : (State.updJunction s r q f).time = s.time := rfl
@[simp] theorem State.updJunction_mem (s : State) (r q : Nat) (f : Junction → Junction) : (State.updJunction s r q f).mem = s.mem := rfl
@[simp] theorem State.updJunction_ten (s : State) (r q : Nat) (f : Junction → Junction) : (State.updJunction s r q f).ten = s.ten := rfl
@[simp] theorem State.updJunction_cpu (s : State) (r q : Nat) (f : Junction → Junction) : (State.updJunction s r q f).cpu = s.cpu := rfl
@[simp] theorem State.updJunction_quay (s : State) (r q : Nat) (f : Junction → Junction) : (State.updJunction s r q f).quay = s.quay := rfl
@[simp] theorem State.updJunction_link (s : State) (r q : Nat) (f : Junction → Junction) : (State.updJunction s r q f).link = s.link := rfl
@[simp] theorem State.updJunction_pipe (s : State) (r q : Nat) (f : Junction → Junction) : (State.updJunction s r q f).pipe = s.pipe := rfl
@[simp] theorem State.updJunction_coll (s : State) (r q : Nat) (f : Junction → Junction) : (State.updJunction s r q f).coll = s.coll := rfl
@[simp] theorem State.updJunction_serv (s : State) (r q : Nat) (f : Junction → Junction) : (State.updJunction s r q f).serv = s.serv := rfl
@[simp] theorem State.updJunction_clk (s : State) (r q : Nat) (f : Junction → Junction) : (State.updJunction s r q f).clk = s.clk := rfl
@[simp] theorem State.updJunction_fresh (s : State) (r q : Nat) (f : Junction → Junction) : (State.updJunction s r q f).fresh = s.fresh := rfl
@[simp] theorem State.updJunction_pending (s : State) (r q : Nat) (f : Junction → Junction) : (State.updJunction s r q f).pending = s.pending := rfl

@[simp] theorem State.updDomain_pkg (s : State) (d : Nat) (f : Domain → Domain) : (State.updDomain s d f).pkg = s.pkg := rfl
@[simp] theorem State.updDomain_own (s : State) (d : Nat) (f : Domain → Domain) : (State.updDomain s d f).own = s.own := rfl
@[simp] theorem State.updDomain_cmd (s : State) (d : Nat) (f : Domain → Domain) : (State.updDomain s d f).cmd = s.cmd := rfl
@[simp] theorem State.updDomain_log (s : State) (d : Nat) (f : Domain → Domain) : (State.updDomain s d f).log = s.log := rfl
@[simp] theorem State.updDomain_nor (s : State) (d : Nat) (f : Domain → Domain) : (State.updDomain s d f).nor = s.nor := rfl
@[simp] theorem State.updDomain_dbg (s : State) (d : Nat) (f : Domain → Domain) : (State.updDomain s d f).dbg = s.dbg := rfl
@[simp] theorem State.updDomain_board (s : State) (d : Nat) (f : Domain → Domain) : (State.updDomain s d f).board = s.board := rfl
@[simp] theorem State.updDomain_time (s : State) (d : Nat) (f : Domain → Domain) : (State.updDomain s d f).time = s.time := rfl
@[simp] theorem State.updDomain_mem (s : State) (d : Nat) (f : Domain → Domain) : (State.updDomain s d f).mem = s.mem := rfl
@[simp] theorem State.updDomain_ten (s : State) (d : Nat) (f : Domain → Domain) : (State.updDomain s d f).ten = s.ten := rfl
@[simp] theorem State.updDomain_cpu (s : State) (d : Nat) (f : Domain → Domain) : (State.updDomain s d f).cpu = s.cpu := rfl
@[simp] theorem State.updDomain_fab (s : State) (d : Nat) (f : Domain → Domain) : (State.updDomain s d f).fab = s.fab := rfl
@[simp] theorem State.updDomain_quay (s : State) (d : Nat) (f : Domain → Domain) : (State.updDomain s d f).quay = s.quay := rfl
@[simp] theorem State.updDomain_link (s : State) (d : Nat) (f : Domain → Domain) : (State.updDomain s d f).link = s.link := rfl
@[simp] theorem State.updDomain_pipe (s : State) (d : Nat) (f : Domain → Domain) : (State.updDomain s d f).pipe = s.pipe := rfl
@[simp] theorem State.updDomain_coll (s : State) (d : Nat) (f : Domain → Domain) : (State.updDomain s d f).coll = s.coll := rfl
@[simp] theorem State.updDomain_serv (s : State) (d : Nat) (f : Domain → Domain) : (State.updDomain s d f).serv = s.serv := rfl
@[simp] theorem State.updDomain_clk (s : State) (d : Nat) (f : Domain → Domain) : (State.updDomain s d f).clk = s.clk := rfl
@[simp] theorem State.updDomain_fresh (s : State) (d : Nat) (f : Domain → Domain) : (State.updDomain s d f).fresh = s.fresh := rfl
@[simp] theorem State.updDomain_pending (s : State) (d : Nat) (f : Domain → Domain) : (State.updDomain s d f).pending = s.pending := rfl

@[simp] theorem State.updRing_pkg (s : State) (r : Nat) (f : Ring → Ring) : (State.updRing s r f).pkg = s.pkg := rfl
@[simp] theorem State.updRing_own (s : State) (r : Nat) (f : Ring → Ring) : (State.updRing s r f).own = s.own := rfl
@[simp] theorem State.updRing_log (s : State) (r : Nat) (f : Ring → Ring) : (State.updRing s r f).log = s.log := rfl
@[simp] theorem State.updRing_pwr (s : State) (r : Nat) (f : Ring → Ring) : (State.updRing s r f).pwr = s.pwr := rfl
@[simp] theorem State.updRing_nor (s : State) (r : Nat) (f : Ring → Ring) : (State.updRing s r f).nor = s.nor := rfl
@[simp] theorem State.updRing_dbg (s : State) (r : Nat) (f : Ring → Ring) : (State.updRing s r f).dbg = s.dbg := rfl
@[simp] theorem State.updRing_board (s : State) (r : Nat) (f : Ring → Ring) : (State.updRing s r f).board = s.board := rfl
@[simp] theorem State.updRing_time (s : State) (r : Nat) (f : Ring → Ring) : (State.updRing s r f).time = s.time := rfl
@[simp] theorem State.updRing_mem (s : State) (r : Nat) (f : Ring → Ring) : (State.updRing s r f).mem = s.mem := rfl
@[simp] theorem State.updRing_ten (s : State) (r : Nat) (f : Ring → Ring) : (State.updRing s r f).ten = s.ten := rfl
@[simp] theorem State.updRing_cpu (s : State) (r : Nat) (f : Ring → Ring) : (State.updRing s r f).cpu = s.cpu := rfl
@[simp] theorem State.updRing_fab (s : State) (r : Nat) (f : Ring → Ring) : (State.updRing s r f).fab = s.fab := rfl
@[simp] theorem State.updRing_quay (s : State) (r : Nat) (f : Ring → Ring) : (State.updRing s r f).quay = s.quay := rfl
@[simp] theorem State.updRing_link (s : State) (r : Nat) (f : Ring → Ring) : (State.updRing s r f).link = s.link := rfl
@[simp] theorem State.updRing_pipe (s : State) (r : Nat) (f : Ring → Ring) : (State.updRing s r f).pipe = s.pipe := rfl
@[simp] theorem State.updRing_coll (s : State) (r : Nat) (f : Ring → Ring) : (State.updRing s r f).coll = s.coll := rfl
@[simp] theorem State.updRing_serv (s : State) (r : Nat) (f : Ring → Ring) : (State.updRing s r f).serv = s.serv := rfl
@[simp] theorem State.updRing_clk (s : State) (r : Nat) (f : Ring → Ring) : (State.updRing s r f).clk = s.clk := rfl
@[simp] theorem State.updRing_fresh (s : State) (r : Nat) (f : Ring → Ring) : (State.updRing s r f).fresh = s.fresh := rfl
@[simp] theorem State.updRing_pending (s : State) (r : Nat) (f : Ring → Ring) : (State.updRing s r f).pending = s.pending := rfl

@[simp] theorem State.updMbox_pkg (s : State) (m : Nat) (f : Mailbox → Mailbox) : (State.updMbox s m f).pkg = s.pkg := rfl
@[simp] theorem State.updMbox_own (s : State) (m : Nat) (f : Mailbox → Mailbox) : (State.updMbox s m f).own = s.own := rfl
@[simp] theorem State.updMbox_log (s : State) (m : Nat) (f : Mailbox → Mailbox) : (State.updMbox s m f).log = s.log := rfl
@[simp] theorem State.updMbox_pwr (s : State) (m : Nat) (f : Mailbox → Mailbox) : (State.updMbox s m f).pwr = s.pwr := rfl
@[simp] theorem State.updMbox_nor (s : State) (m : Nat) (f : Mailbox → Mailbox) : (State.updMbox s m f).nor = s.nor := rfl
@[simp] theorem State.updMbox_dbg (s : State) (m : Nat) (f : Mailbox → Mailbox) : (State.updMbox s m f).dbg = s.dbg := rfl
@[simp] theorem State.updMbox_board (s : State) (m : Nat) (f : Mailbox → Mailbox) : (State.updMbox s m f).board = s.board := rfl
@[simp] theorem State.updMbox_time (s : State) (m : Nat) (f : Mailbox → Mailbox) : (State.updMbox s m f).time = s.time := rfl
@[simp] theorem State.updMbox_mem (s : State) (m : Nat) (f : Mailbox → Mailbox) : (State.updMbox s m f).mem = s.mem := rfl
@[simp] theorem State.updMbox_ten (s : State) (m : Nat) (f : Mailbox → Mailbox) : (State.updMbox s m f).ten = s.ten := rfl
@[simp] theorem State.updMbox_cpu (s : State) (m : Nat) (f : Mailbox → Mailbox) : (State.updMbox s m f).cpu = s.cpu := rfl
@[simp] theorem State.updMbox_fab (s : State) (m : Nat) (f : Mailbox → Mailbox) : (State.updMbox s m f).fab = s.fab := rfl
@[simp] theorem State.updMbox_quay (s : State) (m : Nat) (f : Mailbox → Mailbox) : (State.updMbox s m f).quay = s.quay := rfl
@[simp] theorem State.updMbox_link (s : State) (m : Nat) (f : Mailbox → Mailbox) : (State.updMbox s m f).link = s.link := rfl
@[simp] theorem State.updMbox_pipe (s : State) (m : Nat) (f : Mailbox → Mailbox) : (State.updMbox s m f).pipe = s.pipe := rfl
@[simp] theorem State.updMbox_coll (s : State) (m : Nat) (f : Mailbox → Mailbox) : (State.updMbox s m f).coll = s.coll := rfl
@[simp] theorem State.updMbox_serv (s : State) (m : Nat) (f : Mailbox → Mailbox) : (State.updMbox s m f).serv = s.serv := rfl
@[simp] theorem State.updMbox_clk (s : State) (m : Nat) (f : Mailbox → Mailbox) : (State.updMbox s m f).clk = s.clk := rfl
@[simp] theorem State.updMbox_fresh (s : State) (m : Nat) (f : Mailbox → Mailbox) : (State.updMbox s m f).fresh = s.fresh := rfl
@[simp] theorem State.updMbox_pending (s : State) (m : Nat) (f : Mailbox → Mailbox) : (State.updMbox s m f).pending = s.pending := rfl

@[simp] theorem State.updFlight_pkg (s : State) (id : Nat) (g : Flight → Flight) : (State.updFlight s id g).pkg = s.pkg := rfl
@[simp] theorem State.updFlight_own (s : State) (id : Nat) (g : Flight → Flight) : (State.updFlight s id g).own = s.own := rfl
@[simp] theorem State.updFlight_log (s : State) (id : Nat) (g : Flight → Flight) : (State.updFlight s id g).log = s.log := rfl
@[simp] theorem State.updFlight_pwr (s : State) (id : Nat) (g : Flight → Flight) : (State.updFlight s id g).pwr = s.pwr := rfl
@[simp] theorem State.updFlight_nor (s : State) (id : Nat) (g : Flight → Flight) : (State.updFlight s id g).nor = s.nor := rfl
@[simp] theorem State.updFlight_dbg (s : State) (id : Nat) (g : Flight → Flight) : (State.updFlight s id g).dbg = s.dbg := rfl
@[simp] theorem State.updFlight_board (s : State) (id : Nat) (g : Flight → Flight) : (State.updFlight s id g).board = s.board := rfl
@[simp] theorem State.updFlight_time (s : State) (id : Nat) (g : Flight → Flight) : (State.updFlight s id g).time = s.time := rfl
@[simp] theorem State.updFlight_mem (s : State) (id : Nat) (g : Flight → Flight) : (State.updFlight s id g).mem = s.mem := rfl
@[simp] theorem State.updFlight_ten (s : State) (id : Nat) (g : Flight → Flight) : (State.updFlight s id g).ten = s.ten := rfl
@[simp] theorem State.updFlight_cpu (s : State) (id : Nat) (g : Flight → Flight) : (State.updFlight s id g).cpu = s.cpu := rfl
@[simp] theorem State.updFlight_fab (s : State) (id : Nat) (g : Flight → Flight) : (State.updFlight s id g).fab = s.fab := rfl
@[simp] theorem State.updFlight_quay (s : State) (id : Nat) (g : Flight → Flight) : (State.updFlight s id g).quay = s.quay := rfl
@[simp] theorem State.updFlight_link (s : State) (id : Nat) (g : Flight → Flight) : (State.updFlight s id g).link = s.link := rfl
@[simp] theorem State.updFlight_pipe (s : State) (id : Nat) (g : Flight → Flight) : (State.updFlight s id g).pipe = s.pipe := rfl
@[simp] theorem State.updFlight_coll (s : State) (id : Nat) (g : Flight → Flight) : (State.updFlight s id g).coll = s.coll := rfl
@[simp] theorem State.updFlight_serv (s : State) (id : Nat) (g : Flight → Flight) : (State.updFlight s id g).serv = s.serv := rfl
@[simp] theorem State.updFlight_clk (s : State) (id : Nat) (g : Flight → Flight) : (State.updFlight s id g).clk = s.clk := rfl
@[simp] theorem State.updFlight_fresh (s : State) (id : Nat) (g : Flight → Flight) : (State.updFlight s id g).fresh = s.fresh := rfl
@[simp] theorem State.updFlight_pending (s : State) (id : Nat) (g : Flight → Flight) : (State.updFlight s id g).pending = s.pending := rfl

@[simp] theorem State.accept_pkg (s : State) (path : Path) (pk : Packet) (sqHead : Nat) (m : Option Master) : (State.accept s path pk sqHead m).pkg = s.pkg := rfl
@[simp] theorem State.accept_own (s : State) (path : Path) (pk : Packet) (sqHead : Nat) (m : Option Master) : (State.accept s path pk sqHead m).own = s.own := rfl
@[simp] theorem State.accept_log (s : State) (path : Path) (pk : Packet) (sqHead : Nat) (m : Option Master) : (State.accept s path pk sqHead m).log = s.log := rfl
@[simp] theorem State.accept_pwr (s : State) (path : Path) (pk : Packet) (sqHead : Nat) (m : Option Master) : (State.accept s path pk sqHead m).pwr = s.pwr := rfl
@[simp] theorem State.accept_nor (s : State) (path : Path) (pk : Packet) (sqHead : Nat) (m : Option Master) : (State.accept s path pk sqHead m).nor = s.nor := rfl
@[simp] theorem State.accept_dbg (s : State) (path : Path) (pk : Packet) (sqHead : Nat) (m : Option Master) : (State.accept s path pk sqHead m).dbg = s.dbg := rfl
@[simp] theorem State.accept_board (s : State) (path : Path) (pk : Packet) (sqHead : Nat) (m : Option Master) : (State.accept s path pk sqHead m).board = s.board := rfl
@[simp] theorem State.accept_time (s : State) (path : Path) (pk : Packet) (sqHead : Nat) (m : Option Master) : (State.accept s path pk sqHead m).time = s.time := rfl
@[simp] theorem State.accept_mem (s : State) (path : Path) (pk : Packet) (sqHead : Nat) (m : Option Master) : (State.accept s path pk sqHead m).mem = s.mem := rfl
@[simp] theorem State.accept_ten (s : State) (path : Path) (pk : Packet) (sqHead : Nat) (m : Option Master) : (State.accept s path pk sqHead m).ten = s.ten := rfl
@[simp] theorem State.accept_cpu (s : State) (path : Path) (pk : Packet) (sqHead : Nat) (m : Option Master) : (State.accept s path pk sqHead m).cpu = s.cpu := rfl
@[simp] theorem State.accept_fab (s : State) (path : Path) (pk : Packet) (sqHead : Nat) (m : Option Master) : (State.accept s path pk sqHead m).fab = s.fab := rfl
@[simp] theorem State.accept_quay (s : State) (path : Path) (pk : Packet) (sqHead : Nat) (m : Option Master) : (State.accept s path pk sqHead m).quay = s.quay := rfl
@[simp] theorem State.accept_link (s : State) (path : Path) (pk : Packet) (sqHead : Nat) (m : Option Master) : (State.accept s path pk sqHead m).link = s.link := rfl
@[simp] theorem State.accept_pipe (s : State) (path : Path) (pk : Packet) (sqHead : Nat) (m : Option Master) : (State.accept s path pk sqHead m).pipe = s.pipe := rfl
@[simp] theorem State.accept_coll (s : State) (path : Path) (pk : Packet) (sqHead : Nat) (m : Option Master) : (State.accept s path pk sqHead m).coll = s.coll := rfl
@[simp] theorem State.accept_serv (s : State) (path : Path) (pk : Packet) (sqHead : Nat) (m : Option Master) : (State.accept s path pk sqHead m).serv = s.serv := rfl
@[simp] theorem State.accept_clk (s : State) (path : Path) (pk : Packet) (sqHead : Nat) (m : Option Master) : (State.accept s path pk sqHead m).clk = s.clk := rfl
@[simp] theorem State.accept_fresh (s : State) (path : Path) (pk : Packet) (sqHead : Nat) (m : Option Master) : (State.accept s path pk sqHead m).fresh = s.fresh := rfl
@[simp] theorem State.accept_pending (s : State) (path : Path) (pk : Packet) (sqHead : Nat) (m : Option Master) : (State.accept s path pk sqHead m).pending = s.pending := rfl

@[simp] theorem State.commitRaw_pkg (s : State) (id : Nat) (path : Path) (pk : Packet) (sqHead status : Nat) (res : List Nat) : (State.commitRaw s id path pk sqHead status res).pkg = s.pkg := rfl
@[simp] theorem State.commitRaw_own (s : State) (id : Nat) (path : Path) (pk : Packet) (sqHead status : Nat) (res : List Nat) : (State.commitRaw s id path pk sqHead status res).own = s.own := rfl
@[simp] theorem State.commitRaw_log (s : State) (id : Nat) (path : Path) (pk : Packet) (sqHead status : Nat) (res : List Nat) : (State.commitRaw s id path pk sqHead status res).log = s.log := rfl
@[simp] theorem State.commitRaw_pwr (s : State) (id : Nat) (path : Path) (pk : Packet) (sqHead status : Nat) (res : List Nat) : (State.commitRaw s id path pk sqHead status res).pwr = s.pwr := rfl
@[simp] theorem State.commitRaw_nor (s : State) (id : Nat) (path : Path) (pk : Packet) (sqHead status : Nat) (res : List Nat) : (State.commitRaw s id path pk sqHead status res).nor = s.nor := rfl
@[simp] theorem State.commitRaw_dbg (s : State) (id : Nat) (path : Path) (pk : Packet) (sqHead status : Nat) (res : List Nat) : (State.commitRaw s id path pk sqHead status res).dbg = s.dbg := rfl
@[simp] theorem State.commitRaw_board (s : State) (id : Nat) (path : Path) (pk : Packet) (sqHead status : Nat) (res : List Nat) : (State.commitRaw s id path pk sqHead status res).board = s.board := rfl
@[simp] theorem State.commitRaw_time (s : State) (id : Nat) (path : Path) (pk : Packet) (sqHead status : Nat) (res : List Nat) : (State.commitRaw s id path pk sqHead status res).time = s.time := rfl
@[simp] theorem State.commitRaw_mem (s : State) (id : Nat) (path : Path) (pk : Packet) (sqHead status : Nat) (res : List Nat) : (State.commitRaw s id path pk sqHead status res).mem = s.mem := rfl
@[simp] theorem State.commitRaw_ten (s : State) (id : Nat) (path : Path) (pk : Packet) (sqHead status : Nat) (res : List Nat) : (State.commitRaw s id path pk sqHead status res).ten = s.ten := rfl
@[simp] theorem State.commitRaw_cpu (s : State) (id : Nat) (path : Path) (pk : Packet) (sqHead status : Nat) (res : List Nat) : (State.commitRaw s id path pk sqHead status res).cpu = s.cpu := rfl
@[simp] theorem State.commitRaw_fab (s : State) (id : Nat) (path : Path) (pk : Packet) (sqHead status : Nat) (res : List Nat) : (State.commitRaw s id path pk sqHead status res).fab = s.fab := rfl
@[simp] theorem State.commitRaw_quay (s : State) (id : Nat) (path : Path) (pk : Packet) (sqHead status : Nat) (res : List Nat) : (State.commitRaw s id path pk sqHead status res).quay = s.quay := rfl
@[simp] theorem State.commitRaw_link (s : State) (id : Nat) (path : Path) (pk : Packet) (sqHead status : Nat) (res : List Nat) : (State.commitRaw s id path pk sqHead status res).link = s.link := rfl
@[simp] theorem State.commitRaw_pipe (s : State) (id : Nat) (path : Path) (pk : Packet) (sqHead status : Nat) (res : List Nat) : (State.commitRaw s id path pk sqHead status res).pipe = s.pipe := rfl
@[simp] theorem State.commitRaw_coll (s : State) (id : Nat) (path : Path) (pk : Packet) (sqHead status : Nat) (res : List Nat) : (State.commitRaw s id path pk sqHead status res).coll = s.coll := rfl
@[simp] theorem State.commitRaw_serv (s : State) (id : Nat) (path : Path) (pk : Packet) (sqHead status : Nat) (res : List Nat) : (State.commitRaw s id path pk sqHead status res).serv = s.serv := rfl
@[simp] theorem State.commitRaw_clk (s : State) (id : Nat) (path : Path) (pk : Packet) (sqHead status : Nat) (res : List Nat) : (State.commitRaw s id path pk sqHead status res).clk = s.clk := rfl
@[simp] theorem State.commitRaw_fresh (s : State) (id : Nat) (path : Path) (pk : Packet) (sqHead status : Nat) (res : List Nat) : (State.commitRaw s id path pk sqHead status res).fresh = s.fresh := rfl
@[simp] theorem State.commitRaw_pending (s : State) (id : Nat) (path : Path) (pk : Packet) (sqHead status : Nat) (res : List Nat) : (State.commitRaw s id path pk sqHead status res).pending = s.pending := rfl

@[simp] theorem State.updStage_pkg (s : State) (n : Nat) (f : StageSlot → StageSlot) : (State.updStage s n f).pkg = s.pkg := rfl
@[simp] theorem State.updStage_own (s : State) (n : Nat) (f : StageSlot → StageSlot) : (State.updStage s n f).own = s.own := rfl
@[simp] theorem State.updStage_cmd (s : State) (n : Nat) (f : StageSlot → StageSlot) : (State.updStage s n f).cmd = s.cmd := rfl
@[simp] theorem State.updStage_log (s : State) (n : Nat) (f : StageSlot → StageSlot) : (State.updStage s n f).log = s.log := rfl
@[simp] theorem State.updStage_pwr (s : State) (n : Nat) (f : StageSlot → StageSlot) : (State.updStage s n f).pwr = s.pwr := rfl
@[simp] theorem State.updStage_nor (s : State) (n : Nat) (f : StageSlot → StageSlot) : (State.updStage s n f).nor = s.nor := rfl
@[simp] theorem State.updStage_dbg (s : State) (n : Nat) (f : StageSlot → StageSlot) : (State.updStage s n f).dbg = s.dbg := rfl
@[simp] theorem State.updStage_board (s : State) (n : Nat) (f : StageSlot → StageSlot) : (State.updStage s n f).board = s.board := rfl
@[simp] theorem State.updStage_time (s : State) (n : Nat) (f : StageSlot → StageSlot) : (State.updStage s n f).time = s.time := rfl
@[simp] theorem State.updStage_mem (s : State) (n : Nat) (f : StageSlot → StageSlot) : (State.updStage s n f).mem = s.mem := rfl
@[simp] theorem State.updStage_ten (s : State) (n : Nat) (f : StageSlot → StageSlot) : (State.updStage s n f).ten = s.ten := rfl
@[simp] theorem State.updStage_cpu (s : State) (n : Nat) (f : StageSlot → StageSlot) : (State.updStage s n f).cpu = s.cpu := rfl
@[simp] theorem State.updStage_fab (s : State) (n : Nat) (f : StageSlot → StageSlot) : (State.updStage s n f).fab = s.fab := rfl
@[simp] theorem State.updStage_quay (s : State) (n : Nat) (f : StageSlot → StageSlot) : (State.updStage s n f).quay = s.quay := rfl
@[simp] theorem State.updStage_link (s : State) (n : Nat) (f : StageSlot → StageSlot) : (State.updStage s n f).link = s.link := rfl
@[simp] theorem State.updStage_coll (s : State) (n : Nat) (f : StageSlot → StageSlot) : (State.updStage s n f).coll = s.coll := rfl
@[simp] theorem State.updStage_serv (s : State) (n : Nat) (f : StageSlot → StageSlot) : (State.updStage s n f).serv = s.serv := rfl
@[simp] theorem State.updStage_clk (s : State) (n : Nat) (f : StageSlot → StageSlot) : (State.updStage s n f).clk = s.clk := rfl
@[simp] theorem State.updStage_fresh (s : State) (n : Nat) (f : StageSlot → StageSlot) : (State.updStage s n f).fresh = s.fresh := rfl
@[simp] theorem State.updStage_pending (s : State) (n : Nat) (f : StageSlot → StageSlot) : (State.updStage s n f).pending = s.pending := rfl

@[simp] theorem State.updModel_pkg (s : State) (n : Nat) (f : ModelSlot → ModelSlot) : (State.updModel s n f).pkg = s.pkg := rfl
@[simp] theorem State.updModel_own (s : State) (n : Nat) (f : ModelSlot → ModelSlot) : (State.updModel s n f).own = s.own := rfl
@[simp] theorem State.updModel_cmd (s : State) (n : Nat) (f : ModelSlot → ModelSlot) : (State.updModel s n f).cmd = s.cmd := rfl
@[simp] theorem State.updModel_log (s : State) (n : Nat) (f : ModelSlot → ModelSlot) : (State.updModel s n f).log = s.log := rfl
@[simp] theorem State.updModel_pwr (s : State) (n : Nat) (f : ModelSlot → ModelSlot) : (State.updModel s n f).pwr = s.pwr := rfl
@[simp] theorem State.updModel_nor (s : State) (n : Nat) (f : ModelSlot → ModelSlot) : (State.updModel s n f).nor = s.nor := rfl
@[simp] theorem State.updModel_dbg (s : State) (n : Nat) (f : ModelSlot → ModelSlot) : (State.updModel s n f).dbg = s.dbg := rfl
@[simp] theorem State.updModel_board (s : State) (n : Nat) (f : ModelSlot → ModelSlot) : (State.updModel s n f).board = s.board := rfl
@[simp] theorem State.updModel_time (s : State) (n : Nat) (f : ModelSlot → ModelSlot) : (State.updModel s n f).time = s.time := rfl
@[simp] theorem State.updModel_mem (s : State) (n : Nat) (f : ModelSlot → ModelSlot) : (State.updModel s n f).mem = s.mem := rfl
@[simp] theorem State.updModel_ten (s : State) (n : Nat) (f : ModelSlot → ModelSlot) : (State.updModel s n f).ten = s.ten := rfl
@[simp] theorem State.updModel_cpu (s : State) (n : Nat) (f : ModelSlot → ModelSlot) : (State.updModel s n f).cpu = s.cpu := rfl
@[simp] theorem State.updModel_fab (s : State) (n : Nat) (f : ModelSlot → ModelSlot) : (State.updModel s n f).fab = s.fab := rfl
@[simp] theorem State.updModel_quay (s : State) (n : Nat) (f : ModelSlot → ModelSlot) : (State.updModel s n f).quay = s.quay := rfl
@[simp] theorem State.updModel_link (s : State) (n : Nat) (f : ModelSlot → ModelSlot) : (State.updModel s n f).link = s.link := rfl
@[simp] theorem State.updModel_pipe (s : State) (n : Nat) (f : ModelSlot → ModelSlot) : (State.updModel s n f).pipe = s.pipe := rfl
@[simp] theorem State.updModel_coll (s : State) (n : Nat) (f : ModelSlot → ModelSlot) : (State.updModel s n f).coll = s.coll := rfl
@[simp] theorem State.updModel_clk (s : State) (n : Nat) (f : ModelSlot → ModelSlot) : (State.updModel s n f).clk = s.clk := rfl
@[simp] theorem State.updModel_fresh (s : State) (n : Nat) (f : ModelSlot → ModelSlot) : (State.updModel s n f).fresh = s.fresh := rfl
@[simp] theorem State.updModel_pending (s : State) (n : Nat) (f : ModelSlot → ModelSlot) : (State.updModel s n f).pending = s.pending := rfl

@[simp] theorem State.updRun_pkg (s : State) (cmd : Nat) (g : QRun → QRun) : (State.updRun s cmd g).pkg = s.pkg := rfl
@[simp] theorem State.updRun_own (s : State) (cmd : Nat) (g : QRun → QRun) : (State.updRun s cmd g).own = s.own := rfl
@[simp] theorem State.updRun_cmd (s : State) (cmd : Nat) (g : QRun → QRun) : (State.updRun s cmd g).cmd = s.cmd := rfl
@[simp] theorem State.updRun_log (s : State) (cmd : Nat) (g : QRun → QRun) : (State.updRun s cmd g).log = s.log := rfl
@[simp] theorem State.updRun_pwr (s : State) (cmd : Nat) (g : QRun → QRun) : (State.updRun s cmd g).pwr = s.pwr := rfl
@[simp] theorem State.updRun_nor (s : State) (cmd : Nat) (g : QRun → QRun) : (State.updRun s cmd g).nor = s.nor := rfl
@[simp] theorem State.updRun_dbg (s : State) (cmd : Nat) (g : QRun → QRun) : (State.updRun s cmd g).dbg = s.dbg := rfl
@[simp] theorem State.updRun_board (s : State) (cmd : Nat) (g : QRun → QRun) : (State.updRun s cmd g).board = s.board := rfl
@[simp] theorem State.updRun_time (s : State) (cmd : Nat) (g : QRun → QRun) : (State.updRun s cmd g).time = s.time := rfl
@[simp] theorem State.updRun_mem (s : State) (cmd : Nat) (g : QRun → QRun) : (State.updRun s cmd g).mem = s.mem := rfl
@[simp] theorem State.updRun_ten (s : State) (cmd : Nat) (g : QRun → QRun) : (State.updRun s cmd g).ten = s.ten := rfl
@[simp] theorem State.updRun_cpu (s : State) (cmd : Nat) (g : QRun → QRun) : (State.updRun s cmd g).cpu = s.cpu := rfl
@[simp] theorem State.updRun_fab (s : State) (cmd : Nat) (g : QRun → QRun) : (State.updRun s cmd g).fab = s.fab := rfl
@[simp] theorem State.updRun_link (s : State) (cmd : Nat) (g : QRun → QRun) : (State.updRun s cmd g).link = s.link := rfl
@[simp] theorem State.updRun_pipe (s : State) (cmd : Nat) (g : QRun → QRun) : (State.updRun s cmd g).pipe = s.pipe := rfl
@[simp] theorem State.updRun_coll (s : State) (cmd : Nat) (g : QRun → QRun) : (State.updRun s cmd g).coll = s.coll := rfl
@[simp] theorem State.updRun_serv (s : State) (cmd : Nat) (g : QRun → QRun) : (State.updRun s cmd g).serv = s.serv := rfl
@[simp] theorem State.updRun_clk (s : State) (cmd : Nat) (g : QRun → QRun) : (State.updRun s cmd g).clk = s.clk := rfl
@[simp] theorem State.updRun_fresh (s : State) (cmd : Nat) (g : QRun → QRun) : (State.updRun s cmd g).fresh = s.fresh := rfl
@[simp] theorem State.updRun_pending (s : State) (cmd : Nat) (g : QRun → QRun) : (State.updRun s cmd g).pending = s.pending := rfl

@[simp] theorem State.updQe_pkg (s : State) (e : Nat) (f : QEngine → QEngine) : (State.updQe s e f).pkg = s.pkg := rfl
@[simp] theorem State.updQe_own (s : State) (e : Nat) (f : QEngine → QEngine) : (State.updQe s e f).own = s.own := rfl
@[simp] theorem State.updQe_cmd (s : State) (e : Nat) (f : QEngine → QEngine) : (State.updQe s e f).cmd = s.cmd := rfl
@[simp] theorem State.updQe_log (s : State) (e : Nat) (f : QEngine → QEngine) : (State.updQe s e f).log = s.log := rfl
@[simp] theorem State.updQe_pwr (s : State) (e : Nat) (f : QEngine → QEngine) : (State.updQe s e f).pwr = s.pwr := rfl
@[simp] theorem State.updQe_nor (s : State) (e : Nat) (f : QEngine → QEngine) : (State.updQe s e f).nor = s.nor := rfl
@[simp] theorem State.updQe_dbg (s : State) (e : Nat) (f : QEngine → QEngine) : (State.updQe s e f).dbg = s.dbg := rfl
@[simp] theorem State.updQe_board (s : State) (e : Nat) (f : QEngine → QEngine) : (State.updQe s e f).board = s.board := rfl
@[simp] theorem State.updQe_time (s : State) (e : Nat) (f : QEngine → QEngine) : (State.updQe s e f).time = s.time := rfl
@[simp] theorem State.updQe_mem (s : State) (e : Nat) (f : QEngine → QEngine) : (State.updQe s e f).mem = s.mem := rfl
@[simp] theorem State.updQe_ten (s : State) (e : Nat) (f : QEngine → QEngine) : (State.updQe s e f).ten = s.ten := rfl
@[simp] theorem State.updQe_cpu (s : State) (e : Nat) (f : QEngine → QEngine) : (State.updQe s e f).cpu = s.cpu := rfl
@[simp] theorem State.updQe_fab (s : State) (e : Nat) (f : QEngine → QEngine) : (State.updQe s e f).fab = s.fab := rfl
@[simp] theorem State.updQe_link (s : State) (e : Nat) (f : QEngine → QEngine) : (State.updQe s e f).link = s.link := rfl
@[simp] theorem State.updQe_pipe (s : State) (e : Nat) (f : QEngine → QEngine) : (State.updQe s e f).pipe = s.pipe := rfl
@[simp] theorem State.updQe_coll (s : State) (e : Nat) (f : QEngine → QEngine) : (State.updQe s e f).coll = s.coll := rfl
@[simp] theorem State.updQe_serv (s : State) (e : Nat) (f : QEngine → QEngine) : (State.updQe s e f).serv = s.serv := rfl
@[simp] theorem State.updQe_clk (s : State) (e : Nat) (f : QEngine → QEngine) : (State.updQe s e f).clk = s.clk := rfl
@[simp] theorem State.updQe_fresh (s : State) (e : Nat) (f : QEngine → QEngine) : (State.updQe s e f).fresh = s.fresh := rfl
@[simp] theorem State.updQe_pending (s : State) (e : Nat) (f : QEngine → QEngine) : (State.updQe s e f).pending = s.pending := rfl

@[simp] theorem State.updPort_pkg (s : State) (p : Nat) (f : Port → Port) : (State.updPort s p f).pkg = s.pkg := rfl
@[simp] theorem State.updPort_own (s : State) (p : Nat) (f : Port → Port) : (State.updPort s p f).own = s.own := rfl
@[simp] theorem State.updPort_cmd (s : State) (p : Nat) (f : Port → Port) : (State.updPort s p f).cmd = s.cmd := rfl
@[simp] theorem State.updPort_log (s : State) (p : Nat) (f : Port → Port) : (State.updPort s p f).log = s.log := rfl
@[simp] theorem State.updPort_pwr (s : State) (p : Nat) (f : Port → Port) : (State.updPort s p f).pwr = s.pwr := rfl
@[simp] theorem State.updPort_nor (s : State) (p : Nat) (f : Port → Port) : (State.updPort s p f).nor = s.nor := rfl
@[simp] theorem State.updPort_dbg (s : State) (p : Nat) (f : Port → Port) : (State.updPort s p f).dbg = s.dbg := rfl
@[simp] theorem State.updPort_board (s : State) (p : Nat) (f : Port → Port) : (State.updPort s p f).board = s.board := rfl
@[simp] theorem State.updPort_time (s : State) (p : Nat) (f : Port → Port) : (State.updPort s p f).time = s.time := rfl
@[simp] theorem State.updPort_mem (s : State) (p : Nat) (f : Port → Port) : (State.updPort s p f).mem = s.mem := rfl
@[simp] theorem State.updPort_ten (s : State) (p : Nat) (f : Port → Port) : (State.updPort s p f).ten = s.ten := rfl
@[simp] theorem State.updPort_cpu (s : State) (p : Nat) (f : Port → Port) : (State.updPort s p f).cpu = s.cpu := rfl
@[simp] theorem State.updPort_fab (s : State) (p : Nat) (f : Port → Port) : (State.updPort s p f).fab = s.fab := rfl
@[simp] theorem State.updPort_quay (s : State) (p : Nat) (f : Port → Port) : (State.updPort s p f).quay = s.quay := rfl
@[simp] theorem State.updPort_pipe (s : State) (p : Nat) (f : Port → Port) : (State.updPort s p f).pipe = s.pipe := rfl
@[simp] theorem State.updPort_coll (s : State) (p : Nat) (f : Port → Port) : (State.updPort s p f).coll = s.coll := rfl
@[simp] theorem State.updPort_serv (s : State) (p : Nat) (f : Port → Port) : (State.updPort s p f).serv = s.serv := rfl
@[simp] theorem State.updPort_clk (s : State) (p : Nat) (f : Port → Port) : (State.updPort s p f).clk = s.clk := rfl
@[simp] theorem State.updPort_fresh (s : State) (p : Nat) (f : Port → Port) : (State.updPort s p f).fresh = s.fresh := rfl
@[simp] theorem State.updPort_pending (s : State) (p : Nat) (f : Port → Port) : (State.updPort s p f).pending = s.pending := rfl

@[simp] theorem State.updGroup_pkg (s : State) (n : Nat) (f : Group → Group) : (State.updGroup s n f).pkg = s.pkg := rfl
@[simp] theorem State.updGroup_own (s : State) (n : Nat) (f : Group → Group) : (State.updGroup s n f).own = s.own := rfl
@[simp] theorem State.updGroup_cmd (s : State) (n : Nat) (f : Group → Group) : (State.updGroup s n f).cmd = s.cmd := rfl
@[simp] theorem State.updGroup_log (s : State) (n : Nat) (f : Group → Group) : (State.updGroup s n f).log = s.log := rfl
@[simp] theorem State.updGroup_pwr (s : State) (n : Nat) (f : Group → Group) : (State.updGroup s n f).pwr = s.pwr := rfl
@[simp] theorem State.updGroup_nor (s : State) (n : Nat) (f : Group → Group) : (State.updGroup s n f).nor = s.nor := rfl
@[simp] theorem State.updGroup_dbg (s : State) (n : Nat) (f : Group → Group) : (State.updGroup s n f).dbg = s.dbg := rfl
@[simp] theorem State.updGroup_board (s : State) (n : Nat) (f : Group → Group) : (State.updGroup s n f).board = s.board := rfl
@[simp] theorem State.updGroup_time (s : State) (n : Nat) (f : Group → Group) : (State.updGroup s n f).time = s.time := rfl
@[simp] theorem State.updGroup_mem (s : State) (n : Nat) (f : Group → Group) : (State.updGroup s n f).mem = s.mem := rfl
@[simp] theorem State.updGroup_ten (s : State) (n : Nat) (f : Group → Group) : (State.updGroup s n f).ten = s.ten := rfl
@[simp] theorem State.updGroup_cpu (s : State) (n : Nat) (f : Group → Group) : (State.updGroup s n f).cpu = s.cpu := rfl
@[simp] theorem State.updGroup_fab (s : State) (n : Nat) (f : Group → Group) : (State.updGroup s n f).fab = s.fab := rfl
@[simp] theorem State.updGroup_quay (s : State) (n : Nat) (f : Group → Group) : (State.updGroup s n f).quay = s.quay := rfl
@[simp] theorem State.updGroup_link (s : State) (n : Nat) (f : Group → Group) : (State.updGroup s n f).link = s.link := rfl
@[simp] theorem State.updGroup_pipe (s : State) (n : Nat) (f : Group → Group) : (State.updGroup s n f).pipe = s.pipe := rfl
@[simp] theorem State.updGroup_serv (s : State) (n : Nat) (f : Group → Group) : (State.updGroup s n f).serv = s.serv := rfl
@[simp] theorem State.updGroup_clk (s : State) (n : Nat) (f : Group → Group) : (State.updGroup s n f).clk = s.clk := rfl
@[simp] theorem State.updGroup_fresh (s : State) (n : Nat) (f : Group → Group) : (State.updGroup s n f).fresh = s.fresh := rfl
@[simp] theorem State.updGroup_pending (s : State) (n : Nat) (f : Group → Group) : (State.updGroup s n f).pending = s.pending := rfl

@[simp] theorem State.updColl_pkg (s : State) (n seq : Nat) (f : Coll → Coll) : (State.updColl s n seq f).pkg = s.pkg := rfl
@[simp] theorem State.updColl_own (s : State) (n seq : Nat) (f : Coll → Coll) : (State.updColl s n seq f).own = s.own := rfl
@[simp] theorem State.updColl_cmd (s : State) (n seq : Nat) (f : Coll → Coll) : (State.updColl s n seq f).cmd = s.cmd := rfl
@[simp] theorem State.updColl_log (s : State) (n seq : Nat) (f : Coll → Coll) : (State.updColl s n seq f).log = s.log := rfl
@[simp] theorem State.updColl_pwr (s : State) (n seq : Nat) (f : Coll → Coll) : (State.updColl s n seq f).pwr = s.pwr := rfl
@[simp] theorem State.updColl_nor (s : State) (n seq : Nat) (f : Coll → Coll) : (State.updColl s n seq f).nor = s.nor := rfl
@[simp] theorem State.updColl_dbg (s : State) (n seq : Nat) (f : Coll → Coll) : (State.updColl s n seq f).dbg = s.dbg := rfl
@[simp] theorem State.updColl_board (s : State) (n seq : Nat) (f : Coll → Coll) : (State.updColl s n seq f).board = s.board := rfl
@[simp] theorem State.updColl_time (s : State) (n seq : Nat) (f : Coll → Coll) : (State.updColl s n seq f).time = s.time := rfl
@[simp] theorem State.updColl_mem (s : State) (n seq : Nat) (f : Coll → Coll) : (State.updColl s n seq f).mem = s.mem := rfl
@[simp] theorem State.updColl_ten (s : State) (n seq : Nat) (f : Coll → Coll) : (State.updColl s n seq f).ten = s.ten := rfl
@[simp] theorem State.updColl_cpu (s : State) (n seq : Nat) (f : Coll → Coll) : (State.updColl s n seq f).cpu = s.cpu := rfl
@[simp] theorem State.updColl_fab (s : State) (n seq : Nat) (f : Coll → Coll) : (State.updColl s n seq f).fab = s.fab := rfl
@[simp] theorem State.updColl_quay (s : State) (n seq : Nat) (f : Coll → Coll) : (State.updColl s n seq f).quay = s.quay := rfl
@[simp] theorem State.updColl_link (s : State) (n seq : Nat) (f : Coll → Coll) : (State.updColl s n seq f).link = s.link := rfl
@[simp] theorem State.updColl_pipe (s : State) (n seq : Nat) (f : Coll → Coll) : (State.updColl s n seq f).pipe = s.pipe := rfl
@[simp] theorem State.updColl_serv (s : State) (n seq : Nat) (f : Coll → Coll) : (State.updColl s n seq f).serv = s.serv := rfl
@[simp] theorem State.updColl_clk (s : State) (n seq : Nat) (f : Coll → Coll) : (State.updColl s n seq f).clk = s.clk := rfl
@[simp] theorem State.updColl_fresh (s : State) (n seq : Nat) (f : Coll → Coll) : (State.updColl s n seq f).fresh = s.fresh := rfl
@[simp] theorem State.updColl_pending (s : State) (n seq : Nat) (f : Coll → Coll) : (State.updColl s n seq f).pending = s.pending := rfl

@[simp] theorem State.updAst_pkg (s : State) (i : Nat) (f : AstEntry → AstEntry) : (State.updAst s i f).pkg = s.pkg := rfl
@[simp] theorem State.updAst_own (s : State) (i : Nat) (f : AstEntry → AstEntry) : (State.updAst s i f).own = s.own := rfl
@[simp] theorem State.updAst_cmd (s : State) (i : Nat) (f : AstEntry → AstEntry) : (State.updAst s i f).cmd = s.cmd := rfl
@[simp] theorem State.updAst_log (s : State) (i : Nat) (f : AstEntry → AstEntry) : (State.updAst s i f).log = s.log := rfl
@[simp] theorem State.updAst_pwr (s : State) (i : Nat) (f : AstEntry → AstEntry) : (State.updAst s i f).pwr = s.pwr := rfl
@[simp] theorem State.updAst_nor (s : State) (i : Nat) (f : AstEntry → AstEntry) : (State.updAst s i f).nor = s.nor := rfl
@[simp] theorem State.updAst_dbg (s : State) (i : Nat) (f : AstEntry → AstEntry) : (State.updAst s i f).dbg = s.dbg := rfl
@[simp] theorem State.updAst_board (s : State) (i : Nat) (f : AstEntry → AstEntry) : (State.updAst s i f).board = s.board := rfl
@[simp] theorem State.updAst_time (s : State) (i : Nat) (f : AstEntry → AstEntry) : (State.updAst s i f).time = s.time := rfl
@[simp] theorem State.updAst_mem (s : State) (i : Nat) (f : AstEntry → AstEntry) : (State.updAst s i f).mem = s.mem := rfl
@[simp] theorem State.updAst_ten (s : State) (i : Nat) (f : AstEntry → AstEntry) : (State.updAst s i f).ten = s.ten := rfl
@[simp] theorem State.updAst_cpu (s : State) (i : Nat) (f : AstEntry → AstEntry) : (State.updAst s i f).cpu = s.cpu := rfl
@[simp] theorem State.updAst_fab (s : State) (i : Nat) (f : AstEntry → AstEntry) : (State.updAst s i f).fab = s.fab := rfl
@[simp] theorem State.updAst_quay (s : State) (i : Nat) (f : AstEntry → AstEntry) : (State.updAst s i f).quay = s.quay := rfl
@[simp] theorem State.updAst_link (s : State) (i : Nat) (f : AstEntry → AstEntry) : (State.updAst s i f).link = s.link := rfl
@[simp] theorem State.updAst_pipe (s : State) (i : Nat) (f : AstEntry → AstEntry) : (State.updAst s i f).pipe = s.pipe := rfl
@[simp] theorem State.updAst_coll (s : State) (i : Nat) (f : AstEntry → AstEntry) : (State.updAst s i f).coll = s.coll := rfl
@[simp] theorem State.updAst_clk (s : State) (i : Nat) (f : AstEntry → AstEntry) : (State.updAst s i f).clk = s.clk := rfl
@[simp] theorem State.updAst_fresh (s : State) (i : Nat) (f : AstEntry → AstEntry) : (State.updAst s i f).fresh = s.fresh := rfl
@[simp] theorem State.updAst_pending (s : State) (i : Nat) (f : AstEntry → AstEntry) : (State.updAst s i f).pending = s.pending := rfl

@[simp] theorem State.updBerth_pkg (s : State) (n : Nat) (f : CommonBerth → CommonBerth) : (State.updBerth s n f).pkg = s.pkg := rfl
@[simp] theorem State.updBerth_own (s : State) (n : Nat) (f : CommonBerth → CommonBerth) : (State.updBerth s n f).own = s.own := rfl
@[simp] theorem State.updBerth_cmd (s : State) (n : Nat) (f : CommonBerth → CommonBerth) : (State.updBerth s n f).cmd = s.cmd := rfl
@[simp] theorem State.updBerth_log (s : State) (n : Nat) (f : CommonBerth → CommonBerth) : (State.updBerth s n f).log = s.log := rfl
@[simp] theorem State.updBerth_pwr (s : State) (n : Nat) (f : CommonBerth → CommonBerth) : (State.updBerth s n f).pwr = s.pwr := rfl
@[simp] theorem State.updBerth_nor (s : State) (n : Nat) (f : CommonBerth → CommonBerth) : (State.updBerth s n f).nor = s.nor := rfl
@[simp] theorem State.updBerth_dbg (s : State) (n : Nat) (f : CommonBerth → CommonBerth) : (State.updBerth s n f).dbg = s.dbg := rfl
@[simp] theorem State.updBerth_board (s : State) (n : Nat) (f : CommonBerth → CommonBerth) : (State.updBerth s n f).board = s.board := rfl
@[simp] theorem State.updBerth_time (s : State) (n : Nat) (f : CommonBerth → CommonBerth) : (State.updBerth s n f).time = s.time := rfl
@[simp] theorem State.updBerth_mem (s : State) (n : Nat) (f : CommonBerth → CommonBerth) : (State.updBerth s n f).mem = s.mem := rfl
@[simp] theorem State.updBerth_cpu (s : State) (n : Nat) (f : CommonBerth → CommonBerth) : (State.updBerth s n f).cpu = s.cpu := rfl
@[simp] theorem State.updBerth_fab (s : State) (n : Nat) (f : CommonBerth → CommonBerth) : (State.updBerth s n f).fab = s.fab := rfl
@[simp] theorem State.updBerth_quay (s : State) (n : Nat) (f : CommonBerth → CommonBerth) : (State.updBerth s n f).quay = s.quay := rfl
@[simp] theorem State.updBerth_link (s : State) (n : Nat) (f : CommonBerth → CommonBerth) : (State.updBerth s n f).link = s.link := rfl
@[simp] theorem State.updBerth_pipe (s : State) (n : Nat) (f : CommonBerth → CommonBerth) : (State.updBerth s n f).pipe = s.pipe := rfl
@[simp] theorem State.updBerth_coll (s : State) (n : Nat) (f : CommonBerth → CommonBerth) : (State.updBerth s n f).coll = s.coll := rfl
@[simp] theorem State.updBerth_serv (s : State) (n : Nat) (f : CommonBerth → CommonBerth) : (State.updBerth s n f).serv = s.serv := rfl
@[simp] theorem State.updBerth_clk (s : State) (n : Nat) (f : CommonBerth → CommonBerth) : (State.updBerth s n f).clk = s.clk := rfl
@[simp] theorem State.updBerth_fresh (s : State) (n : Nat) (f : CommonBerth → CommonBerth) : (State.updBerth s n f).fresh = s.fresh := rfl
@[simp] theorem State.updBerth_pending (s : State) (n : Nat) (f : CommonBerth → CommonBerth) : (State.updBerth s n f).pending = s.pending := rfl

@[simp] theorem State.updPair_pkg (s : State) (i : Nat) (f : Pair → Pair) : (State.updPair s i f).pkg = s.pkg := rfl
@[simp] theorem State.updPair_own (s : State) (i : Nat) (f : Pair → Pair) : (State.updPair s i f).own = s.own := rfl
@[simp] theorem State.updPair_cmd (s : State) (i : Nat) (f : Pair → Pair) : (State.updPair s i f).cmd = s.cmd := rfl
@[simp] theorem State.updPair_log (s : State) (i : Nat) (f : Pair → Pair) : (State.updPair s i f).log = s.log := rfl
@[simp] theorem State.updPair_pwr (s : State) (i : Nat) (f : Pair → Pair) : (State.updPair s i f).pwr = s.pwr := rfl
@[simp] theorem State.updPair_nor (s : State) (i : Nat) (f : Pair → Pair) : (State.updPair s i f).nor = s.nor := rfl
@[simp] theorem State.updPair_dbg (s : State) (i : Nat) (f : Pair → Pair) : (State.updPair s i f).dbg = s.dbg := rfl
@[simp] theorem State.updPair_board (s : State) (i : Nat) (f : Pair → Pair) : (State.updPair s i f).board = s.board := rfl
@[simp] theorem State.updPair_time (s : State) (i : Nat) (f : Pair → Pair) : (State.updPair s i f).time = s.time := rfl
@[simp] theorem State.updPair_mem (s : State) (i : Nat) (f : Pair → Pair) : (State.updPair s i f).mem = s.mem := rfl
@[simp] theorem State.updPair_ten (s : State) (i : Nat) (f : Pair → Pair) : (State.updPair s i f).ten = s.ten := rfl
@[simp] theorem State.updPair_cpu (s : State) (i : Nat) (f : Pair → Pair) : (State.updPair s i f).cpu = s.cpu := rfl
@[simp] theorem State.updPair_quay (s : State) (i : Nat) (f : Pair → Pair) : (State.updPair s i f).quay = s.quay := rfl
@[simp] theorem State.updPair_link (s : State) (i : Nat) (f : Pair → Pair) : (State.updPair s i f).link = s.link := rfl
@[simp] theorem State.updPair_pipe (s : State) (i : Nat) (f : Pair → Pair) : (State.updPair s i f).pipe = s.pipe := rfl
@[simp] theorem State.updPair_coll (s : State) (i : Nat) (f : Pair → Pair) : (State.updPair s i f).coll = s.coll := rfl
@[simp] theorem State.updPair_serv (s : State) (i : Nat) (f : Pair → Pair) : (State.updPair s i f).serv = s.serv := rfl
@[simp] theorem State.updPair_clk (s : State) (i : Nat) (f : Pair → Pair) : (State.updPair s i f).clk = s.clk := rfl
@[simp] theorem State.updPair_fresh (s : State) (i : Nat) (f : Pair → Pair) : (State.updPair s i f).fresh = s.fresh := rfl
@[simp] theorem State.updPair_pending (s : State) (i : Nat) (f : Pair → Pair) : (State.updPair s i f).pending = s.pending := rfl

@[simp] theorem State.updBank_pkg (s : State) (b : Nat) (f : OwnBank → OwnBank) : (State.updBank s b f).pkg = s.pkg := rfl
@[simp] theorem State.updBank_cmd (s : State) (b : Nat) (f : OwnBank → OwnBank) : (State.updBank s b f).cmd = s.cmd := rfl
@[simp] theorem State.updBank_log (s : State) (b : Nat) (f : OwnBank → OwnBank) : (State.updBank s b f).log = s.log := rfl
@[simp] theorem State.updBank_pwr (s : State) (b : Nat) (f : OwnBank → OwnBank) : (State.updBank s b f).pwr = s.pwr := rfl
@[simp] theorem State.updBank_nor (s : State) (b : Nat) (f : OwnBank → OwnBank) : (State.updBank s b f).nor = s.nor := rfl
@[simp] theorem State.updBank_dbg (s : State) (b : Nat) (f : OwnBank → OwnBank) : (State.updBank s b f).dbg = s.dbg := rfl
@[simp] theorem State.updBank_board (s : State) (b : Nat) (f : OwnBank → OwnBank) : (State.updBank s b f).board = s.board := rfl
@[simp] theorem State.updBank_time (s : State) (b : Nat) (f : OwnBank → OwnBank) : (State.updBank s b f).time = s.time := rfl
@[simp] theorem State.updBank_mem (s : State) (b : Nat) (f : OwnBank → OwnBank) : (State.updBank s b f).mem = s.mem := rfl
@[simp] theorem State.updBank_ten (s : State) (b : Nat) (f : OwnBank → OwnBank) : (State.updBank s b f).ten = s.ten := rfl
@[simp] theorem State.updBank_cpu (s : State) (b : Nat) (f : OwnBank → OwnBank) : (State.updBank s b f).cpu = s.cpu := rfl
@[simp] theorem State.updBank_fab (s : State) (b : Nat) (f : OwnBank → OwnBank) : (State.updBank s b f).fab = s.fab := rfl
@[simp] theorem State.updBank_quay (s : State) (b : Nat) (f : OwnBank → OwnBank) : (State.updBank s b f).quay = s.quay := rfl
@[simp] theorem State.updBank_link (s : State) (b : Nat) (f : OwnBank → OwnBank) : (State.updBank s b f).link = s.link := rfl
@[simp] theorem State.updBank_pipe (s : State) (b : Nat) (f : OwnBank → OwnBank) : (State.updBank s b f).pipe = s.pipe := rfl
@[simp] theorem State.updBank_coll (s : State) (b : Nat) (f : OwnBank → OwnBank) : (State.updBank s b f).coll = s.coll := rfl
@[simp] theorem State.updBank_serv (s : State) (b : Nat) (f : OwnBank → OwnBank) : (State.updBank s b f).serv = s.serv := rfl
@[simp] theorem State.updBank_clk (s : State) (b : Nat) (f : OwnBank → OwnBank) : (State.updBank s b f).clk = s.clk := rfl
@[simp] theorem State.updBank_fresh (s : State) (b : Nat) (f : OwnBank → OwnBank) : (State.updBank s b f).fresh = s.fresh := rfl
@[simp] theorem State.updBank_pending (s : State) (b : Nat) (f : OwnBank → OwnBank) : (State.updBank s b f).pending = s.pending := rfl

@[simp] theorem State.updDie_pkg (s : State) (d : Nat) (f : DiePwr → DiePwr) : (State.updDie s d f).pkg = s.pkg := rfl
@[simp] theorem State.updDie_own (s : State) (d : Nat) (f : DiePwr → DiePwr) : (State.updDie s d f).own = s.own := rfl
@[simp] theorem State.updDie_cmd (s : State) (d : Nat) (f : DiePwr → DiePwr) : (State.updDie s d f).cmd = s.cmd := rfl
@[simp] theorem State.updDie_log (s : State) (d : Nat) (f : DiePwr → DiePwr) : (State.updDie s d f).log = s.log := rfl
@[simp] theorem State.updDie_nor (s : State) (d : Nat) (f : DiePwr → DiePwr) : (State.updDie s d f).nor = s.nor := rfl
@[simp] theorem State.updDie_dbg (s : State) (d : Nat) (f : DiePwr → DiePwr) : (State.updDie s d f).dbg = s.dbg := rfl
@[simp] theorem State.updDie_board (s : State) (d : Nat) (f : DiePwr → DiePwr) : (State.updDie s d f).board = s.board := rfl
@[simp] theorem State.updDie_time (s : State) (d : Nat) (f : DiePwr → DiePwr) : (State.updDie s d f).time = s.time := rfl
@[simp] theorem State.updDie_mem (s : State) (d : Nat) (f : DiePwr → DiePwr) : (State.updDie s d f).mem = s.mem := rfl
@[simp] theorem State.updDie_ten (s : State) (d : Nat) (f : DiePwr → DiePwr) : (State.updDie s d f).ten = s.ten := rfl
@[simp] theorem State.updDie_cpu (s : State) (d : Nat) (f : DiePwr → DiePwr) : (State.updDie s d f).cpu = s.cpu := rfl
@[simp] theorem State.updDie_fab (s : State) (d : Nat) (f : DiePwr → DiePwr) : (State.updDie s d f).fab = s.fab := rfl
@[simp] theorem State.updDie_quay (s : State) (d : Nat) (f : DiePwr → DiePwr) : (State.updDie s d f).quay = s.quay := rfl
@[simp] theorem State.updDie_link (s : State) (d : Nat) (f : DiePwr → DiePwr) : (State.updDie s d f).link = s.link := rfl
@[simp] theorem State.updDie_pipe (s : State) (d : Nat) (f : DiePwr → DiePwr) : (State.updDie s d f).pipe = s.pipe := rfl
@[simp] theorem State.updDie_coll (s : State) (d : Nat) (f : DiePwr → DiePwr) : (State.updDie s d f).coll = s.coll := rfl
@[simp] theorem State.updDie_serv (s : State) (d : Nat) (f : DiePwr → DiePwr) : (State.updDie s d f).serv = s.serv := rfl
@[simp] theorem State.updDie_clk (s : State) (d : Nat) (f : DiePwr → DiePwr) : (State.updDie s d f).clk = s.clk := rfl
@[simp] theorem State.updDie_fresh (s : State) (d : Nat) (f : DiePwr → DiePwr) : (State.updDie s d f).fresh = s.fresh := rfl
@[simp] theorem State.updDie_pending (s : State) (d : Nat) (f : DiePwr → DiePwr) : (State.updDie s d f).pending = s.pending := rfl

/-! ### A read after an update -/

@[simp] theorem State.core_setCore (s : State) (c : Nat) (k : Core) : (s.setCore c k).core c = k := by
  simp [State.core, State.setCore]
@[simp] theorem State.core_setCore_ne (s : State) {c d : Nat} (k : Core) (h : c ≠ d) : (s.setCore c k).core d = s.core d := by
  simp [State.core, State.setCore, h]
@[simp] theorem State.core_updCore (s : State) (c : Nat) (f : Core → Core) : (s.updCore c f).core c = f (s.core c) := by
  simp [State.updCore]
@[simp] theorem State.core_updCore_ne (s : State) {c d : Nat} (f : Core → Core) (h : c ≠ d) : (s.updCore c f).core d = s.core d := by
  simp [State.updCore, h]
@[simp] theorem State.part_updPart (s : State) (p : Nat) (f : Partition → Partition) : (s.updPart p f).part p = f (s.part p) := by
  simp [State.part, State.updPart]
@[simp] theorem State.part_updPart_ne (s : State) {p q : Nat} (f : Partition → Partition) (h : p ≠ q) :
    (s.updPart p f).part q = s.part q := by
  simp [State.part, State.updPart, h]
@[simp] theorem State.reach_updReach (s : State) (r : Nat) (f : Reach → Reach) : (s.updReach r f).reach r = f (s.reach r) := by
  simp [State.reach, State.updReach]
@[simp] theorem State.ctrl_updCtrl (s : State) (u : Nat) (f : MemCtrl → MemCtrl) : (s.updCtrl u f).ctrl u = f (s.ctrl u) := by
  simp [State.ctrl, State.updCtrl]
@[simp] theorem State.domain_updDomain (s : State) (d : Nat) (f : Domain → Domain) :
    (s.updDomain d f).domain d = f (s.domain d) := by
  simp [State.domain, State.updDomain]
@[simp] theorem State.domain_updDomain_ne (s : State) {d e : Nat} (f : Domain → Domain) (h : d ≠ e) :
    (s.updDomain d f).domain e = s.domain e := by
  simp [State.domain, State.updDomain, h]
@[simp] theorem State.ring_updRing (s : State) (r : Nat) (f : Ring → Ring) : (s.updRing r f).ring r = f (s.ring r) := by
  simp [State.ring, State.updRing]
@[simp] theorem State.ring_updRing_ne (s : State) {r q : Nat} (f : Ring → Ring) (h : r ≠ q) :
    (s.updRing r f).ring q = s.ring q := by
  simp [State.ring, State.updRing, h]
@[simp] theorem State.mbox_updMbox (s : State) (m : Nat) (f : Mailbox → Mailbox) : (s.updMbox m f).mbox m = f (s.mbox m) := by
  simp [State.mbox, State.updMbox]
@[simp] theorem State.stage_updStage (s : State) (n : Nat) (f : StageSlot → StageSlot) :
    (s.updStage n f).stage n = f (s.stage n) := by
  simp [State.stage, State.updStage]
@[simp] theorem State.stage_updStage_ne (s : State) {n m : Nat} (f : StageSlot → StageSlot) (h : n ≠ m) :
    (s.updStage n f).stage m = s.stage m := by
  simp [State.stage, State.updStage, h]
@[simp] theorem State.model_updModel (s : State) (n : Nat) (f : ModelSlot → ModelSlot) :
    (s.updModel n f).model n = f (s.model n) := by
  simp [State.model, State.updModel]
@[simp] theorem State.port_updPort (s : State) (p : Nat) (f : Port → Port) : (s.updPort p f).port p = f (s.port p) := by
  simp [State.port, State.updPort]
@[simp] theorem State.port_updPort_ne (s : State) {p q : Nat} (f : Port → Port) (h : p ≠ q) :
    (s.updPort p f).port q = s.port q := by
  simp [State.port, State.updPort, h]
@[simp] theorem State.group_updGroup (s : State) (n : Nat) (f : Group → Group) : (s.updGroup n f).group n = f (s.group n) := by
  simp [State.group, State.updGroup]
@[simp] theorem State.qe_updQe (s : State) (e : Nat) (f : QEngine → QEngine) : (s.updQe e f).qe e = f (s.qe e) := by
  simp [State.qe, State.updQe]

end Sys2Proof.Machine
end

