-- ==== Sys2Proof/Tests/Slice0.lean ====
section
/-! SUPPORT. Tests of the model: what the checks of Instr.wf refuse, and for every statement of
Certificates/Slice0/Obligations.lean a state and operands that meet its hypotheses, clause by clause. -/

namespace Sys2Proof.Tests

-- Every decide below waits for the kernel's checks of all that stands before it. Elaborated one after
-- another they hold one thread; side by side each holds a thread and its stack.
set_option Elab.async false

open Sys2Proof Sys2Proof.Machine

/-- Closed decidable facts, as one Bool for the kernel to evaluate. -/
theorem holds {p : Prop} [Decidable p] (h : decide p = true) : p := of_decide_eq_true h

/-- A head word (Table 5.2). -/
def word (opc fl a b c imm ext : Nat) : Nat :=
  opc + ext * 2 ^ 13 + fl * 2 ^ 16 + a * 2 ^ 22 + b * 2 ^ 28 + c * 2 ^ 34 + imm * 2 ^ 40

/-- A package that is READY, every domain ON, partition 1 RUNNING with all slices, time counted to 1 s. -/
def up : State :=
  { ({} : State) with
    pkg := { ready := true, idValid := true, packageId := 5 }
    pwr := { domains := (List.range 56).map (fun d => (d, { state := .on })) }
    ten := { parts := [(0, { state := .idle }), (1, { state := .running, slices := 2 ^ 192 - 1, t1Budget := 100, portGrant := 2 ^ 24 - 1 })] }
    clk := 1000000000 }

/-- The package with core `c` RUNNING on a program. -/
def prog (c : Nat) (code : List Nat) (k : Core) : State :=
  { up with cpu := { cores := [(c, { k with
    state := .running, handlerMode := false, image := some ⟨code, 0, 0, [], []⟩ })] } }

/-- Registers of a core: a boundary value of each operand. -/
def someRegs : Tab Word64 := [(1, 64), (2, -1), (3, 3), (4, 2 ^ 19 - 8), (5, 2 ^ 19 - 64), (6, 2 ^ 48 - 1), (7, 2 ^ 19)]

/-- The last core RUNNING at one instruction. -/
def at1 (opc fl a b c imm : Nat) : State := prog 1535 [word opc fl a b c imm 0] { regs := someRegs }
/-- That instruction. -/
def op1 (opc fl a b c imm : Nat) : Op := Op.ofWords [word opc fl a b c imm 0]

theorem fetches {s : State} {c opc : Nat} {o : Op}
    (h : c < 1536 ∧ (s.core c).fetch = some o ∧ o.opc = opc) : s.Fetches c opc o := ⟨h.1, h.2.1, h.2.2⟩

/-- The last core stands at an instruction of each opcode of a list. -/
theorem fetchAll {l : List Nat} {s : Nat → State} {o : Nat → Op}
    (h : ∀ x ∈ l, ((s x).core 1535).fetch = some (o x) ∧ (o x).opc = x) : ∀ x ∈ l, (s x).Fetches 1535 x (o x) :=
  fun x m => ⟨by decide, (h x m).1, (h x m).2⟩

/-- A vector of 16 FP32 elements in the last core's pool. -/
def vec : Desc := { level := 1, format := 8, dim0 := 16, dim1 := 1, dim2 := 1, dim3 := 1, base := 0xFF0000000000 + 1535 * 2 ^ 19 }
/-- Its 64 bytes in a slot. -/
def vecWords : List Nat := [0x81, 16, 1, 1, 1, 0, 0, 0, 1535 % 2 ^ 13 * 2 ^ 19 % 2 ^ 32, 0xFF00, 0, 0, 0, 0, 0, 0]
/-- A queue entry. -/
def entry (num : Nat) (wait : Wait) : Push := ⟨num, 0, 0x110, [], 0, 0, 0, [], [], none, false, [], some 63, [], 0, none, wait⟩
/-- Nothing out of the ordinary is met. -/
def calm : Seen := ⟨[], 0, [], 0, 0, 0, 0, [], []⟩

/-- A packet with given parameter words from offset 0x10. -/
def pack (opcode : Nat) (ps : List Nat) : Packet :=
  Packet.ofWords ([opcode + 0x1000, 0xFFFFFFFF - opcode - 0x1000, 0, 0] ++ ps)

/-- A packet in flight on a path, accepted and not begun. -/
def fly (path : Path) (pk : Packet) : Flight := ⟨7, path, pk, .accepted, 0, none, [], 0⟩

/-- A state with that one command in flight. -/
def sent (s : State) (path : Path) (pk : Packet) : State := { s with cmd := { s.cmd with flights := [fly path pk], nextId := 8 } }

theorem begins {s : State} {path : Path} {pk : Packet} {f : Flight} {rs ds : List Nat}
    (h : s.named path pk = some f ∧ s.flight f.id = some f ∧ f.aborts = [] ∧ s.pwr.fenced = false ∧
      s.pwr.state ≠ .sleep ∧ s.ringGate f = none ∧ s.blocked (s.actsFor f) rs = false ∧
      rs.all (s.mayProceed (s.actsFor f)) = true ∧ ds.all s.awake = true) :
    s.Begins path pk f rs ds :=
  ⟨h.1, h.2.1, h.2.2.1, h.2.2.2.1, h.2.2.2.2.1, h.2.2.2.2.2.1, h.2.2.2.2.2.2.1, h.2.2.2.2.2.2.2.1, h.2.2.2.2.2.2.2.2⟩

/-- The package with a given last core. -/
def lastCore (k : Core) : State := { up with cpu := { cores := [(1535, k)] } }

/-- The same as one Bool, for lists of packets in flight as `fly`. -/
def beginsB (s : State) (path : Path) (pk : Packet) (rs ds : List Nat) : Bool :=
  let f := fly path pk
  decide (s.named path pk = some f ∧ s.flight f.id = some f ∧ f.aborts = [] ∧ s.pwr.fenced = false ∧
      s.pwr.state ≠ .sleep ∧ s.ringGate f = none ∧ s.blocked (s.actsFor f) rs = false ∧
      rs.all (s.mayProceed (s.actsFor f)) = true ∧ ds.all s.awake = true)
theorem begins' {s : State} {path : Path} {pk : Packet} {rs ds : List Nat} (h : beginsB s path pk rs ds = true) :
    s.Begins path pk (fly path pk) rs ds := begins (of_decide_eq_true h)

/-- An answer that a Bool finds. -/
theorem some_any {α : Type} {o : Option α} {p : α → Prop} [DecidablePred p] (h : o.any (fun x => decide (p x)) = true) :
    ∃ x, o = some x ∧ p x := by
  cases o with
  | none => simp at h
  | some x => exact ⟨x, rfl, by simpa using h⟩

/-- What an answer holds, if it is not an error. -/
def okOf {ε α : Type} : Except ε α → Option α
  | .ok w => some w
  | .error _ => none
theorem okOf_eq {ε α : Type} {e : Except ε α} {w : α} (h : okOf e = some w) : e = .ok w := by
  cases e <;> simp_all [okOf]
/-! ### Arithmetic, scalar and control instructions -/

/-- la128_sums: a class of each kind, the greatest magnitude, a permutation. -/
theorem test_la128_sums : La.posInf ≠ .nan ∧ La.posInf ≠ .negInf ∧ 2 ^ 124 - 1 < 2 ^ 124 ∧ [1, 2].Perm [2, 1] := by decide

/-- scalar_integer_words: the last core stands at an instruction of each opcode; LIH's k is at its greatest. -/
theorem test_scalar_integer_words :
    (∀ opc ∈ [1, 2, 3, 4, 5, 6, 7, 8, 9, 10, 11, 12, 13],
      (at1 opc 2 63 1 2 0x800000).Fetches 1535 opc (op1 opc 2 63 1 2 0x800000)) ∧ bits (op1 11 2 63 1 2 0x800000).fl 1 0 ≤ 2 :=
  ⟨fetchAll (by decide +kernel), by decide +kernel⟩

/-- goto_and_truncate: to another place, behind the end of CODE, and to TRUNCATE with a command outstanding and without. -/
theorem test_goto_and_truncate :
    (∀ q ∈ [[], [entry 0 .queued]], ∀ n ∈ [0, 1, 0xFFFFFFFF],
      (prog 1535 [word 1 0 1 1 2 0 0] { vx := q, truncate := n }).Fetches 1535 1 (op1 1 0 1 1 2 0)) ∧
    (∀ q ∈ [[], [entry 0 .queued]], ∀ n ∈ [0, 1, 0xFFFFFFFF],
      let s := prog 1535 [word 1 0 1 1 2 0 0] { vx := q, truncate := n }
      (s.core 1535).stepping = false ∧ Tab.wf {} s.cpu.cores = true ∧ (s.core 1535).pushes = q ∧ (s.core 1535).holder = .none ∧
        (s.core 1535).truncate = n ∧ ((s.core 1535).image.map (·.code.length)).getD 0 = 1) :=
  ⟨fun q _ n _ => ⟨by decide, by revert q n; decide +kernel, by decide +kernel⟩, by decide +kernel⟩

/-- The last core at SET_DESC of slot 0xFF from the last 64 bytes of its pool, which hold a descriptor. -/
def setDescState : State :=
  let s := prog 1535 [word 0x600 63 0 5 0 0xFF 0] { regs := someRegs, slots := [(255, vec)] }
  { s with mem := { s.mem with pool := s.mem.pool.putAll 0 (1535 * 2 ^ 19 + 2 ^ 19 - 64) (wordsToBytes vecWords) } }

/-- scalar_control: every clause, with operands at a bound. -/
theorem test_scalar_control :
    (∀ opc ∈ [0x010, 0x011, 0x012, 0x030, 0x100, 0x110, 0x111, 0x4F0],
      (at1 opc 63 1 1 2 0xFC).Fetches 1535 opc (op1 opc 63 1 1 2 0xFC)) ∧
    (op1 0x030 63 1 1 2 0xFC).imm < 0x100 ∧ (op1 0x030 63 1 1 2 0xFC).imm % 4 = 0 ∧
    (∀ opc ∈ [0x020, 0x021], (at1 opc 63 1 4 2 0).Fetches 1535 opc (op1 opc 63 1 4 2 0)) ∧
    (let s := at1 0x020 63 1 4 2 0
     (s.core 1535).noWriter 63 = true ∧ (s.core 1535).noUser 63 = true ∧ (s.core 1535).reg 4 % 8 = 0 ∧
       (s.core 1535).reg 4 + 8 ≤ 2 ^ 19 ∧ s.pieceUe [] (.pool 1535 (2 ^ 19 - 8)) 8 = []) ∧
    (let s := at1 0x1FF 0 0 0 0 0
     s.Fetches 1535 0x1FF (op1 0x1FF 0 0 0 0 0) ∧ (s.core 1535).pushes = [] ∧ (s.core 1535).stepping = false ∧
       (s.core 1535).holder = .none ∧ Tab.wf {} s.cpu.cores = true) ∧
    (let s := prog 1535 [word 0x1FF 0 0 0 0 0 0] { qx := [entry 0 .other] }
     s.Fetches 1535 0x1FF (op1 0x1FF 0 0 0 0 0) ∧ (s.core 1535).pushes ≠ [] ∧ (s.core 1535).stepping = false) ∧
    (let s := setDescState
     let ws := bytesToWords (s.mem.pool.getAll 0 (1535 * 2 ^ 19 + (s.core 1535).reg 5) 64)
     s.Fetches 1535 0x600 (op1 0x600 63 0 5 0 0xFF) ∧ bits (op1 0x600 63 0 5 0 0xFF).imm 11 0 < 0x100 ∧
       (s.core 1535).noWriter 63 = true ∧ (s.core 1535).reg 5 % 64 = 0 ∧ (s.core 1535).reg 5 + 64 ≤ 2 ^ 19 ∧
       s.pieceUe [] (.pool 1535 (2 ^ 19 - 64)) 64 = [] ∧ (Desc.ofWords ws).check (descReserved ws) = none) ∧
    (let s := prog 1535 [word 0x601 0 0 6 0 0xFF 0] { regs := someRegs, slots := [(255, vec)] }
     s.Fetches 1535 0x601 (op1 0x601 0 0 6 0 0xFF) ∧ (s.core 1535).reg 6 < 2 ^ 48 ∧
       ({ (s.core 1535).slot 255 with base := (s.core 1535).reg 6 } : Desc).check false = none) ∧
    (let s := prog 1535 [word 0x602 0 0 3 0 0x00FF 0] { regs := someRegs, slots := [(255, vec)] }
     s.Fetches 1535 0x602 (op1 0x602 0 0 3 0 0x00FF) ∧ (s.core 1535).reg 3 < 2 ^ 32 ∧
       ({ (s.core 1535).slot 255 with dim0 := (s.core 1535).reg 3 % 2 ^ 32 } : Desc).check false = none) :=
  ⟨fetchAll (by decide +kernel), by decide +kernel, by decide +kernel, fetchAll (by decide +kernel), by decide +kernel,
    ⟨fetches (by decide +kernel), by decide +kernel⟩, ⟨fetches (by decide +kernel), by decide +kernel⟩,
    ⟨fetches (by decide +kernel), by decide +kernel⟩, ⟨fetches (by decide +kernel), by decide +kernel⟩,
    ⟨fetches (by decide +kernel), by decide +kernel⟩⟩

/-- pool_access: the first offset past the pool, for each instruction. -/
theorem test_pool_access : (∀ opc ∈ [0x020, 0x021, 0x600], (at1 opc 0 1 7 2 0).Fetches 1535 opc (op1 opc 0 1 7 2 0)) ∧
    (let k := (at1 0x020 0 1 7 2 0).core 1535
     k.pushes = [] ∧ k.holder = .none ∧ ¬ k.reg 7 + 8 ≤ 2 ^ 19 ∧ ¬ k.reg 7 + 64 ≤ 2 ^ 19) :=
  ⟨fetchAll (by decide +kernel), by decide +kernel⟩

/-! ### Engine instructions -/

/-- The last core at an engine instruction of two extension words, every handle naming a vector of its pool. -/
def pushAt (opc : Nat) : State := prog 1535 [word opc 1 1 1 2 0 2, 0, 0] { regs := someRegs, slots := [(0, vec)] }
def pushOp (opc : Nat) : Op := Op.ofWords [word opc 1 1 1 2 0 2, 0, 0]

/-- What `Enters` and `HasRoom` ask for of an instruction without chunks. -/
def entersB (s : State) (c opc : Nat) (e : Engine) (o : Op) (last : Bool) (seen : Seen) : Bool :=
  decide (((c < 1536 ∧ (s.core c).fetch = some o ∧ o.opc = opc) ∧ o.engine = e ∧ (s.core c).pushes = [] ∧
      (s.core c).hitBp = none ∧ ((s.core c).stopAfter = 0 ∧ (s.core c).stepping = false ∧
        (s.core c).pc + o.len ≠ (s.core c).truncate) ∧ (s.core c).array.state = .idle ∧ freezeCauses seen.freeze = []) ∧
      seen.check ≠ 2 ∧ (s.makePush c o (s.core c).group last).fault = none ∧ ((s.core c).queue e).length < 64 ∧
      (s.makePush c o (s.core c).group last).chunks = [] ∧
      (s.pushOne c o last).trafficOk c ((s.pushOne c o last).traffic c (s.makePush c o (s.core c).group last)) = true)

theorem enters {s : State} {c opc : Nat} {e : Engine} {o : Op} {last : Bool} {seen : Seen}
    (h : entersB s c opc e o last seen = true) : s.Enters c opc e o last seen :=
  have h := of_decide_eq_true h
  ⟨fetches h.1.1, h.1.2.1, h.1.2.2.1, h.1.2.2.2.1, h.1.2.2.2.2.1, h.1.2.2.2.2.2.1, h.1.2.2.2.2.2.2, fun _ => h.2.1, h.2.2.1,
    fun u m => absurd (h.2.2.2.2.1 ▸ m) (by simp), fun u m => absurd (h.2.2.2.2.1 ▸ m) (by simp), h.2.2.2.2.2⟩
theorem hasRoom {s : State} {c opc : Nat} {e : Engine} {o : Op} {last : Bool} {seen : Seen}
    (h : entersB s c opc e o last seen = true) : s.HasRoom c opc e o :=
  have h := of_decide_eq_true h
  ⟨fetches h.1.1, h.1.2.1, h.1.2.2.2.1, h.2.2.2.1⟩

/-- engine_pushes: every engine instruction enters its queue and its engine begins it at once. -/
theorem test_engine_pushes : (∀ r ∈ [(0x200, Engine.ax), (0x201, .ax), (0x202, .ax), (0x203, .ax), (0x300, .vx), (0x301, .vx),
      (0x302, .vx), (0x310, .vx), (0x320, .vx), (0x321, .vx), (0x400, .dx), (0x403, .dx), (0x404, .dx), (0x500, .qx),
      (0x501, .qx), (0x502, .qx)], (pushAt r.1).HasRoom 1535 r.1 r.2 (pushOp r.1) ∧
        (pushAt r.1).Enters 1535 r.1 r.2 (pushOp r.1) true calm) ∧
    (∀ r ∈ [(0x401, 0), (0x402, 1)],
      (pushAt r.1).HasRoom 1535 r.1 .dx (pushOp r.1) ∧
        (pushAt r.1).Enters 1535 r.1 .dx (pushOp r.1) (lastGroup r.2 (pushOp r.1) ((pushAt r.1).core 1535)) calm) := by
  have a : ∀ r ∈ [(0x200, Engine.ax), (0x201, .ax), (0x202, .ax), (0x203, .ax), (0x300, .vx), (0x301, .vx),
      (0x302, .vx), (0x310, .vx), (0x320, .vx), (0x321, .vx), (0x400, .dx), (0x403, .dx), (0x404, .dx), (0x500, .qx),
      (0x501, .qx), (0x502, .qx)], entersB (pushAt r.1) 1535 r.1 r.2 (pushOp r.1) true calm = true := by decide +kernel
  have b : ∀ r ∈ [(0x401, 0), (0x402, 1)], entersB (pushAt r.1) 1535 r.1 .dx (pushOp r.1)
      (lastGroup r.2 (pushOp r.1) ((pushAt r.1).core 1535)) calm = true := by decide +kernel
  exact ⟨fun r m => ⟨hasRoom (a r m), enters (a r m)⟩, fun r m => ⟨hasRoom (b r m), enters (b r m)⟩⟩

/-! ### Events of cores, messages, junctions -/

/-- A stream of one chunk from the pool to the pool. -/
def openStream : Stream := { isOpen := true, src := vec, ring := vec, chunk64 := 1, slots := 1, part := 1, opener := 1535 }

/-- core_events, first part: each event of an engine, an array and a stream. -/
theorem test_core_events :
    (let k := (lastCore { state := .running, ax := [entry 0 .queued] }).core 1535
     k.nextToBegin .ax = some (entry 0 .queued) ∧ k.halting = false ∧ k.faulting = none ∧ k.scoreOk (entry 0 .queued) = true ∧
       k.array.state = .idle ∧ freezeCauses calm.freeze = [] ∧ (entry 0 .queued).chunks = [] ∧
       (lastCore k).trafficOk 1535 ((lastCore k).traffic 1535 (entry 0 .queued)) = true) ∧
    (let k : Core := { ax := [entry 1 .queued], vx := [entry 0 .queued] }
     k.nextToBegin .ax = some (entry 1 .queued) ∧ k.scoreOk (entry 1 .queued) = false) ∧
    (let k : Core := { ax := [entry 0 (.frozen calm)], array := { state := .frozen, frozenAt := 999000000, causes := [1] } }
     k.frozenPush = some (entry 0 (.frozen calm), calm) ∧ k.array.state = .frozen ∧ k.array.longDone = false ∧
       k.array.frozenAt + 1000000 ≤ (lastCore k).clk) ∧
    16 < (List.replicate 17 5).length ∧
    ({ vx := [entry 0 (.rebuild 1)] } : Core).rebuilder = some (.vx, entry 0 (.rebuild 1)) ∧
    (let s := lastCore { ax := [entry 0 (.chamber (0xFF0000000000 + 1535 * 2 ^ 19) 1)] }
     listFind (fun p => match p.wait with
       | .chamber va gen => (s.chamber (s.coreOwner 1535) va).gen != gen
       | _ => false) (s.core 1535).ax = some (entry 0 (.chamber (0xFF0000000000 + 1535 * 2 ^ 19) 1))) ∧
    (let s := { lastCore {} with cpu := { reachStreams := [(191 * 16 + 15, openStream)] } }
     s.stream 1535 23 = openStream ∧ openStream.fillable = true ∧ s.streamBooks 1535 23 = (s, some .array) ∧
       s.chunkBooks openStream .array = [] ∧
       s.trafficOk 1535 [(vec.base, 64, false), (openStream.chunkVa 0, 64, true)] = true) := by decide +kernel

/-- core_events, second part: with a free spare, for an array fault and for a pool word, and without one. -/
theorem test_core_move :
    (let s := lastCore { state := .running, ax := [entry 0 (.broken false)] }
     s.mapped 1535 = true ∧ (s.core 1535).moveCause 1535 false = some pfArrayHard ∧ pfArrayHard ≠ 0 ∧ s.freeSpare 95 = some 16 ∧
       (s.core 1535).unsettled = false) ∧
    (lastCore { state := .running, ax := [entry 0 (.broken false)], qx := [entry 1 (.message 0 0 true)] }).mapped 1535 = true ∧
    (({ state := .running, ax := [entry 0 (.broken false)], qx := [entry 1 (.message 0 0 true)] } : Core).moveCause 1535 false =
      some pfArrayHard) ∧
    ({ state := .running, ax := [entry 0 (.broken false)], qx := [entry 1 (.message 0 0 true)] } : Core).unsettled = true ∧
    (let s := lastCore { faulting := some ⟨0, 0, 0, 0, 0, 0, pfPoolUe, 0, 0, 0⟩ }
     let s : State := { s with mem := { s.mem with poolUe := [(poolWord 1535 0, true)] } }
     (s.lostWordGranules (poolWord 1535 0) (poolWord 1536 0)).isEmpty = false ∧ (s.core 1535).moveCause 1535 true = some pfPoolUe ∧
       s.freeSpare 95 = some 16) ∧
    (let s := lastCore { ax := [entry 0 (.broken false)] }
     ({ s with cpu := { s.cpu with retired := [(17 * 95 + 16, true)] } } : State).freeSpare 95 = none) := by decide +kernel

/-- A message of eight words to the last queue of the last core. -/
def aMessage : Flying := ⟨none, 1535, 15, [1, 2, 3, 4, 5, 6, 7, 8], false, false, 0, none, 0⟩

/-- message_events, first part: a queue with room, a full one, a notice, the timer, a handler. -/
theorem test_message_events :
    (let s := { up with fab := { flying := [aMessage] } }
     (s.core 1535).state = .idle ∧ (s.inQueue 1535 15).length < 32 ∧ (s.core 1535).qx = [] ∧ aMessage.src = none ∧
       listFind (fun f => f.src == none && f.dst == 1535 && f.queue == 15 && !f.refused && !s.behind 95 f) s.fab.flying = some aMessage) ∧
    (let s := { up with fab := { flying := [aMessage], queues := [(1535 * 16 + 15, List.replicate 32 [])] } }
     32 ≤ (s.inQueue 1535 15).length ∧
       listFind (fun f => f.src == none && f.dst == 1535 && f.queue == 15 && !f.refused && !s.behind 95 f) s.fab.flying = some aMessage) ∧
    1535 ∈ [1535] ∧
    (let k := (lastCore { qx := [entry 0 (.message 1 999999000 false)] }).core 1535
     k.holding = some (entry 0 (.message 1 999999000 false)) ∧ 999999000 + 1000 ≤ up.clk) ∧
    (let s := { up with fab := { queues := [(1535 * 16 + 15, [[1]])] } }
     (s.core 1535).handlerMode = true ∧ (s.core 1535).pushes = [] ∧ listFind (fun q => !(s.inQueue 1535 q).isEmpty) (List.range 16) = some 15 ∧
       s.inQueue 1535 15 = [1] :: []) := by decide +kernel

/-- The last junction with a descriptor of one LA128 element in its reach's basin. -/
def junctionState (j : Junction) (contribs : List Flying) : State :=
  let ws := [1, 1, 1, 0, 0, 0, (0xFF8000000000 + 95 * 2 ^ 23) % 2 ^ 32, 0xFF80, 0, 0, 0, 0, 0, 0, 0, 0]
  { up with
    mem := { up.mem with basin := up.mem.basin.putAll 0 (95 * 2 ^ 23 + junctionOff 31) (wordsToBytes ws) }
    fab := { junctions := [(95 * 32 + 31, j)], contribs := contribs } }

/-- message_events, second part: arming the last junction, and a contribution to it. -/
theorem test_junctions :
    (let s := junctionState { arm := true, state := 3 } []
     (s.junction 95 31).arm = true ∧ (s.junction 95 31).state = 3 ∧
       (s.updJunction 95 31 (fun j => { j with arm := false })).jqValid 95 31 (s.jqDesc 95 31) = true) ∧
    (let f : Flying := ⟨some 1535, 95, 31, [7], false, false, 10, some (reachNode 95), 0⟩
     let s := junctionState { state := 1 } [f]
     let u := s.carry (f.node.getD 0) (reachNode 95) 2 (16 + f.words.length * elemBits f.fmt / 8)
     listFind (fun f => f.src == some 1535 && f.dst == 95 && f.queue == 31 && !f.refused && !s.behind 95 f) s.fab.contribs = some f ∧
       (u.junction 95 31).state = 1 ∧ f.fmt = (u.jqDesc 95 31).fmt ∧ f.words.length = (u.jqDesc 95 31).elements ∧
       (u.jqDesc 95 31).ordered = false ∧ f.words.any laReserved = false ∧ (u.junction 95 31).arrived = 0) := by decide +kernel

/-! ### Programs and host DMA -/

/-- The last slice's last core, for the packets that name cores. -/
def lastSlice : List Nat := [0, 0, 0, 0, 0, 2 ^ 31]
/-- The package with the last core loaded and in a given state. -/
def loaded (st : CoreState) : State := lastCore { state := st, handlerMode := false, image := some ⟨[0x1FF], 0, 0, [], []⟩ }
/-- RUN and its RESUME of that core, with a time-out. -/
def runPk (resume : Nat) : Packet := pack 0x302 ([0, 0xFFFFFFFF, 5, resume] ++ lastSlice ++ [0x80, 0])

/-- load_and_run: RUN, RESUME and the time-out. -/
theorem test_load_and_run :
    (let s := sent (loaded .idle) (.ring 1) (runPk 0)
     s.Begins (.ring 1) (runPk 0) (fly (.ring 1) (runPk 0)) [] (coreDoms (.ring 1) (runPk 0) s) ∧
       (runPk 0).b 0x1C 0 = false ∧ (runPk 1).b 0x1C 0 = true ∧ s.ownsSlices 1 ((runPk 0).mask192 0x20) = true ∧ s.coresOf ((runPk 0).mask192 0x20) ((runPk 0).f 0x38 7 0) = [1535] ∧
       (s.begun (fly (.ring 1) (runPk 0))).runCause [1535] false = none) ∧
    (let s := sent (loaded .halted) (.ring 1) (runPk 1)
     s.Begins (.ring 1) (runPk 1) (fly (.ring 1) (runPk 1)) [] (coreDoms (.ring 1) (runPk 1) s) ∧ (runPk 1).w 0x3C = 0 ∧
       (s.begun (fly (.ring 1) (runPk 1))).runCause [1535] true = none) ∧
    (let r : RunCmd := ⟨7, 1, [1535], some 1000000000, false⟩
     listFind (fun r => r.cmd == 7) [r] = some r ∧ r.deadline = some up.clk ∧ r.timedOut = false ∧ up.held r.part = false) :=
  ⟨⟨begins (by decide +kernel), by decide +kernel⟩, ⟨begins (by decide +kernel), by decide +kernel⟩, by decide +kernel⟩

/-- An image of one END in host memory, its digest and the packet that loads it on the last core. -/
def imageBytes (digest : List Byte) : List Byte :=
  wordsToBytes [0x48544541, 0x101, 192, 0, 0, 0, 0, 0] ++ digest ++
    wordsToBytes ([0x10001, 128, 8, 0] ++ List.replicate 12 0 ++ [0x1FF] ++ List.replicate 15 0)
def image : List Byte := imageBytes (sha256 (imageBytes (List.replicate 32 0)))
def loadPk : Packet := pack 0x301 ([0, 0, 192, 3] ++ lastSlice ++ [0x80, 0])

/-- Its translation fits the instruction memory when the free value of its size does. -/
theorem image_translates (h : Config.translationBytes (ofBytes (imgDigest image)) ≤ 65536) :
    ∃ im, translateImage image = .ok im := by
  have a : imgSectionBad image (imgSections image) = false := by decide +kernel
  have b : imgReserved image (imgSections image) = false := by decide +kernel
  have c : (((imgSections image).filter (fun x => x.kind == 1)).flatMap (fun x => x.data image)) = toBytes 0x1FF 8 := by
    decide +kernel
  have d : ((imgSections image).filter (fun x => x.kind == 2)) = [] := by decide +kernel
  have e : imgWord image 12 = 0 := by decide +kernel
  have f : decodeCode 2 0 [0x1FF] [] = .ok [(0, Op.ofWords [0x1FF])] := by rfl
  have g : (chunksOf 8 1 (toBytes 0x1FF 8)).map ofBytes = [0x1FF] := by decide +kernel
  have k : pathFault [] [(0, Op.ofWords [0x1FF])] 0 = none := by decide +kernel
  have m : assignRegions [] = some [] := by decide +kernel
  have n : branchFault [0] false [(0, Op.ofWords [0x1FF])] = none := by decide +kernel
  have l : (toBytes 0x1FF 8).length / 8 = 1 := by decide +kernel
  simp only [translateImage, a, b, c, d, e, l, g]
  simp [f, k, m, n, Nat.not_lt.2 h]

/-- load_and_run: LOAD_IMAGE. -/
theorem test_load_image :
    (let s := sent up (.ring 1) loadPk
     s.Begins (.ring 1) loadPk (fly (.ring 1) loadPk) [3] (coreDoms (.ring 1) loadPk s) ∧
       loadPk.b 0x1C 0 = true ∧ loadPk.b 0x1C 1 = true ∧ s.ownsSlices 1 (loadPk.mask192 0x20) = true ∧
       ((s.begun (fly (.ring 1) loadPk)).chargeImage (fly (.ring 1) loadPk)).imageBytes (fly (.ring 1) loadPk) (some image) [] =
         some image) ∧
    checkHeader image 192 = none ∧
    (Config.translationBytes (ofBytes (imgDigest image)) ≤ 65536 → ∃ im, translateImage image = .ok im) :=
  ⟨⟨begins (by decide +kernel), by decide +kernel⟩, by decide +kernel, image_translates⟩

/-! ### Engine instructions on operands -/

/-- A descriptor of `d0` × `d1` elements of a format in the last core's pool. -/
def inPool (f off d0 d1 stride : Nat) : Desc :=
  { level := 1, format := f, dim0 := d0, dim1 := d1, dim2 := 1, dim3 := 1, stride1 := stride, base := vec.base + off }
/-- A W4 tensor of one block whose chamber is being rebuilt. -/
def compressed (off : Nat) : Desc :=
  { inPool 0 off 16 16 16 with layout := 1, comp := 1, chamberAddr := vec.base + 0x1300 }
/-- FP32, INT32 and LA128 operands, 8-bit ones of a multiplication, a drain's destination, one element, a chamber, a
message's place and a message, 16 rows to gather, a chamber under rebuild, two compressed tensors on it, and a message to a core. -/
def operands : List (Nat × Desc) :=
  [(0, inPool 8 0x1000 16 1 64), (1, inPool 8 0x1040 16 1 64), (2, inPool 11 0x1080 16 1 64), (3, inPool 10 0x2000 16 16 256),
   (4, inPool 0 0 16 16 16), (5, inPool 0 0x100 16 16 16), (6, inPool 8 0x3000 16 16 64), (7, inPool 8 0x10C0 1 1 64),
   (8, inPool 8 0x1100 16 1 64), (9, inPool 8 0x1200 8 1 64), (10, inPool 8 0x1240 8 1 64), (11, inPool 8 0x7000 16 16 64),
   (12, inPool 0 0x1280 16 1 64), (13, inPool 10 0x12C0 1 1 64), (14, inPool 8 0x1300 8 1 64), (15, compressed 0x3800),
   (16, compressed 0x3900), (17, inPool 8 0x1340 8 1 64)]
/-- The last core at an engine instruction on those operands: the chamber valid in its active bank, QCONFIG in the message's
place, a message in the last queue, a junction that takes one LA128 element, stream 23 open with nothing in its ring. -/
def worker (ws : List Nat) : State :=
  let base := junctionState { state := 1 } []
  let k : Core := { state := .running, handlerMode := false, slots := operands, image := some ⟨ws, 0, 0, [], []⟩
                    tiles := [(0, { typ := .la128, els := List.replicate 256 1 })] }
  let open23 : Stream := { isOpen := true, src := vec, ring := vec, chunk64 := 1, slots := 1, part := 1, opener := 1535 }
  let s := { base with cpu := { cores := [(1535, k)], reachStreams := [(191 * 16 + 14, { open23 with filled := 1 }), (191 * 16 + 15, open23)] }
                       fab := { base.fab with queues := [(1535 * 16 + 15, [[1]])] } }
  let lc := 1 + 2 * 16 + 0x200
  let busy := 1 + 3 * 16 + 0x800
  let b0 := vec.base + 0x5000
  let b1 := vec.base + 0x5100
  ((s.writeVA 1 (vec.base + 0x1100) (wordsToBytes [lc, compl32 lc, 0, 7 + 8 * 2 ^ 16, b0 % 2 ^ 32, b0 / 2 ^ 32, b1 % 2 ^ 32, b1 / 2 ^ 32])).writeVA 1
    (vec.base + 0x1240) (wordsToBytes [0x10FF])).writeVA 1 (vec.base + 0x1300) (wordsToBytes ([busy, compl32 busy, 0, 7 + 16 * 2 ^ 16,
      b0 % 2 ^ 32, b0 / 2 ^ 32, b1 % 2 ^ 32, b1 / 2 ^ 32] ++ List.replicate 8 0 ++ [0x1001]))
def workOp (ws : List Nat) : Op := Op.ofWords ws
def handles (l : List Nat) : Nat := (l.zipIdx.map (fun x => x.1 * 2 ^ (12 * x.2))).sum
/-- MMA of two 8-bit blocks that overwrites its tile, DRAIN, ACC_LOAD, VEW, VRED, VCVT, LC_REBUILD, LC_FLIP, COPY, GATHER and
SCATTER of one group, STREAM_OPEN and STREAM_CLOSE, a SEND of QCONFIG, RECV. -/
def mmaWords : List Nat := [word 0x200 16 0 0 0 0 1, (4 * 2 ^ 32 + 5 * 2 ^ 44)]
def drainWords : List Nat := [word 0x201 1 0 0 0 0 3, 0x80, 6, 0]
def workWords : List (List Nat) :=
  [mmaWords, drainWords, [word 0x202 0 0 0 0 0 1, 3], [word 0x203 0 0 0 0 7 0], [word 0x300 0 0 0 0 1 1, handles [0, 1, 0, 0]],
   [word 0x301 0 0 0 0 0 1, handles [7, 0]], [word 0x302 0 0 0 0 0 2, handles [12, 0, 8], 0x08], [word 0x310 63 0 0 0 0 0],
   [word 0x320 1 0 0 0 0 1, handles [8, 1]], [word 0x321 0 0 0 0 8 0], [word 0x400 0 0 0 0 0 1, handles [1, 0]],
   [word 0x401 0 0 0 0 0 1, handles [6, 11, 2]], [word 0x402 0 0 0 0 0 1, handles [6, 11, 2]], [word 0x403 21 0 0 0 0 1, handles [0, 1] + 4 * 2 ^ 24],
   [word 0x404 23 0 0 0 0 0], [word 0x500 0 0 0 0 0 1, 10 + 1535 * 2 ^ 16], [word 0x502 15 0 0 0 0 1, 9]]
/-- JSEND and SEND to another core, which wait for the network, RECV from an empty queue, the close of a stream that has a chunk,
and MMA, DRAIN, VCVT, LC_REBUILD and COPY of the chamber under rebuild. -/
def jsendWords : List Nat := [word 0x501 0 0 0 0 0 1, 13 + 95 * 2 ^ 12 + 31 * 2 ^ 19]
def waitWords : List (List Nat) :=
  [jsendWords, [word 0x500 0 0 0 0 0 1, 17], [word 0x502 14 0 0 0 0 1, 9], [word 0x404 22 0 0 0 0 0],
   [word 0x200 16 0 0 0 0 1, (15 * 2 ^ 32 + 5 * 2 ^ 44)], [word 0x201 1 0 0 0 0 3, 0x80 + 2 ^ 18, 6 + 14 * 2 ^ 36, 0],
   [word 0x302 0 0 0 0 0 2, handles [15, 4, 6], 0], [word 0x320 1 0 0 0 0 1, handles [14, 1]], [word 0x400 0 0 0 0 0 1, handles [15, 16]]]

/-- What the engine of an instruction finds: the state at its beginning and what it does. -/
def found (ws : List Nat) (act : State → Push → Op → State × Act) : State × Act :=
  let s := worker ws
  let o := workOp ws
  let p := s.makePush 1535 o 0 true
  act (s.entered 1535 o true calm) p (Op.ofWords (p.head :: p.ext))
def isDone : Act → Bool
  | .done _ => true
  | _ => false
def isHold : Act → Bool
  | .hold _ => true
  | _ => false
theorem done_of {x : State × Act} (h : isDone x.2 = true) : ∃ u r, x = (u, .done r) := by
  obtain ⟨u, a⟩ := x
  cases a <;> simp [isDone] at h
  exact ⟨u, _, rfl⟩
theorem hold_of {x : State × Act} (h : isHold x.2 = true) : ∃ u w, x = (u, .hold w) := by
  obtain ⟨u, a⟩ := x
  cases a <;> simp [isHold] at h
  exact ⟨u, _, rfl⟩

/-- The engines of those instructions. -/
def workEngines : List Engine := [.ax, .ax, .ax, .ax, .vx, .vx, .vx, .vx, .vx, .vx, .dx, .dx, .dx, .dx, .dx, .qx, .qx]
def waitEngines : List Engine := [.qx, .qx, .qx, .dx, .ax, .ax, .vx, .vx, .dx]

/-- engine_pushes: each of these enters its queue and its engine begins it. -/
theorem test_engine_effects :
    (∀ e ∈ workWords.zip workEngines ++ waitWords.zip waitEngines,
      (worker e.1).Enters 1535 (workOp e.1).opc e.2 (workOp e.1) true calm) ∧
    (∀ g ∈ [0, 1], lastGroup g (workOp (workWords.getD (11 + g) [])) ((worker (workWords.getD (11 + g) [])).core 1535) = true) := by
  have a : ∀ e ∈ workWords.zip workEngines ++ waitWords.zip waitEngines,
      entersB (worker e.1) 1535 (workOp e.1).opc e.2 (workOp e.1) true calm = true := by decide +kernel
  exact ⟨fun e m => enters (a e m), by decide +kernel⟩

/-- engine_pushes: the effect is done at once. -/
theorem test_engine_done :
    (∀ e ∈ ([(mmaWords, fun v p o => v.axMma 1535 p o calm), (drainWords, fun v p o => v.axDrain 1535 p o calm),
        (workWords.getD 2 [], fun v p o => v.axAccLoad 1535 p o calm), (workWords.getD 3 [], fun v _ o => v.axAccClear 1535 o),
        (workWords.getD 4 [], fun v p o => v.vxVew 1535 p o calm), (workWords.getD 5 [], fun v p o => v.vxVred 1535 p o calm),
        (workWords.getD 6 [], fun v p o => v.vxVcvt 1535 p o calm), (workWords.getD 7 [], fun v _ o => v.vxRegionClear 1535 o),
        (workWords.getD 8 [], fun v p o => v.vxLcRebuild 1535 p o calm), (workWords.getD 9 [], fun v p _ => v.vxLcFlip 1535 p),
        (workWords.getD 10 [], fun v p _ => v.dxCopy 1535 p calm), (workWords.getD 11 [], fun v p _ => v.dxIndexed 1535 p true calm),
        (workWords.getD 12 [], fun v p _ => v.dxIndexed 1535 p false calm), (workWords.getD 13 [], fun v p o => v.dxStreamOpen 1535 p o),
        (workWords.getD 14 [], fun v _ o => v.dxStreamClose 1535 o), (workWords.getD 15 [], fun v p o => v.qxSend 1535 p o calm),
        (workWords.getD 16 [], fun v p o => v.qxRecv 1535 p o)] : List (List Nat × (State → Push → Op → State × Act))),
      ∃ u r, found e.1 e.2 = (u, .done r)) := by
  refine fun e m => done_of ?_
  revert e
  decide +kernel

/-- engine_pushes: the command waits. -/
theorem test_engine_waits :
    (∀ e ∈ ([(jsendWords, fun v p o => v.qxJsend 1535 p o calm), (waitWords.getD 1 [], fun v p o => v.qxSend 1535 p o calm),
        (waitWords.getD 2 [], fun v p o => v.qxRecv 1535 p o), (waitWords.getD 3 [], fun v _ o => v.dxStreamClose 1535 o),
        (waitWords.getD 4 [], fun v p o => v.axMma 1535 p o calm), (waitWords.getD 5 [], fun v p o => v.axDrain 1535 p o calm),
        (waitWords.getD 6 [], fun v p o => v.vxVcvt 1535 p o calm), (waitWords.getD 7 [], fun v p o => v.vxLcRebuild 1535 p o calm),
        (waitWords.getD 8 [], fun v p _ => v.dxCopy 1535 p calm)] : List (List Nat × (State → Push → Op → State × Act))),
      ∃ u w, found e.1 e.2 = (u, .hold w)) := by
  refine fun e m => hold_of ?_
  revert e
  decide +kernel

/-- core_events: a compressed stream whose ring's chamber is being rebuilt waits. -/
theorem test_stream_waits :
    (let st := { openStream with src := compressed 0x3900, ring := compressed 0x3800 }
     let s := { worker [] with cpu := { (worker []).cpu with reachStreams := [(191 * 16 + 15, st)] } }
     s.stream 1535 23 = st ∧ st.fillable = true ∧ (s.streamBooks 1535 23).2 = none) := by decide +kernel

/-- A host COPY into the pool, between two device ends, and its read. -/
def copyPk (src : Nat) (flags : Nat) : Packet :=
  pack 0x201 [src % 2 ^ 32, src / 2 ^ 32, vec.base % 2 ^ 32, vec.base / 2 ^ 32, 64, 0, flags]
/-- A GATHER of one element through a table in the pool, and a SCATTER of one to the host. -/
def gatherPk : Packet := pack 0x202 [vec.base % 2 ^ 32, vec.base / 2 ^ 32, vec.base % 2 ^ 32, vec.base / 2 ^ 32, 64, 1, 0]
def scatterPk : Packet := pack 0x203 [vec.base % 2 ^ 32, vec.base / 2 ^ 32, vec.base % 2 ^ 32, vec.base / 2 ^ 32, 64, 1, 2]
/-- The same from the host, and the other ends of a table of addresses in the host. -/
def gatherHost : Packet := pack 0x202 [vec.base % 2 ^ 32, vec.base / 2 ^ 32, vec.base % 2 ^ 32, vec.base / 2 ^ 32, 64, 16, 5]
def scatterHost : Packet := pack 0x203 [vec.base % 2 ^ 32, vec.base / 2 ^ 32, vec.base % 2 ^ 32, vec.base / 2 ^ 32, 64, 16, 5]

/-- host_dma: each command with nothing to read from the host, each that waits, and the completion of a read. -/
theorem test_host_dma : (∀ pk ∈ [copyPk vec.base 0, gatherPk, scatterPk, copyPk 0 1, gatherHost, scatterHost],
      let s := sent up (.ring 1) pk
      s.Begins (.ring 1) pk (fly (.ring 1) pk) (hdRes (.ring 1) pk s) [] ∧ hdRange pk = false ∧
        (s.begun (fly (.ring 1) pk)).hdRefusal 1 pk = none ∧ (s.begun (fly (.ring 1) pk)).hdAsleep 1 pk = false) ∧
    (∀ pk ∈ [copyPk vec.base 0, gatherPk, scatterPk], hostNeeds pk ⟨7, []⟩ = []) ∧
    hostNeeds (copyPk 0 1) ⟨7, []⟩ = [(0, 64)] ∧
    (∀ pk ∈ [gatherHost, scatterHost], hostNeeds pk ⟨7, []⟩ ≠ [] ∧ ∀ e ∈ hostNeeds pk ⟨7, []⟩, e.2 ≠ 0) ∧
    (let s := { sent up (.ring 1) (copyPk 0 1) with cpu := { hostJobs := [⟨7, []⟩] } }
     listFind (fun j => j.cmd == 7) s.cpu.hostJobs = some ⟨7, []⟩ ∧ s.flight 7 = some (fly (.ring 1) (copyPk 0 1)) ∧
       (⟨7, []⟩ : HostJob).fits (copyPk 0 1) ⟨0, 0, 64, List.replicate 64 9, 0⟩ = true) := by
  have a : ∀ pk ∈ [copyPk vec.base 0, gatherPk, scatterPk, copyPk 0 1, gatherHost, scatterHost],
      beginsB (sent up (.ring 1) pk) (.ring 1) pk (hdRes (.ring 1) pk (sent up (.ring 1) pk)) [] = true ∧ hdRange pk = false ∧
        ((sent up (.ring 1) pk).begun (fly (.ring 1) pk)).hdRefusal 1 pk = none ∧
        ((sent up (.ring 1) pk).begun (fly (.ring 1) pk)).hdAsleep 1 pk = false := by decide +kernel
  exact ⟨fun pk m => ⟨begins' (a pk m).1, (a pk m).2⟩, by decide +kernel⟩

/-! ### Memory -/

/-- The last page below the on-chip window, and the last frame of tier 1. -/
def lastPage : Nat := 0xFF0000000000 - 2 ^ 21
def lastFrame : Nat := 366191
/-- The package with that page mapped on that frame for partition 1, FRESH or not. -/
def withPage (fresh : Bool) : State :=
  { up with mem := { up.mem with
    pt := [(pteKey 1 1 lastPage, mkPte 1), (pteKey 1 2 lastPage, mkPte 1),
      (pteKey 1 3 lastPage, mkPte (pteWord (lastFrame * 2 ^ 21) false false fresh true true))]
    frames := [(lastFrame, .owned 1)] } }
def fresh1 : State := withPage true
def paged : State := withPage false

/-- A command on ring 1, and what `Begins` asks of it. -/
def cmd1 (s : State) (pk : Packet) : State := sent s (.ring 1) pk

/-- MEM_MAP of the last page, MEM_UNMAP of it, MEM_APERTURE at the greatest address, MEM_CONFIG for partition 64. -/
def mapPk (n : Nat) : Packet := pack 0x210 [lastPage % 2 ^ 32, lastPage / 2 ^ 32, n, 1, 0]
def unmapPk : Packet := pack 0x211 [lastPage % 2 ^ 32, lastPage / 2 ^ 32, 1]
def aperturePk : Packet := pack 0x212 [(0xFF0000000000 - 2 ^ 31) % 2 ^ 32, (0xFF0000000000 - 2 ^ 31) / 2 ^ 32, 1]
def memConfigPk : Packet := pack 0x031 [15, 0xFFFF0140]

/-- memory_commands. -/
theorem test_memory_commands : (∀ e ∈ [(up, mapPk 1), (up, mapPk 2), (paged, unmapPk), (up, aperturePk), (up, memConfigPk)],
      (cmd1 e.1 e.2).Begins (.ring 1) e.2 (fly (.ring 1) e.2) [] []) ∧
    (let s := cmd1 up (mapPk 1)
     s.mapRefusal (.ring 1) (mapPk 1) = none ∧ s.framesFit (mapPk 1) [lastFrame] = true) ∧
    (cmd1 up (mapPk 2)).mapRefusal (.ring 1) (mapPk 2) = some (stMemRefused, 1) ∧
    (unmapPk.w 0x18 ≤ 2 ^ 20 ∧ badRange lastPage 1 = false ∧ ∀ a ∈ pagesOf lastPage 1, paged.mem.leafOf 1 a ≠ none) ∧
    (aperturePk.b 0x18 0 = true ∧ aperturePk.d 0x10 % 2 ^ 31 = 0 ∧ aperturePk.d 0x10 + 2 ^ 31 ≤ 0xFF0000000000) ∧
    (memConfigPk.b 0x14 8 = true ∧ memConfigPk.f 0x14 31 16 ≠ 0 ∧ memConfigPk.f 0x14 7 0 = 64 ∧
      memConfigPk.b 0x10 1 = true ∧ memConfigPk.b 0x10 0 = true ∧ memConfigPk.b 0x10 3 = true ∧ memConfigPk.b 0x10 2 = true ∧
      up.mem.upperInUse 0 = false ∧ up.mem.upperInUse 1 = false) := by
  have a : ∀ e ∈ [(up, mapPk 1), (up, mapPk 2), (paged, unmapPk), (up, aperturePk), (up, memConfigPk)],
      beginsB (cmd1 e.1 e.2) (.ring 1) e.2 [] [] = true := by decide +kernel
  exact ⟨fun e m => begins' (a e m), by decide +kernel⟩

/-- memory_lines: the last page and frame, a FRESH page, the last line of tier 1 unmarked, marked, twin-backed and held, its bytes, the
last line of tier 2 in the cache, and errors at the bounds of the code. -/
theorem test_memory_lines : (1 ≤ 64 ∧ lastPage % 2 ^ 21 = 0 ∧ lastPage < 2 ^ 48 ∧ lastFrame < 2 ^ 25 ∧ lastFrame < tier2Frame0 ∧
      tier2Frame0 < 2 ^ 25) ∧
    (∃ w, fresh1.mem.walk 1 lastPage = .leaf w ∧ pteFresh w = true) ∧ lastPage + 2 ^ 21 ≤ 0xFF0000000000 ∧
    (let line := lastFrame * 32768 + 32767
     lineExists line = true ∧ up.tierInTest (tierOf (line * 64)) = false ∧ up.mem.marked (line * 64) = false ∧
       up.mem.granHeld (line * 64) = false ∧ tierOf (line * 64) = 0 ∧ up.awake (unitDomain (up.mem.unitOf (line * 64))) = true ∧
       ({ up.mem with twins := [(lastFrame, some tier2Frame0)] } : Mem).twinned (line * 64) = true ∧
       ({ up.mem with heldGran := [(line * 64 / 4096, some [])] } : Mem).granHeld (line * 64) = true ∧
       up.mem.twinned (line * 64) = false ∧ (line * 64 + 63) / 64 = line ∧ (line * 64 + 63) % 64 + [0xFF#8].length ≤ 64 ∧
       ({ up with mem := { up.mem with marks := [(line, some true)] } } : State).mem.marked (line * 64) = true) ∧
    (lineExists (tier2Base / 64 + 2 ^ 31 - 1) = true ∧ tierOf ((tier2Base / 64 + 2 ^ 31 - 1) * 64) = 1 ∧
       (let d := (tier2Base / 64 + 2 ^ 31 - 1) * 64
        ({ up.mem with cache := [(up.mem.cacheKey d, [⟨15, d / 128, false⟩])] } : Mem).cached d = true)) ∧
    (lineFinds [] = 0 ∧ lineFinds [(71, 255), (0, 1), (5, 7)] = 1 ∧ lineFinds [(71, 255), (0, 1), (5, 7), (6, 1), (7, 1)] = 2) ∧
    (∀ e ∈ [(71, 255), (0, 1), (5, 7), (6, 1), (7, 1), (8, 1)], e.1 < 72 ∧ 0 < e.2 ∧ e.2 < 256) ∧
    ([(71, 255), (0, 1), (5, 7), (6, 1), (7, 1), (8, 1)].map (·.1)).Nodup :=
  ⟨by decide +kernel, ⟨pteWord (lastFrame * 2 ^ 21) false false true true true, by decide +kernel⟩, by decide +kernel⟩

/-- The last controller in a given state, with host 0 the lock-keeper. -/
def tested (c : MemCtrl) : State := { up with own := { owner := some .host0 }, mem := { up.mem with ctrls := [(27, c)] } }

/-- memory_events. -/
theorem test_memory_events :
    (let w := pteWord (lastFrame * 2 ^ 21) false false true true true
     fresh1.mem.leafOf 1 lastPage = some w ∧
       fresh1.translate 1 lastPage true = .fresh (pteFrame w * 2 ^ 21 + lastPage % 2 ^ 21) ∧ inPage lastPage (2 ^ 21) = true ∧
       pteFrame w ∉ fresh1.mem.zeroQueue ∧ pteFresh w = true ∧
       pteFrame w ∈ ({ fresh1.mem with zeroQueue := [0, lastFrame] } : Mem).zeroQueue) ∧
    (let s := fresh1.holdWrite 1 lastPage [1] false
     ∃ h ∈ s.mem.heldWrites, h.part = 1 ∧ h.va / 2 ^ 21 = lastPage / 2 ^ 21) ∧
    ({ up with mem := { up.mem with zeroQueue := [lastFrame] } } : State).mem.zeroQueue = lastFrame :: [] ∧
    (tierDomains (frameTier lastFrame)).all up.awake = true ∧
    (let s := { up with mem := { up.mem with twins := [(0, some tier2Frame0)] } }
     s.mem.twins.get none (511 / 512) = some tier2Frame0 ∧ 20 ≤ 20 ∧ s.mem.twinOnce.get false 511 = false ∧
       s.mem.granuleMarked (tier2Frame0 * 512 + 511) = false) ∧
    (27 < 28 ∧ 255 < 256 ∧ refreshCode 255 > (up.ctrl 27).refresh ∧ ((tested { refresh := 2 }).ctrl 27).refresh = 2 ∧
      ((tested { refresh := 2 }).ctrl 27).cool95 = none ∧ ((tested { refresh := 1 }).ctrl 27).refresh = 1 ∧
      ((tested { refresh := 1 }).ctrl 27).cool85 = none ∧ refreshCode 82 ≤ 1 ∧
      (let s := tested { refresh := 2, cool95 := some 0, cool85 := some 0 }
       cooled (s.ctrl 27).cool95 s.clk = true ∧ cooled (s.ctrl 27).cool85 s.clk = true)) ∧
    ((up.ctrl 27).state ≠ .lost ∧ up.mem.lost2 = none ∧ up.mem.movesFit 1 [] = true) ∧
    ({ up with mem := { up.mem with lost2 := some 26 } } : State).mem.lost2 ≠ none :=
  ⟨by decide +kernel, ⟨⟨1, lastPage, [1], false, 1000000000, none⟩, by decide +kernel⟩, by decide +kernel⟩

/-- Partition 1's aperture bound to the last gigabytes below the window. -/
def bound1 (s : State) : State := { s with mem := { s.mem with apertures := [(0, some (0xFF0000000000 - 2 ^ 31))] } }

/-- host_bar2: an aperture that is not bound, and a bound one at its last page, FRESH, opened, absent, and behind a held write. -/
theorem test_host_bar2 : (1 < 2 ∧ 63 * 2 ^ 31 < 2 ^ 37 ∧ up.mem.apertures.get none 63 = none ∧ 4095 % 4096 + 1 ≤ 4096) ∧
    (∀ s ∈ [bound1 fresh1, bound1 paged], s.mem.apertures.get none 0 = some (0xFF0000000000 - 2 ^ 31) ∧ s.mayProceed 1 3 = true ∧
      s.extentMayProceed 1 7 lastPage 1 true = true ∧ s.extentMayProceed 1 7 lastPage 1 false = true ∧ ¬(∃ h ∈ s.mem.heldWrites,
        h.part = 1 ∧ h.host.map (·.1) = some 1 ∧ h.va / 2 ^ 21 = lastPage / 2 ^ 21) ∧ s.extentFault 1 lastPage 1 true = none ∧ s.extentFault 1 lastPage 1 false = none) ∧
    (let t := ((bound1 fresh1).charge 1 3 1).chargeExtent 1 7 lastPage 1 true
     ∃ d, t.translate 1 lastPage true = .fresh d) ∧
    (let t := ((bound1 paged).charge 1 3 1).chargeExtent 1 7 lastPage 1 true
     ∃ d, t.translate 1 lastPage true = .tier d) ∧
    (∃ h ∈ ((bound1 fresh1).holdWrite 1 lastPage [1] false (some (1, 0, 0))).mem.heldWrites,
      h.part = 1 ∧ h.host.map (·.1) = some 1 ∧ h.va / 2 ^ 21 = lastPage / 2 ^ 21) ∧
    (bound1 up).extentFault 1 lastPage 1 true = some cTranslation ∧ (bound1 up).extentMayProceed 1 7 lastPage 1 true = true ∧
    (bound1 up).extentFault 1 lastPage 1 false ≠ none ∧ (bound1 up).mayProceed 1 3 = true ∧
    (bound1 up).extentMayProceed 1 7 lastPage 1 false = true :=
  ⟨by decide +kernel, by decide +kernel, ⟨lastFrame * 2 ^ 21, by decide +kernel⟩, ⟨lastFrame * 2 ^ 21, by decide +kernel⟩,
    ⟨⟨1, lastPage, [1], false, 1000000000, some (1, 0, 0)⟩, by decide +kernel⟩, by decide +kernel⟩

/-- memory_tests: in TEST with nothing running, with a run of each kind, and in service. -/
theorem test_memory_tests : (tested {}).isOwner .host0 = true ∧
    ((tested { state := .test }).ctrl 27).state = .test ∧ bit 0xFFFF0006 2 = true ∧ bits 0xFFFF0006 1 0 = 2 ∧ bit 0xFFFF0006 3 = false ∧
    bit 8 3 = true ∧ bit 8 2 = false ∧ ((tested { lbRunning := true }).ctrl 27).lbRunning = true ∧
    bit 0x521 0 = true ∧ bit 0x521 1 = false ∧ bits 0x521 11 8 ≤ 5 ∧ bits 0x521 5 4 ≤ 2 ∧
    bit 2 1 = true ∧ ((tested { tgBusy := true }).ctrl 27).tgBusy = true ∧ ((tested {}).ctrl 27).state ≠ .test ∧
    (let s := tested { lbRunning := true, lbDuration := 1, lbStart := 999999000 }
     s.loopCmd 27 = none ∧ 0 < (s.ctrl 27).lbDuration ∧ (s.ctrl 27).lbStart + 1000 * (s.ctrl 27).lbDuration ≤ s.clk) ∧
    (let s := tested { tgBusy := true }
     (s.ctrl 27).tgStop = false ∧ 0 < (s.ctrl 27).tgLoops) := by decide +kernel

/-! ### Quay engines -/

/-- v0 ← an immediate in every lane; stored to output 0; END. -/
def ldi : Nat := 0x04 + 0x3F800000 * 2 ^ 32
def quayWords : List Nat := [ldi, 0x02, 0xFF]
/-- QUAY_LOAD from the host into the lowest free slot; from memory into slot 7; QUAY_RUN of slot 7; QUAY_ACC opening and
closing window 7. -/
def quayLoadPk (w : Nat) : Packet := pack 0x801 [lastPage % 2 ^ 32, lastPage / 2 ^ 32, w]
def loadAny : Packet := quayLoadPk (3 + 2 ^ 19 + 2 ^ 24)
def load7 : Packet := quayLoadPk (3 + 7 * 2 ^ 16)
def quayRunPk : Packet := pack 0x802 ([7, 0, 1, 0, 16, 0] ++ [lastPage % 2 ^ 32, lastPage / 2 ^ 32, lastPage % 2 ^ 32 + 512, lastPage / 2 ^ 32])
def accOpen (clear : Nat) : Packet := pack 0x803 ([1 + 7 * 4 + clear * 256 + 8 * 2 ^ 12 + 8 * 2 ^ 16, 0] ++
  [(lastPage - 2 ^ 21) % 2 ^ 32, lastPage / 2 ^ 32 , (lastPage + 2 ^ 21 - 64) % 2 ^ 32, lastPage / 2 ^ 32, 16, 0])
def accClose : Packet := pack 0x803 [2 + 7 * 4]

/-- The program in the partition's last page; the stream table of a run over it, home stream 0 and output 0. -/
def withCode : State := paged.writeVA 1 lastPage (wordsToBytes [0x04, 0x3F800000, 0x02, 0, 0xFF, 0])
def streamWords (at_ : Nat) : List Nat := [0x118, 0, at_ % 2 ^ 32, at_ / 2 ^ 32, 0, 0, 0, 0]
def runnable : State :=
  let s := { paged with quay := { slots := [(7, some ⟨1, quayWords⟩)] } }
  (s.writeVA 1 lastPage (wordsToBytes (streamWords (lastPage + 0x1000)))).writeVA 1 (lastPage + 192)
    (wordsToBytes (streamWords (lastPage + 0x2000)))
/-- Window 7 open, its accumulator the last line of the page. -/
def windowed : State :=
  { paged with quay := { windows := [(7, some ⟨1, lastPage - 2 ^ 21, lastPage + 2 ^ 21 - 64, 16, 8, 8⟩)] } }

/-- The run that the checks of QUAY_RUN accept. -/
def runOf : QAnswer → Option QRun
  | .run r => some r
  | _ => none

/-- quay_commands. -/
theorem test_quay_commands :
    (∀ e ∈ [(up, loadAny, [3]), (withCode, load7, withCode.extentRes 1 6 lastPage 1),
        (runnable, quayRunPk, runnable.extentRes 1 6 lastPage 1), (paged, accOpen 0, []),
        (paged, accOpen 1, paged.extentRes 1 6 (lastPage + 2 ^ 21 - 64) 1), (windowed, accClose, [])],
      (cmd1 e.1 e.2.1).Begins (.ring 1) e.2.1 (fly (.ring 1) e.2.1) e.2.2 [] ∧ e.1.pathDie (.ring 1) = 6) ∧
    (let b := (cmd1 up loadAny).begun (fly (.ring 1) loadAny)
     b.quayProgram 1 loadAny (some (wordsToBytes [0x04, 0x3F800000, 0x02, 0, 0xFF, 0])) [] = .ok quayWords ∧
       loadAny.b 0x18 19 = true ∧ loadAny.f 0x18 18 16 = 0 ∧ up.freeSlot = some 0) ∧
    (let b := (cmd1 withCode load7).begun (fly (.ring 1) load7)
     b.quayProgram 1 load7 none [] = .ok quayWords ∧ load7.b 0x18 19 = false ∧ load7.f 0x18 18 16 = 7 ∧
       withCode.slotBusy 7 = false ∧ withCode.quay.slots.get none 7 = none) ∧
    qCheck quayWords = none ∧
    (let b := (cmd1 runnable quayRunPk).begun (fly (.ring 1) quayRunPk)
     ∃ r, runOf (b.quayCheck (fly (.ring 1) quayRunPk) []) = some r ∧
       ({ runnable with quay := { runnable.quay with runs := [r] } } : State).headRun 0 = some r ∧ r.began = false) ∧
    (∀ clear ∈ [0, 1],
      let pk := accOpen clear
      let x : Window := ⟨1, pk.d 0x18, pk.d 0x20, pk.d 0x28, pk.f 0x10 15 12, pk.f 0x10 19 16⟩
      pk.f 0x10 1 0 = 1 ∧ paged.quay.windows.get none (pk.f 0x10 6 2) = none ∧ windowPair x.inFmt x.accFmt = true ∧
        x.count = 16 ∧ x.view % 64 = 0 ∧ x.acc % 64 = 0 ∧ x.view + 64 ≤ 0xFF0000000000 ∧ x.acc + 64 ≤ 0xFF0000000000 ∧
        paged.meetsPage 1 x.view 64 = false ∧ paged.meetsView 1 x.view 64 = false ∧ paged.runUses 1 x.acc 64 = false ∧
        paged.runUses 1 x.view 64 = false ∧ rangesMeet x.view 64 x.acc 64 = false ∧
        ((cmd1 paged pk).begun (fly (.ring 1) pk)).extentAsleep 1 x.acc 64 = false ∧
        ((cmd1 paged pk).begun (fly (.ring 1) pk)).meetsView 1 x.acc 64 = false ∧ ((cmd1 paged pk).begun (fly (.ring 1) pk)).writeCauses 1 x.acc 64 = []) ∧
    accClose.f 0x10 1 0 = 2 ∧ (windowed.quay.windows.get none (accClose.f 0x10 6 2)).map (·.part) = some 1 := by
  have a : ∀ e ∈ [(up, loadAny, [3]), (withCode, load7, withCode.extentRes 1 6 lastPage 1),
        (runnable, quayRunPk, runnable.extentRes 1 6 lastPage 1), (paged, accOpen 0, []),
        (paged, accOpen 1, paged.extentRes 1 6 (lastPage + 2 ^ 21 - 64) 1), (windowed, accClose, [])],
      beginsB (cmd1 e.1 e.2.1) (.ring 1) e.2.1 e.2.2 [] = true ∧ e.1.pathDie (.ring 1) = 6 := by decide +kernel
  have r : (runOf (((cmd1 runnable quayRunPk).begun (fly (.ring 1) quayRunPk)).quayCheck (fly (.ring 1) quayRunPk) [])).any
      (fun r => decide (({ runnable with quay := { runnable.quay with runs := [r] } } : State).headRun 0 = some r ∧
        r.began = false)) = true := by decide +kernel
  refine ⟨fun e m => ⟨begins' (a e m).1, (a e m).2⟩, ⟨okOf_eq (by decide +kernel), by decide +kernel⟩,
    ⟨okOf_eq (by decide +kernel), by decide +kernel⟩, by decide +kernel, ?_, by decide +kernel⟩
  exact some_any r

/-- A run, and a unit of it on the last engine at instruction `pc`. -/
def run1 (w : Nat) : QRun := ⟨7, 1, 1, 7, [w, 0xFF], false, 0, 0, 0, 16, [], [], none, true, [], 0, none, 0⟩
def unitAt (w pc : Nat) : State :=
  { up with quay := { runs := [run1 w], engines := [(27, { part := 1, slot := 7, work := some ⟨7, 0, 0, 16, [], pc, [], [], none, [], 0⟩ })] } }

/-- quay_instructions: a unit at each instruction of Table 8.3, and at END; the last lane of a unit, and a poisoned one. -/
theorem test_quay_instructions : (∀ k ∈ [0x01, 0x02, 0x03, 0x04, 0x05, 0x10, 0x11, 0x12, 0x13, 0x14, 0x15, 0x16, 0x17, 0x18, 0x19, 0x1A,
      0x20, 0x21, 0x30, 0x31], ∃ q r, ((unitAt k 0).qe 27).work = some q ∧
        listFind (fun r => r.cmd == q.cmd) (unitAt k 0).quay.runs = some r ∧ (QOp.ofWord (r.words.getD q.pc 0xFF)).opc = k) ∧
    (let s := unitAt 1 1
     ∃ q r, (s.qe 27).work = some q ∧ listFind (fun r => r.cmd == q.cmd) s.quay.runs = some r ∧
        (QOp.ofWord (r.words.getD q.pc 0xFF)).opc = 0xFF) ∧
    bit up.pkg.qeOk 27 = true ∧ 27 < 28 ∧ 15 < 16 ∧
    (∀ c ∈ [0x03, 0x04, 0x10, 0x11, 0x12, 0x13, 0x14, 0x15, 0x16, 0x17, 0x18, 0x19, 0x1A, 0x20, 0x21, 0x31],
      (QOp.ofWord (c + 15 * 256 + 2 ^ 24)).opc = c) ∧
    (let q : QUnit := ⟨7, 0, 0, 16, [], 0, [(15, some (false, List.replicate 15 ⟨0, false⟩ ++ [⟨0, true⟩]))], [], none, [], 0⟩
     ∃ l ∈ q.reg 15, l.poison = true) := by
  refine ⟨?_, ⟨⟨7, 0, 0, 16, [], 1, [], [], none, [], 0⟩, run1 1, by decide +kernel⟩, by decide +kernel, by decide, by decide,
    by decide +kernel, ⟨⟨0, true⟩, by decide +kernel⟩⟩
  have h : ∀ k ∈ [0x01, 0x02, 0x03, 0x04, 0x05, 0x10, 0x11, 0x12, 0x13, 0x14, 0x15, 0x16, 0x17, 0x18, 0x19, 0x1A,
      0x20, 0x21, 0x30, 0x31], ((unitAt k 0).qe 27).work = some ⟨7, 0, 0, 16, [], 0, [], [], none, [], 0⟩ ∧
      listFind (fun r => r.cmd == 7) (unitAt k 0).quay.runs = some (run1 k) ∧
      (QOp.ofWord ((run1 k).words.getD 0 0xFF)).opc = k := by decide +kernel
  intro x m
  obtain ⟨a, b, c⟩ := h x m
  exact ⟨_, _, a, b, c⟩

/-- window_contributions: a whole last element, part of one, and the last element's accumulator bytes. -/
theorem test_window_contributions :
    (∃ w o x, windowed.translate 1 (lastPage - 2 ^ 21 + 60) true = .view w o ∧ windowed.quay.windows.get none w = some x ∧
      (∀ p ∈ extent (lastPage - 2 ^ 21 + 60) [0#8, 0#8, 0#8, 0#8].length, windowed.pieceFault 1 p.1 p.2 true = none) ∧
      (∀ p ∈ extent (lastPage - 2 ^ 21 + 60) [0#8].length, windowed.pieceFault 1 p.1 p.2 true ≠ none) ∧
      (∃ d, windowed.translate x.part (x.acc + 15 * (elemBits x.accFmt / 8)) true = .tier d ∧ windowed.mem.marked d = false ∧
        0 < elemBits x.accFmt / 8 ∧ d % 64 + elemBits x.accFmt / 8 ≤ 64)) :=
  ⟨7, 60, ⟨1, lastPage - 2 ^ 21, lastPage + 2 ^ 21 - 64, 16, 8, 8⟩, by decide +kernel, by decide +kernel, by decide +kernel,
    by decide +kernel, ⟨lastFrame * 2 ^ 21 + 2 ^ 21 - 4, by decide +kernel⟩⟩

/-! ### Canal links -/

/-- The package with its last port in a given state, and a neighbour through which every package is reached. -/
def linked (p : Port) : State :=
  { up with link := { ({} : Link) with ports := [(22, { state := .up, dataOpen := true }), (23, p)], lasersOff := false
                                       hub1 := { bank0 := [(9, (2 ^ 31 + 22 * 2 ^ 10, compl32 (2 ^ 31 + 22 * 2 ^ 10)))] } } }
def upPort : Port := { state := .up, dataOpen := true }
/-- A message that has arrived on the last port. -/
def got (s : State) (m : TMsg) : State := { s with link := { s.link with msgs := [(23, m)] } }
def local1 (t : Nat) (ws : List Nat) : TMsg := ⟨t, 0, 1, 1, 6, linkLocal, 0, ws⟩

/-- A command on ring 0 from partition 0. -/
def cmd0 (s : State) (pk : Packet) : State := sent s (.ring 0) pk
def portPk (act : Nat) : Packet := pack 0x041 [2 ^ 23, act, 0xF010FF02, 5]
def routePk : Packet := pack 0x040 [0, 0, 1, 1]
def routeEntry : List Byte := wordsToBytes [2 ^ 31 + 22 * 2 ^ 10, compl32 (2 ^ 31 + 22 * 2 ^ 10)]

/-- link_commands: each action on the last port, and a table of one entry from the host. -/
theorem test_link_commands :
    (∀ a ∈ [0, 1, 2, 3, 4, 5], (cmd0 (linked upPort) (portPk a)).Begins (.ring 0) (portPk a) (fly (.ring 0) (portPk a)) []
        (((pcPorts (portPk a)).map portDomain).eraseDups) ∧ pcPorts (portPk a) = [23] ∧
      (linked upPort).portCtlCause (portPk a) = none ∧ (portPk a).f 0x14 2 0 = a) ∧
    (cmd0 up routePk).Begins (.ring 0) routePk (fly (.ring 0) routePk) [3] [] ∧ routePk.b 0x1C 0 = true ∧
    0 < routePk.f 0x18 14 0 ∧
    ((cmd0 up routePk).begun (fly (.ring 0) routePk)).routeTable routePk (some routeEntry) [] = .ok routeEntry ∧
    (∀ i, i < 1 → pair32 (ofBytes ((routeEntry.drop (8 * i)).take 4)) (ofBytes ((routeEntry.drop (8 * i + 4)).take 4)) = true) := by
  have a : ∀ a ∈ [0, 1, 2, 3, 4, 5], beginsB (cmd0 (linked upPort) (portPk a)) (.ring 0) (portPk a) []
        (((pcPorts (portPk a)).map portDomain).eraseDups) = true ∧ pcPorts (portPk a) = [23] ∧
      (linked upPort).portCtlCause (portPk a) = none ∧ (portPk a).f 0x14 2 0 = a := by decide +kernel
  exact ⟨fun e m => ⟨begins' (a e m).1, (a e m).2⟩, begins' (by decide +kernel), by decide +kernel, by decide +kernel,
    okOf_eq (by decide +kernel), by decide +kernel⟩

/-- wire_round_trip: a packet and a message with every field at its greatest value. -/
def fullPacket : CPacket :=
  ⟨true, true, true, 3, 3, 63, 3, 15, 2 ^ 32 - 1, 255, 7, 2 ^ 20 - 1, 255, 2 ^ 20 - 1, 2 ^ 64 - 1, 2 ^ 32 - 1, [0xFF#8], none⟩
theorem test_wire_round_trip : fullPacket.fits = true ∧
    ({ fullPacket with payload := List.replicate 4096 0xFF#8 } : CPacket).fits = true ∧
    (⟨255, 1, 15, 15, 2 ^ 20 - 1, 2 ^ 20 - 1, 2 ^ 16 - 1, List.replicate 16 (2 ^ 32 - 1)⟩ : TMsg).fits = true := by decide +kernel

/-- A packet for this package, and one for package 9. -/
def forUs : CPacket := { kind := 0x01, ovc := 0, level := 1, dstPkg := 5, payload := [1#8] }
def forThem : CPacket := { kind := 0x01, dstPkg := 9, hops := 2 }
/-- A check that a packet is good at the last port. -/
def goodAt (s : State) (k : CPacket) : Prop :=
  hcrcOk k.wire = true ∧ k.wire.length = 36 + bits (ofBytes (k.wire.take 4)) 31 19 ∧
    (packetCrc k.wire).1 = (packetCrc k.wire).2 ∧ (packetCrc k.wire).1 ≠ compl32 (packetCrc k.wire).2 ∧
    (CPacket.ofBytes k.wire).lseq = (s.port 23).expLseq
/-- A control flit with its check word, and a towpath flit. -/
def ctlFlit (nack : Nat) : List Byte :=
  let b := wordsToBytes [7, 5, nack, 1, 2 ^ 16 + 1, 0, 0] ++ List.replicate 220 0#8
  b ++ toBytes (crc32 b) 4
def tpFlit (seq : Nat) : List Byte :=
  let b := wordsToBytes [seq, 0] ++ (local1 1 [0]).slot ++ List.replicate 160 0#8
  b ++ toBytes (crc32 b) 4

/-- flits_and_packets. -/
theorem test_flits_and_packets : 23 < 24 ∧ ((linked upPort).port 23).state = .up ∧
    (List.replicate 256 0#8).length = 256 ∧
    (bits 0x40000000 31 30 = 1 ∧ flitChk 0x40000000 ≠ bits 0x40000000 7 0 ∧
      bits (0x7F000000 + flitChk 0x7F000000) 7 0 = flitChk (0x7F000000 + flitChk 0x7F000000)) ∧
    (linked upPort).link.lasersOff = false ∧
    (let p : Port := { upPort with ctlDue := true }
     p.ctlDue = true ∧ ∀ o ∈ p.txOwed, o.1 ≠ 0) ∧
    (let p : Port := { upPort with sleepAck := true }
     p.sleepAck = true ∧ p.tpQueue = []) ∧ upPort.dataOpen = true ∧ upPort.discarding = false ∧
    (let p : Port := { upPort with tpQueue := [local1 1 [0]] }
     p.ctlDue = false ∧ p.tpResendFrom = none ∧ p.tpQueue ≠ [] ∧ 0 < p.tpCredits ∧ p.tpReplay.length < 16) ∧
    (upPort.ctlDue = false ∧ upPort.tpResendFrom = none ∧ upPort.tpQueue = [] ∧ upPort.txBytes = [] ∧ upPort.resendFrom = none ∧
      upPort.txQueue = [] ∧ upPort.txHeld = []) ∧
    (goodAt (linked upPort) forUs ∧ forUs.dstPkg = up.pkg.packageId ∧ kindOvc forUs.kind = some forUs.ovc ∧
      forUs.level = up.pkg.runLevel ∧ CPacket.ofBytes forUs.wire = forUs) ∧
    (goodAt (linked upPort) forThem ∧ CPacket.ofBytes forThem.wire = forThem ∧ 1 < forThem.hops ∧
      (linked upPort).lookup 1 9 false (linked upPort).dataUsable (fun _ => true) = .out 22 false) ∧
    ¬ goodAt (linked { upPort with expLseq := 1 }) forUs ∧
    (∀ n ∈ [0, 1], (ctlFlit n).length = 252 ∧ ofBytes ((ctlFlit n).drop 248) = crc32 ((ctlFlit n).take 248) ∧
      ofBytes (((ctlFlit n).drop 8).take 4) = n) ∧ upPort.replays + 1 < upPort.replayLimit ∧ 1 < upPort.replayLimit ∧
    upPort.lastCtl + 1000 ≤ up.clk ∧ ({ upPort with gap := true } : Port).overload = 0 ∧ upPort.nackAt + 2 * upPort.rttNs ≤ up.clk := by
  simp only [goodAt]
  decide +kernel

/-- link_retrains. -/
theorem test_link_retrains :
    (let p : Port := { upPort with ueTimes := List.replicate 17 1000000000 }
     p.ueLimit < (p.ueTimes.filter (fun t => decide (up.clk < t + 1000000))).length) ∧
    (1 ≤ 6 ∧ upPort.state = .up) ∧
    ([0, 0, 0, 0, 0, 0].length = 6 ∧ ({ state := .training, lanesLight := 0xFF } : Port).lanesLight = 0xFF ∧
      (let p : Port := { state := .retrain, lanesLight := 0xFF, attemptAt := 998500000, replay := [forUs] }
       p.state = .retrain ∧ up.clk ≤ p.attemptAt + 1500000 ∧ p.released = false ∧ p.replay ≠ []) ∧
      (let p : Port := { state := .retrain, lanesLight := 0xFF, attemptAt := 998500000, released := true }
       up.clk ≤ p.attemptAt + 1500000)) ∧
    (let p : Port := { state := .retrain, attemptAt := 998500000, retrainFails := 2 }
     p.attemptAt + 1500000 ≤ up.clk ∧ p.noFail = false ∧ 2 ≤ p.retrainFails) ∧
    (let p : Port := { state := .retrain, attemptAt := 998500000, retrainFails := 1 }
     p.attemptAt + 1500000 ≤ up.clk ∧ p.retrainFails + 1 < 3) ∧
    (7 < 8 ∧ upPort.overload = 0 ∧ bit 128 7 = true ∧ setBit 128 7 false = 0 ∧ bit 129 7 = true ∧ setBit 129 7 false ≠ 0) ∧
    (let p : Port := { upPort with overload := 1, overloadAt := 999990000 }
     p.overload ≠ 0 ∧ p.overloadAt + 10000 ≤ up.clk) := by decide +kernel

/-- towpath_and_partners. -/
theorem test_towpath_and_partners :
    (∀ q ∈ [0, 2 ^ 16 - 1], (tpFlit q).length = 252 ∧ ofBytes ((tpFlit q).drop 248) = crc32 ((tpFlit q).take 248) ∧
      (q = 0 ↔ ofBytes ((tpFlit q).take 2) = upPort.tpExp)) ∧
    (let m : TMsg := ⟨0x20, 1, 15, 1, 6, 9, 0, [0]⟩
     m.dst ≠ linkLocal ∧ ttypeKnown m.ttype = true ∧ 1 < m.hopsLeft ∧ 22 ≠ 23 ∧
       (linked upPort).lookup 1 m.dst false (linked upPort).tpUsable (fun _ => true) = .out 22 false) ∧
    (ttypeKnown 5 = false ∧ (local1 4 [0]).dst = linkLocal ∧ up.otherLevel (local1 4 [0]).level = false) ∧
    upPort.hbCount = 0 ∧ ({ upPort with hbCount := 1, hbSentAt := 999996000 } : Port).hbSentAt + 4000 ≤ up.clk ∧
    (let m := local1 1 [2 ^ 31 + 2 ^ 25 + 6, compl32 (2 ^ 31 + 2 ^ 25 + 6)]
     ∃ u, (got (linked upPort) m).takeMsg 23 1 = some (m, u) ∧ pair32 (m.words.getD 0 0) (m.words.getD 1 0) = true) ∧
    (upPort.lastHb + 12000 ≤ up.clk ∧ upPort.lanesLight < 256) ∧
    (0 < 255 ∧ ({ state := .down, peerLost := true } : Port).state = .down ∧
      ({ state := .down, peerLost := true } : Port).peerLost = true) ∧
    (∃ e, listFind (fun e => e.2.ttype == 0x30) (got up (local1 0x30 [0, 0])).link.msgs = some e) :=
  ⟨by decide +kernel, by decide +kernel, by decide +kernel, by decide +kernel, by decide +kernel, ⟨_, rfl, by decide +kernel⟩,
    by decide +kernel, by decide +kernel, ⟨_, rfl⟩⟩

/-- park_sleep_time. -/
theorem test_park_sleep_time :
    (∃ u, (got (linked upPort) (local1 4 [])).takeMsg 23 4 = some (local1 4 [], u)) ∧
    (let p : Port := { upPort with parkAt := some 999990000 }
     p.parkAt ≠ none ∧ 999990000 + 10000 ≤ up.clk) ∧
    (0 < upPort.sleepIdle ∧ upPort.lastActive + 10000 * upPort.sleepIdle ≤ up.clk ∧ upPort.quiet = true ∧
      upPort.timeChild = false ∧ upPort.sleepReq = false) ∧
    (∃ u, (got (linked upPort) (local1 3 [])).takeMsg 23 3 = some (local1 3 [], u)) ∧
    ({ upPort with sleepReq := true } : Port).sleepReq = true ∧ ({ upPort with txQueue := [forUs] } : Port).quiet = false ∧
    (let s := linked { state := .sleep, tSleep := up.sysTime - 10000000 }
     (s.port 23).waking = false ∧ s.sysTime - (s.port 23).tSleep ≤ 10000000) ∧
    (let s := linked { state := .sleep, tSleep := up.sysTime - 10000001 }
     10000000 < s.sysTime - (s.port 23).tSleep) ∧
    ({ state := .sleep, waking := true } : Port).waking = true ∧
    (let s := { linked upPort with time := { up.time with enable := true, root := false, parentPort := 23, t1 := some 0 } }
     s.timeChildOf = true ∧ s.time.parentPort = 23 ∧ (s.port 23).state = .up ∧ s.time.t1 ≠ none ∧ s.time.mode = .free ∧
       (200000 : Int).natAbs ≤ 200000 ∧ ∃ u, (got s (local1 2 [])).takeMsg 23 2 = some (local1 2 [], u)) ∧
    (let s := { linked {} with time := { up.time with enable := true, root := false, parentPort := 23, mode := .locked } }
     s.timeChildOf = true ∧ (s.port 23).state ≠ .up ∧ s.time.mode = .locked ∧ s.time.mode ≠ .free) :=
  ⟨⟨_, rfl⟩, by decide +kernel, by decide +kernel, ⟨_, rfl⟩, by decide +kernel, by decide +kernel, by decide +kernel,
    by decide +kernel, by decide +kernel, ⟨by decide +kernel, by decide +kernel, by decide +kernel, by decide +kernel,
      by decide +kernel, by decide +kernel, ⟨_, rfl⟩⟩, by decide +kernel⟩

/-! ### Pipeline stages -/

/-- A stage between two neighbours, with rings in the last page. -/
def ring (d : Nat) : RingEnt := ⟨lastPage, 8192, d⟩
def cfg1 : StageRec :=
  { pipe := 5, stage := 1, p := 3, upPkg := 9, downPkg := 9, slices := 3, inFwd := ring 64, inBwd := ring 64,
    retFwd := ring 4096, retBwd := ring 4096 }
def stage1 : StageSlot := { bound := true, part := 1, slices := 3, cfg := cfg1 }
/-- The package with the last stage slot so bound, and the first sixteen cores IDLE on an image. -/
def staged (g : StageSlot) : State :=
  { paged with
    cpu := { cores := (List.range 16).map (fun c => (c, { image := some ⟨[0xFFFF], 0, 0, [], []⟩ })) }
    pipe := { slots := [(95, g)] } }
/-- A delivered message. -/
def heardMsg (s : State) (m : TMsg) : State := { s with link := { s.link with msgs := [(24, m)] } }
def pipeM (psub dir v epoch value : Nat) (rest : List Nat) : TMsg :=
  ⟨0x20, 1, 15, 1, 9, 5, 0, [pipeWord0 psub dir v 1 1, epoch * 2 ^ 16 + 5, value, compl32 value] ++ rest⟩
theorem hears {s : State} {p : Nat} {e : Nat × TMsg}
    (h : listFind (fun x => x.2.ttype == 0x20 && x.2.psub == p) s.link.msgs = some e ∧ pair32 e.2.value (e.2.w 3) = true) :
    s.Hears p e := ⟨h.1, h.2⟩
theorem stands {s : State} {n p : Nat}
    (h : n < 96 ∧ (s.stage n).bound = true ∧ (s.stage n).part = p ∧ (s.stage n).spare = false) : s.Stands n p :=
  ⟨h.1, h.2.1, h.2.2.1, h.2.2.2⟩
theorem works {s : State} {n : Nat} (h : (n < 96 ∧ (s.stage n).bound = true ∧ (s.stage n).spare = false) ∧
    s.held (s.stage n).part = false ∧ (s.stage n).restart = none) : s.Works n :=
  ⟨⟨h.1.1, h.1.2.1, rfl, h.1.2.2⟩, h.2.1, h.2.2⟩
theorem stepping {s : State} {n : Nat} {q r : StepRun} (h : (s.stage n).steps = [q] ∧ q.started = true ∧
    (q.timedOut = false ∧ q.aborted = false ∧ q.stuck = false) ∧ q.advance ((s.stage n).table.getD []) = r) :
    s.Stepping n q r := ⟨h.1, h.2.1, h.2.2.1, h.2.2.2⟩

/-- A record from the host, a slot to unbind, schedules, berths, steps. -/
def bindPk : Packet := pack 0x401 [0, 0, 2 ^ 7 + 2 ^ 8]
def bindWords : List Nat :=
  [1, 5, 0, 0, 1, 0, 0, 0, 0xFFFFF, 0, 3, 0, 0, 0, 0, 0, 0, 0, 8192, 64, 0, 0, 8192, 64, 0, 0, 8192, 4096, 0, 0, 8192, 4096] ++
  List.replicate 16 0
def unbindPk : Packet := pack 0x401 [0, 0, 95 + 2 ^ 9]
def genPk (kind m : Nat) : Packet := pack 0x402 [95 + kind * 2 ^ 8 + 2 ^ 12, m]
def tablePk : Packet := pack 0x402 [95 + 2 ^ 13, 1, 0, 0, 3]
def table1 : List Nat := [fwdWord 0 0, bwdWord 0 0, markWord]
def publishPk : Packet := pack 0x403 [95 + 7 * 2 ^ 8 + 2 ^ 12 + 2 ^ 15, 1, lastPage % 2 ^ 32, lastPage / 2 ^ 32]
def readyPk (op : Nat) : Packet := pack 0x403 [95 + 7 * 2 ^ 8 + op * 2 ^ 12]
def stepPk : Packet := pack 0x404 [95, 1, 3, 0xFFFFFFFF]

def buddied : StageSlot := { stage1 with cfg := { cfg1 with buddyPkg := 9, berthBytes := 4097 } }
def interleaved2 : StageSlot := { stage1 with cfg := { cfg1 with p := 2, v := 2 } }
def withBerth (b : Berth) : StageSlot := { stage1 with berths := [(7, b)], table := some table1 }
def stepped (g : StageSlot) : StageSlot :=
  { g with steps := [{ cmd := 3, eval := false, step := 0, version := 3, deadline := none, timeoutUs := 0, inputVa := 0,
                       started := true }] }

/-- pipe_commands: each command, with the state and the packet that it begins with. -/
theorem test_pipe_commands :
    (∀ e ∈ [(staged {}, bindPk, [3], []), (staged stage1, unbindPk, [], []), (staged stage1, genPk 3 1, [], []),
        (staged interleaved2, genPk 2 2, [], []), (staged stage1, tablePk, [3], []), (staged stage1, publishPk, [], []),
        (staged buddied, publishPk, [], []), (staged (withBerth { state := .ready, version := 3, versionC := compl32 3 }), readyPk 2, [], []),
        (staged (withBerth { state := .ready, version := 3, versionC := compl32 3 }), readyPk 3, [], []),
        (staged (withBerth { state := .current, version := 3, versionC := compl32 3 }), stepPk, [], [0]),
        (staged (stepped (withBerth { state := .current, version := 3, versionC := compl32 3 })), stepPk, [], [0])],
      (cmd1 e.1 e.2.1).Begins (.ring 1) e.2.1 (fly (.ring 1) e.2.1) e.2.2.1 e.2.2.2) ∧
    (∃ bs, let b := (cmd1 (staged {}) bindPk).begun (fly (.ring 1) bindPk)
     let c := b.chargeParam (fly (.ring 1) bindPk) (bindPk.d 0x10) 192 (bindPk.b 0x18 7)
     c.paramBytes 1 (bindPk.d 0x10) 192 (bindPk.b 0x18 7) (some bs) [] = .ok bs ∧
       b.otherLevel (bits ((bytesToWords bs).getD 0 0) 3 0) = false ∧ c.bindCause 1 (bytesToWords bs) = none) ∧
    (bindPk.f 0x18 9 8 = 1 ∧ unbindPk.f 0x18 9 8 = 2 ∧ unbindPk.f 0x18 6 0 = 95) ∧
    (staged stage1).Stands 95 1 ∧ (staged interleaved2).Stands 95 1 ∧
    (stage1.stepping = false ∧ 0 < (genPk 3 1).w 0x14 ∧ (genPk 0 65536).w 0x14 ≤ 65536 ∧ (genPk 3 1).b 0x10 12 = true ∧
      (genPk 3 1).f 0x10 9 8 = 3 ∧ stage1.cfg.v = 1 ∧ (genTable 3 3 1 1 1 0).length ≤ 4096 ∧
      ((List.range 3).map (fun i => tableUMax (genTable 3 3 1 i 1 0))).foldl max 0 ≤ stage1.cfg.retFwd.depth ∧
      tableUMax table1 ≤ stage1.cfg.retBwd.depth ∧
      (genPk 2 2).f 0x10 9 8 = 2 ∧ interleaved2.cfg.v ≠ 1 ∧ 2 % interleaved2.cfg.p = 0 ∧
      (genTable 2 2 2 1 2 1).length ≤ 4096) ∧
    (let b := (cmd1 (staged stage1) tablePk).begun (fly (.ring 1) tablePk)
     let c := b.chargeParam (fly (.ring 1) tablePk) (tablePk.d 0x18) (4 * tablePk.w 0x20) (tablePk.b 0x10 13)
     let bs := wordsToBytes table1
     c.paramBytes 1 (tablePk.d 0x18) (4 * tablePk.w 0x20) (tablePk.b 0x10 13) (some bs) [] = .ok bs ∧
       tableFault (tablePk.f 0x10 9 8) (tablePk.w 0x14) stage1.cfg.v (bytesToWords bs) = none ∧ tablePk.b 0x10 12 = false) ∧
    (publishPk.f 0x10 13 12 = 1 ∧ publishPk.d 0x18 % 4096 = 0 ∧ (stage1.berths.get {} 7).state = .free ∧
      stage1.maxVersion = none ∧ stage1.hasBuddy = false ∧ buddied.hasBuddy = true ∧ 0 < buddied.cfg.berthBytes ∧
      (∀ g ∈ [stage1, buddied], ((cmd1 (staged g) publishPk).begun (fly (.ring 1) publishPk)).unreadable 1
        (publishPk.d 0x18) g.cfg.berthBytes = false)) ∧
    ((readyPk 2).f 0x10 13 12 = 2 ∧ (readyPk 3).f 0x10 13 12 = 3) ∧
    (let g := withBerth { state := .current, version := 3, versionC := compl32 3 }
     ∀ g' ∈ [g, stepped g], g'.table ≠ none ∧ g'.steps.length < 2 ∧ g'.takeover = none ∧
       (g'.berths.get {} 7).version = stepPk.w 0x18 ∧ (staged g').sliceCores g'.slices = List.range 16 ∧
       ((List.range 16).map coreDomain).eraseDups = [0] ∧ ∀ c ∈ List.range 16, ((staged g').core c).image ≠ none ∧
         ((staged g').core c).holder = .none ∧ ((staged g').core c).state = .idle) := by
  have a : ∀ e ∈ [(staged {}, bindPk, [3], []), (staged stage1, unbindPk, [], []), (staged stage1, genPk 3 1, [], []),
        (staged interleaved2, genPk 2 2, [], []), (staged stage1, tablePk, [3], []), (staged stage1, publishPk, [], []),
        (staged buddied, publishPk, [], []), (staged (withBerth { state := .ready, version := 3, versionC := compl32 3 }), readyPk 2, [], []),
        (staged (withBerth { state := .ready, version := 3, versionC := compl32 3 }), readyPk 3, [], []),
        (staged (withBerth { state := .current, version := 3, versionC := compl32 3 }), stepPk, [], [0]),
        (staged (stepped (withBerth { state := .current, version := 3, versionC := compl32 3 })), stepPk, [], [0])],
      beginsB (cmd1 e.1 e.2.1) (.ring 1) e.2.1 e.2.2.1 e.2.2.2 = true := by decide +kernel
  exact ⟨fun e m => begins' (a e m), ⟨wordsToBytes bindWords, okOf_eq (by decide +kernel), by decide +kernel⟩,
    by decide +kernel, stands (by decide +kernel), stands (by decide +kernel), by decide +kernel,
    ⟨okOf_eq (by decide +kernel), by decide +kernel⟩, by decide +kernel, by decide +kernel, by decide +kernel⟩

/-- generated_schedules_pass. -/
theorem test_generated_schedules_pass : (3 = 0 ∨ 3 = 1 ∨ 3 = 3) ∧ 0 < 65536 ∧ 65536 ≤ 65536 ∧ 4094 < 4095 := by decide

/-- The stage with a given state of its forward streams. -/
def inAt (i : InStream) : State := staged { stage1 with ins := [(0, i)] }
def outAt (o : OutStream) : StageSlot := { stage1 with outs := [(0, o)] }
def barge (sent : Bool) : OutBarge := ⟨0, lastPage, List.replicate 16 0, sent, 0, false, 3, 0⟩
def descM (epoch value crc : Nat) : TMsg :=
  pipeM 1 0 0 epoch value [0, 0, 0, 2 ^ 32 - 1, 0, 0, 0, 0, 0, 0, crc, 0]
/-- A barge packet. -/
def bargeP (epoch tag : Nat) : CPacket :=
  { kind := 1, dstPart := 1, object := epoch * 2 ^ 33 + 2 ^ 16 + 5, tag := tag, payload := [1#8] }
def boxed (s : State) (p : CPacket) : State := { s with link := { s.link with inbox := [p] } }

/-- pipe_barges. -/
theorem test_pipe_barges :
    (∀ e ∈ [(descM 1 1 0, Verdict.stale), (descM 0 0 0, .duplicate), (descM 0 65 0, .window), (descM 0 64 0, .take),
        (descM 0 1 0, .take)],
      let s := heardMsg (inAt { next := 1, released := 1 }) e.1
      s.Hears 1 (24, e.1) ∧ s.stageOf e.1.pipe e.1.stage = some 95 ∧
        (s.stage 95).judge e.1.dir e.1.vstage e.1.epoch e.1.value = e.2 ∧ pair32 (e.1.w 6) (e.1.w 7) = true ∧
        (s.stage 95).lostOf e.1.dir = false) ∧
    (let m : TMsg := { descM 0 0 0 with words := (descM 0 0 0).words.set 0 (pipeWord0 1 0 0 1 1 + 2 ^ 17) }
     let s := heardMsg (inAt { barges := [⟨0, [], [], false⟩] }) m
     let i := (s.stage 95).inS 0
     let i' := i.put 0 (fun x => { x with desc := (List.range 16).map m.w })
     s.Hears 1 (24, m) ∧ i.next = m.value ∧ (listFind (fun x => x.bseq == 0) i'.barges).any (fun y => y.full &&
       decide (crc32 ((s.heard (24, m)).readVA 1 (((s.stage 95).cfg.inRing 0).slotVa 0 0 + 4096) (segBytes y.desc)) = m.w 14))) ∧
    (∀ e ∈ [(bargeP 1 1, Verdict.stale), (bargeP 0 0, .duplicate), (bargeP 0 65, .window), (bargeP 0 64, .take)],
      let s := boxed (inAt { next := 1, released := 1 }) e.1
      s.takePacket (fun k => k.kind == 1) = some (e.1, inAt { next := 1, released := 1 }) ∧ s.stageOf 5 1 = some 95 ∧
        (s.stage 95).judge 0 0 (bits e.1.object 48 33) e.1.tag = e.2 ∧ (s.stage 95).lostOf 0 = false ∧
        (s.stage 95).part = e.1.dstPart ∧ (s.stage 95).part ≠ { e.1 with dstPart := 2 }.dstPart ∧
        4096 + 4096 * 0 + e.1.payload.length ≤ ((s.stage 95).cfg.inRing 0).slotBytes) ∧
    (∀ e ∈ [(2, pipeM 2 0 0 0 0 [0]), (2, pipeM 2 0 0 0 0 [1]), (3, pipeM 3 0 0 0 0 [1]), (4, pipeM 4 0 0 0 1 []),
        (4, pipeM 4 0 0 0 0 []), (4, pipeM 4 0 0 0 (2 ^ 32 - 1) [])],
      let s := heardMsg (staged (outAt { next := 1, retained := [barge (e.1 != 4)] })) e.2
      s.Hears e.1 (24, e.2) ∧ s.stageOf e.2.pipe e.2.stage = some 95) ∧
    (seqLt 0 1 = true ∧ seqLt 0 (2 ^ 32 - 1) = false ∧ (barge false).sent = false ∧
      seqLt (barge false).bseq (wrap32 (1 + (stage1.cfg.inRing 0).depth)) = true ∧ stage1.cfg.outKey (pipeM 4 0 0 0 1 []) = 0) ∧
    95 < 96 ∧ (outAt { retained := [barge true] }).probes < 2 ^ 32 := by
  have a : ∀ e ∈ [(descM 1 1 0, Verdict.stale), (descM 0 0 0, .duplicate), (descM 0 65 0, .window), (descM 0 64 0, .take),
        (descM 0 1 0, .take)],
      let s := heardMsg (inAt { next := 1, released := 1 }) e.1
      (listFind (fun x => x.2.ttype == 0x20 && x.2.psub == 1) s.link.msgs = some (24, e.1) ∧
        pair32 e.1.value (e.1.w 3) = true) ∧ s.stageOf e.1.pipe e.1.stage = some 95 ∧
        (s.stage 95).judge e.1.dir e.1.vstage e.1.epoch e.1.value = e.2 ∧ pair32 (e.1.w 6) (e.1.w 7) = true ∧
        (s.stage 95).lostOf e.1.dir = false := by decide +kernel
  have b : ∀ e ∈ [(2, pipeM 2 0 0 0 0 [0]), (2, pipeM 2 0 0 0 0 [1]), (3, pipeM 3 0 0 0 0 [1]), (4, pipeM 4 0 0 0 1 []),
        (4, pipeM 4 0 0 0 0 []), (4, pipeM 4 0 0 0 (2 ^ 32 - 1) [])],
      let s := heardMsg (staged (outAt { next := 1, retained := [barge (e.1 != 4)] })) e.2
      (listFind (fun x => x.2.ttype == 0x20 && x.2.psub == e.1) s.link.msgs = some (24, e.2) ∧
        pair32 e.2.value (e.2.w 3) = true) ∧ s.stageOf e.2.pipe e.2.stage = some 95 := by decide +kernel
  exact ⟨fun e m => ⟨hears (a e m).1, (a e m).2⟩, ⟨hears (by decide +kernel), by decide +kernel⟩, by decide +kernel,
    fun e m => ⟨hears (b e m).1, (b e m).2⟩, by decide +kernel, by decide +kernel⟩

/-- A step at an entry of the table, and requests of core 15 to the pipe controller. -/
def step3 (next : Nat) (ns : List Notice) : StepRun :=
  { cmd := 3, eval := false, step := 0, version := 3, deadline := none, timeoutUs := 0, inputVa := 0, started := true,
    next := next, notices := ns }
def working (r : StepRun) : StageSlot :=
  { stage1 with table := some table1, steps := [r], berths := [(7, { state := .current, version := 3, versionC := compl32 3 })]
                ins := [(0, { next := 1, barges := [⟨0, [0, 0, 0, 0, 0, 0, 3], [], true⟩] })] }
def asked (s : State) (q : Nat) (m : List Nat) : State := { s with fab := { s.fab with requests := [(15, 0x7FE, q, m)] } }
def doneM (entry : Nat) : List Nat := [0, 0, lastPage % 2 ^ 32, lastPage / 2 ^ 32, entry, 0, 0, 0]
def noticed (isSealed : Bool) : Notice := ⟨0, some (0, 0), some (0, 0, lastPage), isSealed⟩

/-- pipe_work. -/
theorem test_pipe_work :
    (let s := staged (working (step3 0 []))
     s.Works 95 ∧ s.Stepping 95 (step3 0 []) (step3 0 []) ∧ 0 < table1.length ∧ bits (table1.getD 0 0) 3 0 ≠ 5 ∧
       (s.stage 95).waitsFor (step3 0 []) (table1.getD 0 0) = none ∧ 0 < (s.stage 95).cfg.ahead ∧
       (s.stage 95).berthOf ((s.stage 95).entryTag (step3 0 []) (table1.getD 0 0) ((s.stage 95).entryIn (table1.getD 0 0))) =
         some 7 ∧ s.berthPoisoned (s.stage 95) 7 = false) ∧
    (let r : StepRun := { step3 0 [] with cmd := 4, started := false }
     let s := staged { working (step3 3 []) with steps := [step3 3 [], r] }
     s.Works 95 ∧ (s.stage 95).entriesDone (step3 3 []) = true ∧ ∀ c ∈ s.sliceCores (s.stage 95).slices, (s.core c).state = .idle) ∧
    (let s := asked (staged (working (step3 1 [noticed false]))) 0 (doneM 0)
     s.pipeRequest 0 = some (15, doneM 0, 95) ∧ (s.stage 95).running = some (step3 1 [noticed false]) ∧
       listFind (fun x => x.entry == (doneM 0).getD 4 0 && !x.isSealed) [noticed false] = some (noticed false) ∧
       (let d := bytesToWords (s.readVA 1 lastPage 64)
        msgPtr (doneM 0) = lastPage ∧ bits (d.getD 0 0) 23 22 = 0 ∧ bits (d.getD 0 0) 21 19 = (s.stage 95).cfg.dstChunk 0 0 ∧
          d.getD 4 0 = bits (table1.getD 0 0) 31 16)) ∧
    (let s := asked (staged (working (step3 1 [noticed true]))) 0 (doneM 0)
     s.pipeRequest 0 = some (15, doneM 0, 95) ∧
       listFind (fun x => x.entry == (doneM 0).getD 4 0 && !x.isSealed) [noticed true] = none) ∧
    (∀ k ∈ [0, 1], let s := asked (staged (working (step3 1 [noticed true]))) 1 (doneM k)
     s.pipeRequest 1 = some (15, doneM k, 95) ∧ (s.stage 95).running = some (step3 1 [noticed true]) ∧
       ((noticed true).entry = (doneM k).getD 4 0 ↔ k = 0)) ∧
    (let s := staged (working (step3 2 []))
     s.Works 95 ∧ s.Stepping 95 (step3 2 []) (step3 2 []) ∧ 2 < table1.length ∧ bits (table1.getD 2 0) 3 0 = 5 ∧
       (s.stage 95).markNo = (s.stage 95).markAcked) ∧
    (let s := heardMsg (staged { stage1 with markNo := 2 ^ 32 - 1, markAcked := 2 ^ 32 - 2 }) (pipeM 8 0 0 0 (2 ^ 32 - 1) [])
     s.Hears 8 (24, pipeM 8 0 0 0 (2 ^ 32 - 1) []) ∧ s.stageOf 5 1 = some 95) ∧
    (let m : MbRec := ⟨3, 0, 0, true, 3, 7, [(0, 0)], [], true, false, none, false⟩
     listFind ({ stage1 with mbs := [m] } : StageSlot).mayCommit [m] = some m) ∧
    (let r : StepRun := { step3 0 [] with deadline := some 1000000000 }
     let s := staged { working r with steps := [r] }
     listFind (fun r => r.started && !r.timedOut && r.deadline.any (fun t => decide (t ≤ s.clk)) && !s.held (s.stage 95).part)
       (s.stage 95).steps = some r) :=
  ⟨⟨works (by decide +kernel), stepping (by decide +kernel), by decide +kernel⟩, ⟨works (by decide +kernel), by decide +kernel⟩,
    by decide +kernel, by decide +kernel, by decide +kernel,
    ⟨works (by decide +kernel), stepping (by decide +kernel), by decide +kernel⟩,
    ⟨hears (by decide +kernel), by decide +kernel⟩, by decide +kernel, by decide +kernel⟩

/-- A stage that is taken over, its reads answered or not. -/
def takenOver (stopped : Bool) (sent : List CkptSent) : State :=
  let s := staged { stage1 with takeover := some { lostPkg := 9, since := 0, cause := 0, stopped := stopped } }
  { s with pipe := { s.pipe with ckptSent := sent } }

/-- pipe_takeover: a LOST with a spare and without, TAKEOVER of a spare and of none, RESEND_FROM. -/
theorem test_pipe_takeover :
    (let m := pipeM 5 0 0 (2 ^ 16 - 1) 9 [1]
     let g : StageSlot := { stage1 with spare := true }
     (heardMsg (staged g) m).Hears 5 (24, m) ∧ (heardMsg up m).Hears 5 (24, m) ∧
       listFind (fun x => x.2.bound && x.2.spare && x.2.cfg.pipe == m.pipe) (staged g).pipe.slots = some (95, g) ∧
       (staged g).pipe.slots.get {} 95 = g ∧
       listFind (fun x => x.2.bound && x.2.spare && x.2.cfg.pipe == m.pipe) up.pipe.slots = none) ∧
    (∀ v ∈ [0xFFFFF, 9], ∀ d ∈ [0, 1], let m := pipeM 6 d 0 1 v []
     (heardMsg (staged stage1) m).Hears 6 (24, m) ∧ (heardMsg (staged stage1) m).stageOf m.pipe m.stage = some 95 ∧ m.dir = d) ∧
    (let m := pipeM 7 0 0 1 0 [0, 0]
     (heardMsg (takenOver true []) m).Hears 7 (24, m) ∧ ((takenOver true []).stage 95).takeover.map (·.stopped) = some true) ∧
    (let m := pipeM 7 0 0 1 0 [0, 0]
     let s := heardMsg (takenOver false [⟨0, 0, 9, .image 95 0⟩]) m
     s.Hears 7 (24, m) ∧ s.ckptWaits (fun u => match u with
        | .image m _ | .area m _ | .shard m _ => m == 95
        | _ => false) = true) := by
  have a : ∀ v ∈ [0xFFFFF, 9], ∀ d ∈ [0, 1], let m := pipeM 6 d 0 1 v []
     (listFind (fun x => x.2.ttype == 0x20 && x.2.psub == 6) (heardMsg (staged stage1) m).link.msgs = some (24, m) ∧
        pair32 m.value (m.w 3) = true) ∧ (heardMsg (staged stage1) m).stageOf m.pipe m.stage = some 95 ∧ m.dir = d := by
    decide +kernel
  exact ⟨⟨hears (by decide +kernel), hears (by decide +kernel), by decide +kernel⟩,
    fun v hv d hd => ⟨hears (a v hv d hd).1, (a v hv d hd).2⟩, ⟨hears (by decide +kernel), by decide +kernel⟩,
    ⟨hears (by decide +kernel), by decide +kernel⟩⟩

/-- A service record with the monitor on, and a plan of one training STEP_RUN, in the partition's memory. -/
def svcWords : List Nat := [1, 0, 0, 0, 0, 0, 0, 1, 0, 0, 5, 2 ^ 31] ++ List.replicate 4 0
def planWords : List Nat := [0x404] ++ List.replicate 15 0 ++ [2 ^ 16] ++ List.replicate 15 0
def planned (g : StageSlot) : State :=
  ((staged g).writeVA 1 lastPage (wordsToBytes svcWords)).writeVA 1 (lastPage + 64) (wordsToBytes planWords)
def planPk (op count : Nat) : Packet :=
  pack 0x405 [95 + op * 2 ^ 8, count, (lastPage + 64) % 2 ^ 32, lastPage / 2 ^ 32, lastPage % 2 ^ 32, lastPage / 2 ^ 32, 0xFFFFFFFF, 1]
def loadedPlan (st : PlanState) (every : Nat) : StageSlot :=
  { stage1 with plan := { state := st, entries := [[0x403] ++ List.replicate 15 0 ++ [every * 2 ^ 16]], step := 1 } }
def collecting (lags : List LagStep) : State :=
  let s := staged { stage1 with svc := some { lagEn := true, collector := 5, lagSet := 255 } }
  { s with pipe := { s.pipe with lags := lags } }
def waiting (endAt : Nat) : StageSlot := { stage1 with records := [⟨7, [], endAt⟩] }

/-- The resources that the addresses of a plan and its record are in. -/
def planRes (s : State) (pk : Packet) : List Nat :=
  [(pk.d 0x20, 64), (pk.d 0x18, 128 * pk.f 0x14 5 0)].flatMap (fun e => s.extentRes 1 (s.pathDie (.ring 1)) e.1 e.2)

/-- training_steps. -/
theorem test_training_steps :
    (∀ e ∈ [(planned stage1, planPk 1 1, planRes (cmd1 (planned stage1) (planPk 1 1)) (planPk 1 1)),
        (staged (loadedPlan .loaded 1), planPk 2 1, []), (staged (loadedPlan .stopped 1), planPk 2 1, []),
        (staged stage1, planPk 3 1, [])],
      (cmd1 e.1 e.2.1).Begins (.ring 1) e.2.1 (fly (.ring 1) e.2.1) e.2.2 [] ∧ e.2.1.f 0x10 6 0 = 95 ∧ (e.1.stage 95).bound = true ∧
        (e.1.stage 95).part = 1) ∧
    (∃ sb pb, let pk := planPk 1 1
     let c := (((cmd1 (planned stage1) pk).begun (fly (.ring 1) pk)).chargeParam (fly (.ring 1) pk) (pk.d 0x20) 64 false).chargeParam
       (fly (.ring 1) pk) (pk.d 0x18) (128 * pk.f 0x14 5 0) false
     let v := Svc.ofWords (pk.d 0x20) (bytesToWords sb)
     c.paramBytes 1 (pk.d 0x20) 64 false none [] = .ok sb ∧ c.paramBytes 1 (pk.d 0x18) (128 * pk.f 0x14 5 0) false none [] = .ok pb ∧
       (planned stage1).otherLevel (bits (ofBytes (sb.take 4)) 3 0) = false ∧
       (planned stage1).otherLevels (c.shards 1 v.listVa v.listCount) = false ∧ svcOk (bytesToWords sb) = true ∧
       planFault [bytesToWords pb] = none ∧ c.unreadable 1 v.listVa (64 * v.listCount) = false ∧
       stateListFault (c.shards 1 v.listVa v.listCount) = none ∧ largestShard (c.shards 1 v.listVa v.listCount) ≤ v.slotBytes ∧
       c.regionOk stage1 v = true) ∧
    (∀ k ∈ [1, 2], let s := staged (loadedPlan .running k)
     let p := (s.stage 95).plan
     s.cmd.committed = [] ∧ p.state = .running ∧ p.bad = none ∧ p.flying = [] ∧ p.resumed = none ∧ p.next < p.entries.length ∧
       (seqDist p.firstStep p.step % max 1 (planEvery (p.entries.getD p.next [])) = 0 ↔ k = 1)) ∧
    (let m := pipeM 9 0 0 0 4 [7, 0x1FF]
     let s := heardMsg (collecting []) m
     s.Hears 9 (24, m) ∧ (s.pipe.slots.any (fun x => x.2.bound && x.2.svc.any (fun v =>
        v.lagEn && v.lagSet == bits (m.w 5) 7 0 && v.collector == s.pkg.packageId))) = true) ∧
    (let l : LagStep := ⟨255, 7, 990000000, [(9, 1, 5, 1, 4)], false⟩
     listFind (fun l => l.set == 255 && !l.closed && decide (l.since + 10000000 ≤ up.clk)) (collecting [l]).pipe.lags = some l) ∧
    (let m := pipeM 10 0 0 0 4 [7, 1]
     let s := heardMsg (staged (waiting 0)) m
     s.Hears 10 (24, m) ∧ s.stageOf 5 1 = some 95 ∧ listFind (fun r => r.step == m.w 4) (waiting 0).records = some ⟨7, [], 0⟩) ∧
    listFind (fun r => decide (r.endAt + 20000000 ≤ up.clk)) (waiting 980000000).records = some ⟨7, [], 980000000⟩ := by
  have a : ∀ e ∈ [(planned stage1, planPk 1 1, planRes (cmd1 (planned stage1) (planPk 1 1)) (planPk 1 1)),
        (staged (loadedPlan .loaded 1), planPk 2 1, []), (staged (loadedPlan .stopped 1), planPk 2 1, []),
        (staged stage1, planPk 3 1, [])],
      beginsB (cmd1 e.1 e.2.1) (.ring 1) e.2.1 e.2.2 [] = true ∧ e.2.1.f 0x10 6 0 = 95 ∧ (e.1.stage 95).bound = true ∧
        (e.1.stage 95).part = 1 := by decide +kernel
  exact ⟨fun e m => ⟨begins' (a e m).1, (a e m).2⟩,
    ⟨wordsToBytes svcWords, wordsToBytes planWords, okOf_eq (by decide +kernel), okOf_eq (by decide +kernel), by decide +kernel⟩,
    by decide +kernel, ⟨hears (by decide +kernel), by decide +kernel⟩, by decide +kernel,
    ⟨hears (by decide +kernel), by decide +kernel⟩, by decide +kernel⟩

/-! ### Groups and collectives -/

/-- Partition 1 with the last four pages below the window. -/
def scratch0 : Nat := lastPage - 3 * 2 ^ 21
def paged4 : State :=
  { up with mem := { up.mem with
    pt := [(pteKey 1 1 lastPage, mkPte 1), (pteKey 1 2 lastPage, mkPte 1)] ++ (List.range 4).map (fun i =>
      (pteKey 1 3 (scratch0 + i * 2 ^ 21), mkPte (pteWord ((lastFrame - 3 + i) * 2 ^ 21) false false false true true))) } }
/-- A group record from the host: of this package alone, with another, and of two others for a standby. -/
def groupWords (ms : List Nat) : List Nat :=
  [1 + (ms.length - 1) * 2 ^ 8, 77, 0, 0xFFFFFFFF, scratch0 % 2 ^ 32, scratch0 / 2 ^ 32, 2 ^ 23] ++ List.replicate 9 0 ++ ms
def groupPk (op : Nat) : Packet := pack 0x504 [0, 0, 2 ^ 7 + op * 2 ^ 8]
def unbindG : Packet := pack 0x504 [0, 0, 63 + 2 * 2 ^ 8]

/-- A group of two in the last slot, and a package in which it is bound. -/
def group2 : Group :=
  { bound := true, part := 1, id := 77, members := [(1, 5), (1, 9)], scratchVa := scratch0, scratchBytes := 2 ^ 23
    rejoinUs := 1000, digest := 4 }
def grouped (g : Group) : State :=
  { paged4 with coll := { groups := [(63, g)] }, link := { ({} : Link) with ports := [(23, { state := .up, dataOpen := true })] } }

def lo (n : Nat) : Nat := n % 2 ^ 32
def hi (n : Nat) : Nat := n / 2 ^ 32
def redPk (code : Nat) : Packet :=
  pack 0x501 [63 + 8 * 2 ^ 16 + 8 * 2 ^ 20 + code * 2 ^ 28, 0, lo lastPage, hi lastPage, lo lastPage, hi lastPage, 16, 0]
def rowsPk (code : Nat) : Packet :=
  pack 0x502 [63 + code * 2 ^ 8, 65536, lo lastPage, hi lastPage, lo (lastPage + 64), hi lastPage, lo (lastPage + 128), hi lastPage, 1]
def permPk : Packet := pack 0x503 [63 + 16 * 2 ^ 16, 0, lo lastPage, hi lastPage, 65536, 0, lo (lastPage + 2 ^ 20), hi lastPage]
/-- The group with a permutation of its two ranks in memory. -/
def permuted : State := (grouped group2).writeVA 1 (lastPage + 2 ^ 20) (wordsToBytes [1, 0])

/-- coll_commands. -/
theorem test_coll_commands :
    (∀ e ∈ [(paged4, groupPk 1, [3]), (paged4, groupPk 3, [3]), (grouped group2, unbindG, []), (grouped group2, redPk 0, [4]),
        (grouped group2, redPk 1, [4]), (grouped group2, redPk 2, [4]), (grouped group2, rowsPk 0, [4]),
        (grouped group2, rowsPk 1, [4]), (permuted, permPk, [4])],
      (cmd1 e.1 e.2.1).Begins (.ring 1) e.2.1 (fly (.ring 1) e.2.1) e.2.2 []) ∧
    (∀ e ∈ [([2 ^ 24 + 5], false, 1), ([2 ^ 24 + 5, 2 ^ 24 + 9], false, 1), ([2 ^ 24 + 9, 2 ^ 24 + 10], true, 3)],
      let bs := wordsToBytes (groupWords e.1)
      let hd := bs.take 64
      let len := 64 + 4 * (bits (ofBytes (hd.take 4)) 21 8 + 1)
      let pk := groupPk e.2.2
      let c := ((cmd1 paged4 pk).begun (fly (.ring 1) pk)).chargeParam (fly (.ring 1) pk) (pk.d 0x10) len true
      paged4.otherLevel (bits (ofBytes (hd.take 4)) 3 0) = false ∧ okOf (c.paramBytes 1 (pk.d 0x10) len true (some bs) []) = some bs ∧
        c.groupCause 1 e.2.1 (bytesToWords bs) = none ∧ pk.f 0x18 9 8 = e.2.2 ∧ pk.b 0x18 7 = true) ∧
    (unbindG.f 0x18 9 8 = 2 ∧ unbindG.f 0x18 5 0 = 63 ∧ group2.colls = [] ∧ (grouped group2).groupOpen 63 = true ∧
      group2.size = 2 ∧ permuted.groupOpen 63 = true ∧
      ((grouped group2).group 63).state = .waiting) ∧
    (∀ e ∈ [(CollOp.allreduce, 0), (.reduceScatter, 1), (.allgather, 2)],
      let pk := redPk e.2
      let c : Coll := { cmd := 7, seq := 0, op := e.1, opcode := 0x501, pk := pk }
      let x := c.redExtents group2
      pk.f 0x10 29 28 = e.2 ∧ pk.f 0x10 5 0 = 63 ∧ c.redCause group2 = none ∧
        ((cmd1 (grouped group2) pk).begun (fly (.ring 1) pk)).extentsStatus 1 (x.1 :: x.2.2.take 1) (x.2.1 :: x.2.2.drop 1) =
          none) ∧
    (∀ e ∈ [(CollOp.dispatch, 0), (.combine, 1)],
      let pk := rowsPk e.2
      let b := (cmd1 (grouped group2) pk).begun (fly (.ring 1) pk)
      let c0 : Coll := { cmd := 7, seq := 0, op := e.1, opcode := 0x502, pk := pk }
      let len := 4 * group2.size * c0.experts * (if e.1 = .dispatch then 1 else 2)
      let u := b.chargeParam (fly (.ring 1) pk) (pk.d 0x20) len false
      let c1 := { c0 with counts := bytesToWords (u.readVA 1 (pk.d 0x20) len) }
      let c := { c1 with sentRows := c1.rowsSent group2 }
      pk.f 0x10 8 8 = e.2 ∧ b.unreadable 1 (pk.d 0x20) len = false ∧ b.extentPoison [] 1 (pk.d 0x20) len = false ∧
        c.rowsCause group2 = none ∧ u.extentsStatus 1 (c.rowExtents group2).1 (c.rowExtents group2).2 = none) ∧
    (let b := (cmd1 permuted permPk).begun (fly (.ring 1) permPk)
     let u := b.chargeParam (fly (.ring 1) permPk) (permPk.d 0x28) 8 false
     let c : Coll := { cmd := 7, seq := 0, op := .permute, opcode := 0x503, pk := permPk,
                       perm := bytesToWords (u.readVA 1 (permPk.d 0x28) 8) }
     b.unreadable 1 (permPk.d 0x28) 8 = false ∧ u.extentPoison [] 1 (permPk.d 0x28) 8 = false ∧ c.permCause group2 = none ∧
       u.extentsStatus 1 [] [(permPk.d 0x18, permPk.d 0x20)] = none) := by
  have a : ∀ e ∈ [(paged4, groupPk 1, [3]), (paged4, groupPk 3, [3]), (grouped group2, unbindG, []), (grouped group2, redPk 0, [4]),
        (grouped group2, redPk 1, [4]), (grouped group2, redPk 2, [4]), (grouped group2, rowsPk 0, [4]),
        (grouped group2, rowsPk 1, [4]), (permuted, permPk, [4])],
      beginsB (cmd1 e.1 e.2.1) (.ring 1) e.2.1 e.2.2 [] = true := by decide +kernel
  exact ⟨fun e m => begins' (a e m), by decide +kernel⟩

/-- coll_values. -/
theorem test_coll_values :
    (let c : Coll := { cmd := 7, seq := 0, op := .allreduce, opcode := 0x501, pk := redPk 0 }
     c.ordered = false ∧ c.g8 = false ∧ [[1#8], [2#8]].Perm [[2#8], [1#8]]) ∧ 0 < 1 ∧
    ({ cmd := 7, seq := 0, op := .dispatch, opcode := 0x502, pk := rowsPk 0 } : Coll).op = .dispatch := by decide +kernel

/-- A started reduction of the group, and packets and answers about it. -/
def coll1 (got : List CollGot) : Coll :=
  { cmd := 7, seq := 0, op := .allreduce, opcode := 0x501, pk := redPk 0, started := true, digest := 4, got := got }
def arrives (g : Group) (p : CPacket) (rmem : List RmemSent) : State :=
  let s := grouped g
  { s with coll := { s.coll with rmem := rmem }, link := { s.link with inbox := [p] } }
def collP (src tag pkg : Nat) : CPacket :=
  { kind := 0x10, tag := tag, srcPkg := pkg, dstPart := 1, object := 2 * 2 ^ 60 + src * 2 ^ 46 + (2 ^ 30 - 1) }
def rmemP (kind tag va : Nat) (bs : List Byte) : CPacket :=
  { kind := kind, tag := tag, srcPkg := 9, dstPart := 1, object := va, payload := bs }
def sentTo (what chunk : Nat) : RmemSent := ⟨63, 0, 9, scratch0, what, chunk, lastPage⟩

/-- coll_packets. -/
theorem test_coll_packets :
    (∀ e ∈ [(group2, collP 1 78 9), (group2, collP 1 77 10), ({ group2 with colls := [coll1 []] }, collP 1 77 9),
        ({ group2 with colls := [coll1 [⟨2, 1, 2 ^ 30 - 1, [], false⟩]] }, collP 1 77 9)],
      (arrives e.1 e.2 []).takePacket (fun k => k.kind == 0x10) = some (e.2, grouped e.1) ∧
        ((arrives e.1 e.2 []).groupOf e.2.tag = if e.2.tag = 77 then some 63 else none) ∧ bits e.2.object 63 60 = 2 ∧
        bits e.2.object 59 46 = 1 ∧ bits e.2.object 29 0 = 2 ^ 30 - 1 ∧ bits e.2.object 45 30 = 0) ∧
    (group2.pkgOf 1 ≠ 10 ∧ group2.part = (collP 1 77 9).dstPart ∧ group2.part ≠ { collP 1 77 9 with dstPart := 2 }.dstPart ∧ ({ group2 with colls := [coll1 []] } : Group).collMod 0 = some (coll1 []) ∧ 2 ∈ (coll1 []).phases ∧
      (coll1 []).rowsOp = false ∧ group2.pkgOf 1 = 9 ∧ 1 < group2.size) ∧
    (∀ e ∈ [(0x20, 78, scratch0), (0x20, 77, scratch0 + 2 ^ 23), (0x20, 77, scratch0 + 2 ^ 23 - 4), (0x21, 77, scratch0 + 2 ^ 23 - 4),
        (0x21, 78, scratch0)],
      let p := rmemP e.1 e.2.1 e.2.2 (toBytes 4 4)
      (arrives group2 p []).takePacket (fun k => k.kind == e.1) = some (p, grouped group2) ∧ bits p.object 47 0 = e.2.2 ∧
        bits p.object 63 48 = 0) ∧
    (group2.inScratch (scratch0 + 2 ^ 23) 4 = false ∧ group2.inScratch (scratch0 + 2 ^ 23 - 4) 4 = true ∧
      group2.collMod 0 = none ∧ (grouped group2).acceptFor 9 1 scratch0 4 = none) ∧
    (let g := { group2 with colls := [coll1 []] }
     let p := rmemP 0x22 77 scratch0 [1#8]
     let s := arrives g p [sentTo 1 0, ⟨63, 0, 9, scratch0 + 4096, 1, 0, lastPage⟩]
     ∃ v r w, s.takePacket (fun k => k.kind == 0x22) = some (p, v) ∧ v.rmemAnswer p = some (r, w) ∧ r.what = 1 ∧
       (s.collOf r.slot r.seq).isSome = true ∧ w.rmemWaits r.slot r.seq 1 0 = true) ∧
    (∀ l ∈ [[sentTo 0 1], [sentTo 0 1, ⟨63, 0, 9, scratch0 + 4096, 0, 1, lastPage⟩]],
      let p := rmemP 0x23 77 scratch0 []
      ∃ v r w, (arrives group2 p l).takePacket (fun k => k.kind == 0x23) = some (p, v) ∧ v.rmemAnswer p = some (r, w) ∧
        w.rmemWaits r.slot r.seq 0 r.chunk = decide (l.length = 2) ∧ w.rmemWaits r.slot r.seq 2 r.chunk = false) := by
  refine ⟨by decide +kernel, by decide +kernel, by decide +kernel, by decide +kernel,
    ⟨_, _, _, rfl, rfl, by decide +kernel⟩, fun l m => ?_⟩
  simp only [List.mem_cons, List.not_mem_nil, or_false] at m
  obtain rfl | rfl := m
  · exact ⟨_, _, _, rfl, rfl, by decide +kernel⟩
  · exact ⟨_, _, _, rfl, rfl, by decide +kernel⟩

/-- A COLL_CTL message from rank 1. -/
def ctlM (csub seq value value2 : Nat) : TMsg := ⟨0x21, 1, 15, 1, 9, 5, 0, [csub * 2 ^ 24 + 1, 77, seq, value, value2]⟩
def toldAt (g : Group) (m : TMsg) : State := heardMsg (grouped g) m

/-- coll_messages. -/
theorem test_coll_messages :
    (∀ e ∈ [(group2, 1, ctlM 1 0 4 0), (group2, 1, ctlM 1 0 5 1), (group2, 1, ctlM 1 0 4 1),
        ({ group2 with colls := [coll1 []] }, 2, ctlM 2 0 4 0), ({ group2 with colls := [coll1 []] }, 2, ctlM 2 0 5 0),
        (group2, 2, ctlM 2 0 5 0), (group2, 3, ctlM 3 0 64 2), ({ group2 with colls := [coll1 []] }, 3, ctlM 3 0 64 2),
        ({ group2 with colls := [coll1 []] }, 4, ctlM 4 0 0xFF 0), (group2, 4, ctlM 4 0 5 0), (group2, 5, ctlM 5 0 1 0),
        ({ group2 with lost := [(1, 0)] }, 5, ctlM 5 0 1 0), (group2, 6, ctlM 6 0 (2 ^ 20 - 2) 1),
        ({ group2 with rejoining := true }, 7, ctlM 7 0 (2 ^ 32 - 1) 0)],
      ∃ v, (toldAt e.1 e.2.2).takeCtl e.2.1 = some (e.2.2, v) ∧ (toldAt e.1 e.2.2).groupOf (e.2.2.words.getD 1 0) = some 63) ∧
    (1 ∈ group2.ring ∧ group2.replies = [] ∧ (∀ r ∈ group2.ring, r ≠ 1 → r ∈ group2.replies) ∧ group2.state = .waiting ∧
      group2.helloAt + 100000 ≤ up.clk ∧ group2.past 0 = false ∧ (grouped group2).collOf 63 0 = none ∧
      (grouped { group2 with colls := [coll1 []] }).collOf 63 0 = some (coll1 []) ∧ (coll1 []).digest = 4 ∧
      bits 2 3 0 ≠ 6 ∧ 1 < group2.size ∧ 1 ≠ group2.rank) ∧
    (∃ e ∈ ({ group2 with lost := [(1, 999000000)] } : Group).lost, e.2 + 1000 * group2.rejoinUs ≤ up.clk) := by
  refine ⟨fun e m => ?_, by decide +kernel, ⟨(1, 999000000), by decide +kernel⟩⟩
  simp only [List.mem_cons, List.not_mem_nil, or_false] at m
  rcases m with rfl | rfl | rfl | rfl | rfl | rfl | rfl | rfl | rfl | rfl | rfl | rfl | rfl | rfl <;>
    exact ⟨_, rfl, by decide +kernel⟩

/-! ### Checkpoints -/

/-- A state record of no elements, a stage with a list of it and this package as its buddy. -/
def shardWords : List Nat := [0x8011] ++ List.replicate 15 0
def listed : StageSlot :=
  { stage1 with cfg := { cfg1 with buddyPkg := 5 }, svc := some { listVa := lastPage, listCount := 1, slotBytes := 2 ^ 21 } }
def recorded (g : StageSlot) : State := (staged g).writeVA 1 lastPage (wordsToBytes shardWords)
def acceptPk : Packet := pack 0x601 [95 + 2 * 2 ^ 8, 0, 0, 0, 2 ^ 21, 0, 9]
def revokePk : Packet := pack 0x601 [95 + 3 * 2 ^ 8]
def writePk : Packet := pack 0x601 [95 + 2 ^ 8, 7]
def drainPk : Packet := pack 0x602 [95, 1]
def restorePk : Packet := pack 0x604 [95, 1]
def exportPk : Packet := pack 0x603 [1, 7, lastPage % 2 ^ 32, lastPage / 2 ^ 32, (lastPage + 8192) % 2 ^ 32, lastPage / 2 ^ 32]
def accepted1 : Accept := ⟨1, lastPage, 2 ^ 21, 0, 9⟩
def accepting : State := { paged with pipe := { accepts := [(95, some accepted1)] } }

/-- ckpt_commands. -/
theorem test_ckpt_commands :
    (∀ e ∈ [(up, acceptPk, []), (accepting, revokePk, []), (recorded listed, writePk, [4]), (recorded listed, drainPk, [3, 4]),
        (recorded listed, restorePk, [3]),
        (recorded stage1, exportPk, (cmd1 (recorded stage1) exportPk).extentRes 1 ((cmd1 (recorded stage1) exportPk).pathDie (.ring 1)) (exportPk.d 0x18) 64)],
      (cmd1 e.1 e.2.1).Begins (.ring 1) e.2.1 (fly (.ring 1) e.2.1) e.2.2 []) ∧
    (acceptPk.f 0x10 9 8 = 2 ∧ acceptPk.w 0x14 = 0 ∧ acceptPk.d 0x18 % 2 ^ 21 = 0 ∧ acceptPk.d 0x20 % 2 ^ 21 = 0 ∧
      up.pipe.accepts.get none 95 = none ∧ revokePk.f 0x10 9 8 = 3 ∧ accepting.pipe.accepts.get none 95 = some accepted1) ∧
    (∀ pk ∈ [writePk, drainPk, restorePk],
      let b := (cmd1 (recorded listed) pk).begun (fly (.ring 1) pk)
      let l := b.shards 1 lastPage 1
      b.unreadable 1 lastPage 64 = false ∧ l.length = 1 ∧ b.otherLevels l = false ∧ stateListFault l = none ∧
        largestShard l ≤ 2 ^ 21 ∧ b.shardsFault 1 l true = none ∧ (imageLayout l).2 = 4096) ∧
    (writePk.f 0x10 9 8 = 1 ∧ (∀ i, i < 5 → writePk.w (0x18 + 4 * i) = 0) ∧ listed.hasBuddy = true ∧ listed.stepping = false ∧
      listed.write = none ∧ (recorded listed).lookup 0 5 false (recorded listed).dataUsable ((recorded listed).granted 1) = .here) ∧
    (drainPk.f 0x14 11 0 ≠ 0 ∧ extentsHold (extentList (wordsToBytes [0, 0, 4096, 0])) 4096 = true) ∧
    (restorePk.f 0x10 9 8 = 0 ∧ restorePk.f 0x14 11 0 ≠ 0 ∧ listed.plan.state ≠ .running) ∧
    (let b := (cmd1 (recorded stage1) exportPk).begun (fly (.ring 1) exportPk)
     let c := b.chargeParam (fly (.ring 1) exportPk) (exportPk.d 0x18) 64 false
     let l := c.shards 1 (exportPk.d 0x18) 1
     exportPk.b 0x10 12 = false ∧ exportPk.f 0x10 11 0 = 1 ∧ b.unreadable 1 (exportPk.d 0x18) 64 = false ∧
       b.extentPoison [] 1 (exportPk.d 0x18) 64 = false ∧ b.otherLevels l = false ∧ (∀ x ∈ l, x.ok = true) ∧
       c.shardsFault 1 l false = none ∧ c.extentFault 1 (exportPk.d 0x20) (imageLayout l).2 true = none ∧
       c.extentAsleep 1 (exportPk.d 0x20) (imageLayout l).2 = false) := by
  have a : ∀ e ∈ [(up, acceptPk, []), (accepting, revokePk, []), (recorded listed, writePk, [4]), (recorded listed, drainPk, [3, 4]),
        (recorded listed, restorePk, [3]),
        (recorded stage1, exportPk, (cmd1 (recorded stage1) exportPk).extentRes 1 ((cmd1 (recorded stage1) exportPk).pathDie (.ring 1)) (exportPk.d 0x18) 64)],
      beginsB (cmd1 e.1 e.2.1) (.ring 1) e.2.1 e.2.2 [] = true := by decide +kernel
  exact ⟨fun e m => begins' (a e m), by decide +kernel⟩

/-- image_round_trip: no shard, one whose record holds the greatest words. -/
theorem test_image_round_trip : (List.replicate 512 0#8).length = 512 ∧
    (let x : ImageShard := ⟨Shard.ofWords ([0x8011] ++ List.replicate 7 (2 ^ 32 - 1) ++ [0, 0, 2 ^ 32 - 1, 2 ^ 32 - 1] ++
        List.replicate 4 (2 ^ 32 - 1)), [], false⟩
     x.shard.words.length = 16 ∧ (∀ w ∈ x.shard.words, w < 2 ^ 32) ∧ x.shard.scaleBytes < 2 ^ 32 ∧
       (imageLayout [x.shard]).2 < 2 ^ 64) ∧ 2 ^ 16 - 1 < 2 ^ 16 ∧ 2 ^ 32 - 1 < 2 ^ 32 ∧ 2 ^ 64 - 1 < 2 ^ 64 := by decide +kernel

/-- A CKPT packet from package 9 to the last bytes of the accepted extent, or one byte beyond. -/
def ckptP (sub va : Nat) (bs : List Byte) : CPacket :=
  { kind := 0x30, srcPkg := 9, dstPart := 1, object := ckptObject sub va, tag := 3, payload := bs }
def comes (s : State) (p : CPacket) (sent : List CkptSent) : State :=
  { s with link := { s.link with inbox := [p] }, pipe := { s.pipe with ckptSent := sent } }
def awaited (what : CkptUse) : CkptSent := ⟨3, ckptObject 1 lastPage, 9, what⟩
def endVa : Nat := lastPage + 2 ^ 21 - 4

/-- ckpt_packets. -/
theorem test_ckpt_packets :
    (∀ sub ∈ [1, 2, 4], ∀ k ∈ [0, 1],
      let p := ckptP sub (endVa + k) (toBytes 4 4)
      let s := comes accepting p []
      s.takePacket (fun k => k.kind == 0x30 && (if sub = 1 then !(decide (2 ≤ k.sub) && decide (k.sub ≤ 5)) else k.sub == sub)) =
          some (p, accepting) ∧ p.sub = sub ∧ s.ckptAccepted p 0 4 (sub != 4) = decide (k = 0)) ∧
    (ofBytes ((ckptP 4 endVa (toBytes 4097 4)).payload.take 4) = 4097 ∧
      accepting.lookup 0 5 false accepting.dataUsable (accepting.granted 1) = .here) ∧
    (∀ what ∈ [CkptUse.berth 95 7, .write 95],
      let p := ckptP 3 lastPage []
      let s := comes accepting p [awaited what]
      ∃ v w, s.takePacket (fun k => k.kind == 0x30 && k.sub == 3) = some (p, v) ∧ v.ckptMatch p = some (what, w) ∧
        w.ckptWaits (fun u => u == .berth 95 7) = false) ∧
    (∀ l ∈ [[], [awaited (.berthBack 95 7 0)]],
      let p := ckptP 5 lastPage [1#8]
      let s := comes accepting p (awaited (.berthBack 95 7 lastPage) :: l)
      ∃ v w, s.takePacket (fun k => k.kind == 0x30 && k.sub == 5) = some (p, v) ∧
        v.ckptMatch p = some (.berthBack 95 7 lastPage, w) ∧ w.pipe.ckptSent = l) := by
  refine ⟨by decide +kernel, by decide +kernel, fun what m => ?_, fun l m => ?_⟩ <;>
  · simp only [List.mem_cons, List.not_mem_nil, or_false] at m
    obtain rfl | rfl := m <;> exact ⟨_, _, rfl, rfl, by decide +kernel⟩

/-! ### Serving -/

/-- A model record of sixteen cores with its buffers in the last page, and a slot bound to it. -/
def modelRec : List Nat :=
  [1 + 9 * 16, 0, 3, 0, 0, 0, 0, 0, 1, 0, 1, 1, lo lastPage, hi lastPage, lo (lastPage + 0x1000), hi lastPage,
   lo (lastPage + 0x2000), hi lastPage, 0, 0, lo lastPage, hi lastPage, lo (lastPage + 0x3000), hi lastPage, 4096,
   16 * 2 ^ 16 + 1, 1, 1, 0, 0, 0, 0]
def modelCfg : ModelRec := ModelRec.ofWords modelRec
def model1 : ModelSlot := { bound := true, part := 1, slices := 3, cfg := modelCfg }
/-- A sequence in the last entry. -/
def seq1 : AstEntry := ⟨5, 1, 63, false, false, false, false, 0, .decode, 0, 9, 15, 15, 0, 1, 0, 0, lastPage, lastPage, 1, 0, 0, [], 0, none⟩
def serving (ms : Tab ModelSlot) (ast : Tab (Option AstEntry)) : State :=
  { staged {} with pipe := {}, serv := { models := ms, ast := ast, quotas := [(1, 2)] } }
def row1 : ServRow := ⟨65535, 5, false, true, true, 15, 1, 0, lastPage⟩

def modelPk (op : Nat) : Packet := pack 0x705 (if op = 1 then [0, 0, 2 ^ 7 + 2 ^ 8] else [0, 0, 63 + 2 * 2 ^ 8])
def admitPk : Packet := pack 0x701 [5, 63, 15, 1, lo (2 ^ 48 - 60), hi (2 ^ 48 - 60), lo (2 ^ 48 - 8), hi (2 ^ 48 - 8)]
def retirePk : Packet := pack 0x702 [65535, 5]
def deadlinePk (force d : Nat) : Packet := pack 0x703 [65535 + force * 2 ^ 16, 5, lo d, hi d, 1]
def fallbackPk (k : Nat) : Packet := pack 0x704 [63 + k * 2 ^ 8]
def modelHost : List Byte := wordsToBytes modelRec

/-- serving_commands. -/
theorem test_serving_commands :
    (∀ e ∈ [(serving [] [], modelPk 1, [3], [0]), (serving [(63, model1)] [(65535, some seq1)], modelPk 2, [], []),
        (serving [(63, model1)] [], admitPk, [], []), (serving [(63, model1)] [(65535, some seq1)], retirePk, [], []),
        (serving [(63, { model1 with rows := [row1] })] [(65535, some seq1)], retirePk, [], []),
        (serving [(63, model1)] [(65535, some seq1)], deadlinePk 0 (2 ^ 40), [], []),
        (serving [(63, model1)] [(65535, some seq1)], deadlinePk 1 0, [], []),
        (serving [(63, model1)] [(65535, some seq1)], deadlinePk 0 0, [], []),
        (serving [(62, model1), (63, model1)] [], fallbackPk 0x3F, [], []),
        (serving [(62, { model1 with pool := 1 }), (63, model1)] [], fallbackPk 62, [], [])],
      (cmd1 e.1 e.2.1).Begins (.ring 1) e.2.1 (fly (.ring 1) e.2.1) e.2.2.1 e.2.2.2) ∧
    (let s := cmd1 (serving [] []) (modelPk 1)
     let c := (s.begun (fly (.ring 1) (modelPk 1))).chargeParam (fly (.ring 1) (modelPk 1)) ((modelPk 1).d 0x10) 128 true
     (modelPk 1).f 0x18 9 8 = 1 ∧ (modelPk 1).f 0x18 5 0 = 0 ∧ (modelPk 1).b 0x18 7 = true ∧
       (∀ u ∈ [s, c], okOf (u.modelWords 1 (modelPk 1) (some modelHost) []) = some modelRec ∧ u.modelCause 1 modelRec = none) ∧
       s.otherLevel (bits (modelRec.getD 0 0) 3 0) = false ∧ ((s.sliceCores modelCfg.slices).map coreDomain).eraseDups = [0]) ∧
    ((modelPk 2).f 0x18 9 8 = 2 ∧ (modelPk 2).d 0x10 = 0 ∧ (modelPk 2).b 0x18 7 = false ∧ model1.closing = none ∧
      up.held 1 = false ∧ (∀ c ∈ (serving [] []).sliceCores 3, ((serving [] []).core c).state.ended = true) ∧ seq1.cmd = none) ∧
    (let s := serving [(63, model1)] []
     s.servUsed 1 < s.serv.quotas.get 0 1 ∧ 0 < admitPk.w 0x18 ∧ 0 < admitPk.w 0x1C ∧ admitPk.d 0x20 % 4 = 0 ∧
       admitPk.d 0x28 % 8 = 0 ∧ admitPk.d 0x20 + 4 * 15 ≤ 2 ^ 48 ∧ admitPk.d 0x28 + 8 * 1 ≤ 2 ^ 48 ∧
       15 + 1 ≤ modelCfg.listLen * modelCfg.blockTokens ∧ ceilDiv (15 + 1) modelCfg.blockTokens ≤ modelCfg.blocks ∧
       (0 < modelCfg.maxSeqs ∧ 0 ∉ (s.poolEntries model1.pool).map (fun e => e.2.kvList)) ∧ s.ast 65535 = none) ∧
    ((serving [(63, model1)] [(65535, some seq1)]).ast 65535 = some seq1 ∧ seq1.seqId = retirePk.w 0x14 ∧ seq1.state ≠ .retiring ∧
      (∀ r ∈ model1.rows, r.ast ≠ 65535) ∧ row1.ast = 65535) ∧
    (0 < (deadlinePk 0 0).w 0x20 ∧ (deadlinePk 0 0).w 0x20 ≤ seq1.maxNew ∧ (deadlinePk 1 0).b 0x10 16 = true ∧
      (deadlinePk 0 0).b 0x10 16 = false ∧ model1.fallback = none ∧
      (let s := serving [(63, model1)] [(65535, some seq1)]
       seq1.finish model1 s.sysTime 1 + 1000 * seq1.guardUs ≤ 2 ^ 40 ∧ ¬ seq1.finish model1 s.sysTime 1 + 1000 * seq1.guardUs ≤ 0)) ∧
    ((fallbackPk 0x3F).f 0x10 13 8 = 0x3F ∧ (fallbackPk 62).f 0x10 13 8 ≠ 0x3F ∧ 63 ≠ 62 ∧ modelCfg.sharesKv modelCfg = true) := by
  have a : ∀ e ∈ [(serving [] [], modelPk 1, [3], [0]), (serving [(63, model1)] [(65535, some seq1)], modelPk 2, [], []),
        (serving [(63, model1)] [], admitPk, [], []), (serving [(63, model1)] [(65535, some seq1)], retirePk, [], []),
        (serving [(63, { model1 with rows := [row1] })] [(65535, some seq1)], retirePk, [], []),
        (serving [(63, model1)] [(65535, some seq1)], deadlinePk 0 (2 ^ 40), [], []),
        (serving [(63, model1)] [(65535, some seq1)], deadlinePk 1 0, [], []),
        (serving [(63, model1)] [(65535, some seq1)], deadlinePk 0 0, [], []),
        (serving [(62, model1), (63, model1)] [], fallbackPk 0x3F, [], []),
        (serving [(62, { model1 with pool := 1 }), (63, model1)] [], fallbackPk 62, [], [])],
      beginsB (cmd1 e.1 e.2.1) (.ring 1) e.2.1 e.2.2.1 e.2.2.2 = true := by decide +kernel
  exact ⟨fun e m => begins' (a e m), by decide +kernel⟩

/-- serving_steps: the step's DONE and another one; boundaries; quotas at the limit and beyond. -/
theorem test_serving_steps :
    (∀ w ∈ [[0, 0, 0, 0, 4], [0, 0, 0, 0, 5]],
      let s := serving [(63, { model1 with state := .stepping, next := 5 })] []
      let t := { s with fab := { s.fab with requests := [(15, 0x7FD, 0, w)] } }
      listFind (fun e => e.2.1 == 0x7FD) t.fab.requests = some (15, 0x7FD, 0, w) ∧ t.modelOf 15 = some 63 ∧
        (w.getD 4 0 = (t.model 63).step ↔ w.getD 4 0 = 4)) ∧
    (63 < 64 ∧ model1.bound = true ∧ model1.closing = none ∧ (up.part 1).state = .running ∧ model1.broken = none ∧
      model1.replay = false ∧ model1.state = .waiting ∧
      (∃ e ∈ (serving [(63, model1)] [(65535, some seq1)]).serv.ast, ∃ a, e.2 = some a ∧ a.slot = 63)) ∧
    (({ model1 with broken := some 1, rows := [row1] } : ModelSlot).broken = some 1 ∧
      ({ model1 with replay := true } : ModelSlot).replay = true) ∧
    (let s := { serving [(63, model1)] [(65535, some seq1)] with own := { owner := some .host0 } }
     s.isOwner .host0 = true ∧ s.serv.quotas.wf 0 = true ∧ total (s.serv.quotas.map (·.2)) ≤ 65536 ∧
       (s.servUsed 1 ≤ bits 65536 16 0 ∧ 2 - 2 + bits 65536 16 0 ≤ 65536) ∧ bits 0 16 0 < s.servUsed 1 ∧
       (2 < bits 65537 16 0 ∧ 65536 < 2 - 2 + bits 65537 16 0)) :=
  ⟨by decide +kernel, ⟨by decide, by decide, by decide, by decide +kernel, by decide, by decide, by decide,
    ⟨_, List.mem_singleton.mpr rfl, _, rfl, rfl⟩⟩, by decide +kernel, by decide +kernel⟩

/-! ### Tenancy -/

/-- Partition 1 with slices 0 and 1, and given changes; every other partition FREE. -/
def tenant (e : Partition) : State :=
  { up with ten := { parts := [(0, { state := .idle }), (1, e)] } }
def runs1 : Partition := { state := .running, slices := 3, t1Budget := 100, dbgMax := 3, jobId := 4 }

/-- PART_CREATE of partition 64 on the last slice, and of a partition that is not FREE; PART_SET; PART_DESTROY. -/
def createPk (p : Nat) : Packet := pack 0x101 [p, 0, 5, 0, 0, 0, 0, 0, 0, 2 ^ 31]
def setPk (op arg w x : Nat) : Packet := pack 0x103 [op + 2 ^ 8, arg, w, x, 2, 0, 0, 0, 0, 2 ^ 31]
def destroyPk : Packet := pack 0x102 [1]
def set0 (pk : Packet) : State := cmd0 (tenant runs1) pk

/-- tenancy_partitions. -/
theorem test_tenancy_partitions :
    (∀ pk ∈ [createPk 64, createPk 1, setPk 1 0 0 0, setPk 2 (2 ^ 24 - 1) 0 0, setPk 3 0 0 0, setPk 4 3 4 (2 ^ 31 + 2000),
        setPk 4 3 4 (2 ^ 31 + 2001), setPk 5 3 100000 0, setPk 6 2 0 0, setPk 7 2 0 0, destroyPk],
      (set0 pk).Begins (.ring 0) pk (fly (.ring 0) pk) [] []) ∧
    (cmd1 (tenant runs1) (setPk 6 2 0 0)).Begins (.ring 1) (setPk 6 2 0 0) (fly (.ring 1) (setPk 6 2 0 0)) [] [] ∧
    ((tenant runs1).createCause (createPk 64) = none ∧ (tenant runs1).saveFrames (5 * sliceCount ((createPk 64).mask192 0x20))
        (List.range 5) = true ∧ (tenant runs1).savePages 0 5 [] = true ∧ (tenant runs1).createCause (createPk 1) = some 2) ∧
    (let pk := setPk 1 0 0 0
     pk.f 0x10 3 0 = 1 ∧ (tenant runs1).slicesCause pk = none ∧ 5 * sliceCount (pk.mask192 0x20) = 10 ∧
       (tenant runs1).saveFrames (10 - 5 * sliceCount runs1.slices) [] = true ∧
       (tenant runs1).savePages 0 10 runs1.savePages = true) ∧
    (runs1.state ≠ .free ∧ ((tenant runs1).meter 1).t1Frames ≤ 0 ∧ ((tenant runs1).meter 1).t2Frames ≤ 0) ∧
    (∀ r ∈ [2000, 2001], let pk := setPk 4 3 4 (2 ^ 31 + r)
     let w := pk.d 0x18
     pk.f 0x14 2 0 ≤ 4 ∧ 4 ≤ bits w 15 0 ∧ bit w 63 = true ∧
       ((tenant runs1).sharesBut 1 3 + 64 * bits w 55 32 ≤ shareLimit 3 ↔ r = 2000)) ∧
    ((setPk 5 3 100000 0).w 0x18 ≤ 100000 ∧ (setPk 6 2 0 0).f 0x14 1 0 ≤ runs1.dbgMax ∧ (setPk 6 2 0 0).f 0x14 1 0 ≠ 3 ∧ (setPk 7 2 0 0).f 0x14 1 0 ≠ 3 ∧
      runs1.dbgPerm < (setPk 6 2 0 0).f 0x14 1 0 ∧ Path.ring 0 ≠ .ring 1 ∧ (tenant runs1).controlPath (.ring 0) = true) ∧
    destroyPk.f 0x10 7 0 = 1 := by
  have a : ∀ pk ∈ [createPk 64, createPk 1, setPk 1 0 0 0, setPk 2 (2 ^ 24 - 1) 0 0, setPk 3 0 0 0, setPk 4 3 4 (2 ^ 31 + 2000),
        setPk 4 3 4 (2 ^ 31 + 2001), setPk 5 3 100000 0, setPk 6 2 0 0, setPk 7 2 0 0, destroyPk],
      beginsB (set0 pk) (.ring 0) pk [] [] = true := by decide +kernel
  exact ⟨fun e m => begins' (a e m), begins' (by decide +kernel), by decide +kernel⟩

/-- A page of partition 0 with a twin, in the last slot or in the last berth. -/
def berthed (b : CommonBerth) : State :=
  let s := tenant runs1
  { s with
    mem := { s.mem with pt := [(pteKey 0 1 lastPage, mkPte 1), (pteKey 0 2 lastPage, mkPte 1),
      (pteKey 0 3 lastPage, mkPte (pteWord (lastFrame * 2 ^ 21) true false false true true))] }
    ten := { s.ten with berths := [(31, b)] } }
def berthPk (op unmap : Nat) : Packet := pack 0x105 [31 + op * 64 + unmap * 512, 1, lo lastPage, hi lastPage]
def evictedJob : State :=
  let s := tenant { state := .evicted, jobId := 4, home := 3 }
  { s with fab := { s.fab with saved := [⟨1, [(0, { pc := 5 })], [], [], [], [], [], [], [], [], [], [], [(0, 1#8)], [(0, 2#8)], [], [], []⟩] } }
def jobPk (op flag : Nat) : Packet := pack op [1 + flag * 256, 4]

/-- tenancy_jobs. -/
theorem test_tenancy_jobs :
    (∀ e ∈ [(berthed {}, berthPk 1 0), (berthed { state := .ready, pages := 1, va := lastPage }, berthPk 2 0),
        (berthed { state := .ready, pages := 1, va := lastPage }, berthPk 2 1), (tenant { state := .idle }, jobPk 0x110 0),
        (evictedJob, jobPk 0x110 1), (tenant runs1, jobPk 0x111 0), (tenant runs1, jobPk 0x111 1)],
      (cmd0 e.1 e.2).Begins (.ring 0) e.2 (fly (.ring 0) e.2) [] []) ∧
    ((berthPk 1 0).f 0x10 7 6 = 1 ∧ 0 < (berthPk 1 0).w 0x14 ∧ (berthPk 1 0).w 0x14 ≤ 65536 ∧ (berthPk 1 0).d 0x18 % 2 ^ 21 = 0 ∧
      ((berthed {}).berth 31).state = .free ∧ (∀ va ∈ pagesOf ((berthPk 1 0).d 0x18) 1, (berthed {}).berthPage va = true)) ∧
    ((berthPk 2 0).f 0x10 7 6 = 2 ∧ (berthPk 2 0).b 0x10 9 = false ∧ (berthPk 2 1).b 0x10 9 = true) ∧
    ((jobPk 0x110 0).b 0x10 8 = false ∧ (jobPk 0x110 1).b 0x10 8 = true ∧ (jobPk 0x110 1).w 0x14 = (evictedJob.part 1).jobId ∧
      evictedJob.sliceTaken 3 = false ∧ evictedJob.cpu.runs = [] ∧ evictedJob.pipe.slots = [] ∧
      (listFind (fun j => j.part == 1) evictedJob.fab.saved).isSome = true ∧ ([(0, 1#8)].map (·.1)).Nodup) ∧
    (∀ c ∈ (tenant runs1).partCores 1, ((tenant runs1).core c).state ≠ .moving ∧ ((tenant runs1).core c).state ≠ .running) := by
  have a : ∀ e ∈ [(berthed {}, berthPk 1 0), (berthed { state := .ready, pages := 1, va := lastPage }, berthPk 2 0),
        (berthed { state := .ready, pages := 1, va := lastPage }, berthPk 2 1), (tenant { state := .idle }, jobPk 0x110 0),
        (evictedJob, jobPk 0x110 1), (tenant runs1, jobPk 0x111 0), (tenant runs1, jobPk 0x111 1)],
      beginsB (cmd0 e.1 e.2) (.ring 0) e.2 [] [] = true := by decide +kernel
  exact ⟨fun e m => begins' (a e m), by decide +kernel⟩

/-- An ABORT on ring 0 beside a command of ring 1 or a committed one. -/
def abortPk (scope ring : Nat) : Packet := pack 0x112 [scope + ring * 256]
def target (op : Nat) (ph : Phase) : Flight := ⟨6, .ring 1, pack op [], ph, 0, none, [], 0⟩
def beside (fs : List Flight) (cs : List Completion) (pk : Packet) : State :=
  let s := tenant runs1
  { s with cmd := { s.cmd with flights := fs ++ [fly (.ring 0) pk], committed := cs, nextId := 8 } }
def finished : Completion := ⟨5, .ring 1, 0x210, 0, 0, 0, 1, 0, false, []⟩
def shared1 : State :=
  let r : Regulator := ⟨true, 1, 4⟩
  tenant { runs1 with reg0 := r }

/-- tenancy_aborts_meters. -/
theorem test_tenancy_aborts_meters :
    (∀ e ∈ [([target 0x302 .accepted], []), ([target 0x210 .begun], []), ([target 0x001 .accepted], []), ([], [finished]), ([], [])],
      (beside e.1 e.2 (abortPk 1 1)).Begins (.ring 0) (abortPk 1 1) (fly (.ring 0) (abortPk 1 1)) [] []) ∧
    (∀ p ∈ [2, 1, 64], (beside [] [] (abortPk 2 p)).Begins (.ring 0) (abortPk 2 p) (fly (.ring 0) (abortPk 2 p)) [] []) ∧
    ((abortPk 1 1).f 0x10 1 0 = 1 ∧ abortPath (.ring 0) 1 = some (.ring 1) ∧ up.controlPath (.ring 0) = true) ∧
    (∀ t ∈ [target 0x302 .accepted, target 0x210 .begun, target 0x001 .accepted],
      let s := beside [t] [] (abortPk 1 1)
      listFind (fun x => x.path == .ring 1 && x.pk.seq.toNat == (abortPk 1 1).w 0x14 && x.id != 7) s.cmd.flights = some t ∧
        s.flight t.id = some t ∧ t.aborts = [] ∧ (∀ h ∈ s.cmd.flights, 7 ∉ h.aborts) ∧ (abortable t.pk = decide (t.pk.opcode ≠ 1))) ∧
    ((target 0x210 .begun).phase = .begun ∧ (target 0x210 .begun).stop?.isNone = true) ∧
    (listFind (fun x => x.path == .ring 1 && x.pk.seq.toNat == 0 && x.id != 7) (beside [] [finished] (abortPk 1 1)).cmd.flights = none ∧
      listFind (fun c => c.path == Path.ring 1 && c.seq == (abortPk 1 1).w 0x14) [finished] = some finished ∧ finished.opcode ≠ 1 ∧
      finished.opcode ≠ 0x112) ∧
    ((abortPk 2 64).f 0x10 1 0 = 2 ∧ 0 < 64 ∧ ((tenant runs1).part 64).state = .free ∧ ((tenant runs1).part 1).state = .running) ∧
    ((∀ p, p ≤ 64 → shared1.entryHeld p = false) ∧
      (let s := tenant { runs1 with pairBad := true }
       (∀ q, q ≤ 64 → q ≠ 1 → s.entryHeld q = false) ∧ (s.part 1).pairBad = true ∧ (s.part 1).copyBad = false)) ∧
    (shared1.ten.refillAt + 1000 ≤ shared1.clk ∧
      ({ shared1 with ten := { shared1.ten with refillAt := 999999000 } } : State).ten.refillAt + 1000 ≤ shared1.clk) ∧
    (let w : BucketWait := ⟨.debug 0, 1, [4], 7⟩
     let s : State := { tenant { runs1 with reg4 := ⟨false, 1, 4⟩ } with ten := { (tenant { runs1 with reg4 := ⟨false, 1, 4⟩ }).ten with
       waits := [w] } }
     w.part = 1 ∧ w.res = [4] ∧ s.stillWaits w = true ∧ ((s.part 1).reg 4).fixed = false ∧
       (∀ p, p ≤ 64 → s.entryHeld p = false)) ∧ shared1.ten.waits = [] ∧
    (((shared1.part 1).reg 0).fixed = true ∧ 0 < ((shared1.part 1).reg 0).rate ∧ ((shared1.part 1).reg 0).rate < 0xFFFFFF ∧
      ((shared1.meter 1).bucket 0).nextSlot ≤ shared1.clk) := by
  have a : ∀ e ∈ [([target 0x302 .accepted], []), ([target 0x210 .begun], []), ([target 0x001 .accepted], []), ([], [finished]), ([], [])],
      beginsB (beside e.1 e.2 (abortPk 1 1)) (.ring 0) (abortPk 1 1) [] [] = true := by decide +kernel
  have b : ∀ p ∈ [2, 1, 64], beginsB (beside [] [] (abortPk 2 p)) (.ring 0) (abortPk 2 p) [] [] = true := by decide +kernel
  exact ⟨fun e m => begins' (a e m), fun p m => begins' (b p m), by decide +kernel⟩

/-! ### The command interface -/

/-- A ring in service; its last index, SEQ about to wrap. -/
def serviced : Ring :=
  { enable := true, enabled := true, sqHost := true, cqHost := true, dbPorts := 2, sqLog2 := 12, cqLog2 := 12, phase := 1,
    sqHead := 4095, nextSeq := 2 ^ 32 - 1, cqTail := 4095, head := 4094 }
def ringed (n : Nat) (r : Ring) : State := { up with cmd := { up.cmd with rings := [(n, r)] } }
/-- The 64 bytes of a packet. -/
def entryOf (w0 hdrC seq : Nat) : List Byte := wordsToBytes ([w0, hdrC, seq] ++ List.replicate 13 0)
def identEntry (seq : Nat) : List Byte := entryOf 0x1001 (0xFFFFFFFF - 0x1001) seq

/-- ring_seq: a SEQ that does not match, one that does in a good packet and in a bad one; a mailbox. -/
theorem test_ring_seq :
    (∀ n ∈ [0, 64], n < 65 ∧ (ringed n serviced).mayFetch n = true ∧ ((ringed n serviced).ring n).sqHost = true ∧
      ((ringed n serviced).part n).pairBad = false ∧ ((ringed n serviced).part n).state ≠ .destroying) ∧
    (identEntry 0).length = 64 ∧ (entryOf 0x1001 0 (2 ^ 32 - 1)).length = 64 ∧
    (Packet.ofWords (bytesToWords (identEntry 0))).seq.toNat ≠ serviced.nextSeq ∧
    (let pk := Packet.ofWords (bytesToWords (identEntry (2 ^ 32 - 1)))
     pk.seq.toNat = serviced.nextSeq ∧ (ringed 0 serviced).packetStatus (.ring 0) pk = none) ∧
    (let pk := Packet.ofWords (bytesToWords (entryOf 0x1001 0 (2 ^ 32 - 1)))
     pk.seq.toNat = serviced.nextSeq ∧ (ringed 0 serviced).packetStatus (.ring 0) pk = some 0x0400) ∧
    (∀ m ∈ [Master.host0, .bmc], (∀ p, m ≠ .fm p) ∧ (up.mbox m.bank).busy = false ∧ up.cmd.fetchStopped = false ∧
      ({ up with cmd := { up.cmd with mailboxes := [(m.bank, { cmd := (Tab.putAll 0 ([] : Tab Nat) 0 [0x1001, 0xFFFFEFFE]) })] } } : State).packetStatus
        (.mailbox m.bank) (Packet.ofWords [0x1001, 0xFFFFEFFE]) = none) := by
  refine ⟨by decide +kernel, by decide +kernel, by decide +kernel, by decide +kernel, by decide +kernel, by decide +kernel, ?_⟩
  intro m h
  simp only [List.mem_cons, List.not_mem_nil, or_false] at h
  rcases h with rfl | rfl <;> exact ⟨nofun, by decide +kernel⟩

/-- The package owned by the BMC, with a valid lease. -/
def owned : State :=
  { up with own := { ({} : Own) with owner := some .bmc, lastOwner := 2, token := 2 * 2 ^ 30 + 5,
                                     tokenC := compl32 (2 * 2 ^ 30 + 5), leaseEnd := 2000000000, gen := 2 ^ 32 - 1 } }
def identPk : Packet := pack 0x001 []
def levelPk (l : Nat) : Packet := pack 0x002 [l]
def regPk (off cnt : Nat) (ws : List Nat) : Packet := pack 0x003 ([off, cnt] ++ ws)
def offerPk : Packet := pack 0x011 [3, 2 ^ 20 - 1, 10000]

/-- control_commands: a packet at each check of R527, and each command; a device level of 1 and of 0. -/
theorem test_control_commands :
    (∀ e ∈ [(pack 0xFFF [], 0x0602), (Packet.ofWords [0x1001001, 0xFFFFFFFF - 0x1001001], 0x0300), (levelPk 16, 0x0601), (Packet.ofWords [0x1001, 0], 0x0400),
        (Packet.ofWords [0x2002, 0xFFFFFFFF - 0x2002], 0x0600)], up.packetStatus (.ring 0) e.1 = some e.2) ∧
    (up.packetStatus (.ring 0) (levelPk 15) = none ∧ up.pkg.runLevel = 1) ∧
    (∀ s ∈ [owned, { owned with pkg := { owned.pkg with dieLevelMin := 1 } }],
      ∀ pk ∈ [identPk, levelPk 0, levelPk 1, levelPk 2, regPk 0 7 [], regPk 0x30 3 [], regPk 0x2C 3 [], regPk 0x3FFFFFC 0x100 [1],
        regPk 0x3FFFFE0 0x107 [1, 2, 3, 4, 5, 6, 7, 8], offerPk], (cmd0 s pk).Begins (.ring 0) pk (fly (.ring 0) pk) [] []) ∧
    ((levelPk 1).f 0x10 3 0 = 1 ∧ 0 < 1 ∧ owned.pkg.runLevel = 1 ∧ (levelPk 0).f 0x10 3 0 ≠ 1 ∧
      ({ owned with pkg := { owned.pkg with dieLevelMin := 0 } } : State).pkg.dieLevelMin = 0) ∧
    ((regPk 0x2C 3 []).b 0x14 8 = false ∧ 0x2C + 4 * 4 ≤ 0x3C ∧ (regPk 0x3FFFFFC 0x100 [1]).b 0x14 8 = true ∧
      0x3FFFFFC + 4 * 1 ≤ 2 ^ 26 ∧ 0x3FFFFE0 + 4 * 8 ≤ 2 ^ 26) ∧
    (owned.pathMaster (.ring 0) = .bmc ∧ owned.isOwner .bmc = true ∧ up.isOwner (up.pathMaster (.ring 0)) = false) ∧
    (cmd0 up (regPk 0 0x100 [1])).Begins (.ring 0) (regPk 0 0x100 [1]) (fly (.ring 0) (regPk 0 0x100 [1])) [] [] ∧
    ((regPk 0 0x100 [1]).b 0x14 8 = true) ∧
    (owned.own.offer = none ∧ owned.own.owner ≠ none ∧ owned.isOwner (offerTarget offerPk) = false ∧
      0 < offerPk.w 0x18 ∧ offerPk.w 0x18 ≤ 10000) := by
  have a : ∀ s ∈ [owned, { owned with pkg := { owned.pkg with dieLevelMin := 1 } }],
      ∀ pk ∈ [identPk, levelPk 0, levelPk 1, levelPk 2, regPk 0 7 [], regPk 0x30 3 [], regPk 0x2C 3 [], regPk 0x3FFFFFC 0x100 [1],
        regPk 0x3FFFFE0 0x107 [1, 2, 3, 4, 5, 6, 7, 8], offerPk], beginsB (cmd0 s pk) (.ring 0) pk [] [] = true := by
    decide +kernel
  exact ⟨by decide +kernel, by decide +kernel, fun s h pk m => begins' (a s h pk m), by decide +kernel, by decide +kernel,
    by decide +kernel, begins' (by decide +kernel), by decide +kernel, by decide +kernel⟩

/-- A completion of the last entry of a ring, or of a mailbox. -/
def doneOn (path : Path) : Completion := ⟨7, path, 1, stDone, 0, 0, 0, 0, true, []⟩
def finishedOn (s : State) (path : Path) : State := { s with cmd := { s.cmd with committed := [doneOn path] } }
/-- The lock-keeper is the fabric manager of package 9, and its window is about to wrap. -/
def managed : State := { linked upPort with own := { owned.own with owner := some (.fm 9), fmNextSeq := 2 ^ 32 - 1 } }
def tpCommand (seq : Nat) : TMsg := ⟨0x10, 0, 0, 0, 9, 5, 0, [0x1001, 0xFFFFFFFF - 0x1001, seq] ++ List.replicate 13 0⟩

/-- control_paths. -/
theorem test_control_paths :
    (∀ n ∈ [0, 64], n < 65 ∧ owned.isOwner .bmc = true ∧ (owned.ring n).enable = false ∧ (owned.ring n).draining = false ∧
      bit (2 ^ 31 + 0xCC0000) 31 = true ∧ owned.ringOk ((owned.ring n).config (2 ^ 31 + 0xCC0000)) = true ∧
      owned.ringOk ((owned.ring n).config (2 ^ 31 + 0xDC0000)) = false ∧
      bit 0 31 = false ∧ ({ owned with cmd := (ringed n serviced).cmd } : State).inflight (.ring n) = 0 ∧
      ((ringed n serviced).ring n).enable = true ∧
      (finishedOn (ringed n serviced) (.ring n)).inflight (.ring n) ≠ 0) ∧
    ((ringed 64 serviced).doorbell .host1 64 = true ∧ (ringed 64 serviced).doorbell .host0 64 = false ∧
      (ringed 0 serviced).doorbell .host1 0 = false ∧ bits 4095 11 0 < 2 ^ serviced.sqLog2 ∧
      2 ^ ({} : Ring).sqLog2 ≤ bits 16 11 0 ∧ ({ owned with cmd := {} } : State).doorbell .bmc 0 = true ∧
      (ringed 64 serviced).cmd.events.get [] 64 = []) ∧
    (∀ n ∈ [0, 64], ∀ r ∈ [serviced, { serviced with cqTail := 0 }],
      listFind (fun c => c.path == .ring n) (finishedOn (ringed n r) (.ring n)).cmd.committed = some (doneOn (.ring n)) ∧
      up.pwr.pkgOp = none ∧ (ringed n r).cmd.events.get [] n = [] ∧ r.enabled = true ∧ r.cqHost = true ∧ r.ownerChange = false) ∧
    (∀ n ∈ [0, 2], n < 3 ∧
      listFind (fun c => c.path == .mailbox n) (finishedOn up (.mailbox n)).cmd.committed = some (doneOn (.mailbox n)) ∧
      (finishedOn up (.mailbox n)).pwr.pkgOp = none ∧ (finishedOn up (.mailbox n)).cmd.events.get [] 0 = []) ∧
    ((∀ p, Master.bmc ≠ .fm p) ∧ up.cmd.events.get [] 0 = []) ∧
    (∀ seq ∈ [2 ^ 32 - 1, 0, 14, 2 ^ 32 - 2, 2 ^ 32 - 17, 2 ^ 32 - 18, 15],
      let s := got managed (tpCommand seq)
      s.cmd.fetchStopped = false ∧ listFind (fun e => e.2.ttype == 0x10) s.link.msgs = some (23, tpCommand seq) ∧
        (tpCommand seq).words.length = 16 ∧ s.isOwner (.fm (tpCommand seq).src) = true ∧ s.own.fmAhead = []) ∧
    (let at_ := fun seq => (Packet.ofWords (tpCommand seq).words).seq.toNat
     let n := managed.own.fmNextSeq
     at_ (2 ^ 32 - 1) = n ∧ managed.packetStatus (.towpath 9) (Packet.ofWords (tpCommand n).words) = none ∧
       (∀ x ∈ [0, 14], 0 < seqDist n (at_ x) ∧ seqDist n (at_ x) < 16) ∧
       (∀ x ∈ [2 ^ 32 - 2, 2 ^ 32 - 17], 16 ≤ seqDist n (at_ x) ∧ seqDist (at_ x) n ≤ 16 ∧
         listFind (fun w => w.1 == at_ x) [(at_ x, [0x80])] = some (at_ x, [0x80])) ∧
       (∀ x ∈ [2 ^ 32 - 18, 15], 16 ≤ seqDist n (at_ x) ∧ 16 < seqDist (at_ x) n)) := by
  refine ⟨by decide +kernel, by decide +kernel, by decide +kernel, by decide +kernel, ⟨nofun, by decide +kernel⟩,
    by decide +kernel, by decide +kernel⟩

/-- A window of claims that tie but for the nonce, the owner code and the package; it opened 10 ms before `up`. -/
def window : List Claim := [⟨.fm 1023, 15, 7⟩, ⟨.fm 0, 15, 7⟩, ⟨.bmc, 15, 7⟩, ⟨.host1, 15, 8⟩, ⟨.host0, 0, 0⟩]
def claiming : State := { up with own := { up.own with window := some window, windowAt := 990000000 } }
/-- An offer to the fabric manager of package 9, or to host 1, whose deadline is now. -/
def offered (m : Master) : State :=
  let s := sent (linked upPort) (.ring 0) offerPk
  { s with own := { owned.own with offer := some ⟨m, 2 ^ 32 - 1, 7, s.clk⟩ }
           cmd := { s.cmd with flights := [{ fly (.ring 0) offerPk with phase := .begun }] } }
def electMsg (op w1 : Nat) : TMsg := ⟨0x12, 0, 0, 0, 9, 5, 0, [op, w1, compl32 w1, 0]⟩

/-- ownership. -/
theorem test_ownership :
    ((∀ k, Master.host0 ≠ .fm k) ∧ bits 0x10F 9 8 = 1 ∧ owned.own.owner ≠ none ∧ up.own.owner = none ∧ claiming.own.owner = none ∧
      up.own.window = none ∧ claiming.own.window ≠ none) ∧
    (claiming.own.window = some window ∧ window ≠ [] ∧ claiming.own.windowAt + 10000000 ≤ claiming.clk) ∧
    (owned.own.owner ≠ none ∧ owned.isOwner .bmc = true ∧
      ({ owned with clk := owned.own.leaseEnd } : State).own.leaseEnd ≤ owned.own.leaseEnd ∧
      pair32 owned.own.token 0 = false ∧
      (let s := { cmd0 owned identPk with cmd := { (cmd0 owned identPk).cmd with rings := [(0, serviced)] } }
       s.own.offer = none ∧ (s.ring 0).enabled = true ∧ ∃ f ∈ s.cmd.flights, f.path = .ring 0)) ∧
    (pair32 owned.own.token owned.own.tokenC = true ∧ owned.clk < owned.own.leaseEnd ∧ owned.own.token < 2 ^ 32 ∧
      owned.isOwner .bmc = true ∧ owned.isOwner .host0 = false ∧ 0 ≠ owned.own.token) ∧
    (∀ m ∈ [Master.host1, .fm 9], ∃ o, (offered m).own.offer = some o ∧ 2 ^ 32 - 1 < 2 ^ 32 ∧ (offered m).clk ≤ o.deadline ∧
      o.deadline ≤ (offered m).clk ∧ o.target = m ∧ o.nonce = 2 ^ 32 - 1 ∧ o.target ≠ .host0 ∧ o.nonce ≠ 0 ∧
      ∃ f, (offered m).flight o.cmd = some f ∧ f.phase = .begun) ∧
    (∀ e ∈ [(linked upPort, electMsg 0xF01 (2 ^ 32 - 1)), (managed, electMsg 2 owned.own.token), (managed, electMsg 3 owned.own.token),
        (offered (.fm 9), electMsg 4 (2 ^ 32 - 1))],
      listFind (fun e => e.2.ttype == 0x12) (got e.1 e.2).link.msgs = some (23, e.2) ∧ pair32 (e.2.w 1) (e.2.w 2) = true ∧ e.2.src = 9) ∧
    (bits ((electMsg 0xF01 (2 ^ 32 - 1)).w 0) 7 0 = 1 ∧ (linked upPort).own.owner = none ∧
      bits ((electMsg 2 0).w 0) 7 0 = 2 ∧ bits ((electMsg 3 0).w 0) 7 0 = 3 ∧ bits ((electMsg 4 0).w 0) 7 0 = 4 ∧
      managed.isOwner (.fm 9) = true ∧ (electMsg 2 owned.own.token).w 1 = managed.own.token ∧
      (electMsg 3 owned.own.token).w 1 = managed.own.token ∧
      pair32 managed.own.token managed.own.tokenC = true ∧ managed.clk < managed.own.leaseEnd ∧
      ∃ o, (offered (.fm 9)).own.offer = some o ∧ (offered (.fm 9)).clk ≤ o.deadline ∧ o.target = .fm 9 ∧
        o.nonce = (electMsg 4 (2 ^ 32 - 1)).w 1) := by
  have b : ∀ m ∈ [Master.host1, .fm 9], (offered m).own.offer = some ⟨m, 2 ^ 32 - 1, 7, 1000000000⟩ ∧ m ≠ .host0 := by
    decide +kernel
  refine ⟨⟨nofun, by decide +kernel⟩, by decide +kernel, by decide +kernel, by decide +kernel, ?_, by decide +kernel,
    ⟨by decide +kernel, by decide +kernel, by decide +kernel, by decide +kernel, by decide +kernel, by decide +kernel,
      by decide +kernel, by decide +kernel, by decide +kernel, by decide +kernel, ⟨.fm 9, 2 ^ 32 - 1, 7, 1000000000⟩,
      by decide +kernel⟩⟩
  intro m h
  refine ⟨_, (b m h).1, by decide, Nat.le_refl _, Nat.le_refl _, rfl, rfl, (b m h).2, (by decide : 2 ^ 32 - 1 ≠ 0), _, rfl, rfl⟩

/-- The lock-keeper's package with domain 53 OFF, that of unit 4. -/
def oneOff : State := { owned with pwr := { owned.pwr with domains := [(53, { state := .off })] } }
def i3cRead : List Byte := [0x2C#8, 1#8, 0x38#8, 0#8, 0#8, 0#8]
def i3cWrite : List Byte := [0x2C#8, 2#8, 0x08#8, 0#8, 0#8, 0#8, 9#8, 0#8, 0#8, 0x80#8]

/-- control_space: the island blocks from their first register to their last, by another master; the clauses' own operands. -/
theorem test_control_space :
    owned.isOwner .host0 = false ∧ owned.isOwner .bmc = true ∧ bit (2 ^ 31) 31 = true ∧
    (∀ off ∈ [0, 0xFFFC, 0x40000, 0x5FFFC, 0x80000, 0xFFFFC],
      (off < 0x10000 ∨ (0x40000 ≤ off ∧ off < 0x60000) ∨ (0x80000 ≤ off ∧ off < 0x100000)) ∧ off % 4 = 0) ∧
    (owned.pkg.idValid = true ∧ bits (2 ^ 31 + 6) 13 0 ≠ owned.pkg.packageId ∧ bit (2 ^ 31 + 6) 31 = true ∧
      bit 6 31 = false ∧ bits (2 ^ 31 + 5) 13 0 = owned.pkg.packageId) ∧
    (owned.time.enable = false ∧ owned.time.setLo < 2 ^ 32 ∧
      ({ owned with time := { owned.time with enable := true } } : State).time.enable = true ∧
      bit (2 ^ 31 + 23) 31 = true ∧ bit (2 ^ 31 + 23) 9 = false) ∧
    (2 ^ 26 - 8 < 2 ^ 26 ∧ (2 ^ 26 - 8) % 8 = 0 ∧ 3 < 4) ∧
    (∃ d off, oneOff.regDomain off = some d ∧ (oneOff.domain d).state = .off ∧ off % 4 = 0 ∧ off < 2 ^ 26) ∧
    (0x38 < 0x3C ∧ 0x38 % 4 = 0 ∧ 1 ≤ 2 ∧ 1 + 2 ≤ 4) ∧
    (i3cRead.length = 6 ∧ (i3cRead.getD 1 0).toNat = 1 ∧ ofBytes (i3cRead.drop 2) = 0x38 ∧ (0xFF#8).toNat ≠ pec8 i3cRead) ∧
    (i3cWrite.length = 10 ∧ (i3cWrite.getD 1 0).toNat = 2 ∧ ofBytes ((i3cWrite.drop 2).take 4) = 0x08 ∧
      (0xFF#8).toNat ≠ pec8 i3cWrite) := by
  refine ⟨by decide +kernel, by decide +kernel, by decide +kernel, by decide +kernel, by decide +kernel, by decide +kernel,
    by decide +kernel, ⟨53, 0x204000, by decide +kernel⟩, by decide +kernel, by decide +kernel, by decide +kernel⟩

/-! ### The fabric -/

def fabPk (fab mem w : Nat) : Packet := pack 0x030 [fab, mem, w]
/-- The head of a network packet of a kind from partition `part` to reach `dst` at a device address, poisoned or not. -/
def netHead (kind part dst addr p : Nat) : List Nat := [kind * 2 ^ 28 + p * 2 ^ 27 + dst, part, addr % 2 ^ 32, addr / 2 ^ 32]
/-- Two requests in one class, a late one, one without a credit, the holder of a grant since 1 s before `up`, and the last bank, port, module, unit and link. -/
def reqs : List GrantReq := [⟨5, 0, 1, 0, 5, true, false⟩, ⟨2, 0, 1, 0, 5, true, false⟩, ⟨9, 0, 0, 3, 5, true, true⟩, ⟨7, 0, 1, 0, 5, false, false⟩]
def points : List (Nat × Nat × Nat) := [(1, 95, 127), (2, 97, 31), (3, 10, 15), (4, 27, 0), (5, 23, 0)]
def granted (since : Nat) (p : Nat × Nat × Nat) : State :=
  { up with
    fab := { up.fab with arbiters := [(arbKey p.1 p.2.1 p.2.2, { holder := some ⟨5, 0, 1, 0, 5, true, false⟩, since := since, limit := 16000 })] }
    cpu := { cores := [(1535, { state := .running, holder := .run 7, ax := [entry 1 .queued] })] } }
/-- The last die-to-die pair with some of its modules, and the first with all. -/
def joined (active : Nat) : State := { up with fab := { up.fab with pairs := [(0, { active := 255, negLevel := 1, features := 15 }), (10, { active := active, negLevel := 1, features := 15 })] } }
def capRecord (level : Nat) : List Nat := [level, compl32 level, 15]

/-- fabric. -/
theorem test_fabric :
    (∀ e ∈ [(1000, 4000000, 7), (0, 0, 0), (1000000, 4000, 4), (999, 0, 0), (0, 4000001, 0)],
      (cmd0 up (fabPk e.1 e.2.1 e.2.2)).Begins (.ring 0) (fabPk e.1 e.2.1 e.2.2) (fly (.ring 0) (fabPk e.1 e.2.1 e.2.2)) [] []) ∧
    (1 ≤ 64 ∧ (paged.part 1).pairBad = false ∧ (paged.part 64).pairBad = false ∧
      ∀ kind ∈ [0, 1], ∀ p ∈ [0, 1], ∀ part ∈ [1, 64],
        let h := netHead kind part 0x10 (lastFrame * 2 ^ 21 + 2 ^ 21 - 68) p
        let addr := (h.getD 2 0 + 2 ^ 32 * h.getD 3 0) % 2 ^ 46
        let ps := paged.devPieces addr 68
        bits (h.getD 0 0) 31 28 = kind ∧ bits (h.getD 1 0) 7 0 = part ∧ ps.length = 2 ∧
          (ps.all (fun q => (placeDomain q.1).all paged.awake)) = true ∧
          (part = 1 → ∀ q ∈ ps, part ∈ paged.placeOwners q.1 ∧ ∃ a, q.1 = .tier a ∧ paged.tierInTest (tierOf a) = false ∧
            paged.mem.marked a = false) ∧
          (part = 64 → ∃ q ∈ ps, part ∉ paged.placeOwners q.1)) ∧
    (nodeReach (5 * 512 + 15) = some 95 ∧ up.awake (coreDomain (16 * 95)) = true ∧
      bits ((netHead 4 1 (5 * 512 + 15) 0xFF 1).getD 0 0) 31 28 = 4 ∧
      bits ((netHead 5 1 (5 * 512 + 15) 0xFF 1).getD 0 0) 31 28 = 5 ∧
      up.coreOwner (16 * 95 + bits 0xFF 7 4) = 1 ∧ up.sliceOwner (2 * 95 + 31 / 16) = 1) ∧
    (∀ p ∈ points, arbExists p.1 p.2.1 p.2.2 = true ∧ ({} : Arbiter).waiting (([] : List GrantReq).filter (fun r => !r.late)) = [] ∧
      (let early := (up.fab.arbiters.get {} (arbKey p.1 p.2.1 p.2.2)).waiting (reqs.filter (fun r => !r.late))
       early.length = 2 ∧ (∀ r ∈ early, up.grantClass r ≤ 3)) ∧
      ((granted 999984000 p).fab.arbiters.get {} (arbKey p.1 p.2.1 p.2.2)).holder = some ⟨5, 0, 1, 0, 5, true, false⟩ ∧
      holderExists (.core 1535 .ax) = true ∧
      up.sysTime - 999984000 ≤ 16000 ∧ 16000 < up.sysTime - 999983999 ∧
      ((granted 0 p).core 1535).queue .ax = entry 1 .queued :: [] ∧ ((granted 0 p).core 1535).faulting = none ∧
      ((granted 0 p).core 1535).holder = .run 7) ∧
    (10 < 11 ∧ 7 < 8 ∧ bit (up.pair 10).disabled 7 = false ∧ bit (up.pair 10).active 7 = false ∧
      (∀ l ∈ [0, 1, 15], pair32 ((capRecord l).getD 0 0) ((capRecord l).getD 1 0) = true) ∧
      pair32 (([0, 0] : List Nat).getD 0 0) (([0, 0] : List Nat).getD 1 0) = false ∧
      ∀ a ∈ [0x80, 0xFF], bit ((joined a).pair 10).active 7 = true ∧ ((setBit ((joined a).pair 10).active 7 false = 0) ↔ a = 0x80) ∧
        ∀ h ∈ hops (primaryRoute 0 1), (joined a).linked h.1 h.2 = true) := by
  have a : ∀ e ∈ [(1000, 4000000, 7), (0, 0, 0), (1000000, 4000, 4), (999, 0, 0), (0, 4000001, 0)],
      beginsB (cmd0 up (fabPk e.1 e.2.1 e.2.2)) (.ring 0) (fabPk e.1 e.2.1 e.2.2) [] [] = true := by decide +kernel
  refine ⟨fun e m => begins' (a e m), ?_, by decide +kernel, by decide +kernel, by decide +kernel⟩
  have ps : paged.devPieces (lastFrame * 2 ^ 21 + 2 ^ 21 - 68) 68 =
      [(.tier (lastFrame * 2 ^ 21 + 2 ^ 21 - 68), lastFrame * 2 ^ 21 + 2 ^ 21 - 68, 4),
       (.tier (lastFrame * 2 ^ 21 + 2 ^ 21 - 64), lastFrame * 2 ^ 21 + 2 ^ 21 - 64, 64)] := by decide +kernel
  have addr : ∀ kind ∈ [0, 1], ∀ p ∈ [0, 1], ∀ part ∈ [1, 64],
      (let h := netHead kind part 0x10 (lastFrame * 2 ^ 21 + 2 ^ 21 - 68) p
       (h.getD 2 0 + 2 ^ 32 * h.getD 3 0) % 2 ^ 46 = lastFrame * 2 ^ 21 + 2 ^ 21 - 68 ∧ bits (h.getD 0 0) 31 28 = kind ∧
         bits (h.getD 1 0) 7 0 = part) := by decide +kernel
  have facts : ∀ a ∈ [lastFrame * 2 ^ 21 + 2 ^ 21 - 68, lastFrame * 2 ^ 21 + 2 ^ 21 - 64],
      ((placeDomain (.tier a)).all paged.awake) = true ∧ paged.placeOwners (.tier a) = [1] ∧
        paged.tierInTest (tierOf a) = false ∧ paged.mem.marked a = false := by decide +kernel
  refine ⟨by decide, by decide +kernel, by decide +kernel, fun kind hk p hp part hm => ?_⟩
  obtain ⟨e, k, q⟩ := addr kind hk p hp part hm
  have f1 := facts _ (List.mem_cons_self ..)
  have f2 := facts _ (List.mem_cons_of_mem _ (List.mem_cons_self ..))
  simp only [e, ps]
  refine ⟨k, q, rfl, ?_, ?_, ?_⟩
  · simp only [List.all_cons, List.all_nil, f1.1, f2.1, Bool.and_self]
  · rintro rfl r m
    simp only [List.mem_cons, List.not_mem_nil, or_false] at m
    rcases m with rfl | rfl
    · exact ⟨by rw [f1.2.1]; decide, _, rfl, f1.2.2⟩
    · exact ⟨by rw [f2.2.1]; decide, _, rfl, f2.2.2⟩
  · rintro rfl
    exact ⟨_, List.mem_cons_self .., by rw [f1.2.1]; decide⟩

/-! ### The logbook -/

def rec_ (sev : Nat) : LogRec := ⟨1, false, false, false, sev, 0x0203, 15, 2 ^ 28 - 1, 0, 0, 0, 0, 0⟩
/-- The logbook in the running millisecond of `up`, with HEAD about to wrap: holding one record, or full, flushed or not. -/
def logged (held flushed : Nat) : State :=
  { up with log := { ({} : Log) with
    msIndex := 1000, head := 2 ^ 32 - 1, oldest := 2 ^ 32 - 1 - held, flushed := 2 ^ 32 - 1 - flushed, genNext := 2 ^ 32 - 1,
    ring := [(2 ^ 32 - 1 - held, some (rec_ 3)), (2 ^ 32 - 2, some (rec_ 2))] } }
def counted (n : Nat) : State := { logged 1 1 with log := { (logged 1 1).log with perMs := [(0x0203, 15 * 2 ^ 28 + 2 ^ 28 - 1, n, 0)] } }
def waits (w : List (Nat × Nat)) : State := { logged 2 2 with log := { (logged 2 2).log with waiting := w } }
def flushing : FlushRun := ⟨3, 2 ^ 32 - 3, 2 ^ 32 - 1, 15, 0, [rec_ 3, rec_ 2], 0, 0, none⟩
def inFlush : State := { logged 2 2 with log := { (logged 2 2).log with flush := some flushing }, own := owned.own }
def fencedUp : State := { up with pwr := { up.pwr with fenced := true } }

/-- logbook. -/
theorem test_logbook :
    (∀ s ∈ [logged 1 1, logged 8192 8192, logged 8192 1, counted 63, counted 64], s.clk / 1000000 = s.log.msIndex) ∧
    (((counted 63).log.msCount 0x0203 (15 * 2 ^ 28 + (2 ^ 28 - 1))).1 < 64 ∧
      64 ≤ ((counted 64).log.msCount 0x0203 (15 * 2 ^ 28 + (2 ^ 28 - 1))).1 ∧
      (∀ q ∈ [0, 64], ((counted 63).cmd.events.get [] q).length < 64 ∧ (wrap32 64 ≠ q ↔ q = 0))) ∧
    (seqDist (logged 1 1).log.oldest (logged 1 1).log.head ≠ 8192 ∧
      seqDist (logged 8192 1).log.oldest (logged 8192 1).log.head = 8192 ∧
      seqDist (logged 8192 8192).log.flushed (logged 8192 8192).log.head = 8192 ∧
      seqDist (logged 8192 1).log.flushed (logged 8192 1).log.head ≠ 8192) ∧
    (∀ c ∈ [0x0203, 0x0D06], let s := { logged 1 1 with clk := 1001000000, log := { (logged 1 1).log with perMs := [(c, 0, 64, 1)] } }
      s.clk / 1000000 ≠ s.log.msIndex ∧ s.log.perMs = [(c, 0, 64, 1)] ∧ 0 < 1) ∧
    (∀ w ∈ [[(3, 0)], [(1, 0)], [(1, 0), (4, 0), (3, 0)]], (waits w).log.flush = none ∧ (waits w).log.flushDue (waits w).clk = true) ∧
    ((∃ e ∈ (waits [(1, 0), (4, 0), (3, 0)]).log.waiting, e.1 = 3) ∧ inFlush.log.flush = some flushing ∧ flushing.fell = none ∧
      seqDist inFlush.log.flushed flushing.upto < 2 ^ 31) ∧
    (inFlush.isOwner .bmc = true ∧ inFlush.clk / 1000000 = inFlush.log.msIndex ∧ (inFlush.log.msCount 0x0D07 0).1 < 64 ∧
      inFlush.isOwner (.fm 1023) = false ∧ bit 2 1 = true ∧ bit 4 2 = true ∧ bit 1 0 = true) ∧
    (7 < 8 ∧ up.pwr.fenced = false ∧ fencedUp.pwr.fenced = true) ∧
    (let pk := pack 0x702 [0, 0]
     (cmd0 fencedUp pk).named (.ring 0) pk = some (fly (.ring 0) pk) ∧ pk.opcode = 0x702) ∧
    (let s := cmd0 fencedUp identPk
     let f := fly (.ring 0) identPk
     s.named (.ring 0) identPk = some f ∧ identPk.opcode = 1 ∧ s.ringGate f = none ∧ f.aborts = [] ∧ s.flight f.id = some f) := by
  refine ⟨by decide +kernel, by decide +kernel, by decide +kernel, by decide +kernel, by decide +kernel, by decide +kernel,
    by decide +kernel, by decide +kernel, by decide +kernel, by decide +kernel⟩

/-! ### Power -/

/-- Domain `d` as given; the partition holds slices 0 and 1 only. -/
def domAt (d : Nat) (x : Domain) : State :=
  { tenant runs1 with pwr := { up.pwr with domains := up.pwr.domains.put {} d x } }
def isOn : Domain := { state := .on }
/-- SET_DOMAIN with an operation, a domain, a target and two further words. -/
def domPk (op d t v w : Nat) : Packet := pack 0x020 [op + 256 * d + 2 ^ 16 * t, v, w]
/-- The command that a domain waits for, begun. -/
def pending (s : State) (pk : Packet) : State :=
  { s with cmd := { s.cmd with flights := [{ fly (.ring 0) pk with phase := .begun }], nextId := 8 } }

/-- power_domains, SET_DOMAIN TARGET: one domain of each clause. -/
theorem test_power_target :
    (∀ e ∈ [(up, 56, 0), (up, 4, 1), (up, 0, 3), (domAt 30 { state := .on, cmd := some 3 }, 30, 0), (domAt 28 isOn, 28, 0),
        (domAt 28 isOn, 28, 1), (domAt 28 isOn, 28, 2), (domAt 28 isOn, 28, 3), (domAt 55 { state := .retain }, 55, 1),
        (domAt 28 { state := .retain }, 28, 0), (domAt 28 { state := .retain }, 28, 2), (domAt 28 { state := .retain }, 28, 3),
        (domAt 28 { state := .off }, 28, 0), (domAt 28 { state := .off }, 28, 2), (domAt 28 { state := .off }, 28, 3)],
      let pk := domPk 1 e.2.1 e.2.2 0 0
      (cmd0 e.1 pk).Begins (.ring 0) pk (fly (.ring 0) pk) [] [] ∧ pk.opcode = 0x020 ∧ pk.f 0x10 3 0 = 1 ∧
        pk.f 0x10 13 8 = e.2.1 ∧ pk.f 0x10 17 16 = e.2.2) ∧
    (56 ≤ 56 ∧ 55 < 56 ∧ kindAllows (domainKind 4) .auto = false ∧ up.liveDep 0 = true ∧
      (domAt 30 { state := .on, cmd := some 3 }).domBusy 30 = true ∧ ∀ t, kindAllows (domainKind 28) t = true) ∧
    (∀ x ∈ [isOn, { state := .retain }, { state := .off }], (domAt 28 x).liveDep 28 = false ∧ (domAt 28 x).domBusy 28 = false ∧
      (domAt 28 x).domain 28 = x ∧ x.going = none) := by
  have a : ∀ e ∈ [(up, 56, 0), (up, 4, 1), (up, 0, 3), (domAt 30 { state := .on, cmd := some 3 }, 30, 0), (domAt 28 isOn, 28, 0),
        (domAt 28 isOn, 28, 1), (domAt 28 isOn, 28, 2), (domAt 28 isOn, 28, 3), (domAt 55 { state := .retain }, 55, 1),
        (domAt 28 { state := .retain }, 28, 0), (domAt 28 { state := .retain }, 28, 2), (domAt 28 { state := .retain }, 28, 3),
        (domAt 28 { state := .off }, 28, 0), (domAt 28 { state := .off }, 28, 2), (domAt 28 { state := .off }, 28, 3)],
      let pk := domPk 1 e.2.1 e.2.2 0 0
      beginsB (cmd0 e.1 pk) (.ring 0) pk [] [] = true ∧ pk.opcode = 0x020 ∧ pk.f 0x10 3 0 = 1 ∧
        pk.f 0x10 13 8 = e.2.1 ∧ pk.f 0x10 17 16 = e.2.2 := by decide +kernel
  refine ⟨fun e m => ⟨begins' (a e m).1, (a e m).2⟩, ⟨by decide, by decide, by decide, by decide +kernel, by decide +kernel, ?_⟩,
    by decide +kernel⟩
  rintro (_ | _ | _ | _) <;> decide

/-- A packet held since 100 µs before `up`, of the command in flight. -/
def held1 : HeldPacket := ⟨95, false, 999900000, some 7⟩
def setPk1 : Packet := domPk 1 55 0 0 0

/-- power_domains, events: the boundary of each time, and a last domain of each kind. -/
theorem test_power_domains :
    (∀ d ∈ [37, 38, 55], d < 56 ∧ (domainKind d = 4 ∨ domainKind d = 5 ∨ domainKind d = 8) ∧
      (∀ a ∈ [999800000, 999800001], let s := domAt d { state := .on, since := a }
        s.domTarget d = .auto ∧ (s.domain d).state = .on ∧ (s.domain d).closed = false ∧
          ((s.domain d).since + 1000 * s.pwr.idleUs ≤ s.clk ↔ a = 999800000))) ∧
    (∀ g ∈ [DomState.retain, .off], ∀ n ∈ [8, 9],
      let s := pending (domAt 55 { state := .changing, going := some g, since := 999998000, attempts := n, cmd := some 7, before := .auto }) setPk1
      ((s.domain 55).going = some .retain ∨ (s.domain 55).going = some .off) ∧ (s.domain 55).since + 2000 ≤ s.clk ∧
        ((s.domain 55).attempts + 1 < 10 ↔ n = 8) ∧ (s.domain 55).cmd = some 7 ∧
        ∃ f, s.flight 7 = some f ∧ f.aborts = [] ∧ f.phase = .begun) ∧
    (let s := domAt 28 { state := .on, target := some .off, since := 999900000 }
     s.domTarget 28 = .off ∧ s.awake 28 = true ∧ (s.domain 28).since + 100000 ≤ s.clk ∧ (s.domain 28).cmd = none) ∧
    (up.awake 55 = true ∧
      (let s := domAt 55 { state := .retain, closed := true }
       s.awake 55 = false ∧ s.packetWakes 55 false = true ∧ (s.domain 55).state = .retain ∧ (s.domain 55).going = none) ∧
      (∀ n ∈ [63, 64], let s := domAt 30 { state := .off, closed := true, held := List.replicate n held1 }
       s.awake 30 = false ∧ s.packetWakes 30 false = false ∧ ((s.domain 30).held.length < 64 ↔ n = 63)) ∧
      (let s := domAt 55 { state := .changing, closed := true, going := some .on }
       s.awake 55 = false ∧ (s.domain 55).going = some .on)) ∧
    (let s := domAt 28 { state := .changing, closed := true, going := some .on, fromOff := true }
     (s.domain 28).going = some .on ∧ (s.domain 28).cmd = none ∧ (s.domain 28).fromOff = true ∧ domainKind 28 = 1 ∧
       coreDomain 1535 = 28) ∧
    (let s := pending (domAt 55 { state := .changing, going := some .on, target := some .on, cmd := some 7 }) setPk1
     (s.domain 55).going = some .on ∧ s.domTarget 55 = .on ∧ (s.domain 55).fromOff = false ∧ (s.domain 55).cmd = some 7 ∧
       s.pwr.pkgOp = none ∧ ∃ f, s.flight 7 = some f ∧ f.aborts = [] ∧ f.phase = .begun ∧ f.pk.f 0x10 3 0 = 1) ∧
    (let s := pending (domAt 28 { state := .off, closed := true, target := some .off, held := [held1] }) setPk1
     s.domTarget 28 = .off ∧ (s.domain 28).going = none ∧ s.awake 28 = false ∧ (s.domain 28).held = [held1] ∧
       (s.domain 28).refused = [] ∧ held1.wakeClass = false ∧ held1.at_ + 100000 ≤ s.clk ∧ held1.cmd = some 7 ∧
       ∃ f, s.flight 7 = some f ∧ f.aborts = [] ∧ f.phase = .begun) := by
  refine ⟨by decide +kernel, ?_, by decide +kernel, by decide +kernel, by decide +kernel, ?_, ?_⟩
  · have a : ∀ g ∈ [DomState.retain, .off], ∀ n ∈ [8, 9],
      let s := pending (domAt 55 { state := .changing, going := some g, since := 999998000, attempts := n, cmd := some 7, before := .auto }) setPk1
      ((s.domain 55).going = some .retain ∨ (s.domain 55).going = some .off) ∧ (s.domain 55).since + 2000 ≤ s.clk ∧
        ((s.domain 55).attempts + 1 < 10 ↔ n = 8) ∧ (s.domain 55).cmd = some 7 := by decide +kernel
    intro g hg n hn
    have h := a g hg n hn
    exact ⟨h.1, h.2.1, h.2.2.1, h.2.2.2, _, rfl, rfl, rfl⟩
  · exact ⟨by decide +kernel, by decide +kernel, by decide +kernel, by decide +kernel, rfl, _, rfl, rfl, rfl, by decide +kernel⟩
  · exact ⟨by decide +kernel, by decide +kernel, by decide +kernel, by decide +kernel, by decide +kernel, by decide +kernel,
      by decide +kernel, by decide +kernel, _, rfl, rfl, rfl⟩

/-- Without tenants; SLEEP with its remembered targets. -/
def empty_ : State := { up with ten := { parts := [(0, { state := .idle })] } }
def busyDom : State := { empty_ with pwr := { up.pwr with domains := up.pwr.domains.put {} 55 { state := .on, cmd := some 3 } } }
def busyPkg (s : State) : State := { s with pwr := { s.pwr with pkgOp := some (3, 9) } }
def asleep (t : DomTarget) : State :=
  { empty_ with pwr := { empty_.pwr with
    state := .sleep, remembered := List.replicate 56 t, domains := (List.range 56).map (fun d => (d, { state := .retain })) } }

/-- power_package. -/
theorem test_power_package :
    (∀ e ∈ [(up, domPk 2 56 0 0 0), (up, domPk 2 0 0 41 0), (up, domPk 2 0 0 3 0), (up, domPk 2 30 0 5 0), (up, domPk 2 0 0 40 0),
        (domAt 4 { state := .on, cmd := some 3 }, domPk 2 4 0 40 0), (up, domPk 3 0 0 1999 0), (up, domPk 3 0 0 2000 3), (up, domPk 3 0 0 2000 (2 + 800 * 256)),
        (up, domPk 3 0 0 5000 1), (busyPkg up, domPk 3 0 0 5000 1), (up, domPk 3 0 0 5000 (2 + 801 * 256)), (up, domPk 4 0 0 9 0),
        (up, domPk 4 0 0 10 0), (busyPkg up, domPk 4 0 0 10 0), (up, domPk 4 0 0 100000 0), (up, domPk 4 0 0 100001 0), (up, domPk 7 0 0 0 0),
        (empty_, domPk 7 0 0 0 0), (busyDom, domPk 7 0 0 0 0), (up, domPk 8 0 0 0 0), (up, domPk 9 0 0 0 0), (empty_, domPk 9 0 0 0 0),
        (busyDom, domPk 9 0 0 0 0)],
      (cmd0 e.1 e.2).Begins (.ring 0) e.2 (fly (.ring 0) e.2) [] [] ∧ e.2.opcode = 0x020) ∧
    (56 ≤ (domPk 2 56 0 0 0).f 0x10 13 8 ∧ 40 < (domPk 2 0 0 41 0).w 0x14 ∧ (domPk 2 0 0 3 0).w 0x14 % 5 ≠ 0 ∧
      domainKind 30 ≠ 1 ∧ domainKind 30 ≠ 2 ∧ domainKind 0 = 1 ∧ domainKind 4 = 2 ∧ up.domBusy 0 = false ∧
      (domAt 4 { state := .on, cmd := some 3 }).domBusy 4 = true) ∧
    (∀ e ∈ [(2000, 2, 800), (5000, 1, 0)], let pk := domPk 3 0 0 e.1 (e.2.1 + 256 * e.2.2)
      pk.w 0x14 = e.1 ∧ pk.f 0x18 1 0 = e.2.1 ∧ pk.f 0x18 19 8 = e.2.2 ∧ 2000 ≤ e.1 ∧ e.1 ≤ 5000 ∧ e.2.1 ≠ 3 ∧
        (e.2.1 = 2 → 600 ≤ e.2.2 ∧ e.2.2 ≤ 800) ∧ (busyPkg up).pwr.pkgOp ≠ none ∧ up.pwr.pkgOp = none) ∧
    (up.anyLive = true ∧ ¬(empty_.anyLive = true ∨ (∃ e ∈ empty_.pipe.slots, e.2.bound = true) ∨
        (∃ e ∈ empty_.serv.models, e.2.bound = true) ∨ (∃ e ∈ empty_.coll.groups, e.2.bound = true)) ∧ empty_.pkgBusy = false ∧
      busyDom.pkgBusy = true ∧ busyDom.anyLive = false ∧ up.pwr.state = .run ∧ up.pwr.actAt = none) ∧
    ((∃ e ∈ up.ten.parts, e.1 ≠ 0 ∧ e.2.state ≠ .free) ∧ (∀ e ∈ empty_.ten.parts, e.1 = 0 ∨ e.2.state = .free)) ∧
    (let s := { empty_ with pwr := { empty_.pwr with actAt := some (1000000000, 9) } }
     s.pwr.actAt = some (1000000000, 9) ∧ 1000000000 ≤ s.clk) ∧
    (∀ t ∈ [DomTarget.on, .retain], let pk := domPk 8 0 0 0 0
      let s := cmd0 (asleep t) pk
      s.pwr.state = .sleep ∧ ({ s with pwr := { s.pwr with state := .run } } : State).Begins (.ring 0) pk (fly (.ring 0) pk) [] [] ∧
        pk.opcode = 0x020 ∧ pk.f 0x10 3 0 = 8 ∧ s.pkgBusy = false ∧ s.pwr.remembered.length = 56) := by
  have a : ∀ e ∈ [(up, domPk 2 56 0 0 0), (up, domPk 2 0 0 41 0), (up, domPk 2 0 0 3 0), (up, domPk 2 30 0 5 0), (up, domPk 2 0 0 40 0),
        (domAt 4 { state := .on, cmd := some 3 }, domPk 2 4 0 40 0), (up, domPk 3 0 0 1999 0), (up, domPk 3 0 0 2000 3), (up, domPk 3 0 0 2000 (2 + 800 * 256)),
        (up, domPk 3 0 0 5000 1), (busyPkg up, domPk 3 0 0 5000 1), (up, domPk 3 0 0 5000 (2 + 801 * 256)), (up, domPk 4 0 0 9 0),
        (up, domPk 4 0 0 10 0), (busyPkg up, domPk 4 0 0 10 0), (up, domPk 4 0 0 100000 0), (up, domPk 4 0 0 100001 0), (up, domPk 7 0 0 0 0),
        (empty_, domPk 7 0 0 0 0), (busyDom, domPk 7 0 0 0 0), (up, domPk 8 0 0 0 0), (up, domPk 9 0 0 0 0), (empty_, domPk 9 0 0 0 0),
        (busyDom, domPk 9 0 0 0 0)],
      beginsB (cmd0 e.1 e.2) (.ring 0) e.2 [] [] = true ∧ e.2.opcode = 0x020 := by decide +kernel
  have b : ∀ t ∈ [DomTarget.on, .retain], let pk := domPk 8 0 0 0 0
      let s := cmd0 (asleep t) pk
      s.pwr.state = .sleep ∧ beginsB { s with pwr := { s.pwr with state := .run } } (.ring 0) pk [] [] = true ∧
        pk.opcode = 0x020 ∧ pk.f 0x10 3 0 = 8 ∧ s.pkgBusy = false ∧ s.pwr.remembered.length = 56 := by decide +kernel
  exact ⟨fun e m => ⟨begins' (a e m).1, (a e m).2⟩, by decide +kernel, by decide +kernel, by decide +kernel,
    by decide +kernel, by decide +kernel, fun t m => ⟨(b t m).1, begins' (b t m).2.1, (b t m).2.2⟩⟩

/-- Die 5 at a voltage, TRIM of its first domain pending. -/
def trimmed (mv : Nat) : State :=
  let s := pending (domAt 25 { state := .on, trim := 40, cmd := some 7 }) (domPk 2 25 0 40 0)
  { s with pwr := { s.pwr with dies := [(5, { railMv := mv })] } }
def cooled (limit stepAt : Nat) : State := { up with pwr := { up.pwr with dies := [(7, { thermLimit := limit, stepAt := stepAt })] } }

/-- What every entry of a table but one holds, and its default, is held at every key but that one. -/
theorem get_all {α : Type} {p : α → Prop} {d : α} (hd : p d) {k0 : Nat} :
    ∀ (t : Tab α), (∀ e ∈ t, e.1 ≠ k0 → p e.2) → ∀ k, k ≠ k0 → p (Tab.get d t k)
  | [], _, _, _ => hd
  | (j, v) :: t, h, k, hk => by
    unfold Tab.get
    split
    · rename_i e; exact h (j, v) (List.mem_cons_self ..) (by simpa [e] using hk)
    · exact get_all hd t (fun e m => h e (List.mem_cons_of_mem _ m)) k hk

/-- power_limits. -/
theorem test_power_limits :
    (∀ mv ∈ [745, 765], let s := trimmed mv
      let goal := s.railGoal 5
      5 < 8 ∧ (s.die 5).railMv ≠ 0 ∧ 5 = 25 / 5 ∧ 25 < 30 ∧ (s.domain 25).cmd = some 7 ∧ (∀ q, q ≠ 25 → (s.domain q).cmd = none) ∧
        goal ≤ (s.die 5).railMv + 10 ∧ (s.die 5).railMv ≤ goal + 10) ∧
    (∃ f, (trimmed 755).flight 7 = some f ∧ f.aborts = [] ∧ f.phase = .begun ∧ f.pk.f 0x10 3 0 = 2) ∧
    (let x := (trimmed 755).die 5
     600 ≤ x.thermLimit ∧ 600 ≤ (trimmed 755).modeTarget 5 ∧ 600 ≤ x.capLimit) ∧
    (∀ t ∈ [101, 109], t < 110 ∧ 100 < t ∧ ((cooled 600 999900000).die 7).stepAt + 100000 ≤ (cooled 600 999900000).clk) ∧
    ((95 : Nat) ≤ 95 ∧ ((cooled 800 999000000).die 7).stepAt + 1000000 ≤ (cooled 800 999000000).clk ∧ (95 : Nat) < 96 ∧ (100 : Nat) ≤ 100) ∧
    (110 ≤ 110 ∧ 255 < 256 ∧ up.pwr.thermTrip = false ∧ up.pwr.fenced = false) ∧
    (up.pwr.capW < 4201 ∧ 4073 * 100 < 97 * up.pwr.capW ∧ 4200 ≤ up.pwr.capW ∧ 97 * up.pwr.capW ≤ 4074 * 100 ∧
      105 * up.pwr.capW < 100 * 4411 ∧ 100 * 4410 ≤ 105 * up.pwr.capW) ∧
    (up.pwr.warn = false ∧ up.log.flush = none ∧ ({ up with pwr := { up.pwr with warn := true } } : State).pwr.warn = true) ∧
    (5 < 6 ∧ 6 ≤ 6 ∧ 19 < 20 ∧ up.board.faults.contains 5 = false ∧ up.board.faults.contains 19 = false ∧ bit up.pkg.cdOk 5 = true) ∧
    (up.board.refclk = true ∧ ({ up with board := { up.board with refclk := false } } : State).board.refclk = false) ∧
    ((20 : Nat) ∉ [19, 6] ∧ 19 ∈ [19, 6]) := by
  have a : ∀ mv ∈ [745, 765], let s := trimmed mv
      let goal := s.railGoal 5
      (s.die 5).railMv ≠ 0 ∧ (s.domain 25).cmd = some 7 ∧ (∀ e ∈ s.pwr.domains, e.1 ≠ 25 → e.2.cmd = none) ∧
        goal ≤ (s.die 5).railMv + 10 ∧ (s.die 5).railMv ≤ goal + 10 := by decide +kernel
  refine ⟨fun mv m => ⟨by decide, (a mv m).1, by decide, by decide, (a mv m).2.1,
      get_all (p := fun x : Domain => x.cmd = none) rfl _ (a mv m).2.2.1, (a mv m).2.2.2⟩, ⟨_, rfl, rfl, rfl, by decide +kernel⟩, by decide +kernel, by decide +kernel, by decide +kernel, by decide +kernel,
    by decide +kernel, by decide +kernel, by decide +kernel, by decide +kernel, by decide +kernel⟩

/-! ### Resets -/

def sound : Boot := ⟨3, [], List.replicate 11 255, [], 4096, [], [], 1000⟩
def noImage : State := { up with nor := { up.nor with slotA := { magic := false }, slotB := { magic := false } } }
def powerOff (s : State) : State := { s with pwr := { s.pwr with state := .off } }
/-- Every die-to-die pair UP. -/
def allPairs (s : State) : State := { s with fab := { s.fab with pairs := (List.range 11).map (fun i => (i, { active := 255, features := 15 })) } }
def norAt (a : Nat) (boot busy : Bool) (op : Nat) : State :=
  { owned with nor := { owned.nor with addr := a, busy := busy, op := op }, pkg := { owned.pkg with bootSlot := boot } }
/-- A ring of a host port in service, owned by that port's host. -/
def hosted (port n : Nat) (m : Master) : State :=
  { ringed n { serviced with hostPort := port } with own := { owned.own with owner := some m } }

theorem good {n : Nor} (h : (n.slot false).failed n.fusedMin = 0) : ∃ b, n.good b := ⟨false, h⟩

/-- resets. -/
theorem test_resets :
    (SoundBoot sound ∧ (∃ b, up.nor.good b) ∧ ∀ b, ¬noImage.nor.good b) ∧
    up.link.ports.wf {} = true ∧
    (up.board.resetN = true ∧ (let s := { inFlush with board := { inFlush.board with resetN := false } }
      s.board.resetN = false ∧ s.log.flush.isSome)) ∧
    (∃ s, exec .warmReset up = .next s ∧ s.log.flush = none ∧ s.pkg.cdOk = 63 ∧ ∃ b, s.nor.good b) ∧
    (∀ e ∈ [(up, domPk 6 0 0 0 0), (busyDom, domPk 6 0 0 0 0), (powerOff up, domPk 8 0 0 0 0), (up, domPk 5 6 0 0 0),
        (up, domPk 5 0 0 0 0), (allPairs (tenant runs1), domPk 5 5 0 0 0), (busyDom, domPk 5 5 0 0 0),
        ({ empty_ with pkg := { empty_.pkg with cdOk := 31 } }, domPk 5 5 0 0 0)],
      (cmd0 e.1 e.2).Begins (.ring 0) e.2 (fly (.ring 0) e.2) [] [] ∧ e.2.opcode = 0x020) ∧
    (up.pwr.actAt = none ∧ busyDom.pkgBusy = true ∧ up.pkgBusy = false ∧ (powerOff up).pwr.state = .off ∧ (powerOff up).pkg.cdOk = 63 ∧
      (∃ b, (powerOff up).nor.good b)) ∧
    (let live := fun (s : State) (d : Nat) => (List.range 4).any (fun g => s.liveDep (5 * d + g)) = true
     6 ≤ (domPk 5 6 0 0 0).f 0x10 13 8 ∧ live up 0 ∧ ¬live busyDom 5 ∧ ¬live (allPairs (tenant runs1)) 5 ∧
       (allPairs (tenant runs1)).pkgBusy = false ∧ bit (allPairs (tenant runs1)).pkg.cdOk 5 = true ∧ bit 31 5 = false ∧
       ∀ i, i < 11 → ((allPairs (tenant runs1)).pair i).up = true) ∧
    (∀ x ∈ [1000000000, 1000000001], let s := { up with pwr := { up.pwr with actAt := some (x, 6) } }
      s.pwr.actAt = some (x, 6) ∧ (s.clk < x ↔ x = 1000000001) ∧ s.pkg.cdOk = 63) ∧
    (∀ s ∈ [up, { offered (.fm 9) with pwr := { up.pwr with actAt := some (0, 6) } }],
      ∀ o ∈ s.own.offer.toList, ∀ g ∈ s.cmd.flights, g.id = o.cmd → s.actsFor g = 0) ∧
    (∀ port ∈ [0, 1], ∀ n ∈ [0, 64], let m : Master := if port = 0 then .host0 else .host1
      let s := finishedOn (hosted port n m) (.ring n)
      port < 2 ∧ n < 65 ∧ (s.ring n).enable = true ∧ (s.ring n).hostPort = port ∧ s.inflight (.ring n) ≠ 0 ∧
        (s.ring 63).enable = false ∧ s.own.owner = some m ∧ owned.own.owner ≠ some m) ∧
    (owned.isOwner .host1 = false ∧ owned.isOwner .bmc = true ∧ (norAt 0 false true 1).nor.busy = true ∧
      (norAt 0 false false 0).nor.busy = false ∧
      (∀ e ∈ [(0x3FFFFFF, true), (0x4000000, false), (0x7FFFFFF, false)], e.1 < 0x8000000 ∧ (0x4000000 ≤ e.1 ↔ e.2 = false)) ∧
      (∀ e ∈ [(0x3FFFFFF, false), (0x4000000, true), (0x8000000, false)], 0x8000000 ≤ e.1 ∨ (0x4000000 ≤ e.1 ↔ e.2 = true)) ∧
      owned.pkg.ready = true ∧ ({ owned with pkg := {} } : State).pkg.ready = false) ∧
    (∀ op ∈ [1, 2], (norAt 0x7FFF000 false true op).nor.busy = true ∧ (norAt 0x7FFF000 false true op).nor.op = op) := by
  have a : ∀ e ∈ [(up, domPk 6 0 0 0 0), (busyDom, domPk 6 0 0 0 0), (powerOff up, domPk 8 0 0 0 0), (up, domPk 5 6 0 0 0),
        (up, domPk 5 0 0 0 0), (allPairs (tenant runs1), domPk 5 5 0 0 0), (busyDom, domPk 5 5 0 0 0),
        ({ empty_ with pkg := { empty_.pkg with cdOk := 31 } }, domPk 5 5 0 0 0)],
      beginsB (cmd0 e.1 e.2) (.ring 0) e.2 [] [] = true ∧ e.2.opcode = 0x020 := by decide +kernel
  refine ⟨⟨⟨rfl, rfl, rfl, rfl, rfl⟩, good (by decide +kernel), ?_⟩, by decide +kernel, by decide +kernel,
    ⟨_, rfl, rfl, rfl, good (by decide +kernel)⟩, fun e m => ⟨begins' (a e m).1, (a e m).2⟩,
    ⟨by decide +kernel, by decide +kernel, by decide +kernel, by decide +kernel, by decide +kernel, good (by decide +kernel)⟩,
    by decide +kernel, by decide +kernel, by decide +kernel, by decide +kernel, by decide +kernel, by decide +kernel⟩
  unfold Nor.good; decide +kernel

/-! ### The debug port and tests -/

def tapAt (d : Dbg) (low : Bool) : State := { owned with dbg := d, board := { owned.board with resetN := !low } }
def unlocked_ : Dbg := { lock := .unlocked, leftEnd := 1000000000, tap := .dbgAccess }

/-- debug_tap. -/
theorem test_debug_tap :
    ((0 : Nat) < 256 ∧ 255 < 256 ∧ up.board.resetN = true ∧ (tapAt {} true).board.resetN = false) ∧
    ((tapAt { tap := .extest } false).dbg.tap = .extest ∧ (tapAt { tap := .extest } false).board.resetN = true ∧
      (tapAt { tap := .extest } true).board.resetN = false ∧ (tapAt { tap := .sample } true).dbg.tap = .sample) ∧
    (∀ n ∈ [0, 1, 2], let d := (tapAt { tap := .dbgKey, lock := .armed, key := 2 ^ 32 - 1, fails := n } false).dbg
      d.tap = .dbgKey ∧ d.lock = .armed ∧ (2 ^ 33 - 1) % 2 ^ 32 = d.key ∧ 0 % 2 ^ 32 ≠ d.key ∧ (d.fails < 2 ∨ 2 ≤ d.fails)) ∧
    (tapAt { tap := .dbgKey } false).dbg.lock ≠ .armed ∧
    (owned.isOwner .bmc = true ∧ owned.isOwner .host0 = false ∧ (2 ^ 33 - 1) % 2 ^ 32 ≠ 0 ∧ 2 ^ 32 % 2 ^ 32 = 0) ∧
    ((tapAt unlocked_ false).dbg.lock = .unlocked ∧ (tapAt unlocked_ false).dbg.leftEnd ≤ (tapAt unlocked_ false).clk ∧
      (tapAt unlocked_ false).dbg.tap = .dbgAccess ∧ (tapAt unlocked_ false).dbg.arg < 2 ^ 32) ∧
    ((tapAt { tap := .dbgAccess } false).dbg.lock ≠ .unlocked ∧ ¬((1 : Nat) = 1 ∧ ((8 : Nat) = 0 ∨ 8 = 0xC)) ∧
      ¬((2 : Nat) = 1 ∧ ((0 : Nat) = 0 ∨ 0 = 0xC)) ∧ 0xFFFFE % 4 ≠ 0 ∧ 0x100000 ≤ 0x100000) := by
  decide +kernel

/-- The last core as given, in partition 1 with debug permission, the block UNLOCKED. -/
def debugged (k : Core) (arg : Nat) : State :=
  { paged with
    own := owned.own, dbg := { unlocked_ with arg := arg }
    ten := { parts := [(0, { state := .idle }), (1, { state := .running, slices := 2 ^ 192 - 1, dbgPerm := 2 })] }
    cpu := { cores := [(1535, { k with handlerMode := false })] } }
def dbgCmd (op : Nat) : Nat := op + 1535 * 2 ^ 16
def haltedCore : Core := { state := .halted, holder := .run 7, dbgHalt := true, image := some ⟨[0xFF, 0xFF], 0, 0, [], []⟩ }
def runningCore (wait : Wait) : Core := { state := .running, holder := .run 7, ax := [entry 1 wait] }

/-- debug_block, DBG_CMD. -/
theorem test_debug_block :
    (let s := debugged haltedCore 65535
     s.dbg.lock = .unlocked ∧ s.isOwner .bmc = true ∧ s.dbg.busyEnd ≤ s.clk ∧
       ({ s with dbg := { s.dbg with busyEnd := s.clk + 1 } } : State).clk < s.clk + 1 ∧
       1 ≤ s.dbg.arg ∧ s.dbg.arg ≤ 65535) ∧
    (∀ op ∈ [1, 2, 3, 4, 5], bits (dbgCmd op) 3 0 = op ∧ bits (dbgCmd op) 4 4 = 0 ∧ bits (dbgCmd op) 26 16 = 1535 ∧
      bits (op + 1536 * 2 ^ 16) 26 16 = 1536) ∧
    (let s := debugged haltedCore 1
     let un : State := { s with cpu := { s.cpu with unmapped := [(1535, true)] } }
     let fw : State := { s with cpu := { s.cpu with cores := [] } }
     let np : State := { s with ten := { parts := [(1, { state := .running, slices := 2 ^ 192 - 1 })] } }
     un.mapped 1535 = false ∧ s.mapped 1535 = true ∧ ({ s with ten := {} } : State).coreOwner 1535 = 0 ∧
       (fw.core 1535).handlerMode = true ∧ fw.coreOwner 1535 ≠ 0 ∧ s.coreOwner 1535 = 1 ∧ (s.core 1535).handlerMode = false ∧
       (s.part 1).dbgPerm ≠ 0 ∧ (np.part (np.coreOwner 1535)).dbgPerm = 0) ∧
    (∀ w ∈ [Wait.queued, .frozen calm], let k := (debugged (runningCore w) 0).core 1535
      k.state = .running ∧ k.faulting = none ∧ k.forced = false ∧ (w = .queued → ∀ p ∈ k.pushes, p.wait = .queued) ∧
        (w ≠ .queued → ∃ p ∈ k.pushes, p.wait ≠ .queued ∧ p.wait ≠ .stuck)) ∧
    (∀ st ∈ [ArrayState.frozen, .idle], let k := (debugged { runningCore .queued with array := { state := st } } 0).core 1535
      k.state = .running ∧ k.faulting = none ∧ (∀ p ∈ k.pushes, p.wait = .queued) ∧ k.array.state = st) ∧
    (let k := (debugged { runningCore .queued with state := .moving, movedFrom := .running } 0).core 1535
     k.state = .moving ∧ k.movedFrom = .running) ∧
    (let k := (debugged haltedCore 65535).core 1535
     k.state = .halted ∧ k.holder ≠ .none ∧ k.faulting = none ∧ k.halting = false ∧ k.ended = false ∧ k.pc ≠ k.truncate) ∧
    ((debugged haltedCore 0).dbg.arg = 0 ∧ 65535 < (debugged haltedCore 65536).dbg.arg ∧
      ((debugged { haltedCore with holder := .none } 0).core 1535).holder = .none ∧
      ((debugged (runningCore .queued) 1).core 1535).state ≠ .halted) ∧
    (∀ q ∈ [[], [entry 1 .queued]],
      let k := (debugged { state := .running, holder := .run 7, stepping := true, stopping := true, ax := q } 0).core 1535
      1535 < 1536 ∧ k.stepping = true ∧ k.state = .running ∧ k.faulting = none ∧ k.halting = false ∧ k.stopping = true ∧
        (k.pushes = [] ↔ q = [])) := by
  refine ⟨by decide +kernel, by decide +kernel, by decide +kernel, by decide +kernel, by decide +kernel, by decide +kernel,
    by decide +kernel, by decide +kernel, by decide +kernel⟩

/-- A transfer of 64 lines of partition 1 at an address, its page writable or not, or of one line. -/
def transfer (va : Nat) (write mark : Bool) : State :=
  let s := debugged { state := .running } 0
  { s with
    dbg := { s.dbg with memVa := va }
    mem := { s.mem with
      pt := [(pteKey 1 1 lastPage, mkPte 1), (pteKey 1 2 lastPage, mkPte 1),
        (pteKey 1 3 lastPage, mkPte (pteWord (lastFrame * 2 ^ 21) false false false write true))]
      marks := if mark then [(lastFrame * 32768 + 32767, some true)] else [] } }
def lastLines : Nat := lastPage + 2 ^ 21 - 4096
def xfer (op part n : Nat) : Nat := op + part * 256 + (n - 1) * 2 ^ 16
def poolVa : Nat := 0xFF0000000000 + 1535 * 2 ^ 19
/-- The transfer's partition with tokens for its tier, or with none. -/
def metered (tokens : Int) : State :=
  let s := transfer lastLines true false
  { s with ten := { s.ten with
    parts := [(0, { state := .idle }), (1, { state := .running, slices := 2 ^ 192 - 1, dbgPerm := 2, reg0 := ⟨false, 1, 4⟩ })]
    meters := [(1, { b0 := { tokens := tokens } })] } }
/-- The transfer with tier 1 in TEST. -/
def inTest : State :=
  let s := transfer lastLines true false
  { s with mem := { s.mem with ctrls := [(0, { state := .test })] } }

/-- debug_block, DBG_MEM_CTRL. -/
theorem test_debug_memory :
    (let s := transfer lastLines true false
     s.dbg.lock = .unlocked ∧ s.isOwner .bmc = true ∧ s.dbg.memEnd ≤ s.clk ∧ s.clk < s.clk + 1 ∧
       (∀ op ∈ [1, 2], bits (xfer op 1 64) 1 0 = op ∧ bits (xfer op 1 64) 15 8 = 1 ∧ bits (xfer op 64 1) 15 8 = 64 ∧
         bits (xfer op 0 1) 15 8 = 0 ∧ bits (xfer op 1 64) 22 16 + 1 = 64) ∧
       lastLines % 64 = 0 ∧ lastLines % 4096 + 64 * 64 ≤ 4096 ∧ (s.part 64).dbgPerm < 2 ∧ 2 ≤ (s.part 1).dbgPerm ∧
       64 < bits (xfer 1 65 1) 15 8 ∧ 64 < bits (xfer 1 1 65) 22 16 + 1 ∧ (lastLines + 1) % 64 ≠ 0 ∧
       4096 < (lastLines + 64) % 4096 + 64 * 64) ∧
    (∀ tokens ∈ [0, 1], ∀ write ∈ [false, true], let s := metered tokens
      s.extentFault 1 lastLines (64 * 64) write = none ∧ s.extentAsleep 1 lastLines (64 * 64) = false ∧
        s.extentMayProceed 1 6 lastLines (64 * 64) write = decide (tokens = 1)) ∧
    (inTest.extentFault 1 lastLines (64 * 64) false = none ∧ inTest.extentAsleep 1 lastLines (64 * 64) = true) ∧
    ((transfer 0 true false).extentFault 1 0 (64 * 64) false ≠ none ∧
      (transfer lastLines false false).extentFault 1 lastLines (64 * 64) false = none ∧
      (transfer lastLines false false).extentFault 1 lastLines (64 * 64) true ≠ none ∧
      (transfer lastLines true false).extentFault 1 lastLines (64 * 64) false = none ∧
      (transfer lastLines true false).extentFault 1 lastLines (64 * 64) true = none) ∧
    (∀ i, i < 64 → (let s := transfer lastLines true false
       (s.chargeExtent 1 6 lastLines (64 * 64) false).debugLine [] 1 (lastLines + 64 * i) ≠ none) ∧
      (transfer lastLines true false).onChipStill 1 (lastLines + 64 * i) = true) ∧
    (let s := transfer lastLines true true
     (s.chargeExtent 1 6 lastLines (64 * 64) false).debugLine [] 1 (lastLines + 64 * 63) = none) ∧
    (let s := transfer poolVa true false
     poolVa % 64 = 0 ∧ poolVa % 4096 + 64 * 1 ≤ 4096 ∧ s.extentFault 1 poolVa (64 * 1) false = none ∧
       s.extentFault 1 poolVa (64 * 1) true = none ∧ ∃ i, i < 1 ∧ s.onChipStill 1 (poolVa + 64 * i) = false) := by
  refine ⟨by decide +kernel, by decide +kernel, by decide +kernel, by decide +kernel, by decide +kernel, by decide +kernel,
    by decide +kernel, by decide +kernel, by decide +kernel, by decide +kernel, ⟨0, by decide +kernel⟩⟩

/-- LOOPBACK (1 of a unit, 2 of a port) and TRAFFIC_GEN. -/
def lbPk (op mode u us : Nat) : Packet := pack 0x901 [op + 4 * mode + 256 * u, us]
def tgPk (op t : Nat) : Packet := pack 0x902 [op + 4 * t]
def ctrls (x : MemCtrl) : Tab MemCtrl := (List.range 28).map (fun u => (u, x))
def testing (x : MemCtrl) (ts : List (Nat × Nat)) : State := { empty_ with mem := { empty_.mem with ctrls := ctrls x, tests := ts } }
def dark (p : Port) : State := { linked p with ten := empty_.ten }

/-- The last unit lost: with the tier in use, or its controller alone in TEST; another test running or not. -/
def gone27 (s : State) (x : MemCtrl) (ts : List (Nat × Nat)) : State :=
  { s with pkg := { s.pkg with bcOk := 0x7FFF }, mem := { s.mem with ctrls := [(27, x)], tests := ts } }

/-- bring_up_tests, the commands. -/
theorem test_bring_up_commands :
    (∀ e ∈ [(up, lbPk 1 1 28 1, []), (up, lbPk 0 1 27 1, [unitDomain 27]), (up, lbPk 3 1 27 1, [unitDomain 27]),
        (gone27 up { state := .lost } [], lbPk 1 1 27 1, [unitDomain 27]), (gone27 up { state := .lost } [(3, 12)], lbPk 1 1 27 1, [unitDomain 27]),
        (testing { state := .test } [], lbPk 1 2 27 1, [unitDomain 27]), (testing { state := .test } [], tgPk 1 0, (tierUnits 0).map unitDomain),
        (gone27 empty_ { state := .test } [], tgPk 2 1, (tierUnits 1).map unitDomain), (up, lbPk 1 3 27 1, [unitDomain 27]), (up, lbPk 1 1 27 0, [unitDomain 27]),
        (up, lbPk 1 1 27 10000001, [unitDomain 27]), (up, lbPk 1 1 27 1, [unitDomain 27]), (empty_, lbPk 1 2 27 10000000, [unitDomain 27]),
        (testing { state := .service } [(3, 12)], lbPk 1 1 27 1, [unitDomain 27]),
        (up, lbPk 2 1 24 1, []), (dark { state := .down }, lbPk 2 0 23 1, [portDomain 23]), (dark upPort, lbPk 2 1 23 1, [portDomain 23]),
        (dark { state := .parked }, lbPk 2 2 23 10000000, [portDomain 23]),
        (empty_, tgPk 0 1, (tierUnits 1).map unitDomain), (up, tgPk 1 0, (tierUnits 0).map unitDomain),
        (testing { state := .service } [(3, 11)], tgPk 1 0, (tierUnits 0).map unitDomain), (empty_, tgPk 1 1, (tierUnits 1).map unitDomain),
        (empty_, tgPk 2 0, (tierUnits 0).map unitDomain), (testing { state := .test } [(3, 27)], tgPk 2 1, (tierUnits 1).map unitDomain),
        (testing { state := .test } [], tgPk 2 0, (tierUnits 0).map unitDomain)],
      (cmd0 e.1 e.2.1).Begins (.ring 0) e.2.1 (fly (.ring 0) e.2.1) [] e.2.2) ∧
    ((lbPk 0 1 27 1).f 0x10 1 0 = 0 ∧ (lbPk 3 1 27 1).f 0x10 1 0 = 3 ∧ up.pkg.unitLost 27 = false ∧
      (∀ ts ∈ [[], [(3, 12)]], let s := gone27 up { state := .lost } ts
        s.pkg.unitLost 27 = true ∧ s.mayTest 1 = false ∧ (s.testBusy 1 = false ↔ ts = [])) ∧
      ((testing { state := .test } []).tierTested 1 = true ∧ empty_.tierTested 1 = false ∧ unitTier 12 = unitTier 27) ∧
      (let s := gone27 empty_ { state := .test } []
       s.tierInTest 1 = true ∧ s.testBusy 1 = false ∧
         ¬∃ x ∈ List.range 28, unitTier x = 1 ∧ (s.ctrl x).state = .test ∧ s.pkg.unitLost x = false) ∧
      (let s := testing { state := .test } []
       27 < 28 ∧ unitTier 27 = 1 ∧ (s.ctrl 27).state = .test ∧ s.pkg.unitLost 27 = false)) ∧
    (∀ e ∈ [(3, 1), (1, 0), (1, 10000001)], let pk := lbPk 1 e.1 27 e.2
      ¬((pk.f 0x10 3 2 = 1 ∨ pk.f 0x10 3 2 = 2) ∧ 1 ≤ pk.w 0x14 ∧ pk.w 0x14 ≤ 10000000)) ∧
    (∀ e ∈ [(1, 1), (2, 10000000)], let pk := lbPk 1 e.1 27 e.2
      (pk.f 0x10 3 2 = 1 ∨ pk.f 0x10 3 2 = 2) ∧ 1 ≤ pk.w 0x14 ∧ pk.w 0x14 ≤ 10000000 ∧ pk.f 0x10 12 8 = 27) ∧
    (up.mayTest 1 = false ∧ empty_.mayTest 1 = true ∧ empty_.testBusy 1 = false ∧ (testing { state := .service } [(3, 12)]).mayTest 1 = true ∧
      (testing { state := .service } [(3, 12)]).testBusy 1 = true ∧ empty_.tierInTest 1 = false ∧
      (testing { state := .test } []).tierInTest 0 = true ∧ (testing { state := .test } []).testBusy 0 = false) ∧
    (∀ st ∈ [PortState.disabled, .parked, .down],
      let s := dark { state := st }
      let clk : State := { s with time := { s.time with enable := true, parentPort := 23 } }
      (s.port 23).state = st ∧ ¬(s.time.enable = true ∧ s.time.parentPort = 23) ∧ (clk.time.enable = true ∧ clk.time.parentPort = 23) ∧
        (s.port 23).loop = none ∧ ((dark { state := st, loop := some (3, 1, 0, st) }).port 23).loop ≠ none) ∧
    ¬(((dark upPort).port 23).state = .disabled ∨ ((dark upPort).port 23).state = .parked ∨ ((dark upPort).port 23).state = .down) := by
  have a : ∀ e ∈ [(up, lbPk 1 1 28 1, []), (up, lbPk 0 1 27 1, [unitDomain 27]), (up, lbPk 3 1 27 1, [unitDomain 27]),
        (gone27 up { state := .lost } [], lbPk 1 1 27 1, [unitDomain 27]), (gone27 up { state := .lost } [(3, 12)], lbPk 1 1 27 1, [unitDomain 27]),
        (testing { state := .test } [], lbPk 1 2 27 1, [unitDomain 27]), (testing { state := .test } [], tgPk 1 0, (tierUnits 0).map unitDomain),
        (gone27 empty_ { state := .test } [], tgPk 2 1, (tierUnits 1).map unitDomain), (up, lbPk 1 3 27 1, [unitDomain 27]), (up, lbPk 1 1 27 0, [unitDomain 27]),
        (up, lbPk 1 1 27 10000001, [unitDomain 27]), (up, lbPk 1 1 27 1, [unitDomain 27]), (empty_, lbPk 1 2 27 10000000, [unitDomain 27]),
        (testing { state := .service } [(3, 12)], lbPk 1 1 27 1, [unitDomain 27]),
        (up, lbPk 2 1 24 1, []), (dark { state := .down }, lbPk 2 0 23 1, [portDomain 23]), (dark upPort, lbPk 2 1 23 1, [portDomain 23]),
        (dark { state := .parked }, lbPk 2 2 23 10000000, [portDomain 23]),
        (empty_, tgPk 0 1, (tierUnits 1).map unitDomain), (up, tgPk 1 0, (tierUnits 0).map unitDomain),
        (testing { state := .service } [(3, 11)], tgPk 1 0, (tierUnits 0).map unitDomain), (empty_, tgPk 1 1, (tierUnits 1).map unitDomain),
        (empty_, tgPk 2 0, (tierUnits 0).map unitDomain), (testing { state := .test } [(3, 27)], tgPk 2 1, (tierUnits 1).map unitDomain),
        (testing { state := .test } [], tgPk 2 0, (tierUnits 0).map unitDomain)],
      beginsB (cmd0 e.1 e.2.1) (.ring 0) e.2.1 [] e.2.2 = true := by decide +kernel
  exact ⟨fun e m => begins' (a e m), by decide +kernel, by decide +kernel, by decide +kernel, by decide +kernel, by decide +kernel, by decide +kernel⟩

/-- A loop-back of unit `u`, or of the last port, in progress; its time is up now or in a nanosecond. -/
def looping (u mode start : Nat) : State :=
  pending (testing { state := .test, lbRunning := true, lbMode := mode, lbStart := start } [(7, u)]) (lbPk 1 mode u 10000)
def portLooping (mode start : Nat) : State :=
  pending (dark { state := .down, loop := some (7, mode, start, .parked) }) (lbPk 2 mode 23 10000)

/-- bring_up_tests, the ends. -/
theorem test_bring_up_ends :
    (∀ u ∈ [11, 27], ∀ mode ∈ [1, 2], let s := looping u mode 990000000
      u < 28 ∧ (s.ctrl u).lbRunning = true ∧ s.loopCmd u = some 7 ∧ 0 < (lbPk 1 mode u 10000).w 0x14 ∧
        (s.ctrl u).lbStart + 1000 * (lbPk 1 mode u 10000).w 0x14 ≤ s.clk ∧ 2 ^ 32 - 1 < 2 ^ 32 ∧ ((s.ctrl u).lbMode = 1 ↔ mode = 1) ∧
        s.pkg.unitLost u = false ∧ ({ s.pkg with hsOk := 0x7FF, bcOk := 0x7FFF } : Pkg).unitLost u = true) ∧
    (∃ f, (looping 27 1 990000000).flight 7 = some f ∧ f.phase = .begun ∧ f.aborts = [] ∧ f.pk = lbPk 1 1 27 10000) ∧
    (∀ mode ∈ [1, 2], ∀ a ∈ [990000000, 990000001], let s := portLooping mode a
      23 < 24 ∧ (s.port 23).loop = some (7, mode, a, .parked) ∧
        (a + 1000 * (lbPk 2 mode 23 10000).w 0x14 ≤ s.clk ↔ a = 990000000)) ∧
    (∃ f, (portLooping 1 990000000).flight 7 = some f ∧ f.phase = .begun ∧ f.aborts = [] ∧ f.pk = lbPk 2 1 23 10000) ∧
    (255 % 256 ≠ 0 ∧ 256 % 256 = 0) := by
  exact ⟨by decide +kernel, ⟨_, rfl, rfl, rfl, rfl⟩, by decide +kernel, ⟨_, rfl, rfl, rfl, rfl⟩, by decide +kernel⟩

/-! ### The step, reset and the checks of Instr.wf -/

/-- step_runs_front, and a word that spells no command. -/
theorem test_step : up.pending = [] ∧ step { up with pending := [.islandWatchdog, .zeroFrame] } = .next { up with pending := [.zeroFrame] } ∧
    decodeTableWord 32 0 = none ∧ State.reset.withFetchWord 32 0 = State.reset := ⟨rfl, rfl, rfl, rfl⟩

/-- commands_answered and memory_form_kept: a well-formed and an ill-formed command, and a queue of well-formed ones. -/
theorem test_answered : (Instr.add 1536).wf = false ∧ Instr.wf (.add 1535) = true ∧
    (∃ f, exec (.add 1536) up = .fault f) ∧ ({ up with pending := [.add 1535, .zeroFrame] } : State).queueWf = true ∧
    paged.mem.wf = true ∧ (∃ t, step { paged with pending := [.memoryWrite 1 63 [1#8] false true] } = .next t) ∧
    ({ paged with pending := [.memoryWrite 1 63 [1#8] false true] } : State).mem.wf = true := by
  exact ⟨by decide, by decide, ⟨_, rfl⟩, by decide, by decide +kernel, ⟨_, rfl⟩, by decide +kernel⟩

/-- A packet of 64 bytes, and the greatest number of each path. -/
def pk12 : Packet := ⟨0, 0, 0, 0, List.replicate 12 0⟩
def pk11 : Packet := ⟨0, 0, 0, 0, List.replicate 11 0⟩

/-- The check holds at the last unit, line, lane and value that there is. -/
theorem test_wf_holds : ∀ i ∈ [Instr.identify (.ring 64) pk12, .identify (.mailbox 2) pk12, .identify (.towpath (2 ^ 20 - 1)) pk12,
      .identify (.plan 95) pk12, .add 1535, .streamFill 1535 23 [], .messageArrive none 1543 15, .handlerDispatch 1543 none, .junctionArm 95 31,
      .junctionContribution 1535 95 31, .arbiterGrant 1 95 127 [], .arbiterGrant 2 97 31 [], .arbiterGrant 3 10 15 [],
      .arbiterGrant 4 27 0 [], .arbiterGrant 5 23 0 [], .lengthsman 5 23 0 (.core 1535 .ax), .lengthsman 5 23 0 (.stream 191 15),
      .lengthsman 5 23 0 (.quay 27), .lengthsman 4 27 0 (.quayAdd 27 0 0 0), .lengthsman 5 23 0 (.port 23), .lengthsman 5 23 0 (.keeper 7), .pliCapTimeout 10 7,
      .memoryRead 64 (366192 * 2 ^ 15 - 1) [] true, .memoryRead 1 (9437184 * 2 ^ 15 - 1) [] true, .memoryWrite 64 63 [0] false true,
      .patrolScrub (366204 * 2 ^ 15 - 1) [] false false false,
      .controlFlit 23 (List.replicate 252 0), .flitReceive 23 (List.replicate 256 0) 0 0, .retrainStart 23 6, .overloadAssert 23 7,
      .lightLoss 23 255, .sleep 23 2, .mark 95 [], .helloRepeat 63, .ringFetch 64 none [], .controlSpaceRead .bmc (2 ^ 26 - 1) 1,
      .keeperWatchdog 7, .logWindowRead .bmc 2, .domainWakeDone 55, .thermalPoll 7 255 0, .perstAssert 1 true true, .voltageStep 7,
      .quayRunStart 1, .quayEnd 27 [], .refreshTempPoll 27 255, .freshWrite 64 0 [] false, .hostBar2Access 1 (2 ^ 37 - 1) 1 false [] [],
      .retrainDone 23 0 (List.replicate 6 0) 0 0, .servBoundary 63 [], .servQuotaWrite .bmc 64 0, .servQuotaWrite .bmc 1 0,
      .fixedShareRelease 64 4 0 false 0], i.wf = true := by decide +kernel

/-- Each check refuses the number after its last one, and the other values that it names. -/
theorem test_wf_refuses : ∀ i ∈ [Instr.identify (.ring 65) pk12, .identify (.mailbox 3) pk12, .identify (.towpath (2 ^ 20)) pk12,
      .identify (.plan 96) pk12, .identify (.ring 64) pk11, .add 1536, .streamFill 1536 23 [], .streamFill 1535 24 [],
      .messageArrive none 1544 15, .handlerDispatch 1544 none, .messageArrive none 1543 16, .junctionArm 96 31, .junctionArm 95 32, .junctionContribution 1536 95 31,
      .arbiterGrant 0 0 0 [], .arbiterGrant 6 0 0 [], .arbiterGrant 1 96 127 [], .arbiterGrant 1 95 128 [], .arbiterGrant 2 98 31 [],
      .arbiterGrant 2 97 32 [], .arbiterGrant 3 11 15 [], .arbiterGrant 3 10 16 [], .arbiterGrant 4 28 0 [], .arbiterGrant 4 27 1 [],
      .arbiterGrant 5 24 0 [], .arbiterGrant 5 23 1 [], .lengthsman 5 23 0 (.core 1536 .ax), .lengthsman 5 23 0 (.stream 192 15),
      .lengthsman 5 23 0 (.stream 191 16), .lengthsman 5 23 0 (.quay 28), .lengthsman 4 27 0 (.quayAdd 28 0 0 0), .lengthsman 5 23 0 (.port 24), .lengthsman 5 23 0 (.keeper 8),
      .pliCapTimeout 11 7, .pliCapTimeout 10 8, .memoryRead 1 (366192 * 2 ^ 15) [] true, .memoryRead 1 (8388608 * 2 ^ 15 - 1) [] true,
      .memoryRead 1 (9437184 * 2 ^ 15) [] true, .memoryRead 65 0 [] true, .memoryWrite 1 63 [] false true, .memoryWrite 1 63 [0, 0] false true,
      .memoryWrite 65 0 [0] false true, .patrolScrub (366204 * 2 ^ 15) [] false false false,
      .controlFlit 24 (List.replicate 252 0), .controlFlit 23 (List.replicate 251 0), .flitReceive 23 (List.replicate 257 0) 0 0,
      .retrainStart 23 0, .retrainStart 23 7, .overloadAssert 23 8, .lightLoss 23 0, .lightLoss 23 256, .sleep 23 3, .mark 96 [],
      .helloRepeat 64, .ringFetch 65 none [], .completionPost (.ring 65) true, .controlSpaceRead .bmc (2 ^ 26) 1, .keeperWatchdog 8,
      .logWindowRead .bmc 0, .logWindowRead .bmc 3, .domainWakeDone 56, .thermalPoll 8 255 0, .thermalPoll 7 256 0, .perstAssert 2 true true,
      .voltageStep 8, .quayRunStart 2, .quayEnd 28 [], .refreshTempPoll 28 255, .refreshTempPoll 27 256, .freshWrite 65 0 [] false,
      .hostBar2Access 2 0 1 false [] [], .hostBar2Access 1 (2 ^ 37) 1 false [] [], .retrainDone 23 0 (List.replicate 5 0) 0 0,
      .servBoundary 64 [], .servQuotaWrite .bmc 65 0, .servQuotaWrite .bmc 0 0, .fixedShareRelease 65 4 0 false 0,
      .fixedShareRelease 64 5 0 false 0], i.wf = false := by
  decide +kernel

end Sys2Proof.Tests
end

section
/-! PROOFS. Addition in LA128 (R32): the wrap of MAG is Lean's balanced remainder `Int.bmod`, so MAG is a sum modulo
2^124; the class of a sum; and the sum of a list of values. -/

namespace Sys2Proof.Machine

/-! ### Two's complement -/

/-- The signed reading of `w` bits is the balanced remainder modulo 2^w. -/
theorem signed_eq_bmod (w n : Nat) : signed w n = Int.bmod n (2 ^ w) := by
  have half : (2 ^ w + 1) / 2 = 2 ^ (w - 1) := by
    cases w with
    | zero => rfl
    | succ w => rw [Nat.pow_succ, Nat.add_sub_cancel]; omega
  simp only [signed, Int.bmod_def]
  norm_cast
  rw [half]

theorem cast_unsigned (w : Nat) (i : Int) : (unsigned w i : Int) = i % (2 ^ w : Nat) :=
  Int.toNat_of_nonneg (Int.emod_nonneg _ (by positivity))

/-- MAG wraps to the balanced remainder modulo 2^124. -/
theorem laWrap_eq_bmod (m : Int) : laWrap m = Int.bmod m (2 ^ 124) := by
  rw [laWrap, signed_eq_bmod, cast_unsigned, Int.emod_bmod]

theorem unsigned_laWrap (m : Int) : unsigned 124 (laWrap m) = unsigned 124 m := by
  rw [laWrap_eq_bmod, unsigned, Int.bmod_emod, unsigned]

theorem laWrap_add_left (a b : Int) : laWrap (laWrap a + b) = laWrap (a + b) := by
  simp only [laWrap_eq_bmod, Int.bmod_add_bmod]

theorem laWrap_add_right (a b : Int) : laWrap (a + laWrap b) = laWrap (a + b) := by
  simp only [laWrap_eq_bmod, Int.add_bmod_bmod]

theorem laWrap_natCast_add (a b : Nat) : laWrap (signed 124 a + signed 124 b) = laWrap (a + b : Nat) := by
  simp only [laWrap_eq_bmod, signed_eq_bmod, Int.bmod_add_bmod, Int.add_bmod_bmod, Nat.cast_add]

theorem unsigned_natCast (w n : Nat) : unsigned w n = n % 2 ^ w := rfl

/-! ### The class and MAG of a sum -/

@[simp] theorem La.nan_add (y : La) : La.nan.add y = .nan := by cases y <;> rfl
@[simp] theorem La.add_nan (x : La) : x.add .nan = .nan := by cases x <;> rfl

@[simp] theorem La.fin_add_fin (a b : Int) : (La.fin a).add (.fin b) = .fin (laWrap (a + b)) := rfl

/-- R32: the order of two terms does not matter. -/
theorem La.add_comm (x y : La) : x.add y = y.add x := by
  cases x with
  | fin a =>
    cases y with
    | fin b => simp only [fin_add_fin, Int.add_comm]
    | _ => rfl
  | _ => cases y <;> rfl

/-- R32: the order of two additions does not matter; of finite terms both orders give the wrap of one integer sum. -/
theorem La.add_assoc (x y z : La) : (x.add y).add z = x.add (y.add z) := by
  cases x with
  | nan => simp only [nan_add]
  | posInf => cases y <;> cases z <;> rfl
  | negInf => cases y <;> cases z <;> rfl
  | fin a =>
    cases y with
    | fin b =>
      cases z with
      | fin c => simp only [fin_add_fin, laWrap_add_left, laWrap_add_right, Int.add_assoc]
      | _ => rfl
    | _ => cases z <;> rfl

/-- The first row of Table 2.6. -/
theorem La.add_eq_nan {x y : La} (h : x = .nan ∨ y = .nan ∨ (x = .posInf ∧ y = .negInf) ∨ (x = .negInf ∧ y = .posInf)) :
    x.add y = .nan := by
  obtain rfl | rfl | ⟨rfl, rfl⟩ | ⟨rfl, rfl⟩ := h
  · exact nan_add y
  · exact add_nan x
  · rfl
  · rfl

theorem La.posInf_add {y : La} (hn : y ≠ .nan) (hi : y ≠ .negInf) : La.posInf.add y = .posInf := by
  cases y <;> trivial

theorem La.negInf_add {y : La} (hn : y ≠ .nan) (hi : y ≠ .posInf) : La.negInf.add y = .negInf := by
  cases y <;> trivial

/-- The second row of Table 2.6. -/
theorem La.add_eq_posInf {x y : La} (h : ¬(x = .nan ∨ y = .nan ∨ x = .negInf ∨ y = .negInf))
    (hp : x = .posInf ∨ y = .posInf) : x.add y = .posInf := by
  simp only [not_or] at h
  obtain ⟨hxn, hyn, hxi, hyi⟩ := h
  obtain rfl | rfl := hp
  · exact posInf_add hyn hyi
  · rw [add_comm, posInf_add hxn hxi]

/-- The third row of Table 2.6. -/
theorem La.add_eq_negInf {x y : La} (h : ¬(x = .nan ∨ y = .nan ∨ x = .posInf ∨ y = .posInf))
    (hm : x = .negInf ∨ y = .negInf) : x.add y = .negInf := by
  simp only [not_or] at h
  obtain ⟨hxn, hyn, hxi, hyi⟩ := h
  obtain rfl | rfl := hm
  · exact negInf_add hyn hyi
  · rw [add_comm, negInf_add hxn hxi]

/-- A word below 2^124 has the class FINITE. -/
theorem La.decode_of_lt {w : Nat} (h : w < 2 ^ 124) : La.decode w = .fin (signed 124 w) := by
  have hclass : w / 2 ^ 124 % 16 = 0 := by rw [Nat.div_eq_of_lt h]
  simp only [decode, hclass]

/-- Of finite words, MAG of the sum is the sum of the MAG fields modulo 2^124. -/
theorem La.encode_add_decode {a b : Nat} (ha : a < 2 ^ 124) (hb : b < 2 ^ 124) :
    ((La.decode a).add (La.decode b)).encode = (a + b) % 2 ^ 124 := by
  rw [decode_of_lt ha, decode_of_lt hb, fin_add_fin, laWrap_natCast_add, encode, unsigned_laWrap, unsigned_natCast]

/-! ### The sum of a list -/

/-- `List.foldl_assoc` for LA128: a first term stands outside the sum of the others. -/
theorem La.foldl_add (x y : La) (l : List La) : l.foldl La.add (x.add y) = x.add (l.foldl La.add y) :=
  have : Std.Associative La.add := ⟨La.add_assoc⟩
  List.foldl_assoc

/-- The order of the terms does not matter. -/
theorem laSum_perm {l m : List Nat} (h : l.Perm m) : laSum l = laSum m := by
  have : RightCommutative La.add := ⟨fun x y z => by rw [La.add_assoc, La.add_comm y, La.add_assoc]⟩
  exact (h.map La.decode).foldl_eq (La.fin 0)

/-- Zero changes no sum, for the sum of a list is itself a sum from zero. -/
theorem laSum_add_zero (l : List Nat) : (laSum l).add (.fin 0) = laSum l := by
  have zero_add_zero : (La.fin 0).add (.fin 0) = .fin 0 := by decide
  rw [La.add_comm, laSum, ← La.foldl_add, zero_add_zero]

/-- A sum may be split into partial sums. -/
theorem laSum_append (l m : List Nat) : laSum (l ++ m) = (laSum l).add (laSum m) := by
  calc laSum (l ++ m) = (m.map La.decode).foldl La.add (laSum l) := by rw [laSum, List.map_append, List.foldl_append, laSum]
    _ = (m.map La.decode).foldl La.add ((laSum l).add (.fin 0)) := by rw [laSum_add_zero]
    _ = (laSum l).add (laSum m) := La.foldl_add _ _ _

/-- Settles O1: the classes of Table 2.6, MAG as a sum modulo 2^124, and commutativity and associativity, from which the
independence of order and of split follows for lists. -/
theorem la128Sums : Obligations.la128_sums :=
  ⟨fun _ _ => ⟨fun h => congrArg La.encode (La.add_eq_nan h),
      fun h hp => congrArg La.encode (La.add_eq_posInf h hp),
      fun h hm => congrArg La.encode (La.add_eq_negInf h hm)⟩,
    fun _ _ => La.encode_add_decode, La.add_comm, La.add_assoc,
    fun _ _ h => congrArg La.encode (laSum_perm h),
    fun l m => congrArg La.encode (laSum_append l m)⟩

end Sys2Proof.Machine
end

section
/-! PROOFS. Where the program counter goes (R163): the canonical form of a table determines it, so a second write of a
core replaces the first; and what `State.settle` does with a core that fetches and with one that has executed END. -/

namespace Sys2Proof.Machine

/-! ### Canonical tables -/

theorem Tab.wf_cons_iff {α : Type} [DecidableEq α] {d : α} {i : Nat} {v : α} {t : Tab α} :
    Tab.wf d ((i, v) :: t) = true ↔ v ≠ d ∧ Tab.above i t = true ∧ Tab.wf d t = true := by
  simp [Tab.wf, and_assoc]

theorem Tab.get_head {α : Type} (d : α) (i : Nat) (v : α) (t : Tab α) : Tab.get d ((i, v) :: t) i = v :=
  if_pos rfl

/-- A key below the first listed one reads as the default. -/
theorem Tab.get_of_lt_head {α : Type} {d : α} {i k : Nat} {v : α} {t : Tab α} (ht : Tab.above i t = true) (hk : k < i) :
    Tab.get d ((i, v) :: t) k = d :=
  (if_neg hk.ne').trans (Tab.get_of_above ht hk.le)

/-- Two tables in canonical form that read alike are equal. -/
theorem Tab.eq_of_get_eq {α : Type} [DecidableEq α] {d : α} {t u : Tab α} (ht : Tab.wf d t = true) (hu : Tab.wf d u = true)
    (h : ∀ k, Tab.get d t k = Tab.get d u k) : t = u := by
  induction t generalizing u with
  | nil =>
    cases u with
    | nil => rfl
    | cons e u => exact absurd ((Tab.get_head ..).symm.trans (h e.1).symm) (Tab.wf_cons_iff.mp hu).1
  | cons e t ih =>
    obtain ⟨i, v⟩ := e
    obtain ⟨hv, hit, hwft⟩ := Tab.wf_cons_iff.mp ht
    cases u with
    | nil => exact absurd ((Tab.get_head ..).symm.trans (h i)) hv
    | cons e u =>
      obtain ⟨j, w⟩ := e
      obtain ⟨hw, hju, hwfu⟩ := Tab.wf_cons_iff.mp hu
      obtain hij | rfl | hji := Nat.lt_trichotomy i j
      · exact absurd ((Tab.get_head ..).symm.trans ((h i).trans (Tab.get_of_lt_head hju hij))) hv
      · have hvw : v = w := by simpa only [Tab.get_head] using h i
        have htu : t = u := ih hwft hwfu fun k => by
          by_cases hk : i = k
          · rw [Tab.get_of_above hit hk.ge, Tab.get_of_above hju hk.ge]
          · simpa only [Tab.get, if_neg hk] using h k
        rw [hvw, htu]
      · exact absurd ((Tab.get_head ..).symm.trans ((h j).symm.trans (Tab.get_of_lt_head hit hji))) hw

/-- A second write of a key replaces the first. -/
theorem Tab.put_put {α : Type} [DecidableEq α] {d : α} {t : Tab α} (ht : Tab.wf d t = true) (k : Nat) (v w : α) :
    (t.put d k v).put d k w = t.put d k w :=
  Tab.eq_of_get_eq (Tab.wf_put (Tab.wf_put ht)) (Tab.wf_put ht) fun j => by
    by_cases hj : k = j
    · subst hj
      simp
    · simp [hj]

theorem State.setCore_setCore {s : State} (hs : Tab.wf {} s.cpu.cores = true) (c : Nat) (k k' : Core) :
    (s.setCore c k).setCore c k' = s.setCore c k' := by
  simp only [State.setCore, Tab.put_put hs]

/-! ### Which core fetches, and which core stops -/

theorem Core.fetching_of_fetch {k : Core} {o : Op} (h : k.fetch = some o) : k.fetching = true := by
  unfold Core.fetch at h
  split at h
  · split at h
    next hk => exact (Bool.and_eq_true_iff.mp hk).1
    next => cases h
  · cases h

/-- What a fetching core is (Table 4.2), field by field. -/
theorem Core.fetching_iff (k : Core) : k.fetching = true ↔
    k.state = .running ∧ k.ended = false ∧ k.halting = false ∧ k.stopping = false ∧ k.faulting = none ∧
      k.handlerMode = false := by
  simp [Core.fetching, and_assoc]

/-- A core that fetches has nothing to stop for. -/
theorem State.settle_of_fetching {s : State} {c : Nat} (h : (s.core c).fetching = true) : s.settle c = s := by
  obtain ⟨hrun, hend, hhalt, hstop, hfault, -⟩ := (Core.fetching_iff _).mp h
  simp [State.settle, hrun, hend, hhalt, hstop, hfault]

/-- A core that fetches but for having executed END is RUNNING until its queues are empty, and is IDLE then (Table 5.3). -/
theorem State.settle_of_ended {s : State} {c : Nat} (hfetch : ({ s.core c with ended := false } : Core).fetching = true)
    (hend : (s.core c).ended = true) (hstep : (s.core c).stepping = false) :
    s.settle c = if (s.core c).pushes = [] then
      ((s.setCore c { s.core c with state := .idle }).closeStreams c).checkRun c else s := by
  obtain ⟨hrun, -, hhalt, hstop, hfault, -⟩ := (Core.fetching_iff _).mp hfetch
  dsimp only at hrun hhalt hstop hfault
  by_cases hp : (s.core c).pushes = []
  · simp [State.settle, hrun, hhalt, hstop, hfault, hend, hstep, hp]
  · simp [State.settle, hrun, hhalt, hstop, hfault, hend, hstep, hp]

/-- Nothing waits for the end of a core that nothing holds. -/
theorem State.checkRun_of_unheld {s : State} {c : Nat} (h : (s.core c).holder = .none) : s.checkRun c = s := by
  simp only [State.checkRun, h]

@[simp] theorem State.core_closeStreams (s : State) (c : Nat) :
    (s.closeStreams c).core c = { s.core c with streams := [] } :=
  State.core_updCore s c (fun k => { k with streams := [] })

/-! ### Moving the program counter -/

/-- The program counter reaches TRUNCATE where an instruction stands (R163). -/
def Core.truncatesAt (k : Core) (pc : Nat) : Prop := pc = k.truncate ∧ pc < (k.image.map (·.code.length)).getD 0

/-- The core `k` when its program counter has moved to `pc` and it acts as though it had executed END there (R163). -/
def Core.endAt (k : Core) (pc : Nat) : Core := { k with pc := pc, ended := true, truncated := true, prefixes := [] }

theorem State.goto_of_not_truncatesAt {s : State} {c pc : Nat} (hfetch : (s.core c).fetching = true)
    (h : ¬ (s.core c).truncatesAt pc) : s.goto c pc = s.updCore c (fun k => { k with pc := pc }) := by
  have hmove : s.goto c pc = (s.updCore c (fun k => { k with pc := pc })).settle c :=
    congrArg (fun k => (s.setCore c k).settle c) (if_neg h)
  have hfetch' : ((s.updCore c (fun k => { k with pc := pc })).core c).fetching = true := by
    rw [State.core_updCore]
    exact hfetch
  rw [hmove, State.settle_of_fetching hfetch']

theorem State.goto_of_truncatesAt {s : State} {c pc : Nat} (hs : Tab.wf {} s.cpu.cores = true)
    (hfetch : (s.core c).fetching = true) (hstep : (s.core c).stepping = false) (h : (s.core c).truncatesAt pc) :
    s.goto c pc = if (s.core c).pushes = [] then
      ((s.setCore c { (s.core c).endAt pc with state := .idle }).closeStreams c).checkRun c
      else s.setCore c ((s.core c).endAt pc) := by
  have hmove : s.goto c pc = (s.setCore c ((s.core c).endAt pc)).settle c :=
    congrArg (fun k => (s.setCore c k).settle c) (if_pos h)
  have hend : (s.core c).ended = false := ((Core.fetching_iff _).mp hfetch).2.1
  have hfetch' : ({ (s.core c).endAt pc with ended := false } : Core).fetching = true := by
    rw [← hfetch, Core.fetching, Core.fetching, hend]
    rfl
  rw [hmove, State.settle_of_ended (by rwa [State.core_setCore]) (by rw [State.core_setCore]; rfl)
    (by rw [State.core_setCore]; exact hstep), State.core_setCore, State.setCore_setCore hs]
  rfl

/-- Settles O3: away from TRUNCATE the moved core still fetches, so nothing settles; at TRUNCATE it has executed END, and
settles as such a core does. -/
theorem gotoAndTruncate : Obligations.goto_and_truncate := by
  intro s c opc pc o hop hstep hs
  have hfetch : (s.core c).fetching = true := Core.fetching_of_fetch hop.fetch
  refine ⟨fun h => State.goto_of_not_truncatesAt hfetch fun ht => ?_, fun hpc hn => ⟨fun hp => ?_, fun hp hheld => ?_⟩⟩
  · exact h.elim (· ht.1) (Nat.not_le_of_lt ht.2)
  · rw [State.goto_of_truncatesAt hs hfetch hstep ⟨hpc, hn⟩, if_neg hp]
    rfl
  · rw [State.goto_of_truncatesAt hs hfetch hstep ⟨hpc, hn⟩, if_pos hp, State.checkRun_of_unheld]
    · rfl
    · rw [State.core_closeStreams, State.core_setCore]
      exact hheld

end Sys2Proof.Machine
end

section
/-! PROOFS. The submission of a packet (R541): what a packet that is accepted or answered at once leaves behind; the entry
that a ring fetches; the packet that a mailbox submits. -/

namespace Sys2Proof.Machine

/-! ### A packet answered at once -/

/-- The packet takes the next number and completes with a status and no result, without being accepted. -/
def State.answerAtOnce (s : State) (path : Path) (pk : Packet) (sqHead st : Nat) : State :=
  ({ s with cmd := { s.cmd with nextId := s.cmd.nextId + 1 } } : State).commitRaw s.cmd.nextId path pk sqHead st []

@[simp] theorem State.flights_answerAtOnce (s : State) (path : Path) (pk : Packet) (sqHead st : Nat) :
    (s.answerAtOnce path pk sqHead st).cmd.flights = s.cmd.flights := rfl
@[simp] theorem State.committed_answerAtOnce (s : State) (path : Path) (pk : Packet) (sqHead st : Nat) :
    (s.answerAtOnce path pk sqHead st).cmd.committed = s.cmd.committed ++
      [⟨s.cmd.nextId, path, pk.opcode, st, pk.seq.toNat, pk.tag.toNat, pk.part, sqHead, pk.irq, []⟩] := rfl
@[simp] theorem State.ring_answerAtOnce (s : State) (path : Path) (pk : Packet) (sqHead st r : Nat) :
    (s.answerAtOnce path pk sqHead st).ring r = s.ring r := rfl
@[simp] theorem State.mbox_answerAtOnce (s : State) (path : Path) (pk : Packet) (sqHead st b : Nat) :
    (s.answerAtOnce path pk sqHead st).mbox b = s.mbox b := rfl

@[simp] theorem State.ring_accept (s : State) (path : Path) (pk : Packet) (sqHead : Nat) (m : Option Master) (r : Nat) :
    (s.accept path pk sqHead m).ring r = s.ring r := rfl
@[simp] theorem State.mbox_accept (s : State) (path : Path) (pk : Packet) (sqHead : Nat) (m : Option Master) (b : Nat) :
    (s.accept path pk sqHead m).mbox b = s.mbox b := rfl

/-! ### The checks of R527 -/

/-- No check reads a ring page. -/
@[simp] theorem State.packetStatus_updRing (s : State) (r : Nat) (f : Ring → Ring) (path : Path) (pk : Packet) :
    (s.updRing r f).packetStatus path pk = s.packetStatus path pk := rfl

/-- No check reads a mailbox. -/
@[simp] theorem State.packetStatus_updMbox (s : State) (b : Nat) (f : Mailbox → Mailbox) (path : Path) (pk : Packet) :
    (s.updMbox b f).packetStatus path pk = s.packetStatus path pk := rfl

theorem State.takePacketOn_of_passes {s : State} {path : Path} {pk : Packet} (h : s.packetStatus path pk = none)
    (sqHead : Nat) (m : Option Master) : s.takePacketOn path pk sqHead m = s.accept path pk sqHead m := by
  simp only [State.takePacketOn, h]

theorem State.takePacketOn_of_fails {s : State} {path : Path} {pk : Packet} {st : Nat} (h : s.packetStatus path pk = some st)
    (sqHead : Nat) (m : Option Master) : s.takePacketOn path pk sqHead m = s.answerAtOnce path pk sqHead st := by
  simp only [State.takePacketOn, h, State.answerAtOnce]

@[simp] theorem State.ring_takePacketOn (s : State) (path : Path) (pk : Packet) (sqHead : Nat) (m : Option Master) (r : Nat) :
    (s.takePacketOn path pk sqHead m).ring r = s.ring r := by
  cases h : s.packetStatus path pk with
  | none => rw [takePacketOn_of_passes h, ring_accept]
  | some st => rw [takePacketOn_of_fails h, ring_answerAtOnce]

@[simp] theorem State.mbox_takePacketOn (s : State) (path : Path) (pk : Packet) (sqHead : Nat) (m : Option Master) (b : Nat) :
    (s.takePacketOn path pk sqHead m).mbox b = s.mbox b := by
  cases h : s.packetStatus path pk with
  | none => rw [takePacketOn_of_passes h, mbox_accept]
  | some st => rw [takePacketOn_of_fails h, mbox_answerAtOnce]

/-! ### Rings -/

/-- A sound entry of the partition table is not rewritten. -/
theorem State.fixEntry_of_sound {s : State} {p : Nat} (h : (s.part p).pairBad = false) : s.fixEntry p = s := by
  simp [State.fixEntry, h]

/-- The ring passes the entry at its SQ_HEAD. -/
def State.passEntry (s : State) (n : Nat) : State :=
  s.updRing n (fun r => { r with sqHead := ((s.ring n).sqHead + 1) % 2 ^ (s.ring n).sqLog2 })

/-- The ring passes the entry at its SQ_HEAD, which carries NEXT_SEQ. -/
def State.passInSeq (s : State) (n : Nat) : State :=
  (s.passEntry n).updRing n (fun r => { r with nextSeq := wrap32 (r.nextSeq + 1) })

@[simp] theorem State.ring_passEntry (s : State) (n : Nat) : (s.passEntry n).ring n =
    { s.ring n with sqHead := ((s.ring n).sqHead + 1) % 2 ^ (s.ring n).sqLog2 } := ring_updRing ..

@[simp] theorem State.ring_passInSeq (s : State) (n : Nat) : (s.passInSeq n).ring n =
    { (s.passEntry n).ring n with nextSeq := wrap32 ((s.ring n).nextSeq + 1) } := by
  rw [passInSeq, ring_updRing, ring_passEntry]

@[simp] theorem State.packetStatus_passInSeq (s : State) (n : Nat) (path : Path) (pk : Packet) :
    (s.passInSeq n).packetStatus path pk = s.packetStatus path pk := by
  rw [passInSeq, packetStatus_updRing, passEntry, packetStatus_updRing]

/-- R541: an entry out of sequence is answered at once. -/
theorem State.takeEntry_of_seq_ne {s : State} {n : Nat} {bytes : List Byte}
    (h : (Packet.ofWords (bytesToWords bytes)).seq.toNat ≠ (s.ring n).nextSeq) :
    s.takeEntry n bytes = (s.passEntry n).answerAtOnce (.ring n) (Packet.ofWords (bytesToWords bytes))
      (((s.ring n).sqHead + 1) % 2 ^ (s.ring n).sqLog2) stSeqMismatch := by
  have hseq : (Packet.ofWords (bytesToWords bytes)).seq.toNat ≠ ((s.passEntry n).ring n).nextSeq := by
    rwa [ring_passEntry]
  exact if_pos hseq

/-- R541: an entry in sequence meets the checks of R527, on the control ring or for a partition that is whole. -/
theorem State.takeEntry_of_seq_eq {s : State} {n : Nat} {bytes : List Byte}
    (h : (Packet.ofWords (bytesToWords bytes)).seq.toNat = (s.ring n).nextSeq)
    (hpart : n ≠ 0 → (s.part n).pairBad = false ∧ (s.part n).state ≠ .destroying) :
    s.takeEntry n bytes = (s.passInSeq n).takePacketOn (.ring n) (Packet.ofWords (bytesToWords bytes))
      (((s.ring n).sqHead + 1) % 2 ^ (s.ring n).sqLog2) none := by
  have hseq : ¬ (Packet.ofWords (bytesToWords bytes)).seq.toNat ≠ ((s.passEntry n).ring n).nextSeq := by
    rw [ring_passEntry]
    exact not_not_intro h
  have hsound : ¬ (n ≠ 0 ∧ ((s.passInSeq n).part n).pairBad = true) := fun ⟨hn, hbad⟩ =>
    Bool.false_ne_true ((hpart hn).1.symm.trans hbad)
  have hstays : ¬ (n ≠ 0 ∧ ((s.passInSeq n).part n).state = .destroying) := fun ⟨hn, hgone⟩ => (hpart hn).2 hgone
  exact (if_neg hseq).trans ((if_neg hsound).trans (if_neg hstays))

/-- A ring in host memory that may fetch takes the entry that the host returns. -/
theorem exec_ringFetch_of_host {s : State} {n : Nat} {bytes : List Byte} (hn : n < 65) (hmay : s.mayFetch n = true)
    (hhost : (s.ring n).sqHost = true) (hlen : bytes.length = 64) (hsound : n ≠ 0 → (s.part n).pairBad = false) :
    exec (.ringFetch n (some bytes) []) s = .next (s.takeEntry n bytes) := by
  have hfix : (if n = 0 then s else s.fixEntry n) = s := by
    split
    next => rfl
    next h => exact State.fixEntry_of_sound (hsound h)
  have hexec : exec (.ringFetch n (some bytes) []) s = execRingFetch n (some bytes) [] s := rfl
  simp [hexec, execRingFetch, onUnit, hn, hmay, hfix, hhost, hlen]

/-! ### Mailboxes -/

/-- R537: an idle mailbox becomes busy with the packet in it. -/
theorem exec_mboxDoorbell_of_idle {s : State} {m : Master} (hm : ∀ p, m ≠ .fm p) (hidle : (s.mbox m.bank).busy = false)
    (hfetch : s.cmd.fetchStopped = false) :
    exec (.mboxDoorbell m) s = .next ((s.updMbox m.bank (fun x => { x with busy := true })).takePacketOn (.mailbox m.bank)
      (Packet.ofWords ((s.mbox m.bank).cmd.getAll 0 0 16)) 0 (some (mboxMaster m.bank))) := by
  have hbank : exec (.mboxDoorbell m) s = .next (s.submitMbox m.bank) := by
    cases m with
    | fm p => exact absurd rfl (hm p)
    | _ => rfl
  simp [hbank, State.submitMbox, hidle, hfetch]

/-- Settles O43: an entry out of sequence is answered at once with SEQ_MISMATCH; one in sequence moves NEXT_SEQ and then
meets R527, which moves no ring page; a mailbox submits its packet to R527 with no comparison of SEQ. -/
theorem ringSeq : Obligations.ring_seq := by
  refine ⟨fun s n bytes hn hmay hhost hlen hpart => ?_, fun s m hm hidle hfetch => ?_⟩
  · refine ⟨s.takeEntry n bytes, exec_ringFetch_of_host hn hmay hhost hlen fun h => (hpart h).1, ?_⟩
    by_cases hseq : (Packet.ofWords (bytesToWords bytes)).seq.toNat = (s.ring n).nextSeq
    · rw [State.takeEntry_of_seq_eq hseq hpart]
      refine ⟨by simp, fun h => absurd hseq h, fun _ => ⟨by simp [wrap32], fun hpass => ?_, fun st hfail => ?_⟩⟩
      · rw [State.takePacketOn_of_passes ((s.packetStatus_passInSeq ..).trans hpass)]
        exact ⟨rfl, rfl⟩
      · rw [State.takePacketOn_of_fails ((s.packetStatus_passInSeq ..).trans hfail)]
        exact ⟨rfl, rfl⟩
    · rw [State.takeEntry_of_seq_ne hseq]
      exact ⟨by simp, fun _ => ⟨by simp, rfl, rfl⟩, fun h => absurd h hseq⟩
  · refine ⟨_, exec_mboxDoorbell_of_idle hm hidle hfetch, by simp, fun hpass => ?_⟩
    rw [State.takePacketOn_of_passes ((s.packetStatus_updMbox ..).trans hpass)]
    rfl

end Sys2Proof.Machine
end
